-- ==== Sys2Proof/Word.lean ====
section
/-!
DEFINITION. Word.lean: the operand types of the commands, as plain data.
-/
namespace Sys2Proof

/-- The two host ports (R17: port A is requester 0). -/
inductive Port where
  | a | b
deriving DecidableEq, Repr

/-- The two halves of the logic die. -/
inductive Half where
  | west | east
deriving DecidableEq, Repr

/-- The five units a sequencer issues to (R109, numbered as in R111). -/
inductive XUnit where
  | mx | vu | mov | mem | eng
deriving DecidableEq, Repr

/-- The engines that take commands (R120). -/
inductive Engine where
  | aster | iris | crocus | dahlia | poppy | lattice
deriving DecidableEq, Repr

/-- What every issued instruction carries beside its operation's fields (R108): the issuing core, its index in the
core's list, the VARY and CHEAP flags, the LAYER field, and the ACLK cycles since the core's previous issue (R485;
timing is an input of the model). -/
structure Ins where
  core : Fin 192
  index : Nat
  vary : Bool
  cheap : Bool
  layer : Nat
  delay : Nat
deriving DecidableEq, Repr

/-- Host memory as the module finds it through each port while a command runs: the bytes a read returns.  A read of a
byte that is not listed fails (R417). -/
structure HostMem where
  a : List Host.Cell
  b : List Host.Cell
deriving DecidableEq, Repr

/-- The outcome of checking a granule on a read (R207): it passes, it fails once and passes on the second read, or it
fails twice. -/
inductive Check where
  | ok | reread | hard
deriving DecidableEq, Repr

/-- Target formats of a conversion of long accumulators (R101). -/
inductive ConvFmt where
  | f32 | bf16 | f16 | a8
deriving DecidableEq, Repr

/-- Weight operand formats of a pass (R109). -/
inductive WFmt where
  | w2 | t | w4 | w8 | kv8
deriving DecidableEq, Repr

/-- Vector operations of R68. -/
inductive VecFn where
  | add | sub | mul | fma | div | sqrt
deriving DecidableEq, Repr

/-- The atomics of R35 and R312. -/
inductive AtomFn where
  | fadd | cas | min | max
deriving DecidableEq, Repr

/-- The AtomicOps of R415. -/
inductive BarAtom where
  | fetchAdd | swap | cas
deriving DecidableEq, Repr

/-- The request and position a converted row belongs to: the draw coordinates of R80. -/
structure RowCoord where
  ctx : Nat
  pos : Nat
deriving DecidableEq, Repr

/-- A region of the DRAM direct window: base address and length in bytes. -/
structure Region where
  base : Nat
  len : Nat
deriving DecidableEq, Repr

/-- The stop set of R254: stop tokens and stop sequences in emission order. -/
structure StopSet where
  tokens : List Nat
  seqs : List (List Nat)
deriving DecidableEq, Repr

/-- The fields of a request descriptor (R253). -/
structure ReqDesc where
  seed : Nat
  maxLen : Nat
  maxNew : Nat
  lease : Nat
  binding : Nat
  be : Bool
  stopMode : Bool
  auto : Bool
  pin : Bool
  entropy : Bool
  handleEn : Bool
  walk : Bool
  model : Nat
  adapter : Nat
  temp : Nat
  topK : Nat
  topP16 : Nat
  client : Nat
  handle : Nat
  resultAddr : Nat
  resultEntries : Nat
  stopAddr : Nat
deriving DecidableEq, Repr

/-- The KIND of a request record of a step (R261). -/
inductive ReqKind where
  | start | cont | verify | autoDecode | release
deriving DecidableEq, Repr

/-- A request record of a step header (R261), with the setup block of a START and the token IDs of its rows (which
travel as the step's input; the record itself does not hold them). -/
structure ReqRec where
  ctx : Nat
  kind : ReqKind
  sample : Bool
  commit : Bool
  archive : Bool
  vary : Bool
  row0 : Nat
  rows : Nat
  pos0 : Nat
  prevAccepted : Option Nat
  commitLen : Nat
  drafts : List Nat
  tokens : List Nat
  setup : Option (ReqDesc × StopSet)
deriving DecidableEq, Repr

/-- The step header (R261) and its request records. -/
structure StepHeader where
  step : Nat
  genId : Nat
  gen : Nat
  hold : Nat
  be : Bool
  empty : Bool
  status : Nat
  preemptions : Nat
  rows : Nat
  reqs : List ReqRec
deriving DecidableEq, Repr

/-- What a return message carries for one request (R243): its emitted tokens, the accepted count of a verify, the stop
reason, and whether the request's outputs are named invalid under R208. -/
structure RetReq where
  ctx : Nat
  tokens : List Nat
  accepted : Nat
  reason : Nat
  invalid : Bool
deriving DecidableEq, Repr

/-- A return message (R243). -/
structure ReturnMsg where
  step : Nat
  status : Nat
  preemptions : Nat
  vary : Bool
  reqs : List RetReq
deriving DecidableEq, Repr

/-- How a pull of data from the host and its write to the cards ended (R222, R223). -/
inductive PullEnd where
  | ok | unreadable | refused
deriving DecidableEq, Repr

/-- The party that a secured session's key decides (R437, R442, R443): a tenant by its lease slot. -/
inductive Party where
  | owner | service | anyKey
  | tenant (slot : Nat)
deriving DecidableEq, Repr

/-- The sideband inputs in the order of HOST_SIDEBAND's low bits (R434). -/
inductive SbInput where
  | shutter | leak | perstA | perstB
deriving DecidableEq, Repr

/-- The firmware components of R432. -/
inductive FwComp where
  | control | security | mgmt | power
deriving DecidableEq, Repr

/-- A lease record as the security block finds it (R445): its fields, and which key its SIGNATURE verifies under. -/
structure LeaseRecord where
  lease : Nat
  ide : Bool
  quota : Nat
  effective : Nat
  serial : Nat
  seq : Nat
  tenantPub : List Nat
  imagePub : List Nat
  reservedOk : Bool
  byOwner : Bool
  byTenant : Bool
deriving DecidableEq, Repr

/-- What self-test found (R462): the failing units of each kind. -/
structure SelfTest where
  cores : List (Fin 192)
  routers : List (Fin 208)
  hingeLinks : List (Fin 8)
  commons : List (Fin 2)               -- a half's bank failed
  engines : List (Fin 14)              -- 7 * half + engine
  vaults : List (Fin 32)
  cards : List (Nat × Nat)             -- card, state it takes: 0 absent, 4 worn, 5 failed
  hostPorts : List (Fin 2)
  fabPorts : List (Fin 8)
  transom : Bool
  security : Bool
  pll : Bool
deriving DecidableEq, Repr

/-! ### What the module reads out of a Lumale image (R350 to R356) -/

/-- A CORE_GROUP section (R355). -/
structure ImgGroup where
  idx : Nat
  role : Nat
  half : Nat
  firstLayer : Nat
  lastLayer : Nat
  vaults : List Nat
  cores : List Nat
deriving DecidableEq, Repr

/-- A routing policy (R145). -/
structure RoutePolicy where
  layer : Nat
  k : Nat
  alt : Nat
  cf16 : Nat
  score : Nat
  normTopk : Bool
  renorm : Bool
  noWait : Bool
  biasEn : Bool
  e : Nat
deriving DecidableEq, Repr

/-- An attention policy (R167). -/
structure AttPolicy where
  layer : Nat
  qHeads : Nat
  kvHeads : Nat
  group : Nat
  headDim : Nat
  rotDims : Nat
  mask : Nat
  window : Nat
  scale : Nat
  reform : Bool
  inDram : Bool
deriving DecidableEq, Repr

/-- A conversion of the LOGICAL_PROGRAM section (R352): its layer, control word (R70), and whether its target is
KV8. -/
structure LogicalConv where
  layer : Nat
  ctl : Nat
  kv : Bool
  a8 : Bool
deriving DecidableEq, Repr

/-- What an instruction of an image's list is, as the structure checks see it. -/
inductive ImgOp where
  | reserved                                      -- a reserved FAMILY or OPER value (R109)
  | pass (f16 : Bool) (row mMinus1 wfmt : Nat)
  | wait (units count : Nat)
  | eng (engine : Nat) (entropy : Bool)
  | route (p : RoutePolicy)
  | convert (ctl : Nat)
  | fallbackEntry
  | store (addr : Nat)
  | other
deriving DecidableEq, Repr

/-- One instruction of an image's lists. -/
structure ImgInstr where
  core : Nat
  index : Nat
  layer : Nat
  vary : Bool
  cheap : Bool
  lrIndex : Nat
  op : ImgOp
deriving DecidableEq, Repr

/-- A live-range record of a core (R113): core SRAM ranges as (offset, length), accumulator rows as (first, count). -/
structure LiveRange where
  core : Nat
  index : Nat
  sram : List (Nat × Nat)
  rows : List (Nat × Nat)
deriving DecidableEq, Repr

/-- The VAULT_MAP section (R352). -/
structure VaultMap where
  scratch : List Region
  ctxRegion : Region
  saveArea : Region
  capture : Option Region
  archiveExtents : Option (Nat × Nat)   -- first extent and count
  commonsBytes : List Nat               -- bytes of held score chunks that the image needs in each half's commons region
  commonsRegion : List Nat              -- bytes of the commons region assigned in each half
  poolBase : Nat
  pageBytes : Nat
  frames : Region
  pinFrames : List Nat                  -- per generation slot
  expertFrames : Nat
  cacheFrames : Nat
  smallFrames : Nat
  genRange : List (Nat × Nat)           -- first extent and count, per generation slot
  smallRange : Nat × Nat
deriving DecidableEq, Repr

/-- Where the K-page and V-page of a local layer and KV head lie in a pool page (R175). -/
structure KvPlace where
  layer : Nat
  kvHead : Nat
  kOff : Nat
  vOff : Nat
  nb : Nat
deriving DecidableEq, Repr

/-- A job window (R307). -/
structure JobWin where
  job : Nat
  lease : Nat
  load : Bool
  store : Bool
  atomic : Bool
  reduce : Bool
  mcast : Bool
  bulkW : Bool
  bulkR : Bool
  racks : Nat
  offset : Nat
  len : Nat
  dev : Nat
deriving DecidableEq, Repr

/-- A PRESENT position of the cabling plan (R326). -/
structure PlanPos where
  pos : Nat
  spare : Bool
  tpos : Nat
deriving DecidableEq, Repr

/-- A multicast group: its members as logical module IDs (R314). -/
structure McastGroup where
  group : Nat
  members : List Nat
deriving DecidableEq, Repr

/-- A range of the capture map (R347): layer, tensor, device address (bit 63: commons) and bytes. -/
structure CapRange where
  layer : Nat
  tensor : Nat
  addr : Nat
  bytes : Nat
deriving DecidableEq, Repr

/-- A detour entry (R281): the router that holds it, the target stop, and the exit port. -/
structure DetourEnt where
  router : Nat
  target : Nat
  exit : Nat
deriving DecidableEq, Repr

/-- The heat fields of the binding (R161). -/
structure HeatPolicy where
  shift : Nat
  every : Nat
  maxFetch : Nat
  hyst : Nat
deriving DecidableEq, Repr

/-- The SERVING section (R354). -/
structure Serving where
  prefixMode : Nat
  streamOk : Bool
  stopOk : Bool
  speculation : Bool
  entropyOk : Bool
  archive : Bool
  capture : Bool
  stepRows : Nat
  lcRows : Nat
  prefixRecords : Nat
  kvPoolPages : Nat
  firstLayer : Nat
  lastLayer : Nat
  modelLayers : Nat
deriving DecidableEq, Repr

/-- A Lumale image as the module finds it in host memory: the header's fields, what its sections hold, and what its
digests and signature come to. -/
structure ImageDesc where
  hdrOk : Bool                     -- MAGIC, FORMAT, PART and STEPPING as R350 states
  kind : Nat
  region : Nat
  totalBytes : Nat
  lease : Nat
  binding : Nat
  minCores : Nat
  minVaults : Nat
  needs : Nat
  fabNeeds : Nat
  seq : Nat
  logical : List Nat               -- LOGICAL, eight words
  digest : List Nat                -- the signed digest, eight words (R353)
  module : List Nat                -- MODULE, eight words
  badSection : Option (Nat × Nat)  -- a malformed directory: TYPE and directory index
  signatureOk : Bool               -- signed digest and SIGNATURE
  keyOk : Bool                     -- KEY_ID is admitted for LEASE
  digestsOk : Bool                 -- MODULE and LOGICAL equal the recomputed values
  serving : Serving
  routes : List RoutePolicy
  att : List AttPolicy
  heat : HeatPolicy
  convs : List LogicalConv
  vmap : VaultMap
  kv : List KvPlace
  groups : List ImgGroup
  instrs : List ImgInstr
  liveRanges : List LiveRange
  listBytes : List (Nat × List Nat)  -- instruction lists and live-range records: core × 2^21 + core SRAM offset, bytes
  plan : List PlanPos
  windows : List JobWin
  mcast : List McastGroup
  capMap : Option (List CapRange)
  detours : List DetourEnt
  detoursOk : Bool                 -- the checks of R281 on the detour tables pass
  applyBytes : List (Nat × List Nat)   -- the image area's bytes, as (tiered address, bytes)
deriving DecidableEq, Repr

end Sys2Proof
end

