-- ==== Sys2Proof/Syntax.lean ====
section
/-!
DEFINITION. Syntax.lean: the commands of the module, one constructor per row of spec/opcode_table.json, in the table's
order.  A command is what the module's surroundings or one of its own units brings about: a register access, an
instruction that a core issues, a packet that arrives, a timer that runs out.  What the command's rules take from
outside the module (data returned by a host, a sensor's value, the instant) is an operand.
-/
namespace Sys2Proof

inductive Instr where
  /-- REGISTER_WRITE: A host write to a register that has no row of its own, including writes discarded as out of range and same-cycle writes from both ports. (R17) -/
  | registerWrite (p : Port) (off : Nat) (v : BitVec 32)
  /-- BAD_ACCESS: An access to a reserved offset or of a forbidden width or alignment reads all ones, discards writes and is logged. (R16) -/
  | badAccess (p : Port) (bar4 : Bool) (off size : Nat) (write : Bool)
  /-- PAIR_LOWER_READ: A 32-bit read of the lower register of a pair loads the port's latch with the upper register's value. (R14) -/
  | pairLowerRead (p : Port) (off : Nat)
  /-- PAIR_UPPER_READ: A 32-bit read of the upper register of a pair returns the latched value and empties the latch, or returns the current value. (R14) -/
  | pairUpperRead (p : Port) (off : Nat)
  /-- LOCK_SET: Writing 1 to a block's LOCK bit makes its RWL fields read only until module reset. (R15) -/
  | lockSet (p : Port) (block : Fin 12)
  /-- NOP: The sequencer issues a NOP instruction. (R109) -/
  | nop (i : Ins)
  /-- LOOP: The sequencer issues a LOOP instruction and redirects fetch. (R109) -/
  | loop (i : Ins) (target : Nat) (taken : Bool)
  /-- BRANCH: The sequencer issues a BRANCH on a step parameter. (R109) -/
  | branch (i : Ins) (target : Nat) (taken : Bool)
  /-- FALLBACK_ENTRY: The sequencer reaches a layer's FALLBACK_ENTRY instruction. (R106) -/
  | fallbackEntry (i : Ins)
  /-- END_LAYER: The sequencer issues END_LAYER, closing a layer. (R109) -/
  | endLayer (i : Ins)
  /-- END_STEP: The sequencer issues END_STEP, closing the core's part of a portion. (R109) -/
  | endStep (i : Ins)
  /-- MMA: A matrix pass of A8 activations against a W-tile or KT tile is issued to the matrix engine. (R85) -/
  | mma (i : Ins) (aGranule wGranule row mMinus1 : Nat) (wfmt : WFmt)
  /-- MMA_X: A cross-scaled matrix pass of probabilities against KV8 values with per-token scales is issued. (R99) -/
  | mmaX (i : Ins) (aGranule wGranule row mMinus1 : Nat)
  /-- MMA_F16: A binary16 fallback matrix pass on the mullion path is issued. (R100) -/
  | mmaF16 (i : Ins) (aGranule wGranule row mMinus1 : Nat) (wfmt : WFmt)
  /-- MMA_PASS_COMPLETE: A matrix pass ends; its residue check passes and rows flip, or a mismatch starts one rerun. (R103) -/
  | mmaPassComplete (core : Fin 192) (mismatch : Bool) (latency : Nat)
  /-- RESIDUE_RERUN_COMPLETE: A rerun of a mismatched pass ends and either passes or poisons every output of the pass. (R103) -/
  | residueRerunComplete (core : Fin 192) (mismatch : Bool) (latency : Nat) (t : Nat)
  /-- ACC_ZERO: Accumulator rows and their flags are cleared. (R101) -/
  | accZero (i : Ins) (row m : Nat)
  /-- ACC_CONVERT: A row range of long accumulators is converted once into an IEEE format or through the quantiser into A8. (R101) -/
  | accConvert (i : Ins) (row m : Nat) (fmt : ConvFmt) (ctl dst elem0 : Nat) (coords : List RowCoord)
  /-- TRAP_MESSAGE: A core receives a trap message on VC0, stops issuing, discards the layer's pending instructions and drains. (R106) -/
  | trapMessage (core : Fin 192) (layer : Nat)
  /-- TRAP_DRAIN_DONE: After the trap drain a core resumes at the layer's FALLBACK_ENTRY with the layer's inputs. (R106) -/
  | trapDrainDone (core : Fin 192) (entry : Nat)
  /-- ACC_EXPORT: A long accumulator is written out as a 32-byte record. (R96) -/
  | accExport (i : Ins) (row col dst : Nat)
  /-- ACC_IMPORT: A 32-byte accumulator record is added exactly into an accumulator and its flags ORed. (R96) -/
  | accImport (i : Ins) (row col src : Nat)
  /-- VEC_OP: A binary32 vector operation is issued to the vector unit. (R68) -/
  | vecOp (i : Ins) (fn : VecFn) (lanes dst src1 src2 src3 : Nat)
  /-- MOV: A MOV instruction hands 1 to 64 descriptors to Sash. (R139) -/
  | mov (i : Ins) (descGranule : Nat) (commons : Bool) (countMinus1 : Fin 64)
  /-- MEM_LOAD: A core issues a DRAM load in the device range. (R33) -/
  | memLoad (i : Ins) (addr len dst : Nat) (chk : List (Nat × Check)) (hostOk : Bool)
  /-- MEM_STORE: A core issues a DRAM store, merging partial granules with a fresh code. (R206) -/
  | memStore (i : Ins) (addr src len : Nat) (chk : List (Nat × Check))
  /-- MEM_ATOMIC: A core issues a fetch-add, compare-swap, min or max atomic on DRAM. (R35) -/
  | memAtomic (i : Ins) (fn : AtomFn) (wide : Bool) (addr operand compare dst : Nat) (chk : List (Nat × Check))
  /-- MEM_FENCE: A core issues a fence ordering its DRAM accesses. (R33) -/
  | memFence (i : Ins)
  /-- MEM_RELEASE: A core performs a release store. (R34) -/
  | memRelease (i : Ins) (addr src len : Nat) (chk : List (Nat × Check))
  /-- MEM_ACQUIRE: A core performs an acquire load. (R34) -/
  | memAcquire (i : Ins) (addr len dst : Nat) (chk : List (Nat × Check)) (hostOk : Bool)
  /-- ENG_REQUEST: A core issues an ENG instruction naming a command record for an engine of one half. (R120) -/
  | engRequest (i : Ins) (engine : Engine) (half : Half) (granule : Nat)
  /-- WAIT: WAIT holds issue until the named units have at most COUNT outstanding instructions. (R110) -/
  | wait (i : Ins) (units count : Nat)
  /-- BARRIER: A BARRIER synchronises a core group of the image. (R109) -/
  | barrier (i : Ins)
  /-- INSTRUCTION_COMPLETE: An outstanding non-MMA instruction completes when its results are written, releasing waits. (R110) -/
  | instructionComplete (core : Fin 192) (unit : XUnit) (index latency : Nat)
  /-- RLOAD: A core issues a remote load through the fabric into a core SRAM granule. (R311) -/
  | rload (i : Ins) (target job size offset loc : Nat)
  /-- RSTORE: A core issues a remote store. (R311) -/
  | rstore (i : Ins) (target job size offset loc : Nat)
  /-- RFADD: A core issues a remote fetch-add. (R312) -/
  | rfadd (i : Ins) (target job size offset loc : Nat)
  /-- RCAS: A core issues a remote compare-swap. (R312) -/
  | rcas (i : Ins) (target job size offset loc : Nat)
  /-- RMIN: A core issues a remote signed minimum. (R312) -/
  | rmin (i : Ins) (target job size offset loc : Nat)
  /-- RMAX: A core issues a remote signed maximum. (R312) -/
  | rmax (i : Ins) (target job size offset loc : Nat)
  /-- RREDUCE: A core issues an exact remote reduction in SCALAR or ACC form. (R313) -/
  | rreduce (i : Ins) (target job size : Nat) (form : Bool) (scale offset loc : Nat)
  /-- RMSTORE: A core issues a multicast store to a switch group. (R314) -/
  | rmstore (i : Ins) (group job size offset loc : Nat)
  /-- RFENCE: A core issues a fence that completes when all its earlier remote operations have completed. (R316) -/
  | rfence (i : Ins)
  /-- RRETRY: A core resends an atomic that ended TARGET_DEAD, with its original SEQ. (R322) -/
  | rretry (i : Ins) (target job size offset loc : Nat)
  /-- PREEMPTION_POST: Control firmware posts a pre-emption to the cores of a running BE portion. (R113) -/
  | preemptionPost (cores : List (Fin 192))
  /-- CHEAP_POINT_SAVE: A core with a posted pre-emption reaches a cheap point, drains and saves its live ranges. (R113) -/
  | cheapPointSave (core : Fin 192) (index lrIndex : Nat)
  /-- PREEMPT_RESUME: A suspended portion's live ranges are restored and issue restarts at the marked instruction. (R113) -/
  | preemptResume (core : Fin 192)
  /-- SOFTMAX: Iris runs the MAX, SUM or NORM phase of softmax on one score chunk. (R125) -/
  | softmax (half : Half) (chk : List (Nat × Check)) (hostOk : Bool)
  /-- RMSNORM: Iris applies RMS norm to rows and writes A8 or bfloat16. (R126) -/
  | rmsnorm (half : Half) (chk : List (Nat × Check)) (hostOk : Bool)
  /-- LAYERNORM: Iris applies layer norm to rows and writes A8 or bfloat16. (R126) -/
  | layernorm (half : Half) (chk : List (Nat × Check)) (hostOk : Bool)
  /-- ROTATE: Crocus rotates query or key vectors by position. (R127) -/
  | rotate (half : Half) (chk : List (Nat × Check)) (hostOk : Bool)
  /-- APPEND: Dahlia quantises keys and values into KV8 and writes them into the request's pages with speculation tags. (R128) -/
  | append (half : Half) (chk : List (Nat × Check)) (hostOk : Bool)
  /-- SAMPLE: Poppy selects one token from the logits under temperature, top-k and top-p. (R129) -/
  | sample (half : Half) (chk : List (Nat × Check)) (hostOk : Bool)
  /-- VERIFY: Poppy samples against draft tokens and reports the accepted count and emitted tokens. (R130) -/
  | verify (half : Half) (chk : List (Nat × Check)) (hostOk : Bool)
  /-- WALK: Lattice walks the prefix tree over a prompt and returns the matched length and node. (R133) -/
  | walk (half : Half) (chk : List (Nat × Check))
  /-- ROUTE: Aster scores, ranks and assigns a batch's tokens to experts and writes slot, header and dispatch tables. (R144) -/
  | route (half : Half) (chk : List (Nat × Check)) (hostOk : Bool)
  /-- ENGINE_COMMAND_DONE: An engine writes STATUS for a command and completes its ENG instruction. (R121) -/
  | engineCommandDone (half : Half) (engine : Engine) (latency : Nat)
  /-- ENGINE_WATCHDOG: A command not complete 2 ms after leaving the queue is stopped, the engine reset and its outputs poisoned. (R123) -/
  | engineWatchdog (half : Half) (engine : Engine)
  /-- COPY: Sash runs a COPY descriptor between two spaces. (R140) -/
  | copy (half : Half) (chk : List (Nat × Check)) (hostOk : Bool) (host : HostMem)
  /-- COPY_2D: Sash runs a strided COPY_2D descriptor. (R140) -/
  | copy2d (half : Half) (chk : List (Nat × Check)) (hostOk : Bool) (host : HostMem)
  /-- FILL_ZERO: Sash runs a FILL_ZERO descriptor. (R140) -/
  | fillZero (half : Half)
  /-- PAGE_TO_KT: Sash builds a KT operand tile from two K-pages. (R138) -/
  | pageToKt (half : Half) (chk : List (Nat × Check)) (hostOk : Bool) (host : HostMem)
  /-- PAGE_TO_VX: Sash builds a VX operand tile from two V-pages. (R138) -/
  | pageToVx (half : Half) (chk : List (Nat × Check)) (hostOk : Bool) (host : HostMem)
  /-- SASH_DESCRIPTOR_DONE: A Sash descriptor completes, writing its NOTIFY status when asked. (R141) -/
  | sashDescriptorDone (half : Half) (place : Fin 64) (latency : Nat)
  /-- RING_ENABLE: Setting EN of an Aster counter, journal or sample ring resets HEAD and TAIL and starts writing records. (R164) -/
  | ringEnable (p : Port) (ring : Fin 3) (en : Bool)
  /-- RING_TAIL_WRITE: The driver advances TAIL of an Aster counter, journal or sample ring, discarded unless on a record boundary. (R164) -/
  | ringTailWrite (p : Port) (ring : Fin 3) (v : BitVec 32)
  /-- EXPERT_PROMOTION: Every PROMOTE_EVERY boundaries control firmware starts fetches of hot experts and demotes victims. (R161) -/
  | expertPromotion
  /-- STEP_BOUNDARY: A step boundary applies rollbacks, commits, quota changes and evictions, then admits requests. (R179) -/
  | stepBoundary (t : Nat) (host : HostMem) (places : List Nat) (lost : List (Bool × List (Fin 4096)))
  /-- TENANT_SELECT: A write to ENG_KV_TSEL latches a tenant slot's pool fields for the port. (R191) -/
  | tenantSelect (p : Port) (slot : Fin 16)
  /-- PREFIX_ARCHIVE_DONE: An archive copy of a prefix lands in flash and the prefix becomes archivable. (R187) -/
  | prefixArchiveDone (id : Nat)
  /-- PREFIX_RESTORE_DONE: An archived prefix's restore lands and the request's attention layers proceed. (R187) -/
  | prefixRestoreDone (id : Nat) (ok : Bool)
  /-- REFETCH_DONE: A master copy re-read after a detection is rewritten and the stalled requester receives correct data. (R208) -/
  | refetchDone (granule : Nat) (fromFlash hostOk : Bool) (failsAgain : Option (Fin 32)) (t : Nat)
  /-- SCRUB_READ: Patrol scrub reads a DRAM granule and repairs, rewrites or leaves it marked. (R214) -/
  | scrubRead (addr : Nat) (check : Check) (failsAgain : Bool) (t : Nat)
  /-- EXTENT_FETCH_DONE: A fetched extent's last granule lands and passes its check; the extent becomes RESIDENT and stalled passes resume. (R199) -/
  | extentFetchDone (extent : Nat) (ok : Bool)
  /-- FRAME_RELEASE: A demoted extent's frame is freed once every read directed to it has completed. (R199) -/
  | frameRelease (extent : Nat)
  /-- FLASH_RELOCATE: The translation layer relocates an erase block for read disturb and erases it. (R202) -/
  | flashRelocate (card : Fin 2) (block wearPct sparePct : Nat) (worn exhausted : Bool)
  /-- FLASH_REFRESH: The translation layer rewrites aged or error-prone units. (R202) -/
  | flashRefresh (card : Fin 2) (block wearPct sparePct : Nat) (worn exhausted : Bool)
  /-- WEAR_LEVEL: The translation layer moves long-unread data when wear spread exceeds the limit. (R202) -/
  | wearLevel (card : Fin 2) (block wearPct sparePct : Nat) (worn exhausted : Bool)
  /-- CARD_CONTROLLER_FAULT: A flash card controller fault makes the card FAILED. (R203) -/
  | cardControllerFault (card : Fin 2)
  /-- CARD_PULLED: A card removed while ACTIVE becomes ABSENT and its reads are reissued to host copies. (R204) -/
  | cardPulled (card : Fin 2)
  /-- CARD_INSERTED: A card is inserted; VFLASH soft-starts, it enters INIT, is erased and starts rebuilding. (R468) -/
  | cardInserted (card : Fin 2) (serial wearPct sparePct : Nat)
  /-- CARD_REBUILD_DONE: The last extent of a rebuilding card is written and the card becomes ACTIVE. (R204) -/
  | cardRebuildDone (card : Fin 2)
  /-- PREPARE_REMOVE: MEM_CARD_CMD PREPARE_REMOVE stops issuing to a card and opens its VFLASH switch. (R468) -/
  | prepareRemove (p : Port) (card : Fin 2)
  /-- CARD_CANCEL: MEM_CARD_CMD CANCEL returns an ABSENT seated card to INIT. (R468) -/
  | cardCancel (p : Port) (card : Fin 2)
  /-- PORTION_END: A portion ends; without local poison it becomes final, otherwise its sources are restored and it is rerun. (R211) -/
  | portionEnd (t : Nat)
  /-- PORTION_RERUN_DONE: A replayed portion ends with DETECTED_RECOMPUTE or DETECTED_UNRECOVERED and its holds are released. (R211) -/
  | portionRerunDone (t : Nat)
  /-- LOAD_GO: MEM_LOAD_CMD GO starts a weight load at the validate, target and fit phases. (R222) -/
  | loadGo (p port : Port) (host : HostMem)
  /-- LOAD_ABORT: MEM_LOAD_CMD ABORT ends the load in progress and leaves nothing behind. (R223) -/
  | loadAbort (p : Port)
  /-- LOAD_PULL_DONE: A weight load's pull completes and its digest is verified. (R222) -/
  | loadPullDone (how : PullEnd) (data : List (Nat × List Nat)) (digestOk : Bool)
  /-- LOAD_PRIME_DONE: A weight load's PIN extents are resident and the slot becomes STANDBY or the small model RESIDENT. (R222) -/
  | loadPrimeDone (how : PullEnd)
  /-- SWITCH: MEM_GEN_CMD SWITCH is checked and accepted to take effect at the next boundary. (R231) -/
  | switch (p : Port) (slot : Fin 2)
  /-- DISCARD: MEM_GEN_CMD DISCARD empties a STANDBY generation slot. (R228) -/
  | discard (p : Port) (slot : Fin 2)
  /-- RELEASE: MEM_GEN_CMD RELEASE marks a small-model index RETIRING. (R239) -/
  | release (p : Port) (index : Fin 256)
  /-- RING_POLL: The idle entry module reads the heads of its enabled rings every POLL_US. (R249) -/
  | ringPoll (host : HostMem) (t : Nat)
  /-- LC_POLL: During a BE portion the entry module reads the LC ring heads every POLL_US to detect LC work. (R249) -/
  | lcPoll (host : HostMem) (t : Nat)
  /-- STEP_RECEIVE: A module receives a step header and records and checks its generation slot. (R230) -/
  | stepReceive (h : StepHeader) (t : Nat)
  /-- RETURN_MESSAGE: The entry module receives a step's return message carrying status and emitted tokens. (R243) -/
  | returnMessage (m : ReturnMsg) (t : Nat)
  /-- RETURN_LIMIT_EXPIRE: A step's return message is missing after CTX_RETURN_LIMIT and the step is declared TARGET_DEAD. (R244) -/
  | returnLimitExpire (step t : Nat)
  /-- ORPHAN_LIMIT_EXPIRE: An ORPHANED context passes CTX_ORPHAN_LIMIT and becomes ENDING. (R245) -/
  | orphanLimitExpire (ctx : Fin 4096) (t : Nat)
  /-- LC_RING_ENABLE: CTX_RING_CTL LC_EN enables or disables the port's LC submission ring. (R248) -/
  | lcRingEnable (p : Port) (on : Bool)
  /-- BE_RING_ENABLE: CTX_RING_CTL BE_EN enables or disables the port's BE submission ring. (R248) -/
  | beRingEnable (p : Port) (on : Bool)
  /-- CPL_ENABLE: CTX_RING_CTL CPL_EN enables the completion ring and flushes held records, or disables it. (R269) -/
  | cplEnable (p : Port) (on : Bool)
  /-- CPL_TAIL_WRITE: The driver advances CTX_CPL_TAIL, freeing room for held records. (R267) -/
  | cplTailWrite (p : Port) (v : BitVec 32)
  /-- STEP_ORIGIN_WRITE: A write of CTX_STEP_ORIGIN_HI sets the counter the next admitted step takes. (R260) -/
  | stepOriginWrite (p : Port) (v : BitVec 32)
  /-- ADOPT_GO: CTX_ADOPT_CMD GO submits an adopt record for the next boundary. (R272) -/
  | adoptGo (p : Port) (host : HostMem) (authSeq : Option Nat)
  /-- FLIT_CRC_FAIL: A receiver refuses a flit failing its CRC and requests replay. (R282) -/
  | flitCrcFail (router : Fin 208) (port : Fin 6) (sameFlit : Bool)
  /-- FLIT_REPLAY_REQUEST: A sender receives a replay request and resends from the refused flit. (R282) -/
  | flitReplayRequest (router : Fin 208) (port : Fin 6) (t : Nat)
  /-- MESH_TIMEOUT: A mesh request unanswered after NOC_TIMEOUT is delivered poisoned or made a local poison source. (R293) -/
  | meshTimeout (core : Fin 192) (read : Option Nat)
  /-- ROUTE_CHANGE_START: Control firmware stops injection toward affected targets and sends route-change markers. (R294) -/
  | routeChangeStart (routers : List (Fin 208))
  /-- ROUTE_CHANGE_MARKER: A router receives a route-change marker and acknowledges it. (R294) -/
  | routeChangeMarker (router : Fin 208)
  /-- ROUTE_CHANGE_ACK: A router's markers are all acknowledged; it resumes on the new route and NOC_DETOUR_SEQ advances. (R294) -/
  | routeChangeAck (router : Fin 208)
  /-- LANE_TRAIN: A fabric port trains its lanes, correcting reversal and polarity and substituting the spare. (R299) -/
  | laneTrain (port : Fin 8) (reversed : Bool) (good : Fin 32) (keyOk : Bool) (t : Nat)
  /-- LANE_FAIL: A lane exceeds its error limit and is replaced by the spare, or the port is shuttered. (R299) -/
  | laneFail (port : Fin 8) (lane : Fin 5) (t : Nat)
  /-- LANE_RECAL: SerDes recalibration moves one lane onto the spare, recalibrates it and moves it back. (R300) -/
  | laneRecal (port : Fin 8)
  /-- FRAME_AUTH_FAIL: A fabric frame failing authentication or error correction is discarded. (R301) -/
  | frameAuthFail (port : Fin 8)
  /-- LINK_KEY_RENEW: SM4-GCM link keys are renewed after 2^31 frames or one hour. (R449) -/
  | linkKeyRenew (port : Fin 8) (t : Nat)
  /-- LOAD: A module receives a LOAD packet, checks it and replies with data. (R311) -/
  | load (port : Fin 8) (bytes : List Nat) (chk : List (Nat × Check)) (hostOk : Bool) (t : Nat)
  /-- STORE: A module receives a STORE packet and performs it at the vault. (R311) -/
  | store (port : Fin 8) (bytes : List Nat) (chk : List (Nat × Check)) (t : Nat)
  /-- FADD: A module receives a FADD packet and applies it once, caching the reply. (R312) -/
  | fadd (port : Fin 8) (bytes : List Nat) (chk : List (Nat × Check)) (t : Nat)
  /-- CAS: A module receives a CAS packet and applies it once, caching the reply. (R312) -/
  | cas (port : Fin 8) (bytes : List Nat) (chk : List (Nat × Check)) (t : Nat)
  /-- MIN: A module receives a MIN packet and applies it once, caching the reply. (R312) -/
  | min (port : Fin 8) (bytes : List Nat) (chk : List (Nat × Check)) (t : Nat)
  /-- MAX: A module receives a MAX packet and applies it once, caching the reply. (R312) -/
  | max (port : Fin 8) (bytes : List Nat) (chk : List (Nat × Check)) (t : Nat)
  /-- REDUCE: A module receives a REDUCE packet and adds it exactly into accumulator records. (R313) -/
  | reduce (port : Fin 8) (bytes : List Nat) (chk : List (Nat × Check)) (t : Nat)
  /-- MSTORE: A module receives a multicast store and acknowledges it separately. (R314) -/
  | mstore (port : Fin 8) (bytes : List Nat) (chk : List (Nat × Check)) (t : Nat)
  /-- BULK_WRITE: A module receives a BULK_WRITE packet. (R315) -/
  | bulkWrite (port : Fin 8) (bytes : List Nat) (chk : List (Nat × Check)) (t : Nat)
  /-- BULK_READ: A module receives a BULK_READ packet and returns data on FVC3. (R315) -/
  | bulkRead (port : Fin 8) (bytes : List Nat) (chk : List (Nat × Check)) (hostOk : Bool) (t : Nat)
  /-- REPLY: An issuer receives a REPLY, completing an operation or writing an atomic's result record. (R319) -/
  | reply (port : Fin 8) (bytes : List Nat) (t : Nat)
  /-- SYNC: A receiver takes a SYNC and raises its expected SEQ for the flow. (R325) -/
  | sync (port : Fin 8) (bytes : List Nat) (t : Nat)
  /-- STEP_ABORT: A member receives STEP_ABORT and discards the step's holds and appends. (R324) -/
  | stepAbort (port : Fin 8) (bytes : List Nat) (t : Nat)
  /-- PORTION_FAILED: The entry module receives PORTION_FAILED, ends the step and sends STEP_ABORT. (R324) -/
  | portionFailed (port : Fin 8) (bytes : List Nat) (t : Nat)
  /-- STALE_NOTICE: A module receives STALE_NOTICE and enters QUARANTINE. (R330) -/
  | staleNotice (port : Fin 8) (bytes : List Nat) (t : Nat)
  /-- DISCOVER: A DISCOVER frame exchange reports the switch port's rack, plane and port. (R326) -/
  | discover (port : Fin 8) (rack : Fin 2) (plane : Fin 8) (swPort : Fin 64) (t : Nat)
  /-- PLANE_ANNOUNCEMENT: A switch plane announces its up ports and the module compares them with the plan. (R326) -/
  | planeAnnouncement (plane : Fin 8) (l : List (Nat × Nat × Nat)) (t : Nat)
  /-- FABRIC_PORT_STATE_CHANGE: A fabric port's link state changes; planes are rechosen and discovery reruns for the port. (R326) -/
  | fabricPortStateChange (port : Fin 8) (link : Fin 5) (t : Nat)
  /-- RETRY_INTERVAL_EXPIRE: The oldest unacknowledged packet of a flow waits one retry interval and the flow is resent. (R319) -/
  | retryIntervalExpire (t : Nat)
  /-- LOAD_BOUND_EXPIRE: An operation reaches FAB_LOAD_BOUND unacknowledged; its target becomes DEAD and operations end. (R323) -/
  | loadBoundExpire (t : Nat)
  /-- REPLY_CACHE_EXPIRE: A reply-cache entry's 2 ms window ends and it is dropped. (R320) -/
  | replyCacheExpire (t : Nat)
  /-- ATOMIC_THROTTLE_RELEASE: A waiting atomic is issued once fewer than 512 atomics to its target lie within 3 ms. (R321) -/
  | atomicThrottleRelease (t : Nat)
  /-- MEMBER_APPLY: FAB_MEMBER_CMD APPLY reads and checks a membership record for the next boundary. (R328) -/
  | memberApply (p : Port) (host : HostMem) (authOk : Bool)
  /-- ENTER: CTX_REPLAY_CMD ENTER starts a replay session. (R344) -/
  | enter (p : Port) (fresh : Bool)
  /-- LEAVE: CTX_REPLAY_CMD LEAVE ends a replay session. (R344) -/
  | leave (p : Port)
  /-- SUBMIT: CTX_REPLAY_CMD SUBMIT admits a replay record whole or not at all. (R345) -/
  | submit (p : Port) (host : HostMem)
  /-- ARM: CTX_CAPTURE_CTL ARM arms a capture of one step. (R347) -/
  | arm (p : Port) (lease : BitVec 16)
  /-- IMAGE_GO: ENG_IMG_CMD GO starts a Lumale image load through the writing port. (R357) -/
  | imageGo (p : Port)
  /-- IMAGE_ABORT: ENG_IMG_CMD ABORT ends a load in phases 1 to 4 with nothing changed. (R365) -/
  | imageAbort (p : Port)
  /-- IMAGE_FETCH_DONE: An image's fetch completes and its verify, structure and fit phases run. (R357) -/
  | imageFetchDone (ok : Bool) (d : ImageDesc)
  /-- WHOLE_APPLY: At the next boundary with no context or hold a WHOLE image is installed. (R362) -/
  | wholeApply
  /-- REGIONAL_APPLY: At the first boundary with no portion running a HALF or GROUP image is installed. (R363) -/
  | regionalApply
  /-- PLL_LOCK: The root PLL locks to a reference and the domains start at their reset dividers. (R371) -/
  | pllLock (refA refB : Bool) (tpos unstable : Fin 8) (t : Nat)
  /-- DIVIDER_STEP: After its dwell a ramping domain steps to an adjacent divider at an alignment point. (R375) -/
  | dividerStep (t : Nat)
  /-- NCLK_TARGET_WRITE: A write to CLK_NCLK sets per-half targets and starts or turns a ramp. (R376) -/
  | nclkTargetWrite (p : Port) (v : BitVec 32)
  /-- CCLK_TARGET_WRITE: A write to CLK_CCLK sets per-half targets and starts or turns a ramp. (R376) -/
  | cclkTargetWrite (p : Port) (v : BitVec 32)
  /-- VCORE_SLEW_DONE: A VCORE rail settles at a new voltage and the pending faster step may proceed. (R390) -/
  | vcoreSlewDone (half : Half)
  /-- DROOP_TRIP: A core's droop detector trips and stretches its clock to the next slower code. (R399) -/
  | droopTrip (core : Fin 192) (t : Nat)
  /-- DROOP_HOLD_EXPIRE: HOLD_US passes without a further trip and the core returns to its domain's code. (R399) -/
  | droopHoldExpire (core : Fin 192) (t : Nat)
  /-- REFERENCE_LOST: A reference input becomes LOST; the selected one puts the PLL in holdover and may start a switch. (R382) -/
  | referenceLost (p : Port) (t : Nat)
  /-- REFERENCE_OK: A reference input is OK again after 1 ms within tolerance. (R382) -/
  | referenceOk (p : Port) (t : Nat)
  /-- SOURCE_SELECT: A write of SRC_SEL naming the other source requests a reference switch. (R383) -/
  | sourceSelect (p : Port) (v : BitVec 32) (t : Nat)
  /-- PLL_RELOCK: The PLL relocks to the new reference; holdover clears and the domains ramp back. (R383) -/
  | pllRelock (t : Nat)
  /-- HOLDOVER_LIMIT_EXPIRE: Holdover reaches HOLDOVER_LIMIT with no reference OK and the module goes dark. (R384) -/
  | holdoverLimitExpire (t : Nat)
  /-- SSC_UPDATE: A CLK_SSC change takes effect at the start of the next modulation period. (R380) -/
  | sscUpdate
  /-- FCOUNT_START: CLK_FCOUNT_CTL START opens a frequency-counting gate. (R386) -/
  | fcountStart (p : Port) (v : BitVec 32)
  /-- FCOUNT_DONE: A frequency-count gate closes and COUNT, VALID and DISTURBED are set. (R386) -/
  | fcountDone (p : Port) (measured : Nat) (roundUp : Bool)
  /-- POWER_LOOP: Every 1 µs the power manager forms P_est, moves C_eff and raises or lowers OP. (R394) -/
  | powerLoop (coreEst restEst predCore predRest t : Nat)
  /-- GAIN_CALIBRATION: Every 10 ms the estimator gains are recalibrated against measured energy. (R392) -/
  | gainCalibration (coreEst restEst coreMeas inputMeas : Nat)
  /-- CAP_TARGET_WRITE: A write of PWR_CAP.TARGET sets the cap and may drop every domain one code at once. (R395) -/
  | capTargetWrite (p : Port) (v : BitVec 32)
  /-- CAP_UNMET: P_est exceeds L for 1 ms at OP 192 and CAP_UNMET is set. (R396) -/
  | capUnmet (t : Nat)
  /-- SHUTTER_ASSERT: SHUTTER_N is accepted as asserted and the module brakes to the floor. (R397) -/
  | shutterAssert (t : Nat)
  /-- SHUTTER_RELEASE: SHUTTER_N is released and C_eff restarts from measured power. (R397) -/
  | shutterRelease (meanMw t : Nat)
  /-- SHUTTER_STUCK: SHUTTER_N held for 1 s sets SHUTTER_STUCK and raises ALERT_N. (R397) -/
  | shutterStuck (t : Nat)
  /-- THERMAL_CHECK: Every 1 ms sensors are read and C_therm, refresh rate, thermal brake and trip are judged. (R405) -/
  | thermalCheck (js vs : List (Option Int)) (inl outl : Option Int) (vinMv iinCa meanMw t : Nat)
  /-- INLET_RANGE: The coolant inlet stays out of range for 1 s and INLET_RANGE is set. (R405) -/
  | inletRange (t : Nat)
  /-- LEAK_ASSERT: LEAK_N is accepted as asserted and the leak brake applies. (R407) -/
  | leakAssert (t : Nat)
  /-- LEAK_RELEASE: LEAK_N is released within GRACE and the brake releases. (R407) -/
  | leakRelease (meanMw t : Nat)
  /-- LEAK_GRACE_EXPIRE: LEAK_N stays asserted for GRACE and the module enters the safe state. (R407) -/
  | leakGraceExpire (t : Nat)
  /-- VIN_LOW: Input below 39.0 V for 100 µs sets VIN_LOW and brakes. (R408) -/
  | vinLow (t : Nat)
  /-- INPUT_UNDERVOLTAGE: Input below 37.0 V for 100 µs turns the module off. (R408) -/
  | inputUndervoltage (t : Nat)
  /-- INPUT_OVERVOLTAGE: Input over 62.0 V for 10 µs or 66.0 V opens the input switch. (R408) -/
  | inputOvervoltage (t : Nat)
  /-- INPUT_REVERSED: A reversed input is blocked and the module stays unpowered. (R408) -/
  | inputReversed
  /-- RAIL_SHORT: A short on an output rail latches off all rails but VSTBY. (R408) -/
  | railShort (rail : Fin 6) (t : Nat)
  /-- FLASH_RAIL_SHORT: A short on VFLASH latches that card's switch off and makes the card FAILED. (R408) -/
  | flashRailShort (card : Fin 2)
  /-- SENSE_OPEN: An open remote-sense line makes the rail regulate locally and sets SENSE_OPEN. (R408) -/
  | senseOpen
  /-- INPUT_REMOVED: The 48 V input is removed; after 1 s a rail latch-off clears. (R408) -/
  | inputRemoved (ms : Nat)
  /-- INPUT_POWER_VALID: The 48 V input becomes valid; VSTBY soft-starts and a module reset follows. (R388) -/
  | inputPowerValid (refPresent : Bool)
  /-- REFERENCE_RETURN: A reference returns to a dark module and it restarts from step 2 of power-up. (R370) -/
  | referenceReturn
  /-- RESET_REQUEST: SHUTTER_N and both PERST pins held asserted for 100 ms request a module reset. (R459) -/
  | resetRequest (t : Nat)
  /-- BOOT_VERIFY_DONE: The boot ROM and security firmware finish verifying code, or enter the safe state. (R440) -/
  | bootVerifyDone (okSec : Bool) (bad : Option (Fin 3)) (versions : List Nat) (measures : List (List Nat))
  /-- SELFTEST_DONE: Self-test completes; units are fenced or retired, the module rated and ID_STATE set. (R462) -/
  | selftestDone (r : SelfTest) (info : List (Nat × Nat × Nat))
  /-- FUNCTIONS_READY: The PCI Express functions become ready and fabric discovery starts. (R460) -/
  | functionsReady (dist acct win report : Nat)
  /-- SELFTEST_EXTENDED: The Owner arms the next reset to run an extended self-test. (R469) -/
  | selftestExtended (sess : Nat)
  /-- EXTENDED_SELFTEST_DONE: The extended self-test ends, restores passing units and rerates the module. (R469) -/
  | extendedSelftestDone (r : SelfTest) (info : List (Nat × Nat × Nat))
  /-- PERST_ASSERT: PERST_x_N is accepted as asserted and the port goes down. (R416) -/
  | perstAssert (p : Port) (t : Nat)
  /-- LINK_DOWN_TIMEOUT: A link out of DL_Active for 100 ms makes the port down. (R416) -/
  | linkDownTimeout (p : Port) (t : Nat)
  /-- D3HOT_ENTRY: PF0 enters D3hot and the port is down. (R416) -/
  | d3hotEntry (p : Port)
  /-- FUNCTION_LEVEL_RESET: A Function Level Reset of PF0 makes the port down while it runs. (R416) -/
  | functionLevelReset (p : Port)
  /-- PORT_UP: A port's down conditions clear and its link is in DL_Active; per-port registers reset. (R416) -/
  | portUp (p : Port) (speed : Fin 7) (width : Fin 9) (reversed : Bool)
  /-- PERST_STUCK: PERST_x_N asserted for 1 s sets PERST_STUCK. (R429) -/
  | perstStuck (p : Port) (t : Nat)
  /-- SIDEBAND_TOGGLING: An input with 16 aborted counts in 32 filter periods becomes TOGGLING and reads asserted. (R428) -/
  | sidebandToggling (i : SbInput) (t : Nat)
  /-- TOGGLING_END: A TOGGLING input holds one level for 16 filter periods and TOGGLING ends. (R428) -/
  | togglingEnd (i : SbInput) (asserted : Bool) (meanMw t : Nat)
  /-- IRQ_HOLDOFF_EXPIRE: Vector 0's holdoff ends and a cause arisen during it is signalled. (R423) -/
  | irqHoldoffExpire (p : Port)
  /-- BAR2_READ: A host read through BAR2 of the device range, checked by region. (R421) -/
  | bar2Read (p : Port) (off len : Nat) (chk : List (Nat × Check)) (hostOk : Bool)
  /-- BAR2_WRITE: A host write through BAR2 of the device range, checked by region. (R421) -/
  | bar2Write (p : Port) (off : Nat) (bytes : List (BitVec 8))
  /-- BAR2_ATOMIC: A host AtomicOp through BAR2 applied indivisibly. (R421) -/
  | bar2Atomic (p : Port) (fn : BarAtom) (wide : Bool) (off : Nat) (operand compare : BitVec 64) (check : Check)
  /-- HOST_READ_TIMEOUT: A module read of host memory gets no completion within 10 ms and ends as failed. (R417) -/
  | hostReadTimeout (p : Port) (what : Fin 3)
  /-- IDE_INTEGRITY_FAIL: An IDE stream fails an integrity check and becomes Insecure. (R425) -/
  | ideIntegrityFail (p : Port)
  /-- IDE_KM: IDE_KM over a secured SPDM session sets a stream's keys. (R424) -/
  | ideKm (p : Port)
  /-- SET_ENDPOINT_ID: The bus owner sets the management controller's MCTP EID. (R431) -/
  | setEndpointId (eid : BitVec 8)
  /-- ENTDAA: The I3C controller assigns the module a dynamic address. (R431) -/
  | entdaa (addr : BitVec 7)
  /-- PLDM_SENSOR_READ: A PLDM request returns a numeric sensor value. (R432) -/
  | pldmSensorRead (sensor : Fin 10)
  /-- PLDM_CAP_EFFECTER: A PLDM effecter write sets the cap target as requester 2. (R432) -/
  | pldmCapEffecter (watts : Nat)
  /-- PLDM_FIRMWARE_UPDATE: A firmware package is transferred by PLDM Type 5 and verified. (R432) -/
  | pldmFirmwareUpdate (c : FwComp) (version : Nat) (floor miotric owner : Bool) (measure : List Nat)
  /-- GET_CERTIFICATE: An SPDM request returns a certificate chain. (R442) -/
  | getCertificate (slot : Fin 8)
  /-- CHALLENGE: An SPDM challenge is answered under ALIAS. (R442) -/
  | challenge (slot : Fin 8) (nonce : List Nat)
  /-- GET_MEASUREMENTS: An SPDM request returns signed measurements. (R442) -/
  | getMeasurements (index : Fin 11) (nonce : List Nat)
  /-- KEY_EXCHANGE: An SPDM key exchange opens a mutually authenticated secured session. (R442) -/
  | keyExchange (party : Party) (key : List Nat) (verified : Bool)
  /-- TAKE_OWNERSHIP: A handover token programs the first OWNER_SLOT of an unowned module. (R443) -/
  | takeOwnership (sess : Nat) (tokenOk : Bool)
  /-- TRANSFER_OWNERSHIP: The Owner ends every lease, zeroises and programs a new OWNER_SLOT. (R443) -/
  | transferOwnership (sess : Nat) (key : List Nat)
  /-- RELEASE_OWNERSHIP: The Owner ends every lease, zeroises and leaves the module unowned. (R443) -/
  | releaseOwnership (sess : Nat)
  /-- SET_FW_POLICY: The Owner sets MIN_VERSION and COUNTERSIGN. (R443) -/
  | setFwPolicy (sess : Nat) (minVersion : List Nat) (countersign : Bool)
  /-- SET_APP_KEY: The Owner installs the appliance key. (R443) -/
  | setAppKey (sess : Nat) (key : List Nat)
  /-- LEASE_AUTHORISE: An AUTHORISE lease record takes the lowest FREE slot and draws S_L. (R446) -/
  | leaseAuthorise (sess : Nat) (r : LeaseRecord)
  /-- LEASE_QUOTA: A QUOTA lease record sets a new quota from its EFFECTIVE_STEP. (R446) -/
  | leaseQuota (sess : Nat) (r : LeaseRecord)
  /-- LEASE_END_RECORD: An END lease record is accepted and the lease ends at its EFFECTIVE_STEP. (R445) -/
  | leaseEndRecord (sess : Nat) (r : LeaseRecord)
  /-- INSTALL_LEASE_KEY: A tenant stores its wrapped LK_L and the lease becomes ACTIVE. (R443) -/
  | installLeaseKey (sess : Nat)
  /-- PORT_BIND: A tenant binds its lease to a host port. (R443) -/
  | portBind (sess : Nat) (p : Port)
  /-- PORT_UNBIND: A tenant unbinds its lease from a host port. (R443) -/
  | portUnbind (sess : Nat) (p : Port)
  /-- LEDGER_READ: The Owner reads signed ledger records and the LEDGER chain. (R473) -/
  | ledgerRead (sess first count : Nat)
  /-- ERASE_REPORT_READ: The Owner reads signed erase reports. (R443) -/
  | eraseReportRead (sess lease : Nat)
  /-- DEBUG_CHALLENGE: A debug challenge returns a one-use nonce bound to the serial. (R453) -/
  | debugChallenge (sess : Nat)
  /-- DEBUG_UNLOCK: Two verified signatures end every lease, zeroise fully and open JTAG. (R453) -/
  | debugUnlock (sess : Nat) (miotric owner : Bool)
  /-- GLITCH_ACK: The Owner clears the glitch lockout. (R443) -/
  | glitchAck (sess : Nat)
  /-- GLITCH_TRIP: A glitch detector trips, resetting the module with full zeroisation. (R454) -/
  | glitchTrip (detector : Fin 6)
  /-- BACKGROUND_ZEROISE_DONE: Background zeroisation of an ended lease finishes and its erase report is rewritten. (R452) -/
  | backgroundZeroiseDone (lease : Nat)
  /-- LEASE_SELECT: A write to SEC_LSEL latches a lease slot for the port. (R458) -/
  | leaseSelect (p : Port) (slot : Fin 16)
  /-- CONTROL_FW_HANDOFF: At a boundary with no portion running the new control firmware takes over. (R467) -/
  | controlFwHandoff
  /-- CONTROL_FW_ROLLBACK: New control firmware faults before one boundary and the former firmware resumes. (R467) -/
  | controlFwRollback
  /-- SECURITY_FW_SWAP: Security-block firmware is swapped between authority commands. (R466) -/
  | securityFwSwap
  /-- MGMT_FW_SWAP: Management controller firmware is swapped. (R466) -/
  | mgmtFwSwap
  /-- POWER_FW_SWAP: Power manager firmware is swapped under the brake. (R466) -/
  | powerFwSwap
  /-- LEDGER_POWER_RECORD: Every powered hour a POWER record is appended to the ledger. (R472) -/
  | ledgerPowerRecord (t : Nat)
  /-- LEDGER_INTEGRITY_RECORD: Daily an INTEGRITY record of totals is appended to the ledger. (R472) -/
  | ledgerIntegrityRecord (t : Nat)
  /-- FREEZE: A write of PMC_CTL.FREEZE stops or resumes every counter at the next alignment point. (R480) -/
  | freeze (p : Port) (on : Bool)
  /-- SNAP: A write of SNAP starts a counter snapshot. (R481) -/
  | snap (p : Port)
  /-- SNAP_PERIOD: Under TRIG 1 or 2 a period or boundary count expires and starts a snapshot. (R481) -/
  | snapPeriod (t : Nat)
  /-- SNAPSHOT_DONE: A snapshot record is written to the buffer or ends refused. (R481) -/
  | snapshotDone
  /-- SNAP_RECORDS_WRITE: A write of PMC_SNAP_RECORDS sets the buffer size and resets NEXT. (R488) -/
  | snapRecordsWrite (p : Port) (v : BitVec 32)
  /-- SAMPLING_ENABLE: Setting PMC_SMP_CTL.EN restarts every selected core's sampling count. (R484) -/
  | samplingEnable (p : Port) (v : BitVec 32)
  /-- PMC_LAYER_WRITE: Rewriting PMC_LAYERn makes the slot count a new layer from the next boundary. (R487) -/
  | pmcLayerWrite (p : Port) (n : Fin 16) (v : BitVec 32)
  /-- CONFIGURATION_REQUEST: A host configuration request to a port is answered with Configuration Request Retry Status until the functions are ready, or served normally. (R461) -/
  | configurationRequest (p : Port) (bar2 : Option (Fin 9))
  /-- PERST_RELEASE: PERST_x_N is accepted as released, the port starts link training and its CRS bound begins. (R427) -/
  | perstRelease (p : Port) (t : Nat)
  /-- DL_ACTIVE_LOST: A host port's link leaves DL_Active, starting the 100 ms count after which the port is down. (R416) -/
  | dlActiveLost (p : Port) (t : Nat)
  /-- EXTENT_REBUILT: One extent of a REBUILDING card has been rewritten and its reads are served from the card from then on. (R204) -/
  | extentRebuilt (extent : Nat) (hostOk : Bool) (failing : List Nat)
  /-- HOST_READ_REFUSED: A module read of host memory completes with an error, failing the load, ring read or fetch that issued it. (R223) -/
  | hostReadRefused (p : Port) (what : Fin 3)
  /-- COUNTER_WRAP: A 48-bit performance counter wraps, setting its OVF bit or carrying into a chained counter. (R479) -/
  | counterWrap (e : Fin 4095) (past : Nat)
deriving DecidableEq, Repr

end Sys2Proof
end

