-- ==== Sys2Proof/Decode.lean ====
section
/-!
DEFINITION. Decode.lean: the command that a word of spec/opcode_table.json's bits spells.
-/
namespace Sys2Proof

/-- No row of spec/opcode_table.json gives bits: a command is a register access, a packet, a pin or a timer, and no word
spells one. -/
def decodeTableWord (nbits w : Nat) : Option Instr :=
  match nbits, w with
  | _, _ => none

end Sys2Proof
end

