-- ==== Sys2Proof/Config.lean ====
section
/-!
DEFINITION. Config.lean: the values the spec leaves open, as constants without a body (nothing can evaluate them).
-/
namespace Sys2Proof

/-- R93: the unspecified 192-bit value a long accumulator holds while OVF is set. -/
opaque Config.accOvf : Nat → BitVec 192

/-- R129: the hardware entropy source: the pair of 24-bit draws taken in place of the generator's. -/
opaque Config.entropy : Nat → BitVec 48

/-- R108, R485: the OPER code of an operation: the spec lists a family's operations without numbering them.  The
arguments are FAMILY and the operation's place in that list. -/
opaque Config.oper : Nat → Nat → BitVec 5

/-- The number of a kind, event or cause that a record's layout holds in a field and the spec names without numbering:
the arguments are the record's rule and the name's place in the spec's list. -/
opaque Config.code : Nat → Nat → BitVec 8

/-- R124: rsqrt32 of an operand that is not above 0, for which the spec states no result. -/
opaque Config.rsqrtOpen : Nat → BitVec 32

/-- R404: the reading used for a failed sensor when no other sensor of its kind in the half gives one, in 0.1 C. -/
opaque Config.openTemp : Nat → BitVec 12

/-- R252: the token that a CONTINUE with TOKENS 0 or an AUTO step runs when its context has emitted none: the arguments
are the context and its tail. -/
opaque Config.noToken : Nat → Nat → BitVec 32

/-- R453: the random nonce of DEBUG_CHALLENGE. -/
opaque Config.nonce : Nat → BitVec 256

/-- R202: the erase block that holds a 16 KiB unit; the translation layer's mapping is its own.  The arguments are the unit
and the number of free values taken so far. -/
opaque Config.eraseBlock : Nat → Nat → BitVec 32

end Sys2Proof
end

