-- ==== Sys2Proof/Machine/Sparse.lean ====
section
/-!
DEFINITION. Machine/Sparse.lean: sparse maps with one canonical form (keys strictly rising, no entry equal to the
default), and the memory of the module as one such map from addresses to bytes.
-/
namespace Sys2Proof.Machine

/-- The value at key `k`; `d` where nothing is listed. -/
def smGet {α : Type} (d : α) : List (Nat × α) → Nat → α
  | [], _ => d
  | (k', v) :: t, k => if k' = k then v else smGet d t k

/-- The map without any entry for `k`. -/
def smErase {α : Type} : List (Nat × α) → Nat → List (Nat × α)
  | [], _ => []
  | (k', v) :: t, k => if k' = k then smErase t k else (k', v) :: smErase t k

/-- Insert an entry for a key that is not listed, in its place. -/
def smInsert {α : Type} (k : Nat) (v : α) : List (Nat × α) → List (Nat × α)
  | [] => [(k, v)]
  | (k', v') :: t => if k < k' then (k, v) :: (k', v') :: t else (k', v') :: smInsert k v t

/-- Set the value at `k`; a value equal to the default is not listed. -/
def smSet {α : Type} [DecidableEq α] (d : α) (m : List (Nat × α)) (k : Nat) (v : α) : List (Nat × α) :=
  if v = d then smErase m k else smInsert k v (smErase m k)

/-- The keys strictly rise. -/
def smSorted {α : Type} : List (Nat × α) → Bool
  | [] => true
  | (k, _) :: t => (t.all fun p => decide (k < p.1)) && smSorted t

/-- The canonical form: keys strictly rising, no entry equal to the default. -/
def smCanon {α : Type} [DecidableEq α] (d : α) (m : List (Nat × α)) : Bool :=
  smSorted m && (m.all fun p => decide (p.2 ≠ d))

/-! ### Memory.  One map for every byte the spec gives the module an address for: a DRAM or tiered device address is
itself; commons address c is 2^63 + c (bit 63 set, R125); byte o of core k's SRAM is 2^64 + k * 2^21 + o. -/

/-- What an unlisted address reads as: the spec zeroises all storage at every reset (R451). -/
def memDefault : BitVec 8 := 0

/-- The canonical form of memory. -/
def Memory.wf (m : List Host.Cell) : Bool := smCanon memDefault m

/-- Read one byte. -/
def Memory.read (m : List Host.Cell) (a : Nat) : BitVec 8 := smGet memDefault m a

/-- Write one byte. -/
def Memory.write (m : List Host.Cell) (a : Nat) (b : BitVec 8) : List Host.Cell := smSet memDefault m a b

/-- Write consecutive bytes, each given as a number modulo 256. -/
def Memory.writeBytes (m : List Host.Cell) (a : Nat) : List Nat → List Host.Cell
  | [] => m
  | b :: t => Memory.writeBytes (Memory.write m a (BitVec.ofNat 8 b)) (a + 1) t

/-- The cells of consecutive bytes from an address on. -/
def blockCells : Nat → List Nat → List Host.Cell
  | _, [] => []
  | a, b :: t => if BitVec.ofNat 8 b = memDefault then blockCells (a + 1) t else (a, BitVec.ofNat 8 b) :: blockCells (a + 1) t

/-- Write consecutive bytes in one pass. -/
def Memory.putBlock (m : List Host.Cell) (a : Nat) (bs : List Nat) : List Host.Cell :=
  (m.filter fun c => decide (c.1 < a)) ++ blockCells a bs ++ m.filter fun c => decide (a + bs.length ≤ c.1)

/-- `n` consecutive bytes as numbers. -/
def Memory.bytes (m : List Host.Cell) (a n : Nat) : List Nat :=
  (List.range n).map fun i => (Memory.read m (a + i)).toNat

/-- The number that little-endian bytes spell (R9). -/
def leNat : List Nat → Nat
  | [] => 0
  | b :: t => b + 256 * leNat t

/-- The `n` little-endian bytes of a number (R9). -/
def leBytes : Nat → Nat → List Nat
  | 0, _ => []
  | n + 1, v => v % 256 :: leBytes n (v / 256)

/-- Bits [lo + len - 1 : lo] of a number. -/
def bitsAt (v lo len : Nat) : Nat := v / 2 ^ lo % 2 ^ len

/-- Bit `i` of a number. -/
def bit (v i : Nat) : Bool := v / 2 ^ i % 2 == 1

/-- A Bool as a bit. -/
def b2n (b : Bool) : Nat := if b then 1 else 0

/-- Replace bits [lo + len - 1 : lo] of a number. -/
def setBitsAt (w lo len v : Nat) : Nat :=
  w % 2 ^ lo + (v % 2 ^ len) * 2 ^ lo + w / 2 ^ (lo + len) * 2 ^ (lo + len)

/-- Two's complement reading of `w` bits. -/
def toSigned (w v : Nat) : Int :=
  if v % 2 ^ w < 2 ^ (w - 1) then (v % 2 ^ w : Nat) else ((v % 2 ^ w : Nat) : Int) - 2 ^ w

/-- The `w`-bit two's complement code of an integer. -/
def ofSigned (w : Nat) (v : Int) : Nat := (v % (2 ^ w : Int)).toNat

/-- Split a list into pieces of `n` (`fuel` pieces at most). -/
def chunks {α : Type} (n : Nat) : Nat → List α → List (List α)
  | 0, _ => []
  | fuel + 1, l => l.take n :: chunks n fuel (l.drop n)

/-- Insert in order under a comparison, before the first element that does not come first. -/
def insertBy {α : Type} (before : α → α → Bool) (x : α) : List α → List α
  | [] => [x]
  | y :: t => if before x y then x :: y :: t else y :: insertBy before x t

/-- Sort by a strict comparison; equal elements keep their order. -/
def sortBy {α : Type} (before : α → α → Bool) : List α → List α
  | [] => []
  | x :: t => insertBy (fun a b => !before b a) x (sortBy before t)

end Sys2Proof.Machine
end

