-- ==== Sys2Proof/Machine/Float.lean ====
section
/-!
DEFINITION. Machine/Float.lean: the IEEE formats of R65 to R68, exactly: decoding to exact values, rounding to nearest
even (R76) and stochastic rounding (R77), conversion with saturation (R67), and binary32 arithmetic (R68).
-/
namespace Sys2Proof.Machine

/-- A value: a finite one as sign and exact magnitude num / den, an infinity, or a NaN that is poison or canonical. -/
inductive RVal where
  | fin (neg : Bool) (num den : Nat)
  | inf (neg : Bool)
  | nan (poison : Bool)
deriving DecidableEq, Repr

/-- An IEEE interchange layout: exponent and mantissa widths. -/
structure IeeeFmt where
  ebits : Nat
  mbits : Nat
deriving DecidableEq, Repr

def binary16 : IeeeFmt := ⟨5, 10⟩
def bfloat16 : IeeeFmt := ⟨8, 7⟩
def binary32 : IeeeFmt := ⟨8, 23⟩

def ieeeBias (f : IeeeFmt) : Nat := 2 ^ (f.ebits - 1) - 1
/-- The exponent of the format's smallest magnitude. -/
def ieeeQmin (f : IeeeFmt) : Int := 1 - (ieeeBias f : Int) - f.mbits
/-- The encoding of +infinity. -/
def ieeeInf (f : IeeeFmt) : Nat := (2 ^ f.ebits - 1) * 2 ^ f.mbits
/-- The encoding of the largest finite value. -/
def ieeeMax (f : IeeeFmt) : Nat := ieeeInf f - 1
def ieeeSign (f : IeeeFmt) (neg : Bool) : Nat := if neg then 2 ^ (f.ebits + f.mbits) else 0
/-- R66: the canonical NaN and the poison NaN. -/
def ieeeNan (f : IeeeFmt) (poison : Bool) : Nat := ieeeInf f + 2 ^ (f.mbits - 1) + b2n poison

/-- Scale a magnitude by 2^q. -/
def ratShift (num den : Nat) (q : Int) : Nat × Nat :=
  if 0 ≤ q then (num * 2 ^ q.toNat, den) else (num, den * 2 ^ (-q).toNat)

/-- R65, R66: the value an encoding stands for. -/
def decodeIeee (f : IeeeFmt) (bits : Nat) : RVal :=
  let neg := bit bits (f.ebits + f.mbits)
  let e := bitsAt bits f.mbits f.ebits
  let m := bitsAt bits 0 f.mbits
  if e = 2 ^ f.ebits - 1 then
    if m = 0 then .inf neg else .nan (m == 2 ^ (f.mbits - 1) + 1 && !neg)
  else
    let sig := if e = 0 then m else m + 2 ^ f.mbits
    let r := ratShift sig 1 (ieeeQmin f + (if e = 0 then 0 else (e : Int) - 1))
    .fin neg r.1 r.2

/-- The exponent of the leading bit of num / den, for num and den above 0. -/
def ratLog2 (num den : Nat) : Int :=
  let k : Int := (Nat.log2 num : Int) - Nat.log2 den
  let r := ratShift den 1 k
  if num * r.2 < r.1 then k - 1 else k

/-- Round num / den to an integer: to nearest even (R76), or with a 24-bit draw (R77). -/
def roundUnits (num den : Nat) : Option Nat → Nat
  | none =>
    if 2 * (num % den) > den ∨ (2 * (num % den) = den ∧ num / den % 2 = 1) then num / den + 1 else num / den
  | some r => if num % den * 2 ^ 24 > r * den then num / den + 1 else num / den

/-- The encoding of a rounded magnitude, the exponent range taken as unbounded upward: at or above `ieeeInf` it
exceeds the largest finite value. -/
def packMag (f : IeeeFmt) (num den : Nat) (r : Option Nat) : Nat :=
  if num = 0 then 0
  else
    let q := max (ratLog2 num den - f.mbits) (ieeeQmin f)
    let p := ratShift num den (-q)
    (q - ieeeQmin f).toNat * 2 ^ f.mbits + roundUnits p.1 p.2 r

/-- The magnitude exceeds the format's largest finite value. -/
def aboveMax (f : IeeeFmt) (num den : Nat) : Bool :=
  match decodeIeee f (ieeeMax f) with
  | .fin _ n d => decide (n * den < num * d)
  | _ => false

/-- R67, R74, R77: conversion into an IEEE format: the encoding, and whether a SAT event counts. -/
def convIeee (f : IeeeFmt) (r : Option Nat) : RVal → Nat × Bool
  | .nan p => (ieeeNan f p, false)
  | .inf n => (ieeeSign f n + ieeeInf f, false)
  | .fin n num den =>
    let m := packMag f num den r
    if ieeeInf f ≤ m ∨ (r.isSome ∧ aboveMax f num den) then (ieeeSign f n + ieeeMax f, true)
    else (ieeeSign f n + m, false)

/-- R68: a rounded result of binary32 arithmetic; overflow gives the infinity. -/
def round32 : RVal → Nat
  | .nan p => ieeeNan binary32 p
  | .inf n => ieeeSign binary32 n + ieeeInf binary32
  | .fin n num den => ieeeSign binary32 n + min (packMag binary32 num den none) (ieeeInf binary32)

def numPoison : RVal → Bool
  | .nan p => p
  | _ => false

def numIsNan : RVal → Bool
  | .nan _ => true
  | _ => false

def numNeg : RVal → RVal
  | .fin n a b => .fin (!n) a b
  | .inf n => .inf (!n)
  | x => x

def numIsZero : RVal → Bool
  | .fin _ a _ => a == 0
  | _ => false

def numSign : RVal → Bool
  | .fin n _ _ => n
  | .inf n => n
  | .nan _ => false

/-- Exact sum; an exact zero sum of opposite signs is +0 (R68). -/
def numAdd (x y : RVal) : RVal :=
  match x, y with
  | .nan p, .nan q => .nan (p || q)
  | .nan p, _ => .nan p
  | _, .nan q => .nan q
  | .inf a, .inf b => if a = b then .inf a else .nan false
  | .inf a, _ => .inf a
  | _, .inf b => .inf b
  | .fin a n d, .fin b m e =>
    if a = b then .fin a (n * e + m * d) (d * e)
    else if n * e = m * d then .fin false 0 1
    else if m * d < n * e then .fin a (n * e - m * d) (d * e)
    else .fin b (m * d - n * e) (d * e)

def numMul (x y : RVal) : RVal :=
  match x, y with
  | .nan p, .nan q => .nan (p || q)
  | .nan p, _ => .nan p
  | _, .nan q => .nan q
  | .inf a, .inf b => .inf (xor a b)
  | .inf a, .fin b m _ => if m = 0 then .nan false else .inf (xor a b)
  | .fin a n _, .inf b => if n = 0 then .nan false else .inf (xor a b)
  | .fin a n d, .fin b m e => .fin (xor a b) (n * m) (d * e)

def numDiv (x y : RVal) : RVal :=
  match x, y with
  | .nan p, .nan q => .nan (p || q)
  | .nan p, _ => .nan p
  | _, .nan q => .nan q
  | .inf _, .inf _ => .nan false
  | .inf a, .fin b _ _ => .inf (xor a b)
  | .fin a _ _, .inf b => .fin (xor a b) 0 1
  | .fin a n d, .fin b m e =>
    if m = 0 then (if n = 0 then .nan false else .inf (xor a b)) else .fin (xor a b) (n * e) (d * m)

/-- Strictly below, for non-NaN values. -/
def numLt (x y : RVal) : Bool :=
  match x, y with
  | .nan _, _ => false
  | _, .nan _ => false
  | .inf a, .inf b => a && !b
  | .inf a, .fin _ _ _ => a
  | .fin _ _ _, .inf b => !b
  | .fin a n d, .fin b m e =>
    match a, b with
    | false, false => decide (n * e < m * d)
    | true, true => decide (m * d < n * e)
    | true, false => n != 0 || m != 0
    | false, true => false

/-- The integer square root, by bits from the top (`fuel` bits). -/
def isqrtFrom (v : Nat) : Nat → Nat → Nat
  | 0, r => r
  | fuel + 1, r => isqrtFrom v fuel (if (r + 2 ^ fuel) * (r + 2 ^ fuel) ≤ v then r + 2 ^ fuel else r)

def isqrt (v : Nat) : Nat := isqrtFrom v (Nat.log2 v / 2 + 1) 0

/-- A magnitude that rounds as the square root of num / den does: 64 bits beyond the leading ones and a sticky bit. -/
def sqrtMag (num den : Nat) : Nat × Nat :=
  -- sqrt(num/den) = sqrt(num*den)/den, taken with 2^128 extra precision under the root
  let v := num * den * 2 ^ 512
  let r := isqrt v
  (2 * r + b2n (r * r != v), 2 * den * 2 ^ 256)

/-- Square root; of a negative value a NaN, of -0 it is -0 (R68). -/
def numSqrt : RVal → RVal
  | .nan p => .nan p
  | .inf n => if n then .nan false else .inf false
  | .fin n a d => if a = 0 then .fin n 0 1 else if n then .nan false
      else let r := sqrtMag a d; .fin false r.1 r.2

/-! ### binary32 arithmetic on encodings (R68) -/

def dec32 (x : Nat) : RVal := decodeIeee binary32 x
def add32 (x y : Nat) : Nat := round32 (numAdd (dec32 x) (dec32 y))
def sub32 (x y : Nat) : Nat := round32 (numAdd (dec32 x) (numNeg (dec32 y)))
def mul32 (x y : Nat) : Nat := round32 (numMul (dec32 x) (dec32 y))
def div32 (x y : Nat) : Nat := round32 (numDiv (dec32 x) (dec32 y))
def fma32 (x y z : Nat) : Nat := round32 (numAdd (numMul (dec32 x) (dec32 y)) (dec32 z))
def sqrt32 (x : Nat) : Nat := round32 (numSqrt (dec32 x))
/-- bfloat16 is the upper half of binary32 (R65). -/
def bf16to32 (x : Nat) : Nat := if numIsNan (decodeIeee bfloat16 x) then
    ieeeNan binary32 (numPoison (decodeIeee bfloat16 x)) else x % 65536 * 65536

end Sys2Proof.Machine
end

