-- ==== Sys2Proof/Machine/Elementary.lean ====
section
/-!
DEFINITION. Machine/Elementary.lean: the correctly rounded functions of R124 and R127: exp32, rsqrt32, sine and cosine,
by exact integer series whose error lies far below a binary32 rounding decision.
-/
namespace Sys2Proof.Machine

/-- Fraction bits of the fixed-point series. -/
def fxBits : Nat := 512

/-- The sum of y^k / k! from the term `t` on (`k` divides next). -/
def expSeries (y : Nat) : Nat → Nat → Nat → Nat
  | 0, _, _ => 0
  | fuel + 1, k, t => t + expSeries y fuel (k + 1) (t * y / (2 ^ fxBits * k))

/-- `n` squarings in fixed point. -/
def fxSquare : Nat → Nat → Nat
  | 0, e => e
  | n + 1, e => fxSquare n (e * e / 2 ^ fxBits)

/-- e^(num / den) in fixed point, for num / den below 128. -/
def fxExp (num den : Nat) : Nat := fxSquare 7 (expSeries (num * 2 ^ fxBits / (den * 128)) 100 1 (2 ^ fxBits))

/-- R124: e^x as an exact value that rounds as e^x does. -/
def expNum : RVal → RVal
  | .nan p => .nan p
  | .inf n => if n then .fin false 0 1 else .inf false
  | .fin n a d =>
    if a = 0 then .fin false 1 1
    else if n then (if 105 * d < a then .fin false 0 1 else .fin false (2 ^ fxBits) (fxExp a d))
    else if 89 * d < a then .inf false
    else .fin false (fxExp a d) (2 ^ fxBits)

/-- R124: exp32. -/
def exp32 (x : Nat) : Nat := round32 (expNum (dec32 x))

/-- R124: rsqrt32, stated for x > 0.  The spec states no result for a finite x that is not: a free value. -/
def rsqrt32 (x : Nat) : Nat :=
  match dec32 x with
  | .nan p => ieeeNan binary32 p
  | .inf n => if n then (Config.rsqrtOpen x).toNat else 0
  | .fin n a d => if n ∨ a = 0 then (Config.rsqrtOpen x).toNat
      else let r := sqrtMag d a; round32 (.fin false r.1 r.2)

/-! ### Sine and cosine (R127) -/

/-- arctan(1 / k) in fixed point: the sum over j of (-1)^j / ((2j + 1) k^(2j + 1)). -/
def atanInv (k : Nat) : Nat → Nat → Nat → Int
  | 0, _, _ => 0
  | fuel + 1, j, t => (if j % 2 = 0 then ((t / (2 * j + 1) : Nat) : Int) else -((t / (2 * j + 1) : Nat) : Int)) +
      atanInv k fuel (j + 1) (t / (k * k))

/-- 2 pi with 640 fraction bits, by Machin's formula. -/
def fxTwoPi : Nat := (2 * (16 * atanInv 5 150 0 (2 ^ 640 / 5) - 4 * atanInv 239 50 0 (2 ^ 640 / 239))).toNat

/-- The alternating series of sine (from the first power) or cosine (from the zeroth): terms t, -t y^2 / (k (k + 1)) and
so on, with 640 fraction bits. -/
def altSeries (y : Nat) : Nat → Nat → Int → Int
  | 0, _, _ => 0
  | fuel + 1, k, t => t + altSeries y fuel (k + 2) (-(t * ((y * y : Nat) : Int) / ((2 ^ 1280 * (k * (k + 1)) : Nat) : Int)))

/-- A signed fixed-point value with 640 fraction bits. -/
def fxNum (v : Int) : RVal := .fin (decide (v < 0)) v.natAbs (2 ^ 640)

/-- a modulo 2 pi, with 640 fraction bits. -/
def fxAngle (num den : Nat) : Nat := num * 2 ^ 640 / den % fxTwoPi

/-- R127: sin a, correctly rounded to binary32. -/
def sin32 : RVal → Nat
  | .nan p => ieeeNan binary32 p
  | .inf _ => ieeeNan binary32 false
  | .fin n a d =>
    if a = 0 then ieeeSign binary32 n
    else
      let y := fxAngle a d
      let v := altSeries y 120 2 (y : Nat)
      round32 (fxNum (if n then -v else v))

/-- R127: cos a, correctly rounded to binary32. -/
def cos32 : RVal → Nat
  | .nan p => ieeeNan binary32 p
  | .inf _ => ieeeNan binary32 false
  | .fin _ a d =>
    if a = 0 then 0x3F800000
    else round32 (fxNum (altSeries (fxAngle a d) 120 1 ((2 ^ 640 : Nat) : Int)))

end Sys2Proof.Machine
end

