-- ==== Sys2Proof/Machine/Regs.lean ====
section
/-!
DEFINITION. Machine/Regs.lean: the BAR0 register fields of the register tables of spec/ (R11, R12, R14, R15): one constant
per field, holding its BAR0 offset, lowest bit, width, access code (R12) and reset value, with the rule that names it.
A field marked `perPort` exists separately for each host port (R17).  A pair of read-only registers that holds one wide
value (R14) is one 64-bit field at the lower offset.
-/
namespace Sys2Proof.Machine

/-- The access codes of R12. -/
inductive Acc where
  | ro | rw | wo | w1c | w1s | rc | rwl
deriving DecidableEq, Repr

/-- One field of a register table of spec/. -/
structure Fld where
  off : Nat
  lo : Nat
  len : Nat
  acc : Acc
  reset : Nat
  perPort : Bool
deriving DecidableEq, Repr

namespace Reg

/-- R45: ID_PART.PART. -/
def ID_PART_PART : Fld := ⟨0x0, 0, 16, .ro, 0x2304, false⟩
/-- R45: ID_PART.FAMILY_GEN. -/
def ID_PART_FAMILY_GEN : Fld := ⟨0x0, 16, 8, .ro, 4, false⟩
/-- R45: ID_STEPPING.DIE_STEP. -/
def ID_STEPPING_DIE_STEP : Fld := ⟨0x4, 0, 8, .ro, 176, false⟩
/-- R45: ID_STEPPING.BOARD_REV.  Reset: Per part (DESIGN CHOICE 0, log entry 3). -/
def ID_STEPPING_BOARD_REV : Fld := ⟨0x4, 8, 8, .ro, 0, false⟩
/-- R45: ID_SERIAL_LO.  Reset: Per part (DESIGN CHOICE 0, log entry 3). -/
def ID_SERIAL : Fld := ⟨0x8, 0, 64, .ro, 0, false⟩
/-- R45: ID_RESOURCES.CORES_LIVE.  Reset: Set by self-test (DESIGN CHOICE 0, log entry 3). -/
def ID_RESOURCES_CORES_LIVE : Fld := ⟨0x10, 0, 8, .ro, 0, false⟩
/-- R45: ID_RESOURCES.VAULTS_LIVE.  Reset: Set by self-test (DESIGN CHOICE 0, log entry 3). -/
def ID_RESOURCES_VAULTS_LIVE : Fld := ⟨0x10, 8, 6, .ro, 0, false⟩
/-- R45: ID_RESOURCES.FLASH_CARDS.  Reset: Set by self-test (DESIGN CHOICE 0, log entry 3). -/
def ID_RESOURCES_FLASH_CARDS : Fld := ⟨0x10, 16, 2, .ro, 0, false⟩
/-- R45: ID_RESOURCES.HOST_PORTS.  Reset: Set by self-test (DESIGN CHOICE 0, log entry 3). -/
def ID_RESOURCES_HOST_PORTS : Fld := ⟨0x10, 18, 2, .ro, 0, false⟩
/-- R45: ID_RESOURCES.FAB_PORTS.  Reset: Set by self-test (DESIGN CHOICE 0, log entry 3). -/
def ID_RESOURCES_FAB_PORTS : Fld := ⟨0x10, 20, 8, .ro, 0, false⟩
/-- R45: ID_RATING.PEAK_W2.  Reset: Set by self-test (DESIGN CHOICE 0, log entry 3). -/
def ID_RATING_PEAK_W2 : Fld := ⟨0x14, 0, 16, .ro, 0, false⟩
/-- R45: ID_RATING.DRAM_GIB.  Reset: Set by self-test (DESIGN CHOICE 0, log entry 3). -/
def ID_RATING_DRAM_GIB : Fld := ⟨0x14, 16, 16, .ro, 0, false⟩
/-- R45: ID_HOME_BW.HOME_BW_GBS.  Reset: Set by self-test (DESIGN CHOICE 0, log entry 3). -/
def ID_HOME_BW_HOME_BW_GBS : Fld := ⟨0x18, 0, 16, .ro, 0, false⟩
/-- R45: ID_MODULE.MODULE_ID. -/
def ID_MODULE_MODULE_ID : Fld := ⟨0x1c, 0, 7, .ro, 0, false⟩
/-- R45: ID_MODULE.MODULE_ID_VALID. -/
def ID_MODULE_MODULE_ID_VALID : Fld := ⟨0x1c, 7, 1, .ro, 0, false⟩
/-- R45: ID_MODULE.TPOS.  Reset: Strap value (DESIGN CHOICE 0, log entry 3). -/
def ID_MODULE_TPOS : Fld := ⟨0x1c, 8, 3, .ro, 0, false⟩
/-- R45: ID_MODULE.THIS_PORT.  Reset: Per port (DESIGN CHOICE 0, log entry 3). -/
def ID_MODULE_THIS_PORT : Fld := ⟨0x1c, 16, 1, .ro, 0, false⟩
/-- R45: ID_FENCED_CORES.  Reset: Set by self-test (DESIGN CHOICE 0, log entry 3). -/
def ID_FENCED_CORES (k : Nat) : Fld := ⟨0x20 + 4 * k, 0, 32, .ro, 0, false⟩
/-- R45: ID_RETIRED_VAULTS.  Reset: Set by self-test (DESIGN CHOICE 0, log entry 3). -/
def ID_RETIRED_VAULTS : Fld := ⟨0x38, 0, 32, .ro, 0, false⟩
/-- R45: ID_STATE.STATE. -/
def ID_STATE_STATE : Fld := ⟨0x3c, 0, 4, .ro, 0, false⟩
/-- R45: ID_CONFIG_SEQ. -/
def ID_CONFIG_SEQ : Fld := ⟨0x40, 0, 32, .ro, 0, false⟩
/-- R45: ID_LOCK.LOCK. -/
def ID_LOCK_LOCK : Fld := ⟨0xfffc, 0, 1, .w1s, 0, false⟩
/-- R84: ENG_FMT_UNDERFLOW. -/
def ENG_FMT_UNDERFLOW : Fld := ⟨0x9f000, 0, 64, .ro, 0, false⟩
/-- R84: ENG_FMT_SAT. -/
def ENG_FMT_SAT : Fld := ⟨0x9f008, 0, 64, .ro, 0, false⟩
/-- R84: ENG_FMT_POISON. -/
def ENG_FMT_POISON : Fld := ⟨0x9f010, 0, 64, .ro, 0, false⟩
/-- R84: ENG_FMT_OUTLIER_OVF. -/
def ENG_FMT_OUTLIER_OVF : Fld := ⟨0x9f018, 0, 64, .ro, 0, false⟩
/-- R84: ENG_FMT_CODE_INVALID. -/
def ENG_FMT_CODE_INVALID : Fld := ⟨0x9f020, 0, 64, .ro, 0, false⟩
/-- R84: ENG_FMT_TRAP. -/
def ENG_FMT_TRAP : Fld := ⟨0x9f028, 0, 64, .ro, 0, false⟩
/-- R114: ENG_MX_RESIDUE_MISMATCH. -/
def ENG_MX_RESIDUE_MISMATCH : Fld := ⟨0x9f040, 0, 64, .ro, 0, false⟩
/-- R114: ENG_MX_RESIDUE_POISON. -/
def ENG_MX_RESIDUE_POISON : Fld := ⟨0x9f048, 0, 64, .ro, 0, false⟩
/-- R114: ENG_MX_ACC_OVF. -/
def ENG_MX_ACC_OVF : Fld := ⟨0x9f050, 0, 64, .ro, 0, false⟩
/-- R114: ENG_MX_OPERAND_DETECT. -/
def ENG_MX_OPERAND_DETECT : Fld := ⟨0x9f058, 0, 64, .ro, 0, false⟩
/-- R114: ENG_MX_LAST_FAULT.CORE_ID. -/
def ENG_MX_LAST_FAULT_CORE_ID : Fld := ⟨0x9f060, 0, 8, .ro, 0, false⟩
/-- R114: ENG_MX_LAST_FAULT.CAUSE. -/
def ENG_MX_LAST_FAULT_CAUSE : Fld := ⟨0x9f060, 8, 4, .ro, 0, false⟩
/-- R114: ENG_MX_LAST_FAULT.LAYER. -/
def ENG_MX_LAST_FAULT_LAYER : Fld := ⟨0x9f060, 16, 16, .ro, 0, false⟩
/-- R143: ENG_CMD_WDOG. -/
def ENG_CMD_WDOG : Fld := ⟨0x9f080, 0, 64, .ro, 0, false⟩
/-- R143: ENG_CMD_DETECT. -/
def ENG_CMD_DETECT : Fld := ⟨0x9f088, 0, 64, .ro, 0, false⟩
/-- R143: ENG_SASH_REFUSED. -/
def ENG_SASH_REFUSED : Fld := ⟨0x9f090, 0, 64, .ro, 0, false⟩
/-- R143: ENG_LATTICE_NODE_DETECT. -/
def ENG_LATTICE_NODE_DETECT : Fld := ⟨0x9f098, 0, 64, .ro, 0, false⟩
/-- R143: ENG_ENGINE_LAST_FAULT.ENGINE. -/
def ENG_ENGINE_LAST_FAULT_ENGINE : Fld := ⟨0x9f0a0, 0, 3, .ro, 0, false⟩
/-- R143: ENG_ENGINE_LAST_FAULT.HALF. -/
def ENG_ENGINE_LAST_FAULT_HALF : Fld := ⟨0x9f0a0, 3, 1, .ro, 0, false⟩
/-- R143: ENG_ENGINE_LAST_FAULT.CAUSE. -/
def ENG_ENGINE_LAST_FAULT_CAUSE : Fld := ⟨0x9f0a0, 4, 4, .ro, 0, false⟩
/-- R143: ENG_ENGINE_LAST_FAULT.LAYER. -/
def ENG_ENGINE_LAST_FAULT_LAYER : Fld := ⟨0x9f0a0, 16, 16, .ro, 0, false⟩
/-- R163: ENG_ASTER_RING_BASE_LO.BASE_LO. -/
def ENG_ASTER_RING_BASE_LO : Fld := ⟨0x9f100, 16, 16, .rw, 0, false⟩
/-- R163: ENG_ASTER_RING_BASE_HI. -/
def ENG_ASTER_RING_BASE_HI : Fld := ⟨0x9f104, 0, 32, .rw, 0, false⟩
/-- R163: ENG_ASTER_RING_SIZE.SIZE_64K. -/
def ENG_ASTER_RING_SIZE : Fld := ⟨0x9f108, 0, 15, .rw, 0, false⟩
/-- R163: ENG_ASTER_RING_CTL.EN. -/
def ENG_ASTER_RING_CTL_EN : Fld := ⟨0x9f10c, 0, 1, .rw, 0, false⟩
/-- R163: ENG_ASTER_RING_CTL.ENABLED. -/
def ENG_ASTER_RING_CTL_ENABLED : Fld := ⟨0x9f10c, 1, 1, .ro, 0, false⟩
/-- R163: ENG_ASTER_RING_HEAD. -/
def ENG_ASTER_RING_HEAD : Fld := ⟨0x9f110, 0, 32, .ro, 0, false⟩
/-- R163: ENG_ASTER_RING_TAIL. -/
def ENG_ASTER_RING_TAIL : Fld := ⟨0x9f114, 0, 32, .rw, 0, false⟩
/-- R163: ENG_ASTER_RING_DROP_LO. -/
def ENG_ASTER_RING_DROP : Fld := ⟨0x9f118, 0, 64, .ro, 0, false⟩
/-- R165: ENG_ASTER_DROPPED. -/
def ENG_ASTER_DROPPED : Fld := ⟨0x9f0c0, 0, 64, .ro, 0, false⟩
/-- R165: ENG_ASTER_ALTERNATE. -/
def ENG_ASTER_ALTERNATE : Fld := ⟨0x9f0c8, 0, 64, .ro, 0, false⟩
/-- R165: ENG_ASTER_SUBSTITUTED. -/
def ENG_ASTER_SUBSTITUTED : Fld := ⟨0x9f0d0, 0, 64, .ro, 0, false⟩
/-- R165: ENG_ASTER_FETCHES. -/
def ENG_ASTER_FETCHES : Fld := ⟨0x9f0d8, 0, 64, .ro, 0, false⟩
/-- R190: ENG_ATT_SCORED. -/
def ENG_ATT_SCORED : Fld := ⟨0x9f140, 0, 64, .ro, 0, false⟩
/-- R190: ENG_ATT_PADDED. -/
def ENG_ATT_PADDED : Fld := ⟨0x9f148, 0, 64, .ro, 0, false⟩
/-- R190: ENG_ATT_INVALIDATED. -/
def ENG_ATT_INVALIDATED : Fld := ⟨0x9f150, 0, 64, .ro, 0, false⟩
/-- R190: ENG_ATT_PREFIX_TOKENS. -/
def ENG_ATT_PREFIX_TOKENS : Fld := ⟨0x9f158, 0, 64, .ro, 0, false⟩
/-- R190: ENG_KV_EVICTED. -/
def ENG_KV_EVICTED : Fld := ⟨0x9f160, 0, 64, .ro, 0, false⟩
/-- R190: ENG_KV_REFUSED. -/
def ENG_KV_REFUSED : Fld := ⟨0x9f168, 0, 64, .ro, 0, false⟩
/-- R191: ENG_KV_POOL_PAGES. -/
def ENG_KV_POOL_PAGES : Fld := ⟨0x9f180, 0, 32, .ro, 0, false⟩
/-- R191: ENG_KV_POOL_FREE. -/
def ENG_KV_POOL_FREE : Fld := ⟨0x9f184, 0, 32, .ro, 0, false⟩
/-- R191: ENG_KV_TSEL.SLOT. -/
def ENG_KV_TSEL_SLOT : Fld := ⟨0x9f188, 0, 4, .rw, 0, true⟩
/-- R191: ENG_KV_TENANT.LEASE. -/
def ENG_KV_TENANT_LEASE : Fld := ⟨0x9f18c, 0, 16, .ro, 0, true⟩
/-- R191: ENG_KV_TENANT.VALID. -/
def ENG_KV_TENANT_VALID : Fld := ⟨0x9f18c, 16, 1, .ro, 0, true⟩
/-- R191: ENG_KV_TENANT.OVER. -/
def ENG_KV_TENANT_OVER : Fld := ⟨0x9f18c, 17, 1, .ro, 0, true⟩
/-- R191: ENG_KV_QUOTA. -/
def ENG_KV_QUOTA : Fld := ⟨0x9f190, 0, 32, .ro, 0, true⟩
/-- R191: ENG_KV_USED. -/
def ENG_KV_USED : Fld := ⟨0x9f194, 0, 32, .ro, 0, true⟩
/-- R191: ENG_KV_ARCHIVED. -/
def ENG_KV_ARCHIVED : Fld := ⟨0x9f198, 0, 32, .ro, 0, true⟩
/-- R217: MEM_SCRUB_CTL.PERIOD_H. -/
def MEM_SCRUB_CTL_PERIOD_H : Fld := ⟨0x60000, 0, 8, .rwl, 24, false⟩
/-- R217: MEM_SCRUB_CTL.EN. -/
def MEM_SCRUB_CTL_EN : Fld := ⟨0x60000, 8, 1, .rwl, 1, false⟩
/-- R217: MEM_VAULT_STATE_LO.VAULT.  Reset: Set by self-test (DESIGN CHOICE 0, log entry 3). -/
def MEM_VAULT_STATE_LO_VAULT (n : Nat) : Fld := ⟨0x60004 + 4 * (n / 16), 0 + 2 * (n % 16), 2, .ro, 0, false⟩
/-- R217: MEM_VAULT_STATE_HI.VAULT.  Reset: Set by self-test (DESIGN CHOICE 0, log entry 3). -/
def MEM_VAULT_STATE_HI_VAULT (n : Nat) : Fld := ⟨0x60008 + 4 * (n / 16), 0 + 2 * (n % 16), 2, .ro, 0, false⟩
/-- R217: MEM_DIST_BASE_LO.  Reset: Set by control firmware (DESIGN CHOICE 0, log entry 3). -/
def MEM_DIST_BASE : Fld := ⟨0x60010, 0, 64, .ro, 0, false⟩
/-- R217: MEM_DIST_SEQ. -/
def MEM_DIST_SEQ : Fld := ⟨0x60018, 0, 32, .ro, 0, false⟩
/-- R217: MEM_CARD0_STATE.STATE.  Reset: Set by self-test (DESIGN CHOICE 0, log entry 3). -/
def MEM_CARD0_STATE_STATE : Fld := ⟨0x60020, 0, 4, .ro, 0, false⟩
/-- R217: MEM_CARD0_STATE.WEAR_PCT.  Reset: Per card (DESIGN CHOICE 0, log entry 3). -/
def MEM_CARD0_STATE_WEAR_PCT : Fld := ⟨0x60020, 8, 8, .ro, 0, false⟩
/-- R217: MEM_CARD0_STATE.SPARE_PCT.  Reset: Per card (DESIGN CHOICE 0, log entry 3). -/
def MEM_CARD0_STATE_SPARE_PCT : Fld := ⟨0x60020, 16, 8, .ro, 0, false⟩
/-- R217: MEM_CARD1_STATE.STATE.  Reset: Set by self-test (DESIGN CHOICE 0, log entry 3). -/
def MEM_CARD1_STATE_STATE : Fld := ⟨0x60024, 0, 4, .ro, 0, false⟩
/-- R217: MEM_CARD1_STATE.WEAR_PCT.  Reset: Per card (DESIGN CHOICE 0, log entry 3). -/
def MEM_CARD1_STATE_WEAR_PCT : Fld := ⟨0x60024, 8, 8, .ro, 0, false⟩
/-- R217: MEM_CARD1_STATE.SPARE_PCT.  Reset: Per card (DESIGN CHOICE 0, log entry 3). -/
def MEM_CARD1_STATE_SPARE_PCT : Fld := ⟨0x60024, 16, 8, .ro, 0, false⟩
/-- R218: MEM_DRAM_DETECT. -/
def MEM_DRAM_DETECT : Fld := ⟨0x60100, 0, 64, .ro, 0, false⟩
/-- R218: MEM_SRAM_DETECT. -/
def MEM_SRAM_DETECT : Fld := ⟨0x60108, 0, 64, .ro, 0, false⟩
/-- R218: MEM_REREAD_OK. -/
def MEM_REREAD_OK : Fld := ⟨0x60110, 0, 64, .ro, 0, false⟩
/-- R218: MEM_REFETCH. -/
def MEM_REFETCH : Fld := ⟨0x60118, 0, 64, .ro, 0, false⟩
/-- R218: MEM_HOST_FETCH. -/
def MEM_HOST_FETCH : Fld := ⟨0x60120, 0, 64, .ro, 0, false⟩
/-- R218: MEM_REPLAY. -/
def MEM_REPLAY : Fld := ⟨0x60128, 0, 64, .ro, 0, false⟩
/-- R218: MEM_UNRECOVERED. -/
def MEM_UNRECOVERED : Fld := ⟨0x60130, 0, 64, .ro, 0, false⟩
/-- R218: MEM_SCRUB_DETECT. -/
def MEM_SCRUB_DETECT : Fld := ⟨0x60138, 0, 64, .ro, 0, false⟩
/-- R218: MEM_FLASH_RELOCATE. -/
def MEM_FLASH_RELOCATE : Fld := ⟨0x60140, 0, 64, .ro, 0, false⟩
/-- R240: MEM_MANIFEST_LO. -/
def MEM_MANIFEST_LO : Fld := ⟨0x60200, 0, 32, .rw, 0, false⟩
/-- R240: MEM_MANIFEST_HI. -/
def MEM_MANIFEST_HI : Fld := ⟨0x60204, 0, 32, .rw, 0, false⟩
/-- R240: MEM_LOAD_CMD.GO. -/
def MEM_LOAD_CMD_GO : Fld := ⟨0x60208, 0, 1, .w1s, 0, false⟩
/-- R240: MEM_LOAD_CMD.ABORT. -/
def MEM_LOAD_CMD_ABORT : Fld := ⟨0x60208, 1, 1, .w1s, 0, false⟩
/-- R240: MEM_LOAD_CMD.PORT. -/
def MEM_LOAD_CMD_PORT : Fld := ⟨0x60208, 2, 1, .rw, 0, false⟩
/-- R240: MEM_LOAD_STATUS.BUSY. -/
def MEM_LOAD_STATUS_BUSY : Fld := ⟨0x6020c, 0, 1, .ro, 0, false⟩
/-- R240: MEM_LOAD_STATUS.PHASE. -/
def MEM_LOAD_STATUS_PHASE : Fld := ⟨0x6020c, 1, 3, .ro, 0, false⟩
/-- R240: MEM_LOAD_STATUS.STATUS. -/
def MEM_LOAD_STATUS_STATUS : Fld := ⟨0x6020c, 8, 8, .ro, 0, false⟩
/-- R240: MEM_LOAD_STATUS.RESOURCE. -/
def MEM_LOAD_STATUS_RESOURCE : Fld := ⟨0x6020c, 16, 8, .ro, 0, false⟩
/-- R240: MEM_LOAD_STATUS.PROGRESS. -/
def MEM_LOAD_STATUS_PROGRESS : Fld := ⟨0x6020c, 24, 8, .ro, 0, false⟩
/-- R240: MEM_GEN_CMD_ID. -/
def MEM_GEN_CMD_ID : Fld := ⟨0x60210, 0, 32, .rw, 0, false⟩
/-- R240: MEM_GEN_CMD.OP. -/
def MEM_GEN_CMD_OP : Fld := ⟨0x60214, 0, 2, .wo, 0, false⟩
/-- R240: MEM_GEN_CMD.SLOT. -/
def MEM_GEN_CMD_SLOT : Fld := ⟨0x60214, 2, 1, .wo, 0, false⟩
/-- R240: MEM_GEN_CMD.INDEX. -/
def MEM_GEN_CMD_INDEX : Fld := ⟨0x60214, 8, 8, .wo, 0, false⟩
/-- R240: MEM_GEN_STATE.SLOT0. -/
def MEM_GEN_STATE_SLOT0 : Fld := ⟨0x60218, 0, 3, .ro, 0, false⟩
/-- R240: MEM_GEN_STATE.SLOT1. -/
def MEM_GEN_STATE_SLOT1 : Fld := ⟨0x60218, 3, 3, .ro, 0, false⟩
/-- R240: MEM_GEN_STATE.POINTER. -/
def MEM_GEN_STATE_POINTER : Fld := ⟨0x60218, 6, 1, .ro, 0, false⟩
/-- R240: MEM_GEN_STATE.ENTRY. -/
def MEM_GEN_STATE_ENTRY : Fld := ⟨0x60218, 7, 1, .ro, 0, false⟩
/-- R240: MEM_GEN_STATE.HOLD. -/
def MEM_GEN_STATE_HOLD : Fld := ⟨0x60218, 8, 2, .ro, 0, false⟩
/-- R240: MEM_GEN_STATE.CMD_STATUS. -/
def MEM_GEN_STATE_CMD_STATUS : Fld := ⟨0x60218, 16, 8, .ro, 0, false⟩
/-- R240: MEM_GEN_STATE.CMD_PENDING. -/
def MEM_GEN_STATE_CMD_PENDING : Fld := ⟨0x60218, 24, 1, .ro, 0, false⟩
/-- R240: MEM_GEN0_ID. -/
def MEM_GEN0_ID : Fld := ⟨0x6021c, 0, 32, .ro, 0, false⟩
/-- R240: MEM_GEN1_ID. -/
def MEM_GEN1_ID : Fld := ⟨0x60220, 0, 32, .ro, 0, false⟩
/-- R240: MEM_SMALL_COUNT.RESIDENT. -/
def MEM_SMALL_COUNT_RESIDENT : Fld := ⟨0x60224, 0, 9, .ro, 0, false⟩
/-- R273: CTX_LC_BASE_LO. -/
def CTX_LC_BASE_LO : Fld := ⟨0x50000, 14, 18, .rw, 0, true⟩
/-- R273: CTX_LC_BASE_HI. -/
def CTX_LC_BASE_HI : Fld := ⟨0x50004, 0, 32, .rw, 0, true⟩
/-- R273: CTX_BE_BASE_LO. -/
def CTX_BE_BASE_LO : Fld := ⟨0x50008, 14, 18, .rw, 0, true⟩
/-- R273: CTX_BE_BASE_HI. -/
def CTX_BE_BASE_HI : Fld := ⟨0x5000c, 0, 32, .rw, 0, true⟩
/-- R273: CTX_CPL_BASE_LO. -/
def CTX_CPL_BASE_LO : Fld := ⟨0x50010, 12, 20, .rw, 0, true⟩
/-- R273: CTX_CPL_BASE_HI. -/
def CTX_CPL_BASE_HI : Fld := ⟨0x50014, 0, 32, .rw, 0, true⟩
/-- R273: CTX_CPL_SIZE.SIZE_LOG2. -/
def CTX_CPL_SIZE_SIZE_LOG2 : Fld := ⟨0x50018, 0, 5, .rw, 12, true⟩
/-- R273: CTX_RING_CTL.LC_EN. -/
def CTX_RING_CTL_LC_EN : Fld := ⟨0x5001c, 0, 1, .rw, 0, true⟩
/-- R273: CTX_RING_CTL.BE_EN. -/
def CTX_RING_CTL_BE_EN : Fld := ⟨0x5001c, 1, 1, .rw, 0, true⟩
/-- R273: CTX_RING_CTL.CPL_EN. -/
def CTX_RING_CTL_CPL_EN : Fld := ⟨0x5001c, 2, 1, .rw, 0, true⟩
/-- R273: CTX_RING_CTL.ACTIVE. -/
def CTX_RING_CTL_ACTIVE : Fld := ⟨0x5001c, 8, 1, .ro, 0, true⟩
/-- R273: CTX_RING_CTL.PORT_LOST. -/
def CTX_RING_CTL_PORT_LOST : Fld := ⟨0x5001c, 9, 1, .ro, 0, true⟩
/-- R273: CTX_RING_CONS.LC_CONS. -/
def CTX_RING_CONS_LC_CONS : Fld := ⟨0x50020, 0, 8, .ro, 0, true⟩
/-- R273: CTX_RING_CONS.BE_CONS. -/
def CTX_RING_CONS_BE_CONS : Fld := ⟨0x50020, 8, 8, .ro, 0, true⟩
/-- R273: CTX_RING_CONS.LC_PHASE. -/
def CTX_RING_CONS_LC_PHASE : Fld := ⟨0x50020, 16, 1, .ro, 1, true⟩
/-- R273: CTX_RING_CONS.BE_PHASE. -/
def CTX_RING_CONS_BE_PHASE : Fld := ⟨0x50020, 17, 1, .ro, 1, true⟩
/-- R273: CTX_CPL_HEAD.INDEX. -/
def CTX_CPL_HEAD_INDEX : Fld := ⟨0x50024, 0, 17, .ro, 0, true⟩
/-- R273: CTX_CPL_TAIL.INDEX. -/
def CTX_CPL_TAIL_INDEX : Fld := ⟨0x50028, 0, 17, .rw, 0, true⟩
/-- R273: CTX_STEP_ORIGIN_LO. -/
def CTX_STEP_ORIGIN_LO : Fld := ⟨0x50040, 0, 32, .rwl, 0, false⟩
/-- R273: CTX_STEP_ORIGIN_HI. -/
def CTX_STEP_ORIGIN_HI : Fld := ⟨0x50044, 0, 32, .rwl, 0, false⟩
/-- R273: CTX_STEP_NEXT_LO. -/
def CTX_STEP_NEXT : Fld := ⟨0x50048, 0, 64, .ro, 0, false⟩
/-- R273: CTX_POLICY.PREEMPT_EN. -/
def CTX_POLICY_PREEMPT_EN : Fld := ⟨0x50050, 0, 1, .rwl, 1, false⟩
/-- R273: CTX_POLICY.POLL_US. -/
def CTX_POLICY_POLL_US : Fld := ⟨0x50050, 8, 8, .rwl, 10, false⟩
/-- R273: CTX_RETURN_LIMIT.MS. -/
def CTX_RETURN_LIMIT_MS : Fld := ⟨0x50054, 0, 14, .rwl, 100, false⟩
/-- R273: CTX_ORPHAN_LIMIT.S. -/
def CTX_ORPHAN_LIMIT_S : Fld := ⟨0x50058, 0, 12, .rwl, 60, false⟩
/-- R273: CTX_COUNT.LIVE. -/
def CTX_COUNT_LIVE : Fld := ⟨0x5005c, 0, 13, .ro, 0, false⟩
/-- R273: CTX_COUNT.ORPHANED. -/
def CTX_COUNT_ORPHANED : Fld := ⟨0x5005c, 16, 13, .ro, 0, false⟩
/-- R273: CTX_ADOPT_ADDR_LO. -/
def CTX_ADOPT_ADDR_LO : Fld := ⟨0x50060, 6, 26, .rw, 0, true⟩
/-- R273: CTX_ADOPT_ADDR_HI. -/
def CTX_ADOPT_ADDR_HI : Fld := ⟨0x50064, 0, 32, .rw, 0, true⟩
/-- R273: CTX_ADOPT_CMD.GO. -/
def CTX_ADOPT_CMD_GO : Fld := ⟨0x50068, 0, 1, .w1s, 0, true⟩
/-- R273: CTX_ADOPT_CMD.BUSY. -/
def CTX_ADOPT_CMD_BUSY : Fld := ⟨0x50068, 1, 1, .ro, 0, true⟩
/-- R273: CTX_ADOPT_CMD.STATUS. -/
def CTX_ADOPT_CMD_STATUS : Fld := ⟨0x50068, 8, 8, .ro, 0, true⟩
/-- R273: CTX_ACCT_BASE_LO.  Reset: Set by control firmware (DESIGN CHOICE 0, log entry 3). -/
def CTX_ACCT_BASE : Fld := ⟨0x50070, 0, 64, .ro, 0, false⟩
/-- R273: CTX_LOCK.LOCK. -/
def CTX_LOCK_LOCK : Fld := ⟨0x5fffc, 0, 1, .w1s, 0, false⟩
/-- R296: NOC_ROUTER_SHUT.  Reset: Set by self-test (DESIGN CHOICE 0, log entry 3). -/
def NOC_ROUTER_SHUT (k : Nat) : Fld := ⟨0x80000 + 4 * k, 0, 32, .ro, 0, false⟩
/-- R296: NOC_FENCE_PENDING. -/
def NOC_FENCE_PENDING (k : Nat) : Fld := ⟨0x80020 + 4 * k, 0, 32, .ro, 0, false⟩
/-- R296: NOC_TIMEOUT.US. -/
def NOC_TIMEOUT_US : Fld := ⟨0x80040, 0, 10, .rwl, 50, false⟩
/-- R296: NOC_HINGE.LINK_UP.  Reset: Set by self-test (DESIGN CHOICE 0, log entry 3). -/
def NOC_HINGE_LINK_UP : Fld := ⟨0x80044, 0, 8, .ro, 0, false⟩
/-- R296: NOC_HINGE.DIV. -/
def NOC_HINGE_DIV : Fld := ⟨0x80044, 8, 5, .ro, 5, false⟩
/-- R296: NOC_DETOUR_SEQ. -/
def NOC_DETOUR_SEQ : Fld := ⟨0x80048, 0, 32, .ro, 0, false⟩
/-- R296: NOC_LAST_FAULT.ROUTER. -/
def NOC_LAST_FAULT_ROUTER : Fld := ⟨0x80050, 0, 8, .ro, 0, false⟩
/-- R296: NOC_LAST_FAULT.PORT. -/
def NOC_LAST_FAULT_PORT : Fld := ⟨0x80050, 8, 3, .ro, 0, false⟩
/-- R296: NOC_LAST_FAULT.CAUSE. -/
def NOC_LAST_FAULT_CAUSE : Fld := ⟨0x80050, 16, 4, .ro, 0, false⟩
/-- R296: NOC_LOCK.LOCK. -/
def NOC_LOCK_LOCK : Fld := ⟨0x8fffc, 0, 1, .w1s, 0, false⟩
/-- R297: NOC_LINK_REPLAY. -/
def NOC_LINK_REPLAY : Fld := ⟨0x80100, 0, 64, .ro, 0, false⟩
/-- R297: NOC_LINK_FAIL. -/
def NOC_LINK_FAIL : Fld := ⟨0x80108, 0, 64, .ro, 0, false⟩
/-- R297: NOC_TIMEOUTS. -/
def NOC_TIMEOUTS : Fld := ⟨0x80110, 0, 64, .ro, 0, false⟩
/-- R333: FAB_STATE.STATE. -/
def FAB_STATE_STATE : Fld := ⟨0x70000, 0, 4, .ro, 0, false⟩
/-- R333: FAB_EPOCH. -/
def FAB_EPOCH : Fld := ⟨0x70004, 0, 32, .ro, 0, false⟩
/-- R333: FAB_MEMBER_ADDR_LO. -/
def FAB_MEMBER_ADDR_LO : Fld := ⟨0x70008, 8, 24, .rw, 0, false⟩
/-- R333: FAB_MEMBER_ADDR_HI. -/
def FAB_MEMBER_ADDR_HI : Fld := ⟨0x7000c, 0, 32, .rw, 0, false⟩
/-- R333: FAB_MEMBER_CMD.APPLY. -/
def FAB_MEMBER_CMD_APPLY : Fld := ⟨0x70010, 0, 1, .w1s, 0, false⟩
/-- R333: FAB_MEMBER_CMD.BUSY. -/
def FAB_MEMBER_CMD_BUSY : Fld := ⟨0x70010, 1, 1, .ro, 0, false⟩
/-- R333: FAB_MEMBER_CMD.STATUS. -/
def FAB_MEMBER_CMD_STATUS : Fld := ⟨0x70010, 8, 8, .ro, 0, false⟩
/-- R333: FAB_LOAD_BOUND.US. -/
def FAB_LOAD_BOUND_US : Fld := ⟨0x70014, 0, 10, .rwl, 40, false⟩
/-- R333: FAB_DISCOVERY.MISSING. -/
def FAB_DISCOVERY_MISSING : Fld := ⟨0x70018, 0, 8, .ro, 0, false⟩
/-- R333: FAB_DISCOVERY.PARTIAL. -/
def FAB_DISCOVERY_PARTIAL : Fld := ⟨0x70018, 8, 8, .ro, 0, false⟩
/-- R333: FAB_DISCOVERY.EXTRA. -/
def FAB_DISCOVERY_EXTRA : Fld := ⟨0x70018, 16, 8, .ro, 0, false⟩
/-- R333: FAB_DISCOVERY.OWN_BAD. -/
def FAB_DISCOVERY_OWN_BAD : Fld := ⟨0x70018, 24, 4, .ro, 0, false⟩
/-- R333: FAB_DISCOVERY.TPOS_DIFF. -/
def FAB_DISCOVERY_TPOS_DIFF : Fld := ⟨0x70018, 28, 1, .ro, 0, false⟩
/-- R333: FAB_DISCOVERY.DONE. -/
def FAB_DISCOVERY_DONE : Fld := ⟨0x70018, 29, 1, .ro, 0, false⟩
/-- R333: FAB_LAST_FAULT.TARGET. -/
def FAB_LAST_FAULT_TARGET : Fld := ⟨0x7001c, 0, 7, .ro, 0, false⟩
/-- R333: FAB_LAST_FAULT.STATUS. -/
def FAB_LAST_FAULT_STATUS : Fld := ⟨0x7001c, 8, 8, .ro, 0, false⟩
/-- R333: FAB_LAST_FAULT.PLANE. -/
def FAB_LAST_FAULT_PLANE : Fld := ⟨0x7001c, 16, 3, .ro, 0, false⟩
/-- R333: FAB_LAST_FAULT.CAUSE. -/
def FAB_LAST_FAULT_CAUSE : Fld := ⟨0x7001c, 20, 4, .ro, 0, false⟩
/-- R333: FAB_MEMBERS. -/
def FAB_MEMBERS (k : Nat) : Fld := ⟨0x70020 + 4 * k, 0, 32, .ro, 0, false⟩
/-- R333: FAB_DEAD. -/
def FAB_DEAD (k : Nat) : Fld := ⟨0x70030 + 4 * k, 0, 32, .ro, 0, false⟩
/-- R333: FAB_PORT.LINK. -/
def FAB_PORT_LINK (k : Nat) : Fld := ⟨0x70040 + 4 * k, 0, 3, .ro, 0, false⟩
/-- R333: FAB_PORT.REVERSED. -/
def FAB_PORT_REVERSED (k : Nat) : Fld := ⟨0x70040 + 4 * k, 3, 1, .ro, 0, false⟩
/-- R333: FAB_PORT.LANE_OK. -/
def FAB_PORT_LANE_OK (k : Nat) : Fld := ⟨0x70040 + 4 * k, 4, 5, .ro, 0, false⟩
/-- R333: FAB_PORT.SPARE_USED. -/
def FAB_PORT_SPARE_USED (k : Nat) : Fld := ⟨0x70040 + 4 * k, 9, 1, .ro, 0, false⟩
/-- R333: FAB_PORT.PLANE_SEEN. -/
def FAB_PORT_PLANE_SEEN (k : Nat) : Fld := ⟨0x70040 + 4 * k, 10, 3, .ro, 0, false⟩
/-- R333: FAB_PORT.SWAPPED. -/
def FAB_PORT_SWAPPED (k : Nat) : Fld := ⟨0x70040 + 4 * k, 13, 1, .ro, 0, false⟩
/-- R333: FAB_PORT.SWITCH_PORT. -/
def FAB_PORT_SWITCH_PORT (k : Nat) : Fld := ⟨0x70040 + 4 * k, 14, 6, .ro, 0, false⟩
/-- R333: FAB_PORT.RACK_SEEN. -/
def FAB_PORT_RACK_SEEN (k : Nat) : Fld := ⟨0x70040 + 4 * k, 20, 1, .ro, 0, false⟩
/-- R333: FAB_PORT.POSITION. -/
def FAB_PORT_POSITION (k : Nat) : Fld := ⟨0x70040 + 4 * k, 21, 7, .ro, 0, false⟩
/-- R333: FAB_PORT.MISPLACED. -/
def FAB_PORT_MISPLACED (k : Nat) : Fld := ⟨0x70040 + 4 * k, 28, 1, .ro, 0, false⟩
/-- R333: FAB_WINDOW_BASE_LO.  Reset: Set by control firmware (DESIGN CHOICE 0, log entry 3). -/
def FAB_WINDOW_BASE : Fld := ⟨0x70060, 0, 64, .ro, 0, false⟩
/-- R333: FAB_REPORT_BASE_LO.  Reset: Set by control firmware (DESIGN CHOICE 0, log entry 3). -/
def FAB_REPORT_BASE : Fld := ⟨0x70068, 0, 64, .ro, 0, false⟩
/-- R333: FAB_LOCK.LOCK. -/
def FAB_LOCK_LOCK : Fld := ⟨0x7fffc, 0, 1, .w1s, 0, false⟩
/-- R334: FAB_RETRY. -/
def FAB_RETRY : Fld := ⟨0x70100, 0, 64, .ro, 0, false⟩
/-- R334: FAB_BOUND. -/
def FAB_BOUND : Fld := ⟨0x70108, 0, 64, .ro, 0, false⟩
/-- R334: FAB_DENIED. -/
def FAB_DENIED : Fld := ⟨0x70110, 0, 64, .ro, 0, false⟩
/-- R334: FAB_STALE_EPOCH. -/
def FAB_STALE_EPOCH : Fld := ⟨0x70118, 0, 64, .ro, 0, false⟩
/-- R334: FAB_EPOCH_AHEAD. -/
def FAB_EPOCH_AHEAD : Fld := ⟨0x70120, 0, 64, .ro, 0, false⟩
/-- R334: FAB_DUP. -/
def FAB_DUP : Fld := ⟨0x70128, 0, 64, .ro, 0, false⟩
/-- R334: FAB_CACHE_HIT. -/
def FAB_CACHE_HIT : Fld := ⟨0x70130, 0, 64, .ro, 0, false⟩
/-- R334: FAB_ATOMIC_STALE. -/
def FAB_ATOMIC_STALE : Fld := ⟨0x70138, 0, 64, .ro, 0, false⟩
/-- R334: FAB_E2E_CRC. -/
def FAB_E2E_CRC : Fld := ⟨0x70140, 0, 64, .ro, 0, false⟩
/-- R334: FAB_LANE_RECAL. -/
def FAB_LANE_RECAL : Fld := ⟨0x70148, 0, 64, .ro, 0, false⟩
/-- R349: CTX_REPLAY_ADDR_LO. -/
def CTX_REPLAY_ADDR_LO : Fld := ⟨0x500a0, 6, 26, .rw, 0, false⟩
/-- R349: CTX_REPLAY_ADDR_HI. -/
def CTX_REPLAY_ADDR_HI : Fld := ⟨0x500a4, 0, 32, .rw, 0, false⟩
/-- R349: CTX_REPLAY_CMD.ENTER. -/
def CTX_REPLAY_CMD_ENTER : Fld := ⟨0x500a8, 0, 1, .w1s, 0, false⟩
/-- R349: CTX_REPLAY_CMD.LEAVE. -/
def CTX_REPLAY_CMD_LEAVE : Fld := ⟨0x500a8, 1, 1, .w1s, 0, false⟩
/-- R349: CTX_REPLAY_CMD.SUBMIT. -/
def CTX_REPLAY_CMD_SUBMIT : Fld := ⟨0x500a8, 2, 1, .w1s, 0, false⟩
/-- R349: CTX_REPLAY_CMD.FRESH. -/
def CTX_REPLAY_CMD_FRESH : Fld := ⟨0x500a8, 3, 1, .rw, 0, false⟩
/-- R349: CTX_REPLAY_CMD.MODE. -/
def CTX_REPLAY_CMD_MODE : Fld := ⟨0x500a8, 4, 1, .ro, 0, false⟩
/-- R349: CTX_REPLAY_CMD.BUSY. -/
def CTX_REPLAY_CMD_BUSY : Fld := ⟨0x500a8, 5, 1, .ro, 0, false⟩
/-- R349: CTX_REPLAY_CMD.STATUS. -/
def CTX_REPLAY_CMD_STATUS : Fld := ⟨0x500a8, 8, 8, .ro, 0, false⟩
/-- R349: CTX_REPLAY_CMD.RESOURCE. -/
def CTX_REPLAY_CMD_RESOURCE : Fld := ⟨0x500a8, 16, 8, .ro, 0, false⟩
/-- R349: CTX_CAPTURE_STEP_LO. -/
def CTX_CAPTURE_STEP_LO : Fld := ⟨0x500b0, 0, 32, .rw, 0, false⟩
/-- R349: CTX_CAPTURE_STEP_HI. -/
def CTX_CAPTURE_STEP_HI : Fld := ⟨0x500b4, 0, 32, .rw, 0, false⟩
/-- R349: CTX_CAPTURE_LAYERS.FIRST. -/
def CTX_CAPTURE_LAYERS_FIRST : Fld := ⟨0x500b8, 0, 16, .rw, 0, false⟩
/-- R349: CTX_CAPTURE_LAYERS.LAST. -/
def CTX_CAPTURE_LAYERS_LAST : Fld := ⟨0x500b8, 16, 16, .rw, 0, false⟩
/-- R349: CTX_CAPTURE_CTL.LEASE. -/
def CTX_CAPTURE_CTL_LEASE : Fld := ⟨0x500bc, 0, 16, .rw, 0, false⟩
/-- R349: CTX_CAPTURE_CTL.ARM. -/
def CTX_CAPTURE_CTL_ARM : Fld := ⟨0x500bc, 16, 1, .w1s, 0, false⟩
/-- R349: CTX_CAPTURE_CTL.ARMED. -/
def CTX_CAPTURE_CTL_ARMED : Fld := ⟨0x500bc, 17, 1, .ro, 0, false⟩
/-- R349: CTX_CAPTURE_CTL.TAKEN. -/
def CTX_CAPTURE_CTL_TAKEN : Fld := ⟨0x500bc, 18, 1, .ro, 0, false⟩
/-- R349: CTX_CAPTURE_CTL.STATUS. -/
def CTX_CAPTURE_CTL_STATUS : Fld := ⟨0x500bc, 24, 8, .ro, 0, false⟩
/-- R349: CTX_CAPTURE_BASE_LO.  Reset: Set by control firmware (DESIGN CHOICE 0, log entry 3). -/
def CTX_CAPTURE_BASE : Fld := ⟨0x500c0, 0, 64, .ro, 0, false⟩
/-- R368: ENG_IMG_ADDR_LO. -/
def ENG_IMG_ADDR_LO : Fld := ⟨0x9e000, 6, 26, .rw, 0, false⟩
/-- R368: ENG_IMG_ADDR_HI. -/
def ENG_IMG_ADDR_HI : Fld := ⟨0x9e004, 0, 32, .rw, 0, false⟩
/-- R368: ENG_IMG_CMD.GO. -/
def ENG_IMG_CMD_GO : Fld := ⟨0x9e008, 0, 1, .w1s, 0, false⟩
/-- R368: ENG_IMG_CMD.ABORT. -/
def ENG_IMG_CMD_ABORT : Fld := ⟨0x9e008, 1, 1, .w1s, 0, false⟩
/-- R368: ENG_IMG_STATUS.BUSY. -/
def ENG_IMG_STATUS_BUSY : Fld := ⟨0x9e00c, 0, 1, .ro, 0, false⟩
/-- R368: ENG_IMG_STATUS.PHASE. -/
def ENG_IMG_STATUS_PHASE : Fld := ⟨0x9e00c, 1, 3, .ro, 0, false⟩
/-- R368: ENG_IMG_STATUS.KIND. -/
def ENG_IMG_STATUS_KIND : Fld := ⟨0x9e00c, 4, 2, .ro, 0, false⟩
/-- R368: ENG_IMG_STATUS.STATUS. -/
def ENG_IMG_STATUS_STATUS : Fld := ⟨0x9e00c, 8, 8, .ro, 0, false⟩
/-- R368: ENG_IMG_STATUS.PROGRESS. -/
def ENG_IMG_STATUS_PROGRESS : Fld := ⟨0x9e00c, 24, 8, .ro, 0, false⟩
/-- R368: ENG_IMG_REFUSAL.KIND. -/
def ENG_IMG_REFUSAL_KIND : Fld := ⟨0x9e010, 0, 4, .ro, 0, false⟩
/-- R368: ENG_IMG_REFUSAL.CODE. -/
def ENG_IMG_REFUSAL_CODE : Fld := ⟨0x9e010, 8, 8, .ro, 0, false⟩
/-- R368: ENG_IMG_ITEM.ITEM. -/
def ENG_IMG_ITEM_ITEM : Fld := ⟨0x9e014, 0, 32, .ro, 0, false⟩
/-- R368: ENG_IMG_STATE.STATE. -/
def ENG_IMG_STATE_STATE : Fld := ⟨0x9e018, 0, 2, .ro, 0, false⟩
/-- R368: ENG_IMG_STATE.ENTRY. -/
def ENG_IMG_STATE_ENTRY : Fld := ⟨0x9e018, 2, 1, .ro, 0, false⟩
/-- R368: ENG_IMG_STATE.LAST. -/
def ENG_IMG_STATE_LAST : Fld := ⟨0x9e018, 3, 1, .ro, 0, false⟩
/-- R368: ENG_IMG_STATE.PREFIX_MODE. -/
def ENG_IMG_STATE_PREFIX_MODE : Fld := ⟨0x9e018, 8, 8, .ro, 0, false⟩
/-- R368: ENG_IMG_SEQ. -/
def ENG_IMG_SEQ : Fld := ⟨0x9e01c, 0, 32, .ro, 0, false⟩
/-- R368: ENG_IMG_GROUPS.GROUP. -/
def ENG_IMG_GROUPS_GROUP (n : Nat) : Fld := ⟨0x9e020 + 4 * (n / 16), 0 + 2 * (n % 16), 2, .ro, 0, false⟩
/-- R368: ENG_IMG_LOGICAL. -/
def ENG_IMG_LOGICAL (k : Nat) : Fld := ⟨0x9e040 + 4 * k, 0, 32, .ro, 0, false⟩
/-- R387: CLK_REF_CTL.SRC_SEL. -/
def CLK_REF_CTL_SRC_SEL : Fld := ⟨0x10000, 0, 1, .rw, 0, false⟩
/-- R387: CLK_REF_CTL.AUTO_FAILOVER. -/
def CLK_REF_CTL_AUTO_FAILOVER : Fld := ⟨0x10000, 1, 1, .rwl, 1, false⟩
/-- R387: CLK_REF_CTL.HOLDOVER_LIMIT. -/
def CLK_REF_CTL_HOLDOVER_LIMIT : Fld := ⟨0x10000, 8, 7, .rwl, 10, false⟩
/-- R387: CLK_REF_STATUS.REF_A_OK.  Reset: Per monitor (DESIGN CHOICE 0, log entry 3). -/
def CLK_REF_STATUS_REF_A_OK : Fld := ⟨0x10004, 0, 1, .ro, 0, false⟩
/-- R387: CLK_REF_STATUS.REF_B_OK.  Reset: Per monitor (DESIGN CHOICE 0, log entry 3). -/
def CLK_REF_STATUS_REF_B_OK : Fld := ⟨0x10004, 1, 1, .ro, 0, false⟩
/-- R387: CLK_REF_STATUS.SRC_ACTIVE.  Reset: Per R371 (DESIGN CHOICE 0, log entry 3). -/
def CLK_REF_STATUS_SRC_ACTIVE : Fld := ⟨0x10004, 2, 1, .ro, 0, false⟩
/-- R387: CLK_REF_STATUS.PLL_LOCK. -/
def CLK_REF_STATUS_PLL_LOCK : Fld := ⟨0x10004, 3, 1, .ro, 1, false⟩
/-- R387: CLK_REF_STATUS.HOLDOVER. -/
def CLK_REF_STATUS_HOLDOVER : Fld := ⟨0x10004, 4, 1, .ro, 0, false⟩
/-- R387: CLK_REF_STATUS.SWITCH_BUSY. -/
def CLK_REF_STATUS_SWITCH_BUSY : Fld := ⟨0x10004, 5, 1, .ro, 0, false⟩
/-- R387: CLK_REF_STATUS.SWITCH_STATUS. -/
def CLK_REF_STATUS_SWITCH_STATUS : Fld := ⟨0x10004, 8, 8, .ro, 0, false⟩
/-- R387: CLK_REF_STATUS.SWITCHES. -/
def CLK_REF_STATUS_SWITCHES : Fld := ⟨0x10004, 16, 16, .ro, 0, false⟩
/-- R387: CLK_SSC.EN. -/
def CLK_SSC_EN : Fld := ⟨0x10008, 0, 1, .rwl, 0, false⟩
/-- R387: CLK_SSC.DEPTH. -/
def CLK_SSC_DEPTH : Fld := ⟨0x10008, 8, 8, .rwl, 30, false⟩
/-- R387: CLK_SSC.RATE. -/
def CLK_SSC_RATE : Fld := ⟨0x10008, 16, 9, .rwl, 0x13b, false⟩
/-- R387: CLK_RAMP.DWELL. -/
def CLK_RAMP_DWELL : Fld := ⟨0x1000c, 0, 8, .rwl, 10, false⟩
/-- R387: CLK_ACLK_CEIL.MIN_CODE. -/
def CLK_ACLK_CEIL_MIN_CODE : Fld := ⟨0x10010, 0, 3, .rwl, 0, false⟩
/-- R387: CLK_NCLK.TARGET_W. -/
def CLK_NCLK_TARGET_W : Fld := ⟨0x10014, 0, 3, .rwl, 0, false⟩
/-- R387: CLK_NCLK.TARGET_E. -/
def CLK_NCLK_TARGET_E : Fld := ⟨0x10014, 4, 3, .rwl, 0, false⟩
/-- R387: CLK_NCLK.CUR_W. -/
def CLK_NCLK_CUR_W : Fld := ⟨0x10014, 8, 3, .ro, 0, false⟩
/-- R387: CLK_NCLK.CUR_E. -/
def CLK_NCLK_CUR_E : Fld := ⟨0x10014, 12, 3, .ro, 0, false⟩
/-- R387: CLK_NCLK.RAMPING. -/
def CLK_NCLK_RAMPING : Fld := ⟨0x10014, 16, 1, .ro, 0, false⟩
/-- R387: CLK_CCLK.TARGET_W. -/
def CLK_CCLK_TARGET_W : Fld := ⟨0x10018, 0, 3, .rwl, 0, false⟩
/-- R387: CLK_CCLK.TARGET_E. -/
def CLK_CCLK_TARGET_E : Fld := ⟨0x10018, 4, 3, .rwl, 0, false⟩
/-- R387: CLK_CCLK.CUR_W. -/
def CLK_CCLK_CUR_W : Fld := ⟨0x10018, 8, 3, .ro, 0, false⟩
/-- R387: CLK_CCLK.CUR_E. -/
def CLK_CCLK_CUR_E : Fld := ⟨0x10018, 12, 3, .ro, 0, false⟩
/-- R387: CLK_CCLK.RAMPING. -/
def CLK_CCLK_RAMPING : Fld := ⟨0x10018, 16, 1, .ro, 0, false⟩
/-- R387: CLK_ACLK_CUR.CODE. -/
def CLK_ACLK_CUR_CODE (n : Nat) : Fld := ⟨0x10020 + 4 * (n / 8), 0 + 4 * (n % 8), 3, .ro, 6, false⟩
/-- R387: CLK_ACLK_CUR.STRETCH. -/
def CLK_ACLK_CUR_STRETCH (n : Nat) : Fld := ⟨0x10020 + 4 * (n / 8), 3 + 4 * (n % 8), 1, .ro, 0, false⟩
/-- R387: CLK_FCOUNT_CTL.SEL. -/
def CLK_FCOUNT_CTL_SEL : Fld := ⟨0x10040, 0, 7, .rw, 0, true⟩
/-- R387: CLK_FCOUNT_CTL.GATE_LOG2. -/
def CLK_FCOUNT_CTL_GATE_LOG2 : Fld := ⟨0x10040, 8, 5, .rw, 20, true⟩
/-- R387: CLK_FCOUNT_CTL.START. -/
def CLK_FCOUNT_CTL_START : Fld := ⟨0x10040, 16, 1, .w1s, 0, true⟩
/-- R387: CLK_FCOUNT_CTL.BUSY. -/
def CLK_FCOUNT_CTL_BUSY : Fld := ⟨0x10040, 17, 1, .ro, 0, true⟩
/-- R387: CLK_FCOUNT_CTL.VALID. -/
def CLK_FCOUNT_CTL_VALID : Fld := ⟨0x10040, 18, 1, .ro, 0, true⟩
/-- R387: CLK_FCOUNT_CTL.DISTURBED. -/
def CLK_FCOUNT_CTL_DISTURBED : Fld := ⟨0x10040, 19, 1, .ro, 0, true⟩
/-- R387: CLK_FCOUNT_RESULT. -/
def CLK_FCOUNT_RESULT : Fld := ⟨0x10044, 0, 32, .ro, 0, true⟩
/-- R387: CLK_LOCK.LOCK. -/
def CLK_LOCK_LOCK : Fld := ⟨0x1fffc, 0, 1, .w1s, 0, false⟩
/-- R410: PWR_CAP.TARGET. -/
def PWR_CAP_TARGET : Fld := ⟨0x20000, 0, 12, .rw, 0x708, false⟩
/-- R410: PWR_CAP.EFFECTIVE. -/
def PWR_CAP_EFFECTIVE : Fld := ⟨0x20000, 16, 12, .ro, 0x708, false⟩
/-- R410: PWR_SLEW.DOWN. -/
def PWR_SLEW_DOWN : Fld := ⟨0x20004, 0, 6, .rwl, 50, false⟩
/-- R410: PWR_SLEW.UP. -/
def PWR_SLEW_UP : Fld := ⟨0x20004, 8, 5, .rwl, 20, false⟩
/-- R410: PWR_STATUS.CAP_LIMITED. -/
def PWR_STATUS_CAP_LIMITED : Fld := ⟨0x20008, 0, 1, .ro, 0, false⟩
/-- R410: PWR_STATUS.CAP_UNMET. -/
def PWR_STATUS_CAP_UNMET : Fld := ⟨0x20008, 1, 1, .ro, 0, false⟩
/-- R410: PWR_STATUS.CAL_FAULT. -/
def PWR_STATUS_CAL_FAULT : Fld := ⟨0x20008, 2, 1, .w1c, 0, false⟩
/-- R410: PWR_STATUS.BRAKE. -/
def PWR_STATUS_BRAKE : Fld := ⟨0x20008, 3, 1, .ro, 0, false⟩
/-- R410: PWR_STATUS.SHUTTER. -/
def PWR_STATUS_SHUTTER : Fld := ⟨0x20008, 4, 1, .ro, 0, false⟩
/-- R410: PWR_STATUS.SHUTTER_STUCK. -/
def PWR_STATUS_SHUTTER_STUCK : Fld := ⟨0x20008, 5, 1, .w1c, 0, false⟩
/-- R410: PWR_STATUS.LEAK. -/
def PWR_STATUS_LEAK : Fld := ⟨0x20008, 6, 1, .ro, 0, false⟩
/-- R410: PWR_STATUS.THERM_LIMITED. -/
def PWR_STATUS_THERM_LIMITED : Fld := ⟨0x20008, 7, 1, .ro, 0, false⟩
/-- R410: PWR_STATUS.THERM_BRAKE. -/
def PWR_STATUS_THERM_BRAKE : Fld := ⟨0x20008, 8, 1, .ro, 0, false⟩
/-- R410: PWR_STATUS.INLET_RANGE. -/
def PWR_STATUS_INLET_RANGE : Fld := ⟨0x20008, 9, 1, .w1c, 0, false⟩
/-- R410: PWR_STATUS.SENSE_OPEN. -/
def PWR_STATUS_SENSE_OPEN : Fld := ⟨0x20008, 10, 1, .ro, 0, false⟩
/-- R410: PWR_STATUS.VIN_LOW. -/
def PWR_STATUS_VIN_LOW : Fld := ⟨0x20008, 11, 1, .ro, 0, false⟩
/-- R410: PWR_STATUS.SENSOR_FAIL. -/
def PWR_STATUS_SENSOR_FAIL : Fld := ⟨0x20008, 12, 1, .w1c, 0, false⟩
/-- R410: PWR_OP.OP. -/
def PWR_OP_OP : Fld := ⟨0x2000c, 0, 8, .ro, 192, false⟩
/-- R410: PWR_OP.OP_FLOOR. -/
def PWR_OP_OP_FLOOR : Fld := ⟨0x2000c, 8, 8, .ro, 0, false⟩
/-- R410: PWR_OP.THERM_CAP. -/
def PWR_OP_THERM_CAP : Fld := ⟨0x2000c, 16, 12, .ro, 0x898, false⟩
/-- R410: PWR_EST.EST. -/
def PWR_EST_EST : Fld := ⟨0x20010, 0, 12, .ro, 0, false⟩
/-- R410: PWR_EST.MEAS. -/
def PWR_EST_MEAS : Fld := ⟨0x20010, 16, 12, .ro, 0, false⟩
/-- R410: PWR_VIN.VIN_MV.  Reset: Measured (DESIGN CHOICE 0, log entry 3). -/
def PWR_VIN_VIN_MV : Fld := ⟨0x20014, 0, 16, .ro, 0, false⟩
/-- R410: PWR_VIN.IIN_CA.  Reset: Measured (DESIGN CHOICE 0, log entry 3). -/
def PWR_VIN_IIN_CA : Fld := ⟨0x20014, 16, 16, .ro, 0, false⟩
/-- R410: PWR_THERM_CTL.TJ_TARGET. -/
def PWR_THERM_CTL_TJ_TARGET : Fld := ⟨0x20018, 0, 7, .rwl, 100, false⟩
/-- R410: PWR_TEMP.TJ_MAX.  Reset: Measured (DESIGN CHOICE 0, log entry 3). -/
def PWR_TEMP_TJ_MAX : Fld := ⟨0x2001c, 0, 8, .ro, 0, false⟩
/-- R410: PWR_TEMP.TJ_DOMAIN.  Reset: Measured (DESIGN CHOICE 0, log entry 3). -/
def PWR_TEMP_TJ_DOMAIN : Fld := ⟨0x2001c, 8, 5, .ro, 0, false⟩
/-- R410: PWR_TEMP.DRAM_MAX.  Reset: Measured (DESIGN CHOICE 0, log entry 3). -/
def PWR_TEMP_DRAM_MAX : Fld := ⟨0x2001c, 16, 8, .ro, 0, false⟩
/-- R410: PWR_TEMP.DRAM_VAULT.  Reset: Measured (DESIGN CHOICE 0, log entry 3). -/
def PWR_TEMP_DRAM_VAULT : Fld := ⟨0x2001c, 24, 5, .ro, 0, false⟩
/-- R410: PWR_COOLANT.INLET.  Reset: Measured (DESIGN CHOICE 0, log entry 3). -/
def PWR_COOLANT_INLET : Fld := ⟨0x20020, 0, 10, .ro, 0, false⟩
/-- R410: PWR_COOLANT.OUTLET.  Reset: Measured (DESIGN CHOICE 0, log entry 3). -/
def PWR_COOLANT_OUTLET : Fld := ⟨0x20020, 16, 10, .ro, 0, false⟩
/-- R410: PWR_LEAK_CTL.GRACE. -/
def PWR_LEAK_CTL_GRACE : Fld := ⟨0x20024, 0, 10, .rwl, 10, false⟩
/-- R410: PWR_DROOP_CTL.HOLD_US. -/
def PWR_DROOP_CTL_HOLD_US : Fld := ⟨0x20028, 0, 7, .rwl, 2, false⟩
/-- R410: PWR_PACE. -/
def PWR_PACE : Fld := ⟨0x2002c, 0, 32, .ro, 0, false⟩
/-- R410: PWR_FAULT.CAUSE.  Reset: Kept in non-volatile memory (DESIGN CHOICE 0, log entry 3). -/
def PWR_FAULT_CAUSE : Fld := ⟨0x20030, 0, 4, .ro, 0, false⟩
/-- R410: PWR_FAULT.RAIL.  Reset: Kept in non-volatile memory (DESIGN CHOICE 0, log entry 3). -/
def PWR_FAULT_RAIL : Fld := ⟨0x20030, 4, 4, .ro, 0, false⟩
/-- R410: PWR_LOCK.LOCK. -/
def PWR_LOCK_LOCK : Fld := ⟨0x2fffc, 0, 1, .w1s, 0, false⟩
/-- R411: PWR_ENERGY. -/
def PWR_ENERGY : Fld := ⟨0x20100, 0, 64, .ro, 0, false⟩
/-- R411: PWR_DROOP. -/
def PWR_DROOP : Fld := ⟨0x20108, 0, 64, .ro, 0, false⟩
/-- R411: PWR_CAP_LIMITED. -/
def PWR_CAP_LIMITED : Fld := ⟨0x20110, 0, 64, .ro, 0, false⟩
/-- R411: PWR_BRAKES. -/
def PWR_BRAKES : Fld := ⟨0x20118, 0, 64, .ro, 0, false⟩
/-- R434: HOST_PORT_A.UP. -/
def HOST_PORT_A_UP : Fld := ⟨0x40000, 0, 1, .ro, 0, false⟩
/-- R434: HOST_PORT_A.SPEED. -/
def HOST_PORT_A_SPEED : Fld := ⟨0x40000, 1, 3, .ro, 0, false⟩
/-- R434: HOST_PORT_A.WIDTH. -/
def HOST_PORT_A_WIDTH : Fld := ⟨0x40000, 4, 4, .ro, 0, false⟩
/-- R434: HOST_PORT_A.REVERSED. -/
def HOST_PORT_A_REVERSED : Fld := ⟨0x40000, 8, 1, .ro, 0, false⟩
/-- R434: HOST_PORT_A.PERST. -/
def HOST_PORT_A_PERST : Fld := ⟨0x40000, 9, 1, .ro, 1, false⟩
/-- R434: HOST_PORT_A.PERST_STUCK. -/
def HOST_PORT_A_PERST_STUCK : Fld := ⟨0x40000, 10, 1, .w1c, 0, false⟩
/-- R434: HOST_PORT_A.REF_OK. -/
def HOST_PORT_A_REF_OK : Fld := ⟨0x40000, 11, 1, .ro, 0, false⟩
/-- R434: HOST_PORT_A.D3HOT. -/
def HOST_PORT_A_D3HOT : Fld := ⟨0x40000, 12, 1, .ro, 0, false⟩
/-- R434: HOST_PORT_A.IDE. -/
def HOST_PORT_A_IDE : Fld := ⟨0x40000, 13, 2, .ro, 0, false⟩
/-- R434: HOST_PORT_A.DOWN_COUNT. -/
def HOST_PORT_A_DOWN_COUNT : Fld := ⟨0x40000, 16, 8, .ro, 0, false⟩
/-- R434: HOST_PORT_B.UP. -/
def HOST_PORT_B_UP : Fld := ⟨0x40004, 0, 1, .ro, 0, false⟩
/-- R434: HOST_PORT_B.SPEED. -/
def HOST_PORT_B_SPEED : Fld := ⟨0x40004, 1, 3, .ro, 0, false⟩
/-- R434: HOST_PORT_B.WIDTH. -/
def HOST_PORT_B_WIDTH : Fld := ⟨0x40004, 4, 4, .ro, 0, false⟩
/-- R434: HOST_PORT_B.REVERSED. -/
def HOST_PORT_B_REVERSED : Fld := ⟨0x40004, 8, 1, .ro, 0, false⟩
/-- R434: HOST_PORT_B.PERST. -/
def HOST_PORT_B_PERST : Fld := ⟨0x40004, 9, 1, .ro, 1, false⟩
/-- R434: HOST_PORT_B.PERST_STUCK. -/
def HOST_PORT_B_PERST_STUCK : Fld := ⟨0x40004, 10, 1, .w1c, 0, false⟩
/-- R434: HOST_PORT_B.REF_OK. -/
def HOST_PORT_B_REF_OK : Fld := ⟨0x40004, 11, 1, .ro, 0, false⟩
/-- R434: HOST_PORT_B.D3HOT. -/
def HOST_PORT_B_D3HOT : Fld := ⟨0x40004, 12, 1, .ro, 0, false⟩
/-- R434: HOST_PORT_B.IDE. -/
def HOST_PORT_B_IDE : Fld := ⟨0x40004, 13, 2, .ro, 0, false⟩
/-- R434: HOST_PORT_B.DOWN_COUNT. -/
def HOST_PORT_B_DOWN_COUNT : Fld := ⟨0x40004, 16, 8, .ro, 0, false⟩
/-- R434: HOST_BAR2_WIN_LO. -/
def HOST_BAR2_WIN_LO : Fld := ⟨0x40010, 30, 2, .rw, 0, true⟩
/-- R434: HOST_BAR2_WIN_HI. -/
def HOST_BAR2_WIN_HI : Fld := ⟨0x40014, 0, 32, .rw, 0, true⟩
/-- R434: HOST_IRQ_CAUSE.CPL. -/
def HOST_IRQ_CAUSE_CPL : Fld := ⟨0x40018, 0, 1, .w1c, 0, true⟩
/-- R434: HOST_IRQ_CAUSE.RING. -/
def HOST_IRQ_CAUSE_RING : Fld := ⟨0x40018, 1, 1, .w1c, 0, true⟩
/-- R434: HOST_IRQ_CAUSE.CMD. -/
def HOST_IRQ_CAUSE_CMD : Fld := ⟨0x40018, 2, 1, .w1c, 0, true⟩
/-- R434: HOST_IRQ_CAUSE.FAULT. -/
def HOST_IRQ_CAUSE_FAULT : Fld := ⟨0x40018, 3, 1, .w1c, 0, true⟩
/-- R434: HOST_IRQ_CAUSE.ALERT. -/
def HOST_IRQ_CAUSE_ALERT : Fld := ⟨0x40018, 4, 1, .w1c, 0, true⟩
/-- R434: HOST_IRQ_CAUSE.PEER. -/
def HOST_IRQ_CAUSE_PEER : Fld := ⟨0x40018, 5, 1, .w1c, 0, true⟩
/-- R434: HOST_IRQ_CAUSE.CLK. -/
def HOST_IRQ_CAUSE_CLK : Fld := ⟨0x40018, 6, 1, .w1c, 0, true⟩
/-- R434: HOST_IRQ_EN.CPL. -/
def HOST_IRQ_EN_CPL : Fld := ⟨0x4001c, 0, 1, .rw, 0, true⟩
/-- R434: HOST_IRQ_EN.RING. -/
def HOST_IRQ_EN_RING : Fld := ⟨0x4001c, 1, 1, .rw, 0, true⟩
/-- R434: HOST_IRQ_EN.CMD. -/
def HOST_IRQ_EN_CMD : Fld := ⟨0x4001c, 2, 1, .rw, 0, true⟩
/-- R434: HOST_IRQ_EN.FAULT. -/
def HOST_IRQ_EN_FAULT : Fld := ⟨0x4001c, 3, 1, .rw, 0, true⟩
/-- R434: HOST_IRQ_EN.ALERT. -/
def HOST_IRQ_EN_ALERT : Fld := ⟨0x4001c, 4, 1, .rw, 0, true⟩
/-- R434: HOST_IRQ_EN.PEER. -/
def HOST_IRQ_EN_PEER : Fld := ⟨0x4001c, 5, 1, .rw, 0, true⟩
/-- R434: HOST_IRQ_EN.CLK. -/
def HOST_IRQ_EN_CLK : Fld := ⟨0x4001c, 6, 1, .rw, 0, true⟩
/-- R434: HOST_IRQ_HOLDOFF.US. -/
def HOST_IRQ_HOLDOFF_US : Fld := ⟨0x40020, 0, 8, .rw, 0, true⟩
/-- R434: HOST_SIDEBAND.SHUTTER. -/
def HOST_SIDEBAND_SHUTTER : Fld := ⟨0x40030, 0, 1, .ro, 0, false⟩
/-- R434: HOST_SIDEBAND.LEAK. -/
def HOST_SIDEBAND_LEAK : Fld := ⟨0x40030, 1, 1, .ro, 0, false⟩
/-- R434: HOST_SIDEBAND.PERST_A. -/
def HOST_SIDEBAND_PERST_A : Fld := ⟨0x40030, 2, 1, .ro, 1, false⟩
/-- R434: HOST_SIDEBAND.PERST_B. -/
def HOST_SIDEBAND_PERST_B : Fld := ⟨0x40030, 3, 1, .ro, 1, false⟩
/-- R434: HOST_SIDEBAND.TOG. -/
def HOST_SIDEBAND_TOG : Fld := ⟨0x40030, 4, 4, .w1c, 0, false⟩
/-- R434: HOST_SIDEBAND.TOGGLING. -/
def HOST_SIDEBAND_TOGGLING : Fld := ⟨0x40030, 8, 4, .ro, 0, false⟩
/-- R434: HOST_SIDEBAND.TPOS.  Reset: Strap value (DESIGN CHOICE 0, log entry 3). -/
def HOST_SIDEBAND_TPOS : Fld := ⟨0x40030, 12, 3, .ro, 0, false⟩
/-- R434: HOST_SIDEBAND.TPOS_UNSTABLE. -/
def HOST_SIDEBAND_TPOS_UNSTABLE : Fld := ⟨0x40030, 15, 1, .ro, 0, false⟩
/-- R434: HOST_ALERT.SHUTTER_STUCK. -/
def HOST_ALERT_SHUTTER_STUCK : Fld := ⟨0x40034, 0, 1, .w1c, 0, false⟩
/-- R434: HOST_ALERT.TOGGLING. -/
def HOST_ALERT_TOGGLING : Fld := ⟨0x40034, 1, 1, .w1c, 0, false⟩
/-- R434: HOST_ALERT.PERST_STUCK. -/
def HOST_ALERT_PERST_STUCK : Fld := ⟨0x40034, 2, 1, .w1c, 0, false⟩
/-- R434: HOST_ALERT.LEAK. -/
def HOST_ALERT_LEAK : Fld := ⟨0x40034, 3, 1, .w1c, 0, false⟩
/-- R434: HOST_ALERT.THERMAL. -/
def HOST_ALERT_THERMAL : Fld := ⟨0x40034, 4, 1, .w1c, 0, false⟩
/-- R434: HOST_ALERT.CAP_UNMET. -/
def HOST_ALERT_CAP_UNMET : Fld := ⟨0x40034, 5, 1, .w1c, 0, false⟩
/-- R434: HOST_ALERT.FABRIC. -/
def HOST_ALERT_FABRIC : Fld := ⟨0x40034, 6, 1, .w1c, 0, false⟩
/-- R434: HOST_ALERT.FLASH. -/
def HOST_ALERT_FLASH : Fld := ⟨0x40034, 7, 1, .w1c, 0, false⟩
/-- R434: HOST_ALERT.SAFE_STATE. -/
def HOST_ALERT_SAFE_STATE : Fld := ⟨0x40034, 8, 1, .w1c, 0, false⟩
/-- R434: HOST_BADACC_COUNT. -/
def HOST_BADACC_COUNT : Fld := ⟨0x40040, 0, 32, .ro, 0, false⟩
/-- R434: HOST_BADACC_ADDR.OFFSET. -/
def HOST_BADACC_ADDR_OFFSET (k : Nat) : Fld := ⟨0x40080 + 8 * k, 0, 32, .ro, 0, false⟩
/-- R434: HOST_BADACC_INFO.BAR. -/
def HOST_BADACC_INFO_BAR (k : Nat) : Fld := ⟨0x40084 + 8 * k, 0, 2, .ro, 0, false⟩
/-- R434: HOST_BADACC_INFO.PORT. -/
def HOST_BADACC_INFO_PORT (k : Nat) : Fld := ⟨0x40084 + 8 * k, 2, 1, .ro, 0, false⟩
/-- R434: HOST_BADACC_INFO.WRITE. -/
def HOST_BADACC_INFO_WRITE (k : Nat) : Fld := ⟨0x40084 + 8 * k, 3, 1, .ro, 0, false⟩
/-- R434: HOST_BADACC_INFO.SIZE. -/
def HOST_BADACC_INFO_SIZE (k : Nat) : Fld := ⟨0x40084 + 8 * k, 4, 3, .ro, 0, false⟩
/-- R434: HOST_BADACC_INFO.MISALIGNED. -/
def HOST_BADACC_INFO_MISALIGNED (k : Nat) : Fld := ⟨0x40084 + 8 * k, 7, 1, .ro, 0, false⟩
/-- R434: HOST_BADACC_INFO.STATUS. -/
def HOST_BADACC_INFO_STATUS (k : Nat) : Fld := ⟨0x40084 + 8 * k, 8, 8, .ro, 0, false⟩
/-- R434: HOST_LOCK.LOCK. -/
def HOST_LOCK_LOCK : Fld := ⟨0x4fffc, 0, 1, .w1s, 0, false⟩
/-- R436: MGT_STATUS.EID. -/
def MGT_STATUS_EID : Fld := ⟨0xb0000, 0, 8, .ro, 0, false⟩
/-- R436: MGT_STATUS.I3C_ADDR. -/
def MGT_STATUS_I3C_ADDR : Fld := ⟨0xb0000, 8, 7, .ro, 0, false⟩
/-- R436: MGT_STATUS.I3C_ADDR_VALID. -/
def MGT_STATUS_I3C_ADDR_VALID : Fld := ⟨0xb0000, 15, 1, .ro, 0, false⟩
/-- R436: MGT_STATUS.SESSIONS. -/
def MGT_STATUS_SESSIONS : Fld := ⟨0xb0000, 16, 3, .ro, 0, false⟩
/-- R436: MGT_CTL.VDM_A_EN. -/
def MGT_CTL_VDM_A_EN : Fld := ⟨0xb0004, 0, 1, .rwl, 1, false⟩
/-- R436: MGT_CTL.VDM_B_EN. -/
def MGT_CTL_VDM_B_EN : Fld := ⟨0xb0004, 1, 1, .rwl, 1, false⟩
/-- R436: MGT_LOCK.LOCK. -/
def MGT_LOCK_LOCK : Fld := ⟨0xbfffc, 0, 1, .w1s, 0, false⟩
/-- R458: SEC_STATUS.OWNED.  Reset: Per key store (DESIGN CHOICE 0, log entry 3). -/
def SEC_STATUS_OWNED : Fld := ⟨0x30000, 0, 1, .ro, 0, false⟩
/-- R458: SEC_STATUS.OWNER_SLOT.  Reset: Per fuses (DESIGN CHOICE 0, log entry 3). -/
def SEC_STATUS_OWNER_SLOT : Fld := ⟨0x30000, 1, 4, .ro, 0, false⟩
/-- R458: SEC_STATUS.DEBUG. -/
def SEC_STATUS_DEBUG : Fld := ⟨0x30000, 5, 1, .ro, 0, false⟩
/-- R458: SEC_STATUS.COUNTERSIGN.  Reset: Per policy (DESIGN CHOICE 0, log entry 3). -/
def SEC_STATUS_COUNTERSIGN : Fld := ⟨0x30000, 6, 1, .ro, 0, false⟩
/-- R458: SEC_STATUS.LEASES.  Reset: Per key store (DESIGN CHOICE 0, log entry 3). -/
def SEC_STATUS_LEASES : Fld := ⟨0x30000, 7, 5, .ro, 0, false⟩
/-- R458: SEC_STATUS.ERASING. -/
def SEC_STATUS_ERASING : Fld := ⟨0x30000, 12, 1, .ro, 0, false⟩
/-- R458: SEC_STATUS.GLITCH_LOCK. -/
def SEC_STATUS_GLITCH_LOCK : Fld := ⟨0x30000, 13, 1, .ro, 0, false⟩
/-- R458: SEC_STATUS.ZERO_CAUSE.  Reset: Per last zeroisation (DESIGN CHOICE 0, log entry 3). -/
def SEC_STATUS_ZERO_CAUSE : Fld := ⟨0x30000, 16, 4, .ro, 0, false⟩
/-- R458: SEC_LEASE_STATE.SLOT.  Reset: Per key store (DESIGN CHOICE 0, log entry 3). -/
def SEC_LEASE_STATE_SLOT (n : Nat) : Fld := ⟨0x30004 + 4 * (n / 16), 0 + 2 * (n % 16), 2, .ro, 0, false⟩
/-- R458: SEC_PORT_BIND.PORT_A. -/
def SEC_PORT_BIND_PORT_A : Fld := ⟨0x30008, 0, 16, .ro, 0, false⟩
/-- R458: SEC_PORT_BIND.PORT_B. -/
def SEC_PORT_BIND_PORT_B : Fld := ⟨0x30008, 16, 16, .ro, 0, false⟩
/-- R458: SEC_LSEL.SLOT. -/
def SEC_LSEL_SLOT : Fld := ⟨0x30010, 0, 4, .rw, 0, true⟩
/-- R458: SEC_LEASE_INFO.LEASE. -/
def SEC_LEASE_INFO_LEASE : Fld := ⟨0x30014, 0, 16, .ro, 0, true⟩
/-- R458: SEC_LEASE_INFO.IDE_REQUIRED. -/
def SEC_LEASE_INFO_IDE_REQUIRED : Fld := ⟨0x30014, 16, 1, .ro, 0, true⟩
/-- R458: SEC_LEASE_INFO.END_PENDING. -/
def SEC_LEASE_INFO_END_PENDING : Fld := ⟨0x30014, 17, 1, .ro, 0, true⟩
/-- R458: SEC_ADOPT_SEQ.  Reset: Per key store (DESIGN CHOICE 0, log entry 3). -/
def SEC_ADOPT_SEQ : Fld := ⟨0x30018, 0, 32, .ro, 0, true⟩
/-- R458: SEC_LEASE_END_LO. -/
def SEC_LEASE_END : Fld := ⟨0x30020, 0, 64, .ro, 0xffffffffffffffff, true⟩
/-- R458: SEC_GLITCH.SINCE_ACK.  Reset: Per key store (DESIGN CHOICE 0, log entry 3). -/
def SEC_GLITCH_SINCE_ACK : Fld := ⟨0x30030, 0, 8, .ro, 0, false⟩
/-- R458: SEC_GLITCH.TOTAL.  Reset: Per key store (DESIGN CHOICE 0, log entry 3). -/
def SEC_GLITCH_TOTAL : Fld := ⟨0x30030, 8, 24, .ro, 0, false⟩
/-- R458: SEC_LOCK.LOCK. -/
def SEC_LOCK_LOCK : Fld := ⟨0x3fffc, 0, 1, .w1s, 0, false⟩
/-- R468: MEM_CARD_CMD.OP. -/
def MEM_CARD_CMD_OP : Fld := ⟨0x60300, 0, 2, .wo, 0, false⟩
/-- R468: MEM_CARD_CMD.CARD. -/
def MEM_CARD_CMD_CARD : Fld := ⟨0x60300, 2, 1, .wo, 0, false⟩
/-- R468: MEM_CARD_CMD.STATUS. -/
def MEM_CARD_CMD_STATUS : Fld := ⟨0x60300, 8, 8, .ro, 0, false⟩
/-- R468: MEM_CARD_CMD.RELEASED. -/
def MEM_CARD_CMD_RELEASED : Fld := ⟨0x60300, 16, 2, .ro, 0, false⟩
/-- R488: PMC_CTL.FREEZE. -/
def PMC_CTL_FREEZE : Fld := ⟨0xa0000, 0, 1, .rw, 0, false⟩
/-- R488: PMC_CTL.FROZEN. -/
def PMC_CTL_FROZEN : Fld := ⟨0xa0000, 1, 1, .ro, 0, false⟩
/-- R488: PMC_SNAP_CTL.SNAP. -/
def PMC_SNAP_CTL_SNAP : Fld := ⟨0xa0010, 0, 1, .w1s, 0, false⟩
/-- R488: PMC_SNAP_CTL.TRIG. -/
def PMC_SNAP_CTL_TRIG : Fld := ⟨0xa0010, 1, 2, .rw, 0, false⟩
/-- R488: PMC_SNAP_CTL.PERIOD. -/
def PMC_SNAP_CTL_PERIOD : Fld := ⟨0xa0010, 8, 24, .rw, 0x2710, false⟩
/-- R488: PMC_SNAP_STATUS.BUSY. -/
def PMC_SNAP_STATUS_BUSY : Fld := ⟨0xa0014, 0, 1, .ro, 0, false⟩
/-- R488: PMC_SNAP_STATUS.STATUS. -/
def PMC_SNAP_STATUS_STATUS : Fld := ⟨0xa0014, 8, 8, .ro, 0, false⟩
/-- R488: PMC_SNAP_STATUS.NEXT. -/
def PMC_SNAP_STATUS_NEXT : Fld := ⟨0xa0014, 16, 8, .ro, 0, false⟩
/-- R488: PMC_SNAP_BASE_LO. -/
def PMC_SNAP_BASE_LO : Fld := ⟨0xa0018, 6, 26, .rwl, 0, false⟩
/-- R488: PMC_SNAP_BASE_HI. -/
def PMC_SNAP_BASE_HI : Fld := ⟨0xa001c, 0, 32, .rwl, 0, false⟩
/-- R488: PMC_SNAP_RECORDS.RECORDS. -/
def PMC_SNAP_RECORDS_RECORDS : Fld := ⟨0xa0020, 0, 9, .rwl, 0, false⟩
/-- R488: PMC_SMP_CTL.N. -/
def PMC_SMP_CTL_N : Fld := ⟨0xa0040, 0, 24, .rw, 0x1000, false⟩
/-- R488: PMC_SMP_CTL.EN. -/
def PMC_SMP_CTL_EN : Fld := ⟨0xa0040, 24, 1, .rw, 0, false⟩
/-- R488: PMC_SMP_CORES. -/
def PMC_SMP_CORES (k : Nat) : Fld := ⟨0xa0048 + 4 * k, 0, 32, .rw, 0, false⟩
/-- R488: PMC_LAYER.LAYER. -/
def PMC_LAYER_LAYER (k : Nat) : Fld := ⟨0xa0100 + 4 * k, 0, 16, .rw, 0, false⟩
/-- R488: PMC_LAYER.EN. -/
def PMC_LAYER_EN (k : Nat) : Fld := ⟨0xa0100 + 4 * k, 16, 1, .rw, 0, false⟩
/-- R488: PMC_CHAIN. -/
def PMC_CHAIN (k : Nat) : Fld := ⟨0xa1000 + 4 * k, 0, 32, .rw, 0, false⟩
/-- R488: PMC_OVF. -/
def PMC_OVF (k : Nat) : Fld := ⟨0xa1200 + 4 * k, 0, 32, .w1c, 0, false⟩
/-- R488: PMC_LOCK.LOCK. -/
def PMC_LOCK_LOCK : Fld := ⟨0xafffc, 0, 1, .w1s, 0, false⟩
/-- R349: CTX_JRNL_BASE_LO.BASE_LO. -/
def CTX_JRNL_BASE_LO : Fld := ⟨0x50080, 16, 16, .rw, 0, false⟩
/-- R349: CTX_JRNL_BASE_HI. -/
def CTX_JRNL_BASE_HI : Fld := ⟨0x50084, 0, 32, .rw, 0, false⟩
/-- R349: CTX_JRNL_SIZE.SIZE_64K. -/
def CTX_JRNL_SIZE : Fld := ⟨0x50088, 0, 15, .rw, 0, false⟩
/-- R349: CTX_JRNL_CTL.EN. -/
def CTX_JRNL_CTL_EN : Fld := ⟨0x5008c, 0, 1, .rw, 0, false⟩
/-- R349: CTX_JRNL_CTL.ENABLED. -/
def CTX_JRNL_CTL_ENABLED : Fld := ⟨0x5008c, 1, 1, .ro, 0, false⟩
/-- R349: CTX_JRNL_HEAD. -/
def CTX_JRNL_HEAD : Fld := ⟨0x50090, 0, 32, .ro, 0, false⟩
/-- R349: CTX_JRNL_TAIL. -/
def CTX_JRNL_TAIL : Fld := ⟨0x50094, 0, 32, .rw, 0, false⟩
/-- R349: CTX_JRNL_DROP_LO. -/
def CTX_JRNL_DROP : Fld := ⟨0x50098, 0, 64, .ro, 0, false⟩
/-- R488: PMC_SMP_BASE_LO.BASE_LO. -/
def PMC_SMP_BASE_LO : Fld := ⟨0xa0060, 16, 16, .rw, 0, false⟩
/-- R488: PMC_SMP_BASE_HI. -/
def PMC_SMP_BASE_HI : Fld := ⟨0xa0064, 0, 32, .rw, 0, false⟩
/-- R488: PMC_SMP_SIZE.SIZE_64K. -/
def PMC_SMP_SIZE : Fld := ⟨0xa0068, 0, 15, .rw, 0, false⟩
/-- R488: PMC_SMP_RING_CTL.EN. -/
def PMC_SMP_RING_CTL_EN : Fld := ⟨0xa006c, 0, 1, .rw, 0, false⟩
/-- R488: PMC_SMP_RING_CTL.ENABLED. -/
def PMC_SMP_RING_CTL_ENABLED : Fld := ⟨0xa006c, 1, 1, .ro, 0, false⟩
/-- R488: PMC_SMP_HEAD. -/
def PMC_SMP_HEAD : Fld := ⟨0xa0070, 0, 32, .ro, 0, false⟩
/-- R488: PMC_SMP_TAIL. -/
def PMC_SMP_TAIL : Fld := ⟨0xa0074, 0, 32, .rw, 0, false⟩
/-- R488: PMC_SMP_DROP_LO. -/
def PMC_SMP_DROP : Fld := ⟨0xa0078, 0, 64, .ro, 0, false⟩
/-- R15: ENG_LOCK.LOCK. -/
def ENG_LOCK_LOCK : Fld := ⟨0x9fffc, 0, 1, .w1s, 0, false⟩

/-- The 32 performance counter registers of one 0x8000-based pair: counter e is the 64-bit value at 0x8000 + 8 e (R479). -/
def PMC_COUNTER (e : Nat) : Fld := ⟨0xa8000 + 8 * e, 0, 64, .ro, 0, false⟩

def tableId0 : List Fld :=
  [ID_PART_PART, ID_PART_FAMILY_GEN, ID_STEPPING_DIE_STEP, ID_STEPPING_BOARD_REV,
   ID_SERIAL, ID_RESOURCES_CORES_LIVE, ID_RESOURCES_VAULTS_LIVE, ID_RESOURCES_FLASH_CARDS,
   ID_RESOURCES_HOST_PORTS, ID_RESOURCES_FAB_PORTS, ID_RATING_PEAK_W2, ID_RATING_DRAM_GIB,
   ID_HOME_BW_HOME_BW_GBS, ID_MODULE_MODULE_ID, ID_MODULE_MODULE_ID_VALID, ID_MODULE_TPOS,
   ID_MODULE_THIS_PORT, ID_RETIRED_VAULTS, ID_STATE_STATE, ID_CONFIG_SEQ,
   ID_LOCK_LOCK]

def tableIdArrays : List Fld :=
  (List.range 6).map ID_FENCED_CORES

def tableEng0 : List Fld :=
  [ENG_FMT_UNDERFLOW, ENG_FMT_SAT, ENG_FMT_POISON, ENG_FMT_OUTLIER_OVF,
   ENG_FMT_CODE_INVALID, ENG_FMT_TRAP, ENG_MX_RESIDUE_MISMATCH, ENG_MX_RESIDUE_POISON,
   ENG_MX_ACC_OVF, ENG_MX_OPERAND_DETECT, ENG_MX_LAST_FAULT_CORE_ID, ENG_MX_LAST_FAULT_CAUSE,
   ENG_MX_LAST_FAULT_LAYER, ENG_CMD_WDOG, ENG_CMD_DETECT, ENG_SASH_REFUSED,
   ENG_LATTICE_NODE_DETECT, ENG_ENGINE_LAST_FAULT_ENGINE, ENG_ENGINE_LAST_FAULT_HALF, ENG_ENGINE_LAST_FAULT_CAUSE,
   ENG_ENGINE_LAST_FAULT_LAYER, ENG_ASTER_RING_BASE_LO, ENG_ASTER_RING_BASE_HI, ENG_ASTER_RING_SIZE,
   ENG_ASTER_RING_CTL_EN, ENG_ASTER_RING_CTL_ENABLED, ENG_ASTER_RING_HEAD, ENG_ASTER_RING_TAIL,
   ENG_ASTER_RING_DROP, ENG_ASTER_DROPPED, ENG_ASTER_ALTERNATE, ENG_ASTER_SUBSTITUTED,
   ENG_ASTER_FETCHES, ENG_ATT_SCORED, ENG_ATT_PADDED, ENG_ATT_INVALIDATED,
   ENG_ATT_PREFIX_TOKENS, ENG_KV_EVICTED, ENG_KV_REFUSED, ENG_KV_POOL_PAGES,
   ENG_KV_POOL_FREE, ENG_KV_TSEL_SLOT, ENG_KV_TENANT_LEASE, ENG_KV_TENANT_VALID,
   ENG_KV_TENANT_OVER, ENG_KV_QUOTA, ENG_KV_USED, ENG_KV_ARCHIVED,
   ENG_IMG_ADDR_LO, ENG_IMG_ADDR_HI, ENG_IMG_CMD_GO, ENG_IMG_CMD_ABORT,
   ENG_IMG_STATUS_BUSY, ENG_IMG_STATUS_PHASE, ENG_IMG_STATUS_KIND, ENG_IMG_STATUS_STATUS,
   ENG_IMG_STATUS_PROGRESS, ENG_IMG_REFUSAL_KIND, ENG_IMG_REFUSAL_CODE, ENG_IMG_ITEM_ITEM]

def tableEng1 : List Fld :=
  [ENG_IMG_STATE_STATE, ENG_IMG_STATE_ENTRY, ENG_IMG_STATE_LAST, ENG_IMG_STATE_PREFIX_MODE,
   ENG_IMG_SEQ, ENG_LOCK_LOCK]

def tableEngArrays : List Fld :=
  (List.range 64).map ENG_IMG_GROUPS_GROUP ++
  (List.range 8).map ENG_IMG_LOGICAL

def tableMem0 : List Fld :=
  [MEM_SCRUB_CTL_PERIOD_H, MEM_SCRUB_CTL_EN, MEM_DIST_BASE, MEM_DIST_SEQ,
   MEM_CARD0_STATE_STATE, MEM_CARD0_STATE_WEAR_PCT, MEM_CARD0_STATE_SPARE_PCT, MEM_CARD1_STATE_STATE,
   MEM_CARD1_STATE_WEAR_PCT, MEM_CARD1_STATE_SPARE_PCT, MEM_DRAM_DETECT, MEM_SRAM_DETECT,
   MEM_REREAD_OK, MEM_REFETCH, MEM_HOST_FETCH, MEM_REPLAY,
   MEM_UNRECOVERED, MEM_SCRUB_DETECT, MEM_FLASH_RELOCATE, MEM_MANIFEST_LO,
   MEM_MANIFEST_HI, MEM_LOAD_CMD_GO, MEM_LOAD_CMD_ABORT, MEM_LOAD_CMD_PORT,
   MEM_LOAD_STATUS_BUSY, MEM_LOAD_STATUS_PHASE, MEM_LOAD_STATUS_STATUS, MEM_LOAD_STATUS_RESOURCE,
   MEM_LOAD_STATUS_PROGRESS, MEM_GEN_CMD_ID, MEM_GEN_CMD_OP, MEM_GEN_CMD_SLOT,
   MEM_GEN_CMD_INDEX, MEM_GEN_STATE_SLOT0, MEM_GEN_STATE_SLOT1, MEM_GEN_STATE_POINTER,
   MEM_GEN_STATE_ENTRY, MEM_GEN_STATE_HOLD, MEM_GEN_STATE_CMD_STATUS, MEM_GEN_STATE_CMD_PENDING,
   MEM_GEN0_ID, MEM_GEN1_ID, MEM_SMALL_COUNT_RESIDENT, MEM_CARD_CMD_OP,
   MEM_CARD_CMD_CARD, MEM_CARD_CMD_STATUS, MEM_CARD_CMD_RELEASED]

def tableMemArrays : List Fld :=
  (List.range 16).map MEM_VAULT_STATE_LO_VAULT ++
  (List.range 16).map MEM_VAULT_STATE_HI_VAULT

def tableCtx0 : List Fld :=
  [CTX_LC_BASE_LO, CTX_LC_BASE_HI, CTX_BE_BASE_LO, CTX_BE_BASE_HI,
   CTX_CPL_BASE_LO, CTX_CPL_BASE_HI, CTX_CPL_SIZE_SIZE_LOG2, CTX_RING_CTL_LC_EN,
   CTX_RING_CTL_BE_EN, CTX_RING_CTL_CPL_EN, CTX_RING_CTL_ACTIVE, CTX_RING_CTL_PORT_LOST,
   CTX_RING_CONS_LC_CONS, CTX_RING_CONS_BE_CONS, CTX_RING_CONS_LC_PHASE, CTX_RING_CONS_BE_PHASE,
   CTX_CPL_HEAD_INDEX, CTX_CPL_TAIL_INDEX, CTX_STEP_ORIGIN_LO, CTX_STEP_ORIGIN_HI,
   CTX_STEP_NEXT, CTX_POLICY_PREEMPT_EN, CTX_POLICY_POLL_US, CTX_RETURN_LIMIT_MS,
   CTX_ORPHAN_LIMIT_S, CTX_COUNT_LIVE, CTX_COUNT_ORPHANED, CTX_ADOPT_ADDR_LO,
   CTX_ADOPT_ADDR_HI, CTX_ADOPT_CMD_GO, CTX_ADOPT_CMD_BUSY, CTX_ADOPT_CMD_STATUS,
   CTX_ACCT_BASE, CTX_LOCK_LOCK, CTX_REPLAY_ADDR_LO, CTX_REPLAY_ADDR_HI,
   CTX_REPLAY_CMD_ENTER, CTX_REPLAY_CMD_LEAVE, CTX_REPLAY_CMD_SUBMIT, CTX_REPLAY_CMD_FRESH,
   CTX_REPLAY_CMD_MODE, CTX_REPLAY_CMD_BUSY, CTX_REPLAY_CMD_STATUS, CTX_REPLAY_CMD_RESOURCE,
   CTX_CAPTURE_STEP_LO, CTX_CAPTURE_STEP_HI, CTX_CAPTURE_LAYERS_FIRST, CTX_CAPTURE_LAYERS_LAST,
   CTX_CAPTURE_CTL_LEASE, CTX_CAPTURE_CTL_ARM, CTX_CAPTURE_CTL_ARMED, CTX_CAPTURE_CTL_TAKEN,
   CTX_CAPTURE_CTL_STATUS, CTX_CAPTURE_BASE, CTX_JRNL_BASE_LO, CTX_JRNL_BASE_HI,
   CTX_JRNL_SIZE, CTX_JRNL_CTL_EN, CTX_JRNL_CTL_ENABLED, CTX_JRNL_HEAD]

def tableCtx1 : List Fld :=
  [CTX_JRNL_TAIL, CTX_JRNL_DROP]

def tableNoc0 : List Fld :=
  [NOC_TIMEOUT_US, NOC_HINGE_LINK_UP, NOC_HINGE_DIV, NOC_DETOUR_SEQ,
   NOC_LAST_FAULT_ROUTER, NOC_LAST_FAULT_PORT, NOC_LAST_FAULT_CAUSE, NOC_LOCK_LOCK,
   NOC_LINK_REPLAY, NOC_LINK_FAIL, NOC_TIMEOUTS]

def tableNocArrays : List Fld :=
  (List.range 7).map NOC_ROUTER_SHUT ++
  (List.range 6).map NOC_FENCE_PENDING

def tableFab0 : List Fld :=
  [FAB_STATE_STATE, FAB_EPOCH, FAB_MEMBER_ADDR_LO, FAB_MEMBER_ADDR_HI,
   FAB_MEMBER_CMD_APPLY, FAB_MEMBER_CMD_BUSY, FAB_MEMBER_CMD_STATUS, FAB_LOAD_BOUND_US,
   FAB_DISCOVERY_MISSING, FAB_DISCOVERY_PARTIAL, FAB_DISCOVERY_EXTRA, FAB_DISCOVERY_OWN_BAD,
   FAB_DISCOVERY_TPOS_DIFF, FAB_DISCOVERY_DONE, FAB_LAST_FAULT_TARGET, FAB_LAST_FAULT_STATUS,
   FAB_LAST_FAULT_PLANE, FAB_LAST_FAULT_CAUSE, FAB_WINDOW_BASE, FAB_REPORT_BASE,
   FAB_LOCK_LOCK, FAB_RETRY, FAB_BOUND, FAB_DENIED,
   FAB_STALE_EPOCH, FAB_EPOCH_AHEAD, FAB_DUP, FAB_CACHE_HIT,
   FAB_ATOMIC_STALE, FAB_E2E_CRC, FAB_LANE_RECAL]

def tableFabArrays : List Fld :=
  (List.range 4).map FAB_MEMBERS ++
  (List.range 4).map FAB_DEAD ++
  (List.range 8).map FAB_PORT_LINK ++
  (List.range 8).map FAB_PORT_REVERSED ++
  (List.range 8).map FAB_PORT_LANE_OK ++
  (List.range 8).map FAB_PORT_SPARE_USED ++
  (List.range 8).map FAB_PORT_PLANE_SEEN ++
  (List.range 8).map FAB_PORT_SWAPPED ++
  (List.range 8).map FAB_PORT_SWITCH_PORT ++
  (List.range 8).map FAB_PORT_RACK_SEEN ++
  (List.range 8).map FAB_PORT_POSITION ++
  (List.range 8).map FAB_PORT_MISPLACED

def tableClk0 : List Fld :=
  [CLK_REF_CTL_SRC_SEL, CLK_REF_CTL_AUTO_FAILOVER, CLK_REF_CTL_HOLDOVER_LIMIT, CLK_REF_STATUS_REF_A_OK,
   CLK_REF_STATUS_REF_B_OK, CLK_REF_STATUS_SRC_ACTIVE, CLK_REF_STATUS_PLL_LOCK, CLK_REF_STATUS_HOLDOVER,
   CLK_REF_STATUS_SWITCH_BUSY, CLK_REF_STATUS_SWITCH_STATUS, CLK_REF_STATUS_SWITCHES, CLK_SSC_EN,
   CLK_SSC_DEPTH, CLK_SSC_RATE, CLK_RAMP_DWELL, CLK_ACLK_CEIL_MIN_CODE,
   CLK_NCLK_TARGET_W, CLK_NCLK_TARGET_E, CLK_NCLK_CUR_W, CLK_NCLK_CUR_E,
   CLK_NCLK_RAMPING, CLK_CCLK_TARGET_W, CLK_CCLK_TARGET_E, CLK_CCLK_CUR_W,
   CLK_CCLK_CUR_E, CLK_CCLK_RAMPING, CLK_FCOUNT_CTL_SEL, CLK_FCOUNT_CTL_GATE_LOG2,
   CLK_FCOUNT_CTL_START, CLK_FCOUNT_CTL_BUSY, CLK_FCOUNT_CTL_VALID, CLK_FCOUNT_CTL_DISTURBED,
   CLK_FCOUNT_RESULT, CLK_LOCK_LOCK]

def tableClkArrays : List Fld :=
  (List.range 32).map CLK_ACLK_CUR_CODE ++
  (List.range 32).map CLK_ACLK_CUR_STRETCH

def tablePwr0 : List Fld :=
  [PWR_CAP_TARGET, PWR_CAP_EFFECTIVE, PWR_SLEW_DOWN, PWR_SLEW_UP,
   PWR_STATUS_CAP_LIMITED, PWR_STATUS_CAP_UNMET, PWR_STATUS_CAL_FAULT, PWR_STATUS_BRAKE,
   PWR_STATUS_SHUTTER, PWR_STATUS_SHUTTER_STUCK, PWR_STATUS_LEAK, PWR_STATUS_THERM_LIMITED,
   PWR_STATUS_THERM_BRAKE, PWR_STATUS_INLET_RANGE, PWR_STATUS_SENSE_OPEN, PWR_STATUS_VIN_LOW,
   PWR_STATUS_SENSOR_FAIL, PWR_OP_OP, PWR_OP_OP_FLOOR, PWR_OP_THERM_CAP,
   PWR_EST_EST, PWR_EST_MEAS, PWR_VIN_VIN_MV, PWR_VIN_IIN_CA,
   PWR_THERM_CTL_TJ_TARGET, PWR_TEMP_TJ_MAX, PWR_TEMP_TJ_DOMAIN, PWR_TEMP_DRAM_MAX,
   PWR_TEMP_DRAM_VAULT, PWR_COOLANT_INLET, PWR_COOLANT_OUTLET, PWR_LEAK_CTL_GRACE,
   PWR_DROOP_CTL_HOLD_US, PWR_PACE, PWR_FAULT_CAUSE, PWR_FAULT_RAIL,
   PWR_LOCK_LOCK, PWR_ENERGY, PWR_DROOP, PWR_CAP_LIMITED,
   PWR_BRAKES]

def tableHost0 : List Fld :=
  [HOST_PORT_A_UP, HOST_PORT_A_SPEED, HOST_PORT_A_WIDTH, HOST_PORT_A_REVERSED,
   HOST_PORT_A_PERST, HOST_PORT_A_PERST_STUCK, HOST_PORT_A_REF_OK, HOST_PORT_A_D3HOT,
   HOST_PORT_A_IDE, HOST_PORT_A_DOWN_COUNT, HOST_PORT_B_UP, HOST_PORT_B_SPEED,
   HOST_PORT_B_WIDTH, HOST_PORT_B_REVERSED, HOST_PORT_B_PERST, HOST_PORT_B_PERST_STUCK,
   HOST_PORT_B_REF_OK, HOST_PORT_B_D3HOT, HOST_PORT_B_IDE, HOST_PORT_B_DOWN_COUNT,
   HOST_BAR2_WIN_LO, HOST_BAR2_WIN_HI, HOST_IRQ_CAUSE_CPL, HOST_IRQ_CAUSE_RING,
   HOST_IRQ_CAUSE_CMD, HOST_IRQ_CAUSE_FAULT, HOST_IRQ_CAUSE_ALERT, HOST_IRQ_CAUSE_PEER,
   HOST_IRQ_CAUSE_CLK, HOST_IRQ_EN_CPL, HOST_IRQ_EN_RING, HOST_IRQ_EN_CMD,
   HOST_IRQ_EN_FAULT, HOST_IRQ_EN_ALERT, HOST_IRQ_EN_PEER, HOST_IRQ_EN_CLK,
   HOST_IRQ_HOLDOFF_US, HOST_SIDEBAND_SHUTTER, HOST_SIDEBAND_LEAK, HOST_SIDEBAND_PERST_A,
   HOST_SIDEBAND_PERST_B, HOST_SIDEBAND_TOG, HOST_SIDEBAND_TOGGLING, HOST_SIDEBAND_TPOS,
   HOST_SIDEBAND_TPOS_UNSTABLE, HOST_ALERT_SHUTTER_STUCK, HOST_ALERT_TOGGLING, HOST_ALERT_PERST_STUCK,
   HOST_ALERT_LEAK, HOST_ALERT_THERMAL, HOST_ALERT_CAP_UNMET, HOST_ALERT_FABRIC,
   HOST_ALERT_FLASH, HOST_ALERT_SAFE_STATE, HOST_BADACC_COUNT, HOST_LOCK_LOCK]

def tableHostArrays : List Fld :=
  (List.range 16).map HOST_BADACC_ADDR_OFFSET ++
  (List.range 16).map HOST_BADACC_INFO_BAR ++
  (List.range 16).map HOST_BADACC_INFO_PORT ++
  (List.range 16).map HOST_BADACC_INFO_WRITE ++
  (List.range 16).map HOST_BADACC_INFO_SIZE ++
  (List.range 16).map HOST_BADACC_INFO_MISALIGNED ++
  (List.range 16).map HOST_BADACC_INFO_STATUS

def tableMgt0 : List Fld :=
  [MGT_STATUS_EID, MGT_STATUS_I3C_ADDR, MGT_STATUS_I3C_ADDR_VALID, MGT_STATUS_SESSIONS,
   MGT_CTL_VDM_A_EN, MGT_CTL_VDM_B_EN, MGT_LOCK_LOCK]

def tableSec0 : List Fld :=
  [SEC_STATUS_OWNED, SEC_STATUS_OWNER_SLOT, SEC_STATUS_DEBUG, SEC_STATUS_COUNTERSIGN,
   SEC_STATUS_LEASES, SEC_STATUS_ERASING, SEC_STATUS_GLITCH_LOCK, SEC_STATUS_ZERO_CAUSE,
   SEC_PORT_BIND_PORT_A, SEC_PORT_BIND_PORT_B, SEC_LSEL_SLOT, SEC_LEASE_INFO_LEASE,
   SEC_LEASE_INFO_IDE_REQUIRED, SEC_LEASE_INFO_END_PENDING, SEC_ADOPT_SEQ, SEC_LEASE_END,
   SEC_GLITCH_SINCE_ACK, SEC_GLITCH_TOTAL, SEC_LOCK_LOCK]

def tableSecArrays : List Fld :=
  (List.range 16).map SEC_LEASE_STATE_SLOT

def tablePmc0 : List Fld :=
  [PMC_CTL_FREEZE, PMC_CTL_FROZEN, PMC_SNAP_CTL_SNAP, PMC_SNAP_CTL_TRIG,
   PMC_SNAP_CTL_PERIOD, PMC_SNAP_STATUS_BUSY, PMC_SNAP_STATUS_STATUS, PMC_SNAP_STATUS_NEXT,
   PMC_SNAP_BASE_LO, PMC_SNAP_BASE_HI, PMC_SNAP_RECORDS_RECORDS, PMC_SMP_CTL_N,
   PMC_SMP_CTL_EN, PMC_LOCK_LOCK, PMC_SMP_BASE_LO, PMC_SMP_BASE_HI,
   PMC_SMP_SIZE, PMC_SMP_RING_CTL_EN, PMC_SMP_RING_CTL_ENABLED, PMC_SMP_HEAD,
   PMC_SMP_TAIL, PMC_SMP_DROP]

def tablePmcArrays : List Fld :=
  (List.range 6).map PMC_SMP_CORES ++
  (List.range 16).map PMC_LAYER_LAYER ++
  (List.range 16).map PMC_LAYER_EN ++
  (List.range 128).map PMC_CHAIN ++
  (List.range 128).map PMC_OVF

/-- Every field of the register tables (the event counters of the PMC block apart). -/
def table : List Fld :=
  tableId0 ++
  tableIdArrays ++
  tableEng0 ++
  tableEng1 ++
  tableEngArrays ++
  tableMem0 ++
  tableMemArrays ++
  tableCtx0 ++
  tableCtx1 ++
  tableNoc0 ++
  tableNocArrays ++
  tableFab0 ++
  tableFabArrays ++
  tableClk0 ++
  tableClkArrays ++
  tablePwr0 ++
  tableHost0 ++
  tableHostArrays ++
  tableMgt0 ++
  tableSec0 ++
  tableSecArrays ++
  tablePmc0 ++
  tablePmcArrays

end Reg

end Sys2Proof.Machine
end

