-- ==== Sys2Proof/Machine/Formats.lean ====
section
/-!
DEFINITION. Machine/Formats.lean: the block formats of Number Formats and Rounding: element codes (R50 to R57), the
S8 scale (R58, R59), outlier records (R61, R62), the quantiser (R70 to R74) and the draw generator (R79, R80).
-/
namespace Sys2Proof.Machine

/-- The format events of R83, as counts. -/
structure FmtEv where
  underflow : Nat := 0
  sat : Nat := 0
  poison : Nat := 0
  outlierOvf : Nat := 0
  codeInvalid : Nat := 0
  trap : Nat := 0
deriving DecidableEq, Repr

def fmtEvAdd (a b : FmtEv) : FmtEv :=
  ⟨a.underflow + b.underflow, a.sat + b.sat, a.poison + b.poison, a.outlierOvf + b.outlierOvf,
   a.codeInvalid + b.codeInvalid, a.trap + b.trap⟩

def fmtEvSum (l : List FmtEv) : FmtEv := l.foldl fmtEvAdd {}

/-! ### S8 (R58, R59) -/

/-- R59: the significand of a scale code that is neither 0x00 nor 0xFF. -/
def s8Sig (c : Nat) : Nat := if c / 8 = 0 then c % 8 else 8 + c % 8
/-- R59: the exponent. -/
def s8Exp (c : Nat) : Int := (max (c / 8) 1 : Nat) - 18
/-- The scale value as num / den. -/
def s8Val (c : Nat) : Nat × Nat := ratShift (s8Sig c) 1 (s8Exp c)

/-! ### Element codes -/

/-- R50: the value of a W2 code. -/
def w2Code (c : Nat) : Int := match c % 4 with | 0 => 1 | 1 => 3 | 2 => -1 | _ => -3
/-- R51: the value of a trit digit. -/
def tritVal (t : Nat) : Int := match t % 3 with | 0 => 0 | 1 => 1 | _ => -1
/-- R53: a W4 code's value in half units. -/
def w4Half (c : Nat) : Int :=
  let m : Int := match c % 8 with | 0 => 0 | 1 => 1 | 2 => 2 | 3 => 3 | 4 => 4 | 5 => 6 | 6 => 8 | _ => 12
  if bit c 3 then -m else m

/-- The element formats of matrix operands. -/
inductive ElemFmt where
  | w2 | t | w4 | w8 | a8 | kv8
deriving DecidableEq, Repr

/-- R60: code bytes per block. -/
def codeBytes : ElemFmt → Nat
  | .w2 => 8 | .t => 7 | .w4 => 16 | .w8 => 32 | .a8 => 32 | .kv8 => 32

/-- R50 to R57: the 32 code values of a block (W4 in half units) and the CODE_INVALID events of reading them. -/
def decodeCodes (f : ElemFmt) (bs : List Nat) : List Int × Nat :=
  let byte := fun i => bs.getD i 0
  match f with
  | .w2 => ((List.range 32).map fun e => w2Code (byte (e / 4) / 4 ^ (e % 4)), 0)
  | .t => ((List.range 32).map fun e => if 243 ≤ byte (e / 5) then 0 else tritVal (byte (e / 5) / 3 ^ (e % 5)),
           (bs.filter fun b => decide (243 ≤ b)).length)
  | .w4 => ((List.range 32).map fun e => w4Half (byte (e / 2) / 16 ^ (e % 2)), 0)
  | .w8 => ((List.range 32).map fun e => toSigned 8 (byte e), 0)
  | .a8 => ((List.range 32).map fun e => if byte e = 0x80 then 0 else toSigned 8 (byte e),
            (bs.filter fun b => b == 0x80).length)
  | .kv8 => ((List.range 32).map fun e => if byte e = 0x80 then 0 else toSigned 8 (byte e),
            (bs.filter fun b => b == 0x80).length)

/-- A block as a consumer sees it: its scale code, 32 code values, and the valid slots as (index, binary16). -/
structure Blk where
  scale : Nat
  codes : List Int
  slots : List (Nat × Nat)
deriving DecidableEq, Repr

/-- R61, R62: the slots an outlier record gives, the codes with the slots' elements taken as 0, and the CODE_INVALID
events. -/
def decodeSlots (rec : List Nat) (codes : List Int) : List (Nat × Nat) × List Int × Nat :=
  let v0 := leNat (rec.take 2)
  let v1 := leNat ((rec.drop 2).take 2)
  let b4 := rec.getD 4 0
  let b5 := rec.getD 5 0
  let i0 := b4 % 32
  let i1 := b5 % 32
  let p0 := bit b4 5
  let p1 := bit b5 5
  let bad := p1 && (!p0 || i0 == i1)
  let slots := (if p0 then [(i0, v0)] else []) ++ (if p1 && !bad then [(i1, v1)] else [])
  let nz := (slots.filter fun p => codes.getD p.1 0 != 0).length
  (slots, slots.foldl (fun c p => c.set p.1 0) codes, nz + b2n bad)

/-- A block read from its scale byte, code bytes and (A8 only) outlier record: R62 to R64. -/
def decodeBlk (f : ElemFmt) (scale : Nat) (bs : List Nat) (rec : List Nat) : Blk × Nat :=
  if scale = 0 ∨ scale = 0xFF then (⟨scale, List.replicate 32 0, []⟩, 0)
  else
    let c := decodeCodes f bs
    if f = .a8 then
      let s := decodeSlots rec c.1
      (⟨scale, s.2.1, s.1⟩, c.2 + s.2.2)
    else (⟨scale, c.1, []⟩, c.2)

/-- R49, R62, R64: the exact value of element `i` of a block (codes in units of 1 / `half`). -/
def blkElem (half : Nat) (b : Blk) (i : Nat) : RVal :=
  if b.scale = 0xFF then .nan true
  else if b.scale = 0 then .fin false 0 1
  else match b.slots.find? (fun p => p.1 == i) with
    | some p => decodeIeee binary16 p.2
    | none =>
      let c := b.codes.getD i 0
      .fin (decide (c < 0)) (c.natAbs * (s8Val b.scale).1) (half * (s8Val b.scale).2)

/-! ### The generator (R79) -/

def m64 : Nat := 2 ^ 64

def mix (z : Nat) : Nat :=
  let z := ((z % m64) ^^^ (z % m64 / 2 ^ 30)) * 0xBF58476D1CE4E5B9 % m64
  let z := (z ^^^ (z / 2 ^ 27)) * 0x94D049BB133111EB % m64
  z ^^^ (z / 2 ^ 31)

/-- R79: the draw of six coordinates, from 0 to 2^24 - 1. -/
def draw (seed step layer stream pos elem : Nat) : Nat :=
  let h := mix ((seed + 0x9E3779B97F4A7C15) % m64)
  let h := mix (h ^^^ (step % m64))
  let h := mix (h ^^^ ((layer % 2 ^ 16) * 2 ^ 48 + (stream % 2 ^ 8) * 2 ^ 40 + (pos % 2 ^ 32) * 2 ^ 8))
  let h := mix (h ^^^ (elem % 2 ^ 32))
  h / 2 ^ 40

/-! ### The conversion control word (R70) -/

inductive Ovf where
  | clamp | widen | trap
deriving DecidableEq, Repr

def ctlRound (ctl : Nat) : Bool := bit ctl 0
def ctlRank (ctl : Nat) : Nat := bitsAt ctl 1 4
def ctlOvf (ctl : Nat) : Ovf := match bitsAt ctl 5 2 with | 1 => .widen | 2 => .trap | _ => .clamp
def ctlStream (ctl : Nat) : Nat := bitsAt ctl 8 8

/-- R70, R71: the control word holds no reserved value that the load refuses. -/
def ctlOk (ctl : Nat) : Bool :=
  decide (1 ≤ ctlRank ctl) && decide (ctlRank ctl ≤ 8) && decide (bitsAt ctl 5 2 ≠ 3) &&
  (!ctlRound ctl || ctlStream ctl == 4 || decide (0x10 ≤ ctlStream ctl))

/-! ### The quantiser (R72) -/

/-- |x| <= 127 * value(c). -/
def fitsScale (num den c : Nat) : Bool := decide (num * (s8Val c).2 ≤ 127 * (s8Val c).1 * den)

/-- The smallest scale code whose 127-fold value is not below the magnitude, and whether it saturates. -/
def pickScale (num den : Nat) : Nat × Bool :=
  if 127 * 114688 * den < num then (0xFE, true)
  else (((List.range 0xFE).map (· + 1)).find? (fitsScale num den) |>.getD 0xFE, false)

def numMag : RVal → Nat × Nat
  | .fin _ n d => (n, d)
  | _ => (0, 1)

/-- Larger magnitude. -/
def magLt (a b : Nat × Nat) : Bool := decide (a.1 * b.2 < b.1 * a.2)

/-- What a conversion of one block leaves: the block, its events, and whether it raised an outlier trap. -/
structure QOut where
  blk : Blk
  ev : FmtEv
  trapped : Bool
deriving DecidableEq, Repr

def zeroBlk : Blk := ⟨0, List.replicate 32 0, []⟩
def poisonBlk : Blk := ⟨0xFF, List.replicate 32 0, []⟩

/-- R72: build one block from its 32 exact values.  `kv` tells that the target is KV8; `dr i` is the draw of element
`i`, none when rounding to nearest. -/
def quantise (kv : Bool) (rank : Nat) (ovf : Ovf) (dr : Nat → Option Nat) (x : List RVal) : QOut :=
  let fin := x.all fun v => match v with | .fin _ _ _ => true | _ => false
  if !fin then ⟨poisonBlk, { poison := 1 }, false⟩
  else if x.all (fun v => decide ((numMag v).1 * 2 ^ 18 < (numMag v).2)) then ⟨zeroBlk, { underflow := 1 }, false⟩
  else
    let mag := fun i => numMag (x.getD i (.fin false 0 1))
    let order := sortBy (fun i j => magLt (mag j) (mag i)) (List.range 32)
    let rank := if kv then 1 else rank
    let ovf := if kv then Ovf.clamp else ovf
    let slots := if kv then 0 else 2
    let pick := fun k => pickScale (mag (order.getD k 0)).1 (mag (order.getD k 0)).2
    let excOf := fun c => order.filter fun i => !fitsScale (mag i).1 (mag i).2 c
    let c1 := pick (rank - 1)
    let c := if slots < (excOf c1.1).length ∧ ovf = .widen then pick slots else c1
    let exc := excOf c.1
    if slots < exc.length ∧ ovf = .trap then ⟨zeroBlk, { trap := 1 }, true⟩
    else
      let slotIdx := exc.take slots
      let conv := slotIdx.map fun i => (i, convIeee binary16 (dr i) (x.getD i (.fin false 0 1)))
      let codes := (List.range 32).map fun i =>
        let v := x.getD i (.fin false 0 1)
        let sg : Int := if numSign v then -1 else 1
        if slotIdx.contains i then 0
        else if exc.contains i then 127 * sg
        else sg * (roundUnits ((mag i).1 * (s8Val c.1).2) ((mag i).2 * (s8Val c.1).1) (dr i) : Nat)
      ⟨⟨c.1, codes, conv.map fun p => (p.1, p.2.1)⟩,
       { sat := b2n c.2 + (conv.filter fun p => p.2.2).length, outlierOvf := exc.length - slots }, false⟩

/-! ### Block records as bytes (R60, R61) -/

/-- The 32 code bytes of an A8 or KV8 block. -/
def blkCodeBytes (b : Blk) : List Nat := b.codes.map (ofSigned 8)

/-- The outlier record of a block (R61). -/
def blkRecord (b : Blk) : List Nat :=
  let s := fun k => b.slots[k]?
  let val := fun k => match s k with | some p => leBytes 2 p.2 | none => [0, 0]
  let idx := fun k => match s k with | some p => p.1 % 32 + 32 | none => 0
  val 0 ++ val 1 ++ [idx 0, idx 1, 0, 0]

end Sys2Proof.Machine
end

