-- ==== Sys2Proof/Machine/State.lean ====
section
/-!
DEFINITION. Machine/State.lean: the state of the module, as plain data, and its value at reset.
Register fields of BAR0 live in `flds`, one entry per field of Machine/Regs.lean whose value differs from its reset
value; memory in `mem`; what the spec gives the module beside its registers in the structures below.
-/
namespace Sys2Proof.Machine

/-! ### Cores (R85 to R114) -/

/-- A long accumulator: V in units of 2^-96 and its three flags (R91, R93). -/
structure LAcc where
  v : Int := 0
  poison : Bool := false
  ovf : Bool := false
  nonfinite : Bool := false
deriving DecidableEq, Repr

/-- An outstanding instruction: its unit and its index in the core's list (R110). -/
structure OutIns where
  unit : XUnit
  index : Nat
deriving DecidableEq, Repr

inductive PassKind where
  | mma | mmaX | mmaF16
deriving DecidableEq, Repr

/-- A matrix pass (R85, R109): granules of its operands, first row, rows, weight format, layer, and whether it is being
rerun after a residue mismatch (R103). -/
structure Pass where
  kind : PassKind
  aGranule : Nat
  wGranule : Nat
  row : Nat
  m : Nat
  wfmt : WFmt
  layer : Nat
  index : Nat
  rerun : Bool := false
deriving DecidableEq, Repr

/-- An operation of the ACC family (R96, R101). -/
inductive AccOp where
  | zero (row m : Nat)
  | convert (row m : Nat) (fmt : ConvFmt) (ctl layer dst : Nat) (elem0 : Nat) (coords : List RowCoord)
  | exportTo (row col dst : Nat)
  | importFrom (row col src layer : Nat)
deriving DecidableEq, Repr

/-- An entry of the MX queue, in issue order. -/
inductive MxItem where
  | pass (p : Pass)
  | acc (index : Nat) (op : AccOp)
deriving DecidableEq, Repr

/-- Why a core issues nothing. -/
inductive CoreStop where
  | run
  | trapped (layer : Nat)                 -- R106: draining toward the layer's FALLBACK_ENTRY
  | preempted (index lr : Nat)            -- R113: saved at the cheap point before this instruction
deriving DecidableEq, Repr

/-- The tagged instruction of a sampled core (R484, R485). -/
structure Tag where
  step : Nat
  layer : Nat
  family : Nat
  oper : Nat
  engine : Nat
  vary : Bool
  cheap : Bool
  rerun : Bool
  stall : Nat
  index : Nat
  delay : Nat
deriving DecidableEq, Repr

/-- What a core's sequencer holds. -/
structure CoreSt where
  nextIndex : Nat := 0
  outst : List OutIns := []
  mxq : List MxItem := []
  stop : CoreStop := .run
  preempt : Bool := false
  stall : Nat := 7                         -- cause in force in the last slot (R485); 7 is no portion
  smpCount : Nat := 0
  tag : Option Tag := none
  skipped : Nat := 0
  inFallback : List Nat := []
  saved : List (Nat × List Nat) := []      -- save area: core SRAM ranges (offset, bytes) of the suspended portion
  savedBad : List Nat := []                -- granules among them that failed their check
  savedAcc : List (Nat × LAcc) := []       -- and accumulators (row * 128 + column)
  savedAt : Option (Nat × List Nat) := none   -- instruction where the suspended portion restarts, and its open fallbacks
deriving DecidableEq, Repr

/-! ### Engines and Sash (R115 to R143) -/

/-- A queued engine command (R120, R121): requester (0 to 191 a core, 192 the Transom), the ENG instruction's index, the
granule of its record, its LAYER and VARY, and the status once the engine has run it. -/
structure EngCmd where
  src : Nat
  index : Nat
  granule : Nat
  layer : Nat
  vary : Bool
  status : Option Nat := none
deriving DecidableEq, Repr

/-- A queued Sash descriptor (R139, R140): requester, the MOV instruction's index, its 64 bytes, and its status once it
has run (`waiting` while a fabric transfer is unanswered). -/
structure SashEnt where
  src : Nat
  index : Nat
  bytes : List Nat
  status : Option Nat := none
  waiting : Bool := false
  num : Nat := 0                           -- the descriptor's number among the module's fabric users
  acc : Nat := 0                           -- the worst status of its fabric packets so far
  mov : Nat := 0                           -- the number of the first descriptor of its MOV instruction
  layer : Nat := 0                         -- the layer that the MOV instruction belongs to
deriving DecidableEq, Repr

/-! ### Expert routing (R144 to R166) -/

inductive Residency where
  | flash | fetching | dram
deriving DecidableEq, Repr

/-- An expert of a generation slot's load: residency (R157), heat (R161), pinned by the manifest, its extents. -/
structure ExpertSt where
  slot : Nat
  layer : Nat
  expert : Nat
  res : Residency
  heat : Nat
  pinned : Bool
  held : List Nat          -- steps in flight that assigned tokens and have not completed the layer
  extents : List Nat
  wait : Bool := false     -- R161: a requested fetch found no victim and waits
deriving DecidableEq, Repr

/-- The counts of one routing (R162). -/
structure RouteRec where
  layer : Nat
  e : Nat
  k : Nat
  vary : Bool
  fallback : Bool
  gen : Nat
  tokens : Nat
  capacity : Nat
  dropped : Nat
  alternate : Nat
  substituted : Nat
  fetches : Nat
  assigned : List Nat
  demand : List Nat
deriving DecidableEq, Repr

/-! ### Tiered extents (R194, R198) -/

inductive ExtState where
  | flash | fetching | resident
deriving DecidableEq, Repr

inductive ExtMode where
  | pin | expert | cache | direct
deriving DecidableEq, Repr

/-- What owns a tiered extent. -/
inductive ExtOwner where
  | gen (slot : Nat)
  | small (index : Nat)
  | archive (pref : Nat)
  | image
deriving DecidableEq, Repr

/-- A tiered extent in use: residency, mode, owner, its host copy (port, address), whether it lies in DRAM frames still
being read after a demotion, its last read, and whether a rebuilding card holds it. -/
structure Extent where
  state : ExtState
  mode : ExtMode
  owner : ExtOwner
  layer : Nat
  expert : Nat
  host : Option (Port × Nat)
  lastRead : Nat
  draining : Bool
  onCard : Bool
  crc : List Nat            -- CRC-32C of each 16 KiB unit as it arrived (R222 phase 4)
deriving DecidableEq, Repr

/-! ### Portions (R210, R211) -/

/-- A local poison source (R82, R211): what recorded it. -/
inductive PoisonSrc where
  | core (id layer : Nat)
  | engine (e : Engine) (h : Half) (layer : Nat)
  | memory (granule : Nat)
  | extent (x : Nat)
  | mesh (core : Nat)
  | conv (layer : Nat)
deriving DecidableEq, Repr

/-- What a portion holds for release when it is final (R210). -/
inductive Egress where
  | fab (op : Nat)                         -- a fabric operation of the portion, by its number
  | ret (m : ReturnMsg)
  | next (h : StepHeader)
deriving DecidableEq, Repr

/-! ### Trelmet (R298 to R334) -/

inductive FabKind where
  | load | store | fadd | cas | min | max | reduce | mstore | bulkWrite | bulkRead
  | ctrl                                   -- STEP_ABORT and PORTION_FAILED (R324)
deriving DecidableEq, Repr

/-- One packet's worth of a fabric operation that the module has issued and that has not been acknowledged (R306 to
R323): its number; the core and instruction, or the Sash descriptor (half and number), it belongs to; the physical
target or the multicast group; the flow's channel and SEQ; the packet; where its result goes; the times of its first
issue and last sending; whether it has been sent, and the members that have acknowledged it. -/
structure FabOp where
  num : Nat
  core : Nat
  index : Nat
  sash : Option (Half × Nat)
  kind : FabKind
  target : Nat
  mcast : Bool
  vc : Nat
  seq : Nat
  epoch : Nat
  packet : List Nat
  dst : Nat                          -- model address that takes the result
  size : Nat
  wide : Bool
  first : Nat
  last : Nat
  sent : Bool
  waiting : Bool                     -- R321: an atomic that waits for its turn
  retry : Bool                       -- RRETRY
  members : List Nat                 -- multicast: physical IDs still to acknowledge
  held : Bool := false               -- R210: it waits in its portion's egress hold
  step : Option Nat := none          -- the step counter of the portion it was issued in
  done : Bool := false               -- its instruction has completed, or was discarded
  plane : Nat := 0                   -- the plane it was last sent on
  ord : Nat := 0                     -- its place among the packets of its bulk descriptor (R303)
deriving DecidableEq, Repr

/-- An RFENCE waiting for the operations its core issued before it (R316). -/
structure Fence where
  core : Nat
  index : Nat
  ops : List Nat
deriving DecidableEq, Repr

/-- A reply-cache entry (R320). -/
structure CacheEnt where
  source : Nat
  vc : Nat
  mcast : Bool
  seq : Nat
  at0 : Nat
  reply : List Nat
deriving DecidableEq, Repr

/-- A membership record (R328). -/
structure Member where
  epoch : Nat
  members : Nat
  remap : List Nat
deriving DecidableEq, Repr

/-! ### The mesh (R274 to R294) -/

/-- One mesh or Hinge link, named by its sending router and port: refusals in a row, replay times of the last
millisecond, and whether it has failed (R283). -/
structure LinkSt where
  refused : Nat := 0
  times : List Nat := []
  failed : Bool := false
deriving DecidableEq, Repr

/-- A portion: its header, how far its recovery has gone, and what it holds. -/
structure Portion where
  hdr : StepHeader
  rerun : Bool := false
  poison : List PoisonSrc := []
  recovered : Bool := false
  vary : Bool := false
  ended : Bool := false
  status : Nat := 0
  tally : List (Nat × FmtEv) := []         -- format events counted per layer in this run
  trapped : List Nat := []                 -- layers that ran their fallback
  routes : List RouteRec := []
  egress : List Egress := []
  returns : List RetReq := []              -- what Poppy produced, for the return message
  start : Nat := 0                         -- when it started (R400)
  fabStatus : Nat := 0                     -- the status its remote operations ended with (R324)
  failedRegion : Bool := false             -- R187: it ends unrecovered without a replay
  leases : List Nat := []                  -- leases of its requests (R347)
  met : List (Nat × List Nat) := []        -- barriers reached when it was suspended
  stopped : List (Nat × Nat × Nat) := []   -- R83: commands (requester, instruction, granule) its watchdog has stopped
deriving DecidableEq, Repr

/-! ### Contexts and the KV pool (R175 to R191, R245 to R272) -/

/-- A span-table entry (R177). -/
structure SpanEnt where
  page : Nat
  prov : Bool := false
  shared : Bool := false
  gen : Nat := 0
  spec : Bool := false
  specRow : Nat := 0
  specTag : Nat := 0
deriving DecidableEq, Repr

inductive CtxState where
  | ready | inStep | ending | orphaned
deriving DecidableEq, Repr

/-- The owner of a pool page. -/
inductive PageOwner where
  | ctx (id : Nat)
  | pref (id : Nat)
deriving DecidableEq, Repr

/-- A pool page in use: owner, tenant lease, LAST_TOUCH (R182). -/
structure PageSt where
  owner : PageOwner
  lease : Nat
  touch : Nat
deriving DecidableEq, Repr

/-- A context record (R245, R253, R261). -/
structure Ctx where
  st : CtxState
  port : Port
  desc : ReqDesc
  stop : StopSet
  hist : List Nat := []            -- emitted tokens, newest first, at most 15 (R131)
  toks : List Nat := []            -- token IDs of positions 0 to tail - 1, as far as known
  tail : Nat := 0
  lastTok : Nat := 0
  emitted : Nat := 0
  spans : List (Nat × SpanEnt) := []
  accepted : Option Nat := none    -- accepted count not yet carried to the modules (R188)
  drafts : Nat := 0                -- drafts of the unresolved verify step
  slot : Nat := 0                  -- generation slot of a pinned context (R232)
  step : Nat := 0                  -- step that carries it
  commitLen : Option Nat := none   -- a commit to take effect at the next boundary
  archiveReq : Bool := false
  batchTag : Nat := 0
  entryIndex : Nat := 0
  entryDue : Bool := false         -- an ENTRY record is due for the step in flight (an AUTO decode has none)
  entryWait : Nat := 0
  matched : Nat := 0
  matchRef : Nat := 0
  matchStep : Nat := 0
  committed : Nat := 0
  handle : Nat := 0
  prod : Nat := 0                  -- stream entries written
  varyAny : Bool := false
  preemptAny : Nat := 0
  waitTotal : Nat := 0
  waitFrom : Option Nat := none
  endStatus : Nat := 0
  endReason : Nat := 0
  releaseStep : Option Nat := none
  kept : List (Nat × Nat × Nat) := []    -- stream entries kept for a lost port: token, position, and bytes [15:8]
  orphanAt : Option Nat := none
  reserved : Nat := 0              -- completion records reserved (R257)
  table : Nat := 0                 -- device address of its span table (R247)
  taint : Bool := false            -- R340
  stepSpans : List Nat := []       -- spans allocated for the step in flight
  stepPos : Nat := 0               -- and the position and number of the rows it appends
  stepRows : Nat := 0
  commitArchive : Bool := false    -- and the commit asks for an archive copy
  commitDue : Bool := false        -- the step has completed: the commit takes effect at the next boundary
  condemned : Bool := false        -- R208: released at the next boundary, its entries being lost
  freed : Bool := false            -- the step that carries its release has returned
  before : Option (List Nat × Nat) := none   -- history and emitted count before the step that this module has finalled
deriving DecidableEq, Repr

/-- A committed prefix: a handle record (R186) or one tree node (R132, R185). -/
structure Pref where
  lease : Nat
  binding : Nat
  gen : Nat
  pages : List Nat                 -- pool pages by span; empty when archived and not resident
  spans : Nat
  commitStep : Nat
  parent : Option Nat              -- tree mode: parent node; none under the root or in handle mode
  tokens : List Nat                -- tree mode: the node's 64 tokens
  depth : Nat
  record : Nat                     -- handle mode: record index
  seq : Nat                        -- handle mode: SEQ of the handle
  addr : Nat                       -- tree mode: device address of the node
  archived : Option Nat            -- first extent of the archive copy
  archiving : Bool
  restoring : Bool
  taint : Bool := false            -- R340
  hidden : Bool := false           -- R346: committed before a session under FRESH
  session : Bool := false          -- R346: committed by it
deriving DecidableEq, Repr

/-- A completion record waiting for room (R269). -/
structure CplRec where
  port : Port
  bytes : List Nat                 -- 64 bytes, PHASE clear
  final : Option Nat               -- the context a FINAL record frees
  res : Option Nat := none         -- the context whose reservation it gives back (R257)
deriving DecidableEq, Repr

/-- A client record (R270). -/
structure Client where
  admitted : Nat := 0
  steps : Nat := 0
  tokens : Nat := 0
  waitNs : Nat := 0
  waitMax : Nat := 0
  preemptions : Nat := 0
  lease : Nat := 0
deriving DecidableEq, Repr

/-- Where the data of a stalled read goes once its master copy has been read again (R208): the core and SRAM offset, or
nowhere (a command of the portion that waits for its data within itself; a scrub or a remote read, which concern no
portion here). -/
inductive RefetchFor where
  | core (c index dst src len : Nat)
  | inStep
  | scrub
deriving DecidableEq, Repr

/-- A granule whose master copy is being read again (R208). -/
structure Refetch where
  granule : Nat
  who : RefetchFor
deriving DecidableEq, Repr

/-- A ledger record (R471): SEQ, TYPE, POWERED_S and BODY as (width in bits, value). -/
structure LedgerRec where
  seq : Nat
  type : Nat
  powered : Nat
  body : List (Nat × Nat)
deriving DecidableEq, Repr

/-! ### Steps in flight, the journal and replay (R242 to R263, R342 to R349) -/

/-- What the entry module keeps of one request of a step in flight. -/
structure FlightReq where
  ctx : Nat
  lease : Nat
  matched : Nat
  matchRef : Nat
  matchStep : Nat
deriving DecidableEq, Repr

/-- A step that the entry module has admitted and whose outcome is not known (R243, R244). -/
structure Flight where
  hdr : StepHeader
  reqs : List FlightReq
  tainted : Bool
  replay : Bool
  left : Option Nat                  -- when it left the entry module
  vary : Bool := false               -- R112: the entry module's portion was VARY
deriving DecidableEq, Repr

/-- A returned step whose results are written and whose ENTRY records are due at the next boundary (R267). -/
structure DueEntry where
  ctx : Nat
  port : Port
  status : Nat
  preemptions : Nat
  vary : Bool
  reason : Nat
  accepted : Nat
  produced : Nat
  batchTag : Nat
  index : Nat
  step : Nat
  wait : Nat
  matched : Nat
  matchRef : Nat
  commit : Bool
deriving DecidableEq, Repr

/-- The head of a submission ring (R249, R251): when its descriptor was first seen, and how often reading its entries
has failed in a row. -/
structure HeadSt where
  seen : Option Nat := none
  fails : Nat := 0
deriving DecidableEq, Repr

/-- A replay session (R344 to R346). -/
structure Session where
  fresh : Bool
  last : Option Nat
deriving DecidableEq, Repr

/-- An adoption that awaits its boundary (R272): what the record held and whether its AUTH verifies against a
sequence number. -/
structure Adoption where
  port : Port
  ctx : Nat
  lease : Nat
  resultAddr : Nat
  resultEntries : Nat
  authSeq : Option Nat
deriving DecidableEq, Repr

/-! ### Loads and images (R219 to R241, R350 to R368) -/

/-- A manifest entry (R220). -/
structure ManEntry where
  host : Nat
  extent : Nat
  count : Nat
  mode : Nat
  keep : Bool
  layer : Nat
  expert : Nat
deriving DecidableEq, Repr

/-- A load: from its manifest's header and entries (R219). -/
structure Load where
  kind : Nat
  target : Nat
  hostPort : Port
  genId : Nat
  binding : Nat
  lease : Nat
  baseGen : Nat
  share : List Nat
  entries : List ManEntry
deriving DecidableEq, Repr

/-- The load in progress (R222), and the port it is read through. -/
structure LoadRun where
  load : Load
  port : Port
deriving DecidableEq, Repr

/-- A small model (R236, R239). -/
structure Small where
  load : Load
  retiring : Bool
deriving DecidableEq, Repr

/-- The image load in progress (R357): the port that wrote GO, and what was read once phases 2 to 4 have passed. -/
structure ImgRun where
  port : Port
  desc : Option ImageDesc
  before : List (Nat × Nat) := []          -- states of the groups that the load has set APPLYING
deriving DecidableEq, Repr

/-! ### Clocks, power and ports -/

/-- Where a reference switch stands (R383, R384): 0 holding at the switch dividers, 1 relocking, 2 ramping back. -/
structure ClkSwitch where
  phase : Nat
  want : Option Port                 -- the reference to take; none while R384 waits
  former : Port
  since : Nat
  aclk : List Nat                    -- codes to ramp back to
  net : List Nat                     -- NCLK_W, NCLK_E, CCLK_W, CCLK_E
deriving DecidableEq, Repr

/-- What is kept of a host port beside its registers (R416, R429). -/
structure PortSt where
  link : Bool := false
  lostAt : Option Nat := none
  perstAt : Option Nat := none
  flr : Bool := false
  bar2 : Nat := 36                         -- log2 of BAR2's size (R420)
deriving DecidableEq, Repr

/-- How far power-up has come (R460), or why the module runs no step. -/
inductive Stage where
  | unpowered | latched | dark | boot | locked | verified | tested | ready | safe
deriving DecidableEq, Repr

/-- The fault report (R465). -/
structure FaultReport where
  cause : Nat := 0
  unit : Nat := 0
  status : Nat := 0
  grade : Nat := 0
  coreFail : Nat := 0
  vaultFail : Nat := 0
  portFail : Nat := 0
  fabFail : Nat := 0
  engineFail : Nat := 0
  commonsFail : Nat := 0
  detail : List Nat := []
deriving DecidableEq, Repr

/-! ### The security block (R437 to R458) -/

/-- A lease slot of the key store (R438, R446).  `st`: 0 FREE, 1 AUTHORISED, 2 ACTIVE, 3 ENDING. -/
structure Lease where
  st : Nat := 0
  lease : Nat := 0
  ide : Bool := false
  quota : Nat := 0
  nextQuota : Option (Nat × Nat) := none     -- quota and EFFECTIVE_STEP
  endStep : Option Nat := none
  tenantPub : List Nat := []
  imagePub : List Nat := []
  serial : Nat := 0
  keyed : Bool := false                      -- LK_L is stored, wrapped
  adoptSeq : Nat := 0
deriving DecidableEq, Repr

/-- An erase report (R452). -/
structure EraseReport where
  lease : Nat
  step : Nat
  ledgerSeq : Nat
  pages : Nat
  frames : Nat
  extents : Nat
  cryptoErased : Bool
  zeroised : Bool
  background : Bool
deriving DecidableEq, Repr

/-- A secured session (R442). -/
structure Spdm where
  party : Party
  key : List Nat
deriving DecidableEq, Repr

/-- A firmware package that has been accepted and not yet activated (R432, R444). -/
structure FwPackage where
  comp : FwComp
  version : Nat
  floor : Bool
  measure : List Nat
deriving DecidableEq, Repr

/-- What outlives a module reset: the key store, the fuses and non-volatile memory (R438, R439, R459, R463). -/
structure KeyStore where
  ownerSlots : Nat := 0                      -- OWNER_SLOTs programmed
  owner : List Nat := []                     -- digest of the OWNER key in force; empty while unowned
  app : List Nat := []                       -- the APP key; empty when none
  slot1 : Bool := false                      -- the slot-1 certificate chain
  secFloor : Nat := 0
  debugDisable : Bool := false
  debugSeen : Bool := false                  -- measurement 9: unlocked at any time since power-up
  leases : List Lease := List.replicate 16 {}
  seqs : List (Nat × Nat) := []              -- RECORD_SEQ of the last record of each lease identifier
  minVersion : List Nat := [0, 0, 0, 0]
  rollback : List Nat := [0, 0, 0, 0]
  countersign : Bool := false
  versions : List Nat := [0, 0, 0, 0]        -- firmware versions running
  measures : List (List Nat) := [[], [], [], []]

  reports : List EraseReport := []
  erasing : List Nat := []                   -- leases whose background zeroisation is under way
  fenceCores : List Nat := []
  fenceVaults : List Nat := []
  armed : Bool := false                      -- SELFTEST_EXTENDED
  boots : Nat := 0
  glitchAck : Nat := 0
  glitchTotal : Nat := 0
  glitchDet : Nat := 0                       -- the detector of the last trip
deriving DecidableEq, Repr

/-! ### Counters (R475 to R489) -/

/-- A snapshot being written (R481): its cause, and the values it captured. -/
structure Snap where
  cause : Nat
  time : Nat
  step : Nat
  frozen : Bool
  values : List (Nat × Nat)                  -- (event, value + 2^48 * OVF + 2^49 * chain) that are not zero
deriving DecidableEq, Repr

/-! ### What the module drives outward -/

/-- One thing the module put on one of its interfaces. -/
inductive Out where
  | readData (p : Port) (bytes : List Nat)             -- the completion of a host read
  | readPoisoned (p : Port) (bytes : List Nat)         -- a completion with the poisoned-data indication (R213)
  | hostWrite (p : Port) (addr : Nat) (bytes : List Nat)
  | msix (p : Port) (vector : Nat)
  | msixPf1 (p : Port)                                 -- PF1's one vector (R423)
  | packet (port target vc : Nat) (bytes : List Nat)   -- target 128: the switch
  | ret (m : ReturnMsg)
  | next (h : StepHeader)
  | trapMsg (layer : Nat)                              -- a trap message on VC0 to the cores running the layer (R106)
  | preemptMsg (core : Nat)                            -- a pre-emption post
  | marker (router : Nat)                              -- route-change markers of a router (R294)
  | discover (port : Nat) (serial tpos : Nat)          -- a DISCOVER frame (R326)
  | replay (router port : Nat)                         -- a replay request for a refused flit (R282)
  | unsupported (p : Port)                             -- an Unsupported Request completion (R419)
  | crs (p : Port)                                     -- Configuration Request Retry Status (R461)
  | cfg (p : Port)                                     -- a configuration request served normally
  | linkDown (p : Port)                                -- R419: the link is taken down through Detect
  | poll (p : Port) (lc be : Bool)                     -- which rings showed a descriptor
  | mgmt (rule : Nat) (data : List Nat)                -- an answer of the management controller or security block
  | powerOff                                           -- the rails are off
  | bad (p : Port) (write : Bool)                      -- R16: all ones returned, or the write discarded
deriving DecidableEq, Repr

/-- Why the machine stops with a fault.  No command of this block does: what the spec describes is an effect, and what
it leaves open is a free value or a named choice.  The one constructor closes the type. -/
inductive Fault where
  /-- Raised by no command (safe). -/
  | none
deriving DecidableEq, Repr

/-- Why a command has no meaning. -/
inductive Refusal where
  /-- Raised by exec for a command that has no meaning in this model (safe: the run stops). -/
  | notModelled (mnemonic : String)
  /-- Raised by a sequencer command whose instruction holds operand fields with which an image is refused at load
  (R71, R109, R120), so that no core ever holds it (safe: the run stops). -/
  | notLoadable (mnemonic : String)
deriving DecidableEq, Repr

/-- What is kept of the clocks beside their registers (R369 to R387). -/
structure ClkSt where
  sw : Option ClkSwitch := none
  stepAt : List (Nat × Nat) := []          -- time of the last divider step by domain (R372)
  vcore : List Nat := [6, 6]               -- code whose voltage each VCORE rail has or slews to
  vcoreOk : List Bool := [true, true]      -- and whether it has settled
  stretched : List (Nat × Nat) := []       -- stretched cores and the time of the last trip
  ssc : Nat × Nat × Nat := (0, 30, 0x13B)  -- the modulation in force: EN, DEPTH, RATE (R380)
  fcDist : List Bool := [false, false]     -- a step, switch or holdover fell in the port's gate
  fcRun : List (Nat × Nat) := [(0, 0), (0, 0)]  -- SEL and GATE_LOG2 of the port's count in progress (R386)
deriving DecidableEq, Repr

/-- What is kept of power and cooling beside their registers (R388 to R411). -/
structure PwrSt where
  tripHold : Bool := false                 -- R406 withholds reset
  cEff : Nat := 1800000                    -- C_eff in mW
  gainCore : Nat := 1000000                -- gains in millionths
  gainRest : Nat := 1000000
  calWide : Bool := false                  -- the last window corrected a gain by more than 10 %
  brakes : List Nat := []                  -- brakes in force: 0 shutter, 1 thermal, 2 leak, 3 input, 4 firmware swap
  capDrop : Bool := false                  -- R395 waits for SWITCH_BUSY to clear
  unmetAt : Option Nat := none             -- P_est has exceeded L at OP 192 since
  shutterAt : Option Nat := none
  leakAt : Option Nat := none
  inletAt : Option Nat := none             -- the inlet has been out of range since
  inletPeak : Nat := 0
  hotAt : Option Nat := none               -- a vault has been at 95 C or above under the floor since
  brakeAt : Option (Nat × Nat) := none     -- the thermal brake's start and peak temperature
  sensorsOut : List Nat := []              -- failed sensors: 0 to 35 junction, 36 to 67 vault, 68 inlet, 69 outlet
  refresh2x : List Nat := []               -- vaults whose refresh rate is doubled
  capLimUs : Nat := 0                      -- microseconds of CAP_LIMITED not yet counted
  energyMj : Nat := 0                      -- millijoules not yet counted
  energyLogged : Nat := 0                  -- PWR_ENERGY at the last POWER record
  capSum : Nat × Nat := (0, 0)             -- sum and number of C_eff readings since the last POWER record
  inletSum : Nat × Nat := (0, 0)
  shutterMean : Nat := 0
  paces : List Nat := []                   -- durations of the last 256 final portions
deriving DecidableEq, Repr

/-- Power-up, the safe state and the host ports (R416, R459 to R465). -/
structure BootSt where
  stage : Stage := .boot
  report : FaultReport := {}
  extended : Bool := false                 -- the extended self-test runs (R469)
  commonsOut : List Nat := []              -- halves whose commons is out of service
  portsShut : List Nat := []               -- host ports shuttered by self-test
  portA : PortSt := {}
  portB : PortSt := {}
deriving DecidableEq, Repr

/-- An authority command that waits until every lease is FREE (R443, R453). -/
inductive AuthOp where
  | transfer (key : List Nat)
  | release
  | debug
deriving DecidableEq, Repr

/-- The security block, firmware and sessions. -/
structure SecSt where
  ks : KeyStore := {}
  sessions : List Spdm := []
  nonce : Option (List Nat) := none        -- the DEBUG_CHALLENGE nonce
  authOp : Option AuthOp := none
  packages : List FwPackage := []
  fwRaise : List (FwComp × Nat) := []      -- R444: floors raised after one boundary or transaction without fault
  former : Option (Nat × List Nat) := none   -- control firmware before the last handoff: version and measurement
  fwNew : Bool := false                    -- control firmware has not completed a boundary since its handoff
  integrity : List Nat := List.replicate 8 0   -- the totals of the last INTEGRITY record
deriving DecidableEq, Repr

/-- Weights and images (R219 to R241, R357). -/
structure WtsSt where
  load : Option LoadRun := none
  gens : List (Option Load) := [none, none]
  smalls : List (Nat × Small) := []
  switchTo : Option Nat := none            -- an accepted SWITCH
  imgRun : Option ImgRun := none
  area : List (Nat × Nat) := []            -- bytes of the image area in use: 0 the WHOLE image, 1 + half, 8 + group (R367)
  capLease : Nat := 0                      -- lease of the capture in the region
deriving DecidableEq, Repr

/-- Serving control at the entry module. -/
structure CtlSt where
  flights : List Flight := []              -- entry module: admitted steps whose outcome is not known
  journalDue : List (Flight × Nat × Bool) := []  -- outcomes whose journal record waits for the boundary: status, VARY
  due : List DueEntry := []                -- ENTRY records due at the next boundary
  replay : Option Session := none
  submit : Option (Port × List Nat) := none    -- a replay record that awaits its boundary
  adopts : List Adoption := []
  heat : List RouteRec := []               -- committed routings whose demand has not reached the heat (R161)
  roots : List (Nat × Nat) := []           -- root node addresses: (lease * 65536 + binding) * 2 + slot
  heads : List (Nat × HeadSt) := []        -- per ring: 2 * port + (0 LC, 1 BE)
  consumed : List (Nat × Nat) := []        -- entries consumed since the ring was enabled
  kvSnap : List (Nat × List Nat) := []     -- tenant pool fields as of the last completed boundary (R191)
  lcReady : Bool := false                  -- an LC descriptor has been found during a BE portion (R249)
  lcRan : Bool := false                    -- an LC portion has started since the suspension (R262)
  dead : List Nat := []                    -- steps whose later packets this module discards (R324)
  applied : List Nat := []                 -- received steps whose page rules have been applied (R178)
deriving DecidableEq, Repr

/-- What is kept of the fabric beside its registers (R298 to R334). -/
structure FabSt where
  prev : Option Member := none
  remap : List Nat := []                   -- REMAP in force; empty is the identity
  pend : Option (Port × Option Member) := none
  tx : List (Nat × Nat) := []           -- next SEQ of each flow this module sends
  rx : List (Nat × Nat) := []           -- expected SEQ of each flow it receives
  rx3 : List (Nat × List Nat) := []     -- SEQs received beyond the expected one on FVC3
  ops : List FabOp := []                -- unacknowledged operations, oldest first
  next : Nat := 0
  fences : List Fence := []
  cache : List CacheEnt := []              -- newest first
  atomTimes : List (Nat × List Nat) := []  -- issue times of atomics by target (R321)
  planes : List (Nat × List (Nat × Nat)) := []   -- latest announcement of each plane: (position, serial)
  seen : List Nat := []                    -- ports whose DISCOVER exchange has ended since their link came up (R326)
  position : Option Nat := none
  linkKeys : List (Nat × Nat) := []        -- time of each fabric port's last key agreement
deriving DecidableEq, Repr

/-- Mesh and Hinge links, and detours (R282 to R294). -/
structure MeshSt where
  links : List (Nat × LinkSt) := []        -- router * 8 + port
  route : List (Nat × Nat) := []       -- route change under way: router, markers still to be acknowledged
  detoured : List Nat × List Nat := ([], [])   -- failed routers and links that detours in force go round
  routeTo : List Nat × List Nat := ([], [])    -- and those that the change under way goes round
deriving DecidableEq, Repr

/-- Snapshots (R481). -/
structure SnapSt where
  run : Option Snap := none
  seq : Nat := 0
  at0 : Nat := 0                        -- start of the period in progress (R481), in us
  steps : Nat := 0                      -- boundaries since the last snapshot
deriving DecidableEq, Repr

/-- The module's state. -/
structure State where
  flds : List (Nat × Nat) := []
  latchA : Option (Nat × Nat) := none      -- R14: the port's latch: pair offset and upper value
  latchB : Option (Nat × Nat) := none
  mem : List Host.Cell := []
  marks : List (Nat × Bool) := []          -- granules (address / 64) that fail their detection code (R205)
  accs : List (Nat × LAcc) := []           -- core * 16384 + row * 128 + column
  cores : List (Nat × CoreSt) := []
  engQ : List (Nat × List EngCmd) := []    -- half * 8 + ENGINE code
  sashQ : List (Nat × List SashEnt) := []  -- half
  rr : List (Nat × Nat) := []              -- round-robin pointers (R117) by resource
  barriers : List (Nat × List Nat) := []   -- cores that have reached the BARRIER of a group
  portion : Option Portion := none         -- the portion running in the module
  suspended : Option Portion := none       -- the pre-empted portion (R262)
  finals : List Portion := []              -- final portions whose egress waits for an earlier step's (R263)
  inbox : List StepHeader := []            -- received steps whose portion has not started
  lastStep : Nat := 0                      -- STEP of the last step received
  experts : List ExpertSt := []
  boundaries : Nat := 0                    -- step boundaries completed (R161, R481)
  extents : List (Nat × Extent) := []
  ctxs : List (Nat × Ctx) := []
  pages : List (Nat × PageSt) := []
  prefs : List (Nat × Pref) := []
  prefSeq : List (Nat × Nat) := []         -- SEQ of each handle record's last use (R186)
  clients : List (Nat × Client) := []
  cplHeld : List CplRec := []
  layerSlots : List (Nat × (Nat × Bool)) := []   -- the layer and enable that each PMC slot counts now (R487)
  ringRecs : List (Nat × List Nat) := []   -- ring (0 Aster, 1 journal, 2 samples): offsets of records not yet consumed
  now : Nat := 0                           -- ns of powered time since manufacture, as the commands that carry the time last said
  refetch : List Refetch := []             -- granules being fetched again from a master copy (R208)
  hardFails : List (Nat × List Nat) := []  -- per vault: times of its hard failures in the last 24 h (R216)
  rewritten : List (Nat × Bool) := []      -- granules rewritten after a detection: a further failure is a hard one (R216)
  ready : Bool := false                    -- step 5 of R460 is past: the functions are ready
  cardSerial : List Nat := [0, 0]          -- serial numbers of the inserted cards
  cardSeated : List Bool := [true, true]   -- a card is in its connector
  blockReads : List (Nat × Nat) := []      -- reads of each erase block since its last erase (R202)
  holdoffA : Bool := false                 -- R423: port A's vector 0 is in its holdoff
  holdoffB : Bool := false
  deferA : Bool := false                   -- and a cause has arisen during it
  deferB : Bool := false
  nvFault : Nat × Nat := (0, 0)            -- CAUSE and RAIL of the last latch-off or turn-off, in non-volatile memory (R408)
  vflashLatched : List Bool := [false, false]    -- the card's VFLASH switch has latched off (R408)
  residueTimes : List (Nat × List Nat) := []     -- per core: times of its residue-poison events in the last 24 h (R288)
  ledger : List LedgerRec := []            -- newest first (R471)
  ledgerSeq : Nat := 0                     -- SEQ of the next record
  movesHeld : List (Nat × Nat) := []       -- core, moves from RETIRED to WASTED that wait for a freeze to end (R483)
  img : Option ImageDesc := none           -- the loaded image, with the regional images applied since (R356)
  clk : ClkSt := {}
  pwr : PwrSt := {}
  boot : BootSt := {}
  sec : SecSt := {}
  wts : WtsSt := {}
  ctl : CtlSt := {}
  fab : FabSt := {}
  mesh : MeshSt := {}
  snp : SnapSt := {}
  fresh : Nat := 0                         -- the model's own: how many free values have been taken
  out : List Out := []                     -- the model's own: what the module drove outward, newest first
  pending : List Instr := []               -- commands waiting, first in, first out
deriving DecidableEq, Repr

/-- The machine right after a module reset, before the power-up sequence has gone on (R459, R460). -/
def State.reset : State := {}

end Sys2Proof.Machine
end

