-- ==== Sys2Proof/Machine/Ops.lean ====
section
/-!
DEFINITION. Machine/Ops.lean: the named operations over registers, counters and memory that every meaning uses.
-/
namespace Sys2Proof.Machine

/-! ### Register fields (R12) -/

/-- A field's key in `flds`; a per-port field of port B has a key of its own (R17). -/
def fldKey (f : Fld) (p : Port) : Nat :=
  f.off * 64 + f.lo + (if f.perPort && p == .b then 2 ^ 40 else 0)

/-- The value of a field, of port `p`'s copy where it exists per port. -/
def getP (s : State) (p : Port) (f : Fld) : Nat := smGet f.reset s.flds (fldKey f p)

/-- Set a field, truncated to its width. -/
def setP (s : State) (p : Port) (f : Fld) (v : Nat) : State :=
  { s with flds := smSet f.reset s.flds (fldKey f p) (v % 2 ^ f.len) }

def getF (s : State) (f : Fld) : Nat := getP s .a f
def setF (s : State) (f : Fld) (v : Nat) : State := setP s .a f v
def getB (s : State) (f : Fld) : Bool := getF s f == 1
def setB (s : State) (f : Fld) (b : Bool) : State := setF s f (b2n b)

/-- Bit `i` of a field that is a bitmap. -/
def getBit (s : State) (f : Fld) (i : Nat) : Bool := bit (getF s f) i
def setBit (s : State) (f : Fld) (i : Nat) (b : Bool) : State := setF s f (setBitsAt (getF s f) i 1 (b2n b))

/-- R84: a 64-bit counter that stops at its largest value. -/
def bump (s : State) (f : Fld) (n : Nat) : State := setF s f (min (getF s f + n) (2 ^ 64 - 1))

def otherPort : Port → Port
  | .a => .b
  | .b => .a

def portNum : Port → Nat
  | .a => 0
  | .b => 1

def halfNum : Half → Nat
  | .west => 0
  | .east => 1

def engineNum : Engine → Nat
  | .aster => 0 | .iris => 1 | .crocus => 2 | .dahlia => 3 | .poppy => 4 | .lattice => 5

def unitNum : XUnit → Nat
  | .mx => 0 | .vu => 1 | .mov => 2 | .mem => 3 | .eng => 4

def emit (s : State) (o : Out) : State := { s with out := o :: s.out }

/-! ### Lists used as finite maps -/

def alGet {α : Type} : List (Nat × α) → Nat → Option α
  | [], _ => none
  | (k', v) :: t, k => if k' = k then some v else alGet t k

def alSet {α : Type} (m : List (Nat × α)) (k : Nat) (v : α) : List (Nat × α) := smInsert k v (smErase m k)

/-- Replace element `i` of a list. -/
def setAt {α : Type} (l : List α) (i : Nat) (v : α) : List α := l.set i v

/-! ### Arbitration (R117) -/

/-- R117: the winner among `n` requesters from pointer `p`. -/
def grantFrom (req : Nat → Bool) (n p : Nat) : Option Nat :=
  ((List.range n).find? fun i => req ((p + i) % n)).map fun i => (p + i) % n

/-- Move a resource's pointer past the winner. -/
def grantTo (s : State) (resource n k : Nat) : State :=
  { s with rr := smSet 0 s.rr resource ((k + 1) % n) }

/-! ### Performance counters (R475 to R480) -/

def chainBit (s : State) (e : Nat) : Bool := getBit s (Reg.PMC_CHAIN (e / 32)) (e % 32)

/-- Add to counter `e`; a wrap carries into the next counter or sets the OVF bit (R478, R479). -/
def pmcAdd : Nat → Nat → Nat → State → State
  | 0, _, _, s => s
  | fuel + 1, e, n, s =>
    let v := getF s (Reg.PMC_COUNTER e) + n
    let s1 := setF s (Reg.PMC_COUNTER e) (v % 2 ^ 48)
    if v / 2 ^ 48 = 0 then s1
    else if chainBit s e then pmcAdd fuel (e + 1) (v / 2 ^ 48) s1
    else setBit s1 (Reg.PMC_OVF (e / 32)) (e % 32) true

/-- Count `n` events of number `e` (R476); a frozen counter and one that counts another's wraps do not. -/
def countEv (e n : Nat) (s : State) : State :=
  if n = 0 ∨ getB s Reg.PMC_CTL_FROZEN ∨ (0 < e ∧ chainBit s (e - 1)) then s
  else pmcAdd (4096 - e) e n s

/-- Take `n` from counter `e`, borrowing through a chain (R483). -/
def pmcSub : Nat → Nat → Nat → State → State
  | 0, _, _, s => s
  | fuel + 1, e, n, s =>
    let v := getF s (Reg.PMC_COUNTER e)
    if n ≤ v then setF s (Reg.PMC_COUNTER e) (v - n)
    else
      let s1 := setF s (Reg.PMC_COUNTER e) (v + 2 ^ 48 - n)
      if chainBit s e then pmcSub fuel (e + 1) 1 s1 else s1

/-- R483: slot accounting: 0 RETIRED, 1 WASTED, 2 FRONT, 3 BACK. -/
def countSlot (c k : Nat) (s : State) : State := countEv (4 * c + k) 1 s

/-- R483: move `n` of a core's RETIRED slots to WASTED; a move that falls while frozen waits for the freeze's end. -/
def wasteSlots (c n : Nat) (s : State) : State :=
  if n = 0 then s
  else if getB s Reg.PMC_CTL_FROZEN then { s with movesHeld := smSet 0 s.movesHeld c (smGet 0 s.movesHeld c + n) }
  else countEv (4 * c + 1) n (pmcSub (4096 - 4 * c) (4 * c) n s)

/-! ### Cores -/

def coreGet (s : State) (c : Nat) : CoreSt := smGet {} s.cores c
def coreSet (s : State) (c : Nat) (k : CoreSt) : State := { s with cores := smSet {} s.cores c k }

/-- R45: the core is shuttered. -/
def coreFenced (s : State) (c : Nat) : Bool := getBit s (Reg.ID_FENCED_CORES (c / 32)) (c % 32)
def vaultRetired (s : State) (v : Nat) : Bool := getBit s Reg.ID_RETIRED_VAULTS v

/-- The half of a core (R25). -/
def coreHalf (c : Nat) : Half := if c < 96 then .west else .east

/-- R25: column and row of a core within its half. -/
def coreRow (c : Nat) : Nat := c % 96 / 12
def coreCol (c : Nat) : Nat := if c % 12 < 6 then c % 12 else c % 12 + 1

/-- R27: the home vault. -/
def homeVault (c : Nat) : Nat := 16 * (c / 96) + 4 * (coreRow c / 2) + c % 12 / 3

/-! ### Addresses -/

/-- Core SRAM of core `c`, byte `o` (R28): its place in the model's one memory. -/
def sramAddr (c o : Nat) : Nat := 2 ^ 64 + c * 2 ^ 21 + o % 2 ^ 21

/-- Commons address (R115). -/
def commonsAddr (a : Nat) : Nat := 2 ^ 63 + a % 2 ^ 28

/-- R125: an engine address: bit 63 selects the commons. -/
def engAddr (a : Nat) : Nat := if bit a 63 then commonsAddr a else a

def tierBase : Nat := 2 ^ 40
def usableExtents : Nat := 976562
def extentBytes : Nat := 2 ^ 21
def inTier (a : Nat) : Bool := decide (tierBase ≤ a) && decide (a < tierBase + usableExtents * extentBytes)
def extentOf (a : Nat) : Nat := (a - tierBase) / extentBytes

def inRegion (r : Region) (a n : Nat) : Bool := decide (r.base ≤ a) && decide (a + n ≤ r.base + r.len)

/-- R193: the byte address lies in the frame region that the image reserves. -/
def inFrames (s : State) (a : Nat) : Bool :=
  match s.img with
  | some i => decide (i.vmap.frames.base ≤ a) && decide (a < i.vmap.frames.base + i.vmap.frames.len)
  | none => false

/-- R192, R193: one byte of the device range may be read. -/
def devByteOk (s : State) (a : Nat) : Bool :=
  if a < 2 ^ 38 then !vaultRetired s (a / 2 ^ 33) && !inFrames s a else inTier a

/-- The granules (address / 64) that `n` bytes at `a` touch. -/
def granulesOf (a n : Nat) : List Nat :=
  if n = 0 then [] else (List.range ((a + n - 1) / 64 - a / 64 + 1)).map (· + a / 64)

/-- Every granule of the range may be read. -/
def devReadOk (s : State) (a n : Nat) : Bool := (granulesOf a n).all fun g => devByteOk s (g * 64)

/-- Every byte lies in the DRAM direct window and may be written. -/
def devWriteOk (s : State) (a n : Nat) : Bool := decide (a + n ≤ 2 ^ 38) && devReadOk s a n

/-- R209: the range lies in the step scratch that the image declares. -/
def scratchOk (s : State) (a n : Nat) : Bool :=
  match s.img with
  | some i => i.vmap.scratch.any fun r => inRegion r a n
  | none => false

/-! ### Detection codes (R205 to R207) -/

/-- One bit of CRC-32C, reflected. -/
def crcBit (c : Nat) : Nat := if c % 2 = 1 then (c / 2) ^^^ 0x82F63B78 else c / 2

def crcByte (c b : Nat) : Nat := (List.range 8).foldl (fun c _ => crcBit c) (c ^^^ (b % 256))

/-- R205: CRC-32C with its initial value and final exclusive-or. -/
def crc32c (bs : List Nat) : Nat := bs.foldl crcByte 0xFFFFFFFF ^^^ 0xFFFFFFFF

/-- R205: the location number of a granule of the model's memory. -/
def granuleLoc (g : Nat) : Nat :=
  if 2 ^ 58 ≤ g then 0x200000000 + (g - 2 ^ 58)
  else if 2 ^ 57 ≤ g then 0x100000000 + (g - 2 ^ 57)
  else g % 2 ^ 32

/-- R205: the detection code of a granule. -/
def granuleCode (data : List Nat) (g : Nat) : Nat := crc32c (data ++ leBytes 8 (granuleLoc g))

def marked (s : State) (g : Nat) : Bool := smGet false s.marks g
def setMark (s : State) (g : Nat) (b : Bool) : State := { s with marks := smSet false s.marks g b }
def setMarks (s : State) (gs : List Nat) (b : Bool) : State :=
  { s with marks := gs.foldl (fun m g => smSet false m g b) s.marks }

/-- The counter of detections in the storage a granule lies in (R218). -/
def detectCounter (g : Nat) : Fld := if g < 2 ^ 57 then Reg.MEM_DRAM_DETECT else Reg.MEM_SRAM_DETECT

def anyMarked (s : State) (a n : Nat) : Bool := (granulesOf a n).any (marked s)

/-! ### Memory -/

def rdByte (s : State) (a : Nat) : Nat := (Memory.read s.mem a).toNat
def rdBytes (s : State) (a n : Nat) : List Nat := Memory.bytes s.mem a n
def rdLe (s : State) (a n : Nat) : Nat := leNat (rdBytes s a n)

/-- Vault of a DRAM direct address and the write count of its granules (R475). -/
def countGranules (a n k : Nat) (s : State) : State :=
  if a < 2 ^ 38 then countEv (0xDE0 + 2 * (a / 2 ^ 33) + k) (granulesOf a n).length s else s

/-- R206: store bytes.  A granule stored whole takes a fresh code; one stored in part keeps a failing code, and the
detection is counted. -/
def putBytes (s : State) (a : Nat) (bs : List Nat) : State :=
  let n := bs.length
  let gs := granulesOf a n
  let whole := gs.filter fun g => decide (a ≤ g * 64) && decide (g * 64 + 64 ≤ a + n)
  let bad := (gs.filter fun g => marked s g && !whole.contains g)
  let s1 := { s with mem := Memory.writeBytes s.mem a bs, marks := whole.foldl (fun m g => smSet false m g false) s.marks }
  let s2 := bad.foldl (fun t g => bump t (detectCounter g) 1) s1
  countGranules a n 1 s2

/-- Store several runs of bytes. -/
def putRuns (s : State) (l : List (Nat × List Nat)) : State := l.foldl (fun t p => putBytes t p.1 p.2) s

/-- R206: a block of whole granules is stored, with fresh codes. -/
def putBlock (s : State) (a : Nat) (bs : List Nat) : State :=
  countGranules a bs.length 1
    { s with mem := Memory.putBlock s.mem a bs,
             marks := s.marks.filter fun g => decide (g.1 * 64 + 64 ≤ a) || decide (a + bs.length ≤ g.1 * 64) }

/-- R176, R451: zeros with fresh detection codes over `n` bytes at `a`. -/
def zeroRange (s : State) (a n : Nat) : State :=
  { s with mem := s.mem.filter fun c => decide (c.1 < a) || decide (a + n ≤ c.1),
           marks := s.marks.filter fun g => decide (g.1 * 64 + 64 ≤ a) || decide (a + n ≤ g.1 * 64) }

/-- R20: the status reported when several arise. -/
def worst (l : List Nat) : Nat := l.foldl max 0

/-- The module runs steps and answers PF0: it is powered, clocked and not in the safe state. -/
def stageAlive (s : State) : Bool := match s.boot.stage with | .unpowered => false | .latched => false | .dark => false | .safe => false | _ => true

/-- R419, R464: a command of a host through PF0 runs unless the module does not answer there. -/
def viaPf0 (s : State) (p : Port) (f : State → State) : State :=
  if stageAlive s then f s else if s.boot.stage = .safe then emit s (.unsupported p) else s

/-- The root PLL runs (R371, R464: it does not with cause ROOT_PLL). -/
def clocked (s : State) : Bool :=
  match s.boot.stage with
  | .unpowered => false | .latched => false | .dark => false | .boot => false
  | .safe => s.boot.report.cause != 6
  | _ => true

/-- The time of a command.  Counter TIME (R475) advances once in 96 root cycles, nominally 10 ns. -/
def atTime (t : Nat) (s : State) : State :=
  let n := max s.now t
  { (if clocked s then countEv 0xEE8 (n / 10 - s.now / 10) s else s) with now := n }

/-! ### Host memory (R9, R417) -/

def hostByte (h : HostMem) (p : Port) (a : Nat) : Option Nat :=
  (alGet (match p with | .a => h.a | .b => h.b) a).map BitVec.toNat

/-- A read of `n` bytes of host memory: none when it fails. -/
def hostRead (h : HostMem) (p : Port) (a : Nat) : Nat → Option (List Nat)
  | 0 => some []
  | n + 1 =>
    match hostByte h p a, hostRead h p (a + 1) n with
    | some b, some t => some (b :: t)
    | _, _ => none

/-! ### Format events (R83, R84) and step marks -/

/-- Count per-layer format events in the PMC slots that count the layer (R475). -/
def countLayer (layer k n : Nat) (s : State) : State :=
  (List.range 16).foldl (fun t i =>
    let sl := smGet (0, false) s.layerSlots i
    if sl.2 && sl.1 == layer then countEv (0xE40 + 6 * i + k) n t else t) s

def fmtList (ev : FmtEv) : List (Fld × Nat × Nat) :=
  [(Reg.ENG_FMT_UNDERFLOW, 0, ev.underflow), (Reg.ENG_FMT_SAT, 1, ev.sat), (Reg.ENG_FMT_POISON, 2, ev.poison),
   (Reg.ENG_FMT_OUTLIER_OVF, 3, ev.outlierOvf), (Reg.ENG_FMT_CODE_INVALID, 4, ev.codeInvalid),
   (Reg.ENG_FMT_TRAP, 5, ev.trap)]

def inRerun (s : State) : Bool := match s.portion with | some p => p.rerun | none => false

def tallyAdd (l : List (Nat × FmtEv)) (layer : Nat) (ev : FmtEv) : List (Nat × FmtEv) :=
  alSet l layer (fmtEvAdd ((alGet l layer).getD {}) ev)

/-- R83: count the format events of one conversion; those of a recomputation are not counted again. -/
def countFmt (layer : Nat) (ev : FmtEv) (s : State) : State :=
  if inRerun s then s
  else
    let s1 := (fmtList ev).foldl (fun t x => countLayer layer x.2.1 x.2.2 (bump t x.1 x.2.2)) s
    { s1 with portion := s1.portion.map fun p => { p with tally := tallyAdd p.tally layer ev } }

/-- R107: discard the format events that the aborted attempt of a layer counted. -/
def discardFmt (layer : Nat) (s : State) : State :=
  match s.portion with
  | none => s
  | some p =>
    if p.rerun then s
    else
      let ev := (alGet p.tally layer).getD {}
      let s1 := (fmtList ev).foldl (fun t x =>
        let t1 := setF t x.1 (getF t x.1 - x.2.2)
        (List.range 16).foldl (fun u i =>
          let sl := smGet (0, false) s.layerSlots i
          if sl.2 && sl.1 == layer then pmcSub 4096 (0xE40 + 6 * i + x.2.1) (min x.2.2 (getF u (Reg.PMC_COUNTER (0xE40 + 6 * i + x.2.1)))) u else u) t1) s
      { s1 with portion := s1.portion.map fun p => { p with tally := smErase p.tally layer } }

/-- Record a local poison source of the running portion (R82, R211). -/
def addPoison (src : PoisonSrc) (s : State) : State :=
  { s with portion := s.portion.map fun p => { p with poison := src :: p.poison } }

/-- Record that the running portion recovered a detection (R207, R211). -/
def addRecovered (s : State) : State :=
  { s with portion := s.portion.map fun p => { p with recovered := true } }

/-- R206: the granules of a store that fail their check and are stored only in part. -/
def partFailing (s : State) (a n : Nat) : List Nat :=
  (granulesOf a n).filter fun g => marked s g && !(decide (a ≤ g * 64) && decide (g * 64 + 64 ≤ a + n))

/-- R206, R211: a store by a unit of the portion: a detection of it is a local poison source. -/
def storeLocal (s : State) (a : Nat) (bs : List Nat) : State :=
  (partFailing s a bs.length).foldl (fun t g => addPoison (.memory g) t) (putBytes s a bs)

/-- Store several runs of bytes of the portion. -/
def storeRuns (s : State) (l : List (Nat × List Nat)) : State := l.foldl (fun t p => storeLocal t p.1 p.2) s

/-- R208, R211, R218: failing granules of core SRAM that a unit reads as operands: each is counted, and they are local
poison sources of the portion. -/
def localDetect (gs : List Nat) (s : State) : State :=
  gs.foldl (fun t g => addPoison (.memory g) (bump t Reg.MEM_SRAM_DETECT 1)) s

/-- R112: the step has run an operation whose result may vary. -/
def markVary (s : State) : State :=
  { s with portion := s.portion.map fun p => { p with vary := true } }

/-- The step counter of the running portion. -/
def curStep (s : State) : Nat := match s.portion with | some p => p.hdr.step | none => 0

/-- The seed of a context's request (R80). -/
def ctxSeed (s : State) (ctx : Nat) : Nat := match alGet s.ctxs ctx with | some c => c.desc.seed | none => 0

/-- A draw for one element (R79, R80). -/
def drawFor (s : State) (ctx layer stream pos elem : Nat) : Nat :=
  draw (ctxSeed s ctx) (curStep s) layer stream pos elem

/-- The shape of every meaning: the next state. -/
abbrev Res := Host.Outcome State Fault Refusal

end Sys2Proof.Machine
end

