-- ==== Sys2Proof/Machine/Irq.lean ====
section
/-!
DEFINITION. Machine/Irq.lean: interrupt causes and vectors (R423, R434), alerts and ALERT_N (R430).
-/
namespace Sys2Proof.Machine

/-- The seven causes of HOST_IRQ_CAUSE, by bit (R434): 0 CPL, 1 RING, 2 CMD, 3 FAULT, 4 ALERT, 5 PEER, 6 CLK. -/
def causeFld : Nat → Fld
  | 0 => Reg.HOST_IRQ_CAUSE_CPL | 1 => Reg.HOST_IRQ_CAUSE_RING | 2 => Reg.HOST_IRQ_CAUSE_CMD
  | 3 => Reg.HOST_IRQ_CAUSE_FAULT | 4 => Reg.HOST_IRQ_CAUSE_ALERT | 5 => Reg.HOST_IRQ_CAUSE_PEER
  | _ => Reg.HOST_IRQ_CAUSE_CLK

def causeEn : Nat → Fld
  | 0 => Reg.HOST_IRQ_EN_CPL | 1 => Reg.HOST_IRQ_EN_RING | 2 => Reg.HOST_IRQ_EN_CMD
  | 3 => Reg.HOST_IRQ_EN_FAULT | 4 => Reg.HOST_IRQ_EN_ALERT | 5 => Reg.HOST_IRQ_EN_PEER
  | _ => Reg.HOST_IRQ_EN_CLK

def portUp (s : State) (p : Port) : Bool := getB s (match p with | .a => Reg.HOST_PORT_A_UP | .b => Reg.HOST_PORT_B_UP)

def holdoff (s : State) : Port → Bool
  | .a => s.holdoffA | .b => s.holdoffB
def setHoldoff (s : State) (p : Port) (b : Bool) : State :=
  match p with | .a => { s with holdoffA := b } | .b => { s with holdoffB := b }
def deferred (s : State) : Port → Bool
  | .a => s.deferA | .b => s.deferB
def setDeferred (s : State) (p : Port) (b : Bool) : State :=
  match p with | .a => { s with deferA := b } | .b => { s with deferB := b }

/-- R416, R418, R423: send vector `n` of PF0 through a port that is up; vector 0 waits out its holdoff. -/
def sendVector (p : Port) (n : Nat) (s : State) : State :=
  if !portUp s p || s.boot.stage == .safe then s
  else if n = 0 then
    if holdoff s p then setDeferred s p true
    else setHoldoff (emit s (.msix p 0)) p (decide (0 < getP s p Reg.HOST_IRQ_HOLDOFF_US))
  else emit s (.msix p n)

/-- R423: cause `n` of a port arises: its bit goes from 0 to 1, and its vector is sent where it is enabled. -/
def irq (p : Port) (n : Nat) (s : State) : State :=
  if getP s p (causeFld n) = 1 then s
  else
    let s1 := setP s p (causeFld n) 1
    if getP s p (causeEn n) = 1 then sendVector p n s1 else s1

def irqBoth (n : Nat) (s : State) : State := irq .b n (irq .a n s)

/-- R419, R423: PF1's vector; after the safe state is entered it stays disabled until the host enables it, which no row does. -/
def pf1Vector (p : Port) (s : State) : State := if portUp s p && s.boot.stage != .safe then emit s (.msixPf1 p) else s

/-- R430, R432, R434: a bit of HOST_ALERT sets: the ALERT cause of both ports, PF1's vector, and a platform event. -/
def alert (f : Fld) (s : State) : State :=
  if getB s f then s
  else emit (pf1Vector .b (pf1Vector .a (irqBoth 4 (setB s f true)))) (.mgmt 432 [f.lo])

/-- R408, R430: ALERT_N is asserted while any bit of HOST_ALERT is set, and by a rail latch-off. -/
def alertN (s : State) : Bool :=
  s.boot.stage == .latched || [Reg.HOST_ALERT_SHUTTER_STUCK, Reg.HOST_ALERT_TOGGLING, Reg.HOST_ALERT_PERST_STUCK, Reg.HOST_ALERT_LEAK,
   Reg.HOST_ALERT_THERMAL, Reg.HOST_ALERT_CAP_UNMET, Reg.HOST_ALERT_FABRIC, Reg.HOST_ALERT_FLASH,
   Reg.HOST_ALERT_SAFE_STATE].any (getB s)

end Sys2Proof.Machine
end

