-- ==== Sys2Proof/Machine/Ledger.lean ====
section
/-!
DEFINITION. Machine/Ledger.lean: appending records to the usage ledger (R471, R472).  A record's links and signature
(PREV, PREV_KEPT, SIGNATURE) follow from the records and the LEDGER key and are formed when it is read.
-/
namespace Sys2Proof.Machine

/-- R471: one record at the end of the ledger. -/
def ledgerPush (type : Nat) (body : List (Nat × Nat)) (s : State) : State :=
  { s with ledger := ⟨s.ledgerSeq, type, s.now / 1000000000, body⟩ :: s.ledger, ledgerSeq := s.ledgerSeq + 1 }

/-- R472: POWER and INTEGRITY records are the ones that are folded. -/
def foldable (r : LedgerRec) : Bool := r.type == 1 || r.type == 3

/-- The value of a field of a record's body. -/
def recField (r : LedgerRec) (k : Nat) : Nat := (r.body.getD k (0, 0)).2

/-- R472: the totals of a span's INTEGRITY records. -/
def foldTotals (l : List LedgerRec) : List (Nat × Nat) :=
  (List.range 8).map fun k => (64, ((l.filter fun r => r.type == 3).map fun r => recField r k).sum)

/-- R472: the SUMMARY record of the span whose folded records are `l`, oldest first. -/
def summaryBody (first last : Nat) (l : List LedgerRec) : List (Nat × Nat) :=
  let ps := l.filter fun r => r.type == 1
  [(64, first), (64, last), (32, l.length), (64, (ps.map fun r => recField r 0).sum), (64, 3600 * ps.length)] ++ foldTotals l

/-- R472: with the region 90 % full, the oldest span is folded: a SUMMARY record is written, and the POWER and INTEGRITY
records of the span go.  The span is the shortest that frees a quarter of the region; with no such span nothing is
folded. -/
def ledgerFold (s : State) : State :=
  if s.ledger.length < 235930 then s
  else
    let old := s.ledger.reverse
    let fs := (old.filter foldable).take 65536
    match old.head?, fs.getLast? with
    | some a, some z =>
      if fs.length < 65536 then s
      else
        let s1 := ledgerPush 0x0C (summaryBody a.seq z.seq fs) s
        { s1 with ledger := s1.ledger.filter fun r => !(foldable r && decide (r.seq ≤ z.seq)) }
    | _, _ => s

/-- R471: append one record, whole. -/
def ledgerAdd (type : Nat) (body : List (Nat × Nat)) (s : State) : State := ledgerFold (ledgerPush type body s)

def kindCode (rule place : Nat) : Nat := (Config.code rule place).toNat

/-- R472 FENCE: kind 0 pending, 1 shuttered, 2 restored (places in the rule's list), unit, cause. -/
def ledgerFence (kind unit cause : Nat) (s : State) : State :=
  ledgerAdd 0x04 [(8, kindCode 4720 kind), (8, unit), (8, kindCode 4721 cause)] s

/-- R472 VAULT: kind 0 RETIRE_PENDING, 1 retired, 2 restored. -/
def ledgerVault (kind vault : Nat) (s : State) : State := ledgerAdd 0x05 [(8, vault), (8, kindCode 4722 kind)] s

/-- R472 SECURITY: event 0 glitch trip, 1 debug unlock, 2 ownership change, 3 firmware activation. -/
def ledgerSecurity (event component version : Nat) (s : State) : State :=
  ledgerAdd 0x0A [(8, kindCode 4723 event), (8, component), (64, version)] s

/-- R472 LEASE: kind 0 authorised, 1 active, 2 ended. -/
def ledgerLease (lease kind step : Nat) (s : State) : State :=
  ledgerAdd 0x07 [(16, lease), (8, kindCode 4724 kind), (64, step)] s

end Sys2Proof.Machine
end

