-- ==== Sys2Proof/Machine/Distance.lean ====
section
/-!
DEFINITION. Machine/Distance.lean: routers and links as they are numbered (R24, R274), and the distance table in the device
range (R195, R197, R290, R291).
-/
namespace Sys2Proof.Machine

/-! ### Routers and links (R24, R274) -/

def routerId (h c r : Nat) : Nat := 104 * h + 13 * r + c
def routerHalf (x : Nat) : Nat := x / 104
def routerCol (x : Nat) : Nat := x % 104 % 13
def routerRow (x : Nat) : Nat := x % 104 / 13

/-- R25: the core of a router's stop; none at column 6. -/
def routerCore (x : Nat) : Option Nat :=
  if routerCol x = 6 then none
  else some (96 * routerHalf x + 12 * routerRow x + (if routerCol x < 6 then routerCol x else routerCol x - 1))

def coreRouter (c : Nat) : Nat := routerId (c / 96) (coreCol c) (coreRow c)

/-- R274: the router and port at the far end of a link. -/
def linkFar (x port : Nat) : Option (Nat × Nat) :=
  match port with
  | 1 => if 0 < routerRow x then some (x - 13, 3) else none
  | 2 => if routerCol x < 12 then some (x + 1, 4) else if x < 104 then some (x + 92, 4) else none
  | 3 => if routerRow x < 7 then some (x + 13, 1) else none
  | 4 => if 0 < routerCol x then some (x - 1, 2) else if 104 ≤ x then some (x - 92, 2) else none
  | _ => none

/-- A link has one key, that of the lower of its two ends. -/
def linkKey (x port : Nat) : Nat :=
  match linkFar x port with
  | some (y, q) => min (8 * x + port) (8 * y + q)
  | none => 8 * x + port

def routerShut (s : State) (x : Nat) : Bool := getBit s (Reg.NOC_ROUTER_SHUT (x / 32)) (x % 32)

/-! ### The distance table without detours (R195, R197) -/

/-- R195: column and row of a vault's mesh port within its half. -/
def vaultPort (v : Nat) : Nat × Nat :=
  ((match v % 4 with | 0 => 1 | 1 => 4 | 2 => 8 | _ => 11), (match v % 16 / 4 with | 0 => 1 | 1 => 3 | 2 => 4 | _ => 6))

def absDiff (a b : Nat) : Nat := if a ≤ b then b - a else a - b

/-- R197: hops with no detour in force. -/
def distHops (c v : Nat) : Nat :=
  absDiff (13 * (c / 96) + coreCol c) (13 * (v / 16) + (vaultPort v).1) + absDiff (coreRow c) (vaultPort v).2

/-- R197: the 32-bit entry of core c and vault v; `extra` is the hops a detour adds. -/
def distEntry (s : State) (extra c v : Nat) : Nat :=
  if coreFenced s c ∨ vaultRetired s v then 0x3F + 0xFFFF * 2 ^ 16
  else if homeVault c = v then 128 + 62 * 2 ^ 16
  else
    let hops := distHops c v + extra
    let seam := if c / 96 = v / 16 then 0 else 1
    hops + 64 * seam + (95 * 100 + 104 * hops + 1400 * seam + 50) / 100 * 2 ^ 16

/-! ### The distance table with detours (R197, R290, R291) -/

def globalRouter (x y : Nat) : Nat := routerId (x / 13) (x % 13) y

/-- The points strictly between two, and the links from the lower to the higher. -/
def between (a b : Nat) : List Nat := (List.range (absDiff a b - 1)).map (· + min a b + 1)
def spans (a b : Nat) : List Nat := (List.range (absDiff a b)).map (· + min a b)

/-- R290: the mesh port that a vault uses. -/
def portInUse (s : State) (v : Nat) : Nat × Nat :=
  let p := vaultPort v
  if routerShut s (routerId (v / 16) p.1 p.2) then
    ((match v % 4 with | 0 => 2 | 1 => 5 | 2 => 7 | _ => 10), p.2)
  else p

/-- R291: a straight run that meets an obstacle is moved aside once, for two hops. -/
def extraHops (s : State) (x0 y0 x1 y1 : Nat) : Nat :=
  let rs := s.mesh.detoured.1
  let ls := s.mesh.detoured.2
  let row := (between x0 x1).any (fun x => rs.contains (globalRouter x y0)) ||
    (spans x0 x1).any (fun x => ls.contains (linkKey (globalRouter x y0) 2))
  let col := (between y0 y1).any (fun y => rs.contains (globalRouter x1 y)) ||
    (spans y0 y1).any (fun y => ls.contains (linkKey (globalRouter x1 y) 3))
  (if row then 2 else 0) + (if col then 2 else 0)

/-- R197: the entry of core `c` and vault `v` as control firmware has written it. -/
def distWord (s : State) (c v : Nat) : Nat :=
  let p := portInUse s v
  let x0 := 13 * (c / 96) + coreCol c
  let x1 := 13 * (v / 16) + p.1
  let hops := absDiff x0 x1 + absDiff (coreRow c) p.2 + extraHops s x0 (coreRow c) x1 p.2
  if coreFenced s c ∨ vaultRetired s v ∨ homeVault c = v then distEntry s 0 c v
  else
    let seam := if c / 96 = v / 16 then 0 else 1
    hops % 64 + 64 * seam + (95 * 100 + 104 * hops + 1400 * seam + 50) / 100 * 2 ^ 16

/-- R197: the 24 KiB of the table, entry by entry. -/
def distTable (s : State) : List Nat :=
  (List.range 192).flatMap fun c => (List.range 32).flatMap fun v => leBytes 4 (distWord s c v)

/-- R197: control firmware writes the table at MEM_DIST_BASE, where the device range takes it. -/
def writeDist (s : State) : State :=
  let a := getF s Reg.MEM_DIST_BASE
  if devWriteOk s a 24576 then putBlock s a (distTable s) else s

/-- R197: a rewrite of the distance table after step 5 of R460 moves MEM_DIST_SEQ by two. -/
def distRewrite (s : State) : State :=
  if s.ready then writeDist (setF s Reg.MEM_DIST_SEQ (getF s Reg.MEM_DIST_SEQ + 2)) else s

end Sys2Proof.Machine
end

