-- ==== Sys2Proof/Machine/Rating.lean ====
section
/-!
DEFINITION. Machine/Rating.lean: what the module reports of its live resources (R43, R45, R46), and taking cores and vaults
out of service (R216, R288).
-/
namespace Sys2Proof.Machine

def liveCores (s : State) : List Nat := (List.range 192).filter fun c => !coreFenced s c
def liveVaults (s : State) : List Nat := (List.range 32).filter fun v => !vaultRetired s v

/-- R43, R45: PEAK_W2 in units of 0.01 P-ops/s, rounded down. -/
def peakW2 (live : Nat) : Nat := live * 16384 * 2 * 2400000000 / 10000000000000

/-- R43: the aggregate home-vault bandwidth in GB/s. -/
def homeBw (s : State) : Nat := 250 * ((liveCores s).filter fun c => !vaultRetired s (homeVault c)).length

/-- R43, R45: the fields that follow from the fenced cores and retired vaults. -/
def rate (s : State) : State :=
  let cs := (liveCores s).length
  let vs := (liveVaults s).length
  setF (setF (setF (setF (setF s Reg.ID_RESOURCES_CORES_LIVE cs) Reg.ID_RESOURCES_VAULTS_LIVE vs)
    Reg.ID_RATING_PEAK_W2 (peakW2 cs)) Reg.ID_RATING_DRAM_GIB (8 * vs)) Reg.ID_HOME_BW_HOME_BW_GBS (homeBw s)

/-- R46: a change made after step 5 of R460 moves ID_CONFIG_SEQ by one before it and by one after it. -/
def configChange (f : State → State) (s : State) : State :=
  if s.ready then
    let s1 := f (setF s Reg.ID_CONFIG_SEQ (getF s Reg.ID_CONFIG_SEQ + 1))
    setF s1 Reg.ID_CONFIG_SEQ (getF s1 Reg.ID_CONFIG_SEQ + 1)
  else f s

/-- R463: add a unit to a list it is not on. -/
def listAdd (l : List Nat) (x : Nat) : List Nat := if l.contains x then l else l ++ [x]

/-- Shutter a core (R288): its fence bit, the rating, its distance entries, the fence list; it is no longer FENCE_PENDING. -/
def shutterCore (c cause : Nat) (s : State) : State :=
  if coreFenced s c then s
  else
    let s1 := configChange (fun t => rate (setBit t (Reg.ID_FENCED_CORES (c / 32)) (c % 32) true)) s
    let s2 := setBit s1 (Reg.NOC_FENCE_PENDING (c / 32)) (c % 32) false
    let s3 := { s2 with cores := smErase s2.cores c, sec.ks.fenceCores := listAdd s2.sec.ks.fenceCores c }
    ledgerFence 1 c cause (distRewrite s3)

def vaultState (v : Nat) : Fld := if v < 16 then Reg.MEM_VAULT_STATE_LO_VAULT v else Reg.MEM_VAULT_STATE_HI_VAULT (v - 16)

/-- Retire a vault (R216). -/
def retireVault (v : Nat) (s : State) : State :=
  if vaultRetired s v then s
  else
    let s1 := configChange (fun t => rate (setBit t Reg.ID_RETIRED_VAULTS v true)) (setF s (vaultState v) 2)
    ledgerVault 1 v (distRewrite { s1 with sec.ks.fenceVaults := listAdd s1.sec.ks.fenceVaults v })

/-- R355: a vault is mapped when some group lists it or the vault map places anything in it. -/
def regionVaults (r : Region) : List Nat :=
  if r.len = 0 then [] else (List.range 32).filter fun v => decide (r.base / 2 ^ 33 ≤ v) && decide (v ≤ (r.base + r.len - 1) / 2 ^ 33)

def vmapRegions (m : VaultMap) (pages : Nat) : List Region :=
  m.scratch ++ [m.ctxRegion, m.saveArea, m.frames, ⟨m.poolBase, pages * m.pageBytes⟩] ++ m.capture.toList

def mappedVaults (i : ImageDesc) : List Nat :=
  i.groups.flatMap (fun g => g.vaults) ++ (vmapRegions i.vmap i.serving.kvPoolPages).flatMap regionVaults

def mappedCores (i : ImageDesc) : List Nat := i.groups.flatMap fun g => g.cores

def isMappedVault (s : State) (v : Nat) : Bool := match s.img with | some i => (mappedVaults i).contains v | none => false
def isMappedCore (s : State) (c : Nat) : Bool := match s.img with | some i => (mappedCores i).contains c | none => false

/-- R216, R288, R363: pending cores and vaults that nothing maps leave service. -/
def applyPending (s : State) : State :=
  let s1 := (List.range 192).foldl (fun t c =>
    if getBit t (Reg.NOC_FENCE_PENDING (c / 32)) (c % 32) && !isMappedCore t c then shutterCore c 0 t else t) s
  (List.range 32).foldl (fun t v =>
    if getF t (vaultState v) == 1 && !isMappedVault t v then retireVault v t else t) s1

end Sys2Proof.Machine
end

