-- ==== Sys2Proof/Machine/Rings.lean ====
section
/-!
DEFINITION. Machine/Rings.lean: the Aster counter ring, the step journal and the sample ring, operated alike (R164,
R343, R486).
-/
namespace Sys2Proof.Machine

/-- The registers of one ring, and its number in the model. -/
structure Ring where
  num : Nat
  baseLo : Fld
  baseHi : Fld
  size : Fld
  en : Fld
  enabled : Fld
  head : Fld
  tail : Fld
  drop : Fld
deriving DecidableEq, Repr

def asterRing : Ring := ⟨0, Reg.ENG_ASTER_RING_BASE_LO, Reg.ENG_ASTER_RING_BASE_HI, Reg.ENG_ASTER_RING_SIZE,
  Reg.ENG_ASTER_RING_CTL_EN, Reg.ENG_ASTER_RING_CTL_ENABLED, Reg.ENG_ASTER_RING_HEAD, Reg.ENG_ASTER_RING_TAIL,
  Reg.ENG_ASTER_RING_DROP⟩
def journalRing : Ring := ⟨1, Reg.CTX_JRNL_BASE_LO, Reg.CTX_JRNL_BASE_HI, Reg.CTX_JRNL_SIZE, Reg.CTX_JRNL_CTL_EN,
  Reg.CTX_JRNL_CTL_ENABLED, Reg.CTX_JRNL_HEAD, Reg.CTX_JRNL_TAIL, Reg.CTX_JRNL_DROP⟩
def sampleRing : Ring := ⟨2, Reg.PMC_SMP_BASE_LO, Reg.PMC_SMP_BASE_HI, Reg.PMC_SMP_SIZE, Reg.PMC_SMP_RING_CTL_EN,
  Reg.PMC_SMP_RING_CTL_ENABLED, Reg.PMC_SMP_HEAD, Reg.PMC_SMP_TAIL, Reg.PMC_SMP_DROP⟩

def ringBase (s : State) (r : Ring) : Nat := getF s r.baseLo * 2 ^ 16 + getF s r.baseHi * 2 ^ 32
def ringBytes (s : State) (r : Ring) : Nat := getF s r.size * 65536
def ringOffsets (s : State) (r : Ring) : List Nat := smGet [] s.ringRecs r.num
def setRingOffsets (s : State) (r : Ring) (l : List Nat) : State := { s with ringRecs := smSet [] s.ringRecs r.num l }

/-- Write bytes where the device range takes them (R192). -/
def putDev (s : State) (a : Nat) (bs : List Nat) : State := if devWriteOk s a bs.length then putBytes s a bs else s

/-- The padding record of R162: LAYER 0xFFFF at bytes 9:8 and its length at RECORD_BYTES. -/
def padRecord (len : Nat) : List Nat :=
  (List.replicate 8 0 ++ [0xFF, 0xFF] ++ List.replicate 30 0 ++ leBytes 4 len ++ List.replicate 20 0)

/-- The padding record of R342: REQUESTS 0xFFFF at bytes 15:14 and its length at RECORD_BYTES. -/
def padJournal (len : Nat) : List Nat := List.replicate 14 0 ++ [0xFF, 0xFF] ++ List.replicate 4 0 ++ leBytes 4 len ++ List.replicate 40 0

/-- R164, R343: write one record, preceded by a padding record where it would cross the end; a record that does not leave at
least 64 bytes free is discarded and counted. -/
def ringPut (r : Ring) (bs : List Nat) (s : State) : State :=
  if !getB s r.enabled then s
  else
    let size := ringBytes s r
    let head := getF s r.head
    let used := (head + size - getF s r.tail) % size
    let pad := if head + bs.length ≤ size then 0 else size - head
    if used + pad + bs.length + 64 ≤ size then
      let s1 := if pad = 0 then s else putDev s (ringBase s r + head) (if r.num = 1 then padJournal pad else padRecord pad)
      let at0 := if pad = 0 then head else 0
      let s2 := putDev s1 (ringBase s r + at0) bs
      let offs := ringOffsets s r ++ (if pad = 0 then [head] else [head, 0])
      let s3 := setRingOffsets (setF s2 r.head ((at0 + bs.length) % size)) r offs
      if r.num = 2 then s3 else irqBoth 1 s3
    else bump s r.drop 1

/-- R164: a transition of EN from 0 to 1 sets HEAD and TAIL to 0; records are written while EN and a size are set. -/
def ringEnable (r : Ring) (en : Bool) (s : State) : State :=
  let was := getB s r.en
  let s1 := setB s r.en en
  let s2 := if en && !was then setRingOffsets (setF (setF s1 r.head 0) r.tail 0) r [] else s1
  setB s2 r.enabled (en && decide (0 < getF s r.size))

/-- R164: a write of TAIL, discarded unless it is a multiple of 64 on a record boundary between TAIL and HEAD. -/
def ringTail (r : Ring) (v : Nat) (s : State) : State :=
  let offs := ringOffsets s r
  if v % 64 = 0 ∧ (v = getF s r.head ∨ v ∈ offs) then
    setRingOffsets (setF s r.tail v) r (if v = getF s r.head then [] else offs.dropWhile (· != v))
  else s

end Sys2Proof.Machine
end

