-- ==== Sys2Proof/Machine/Experts.lean ====
section
/-!
DEFINITION. Machine/Experts.lean: the residency of experts, their fetches, their victims and the holds that steps keep on
them (R157 to R161, R199).
-/
namespace Sys2Proof.Machine

def setExtent (s : State) (x : Nat) (e : Extent) : State := { s with extents := alSet s.extents x e }

/-- R199: a demotion marks the extent FLASH at once; its frame is freed when the reads directed to it have completed. -/
def demote (x : Nat) (s : State) : State :=
  match alGet s.extents x with
  | some e => setExtent s x { e with state := .flash, draining := true }
  | none => s

def genSlot (s : State) : Nat := match s.portion with | some p => p.hdr.gen | none => 0

def expertIs (slot layer e : Nat) (x : ExpertSt) : Bool := x.slot == slot && x.layer == layer && x.expert == e

def expertRes (s : State) (slot layer e : Nat) : Residency :=
  match s.experts.find? (expertIs slot layer e) with | some x => x.res | none => .dram

/-- R161: experts in DRAM or on the way there, in extents, against the budget of EXPERT frames. -/
def expertFramesUsed (s : State) : Nat := ((s.experts.filter fun x => x.res != .flash && !x.pinned).map fun x => x.extents.length).sum

def expertBudget (s : State) : Nat := match s.img with | some i => i.vmap.expertFrames | none => 0

/-- R161: v before w as a victim: lower H, then higher layer, then higher expert. -/
def victimBefore (v w : ExpertSt) : Bool :=
  decide (v.heat < w.heat) || (v.heat == w.heat && (decide (w.layer < v.layer) || (v.layer == w.layer && decide (w.expert < v.expert))))

/-- R157, R161: the victim: in DRAM, not pinned, not held. -/
def victim (s : State) (slot : Nat) : Option ExpertSt :=
  (sortBy victimBefore (s.experts.filter fun x => x.slot == slot && x.res == .dram && !x.pinned && x.held.isEmpty)).head?

def setExpert (x y : ExpertSt) (s : State) : State :=
  { s with experts := s.experts.map fun z => if z.slot = x.slot ∧ z.layer = x.layer ∧ z.expert = x.expert then y else z }

/-- R157: a fetch starts: the expert and its extents are FETCHING. -/
def startFetch (x : ExpertSt) (s : State) : State :=
  let s1 := setExpert x { x with res := .fetching, wait := false } s
  { s1 with extents := s1.extents.map fun p =>
      if x.extents.contains p.1 && p.2.state == .flash then (p.1, { p.2 with state := .fetching }) else p }

/-- R157, R199: demotion of an expert. -/
def demoteExpert (x : ExpertSt) (s : State) : State :=
  x.extents.foldl (fun t e => demote e t) (setExpert x { x with res := .flash } s)

/-- R161: a fetch that an assignment or a snapshot asks for: within the budget, or in a victim's place; else it waits. -/
def requestFetch (slot layer : Nat) (s : State) (e : Nat) : State :=
  match s.experts.find? (expertIs slot layer e) with
  | none => s
  | some x =>
    if x.res ≠ .flash then s
    else if expertFramesUsed s + x.extents.length ≤ expertBudget s then startFetch x s
    else match victim s slot with
      | some v => startFetch x (demoteExpert v s)
      | none => setExpert x { x with wait := true } s

/-- R161: a step has released experts: the fetches that wait for a victim are asked for again. -/
def serveWaiting (s : State) : State :=
  (s.experts.filter fun x => x.wait).foldl (fun t x => requestFetch x.slot x.layer t x.expert) s

/-- R157: a step no longer holds the experts that `of` picks. -/
def releaseHeld (step : Nat) (of : ExpertSt → Bool) (s : State) : State :=
  { s with experts := s.experts.map fun e => if of e then { e with held := e.held.filter (· != step) } else e }

/-- R157, R161: a step has completed every layer, or is discarded. -/
def releaseStepHolds (step : Nat) (s : State) : State := serveWaiting (releaseHeld step (fun _ => true) s)

end Sys2Proof.Machine
end

