-- ==== Sys2Proof/Machine/Sequencer.lean ====
section
/-!
DEFINITION. Machine/Sequencer.lean: issue, stalls, completion and sampling of a core's instructions (R108 to R113, R483
to R486), the outlier trap (R106, R107), pre-emption at cheap points, and the control and wait operations.
-/
namespace Sys2Proof.Machine

/-- R109: the depth of each unit's queue. -/
def unitDepth : XUnit → Nat
  | .mx => 4 | .vu => 8 | .mov => 32 | .mem => 32 | .eng => 16

def outstanding (k : CoreSt) (u : XUnit) : Nat := (k.outst.filter fun o => o.unit == u).length

/-- R109: the FAMILY of an operation and its place in the family's list. -/
structure OpId where
  family : Nat
  place : Nat
  engine : Nat := 7
deriving DecidableEq, Repr

/-! ### Sample records (R485) -/

def tagRecord (c : Nat) (t : Tag) (aborted : Bool) (latency skipped time : Nat) : List Nat :=
  leBytes 8 t.step ++ leBytes 2 t.layer ++ [c, t.family + 8 * t.oper,
    t.engine + 8 * b2n t.vary + 16 * b2n t.cheap + 32 * b2n aborted + 64 * b2n t.rerun, t.stall, 0, 0] ++
  leBytes 4 t.index ++ leBytes 4 (min t.delay 0xFFFFFFFF) ++
  leBytes 4 (if aborted then 0xFFFFFFFF else min latency 0xFFFFFFFF) ++ leBytes 4 skipped ++
  leBytes 8 time ++ List.replicate 24 0

/-- R484, R485: the core's tagged instruction completes or is discarded: it writes its sample record. -/
def writeSample (c : Nat) (aborted : Bool) (latency : Nat) (s : State) : State :=
  let k := coreGet s c
  match k.tag with
  | none => s
  | some t =>
    ringPut sampleRing (tagRecord c t aborted latency k.skipped (getF s (Reg.PMC_COUNTER 0xEE8)))
      (coreSet s c { k with tag := none, skipped := 0 })

/-- R108, R310: the OPER code of an operation: stated for the remote operations of the MEM family, free for the rest. -/
def operCode (o : OpId) : Nat := if o.family = 5 ∧ 16 ≤ o.place then o.place else (Config.oper o.family o.place).toNat

def sampled (s : State) (c : Nat) : Bool :=
  getB s Reg.PMC_SMP_CTL_EN && getBit s (Reg.PMC_SMP_CORES (c / 32)) (c % 32)

/-- R484: a sampled core counts the instruction it issues, and tags it when the count reaches N. -/
def sampleIssue (i : Ins) (o : OpId) (layerField : Bool) (stall : Nat) (s : State) : State :=
  if !sampled s i.core then s
  else
    let k := coreGet s i.core
    if k.smpCount + 1 < getF s Reg.PMC_SMP_CTL_N then coreSet s i.core { k with smpCount := k.smpCount + 1 }
    else match k.tag with
      | some _ => countEv 0xEEF 1 (coreSet s i.core { k with smpCount := 0, skipped := k.skipped + 1 })
      | none =>
        let g : Tag := ⟨curStep s, if layerField then i.layer else 0xFFFF, o.family,
          operCode o, o.engine, i.vary, i.cheap, false, stall, i.index, i.delay⟩
        coreSet s i.core { k with smpCount := 0, tag := some g }

/-! ### Issue (R108, R110, R113, R483) -/

/-- Why an instruction does not issue in this slot: 1 queue full, 5 pre-emption, 6 trap drain (R485). -/
def stallCause (i : Ins) (u : Option XUnit) (s : State) : Option Nat :=
  let k := coreGet s i.core
  match k.stop with
  | .trapped _ => some 6
  | .preempted _ _ => some 5
  | .run =>
    if k.preempt && i.cheap then some 5
    else match u with
      | none => none
      | some x => if unitDepth x ≤ outstanding k x then some 1 else none

/-- A slot in which nothing issues: BACK for a full queue, an unmet WAIT or BARRIER, FRONT otherwise (R483). -/
def stalled (c cause : Nat) (s : State) : State :=
  let k := coreGet s c
  countSlot c (if cause = 1 ∨ cause = 2 ∨ cause = 3 then 3 else 2) (coreSet s c { k with stall := cause })

/-- An instruction issues: the slot is RETIRED, fetch goes on behind it, it is outstanding on its unit, and a VARY
instruction marks the step (R112). -/
def issued (i : Ins) (u : Option XUnit) (o : OpId) (layerField : Bool) (s : State) : State :=
  let k := coreGet s i.core
  let k1 := { k with nextIndex := i.index + 1, stall := 0,
                     outst := match u with | some x => k.outst ++ [⟨x, i.index⟩] | none => k.outst }
  let s1 := sampleIssue i o layerField k.stall (countSlot i.core 0 (coreSet s i.core k1))
  let s2 := if i.vary then markVary s1 else s1
  match u with
  | some _ => s2
  | none => if (coreGet s2 i.core).tag.any (fun t => t.index == i.index && t.family == o.family)
            then writeSample i.core false 0 s2 else s2

/-- Present an instruction to the sequencer: it issues and takes effect, or the slot is stalled.  A shuttered core
issues nothing (R197, R287). -/
def issueWith (i : Ins) (u : Option XUnit) (o : OpId) (layerField : Bool) (eff : State → State) (s : State) : State :=
  if coreFenced s i.core || !stageAlive s then s
  else match stallCause i u s with
    | some c => stalled i.core c s
    | none => eff (issued i u o layerField s)

def removeFirst (p : OutIns → Bool) : List OutIns → List OutIns
  | [] => []
  | x :: t => if p x then t else x :: removeFirst p t

/-- An outstanding instruction completes (R110); a tagged one writes its record. -/
def complete (c : Nat) (u : XUnit) (index latency : Nat) (s : State) : State :=
  let k := coreGet s c
  if k.outst.contains ⟨u, index⟩ then
    let s1 := coreSet s c { k with outst := removeFirst (fun o => o == ⟨u, index⟩) k.outst }
    if k.tag.any (fun t => t.index == index) then writeSample c false latency s1 else s1
  else s

/-! ### Outlier traps (R106, R107) -/

/-- The layer's attempt on this core has been aborted by a trap and its fallback has not begun. -/
def abortedAttempt (s : State) (c layer : Nat) : Bool :=
  match s.portion with
  | some p => p.trapped.contains layer && !(coreGet s c).inFallback.contains layer
  | none => false

/-- R114: ENG_MX_LAST_FAULT records an event; a change of it is a FAULT cause of both ports (R434). -/
def lastFault (c cause layer : Nat) (s : State) : State :=
  irqBoth 3 (setF (setF (setF s Reg.ENG_MX_LAST_FAULT_CORE_ID c) Reg.ENG_MX_LAST_FAULT_CAUSE cause) Reg.ENG_MX_LAST_FAULT_LAYER layer)

/-- R106, R107: a conversion of a layer raises an outlier trap.  The layer's fallback counts one TRAP event, the format
events of the aborted attempt are discarded, and trap messages go to the cores that run the layer. -/
def raiseTrap (c layer : Nat) (s : State) : State :=
  let first := match s.portion with | some p => !p.trapped.contains layer | none => true
  let s1 := if first then countFmt layer { trap := 1 } (discardFmt layer s) else s
  let s2 := { s1 with portion := s1.portion.map fun p => if p.trapped.contains layer then p else { p with trapped := layer :: p.trapped } }
  emit (lastFault c 4 layer s2) (.trapMsg layer)

def dropCoreCmds (c : Nat) (p : Nat → Bool) (q : List (Nat × List EngCmd)) : List (Nat × List EngCmd) :=
  q.map fun x => (x.1, x.2.filter fun e => !(e.src == c && p e.index))

def dropCoreDescs (c : Nat) (p : Nat → Bool) (q : List (Nat × List SashEnt)) : List (Nat × List SashEnt) :=
  q.map fun x => (x.1, x.2.filter fun e => !(e.src == c && p e.index))

/-- Discard the instructions of a core that have not completed and whose index `p` names (R106, R324): their slots become
WASTED, a tagged one writes its record as ABORTED. -/
def discardIns (c : Nat) (p : Nat → Bool) (s : State) : State :=
  let k := coreGet s c
  let gone := k.outst.filter fun o => p o.index
  let k1 := { k with outst := k.outst.filter fun o => !p o.index,
                     mxq := k.mxq.filter fun x => match x with | .pass q => !p q.index | .acc j _ => !p j }
  let s1 := wasteSlots c gone.length (coreSet s c k1)
  let s2 := { s1 with engQ := (dropCoreCmds c p s1.engQ).filter (fun q => !q.2.isEmpty),
                      sashQ := (dropCoreDescs c p s1.sashQ).filter (fun q => !q.2.isEmpty),
                      fab.ops := s1.fab.ops.map fun (o : FabOp) =>
                        if o.core == c && p o.index && !o.done then { o with done := true, size := 0 } else o,
                      fab.fences := s1.fab.fences.filter fun f => !(f.core == c && p f.index) }
  if gone.any (fun o => k.tag.any fun t => t.index == o.index) then writeSample c true 0 s2 else s2

/-- Discard every instruction of a core that has not completed. -/
def discardCore (c : Nat) (s : State) : State := discardIns c (fun _ => true) s

/-- R106: the image's list gives the layer of each instruction; one that it does not give belongs to the layer. -/
def ofLayer (s : State) (c layer index : Nat) : Bool :=
  match s.img with
  | none => true
  | some im =>
    match im.instrs.find? fun x => x.core == c && x.index == index with
    | some x => x.layer == layer
    | none => true

/-- R106: the core stops issuing, discards the layer's instructions not yet completed, and drains. -/
def execTrapMessage (core : Fin 192) (layer : Nat) (s : State) : Res :=
  .next (if coreFenced s core ∨ (coreGet s core).inFallback.contains layer then s
    else
      let s1 := discardIns core (ofLayer s core layer) s
      coreSet s1 core { coreGet s1 core with stop := .trapped layer, stall := 6 })

/-- R106: the drained core resumes at the layer's FALLBACK_ENTRY, whose index the image gives. -/
def execTrapDrainDone (core : Fin 192) (entry : Nat) (s : State) : Res :=
  .next (match (coreGet s core).stop with
    | .trapped layer =>
      if (coreGet s core).outst.isEmpty then
        coreSet s core { coreGet s core with stop := .run, nextIndex := entry, inFallback := layer :: (coreGet s core).inFallback }
      else s
    | _ => s)

/-! ### Control operations (R109) -/

/-- The sequencer issues a NOP. -/
def execNop (i : Ins) (s : State) : Res := .next (issueWith i none ⟨0, 0, 7⟩ false id s)

/-- A LOOP issues and redirects fetch to the start of its body while it is taken. -/
def execLoop (i : Ins) (target : Nat) (taken : Bool) (s : State) : Res :=
  .next (issueWith i none ⟨0, 1, 7⟩ false
    (fun t => if taken then coreSet t i.core { coreGet t i.core with nextIndex := target } else t) s)

/-- A BRANCH on a step parameter issues and redirects fetch when it is taken. -/
def execBranch (i : Ins) (target : Nat) (taken : Bool) (s : State) : Res :=
  .next (issueWith i none ⟨0, 2, 7⟩ false
    (fun t => if taken then coreSet t i.core { coreGet t i.core with nextIndex := target } else t) s)

/-- The sequencer reaches a FALLBACK_ENTRY: it issues and has no other effect. -/
def execFallbackEntry (i : Ins) (s : State) : Res := .next (issueWith i none ⟨0, 3, 7⟩ false id s)

/-- The cores of the image's group that holds a core. -/
def groupOf (s : State) (c : Nat) : Option ImgGroup :=
  match s.img with
  | some im => im.groups.find? fun g => g.cores.contains c
  | none => none

/-- Cores that have reached a meeting point. -/
def reached (s : State) (k : Nat) : List Nat := smGet [] s.barriers k
def setReached (s : State) (k : Nat) (l : List Nat) : State := { s with barriers := smSet [] s.barriers k l }

/-- R157, R161: the step has completed a layer: it holds no expert of the layer any longer. -/
def releaseLayer (layer : Nat) (s : State) : State :=
  serveWaiting (releaseHeld (curStep s) (fun e => e.layer == layer) s)

/-- END_LAYER closes the layer on the core; with the last core of its group the step has completed the layer. -/
def endLayer (c layer : Nat) (s : State) : State :=
  let s1 := coreSet s c { coreGet s c with inFallback := (coreGet s c).inFallback.filter (· != layer) }
  match groupOf s c with
  | none => s1
  | some g =>
    let r := c :: reached s1 (1000 + layer)
    if g.cores.all fun x => r.contains x || coreFenced s x then releaseLayer layer (setReached s1 (1000 + layer) [])
    else setReached s1 (1000 + layer) r

def execEndLayer (i : Ins) (s : State) : Res := .next (issueWith i none ⟨0, 4, 7⟩ false (endLayer i.core i.layer) s)

/-- END_STEP closes the core's part of the portion. -/
def execEndStep (i : Ins) (s : State) : Res :=
  .next (issueWith i none ⟨0, 5, 7⟩ false
    (fun t => if (reached t 100000).contains i.core then t else setReached t 100000 (i.core.val :: reached t 100000)) s)

/-! ### WAIT and BARRIER (R109, R110) -/

def waitMet (k : CoreSt) (units count : Nat) : Bool :=
  [XUnit.mx, .vu, .mov, .mem, .eng].all fun u => !bit units (unitNum u) || decide (outstanding k u ≤ count)

/-- WAIT issues once every named unit has at most COUNT outstanding instructions; until then the slot is BACK. -/
def execWait (i : Ins) (units count : Nat) (s : State) : Res :=
  if 32 ≤ units ∨ 32 < count then .refused (.notLoadable "WAIT")
  else .next (
    if (stallCause i none s).isNone && !coreFenced s i.core && !waitMet (coreGet s i.core) units count then stalled i.core 2 s
    else issueWith i none ⟨7, 0, 7⟩ false id s)

/-- BARRIER issues on each core of a group once every core of the group has reached it. -/
def execBarrier (i : Ins) (s : State) : Res :=
  .next (
    if (stallCause i none s).isSome || coreFenced s i.core then issueWith i none ⟨7, 1, 7⟩ false id s
    else match groupOf s i.core with
      | none => issueWith i none ⟨7, 1, 7⟩ false id s
      | some g =>
        let rel := reached s (2 * g.idx + 1)
        let arr := i.core.val :: (reached s (2 * g.idx)).filter (· != i.core.val)
        if rel.contains i.core.val then
          issueWith i none ⟨7, 1, 7⟩ false id (setReached s (2 * g.idx + 1) (rel.filter (· != i.core.val)))
        else if g.cores.all fun x => arr.contains x || coreFenced s x then
          issueWith i none ⟨7, 1, 7⟩ false id
            (setReached (setReached s (2 * g.idx) []) (2 * g.idx + 1)
              (g.cores.filter fun x => x != i.core.val && !coreFenced s x))
        else stalled i.core 3 (setReached s (2 * g.idx) arr))

/-- R110: an outstanding instruction that is no pass and waits for no engine or descriptor completes. -/
def execInstructionComplete (core : Fin 192) (unit : XUnit) (index latency : Nat) (s : State) : Res :=
  let k := coreGet s core
  let isPass := k.mxq.any fun x => match x with | .pass p => p.index == index | .acc j _ => j == index
  let waits := (unit == .mx && isPass) ||
    (unit == .eng && s.engQ.any fun q => q.2.any fun e => e.src == core.val && e.index == index) ||
    (unit == .mov && s.sashQ.any fun q => q.2.any fun e => e.src == core.val && e.index == index) ||
    (unit == .mem && ((s.fab.ops.any fun o => o.core == core.val && o.index == index && !o.done) ||
      s.fab.fences.any fun f => f.core == core.val && f.index == index))
  .next (if waits then s else complete core unit index latency s)

/-! ### Pre-emption (R113, R262) -/

/-- R256, R262: an LC step waits to run: at the entry module LC candidates are ready; elsewhere the input hold of an LC
step is complete. -/
def lcWaiting (s : State) : Bool :=
  s.inbox.any (fun h => !h.be) ||
  (getB s Reg.MEM_GEN_STATE_ENTRY && (s.ctl.lcReady || s.ctxs.any fun c => c.2.st == .ready && c.2.desc.auto && !c.2.desc.be))

/-- R262: pre-emption is enabled, a portion of a BE step runs, the module holds no suspended portion, and an LC step
waits. -/
def preemptOk (s : State) : Bool :=
  getB s Reg.CTX_POLICY_PREEMPT_EN && s.suspended.isNone && lcWaiting s &&
  (match s.portion with | some p => p.hdr.be && !p.ended | none => false)

/-- R113, R262: control firmware posts a pre-emption to the cores of a running BE portion. -/
def execPreemptionPost (cores : List (Fin 192)) (s : State) : Res :=
  .next (if preemptOk s then
    cores.foldl (fun (t : State) (c : Fin 192) => if coreFenced t c then t else coreSet t c { coreGet t c with preempt := true }) s
  else s)

def liveRange (s : State) (c lr : Nat) : Option LiveRange :=
  match s.img with
  | some im => im.liveRanges.find? fun l => l.core == c && l.index == lr
  | none => none

def rowKeys (rows : List (Nat × Nat)) : List Nat :=
  rows.flatMap fun r => (List.range r.2).flatMap fun i => (List.range 128).map fun j => (r.1 + i) * 128 + j

/-- R113: a core with a posted pre-emption and nothing outstanding saves, at the cheap point before instruction `index`,
the ranges and rows of its live-range record.  When every core of the portion has saved, the portion is suspended. -/
def execCheapPointSave (core : Fin 192) (index lrIndex : Nat) (s : State) : Res :=
  let k := coreGet s core
  .next (if k.preempt && k.stop == .run && k.outst.isEmpty && !coreFenced s core then
    let lr := (liveRange s core lrIndex).getD ⟨core, lrIndex, [], []⟩
    let bad := (lr.sram.flatMap fun r => (granulesOf (sramAddr core r.1) r.2).filter (marked s)).dedup
    let sv := lr.sram.map fun r => (r.1, rdBytes s (sramAddr core r.1) r.2)
    let av := (rowKeys lr.rows).map fun x => (x, smGet {} s.accs (core.val * 16384 + x))
    let k1 := { k with preempt := false, stall := 5, stop := .preempted index lrIndex, saved := sv, savedAcc := av, savedBad := bad }
    let s1 := coreSet (localDetect bad s) core { k1 with savedAt := some (index, k.inFallback) }
    let anyLeft := (List.range 192).any fun c => (coreGet s1 c).preempt && !coreFenced s1 c
    match s1.portion with
    | some p =>
      if anyLeft then s1
      else
        let q := { p with hdr := { p.hdr with preemptions := min 255 (p.hdr.preemptions + 1) }, met := s1.barriers }
        countEv 0xEEA 1 { s1 with portion := none, suspended := some q, barriers := [], ctl.lcRan := false }
    | none => s1
  else s)

/-- R113, R262: with no LC portion running, the suspended portion's ranges and rows are restored on the core and issue
restarts at the marked instruction. -/
def execPreemptResume (core : Fin 192) (s : State) : Res :=
  let k := coreGet s core
  .next (match k.savedAt with
    | some (index, falls) =>
      if s.portion.any (fun p => !p.hdr.be) then s
      else
        let s1 := setMarks (putRuns s (k.saved.map fun r => (sramAddr core r.1, r.2))) k.savedBad true
        let s2 := { s1 with accs := k.savedAcc.foldl (fun m x => smSet {} m (core.val * 16384 + x.1) x.2) s1.accs }
        let s3 := coreSet s2 core { k with stop := .run, nextIndex := index, saved := [], savedAcc := [], savedBad := [], savedAt := none, inFallback := falls }
        match s3.suspended with
        | some p => { s3 with portion := some { p with met := [] }, suspended := none, barriers := p.met, ctl.lcRan := false }
        | none => s3
    | none => s)

end Sys2Proof.Machine
end

