-- ==== Sys2Proof/Machine/Matrix.lean ====
section
/-!
DEFINITION. Machine/Matrix.lean: the matrix engine (R85 to R104): operands, block sums and promotion, the mullion path,
cross-scaled and binary16 passes, residue checking, and the ACC operations (R93, R96, R101).
-/
namespace Sys2Proof.Machine

/-! ### Operands (R135, R136, R138) -/

/-- R135: code bytes of a weight block and where the scales start. -/
def wElem : WFmt → ElemFmt
  | .w2 => .w2 | .t => .t | .w4 => .w4 | .w8 => .w8 | .kv8 => .kv8

def wHalf : WFmt → Nat
  | .w4 => 2 | _ => 1

/-- Bytes of a W-tile (R135, R138). -/
def wTileBytes (f : WFmt) : Nat := 512 * codeBytes (wElem f) + 512

/-- A block read from core SRAM with its CODE_INVALID events; a failing granule makes it a poisoned block (R104). -/
def sramBlk (s : State) (f : ElemFmt) (codeAt scaleAt recAt : Nat) : Blk × Nat :=
  let recN := if f = .a8 then 8 else 0
  if anyMarked s codeAt (codeBytes f) || anyMarked s scaleAt 1 || anyMarked s recAt recN then (poisonBlk, 0)
  else decodeBlk f (rdByte s scaleAt) (rdBytes s codeAt (codeBytes f)) (rdBytes s recAt recN)

/-- Block (j, b) of the W-tile at a base (R135). -/
def wBlk (s : State) (f : WFmt) (base j b : Nat) : Blk × Nat :=
  sramBlk s (wElem f) (base + (4 * j + b) * codeBytes (wElem f)) (base + 512 * codeBytes (wElem f) + 4 * j + b) 0

/-- Row i, block b of the A-tile at a base (R136). -/
def aBlk (s : State) (base i b : Nat) : Blk × Nat :=
  sramBlk s .a8 (base + (4 * i + b) * 32) (base + 16384 + 4 * i + b) (base + 16896 + (4 * i + b) * 8)

/-- Token t, column j of the VX tile at a base: code and scale (R138). -/
def vxElem (s : State) (base t j : Nat) : Int × Nat :=
  let a := base + 128 * t + j
  let sa := base + 16384 + 4 * t + j / 32
  if anyMarked s a 1 || anyMarked s sa 1 then (0, 0xFF)
  else (if rdByte s a = 0x80 then 0 else toSigned 8 (rdByte s a), rdByte s sa)

/-- R100, R104: the granule of the binary16 activation of row i, element e (rows of 128 elements) fails its code. -/
def f16Bad (s : State) (base i e : Nat) : Bool := anyMarked s (base + 256 * i + 2 * e) 2

/-! ### Terms (R89, R90, R97 to R100), in units of 2^-96 -/

/-- What one block adds to one output. -/
structure Contrib where
  v : Int := 0
  poison : Bool := false
  nonfinite : Bool := false
deriving DecidableEq, Repr

def contribAdd (a b : Contrib) : Contrib := ⟨a.v + b.v, a.poison || b.poison, a.nonfinite || b.nonfinite⟩
def contribSum (l : List Contrib) : Contrib := l.foldl contribAdd {}

/-- R89: the block sum. -/
def blockSum (a w : List Int) : Int := (List.zipWith (· * ·) a w).foldl (· + ·) 0

/-- R90: the shift of a promotion. -/
def promoteShift (sa sw half : Nat) : Nat := (s8Exp sa + s8Exp sw + 96 - (if half = 2 then 1 else 0)).toNat

/-- R90: promotion of a block sum. -/
def promote (sum : Int) (sa sw half : Nat) : Int := sum * (s8Sig sa * s8Sig sw : Nat) * 2 ^ promoteShift sa sw half

/-- R97: significand and exponent of a finite binary16 value. -/
def f16Parts (bits : Nat) : Nat × Int :=
  let e := bitsAt bits 10 5
  let m := bitsAt bits 0 10
  if e = 0 then (m, -24) else (m + 1024, (e : Int) - 25)

/-- A binary16 value times a weight code times a scale; a NaN or an infinity sets a flag (R97, R98, R100). -/
def f16Term (bits : Nat) (code : Int) (sw half : Nat) : Contrib :=
  match decodeIeee binary16 bits with
  | .nan true => { poison := true }
  | .nan false => { nonfinite := true }
  | .inf _ => { nonfinite := true }
  | .fin n _ _ =>
    let p := f16Parts bits
    let v : Int := (p.1 : Int) * code * (s8Sig sw : Nat) * 2 ^ (p.2 + s8Exp sw + 96 - (if half = 2 then 1 else 0)).toNat
    { v := if n then -v else v }

/-- R90, R97, R98: block b of an A8 row against one column. -/
def blockTerm (a w : Blk) (half : Nat) : Contrib :=
  if a.scale = 0xFF ∨ w.scale = 0xFF then { poison := true }
  else if a.scale = 0 ∨ w.scale = 0 then {}
  else contribAdd { v := promote (blockSum a.codes w.codes) a.scale w.scale half }
    (contribSum (a.slots.map fun p => f16Term p.2 (w.codes.getD p.1 0) w.scale half))

/-- R99: a block of a cross-scaled pass: `v` holds each token's code and scale. -/
def blockTermX (a : Blk) (v : List (Int × Nat)) : Contrib :=
  if a.scale = 0xFF ∨ v.any (fun x => x.2 == 0xFF) then { poison := true }
  else if a.scale = 0 then {}
  else
    let live := (List.zip a.codes v).filter fun x => x.2.2 != 0
    if live.isEmpty then {}
    else
      let emin := live.foldl (fun m x => min m (s8Exp x.2.2)) 13
      let term : Int × (Int × Nat) → Int := fun x => x.1 * x.2.1 * ((s8Sig x.2.2 : Nat) : Int) * 2 ^ (s8Exp x.2.2 - emin).toNat
      let sum : Int := (live.map term).foldl (· + ·) 0
      let slots := a.slots.filter fun p => (v.getD p.1 (0, 0)).2 != 0
      contribAdd { v := sum * (s8Sig a.scale : Nat) * 2 ^ (s8Exp a.scale + emin + 96).toNat }
        (contribSum (slots.map fun p => f16Term p.2 (v.getD p.1 (0, 0)).1 (v.getD p.1 (0, 0)).2 1))

/-- R100, R104: 32 binary16 activations against a weight block; a failing granule among them is a poisoned operand. -/
def blockTermF16 (failing : Bool) (bits : List Nat) (w : Blk) (half : Nat) : Contrib :=
  if w.scale = 0xFF ∨ failing then { poison := true }
  else if w.scale = 0 then {}
  else contribSum (List.zipWith (fun b c => f16Term b c w.scale half) bits w.codes)

/-! ### Residues (R102) -/

/-- R102: the residue modulo 255. -/
def residue (x : Int) : Nat := (x % 255).toNat

/-- R102: the checker's residue of a term: from the residue of the integer, the scale significands and 2^(sh mod 8). -/
def residueTerm (sum : Int) (sig sh : Nat) : Nat := residue sum * sig * 2 ^ (sh % 8) % 255

/-! ### Accumulators (R91 to R94) -/

def accGet (s : State) (c row col : Nat) : LAcc := smGet {} s.accs (c * 16384 + row * 128 + col)

/-- The exact sum leaves the 192-bit range (R93). -/
def accOut (v : Int) : Bool := decide (v < -(2 ^ 191)) || decide ((2 : Int) ^ 191 - 1 < v)

/-- R93, R94: add a contribution; an overflowing V is unspecified (`free`). -/
def accAdd (a : LAcc) (c : Contrib) (free : Int) : LAcc :=
  let o := a.ovf || accOut (a.v + c.v)
  { v := if o then free else a.v + c.v, poison := a.poison || c.poison, ovf := o, nonfinite := a.nonfinite || c.nonfinite }

def freeAcc (s : State) : Int := (Config.accOvf s.fresh).toInt

/-- Add a contribution to one accumulator. -/
def accInto (c layer row col : Nat) (k : Contrib) (s : State) : State :=
  let a := accGet s c row col
  let r := accAdd a k (freeAcc s)
  let s1 := { s with accs := smSet {} s.accs (c * 16384 + row * 128 + col) r }
  let s2 := if r.ovf then { s1 with fresh := s1.fresh + 1 } else s1
  if r.ovf && !a.ovf then
    addPoison (.core c layer) (lastFault c 3 layer (bump s2 Reg.ENG_MX_ACC_OVF 1))
  else s2

/-! ### Passes (R85, R86) -/

/-- The bytes of a pass's operands. -/
def passRanges (c : Nat) (p : Pass) : List (Nat × Nat) :=
  let a := sramAddr c (p.aGranule * 64)
  let w := sramAddr c (p.wGranule * 64)
  match p.kind with
  | .mmaF16 => [(a, 256 * p.m), (w, wTileBytes p.wfmt)]
  | .mmaX => [(a, 128 * p.m), (a + 16384, 4 * p.m), (a + 16896, 32 * p.m), (w, 16896)]
  | .mma => [(a, 128 * p.m), (a + 16384, 4 * p.m), (a + 16896, 32 * p.m), (w, wTileBytes p.wfmt)]

/-- R104: the operand granules that fail their code. -/
def passBad (s : State) (c : Nat) (p : Pass) : List Nat :=
  ((passRanges c p).flatMap fun r => (granulesOf r.1 r.2).filter (marked s)).dedup

/-- What the pass adds to output (i, j). -/
def passTerm (s : State) (c : Nat) (p : Pass) (i j : Nat) : Contrib :=
  let a := sramAddr c (p.aGranule * 64)
  let w := sramAddr c (p.wGranule * 64)
  contribSum ((List.range 4).map fun b =>
    match p.kind with
    | .mma => blockTerm (aBlk s a i b).1 (wBlk s p.wfmt w j b).1 (wHalf p.wfmt)
    | .mmaX => blockTermX (aBlk s a i b).1 ((List.range 32).map fun t => vxElem s w (32 * b + t) j)
    | .mmaF16 => blockTermF16 ((List.range 32).any fun e => f16Bad s a i (32 * b + e))
        ((List.range 32).map fun e => rdLe s (a + 256 * i + 2 * (32 * b + e)) 2) (wBlk s p.wfmt w j b).1 (wHalf p.wfmt))

/-- The outputs of a pass as (row offset, column). -/
def passOutputs (m : Nat) : List (Nat × Nat) := (List.range m).flatMap fun i => (List.range 128).map fun j => (i, j)

/-- R86, R94: every output of the pass takes the sum of its current value and the pass's terms. -/
def passAdd (c : Nat) (p : Pass) (s : State) : State :=
  (passOutputs p.m).foldl (fun t o => accInto c p.layer (p.row + o.1) o.2 (passTerm s c p o.1 o.2) t) s

/-- R103: poison every output of the pass. -/
def passPoison (c : Nat) (p : Pass) (s : State) : State :=
  { s with accs := (passOutputs p.m).foldl (fun m o =>
      let k := c * 16384 + (p.row + o.1) * 128 + o.2
      smSet {} m k { smGet {} m k with poison := true }) s.accs }

/-- R55, R63, R64: the reserved codes of the VX tile at a base; the codes of zero and poisoned blocks are not read. -/
def vxInvalid (s : State) (base : Nat) : Nat :=
  ((List.range 16384).filter fun k =>
    let sa := base + 16384 + 4 * (k / 128) + k % 128 / 32
    rdByte s (base + k) == 0x80 && !anyMarked s (base + k) 1 && !anyMarked s sa 1 && rdByte s sa != 0 && rdByte s sa != 0xFF).length

/-- The CODE_INVALID events of reading the operands (R52, R55, R62). -/
def passInvalid (s : State) (c : Nat) (p : Pass) : Nat :=
  let a := sramAddr c (p.aGranule * 64)
  let w := sramAddr c (p.wGranule * 64)
  let rowsEv := ((List.range p.m).flatMap fun i => (List.range 4).map fun b => (aBlk s a i b).2).sum
  let wEv := ((List.range 128).flatMap fun j => (List.range 4).map fun b => (wBlk s p.wfmt w j b).2).sum
  match p.kind with
  | .mma => rowsEv + wEv
  | .mmaF16 => wEv
  | .mmaX => rowsEv + vxInvalid s w

/-- The zero blocks among the operands and the valid slots among the activations (R475). -/
def passActivity (s : State) (c : Nat) (p : Pass) : Nat × Nat :=
  let a := sramAddr c (p.aGranule * 64)
  let w := sramAddr c (p.wGranule * 64)
  let ab := (List.range p.m).flatMap fun i => (List.range 4).map fun b => (aBlk s a i b).1
  let wz := ((List.range 128).flatMap fun j => (List.range 4).map fun b => (wBlk s p.wfmt w j b).1).filter fun b => b.scale == 0
  match p.kind with
  | .mma => ((ab.filter fun b => b.scale == 0).length + wz.length, (ab.map fun b => b.slots.length).sum)
  | .mmaX => ((ab.filter fun b => b.scale == 0).length, (ab.map fun b => b.slots.length).sum)
  | .mmaF16 => (wz.length, 0)

/-! ### Conversion (R101) -/

/-- R93, R101: the value a conversion of an accumulator starts from. -/
def accNum (a : LAcc) : RVal :=
  if a.poison || a.ovf then .nan true
  else if a.nonfinite then .nan false
  else .fin (decide (a.v < 0)) a.v.natAbs (2 ^ 96)

def ieeeOf : ConvFmt → IeeeFmt
  | .f32 => binary32 | .bf16 => bfloat16 | _ => binary16

def ieeeBytes : ConvFmt → Nat
  | .f32 => 4 | _ => 2

/-- The draw of element `e` of a converted row: none when rounding to nearest (R78, R80). -/
def convDraw (s : State) (ctl layer : Nat) (rc : RowCoord) (e : Nat) : Option Nat :=
  if ctlRound ctl then some (drawFor s rc.ctx layer (ctlStream ctl) rc.pos e) else none

/-- One converted row: the runs of bytes it writes, its events, whether a block trapped, and whether a quantiser met a
non-finite value that is no poison (a local poison source, R211). -/
structure ConvOut where
  runs : List (Nat × List Nat)
  ev : FmtEv
  trapped : Bool
  localPoison : Bool
deriving DecidableEq, Repr

def convRow (s : State) (c row i : Nat) (fmt : ConvFmt) (ctl layer dst elem0 : Nat) (rc : RowCoord) : ConvOut :=
  let x := (List.range 128).map fun j => accNum (accGet s c (row + i) j)
  match fmt with
  | .a8 =>
    let qs := (List.range 4).map fun b =>
      quantise false (ctlRank ctl) (ctlOvf ctl) (fun e => convDraw s ctl layer rc (elem0 + 32 * b + e)) ((x.drop (32 * b)).take 32)
    let runs := (List.range 4).flatMap fun b =>
      let q := qs.getD b ⟨zeroBlk, {}, false⟩
      [(sramAddr c (dst + (4 * i + b) * 32), blkCodeBytes q.blk), (sramAddr c (dst + 16384 + 4 * i + b), [q.blk.scale]),
       (sramAddr c (dst + 16896 + (4 * i + b) * 8), blkRecord q.blk)]
    ⟨runs, fmtEvSum (qs.map fun q => q.ev), qs.any fun q => q.trapped,
     (qs.any fun q => q.ev.poison != 0) && !x.any numPoison⟩
  | _ =>
    let f := ieeeOf fmt
    let w := ieeeBytes fmt
    let ys := (List.range 128).map fun j => convIeee f (convDraw s ctl layer rc (elem0 + j)) (x.getD j (.fin false 0 1))
    ⟨[(sramAddr c (dst + 128 * w * i), ys.flatMap fun y => leBytes w y.1)],
     { sat := (ys.filter fun y => y.2).length }, false, false⟩

/-- R96: the 32-byte record of an accumulator. -/
def accRecord (a : LAcc) : List Nat :=
  leBytes 24 (ofSigned 192 a.v) ++ [b2n a.poison + 2 * b2n a.ovf + 4 * b2n a.nonfinite] ++ List.replicate 7 0

/-- Perform an ACC operation on the current copies. -/
def accApply (c : Nat) (op : AccOp) (s : State) : State :=
  match op with
  | .zero row m =>
    { s with accs := (passOutputs m).foldl (fun a o => smSet {} a (c * 16384 + (row + o.1) * 128 + o.2) {}) s.accs }
  | .convert row m fmt ctl layer dst elem0 coords =>
    if abortedAttempt s c layer then s
    else
      let outs := (List.range m).map fun i => convRow s c row i fmt ctl layer dst elem0 (coords.getD i ⟨0, 0⟩)
      if outs.any fun o => o.trapped then raiseTrap c layer s
      else
        let s1 := countFmt layer (fmtEvSum (outs.map fun o => o.ev)) (storeRuns s (outs.flatMap fun o => o.runs))
        if outs.any fun o => o.localPoison then addPoison (.conv layer) s1 else s1
  | .exportTo row col dst => storeLocal s (sramAddr c dst) (accRecord (accGet s c row col))
  | .importFrom row col src layer =>
    let a := sramAddr c src
    let bs := rdBytes s a 32
    let fl := bs.getD 24 0
    let bad := anyMarked s a 32
    let v := toSigned 192 (leNat (bs.take 24))
    let s1 := accInto c layer row col { v := if bad then 0 else v, poison := bad || bit fl 0, nonfinite := !bad && bit fl 2 }
      (localDetect ((granulesOf a 32).filter (marked s)) s)
    if bit fl 1 && !bad then
      let k := c * 16384 + row * 128 + col
      { s1 with accs := smSet {} s1.accs k { smGet {} s1.accs k with ovf := true, v := freeAcc s1 }, fresh := s1.fresh + 1 }
    else s1

/-- Perform the ACC operations at the front of the MX queue, up to the next pass. -/
def mxDrain (c : Nat) : List MxItem → State → State
  | [], s => coreSet s c { coreGet s c with mxq := [] }
  | .pass p :: t, s => coreSet s c { coreGet s c with mxq := .pass p :: t }
  | .acc _ op :: t, s => mxDrain c t (accApply c op s)

/-! ### The commands -/

def passLoadable (row mMinus1 : Nat) : Bool := decide (row < 128) && decide (mMinus1 < 128) && decide (row + mMinus1 + 1 ≤ 128)

/-- Queue a pass on the matrix engine. -/
def queuePass (i : Ins) (place : Nat) (p : Pass) (s : State) : State :=
  issueWith i (some .mx) ⟨1, place, 7⟩ true
    (fun t => coreSet t i.core { coreGet t i.core with mxq := (coreGet t i.core).mxq ++ [.pass p] }) s

/-- R85: an MMA is issued; its operands are read and its rows flip when the pass ends. -/
def execMma (i : Ins) (aGranule wGranule row mMinus1 : Nat) (wfmt : WFmt) (s : State) : Res :=
  if passLoadable row mMinus1 then
    .next (queuePass i 0 ⟨.mma, aGranule, wGranule, row, mMinus1 + 1, wfmt, i.layer, i.index, false⟩ s)
  else .refused (.notLoadable "MMA")

/-- R99: a cross-scaled pass is issued. -/
def execMmaX (i : Ins) (aGranule wGranule row mMinus1 : Nat) (s : State) : Res :=
  if passLoadable row mMinus1 then
    .next (queuePass i 1 ⟨.mmaX, aGranule, wGranule, row, mMinus1 + 1, .kv8, i.layer, i.index, false⟩ s)
  else .refused (.notLoadable "MMA_X")

/-- R100: a binary16 fallback pass is issued; WFMT 4 is not loadable (R109). -/
def execMmaF16 (i : Ins) (aGranule wGranule row mMinus1 : Nat) (wfmt : WFmt) (s : State) : Res :=
  if passLoadable row mMinus1 && wfmt != .kv8 then
    .next (queuePass i 2 ⟨.mmaF16, aGranule, wGranule, row, mMinus1 + 1, wfmt, i.layer, i.index, false⟩ s)
  else .refused (.notLoadable "MMA_F16")

/-- R86, R103, R110: a pass's rows have flipped: it leaves the queue, the ACC operations behind it are performed, and
the instruction completes. -/
def passEnd (c : Nat) (p : Pass) (latency : Nat) (s : State) : State :=
  let rest := (coreGet s c).mxq.tail
  complete c .mx p.index latency (mxDrain c rest s)

/-- R104: detections on operand granules are counted, and the portion has a local poison source. -/
def passDetect (c : Nat) (p : Pass) (s : State) : State :=
  let bad := passBad s c p
  if bad.isEmpty then s
  else addPoison (.core c p.layer) (lastFault c 5 p.layer
    (bump (bump s Reg.ENG_MX_OPERAND_DETECT bad.length) Reg.MEM_SRAM_DETECT bad.length))

/-- The pass at the front of a core's MX queue ends.  `mismatch` tells that D and E of R102 differ, which only a fault
of the datapath brings about. -/
def execMmaPassComplete (core : Fin 192) (mismatch : Bool) (latency : Nat) (s : State) : Res :=
  .next (match (coreGet s core).mxq with
    | .pass p :: t =>
      if p.rerun then s
      else
        let act := passActivity s core p
        let s0 := countEv (0x600 + 4 * core) p.m (countEv (0x600 + 4 * core + 1) act.1 (countEv (0x600 + 4 * core + 2) act.2
          (passDetect core p s)))
        let s1 := if abortedAttempt s core p.layer then s0 else countFmt p.layer { codeInvalid := passInvalid s core p } s0
        if mismatch then
          let k := coreGet s1 core
          coreSet (lastFault core 1 p.layer (bump s1 Reg.ENG_MX_RESIDUE_MISMATCH 1)) core
            { k with mxq := .pass { p with rerun := true } :: t,
                     tag := k.tag.map fun g => if g.index = p.index then { g with rerun := true } else g }
        else passEnd core p latency (passAdd core p s1)
    | _ => s)

/-- R288: a core with four residue-poison events in 24 h becomes FENCE_PENDING and the ledger records it.  `t` is the
time in ns. -/
def residuePoisonAt (c t : Nat) (s : State) : State :=
  let recent := ((alGet s.residueTimes c).getD []).filter fun x => decide (t < x + 86400000000000)
  let l := t :: recent
  let s1 := { s with residueTimes := alSet s.residueTimes c l }
  if 4 ≤ l.length && !coreFenced s c then
    if getBit s (Reg.NOC_FENCE_PENDING (c / 32)) (c % 32) then s1
    else
      let s2 := ledgerFence 0 c 0 (setBit s1 (Reg.NOC_FENCE_PENDING (c / 32)) (c % 32) true)
      irqBoth 3 (setF (setF (setF s2 Reg.NOC_LAST_FAULT_ROUTER (104 * (c / 96) + 13 * coreRow c + coreCol c))
        Reg.NOC_LAST_FAULT_PORT 0) Reg.NOC_LAST_FAULT_CAUSE 5)
  else s1

/-- R288: a FENCE_PENDING core that no loaded region maps is shuttered at once. -/
def fenceUnmapped (c : Nat) (s : State) : State :=
  if getBit s (Reg.NOC_FENCE_PENDING (c / 32)) (c % 32) && !isMappedCore s c then shutterCore c 0 s else s

/-- R103: the rerun ends.  A second mismatch poisons every output of the pass. -/
def execResidueRerunComplete (core : Fin 192) (mismatch : Bool) (latency t : Nat) (s : State) : Res :=
  .next (match (coreGet s core).mxq with
    | .pass p :: _ =>
      if !p.rerun then s
      else if mismatch then
        fenceUnmapped core (passEnd core p latency (addPoison (.core core p.layer) (residuePoisonAt core t (lastFault core 2 p.layer
          (bump (passPoison core p (passAdd core p s)) Reg.ENG_MX_RESIDUE_POISON 1)))))
      else passEnd core p latency (passAdd core p s)
    | _ => s)

/-- Queue an ACC operation behind the passes issued before it; with none, it is performed at once. -/
def queueAcc (i : Ins) (place : Nat) (op : AccOp) (s : State) : State :=
  issueWith i (some .mx) ⟨2, place, 7⟩ false
    (fun t => let k := coreGet t i.core
      if k.mxq.isEmpty then accApply i.core op t
      else coreSet t i.core { k with mxq := k.mxq ++ [.acc i.index op] }) s

/-- R101: accumulator rows and their flags are cleared. -/
def execAccZero (i : Ins) (row m : Nat) (s : State) : Res :=
  if row + m ≤ 128 then .next (queueAcc i 0 (.zero row m) s) else .refused (.notLoadable "ACC_ZERO")

/-- R101: a row range is converted once. -/
def execAccConvert (i : Ins) (row m : Nat) (fmt : ConvFmt) (ctl dst elem0 : Nat) (coords : List RowCoord) (s : State) : Res :=
  if row + m ≤ 128 && ctlOk ctl then .next (queueAcc i 1 (.convert row m fmt ctl i.layer dst elem0 coords) s)
  else .refused (.notLoadable "ACC_CONVERT")

/-- R96: an accumulator is written out as a record. -/
def execAccExport (i : Ins) (row col dst : Nat) (s : State) : Res :=
  if row < 128 && col < 128 then .next (queueAcc i 2 (.exportTo row col dst) s) else .refused (.notLoadable "ACC_EXPORT")

/-- R96: a record is added into an accumulator and its flags ORed. -/
def execAccImport (i : Ins) (row col src : Nat) (s : State) : Res :=
  if row < 128 && col < 128 then .next (queueAcc i 3 (.importFrom row col src i.layer) s) else .refused (.notLoadable "ACC_IMPORT")

/-! ### The vector unit (R68) -/

def vecFn (f : VecFn) (x y z : Nat) : Nat :=
  match f with
  | .add => add32 x y | .sub => sub32 x y | .mul => mul32 x y | .fma => fma32 x y z | .div => div32 x y | .sqrt => sqrt32 x

/-- A binary32 operand of core SRAM; a failing granule reads as the poison NaN. -/
def vecIn (s : State) (c off k : Nat) : Nat :=
  let a := sramAddr c (off + 4 * k)
  if anyMarked s a 4 then ieeeNan binary32 true else rdLe s a 4

/-- The failing granules among the operands that an operation takes. -/
def vecBad (s : State) (c : Nat) (fn : VecFn) (lanes src1 src2 src3 : Nat) : List Nat :=
  let srcs := match fn with
    | .fma => [src1, src2, src3]
    | .sqrt => [src1]
    | _ => [src1, src2]
  ((srcs.flatMap fun o => granulesOf (sramAddr c o) (4 * lanes)).filter (marked s)).dedup

/-- R68: a vector operation on `lanes` binary32 elements of core SRAM, lane by lane. -/
def execVecOp (i : Ins) (fn : VecFn) (lanes dst src1 src2 src3 : Nat) (s : State) : Res :=
  .next (issueWith i (some .vu) ⟨3, match fn with | .add => 0 | .sub => 1 | .mul => 2 | .fma => 3 | .div => 4 | .sqrt => 5, 7⟩ false
    (fun t => storeLocal (localDetect (vecBad t i.core fn lanes src1 src2 src3) t) (sramAddr i.core dst) ((List.range lanes).flatMap fun k =>
      leBytes 4 (vecFn fn (vecIn t i.core src1 k) (vecIn t i.core src2 k) (vecIn t i.core src3 k)))) s)

end Sys2Proof.Machine
end

