-- ==== Sys2Proof/Machine/Prefixes.lean ====
section
/-!
DEFINITION. Machine/Prefixes.lean: the pages of contexts and prefixes, and a prefix that leaves the index (R132, R134, R182,
R208).
-/
namespace Sys2Proof.Machine

def dropPages (ps : List Nat) (s : State) : State := { s with pages := s.pages.filter fun p => !ps.contains p.1 }

def ctxPages (c : Ctx) : List Nat := c.spans.map fun p => p.2.page

/-- R246: the pages that a context's release frees: no prefix and no other context has them. -/
def freedPages (s : State) (id : Nat) (c : Ctx) : List Nat :=
  (ctxPages c).filter fun x => !(s.prefs.any fun q => q.2.pages.contains x) &&
    !(s.ctxs.any fun d => d.1 != id && (ctxPages d.2).contains x)

def prefMode (s : State) : Nat := match s.img with | some i => i.serving.prefixMode | none => 0

/-- The prefix and everything below it (tree mode). -/
def below (s : State) : Nat → List Nat → List Nat
  | 0, ids => ids
  | n + 1, ids => below s n (ids ++ (s.prefs.filter fun q => match q.2.parent with | some p => ids.contains p && !ids.contains q.1 | none => false).map Prod.fst)

/-- R132, R134: rewrite a tree node's list of children; `arr` is where control firmware puts it. -/
def writeChildren (s : State) (parentAddr arr : Nat) (kids : List (Nat × Pref)) : State :=
  let ks := sortBy (fun (a b : Nat × Pref) => decide (a.2.tokens.headD 0 < b.2.tokens.headD 0) ||
    (a.2.tokens.headD 0 == b.2.tokens.headD 0 && decide (a.2.addr < b.2.addr))) kids
  let s1 := (List.zip (List.range ks.length) ks).foldl (fun t k =>
    putDev t (arr + 16 * k.1) (leBytes 4 (k.2.2.tokens.headD 0) ++ [0, 0, 0, 0] ++ leBytes 8 k.2.2.addr)) s
  putDev s1 (parentAddr + 260) (leBytes 4 ks.length ++ leBytes 8 arr)

/-- The address of a prefix's parent node, or of its root. -/
def parentAddr (s : State) (p : Pref) : Nat :=
  match p.parent with
  | some q => (match alGet s.prefs q with | some x => x.addr | none => 0)
  | none => (alGet s.ctl.roots ((p.lease * 65536 + p.binding) * 2 + p.gen)).getD 0

/-- A prefix leaves the index, with its archive copy; its parent's child array is rewritten where it lies. -/
def dropPref (id : Nat) (s : State) : State :=
  match alGet s.prefs id with
  | none => s
  | some p =>
    let ids := if prefMode s = 1 then below s s.prefs.length [id] else [id]
    let gone := s.prefs.filter fun q => ids.contains q.1
    let left := s.prefs.filter fun q => !ids.contains q.1
    let held := left.flatMap fun q => q.2.pages
    let inUse := s.ctxs.flatMap fun c => ctxPages c.2
    let pages := (gone.flatMap fun q => q.2.pages).filter fun x => !held.contains x && !inUse.contains x
    let s1 := { s with prefs := left, extents := s.extents.filter fun e => !ids.any fun k => e.2.owner == .archive k }
    let s2 := dropPages pages s1
    if prefMode s = 1 && parentAddr s p != 0 then
      writeChildren s2 (parentAddr s p) (rdLe s2 (parentAddr s p + 264) 8)
        (left.filter fun q => q.2.parent == p.parent && q.2.lease == p.lease && q.2.binding == p.binding && q.2.gen == p.gen)
    else s2

end Sys2Proof.Machine
end

