-- ==== Sys2Proof/Machine/Tier.lean ====
section
/-!
DEFINITION. Machine/Tier.lean: the tiered window and the flash cards (R194, R198 to R204, R468), reads of the device
range with their detection and recovery (R207, R208), scrub and vault retirement (R214, R216).
-/
namespace Sys2Proof.Machine

/-! ### Cards (R203, R204) -/

def cardState (n : Nat) : Fld := if n = 0 then Reg.MEM_CARD0_STATE_STATE else Reg.MEM_CARD1_STATE_STATE
def cardWear (n : Nat) : Fld := if n = 0 then Reg.MEM_CARD0_STATE_WEAR_PCT else Reg.MEM_CARD1_STATE_WEAR_PCT
def cardSpare (n : Nat) : Fld := if n = 0 then Reg.MEM_CARD0_STATE_SPARE_PCT else Reg.MEM_CARD1_STATE_SPARE_PCT

/-- R194: the card that holds an extent. -/
def extentCard (x : Nat) : Nat := x % 2

/-- R203: reads of every extent are served from the card in ACTIVE and WORN. -/
def cardServes (st : Nat) : Bool := st == 2 || st == 4

/-- R45, R46, R203: a card changes state: the ID field follows, and the ledger records it. -/
def setCard (n st : Nat) (s : State) : State :=
  let old := getF s (cardState n)
  if old = st then s
  else
    let s1 := setF s (cardState n) st
    let s2 := if cardServes old == cardServes st then s1
      else configChange (fun t => setBit t Reg.ID_RESOURCES_FLASH_CARDS n (cardServes st)) s1
    let s3 := if st = 4 ∨ st = 5 then alert Reg.HOST_ALERT_FLASH s2 else s2
    ledgerAdd 0x06 [(8, n), (8, st), (64, s.cardSerial.getD n 0), (8, getF s3 (cardWear n)), (8, getF s3 (cardSpare n))] s3

/-! ### Extents (R198 to R200) -/

def isImageExtent (x : Nat) : Bool := decide (976050 ≤ x) && decide (x ≤ 976561)

/-- The card serves a read of the extent (R203, R204). -/
def servedFromCard (s : State) (x : Nat) : Bool :=
  let st := getF s (cardState (extentCard x))
  cardServes st || (st == 3 && (match alGet s.extents x with | some e => e.onCard | none => false))

/-- R225, R204: a valid host copy that the module can read. -/
def hostCopy (s : State) (x : Nat) (hostOk : Bool) : Bool :=
  hostOk && (match alGet s.extents x with
    | some e => (match e.host with | some (p, _) => portUp s p | none => false)
    | none => false)

def isResident (e : Extent) : Bool := e.state == .resident

/-- Frames in use of the CACHE budget (R200): fetching, resident, or not yet freed. -/
def cacheFramesUsed (s : State) : Nat :=
  (s.extents.filter fun p => p.2.mode == .cache && (p.2.state != .flash || p.2.draining)).length

def cacheBudget (s : State) : Nat := match s.img with | some i => i.vmap.cacheFrames | none => 0

/-- R200: the resident CACHE extent whose last read is oldest, ties to the lower extent. -/
def oldestCache (s : State) : Option Nat :=
  ((s.extents.filter fun p => p.2.mode == .cache && isResident p.2).foldl (fun (b : Option (Nat × Nat)) p =>
    match b with
    | some (_, r) => if p.2.lastRead < r then some (p.1, p.2.lastRead) else b
    | none => some (p.1, p.2.lastRead)) none).map Prod.fst

/-- R198, R200: the first read of a CACHE extent starts its fetch; with no free frame the oldest is demoted first. -/
def cacheTouch (x : Nat) (s : State) : State :=
  match alGet s.extents x with
  | some e =>
    let s1 := setExtent s x { e with lastRead := s.now }
    if e.mode = .cache ∧ e.state = .flash ∧ 0 < cacheBudget s then
      if cacheFramesUsed s1 < cacheBudget s1 then setExtent s1 x { e with lastRead := s.now, state := .fetching }
      else match oldestCache s1 with
        | some v => setExtent (demote v s1) x { e with lastRead := s.now, state := .fetching }
        | none => s1
    else s1
  | none => s

/-! ### Pool pages -/

/-- The pool page that a DRAM address lies in. -/
def poolPageAt (s : State) (a : Nat) : Option Nat :=
  match s.img with
  | some i =>
    if i.vmap.poolBase ≤ a ∧ a < i.vmap.poolBase + i.serving.kvPoolPages * i.vmap.pageBytes ∧ 0 < i.vmap.pageBytes then
      some ((a - i.vmap.poolBase) / i.vmap.pageBytes)
    else none
  | none => none

/-- The committed prefix that holds the pool page of an address. -/
def prefAt (s : State) (a : Nat) : Option (Nat × Pref) :=
  match poolPageAt s a with
  | some pg => s.prefs.find? fun p => p.2.pages.contains pg
  | none => none

/-! ### Reads of the device range (R192, R207, R208) -/

/-- What a read brings: the state, the granules delivered as marked ones, and the granules whose data is delivered
once their master copy has been read again. -/
structure ReadRes where
  s : State
  bad : List Nat := []
  stall : List Nat := []
  unit : Option Nat := none     -- the 16 KiB unit that a card or the host copy served last in this read

def checkOf (s : State) (chk : List (Nat × Check)) (g : Nat) : Check :=
  if marked s g then .hard else (alGet chk g).getD .ok

/-- R208: a detection that survived the second read, by the kind of data it hit. -/
def hardRead (g : Nat) (hostOk : Bool) (r : ReadRes) : ReadRes :=
  let s1 := setMark (bump r.s Reg.MEM_DRAM_DETECT 1) g true
  if inTier (g * 64) then
    let x := extentOf (g * 64)
    if servedFromCard s1 x || hostCopy s1 x hostOk then { r with s := s1, stall := g :: r.stall }
    else { r with s := addPoison (.extent x) s1, bad := g :: r.bad }
  else match prefAt s1 (g * 64) with
    | some (id, p) =>
      if p.archived.isSome then { r with s := s1, stall := g :: r.stall }
      else { r with s := addPoison (.memory g) (dropPref id s1), bad := g :: r.bad }
    | none => { r with s := addPoison (.memory g) s1, bad := g :: r.bad }

def residentAt (s : State) (x : Nat) : Bool := match alGet s.extents x with | some e => isResident e | none => false

/-- R202: the 16 KiB mapping unit of a granule. -/
def unitOf (g : Nat) : Nat := g / 256

/-- R202: a read of a unit is counted in the erase block that holds it. -/
def countBlock (g : Nat) (s : State) : State :=
  let k := extentCard (extentOf (g * 64)) * 2 ^ 32 + (Config.eraseBlock (unitOf g) s.fresh).toNat
  { s with blockReads := smSet 0 s.blockReads k (smGet 0 s.blockReads k + 1) }

/-- A read of one granule of the device range. -/
def readGranule (chk : List (Nat × Check)) (hostOk : Bool) (r : ReadRes) (g : Nat) : ReadRes :=
  let x := extentOf (g * 64)
  if inTier (g * 64) && !residentAt r.s x && !servedFromCard r.s x then
    -- R204: the read is served from the host copy
    if hostCopy r.s x hostOk then { r with s := if r.unit == some (unitOf g) then r.s else bump r.s Reg.MEM_HOST_FETCH 1, unit := some (unitOf g) }
    else { r with s := addPoison (.extent x) r.s, bad := g :: r.bad }
  else
    let flash := inTier (g * 64) && !residentAt r.s x
    let s0 := if inTier (g * 64) then cacheTouch x (if flash && r.unit != some (unitOf g) then countBlock g r.s else r.s)
      else countGranules (g * 64) 64 0 r.s
    let r0 := { r with s := s0, unit := if flash then some (unitOf g) else r.unit }
    match checkOf s0 chk g with
    | .ok => r0
    | .reread => { r0 with s := addRecovered (bump s0 Reg.MEM_REREAD_OK 1) }
    | .hard => hardRead g hostOk r0

/-- A foreground read of `n` bytes at a device-range address that R192 allows. -/
def devRead (s : State) (a n : Nat) (chk : List (Nat × Check)) (hostOk : Bool) : ReadRes :=
  (granulesOf a n).foldl (readGranule chk hostOk) { s := s }

/-- Deliver bytes into core SRAM (or anywhere): granules that take undeliverable bytes become marked (R142, R206). -/
def deliver (s : State) (dst src n : Nat) (bad : List Nat) : State :=
  let s1 := storeLocal s dst (rdBytes s src n)
  setMarks s1 ((List.range n).filterMap fun i => if bad.contains ((src + i) / 64) then some ((dst + i) / 64) else none) true

/-! ### Master copies read again (R208, R216) -/

/-- R216: four hard failures of a vault within 24 h. -/
def vaultHardFail (v t : Nat) (s : State) : State :=
  let l := t :: ((alGet s.hardFails v).getD []).filter fun x => decide (t < x + 86400000000000)
  let s1 := { s with hardFails := alSet s.hardFails v l }
  if 4 ≤ l.length && getF s (vaultState v) == 0 then
    let s2 := ledgerVault 0 v (setF s1 (vaultState v) 1)
    if isMappedVault s2 v then s2 else retireVault v s2
  else s1

/-- The stalled reader of a granule receives its data. -/
def refetchDeliver (ok : Bool) (s : State) (r : Refetch) : State :=
  match r.who with
  | .core c _ dst src len => deliver s (sramAddr c dst) src len (if ok then [] else [r.granule])
  | _ => s

/-- R208: the master copy of a granule has been read again: from flash, or, its unit being uncorrectable there, from
the host copy.  The granule is rewritten and the readers receive it; with neither, they see poison. -/
def execRefetchDone (granule : Nat) (fromFlash hostOk : Bool) (failsAgain : Option (Fin 32)) (t : Nat) (s : State) : Res :=
  let rs := s.refetch.filter fun r => r.granule == granule
  .next (if rs.isEmpty then s
    else
      let x := extentOf (granule * 64)
      let ok := fromFlash || (inTier (granule * 64) && hostCopy s x hostOk)
      let s0 := { atTime t s with refetch := s.refetch.filter (fun r => r.granule != granule) }
      let s1 := if fromFlash then bump s0 Reg.MEM_REFETCH 1 else if ok then bump s0 Reg.MEM_HOST_FETCH 1 else s0
      let mine := rs.any fun r => r.who != .scrub
      let s2 := if ok then (if mine then addRecovered else id) (setMark s1 granule false)
        else if inTier (granule * 64) then (if mine then addPoison (.extent x) else id) s1
        else (if mine then addPoison (.memory granule) else id) (match prefAt s1 (granule * 64) with | some (id, _) => dropPref id s1 | none => s1)
      let s3 := rs.foldl (refetchDeliver ok) s2
      match failsAgain with
      | some v => vaultHardFail v t (setMark s3 granule true)
      | none => s3)

/-- A free pool page, or a frame that holds no extent. -/
def isFreePlace (s : State) (a : Nat) : Bool :=
  match poolPageAt s a with
  | some pg => (alGet s.pages pg).isNone
  | none => inFrames s a

/-- R214: patrol scrub reads a granule; on a detection it restores a tiered frame, rewrites a free place, and leaves
anything else marked. -/
def execScrubRead (addr : Nat) (check : Check) (failsAgain : Bool) (t : Nat) (s : State) : Res :=
  let g := addr / 64
  .next (if !getB s Reg.MEM_SCRUB_CTL_EN || (check == .ok && !marked s g) || (!(inTier addr && residentAt s (extentOf addr)) && 2 ^ 38 ≤ addr) ||
      (addr < 2 ^ 38 && vaultRetired s (addr / 2 ^ 33)) then s
    else
      let s1 := bump (atTime t s) Reg.MEM_SCRUB_DETECT 1
      let s2 := if inTier addr then { setMark s1 g true with refetch := s1.refetch ++ [⟨g, .scrub⟩] }
        else if isFreePlace s addr then putBytes s1 (g * 64) (List.replicate 64 0)
        else setMark s1 g true
      if failsAgain && addr < 2 ^ 38 then vaultHardFail (addr / 2 ^ 33) t s2 else s2)

/-! ### Fetches and frames (R157, R199) -/

/-- R157: an expert follows its extents: DRAM when every one of them is resident. -/
def expertFollow (s : State) : State :=
  { s with experts := s.experts.map fun e =>
      if e.res = .fetching ∧ e.extents.all (fun x => match alGet s.extents x with | some y => isResident y | none => false)
      then { e with res := .dram } else e }

/-- R199: a fetched extent's last granule has landed and passed its check; a fetch whose data cannot be recovered ends
as a poison source of the portion (R158). -/
def execExtentFetchDone (extent : Nat) (ok : Bool) (s : State) : Res :=
  .next (match alGet s.extents extent with
    | some e =>
      if e.state = .fetching then
        if ok then expertFollow (setExtent s extent { e with state := .resident })
        else addPoison (.extent extent) (setExtent s extent { e with state := .flash })
      else s
    | none => s)

/-- R199: the frame of a demoted extent is freed. -/
def execFrameRelease (extent : Nat) (s : State) : Res :=
  .next (match alGet s.extents extent with
    | some e => if e.draining then setExtent s extent { e with draining := false } else s
    | none => s)

/-! ### The translation layer (R202, R203) -/

/-- R204: a card stops serving: archived prefixes whose copy lay on it lose that copy, and leave the index when they are
not resident. -/
def cardLost (n : Nat) (s : State) : State :=
  let onIt := fun (id : Nat) => s.extents.any fun x => extentCard x.1 == n && x.2.owner == .archive id
  { s with prefs := (s.prefs.filter fun p => !(onIt p.1 && p.2.pages.isEmpty)).map
            (fun p => (p.1, if onIt p.1 then { p.2 with archived := none, archiving := false } else p.2)),
           extents := s.extents.map fun p => (p.1, if extentCard p.1 = n then { p.2 with onCard := false } else p.2) }

/-- R203: the card's wear and spare after a duty of the translation layer; it becomes WORN or, with
R204's losses, FAILED with its spare. -/
def cardWearTo (n wear spare : Nat) (worn exhausted : Bool) (s : State) : State :=
  let s1 := setF (setF s (cardWear n) (min wear 255)) (cardSpare n) (min spare 255)
  let st := getF s (cardState n)
  if exhausted && (st == 2 || st == 3 || st == 4) then cardLost n (setCard n 5 s1)
  else if worn && st == 2 then setCard n 4 s1 else s1

def cardPresent (s : State) (n : Nat) : Bool := let st := getF s (cardState n); st == 2 || st == 3 || st == 4

/-- R202: an erase block is relocated for read disturb and erased. -/
def execFlashRelocate (card : Fin 2) (block wearPct sparePct : Nat) (worn exhausted : Bool) (s : State) : Res :=
  .next (if cardPresent s card then
    cardWearTo card wearPct sparePct worn exhausted
      { bump s Reg.MEM_FLASH_RELOCATE 1 with blockReads := smSet 0 s.blockReads (card * 2 ^ 32 + block) 0 }
  else s)

/-- R202: aged or error-prone units are rewritten. -/
def execFlashRefresh (card : Fin 2) (block wearPct sparePct : Nat) (worn exhausted : Bool) (s : State) : Res :=
  .next (if cardPresent s card then
    cardWearTo card wearPct sparePct worn exhausted
      { bump s Reg.MEM_FLASH_RELOCATE 1 with blockReads := smSet 0 s.blockReads (card * 2 ^ 32 + block) 0 }
  else s)

/-- R202: long-unread data is moved; the block it leaves is erased. -/
def execWearLevel (card : Fin 2) (block wearPct sparePct : Nat) (worn exhausted : Bool) (s : State) : Res :=
  .next (if cardPresent s card then
    cardWearTo card wearPct sparePct worn exhausted { s with blockReads := smSet 0 s.blockReads (card * 2 ^ 32 + block) 0 }
  else s)

/-! ### Card events (R203, R204, R468) -/

/-- R203: a controller fault makes the card FAILED. -/
def execCardControllerFault (card : Fin 2) (s : State) : Res :=
  .next (if getF s (cardState card) = 0 ∨ getF s (cardState card) = 5 then s else cardLost card (setCard card 5 s))

/-- R408: a short on VFLASH latches the card's switch off and makes the card FAILED. -/
def execFlashRailShort (card : Fin 2) (s : State) : Res :=
  let s1 := ledgerAdd 0x0B [(32, 4 + 16 * (6 + card.val))]
    { s with nvFault := (4, 6 + card.val), vflashLatched := s.vflashLatched.set card true }
  .next (if getF s (cardState card) = 0 then s1 else cardLost card (setCard card 5 s1))

/-- R204, R468: a card is pulled.  Without PREPARE_REMOVE it becomes ABSENT at once. -/
def execCardPulled (card : Fin 2) (s : State) : Res :=
  let s1 := { s with cardSeated := s.cardSeated.set card false }
  .next (if getF s (cardState card) = 0 then s1 else cardLost card (setCard card 0 s1))

/-- R204, R468: a card is inserted: its VFLASH switch closes, it is in INIT, is erased, and starts rebuilding. -/
def execCardInserted (card : Fin 2) (serial wearPct sparePct : Nat) (s : State) : Res :=
  .next (if getF s (cardState card) = 0 && !s.cardSeated.getD card false then
    let s1 := { s with cardSeated := s.cardSeated.set card true, cardSerial := s.cardSerial.set card serial,
                       vflashLatched := s.vflashLatched.set card false,
                       extents := s.extents.map fun p => (p.1, if extentCard p.1 = card.val then { p.2 with onCard := false } else p.2) }
    let s2 := setBit (setF (setF s1 (cardWear card) wearPct) (cardSpare card) sparePct) Reg.MEM_CARD_CMD_RELEASED card false
    setCard card 3 (setCard card 1 s2)
  else s)

/-- R204, R367: one extent of a rebuilding card has been rewritten: an image-area extent from its DRAM working copy
(`failing` granules of it are written as marked ones), every other from its host copy. -/
def execExtentRebuilt (extent : Nat) (hostOk : Bool) (failing : List Nat) (s : State) : Res :=
  let n := extentCard extent
  .next (match alGet s.extents extent with
    | some e =>
      if (getF s (cardState n) = 1 ∨ getF s (cardState n) = 3) ∧ !e.onCard ∧ (isImageExtent extent ∨ hostCopy s extent hostOk) then
        let s1 := setCard n 3 (setExtent s extent { e with onCard := true })
        if isImageExtent extent then setMarks s1 (failing.filter fun g => extentOf (g * 64) == extent) true
        else bump s1 Reg.MEM_HOST_FETCH 128
      else s
    | none => s)

/-- R204: the last extent is written and the card becomes ACTIVE. -/
def execCardRebuildDone (card : Fin 2) (s : State) : Res :=
  .next (if (getF s (cardState card) = 1 ∨ getF s (cardState card) = 3) &&
      s.extents.all (fun p => extentCard p.1 != card.val || p.2.onCard) then setCard card 2 s else s)

/-- R468: every extent of a load on the card has a valid host copy, or the card is FAILED. -/
def removeSafe (s : State) (n : Nat) : Bool :=
  getF s (cardState n) == 5 || s.extents.all (fun p =>
    extentCard p.1 != n || (match p.2.owner with | .gen _ => p.2.host.isSome | .small _ => p.2.host.isSome | _ => true))

/-- R468: MEM_CARD_CMD PREPARE_REMOVE. -/
def execPrepareRemove (p : Port) (card : Fin 2) (s : State) : Res :=
  let other := 1 - card.val
  let busy := getB s Reg.MEM_LOAD_STATUS_BUSY || (getB s Reg.ENG_IMG_STATUS_BUSY && getF s Reg.ENG_IMG_STATUS_PHASE == 1)
  .next (viaPf0 s p fun s =>
    if getF s (cardState other) ≠ 2 ∨ busy ∨ !removeSafe s card then setF s Reg.MEM_CARD_CMD_STATUS 0x10
    else
      setBit (cardLost card (setCard card 0 (setF s Reg.MEM_CARD_CMD_STATUS 0))) Reg.MEM_CARD_CMD_RELEASED card true)

/-- R468: MEM_CARD_CMD CANCEL returns an ABSENT card that is still seated to INIT. -/
def execCardCancel (p : Port) (card : Fin 2) (s : State) : Res :=
  .next (viaPf0 s p fun s =>
    if getF s (cardState card) = 0 && s.cardSeated.getD card false then
      setCard card 1 (setBit (setF s Reg.MEM_CARD_CMD_STATUS 0) Reg.MEM_CARD_CMD_RELEASED card false)
    else setF s Reg.MEM_CARD_CMD_STATUS 0x10)

end Sys2Proof.Machine
end

