-- ==== Sys2Proof/Machine/Engines.lean ====
section
/-!
DEFINITION. Machine/Engines.lean: the command interface of the engines (R120 to R123, R143) and Iris, Crocus and Dahlia
(R124 to R128, R169, R171).
-/
namespace Sys2Proof.Machine

/-! ### Queues (R120 to R122) -/

def engKey (h : Half) (e : Engine) : Nat := halfNum h * 8 + engineNum e
def engQueue (s : State) (h : Half) (e : Engine) : List EngCmd := smGet [] s.engQ (engKey h e)
def setEngQueue (s : State) (h : Half) (e : Engine) (q : List EngCmd) : State :=
  { s with engQ := smSet [] s.engQ (engKey h e) q }

/-- R120: the address of a command record. -/
def recBase (h : Half) (granule : Nat) : Nat := 2 ^ 63 + halfNum h * 2 ^ 27 + granule % 2 ^ 21 * 64

/-- Enter a command in the queue; the queue's pointer passes the requester (R117, R118). -/
def engEnqueue (h : Half) (e : Engine) (c : EngCmd) (s : State) : State :=
  grantTo (setEngQueue s h e (engQueue s h e ++ [c])) (16 + engKey h e) 193 c.src

/-- R120, R122: an ENG instruction.  The queue holds 64 commands; issue into a full one stalls. -/
def execEngRequest (i : Ins) (engine : Engine) (half : Half) (granule : Nat) (s : State) : Res :=
  .next (if (stallCause i (some .eng) s).isNone && !coreFenced s i.core && decide (64 ≤ (engQueue s half engine).length) then
      stalled i.core 1 s
    else issueWith i (some .eng) ⟨6, 0, engineNum engine⟩ true
      (engEnqueue half engine ⟨i.core, i.index, granule, i.layer, i.vary, none⟩) s)

/-- The first command of a queue that the engine has not run. -/
def firstOpen : List EngCmd → Option EngCmd
  | [] => none
  | c :: t => if c.status.isNone then some c else firstOpen t

/-- Give the first command that has not run its status. -/
def closeFirst (st : Nat) : List EngCmd → List EngCmd
  | [] => []
  | c :: t => if c.status.isNone then { c with status := some st } :: t else c :: closeFirst st t

/-- R143: ENG_ENGINE_LAST_FAULT; its change is a FAULT cause (R434). -/
def engFault (h : Half) (engine cause layer : Nat) (s : State) : State :=
  irqBoth 3 (setF (setF (setF (setF s Reg.ENG_ENGINE_LAST_FAULT_ENGINE engine) Reg.ENG_ENGINE_LAST_FAULT_HALF (halfNum h))
    Reg.ENG_ENGINE_LAST_FAULT_CAUSE cause) Reg.ENG_ENGINE_LAST_FAULT_LAYER layer)

/-! ### Operands and outputs (R123, R125, R192) -/

/-- `n` bytes at an engine address, little-endian; a refused device address reads as zero. -/
def engLe (s : State) (a n : Nat) : Nat := if bit a 63 || devReadOk s a n then rdLe s (engAddr a) n else 0

/-- R192: an engine's write; a refused address takes nothing. -/
def engPut (s : State) (a : Nat) (bs : List Nat) : State :=
  if bit a 63 then storeLocal s (commonsAddr a) bs
  else if devWriteOk s a bs.length then storeLocal s a bs else s

def engPutRuns (s : State) (l : List (Nat × List Nat)) : State := l.foldl (fun t p => engPut t p.1 p.2) s

/-- What reading operands brought: the granules whose data is poisoned. -/
structure Opnd where
  s : State
  bad : List Nat

/-- R123, R207, R208: read one operand range.  A read that waits for its master copy receives correct data. -/
def engIn (chk : List (Nat × Check)) (hostOk : Bool) (o : Opnd) (r : Nat × Nat) : Opnd :=
  if bit r.1 63 then
    let b := (granulesOf (commonsAddr r.1) r.2).filter (marked o.s)
    ⟨bump o.s Reg.MEM_SRAM_DETECT b.length, b ++ o.bad⟩
  else if devReadOk o.s r.1 r.2 then
    let rr := devRead o.s r.1 r.2 chk hostOk
    ⟨{ rr.s with refetch := rr.s.refetch ++ rr.stall.map fun g => ⟨g, .inStep⟩ }, rr.bad ++ o.bad⟩
  else o

def engInputs (chk : List (Nat × Check)) (hostOk : Bool) (rs : List (Nat × Nat)) (s : State) : Opnd :=
  rs.foldl (engIn chk hostOk) ⟨s, []⟩

/-- R123: count the poisoned operand granules; they are a local poison source of the portion. -/
def engDetect (h : Half) (e : Engine) (layer : Nat) (bad : List Nat) (s : State) : State :=
  if bad.isEmpty then s
  else addPoison (.engine e h layer) (engFault h (engineNum e) 2 layer (bump s Reg.ENG_CMD_DETECT bad.length))

/-- An element of format 0 bfloat16 or 1 binary32, widened to binary32; in a poisoned granule it is the poison NaN. -/
def engElem (s : State) (bad : List Nat) (fmt a i : Nat) : Nat :=
  let w := if fmt = 0 then 2 else 4
  let p := engAddr a + w * i
  if bad.contains (p / 64) then ieeeNan binary32 true
  else if fmt = 0 then bf16to32 (engLe s (a + w * i) 2) else engLe s (a + w * i) 4

/-! ### Running a command (R121) -/

/-- What a command came to: the state and the status it will report. -/
structure EngRes where
  s : State
  status : Nat := 0

/-- R83: a rerun counts the format events of a command that its watchdog had stopped, and of no other. -/
def countAgain (c : EngCmd) (eff : State → EngRes) (s : State) : EngRes :=
  match s.portion with
  | some p =>
    if p.rerun && p.stopped.contains (c.src, c.index, c.granule) then
      let r := eff { s with portion := some { p with rerun := false, stopped := p.stopped.erase (c.src, c.index, c.granule) } }
      { r with s := { r.s with portion := r.s.portion.map fun q => { q with rerun := true } } }
    else eff s
  | none => eff s

/-- R121: take the first command not yet run, if its OPCODE is `op`.  A record that fails its checks completes with
ACCESS_DENIED: it is a local poison source, and only `deny` (Poppy's results) is written. -/
def runEngine (h : Half) (e : Engine) (op : Nat) (ok : State → Nat → Bool) (deny : Nat → State → State)
    (eff : EngCmd → Nat → State → EngRes) (s : State) : State :=
  match firstOpen (engQueue s h e) with
  | none => s
  | some c =>
    let a := recBase h c.granule
    if rdByte s a ≠ op then s
    else
      let s0 := if c.vary then markVary s else s
      let r : EngRes :=
        if anyMarked s a 128 then ⟨addPoison (.engine e h c.layer) (engDetect h e c.layer [a / 64]
          (bump (deny a s0) Reg.MEM_SRAM_DETECT ((granulesOf a 128).filter (marked s)).length)), 0x23⟩
        else if rdLe s (a + 4) 2 ≠ c.layer ∨ ok s a = false then ⟨addPoison (.engine e h c.layer) (deny a s0), 0x23⟩
        else countAgain c (eff c a) s0
      setEngQueue r.s h e (closeFirst r.status (engQueue r.s h e))

/-- The opcodes of an engine (R125 to R133, R144). -/
def engOpcodes : Engine → List Nat
  | .iris => [1, 2, 3]
  | .poppy => [1, 2]
  | _ => [1]

/-- R121: complete the first command of the queue: STATUS is written and the ENG instruction completes.  A record with a
reserved OPCODE, which no operation takes, is denied here. -/
def engineDone (h : Half) (e : Engine) (latency : Nat) (s : State) : State :=
  let fin := fun (c : EngCmd) (st : Nat) (t : State) =>
    let t1 := storeLocal t (recBase h c.granule + 8) [st]
    complete c.src .eng c.index latency (setEngQueue t1 h e (engQueue t1 h e).tail)
  match engQueue s h e with
  | [] => s
  | c :: _ =>
    match c.status with
    | some st => fin c st s
    | none =>
      if (engOpcodes e).contains (rdByte s (recBase h c.granule)) then s
      else fin c 0x23 (addPoison (.engine e h c.layer) s)

def execEngineCommandDone (half : Half) (engine : Engine) (latency : Nat) (s : State) : Res :=
  .next (engineDone half engine latency s)

/-! ### Conversions of engine commands -/

/-- A conversion into blocks: runs of bytes, events, traps, and a non-finite input that is no poison.  In an attempt that
has been aborted nothing is left of it (R107). -/
def engConvDone (h : Half) (e : Engine) (c : EngCmd) (o : ConvOut) (s : State) : State :=
  if abortedAttempt s c.src c.layer then s
  else if o.trapped then raiseTrap c.src c.layer s
  else
    let s1 := countFmt c.layer o.ev (engPutRuns s o.runs)
    if o.localPoison then addPoison (.engine e h c.layer) s1 else s1

def convJoin (l : List ConvOut) : ConvOut :=
  ⟨l.flatMap fun o => o.runs, fmtEvSum (l.map fun o => o.ev), l.any fun o => o.trapped, l.any fun o => o.localPoison⟩

/-- Quantise one block of binary32 values to the three places of its parts (`recAt` none for KV8). -/
def engBlock (kv : Bool) (ctl : Nat) (dr : Nat → Option Nat) (xs : List Nat) (codeAt scaleAt : Nat) (recAt : Option Nat) : ConvOut :=
  let x := xs.map dec32
  let q := quantise kv (ctlRank ctl) (ctlOvf ctl) dr x
  ⟨[(codeAt, blkCodeBytes q.blk), (scaleAt, [q.blk.scale])] ++ (match recAt with | some a => [(a, blkRecord q.blk)] | none => []),
   q.ev, q.trapped, q.ev.poison != 0 && !x.any numPoison⟩

/-- The places of block (i, b) of an A-tile (R136). -/
def tileBlock (ctl : Nat) (dr : Nat → Option Nat) (xs : List Nat) (base i b : Nat) : ConvOut :=
  engBlock false ctl dr xs (base + (4 * i + b) * 32) (base + 16384 + 4 * i + b) (some (base + 16896 + (4 * i + b) * 8))

/-! ### Iris (R124 to R126) -/

/-- R124: the larger; +0 above -0; a NaN when either is. -/
def max32 (x y : Nat) : Nat :=
  let a := dec32 x
  let b := dec32 y
  if numIsNan a || numIsNan b then ieeeNan binary32 (numPoison a || numPoison b)
  else if numLt a b then y else if numLt b a then x
  else if numIsZero a then (if x = 0 ∨ y = 0 then 0 else x) else x

/-- R124: a sum in order, from its first term; an empty sum is +0. -/
def sum32 : List Nat → Nat
  | [] => 0
  | x :: t => t.foldl add32 x

def negInf32 : Nat := 0xFF800000

/-- The fields of a SOFTMAX record (R125, R169). -/
structure SmRec where
  phase : Nat
  first : Bool
  mask : Nat
  rows : Nat
  keys : Nat
  scale : Nat
  window : Nat
  qPos0 : Nat
  kPos0 : Nat
  src : Nat
  dst : Nat
  st : Nat
  qHead0 : Nat
  group : Nat
  ctl : Nat
  ctx : Nat

def smRec (s : State) (a : Nat) : SmRec :=
  { phase := rdByte s (a + 16) % 128, first := bit (rdByte s (a + 16)) 7, mask := rdByte s (a + 17),
    rows := rdByte s (a + 18) + 1, keys := rdLe s (a + 20) 2, scale := rdLe s (a + 24) 4, window := rdLe s (a + 28) 4,
    qPos0 := rdLe s (a + 32) 4, kPos0 := rdLe s (a + 36) 4, src := rdLe s (a + 40) 8, dst := rdLe s (a + 48) 8,
    st := rdLe s (a + 56) 8, qHead0 := rdLe s (a + 64) 2 % 4096, group := rdByte s (a + 66) % 32, ctl := rdLe s (a + 6) 2,
    ctx := rdLe s (a + 2) 2 % 4096 }

def attPolicy (s : State) (layer : Nat) : Option AttPolicy :=
  match s.img with | some i => i.att.find? fun p => p.layer == layer | none => none

/-- R121, R125, R169: the record holds no value out of range; GROUP matches the layer policy.  NORM forces ROUND and the
stream of its control word. -/
def smOk (s : State) (a : Nat) : Bool :=
  let r := smRec s a
  decide (r.phase ≤ 2) && decide (r.mask ≤ 2) && decide (r.rows ≤ 128) && decide (32 ≤ r.keys) && decide (r.keys ≤ 2048) &&
  r.keys % 32 == 0 && decide (1 ≤ r.group) && decide (r.group ≤ 16) &&
  r.rows % r.group == 0 &&
  (match attPolicy s (rdLe s (a + 4) 2) with | some p => p.group == r.group && (decide (p.headDim ≤ 128) || decide (r.rows ≤ 64)) | none => true) &&
  (r.phase != 2 || (ctlOk (r.ctl / 2 * 2) && r.dst % 64 == 0))

/-- R125: key k is masked for row i. -/
def smMasked (r : SmRec) (i k : Nat) : Bool :=
  let q := r.qPos0 + i / r.group
  let p := r.kPos0 + k
  (r.mask != 0 && decide (q < p)) || (r.mask == 2 && decide (p + r.window ≤ q)) || decide (r.keys ≤ k)

/-- R125: t(i, k). -/
def smT (s : State) (bad : List Nat) (r : SmRec) (i k : Nat) : Nat :=
  mul32 (engElem s bad 0 r.src (r.keys * i + k)) r.scale

/-- A row-state record: M, L and N. -/
def smState (s : State) (bad : List Nat) (r : SmRec) (i : Nat) : Nat × Nat × Nat :=
  let a := r.st + 16 * i
  (engElem s bad 1 a 0, engElem s bad 1 a 1, engLe s (a + 8) 4)

def smStateRun (r : SmRec) (i : Nat) (m l n : Nat) : Nat × List Nat :=
  (r.st + 16 * i, leBytes 4 m ++ leBytes 4 l ++ leBytes 4 n)

/-- R125 MAX for one row. -/
def smMaxRow (s : State) (bad : List Nat) (r : SmRec) (i : Nat) : Nat × List Nat :=
  let st := if r.first then (negInf32, 0, 0) else smState s bad r i
  let m := ((List.range r.keys).filter fun k => !smMasked r i k).foldl (fun m k => max32 m (smT s bad r i k)) st.1
  smStateRun r i m st.2.1 (st.2.2 % 2 ^ 32)

/-- R125 SUM for one row. -/
def smSumRow (s : State) (bad : List Nat) (r : SmRec) (i : Nat) : Nat × List Nat :=
  let st := smState s bad r i
  let ks := (List.range r.keys).filter fun k => !smMasked r i k
  let l := ks.foldl (fun l k => add32 l (exp32 (sub32 (smT s bad r i k) st.1))) st.2.1
  smStateRun r i st.1 l ((st.2.2 + ks.length) % 2 ^ 32)

/-- R125 NORM for one block of one row, in the tiles of R171; draws under stream 0x03. -/
def smNormBlk (s : State) (bad : List Nat) (r : SmRec) (layer i b : Nat) : ConvOut :=
  let base := r.dst + 20992 * (b / 4)
  if r.keys ≤ 32 * b then
    ⟨[(base + (4 * i + b % 4) * 32, List.replicate 32 0), (base + 16384 + 4 * i + b % 4, [0]),
      (base + 16896 + (4 * i + b % 4) * 8, List.replicate 8 0)], {}, false, false⟩
  else
    let st := smState s bad r i
    let p := fun k => if smMasked r i k then 0 else div32 (exp32 (sub32 (smT s bad r i k) st.1)) st.2.1
    let dr := fun e => some (drawFor s r.ctx layer 3 (r.qPos0 + i / r.group)
      ((r.qHead0 + i % r.group) * 2 ^ 20 + (r.kPos0 + 32 * b + e)))
    tileBlock r.ctl dr ((List.range 32).map fun e => p (32 * b + e)) base i (b % 4)

def smEffect (h : Half) (chk : List (Nat × Check)) (hostOk : Bool) (c : EngCmd) (a : Nat) (s : State) : EngRes :=
  let r := smRec s a
  let stIn := if r.phase = 0 ∧ r.first then [] else [(r.st, 16 * r.rows)]
  let o := engInputs chk hostOk ([(r.src, 2 * r.keys * r.rows)] ++ stIn) s
  let s1 := engDetect h .iris c.layer o.bad o.s
  match r.phase with
  | 0 => ⟨engPutRuns s1 ((List.range r.rows).map (smMaxRow s1 o.bad r)), 0⟩
  | 1 => ⟨engPutRuns s1 ((List.range r.rows).map (smSumRow s1 o.bad r)), 0⟩
  | _ =>
    let nb := (r.keys + 127) / 128 * 4
    ⟨engConvDone h .iris c (convJoin ((List.range r.rows).flatMap fun i => (List.range nb).map fun b =>
      smNormBlk s1 o.bad r c.layer i b)) s1, 0⟩

/-- R125: Iris runs one phase of softmax on one chunk. -/
def execSoftmax (half : Half) (chk : List (Nat × Check)) (hostOk : Bool) (s : State) : Res :=
  .next (runEngine half .iris 1 smOk (fun _ t => t) (smEffect half chk hostOk) s)

/-- The fields of a norm record (R126). -/
structure NormRec where
  inFmt : Nat
  out : Nat
  gFmt : Nat
  bFmt : Nat
  rows : Nat
  n : Nat
  eps : Nat
  pos0 : Nat
  src : Nat
  dst : Nat
  g : Nat
  b : Nat
  ctl : Nat
  ctx : Nat

def normRec (s : State) (a : Nat) : NormRec :=
  let f := rdByte s (a + 16)
  { inFmt := f % 2, out := f / 2 % 2, gFmt := f / 4 % 2, bFmt := f / 8 % 2, rows := rdByte s (a + 17) % 128 + 1,
    n := rdLe s (a + 20) 4, eps := rdLe s (a + 24) 4, pos0 := rdLe s (a + 28) 4, src := rdLe s (a + 32) 8,
    dst := rdLe s (a + 40) 8, g := rdLe s (a + 48) 8, b := rdLe s (a + 56) 8, ctl := rdLe s (a + 6) 2,
    ctx := rdLe s (a + 2) 2 % 4096 }

def normOk (s : State) (a : Nat) : Bool :=
  let r := normRec s a
  decide (32 ≤ r.n) && decide (r.n ≤ 32768) && r.n % 32 == 0 && ctlOk r.ctl

/-- An unsigned integer as binary32 (exact below 2^24). -/
def nat32 (n : Nat) : Nat := round32 (.fin false n 1)

/-- R126: one row of RMSNORM. -/
def rmsRow (x g : List Nat) (n eps : Nat) : List Nat :=
  let ss := sum32 (x.map fun v => mul32 v v)
  let r := rsqrt32 (add32 (div32 ss (nat32 n)) eps)
  List.zipWith (fun v w => mul32 (mul32 v r) w) x g

/-- R126: one row of LAYERNORM. -/
def layerRow (x g b : List Nat) (n eps : Nat) : List Nat :=
  let mu := div32 (sum32 x) (nat32 n)
  let d := x.map fun v => sub32 v mu
  let v := div32 (sum32 (d.map fun u => mul32 u u)) (nat32 n)
  let r := rsqrt32 (add32 v eps)
  List.zipWith (fun p w => add32 p w) (List.zipWith (fun u w => mul32 (mul32 u r) w) d g) b

/-- The draw of element j of row i of a norm (R126), none when rounding to nearest. -/
def normDraw (s : State) (r : NormRec) (layer i j : Nat) : Option Nat :=
  if ctlRound r.ctl then some (drawFor s r.ctx layer (ctlStream r.ctl) (r.pos0 + i) j) else none

/-- R126: write row i of the output, in bfloat16 or A8. -/
def normOut (s : State) (r : NormRec) (layer i : Nat) (y : List Nat) : ConvOut :=
  if r.out = 1 then
    let z := (List.range r.n).map fun j => convIeee bfloat16 (normDraw s r layer i j) (dec32 (y.getD j 0))
    ⟨[(r.dst + 2 * r.n * i, z.flatMap fun q => leBytes 2 q.1)], { sat := (z.filter fun q => q.2).length }, false, false⟩
  else
    let nb := r.n / 32
    convJoin ((List.range nb).map fun b =>
      engBlock false r.ctl (fun e => normDraw s r layer i (32 * b + e)) ((y.drop (32 * b)).take 32)
        (r.dst + 32 * (nb * i + b)) (r.dst + 32 * nb * r.rows + nb * i + b)
        (some (r.dst + 64 * ((33 * nb * r.rows + 63) / 64) + 8 * (nb * i + b))))

def normEffect (layerNorm : Bool) (h : Half) (chk : List (Nat × Check)) (hostOk : Bool) (c : EngCmd) (a : Nat) (s : State) : EngRes :=
  let r := normRec s a
  let w := fun f => if f = 0 then 2 else 4
  let o := engInputs chk hostOk ([(r.src, w r.inFmt * r.n * r.rows), (r.g, w r.gFmt * r.n)] ++
    (if layerNorm then [(r.b, w r.bFmt * r.n)] else [])) s
  let s1 := engDetect h .iris c.layer o.bad o.s
  let g := (List.range r.n).map (engElem s1 o.bad r.gFmt r.g)
  let b := (List.range r.n).map (engElem s1 o.bad r.bFmt r.b)
  let row := fun i =>
    let x := (List.range r.n).map fun j => engElem s1 o.bad r.inFmt r.src (r.n * i + j)
    normOut s1 r c.layer i (if layerNorm then layerRow x g b r.n r.eps else rmsRow x g r.n r.eps)
  ⟨engConvDone h .iris c (convJoin ((List.range r.rows).map row)) s1, 0⟩

/-- R126: RMS norm. -/
def execRmsnorm (half : Half) (chk : List (Nat × Check)) (hostOk : Bool) (s : State) : Res :=
  .next (runEngine half .iris 2 normOk (fun _ t => t) (normEffect false half chk hostOk) s)

/-- R126: layer norm. -/
def execLayernorm (half : Half) (chk : List (Nat × Check)) (hostOk : Bool) (s : State) : Res :=
  .next (runEngine half .iris 3 normOk (fun _ t => t) (normEffect true half chk hostOk) s)

/-! ### Crocus (R127) -/

structure RotRec where
  kind : Nat
  pairing : Nat
  inFmt : Nat
  rotDims : Nat
  headDim : Nat
  heads : Nat
  head0 : Nat
  vectors : Nat
  pos0 : Nat
  src : Nat
  dst : Nat
  f : Nat
  ctl : Nat
  ctx : Nat

def rotRec (s : State) (a : Nat) : RotRec :=
  let f := rdByte s (a + 16)
  { kind := f % 2, pairing := f / 2 % 2, inFmt := f / 4 % 2, rotDims := rdLe s (a + 18) 2 % 512, headDim := rdLe s (a + 20) 2 % 512,
    heads := rdLe s (a + 22) 2 % 4096, head0 := rdLe s (a + 24) 2 % 4096, vectors := rdLe s (a + 28) 4, pos0 := rdLe s (a + 32) 4,
    src := rdLe s (a + 40) 8, dst := rdLe s (a + 48) 8, f := rdLe s (a + 56) 8, ctl := rdLe s (a + 6) 2,
    ctx := rdLe s (a + 2) 2 % 4096 }

def rotOk (s : State) (a : Nat) : Bool :=
  let r := rotRec s a
  decide (1 ≤ r.headDim) && decide (r.headDim ≤ 256) && decide (r.rotDims ≤ r.headDim) && r.rotDims % 2 == 0 &&
  decide (1 ≤ r.heads) && decide (1 ≤ r.vectors) && decide (r.vectors ≤ 2048) &&
  (r.kind == 1 || (ctlOk r.ctl && r.dst % 64 == 0))

/-- R127: the pair that element d belongs to and whether it is the pair's first element. -/
def rotPair (r : RotRec) (d : Nat) : Nat × Bool :=
  if r.pairing = 0 then (d / 2, d % 2 == 0) else if d < r.rotDims / 2 then (d, true) else (d - r.rotDims / 2, false)

/-- R127: element d of vector v after rotation, in binary32. -/
def rotElem (s : State) (bad : List Nat) (r : RotRec) (v d : Nat) : Nat :=
  let x := fun k => engElem s bad r.inFmt r.src (r.headDim * v + k)
  if r.rotDims ≤ d then x d
  else
    let p := rotPair r d
    let i0 := if r.pairing = 0 then 2 * p.1 else p.1
    let i1 := if r.pairing = 0 then 2 * p.1 + 1 else p.1 + r.rotDims / 2
    let ang := numMul (.fin false (r.pos0 + v / r.heads) 1) (dec32 (engElem s bad 1 r.f p.1))
    let c := dec32 (cos32 ang)
    let n := dec32 (sin32 ang)
    if p.2 then round32 (numAdd (numMul (dec32 (x i0)) c) (numNeg (numMul (dec32 (x i1)) n)))
    else round32 (numAdd (numMul (dec32 (x i0)) n) (numMul (dec32 (x i1)) c))

def rotEffect (h : Half) (chk : List (Nat × Check)) (hostOk : Bool) (c : EngCmd) (a : Nat) (s : State) : EngRes :=
  let r := rotRec s a
  let w := if r.inFmt = 0 then 2 else 4
  let o := engInputs chk hostOk [(r.src, w * r.headDim * r.vectors), (r.f, 2 * r.rotDims)] s
  let s1 := engDetect h .crocus c.layer o.bad o.s
  if r.kind = 1 then
    ⟨engPutRuns s1 ((List.range r.vectors).map fun v =>
      (r.dst + 4 * r.headDim * v, (List.range r.headDim).flatMap fun d => leBytes 4 (rotElem s1 o.bad r v d))), 0⟩
  else
    let nt := (r.headDim + 127) / 128
    let dr := fun v d => if ctlRound r.ctl then
      some (drawFor s1 r.ctx c.layer (ctlStream r.ctl) (r.pos0 + v / r.heads) ((r.head0 + v % r.heads) * 256 + d)) else none
    let blk := fun v b => tileBlock r.ctl (fun e => dr v (32 * b + e))
      ((List.range 32).map fun e => if 32 * b + e < r.headDim then rotElem s1 o.bad r v (32 * b + e) else 0)
      (r.dst + 20992 * (nt * (v / 128) + b / 4)) (v % 128) (b % 4)
    ⟨engConvDone h .crocus c (convJoin ((List.range r.vectors).flatMap fun v => (List.range (4 * nt)).map (blk v))) s1, 0⟩

/-- R127: Crocus rotates query or key vectors. -/
def execRotate (half : Half) (chk : List (Nat × Check)) (hostOk : Bool) (s : State) : Res :=
  .next (runEngine half .crocus 1 rotOk (fun _ t => t) (rotEffect half chk hostOk) s)

/-! ### Dahlia (R128, R188) -/

structure AppRec where
  vFmt : Nat
  headDim : Nat
  kvHead0 : Nat
  kvHeads : Nat
  tokens : Nat
  pos0 : Nat
  kSrc : Nat
  vSrc : Nat
  pool : Nat
  pageBytes : Nat
  kOff : Nat
  vOff : Nat
  headStride : Nat
  draft0 : Nat
  ctx : Nat

def appRec (s : State) (a : Nat) : AppRec :=
  { vFmt := rdByte s (a + 16) % 2, headDim := rdLe s (a + 18) 2 % 512, kvHead0 := rdLe s (a + 20) 2 % 4096,
    kvHeads := rdLe s (a + 22) 2 % 4096, tokens := rdLe s (a + 24) 4, pos0 := rdLe s (a + 28) 4, kSrc := rdLe s (a + 32) 8,
    vSrc := rdLe s (a + 40) 8, pool := rdLe s (a + 56) 8, pageBytes := rdLe s (a + 64) 4, kOff := rdLe s (a + 68) 4,
    vOff := rdLe s (a + 72) 4, headStride := rdLe s (a + 76) 4, draft0 := rdLe s (a + 80) 4, ctx := rdLe s (a + 2) 2 % 4096 }

/-- A span entry of a context; none while the span is unmapped. -/
def spanOf (s : State) (ctx span : Nat) : Option SpanEnt :=
  match alGet s.ctxs ctx with | some c => alGet c.spans span | none => none

/-- The spans that positions [p, p + n) touch. -/
def spansOf (p n : Nat) : List Nat := if n = 0 then [] else (List.range ((p + n - 1) / 64 - p / 64 + 1)).map (· + p / 64)

/-- R128: the record is in range and every span of the command is mapped. -/
def appOk (s : State) (a : Nat) : Bool :=
  let r := appRec s a
  decide (1 ≤ r.headDim) && decide (r.headDim ≤ 256) && decide (1 ≤ r.kvHeads) && decide (1 ≤ r.tokens) &&
  decide (r.tokens ≤ 32768) && (spansOf r.pos0 r.tokens).all fun p => (spanOf s r.ctx p).isSome

/-- R128, R137: block b of one head's key or value vector of token t. -/
def appBlk (s : State) (bad : List Nat) (r : AppRec) (layer : Nat) (value : Bool) (t hd b : Nat) : ConvOut :=
  let nb := (r.headDim + 31) / 32
  let p := r.pos0 + t
  let page := match spanOf s r.ctx (p / 64) with | some e => e.page | none => 0
  let base := r.pool + r.pageBytes * page + (if value then r.vOff else r.kOff) + r.headStride * hd
  let v0 := r.headDim * (r.kvHeads * t + hd)
  let x := fun d => if r.headDim ≤ d then 0 else if value then engElem s bad r.vFmt r.vSrc (v0 + d) else engElem s bad 1 r.kSrc (v0 + d)
  engBlock true 0 (fun e => some (drawFor s r.ctx layer (if value then 2 else 1) p ((r.kvHead0 + hd) * 256 + 32 * b + e)))
    ((List.range 32).map fun e => x (32 * b + e)) (base + (nb * (p % 64) + b) * 32) (base + 2048 * nb + nb * (p % 64) + b) none

/-- R188: a span that receives draft rows. -/
def markSpec (draftPos tag : Nat) (span : Nat) (e : SpanEnt) : SpanEnt :=
  let row := max draftPos (64 * span) - 64 * span
  { e with spec := true, specRow := if e.spec && e.specTag == tag then min e.specRow row else row, specTag := tag }

def setSpans (ctx : Nat) (f : List (Nat × SpanEnt) → List (Nat × SpanEnt)) (s : State) : State :=
  { s with ctxs := s.ctxs.map fun p => if p.1 = ctx then (p.1, { p.2 with spans := f p.2.spans }) else p }

/-- R177: the 8 bytes of a span-table entry. -/
def spanBytes (e : Option SpanEnt) : List Nat :=
  match e with
  | none => leBytes 4 0xFFFFFFFF ++ leBytes 4 0
  | some e => leBytes 4 e.page ++ [b2n e.prov + 2 * b2n e.shared + 4 * (e.gen % 2) + 8 * b2n e.spec + 16 * (e.specRow % 16),
      e.specRow % 64 / 16, e.specTag % 256, 0]

/-- R177, R247: write a context's span table. -/
def syncTable (ctx : Nat) (s : State) : State :=
  match alGet s.ctxs ctx with
  | none => s
  | some c => (List.range ((c.desc.maxLen + 63) / 64)).foldl (fun t k => putDev t (c.table + 8 * k) (spanBytes (alGet c.spans k))) s

def appEffect (h : Half) (chk : List (Nat × Check)) (hostOk : Bool) (c : EngCmd) (a : Nat) (s : State) : EngRes :=
  let r := appRec s a
  let n := r.headDim * r.kvHeads * r.tokens
  let o := engInputs chk hostOk [(r.kSrc, 4 * n), (r.vSrc, (if r.vFmt = 0 then 2 else 4) * n)] s
  let s1 := engDetect h .dahlia c.layer o.bad o.s
  let outs := (List.range r.tokens).flatMap fun t => (List.range r.kvHeads).flatMap fun hd =>
    (List.range ((r.headDim + 31) / 32)).flatMap fun b =>
      [appBlk s1 o.bad r c.layer false t hd b, appBlk s1 o.bad r c.layer true t hd b]
  let s2 := engConvDone h .dahlia c (convJoin outs) s1
  let drafts := if r.draft0 < r.tokens then spansOf (r.pos0 + r.draft0) (r.tokens - r.draft0) else []
  ⟨syncTable r.ctx (setSpans r.ctx (fun l => l.map fun p =>
    if drafts.contains p.1 then (p.1, markSpec (r.pos0 + r.draft0) (curStep s % 256) p.1 p.2) else p) s2), 0⟩

/-- R128: Dahlia appends keys and values to the request's pages. -/
def execAppend (half : Half) (chk : List (Nat × Check)) (hostOk : Bool) (s : State) : Res :=
  .next (runEngine half .dahlia 1 appOk (fun _ t => t) (appEffect half chk hostOk) s)

end Sys2Proof.Machine
end

