-- ==== Sys2Proof/Machine/Poppy.lean ====
section
/-!
DEFINITION. Machine/Poppy.lean: sampling, verification and stop checks (R129 to R131, R255), and Lattice's walk of the
prefix tree (R132, R133).
-/
namespace Sys2Proof.Machine

/-! ### Stop checks (R131, R254, R255) -/

/-- A sequence ends the emitted tokens (`hist` newest first). -/
def seqEnds (hist seq : List Nat) : Bool := seq != [] && hist.take seq.length == seq.reverse

/-- R131, R255: the lowest reason that holds after emitting `tok` at position `pos` as the `n`-th token of the request. -/
def stopReason (c : Ctx) (before : List Nat) (tok pos n : Nat) : Nat :=
  let hist := (tok :: before).take 16
  if c.stop.tokens.contains tok then 1
  else if c.stop.seqs.any (seqEnds hist) then 2
  else if c.desc.maxNew ≤ n ∨ c.desc.maxLen ≤ pos + 1 then 3
  else 0

/-- The tokens this step has emitted for a context, newest first, before its last 15 (R131). -/
def ctxHist (s : State) (ctx : Nat) : List Nat := match alGet s.ctxs ctx with | some c => c.hist | none => []

/-- R243: keep what the step produced for a context, for its return message. -/
def keepReturn (r : RetReq) (s : State) : State :=
  { s with portion := s.portion.map fun p => { p with returns := p.returns.filter (fun x => x.ctx != r.ctx) ++ [r] } }

/-! ### SAMPLE (R129) -/

/-- TEMP as R129 takes it: none when it is negative, infinite or NaN. -/
def tempOf (bits : Nat) : Option Nat :=
  match dec32 bits with
  | .fin n a _ => if a = 0 then some 0 else if n then none else some bits
  | _ => none

/-- Candidate j with its scaled logit. -/
def candBefore (a b : Nat × Nat) : Bool := numLt (dec32 b.2) (dec32 a.2)

/-- The lowest index with the largest value. -/
def argMax : List (Nat × Nat) → Option (Nat × Nat)
  | [] => none
  | x :: t => some (t.foldl (fun b y => if candBefore y b then y else b) x)

/-- R129: floor(exp32(t - m) * 2^40), and 2^40 for the maximum. -/
def candWeight (m t : Nat) : Nat :=
  let eq := match dec32 t, dec32 m with
    | .inf a, .inf b => a == b
    | x, y => !numLt x y && !numLt y x
  if eq then 2 ^ 40
  else match dec32 (exp32 (sub32 t m)) with
    | .fin _ a d => a * 2 ^ 40 / d
    | _ => 0

/-- The shortest leading part whose weights reach the bound. -/
def leadingPart (bound : Nat) : Nat → List (Nat × Nat) → List (Nat × Nat)
  | _, [] => []
  | acc, x :: t => if bound ≤ (acc + x.2) * 65536 then [x] else x :: leadingPart bound (acc + x.2) t

/-- The first index whose running sum exceeds the target. -/
def pickAt (target : Nat) : Nat → List (Nat × Nat) → Option Nat
  | _, [] => none
  | acc, x :: t => if target < acc + x.2 then some x.1 else pickAt target (acc + x.2) t

/-- R129: by weight descending, ties to the lower token number. -/
def heavier (a b : Nat × Nat) : Bool := decide (b.2 < a.2) || (decide (a.2 = b.2) && decide (a.1 < b.1))

/-- R129: weights of the candidates as (index, weight) to the index drawn with u. -/
def drawToken (topP u : Nat) (ws : List (Nat × Nat)) : Option Nat :=
  let total := (ws.map fun x => x.2).sum
  let p := if topP = 0 then ws else leadingPart (topP * total) 0 (sortBy heavier ws)
  let w := (p.map fun x => x.2).sum
  pickAt (u * w / 2 ^ 48) 0 (sortBy (fun a b => decide (a.1 < b.1)) p)

/-- R129: the token that logits (binary32 codes) give; none when any is a NaN. -/
def sampleToken (x : List Nat) (temp topK topP u : Nat) : Option Nat :=
  if x.any fun v => numIsNan (dec32 v) then none
  else
    let xs := List.zip (List.range x.length) x
    if temp = 0 then (argMax xs).map Prod.fst
    else
      let ts := xs.map fun p => (p.1, div32 p.2 temp)
      let c := if topK = 0 then ts else (sortBy candBefore ts).take topK
      match argMax c with
      | none => none
      | some m => drawToken topP u (c.map fun p => (p.1, candWeight m.2 p.2))

/-- R82, R129, R210: a NaN among the logits that is no poison NaN, which Poppy itself turns into poison.  A poison NaN
was recorded where it arose. -/
def freshNan (x : List Nat) : Bool := x.any fun v => numIsNan (dec32 v) && !numPoison (dec32 v)

structure PopRec where
  entropy : Bool
  fmt : Nat
  n : Nat
  topP : Nat
  topK : Nat
  temp : Nat
  v : Nat
  pos : Nat
  logits : Nat
  out : Nat
  ctx : Nat

def popRec (s : State) (a : Nat) : PopRec :=
  let f := rdByte s (a + 16)
  { entropy := bit f 0, fmt := f / 2 % 2, n := rdByte s (a + 17) % 16, topP := rdLe s (a + 18) 2, topK := rdLe s (a + 20) 2 % 2048,
    temp := rdLe s (a + 24) 4, v := rdLe s (a + 28) 4, pos := rdLe s (a + 32) 4, logits := rdLe s (a + 40) 8,
    out := rdLe s (a + 48) 8, ctx := rdLe s (a + 2) 2 % 4096 }

/-- R121, R129, R130: the record is in range and TEMP is valid. -/
def popOk (verify : Bool) (s : State) (a : Nat) : Bool :=
  let r := popRec s a
  decide (1 ≤ r.v) && decide (r.v ≤ 2 ^ 20) && decide (r.topK ≤ 1024) && (tempOf r.temp).isSome &&
  (!verify || (decide (1 ≤ r.n) && decide (r.n ≤ 8)))

def noToken : Nat := 0xFFFFFFFF

/-- R129: the 16-byte result. -/
def sampleResult (tok reason : Nat) : List Nat := leBytes 4 tok ++ [reason] ++ List.replicate 11 0

/-- R130: the 64-byte result. -/
def verifyResult (a reason : Nat) (toks : List Nat) : List Nat :=
  (leBytes 4 a ++ [reason, 0, 0, 0] ++ toks.flatMap (leBytes 4) ++ List.replicate 64 0).take 64

/-- R123: the result of a command that produces no token. -/
def popNoToken (verify : Bool) (a : Nat) (s : State) : State :=
  engPut s (popRec s a).out (if verify then verifyResult 0 0 [noToken] else sampleResult noToken 0)

/-- R243: the command brings its context no token. -/
def noToken0 (a : Nat) (s : State) : State := keepReturn ⟨(popRec s a).ctx, [], 0, 0, true⟩ s

/-- R121, R129, R130: a denied command writes its result only where TEMP is what was invalid. -/
def popDeny (verify : Bool) (a : Nat) (s : State) : State :=
  noToken0 a (if (tempOf (popRec s a).temp).isNone then popNoToken verify a s else s)

/-- R129: u, from the generator or from hardware entropy; with the number of free values taken. -/
def popU (s : State) (r : PopRec) (pos k : Nat) : Nat :=
  if r.entropy then (Config.entropy (s.fresh + k)).toNat
  else drawFor s r.ctx 0xFFFF 5 pos 0 * 2 ^ 24 + drawFor s r.ctx 0xFFFF 5 pos 1

def popLogits (s : State) (bad : List Nat) (r : PopRec) (base : Nat) : List Nat :=
  (List.range r.v).map (engElem s bad r.fmt base)

/-- R131: the emitted tokens and reason of a context's record, where the context is known. -/
def popReason (s : State) (ctx : Nat) (before : List Nat) (tok pos n : Nat) : Nat :=
  match alGet s.ctxs ctx with
  | some c => stopReason c (before ++ c.hist) tok pos (c.emitted + n)
  | none => 0

def sampleEffect (h : Half) (chk : List (Nat × Check)) (hostOk : Bool) (c : EngCmd) (a : Nat) (s : State) : EngRes :=
  let r := popRec s a
  let o := engInputs chk hostOk [(r.logits, (if r.fmt = 0 then 2 else 4) * r.v)] s
  let s1 := engDetect h .poppy c.layer o.bad o.s
  let s2 := if r.entropy then { s1 with fresh := s1.fresh + 1 } else s1
  let x := popLogits s1 o.bad r r.logits
  match sampleToken x ((tempOf r.temp).getD 0) r.topK r.topP (popU s1 r r.pos 0) with
  | none =>
    let s3 := if freshNan x then addPoison (.engine .poppy h c.layer) s2 else s2
    ⟨keepReturn ⟨r.ctx, [], 0, 0, true⟩ (engPut s3 r.out (sampleResult noToken 0)), 0⟩
  | some t =>
    let rs := popReason s2 r.ctx [] t r.pos 1
    ⟨keepReturn ⟨r.ctx, [t], 0, rs, false⟩ (engPut s2 r.out (sampleResult t rs)), 0⟩

/-- R129: Poppy selects one token. -/
def execSample (half : Half) (chk : List (Nat × Check)) (hostOk : Bool) (s : State) : Res :=
  .next (runEngine half .poppy 1 (popOk false) (popDeny false) (sampleEffect half chk hostOk) s)

/-! ### VERIFY (R130) -/

/-- What a verify comes to. -/
structure VerOut where
  a : Nat
  toks : List Nat
  reason : Nat
  nan : Bool
deriving DecidableEq, Repr

/-- R130: go through the vectors from draft i (counted from 0): `samples` gives s_(i+1) or none for a NaN; `done` are
the accepted drafts so far, in order. -/
def verifyFrom (reason : List Nat → Nat → Nat → Nat) (drafts : List Nat) : List (Option Nat) → Nat → List Nat → VerOut
  | [], i, done => ⟨i, done, 0, false⟩
  | none :: _, i, done => ⟨i, done ++ [noToken], 0, true⟩
  | some t :: rest, i, done =>
    let rs := reason done.reverse t i
    match drafts[i]? with
    | none => ⟨i, done ++ [t], rs, false⟩
    | some d =>
      if d = t then
        -- an accepted draft; a stop condition met by draft d_(i+1) ends the result with a = i
        if rs ≠ 0 then ⟨i, done ++ [t], rs, false⟩ else verifyFrom reason drafts rest (i + 1) (done ++ [t])
      else ⟨i, done ++ [t], rs, false⟩

def verifyStride (r : PopRec) : Nat := ((if r.fmt = 0 then 2 else 4) * r.v + 63) / 64 * 64

def verifyEffect (h : Half) (chk : List (Nat × Check)) (hostOk : Bool) (c : EngCmd) (a : Nat) (s : State) : EngRes :=
  let r := popRec s a
  let drafts := (List.range r.n).map fun i => rdLe s (a + 64 + 4 * i) 4
  let o := engInputs chk hostOk [(r.logits, verifyStride r * (r.n + 1))] s
  let s1 := engDetect h .poppy c.layer o.bad o.s
  let samples := (List.range (r.n + 1)).map fun i =>
    sampleToken (popLogits s1 o.bad r (r.logits + i * verifyStride r)) ((tempOf r.temp).getD 0) r.topK r.topP (popU s1 r (r.pos + i) i)
  let v := verifyFrom (fun before t i => popReason s1 r.ctx before t (r.pos + i) (i + 1)) drafts samples 0 []
  let s2 := if r.entropy then { s1 with fresh := s1.fresh + r.n + 1 } else s1
  let s3 := engPut s2 r.out (verifyResult v.a v.reason v.toks)
  let s4 := if v.nan && freshNan (popLogits s1 o.bad r (r.logits + v.a * verifyStride r)) then addPoison (.engine .poppy h c.layer) s3 else s3
  ⟨keepReturn ⟨r.ctx, v.toks.filter (· != noToken), v.a, v.reason, v.nan⟩ s4, 0⟩

/-- R130: Poppy verifies drafts. -/
def execVerify (half : Half) (chk : List (Nat × Check)) (hostOk : Bool) (s : State) : Res :=
  .next (runEngine half .poppy 2 (popOk true) (popDeny true) (verifyEffect half chk hostOk) s)

/-! ### Lattice (R132 to R134) -/

/-- The lease and binding a walk asks for, and its prompt. -/
structure WalkRec where
  tenant : Nat
  binding : Nat
  len : Nat
  root : Nat
  prompt : Nat
  out : Nat

def walkRec (s : State) (a : Nat) : WalkRec :=
  { tenant := rdLe s (a + 16) 2, binding := rdLe s (a + 18) 2, len := rdLe s (a + 20) 4, root := rdLe s (a + 24) 8,
    prompt := rdLe s (a + 32) 8, out := rdLe s (a + 40) 8 }

/-- R132: the 320 bytes of a node fail their detection code. -/
def nodeBad (s : State) (chk : List (Nat × Check)) (node : Nat) : Bool :=
  (granulesOf node 320).any fun g => checkOf s chk g == .hard

/-- Token k of the prompt; none where its granule fails its code (R123). -/
def promptTok (s : State) (chk : List (Nat × Check)) (r : WalkRec) (k : Nat) : Option Nat :=
  let a := r.prompt + 4 * k
  if checkOf s chk (engAddr a / 64) == .hard then none else some (engLe s a 4)

/-- R132, R133: the first child of `node`, in entry order, that the prompt's next 64 tokens match, or that fails its
code. -/
def childMatch (s : State) (chk : List (Nat × Check)) (r : WalkRec) (node at0 : Nat) : Option Nat :=
  let n := rdLe s (node + 260) 4
  let arr := rdLe s (node + 264) 8
  let tok := fun k => promptTok s chk r (at0 + k)
  let ok := fun (k : Nat) =>
    let child := rdLe s (arr + 16 * k + 8) 8
    some (rdLe s (arr + 16 * k) 4) == tok 0 && devReadOk s child 320 &&
    (nodeBad s chk child ||
      ((List.range 64).all (fun j => some (rdLe s (child + 4 * j) 4) == tok j) &&
       rdLe s (child + 256) 2 == r.tenant && rdLe s (child + 258) 2 == r.binding))
  ((List.range n).find? ok).map fun k => rdLe s (arr + 16 * k + 8) 8

/-- What a walk comes to: matched tokens, last node, the node that failed its code and ended it (0 for none), and the
nodes read. -/
structure WalkOut where
  matched : Nat := 0
  node : Nat := 0
  detect : Nat := 0
  seen : List Nat := []
deriving DecidableEq, Repr

/-- The child array of a node fails its code (R132). -/
def arrayBad (s : State) (chk : List (Nat × Check)) (node : Nat) : Bool :=
  (granulesOf (rdLe s (node + 264) 8) (16 * rdLe s (node + 260) 4)).any fun g => checkOf s chk g == .hard

/-- R133: walk on from `node` with `m` tokens matched. -/
def walkFrom (s : State) (chk : List (Nat × Check)) (r : WalkRec) : Nat → Nat → WalkOut → WalkOut
  | 0, _, w => w
  | fuel + 1, node, w =>
    if r.len < w.matched + 64 then w
    else if arrayBad s chk node then { w with detect := node + 1 }
    else match childMatch s chk r node w.matched with
      | none => w
      | some c => if nodeBad s chk c then { w with detect := c + 1 }
                  else walkFrom s chk r fuel c { w with matched := w.matched + 64, node := c, seen := c :: w.seen }

/-- R121, R132, R133: PROMPT_LEN is in range and the root is aligned as a node is. -/
def walkOk (s : State) (a : Nat) : Bool := decide ((walkRec s a).len ≤ 1048576) && (walkRec s a).root % 64 == 0

def walkResult (m node : Nat) : List Nat := leBytes 4 m ++ [0, 0, 0, 0] ++ leBytes 8 node

/-- R133: the walk of a record. -/
def walkOut (s : State) (chk : List (Nat × Check)) (r : WalkRec) : WalkOut :=
  if nodeBad s chk r.root then { detect := r.root + 1 } else walkFrom s chk r 16384 r.root { seen := [r.root] }

/-- R207: nodes that passed on their second read. -/
def walkReread (chk : List (Nat × Check)) (w : WalkOut) (s : State) : State :=
  ((w.seen.flatMap fun n => granulesOf n 320).dedup.filter fun g => checkOf s chk g == .reread).foldl
    (fun t _ => addRecovered (bump t Reg.MEM_REREAD_OK 1)) s

def walkEffect (h : Half) (chk : List (Nat × Check)) (c : EngCmd) (a : Nat) (s : State) : EngRes :=
  let r := walkRec s a
  let w := walkOut s chk r
  let o := engInputs chk true [(r.prompt, 4 * min r.len (w.matched + 64))] s
  let s0 := walkReread chk w (engDetect h .lattice c.layer o.bad o.s)
  let s1 := if w.detect = 0 then s0
    else engFault h 5 4 c.layer (bump (bump s0 Reg.ENG_LATTICE_NODE_DETECT 1) Reg.MEM_DRAM_DETECT 1)
  ⟨engPut s1 r.out (walkResult w.matched w.node), 0⟩

/-- R133: Lattice walks the prefix tree. -/
def execWalk (half : Half) (chk : List (Nat × Check)) (s : State) : Res :=
  .next (runEngine half .lattice 1 walkOk (fun _ t => t) (walkEffect half chk) s)

end Sys2Proof.Machine
end

