-- ==== Sys2Proof/Machine/Aster.lean ====
section
/-!
DEFINITION. Machine/Aster.lean: expert routing (R144 to R161, R166), hot-expert promotion, and the engines' watchdog
(R123).
-/
namespace Sys2Proof.Machine

structure RouteCmd where
  k : Nat
  alt : Nat
  cf16 : Nat
  score : Nat
  normTopk : Bool
  renorm : Bool
  noWait : Bool
  biasEn : Bool
  validEn : Bool
  e : Nat
  t : Nat
  scale : Nat
  logits : Nat
  valid : Nat
  bias : Nat
  slots : Nat
  headers : Nat
  dispatch : Nat
deriving DecidableEq, Repr

/-- R144: the record's fields. -/
def routeRec (s : State) (a : Nat) : RouteCmd :=
  let f := rdByte s (a + 19)
  { k := rdByte s (a + 16) % 32, alt := rdByte s (a + 17) % 8, cf16 := rdByte s (a + 18) % 128, score := f % 4,
    normTopk := bit f 2, renorm := bit f 3, noWait := bit f 4, biasEn := bit f 5, validEn := bit f 6,
    e := rdLe s (a + 20) 2 % 8192, t := rdLe s (a + 24) 2, scale := rdLe s (a + 28) 4, logits := rdLe s (a + 32) 8,
    valid := rdLe s (a + 40) 8, bias := rdLe s (a + 48) 8, slots := rdLe s (a + 56) 8, headers := rdLe s (a + 64) 8,
    dispatch := rdLe s (a + 72) 8 }

/-- R144: every field in range and every address aligned to a granule. -/
def routeOk (s : State) (a : Nat) : Bool :=
  let r := routeRec s a
  decide (1 ≤ r.k) && decide (r.k ≤ 16) && decide (r.k ≤ r.e) && decide (r.alt ≤ 4) && decide (16 ≤ r.cf16) &&
  decide (r.cf16 ≤ 64) && decide (r.score ≤ 2) && decide (1 ≤ r.e) && decide (r.e ≤ 4096) && decide (1 ≤ r.t) &&
  decide (r.t ≤ 32768) && [r.logits, r.valid, r.bias, r.slots, r.headers, r.dispatch].all (fun x => x % 64 == 0)

def rowStride (e : Nat) : Nat := 64 * ((e + 15) / 16)

/-! ### Scoring (R147 to R150) -/

def one32 : Nat := 0x3F800000
def neg32 (x : Nat) : Nat := round32 (numNeg (dec32 x))

/-- R147: scores of one row. -/
def scoreRow (score : Nat) (x : List Nat) : List Nat :=
  match score with
  | 0 =>
    let m := match x with | [] => negInf32 | a :: t => t.foldl max32 a
    if m = negInf32 then x.map fun _ => 0
    else
      let ex := x.map fun v => exp32 (sub32 v m)
      let l := sum32 ex
      ex.map fun v => div32 v l
  | 1 => x.map fun v => div32 one32 (add32 one32 (exp32 (neg32 v)))
  | _ => x

def isNan32 (x : Nat) : Bool := numIsNan (dec32 x)
def isInf32 (x : Nat) : Bool := match dec32 x with | .inf _ => true | _ => false

/-- A scored row: p, and the ranked experts; `poison` under R148. -/
structure RowScore where
  poison : Bool
  p : List Nat
  rank : List Nat
deriving DecidableEq, Repr

/-- R147 to R149: score and rank one row. -/
def scoreAndRank (r : RouteCmd) (x bias : List Nat) : RowScore :=
  let p := scoreRow r.score x
  let sel := if r.biasEn then List.zipWith add32 p bias else p
  let bad := x.any isNan32 || (r.biasEn && bias.any isNan32) || p.any isNan32 || sel.any isNan32 || (r.score == 2 && x.any isInf32)
  ⟨bad, p, (sortBy candBefore (List.zip (List.range r.e) sel)).map Prod.fst⟩

/-- R150: the gate weight of an expert. -/
def gateWeight (r : RouteCmd) (row : RowScore) (e : Nat) : Nat :=
  let pv := fun x => row.p.getD x 0
  let g := sum32 ((row.rank.take r.k).map pv)
  mul32 (if r.normTopk then (if numIsZero (dec32 g) then 0 else div32 (pv e) g) else pv e) r.scale

/-! ### Capacity and assignment (R151, R152) -/

/-- R151. -/
def capacity (r : RouteCmd) (tv : Nat) : Nat := min tv ((r.cf16 * tv * r.k + 16 * r.e - 1) / (16 * r.e))

/-- A slot of a row: the expert and rank taken, whether a non-resident one was passed over. -/
structure SlotOut where
  expert : Option Nat
  rank : Nat
  subst : Bool
deriving DecidableEq, Repr

/-- The running assignment: tokens per expert, SUBST, experts to fetch. -/
structure AsgSt where
  fill : List (Nat × Nat) := []
  subst : Nat := 0
  fetch : List Nat := []
deriving DecidableEq, Repr

/-- R152: one slot, from candidate `cand` at rank `rk` on; `cursor` is the row's cursor. -/
def assignSlot (r : RouteCmd) (resident : Nat → Bool) (cap : Nat) (rank : List Nat) :
    Nat → Nat → Nat → Nat → Nat → Bool → AsgSt → SlotOut × Nat × AsgSt
  | 0, _, _, cursor, _, sub, a => (⟨none, 0, sub⟩, cursor, a)
  | fuel + 1, cand, rk, cursor, misses, sub, a =>
    let next := fun (m : Nat) (sb : Bool) (st : AsgSt) =>
      if r.e < cursor then (⟨none, 0, sb⟩, cursor, st)
      else assignSlot r resident cap rank fuel (rank.getD (cursor - 1) 0) cursor (cursor + 1) m sb st
    if r.noWait && !resident cand then
      next misses true { a with subst := a.subst + 1, fetch := if a.fetch.contains cand then a.fetch else a.fetch ++ [cand] }
    else if smGet 0 a.fill cand < cap then
      (⟨some cand, rk, sub⟩, cursor, { a with fill := smSet 0 a.fill cand (smGet 0 a.fill cand + 1) })
    else if r.alt < misses + 1 then (⟨none, 0, sub⟩, cursor, a)
    else next (misses + 1) sub a

/-- R152: the slots of one row. -/
def assignRow (r : RouteCmd) (resident : Nat → Bool) (cap : Nat) (rank : List Nat) (a : AsgSt) : List SlotOut × AsgSt :=
  let st := (List.range r.k).foldl (fun (acc : List SlotOut × Nat × AsgSt) i =>
    let o := assignSlot r resident cap rank (r.e + 1) (rank.getD i 0) (i + 1) acc.2.1 0 false acc.2.2
    (acc.1 ++ [o.1], o.2.1, o.2.2)) ([], r.k + 1, a)
  (st.1, st.2.2)

/-- One row of the batch after routing. -/
structure RowOut where
  valid : Bool
  poison : Bool
  slots : List SlotOut
  weights : List Nat
deriving DecidableEq, Repr

/-- R150, R153: the weights of a row's slots. -/
def slotWeights (r : RouteCmd) (row : RowScore) (slots : List SlotOut) : List Nat :=
  let w := slots.map fun o => match o.expert with | some e => gateWeight r row e | none => 0
  let taken := (List.zip slots w).filter fun p => p.1.expert.isSome
  if r.renorm && slots.any (fun o => o.expert.isNone) && !taken.isEmpty then
    let gw := sum32 ((row.rank.take r.k).map (gateWeight r row))
    let a := sum32 (taken.map fun p => p.2)
    if numIsZero (dec32 a) then w
    else
      let f := div32 gw a
      (List.zip slots w).map fun p => if p.1.expert.isSome then mul32 p.2 f else p.2
  else w

/-- The whole routing. -/
structure RouteOut where
  rows : List RowOut
  tv : Nat
  cap : Nat
  asg : AsgSt
  demand : List Nat
deriving DecidableEq, Repr

/-- R146 to R153: route the batch; `row t` gives row t's validity and logits. -/
def routeBatch (r : RouteCmd) (resident : Nat → Bool) (row : Nat → Bool × List Nat) (bias : List Nat) : RouteOut :=
  let scored := (List.range r.t).map fun t =>
    let x := row t
    (x.1, if x.1 then scoreAndRank r x.2 bias else ⟨false, [], []⟩)
  let tv := (scored.filter fun x => x.1 && !x.2.poison).length
  let cap := capacity r tv
  let res := scored.foldl (fun (acc : List RowOut × AsgSt) x =>
    if x.1 && !x.2.poison then
      let o := assignRow r resident cap x.2.rank acc.2
      (acc.1 ++ [⟨true, false, o.1, slotWeights r x.2 o.1⟩], o.2)
    else (acc.1 ++ [⟨x.1, x.1 && x.2.poison, [], []⟩], acc.2)) ([], {})
  let prim := (scored.filter fun x => x.1 && !x.2.poison).flatMap fun x => x.2.rank.take r.k
  ⟨res.1, tv, cap, res.2, (List.range r.e).map fun e => prim.count e⟩

/-! ### Output tables (R154, R155) -/

/-- R154: a slot. -/
def slotBytes (k : Nat) (o : Option SlotOut) (w : Nat) (poison : Bool) : List Nat :=
  match o with
  | some ⟨some e, rk, sub⟩ => leBytes 2 e ++ [min rk 255, b2n (decide (k < rk)) + 8 * b2n sub] ++ leBytes 4 w
  | some ⟨none, _, sub⟩ => [0xFF, 0xFF, 0, 2 + 8 * b2n sub] ++ leBytes 4 0
  | none => [0xFF, 0xFF, 0, 4 * b2n poison] ++ leBytes 4 0

def rowSlots (k : Nat) (o : RowOut) : List Nat :=
  (List.range 16).flatMap fun i => slotBytes k o.slots[i]? (o.weights.getD i 0) o.poison

/-- R155: (expert, row, slot, weight) of every assigned slot, by expert and then by row. -/
def dispatchList (rows : List RowOut) : List (Nat × Nat × Nat × Nat) :=
  sortBy (fun a b => decide (a.1 < b.1)) ((List.zip (List.range rows.length) rows).flatMap fun tr =>
    (List.zip (List.range tr.2.slots.length) tr.2.slots).filterMap fun is =>
      match is.2.expert with
      | some e => some (e, tr.1, is.1, tr.2.weights.getD is.1 0)
      | none => none)

def countOf (d : List (Nat × Nat × Nat × Nat)) (e : Nat) : Nat := (d.filter fun x => x.1 == e).length

def headerBytes (e : Nat) (d : List (Nat × Nat × Nat × Nat)) : List Nat :=
  (List.range e).flatMap fun x => leBytes 4 (d.filter fun y => decide (y.1 < x)).length ++ leBytes 4 (countOf d x)

def dispatchBytes (d : List (Nat × Nat × Nat × Nat)) : List Nat :=
  d.flatMap fun x => leBytes 2 x.2.1 ++ [x.2.2.1, 0] ++ leBytes 4 x.2.2.2

/-! ### Routing a layer -/

/-- R157: the step has assigned tokens to these experts. -/
def holdExperts (slot layer step : Nat) (es : List Nat) (s : State) : State :=
  { s with experts := s.experts.map fun x =>
      if x.slot = slot ∧ x.layer = layer ∧ es.contains x.expert then { x with held := step :: x.held.filter (· != step) } else x }

/-- Keep a layer's routing for the step's record; a fallback's replaces the attempt's (R166). -/
def keepRoute (r : RouteRec) (s : State) : State :=
  { s with portion := s.portion.map fun p =>
      { p with routes := sortBy (fun a b => decide (a.layer < b.layer)) (p.routes.filter (fun x => x.layer != r.layer) ++ [r]) } }

def layerTrapped (s : State) (layer : Nat) : Bool := match s.portion with | some p => p.trapped.contains layer | none => false

def poison32 : Nat := ieeeNan binary32 true

/-- R144 to R161: one ROUTE.  A VALID byte that fails its check poisons its rows (R123); a row that is poisoned with no
poison NaN among its inputs is a local source (R148, R211). -/
def routeEffect (h : Half) (chk : List (Nat × Check)) (hostOk : Bool) (c : EngCmd) (a : Nat) (s : State) : EngRes :=
  let r := routeRec s a
  let stride := rowStride r.e
  let o := engInputs chk hostOk ([(r.logits, stride * r.t)] ++ (if r.biasEn then [(r.bias, 4 * r.e)] else []) ++
    (if r.validEn then [(r.valid, (r.t + 7) / 8)] else [])) s
  let s1 := engDetect h .aster c.layer o.bad o.s
  let bias := (List.range r.e).map (engElem s1 o.bad 1 r.bias)
  let row := fun t => if r.validEn && o.bad.contains (engAddr (r.valid + t / 8) / 64) then (true, List.replicate r.e poison32) else
    (!r.validEn || bit (engLe s1 (r.valid + t / 8) 1) (t % 8), (List.range r.e).map (engElem s1 o.bad 1 (r.logits + t * stride)))
  let slot := genSlot s1
  let out := routeBatch r (fun e => expertRes s1 slot c.layer e == .dram) row bias
  let d := dispatchList out.rows
  let s2 := engPut (engPut (engPut s1 r.slots (out.rows.flatMap (rowSlots r.k))) r.headers (headerBytes r.e d)) r.dispatch (dispatchBytes d)
  let reached := (List.range r.e).filter fun e => 0 < smGet 0 out.asg.fill e
  let wanted := if r.noWait then out.asg.fetch.filter fun e => expertRes s1 slot c.layer e == .flash
    else reached.filter fun e => expertRes s1 slot c.layer e == .flash
  let s3 := wanted.foldl (requestFetch slot c.layer) (holdExperts slot c.layer (curStep s1) reached s2)
  let slots := out.rows.flatMap fun x => x.slots
  let rec0 : RouteRec :=
    { layer := c.layer, e := r.e, k := r.k, vary := decide (0 < out.asg.subst), fallback := layerTrapped s1 c.layer, gen := slot,
      tokens := out.tv, capacity := out.cap, dropped := (slots.filter fun x => x.expert.isNone).length,
      alternate := (slots.filter fun x => x.expert.isSome && decide (r.k < x.rank)).length, substituted := out.asg.subst,
      fetches := wanted.length, assigned := (List.range r.e).map fun e => smGet 0 out.asg.fill e, demand := out.demand }
  let s4 := keepRoute rec0 s3
  let fresh := (List.zip (List.range r.t) out.rows).any fun x =>
    x.2.poison && !((row x.1).2 ++ (if r.biasEn then bias else [])).any fun v => numPoison (dec32 v)
  ⟨if fresh then addPoison (.engine .aster h c.layer) s4 else s4, 0⟩

/-- R144: Aster routes one layer. -/
def execRoute (half : Half) (chk : List (Nat × Check)) (hostOk : Bool) (s : State) : Res :=
  .next (runEngine half .aster 1 routeOk (fun _ t => t) (routeEffect half chk hostOk) s)

/-! ### Hot-expert promotion (R161) -/

/-- R161: heat after a boundary. -/
def heatNext (shift h demand : Nat) : Nat := min (h - h / 2 ^ shift + demand * 256) 0xFFFFFFFF

/-- R161: c before d as a candidate for promotion. -/
def hotBefore (c d : ExpertSt) : Bool :=
  decide (d.heat < c.heat) || (c.heat == d.heat && (decide (c.layer < d.layer) || (c.layer == d.layer && decide (c.expert < d.expert))))

/-- R161: promote the candidates in order, at most `left` fetches. -/
def promoteFrom (hyst : Nat) : Nat → List ExpertSt → State → State
  | 0, _, s => s
  | _, [], s => s
  | left + 1, c :: t, s =>
    if expertFramesUsed s + c.extents.length ≤ expertBudget s then promoteFrom hyst left t (startFetch c s)
    else match victim s c.slot with
      | some v => if v.heat + hyst < c.heat then promoteFrom hyst left t (startFetch c (demoteExpert v s)) else s
      | none => s

/-- R161: every PROMOTE_EVERY boundaries control firmware starts fetches of hot experts and demotes victims. -/
def execExpertPromotion (s : State) : Res :=
  .next (match s.img with
    | none => s
    | some i =>
      if i.heat.every = 0 ∨ s.boundaries % i.heat.every ≠ 0 ∨ s.boundaries = 0 then s
      else promoteFrom i.heat.hyst i.heat.maxFetch (sortBy hotBefore (s.experts.filter fun x => x.res == .flash)) s)

/-! ### The watchdog (R123) -/

def poisonTile (base rows blocks : Nat) : List (Nat × List Nat) :=
  (List.range rows).flatMap fun i => (List.range blocks).flatMap fun b =>
    let t := base + 20992 * (b / 4)
    [(t + (4 * i + b % 4) * 32, List.replicate 32 0), (t + 16384 + 4 * i + b % 4, [0xFF]), (t + 16896 + (4 * i + b % 4) * 8, List.replicate 8 0)]

def p32 : List Nat := leBytes 4 poison32

/-- R123: a stopped command's outputs, poisoned. -/
def poisonOutputs (e : Engine) (a : Nat) (s : State) : List (Nat × List Nat) :=
  let op := rdByte s a
  match e with
  | .iris =>
    if op = 1 then
      if !smOk s a then []
      else
        let r := smRec s a
        if r.phase = 2 then poisonTile r.dst r.rows ((r.keys + 127) / 128 * 4)
        else (List.range r.rows).map fun i => (r.st + 16 * i, p32 ++ p32)
    else if (op = 2 ∨ op = 3) ∧ normOk s a then
      let r := normRec s a
      if r.out = 1 then [(r.dst, (List.range (r.n * r.rows)).flatMap fun _ => leBytes 2 (ieeeNan bfloat16 true))]
      else [(r.dst, List.replicate (r.n * r.rows) 0), (r.dst + r.n * r.rows, List.replicate (r.n / 32 * r.rows) 0xFF)]
    else []
  | .crocus =>
    if !rotOk s a then []
    else
      let r := rotRec s a
      if r.kind = 1 then [(r.dst, (List.range (r.headDim * r.vectors)).flatMap fun _ => p32)]
      else
        let nt := (r.headDim + 127) / 128
        (List.range ((r.vectors + 127) / 128)).flatMap fun g =>
          poisonTile (r.dst + 20992 * (nt * g)) (min 128 (r.vectors - 128 * g)) (4 * nt)
  | .dahlia =>
    if !appOk s a then []
    else
      let r := appRec s a
      let nb := (r.headDim + 31) / 32
      (List.range r.tokens).flatMap fun t => (List.range r.kvHeads).flatMap fun hd => [r.kOff, r.vOff].flatMap fun off =>
        let p := r.pos0 + t
        let base := r.pool + r.pageBytes * (match spanOf s r.ctx (p / 64) with | some x => x.page | none => 0) + off + r.headStride * hd
        [(base + 32 * nb * (p % 64), List.replicate (32 * nb) 0), (base + 2048 * nb + nb * (p % 64), List.replicate nb 0xFF)]
  | .poppy =>
    if (op = 1 ∧ popOk false s a) then [((popRec s a).out, sampleResult noToken 0)]
    else if (op = 2 ∧ popOk true s a) then [((popRec s a).out, verifyResult 0 0 [noToken])]
    else []
  | .lattice => if walkOk s a then [((walkRec s a).out, walkResult 0 0)] else []
  | .aster =>
    if !routeOk s a then []
    else
      let r := routeRec s a
      [(r.slots, (List.range r.t).flatMap fun _ => rowSlots r.k ⟨true, true, [], []⟩), (r.headers, List.replicate (8 * r.e) 0)]

/-- R83: the portion's rerun counts the conversions of a command that its watchdog stopped. -/
def noteStopped (c : EngCmd) (s : State) : State :=
  { s with portion := s.portion.map fun p => if p.rerun then p else { p with stopped := (c.src, c.index, c.granule) :: p.stopped } }

/-- R123: the first command not yet run is stopped 2 ms after it left the queue. -/
def execEngineWatchdog (half : Half) (engine : Engine) (s : State) : Res :=
  .next (match firstOpen (engQueue s half engine) with
    | none => s
    | some c =>
      let s1 := engPutRuns s (poisonOutputs engine (recBase half c.granule) s)
      let sr := if engine = .poppy then noToken0 (recBase half c.granule) s1 else s1
      let s2 := noteStopped c (addPoison (.engine engine half c.layer) (engFault half (engineNum engine) 1 c.layer (bump sr Reg.ENG_CMD_WDOG 1)))
      setEngQueue s2 half engine (closeFirst 0x31 (engQueue s2 half engine)))

end Sys2Proof.Machine
end

