-- ==== Sys2Proof/Machine/Counters.lean ====
section
/-!
DEFINITION. Machine/Counters.lean: performance counters, freeze, snapshots, sampling and the rings' registers (R164, R475 to
R489).
-/
namespace Sys2Proof.Machine

/-- R483: the moves from RETIRED to WASTED that fell during a freeze. -/
def applyMoves (s : State) : State :=
  let s1 := s.movesHeld.foldl (fun t m => wasteSlots m.1 m.2 t) { s with movesHeld := [] }
  s1

/-- R480: a write of PMC_CTL. -/
def execFreeze (p : Port) (on : Bool) (s : State) : Res :=
  .next (viaPf0 s p fun s =>
    let was := getB s Reg.PMC_CTL_FROZEN
    let s1 := setB (setB s Reg.PMC_CTL_FREEZE on) Reg.PMC_CTL_FROZEN on
    if was && !on then applyMoves s1 else s1)

/-! ### Snapshots (R481, R482) -/

/-- Bits [49:0] of a record's entry e. -/
def snapValue (s : State) (e : Nat) : Nat :=
  getF s (Reg.PMC_COUNTER e) + 2 ^ 48 * b2n (getBit s (Reg.PMC_OVF (e / 32)) (e % 32)) + 2 ^ 49 * b2n (chainBit s e)

/-- R481: every counter is captured at one alignment point; a request while BUSY is discarded and counted. -/
def startSnap (cause : Nat) (s : State) : State :=
  if getB s Reg.PMC_SNAP_STATUS_BUSY then countEv 0xEEE 1 s
  else
    let vals := ((List.range 4095).map fun e => (e, snapValue s e)).filter fun x => x.2 != 0
    let step := if getB s Reg.MEM_GEN_STATE_ENTRY then getF s Reg.CTX_STEP_NEXT else s.lastStep
    let sn : Snap := ⟨cause, getF s (Reg.PMC_COUNTER 0xEE8), step, getB s Reg.PMC_CTL_FROZEN, vals⟩
    { setF s Reg.PMC_SNAP_STATUS_BUSY 1 with snp.run := some sn }

def execSnap (p : Port) (s : State) : Res := .next (viaPf0 s p (startSnap 0))

/-- R481: under TRIG 1 a period of PERIOD us has passed; under TRIG 2 PERIOD step boundaries have. -/
def execSnapPeriod (t : Nat) (s : State) : Res :=
  .next (if !stageAlive s then s
    else
      let n := getF s Reg.PMC_SNAP_CTL_PERIOD
      let trig := getF s Reg.PMC_SNAP_CTL_TRIG
      if trig = 1 ∧ s.snp.at0 + n ≤ t / 1000 then startSnap 1 { atTime t s with snp.at0 := t / 1000 }
      else if trig = 2 ∧ n ≤ s.snp.steps then startSnap 2 { atTime t s with snp.steps := 0 }
      else s)

def snapBase (s : State) : Nat := getF s Reg.PMC_SNAP_BASE_LO * 64 + getF s Reg.PMC_SNAP_BASE_HI * 2 ^ 32

def overlaps (r : Region) (a n : Nat) : Bool := decide (0 < r.len) && decide (r.base < a + n) && decide (a < r.base + r.len)

/-- R481: the buffer lies in the DRAM direct window, clear of every region that the image maps and of retired vaults. -/
def snapOk (s : State) : Bool :=
  let n := getF s Reg.PMC_SNAP_RECORDS_RECORDS * 32832
  let a := snapBase s
  decide (0 < n) && decide (a + n ≤ 2 ^ 38) && (regionVaults ⟨a, n⟩).all (fun v => !vaultRetired s v) &&
  (match s.img with | some i => (vmapRegions i.vmap i.serving.kvPoolPages).all (fun r => !overlaps r a n) | none => true)

/-- R482: the bytes of a record. -/
def snapBytes (sn : Snap) (seq : Nat) : List Nat :=
  leBytes 8 seq ++ leBytes 8 sn.time ++ leBytes 8 sn.step ++ [sn.cause, b2n sn.frozen] ++ List.replicate 38 0 ++
  (List.range 4096).flatMap fun e => leBytes 8 ((alGet sn.values e).getD 0)

/-- R481: the record is written, or the snapshot ends refused. -/
def execSnapshotDone (s : State) : Res :=
  .next (match s.snp.run with
    | none => s
    | some sn =>
      let s1 := setF { s with snp.run := none } Reg.PMC_SNAP_STATUS_BUSY 0
      if !snapOk s then setF s1 Reg.PMC_SNAP_STATUS_STATUS 0x23
      else
        let k := getF s Reg.PMC_SNAP_STATUS_NEXT
        let s2 := putBytes s1 (snapBase s + 32832 * k) (snapBytes sn (s.snp.seq + 1))
        { setF (setF s2 Reg.PMC_SNAP_STATUS_STATUS 0) Reg.PMC_SNAP_STATUS_NEXT ((k + 1) % getF s Reg.PMC_SNAP_RECORDS_RECORDS) with
          snp.seq := s.snp.seq + 1 })

/-- R488: a write of PMC_SNAP_RECORDS resets NEXT. -/
def execSnapRecordsWrite (p : Port) (v : BitVec 32) (s : State) : Res :=
  .next (viaPf0 s p fun s =>
    let n := bitsAt v.toNat 0 9
    if getB s Reg.PMC_LOCK_LOCK ∨ 256 < n then s
    else setF (setF s Reg.PMC_SNAP_RECORDS_RECORDS n) Reg.PMC_SNAP_STATUS_NEXT 0)

/-! ### Sampling and layer slots (R484, R487) -/

/-- R484: a write of PMC_SMP_CTL; EN from 0 to 1 restarts every core's count. -/
def execSamplingEnable (p : Port) (v : BitVec 32) (s : State) : Res :=
  .next (viaPf0 s p fun s =>
    let n := bitsAt v.toNat 0 24
    if n < 256 then s
    else
      let en := bit v.toNat 24
      let s1 := setB (setF s Reg.PMC_SMP_CTL_N n) Reg.PMC_SMP_CTL_EN en
      if en && !getB s Reg.PMC_SMP_CTL_EN then
        (List.range 192).foldl (fun t c => coreSet t c { coreGet t c with smpCount := 0 }) s1
      else s1)

/-- R487: a write of PMC_LAYERn. -/
def execPmcLayerWrite (p : Port) (n : Fin 16) (v : BitVec 32) (s : State) : Res :=
  .next (viaPf0 s p fun s =>
    setB (setF s (Reg.PMC_LAYER_LAYER n) (bitsAt v.toNat 0 16)) (Reg.PMC_LAYER_EN n) (bit v.toNat 16))

/-- R487: the slots count for their new layers from the step boundary. -/
def latchLayers (s : State) : State :=
  { s with layerSlots := (List.range 16).foldl (fun m n =>
      smSet (0, false) m n (getF s (Reg.PMC_LAYER_LAYER n), getB s (Reg.PMC_LAYER_EN n))) s.layerSlots }

/-- R475: an event number that the table assigns. -/
def eventAssigned (e : Nat) : Bool :=
  decide (e < 0xDE0) || (decide (0xDE0 ≤ e) && decide (e < 0xE20)) || (decide (0xE20 ≤ e) && decide (e < 0xE30)) ||
  (decide (0xE30 ≤ e) && decide (e < 0xE40) && e % 8 != 7) || (decide (0xE40 ≤ e) && decide (e < 0xED8)) ||
  (decide (0xEE8 ≤ e) && decide (e < 0xEF0))

/-- R476: the core whose ACLK cycles or items a counter counts is shuttered. -/
def counterStopped (s : State) (e : Nat) : Bool := decide (e < 0x900) && coreFenced s (e % 0x300 / 4)

/-- R475, R476, R479: counter `e` counts enough of its events to wrap, and `past` more. -/
def execCounterWrap (e : Fin 4095) (past : Nat) (s : State) : Res :=
  .next (if clocked s && eventAssigned e && !counterStopped s e then countEv e (2 ^ 48 - getF s (Reg.PMC_COUNTER e) + past) s else s)

/-! ### The rings of R164 -/

def ringOf (n : Fin 3) : Ring := if n.val = 0 then asterRing else if n.val = 1 then journalRing else sampleRing

/-- R164: a write of a ring's EN. -/
def execRingEnable (p : Port) (ring : Fin 3) (en : Bool) (s : State) : Res := .next (viaPf0 s p (ringEnable (ringOf ring) en))

/-- R164: a write of a ring's TAIL. -/
def execRingTailWrite (p : Port) (ring : Fin 3) (v : BitVec 32) (s : State) : Res :=
  .next (viaPf0 s p (ringTail (ringOf ring) v.toNat))

end Sys2Proof.Machine
end

