-- ==== Sys2Proof/Machine/Contexts.lean ====
section
/-!
DEFINITION. Machine/Contexts.lean: contexts, span tables, the KV pool, quotas, eviction and committed prefixes (R175 to
R190, R245 to R247).
-/
namespace Sys2Proof.Machine

/-! ### Leases as the pool sees them (R181, R446) -/

def leaseSlot (s : State) (l : Nat) : Option Nat := s.sec.ks.leases.findIdx? fun x => x.st != 0 && x.lease == l
def leaseEnt (s : State) (l : Nat) : Option Lease := s.sec.ks.leases.find? fun x => x.st != 0 && x.lease == l

/-- R446: a lease that is not ACTIVE counts as not installed. -/
def leaseActive (s : State) (l : Nat) : Bool := match leaseEnt s l with | some x => x.st == 2 | none => false

/-- R446: the lease is bound to the port. -/
def leaseBound (s : State) (l : Nat) (p : Port) : Bool :=
  match leaseSlot s l with
  | some n => getBit s (match p with | .a => Reg.SEC_PORT_BIND_PORT_A | .b => Reg.SEC_PORT_BIND_PORT_B) n
  | none => false

def quotaOf (s : State) (l : Nat) : Nat := match leaseEnt s l with | some x => x.quota | none => 0

/-! ### The pool (R175, R176, R180, R181) -/

def poolTotal (s : State) : Nat := match s.img with | some i => i.serving.kvPoolPages | none => 0
def pageBytes (s : State) : Nat := match s.img with | some i => i.vmap.pageBytes | none => 0
def pageAddr (s : State) (p : Nat) : Nat := (match s.img with | some i => i.vmap.poolBase | none => 0) + p * pageBytes s
def freeCount (s : State) : Nat := poolTotal s - s.pages.length

/-- R181. -/
def usedPages (s : State) (l : Nat) : Nat := (s.pages.filter fun p => p.2.lease == l).length
def archivedPages (s : State) (l : Nat) : Nat :=
  ((s.prefs.filter fun p => p.2.lease == l && p.2.archived.isSome && p.2.pages.isEmpty).map fun p => p.2.spans).sum
def overQuota (s : State) (l : Nat) : Bool := decide (quotaOf s l < usedPages s l)

/-- R176, R180: take the lowest free page, filled with zero blocks. -/
def takePage (owner : PageOwner) (lease step : Nat) (s : State) : Option (Nat × State) :=
  match (List.range (poolTotal s)).find? (fun p => (alGet s.pages p).isNone) with
  | none => none
  | some p => some (p, { zeroRange s (pageAddr s p) (pageBytes s) with pages := alSet s.pages p ⟨owner, lease, step⟩ })

/-- Take `n` pages, in ascending page index. -/
def takePages (owner : PageOwner) (lease step : Nat) : Nat → State → Option (List Nat × State)
  | 0, s => some ([], s)
  | n + 1, s =>
    match takePage owner lease step s with
    | none => none
    | some (p, t) => (takePages owner lease step n t).map fun r => (p :: r.1, r.2)

/-- R182: LAST_TOUCH. -/
def touchPages (ps : List Nat) (step : Nat) (s : State) : State :=
  { s with pages := s.pages.map fun p => if ps.contains p.1 then (p.1, { p.2 with touch := step }) else p }

/-! ### Contexts -/

def setCtx (s : State) (id : Nat) (c : Ctx) : State := { s with ctxs := alSet s.ctxs id c }
def modCtx (s : State) (id : Nat) (f : Ctx → Ctx) : State :=
  match alGet s.ctxs id with | some c => setCtx s id (f c) | none => s

/-- R273: CTX_COUNT follows the contexts. -/
def countCtxs (s : State) : State :=
  setF (setF s Reg.CTX_COUNT_LIVE s.ctxs.length) Reg.CTX_COUNT_ORPHANED
    (s.ctxs.filter fun p => p.2.st == .orphaned).length

/-- Bytes of a span table (R247). -/
def tableBytes (maxLen : Nat) : Nat := ((maxLen + 63) / 64 * 8 + 4095) / 4096 * 4096

/-- R247: the lowest place in the context region that no other table overlaps. -/
def tablePlace (s : State) (maxLen : Nat) : Option Nat :=
  match s.img with
  | none => none
  | some i =>
    let r := i.vmap.ctxRegion
    let n := tableBytes maxLen
    let used := (s.ctxs.filter fun p => p.2.releaseStep.isNone && !p.2.freed).map fun p => (p.2.table, tableBytes p.2.desc.maxLen)
    let clear := fun a => used.all fun u => decide (a + n ≤ u.1) || decide (u.1 + u.2 ≤ a)
    (sortBy (fun a b => decide (a < b)) (r.base :: used.map fun u => u.1 + u.2)).find? fun a =>
      decide (r.base ≤ a) && decide (a + n ≤ r.base + r.len) && clear a

/-- R178, R188: rewrite one position's entries with zero blocks. -/
def zeroEntry (c : Ctx) (s : State) (pos : Nat) : State :=
  match s.img, alGet c.spans (pos / 64) with
  | some i, some e =>
    i.kv.foldl (fun t k => [k.kOff, k.vOff].foldl (fun t off =>
      let b := pageAddr s e.page + off
      zeroRange (zeroRange t (b + 32 * k.nb * (pos % 64)) (32 * k.nb)) (b + 2048 * k.nb + k.nb * (pos % 64)) k.nb) t) s
  | _, _ => s

/-- R188: apply an accepted count: the new tail, the rejected entries zeroed, the spans beyond it freed, the marks of the
spans kept cleared. -/
def rollback (id a : Nat) (s : State) : State :=
  match alGet s.ctxs id with
  | none => s
  | some c =>
    if c.drafts = 0 then setCtx s id { c with accepted := none }
    else
      let tail := c.tail + 1 + a
      let n := c.tail + c.drafts + 1 - tail
      let s1 := (List.range n).foldl (fun t k => zeroEntry c t (tail + k)) s
      let gone := c.spans.filter fun p => decide (tail ≤ 64 * p.1)
      let keep := (c.spans.filter fun p => decide (64 * p.1 < tail)).map fun p =>
        (p.1, { p.2 with prov := false, spec := false, specRow := 0, specTag := 0 })
      let s2 := dropPages ((gone.filter fun p => !p.2.shared).map fun p => p.2.page) (bump s1 Reg.ENG_ATT_INVALIDATED n)
      syncTable id (setCtx s2 id { c with tail := tail, spans := keep, drafts := 0, accepted := none, toks := c.toks.take tail })

/-- R246: release a context: rollback, its unshared pages and its span table, and its copy here. -/
def releaseCtx (id : Nat) (s : State) : State :=
  match alGet s.ctxs id with
  | none => s
  | some c =>
    let s1 := match c.accepted with | some a => rollback id a s | none => s
    let c1 := (alGet s1.ctxs id).getD c
    let s2 := zeroRange (dropPages (freedPages s1 id c1) s1) c1.table (tableBytes c1.desc.maxLen)
    countCtxs { s2 with ctxs := smErase s2.ctxs id }

/-- R189: discard what a step appended for a request: its entries are zeroed and the pages reserved for it freed. -/
def discardAppends (id pos rows : Nat) (s : State) : State :=
  match alGet s.ctxs id with
  | none => s
  | some c =>
    let s1 := (List.range rows).foldl (fun t k => zeroEntry c t (pos + k)) s
    let gone := c.spans.filter fun p => c.stepSpans.contains p.1
    let keep := c.spans.filter fun p => !c.stepSpans.contains p.1
    syncTable id (setCtx (dropPages (gone.map fun p => p.2.page) s1) id
      { c with spans := keep, stepSpans := [], commitLen := none, commitDue := false, drafts := 0, toks := c.toks.take c.tail })

/-! ### Prefixes: eviction (R182) -/

/-- A live request holds one of the prefix's pages. -/
def prefHeld (s : State) (p : Pref) : Bool := s.ctxs.any fun c => (ctxPages c.2).any fun x => p.pages.contains x

def hasResidentChild (s : State) (id : Nat) : Bool := s.prefs.any fun q => q.2.parent == some id && !q.2.pages.isEmpty

def pageTouch (s : State) (pg : Nat) : Nat := match alGet s.pages pg with | some x => x.touch | none => 0

/-- R182: latest LAST_TOUCH, depth (tree mode) and lowest page index of a prefix. -/
def prefAge (s : State) (p : Pref) : Nat × Nat × Nat :=
  ((p.pages.map (pageTouch s)).foldl max 0, if prefMode s = 1 then p.depth else 0, p.pages.foldl min 0xFFFFFFFF)

/-- R182: no live request holds the prefix. -/
def idlePref (s : State) (p : Pref) : Bool := !p.restoring && !prefHeld s p

def evictable (s : State) (p : Nat × Pref) : Bool :=
  !p.2.pages.isEmpty && idlePref s p.2 && !(prefMode s == 1 && hasResidentChild s p.1)

/-- R182: p is evicted before q. -/
def evictBefore (s : State) (p q : Nat × Pref) : Bool :=
  let a := prefAge s p.2
  let b := prefAge s q.2
  decide (a.1 < b.1) || (a.1 == b.1 && (decide (b.2.1 < a.2.1) || (a.2.1 == b.2.1 && decide (a.2.2 < b.2.2))))

/-- R182: evict one prefix: its pages are freed; with an archive copy it stays findable. -/
def evictPref (id : Nat) (s : State) : State :=
  match alGet s.prefs id with
  | none => s
  | some p =>
    let s1 := bump s Reg.ENG_KV_EVICTED p.pages.length
    if p.archived.isSome then
      dropPages (p.pages.filter fun x => !(s1.prefs.any fun q => q.1 != id && q.2.pages.contains x))
        { s1 with prefs := alSet s1.prefs id { p with pages := [] } }
    else dropPref id s1

/-- R182: the prefix that goes first, of one tenant or of all. -/
def firstEvict (s : State) (lease : Option Nat) : Option Nat :=
  ((sortBy (evictBefore s) (s.prefs.filter fun p => evictable s p && (match lease with | some l => p.2.lease == l | none => true))).head?).map Prod.fst

/-- R181: evict a tenant's idle prefixes until it is under quota. -/
def evictOver (lease : Nat) : Nat → State → State
  | 0, s => s
  | n + 1, s =>
    if overQuota s lease then
      match firstEvict s (some lease) with
      | some id => evictOver lease n (evictPref id s)
      | none => s
    else s

/-- R180, R182: evict from every tenant until `need` pages are free. -/
def evictFor (need : Nat) : Nat → State → State
  | 0, s => s
  | n + 1, s =>
    if need ≤ freeCount s then s
    else match firstEvict s none with
      | some id => evictFor need n (evictPref id s)
      | none => s

/-- R179 part 4: make room for `need` pages, or evict nothing. -/
def makeRoom (need : Nat) (s : State) : Option State :=
  let t := evictFor need (s.prefs.length + 1) s
  if need ≤ freeCount t then some t else none

/-! ### Prefixes: commit (R183 to R187) -/

/-- The spans a commit of length `lc` covers. -/
def commitSpans (lc : Nat) : Nat := lc / 64

/-- R183: the conditions. -/
def commitOk (c : Ctx) (lc : Nat) : Bool :=
  let es := (List.range (commitSpans lc)).map fun k => alGet c.spans k
  decide (0 < commitSpans lc) && decide (64 * commitSpans lc ≤ c.tail) &&
  es.all (fun e => match e with | some x => !x.prov | none => false) &&
  (match es.head? with | some (some f) => es.all (fun e => match e with | some x => x.gen == f.gen | none => false) | _ => false)

def shareSpans (ks : List Nat) (c : Ctx) : Ctx :=
  { c with spans := c.spans.map fun p => if ks.contains p.1 then (p.1, { p.2 with shared := true }) else p }

/-- Extents of an archive copy of `n` pages. -/
def archiveExtentsOf (s : State) (n : Nat) : Nat := (n * pageBytes s + extentBytes - 1) / extentBytes

/-- R187: the first run of free extents of the archive region. -/
def archivePlace (s : State) (n : Nat) : Option Nat :=
  match s.img with
  | none => none
  | some i => match i.vmap.archiveExtents with
    | none => none
    | some (first, count) =>
      ((List.range (count + 1 - n)).find? fun k => (List.range n).all fun j => (alGet s.extents (first + k + j)).isNone).map (· + first)

/-- R187: start the archive copy of a prefix; a full region refuses it. -/
def startArchive (id : Nat) (s : State) : State :=
  match alGet s.prefs id with
  | none => s
  | some p =>
    if p.archived.isSome || p.archiving then s
    else
      let n := archiveExtentsOf s p.pages.length
      match archivePlace s n with
      | none => bump s Reg.ENG_KV_REFUSED 1
      | some x =>
        let e : Extent := ⟨.flash, .direct, .archive id, 0xFFFF, 0xFFFF, none, s.now, false, true, []⟩
        { s with prefs := alSet s.prefs id { p with archiving := true },
                 extents := (List.range n).foldl (fun m k => alSet m (x + k) e) s.extents }

/-- What a commit comes to. -/
structure CommitOut where
  s : State
  committed : Nat := 0
  handle : Nat := 0

/-- R186: a handle. -/
def handleOf (record seq lease : Nat) : Nat := record + seq % 65536 * 65536 + lease * 2 ^ 32

/-- R186: the record a commit takes: the lowest free one, or that of the idle record evicted first; an idle record with no
resident page ranks as one never touched. -/
def takeRecord (s : State) : Option (Nat × State) :=
  let n := match s.img with | some i => i.serving.prefixRecords | none => 0
  match (List.range n).find? (fun k => (alGet s.prefs k).isNone) with
  | some k => some (k, s)
  | none => match ((sortBy (evictBefore s) (s.prefs.filter fun p => idlePref s p.2)).head?).map Prod.fst with
    | some id => some (id, dropPref id (bump s Reg.ENG_KV_EVICTED (match alGet s.prefs id with | some p => p.pages.length | none => 0)))
    | none => none

def pagesTo (id : Nat) (ps : List Nat) (s : State) : State :=
  { s with pages := s.pages.map fun p => if ps.contains p.1 then (p.1, { p.2 with owner := .pref id }) else p }

/-- R186: commit under handle mode. -/
def commitHandle (id step : Nat) (c : Ctx) (lc : Nat) (archive : Bool) (s : State) : CommitOut :=
  let n := commitSpans lc
  match takeRecord s with
  | none => ⟨s, 0, 0⟩
  | some (k, t) =>
    let seq := match alGet t.prefSeq k with | some q => (q + 1) % 65536 | none => 0
    let ps := (List.range n).filterMap fun i => (alGet c.spans i).map fun e => e.page
    let g := match alGet c.spans 0 with | some e => e.gen | none => 0
    let p : Pref := { lease := c.desc.lease, binding := c.desc.binding, gen := g, pages := ps, spans := n, commitStep := step,
                      parent := none, tokens := [], depth := 0, record := k, seq := seq, addr := 0, archived := none, archiving := false,
                      restoring := false, taint := c.taint, hidden := false, session := s.ctl.replay.isSome }
    let s1 := pagesTo k ps { t with prefs := alSet t.prefs k p, prefSeq := alSet t.prefSeq k seq }
    let s2 := syncTable id (setCtx s1 id (shareSpans (List.range n) c))
    ⟨if archive then startArchive k s2 else s2, 64 * n, handleOf k seq c.desc.lease⟩

/-- The prefixes under `parent` that hold these tokens, in the order of their nodes' addresses: the order of a child array
of equal tokens (R132, R133). -/
def childPrefs (s : State) (parent : Option Nat) (lease binding gen : Nat) (toks : List Nat) : List (Nat × Pref) :=
  sortBy (fun a b => decide (a.2.addr < b.2.addr)) (s.prefs.filter fun p => p.2.parent == parent && p.2.lease == lease &&
    p.2.binding == binding && p.2.gen == gen && p.2.tokens == toks && !p.2.hidden)

/-- The prefix under `parent` that a walk finds for these tokens. -/
def childPref (s : State) (parent : Option Nat) (lease binding gen : Nat) (toks : List Nat) : Option (Nat × Pref) :=
  (childPrefs s parent lease binding gen toks).head?

/-- R132: the bytes of a node. -/
def nodeBytes (p : Pref) (pagesAt : Nat) : List Nat :=
  p.tokens.flatMap (leBytes 4) ++ leBytes 2 p.lease ++ leBytes 2 p.binding ++ leBytes 4 0 ++ leBytes 8 0 ++ leBytes 8 pagesAt ++
  leBytes 8 p.commitStep ++ List.replicate 32 0

def freshPref (s : State) : Nat := (s.prefs.map fun p => p.1 + 1).foldl max 0

/-- R134, R185: insert span `k` of a context under `parent`.  `at0` gives the places control firmware takes: the node,
its page list, and its parent's new child array. -/
def insertNode (parent : Option Nat) (c : Ctx) (step k page gen : Nat) (at0 : List Nat) (s : State) : Nat × State :=
  let id := freshPref s
  let p : Pref := { lease := c.desc.lease, binding := c.desc.binding, gen := gen, pages := [page], spans := 1, commitStep := step,
                    parent := parent, tokens := (c.toks.drop (64 * k)).take 64, depth := k + 1, record := 0, seq := 0, addr := at0.getD 0 0,
                    archived := none, archiving := false, restoring := false, taint := c.taint, hidden := false, session := s.ctl.replay.isSome }
  let s1 := pagesTo id [page] { s with prefs := alSet s.prefs id p }
  let s2 := if p.addr = 0 then s1 else putDev (putDev s1 p.addr (nodeBytes p (at0.getD 1 0))) (at0.getD 1 0) (leBytes 4 page)
  let pa := parentAddr s2 p
  (id, if pa = 0 then s2 else writeChildren s2 pa (at0.getD 2 0)
    (s2.prefs.filter fun q => q.2.parent == parent && q.2.lease == p.lease && q.2.binding == p.binding && q.2.gen == p.gen))

/-- The state of a tree commit: parent reached, places left, spans committed, new prefixes. -/
structure TreeSt where
  s : State
  parent : Option Nat
  places : List Nat
  done : Nat
  made : List Nat
  stop : Bool

/-- R185: one span of a tree commit.  A node that holds the span's own page is the span's.  Equal tokens under the same
parent stop the commit where a lower context inserted them in this boundary (`base` and above). -/
def commitSpan (base step : Nat) (c : Ctx) (w : TreeSt) (k : Nat) : TreeSt :=
  if w.stop then w
  else match alGet c.spans k with
    | none => { w with stop := true }
    | some e =>
      let toks := (c.toks.drop (64 * k)).take 64
      let same := childPrefs w.s w.parent c.desc.lease c.desc.binding e.gen toks
      match same.find? fun p => p.2.pages.contains e.page with
      | some p => { w with parent := some p.1, done := k + 1 }
      | none => if same.any fun p => decide (base ≤ p.1) then { w with stop := true }
        else
        let r := insertNode w.parent c step k e.page e.gen w.places w.s
        ⟨r.2, some r.1, w.places.drop 3, k + 1, r.1 :: w.made, false⟩

/-- R185: commit under tree mode; returns the places not taken as well. -/
def commitTree (base id step : Nat) (c : Ctx) (lc : Nat) (archive : Bool) (places : List Nat) (s : State) : CommitOut × List Nat :=
  let g := match alGet c.spans 0 with | some e => e.gen | none => 0
  let key := (c.desc.lease * 65536 + c.desc.binding) * 2 + g
  let root := (alGet s.ctl.roots key).isSome
  let ra := places.headD 0
  let s0 := if root || ra = 0 then s
    else putDev { s with ctl.roots := alSet s.ctl.roots key ra } ra (List.replicate 256 0 ++ leBytes 2 c.desc.lease ++
      leBytes 2 c.desc.binding ++ List.replicate 60 0)
  let w := (List.range (commitSpans lc)).foldl (commitSpan base step c) ⟨s0, none, if root then places else places.drop 1, 0, [], false⟩
  let s1 := syncTable id (setCtx w.s id (shareSpans (List.range w.done) c))
  (⟨if archive then w.made.reverse.foldl (fun t k => startArchive k t) s1 else s1, 64 * w.done, 0⟩, w.places)

/-- R183: a commit that is due takes effect. -/
def commitCtx (base id step : Nat) (acc : State × List Nat) : State × List Nat :=
  let s := acc.1
  match alGet s.ctxs id with
  | none => acc
  | some c =>
    if !c.commitDue then acc
    else
      let lc := c.commitLen.getD 0
      let c1 := { c with commitDue := false, commitLen := none, commitArchive := false, committed := 0, handle := 0 }
      let s1 := setCtx s id c1
      if !commitOk c lc then (s1, acc.2)
      else if prefMode s = 2 then
        let o := commitHandle id step c1 lc c.commitArchive s1
        (modCtx o.s id fun x => { x with committed := o.committed, handle := o.handle }, acc.2)
      else if prefMode s = 1 then
        let o := commitTree base id step c1 lc c.commitArchive acc.2 s1
        (modCtx o.1.s id fun x => { x with committed := o.1.committed }, o.2)
      else (s1, acc.2)

/-! ### Prefixes: matching (R185, R186, R490) -/

/-- What a START finds: the prefixes it maps, in span order, with the pages they give. -/
structure Match where
  prefs : List Nat := []
  spans : Nat := 0
  ref : Nat := 0
  commitStep : Nat := 0
  denied : Bool := false
deriving DecidableEq, Repr

/-- R490: at most the largest multiple of 64 below NEW_TOKENS. -/
def matchCut (tokens : Nat) : Nat := (tokens - 1) / 64

def treeFrom (s : State) (lease binding gen : Nat) (toks : List Nat) : Nat → Option Nat → Match → Match
  | 0, _, m => m
  | n + 1, parent, m =>
    match childPref s parent lease binding gen ((toks.drop (64 * m.spans)).take 64) with
    | some (id, p) => if p.pages.isEmpty && p.archived.isNone then m
        else treeFrom s lease binding gen toks n (some id) { m with prefs := m.prefs ++ [id], spans := m.spans + 1, ref := p.addr, commitStep := p.commitStep }
    | none => m

/-- R186: check a presented handle. -/
def handleMatch (s : State) (d : ReqDesc) (gen limit : Nat) : Match :=
  let h := d.handle
  if h / 2 ^ 32 % 65536 ≠ d.lease then { denied := true }
  else match alGet s.prefs (h % 65536) with
    | none => {}
    | some p =>
      if p.seq ≠ h / 65536 % 65536 ∨ p.binding ≠ d.binding ∨ p.gen ≠ gen ∨ p.hidden then {}
      else { prefs := [h % 65536], spans := min p.spans limit, ref := h, commitStep := p.commitStep }

/-- R185, R186, R490: what a START matches in the slot its step takes. -/
def findMatch (s : State) (d : ReqDesc) (gen : Nat) (toks : List Nat) : Match :=
  let limit := matchCut toks.length
  if d.handleEn then handleMatch s d gen limit
  else if d.walk then treeFrom s d.lease d.binding gen toks (min limit 16384) none {}
  else {}

/-- Pages a match needs for its prefixes that lie in the archive only. -/
def restorePages (s : State) (m : Match) : Nat :=
  (m.prefs.filterMap fun id => (alGet s.prefs id).map fun p => if p.pages.isEmpty then p.spans else 0).sum

/-- R187: the match stops at the last resident span. -/
def residentMatch (s : State) (m : Match) : Match :=
  let ids := m.prefs.takeWhile fun id => match alGet s.prefs id with | some p => !p.pages.isEmpty | none => false
  if ids.length = m.prefs.length then m
  else if ids.isEmpty then {}
  else
    let l := ids.getLastD 0
    match alGet s.prefs l with
    | some p => { m with prefs := ids, spans := ids.length, ref := p.addr, commitStep := p.commitStep }
    | none => {}

/-- R187: give an archived prefix pages again; its restore is under way. -/
def startRestore (step : Nat) (s : State) (id : Nat) : State :=
  match alGet s.prefs id with
  | none => s
  | some p =>
    if !p.pages.isEmpty then s
    else match takePages (.pref id) p.lease step p.spans s with
      | some (ps, t) => { t with prefs := alSet t.prefs id { p with pages := ps, restoring := true } }
      | none => s

/-- R187: the archive copy has landed: the prefix is archived. -/
def execPrefixArchiveDone (id : Nat) (s : State) : Res :=
  .next (match alGet s.prefs id with
    | some p =>
      if p.archiving then
        match (s.extents.find? fun e => e.2.owner == .archive id).map Prod.fst with
        | some x =>
          let s1 := (List.zip (List.range p.pages.length) p.pages).foldl (fun t k =>
            deliver t (tierBase + x * extentBytes + k.1 * pageBytes s) (pageAddr s k.2) (pageBytes s)
              ((granulesOf (pageAddr s k.2) (pageBytes s)).filter (marked s))) s
          { s1 with prefs := alSet s1.prefs id { p with archiving := false, archived := some x } }
        | none => { s with prefs := alSet s.prefs id { p with archiving := false } }
      else s
    | none => s)

/-- R187: a restore has landed, or its flash data cannot be recovered: the step then ends unrecovered and the prefix
leaves the index. -/
def execPrefixRestoreDone (id : Nat) (ok : Bool) (s : State) : Res :=
  .next (match alGet s.prefs id with
    | some p =>
      if p.restoring then
        if ok then
          let x := p.archived.getD 0
          let s1 := (List.zip (List.range p.pages.length) p.pages).foldl (fun t k =>
            deliver t (pageAddr s k.2) (tierBase + x * extentBytes + k.1 * pageBytes s) (pageBytes s) []) s
          { s1 with prefs := alSet s1.prefs id { p with restoring := false } }
        else
          let s1 := { s with portion := s.portion.map fun (q : Portion) => { q with failedRegion := true } }
          dropPref id { s1 with prefs := alSet s1.prefs id { p with restoring := false } }
      else s
    | none => s)

/-! ### Pool registers (R190, R191) -/

/-- R191: the pool fields of one tenant slot. -/
def kvFields (s : State) (n : Nat) : List Nat :=
  match s.sec.ks.leases[n]? with
  | some l => if l.st = 0 then [0, 0, 0, 0, 0, 0]
    else [l.lease, 1, b2n (overQuota s l.lease), l.quota, usedPages s l.lease, archivedPages s l.lease]
  | none => [0, 0, 0, 0, 0, 0]

/-- R191: a step boundary has completed. -/
def kvBoundary (s : State) : State :=
  let snap := (List.range 16).map fun n => (n, kvFields s n)
  { setF s Reg.ENG_KV_POOL_FREE (freeCount s) with ctl.kvSnap := snap }

/-- R191: a write of ENG_KV_TSEL latches the slot's fields for the port. -/
def execTenantSelect (p : Port) (slot : Fin 16) (s : State) : Res :=
  .next (viaPf0 s p fun s =>
    let f := (alGet s.ctl.kvSnap slot).getD [0, 0, 0, 0, 0, 0]
    setP (setP (setP (setP (setP (setP (setP s p Reg.ENG_KV_TSEL_SLOT slot) p Reg.ENG_KV_TENANT_LEASE (f.getD 0 0)) p
      Reg.ENG_KV_TENANT_VALID (f.getD 1 0)) p Reg.ENG_KV_TENANT_OVER (f.getD 2 0)) p Reg.ENG_KV_QUOTA (f.getD 3 0)) p
      Reg.ENG_KV_USED (f.getD 4 0)) p Reg.ENG_KV_ARCHIVED (f.getD 5 0))

end Sys2Proof.Machine
end

