-- ==== Sys2Proof/Machine/Safe.lean ====
section
/-!
DEFINITION. Machine/Safe.lean: what ends everything: module reset, the dark state and loss of power, full zeroisation, the
safe state (R370, R451, R459, R464), and the bad-access log (R435).
-/
namespace Sys2Proof.Machine

/-! ### The key store and the fields that show it (R438, R458) -/

def leaseCount (k : KeyStore) : Nat := (k.leases.filter fun l => l.st != 0).length

/-- R458: the SEC fields that follow from the key store. -/
def secView (s : State) : State :=
  let k := s.sec.ks
  let s1 := setF (setF (setF (setF (setB (setF (setF (setB s Reg.SEC_STATUS_OWNED (!k.owner.isEmpty)) Reg.SEC_STATUS_OWNER_SLOT
    (k.ownerSlots - 1)) Reg.SEC_STATUS_LEASES (leaseCount k)) Reg.SEC_STATUS_COUNTERSIGN k.countersign)
    Reg.SEC_STATUS_ERASING (b2n (!k.erasing.isEmpty))) Reg.SEC_STATUS_GLITCH_LOCK (b2n (decide (16 ≤ k.glitchAck))))
    Reg.SEC_GLITCH_SINCE_ACK (min k.glitchAck 255)) Reg.SEC_GLITCH_TOTAL (min k.glitchTotal 0xFFFFFF)
  (List.range 16).foldl (fun t n => setF t (Reg.SEC_LEASE_STATE_SLOT n) (match k.leases[n]? with | some l => l.st | none => 0)) s1

def putKs (s : State) (k : KeyStore) : State := secView { s with sec.ks := k }

def setLease (s : State) (n : Nat) (l : Lease) : State := putKs s { s.sec.ks with leases := s.sec.ks.leases.set n l }

/-! ### Module reset (R459) -/

def pendingCores (s : State) : List Nat :=
  (List.range 192).filter fun c => getBit s (Reg.NOC_FENCE_PENDING (c / 32)) (c % 32) && !coreFenced s c
def pendingVaults (s : State) : List Nat := (List.range 32).filter fun v => getF s (vaultState v) == 1

/-- R288, R216: what a reset takes out of service. -/
def fenceAtReset (s : State) : State :=
  let cs := pendingCores s
  let vs := pendingVaults s
  let s1 := vs.foldl (fun t v => ledgerVault 1 v t) (cs.foldl (fun t c => ledgerFence 1 c 0 t) s)
  { s1 with sec.ks.fenceCores := cs.foldl listAdd s1.sec.ks.fenceCores, sec.ks.fenceVaults := vs.foldl listAdd s1.sec.ks.fenceVaults }

/-- What outlives the loss of every volatile content (R370, R459): the key store, the fuses, the fence list, the ledger,
the power manager's non-volatile memory, and the cards as they sit. -/
def volatileLost (s : State) : State :=
  let f := fenceAtReset s
  { State.reset with
    now := f.now, ledger := f.ledger, ledgerSeq := f.ledgerSeq, nvFault := f.nvFault, vflashLatched := f.vflashLatched,
    cardSerial := f.cardSerial, cardSeated := f.cardSeated, sec := { ks := f.sec.ks }, fresh := f.fresh, out := f.out,
    pending := f.pending }

/-- The eight INTEGRITY totals (R472). -/
def integrityTotals (s : State) : List Nat :=
  [Reg.MEM_DRAM_DETECT, Reg.MEM_SRAM_DETECT, Reg.MEM_REPLAY, Reg.MEM_UNRECOVERED, Reg.MEM_SCRUB_DETECT,
   Reg.ENG_MX_RESIDUE_MISMATCH, Reg.ENG_MX_RESIDUE_POISON, Reg.NOC_LINK_FAIL].map (getF s)

/-- R472: an INTEGRITY record of what was counted since the last one. -/
def integrityRecord (s : State) : State :=
  let t := integrityTotals s
  { ledgerAdd 0x03 ((List.zipWith (fun a b => (64, a - b)) t s.sec.integrity)) s with sec.integrity := t }

/-- R459: a module reset, which zeroises every storage and starts the power-up sequence; `cause` is the ZERO_CAUSE code of
R458. -/
def moduleReset (cause : Nat) (s : State) : State :=
  let s1 := volatileLost (integrityRecord s)
  let k := s1.sec.ks
  let k1 := { k with boots := k.boots + 1, erasing := [], reports := k.reports.map (fun (r : EraseReport) => { r with background := true }),
                     debugSeen := k.debugSeen && cause != 0 }
  let s2 := setF (putKs s1 k1) Reg.SEC_STATUS_ZERO_CAUSE cause
  let s3 := setF (setF s2 Reg.PWR_FAULT_CAUSE s2.nvFault.1) Reg.PWR_FAULT_RAIL s2.nvFault.2
  { s3 with boot.stage := .boot }

/-- R370: the module goes dark. -/
def goDark (s : State) : State := { volatileLost s with boot.stage := .dark, pwr.tripHold := s.pwr.tripHold }

/-- The rails go down: everything volatile is lost. -/
def powerLost (st : Stage) (s : State) : State := emit { volatileLost s with boot.stage := st } .powerOff

/-! ### Full zeroisation while the module runs on (R451: ownership change, debug unlock, the end of the image's lease) -/

def fullZeroise (cause : Nat) (s : State) : State :=
  let s1 : State := { s with mem := [], marks := [], accs := [], rewritten := [] }
  setF s1 Reg.SEC_STATUS_ZERO_CAUSE cause

/-! ### The safe state (R419, R464, R465) -/

def setIdState (v : Nat) (s : State) : State :=
  if getF s Reg.ID_STATE_STATE = v then s else configChange (fun t => setF t Reg.ID_STATE_STATE v) s

/-- R419: what a port with a link does on entry. -/
def portToPf1 (p : Port) (s : State) : State :=
  if portUp s p then emit (emit s (.unsupported p)) (.linkDown p) else s

/-- R464: the module enters the safe state; a second cause changes nothing. -/
def enterSafe (cause unit : Nat) (detail : List Nat) (s : State) : State :=
  match s.boot.stage with
  | .safe => s
  | .unpowered => s
  | .latched => s
  | .dark => s
  | _ =>
    let s1 := setIdState 3 s
    let r : FaultReport := { s1.boot.report with cause := cause, unit := unit, status := 0x50, detail := detail }
    let a := alert Reg.HOST_ALERT_SAFE_STATE s1
    let s2 := { a with boot.stage := .safe, boot.report := r, boot.extended := false, portion := none, suspended := none, finals := [],
                        inbox := [], ctl.flights := [], wts.load := none, wts.imgRun := none }
    portToPf1 .b (portToPf1 .a (ledgerAdd 0x09 [(8, cause), (8, unit)] s2))

/-! ### The bad-access log (R435) -/

/-- R435: log one bad access: BAR, port, write, log2 of the size, misaligned, status, offset. -/
def logBad (bar : Nat) (p : Port) (write : Bool) (size : Nat) (mis : Bool) (status offset : Nat) (s : State) : State :=
  let n := getF s Reg.HOST_BADACC_COUNT
  let k := n % 16
  let s1 := setF (setF (setF s (Reg.HOST_BADACC_ADDR_OFFSET k) offset) (Reg.HOST_BADACC_INFO_BAR k) bar)
    (Reg.HOST_BADACC_INFO_PORT k) (portNum p)
  let s2 := setF (setB (setF (setB s1 (Reg.HOST_BADACC_INFO_WRITE k) write) (Reg.HOST_BADACC_INFO_SIZE k) size)
    (Reg.HOST_BADACC_INFO_MISALIGNED k) mis) (Reg.HOST_BADACC_INFO_STATUS k) status
  setF s2 Reg.HOST_BADACC_COUNT (min (n + 1) 0xFFFFFFFF)

end Sys2Proof.Machine
end

