-- ==== Sys2Proof/Machine/Loads.lean ====
section
/-!
DEFINITION. Machine/Loads.lean: weight loads, generation slots and small models (R219 to R241).
-/
namespace Sys2Proof.Machine

/-! ### Slots -/

def slotFld (n : Nat) : Fld := if n = 0 then Reg.MEM_GEN_STATE_SLOT0 else Reg.MEM_GEN_STATE_SLOT1
def genIdFld (n : Nat) : Fld := if n = 0 then Reg.MEM_GEN0_ID else Reg.MEM_GEN1_ID
def slotState (s : State) (n : Nat) : Nat := getF s (slotFld n)
def genLoad (s : State) (n : Nat) : Option Load := s.wts.gens.getD n none
def isEntry (s : State) : Bool := getB s Reg.MEM_GEN_STATE_ENTRY

/-- R240: MEM_SMALL_COUNT. -/
def countSmalls (s : State) : State := setF s Reg.MEM_SMALL_COUNT_RESIDENT s.wts.smalls.length

/-- The extents and experts of an owner are released on both cards; its frames are freed (R223). -/
def releaseExtents (o : ExtOwner) (s : State) : State := { s with extents := s.extents.filter fun e => e.2.owner != o }

/-- R223, R228: the slot becomes EMPTY: its load, residency and heat go, and every prefix with its GEN bit leaves the
index. -/
def emptySlot (n : Nat) (s : State) : State :=
  let s1 := releaseExtents (.gen n) s
  let s2 := { s1 with experts := s1.experts.filter (fun e => e.slot != n), wts.gens := s1.wts.gens.set n none }
  let s3 := s2.prefs.foldl (fun t p => if p.2.gen = n then dropPref p.1 t else t) s2
  let s4 := { s3 with ctl.roots := s3.ctl.roots.filter fun r => r.1 % 2 != n }
  setF (setF s4 (slotFld n) 0) (genIdFld n) 0

/-- R239, R223: a small-model index becomes free. -/
def freeSmall (i : Nat) (s : State) : State :=
  let s1 := releaseExtents (.small i) s
  countSmalls { s1 with wts.smalls := smErase s1.wts.smalls i }

/-! ### The manifest (R219 to R221) -/

def fieldAt (bs : List Nat) (off n : Nat) : Nat := leNat ((bs.drop off).take n)

def parseEntry (bs : List Nat) : ManEntry :=
  ⟨fieldAt bs 0 8, fieldAt bs 8 4, fieldAt bs 12 4, fieldAt bs 16 1 % 4, bit (fieldAt bs 16 1) 2, fieldAt bs 18 2, fieldAt bs 20 2⟩

def parseLoad (hd : List Nat) (es : List ManEntry) : Load :=
  ⟨fieldAt hd 4 1, fieldAt hd 5 1, if fieldAt hd 6 1 % 2 = 0 then .a else .b, fieldAt hd 8 4, fieldAt hd 12 2, fieldAt hd 14 2,
   fieldAt hd 20 4, (List.range 8).map (fun k => fieldAt hd (32 + 2 * k) 2), es⟩

/-- The manifest as read through a port: none when a read of it fails or its header refuses it. -/
def readManifest (h : HostMem) (p : Port) (a : Nat) : Option Load :=
  match hostRead h p a 128 with
  | none => none
  | some hd =>
    let n := fieldAt hd 16 4
    if fieldAt hd 0 4 ≠ 1 ∨ n = 0 ∨ 65536 < n then none
    else (hostRead h p (a + 128) (32 * n)).map fun bs => parseLoad hd ((chunks 32 n bs).map parseEntry)

/-- R221: the extent range that KIND and TARGET select. -/
def loadRange (s : State) (l : Load) : Nat × Nat :=
  match s.img with
  | none => (0, 0)
  | some i => if l.kind = 0 then i.vmap.genRange.getD l.target (0, 0) else i.vmap.smallRange

/-- R220, R221: one entry. -/
def entryOk (s : State) (l : Load) (e : ManEntry) : Bool :=
  let r := loadRange s l
  decide (1 ≤ e.count) && e.host % 4096 == 0 && decide (r.1 ≤ e.extent) && decide (e.extent + e.count ≤ r.1 + r.2) &&
  (if l.kind = 0 then
     (match e.mode with | 1 => e.expert != 0xFFFF | 0 => true | _ => e.expert == 0xFFFF)
   else e.mode == 0 && e.expert == 0xFFFF)

/-- R221: no two entries share an extent. -/
def disjointEntries : List ManEntry → Bool
  | [] => true
  | e :: t => t.all (fun f => decide (e.extent + e.count ≤ f.extent) || decide (f.extent + f.count ≤ e.extent)) && disjointEntries t

/-- R425: the port may carry the lease's data. -/
def ideOk (s : State) (lease : Nat) (p : Port) : Bool :=
  match leaseEnt s lease with
  | some l => !l.ide || getF s (match p with | .a => Reg.HOST_PORT_A_IDE | .b => Reg.HOST_PORT_B_IDE) == 1
  | none => true

/-- R222 phase 1. -/
def loadValid (s : State) (p : Port) (l : Load) : Bool :=
  decide (l.kind ≤ 2) && (l.kind != 0 || decide (l.target ≤ 1)) && ((l.kind == 0) == (l.genId != 0)) &&
  (l.kind == 2 || l.baseGen == 0) && (match s.img with | some i => i.binding == l.binding | none => false) &&
  l.entries.all (entryOk s l) && disjointEntries l.entries && leaseActive s l.lease && leaseBound s l.lease p && ideOk s l.lease p

/-- The extents of a load. -/
def loadExtents (l : Load) : List Nat := l.entries.flatMap fun e => (List.range e.count).map (· + e.extent)

def entryTotal (l : Load) (f : ManEntry → Bool) : Nat := ((l.entries.filter f).map fun e => e.count).sum

/-- Extents in use on a card. -/
def cardUsed (s : State) (n : Nat) : Nat := (s.extents.filter fun e => extentCard e.1 == n).length

/-- R222 phase 3: the resource that refuses the load. -/
def loadFit (s : State) (l : Load) : Option Nat :=
  let xs := loadExtents l
  let onCard := fun n => (xs.filter fun x => extentCard x == n).length
  let layers := (l.entries.map fun e => e.layer).dedup
  match s.img with
  | none => some 2
  | some i =>
    if 488281 < cardUsed s 0 + onCard 0 ∨ 488281 < cardUsed s 1 + onCard 1 ∨ xs.any (fun x => (alGet s.extents x).isSome) then some 2
    else if getF s (cardState 0) ≠ 2 ∨ getF s (cardState 1) ≠ 2 then some 1
    else if l.kind = 0 ∧ i.vmap.pinFrames.getD l.target 0 < entryTotal l (fun e => e.mode == 0) then some 3
    else if l.kind = 0 ∧ layers.any (fun y => decide (i.vmap.expertFrames < entryTotal l fun e => e.mode == 1 && e.layer == y)) then some 4
    else if l.kind ≠ 0 ∧ i.vmap.smallFrames < xs.length + (s.wts.smalls.map fun m => (loadExtents m.2.load).length).sum then some 7
    else none

/-! ### Phases -/

def loadOwner (l : Load) : ExtOwner := if l.kind = 0 then .gen l.target else .small l.target

/-- A load ends: its status, its resource, and the CMD cause (R434). -/
def loadStatus (phase status res : Nat) (s : State) : State :=
  let s1 := setF (setF (setF (setF s Reg.MEM_LOAD_STATUS_BUSY 0) Reg.MEM_LOAD_STATUS_PHASE phase) Reg.MEM_LOAD_STATUS_STATUS status)
    Reg.MEM_LOAD_STATUS_RESOURCE res
  irqBoth 2 { s1 with wts.load := none }

def extMode (m : Nat) : ExtMode := match m with | 0 => .pin | 1 => .expert | 2 => .cache | _ => .direct

/-- R222: the extents of a load as phase 4 starts. -/
def claimExtents (l : Load) (s : State) : State :=
  l.entries.foldl (fun t e => (List.range e.count).foldl (fun u k =>
    setExtent u (e.extent + k) ⟨.flash, extMode e.mode, loadOwner l, e.layer, e.expert,
      if e.keep then some (l.hostPort, e.host + k * extentBytes) else none, u.now, false, false, []⟩) t) s

/-- R223: nothing of the load is left. -/
def loadUndo (l : Load) (s : State) : State :=
  if l.kind = 0 then emptySlot l.target s else countSmalls (releaseExtents (loadOwner l) s)

/-- R223: a load in progress fails. -/
def loadFails (status : Nat) (s : State) : State :=
  match s.wts.load with
  | none => s
  | some r => loadStatus (getF s Reg.MEM_LOAD_STATUS_PHASE) status 0 (loadUndo r.load s)

/-- R222 to R224: GO. -/
def execLoadGo (p : Port) (port : Port) (host : HostMem) (s : State) : Res :=
  .next (viaPf0 s p fun s =>
    if getB s Reg.MEM_LOAD_STATUS_BUSY then s
    else
      let s0 := setF (setF (setF s Reg.MEM_LOAD_CMD_PORT (portNum port)) Reg.MEM_LOAD_STATUS_PROGRESS 0) Reg.MEM_LOAD_STATUS_PHASE 1
      if s0.boot.extended then loadStatus 1 0x10 0x1C s0
      else
        let a := getF s0 Reg.MEM_MANIFEST_LO + getF s0 Reg.MEM_MANIFEST_HI * 2 ^ 32
        match if portUp s0 port && a % 64 == 0 then readManifest host port a else none with
        | none => loadStatus 1 0x23 0 s0
        | some l =>
          if !loadValid s0 p l then loadStatus 1 0x23 0 s0
          else if l.kind = 0 ∧ slotState s0 l.target ≠ 0 then loadStatus 2 0x10 5 s0
          else if l.kind ≠ 0 ∧ (alGet s0.wts.smalls l.target).isSome then loadStatus 2 0x10 6 s0
          else match loadFit s0 l with
            | some r => loadStatus 3 0x10 r s0
            | none =>
              let s1 := claimExtents l (setF (setF s0 Reg.MEM_LOAD_STATUS_BUSY 1) Reg.MEM_LOAD_STATUS_PHASE 4)
              let s2 := if l.kind = 0 then setF s1 (slotFld l.target) 1 else s1
              { s2 with wts.load := some ⟨l, port⟩ })

/-- R223: ABORT.  The spec states no status of an aborted load; it reports ACCESS_DENIED, as an aborted image load does
(R365). -/
def execLoadAbort (p : Port) (s : State) : Res := .next (viaPf0 s p (loadFails 0x23))

/-- R222: the CRC-32C of each 16 KiB unit of an extent. -/
def unitCrcs (s : State) (x : Nat) : List Nat :=
  (List.range 128).map fun u => crc32c (rdBytes s (tierBase + x * extentBytes + 16384 * u) 16384)

/-- R222 phases 4 and 5: the pull has ended, the data being what the host returned. -/
def execLoadPullDone (how : PullEnd) (data : List (Nat × List Nat)) (digestOk : Bool) (s : State) : Res :=
  .next (match s.wts.load with
    | none => s
    | some r =>
      if getF s Reg.MEM_LOAD_STATUS_PHASE ≠ 4 then s
      else match how with
        | .unreadable => loadFails 0x31 s
        | .refused => loadFails 0x23 s
        | .ok =>
          let xs := loadExtents r.load
          let ok := fun (d : Nat × List Nat) => (granulesOf d.1 d.2.length).all fun g => inTier (g * 64) && xs.contains (extentOf (g * 64))
          let s1 := putRuns s (data.filter ok)
          let s2 := setF (setF s1 Reg.MEM_LOAD_STATUS_PROGRESS 100) Reg.MEM_LOAD_STATUS_PHASE 5
          if !digestOk then loadFails 0x31 s2
          else
            let s3 := { s2 with extents := s2.extents.map fun (e : Nat × Extent) => if xs.contains e.1 then
                (e.1, { e.2 with onCard := true, crc := unitCrcs s2 e.1, state := if e.2.mode = .pin then .fetching else .flash }) else e }
            setF s3 Reg.MEM_LOAD_STATUS_PHASE 6)

/-- The experts of a generation load, by layer and expert, with their extents (R157). -/
def loadExperts (l : Load) : List ExpertSt :=
  let keys := ((l.entries.filter fun e => e.expert != 0xFFFF).map fun e => (e.layer, e.expert)).dedup
  keys.map fun k =>
    let es := l.entries.filter fun e => e.layer == k.1 && e.expert == k.2
    let pinned := es.any fun e => e.mode == 0
    ⟨l.target, k.1, k.2, if pinned then .dram else .flash, 0, pinned, [], es.flatMap (fun e => (List.range e.count).map (· + e.extent)), false⟩

/-- R199: the fetches of an owner's extents have landed. -/
def primeExtents (o : ExtOwner) (s : State) : State :=
  { s with extents := s.extents.map fun (e : Nat × Extent) =>
      if e.2.owner = o ∧ e.2.state = .fetching then (e.1, { e.2 with state := .resident }) else e }

/-- R222 phase 6: the PIN extents are resident. -/
def execLoadPrimeDone (how : PullEnd) (s : State) : Res :=
  .next (match s.wts.load with
    | none => s
    | some r =>
      if getF s Reg.MEM_LOAD_STATUS_PHASE ≠ 6 then s
      else match how with
        | .unreadable => loadFails 0x31 s
        | .refused => loadFails 0x23 s
        | .ok =>
          let l := r.load
          let s1 := primeExtents (loadOwner l) s
          if l.kind = 0 then
            let s2 := { s1 with wts.gens := s1.wts.gens.set l.target (some l), experts := s1.experts ++ loadExperts l }
            loadStatus 6 0 0 (setF (setF s2 (slotFld l.target) 2) (genIdFld l.target) l.genId)
          else loadStatus 6 0 0 (countSmalls { s1 with wts.smalls := alSet s1.wts.smalls l.target ⟨l, false⟩ }))

/-! ### MEM_GEN_CMD (R228, R231, R235, R239, R241) -/

/-- A command of MEM_GEN_CMD completes with a status. -/
def genStatus (v : Nat) (s : State) : State := irqBoth 2 (setF s Reg.MEM_GEN_STATE_CMD_STATUS v)

/-- R231: a PIN extent of the slot is not RESIDENT. -/
def pinMissing (s : State) (n : Nat) : Bool :=
  s.extents.any fun e => e.2.owner == .gen n && e.2.mode == .pin && !isResident e.2

/-- R231: the checks of a SWITCH at the entry module, highest status. -/
def switchStatus (s : State) (n id : Nat) : Nat :=
  worst [if [slotState s 0, slotState s 1].any (fun x => x == 4 || x == 1) then 0x10 else 0, if pinMissing s n then 0x10 else 0,
         if slotState s n ≠ 2 ∨ getF s (genIdFld n) ≠ id then 0x40 else 0]

/-- R231: SWITCH. -/
def execSwitch (p : Port) (slot : Fin 2) (s : State) : Res :=
  .next (viaPf0 s p fun s =>
    if getB s Reg.MEM_GEN_STATE_CMD_PENDING then s
    else if !isEntry s then genStatus 0x23 s
    else
      let st := switchStatus s slot (getF s Reg.MEM_GEN_CMD_ID)
      if st ≠ 0 then genStatus st s
      else
        let s1 := setF (setF s Reg.MEM_GEN_STATE_CMD_STATUS 0) Reg.MEM_GEN_STATE_CMD_PENDING 1
        { s1 with wts.switchTo := some slot.val })

/-- R228, R235: DISCARD. -/
def execDiscard (p : Port) (slot : Fin 2) (s : State) : Res :=
  .next (viaPf0 s p fun s =>
    let st := slotState s slot
    if getB s Reg.MEM_GEN_STATE_CMD_PENDING then s
    else if st = 2 then genStatus 0 (emptySlot slot s)
    else if !isEntry s ∧ (st = 3 ∨ st = 4) then genStatus 0x23 s
    else genStatus 0x10 s)

/-- A live context names the small-model index. -/
def smallUsed (s : State) (i : Nat) : Bool := s.ctxs.any fun c => c.2.desc.model == i || c.2.desc.adapter == i

/-- R239: RETIRING entries that no live context names are freed. -/
def retireSmalls (s : State) : State :=
  s.wts.smalls.foldl (fun t m => if m.2.retiring && !smallUsed t m.1 then freeSmall m.1 t else t) s

/-- R239: RELEASE. -/
def execRelease (p : Port) (index : Fin 256) (s : State) : Res :=
  .next (viaPf0 s p fun s =>
    if getB s Reg.MEM_GEN_STATE_CMD_PENDING then s
    else match alGet s.wts.smalls index with
      | none => genStatus 0x10 s
      | some m => genStatus 0 (retireSmalls { s with wts.smalls := alSet s.wts.smalls index { m with retiring := true } }))

/-- R235: the slot that a step names becomes ACTIVE; another ACTIVE slot becomes DRAINING. -/
def activate (n : Nat) (s : State) : State :=
  let o := 1 - n
  let s1 := if slotState s o = 3 then setF s (slotFld o) 4 else s
  if slotState s1 n = 2 then setF s1 (slotFld n) 3 else s1

/-- R231: an accepted SWITCH takes effect at the boundary. -/
def applySwitch (s : State) : State :=
  match s.wts.switchTo with
  | none => s
  | some n =>
    let s1 := setF (setF (activate n s) Reg.MEM_GEN_STATE_POINTER n) Reg.MEM_GEN_STATE_CMD_PENDING 0
    genStatus 0 { s1 with wts.switchTo := none }

/-- R234: no step tagged with the slot remains in the module. -/
def slotIdle (s : State) (n : Nat) : Bool :=
  let of := fun (p : Option Portion) => match p with | some x => x.hdr.gen == n | none => false
  !(of s.portion || of s.suspended || s.finals.any (fun p => p.hdr.gen == n) || s.inbox.any (fun h => h.gen == n))

/-- R234: a DRAINING slot that HOLD excludes becomes EMPTY. -/
def drainSlots (s : State) : State :=
  [0, 1].foldl (fun t n => if slotState t n = 4 ∧ !bit (getF t Reg.MEM_GEN_STATE_HOLD) n ∧ slotIdle t n then emptySlot n t else t) s

/-- R227, R450: the loads that a lease owns are released when it ends. -/
def releaseLoadsOf (lease : Nat) (s : State) : State :=
  let s0 := match s.wts.load with | some r => if r.load.lease = lease then loadFails 0x23 s else s | none => s
  let s1 := [0, 1].foldl (fun t n => match genLoad t n with | some l => if l.lease = lease then emptySlot n t else t | none => t) s0
  s1.wts.smalls.foldl (fun t m => if m.2.load.lease = lease then freeSmall m.1 t else t) s1

end Sys2Proof.Machine
end

