-- ==== Sys2Proof/Machine/Ports.lean ====
section
/-!
DEFINITION. Machine/Ports.lean: the host ports going down and coming up (R271, R416), and what fails with them (R223,
R365, R456).
-/
namespace Sys2Proof.Machine

/-- R17: the fields that exist separately for each port. -/
def perPortFlds : List Fld :=
  [Reg.ENG_KV_TSEL_SLOT, Reg.ENG_KV_TENANT_LEASE, Reg.ENG_KV_TENANT_VALID, Reg.ENG_KV_TENANT_OVER,
   Reg.ENG_KV_QUOTA, Reg.ENG_KV_USED, Reg.ENG_KV_ARCHIVED, Reg.CTX_LC_BASE_LO,
   Reg.CTX_LC_BASE_HI, Reg.CTX_BE_BASE_LO, Reg.CTX_BE_BASE_HI, Reg.CTX_CPL_BASE_LO,
   Reg.CTX_CPL_BASE_HI, Reg.CTX_CPL_SIZE_SIZE_LOG2, Reg.CTX_RING_CTL_LC_EN, Reg.CTX_RING_CTL_BE_EN,
   Reg.CTX_RING_CTL_CPL_EN, Reg.CTX_RING_CTL_ACTIVE, Reg.CTX_RING_CTL_PORT_LOST, Reg.CTX_RING_CONS_LC_CONS,
   Reg.CTX_RING_CONS_BE_CONS, Reg.CTX_RING_CONS_LC_PHASE, Reg.CTX_RING_CONS_BE_PHASE, Reg.CTX_CPL_HEAD_INDEX,
   Reg.CTX_CPL_TAIL_INDEX, Reg.CTX_ADOPT_ADDR_LO, Reg.CTX_ADOPT_ADDR_HI, Reg.CTX_ADOPT_CMD_GO,
   Reg.CTX_ADOPT_CMD_BUSY, Reg.CTX_ADOPT_CMD_STATUS, Reg.CLK_FCOUNT_CTL_SEL, Reg.CLK_FCOUNT_CTL_GATE_LOG2,
   Reg.CLK_FCOUNT_CTL_START, Reg.CLK_FCOUNT_CTL_BUSY, Reg.CLK_FCOUNT_CTL_VALID, Reg.CLK_FCOUNT_CTL_DISTURBED,
   Reg.CLK_FCOUNT_RESULT, Reg.HOST_BAR2_WIN_LO, Reg.HOST_BAR2_WIN_HI, Reg.HOST_IRQ_CAUSE_CPL,
   Reg.HOST_IRQ_CAUSE_RING, Reg.HOST_IRQ_CAUSE_CMD, Reg.HOST_IRQ_CAUSE_FAULT, Reg.HOST_IRQ_CAUSE_ALERT,
   Reg.HOST_IRQ_CAUSE_PEER, Reg.HOST_IRQ_CAUSE_CLK, Reg.HOST_IRQ_EN_CPL, Reg.HOST_IRQ_EN_RING,
   Reg.HOST_IRQ_EN_CMD, Reg.HOST_IRQ_EN_FAULT, Reg.HOST_IRQ_EN_ALERT, Reg.HOST_IRQ_EN_PEER,
   Reg.HOST_IRQ_EN_CLK, Reg.HOST_IRQ_HOLDOFF_US, Reg.SEC_LSEL_SLOT, Reg.SEC_LEASE_INFO_LEASE,
   Reg.SEC_LEASE_INFO_IDE_REQUIRED, Reg.SEC_LEASE_INFO_END_PENDING, Reg.SEC_ADOPT_SEQ, Reg.SEC_LEASE_END]

def upFld : Port → Fld | .a => Reg.HOST_PORT_A_UP | .b => Reg.HOST_PORT_B_UP
def perstFld : Port → Fld | .a => Reg.HOST_PORT_A_PERST | .b => Reg.HOST_PORT_B_PERST
def d3Fld : Port → Fld | .a => Reg.HOST_PORT_A_D3HOT | .b => Reg.HOST_PORT_B_D3HOT
def refFld : Port → Fld | .a => Reg.HOST_PORT_A_REF_OK | .b => Reg.HOST_PORT_B_REF_OK
def ideFld : Port → Fld | .a => Reg.HOST_PORT_A_IDE | .b => Reg.HOST_PORT_B_IDE
def downFld : Port → Fld | .a => Reg.HOST_PORT_A_DOWN_COUNT | .b => Reg.HOST_PORT_B_DOWN_COUNT
def speedFld : Port → Fld | .a => Reg.HOST_PORT_A_SPEED | .b => Reg.HOST_PORT_B_SPEED
def widthFld : Port → Fld | .a => Reg.HOST_PORT_A_WIDTH | .b => Reg.HOST_PORT_B_WIDTH
def revFld : Port → Fld | .a => Reg.HOST_PORT_A_REVERSED | .b => Reg.HOST_PORT_B_REVERSED
def bindFld : Port → Fld | .a => Reg.SEC_PORT_BIND_PORT_A | .b => Reg.SEC_PORT_BIND_PORT_B

def portSt (s : State) : Port → PortSt
  | .a => s.boot.portA
  | .b => s.boot.portB
def setPortSt (p : Port) (x : PortSt) (s : State) : State :=
  match p with
  | .a => { s with boot.portA := x }
  | .b => { s with boot.portB := x }

/-- R358: an image load ends with a status and the name of what refused it. -/
def imageEnds (status kind code item : Nat) (s : State) : State :=
  let s1 := setF (setF (setF (setF (setF s Reg.ENG_IMG_STATUS_BUSY 0) Reg.ENG_IMG_STATUS_STATUS status) Reg.ENG_IMG_REFUSAL_KIND kind)
    Reg.ENG_IMG_REFUSAL_CODE code) Reg.ENG_IMG_ITEM_ITEM item
  irqBoth 2 { s1 with wts.imgRun := none }

/-- R223, R416: loads that read through a port which went down fail. -/
def portLoadsFail (p : Port) (status : Nat) (s : State) : State :=
  let s1 := match s.wts.load with | some r => if r.port = p then loadFails status s else s | none => s
  match s1.wts.imgRun with
  | some r => if r.port = p ∧ getF s1 Reg.ENG_IMG_STATUS_PHASE = 1 then imageEnds 0x23 0 0 0 s1 else s1
  | none => s1

/-- R271: the contexts of a lost port: READY ones are orphaned at once; records held for it are discarded (R269), and a
context whose FINAL record was among them is FREE. -/
def orphanPort (p : Port) (s : State) : State :=
  let finals := (s.cplHeld.filter fun r => r.port == p).filterMap fun r => r.final
  let left := s.ctxs.filter fun c => !finals.contains c.1
  countCtxs { s with cplHeld := s.cplHeld.filter (fun r => r.port != p),
                     ctxs := left.map fun c => if c.2.port = p ∧ c.2.st = .ready then (c.1, { c.2 with st := .orphaned, orphanAt := some s.now }) else c }

/-- R416: the port goes down. -/
def portDown (p : Port) (s : State) : State :=
  if !portUp s p then s
  else
    let s1 := setF (setB s (upFld p) false) (downFld p) (min 255 (getF s (downFld p) + 1))
    let s2 := setP (setF s1 (bindFld p) 0) p Reg.CTX_RING_CTL_PORT_LOST 1
    let s3 := { s2 with ctl.adopts := s2.ctl.adopts.filter fun a => a.port != p }
    irq (otherPort p) 5 (orphanPort p (portLoadsFail p 0x31 s3))

/-- R416: no condition that keeps the port down holds. -/
def portClear (s : State) (p : Port) : Bool :=
  !getB s (perstFld p) && getB s (refFld p) && !getB s (d3Fld p) && !(portSt s p).flr && !s.boot.portsShut.contains (portNum p)

/-- R273, R416: per-port registers take their reset values but for PORT_LOST, which says that the port has been lost since
its last enable; the port's latch is empty. -/
def resetPerPort (p : Port) (s : State) : State :=
  let keys := (perPortFlds.filter (· != Reg.CTX_RING_CTL_PORT_LOST)).map fun f => fldKey f p
  let s1 := { s with flds := s.flds.filter fun e => !keys.contains e.1, ctl.heads := s.ctl.heads.filter fun h => h.1 / 2 != portNum p }
  let s2 := setDeferred (setHoldoff s1 p false) p false
  match p with
  | .a => { s2 with latchA := none }
  | .b => { s2 with latchB := none }

/-- R416: the port is up again. -/
def portRise (p : Port) (s : State) : State :=
  irq (otherPort p) 5 (setPortSt p { portSt s p with bar2 := 36 } (setB (resetPerPort p s) (upFld p) true))

/-- R416, R433: the link reaches DL_Active; with no down condition left the port is up.  The ends of D3hot and of a
Function Level Reset have no row of their own and fall here. -/
def execPortUp (p : Port) (speed : Fin 7) (width : Fin 9) (reversed : Bool) (s : State) : Res :=
  .next (match s.boot.stage with
    | .unpowered => s | .latched => s | .dark => s | .boot => s
    | _ =>
      let s1 := setB (setF (setF s (speedFld p) speed) (widthFld p) width) (revFld p) reversed
      let s2 := setPortSt p { portSt s1 p with link := true, lostAt := none, flr := false } (setB s1 (d3Fld p) false)
      if portClear s2 p && !portUp s2 p then portRise p s2 else s2)

/-- R416: the link leaves DL_Active; the count of 100 ms starts. -/
def execDlActiveLost (p : Port) (t : Nat) (s : State) : Res :=
  .next (if (portSt s p).link then
    setPortSt p { portSt s p with link := false, lostAt := some t } (setF (setF (atTime t s) (speedFld p) 0) (widthFld p) 0)
  else s)

/-- R416: the link has not returned within 100 ms. -/
def execLinkDownTimeout (p : Port) (t : Nat) (s : State) : Res :=
  .next (match (portSt s p).lostAt with
    | some x => if x + 100000000 ≤ t then portDown p (atTime t s) else s
    | none => s)

/-- R416: PF0 enters D3hot. -/
def execD3hotEntry (p : Port) (s : State) : Res :=
  .next (viaPf0 s p fun s => if portUp s p then portDown p (setB s (d3Fld p) true) else s)

/-- R416: a Function Level Reset of PF0 starts; it never clears a LOCK bit. -/
def execFunctionLevelReset (p : Port) (s : State) : Res :=
  .next (viaPf0 s p fun s => if portUp s p then portDown p (setPortSt p { portSt s p with flr := true } s) else s)

/-- R416, R427: PERST_x_N accepted as asserted. -/
def perstOn (p : Port) (t : Nat) (s : State) : State :=
  let s1 := setB (setB s (perstFld p) true) (match p with | .a => Reg.HOST_SIDEBAND_PERST_A | .b => Reg.HOST_SIDEBAND_PERST_B) true
  portDown p (setPortSt p { portSt s1 p with perstAt := (portSt s1 p).perstAt.getD t, link := false, lostAt := none } s1)

/-- R427: and as released. -/
def perstOff (p : Port) (s : State) : State :=
  let s1 := setB (setB s (perstFld p) false) (match p with | .a => Reg.HOST_SIDEBAND_PERST_A | .b => Reg.HOST_SIDEBAND_PERST_B) false
  setPortSt p { portSt s1 p with perstAt := none } s1

end Sys2Proof.Machine
end

