-- ==== Sys2Proof/Machine/Clocks.lean ====
section
/-!
DEFINITION. Machine/Clocks.lean: clock domains, ramps, the reference and its switches, spread spectrum, droop stretch and
frequency counters (R369 to R387, R390, R399).
-/
namespace Sys2Proof.Machine

/-! ### Domains (R372, R373) -/

/-- R373: the divider of an ACLK, NCLK or CCLK code. -/
def aclkDiv (c : Nat) : Nat := [4, 5, 6, 8, 10, 12, 16].getD c 16
def nclkDiv (c : Nat) : Nat := [5, 6, 8, 10, 12, 16, 20, 24].getD c 24
def cclkDiv (c : Nat) : Nat := [6, 8, 10, 12, 16].getD c 16

/-- The field of a ramping domain's code in force: 0 to 31 ACLK, 64 and 65 NCLK, 66 and 67 CCLK. -/
def codeFld (d : Nat) : Fld :=
  if d < 32 then Reg.CLK_ACLK_CUR_CODE d
  else if d = 64 then Reg.CLK_NCLK_CUR_W else if d = 65 then Reg.CLK_NCLK_CUR_E
  else if d = 66 then Reg.CLK_CCLK_CUR_W else Reg.CLK_CCLK_CUR_E

def targetFld (d : Nat) : Fld :=
  if d = 64 then Reg.CLK_NCLK_TARGET_W else if d = 65 then Reg.CLK_NCLK_TARGET_E
  else if d = 66 then Reg.CLK_CCLK_TARGET_W else Reg.CLK_CCLK_TARGET_E

def rampDomains : List Nat := List.range 32 ++ [64, 65, 66, 67]

/-- R372: the six home cores of vault v. -/
def domainCores (v : Nat) : List Nat := (List.range 192).filter fun c => homeVault c == v

/-- R372: an ACLK domain whose six cores are all shuttered is stopped. -/
def aclkRuns (s : State) (v : Nat) : Bool := (domainCores v).any fun c => !coreFenced s c

/-- R406: a thermal trip stops every ACLK domain. -/
def tripped (s : State) : Bool := s.boot.stage == .safe && s.boot.report.cause == 9

/-! ### Goals and steps (R375, R376, R383, R390, R394) -/

/-- R394: the ACLK code of domain v at operating point `op`. -/
def opCodeOf (op v : Nat) : Nat := op / 32 + (if 32 - op % 32 ≤ v then 1 else 0)

/-- The code a domain steps toward. -/
def goalCode (s : State) (d : Nat) : Nat :=
  let c := getF s (codeFld d)
  if d < 32 && !s.pwr.brakes.isEmpty then 6
  else match s.clk.sw with
    | some w =>
      if w.phase < 2 then max c 3
      else if d < 32 then w.aclk.getD d 6 else w.net.getD (d - 64) 0
    | none => if d < 32 then opCodeOf (getF s Reg.PWR_OP_OP) d else getF s (targetFld d)

/-- R375, R397: the dwell in ns; a ramp forced by a brake uses 0.5 us. -/
def dwellNs (s : State) (d : Nat) : Nat :=
  if d < 32 && !s.pwr.brakes.isEmpty then 500 else 100 * getF s Reg.CLK_RAMP_DWELL

def dwellPassed (s : State) (d t : Nat) : Bool :=
  match alGet s.clk.stepAt d with | some x => decide (x + dwellNs s d ≤ t) | none => true

/-- R390: the fastest code of a half's running ACLK domains. -/
def fastestCode (s : State) (h : Nat) : Nat :=
  ((List.range 16).filterMap fun i => if aclkRuns s (16 * h + i) then some (getF s (codeFld (16 * h + i))) else none).foldl min 6

def setCode (d c t : Nat) (s : State) : State :=
  let s1 := setF s (codeFld d) c
  { s1 with clk.stepAt := alSet s1.clk.stepAt d t, clk.fcDist := [true, true] }

/-- R375, R390: one domain's step, where one is due: a faster ACLK step first has its rail slew to the new voltage. -/
def stepDomain (t : Nat) (s : State) (d : Nat) : State :=
  let c := getF s (codeFld d)
  let g := goalCode s d
  if c = g ∨ (d < 32 ∧ (!aclkRuns s d ∨ tripped s)) then s
  else if g < c ∧ d < 32 then
    let h := d / 16
    if s.clk.vcore.getD h 6 ≤ c - 1 then
      if s.clk.vcoreOk.getD h true && dwellPassed s d t then setCode d (c - 1) t s else s
    else { s with clk.vcore := s.clk.vcore.set h (c - 1), clk.vcoreOk := s.clk.vcoreOk.set h false }
  else if dwellPassed s d t then setCode d (if g < c then c - 1 else c + 1) t s
  else s

/-- R390: after steps to slower codes the rail slews down. -/
def vcoreDown (s : State) (h : Nat) : State :=
  if s.clk.vcoreOk.getD h true && decide (s.clk.vcore.getD h 6 < fastestCode s h) then
    { s with clk.vcore := s.clk.vcore.set h (fastestCode s h) }
  else s

/-- The views that follow from the codes: HINGE.DIV (R285, R376) and the RAMPING bits. -/
def clockView (s : State) : State :=
  let ne := fun a b => getF s (codeFld a) != getF s (targetFld a) || getF s (codeFld b) != getF s (targetFld b)
  setB (setB (setF s Reg.NOC_HINGE_DIV (nclkDiv (max (getF s Reg.CLK_NCLK_CUR_W) (getF s Reg.CLK_NCLK_CUR_E))))
    Reg.CLK_NCLK_RAMPING (ne 64 65)) Reg.CLK_CCLK_RAMPING (ne 66 67)

/-- R383: the switch moves on: relock begins once every domain is at its switch divider and a reference is to be taken,
and the switch ends once the domains are back.  PLL_LOCK reads 0 during the relock (log entry 86). -/
def switchAdvance (s : State) : State :=
  match s.clk.sw with
  | none => s
  | some w =>
    let there := rampDomains.all fun d => getF s (codeFld d) == goalCode s d || (decide (d < 32) && !aclkRuns s d)
    if !there then s
    else if w.phase = 0 then
      if w.want.isSome then setF { s with clk.sw := some { w with phase := 1 } } Reg.CLK_REF_STATUS_PLL_LOCK 0 else s
    else if w.phase = 2 then
      let moved := w.want != some w.former
      let s1 := setF (setF { s with clk.sw := none } Reg.CLK_REF_STATUS_SWITCH_BUSY 0) Reg.CLK_REF_STATUS_SWITCH_STATUS 0
      if moved then irqBoth 6 (setF s1 Reg.CLK_REF_STATUS_SWITCHES (min 0xFFFF (getF s1 Reg.CLK_REF_STATUS_SWITCHES + 1))) else s1
    else s

/-- R375: at an alignment point every domain whose dwell has passed takes its next step. -/
def execDividerStep (t : Nat) (s : State) : Res :=
  .next (if clocked s then
    let s1 := rampDomains.foldl (stepDomain t) (atTime t s)
    clockView (switchAdvance (vcoreDown (vcoreDown s1 0) 1))
  else s)

/-- R390: a VCORE rail has settled. -/
def execVcoreSlewDone (half : Half) (s : State) : Res :=
  .next { s with clk.vcoreOk := s.clk.vcoreOk.set (halfNum half) true }

/-! ### Targets (R376, R385) -/

/-- A write of both targets of one network clock: held as the target of step 4 during a switch. -/
def setTargets (d w e : Nat) (s : State) : State :=
  let s1 := setF (setF s (targetFld d) w) (targetFld (d + 1)) e
  clockView { s1 with clk.sw := s1.clk.sw.map fun x => { x with net := (x.net.set (d - 64) w).set (d - 63) e } }

/-- R376: the driver writes CLK_NCLK. -/
def execNclkTargetWrite (p : Port) (v : BitVec 32) (s : State) : Res :=
  .next (viaPf0 s p fun s =>
    if getB s Reg.CLK_LOCK_LOCK then s else setTargets 64 (bitsAt v.toNat 0 3) (bitsAt v.toNat 4 3) s)

/-- R376: the driver writes CLK_CCLK; codes 5 to 7 are out of range. -/
def execCclkTargetWrite (p : Port) (v : BitVec 32) (s : State) : Res :=
  .next (viaPf0 s p fun s =>
    let w := bitsAt v.toNat 0 3
    let e := bitsAt v.toNat 4 3
    if getB s Reg.CLK_LOCK_LOCK ∨ 4 < w ∨ 4 < e then s else setTargets 66 w e s)

/-! ### Droop stretch (R377, R399) -/

/-- STRETCH of a domain: at least one core of the patch is stretched. -/
def stretchView (v : Nat) (s : State) : State :=
  setB s (Reg.CLK_ACLK_CUR_STRETCH v) (s.clk.stretched.any fun x => homeVault x.1 == v)

/-- R399: a core's droop detector trips. -/
def execDroopTrip (core : Fin 192) (t : Nat) (s : State) : Res :=
  .next (if coreFenced s core || !clocked s || tripped s then s
    else
      let s1 := bump (atTime t s) Reg.PWR_DROOP 1
      stretchView (homeVault core) { s1 with clk.stretched := alSet s1.clk.stretched core t })

/-- R399: HOLD_US have passed without a further trip. -/
def execDroopHoldExpire (core : Fin 192) (t : Nat) (s : State) : Res :=
  .next (match alGet s.clk.stretched core with
    | some x =>
      if x + 1000 * getF s Reg.PWR_DROOP_CTL_HOLD_US ≤ t then
        let s1 := atTime t s
        stretchView (homeVault core) { s1 with clk.stretched := smErase s1.clk.stretched core }
      else s
    | none => s)

/-! ### The reference (R382 to R385) -/

def refOk (s : State) : Port → Bool
  | .a => getB s Reg.CLK_REF_STATUS_REF_A_OK
  | .b => getB s Reg.CLK_REF_STATUS_REF_B_OK

def setRefOk (p : Port) (v : Bool) (s : State) : State :=
  match p with
  | .a => setB (setB s Reg.CLK_REF_STATUS_REF_A_OK v) Reg.HOST_PORT_A_REF_OK v
  | .b => setB (setB s Reg.CLK_REF_STATUS_REF_B_OK v) Reg.HOST_PORT_B_REF_OK v

def srcActive (s : State) : Port := if getF s Reg.CLK_REF_STATUS_SRC_ACTIVE = 0 then .a else .b

/-- R434: a switch to the other source has started. -/
def switchIrq (want : Option Port) (former : Port) (s : State) : State := if want = some (otherPort former) then irqBoth 6 s else s

/-- R383, R384: holdover; the domains ramp to their switch dividers, and `want` is taken when they are there. -/
def startSwitch (want : Option Port) (t : Nat) (s : State) : State :=
  let w : ClkSwitch := ⟨0, want, srcActive s, t, (List.range 32).map fun d => getF s (codeFld d),
    [64, 65, 66, 67].map fun d => getF s (codeFld d)⟩
  let s1 := setF (setF s Reg.CLK_REF_STATUS_HOLDOVER 1) Reg.CLK_REF_STATUS_SWITCH_BUSY 1
  switchIrq want w.former { s1 with clk.sw := some w, clk.fcDist := [true, true] }

/-- R382 to R385: a reference becomes LOST; its port is down (R416). -/
def execReferenceLost (p : Port) (t : Nat) (s : State) : Res :=
  .next (if !clocked s then s
    else
      let s1 := portDown p (setRefOk p false (atTime t s))
      let auto := getB s1 Reg.CLK_REF_CTL_AUTO_FAILOVER
      match s1.clk.sw with
      | some w =>
        if w.phase < 2 ∧ w.want = some p then
          let back := if p ≠ w.former ∧ refOk s1 w.former ∧ auto then some w.former
            else if p = w.former ∧ refOk s1 (otherPort p) ∧ auto then some (otherPort p) else none
          let s2 := setF (setF s1 Reg.CLK_REF_STATUS_HOLDOVER 1) Reg.CLK_REF_STATUS_PLL_LOCK 1
          switchAdvance { s2 with clk.sw := some { w with phase := 0, want := back, since := t } }
        else if w.phase = 2 ∧ srcActive s1 = p then
          let s2 := setF s1 Reg.CLK_REF_STATUS_HOLDOVER 1
          let want := if refOk s1 (otherPort p) ∧ auto then some (otherPort p) else none
          switchIrq want p { s2 with clk.fcDist := [true, true], clk.sw := some { w with phase := 0, former := p, since := t, want := want } }
        else s1
      | none =>
        if srcActive s1 = p then
          startSwitch (if refOk s1 (otherPort p) ∧ auto then some (otherPort p) else none) t s1
        else s1)

/-- R382, R384: a reference is OK again; during holdover without a switch it is taken. -/
def execReferenceOk (p : Port) (t : Nat) (s : State) : Res :=
  .next (if !clocked s then s
    else
      let s1 := setRefOk p true (atTime t s)
      match s1.clk.sw with
      | some w =>
        if w.want.isNone then switchAdvance (switchIrq (some p) w.former { s1 with clk.sw := some { w with want := some p } }) else s1
      | none => s1)

/-- R383, R385, R387: a write of CLK_REF_CTL. -/
def execSourceSelect (p : Port) (v : BitVec 32) (t : Nat) (s : State) : Res :=
  .next (viaPf0 s p fun s0 =>
    let s := atTime t s0
    let lim := bitsAt v.toNat 8 7
    let lck := getB s Reg.CLK_LOCK_LOCK
    let want : Port := if bit v.toNat 0 then .b else .a
    if !lck && (lim == 0 || decide (100 < lim)) then s
    else
      let rest := fun (u : State) => if lck then u
        else setF (setB u Reg.CLK_REF_CTL_AUTO_FAILOVER (bit v.toNat 1)) Reg.CLK_REF_CTL_HOLDOVER_LIMIT lim
      if getB s Reg.CLK_REF_STATUS_SWITCH_BUSY ∨ want = srcActive s then rest s
      else if !refOk s want then setF s Reg.CLK_REF_STATUS_SWITCH_STATUS 0x10
      else startSwitch (some want) t (rest (setF s Reg.CLK_REF_CTL_SRC_SEL (portNum want))))

/-- R383: the PLL has relocked; after one dwell the domains ramp back. -/
def execPllRelock (t : Nat) (s : State) : Res :=
  .next (match s.clk.sw with
    | some w =>
      match w.want with
      | some p =>
        if w.phase = 1 then
          let s1 := setF (setF (setF (atTime t s) Reg.CLK_REF_STATUS_HOLDOVER 0) Reg.CLK_REF_STATUS_SRC_ACTIVE (portNum p))
            Reg.CLK_REF_CTL_SRC_SEL (portNum p)
          let s2 := setF s1 Reg.CLK_REF_STATUS_PLL_LOCK 1
          switchAdvance { s2 with clk.sw := some { w with phase := 2 }, clk.stepAt := rampDomains.map fun d => (d, t) }
        else s
      | none => s
    | none => s)

/-- R384: a reference is taken that was OK and, with AUTO_FAILOVER 0, was not taken before; the former one first. -/
def okReference (s : State) (w : ClkSwitch) : Option Port :=
  if refOk s w.former then some w.former else if refOk s (otherPort w.former) then some (otherPort w.former) else none

/-- R384: the limit expires: with no reference OK the module goes dark. -/
def execHoldoverLimitExpire (t : Nat) (s : State) : Res :=
  .next (match s.clk.sw with
    | some w =>
      if w.want.isNone ∧ w.since + 100000 * getF s Reg.CLK_REF_CTL_HOLDOVER_LIMIT ≤ t then
        match okReference s w with
        | some p => switchAdvance (switchIrq (some p) w.former { atTime t s with clk.sw := some { w with want := some p } })
        | none => goDark (atTime t s)
      else s
    | none => s)

/-- R371, R427: the root PLL locks to REFCLK_A if it is present, else to REFCLK_B; the sideband filters start and the
straps are sampled. -/
def execPllLock (refA refB : Bool) (tpos unstable : Fin 8) (t : Nat) (s : State) : Res :=
  .next (if s.boot.stage = .boot ∧ (refA ∨ refB) then
      let s1 := setRefOk .b refB (setRefOk .a refA (atTime t s))
      let s2 := setF s1 Reg.CLK_REF_STATUS_SRC_ACTIVE (if refA then 0 else 1)
      let v := (tpos.val ||| unstable.val) % 8
      let s3 := setB (setF (setF s2 Reg.ID_MODULE_TPOS v) Reg.HOST_SIDEBAND_TPOS v) Reg.HOST_SIDEBAND_TPOS_UNSTABLE (decide (0 < unstable.val))
      clockView { s3 with boot.stage := .locked, boot.portA.perstAt := some t, boot.portB.perstAt := some t }
    else s)

/-- R380, R385: the modulation set in CLK_SSC takes effect at the start of a period, after a switch. -/
def execSscUpdate (s : State) : Res :=
  .next (if clocked s && !getB s Reg.CLK_REF_STATUS_SWITCH_BUSY then
    { s with clk.ssc := (getF s Reg.CLK_SSC_EN, getF s Reg.CLK_SSC_DEPTH, getF s Reg.CLK_SSC_RATE) } else s)

/-! ### Frequency counters (R386) -/

/-- A write of CLK_FCOUNT_CTL: out of range it is discarded whole, and so is one with START while BUSY; a count in progress
keeps the selection that it started with. -/
def execFcountStart (p : Port) (v : BitVec 32) (s : State) : Res :=
  .next (viaPf0 s p fun s =>
    let sel := bitsAt v.toNat 0 7
    let g := bitsAt v.toNat 8 5
    if (99 < sel ∧ sel ≠ 127) ∨ g < 10 ∨ 30 < g ∨ (bit v.toNat 16 ∧ getP s p Reg.CLK_FCOUNT_CTL_BUSY = 1) then s
    else
      let s1 := setP (setP s p Reg.CLK_FCOUNT_CTL_SEL sel) p Reg.CLK_FCOUNT_CTL_GATE_LOG2 g
      if bit v.toNat 16 then
        let s2 := setP (setP (setP s1 p Reg.CLK_FCOUNT_CTL_BUSY 1) p Reg.CLK_FCOUNT_CTL_VALID 0) p Reg.CLK_FCOUNT_CTL_DISTURBED 0
        { s2 with clk.fcRun := s2.clk.fcRun.set (portNum p) (sel, g),
                  clk.fcDist := s2.clk.fcDist.set (portNum p) (getB s2 Reg.CLK_REF_STATUS_SWITCH_BUSY || getB s2 Reg.CLK_REF_STATUS_HOLDOVER) }
      else s1)

/-- R372: the divider of an aligned domain that runs, 0 for a stopped one; none for a domain unrelated to the root. -/
def alignedDiv (s : State) (d : Nat) : Option Nat :=
  if d < 32 then some (if aclkRuns s d && !tripped s then aclkDiv (getF s (codeFld d)) else 0)
  else if d < 64 then some (if vaultRetired s (d - 32) || tripped s then 0 else 4)
  else if d < 66 then some (nclkDiv (getF s (codeFld d)))
  else if d < 68 then some (cclkDiv (getF s (codeFld d)))
  else if d = 68 then some (getF s Reg.NOC_HINGE_DIV)
  else if d = 69 then some 8
  else if d = 70 then some 16
  else none

/-- R386: the gate closes.  An aligned domain that nothing disturbed reads 2^GATE_LOG2 / N, rounded down or up by phase;
any other count is as measured. -/
def execFcountDone (p : Port) (measured : Nat) (roundUp : Bool) (s : State) : Res :=
  .next (if getP s p Reg.CLK_FCOUNT_CTL_BUSY = 1 then
      let dist := s.clk.fcDist.getD (portNum p) false
      let run := s.clk.fcRun.getD (portNum p) (0, 0)
      let gate := 2 ^ run.2
      let n := match alignedDiv s run.1 with
        | some 0 => 0
        | some d => if dist then measured else (if roundUp then (gate + d - 1) / d else gate / d)
        | none => measured
      setP (setP (setP (setP s p Reg.CLK_FCOUNT_RESULT n) p Reg.CLK_FCOUNT_CTL_BUSY 0) p Reg.CLK_FCOUNT_CTL_VALID 1) p
        Reg.CLK_FCOUNT_CTL_DISTURBED (b2n dist)
    else s)

end Sys2Proof.Machine
end

