-- ==== Sys2Proof/Machine/Power.lean ====
section
/-!
DEFINITION. Machine/Power.lean: the power loop, the cap, brakes, droop, temperatures, coolant, leaks, the input and the rails
(R388 to R411), and the sideband inputs that drive them (R427 to R430).
-/
namespace Sys2Proof.Machine

/-! ### Brakes (R397, R398, R409) -/

/-- R394: OP_FLOOR, and OP no lower; OP waits while a switch is in progress (R385). -/
def setFloor (s : State) : State :=
  let f := if s.pwr.brakes.isEmpty then 32 * getF s Reg.CLK_ACLK_CEIL_MIN_CODE else 192
  let s1 := setF s Reg.PWR_OP_OP_FLOOR f
  if getB s1 Reg.CLK_REF_STATUS_SWITCH_BUSY then s1 else setF s1 Reg.PWR_OP_OP (max (getF s1 Reg.PWR_OP_OP) f)

/-- R398: a brake is applied; each entry counts. -/
def brakeOn (k : Nat) (s : State) : State :=
  if s.pwr.brakes.contains k then s
  else
    let s1 := bump (setF s Reg.PWR_STATUS_BRAKE 1) Reg.PWR_BRAKES 1
    setFloor { s1 with pwr.brakes := k :: s1.pwr.brakes }

/-- R393: C_eff and its view. -/
def setCeff (mw : Nat) (s : State) : State := setF { s with pwr.cEff := mw } Reg.PWR_CAP_EFFECTIVE (mw / 1000)

/-- R397, R409: a brake is released: C_eff restarts from the measured power; the floor lifts with the last brake. -/
def brakeOff (k meanMw : Nat) (s : State) : State :=
  if s.pwr.brakes.contains k then
    let s1 := setCeff (min s.pwr.cEff meanMw) s
    let s2 := { s1 with pwr.brakes := s1.pwr.brakes.filter (· != k) }
    setFloor (setB s2 Reg.PWR_STATUS_BRAKE (!s2.pwr.brakes.isEmpty))
  else s

/-! ### The cap (R393 to R396) -/

/-- R394: the limit L in mW; R392 takes 0.9 of it after a wide correction. -/
def limitMw (s : State) : Nat :=
  let l := min s.pwr.cEff (1000 * getF s Reg.PWR_OP_THERM_CAP)
  if s.pwr.calWide then l * 9 / 10 else l

/-- R393: one loop of C_eff toward TARGET. -/
def slewCeff (s : State) : State :=
  let t := 1000 * getF s Reg.PWR_CAP_TARGET
  let c := s.pwr.cEff
  if c ≤ t then setCeff (min t (c + getF s Reg.PWR_SLEW_UP)) s else setCeff (max t (c - getF s Reg.PWR_SLEW_DOWN)) s

/-- R391: the calibrated estimate in mW. -/
def pEst (s : State) (core rest : Nat) : Nat := (s.pwr.gainCore * core + s.pwr.gainRest * rest) / 1000000

/-- R394: one move of OP: up while P_est > L, down while the estimate predicted for OP - 1 stays within 0.98 L; the domain
concerned must have passed its dwell. -/
def moveOp (p pred t : Nat) (s : State) : State :=
  let op := getF s Reg.PWR_OP_OP
  if getB s Reg.CLK_REF_STATUS_SWITCH_BUSY then s
  else if s.pwr.capDrop then { setF s Reg.PWR_OP_OP (min 192 (op + 32)) with pwr.capDrop := false }
  else if limitMw s < p then
    if op < 192 ∧ dwellPassed s (31 - op % 32) t then setF s Reg.PWR_OP_OP (op + 1) else s
  else if getF s Reg.PWR_OP_OP_FLOOR < op ∧ 100 * pred ≤ 98 * limitMw s ∧ dwellPassed s (31 - (op - 1) % 32) t then
    setF s Reg.PWR_OP_OP (op - 1)
  else s

/-- R396, R411: CAP_LIMITED, its milliseconds, and the condition of CAP_UNMET. -/
def capView (p t : Nat) (s : State) : State :=
  let lim := decide (getF s Reg.PWR_OP_OP_FLOOR < getF s Reg.PWR_OP_OP)
  let s1 := setB s Reg.PWR_STATUS_CAP_LIMITED lim
  let us := s1.pwr.capLimUs + b2n lim
  let s2 := if us < 1000 then { s1 with pwr.capLimUs := us } else { bump s1 Reg.PWR_CAP_LIMITED 1 with pwr.capLimUs := 0 }
  if p ≤ limitMw s2 then { setF s2 Reg.PWR_STATUS_CAP_UNMET 0 with pwr.unmetAt := none }
  else if getF s2 Reg.PWR_OP_OP = 192 then { s2 with pwr.unmetAt := some (s2.pwr.unmetAt.getD t) }
  else { s2 with pwr.unmetAt := none }

/-- R391, R393, R394: one loop of the power manager.  The activity estimates, and those predicted for OP - 1, are in mW. -/
def execPowerLoop (coreEst restEst predCore predRest t : Nat) (s : State) : Res :=
  .next (if !clocked s then s
    else
      let s0 := atTime t s
      let p := pEst s0 coreEst restEst
      let s1 := slewCeff (setF s0 Reg.PWR_EST_EST (min 4095 (p / 1000)))
      let s2 := setFloor s1
      let s3 := capView p t (moveOp p (pEst s2 predCore predRest) t s2)
      { s3 with pwr.capSum := (s3.pwr.capSum.1 + s3.pwr.cEff / 1000, s3.pwr.capSum.2 + 1) })

def gainClamp (g : Nat) : Nat := max 800000 (min 1250000 g)

/-- R392: a correction of more than 10 %. -/
def wideCorrection (old new : Nat) : Bool := decide (11 * old < 10 * new) || decide (10 * new < 9 * old)

/-- R392: the window just ended, in mJ: both estimates, the measured core-rail energy and the measured input energy. -/
def execGainCalibration (coreEst restEst coreMeas inputMeas : Nat) (s : State) : Res :=
  .next (if !clocked s then s
    else
      let g := fun (old est m : Nat) => if est = 0 then old else 1000000 * m / est
      let gc := g s.pwr.gainCore coreEst coreMeas
      let gr := g s.pwr.gainRest restEst (inputMeas - coreMeas)
      let wide := wideCorrection s.pwr.gainCore gc || wideCorrection s.pwr.gainRest gr
      let s1 := { s with pwr.gainCore := gainClamp gc, pwr.gainRest := gainClamp gr, pwr.calWide := wide }
      let s2 := if wide then setF s1 Reg.PWR_STATUS_CAL_FAULT 1 else s1
      let e := s2.pwr.energyMj + inputMeas
      { bump (setF s2 Reg.PWR_EST_MEAS (min 4095 (inputMeas / 10))) Reg.PWR_ENERGY (e / 1000) with pwr.energyMj := e % 1000 })

/-- R393, R395: a new TARGET; out of range it is discarded. -/
def setTarget (w : Nat) (s : State) : State :=
  if w < 900 ∨ 2200 < w then s
  else
    let s1 := setF s Reg.PWR_CAP_TARGET w
    if 1000 * w + 1000 * getF s Reg.PWR_SLEW_DOWN < s.pwr.cEff then
      if getB s Reg.CLK_REF_STATUS_SWITCH_BUSY then { s1 with pwr.capDrop := true }
      else setF s1 Reg.PWR_OP_OP (min 192 (getF s1 Reg.PWR_OP_OP + 32))
    else s1

/-- R393: a driver's write of PWR_CAP. -/
def execCapTargetWrite (p : Port) (v : BitVec 32) (s : State) : Res := .next (viaPf0 s p (setTarget (bitsAt v.toNat 0 12)))

/-- R432: the management interface writes the target; it answers outside the dark state. -/
def mgmtAlive (s : State) : Bool :=
  match s.boot.stage with | .unpowered => false | .latched => false | .dark => false | .boot => false | .locked => false | _ => true

def execPldmCapEffecter (watts : Nat) (s : State) : Res := .next (if mgmtAlive s then setTarget watts s else s)

/-- R396: P_est has exceeded L for 1 ms at OP 192. -/
def execCapUnmet (t : Nat) (s : State) : Res :=
  .next (match s.pwr.unmetAt with
    | some x => if x + 1000000 ≤ t then alert Reg.HOST_ALERT_CAP_UNMET (setF (atTime t s) Reg.PWR_STATUS_CAP_UNMET 1) else s
    | none => s)

/-! ### Sideband inputs (R397, R407, R427 to R429) -/

def sbNum : SbInput → Nat | .shutter => 0 | .leak => 1 | .perstA => 2 | .perstB => 3
def toggling (s : State) (i : SbInput) : Bool := getBit s Reg.HOST_SIDEBAND_TOGGLING (sbNum i)

/-- R397: SHUTTER_N accepted as asserted. -/
def shutterOn (t : Nat) (s : State) : State :=
  if getB s Reg.HOST_SIDEBAND_SHUTTER then s
  else
    let s1 := setF (setF s Reg.HOST_SIDEBAND_SHUTTER 1) Reg.PWR_STATUS_SHUTTER 1
    brakeOn 0 { s1 with pwr.shutterAt := some t }

def shutterOff (meanMw : Nat) (s : State) : State :=
  if getB s Reg.HOST_SIDEBAND_SHUTTER then
    let s1 := setF (setF s Reg.HOST_SIDEBAND_SHUTTER 0) Reg.PWR_STATUS_SHUTTER 0
    brakeOff 0 meanMw { s1 with pwr.shutterAt := none }
  else s

/-- R472 THERMAL: cause (0 brake, 1 trip, 2 inlet, 3 sensor failure, 4 leak), peak, duration. -/
def ledgerThermal (cause peak ms : Nat) (s : State) : State :=
  ledgerAdd 0x02 [(8, kindCode 4725 cause), (8, peak % 256), (32, ms)] s

/-- R407: LEAK_N accepted as asserted; every assertion is recorded. -/
def leakOn (t : Nat) (s : State) : State :=
  if getB s Reg.HOST_SIDEBAND_LEAK then s
  else
    let s1 := setF (setF s Reg.HOST_SIDEBAND_LEAK 1) Reg.PWR_STATUS_LEAK 1
    brakeOn 2 (ledgerThermal 4 0 0 (alert Reg.HOST_ALERT_LEAK { s1 with pwr.leakAt := some t }))

def leakOff (meanMw : Nat) (s : State) : State :=
  if getB s Reg.HOST_SIDEBAND_LEAK then
    let s1 := setF (setF s Reg.HOST_SIDEBAND_LEAK 0) Reg.PWR_STATUS_LEAK 0
    brakeOff 2 meanMw { s1 with pwr.leakAt := none }
  else s

/-- R427: the filters run from SCLK after PLL lock. -/
def filtered (s : State) (i : SbInput) (t : Nat) (f : State → State) : State :=
  if clocked s && !toggling s i then f (atTime t s) else s

def execShutterAssert (t : Nat) (s : State) : Res := .next (filtered s .shutter t (shutterOn t))
def execShutterRelease (meanMw t : Nat) (s : State) : Res := .next (filtered s .shutter t (shutterOff meanMw))
def execLeakAssert (t : Nat) (s : State) : Res := .next (filtered s .leak t (leakOn t))
def execLeakRelease (meanMw t : Nat) (s : State) : Res := .next (filtered s .leak t (leakOff meanMw))

def perstInput : Port → SbInput | .a => .perstA | .b => .perstB

/-- R416, R427: PERST_x_N is accepted as asserted. -/
def execPerstAssert (p : Port) (t : Nat) (s : State) : Res := .next (filtered s (perstInput p) t (perstOn p t))
/-- R427, R461: PERST_x_N is accepted as released. -/
def execPerstRelease (p : Port) (t : Nat) (s : State) : Res := .next (filtered s (perstInput p) t (perstOff p))

/-- R397: SHUTTER_N held for 1 s. -/
def execShutterStuck (t : Nat) (s : State) : Res :=
  .next (match s.pwr.shutterAt with
    | some x => if x + 1000000000 ≤ t then alert Reg.HOST_ALERT_SHUTTER_STUCK (setF (atTime t s) Reg.PWR_STATUS_SHUTTER_STUCK 1) else s
    | none => s)

/-- R429: PERST_x_N asserted for 1 s. -/
def execPerstStuck (p : Port) (t : Nat) (s : State) : Res :=
  .next (match (portSt s p).perstAt with
    | some x =>
      if x + 1000000000 ≤ t ∧ getB s (perstFld p) then
        alert Reg.HOST_ALERT_PERST_STUCK (setF (atTime t s) (match p with | .a => Reg.HOST_PORT_A_PERST_STUCK | .b => Reg.HOST_PORT_B_PERST_STUCK) 1)
      else s
    | none => s)

/-- R407: LEAK_N stays asserted for GRACE. -/
def execLeakGraceExpire (t : Nat) (s : State) : Res :=
  .next (match s.pwr.leakAt with
    | some x => if x + 10000000 * getF s Reg.PWR_LEAK_CTL_GRACE ≤ t then enterSafe 0x0A 0 [] (atTime t s) else s
    | none => s)

/-- An input's accepted level becomes asserted. -/
def sbOn (i : SbInput) (t : Nat) (s : State) : State :=
  match i with | .shutter => shutterOn t s | .leak => leakOn t s | .perstA => perstOn .a t s | .perstB => perstOn .b t s

def sbOff (i : SbInput) (meanMw : Nat) (s : State) : State :=
  match i with | .shutter => shutterOff meanMw s | .leak => leakOff meanMw s | .perstA => perstOff .a s | .perstB => perstOff .b s

/-- R428: an input becomes TOGGLING: its accepted level is asserted. -/
def execSidebandToggling (i : SbInput) (t : Nat) (s : State) : Res :=
  .next (if clocked s && !toggling s i then
    let s1 := setBit (setBit (atTime t s) Reg.HOST_SIDEBAND_TOGGLING (sbNum i) true) Reg.HOST_SIDEBAND_TOG (sbNum i) true
    sbOn i t (alert Reg.HOST_ALERT_TOGGLING s1)
  else s)

/-- R428: TOGGLING ends; the accepted level takes the value held. -/
def execTogglingEnd (i : SbInput) (asserted : Bool) (meanMw t : Nat) (s : State) : Res :=
  .next (if toggling s i then
    let s1 := setBit (atTime t s) Reg.HOST_SIDEBAND_TOGGLING (sbNum i) false
    if asserted then s1 else sbOff i meanMw s1
  else s)

/-! ### Temperature (R403 to R406) -/

/-- R404: a reading that counts as failed, in 0.1 C. -/
def sensorBad (r : Option Int) : Bool := match r with | none => true | some v => decide (v < -200) || decide (1500 < v)

/-- The half of junction sensor i (0 to 31 domains, 32 and 33 West, 34 and 35 East) or of a vault. -/
def sensorHalf (i : Nat) : Nat := if i < 16 then 0 else if i < 32 then 1 else (i - 32) / 2

/-- R404: the reading used for sensor i of a kind whose sensor numbers start at `base`. -/
def sensorUse (s : State) (base : Nat) (rs : List (Option Int)) (i : Nat) : Int :=
  if s.pwr.sensorsOut.contains (base + i) then
    let others := (List.range rs.length).filter fun j => j != i && sensorHalf j == sensorHalf i && !s.pwr.sensorsOut.contains (base + j)
    match others.map fun j => (rs.getD j none).getD 0 with
    | [] => (Config.openTemp (s.fresh + base + i)).toNat
    | a :: t => t.foldl max a + 50
  else (rs.getD i none).getD 0

def hottest (l : List Int) : Int := match l with | [] => 0 | a :: t => t.foldl max a

/-- The lowest index that holds the largest value. -/
def hottestAt (l : List Int) : Nat := l.findIdx fun x => x == hottest l

def degC (v : Int) : Nat := (v / 10).toNat

/-- R404: sensors that fail now. -/
def sensorFailures (s : State) (js vs : List (Option Int)) (inl outl : Option Int) : List Nat :=
  let at0 := fun (base : Nat) (rs : List (Option Int)) => ((List.range rs.length).filter fun i => sensorBad (rs.getD i none)).map (· + base)
  (at0 0 js ++ at0 36 vs ++ (if sensorBad inl then [68] else []) ++ (if sensorBad outl then [69] else [])).filter
    fun k => !s.pwr.sensorsOut.contains k

/-- R405: C_therm. -/
def thermCap (s : State) (j v : Int) : State :=
  let tj : Int := 10 * (getF s Reg.PWR_THERM_CTL_TJ_TARGET : Int)
  let c := getF s Reg.PWR_OP_THERM_CAP
  if tj < j ∨ 900 < v then setF (setF s Reg.PWR_OP_THERM_CAP (c - 10)) Reg.PWR_STATUS_THERM_LIMITED 1
  else if j < tj - 30 ∧ v < 870 then
    let n := min 2200 (c + 5)
    setB (setF s Reg.PWR_OP_THERM_CAP n) Reg.PWR_STATUS_THERM_LIMITED (decide (n < 2200))
  else s

/-- R405: the vaults whose refresh rate is doubled. -/
def refreshRates (s : State) (vs : List Int) : State :=
  { s with pwr.refresh2x := (List.range vs.length).filter fun i =>
      decide (850 < vs.getD i 0) || (s.pwr.refresh2x.contains i && !decide (vs.getD i 0 < 830)) }

/-- R405: every running ACLK domain is at the floor. -/
def atFloor (s : State) : Bool := !s.pwr.brakes.isEmpty && (List.range 32).all fun d => !aclkRuns s d || getF s (codeFld d) == 6

/-- R405, R406: the thermal brake. -/
def thermalBrake (j v : Int) (meanMw t : Nat) (s : State) : State :=
  let tj : Int := 10 * (getF s Reg.PWR_THERM_CTL_TJ_TARGET : Int)
  let peak := degC (max j v)
  match s.pwr.brakeAt with
  | none =>
    if 1050 ≤ j ∨ 950 ≤ v then
      brakeOn 1 (alert Reg.HOST_ALERT_THERMAL (setF { s with pwr.brakeAt := some (t, peak) } Reg.PWR_STATUS_THERM_BRAKE 1))
    else s
  | some (t0, pk) =>
    if j < tj - 30 ∧ v < 870 then
      brakeOff 1 meanMw (ledgerThermal 0 (max pk peak) ((t - t0) / 1000000) (setF { s with pwr.brakeAt := none } Reg.PWR_STATUS_THERM_BRAKE 0))
    else { s with pwr.brakeAt := some (t0, max pk peak) }

/-- R406: a thermal trip. -/
def thermalTrip (j v : Int) (t : Nat) (s : State) : State :=
  let t0 := match s.pwr.brakeAt with | some b => b.1 | none => t
  enterSafe 9 0 [degC j, degC v] (ledgerThermal 1 (degC (max j v)) ((t - t0) / 1000000)
    (alert Reg.HOST_ALERT_THERMAL { s with pwr.tripHold := true }))

/-- R405: the inlet's count, and the end of a period of INLET_RANGE, which the ledger records. -/
def inletWatch (bad : Bool) (temp : Int) (t : Nat) (s : State) : State :=
  if bad then
    { s with pwr.inletAt := some (s.pwr.inletAt.getD t), pwr.inletPeak := if s.pwr.inletPeak = 0 then 0 else max s.pwr.inletPeak (degC temp) }
  else
    let s1 := if s.pwr.inletPeak = 0 then s else ledgerThermal 2 s.pwr.inletPeak ((t - s.pwr.inletAt.getD t) / 1000000) s
    { s1 with pwr.inletAt := none, pwr.inletPeak := 0 }

/-- R405: INLET_RANGE is set and ALERT_N raised. -/
def inletRange (temp : Int) (s : State) : State :=
  alert Reg.HOST_ALERT_THERMAL (setF { s with pwr.inletPeak := max s.pwr.inletPeak (max 1 (degC temp)) } Reg.PWR_STATUS_INLET_RANGE 1)

/-- R403 to R406: the check made every 1 ms: junction sensors (32 domains, then four of the commons and Transom), vault
sensors and coolant sensors in 0.1 C, the input's voltage and current, and the mean power of the last 1 ms. -/
def execThermalCheck (js vs : List (Option Int)) (inl outl : Option Int) (vinMv iinCa meanMw t : Nat) (s : State) : Res :=
  .next (if !clocked s then s
    else
      let s0 := setF (setF (atTime t s) Reg.PWR_VIN_VIN_MV vinMv) Reg.PWR_VIN_IIN_CA iinCa
      let new := sensorFailures s0 js vs inl outl
      let s1 := if new.isEmpty then s0
        else new.foldl (fun u _ => ledgerThermal 3 0 0 u)
          (alert Reg.HOST_ALERT_THERMAL (setF { s0 with pwr.sensorsOut := s0.pwr.sensorsOut ++ new } Reg.PWR_STATUS_SENSOR_FAIL 1))
      let ju := (List.range js.length).map (sensorUse s1 0 js)
      let vu := (List.range vs.length).map (sensorUse s1 36 vs)
      let inBad := s1.pwr.sensorsOut.contains 68
      let outBad := s1.pwr.sensorsOut.contains 69
      let inT := (if inBad then outl else inl).getD 0
      let outT := (if outBad then inl else outl).getD 0
      let j := hottest ju
      let v := hottest vu
      let s2 := { s1 with fresh := s1.fresh + 70, pwr.inletSum := (s1.pwr.inletSum.1 + inT.toNat, s1.pwr.inletSum.2 + 1) }
      let s3 := setF (setF (setF (setF (setF (setF s2 Reg.PWR_TEMP_TJ_MAX (degC j)) Reg.PWR_TEMP_TJ_DOMAIN (hottestAt (ju.take 32)))
        Reg.PWR_TEMP_DRAM_MAX (degC v)) Reg.PWR_TEMP_DRAM_VAULT (hottestAt vu)) Reg.PWR_COOLANT_INLET inT.toNat) Reg.PWR_COOLANT_OUTLET outT.toNat
      let s4 := if getB s3 Reg.PWR_STATUS_VIN_LOW && decide (39000 ≤ vinMv) then brakeOff 3 meanMw (setF s3 Reg.PWR_STATUS_VIN_LOW 0) else s3
      let s5 := inletWatch ((inBad && outBad) || decide (inT < 150) || decide (450 < inT)) inT t s4
      let s6 := if inBad && outBad && s5.pwr.inletPeak == 0 then inletRange inT s5 else s5
      let s7 := thermalBrake j v meanMw t (refreshRates (thermCap s6 j v) vu)
      let s8 := { s7 with pwr.hotAt := if 950 ≤ v ∧ atFloor s7 then some (s7.pwr.hotAt.getD t) else none }
      if s8.boot.stage = .safe then { s8 with pwr.tripHold := s8.pwr.tripHold && !(decide (j < 900) && decide (v < 800)) }
      else if decide (1100 ≤ j) || (match s8.pwr.hotAt with | some x => decide (x + 10000000 ≤ t) | none => false) then thermalTrip j v t s8
      else s8)

/-- R405: the inlet has stayed out of range for 1 s. -/
def execInletRange (t : Nat) (s : State) : Res :=
  .next (match s.pwr.inletAt with
    | some x => if x + 1000000000 ≤ t then inletRange (10 * ((getF s Reg.PWR_COOLANT_INLET / 10 : Nat) : Int)) (atTime t s) else s
    | none => s)

/-! ### The input and the rails (R388, R408) -/

def powered (s : State) : Bool := match s.boot.stage with | .unpowered => false | .latched => false | _ => true

def execVinLow (t : Nat) (s : State) : Res :=
  .next (if clocked s then brakeOn 3 (setF (atTime t s) Reg.PWR_STATUS_VIN_LOW 1) else s)

/-- R408: the module turns off and keeps the cause; the ledger records it. -/
def railRecord (cause rail : Nat) (s : State) : State :=
  ledgerAdd 0x0B [(32, cause + 16 * rail)] { s with nvFault := (cause, rail) }

def execInputUndervoltage (t : Nat) (s : State) : Res :=
  .next (if powered s then powerLost .unpowered (railRecord 3 0 (atTime t s)) else s)

def execInputOvervoltage (t : Nat) (s : State) : Res :=
  .next (if powered s then powerLost .unpowered (railRecord 2 0 (atTime t s)) else s)

/-- R408: a reversed input is blocked; the module is unpowered and keeps no cause of it. -/
def execInputReversed (s : State) : Res := .next (if powered s then powerLost .unpowered s else s)

/-- R408: a short latches off all rails but VSTBY; ALERT_N is driven from standby. -/
def execRailShort (rail : Fin 6) (t : Nat) (s : State) : Res :=
  .next (if powered s then powerLost .latched (railRecord 1 rail (atTime t s)) else s)

def execSenseOpen (s : State) : Res := .next (if powered s then setF s Reg.PWR_STATUS_SENSE_OPEN 1 else s)

/-- R408: the input is removed for `ms` milliseconds; a latch clears after at least 1 s. -/
def execInputRemoved (ms : Nat) (s : State) : Res :=
  .next (match s.boot.stage with
    | .unpowered => s
    | .latched => if 1000 ≤ ms then { s with boot.stage := .unpowered } else s
    | _ => powerLost .unpowered s)

/-- R388, R459: the input becomes valid: a module reset; without a reference the module stays dark. -/
def execInputPowerValid (refPresent : Bool) (s : State) : Res :=
  .next (if s.boot.stage = .unpowered then
    let s1 := moduleReset 0 s
    if refPresent then s1 else { s1 with boot.stage := .dark }
  else s)

/-- R370: a reference returns to a dark module. -/
def execReferenceReturn (s : State) : Res := .next (if s.boot.stage = .dark then moduleReset 1 s else s)

/-- R459: SHUTTER_N and both PERST pins accepted as asserted, none TOGGLING, for 100 ms; withheld after a thermal trip. -/
def execResetRequest (t : Nat) (s : State) : Res :=
  let held := fun (o : Option Nat) => match o with | some x => decide (x + 100000000 ≤ t) | none => false
  .next (if clocked s && held s.pwr.shutterAt && held s.boot.portA.perstAt && held s.boot.portB.perstAt &&
      getF s Reg.HOST_SIDEBAND_TOGGLING % 16 / 4 == 0 && !toggling s .shutter && !s.pwr.tripHold then moduleReset 1 (atTime t s) else s)

end Sys2Proof.Machine
end

