-- ==== Sys2Proof/Machine/Host.lean ====
section
/-!
DEFINITION. Machine/Host.lean: BAR0 and BAR4 accesses (R12 to R17, R422, R435), interrupts, configuration requests, host
reads that fail, and link encryption (R417 to R425, R461).
-/
namespace Sys2Proof.Machine

/-! ### The register space (R11 to R14) -/

/-- The read-write pairs of R14 that are two fields; a 64-bit field is a pair of its own. -/
def rwPairs : List Nat :=
  [Reg.CTX_LC_BASE_LO, Reg.CTX_BE_BASE_LO, Reg.CTX_CPL_BASE_LO, Reg.CTX_STEP_ORIGIN_LO, Reg.CTX_ADOPT_ADDR_LO, Reg.MEM_MANIFEST_LO,
   Reg.FAB_MEMBER_ADDR_LO, Reg.CTX_REPLAY_ADDR_LO, Reg.CTX_CAPTURE_STEP_LO, Reg.ENG_IMG_ADDR_LO, Reg.HOST_BAR2_WIN_LO,
   Reg.PMC_SNAP_BASE_LO, Reg.CTX_JRNL_BASE_LO, Reg.PMC_SMP_BASE_LO, Reg.ENG_ASTER_RING_BASE_LO].map fun f => f.off

def isCounterOff (o : Nat) : Bool := decide (0xA8000 ≤ o) && decide (o < 0xAFFF8) && o % 4 == 0
def isLockOff (o : Nat) : Bool := o % 0x10000 == 0xFFFC && decide (o < 0xC0000)

/-- The fields whose lowest bit lies in the register at an offset. -/
def fieldsAt (o : Nat) : List Fld := Reg.table.filter fun f => f.off == o || (f.len == 64 && f.off + 4 == o)

/-- R13: the offset holds a register of this manual. -/
def regAt (o : Nat) : Bool := isCounterOff o || isLockOff o || !(fieldsAt o).isEmpty

def isPair (o : Nat) : Bool :=
  rwPairs.contains o || (isCounterOff o && o % 8 == 0) || Reg.table.any fun f => f.off == o && f.len == 64

def readable (a : Acc) : Bool := match a with | .wo => false | _ => true

/-- R242, R273: this module is the entry module and reads the port's rings. -/
def ringActive (s : State) (p : Port) : Bool :=
  isEntry s && portUp s p && s.ctl.replay.isNone && (getP s p Reg.CTX_RING_CTL_LC_EN == 1 || getP s p Reg.CTX_RING_CTL_BE_EN == 1)

/-- A register's value as a host reads it through a port (R12, R45). -/
def regRead (s : State) (p : Port) (o : Nat) : Nat :=
  if isCounterOff o then getF s (Reg.PMC_COUNTER ((o - 0xA8000) / 8)) / 2 ^ (32 * (o % 8 / 4)) % 2 ^ 32
  else if isLockOff o then getF s ⟨o, 0, 1, .w1s, 0, false⟩
  else ((fieldsAt o).map fun f =>
    if f = Reg.ID_MODULE_THIS_PORT then portNum p * 2 ^ f.lo
    else if f = Reg.CTX_RING_CTL_ACTIVE then b2n (ringActive s p) * 2 ^ f.lo
    else if !readable f.acc then 0
    else if f.off = o then getP s p f % 2 ^ 32 * 2 ^ f.lo % 2 ^ 32 else getP s p f / 2 ^ 32).sum

/-- R13: an access of this width and alignment is permitted where its lanes fall on registers. -/
def shapeOk (o size : Nat) : Bool := (size == 2 && o % 4 == 0) || (size == 3 && o % 8 == 0)

def lanesOk (at0 : Nat → Bool) (o size : Nat) : Bool := at0 o && (size != 3 || at0 (o + 4))

/-- R422: the BAR0 offset behind a BAR4 offset, for the blocks that BAR4 shows. -/
def bar4Off (o : Nat) : Option Nat :=
  match o / 0x10000 with
  | 0 => some o
  | 2 => some (0x40000 + o % 0x10000)
  | 3 => some (0x20000 + o % 0x10000)
  | _ => none

/-- R422, R465: the BAR4 offset holds something. -/
def bar4At (o : Nat) : Bool :=
  if o / 0x10000 = 1 then decide (o % 0x10000 < 64) && !(decide (41 ≤ o % 0x10000) && decide (o % 0x10000 < 44)) && !(decide (44 ≤ o % 0x10000) && decide (o % 0x10000 < 48))
  else match bar4Off o with | some x => regAt x | none => false

/-- R16: an access that is not permitted: all ones are returned or the write is discarded, and it is logged.  A write to
BAR4 is discarded without a log entry. -/
def execBadAccess (p : Port) (bar4 : Bool) (off size : Nat) (write : Bool) (s : State) : Res :=
  let at0 := if bar4 then bar4At else regAt
  let bad := !(shapeOk off size) || !(lanesOk at0 off size)
  let log := emit (logBad (if bar4 then 2 else 0) p write size (!shapeOk off size) 0 off s) (.bad p write)
  .next (if !clocked s then s
    else if bar4 then (if write then emit s (.bad p true) else if bad then log else s)
    else if bad then viaPf0 s p fun _ => log
    else s)

/-! ### Pairs (R14) -/

def latch (s : State) : Port → Option (Nat × Nat)
  | .a => s.latchA
  | .b => s.latchB
def setLatch (p : Port) (l : Option (Nat × Nat)) (s : State) : State :=
  match p with
  | .a => { s with latchA := l }
  | .b => { s with latchB := l }

/-- R14: a 32-bit read of a pair's lower register. -/
def execPairLowerRead (p : Port) (off : Nat) (s : State) : Res :=
  .next (if isPair off then
    viaPf0 s p fun s => setLatch p (some (off, regRead s p (off + 4))) (emit s (.readData p (leBytes 4 (regRead s p off))))
  else s)

/-- R14: a 32-bit read of the upper register of the pair whose lower register is at `off`. -/
def execPairUpperRead (p : Port) (off : Nat) (s : State) : Res :=
  .next (if isPair off then
    viaPf0 s p fun s =>
      match latch s p with
      | some (o, v) =>
        if o = off then setLatch p none (emit s (.readData p (leBytes 4 v)))
        else emit s (.readData p (leBytes 4 (regRead s p (off + 4))))
      | none => emit s (.readData p (leBytes 4 (regRead s p (off + 4))))
  else s)

/-! ### Writes (R12, R15, R17) -/

def lockOf (off : Nat) : Fld := ⟨off / 0x10000 * 0x10000 + 0xFFFC, 0, 1, .w1s, 0, false⟩

/-- R15: a block's LOCK bit is set. -/
def execLockSet (p : Port) (block : Fin 12) (s : State) : Res :=
  .next (viaPf0 s p fun s => setF s (lockOf (block * 0x10000)) 1)

/-- Registers whose writes have rows of their own. -/
def ownRow : List Nat :=
  [Reg.CLK_REF_CTL_SRC_SEL, Reg.CLK_NCLK_TARGET_W, Reg.CLK_CCLK_TARGET_W, Reg.CLK_FCOUNT_CTL_SEL, Reg.PWR_CAP_TARGET,
   Reg.MEM_GEN_CMD_OP, Reg.CTX_RING_CTL_LC_EN, Reg.CTX_CPL_TAIL_INDEX, Reg.CTX_STEP_ORIGIN_HI, Reg.CTX_ADOPT_CMD_GO,
   Reg.FAB_MEMBER_CMD_APPLY, Reg.ENG_IMG_CMD_GO, Reg.ENG_KV_TSEL_SLOT, Reg.SEC_LSEL_SLOT, Reg.ENG_ASTER_RING_CTL_EN,
   Reg.CTX_JRNL_CTL_EN, Reg.PMC_SMP_RING_CTL_EN, Reg.ENG_ASTER_RING_TAIL, Reg.CTX_JRNL_TAIL, Reg.PMC_SMP_TAIL, Reg.MEM_CARD_CMD_OP,
   Reg.PMC_CTL_FREEZE, Reg.PMC_SNAP_RECORDS_RECORDS, Reg.PMC_SMP_CTL_N].map (fun f => f.off) ++ (List.range 16).map fun k => (Reg.PMC_LAYER_LAYER k).off

def rng (v lo len a b : Nat) : Bool := decide (a ≤ bitsAt v lo len) && decide (bitsAt v lo len ≤ b)

/-- A write of a field to a value outside its stated range is discarded, as the register's rule says. -/
def rangeOk (o v : Nat) : Bool :=
  if o = Reg.CLK_SSC_EN.off then rng v 8 8 0 50 && rng v 16 9 300 330
  else if o = Reg.CLK_RAMP_DWELL.off then rng v 0 8 5 200
  else if o = Reg.CLK_ACLK_CEIL_MIN_CODE.off then rng v 0 3 0 6
  else if o = Reg.PWR_SLEW_DOWN.off then rng v 0 6 1 50 && rng v 8 5 1 20
  else if o = Reg.PWR_THERM_CTL_TJ_TARGET.off then rng v 0 7 85 105
  else if o = Reg.PWR_LEAK_CTL_GRACE.off then rng v 0 10 0 1000
  else if o = Reg.PWR_DROOP_CTL_HOLD_US.off then rng v 0 7 1 100
  else if o = Reg.MEM_SCRUB_CTL_PERIOD_H.off then rng v 0 8 6 168
  else if o = Reg.CTX_POLICY_PREEMPT_EN.off then rng v 8 8 1 255
  else if o = Reg.CTX_RETURN_LIMIT_MS.off then rng v 0 14 1 10000
  else if o = Reg.CTX_ORPHAN_LIMIT_S.off then rng v 0 12 1 3600
  else if o = Reg.CTX_CPL_SIZE_SIZE_LOG2.off then rng v 0 5 6 16
  else if o = Reg.NOC_TIMEOUT_US.off then rng v 0 10 5 1000
  else if o = Reg.FAB_LOAD_BOUND_US.off then rng v 0 10 5 1000
  else if o = Reg.ENG_ASTER_RING_SIZE.off ∨ o = Reg.CTX_JRNL_SIZE.off ∨ o = Reg.PMC_SMP_SIZE.off then rng v 0 15 0 16384
  else if o = Reg.MEM_MANIFEST_LO.off then v % 64 == 0
  else if o = Reg.PMC_SNAP_CTL_SNAP.off then
    (match bitsAt v 1 2 with | 0 => true | 1 => decide (10 ≤ bitsAt v 8 24) | 2 => decide (1 ≤ bitsAt v 8 24) | _ => false)
  else true

/-- A write that a state of the module discards (R163, R222, R240, R248, R273, R349, R387, R488). -/
def heldOff (s : State) (p : Port) (o : Nat) : Bool :=
  let isAt := fun (lo hi : Fld) => o == lo.off || o == hi.off
  (isAt Reg.CTX_LC_BASE_LO Reg.CTX_LC_BASE_HI && getP s p Reg.CTX_RING_CTL_LC_EN == 1) ||
  (isAt Reg.CTX_BE_BASE_LO Reg.CTX_BE_BASE_HI && getP s p Reg.CTX_RING_CTL_BE_EN == 1) ||
  (isAt Reg.CTX_CPL_BASE_LO Reg.CTX_CPL_BASE_HI && getP s p Reg.CTX_RING_CTL_CPL_EN == 1) ||
  (isAt Reg.MEM_MANIFEST_LO Reg.MEM_MANIFEST_HI && getB s Reg.MEM_LOAD_STATUS_BUSY) ||
  (isAt Reg.FAB_MEMBER_ADDR_LO Reg.FAB_MEMBER_ADDR_HI && getB s Reg.FAB_MEMBER_CMD_BUSY) ||
  (isAt Reg.CTX_REPLAY_ADDR_LO Reg.CTX_REPLAY_ADDR_HI && getB s Reg.CTX_REPLAY_CMD_BUSY) ||
  (isAt Reg.CTX_CAPTURE_STEP_LO Reg.CTX_CAPTURE_STEP_HI && getB s Reg.CTX_CAPTURE_CTL_ARMED) ||
  (isAt Reg.ENG_IMG_ADDR_LO Reg.ENG_IMG_ADDR_HI && getB s Reg.ENG_IMG_STATUS_BUSY) ||
  (isAt Reg.PMC_SNAP_BASE_LO Reg.PMC_SNAP_BASE_HI && getB s Reg.PMC_SNAP_STATUS_BUSY) ||
  [asterRing, journalRing, sampleRing].any fun r => (isAt r.baseLo r.baseHi || o == r.size.off) && getB s r.en

/-- R421, R434: the window as it would stand. -/
def windowAfter (s : State) (p : Port) (o v : Nat) : Nat :=
  let lo := if o = Reg.HOST_BAR2_WIN_LO.off then bitsAt v 30 2 else getP s p Reg.HOST_BAR2_WIN_LO
  let hi := if o = Reg.HOST_BAR2_WIN_HI.off then v else getP s p Reg.HOST_BAR2_WIN_HI
  lo * 2 ^ 30 + hi * 2 ^ 32

def windowOk (s : State) (p : Port) (o v : Nat) : Bool :=
  !(o == Reg.HOST_BAR2_WIN_LO.off || o == Reg.HOST_BAR2_WIN_HI.off) || windowAfter s p o v % 2 ^ (portSt s p).bar2 == 0

/-- R12: a write to one field. -/
def writeField (p : Port) (lck : Bool) (v : Nat) (s : State) (f : Fld) : State :=
  let x := bitsAt v f.lo f.len
  match f.acc with
  | .rw => setP s p f x
  | .rwl => if lck then s else setP s p f x
  | .w1c => setP s p f ((getP s p f) - (getP s p f &&& x))
  | _ => s

/-- R478, R488: chain bits of reserved events, and that of counter 0xFFE, stay clear. -/
def maskChain (o v : Nat) : Nat :=
  if 0xA1000 ≤ o ∧ o < 0xA1200 then
    ((List.range 32).filter fun k => bit v k && eventAssigned (8 * (o - 0xA1000) + k) && 8 * (o - 0xA1000) + k != 0xFFE).map (2 ^ ·) |>.sum
  else v

/-- R430: a HOST_ALERT bit whose condition still holds sets again. -/
def realert (s : State) : State :=
  let again := fun (f : Fld) (c : Bool) (t : State) => if c then alert f t else t
  again Reg.HOST_ALERT_SHUTTER_STUCK (getB s Reg.PWR_STATUS_SHUTTER_STUCK && getB s Reg.HOST_SIDEBAND_SHUTTER)
    (again Reg.HOST_ALERT_TOGGLING (getF s Reg.HOST_SIDEBAND_TOGGLING != 0)
    (again Reg.HOST_ALERT_PERST_STUCK ((getB s Reg.HOST_PORT_A_PERST_STUCK && getB s Reg.HOST_PORT_A_PERST) ||
        (getB s Reg.HOST_PORT_B_PERST_STUCK && getB s Reg.HOST_PORT_B_PERST))
    (again Reg.HOST_ALERT_LEAK (getB s Reg.HOST_SIDEBAND_LEAK)
    (again Reg.HOST_ALERT_THERMAL (getB s Reg.PWR_STATUS_THERM_BRAKE || s.pwr.inletPeak != 0 || !s.pwr.sensorsOut.isEmpty || s.pwr.tripHold)
    (again Reg.HOST_ALERT_CAP_UNMET (getB s Reg.PWR_STATUS_CAP_UNMET)
    (again Reg.HOST_ALERT_FABRIC (getF s Reg.FAB_STATE_STATE == 4)
    (again Reg.HOST_ALERT_FLASH ([0, 1].any fun n => getF s (cardState n) == 4 || getF s (cardState n) == 5)
    (again Reg.HOST_ALERT_SAFE_STATE (s.boot.stage == .safe) s))))))))

/-- What follows from a write of some registers. -/
def afterWrite (o v : Nat) (s : State) : State :=
  if o = Reg.CLK_ACLK_CEIL_MIN_CODE.off then setFloor s
  else if o = Reg.HOST_ALERT_LEAK.off then realert s
  else if o = Reg.PMC_SNAP_CTL_SNAP.off ∧ bit v 0 then startSnap 0 s
  else s

/-- R12, R15, R17: a 32-bit host write to a register that has no row of its own.  A 64-bit write is two of them, the lower
register's first. -/
def writeReg (p : Port) (o v : Nat) (s : State) : State :=
  if ownRow.contains o || !rangeOk o v || heldOff s p o || !windowOk s p o v then s
  else afterWrite o v (((fieldsAt o).filter fun f => f.off == o).foldl (writeField p (getB s (lockOf o)) (maskChain o v)) s)

def execRegisterWrite (p : Port) (off : Nat) (v : BitVec 32) (s : State) : Res :=
  .next (viaPf0 s p fun s => if regAt off then writeReg p off v.toNat s else s)

/-! ### Interrupts and configuration requests (R423, R461) -/

/-- R423: vector 0's holdoff ends. -/
def execIrqHoldoffExpire (p : Port) (s : State) : Res :=
  .next (if holdoff s p then
    let s1 := setHoldoff s p false
    if deferred s p then sendVector p 0 (setDeferred s1 p false) else s1
  else s)

/-- R420, R461: a configuration request; one that sets BAR2's size in the Resizable BAR capability names its log2, from 30
to 38. -/
def execConfigurationRequest (p : Port) (bar2 : Option (Fin 9)) (s : State) : Res :=
  .next (if !clocked s || getB s (perstFld p) || !(portSt s p).link then s
    else if s.ready || s.boot.stage == .safe then
      let s1 := emit s (.cfg p)
      match bar2 with
      | some n => if s.boot.stage = .safe then s1 else setPortSt p { portSt s1 p with bar2 := 30 + n.val } s1
      | none => s1
    else emit s (.crs p))

/-! ### Host reads that fail (R223, R249, R417) -/

/-- A read of the module through a port ends as failed: 0 of the weight load, 1 of the image fetch, 2 any other, which its
issuer repeats. -/
def hostReadFails (p : Port) (what : Fin 3) (status : Nat) (s : State) : State :=
  if what.val = 0 then
    match s.wts.load with
    | some r => if r.port = p then loadFails status s else s
    | none => s
  else if what.val = 1 then
    match s.wts.imgRun with
    | some r => if r.port = p ∧ getF s Reg.ENG_IMG_STATUS_PHASE = 1 then imageEnds 0x23 0 0 0 s else s
    | none => s
  else s

/-- R417: no completion within 10 ms. -/
def execHostReadTimeout (p : Port) (what : Fin 3) (s : State) : Res := .next (hostReadFails p what 0x31 s)
/-- R223: the completion reports an error. -/
def execHostReadRefused (p : Port) (what : Fin 3) (s : State) : Res := .next (hostReadFails p what 0x23 s)

/-! ### IDE (R424, R425) -/

/-- R424: IDE_KM over a secured session sets a stream's keys: the stream is Secure. -/
def execIdeKm (p : Port) (s : State) : Res :=
  .next (if portUp s p && !s.sec.sessions.isEmpty && mgmtAlive s then setF s (ideFld p) 1 else s)

def ideRequired (s : State) (lease : Nat) : Bool := match leaseEnt s lease with | some l => l.ide | none => false

/-- R425: a stream fails an integrity check. -/
def execIdeIntegrityFail (p : Port) (s : State) : Res :=
  .next (if getF s (ideFld p) = 1 then
    let s1 := setF s (ideFld p) 2
    if s1.ctxs.any (fun c => c.2.port == p && ideRequired s1 c.2.desc.lease) then portDown p s1 else s1
  else s)

end Sys2Proof.Machine
end

