-- ==== Sys2Proof/Machine/Mesh.lean ====
section
/-!
DEFINITION. Machine/Mesh.lean: mesh and Hinge links, failed links and routers, shuttering, detours and mesh timeouts
(R274 to R295).
-/
namespace Sys2Proof.Machine

def linkSt (s : State) (x port : Nat) : LinkSt := smGet {} s.mesh.links (linkKey x port)
def setLink (x port : Nat) (l : LinkSt) (s : State) : State :=
  { s with mesh.links := smSet {} s.mesh.links (linkKey x port) l }

/-- The ports of a router that carry links. -/
def linkPorts (x : Nat) : List Nat := [1, 2, 3, 4].filter fun p => (linkFar x p).isSome

/-- R296: NOC_LAST_FAULT. -/
def nocFault (router port cause : Nat) (s : State) : State :=
  irqBoth 3 (setF (setF (setF s Reg.NOC_LAST_FAULT_ROUTER router) Reg.NOC_LAST_FAULT_PORT port) Reg.NOC_LAST_FAULT_CAUSE cause)

/-! ### Groups (R295, R364) -/

/-- R364: groups that map a unit become BROKEN, and every portion in flight ends unrecovered, as a step that is given up
(R295, R244). -/
def breakGroups (f : ImgGroup → Bool) (s : State) : State :=
  match s.img with
  | none => s
  | some i =>
    let gs := (i.groups.filter f).map fun g => g.idx
    if gs.isEmpty then s
    else
      let s1 := gs.foldl (fun t g => setF t (Reg.ENG_IMG_GROUPS_GROUP g) 3) s
      let lost := fun (p : Portion) => { p with fabStatus := max p.fabStatus 0x31 }
      { s1 with portion := s1.portion.map lost, suspended := s1.suspended.map lost }

/-- R289, R295: a core is lost at run time. -/
def loseCore (c cause : Nat) (s : State) : State :=
  let s1 := breakGroups (fun g => g.cores.contains c) (shutterCore c cause s)
  if isMappedCore s c then addPoison (.mesh c) s1 else s1

/-! ### Routers out of service (R289, R292) -/

def countBits (n : Nat) (w : Nat) : Nat := ((List.range n).filter fun k => bit w k).length

/-- R289: the commons of a half is out of service. -/
def loseCommons (h : Nat) (s : State) : State :=
  if s.boot.commonsOut.contains h then s else { s with boot.commonsOut := s.boot.commonsOut ++ [h] }

/-- R299, R433: fabric port `p` is shuttered by the module. -/
def shutFabPort (p : Nat) (s : State) : State :=
  configChange (fun t => setBit t Reg.ID_RESOURCES_FAB_PORTS p false) (setF s (Reg.FAB_PORT_LINK p) 5)

/-- A host port leaves service. -/
def shutHostPort (p : Port) (s : State) : State :=
  let n := portNum p
  if s.boot.portsShut.contains n then s
  else configChange (fun t => setBit t Reg.ID_RESOURCES_HOST_PORTS n false) { s with boot.portsShut := s.boot.portsShut ++ [n] }

/-- The fabric port attached at a router (R24). -/
def routerFabPort (x : Nat) : Option Nat :=
  if routerRow x ≠ 0 then none
  else match routerCol x with
    | 1 => some (4 * routerHalf x) | 4 => some (4 * routerHalf x + 1)
    | 8 => some (4 * routerHalf x + 2) | 11 => some (4 * routerHalf x + 3) | _ => none

/-- R289: the attachment of an edge router is out of service (R24).  A flash channel pair and the management controller
are lost with their routers; the spec states no further effect of that.  A lost Transom or security block is a cause of
the safe state (`routerCauses`). -/
def loseAttachment (x : Nat) (s : State) : State :=
  if x = routerId 0 0 3 then shutHostPort .a s
  else if x = routerId 1 12 3 then shutHostPort .b s
  else match routerFabPort x with
    | some p => shutFabPort p s
    | none => s

/-- R289: the Hinge link of a row that a router ends at. -/
def routerHinge (x : Nat) : Option Nat :=
  if (x < 104 && routerCol x == 12) || (104 ≤ x && routerCol x == 0) then some (routerRow x) else none

def hingeDown (row : Nat) (s : State) : State := setBit s Reg.NOC_HINGE_LINK_UP row false

/-- R292: two shuttered routers of a half lie within one stop of each other. -/
def clustered (s : State) (x : Nat) : Bool :=
  (List.range 104).any fun k =>
    let y := 104 * routerHalf x + k
    y != x && routerShut s y && decide (absDiff (routerCol x) (routerCol y) ≤ 1) && decide (absDiff (routerRow x) (routerRow y) ≤ 1)

/-- R289: a router is shuttered and removed from the mesh. -/
def routerOut (x : Nat) (s : State) : State :=
  if routerShut s x then s
  else
    let s1 := ledgerFence 1 x 1 (nocFault x 0 2 (setBit s (Reg.NOC_ROUTER_SHUT (x / 32)) (x % 32) true))
    let s2 := match routerCore x with
      | some c => loseCore c 1 s1
      | none => breakGroups (fun g => g.half == routerHalf x) (loseCommons (routerHalf x) s1)
    let s3 := match routerHinge x with | some r => hingeDown r s2 | none => s2
    loseAttachment x (distRewrite s3)

/-- R289, R292, R462: causes of the safe state that a shuttered router brings, with their detail, lowest code first. -/
def routerCauses (s : State) (x : Nat) : List (Nat × List Nat) :=
  (if x = routerId 0 0 2 then [(3, [])] else []) ++ (if x = routerId 0 0 4 then [(4, [])] else []) ++
  (if s.boot.portsShut.length = 2 then [(5, [])] else []) ++ (if clustered s x then [(7, leBytes 2 x)] else [])

/-- R464: the lowest of several causes is reported. -/
def safeOf (l : List (Nat × List Nat)) (s : State) : State :=
  match sortBy (fun a b => decide (a.1 < b.1)) l with
  | [] => s
  | c :: _ => enterSafe c.1 0 c.2 s

/-- R289: a router fails. -/
def routerFails (x : Nat) (s : State) : State :=
  if routerShut s x then s
  else
    let s1 := routerOut x s
    safeOf (routerCauses s1 x) (if clustered s1 x then nocFault x 0 4 s1 else s1)

/-! ### Link errors (R282, R283) -/

/-- R283: a link fails; a router whose links have all failed fails (R289). -/
def linkFails (x port : Nat) (s : State) : State :=
  match linkFar x port with
  | none => s
  | some (y, _) =>
    let l := linkSt s x port
    if l.failed then s
    else
      let s1 := nocFault x port 1 (bump (setLink x port { l with failed := true } s) Reg.NOC_LINK_FAIL 1)
      let s2 := if x / 104 = y / 104 then s1 else hingeDown (routerRow x) s1
      let dead := fun (t : State) (z : Nat) => (linkPorts z).all fun p => (linkSt t z p).failed
      let s3 := if dead s2 x then routerFails x s2 else s2
      if dead s3 y then routerFails y s3 else s3

/-- R282: a receiver refuses a flit and asks for a replay over the reverse link's sideband. -/
def execFlitCrcFail (router : Fin 208) (port : Fin 6) (sameFlit : Bool) (s : State) : Res :=
  .next (if !stageAlive s || (linkFar router port).isNone || (linkSt s router port).failed then s
    else
      let l := linkSt s router port
      let n := if sameFlit then l.refused + 1 else 1
      let s1 := emit (setLink router port { l with refused := n } s) (.replay router port)
      if 16 ≤ n then linkFails router port s1 else s1)

/-- R282, R283: a sender receives a request for replay and resends; more than 1,000 replays of the link within 1 ms fail
it. -/
def execFlitReplayRequest (router : Fin 208) (port : Fin 6) (t : Nat) (s : State) : Res :=
  .next (if !stageAlive s || (linkFar router port).isNone || (linkSt s router port).failed then s
    else
      let l := linkSt s router port
      let ts := t :: l.times.filter fun x => decide (t < x + 1000000)
      let s1 := bump (setLink router port { l with times := ts } (atTime t s)) Reg.NOC_LINK_REPLAY 1
      if 1000 < ts.length then linkFails router port s1 else s1)

/-! ### Mesh timeouts (R293) -/

/-- R293: a request whose reply has not come in time: a read is delivered as a marked granule, anything else is a local
poison source. -/
def execMeshTimeout (core : Fin 192) (read : Option Nat) (s : State) : Res :=
  .next (if !stageAlive s then s
    else
      let s1 := addPoison (.mesh core) (nocFault (coreRouter core) 0 3 (bump s Reg.NOC_TIMEOUTS 1))
      match read with
      | some dst => setMark s1 (sramAddr core dst / 64) true
      | none => s1)

/-! ### Detours (R290, R291, R294) -/

/-- The routers and links that detours must go round. -/
def obstacles (s : State) : List Nat × List Nat :=
  ((List.range 208).filter (routerShut s), (s.mesh.links.filter fun p => p.2.failed).map fun p => p.1)

/-- R294: control firmware starts a route change: every router named stops injecting toward the affected targets and
sends its markers. -/
def execRouteChangeStart (routers : List (Fin 208)) (s : State) : Res :=
  .next (if s.mesh.route.isEmpty && !routers.isEmpty && stageAlive s then
    let rs := (routers.map fun r => r.val).dedup
    rs.foldl (fun t r => emit t (.marker r))
      { s with mesh.route := rs.map (fun r => (r, 4)), mesh.routeTo := obstacles s }
  else s)

/-- R294: a route-change marker of the router passes along a channel of the route and is acknowledged to it. -/
def execRouteChangeMarker (router : Fin 208) (s : State) : Res :=
  .next { s with mesh.route := s.mesh.route.map fun p => if p.1 = router.val then (p.1, p.2 - 1) else p }

/-- R294: all of a router's markers are acknowledged and it resumes on the new route; with the last router the change is
complete. -/
def execRouteChangeAck (router : Fin 208) (s : State) : Res :=
  .next (if (s.mesh.route.any fun p => p.1 == router.val && p.2 == 0) then
    let rest := s.mesh.route.filter fun p => p.1 != router.val
    if rest.isEmpty then
      distRewrite (setF { s with mesh.route := [], mesh.detoured := s.mesh.routeTo, mesh.routeTo := ([], []) } Reg.NOC_DETOUR_SEQ
        (getF s Reg.NOC_DETOUR_SEQ + 1))
    else { s with mesh.route := rest }
  else s)

end Sys2Proof.Machine
end

