-- ==== Sys2Proof/Machine/Boot.lean ====
section
/-!
DEFINITION. Machine/Boot.lean: the power-up sequence from code verification to the ready functions, self-test, the fault
report, the extended self-test, and the ledger's periodic records (R440, R456, R460 to R465, R469, R472).
-/
namespace Sys2Proof.Machine

/-! ### Ending leases (R450, R452) -/

/-- R452: an erase report is written or rewritten. -/
def addReport (r : EraseReport) (s : State) : State :=
  putKs s { s.sec.ks with reports := r :: s.sec.ks.reports.filter fun x => x.lease != r.lease }

/-- R450 steps 4 to 6: crypto-erase, the erase report, the ledger record; the slot becomes FREE.  `pages`, `frames` and
`extents` are what the lease held; the background zeroisation is still to come when `bg`. -/
def freeLease (n step pages frames extents : Nat) (bg : Bool) (s : State) : State :=
  match s.sec.ks.leases[n]? with
  | none => s
  | some l =>
    let s1 := ledgerLease l.lease 2 step s
    let s2 := addReport ⟨l.lease, step, s1.ledgerSeq - 1, pages, frames, extents, true, true, !bg⟩ s1
    let k := s2.sec.ks
    let s3 := putKs s2 { k with leases := k.leases.set n {}, erasing := if bg then k.erasing ++ [l.lease] else k.erasing }
    let clear := fun (f : Fld) (t : State) => setBit t f n false
    clear Reg.SEC_PORT_BIND_PORT_A (clear Reg.SEC_PORT_BIND_PORT_B s3)

/-- R456: after a reset, crypto-erase and the report of a lease caught in ENDING complete.  What it held is gone with
the reset, so the counts read zero. -/
def finishEnding (s : State) : State :=
  (List.range 16).foldl (fun t n =>
    match t.sec.ks.leases[n]? with
    | some l => if l.st = 3 then freeLease n (l.endStep.getD 0) 0 0 0 false t else t
    | none => t) s

/-! ### Code verification (R440) -/

/-- R440, R460: the boot ROM and the security firmware have verified the code.  `bad` names the first component with no
verifying copy: 0 control, 1 management controller, 2 power manager. -/
def execBootVerifyDone (okSec : Bool) (bad : Option (Fin 3)) (versions : List Nat) (measures : List (List Nat)) (s : State) : Res :=
  .next (if s.boot.stage ≠ .locked then s
    else if !okSec then enterSafe 1 0 [] s
    else match bad with
      | some k => enterSafe 2 (k.val + 1) [] (putKs s { s.sec.ks with versions := versions.take 4, measures := measures.take 1 ++ [[], [], []] })
      | none =>
        let s1 := putKs s { s.sec.ks with versions := versions.take 4, measures := measures.take 4 }
        finishEnding { s1 with boot.stage := .verified })

/-! ### Self-test (R462, R463) -/

/-- R463: the grade: 0 A, 1 B, 2 C, 3 D. -/
def gradeOf (s : State) : Nat :=
  let c := (liveCores s).length
  let v := (liveVaults s).length
  if c = 192 ∧ v = 32 then 0 else if 184 ≤ c ∧ 30 ≤ v then 1 else if 168 ≤ c ∧ 28 ≤ v then 2 else 3

def bitsOf (l : List Nat) : Nat := l.dedup.foldl (fun a k => a + 2 ^ k) 0

/-- R465: what the self-test puts into the fault report. -/
def reportOf (r : SelfTest) (s : State) : FaultReport :=
  { s.boot.report with
    grade := gradeOf s, coreFail := bitsOf (r.cores.map fun c => c.val), vaultFail := bitsOf (r.vaults.map fun v => v.val),
    portFail := bitsOf (r.hostPorts.map fun p => p.val) + 4 * bitsOf (r.cards.map fun c => c.1),
    fabFail := bitsOf ((List.range 8).filter fun p => getF s (Reg.FAB_PORT_LINK p) == 5),
    engineFail := bitsOf (r.engines.map fun e => e.val), commonsFail := bitsOf s.boot.commonsOut }

/-- R465: the 64 bytes of the fault report. -/
def reportBytes (s : State) : List Nat :=
  let r := s.boot.report
  [r.cause, r.unit, r.status, r.grade] ++ leBytes 4 s.sec.ks.boots ++ leBytes 24 r.coreFail ++ leBytes 4 r.vaultFail ++
  [r.portFail, r.fabFail] ++ leBytes 2 r.engineFail ++ [r.commonsFail] ++ List.replicate 7 0 ++
  (r.detail ++ List.replicate 16 0).take 16

/-- R472: a SELFTEST record. -/
def ledgerSelfTest (s : State) : State := ledgerAdd 0x08 [(512, leNat (reportBytes s))] s

/-- R203: a card as self-test finds it: absent, worn, failed, or ACTIVE; a latched VFLASH switch keeps it FAILED
(R408). -/
def testCard (r : SelfTest) (info : List (Nat × Nat × Nat)) (n : Nat) (s : State) : State :=
  let i := info.getD n (0, 0, 0)
  let st := if s.vflashLatched.getD n false then 5 else (alGet r.cards n).getD 2
  let s1 := if st = 0 then { s with cardSeated := s.cardSeated.set n false }
    else { s with cardSeated := s.cardSeated.set n true, cardSerial := s.cardSerial.set n i.1 }
  setCard n st (setF (setF s1 (cardWear n) i.2.1) (cardSpare n) i.2.2)

/-- R462: the outcome of every unit that failed. -/
def failUnits (r : SelfTest) (s : State) : State :=
  let s1 := r.routers.foldl (fun t x => routerOut x t) s
  let s2 := r.hingeLinks.foldl (fun t k =>
    hingeDown k (setLink (routerId 0 12 k) 2 { linkSt t (routerId 0 12 k) 2 with failed := true } t)) s1
  let s3 := r.cores.foldl (fun t c => loseCore c 2 t) s2
  let s4 := (r.commons.map (fun (h : Fin 2) => h.val) ++ r.engines.map (fun (e : Fin 14) => e.val / 7)).foldl (fun t h => loseCommons h t) s3
  let s5 := r.vaults.foldl (fun t v => retireVault v t) s4
  let s6 := r.fabPorts.foldl (fun t p => shutFabPort p t) s5
  r.hostPorts.foldl (fun t p => shutHostPort (if p.val = 0 then .a else .b) t) s6

/-- R462, R463, R454: the causes of the safe state after a self-test. -/
def testCauses (r : SelfTest) (s : State) : List (Nat × List Nat) :=
  (r.routers.flatMap fun x => routerCauses s x) ++
  (if r.transom then [(3, [])] else []) ++ (if r.security then [(4, [])] else []) ++ (if r.pll then [(6, [])] else []) ++
  (if s.boot.portsShut.length = 2 then [(5, [])] else []) ++
  (if (liveCores s).isEmpty || (liveVaults s).isEmpty || s.boot.commonsOut.length == 2 then [(8, [])] else []) ++
  (if 16 ≤ s.sec.ks.glitchAck then [(0x0B, [s.sec.ks.glitchDet])] else [])

/-- R463: ready, or ready and degraded. -/
def readyState (s : State) : Nat :=
  if gradeOf s = 0 && getF s Reg.ID_RESOURCES_FLASH_CARDS == 3 && getF s Reg.ID_RESOURCES_HOST_PORTS == 3 &&
    getF s Reg.ID_RESOURCES_FAB_PORTS == 255 && s.boot.commonsOut.isEmpty && getF s Reg.NOC_HINGE_LINK_UP == 255 then 1 else 2

/-- R463: the units on the fence list stay fenced, without a new test. -/
def applyFenceList (s : State) : State :=
  let k := s.sec.ks
  let s1 := k.fenceCores.foldl (fun t c => setBit t (Reg.ID_FENCED_CORES (c / 32)) (c % 32) true) s
  k.fenceVaults.foldl (fun t v => setF (setBit t Reg.ID_RETIRED_VAULTS v true) (vaultState v) 2) s1

/-- R462, R463: self-test is complete: failing units go, the module rates itself and reports. -/
def execSelftestDone (r : SelfTest) (info : List (Nat × Nat × Nat)) (s : State) : Res :=
  .next (if s.boot.stage ≠ .verified then s
    else
      let s1 := setF (setF (setF (applyFenceList s) Reg.NOC_HINGE_LINK_UP 255) Reg.ID_RESOURCES_FAB_PORTS 255) Reg.ID_RESOURCES_HOST_PORTS 3
      let s2 := testCard r info 1 (testCard r info 0 (failUnits r s1))
      let s3 := rate s2
      let s4 := ledgerSelfTest { s3 with boot.report := reportOf r s3 }
      match testCauses r s4 with
      | [] => setIdState (readyState s4) { s4 with boot.stage := .tested }
      | cs => safeOf cs { s4 with boot.stage := .tested })

/-! ### The functions become ready (R460, R326, R469) -/

/-- R326: each trained port sends a DISCOVER frame. -/
def sendDiscover (s : State) : State :=
  (List.range 8).foldl (fun t p => if getF t (Reg.FAB_PORT_LINK p) = 2 then
    emit t (.discover p (getF t Reg.ID_SERIAL) (getF t Reg.ID_MODULE_TPOS)) else t) s

/-- R460: step 5: control firmware has placed its tables, the PCI Express functions are ready, and fabric discovery
starts.  An armed extended self-test begins (R469). -/
def execFunctionsReady (dist acct win report : Nat) (s : State) : Res :=
  .next (if s.boot.stage ≠ .tested then s
    else
      let s1 := setF (setF (setF (setF s Reg.MEM_DIST_BASE dist) Reg.CTX_ACCT_BASE acct) Reg.FAB_WINDOW_BASE win) Reg.FAB_REPORT_BASE report
      let s2 := sendDiscover (setF { writeDist s1 with boot.stage := .ready, ready := true } Reg.FAB_STATE_STATE 1)
      if s2.sec.ks.armed then
        setIdState 4 { putKs s2 { s2.sec.ks with armed := false } with boot.extended := true }
      else s2)

/-- R469: the units of the fence list that passed return to service. -/
def restoreUnits (r : SelfTest) (s : State) : State :=
  let k := s.sec.ks
  let cs := k.fenceCores.filter fun c => !(r.cores.map fun x => x.val).contains c && !routerShut s (coreRouter c)
  let vs := k.fenceVaults.filter fun v => !(r.vaults.map fun x => x.val).contains v
  let s1 := cs.foldl (fun t c => ledgerFence 2 c 0 (setBit t (Reg.ID_FENCED_CORES (c / 32)) (c % 32) false)) s
  let s2 := vs.foldl (fun t v => ledgerVault 2 v (setF (setBit t Reg.ID_RETIRED_VAULTS v false) (vaultState v) 0)) s1
  putKs s2 { s2.sec.ks with fenceCores := k.fenceCores.filter (fun c => !cs.contains c),
                            fenceVaults := k.fenceVaults.filter (fun v => !vs.contains v) }

/-- R469: the extended self-test ends: passing units are restored, failing ones go, and the module is rated again. -/
def execExtendedSelftestDone (r : SelfTest) (info : List (Nat × Nat × Nat)) (s : State) : Res :=
  .next (if !s.boot.extended then s
    else
      let again := fun (t : State) =>
        let t1 := testCard r info 1 (testCard r info 0 (failUnits r (restoreUnits r { t with ready := false, boot.extended := false })))
        let t2 := rate t1
        let t3 := ledgerSelfTest { t2 with boot.report := reportOf r t2 }
        { setF t3 Reg.ID_STATE_STATE (readyState t3) with ready := true }
      let s1 := distRewrite (configChange again s)
      safeOf (testCauses r s1) s1)

/-! ### Periodic records (R472) -/

def meanOf (p : Nat × Nat) : Nat := if p.2 = 0 then 0 else p.1 / p.2

/-- R472: a POWER record each powered hour: the energy of the hour, the mean cap and the mean inlet temperature. -/
def execLedgerPowerRecord (t : Nat) (s : State) : Res :=
  .next (if stageAlive s || s.boot.stage == .safe then
    let s1 := atTime t s
    let e := getF s1 Reg.PWR_ENERGY
    { ledgerAdd 0x01 [(64, e - s1.pwr.energyLogged), (16, meanOf s1.pwr.capSum), (16, meanOf s1.pwr.inletSum)] s1 with
      pwr.capSum := (0, 0), pwr.inletSum := (0, 0), pwr.energyLogged := e }
  else s)

/-- R472: an INTEGRITY record each day. -/
def execLedgerIntegrityRecord (t : Nat) (s : State) : Res :=
  .next (if stageAlive s || s.boot.stage == .safe then integrityRecord (atTime t s) else s)

end Sys2Proof.Machine
end

