-- ==== Sys2Proof/Machine/Results.lean ====
section
/-!
DEFINITION. Machine/Results.lean: what the entry module writes for a step and keeps of it: completion records, result
rings, the step journal, client records (R257, R265 to R272, R342), and what every module does when a step is discarded
(R189, R244, R324).
-/
namespace Sys2Proof.Machine

/-! ### The completion ring (R267, R269, R273) -/

def cplSize (s : State) (p : Port) : Nat := 2 ^ getP s p Reg.CTX_CPL_SIZE_SIZE_LOG2
def cplHead (s : State) (p : Port) : Nat := getP s p Reg.CTX_CPL_HEAD_INDEX
def cplBase (s : State) (p : Port) : Nat := getP s p Reg.CTX_CPL_BASE_LO * 2 ^ 12 + getP s p Reg.CTX_CPL_BASE_HI * 2 ^ 32

/-- R267: records written and not yet consumed: HEAD - TAIL modulo twice the ring's size. -/
def cplUsed (s : State) (p : Port) : Nat :=
  (cplHead s p + 2 * cplSize s p - getP s p Reg.CTX_CPL_TAIL_INDEX) % (2 * cplSize s p)

/-- R269: the ring takes a record now. -/
def cplOpen (s : State) (p : Port) : Bool :=
  getP s p Reg.CTX_RING_CTL_CPL_EN == 1 && portUp s p && decide (cplUsed s p < cplSize s p)

/-- R257: records reserved for contexts of a port. -/
def cplReserved (s : State) (p : Port) : Nat := ((s.ctxs.filter fun c => c.2.port == p).map fun c => c.2.reserved).sum

/-- R257, R269: the ring has room for `need` records more. -/
def cplRoom (s : State) (p : Port) (need : Nat) : Bool :=
  getP s p Reg.CTX_RING_CTL_CPL_EN == 1 && portUp s p &&
  decide (cplUsed s p + (s.cplHeld.filter fun r => r.port == p).length + cplReserved s p + need ≤ cplSize s p)

/-- R245, R246: the context is FREE; a small model that it alone named goes with it (R239). -/
def freeCtx (o : Option Nat) (s : State) : State :=
  match o with
  | some id => retireSmalls (countCtxs { s with ctxs := smErase s.ctxs id })
  | none => s

def giveBack (o : Option Nat) (s : State) : State :=
  match o with
  | some id => modCtx s id fun c => { c with reserved := c.reserved - 1 }
  | none => s

/-- R267: write one record with its PHASE; HEAD advances and cause CPL arises. -/
def cplWrite (r : CplRec) (s : State) : State :=
  let h := cplHead s r.port
  let n := cplSize s r.port
  let s1 := emit s (.hostWrite r.port (cplBase s r.port + 64 * (h % n)) (r.bytes.set 1 (b2n (h / n % 2 == 0))))
  irq r.port 0 (freeCtx r.final (giveBack r.res (setP s1 r.port Reg.CTX_CPL_HEAD_INDEX ((h + 1) % (2 * n)))))

/-- R269: a record falls due: it is written, or held behind those held already; with the port down it is discarded. -/
def cplPut (r : CplRec) (s : State) : State :=
  if !portUp s r.port then freeCtx r.final (giveBack r.res s)
  else if cplOpen s r.port && !(s.cplHeld.any fun x => x.port == r.port) then cplWrite r s
  else { s with cplHeld := s.cplHeld ++ [r] }

/-- R269: write held records of a port, oldest first, while there is room. -/
def cplFlush (p : Port) : Nat → State → State
  | 0, s => s
  | n + 1, s =>
    match s.cplHeld.find? fun r => r.port == p with
    | none => s
    | some r => if cplOpen s p then cplFlush p n (cplWrite r { s with cplHeld := s.cplHeld.erase r }) else s

/-- The fields of a completion record (R267). -/
structure RecF where
  kind : Nat
  status : Nat := 0
  resource : Nat := 0
  ctx : Nat := 0
  vary : Bool := false
  matchedAny : Bool := false
  reason : Nat := 0
  accepted : Nat := 0
  tag : Nat := 0
  index : Nat := 0
  step : Nat := 0
  matched : Nat := 0
  committed : Nat := 0
  handle : Nat := 0
  produced : Nat := 0
  preempt : Nat := 0
  wait : Nat := 0
  ref : Nat := 0

/-- R267: the 64 bytes of a record, PHASE clear. -/
def recBytes (r : RecF) : List Nat :=
  [r.kind, 0, r.status, r.resource] ++ leBytes 2 r.ctx ++ [b2n r.vary + 2 * b2n r.matchedAny + 4 * r.reason, r.accepted] ++
  leBytes 4 r.tag ++ leBytes 4 r.index ++ leBytes 8 r.step ++ leBytes 4 r.matched ++ leBytes 4 r.committed ++
  leBytes 8 r.handle ++ leBytes 4 r.produced ++ leBytes 4 r.preempt ++ leBytes 8 r.wait ++ leBytes 8 r.ref

/-- R267: the FINAL record of a context; `step` carried the release. -/
def finalRecord (id step : Nat) (c : Ctx) : CplRec :=
  let r : RecF :=
    { kind := 2, status := c.endStatus, ctx := id, vary := c.varyAny, matchedAny := decide (0 < c.matched), reason := c.endReason,
      step := step, matched := c.matched, produced := c.emitted, preempt := c.preemptAny, wait := c.waitTotal, ref := c.matchRef }
  ⟨c.port, recBytes r, some id, none⟩

/-! ### The stream ring and the output buffer (R265, R266) -/

/-- R257, R265: the stream ring has room for nine entries by its CONS word; a read that fails counts as no room. -/
def streamRoom (h : HostMem) (c : Ctx) : Bool :=
  c.desc.stopMode ||
  (match hostRead h c.port c.desc.resultAddr 4 with
   | some bs => decide ((c.prod + 2 ^ 32 - leNat bs) % 2 ^ 32 + 9 ≤ c.desc.resultEntries)
   | none => false)

/-- R265: bytes [15:8] of a stream entry, PHASE clear. -/
def streamTail (id status step : Nat) (last vary draft : Bool) (reason : Nat) : Nat :=
  status % 256 + 2 ^ 8 * (2 * b2n last + 4 * b2n vary + 8 * b2n draft + 16 * reason) + 2 ^ 16 * id + 2 ^ 32 * (step % 2 ^ 32)

/-- R265, R266: write the `k`-th emitted token of a context, or keep it while its port is lost (R271). -/
def putToken (id k tok pos tail : Nat) (s : State) : State :=
  match alGet s.ctxs id with
  | none => s
  | some c =>
    if !portUp s c.port then setCtx s id { c with kept := c.kept ++ [(tok, pos, tail)] }
    else if c.desc.stopMode then emit s (.hostWrite c.port (c.desc.resultAddr + 4 * k) (leBytes 4 tok))
    else
      let n := max c.desc.resultEntries 1
      let ph := if c.prod / n % 2 = 0 then 2 ^ 8 else 0
      setCtx (emit s (.hostWrite c.port (c.desc.resultAddr + 64 + 16 * (c.prod % n)) (leBytes 4 tok ++ leBytes 4 pos ++ leBytes 8 (tail + ph))))
        id { c with prod := c.prod + 1 }

/-- R265: PROD follows the entries. -/
def putProd (id : Nat) (s : State) : State :=
  match alGet s.ctxs id with
  | none => s
  | some c => if c.desc.stopMode || !portUp s c.port then s else emit s (.hostWrite c.port (c.desc.resultAddr + 4) (leBytes 4 c.prod))

/-- R265: write the tokens that a step emitted for a context, from position `pos` on; the first `a` of a verify are accepted
drafts. -/
def putTokens (id : Nat) (toks : List Nat) (pos a status step reason : Nat) (vary : Bool) (s : State) : State :=
  match alGet s.ctxs id with
  | none => s
  | some c =>
    if toks.isEmpty then s
    else
      let n := toks.length
      putProd id ((List.zip (List.range n) toks).foldl (fun t x =>
        let last := x.1 + 1 == n && reason != 0
        putToken id (c.emitted + x.1) x.2 (pos + x.1)
          (streamTail id status step last vary (decide (x.1 < a)) (if x.1 + 1 = n then reason else 0)) t) s)

/-! ### The journal (R342) -/

def kindNum : ReqKind → Nat
  | .start => 1 | .cont => 2 | .verify => 3 | .autoDecode => 4 | .release => 5

/-- R261: FLAGS. -/
def flagsOf (r : ReqRec) : Nat := b2n r.sample + 2 * b2n r.commit + 4 * b2n r.archive + 8 * b2n r.vary

/-- R342: a request record. -/
def journalReq (r : ReqRec) (f : FlightReq) (tree : Bool) : List Nat :=
  leBytes 2 r.ctx ++ [kindNum r.kind, flagsOf r, r.prevAccepted.getD 255, 0] ++ leBytes 2 f.lease ++ leBytes 4 r.rows ++ leBytes 4 r.pos0 ++
  leBytes 4 f.matched ++ leBytes 4 r.commitLen ++ leBytes 8 (if f.matched = 0 then 0 else if tree then f.matchStep else f.matchRef)

/-- R342: the bytes of a journal record. -/
def journalBytes (s : State) (f : Flight) (status : Nat) (vary : Bool) : List Nat :=
  let h := f.hdr
  let n := f.reqs.length
  let logical := match s.img with | some i => i.logical | none => []
  leBytes 8 h.step ++ leBytes 4 h.genId ++
  [h.gen % 2 + 2 * h.hold + 8 * b2n h.be + 16 * b2n h.empty + 32 * b2n vary + 64 * b2n f.tainted + 128 * b2n f.replay, status] ++
  leBytes 2 n ++ leBytes 4 h.rows ++ leBytes 4 (64 * ((64 + 32 * n + 63) / 64)) ++
  (logical.flatMap (leBytes 4) ++ List.replicate 32 0).take 32 ++ List.replicate 8 0 ++
  (List.zip h.reqs f.reqs).flatMap (fun x => journalReq x.1 x.2 (prefMode s == 1)) ++ (if n % 2 = 1 then List.replicate 32 0 else [])

def journal (f : Flight) (status : Nat) (vary : Bool) (s : State) : State := ringPut journalRing (journalBytes s f status vary) s

/-! ### Client records (R270) -/

def modClient (k lease : Nat) (f : Client → Client) (s : State) : State :=
  let c := (alGet s.clients k).getD { lease := lease }
  { s with clients := alSet s.clients k (f (if c.lease = 0 then { c with lease := lease } else c)) }

/-- R270: the 64 bytes of a client record. -/
def clientBytes (c : Client) : List Nat :=
  leBytes 8 c.admitted ++ leBytes 8 c.steps ++ leBytes 8 c.tokens ++ leBytes 8 c.waitNs ++ leBytes 8 c.waitMax ++
  leBytes 8 c.preemptions ++ leBytes 2 c.lease ++ List.replicate 14 0

/-- R270: the records are written once per boundary. -/
def writeClients (s : State) : State :=
  s.clients.foldl (fun t c => putDev t (getF t Reg.CTX_ACCT_BASE + 64 * c.1) (clientBytes c.2)) s

/-- R270: the records of a lease are zeroed. -/
def zeroClients (lease : Nat) (s : State) : State :=
  let s1 := (s.clients.filter fun c => c.2.lease == lease).foldl (fun t c => putDev t (getF t Reg.CTX_ACCT_BASE + 64 * c.1) (List.replicate 64 0)) s
  { s1 with clients := s1.clients.filter fun c => c.2.lease != lease }

/-! ### Contexts after a step (R245, R257, R271) -/

/-- A release is decided: the context is ENDING until the step that carries its release returns. -/
def ending (id status reason : Nat) (s : State) : State :=
  modCtx s id fun c => { c with st := .ending, endStatus := status, endReason := reason, releaseStep := none }

/-- R245, R271, R450: a context out of its step: READY, ORPHANED with a lost port, or ENDING with its lease. -/
def ctxBack (id : Nat) (s : State) : State :=
  match alGet s.ctxs id with
  | none => s
  | some c =>
    if !leaseActive s c.desc.lease then ending id 0 5 s
    else if !portUp s c.port then countCtxs (setCtx s id { c with st := .orphaned, orphanAt := some s.now })
    else setCtx s id { c with st := .ready, waitFrom := some s.now }

/-- R257, R267: what falls due for a request of a step that is over. -/
def dueEntry (f : Flight) (c : Ctx) (id status preemptions reason accepted produced : Nat) (vary commit : Bool) : DueEntry :=
  ⟨id, c.port, status, preemptions, vary, reason, accepted, produced, c.batchTag, c.entryIndex, f.hdr.step, c.entryWait, c.matched,
   c.matchRef, commit⟩

/-- R257: the records still to be written for a context keep their reservations. -/
def reserveFor (entry : Bool) (preemptions : Nat) (final : Bool) : Nat :=
  (if entry then 1 + b2n (decide (0 < preemptions)) else 0) + b2n final

/-! ### A step is discarded (R189, R244, R324) -/

def egressOps (p : Portion) : List Nat := p.egress.filterMap fun e => match e with | .fab n => some n | _ => none

/-- R210, R211: an egress hold is discarded. -/
def dropEgress (p : Portion) (s : State) : State :=
  let ns := egressOps p
  { s with fab.ops := s.fab.ops.filter (fun o => !ns.contains o.num),
           fab.fences := s.fab.fences.map fun (f : Fence) => { f with ops := f.ops.filter fun n => !ns.contains n } }

def ofStep (step : Nat) (p : Option Portion) : Option Portion := p.filter fun x => x.hdr.step == step

/-- The cores stop and forget what they held of the portion. -/
def clearCores (s : State) : State :=
  let s1 := (List.range 192).foldl (fun t c => if (coreGet t c).outst.isEmpty && (coreGet t c).mxq.isEmpty then t else discardCore c t) s
  { s1 with barriers := [], cores := s1.cores.map fun c => (c.1, { c.2 with nextIndex := 0, stall := 7, stop := .run, preempt := false, inFallback := [] }) }

/-- What the cores saved of a suspended portion is forgotten. -/
def dropSaved (s : State) : State :=
  { s with cores := s.cores.map fun c =>
      let st := match c.2.stop with | .preempted _ _ => .run | x => x
      (c.1, { c.2 with stop := st, saved := [], savedAcc := [], savedBad := [], savedAt := none }) }

/-- R347: a capture armed for a step that is discarded. -/
def captureStep (s : State) : Nat := getF s Reg.CTX_CAPTURE_STEP_LO + getF s Reg.CTX_CAPTURE_STEP_HI * 2 ^ 32

def captureEnds (status : Nat) (s : State) : State := setF (setB s Reg.CTX_CAPTURE_CTL_ARMED false) Reg.CTX_CAPTURE_CTL_STATUS status

/-- R189: every module discards the step's holds and appends; tails, commits and rollbacks are as before the step. -/
def discardStep (step : Nat) (s : State) : State :=
  let gone := ((ofStep step s.portion).toList ++ (ofStep step s.suspended).toList ++ s.finals.filter fun p => p.hdr.step == step)
  let s1 := gone.foldl (fun t p => dropEgress p t) s
  let s2a := if (ofStep step s.portion).isSome then clearCores s1 else s1
  let s2 := if (ofStep step s.suspended).isSome || ((ofStep step s.portion).isSome && s.suspended.isNone) then dropSaved s2a else s2a
  let keep := fun (p : Option Portion) => p.filter fun x => x.hdr.step != step
  let s3 := { s2 with portion := keep s2.portion, suspended := keep s2.suspended, finals := s2.finals.filter (fun p => p.hdr.step != step),
                      inbox := s2.inbox.filter (fun h => h.step != step), ctl.dead := listAdd s2.ctl.dead step }
  let s3 := releaseStepHolds step s3
  let s4 := (s3.ctxs.filter fun c => c.2.step == step && c.2.stepRows != 0).foldl (fun t c =>
    let h := c.2.before.getD (c.2.hist, c.2.emitted)
    discardAppends c.1 c.2.stepPos c.2.stepRows
      (setCtx t c.1 { c.2 with tail := c.2.stepPos, stepRows := 0, hist := h.1, emitted := h.2, before := none })) s3
  if getB s4 Reg.CTX_CAPTURE_CTL_ARMED && captureStep s4 == step then captureEnds 0x20 s4 else s4

/-- R244, R245: one request of a step that has been ended. -/
def reqDies (f : Flight) (status : Nat) (r : ReqRec) (s : State) : State :=
  match alGet s.ctxs r.ctx with
  | none => s
  | some c =>
    let pre := f.hdr.preemptions
    let due := if c.entryDue then [dueEntry f c r.ctx status pre 0 0 0 false false] else []
    let s1 := { s with ctl.due := s.ctl.due ++ due }
    let s2 := setCtx s1 r.ctx { c with reserved := reserveFor c.entryDue pre (r.kind == .release), releaseStep := none, entryDue := false,
                                       preemptAny := c.preemptAny + pre, accepted := r.prevAccepted,
                                       commitLen := none, commitDue := false }
    if r.kind == .release then s2 else ctxBack r.ctx s2

/-- R244, R342: a step is ended at the entry module with a status before its return message has come. -/
def stepDies (step status : Nat) (s : State) : State :=
  match s.ctl.flights.find? fun f => f.hdr.step == step with
  | none => s
  | some f =>
    let s1 := discardStep step { s with ctl.flights := s.ctl.flights.filter fun f => f.hdr.step != step }
    journal f status false (f.hdr.reqs.foldl (fun t r => reqDies f status r t) s1)

end Sys2Proof.Machine
end

