-- ==== Sys2Proof/Machine/Fabric.lean ====
section
/-!
DEFINITION. Machine/Fabric.lean: Trelmet's packets, planes and flows, the sending side of its operations and how they
end (R298 to R325), with the resends, bounds and throttle that timers bring.
-/
namespace Sys2Proof.Machine

/-! ### Packets (R304) -/

/-- A packet's header fields and payload. -/
structure Pkt where
  kind : Nat
  vc : Nat := 1
  mcast : Bool := false
  retry : Bool := false
  wide : Bool := false
  source : Nat := 0
  target : Nat := 0
  job : Nat := 0
  status : Nat := 0
  scale : Nat := 0
  epoch : Nat := 0
  seq : Nat := 0
  offset : Nat := 0
  aux : Nat := 0
  payload : List Nat := []
deriving DecidableEq, Repr

def pktFlags (p : Pkt) : Nat := p.vc % 4 + 4 * b2n p.mcast + 8 * b2n p.retry + 16 * b2n p.wide

/-- R304: header and payload. -/
def pktBody (p : Pkt) : List Nat :=
  [p.kind, pktFlags p, p.source, p.target] ++ leBytes 2 p.job ++ [p.status, p.scale] ++ leBytes 4 p.epoch ++ leBytes 4 p.seq ++
  leBytes 5 p.offset ++ leBytes 2 p.payload.length ++ [0] ++ leBytes 8 p.aux ++ p.payload

/-- R304: the trailer. -/
def withCrc (bs : List Nat) : List Nat := bs ++ leBytes 4 (crc32c bs)

def parsePkt (bs : List Nat) : Pkt :=
  let f := bs.getD 1 0
  { kind := bs.getD 0 0, vc := bitsAt f 0 2, mcast := bit f 2, retry := bit f 3, wide := bit f 4, source := bs.getD 2 0 % 128,
    target := bs.getD 3 0 % 128, job := fieldAt bs 4 2 % 4096, status := bs.getD 6 0, scale := bs.getD 7 0,
    epoch := fieldAt bs 8 4, seq := fieldAt bs 12 4, offset := fieldAt bs 16 5, aux := fieldAt bs 24 8,
    payload := (bs.drop 32).take (bs.length - 36) }

/-- R304: the packet is whole and passes the end-to-end check. -/
def pktOk (bs : List Nat) : Bool :=
  bs.length == 36 + bitsAt (fieldAt bs 21 2) 0 10 && leNat (bs.drop (bs.length - 4)) == crc32c (bs.take (bs.length - 4))

/-! ### Planes (R303, R326, R327) -/

def myId (s : State) : Nat := getF s Reg.ID_MODULE_MODULE_ID
def rackOf (id : Nat) : Nat := id / 64

/-- The module carries traffic: STATE reads MEMBER. -/
def carries (s : State) : Bool := stageAlive s && getF s Reg.FAB_STATE_STATE == 2

/-- A port that is up and planned, its discovery ended. -/
def portUsable (s : State) (p : Nat) : Bool :=
  getF s (Reg.FAB_PORT_LINK p) == 2 && s.fab.seen.contains p && getF s (Reg.FAB_PORT_MISPLACED p) == 0

/-- R327: the port that traffic of a plane leaves through: that of its number, or the one it is swapped with. -/
def planePort (s : State) (q : Nat) : Option Nat :=
  (List.range 8).find? fun p => portUsable s p && getF s (Reg.FAB_PORT_PLANE_SEEN p) == q

/-- R326: what a plane last announced: (position, 8 × serial number + TPOS). -/
def announced (s : State) (q : Nat) : List (Nat × Nat) := (alGet s.fab.planes q).getD []

/-- R326: the cabling plan's entry of a position. -/
def planEntry (s : State) (pos : Nat) : Option PlanPos :=
  match s.img with
  | some i => i.plan.find? fun x => x.pos == pos
  | none => none

/-- R303: a plane is live for a target (every plane with an own port, for a multicast group). -/
def planeLive (s : State) (target : Nat) (mcast : Bool) (q : Nat) : Bool :=
  (planePort s q).isSome && (mcast || ((planEntry s target).isSome && (announced s q).any fun x => x.1 == target))

/-- R303: the plane of a packet: the first live one from the base; on FVC3 the packets of a descriptor go round. -/
def planeFor (s : State) (target vc : Nat) (mcast : Bool) (ord : Nat) : Option Nat :=
  let base := (myId s + target + vc) % 8
  let live := ((List.range 8).map fun k => (base + k) % 8).filter (planeLive s target mcast)
  live[ord % live.length]?

/-! ### Membership (R306, R323, R328) -/

def idBit (f : Nat → Fld) (s : State) (id : Nat) : Bool := getBit s (f (id / 32)) (id % 32)
def isMember (s : State) (id : Nat) : Bool := idBit Reg.FAB_MEMBERS s id
def isDead (s : State) (id : Nat) : Bool := idBit Reg.FAB_DEAD s id

/-- R306: the physical ID of a logical module; none where REMAP marks it so. -/
def remapId (s : State) (l : Nat) : Option Nat :=
  if s.fab.remap.isEmpty then some l
  else
    let b := s.fab.remap.getD l 128
    if b < 128 then some b else none

/-- R314: the physical IDs of a multicast group's members; none where one has no physical ID or the image lists no such
group. -/
def groupIds (s : State) (g : Nat) : Option (List Nat) :=
  match s.img with
  | some i => match i.mcast.find? fun x => x.group == g with
    | some x => x.members.mapM (remapId s)
    | none => none
  | none => none

/-! ### Faults -/

/-- R333: FAB_LAST_FAULT; its change is a FAULT cause (R434). -/
def fabFault (target status plane cause : Nat) (s : State) : State :=
  irqBoth 3 (setF (setF (setF (setF s Reg.FAB_LAST_FAULT_TARGET target) Reg.FAB_LAST_FAULT_STATUS status)
    Reg.FAB_LAST_FAULT_PLANE plane) Reg.FAB_LAST_FAULT_CAUSE cause)

/-! ### Operations -/

def typeOf : FabKind → Nat
  | .load => 1 | .store => 2 | .fadd => 3 | .cas => 4 | .min => 5 | .max => 6 | .reduce => 7 | .mstore => 8
  | .bulkWrite => 9 | .bulkRead => 10 | .ctrl => 0x21

def isAtomic : FabKind → Bool
  | .fadd => true | .cas => true | .min => true | .max => true | _ => false

/-- R302: the channel of a request. -/
def chanOf : FabKind → Nat
  | .bulkWrite => 3 | .bulkRead => 3 | .ctrl => 0 | _ => 1

/-- R210: what the egress hold keeps. -/
def isHeld : FabKind → Bool
  | .store => true | .reduce => true | .mstore => true | .bulkWrite => true | _ => false

/-- R318: the flow of an operation, as a key. -/
def flowKey (target vc : Nat) (mcast : Bool) : Nat := (if mcast then 128 + target else target) * 4 + vc
def opFlow (o : FabOp) : Nat := flowKey o.target o.vc o.mcast

/-- R318: take the next SEQ of a flow. -/
def takeSeq (key : Nat) (s : State) : Nat × State :=
  let q := smGet 0 s.fab.tx key
  (q, { s with fab.tx := smSet 0 s.fab.tx key ((q + 1) % 2 ^ 32) })

def putOp (o : FabOp) (s : State) : State := { s with fab.ops := s.fab.ops.map fun x => if x.num == o.num then o else x }

/-- The packet of an operation as it is sent: with its SEQ, the present epoch and RETRY. -/
def opPacket (o : FabOp) (retry : Bool) (epoch : Nat) : List Nat :=
  let f := o.packet.getD 1 0
  withCrc ([o.packet.getD 0 0, setBitsAt f 3 1 (b2n (retry || o.retry))] ++ (o.packet.drop 2).take 6 ++ leBytes 4 epoch ++ leBytes 4 o.seq ++
    o.packet.drop 16)

/-- Put a packet on a plane toward a module, a group's switch or the switch itself. -/
def toPlane (q route vc : Nat) (bs : List Nat) (s : State) : State :=
  match planePort s q with
  | some p => emit s (.packet p route vc bs)
  | none => s

/-- R323: the bound in ns. -/
def boundNs (s : State) : Nat := getF s Reg.FAB_LOAD_BOUND_US * 1000

/-- R321: atomics issued to a target within the last 3 ms. -/
def atomicsTo (s : State) (target : Nat) : List Nat := (smGet [] s.fab.atomTimes target).filter fun x => decide (s.now < x + 3000000)

/-- The first sending of an operation that waits to be sent.  It takes its SEQ here; an atomic that R321 holds back
waits. -/
def sendNew (s : State) (o : FabOp) : State :=
  if !carries s || o.held || o.waiting || o.sent then s
  else if isAtomic o.kind && !o.retry && decide (512 ≤ (atomicsTo s o.target).length) then putOp { o with waiting := true } s
  else match planeFor s o.target o.vc o.mcast o.ord with
    | none => s
    | some q =>
      let r := if o.retry then (o.seq, s) else takeSeq (opFlow o) s
      let o1 := { o with sent := true, seq := r.1, epoch := getF s Reg.FAB_EPOCH, plane := q, last := s.now }
      let s1 := putOp o1 r.2
      let s2 := if isAtomic o.kind && !o.retry then
        { s1 with fab.atomTimes := smSet [] s1.fab.atomTimes o.target (s.now :: atomicsTo s o.target) } else s1
      toPlane q (if o.mcast then 128 + o.target else o.target) o.vc (opPacket o1 false o1.epoch) s2

/-- Send what waits to be sent, in issue order. -/
def fabPump (s : State) : State := s.fab.ops.foldl sendNew s

/-- R319: resend one packet; the members of a group that have not acknowledged receive it by unicast (R314). -/
def resendOp (s : State) (o : FabOp) : State :=
  let o1 := { o with epoch := getF s Reg.FAB_EPOCH, last := s.now }
  let bs := opPacket o1 true o1.epoch
  let one := fun (t : State) (route : Nat) => match planeFor t route o.vc false o.ord with
    | some q => toPlane q route o.vc bs (putOp { o1 with plane := q } (bump t Reg.FAB_RETRY 1))
    | none => t
  (if o.mcast then o.members else [o.target]).foldl one s

/-- R319: resend every unacknowledged packet of a flow, from the oldest. -/
def resendFlow (key : Nat) (s : State) : State :=
  if carries s then (s.fab.ops.filter fun o => o.sent && opFlow o == key).foldl resendOp s else s

/-- The flows with an unacknowledged packet. -/
def openFlows (s : State) : List Nat := ((s.fab.ops.filter fun o => o.sent).map opFlow).dedup

/-- R319, R303: flows whose oldest packet's plane has gone down are resent, and what had no plane is sent. -/
def replan (s : State) : State :=
  fabPump ((openFlows s).foldl (fun t k =>
    match t.fab.ops.find? fun o => o.sent && opFlow o == k with
    | some o => if planeLive t o.target o.mcast o.plane then t else resendFlow k t
    | none => t) s)

/-! ### How an operation ends (R312, R319, R323, R324) -/

/-- R37, R323: the error value over the destination's granules. -/
def errorValue (dst size : Nat) (s : State) : State :=
  let n := (size + 63) / 64 * 64
  setMarks (putBytes s dst (List.replicate n 0xFF)) (granulesOf dst n) true

/-- R312: the result record of an atomic. -/
def atomRecord (old status target seq epoch : Nat) : List Nat :=
  leBytes 8 old ++ [status, target, 0, 0] ++ leBytes 4 seq ++ leBytes 4 epoch ++ List.replicate 44 0

/-- A destination in host memory, as a number beside the module's own addresses. -/
def hostDst (p : Port) (a : Nat) : Nat := 2 ^ 70 + portNum p * 2 ^ 64 + a

/-- Data that a load or a bulk read brought. -/
def putData (dst : Nat) (data : List Nat) (bad : Bool) (s : State) : State :=
  if 2 ^ 70 ≤ dst then
    let p : Port := if bit dst 64 then .b else .a
    if portUp s p then emit s (.hostWrite p (dst % 2 ^ 64) data) else s
  else
  let s1 := storeLocal s dst data
  if bad then setMarks s1 (granulesOf dst data.length) true else s1

/-- Where the result of an operation goes; nowhere once its core has discarded it. -/
def opResult (o : FabOp) (st old : Nat) (data : List Nat) (s : State) : State :=
  if o.size = 0 then s
  else match o.kind with
    | .load => if st = 0 ∨ st = 0x31 then putData o.dst (data.take o.size) (st == 0x31) s else errorValue o.dst o.size s
    | .bulkRead => if st = 0 ∨ st = 0x31 then putData o.dst (data.take o.size) (st == 0x31) s else s
    | k => if isAtomic k then storeLocal s o.dst (atomRecord old st o.target o.seq o.epoch) else s

/-- R316: an operation has completed: fences that waited for it alone complete. -/
def fenceNote (num : Nat) (s : State) : State :=
  let fs := s.fab.fences.map fun (f : Fence) => { f with ops := f.ops.filter (· != num) }
  let s1 := { s with fab.fences := fs.filter fun f => !f.ops.isEmpty }
  (fs.filter fun f => f.ops.isEmpty).foldl (fun t f => complete f.core .mem f.index 0 t) s1

/-- R141: a packet of a Sash descriptor has been answered. -/
def sashNote (h : Half) (num st : Nat) (s : State) : State :=
  let last := !(s.fab.ops.any fun o => o.sash == some (h, num))
  { s with sashQ := smSet [] s.sashQ (halfNum h) ((smGet [] s.sashQ (halfNum h)).map fun e =>
      if e.num == num && e.waiting then
        let a := max e.acc st
        if last then { e with acc := a, waiting := false, status := some a } else { e with acc := a }
      else e) }

/-- A control packet to a member (R324). -/
def sendCtrl (kind target status step : Nat) (s : State) : State :=
  if target = myId s || isDead s target then s
  else
    let p : Pkt := { kind := kind, vc := 0, source := myId s, target := target, status := status, aux := step }
    let o : FabOp := ⟨s.fab.next, 255, 0, none, .ctrl, target, false, 0, 0, 0, pktBody p, 0, 0, false, s.now, s.now, false, false, false,
      [], false, none, true, 0, 0⟩
    fabPump { s with fab.next := s.fab.next + 1, fab.ops := s.fab.ops ++ [o] }

/-- R324: the entry module ends a step before its return message and sends STEP_ABORT to every member. -/
def endStepAt (step status : Nat) (s : State) : State :=
  if s.ctl.flights.any fun f => f.hdr.step == step then
    ((List.range 128).filter (isMember s)).foldl (fun t m => sendCtrl 0x21 m 0 step t) (stepDies step status s)
  else s

/-- R324: the module's portion of a step has failed. -/
def portionFailed (step status : Nat) (s : State) : State :=
  if isEntry s then endStepAt step status s
  else match remapId s 0 with
    | some m => sendCtrl 0x22 m status step s
    | none => s

/-- R324: an operation that ended dead or denied gives its portion that status; one whose portion is already final fails
it. -/
def noteStatus (o : FabOp) (st : Nat) (s : State) : State :=
  match o.step with
  | none => s
  | some k =>
    if st ≠ 0x20 ∧ st ≠ 0x23 then s
    else
      let f := fun (p : Portion) => if p.hdr.step = k then { p with fabStatus := max p.fabStatus st } else p
      let here := (s.portion.toList ++ s.suspended.toList).any fun p => p.hdr.step == k
      if here then { s with portion := s.portion.map f, suspended := s.suspended.map f }
      else portionFailed k st s

/-- An operation ends with a status. -/
def endOp (o : FabOp) (st old : Nat) (data : List Nat) (s : State) : State :=
  if !(s.fab.ops.any fun x => x.num == o.num) then s
  else
    let r := if isAtomic o.kind && !o.sent && !o.retry then takeSeq (opFlow o) s else (o.seq, s)
    let o1 := { o with seq := r.1, epoch := if o.sent then o.epoch else getF s Reg.FAB_EPOCH }
    let s1 := { r.2 with fab.ops := r.2.fab.ops.filter fun x => x.num != o.num }
    let s2 := opResult o1 st old data s1
    let s3 := if o.done || o.sash.isSome then s2 else complete o.core .mem o.index (s.now - o.first) s2
    let s4 := match o.sash with | some (h, n) => sashNote h n st s3 | none => s3
    noteStatus o1 st (fenceNote o.num s4)

/-- R323: an operation to a DEAD target ends. -/
def endDead (target : Nat) (s : State) (o : FabOp) : State :=
  if o.kind == .ctrl then { s with fab.ops := s.fab.ops.filter fun x => x.num != o.num }
  else endOp o 0x20 (2 ^ 64 - 1) [] (fabFault target 0x20 o.plane 1 (bump s Reg.FAB_BOUND 1))

/-- The operation waits for an acknowledgement of the target. -/
def awaits (target : Nat) (o : FabOp) : Bool := if o.mcast then o.members.contains target else o.target == target

/-- R323: a target becomes DEAD. -/
def markDead (s : State) (target : Nat) : State :=
  let s1 := setBit s (Reg.FAB_DEAD (target / 32)) (target % 32) true
  (s1.fab.ops.filter fun o => !o.held && awaits target o).foldl (endDead target) s1

/-! ### Issue (R40, R306, R310 to R316) -/

/-- R40, R306: an operation is refused at the issuing module. -/
def refuseOp (target : Nat) (o : FabOp) (s : State) : State :=
  endOp o 0x23 0 [] (fabFault (target % 128) 0x23 0 2 (bump s Reg.FAB_DENIED 1))

/-- R332: the kinds that cross between racks. -/
def crosses : FabKind → Bool
  | .reduce => true | .bulkWrite => true | .bulkRead => true | _ => false

/-- The members an operation goes to, unless it is refused at issue. -/
def opTargets (o : FabOp) (logical : Nat) (s : State) : Option (List Nat) :=
  let l := if o.mcast then groupIds s logical else (remapId s logical).map fun x => [x]
  l.filter fun ids => !ids.isEmpty && ids.all fun x => crosses o.kind || rackOf x == rackOf (myId s)

/-- R210: the operation waits in the egress hold of the running portion; its instruction completes. -/
def holdOp (o : FabOp) (s : State) : State :=
  let o1 := { o with held := true, done := true, sash := none }
  let s1 := { s with fab.ops := s.fab.ops ++ [o1], portion := s.portion.map fun p => { p with egress := p.egress ++ [.fab o.num] } }
  match o.sash with
  | none => complete o.core .mem o.index 0 s1
  | some _ => s1

/-- Hand an operation to the fabric attachment: `o` as built by its instruction or descriptor, its target logical. -/
def issueOp (o : FabOp) (logical : Nat) (s : State) : State :=
  let o1 := { o with num := s.fab.next, first := s.now, last := s.now, step := s.portion.map fun p => p.hdr.step }
  let s1 := { s with fab.next := s.fab.next + 1 }
  let add := fun (x : FabOp) => { s1 with fab.ops := s1.fab.ops ++ [x] }
  match opTargets o1 logical s1 with
  | none => refuseOp logical o1 (add { o1 with target := logical })
  | some ids =>
    let o2 := if o1.mcast then { o1 with members := ids, target := logical } else { o1 with target := ids.headD 0 }
    match ids.find? (isDead s1) with
    | some d => endDead d (add o2) o2
    | none => if isHeld o2.kind && s1.portion.isSome then holdOp o2 s1 else fabPump (add o2)

/-- R310: the bytes of a SIZE code. -/
def sizeOf8 (k : Nat) : Nat := [4, 8, 64, 128, 256, 512].getD k 0

/-- The packet of an instruction or descriptor; its target, SEQ and epoch are filled in when it is sent. -/
def opBody (k : FabKind) (s : State) (job offset aux scale : Nat) (wide : Bool) (payload : List Nat) (target : Nat) : List Nat :=
  pktBody { kind := typeOf k, vc := chanOf k, mcast := k == .mstore, wide := wide, source := myId s, target := target, job := job,
            scale := scale, offset := offset, aux := aux, payload := payload }

/-- R206: the operand granules that fail their check are a local poison source; they are sent as they stand. -/
def operandCheck (a n : Nat) (s : State) : State :=
  localDetect ((granulesOf a n).filter (marked s)) s

/-- What R310's operand fields name. -/
structure RIns where
  target : Nat
  job : Nat
  size : Nat
  form : Bool
  scale : Nat
  offset : Nat
  loc : Nat
deriving DecidableEq, Repr

/-- R109, R310: fields with which an image is loaded. -/
def rLoadable (atomic : Bool) (r : RIns) : Bool :=
  decide (r.target < 128) && decide (r.job < 4096) && decide (r.size < if atomic then 2 else 6) && decide (r.scale ≤ 128) &&
  decide (r.offset < 2 ^ 40) && decide (r.loc < 2 ^ 15)

/-- R310 to R314: a core's remote operation of a kind. -/
def remoteOp (i : Ins) (k : FabKind) (r : RIns) (s : State) : State :=
  let a := sramAddr i.core (r.loc * 64)
  let n := sizeOf8 r.size
  let phys := if k == .mstore then r.target else (remapId s r.target).getD 0
  let at8 := isAtomic k
  let read := match k with | .load => 0 | .cas => 16 | _ => if at8 then 8 else n
  let s1 := operandCheck a read s
  let opnd := rdLe s a (if n = 4 then 4 else 8)
  let payload := match k with
    | .load => []
    | .cas => rdBytes s (a + 8) n
    | _ => if at8 then [] else rdBytes s a n
  let aux := if k == .load then n else if at8 then opnd else 0
  let wide := if at8 then n == 8 else k == .reduce && r.form
  let scale := if k == .reduce && !r.form then r.scale else 0
  issueOp ⟨0, i.core, i.index, none, k, 0, k == .mstore, chanOf k, 0, 0, opBody k s r.job r.offset aux scale wide payload phys,
    a, n, wide, 0, 0, false, false, false, [], false, none, false, 0, 0⟩ r.target s1

def remoteId (place : Nat) : OpId := ⟨5, 0x10 + place, 7⟩

/-- A core issues a remote operation. -/
def remoteIssue (place : Nat) (m : String) (i : Ins) (k : FabKind) (r : RIns) (s : State) : Res :=
  if rLoadable (isAtomic k) r then .next (issueWith i (some .mem) (remoteId place) false (remoteOp i k r) s)
  else .refused (.notLoadable m)

/-- R311: RLOAD. -/
def execRload (i : Ins) (target job size offset loc : Nat) (s : State) : Res :=
  remoteIssue 0 "RLOAD" i .load ⟨target, job, size, false, 0, offset, loc⟩ s
/-- R311: RSTORE. -/
def execRstore (i : Ins) (target job size offset loc : Nat) (s : State) : Res :=
  remoteIssue 1 "RSTORE" i .store ⟨target, job, size, false, 0, offset, loc⟩ s
/-- R312: RFADD. -/
def execRfadd (i : Ins) (target job size offset loc : Nat) (s : State) : Res :=
  remoteIssue 2 "RFADD" i .fadd ⟨target, job, size, false, 0, offset, loc⟩ s
/-- R312: RCAS. -/
def execRcas (i : Ins) (target job size offset loc : Nat) (s : State) : Res :=
  remoteIssue 3 "RCAS" i .cas ⟨target, job, size, false, 0, offset, loc⟩ s
/-- R312: RMIN. -/
def execRmin (i : Ins) (target job size offset loc : Nat) (s : State) : Res :=
  remoteIssue 4 "RMIN" i .min ⟨target, job, size, false, 0, offset, loc⟩ s
/-- R312: RMAX. -/
def execRmax (i : Ins) (target job size offset loc : Nat) (s : State) : Res :=
  remoteIssue 5 "RMAX" i .max ⟨target, job, size, false, 0, offset, loc⟩ s
/-- R313: RREDUCE in SCALAR or ACC form. -/
def execRreduce (i : Ins) (target job size : Nat) (form : Bool) (scale offset loc : Nat) (s : State) : Res :=
  remoteIssue 6 "RREDUCE" i .reduce ⟨target, job, size, form, scale, offset, loc⟩ s
/-- R314: RMSTORE to a switch multicast group. -/
def execRmstore (i : Ins) (group job size offset loc : Nat) (s : State) : Res :=
  remoteIssue 7 "RMSTORE" i .mstore ⟨group, job, size, false, 0, offset, loc⟩ s

/-- R316, R210: RFENCE completes with the operations that the core issued before it; those in the egress hold of the running
portion, whose instructions have completed, are not waited for. -/
def execRfence (i : Ins) (s : State) : Res :=
  .next (issueWith i (some .mem) (remoteId 8) false (fun t =>
    let ns := (t.fab.ops.filter fun o => o.core == i.core.val && o.sash.isNone && !o.held).map fun o => o.num
    if ns.isEmpty then t else { t with fab.fences := t.fab.fences ++ [⟨i.core, i.index, ns⟩] }) s)

/-- R322: RRETRY resends the atomic whose result record its LOCAL granule holds, with the record's SEQ and the present
epoch.  The instruction names no operation, so the packet is an FADD of 0; the target answers by SEQ. -/
def retryOp (i : Ins) (r : RIns) (s : State) : State :=
  let a := sramAddr i.core (r.loc * 64)
  let n := sizeOf8 r.size
  issueOp ⟨0, i.core, i.index, none, .fadd, 0, false, 1, rdLe s (a + 12) 4, 0,
    opBody .fadd s r.job r.offset 0 0 (n == 8) [] ((remapId s r.target).getD 0), a, n, n == 8, 0, 0, false, false, true, [], false, none, false, 0, 0⟩
    r.target (operandCheck a 20 s)

def execRretry (i : Ins) (target job size offset loc : Nat) (s : State) : Res :=
  let r : RIns := ⟨target, job, size, false, 0, offset, loc⟩
  if rLoadable true r then .next (issueWith i (some .mem) (remoteId 9) false (retryOp i r) s)
  else .refused (.notLoadable "RRETRY")

/-! ### Timers (R319, R320, R321, R323) -/

/-- R319: flows whose oldest unacknowledged packet has waited one retry interval are resent. -/
def execRetryIntervalExpire (t : Nat) (s : State) : Res :=
  .next (
    let s1 := atTime t s
    (openFlows s1).foldl (fun u k =>
      match u.fab.ops.find? fun o => o.sent && opFlow o == k with
      | some o => if o.last + boundNs u / 4 ≤ u.now then resendFlow k u else u
      | none => u) s1)

/-- R323: operations that have reached the bound: their targets become DEAD, in ascending order, so that FAB_LAST_FAULT
keeps the highest. -/
def execLoadBoundExpire (t : Nat) (s : State) : Res :=
  .next (
    let s1 := atTime t s
    let due := s1.fab.ops.filter fun o => !o.held && !o.waiting && decide (o.first + boundNs s1 ≤ s1.now)
    (sortBy (fun a b => decide (a < b)) (due.flatMap fun o => if o.mcast then o.members else [o.target]).dedup).foldl markDead s1)

/-- R320: reply-cache entries are held for 2 ms. -/
def cacheLive (now : Nat) (e : CacheEnt) : Bool := decide (now < e.at0 + 2000000)

def execReplyCacheExpire (t : Nat) (s : State) : Res :=
  .next (
    let s1 := atTime t s
    { s1 with fab.cache := s1.fab.cache.filter (cacheLive s1.now) })

/-- R321: an atomic that waits is issued once fewer than 512 were issued to its target within 3 ms; its bound runs from
then. -/
def releaseAtomic (s : State) (o : FabOp) : State :=
  if o.waiting && decide ((atomicsTo s o.target).length < 512) then
    let o1 := { o with waiting := false, first := s.now }
    sendNew (putOp o1 s) o1
  else s

def execAtomicThrottleRelease (t : Nat) (s : State) : Res :=
  .next (
    let s1 := atTime t s
    s1.fab.ops.foldl releaseAtomic s1)

end Sys2Proof.Machine
end

