-- ==== Sys2Proof/Machine/MemFamily.lean ====
section
/-!
DEFINITION. Machine/MemFamily.lean: the MEM family: DRAM loads, stores, atomics, fences, release and acquire (R33 to R36,
R192, R206, R209).  Accesses are performed when they issue, which is one of the orders R33 allows.
-/
namespace Sys2Proof.Machine

/-- Vectors of the MEM family in the order R109 names them (loads, stores, atomics, fences, release, acquire). -/
def memOp (place : Nat) : OpId := ⟨5, place, 7⟩

/-- R192, R207, R208: load `len` bytes of the device range into the core's SRAM.  A reserved address loads zero. -/
def loadInto (i : Ins) (addr len dst : Nat) (chk : List (Nat × Check)) (hostOk : Bool) (s : State) : State :=
  if devReadOk s addr len then
    let r := devRead s addr len chk hostOk
    let now := deliver r.s (sramAddr i.core dst) addr len (r.bad ++ r.stall)
    { now with refetch := now.refetch ++ r.stall.map fun g =>
        let lo := max addr (g * 64)
        ⟨g, .core i.core i.index (dst + (lo - addr)) lo (min (addr + len) (g * 64 + 64) - lo)⟩ }
  else storeLocal s (sramAddr i.core dst) (List.replicate len 0)

/-- R33: a DRAM load. -/
def execMemLoad (i : Ins) (addr len dst : Nat) (chk : List (Nat × Check)) (hostOk : Bool) (s : State) : Res :=
  .next (issueWith i (some .mem) (memOp 0) false (loadInto i addr len dst chk hostOk) s)

/-- R206: granules stored in part whose check fails take a marked code; the detection is a poison source. -/
def storePart (addr len : Nat) (chk : List (Nat × Check)) (s : State) : State :=
  let part := (granulesOf addr len).filter fun g => !(decide (addr ≤ g * 64) && decide (g * 64 + 64 ≤ addr + len))
  let bad := part.filter fun g => checkOf s chk g == .hard
  let s1 := setMarks (if bad.isEmpty then s else bump s Reg.MEM_DRAM_DETECT bad.length) bad true
  let s2 := (part.filter fun g => checkOf s chk g == .reread).foldl (fun t _ => addRecovered (bump t Reg.MEM_REREAD_OK 1)) s1
  bad.foldl (fun t g => addPoison (.memory g) t) s2

/-- R192, R194, R206, R209: a store of bytes to the device range; any destination but the step scratch is refused and
changes nothing. -/
def storeFrom (c addr src len : Nat) (chk : List (Nat × Check)) (s : State) : State :=
  if devWriteOk s addr len && scratchOk s addr len then
    let bad := (granulesOf (sramAddr c src) len).filter (marked s)
    let s1 := putBytes (storePart addr len chk (localDetect bad s)) addr (rdBytes s (sramAddr c src) len)
    setMarks s1 ((List.range len).filterMap fun k => if bad.contains ((sramAddr c src + k) / 64) then some ((addr + k) / 64) else none) true
  else s

/-- R206: a DRAM store. -/
def execMemStore (i : Ins) (addr src len : Nat) (chk : List (Nat × Check)) (s : State) : Res :=
  .next (issueWith i (some .mem) (memOp 1) false (storeFrom i.core addr src len chk) s)

/-- R35, R312: the value an atomic leaves; min and max compare as signed integers. -/
def atomicNew (fn : AtomFn) (w old operand compare : Nat) : Nat :=
  match fn with
  | .fadd => (old + operand) % 2 ^ w
  | .cas => if old = compare % 2 ^ w then operand % 2 ^ w else old
  | .min => if toSigned w operand < toSigned w old then operand % 2 ^ w else old
  | .max => if toSigned w old < toSigned w operand then operand % 2 ^ w else old

/-- R35, R192, R206, R209: an atomic on DRAM.  Refused (misaligned, reserved, read-only, outside scratch): nothing
changes and the old value is zero.  A granule that fails its check: it is not applied and its result is delivered as a
marked granule. -/
def atomicDo (c : Nat) (fn : AtomFn) (wide : Bool) (addr operand compare dst : Nat) (chk : List (Nat × Check)) (s : State) : State :=
  let n := if wide then 8 else 4
  let out := sramAddr c dst
  if addr % n = 0 ∧ devWriteOk s addr n ∧ scratchOk s addr n then
    match checkOf s chk (addr / 64) with
    | .hard =>
      let s1 := addPoison (.memory (addr / 64)) (setMark (bump s Reg.MEM_DRAM_DETECT 1) (addr / 64) true)
      setMark s1 (out / 64) true
    | k =>
      let s1 := if k = .reread then addRecovered (bump s Reg.MEM_REREAD_OK 1) else s
      let old := rdLe s1 addr n
      storeLocal (putBytes s1 addr (leBytes n (atomicNew fn (8 * n) old operand compare))) out (leBytes n old)
  else storeLocal s out (List.replicate n 0)

/-- R35: an atomic. -/
def execMemAtomic (i : Ins) (fn : AtomFn) (wide : Bool) (addr operand compare dst : Nat) (chk : List (Nat × Check)) (s : State) : Res :=
  .next (issueWith i (some .mem) (memOp 2) false (atomicDo i.core fn wide addr operand compare dst chk) s)

/-- R33: a fence; the accesses issued before it have been performed. -/
def execMemFence (i : Ins) (s : State) : Res := .next (issueWith i (some .mem) (memOp 3) false id s)

/-- R34: a release store. -/
def execMemRelease (i : Ins) (addr src len : Nat) (chk : List (Nat × Check)) (s : State) : Res :=
  .next (issueWith i (some .mem) (memOp 4) false (storeFrom i.core addr src len chk) s)

/-- R34: an acquire load. -/
def execMemAcquire (i : Ins) (addr len dst : Nat) (chk : List (Nat × Check)) (hostOk : Bool) (s : State) : Res :=
  .next (issueWith i (some .mem) (memOp 5) false (loadInto i addr len dst chk hostOk) s)

end Sys2Proof.Machine
end

