-- ==== Sys2Proof/Machine/Trelmet.lean ====
section
/-!
DEFINITION. Machine/Trelmet.lean: the receiving side of Trelmet (R302 to R325, R329), discovery (R326, R327), membership
and quarantine (R328, R330), and the fabric ports' lanes and links (R299 to R301, R449).
-/
namespace Sys2Proof.Machine

/-! ### Receiving a packet (R304, R318, R329) -/

/-- The members of a group that hold this module's own ID. -/
def inGroup (s : State) (g : Nat) : Bool := match groupIds s g with | some l => l.contains (myId s) | none => false

/-- R329: the sender's epoch and membership are those the receiver accepts. -/
def epochOk (s : State) (p : Pkt) : Bool :=
  isMember s p.source && (p.epoch == getF s Reg.FAB_EPOCH ||
    (match s.fab.prev with | some m => p.epoch == m.epoch && bit m.members p.source | none => false))

/-- R329: a packet of an old epoch or of no member: STALE_NOTICE goes to the sender and to the switch. -/
def staleNotice (port : Nat) (p : Pkt) (s : State) : State :=
  let s1 := fabFault p.source 0x21 (getF s (Reg.FAB_PORT_PLANE_SEEN port)) 3 (bump s Reg.FAB_STALE_EPOCH 1)
  let r := takeSeq (flowKey p.source 0 false) s1
  let n : Pkt := { kind := 0x23, vc := 0, source := myId s, target := p.source, epoch := getF s Reg.FAB_EPOCH, seq := r.1 }
  let bs := withCrc (pktBody n)
  let s2 := match planeFor r.2 p.source 0 false 0 with
    | some q => toPlane q p.source 0 bs r.2
    | none => r.2
  emit s2 (.packet port 128 0 bs)

/-- The packet that a receive command brings, once it has passed the checks that come before its flow's: the port
carries traffic, the packet is of the command's type, passes the end-to-end check (R304), is addressed here, and is of
an accepted epoch (R329). -/
def arrive (port : Fin 8) (kind : Nat) (bytes : List Nat) (t : Nat) (s : State) : Option Pkt × State :=
  let s0 := atTime t s
  if bytes.getD 0 0 ≠ kind ∨ !portUsable s0 port || !carries s0 then (none, s0)
  else if !pktOk bytes then (none, bump s0 Reg.FAB_E2E_CRC 1)
  else
    let p := parsePkt bytes
    if (if p.mcast then !inGroup s0 p.target else p.target != myId s0) then (none, s0)
    else if epochOk s0 p then (some p, s0)
    else if getF s0 Reg.FAB_EPOCH < p.epoch then (none, bump s0 Reg.FAB_EPOCH_AHEAD 1)
    else (none, staleNotice port p s0)

/-- R318: the flow of a received packet, as a key. -/
def rxKey (p : Pkt) : Nat := (p.source * 256 + if p.mcast then 128 + p.target else 0) * 4 + p.vc

/-- How far a SEQ lies beyond another, modulo 2^32. -/
def seqFrom (e q : Nat) : Nat := (q + 2 ^ 32 - e) % 2 ^ 32

/-- What R318 says of an arriving SEQ. -/
inductive SeqIs where
  | fresh | again | drop
deriving DecidableEq, Repr

/-- R318: FVC3 advances E over the run received. -/
def advance : Nat → Nat → List Nat → Nat × List Nat
  | 0, e, l => (e, l)
  | n + 1, e, l => if l.contains e then advance n ((e + 1) % 2 ^ 32) (l.filter (· != e)) else (e, l)

/-- R318: hold an arriving packet against its flow. -/
def flowCheck (p : Pkt) (s : State) : SeqIs × State :=
  let k := rxKey p
  let e := smGet 0 s.fab.rx k
  let d := seqFrom e p.seq
  if p.vc = 3 then
    let got := smGet [] s.fab.rx3 k
    if 4096 ≤ d ∨ got.contains p.seq then (.drop, bump s Reg.FAB_DUP 1)
    else
      let a := advance 4097 e (p.seq :: got)
      (.fresh, { s with fab.rx := smSet 0 s.fab.rx k a.1, fab.rx3 := smSet [] s.fab.rx3 k a.2 })
  else if d = 0 then (.fresh, { s with fab.rx := smSet 0 s.fab.rx k ((e + 1) % 2 ^ 32) })
  else if 2 ^ 31 ≤ d then (.again, bump s Reg.FAB_DUP 1)
  else (.drop, s)

/-! ### Replies (R302, R319) -/

/-- A REPLY to a request: it carries the request's SEQ, JOB and OFFSET; the data of a BULK_READ travel on FVC3. -/
def replyPkt (s : State) (p : Pkt) (st aux : Nat) (payload : List Nat) : Pkt :=
  { kind := 0x10, vc := if p.kind = 0x0A then 3 else 2, wide := p.wide, source := myId s, target := p.source, job := p.job,
    status := st, epoch := getF s Reg.FAB_EPOCH, seq := p.seq, offset := p.offset, aux := aux, payload := payload }

def sendReply (p : Pkt) (st aux : Nat) (payload : List Nat) (s : State) : State :=
  let r := replyPkt s p st aux payload
  match planeFor s r.target r.vc false 0 with
  | some q => toPlane q r.target r.vc (withCrc (pktBody r)) s
  | none => s

/-! ### Checks (R305, R308) -/

/-- R305: sizes of loads and stores. -/
def dataSize (n : Nat) : Bool := n == 4 || n == 8 || (decide (64 ≤ n) && decide (n ≤ 512) && n % 64 == 0)
def bulkSize (n : Nat) : Bool := decide (64 ≤ n) && decide (n ≤ 512) && n % 64 == 0

/-- Bytes of the job's window that a request touches. -/
def reqBytes (p : Pkt) : Nat :=
  let n := p.payload.length
  match p.kind with
  | 1 => p.aux | 10 => p.aux | 3 => if p.wide then 8 else 4 | 4 => if p.wide then 8 else 4 | 5 => if p.wide then 8 else 4
  | 6 => if p.wide then 8 else 4 | 7 => if p.wide then n else 4 * n | _ => n

/-- R305: lengths, alignment and channel of a request. -/
def limitsOk (p : Pkt) : Bool :=
  let n := p.payload.length
  let al := if p.wide then 8 else 4
  (p.vc == (if p.kind == 9 || p.kind == 10 then 3 else 1)) && (p.mcast == (p.kind == 8)) &&
  (match p.kind with
   | 1 => n == 0 && dataSize p.aux && p.offset % min p.aux 64 == 0
   | 2 => dataSize n && p.offset % min n 64 == 0
   | 8 => dataSize n && p.offset % min n 64 == 0
   | 3 => n == 0 && p.offset % al == 0
   | 5 => n == 0 && p.offset % al == 0
   | 6 => n == 0 && p.offset % al == 0
   | 4 => n == al && p.offset % al == 0
   | 7 => (if p.wide then decide (32 ≤ n) && decide (n ≤ 512) && n % 32 == 0
           else decide (8 ≤ n) && decide (n ≤ 512) && n % 8 == 0 && decide (p.scale ≤ 128)) && p.offset % 32 == 0
   | 9 => bulkSize n && p.offset % 64 == 0
   | 10 => n == 0 && bulkSize p.aux && p.offset % 64 == 0
   | _ => false)

/-- R307: the right that a request needs. -/
def rightOf (w : JobWin) : Nat → Bool
  | 1 => w.load | 2 => w.store | 3 => w.atomic | 4 => w.atomic | 5 => w.atomic | 6 => w.atomic | 7 => w.reduce | 8 => w.mcast
  | 9 => w.bulkW | 10 => w.bulkR | _ => false

/-- R308: the device address that a request acts on; none when it is denied. -/
def windowAddr (p : Pkt) (s : State) : Option Nat :=
  let ws := match s.img with | some i => i.windows | none => []
  match ws.find? fun w => w.job == p.job && decide (w.offset ≤ p.offset) && decide (p.offset + reqBytes p ≤ w.offset + w.len) with
  | none => none
  | some w =>
    let own := rackOf p.source == rackOf (myId s)
    let a := w.dev + (p.offset - w.offset)
    if limitsOk p && rightOf w p.kind && bit w.racks (rackOf p.source) && (own || p.kind == 7 || p.kind == 9 || p.kind == 10) &&
      (if p.kind == 1 || p.kind == 10 then devReadOk s a (reqBytes p) else devWriteOk s a (reqBytes p)) then some a else none

/-! ### Performing a request (R311 to R315) -/

/-- A read at the target: a detection there is no poison source of the portion that runs here. -/
def remoteRead (chk : List (Nat × Check)) (hostOk : Bool) (p : Pkt) (a : Nat) (s : State) : State :=
  let n := reqBytes p
  let r := devRead s a n chk hostOk
  let s1 := { r.s with portion := s.portion, refetch := r.s.refetch ++ r.stall.map fun g => ⟨g, .scrub⟩ }
  sendReply p (if r.bad.isEmpty then 0 else 0x31) 0 (rdBytes s1 a n) s1

/-- R206: the granules that an access takes part of and that fail their check twice. -/
def partBad (a n : Nat) (chk : List (Nat × Check)) (s : State) : List Nat :=
  (granulesOf a n).filter fun g => !(decide (a ≤ g * 64) && decide (g * 64 + 64 ≤ a + n)) && checkOf s chk g == .hard

/-- R206: a write at the target. -/
def remoteWrite (chk : List (Nat × Check)) (p : Pkt) (a : Nat) (s : State) : State :=
  let bad := partBad a p.payload.length chk s
  sendReply p 0 0 [] (putBytes (setMarks (if bad.isEmpty then s else bump s Reg.MEM_DRAM_DETECT bad.length) bad true) a p.payload)

def cachePut (p : Pkt) (r : Pkt) (s : State) : State :=
  let e : CacheEnt := ⟨p.source, p.vc, p.mcast, p.seq, s.now, pktBody r⟩
  let own := (s.fab.cache.filter fun x => x.source == p.source && cacheLive s.now x).take 511
  { s with fab.cache := e :: own ++ s.fab.cache.filter fun x => x.source != p.source }

def fnOf : Nat → AtomFn
  | 4 => .cas | 5 => .min | 6 => .max | _ => .fadd

/-- R312, R206: an atomic at the target; its REPLY is cached (R320).  A granule that fails its check takes no atomic. -/
def remoteAtomic (chk : List (Nat × Check)) (p : Pkt) (a : Nat) (s : State) : State :=
  let n := reqBytes p
  let old := rdLe s a n
  let fin := fun (st o : Nat) (t : State) => sendReply p st o [] (cachePut p (replyPkt t p st o []) t)
  match checkOf s chk (a / 64) with
  | .hard => fin 0x31 0 (setMark (bump s Reg.MEM_DRAM_DETECT 1) (a / 64) true)
  | k =>
    let s1 := if k = .reread then bump s Reg.MEM_REREAD_OK 1 else s
    let new := if p.kind = 4 then atomicNew .cas (8 * n) old (leNat p.payload) p.aux else atomicNew (fnOf p.kind) (8 * n) old p.aux 0
    fin 0 old (putBytes s1 a (leBytes n new))

/-- R96: read an accumulator record. -/
def recAcc (bs : List Nat) : LAcc :=
  let f := bs.getD 24 0
  ⟨toSigned 192 (leNat (bs.take 24)), bit f 0, bit f 1, bit f 2⟩

/-- R313: the parts of a reduction, one per record. -/
def reduceParts (p : Pkt) : List LAcc :=
  if p.wide then (chunks 32 (p.payload.length / 32) p.payload).map recAcc
  else (chunks 8 (p.payload.length / 8) p.payload).map fun w => { v := toSigned 64 (leNat w) * 2 ^ p.scale }

/-- R91, R93, R313: add a part exactly into the record at `a`.  With OVF set, V is unspecified. -/
def reduceInto (a : Nat) (part : LAcc) (s : State) : State :=
  let old := recAcc (rdBytes s a 32)
  let r := accAdd old { v := part.v, poison := part.poison, nonfinite := part.nonfinite } (freeAcc s)
  let ovf := r.ovf || part.ovf
  let s1 := if ovf && !r.ovf then { s with fresh := s.fresh + 1 } else if r.ovf then { s with fresh := s.fresh + 1 } else s
  let new : LAcc := { r with ovf := ovf, v := if ovf then freeAcc s else r.v }
  let s2 := if r.ovf && !old.ovf then bump s1 Reg.ENG_MX_ACC_OVF 1 else s1
  putBytes s2 a (accRecord new)

/-- R313, R206: a reduction at the target. -/
def remoteReduce (chk : List (Nat × Check)) (p : Pkt) (a : Nat) (s : State) : State :=
  let parts := reduceParts p
  let bad := (granulesOf a (32 * parts.length)).filter fun g => checkOf s chk g == .hard
  let s1 := setMarks (bump s Reg.MEM_DRAM_DETECT bad.length) bad true
  let s2 := (List.zip (List.range parts.length) parts).foldl (fun t x => reduceInto (a + 32 * x.1) x.2 t) s1
  sendReply p (if bad.isEmpty then 0 else 0x31) 0 [] (setMarks s2 bad true)

/-- R308: a denied request changes nothing. -/
def denyPkt (port : Nat) (p : Pkt) (s : State) : State :=
  let s1 := fabFault p.source 0x23 (getF s (Reg.FAB_PORT_PLANE_SEEN port)) 2 (bump s Reg.FAB_DENIED 1)
  let s2 := if 3 ≤ p.kind ∧ p.kind ≤ 6 then cachePut p (replyPkt s1 p 0x23 0 []) s1 else s1
  sendReply p 0x23 0 [] s2

/-- Perform a request, or deny it. -/
def performPkt (port : Nat) (chk : List (Nat × Check)) (hostOk : Bool) (p : Pkt) (s : State) : State :=
  match windowAddr p s with
  | none => denyPkt port p s
  | some a =>
    match p.kind with
    | 1 => remoteRead chk hostOk p a s
    | 10 => remoteRead chk hostOk p a s
    | 7 => remoteReduce chk p a s
    | 2 => remoteWrite chk p a s
    | 8 => remoteWrite chk p a s
    | 9 => remoteWrite chk p a s
    | _ => remoteAtomic chk p a s

/-- R320: the answer to a duplicate. -/
def againPkt (port : Nat) (chk : List (Nat × Check)) (hostOk : Bool) (p : Pkt) (s : State) : State :=
  if p.kind = 1 then performPkt port chk hostOk p s
  else if 3 ≤ p.kind ∧ p.kind ≤ 6 then
    match s.fab.cache.find? fun e => e.source == p.source && e.vc == p.vc && e.mcast == p.mcast && e.seq == p.seq && cacheLive s.now e with
    | some e =>
      let r := parsePkt (e.reply ++ [0, 0, 0, 0])
      sendReply p r.status r.aux [] (bump s Reg.FAB_CACHE_HIT 1)
    | none => sendReply p 0x22 0 [] (bump s Reg.FAB_ATOMIC_STALE 1)
  else sendReply p (if (windowAddr p s).isSome then 0 else 0x23) 0 [] s

/-- A module receives a request. -/
def takeRequest (kind : Nat) (port : Fin 8) (bytes : List Nat) (chk : List (Nat × Check)) (hostOk : Bool) (t : Nat) (s : State) : State :=
  match arrive port kind bytes t s with
  | (none, s1) => s1
  | (some p, s1) =>
    match flowCheck p s1 with
    | (.drop, s2) => s2
    | (.again, s2) => againPkt port chk hostOk p s2
    | (.fresh, s2) => performPkt port chk hostOk p s2

/-- R311: a LOAD packet. -/
def execLoad (port : Fin 8) (bytes : List Nat) (chk : List (Nat × Check)) (hostOk : Bool) (t : Nat) (s : State) : Res :=
  .next (takeRequest 1 port bytes chk hostOk t s)
/-- R311: a STORE packet. -/
def execStore (port : Fin 8) (bytes : List Nat) (chk : List (Nat × Check)) (t : Nat) (s : State) : Res :=
  .next (takeRequest 2 port bytes chk false t s)
/-- R312: an FADD packet. -/
def execFadd (port : Fin 8) (bytes : List Nat) (chk : List (Nat × Check)) (t : Nat) (s : State) : Res :=
  .next (takeRequest 3 port bytes chk false t s)
/-- R312: a CAS packet. -/
def execCas (port : Fin 8) (bytes : List Nat) (chk : List (Nat × Check)) (t : Nat) (s : State) : Res :=
  .next (takeRequest 4 port bytes chk false t s)
/-- R312: a MIN packet. -/
def execMin (port : Fin 8) (bytes : List Nat) (chk : List (Nat × Check)) (t : Nat) (s : State) : Res :=
  .next (takeRequest 5 port bytes chk false t s)
/-- R312: a MAX packet. -/
def execMax (port : Fin 8) (bytes : List Nat) (chk : List (Nat × Check)) (t : Nat) (s : State) : Res :=
  .next (takeRequest 6 port bytes chk false t s)
/-- R313: a REDUCE packet. -/
def execReduce (port : Fin 8) (bytes : List Nat) (chk : List (Nat × Check)) (t : Nat) (s : State) : Res :=
  .next (takeRequest 7 port bytes chk false t s)
/-- R314: a multicast store. -/
def execMstore (port : Fin 8) (bytes : List Nat) (chk : List (Nat × Check)) (t : Nat) (s : State) : Res :=
  .next (takeRequest 8 port bytes chk false t s)
/-- R315: a BULK_WRITE packet. -/
def execBulkWrite (port : Fin 8) (bytes : List Nat) (chk : List (Nat × Check)) (t : Nat) (s : State) : Res :=
  .next (takeRequest 9 port bytes chk false t s)
/-- R315: a BULK_READ packet. -/
def execBulkRead (port : Fin 8) (bytes : List Nat) (chk : List (Nat × Check)) (hostOk : Bool) (t : Nat) (s : State) : Res :=
  .next (takeRequest 10 port bytes chk hostOk t s)

/-! ### Replies and control packets (R319, R324, R325, R330) -/

/-- The operation that a REPLY answers. -/
def replyFor (p : Pkt) (s : State) : Option FabOp :=
  s.fab.ops.find? fun o =>
    let q := parsePkt (o.packet ++ [0, 0, 0, 0])
    o.sent && o.seq == p.seq && q.job == p.job && q.offset == p.offset && awaits p.source o

/-- R314, R319: an acknowledgement.  A multicast store ends with its last member; the worst status is its own. -/
def acknowledge (port : Nat) (p : Pkt) (s : State) : State :=
  match replyFor p s with
  | none => bump s Reg.FAB_DUP 1
  | some o =>
    let s1 := if p.status = 0x23 then fabFault p.source 0x23 (getF s (Reg.FAB_PORT_PLANE_SEEN port)) 2 s else s
    if o.kind == .ctrl then { s1 with fab.ops := s1.fab.ops.filter fun x => x.num != o.num }
    else
      let rest := o.members.filter (· != p.source)
      if o.mcast && !rest.isEmpty then noteStatus o p.status (putOp { o with members := rest } s1)
      else endOp o p.status p.aux p.payload s1

/-- R319: an issuer receives a REPLY. -/
def execReply (port : Fin 8) (bytes : List Nat) (t : Nat) (s : State) : Res :=
  .next (match arrive port 0x10 bytes t s with
    | (none, s1) => s1
    | (some p, s1) => acknowledge port p s1)

/-- R325: a receiver takes a SYNC: E rises to the SEQ it carries. -/
def execSync (port : Fin 8) (bytes : List Nat) (t : Nat) (s : State) : Res :=
  .next (match arrive port 0x20 bytes t s with
    | (none, s1) => s1
    | (some p, s1) =>
      let k := rxKey p
      let d := seqFrom (smGet 0 s1.fab.rx k) p.seq
      if 0 < d ∧ d < 2 ^ 31 then
        let r := advance 4097 p.seq ((smGet [] s1.fab.rx3 k).filter fun q => decide (seqFrom p.seq q < 4096))
        { s1 with fab.rx := smSet 0 s1.fab.rx k r.1, fab.rx3 := smSet [] s1.fab.rx3 k r.2 }
      else s1)

/-- A control packet is acknowledged; a duplicate is not performed again. -/
def takeControl (kind : Nat) (port : Fin 8) (bytes : List Nat) (t : Nat) (eff : Pkt → State → State) (s : State) : State :=
  match arrive port kind bytes t s with
  | (none, s1) => s1
  | (some p, s1) =>
    if p.vc ≠ 0 then denyPkt port p s1
    else match flowCheck p s1 with
      | (.drop, s2) => s2
      | (.again, s2) => sendReply p 0 p.aux [] s2
      | (.fresh, s2) => sendReply p 0 p.aux [] (eff p s2)

/-- R324: STEP_ABORT: the member discards the step. -/
def execStepAbort (port : Fin 8) (bytes : List Nat) (t : Nat) (s : State) : Res :=
  .next (takeControl 0x21 port bytes t (fun p u =>
    fabFault p.source 0x20 (getF u (Reg.FAB_PORT_PLANE_SEEN port)) 7 (discardStep p.aux u)) s)

/-- R324: PORTION_FAILED: the entry module ends the step. -/
def execPortionFailed (port : Fin 8) (bytes : List Nat) (t : Nat) (s : State) : Res :=
  .next (takeControl 0x22 port bytes t (fun p u => if isEntry u then endStepAt p.aux p.status u else u) s)

/-- R330: the module enters QUARANTINE. -/
def quarantine (target plane : Nat) (s : State) : State :=
  let steps := (s.portion.toList ++ s.suspended.toList ++ s.finals).map (fun p => p.hdr.step) ++ s.inbox.map (fun h => h.step)
  let s1 := setF (setF s Reg.FAB_STATE_STATE 4) Reg.ID_MODULE_MODULE_ID_VALID 0
  let s2 := s1.ctl.flights.foldl (fun t f => stepDies f.hdr.step 0x20 t) s1
  let s3 := steps.dedup.foldl (fun t k => discardStep k t) s2
  alert Reg.HOST_ALERT_FABRIC (fabFault target 0x21 plane 6 s3)

/-- R330: STALE_NOTICE. -/
def execStaleNotice (port : Fin 8) (bytes : List Nat) (t : Nat) (s : State) : Res :=
  let s0 := atTime t s
  .next (
    if bytes.getD 0 0 ≠ 0x23 ∨ !portUsable s0 port || !stageAlive s0 then s0
    else if !pktOk bytes then bump s0 Reg.FAB_E2E_CRC 1
    else
      let p := parsePkt bytes
      let st := getF s0 Reg.FAB_STATE_STATE
      if (st = 2 ∨ st = 3) ∧ p.target = myId s0 ∧ p.mcast = false then quarantine p.source (getF s0 (Reg.FAB_PORT_PLANE_SEEN port)) s0
      else s0)

/-! ### Discovery (R326, R327) -/

/-- The ports whose DISCOVER exchange has ended and whose link is up, in or out of plan. -/
def reporting (s : State) : List Nat :=
  (List.range 8).filter fun p => s.fab.seen.contains p && (getF s (Reg.FAB_PORT_LINK p) == 2 || getF s (Reg.FAB_PORT_LINK p) == 3)

def portPos (s : State) (p : Nat) : Nat := getF s (Reg.FAB_PORT_POSITION p)

/-- R326: the position that at least five of the up ports report. -/
def majority (s : State) : Option Nat :=
  ((reporting s).map (portPos s)).dedup.find? fun q => decide (5 ≤ ((reporting s).filter fun p => portPos s p == q).length)

/-- R326, R327: classify a port against the module's position. -/
def classifyPort (pos : Nat) (s : State) (p : Nat) : State :=
  if portPos s p = pos then setF (setF s (Reg.FAB_PORT_MISPLACED p) 0) (Reg.FAB_PORT_LINK p) 2
  else setF (setF s (Reg.FAB_PORT_MISPLACED p) 1) (Reg.FAB_PORT_LINK p) 3

/-- R326: the planes that announce a position, as a bit map: a byte of the discovery report. -/
def planesOf (s : State) (pos : Nat) : Nat :=
  ((List.range 8).filter fun q => (announced s q).any fun x => x.1 == pos).foldl (fun a q => a + 2 ^ q) 0

/-- R327, R333: compare the announced positions with the plan. -/
def comparePlan (pos : Nat) (plan : List PlanPos) (s : State) : State :=
  let here := fun (i : Nat) => plan.any fun x => x.pos == i
  let cnt := fun (f : Nat → Bool) => min 255 ((List.range 128).filter f).length
  let bad := ((reporting s).filter fun p => portPos s p != pos || getF s (Reg.FAB_PORT_PLANE_SEEN p) != p).length
  let tp := (List.range 8).any fun q => (announced s q).any fun x =>
    x.1 != pos && (match plan.find? fun y => y.pos == x.1 with | some y => y.tpos != x.2 % 8 | none => false)
  let s1 := setF (setF (setF s Reg.FAB_DISCOVERY_MISSING (cnt fun i => here i && planesOf s i == 0))
    Reg.FAB_DISCOVERY_PARTIAL (cnt fun i => here i && planesOf s i != 0 && planesOf s i != 255))
    Reg.FAB_DISCOVERY_EXTRA (cnt fun i => !here i && planesOf s i != 0)
  let s2 := setF (setB (setF s1 Reg.FAB_DISCOVERY_OWN_BAD (min 15 bad)) Reg.FAB_DISCOVERY_TPOS_DIFF tp) Reg.FAB_DISCOVERY_DONE 1
  putDev s2 (getF s2 Reg.FAB_REPORT_BASE) ((List.range 128).map (planesOf s2))

/-- R326: STATE after discovery; QUARANTINE is left only by a membership record (R330). -/
def setFabState (v : Nat) (s : State) : State :=
  if getF s Reg.FAB_STATE_STATE = 4 then s else setF s Reg.FAB_STATE_STATE v

/-- R326: the module settles its position and state from what its ports and planes report. -/
def discovery (s : State) : State :=
  match s.img with
  | none => setFabState 1 s
  | some i =>
    match majority s with
    | none => setFabState 5 { s with fab.position := none }
    | some pos =>
      let s1 := (reporting s).foldl (classifyPort pos) { s with fab.position := some pos }
      let s2 := comparePlan pos i.plan s1
      if i.plan.any fun x => x.pos == pos then
        let valid := getF s2 Reg.FAB_STATE_STATE != 4
        let s3 := setF (setB s2 Reg.ID_MODULE_MODULE_ID_VALID valid) Reg.ID_MODULE_MODULE_ID pos
        setFabState (if isMember s3 pos then 2 else 3) s3
      else setFabState 6 s2

/-- Discovery reruns when something that it rests on has changed; a module out of service takes no part. -/
def rediscover (s : State) : State := if stageAlive s && s.ready then replan (discovery s) else s

/-- R326: the answer to a DISCOVER frame: the switch port's rack, plane and port. -/
def execDiscover (port : Fin 8) (rack : Fin 2) (plane : Fin 8) (swPort : Fin 64) (t : Nat) (s : State) : Res :=
  let s0 := atTime t s
  .next (if getF s0 (Reg.FAB_PORT_LINK port) = 2 ∨ getF s0 (Reg.FAB_PORT_LINK port) = 3 then
    let s1 := setF (setF (setF (setF (setB s0 (Reg.FAB_PORT_SWAPPED port) (plane != port)) (Reg.FAB_PORT_PLANE_SEEN port) plane)
      (Reg.FAB_PORT_SWITCH_PORT port) swPort) (Reg.FAB_PORT_RACK_SEEN port) rack) (Reg.FAB_PORT_POSITION port) (64 * rack.val + swPort.val)
    rediscover { s1 with fab.seen := listAdd s1.fab.seen port }
  else s0)

/-- R323: members whose planned ports every plane announces to be down. -/
def goneMembers (s : State) : List Nat :=
  if (List.range 8).all fun q => (alGet s.fab.planes q).isSome then
    (List.range 128).filter fun m => isMember s m && m != myId s && !isDead s m && planesOf s m == 0
  else []

/-- R326: a switch plane announces the positions of its up ports: (position, serial number, TPOS). -/
def execPlaneAnnouncement (plane : Fin 8) (l : List (Nat × Nat × Nat)) (t : Nat) (s : State) : Res :=
  let s0 := atTime t s
  .next (if stageAlive s0 && s0.ready then
    let s1 := { s0 with fab.planes := alSet s0.fab.planes plane (l.map fun x => (x.1 % 128, x.2.1 * 8 + x.2.2 % 8)) }
    let s2 := discovery s1
    replan ((goneMembers s2).foldl markDead s2)
  else s0)

/-! ### Fabric ports (R299 to R301, R326, R330, R449) -/

/-- R46: a fabric port in or out of service. -/
def portService (p : Nat) (on : Bool) (s : State) : State :=
  if getBit s Reg.ID_RESOURCES_FAB_PORTS p = on then s else configChange (fun t => setBit t Reg.ID_RESOURCES_FAB_PORTS p on) s

/-- R331: a port has stopped carrying traffic: its flows move. -/
def portGone (p link cause : Nat) (s : State) : State :=
  let s1 := { setF s (Reg.FAB_PORT_LINK p) link with fab.seen := s.fab.seen.filter (· != p) }
  rediscover (fabFault (myId s1) 0 (getF s1 (Reg.FAB_PORT_PLANE_SEEN p)) cause (portService p false s1))

/-- R326: a trained port sends DISCOVER frames. -/
def portTrained (p : Nat) (s : State) : State :=
  let s1 := { setF s (Reg.FAB_PORT_LINK p) 2 with fab.seen := s.fab.seen.filter (· != p) }
  emit (portService p true s1) (.discover p (getF s1 Reg.ID_SERIAL) (getF s1 Reg.ID_MODULE_TPOS))

/-- R299, R433: the module shutters the port. -/
def portShut (p : Nat) (s : State) : State := if getF s (Reg.FAB_PORT_LINK p) = 5 then s else portGone p 5 5 s

/-- R299, R449: lane training: corrections, the spare, the link keys; with fewer than four good lanes the port is
shuttered, and a link whose key exchange fails stays down. -/
def execLaneTrain (port : Fin 8) (reversed : Bool) (good : Fin 32) (keyOk : Bool) (t : Nat) (s : State) : Res :=
  let s0 := atTime t s
  .next (if getF s0 (Reg.FAB_PORT_LINK port) = 5 || !stageAlive s0 then s0
    else
      let s1 := setF (setB (setB s0 (Reg.FAB_PORT_REVERSED port) reversed) (Reg.FAB_PORT_SPARE_USED port)
        (!(List.range 4).all fun k => bit good.val k)) (Reg.FAB_PORT_LANE_OK port) good
      if countBits 5 good.val < 4 then portShut port s1
      else if keyOk then portTrained port { s1 with fab.linkKeys := alSet s1.fab.linkKeys port t }
      else portGone port 0 4 s1)

/-- R299: a lane exceeds its error limit: the spare replaces it, or the port is shuttered. -/
def execLaneFail (port : Fin 8) (lane : Fin 5) (t : Nat) (s : State) : Res :=
  let s0 := atTime t s
  .next (if getBit s0 (Reg.FAB_PORT_LANE_OK port) lane then
    let s1 := setBit s0 (Reg.FAB_PORT_LANE_OK port) lane false
    if countBits 5 (getF s1 (Reg.FAB_PORT_LANE_OK port)) < 4 then portShut port s1
    else if lane.val < 4 then setF s1 (Reg.FAB_PORT_SPARE_USED port) 1 else s1
  else s0)

/-- R300: a lane is recalibrated on the spare; a port whose spare is in use, or bad, is not. -/
def execLaneRecal (port : Fin 8) (s : State) : Res :=
  .next (if getF s (Reg.FAB_PORT_LINK port) = 2 ∧ getF s (Reg.FAB_PORT_SPARE_USED port) = 0 ∧ getBit s (Reg.FAB_PORT_LANE_OK port) 4 then
    bump s Reg.FAB_LANE_RECAL 1 else s)

/-- R301: a frame that fails authentication or error correction is discarded. -/
def execFrameAuthFail (_port : Fin 8) (s : State) : Res := .next s

/-- R449: the link keys of a port are renewed. -/
def execLinkKeyRenew (port : Fin 8) (t : Nat) (s : State) : Res :=
  let s0 := atTime t s
  .next (if getF s0 (Reg.FAB_PORT_LINK port) = 2 then { s0 with fab.linkKeys := alSet s0.fab.linkKeys port t } else s0)

/-- R326, R330: a port's link state changes: 0 down, 1 training, 2 up, 4 shuttered by the switch.  Shuttered on every
plane, the module enters QUARANTINE.  A port that the module has shuttered stays so. -/
def execFabricPortStateChange (port : Fin 8) (link : Fin 5) (t : Nat) (s : State) : Res :=
  let s0 := atTime t s
  .next (if getF s0 (Reg.FAB_PORT_LINK port) = 5 || link.val == 3 || !stageAlive s0 then s0
    else
      let s1 := match link.val with
        | 2 => rediscover (portTrained port s0)
        | 4 => portGone port 4 5 s0
        | n => portGone port n 4 s0
      let st := getF s1 Reg.FAB_STATE_STATE
      if (st = 2 ∨ st = 3) ∧ (List.range 8).all (fun p => getF s1 (Reg.FAB_PORT_LINK p) == 4) = true then quarantine (myId s1) port s1 else s1)

/-! ### Membership (R325, R328) -/

/-- R325: SYNC on each flow to a module. -/
def syncTo (m : Nat) (s : State) : State :=
  let mine := s.fab.tx.filter fun k => k.1 / 4 == m || (decide (128 ≤ k.1 / 4) &&
    (match groupIds s (k.1 / 4 - 128) with | some l => l.contains m | none => false))
  mine.foldl (fun t k =>
    let g := k.1 / 4
    let p : Pkt := { kind := 0x20, vc := k.1 % 4, mcast := decide (128 ≤ g), source := myId t, target := g % 128,
                     epoch := getF t Reg.FAB_EPOCH, seq := k.2 }
    match planeFor t m (k.1 % 4) false 0 with
    | some q => toPlane q m (k.1 % 4) (withCrc (pktBody p)) t
    | none => t) s

def setMap (f : Nat → Fld) (v : Nat) (s : State) : State :=
  (List.range 4).foldl (fun t j => setF t (f j) (bitsAt v (32 * j) 32)) s

def getMap (f : Nat → Fld) (s : State) : Nat := ((List.range 4).map fun j => getF s (f j) * 2 ^ (32 * j)).sum

/-- R328: an accepted record takes effect at a step boundary. -/
def applyMember (s : State) : State :=
  match s.fab.pend with
  | some (_, some m) =>
    let old := getMap Reg.FAB_MEMBERS s
    let added := (List.range 128).filter fun i => bit m.members i && !bit old i
    let wasDead := (List.range 128).filter fun i => bit m.members i && isDead s i
    let src := fun (k : Nat) => k / 1024
    let s1 := { s with fab.prev := some ⟨getF s Reg.FAB_EPOCH, old, s.fab.remap⟩, fab.remap := m.remap, fab.pend := none,
                       fab.rx := s.fab.rx.filter (fun k => !added.contains (src k.1)),
                       fab.rx3 := s.fab.rx3.filter (fun k => !added.contains (src k.1)),
                       fab.cache := s.fab.cache.filter fun e => !added.contains e.source }
    let s2 := setF (setF (setF (setMap Reg.FAB_MEMBERS m.members s1) Reg.FAB_EPOCH m.epoch) Reg.FAB_MEMBER_CMD_BUSY 0) Reg.FAB_MEMBER_CMD_STATUS 0
    let s3 := wasDead.foldl (fun t i => setBit t (Reg.FAB_DEAD (i / 32)) (i % 32) false) s2
    let st := getF s3 Reg.FAB_STATE_STATE
    let inIt := match s3.fab.position with | some q => bit m.members q | none => false
    let s4 := if inIt && (st == 2 || st == 3 || st == 4) then setF (setF s3 Reg.FAB_STATE_STATE 2) Reg.ID_MODULE_MODULE_ID_VALID 1
      else if st = 2 then setF s3 Reg.FAB_STATE_STATE 3 else s3
    let s5 := if carries s4 then wasDead.foldl (fun t i => syncTo i t) s4 else s4
    irqBoth 2 (fabPump s5)
  | _ => s

/-- R328: the record's bytes. -/
def parseMember (bs : List Nat) : Member := ⟨fieldAt bs 0 4, fieldAt bs 4 16, (bs.drop 20).take 128⟩

/-- R328: the record is accepted. -/
def memberOk (s : State) (m : Member) : Bool :=
  let ids := m.remap.filter fun b => decide (b < 128)
  decide (getF s Reg.FAB_EPOCH < m.epoch) && ids.all (fun b => bit m.members b) && decide ids.Nodup

/-- R328, R457: FAB_MEMBER_CMD APPLY: the record is read through the writing port; `authOk` says whether its AUTH
verifies under the APP key. -/
def execMemberApply (p : Port) (host : HostMem) (authOk : Bool) (s : State) : Res :=
  .next (viaPf0 s p fun s =>
    if getB s Reg.FAB_MEMBER_CMD_BUSY then s
    else
      let a := getF s Reg.FAB_MEMBER_ADDR_LO * 256 + getF s Reg.FAB_MEMBER_ADDR_HI * 2 ^ 32
      let bad := irqBoth 2 (setF s Reg.FAB_MEMBER_CMD_STATUS 0x23)
      match hostRead host p a 256 with
      | none => bad
      | some bs =>
        let m := parseMember bs
        if memberOk s m && authOk && !s.sec.ks.app.isEmpty then
          setF (setF { s with fab.pend := some (p, some m) } Reg.FAB_MEMBER_CMD_BUSY 1) Reg.FAB_MEMBER_CMD_STATUS 0
        else bad)

end Sys2Proof.Machine
end

