-- ==== Sys2Proof/Machine/Images.lean ====
section
/-!
DEFINITION. Machine/Images.lean: loading and applying Lumale images (R350 to R367), with the structure checks that other
chapters ask of a load.
-/
namespace Sys2Proof.Machine

/-- R358: a status, and the KIND, CODE and ITEM that name what refused the load. -/
structure ImgBad where
  status : Nat
  kind : Nat := 0
  code : Nat := 0
  item : Nat := 0
deriving DecidableEq, Repr

def noItem : Nat := 0xFFFFFFFF
def badField (code item : Nat) : ImgBad := ⟨0x12, 2, code, item⟩
def badLayer (layer : Nat) : ImgBad := ⟨0x12, 3, 0, layer⟩
def badIns (i : ImgInstr) : ImgBad := ⟨0x12, 4, 0, i.core % 256 * 2 ^ 24 + i.index % 2 ^ 24⟩
def badRes (code item : Nat) : ImgBad := ⟨0x10, 1, code, item⟩

/-- The first check that refuses. -/
def firstBad (l : List (Option ImgBad)) : Option ImgBad := l.findSome? id

def refuseIf (c : Bool) (b : ImgBad) : Option ImgBad := if c then some b else none
def refuseFirst {α : Type} (l : List α) (bad : α → Bool) (name : α → ImgBad) : Option ImgBad := (l.find? bad).map name

/-! ### What a regional image makes of the loaded one (R356) -/

/-- The groups that an image defines anew. -/
def inRegionOf (d : ImageDesc) (g : ImgGroup) : Bool :=
  match d.kind with
  | 0 => true
  | 1 => g.half == d.region
  | _ => g.idx == d.region

/-- The image as it stands after a regional apply: its own sections with the loaded ones. -/
def combined (s : State) (d : ImageDesc) : ImageDesc :=
  match s.img with
  | none => d
  | some i =>
    if d.kind = 0 then d
    else
      let old := (i.groups.filter (inRegionOf d)).flatMap fun g => g.cores
      let new := d.groups.flatMap fun g => g.cores
      let gone := fun (c : Nat) => old.contains c || new.contains c
      { i with groups := i.groups.filter (fun g => !inRegionOf d g) ++ d.groups,
               instrs := i.instrs.filter (fun x => !gone x.core) ++ d.instrs,
               liveRanges := i.liveRanges.filter (fun x => !gone x.core) ++ d.liveRanges,
               listBytes := i.listBytes.filter (fun x => !gone (x.1 / 2 ^ 21)) ++ d.listBytes,
               detours := if d.detours.isEmpty then i.detours
                 else i.detours.filter (fun x => !(d.groups.any fun g => g.half == routerHalf x.router)) ++ d.detours,
               detoursOk := d.detoursOk, minCores := d.minCores, minVaults := d.minVaults, needs := d.needs, fabNeeds := d.fabNeeds }

/-! ### Phase 1 (R350, R357, R367) -/

def areaUsed (s : State) : Nat := (s.wts.area.map fun x => x.2).sum

/-- TOTAL_BYTES breaks R350, or the image area is full. -/
def sizeBad (s : State) (d : ImageDesc) : Bool :=
  d.totalBytes == 0 || d.totalBytes % 64 != 0 || decide ((if d.kind = 0 then 2 ^ 28 else 2 ^ 26) < d.totalBytes) ||
  decide (2 ^ 30 < areaUsed s + d.totalBytes)

/-! ### Phase 2 (R357) -/

def headerRegionOk (d : ImageDesc) : Bool :=
  match d.kind with
  | 0 => d.region == 0
  | 1 => decide (d.region < 2)
  | 2 => decide (d.region < 64)
  | _ => false

/-- R357, R358: phase 2; ACCESS_DENIED names HEADER or the section. -/
def verifyImage (s : State) (p : Port) (d : ImageDesc) : Option ImgBad :=
  let header : ImgBad := ⟨0x23, 2, 0x0C, noItem⟩
  firstBad
    [refuseIf (!d.hdrOk || !headerRegionOk d) header,
     d.badSection.map fun x => ⟨0x23, 5, x.1 % 256, x.2⟩,
     refuseIf (!d.signatureOk) header,
     refuseIf (!leaseActive s d.lease || !leaseBound s d.lease p || !ideOk s d.lease p || !d.keyOk) header,
     refuseIf (d.kind == 0 && !d.digestsOk) header]

/-! ### Phase 3 (R71, R105, R109, R112, R113, R120, R145, R167, R184, R209, R281, R309) -/

/-- R71: two stochastic conversions of one layer with one STREAM. -/
def streamClash : List LogicalConv → Option LogicalConv
  | [] => none
  | c :: t =>
    if ctlRound c.ctl && t.any (fun x => x.layer == c.layer && ctlRound x.ctl && ctlStream x.ctl == ctlStream c.ctl) then some c
    else streamClash t

/-- R71: the instruction that a clash names. -/
def clashIns (i : ImageDesc) (c : LogicalConv) : ImgBad :=
  match i.instrs.find? fun x => x.layer == c.layer && x.op == .convert c.ctl with
  | some x => badIns x
  | none => ⟨0x12, 4, 0, 0⟩

/-- R109, R120: an instruction with a reserved value. -/
def insBad (x : ImgInstr) : Bool :=
  match x.op with
  | .reserved => true
  | .pass f16 row m wfmt => decide (128 ≤ row) || decide (128 ≤ m) || decide (128 < row + m + 1) || decide ((if f16 then 3 else 4) < wfmt)
  | .wait units count => decide (32 ≤ units) || decide (32 < count)
  | .eng e _ => decide (5 < e)
  | _ => false

/-- R112: VARY is set on a ROUTE under NO_WAIT and a Poppy request with hardware entropy, and on nothing else. -/
def varyBad (x : ImgInstr) : Bool :=
  let due := match x.op with | .route p => p.noWait | .eng e entropy => e == 4 && entropy | _ => false
  x.vary != due

/-- R105: the layers whose A8 conversions name TRAP. -/
def a8Convs (i : ImageDesc) : List LogicalConv := i.convs.filter fun c => c.a8 && !c.kv

def policyMixed (i : ImageDesc) : Option LogicalConv :=
  (a8Convs i).find? fun c => (a8Convs i).any fun x => x.layer == c.layer && bitsAt x.ctl 5 2 != bitsAt c.ctl 5 2

def trapBare (i : ImageDesc) : Option LogicalConv :=
  (a8Convs i).find? fun c => bitsAt c.ctl 5 2 == 2 && !(i.instrs.any fun x => x.layer == c.layer && x.op == .fallbackEntry)

/-- R145: ROUTE instructions agree with the layers' policies, one to a layer. -/
def routesOf (i : ImageDesc) (layer : Nat) : List ImgInstr :=
  i.instrs.filter fun x => x.layer == layer && (match x.op with | .route _ => true | _ => false)

def routeBad (i : ImageDesc) (x : ImgInstr) : Bool :=
  match x.op with
  | .route p => !(i.routes.contains p) || p.layer != x.layer || (routesOf i x.layer).length != 1
  | _ => false

def inLayers (i : ImageDesc) (l : Nat) : Bool := decide (i.serving.firstLayer ≤ l) && decide (l ≤ i.serving.lastLayer)

/-- R167: an attention policy breaks its limits. -/
def attBad (p : AttPolicy) : Bool :=
  !(decide (1 ≤ p.qHeads) && decide (p.qHeads ≤ 4095) && decide (1 ≤ p.kvHeads) && decide (p.kvHeads ≤ 4095) && p.qHeads % p.kvHeads == 0 &&
    p.group == p.qHeads / p.kvHeads && decide (1 ≤ p.group) && decide (p.group ≤ 16) && decide (1 ≤ p.headDim) && decide (p.headDim ≤ 256) &&
    p.rotDims % 2 == 0 && decide (p.rotDims ≤ p.headDim) && (p.mask == 1 || (p.mask == 2 && decide (1 ≤ p.window) && decide (p.window ≤ 1048576))))

/-- R307, R309: a job window. -/
def windowBad (i : ImageDesc) (w : JobWin) : Bool :=
  let inDram := decide (w.dev + w.len ≤ 2 ^ 38)
  let inTiered := decide (tierBase ≤ w.dev) && decide (w.dev + w.len ≤ tierBase + 2 ^ 42)
  let writes := w.store || w.atomic || w.reduce || w.mcast || w.bulkW
  let clash := i.windows.any fun x => x.job == w.job && x != w && decide (x.offset < w.offset + w.len) && decide (w.offset < x.offset + x.len)
  w.offset % 64 != 0 || w.len % 64 != 0 || decide (w.len < 64) || clash || decide (1 < (i.windows.filter (· == w)).length) ||
  !(inDram || inTiered) || (writes && (inTiered || overlaps i.vmap.frames w.dev w.len || overlaps i.vmap.ctxRegion w.dev w.len)) ||
  w.lease != i.lease

/-- R209: a store whose destination is no step scratch. -/
def storeBad (i : ImageDesc) (x : ImgInstr) : Bool :=
  match x.op with
  | .store a => !(i.vmap.scratch.any fun r => inRegion r a 1)
  | _ => false

def lrBad (i : ImageDesc) (x : ImgInstr) : Bool := x.cheap && !(i.liveRanges.any fun l => l.core == x.core && l.index == x.lrIndex)

/-- The rules of the other chapters, in the order R357 lists them. -/
def ruleChecks (i : ImageDesc) : List (Option ImgBad) :=
  [refuseFirst i.instrs (fun x => match x.op with | .convert c => !ctlOk c | _ => false) badIns,
   (streamClash i.convs).map (clashIns i),
   (policyMixed i).map fun c => badLayer c.layer,
   (trapBare i).map fun c => badLayer c.layer,
   refuseFirst i.instrs insBad badIns,
   refuseFirst i.instrs varyBad badIns,
   refuseFirst i.instrs (lrBad i) badIns,
   refuseFirst i.instrs (routeBad i) badIns,
   refuseFirst i.routes (fun p => inLayers i p.layer && (routesOf i p.layer).isEmpty) fun _ => ⟨0x12, 4, 0, 0⟩,
   refuseFirst i.att attBad fun p => badLayer p.layer,
   refuseFirst i.instrs (storeBad i) badIns,
   refuseIf (!i.detoursOk || i.detours.any fun x => decide (32 < (i.detours.filter fun y => y.router == x.router).length)) (badField 2 noItem),
   refuseFirst i.windows (windowBad i) fun w => badField 3 w.job]

/-! ### The combination table (R360) -/

def layerGroups (i : ImageDesc) (l : Nat) : Nat :=
  (i.groups.filter fun g => g.role == 0 && decide (g.firstLayer ≤ l) && decide (l ≤ g.lastLayer)).length

def groupBad (i : ImageDesc) (g : ImgGroup) : Bool :=
  g.cores.isEmpty || g.cores.any fun c => c / 96 != g.half || (i.groups.any fun h => h.idx != g.idx && h.cores.contains c)

def draftBad (i : ImageDesc) (g : ImgGroup) : Bool :=
  g.role == 1 && (i.serving.firstLayer != 0 || decide (1 < (i.groups.filter fun h => h.role == 1).length))

def twoRacks (l : List Nat) : Bool := l.any fun x => rackOf x != rackOf (l.headD 0)

/-- R360: a regional image needs the loaded image that it belongs to. -/
def regionBad (s : State) (d : ImageDesc) : Bool :=
  d.kind != 0 && (match s.img with | none => true | some i => d.module != i.module || d.logical != i.logical)

def comboChecks (s : State) (d i : ImageDesc) : List (Option ImgBad) :=
  let v := i.serving
  [refuseIf (v.prefixMode == 1 && decide (16 < i.plan.length)) (badField 1 noItem),
   refuseIf (v.archive && v.prefixMode == 0) (badField 4 noItem),
   refuseIf (v.archive && i.vmap.archiveExtents.isNone) (badField 4 noItem),
   refuseIf (!v.streamOk && !v.stopOk) (badField 5 noItem),
   refuseIf (v.speculation && decide (v.stepRows < 9)) (badField 6 noItem),
   refuseIf (v.lcRows == 0 || decide (v.stepRows < v.lcRows)) (badField 7 noItem),
   refuseIf (v.capture != i.capMap.isSome) (badField 8 noItem),
   refuseIf (if v.prefixMode == 2 then decide (v.prefixRecords < 1) || decide (65536 < v.prefixRecords) else v.prefixRecords != 0) (badField 1 noItem),
   refuseIf (decide (v.lastLayer < v.firstLayer) || decide (v.modelLayers ≤ v.lastLayer)) (badField 0x0A noItem),
   refuseFirst i.groups (groupBad i) fun g => badField 0x0A g.idx,
   refuseFirst ((List.range (v.lastLayer + 1 - v.firstLayer)).map (· + v.firstLayer)) (fun l => layerGroups i l != 1) badLayer,
   refuseFirst i.groups (draftBad i) fun g => badField 0x0A g.idx,
   refuseFirst i.mcast (fun m => twoRacks m.members) fun m => badField 9 m.group,
   refuseIf (regionBad s d) (badField 0x0B noItem)]

/-- R357: phase 3. -/
def structureOf (s : State) (d : ImageDesc) : Option ImgBad :=
  if regionBad s d then
    -- with no image of its own module to stand with, what the regional image itself holds is checked
    firstBad [refuseFirst d.instrs (fun x => match x.op with | .convert c => !ctlOk c | _ => false) badIns, refuseFirst d.instrs insBad badIns,
      refuseFirst d.instrs varyBad badIns, refuseFirst d.instrs (lrBad d) badIns, refuseFirst d.groups (groupBad d) fun g => badField 0x0A g.idx,
      some (badField 0x0B noItem)]
  else
    let i := combined s d
    firstBad (ruleChecks i ++ comboChecks s d i)

/-! ### Phase 4 (R359) -/

/-- The lowest number that a check names. -/
def lowest (l : List Nat) : Nat := match l with | [] => noItem | a :: t => t.foldl min a

def extentRanges (i : ImageDesc) : List (Nat × Nat) :=
  (i.vmap.genRange ++ [i.vmap.smallRange] ++ i.vmap.archiveExtents.toList).filter fun r => decide (0 < r.2)

def rangeClear : List (Nat × Nat) → Bool
  | [] => true
  | r :: t => t.all (fun q => decide (r.1 + r.2 ≤ q.1) || decide (q.1 + q.2 ≤ r.1)) && rangeClear t

/-- R264: the bytes that the largest live-range record of a core saves. -/
def recordSave (l : LiveRange) : Nat := (l.sram.map fun r => r.2).sum + (l.rows.map fun r => r.2 * 128 * 32).sum

def saveNeed (i : ImageDesc) : Nat :=
  ((i.liveRanges.map fun l => l.core).dedup.map fun c => ((i.liveRanges.filter fun l => l.core == c).map recordSave).foldl max 0).sum

/-- A region lies in the DRAM direct window, clear of the frames. -/
def regionFits (i : ImageDesc) (r : Region) : Bool :=
  r.len == 0 || (decide (r.base + r.len ≤ 2 ^ 38) && !overlaps i.vmap.frames r.base r.len)

def poolFits (i : ImageDesc) : Bool :=
  decide (1 ≤ i.serving.kvPoolPages) && regionFits i ⟨i.vmap.poolBase, i.serving.kvPoolPages * i.vmap.pageBytes⟩

def frameCount (i : ImageDesc) : Nat := i.vmap.frames.len / extentBytes

/-- R359: phase 4, on the image as it will stand. -/
def fitOf (s : State) (i : ImageDesc) : Option ImgBad :=
  let cores := (mappedCores i).filter fun c => coreFenced s c || getBit s (Reg.NOC_FENCE_PENDING (c / 32)) (c % 32)
  let vaults := (mappedVaults i).filter fun v => vaultRetired s v || getF s (vaultState v) == 1
  let halves := [0, 1].filter fun h => (i.groups.any (fun g => g.half == h) || decide (0 < i.vmap.commonsRegion.getD h 0)) && s.boot.commonsOut.contains h
  let cards := [0, 1].filter fun n => getF s (cardState n) != 2
  let ports := [0, 1].filter fun n => bit i.needs (2 + n) && !getBit s Reg.ID_RESOURCES_HOST_PORTS n
  let fabs := (List.range 8).filter fun n => bit i.fabNeeds n && !getBit s Reg.ID_RESOURCES_FAB_PORTS n
  let pins := i.vmap.pinFrames.sum
  let f := frameCount i
  firstBad
    [refuseIf (decide ((liveCores s).length < i.minCores) || !cores.isEmpty) (badRes 0x10 (lowest cores)),
     refuseIf (decide ((liveVaults s).length < i.minVaults) || !vaults.isEmpty) (badRes 0x11 (lowest vaults)),
     refuseIf (!halves.isEmpty) (badRes 0x12 (lowest halves)),
     refuseIf (!cards.isEmpty) (badRes 1 (lowest cards)),
     refuseIf (!ports.isEmpty) (badRes 0x14 (lowest ports)),
     refuseIf (!fabs.isEmpty) (badRes 0x15 (lowest fabs)),
     refuseIf (!rangeClear (extentRanges i) || (extentRanges i).any fun r => decide (976050 < r.1 + r.2)) (badRes 2 noItem),
     refuseIf (!i.vmap.scratch.all (regionFits i)) (badRes 0x16 noItem),
     refuseIf (!regionFits i i.vmap.ctxRegion) (badRes 9 noItem),
     refuseIf (!regionFits i i.vmap.saveArea || decide (i.vmap.saveArea.len < saveNeed i)) (badRes 0x0E noItem),
     refuseIf (!i.vmap.capture.toList.all (regionFits i)) (badRes 0x17 noItem),
     refuseIf (i.vmap.archiveExtents.any fun r => r.2 == 0) (badRes 0x18 noItem),
     refuseIf (!poolFits i) (badRes 0x0C noItem),
     refuseIf (decide (f < pins)) (badRes 3 noItem),
     refuseIf (decide (f < pins + i.vmap.expertFrames)) (badRes 4 noItem),
     refuseIf (decide (f < pins + i.vmap.expertFrames + i.vmap.cacheFrames)) (badRes 0x19 noItem),
     refuseIf (decide (f < pins + i.vmap.expertFrames + i.vmap.cacheFrames + i.vmap.smallFrames)) (badRes 7 noItem),
     refuseFirst [0, 1] (fun h => decide (i.vmap.commonsRegion.getD h 0 < i.vmap.commonsBytes.getD h 0)) fun h => badRes 0x12 h]

/-! ### Phase 5 (R362, R363, R366) -/

def groupState (s : State) (g : Nat) : Nat := getF s (Reg.ENG_IMG_GROUPS_GROUP g)
def setGroup (g v : Nat) (s : State) : State := setF s (Reg.ENG_IMG_GROUPS_GROUP g) v

/-- The load ends for a reason. -/
def imageRefused (b : ImgBad) (s : State) : State :=
  let back := match s.wts.imgRun with | some r => r.before | none => []
  imageEnds b.status b.kind b.code b.item (back.foldl (fun t x => setGroup x.1 x.2 t) s)

def imageDone (s : State) : State := imageEnds 0 0 0 0 s

/-- R367: the image's bytes in the image area, whose extents are PIN and RESIDENT; its lists and records in core SRAM. -/
def placeImage (d : ImageDesc) (s : State) : State :=
  let xs := (d.applyBytes.flatMap fun r => (granulesOf r.1 r.2.length).map fun g => extentOf (g * 64)).dedup.filter isImageExtent
  let s1 := xs.foldl (fun t x => setExtent t x ⟨.resident, .pin, .image, 0, 0, none, t.now, false, false, []⟩) s
  putRuns (putRuns s1 (d.applyBytes.filter fun r => inTier r.1)) (d.listBytes.map fun r => (2 ^ 64 + r.1 % (192 * 2 ^ 21), r.2))

/-- R307: the bytes of a window entry. -/
def windowBytes (w : JobWin) : List Nat :=
  leBytes 2 w.job ++ leBytes 2 w.lease ++
  [b2n w.load + 2 * b2n w.store + 4 * b2n w.atomic + 8 * b2n w.reduce + 16 * b2n w.mcast + 32 * b2n w.bulkW + 64 * b2n w.bulkR, w.racks] ++
  [0, 0] ++ leBytes 8 w.offset ++ leBytes 8 w.len ++ leBytes 8 w.dev

/-- R307: control firmware builds the job window table. -/
def writeWindows (ws : List JobWin) (s : State) : State :=
  let a := getF s Reg.FAB_WINDOW_BASE
  putDev (if devWriteOk s a 32768 then zeroRange s a 32768 else s) a (ws.flatMap windowBytes)

/-- R367: the extents of the image area are freed. -/
def freeArea (s : State) : State := { releaseExtents .image s with wts.area := [] }

/-- R362: committed prefixes, archive copies and the pool. -/
def clearPool (s : State) : State :=
  { s with prefs := [], pages := [], prefSeq := [], ctl.roots := [],
           extents := s.extents.filter fun e => match e.2.owner with | .archive _ => false | _ => true }

/-- R191, R349: ENG_KV_POOL_PAGES and CTX_CAPTURE_BASE follow the loaded image. -/
def showRegions (pages capture : Nat) (s : State) : State := setF (setF s Reg.ENG_KV_POOL_PAGES pages) Reg.CTX_CAPTURE_BASE capture

def showImage (i : ImageDesc) (s : State) : State :=
  let entry := i.serving.firstLayer == 0
  let s1 := setB (setB (setF (setF s Reg.ENG_IMG_STATE_STATE 1) Reg.ENG_IMG_SEQ i.seq) Reg.ENG_IMG_STATE_ENTRY entry)
    Reg.ENG_IMG_STATE_LAST (i.serving.lastLayer + 1 == i.serving.modelLayers)
  let s2 := setB (setF s1 Reg.ENG_IMG_STATE_PREFIX_MODE i.serving.prefixMode) Reg.MEM_GEN_STATE_ENTRY entry
  let s3 := (List.range 8).foldl (fun t k => setF t (Reg.ENG_IMG_LOGICAL k) (i.logical.getD k 0)) (showRegions i.serving.kvPoolPages (i.vmap.capture.getD ⟨0, 0⟩).base s2)
  (List.range 64).foldl (fun t g => setGroup g (if i.groups.any fun x => x.idx == g then 1 else 0) t) s3

/-- R362: slots and small models are kept when BINDING and every extent range are as before. -/
def keepsLoads (old new : ImageDesc) : Bool :=
  old.binding == new.binding && old.vmap.genRange == new.vmap.genRange && old.vmap.smallRange == new.vmap.smallRange &&
  old.vmap.archiveExtents == new.vmap.archiveExtents

/-- R362, R199: a kept slot's PIN extents are fetched again into the new frames. -/
def refetchPins (old new : ImageDesc) (s : State) : State :=
  { s with extents := s.extents.map fun (e : Nat × Extent) =>
      match e.2.owner with
      | .gen n => if e.2.mode == .pin && old.vmap.pinFrames.getD n 0 != new.vmap.pinFrames.getD n 0 then (e.1, { e.2 with state := .fetching }) else e
      | _ => e }

def dropLoads (s : State) : State :=
  s.wts.smalls.foldl (fun t m => freeSmall m.1 t) (emptySlot 1 (emptySlot 0 s))

/-- R362: install a WHOLE image. -/
def installWhole (d : ImageDesc) (s : State) : State :=
  let s1 := match s.img with
    | none => dropLoads s
    | some i => if keepsLoads i d then refetchPins i d s else dropLoads s
  let s2 := placeImage d (freeArea (clearPool s1))
  let s3 := showImage d { s2 with img := some d, wts.area := [(0, d.totalBytes)] }
  let s4 := distRewrite { writeWindows d.windows s3 with mesh.detoured := obstacles s3 }
  imageDone (applyPending (rediscover s4))

def noHold (s : State) : Bool := s.portion.isNone && s.finals.isEmpty && s.inbox.isEmpty && s.ctl.flights.isEmpty

/-- R362: a waiting WHOLE image at a step boundary; there is none while a portion runs. -/
def applyWhole (s : State) : State :=
  match s.wts.imgRun with
  | some ⟨_, some d, _⟩ =>
    if d.kind ≠ 0 || s.portion.isSome then s
    else if !s.ctxs.isEmpty || !noHold s || s.suspended.isSome then imageRefused (badRes 8 noItem) s
    else if s.wts.load.isSome || s.wts.switchTo.isSome || [0, 1].any (fun n => slotState s n == 1 || slotState s n == 4) then
      imageRefused (badRes 5 noItem) s
    else match fitOf s d with
      | some b => imageRefused b s
      | none => installWhole d s
  | _ => s

/-- R363, R367: the part of the image area that a regional image takes over. -/
def areaAfter (s : State) (d : ImageDesc) : List (Nat × Nat) :=
  let key := if d.kind = 1 then 1 + d.region else 8 + d.region
  let own := match s.img with | some i => (i.groups.filter (inRegionOf d)).map fun (g : ImgGroup) => 8 + g.idx | none => []
  s.wts.area.filter (fun x => x.1 != key && !(d.kind == 1 && own.contains x.1)) ++ [(key, d.totalBytes)]

/-- R363: install a HALF or GROUP image. -/
def installRegional (d : ImageDesc) (s : State) : State :=
  let i := combined s d
  let was := match s.img with | some o => (o.groups.filter (inRegionOf d)).map fun (g : ImgGroup) => g.idx | none => []
  let s1 := placeImage d { s with img := some i, wts.area := areaAfter s d }
  let s2 := was.foldl (fun t g => setGroup g 0 t) s1
  let s3 := d.groups.foldl (fun t g => setGroup g.idx 1 t) s2
  let s4 := if d.detours.isEmpty then s3
    else distRewrite (setF { s3 with mesh.detoured := obstacles s3 } Reg.NOC_DETOUR_SEQ (getF s3 Reg.NOC_DETOUR_SEQ + 1))
  imageDone (applyPending s4)

/-- R363: a waiting HALF or GROUP image, with no portion running or suspended. -/
def applyRegional (s : State) : State :=
  match s.wts.imgRun with
  | some ⟨_, some d, _⟩ =>
    if d.kind = 0 || s.portion.isSome || s.suspended.isSome then s
    else if regionBad s d then imageRefused (badField 0x0B noItem) s
    else match fitOf s (combined s d) with
      | some b => imageRefused b s
      | none => installRegional d s
  | _ => s

/-- R366: the module holds no image. -/
def dropImage (s : State) : State :=
  let s1 := clearPool (dropLoads (freeArea { s with img := none }))
  let s2 := setF (setF (setF (setF s1 Reg.ENG_IMG_STATE_STATE 0) Reg.ENG_IMG_STATE_ENTRY 0) Reg.ENG_IMG_STATE_LAST 0) Reg.ENG_IMG_STATE_PREFIX_MODE 0
  let s3 := (List.range 8).foldl (fun t k => setF t (Reg.ENG_IMG_LOGICAL k) 0) (setF (setF (showRegions 0 0 s2) Reg.MEM_GEN_STATE_ENTRY 0) Reg.ENG_IMG_SEQ 0)
  rediscover ((List.range 64).foldl (fun t g => setGroup g 0 t) s3)

/-! ### The commands -/

/-- R357: GO; a GO that finds BUSY set is discarded (R365). -/
def execImageGo (p : Port) (s : State) : Res :=
  .next (viaPf0 s p fun s =>
    if getB s Reg.ENG_IMG_STATUS_BUSY then s
    else
      let s1 := setF (setF (setF s Reg.ENG_IMG_STATUS_BUSY 1) Reg.ENG_IMG_STATUS_PHASE 1) Reg.ENG_IMG_STATUS_PROGRESS 0
      { s1 with wts.imgRun := some ⟨p, none, []⟩ })

/-- R365: ABORT in phases 1 to 4; in phase 5 it is discarded. -/
def execImageAbort (p : Port) (s : State) : Res :=
  .next (viaPf0 s p fun s =>
    match s.wts.imgRun with
    | some ⟨_, none, _⟩ => imageRefused ⟨0x23, 0, 0, 0⟩ s
    | _ => s)

/-- R357: the fetch has ended and phases 2 to 4 run; an image that passes them awaits its boundary. -/
def execImageFetchDone (ok : Bool) (d : ImageDesc) (s : State) : Res :=
  .next (match s.wts.imgRun with
    | some ⟨p, none, _⟩ =>
      let s1 := setF (setF s Reg.ENG_IMG_STATUS_KIND d.kind) Reg.ENG_IMG_STATUS_PROGRESS 100
      let at0 := fun (n : Nat) => setF s1 Reg.ENG_IMG_STATUS_PHASE n
      if !ok then imageRefused ⟨0x23, 0, 0, 0⟩ s
      else if sizeBad s d then imageRefused (badRes 0x13 noItem) (setF s Reg.ENG_IMG_STATUS_KIND d.kind)
      else match verifyImage s p d with
        | some b => imageRefused b (at0 2)
        | none => match structureOf s d with
          | some b => imageRefused b (at0 3)
          | none => match fitOf s (combined s d) with
            | some b => imageRefused b (at0 4)
            | none =>
              let gs := if d.kind = 0 then [] else d.groups.map fun g => (g.idx, groupState s g.idx)
              let s2 := gs.foldl (fun t g => setGroup g.1 2 t) (at0 5)
              { s2 with wts.imgRun := some ⟨p, some d, gs⟩ }
    | _ => s)

/-- R362: the boundary applies a WHOLE image. -/
def execWholeApply (s : State) : Res := .next (if stageAlive s then applyWhole s else s)

/-- R363: the boundary applies a HALF or GROUP image. -/
def execRegionalApply (s : State) : Res := .next (if stageAlive s then applyRegional s else s)

end Sys2Proof.Machine
end

