-- ==== Sys2Proof/Machine/Sash.lean ====
section
/-!
DEFINITION. Machine/Sash.lean: the MOV instruction and Sash's descriptors (R138 to R142).
-/
namespace Sys2Proof.Machine

/-! ### Descriptors (R139, R140) -/

/-- R140: a descriptor's fields. -/
structure Desc where
  op : Nat
  srcSp : Nat
  dstSp : Nat
  order : Bool
  mcast : Bool
  notify : Bool
  tile : Nat
  wfmt : Nat
  nb : Nat
  src : Nat
  dst : Nat
  len : Nat
  rows : Nat
  srcStride : Nat
  dstStride : Nat
  srcCore : Nat
  dstCore : Nat
  target : Nat
  job : Nat
  hd : Nat
  notifyAddr : Nat
deriving DecidableEq, Repr

def parseDesc (bs : List Nat) : Desc :=
  let b := fun (i : Nat) => bs.getD i 0
  { op := b 0, srcSp := bitsAt (b 1) 0 4, dstSp := bitsAt (b 1) 4 4, order := bit (b 2) 0, mcast := bit (b 2) 2, notify := bit (b 2) 3,
    tile := bitsAt (b 3) 0 3, wfmt := bitsAt (b 3) 3 3, nb := bitsAt (b 4) 0 4, src := fieldAt bs 8 8, dst := fieldAt bs 16 8,
    len := fieldAt bs 24 4, rows := if b 0 = 2 then fieldAt bs 28 2 + 1 else 1, srcStride := if b 0 = 2 then fieldAt bs 32 4 else 0,
    dstStride := if b 0 = 2 then fieldAt bs 36 4 else 0, srcCore := b 40, dstCore := b 41, target := b 42 % 128,
    job := fieldAt bs 44 2 % 4096, hd := b 46 % 8, notifyAddr := fieldAt bs 48 8 }

def sashQueue (s : State) (h : Half) : List SashEnt := smGet [] s.sashQ (halfNum h)
def setSashQueue (s : State) (h : Half) (q : List SashEnt) : State := { s with sashQ := smSet [] s.sashQ (halfNum h) q }

/-- R139: the model address of a MOV instruction's first descriptor. -/
def descBase (c granule : Nat) (commons : Bool) : Nat :=
  if commons then recBase (coreHalf c) granule else sramAddr c (granule % 2 ^ 15 * 64)

/-- R139, R206: hand the descriptors to the core's half.  One that fails its check is a detection and no descriptor. -/
def movEnqueue (i : Ins) (granule : Nat) (commons : Bool) (n : Nat) (s : State) : State :=
  let h := coreHalf i.core
  let a := descBase i.core granule commons
  let first := s.fab.next
  let bad := (granulesOf a (64 * n)).filter (marked s)
  let es := (List.range n).map fun k =>
    let d := a + 64 * k
    (⟨i.core, i.index, if marked s (d / 64) then List.replicate 64 0 else rdBytes s d 64, none, false, first + k, 0, first, i.layer⟩ : SashEnt)
  let s1 := localDetect bad s
  grantTo { setSashQueue s1 h (sashQueue s1 h ++ es) with fab.next := first + n } (32 + halfNum h) 194 i.core

/-- R139, R122: MOV hands 1 to 64 descriptors to Sash; it stalls while the queue has no room for them. -/
def execMov (i : Ins) (descGranule : Nat) (commons : Bool) (countMinus1 : Fin 64) (s : State) : Res :=
  let n := countMinus1.val + 1
  .next (if (stallCause i (some .mov) s).isNone && !coreFenced s i.core && decide (64 < (sashQueue s (coreHalf i.core)).length + n) then
      stalled i.core 1 s
    else issueWith i (some .mov) ⟨4, 0, 7⟩ false (movEnqueue i descGranule commons n) s)

/-! ### Checks (R141, R209) -/

/-- R135: the code bytes of a weight block. -/
def wBlockBytes (wfmt : Nat) : Nat := [8, 7, 16, 32, 32].getD wfmt 32

/-- R141: the bytes of the tile that TILE names; 0 for raw bytes. -/
def tileBytes (d : Desc) : Nat :=
  match d.tile with
  | 1 => 512 * (wBlockBytes d.wfmt + 1)
  | 2 => 20992
  | 3 => 2112 * d.nb
  | _ => 0

def isPage (d : Desc) : Bool := d.op == 4 || d.op == 5

/-- The bytes that each row reads and writes. -/
def srcBytes (d : Desc) : Nat := if isPage d then 2 * 2112 * d.nb else d.len
def rowSrc (d : Desc) (r : Nat) : Nat := d.src + r * d.srcStride
def rowDst (d : Desc) (r : Nat) : Nat := d.dst + r * d.dstStride

/-- An address range within a space, as a source or (R194, R209) as a destination. -/
def spaceOk (s : State) (sp core a n : Nat) (write : Bool) : Bool :=
  match sp with
  | 0 => decide (a + n ≤ 2 ^ 64)
  | 1 => decide (a + n ≤ 2 ^ 64)
  | 2 => if write then devWriteOk s a n && scratchOk s a n else devReadOk s a n
  | 3 => decide (a + n ≤ 2 ^ 28)
  | 4 => decide (core < 192) && !coreFenced s core && decide (a + n ≤ 2 ^ 21)
  | 5 => decide (a + n ≤ 2 ^ 40)
  | _ => false

/-- R141: the descriptor may run. -/
def descOk (s : State) (d : Desc) : Bool :=
  let m64 := fun (n : Nat) => n % 64 == 0
  decide (1 ≤ d.op) && decide (d.op ≤ 5) && decide (d.srcSp ≤ 5) && decide (d.dstSp ≤ 5) && !(d.srcSp == 5 && d.dstSp == 5 && d.op != 3) &&
  decide (d.tile ≤ 3) && !(d.tile == 1 && decide (4 < d.wfmt)) &&
  (!(d.tile == 3 || isPage d) || (decide (1 ≤ d.nb) && decide (d.nb ≤ 8))) && (!isPage d || d.hd % 4 == 0) &&
  m64 d.src && m64 d.dst && m64 d.len && m64 d.srcStride && m64 d.dstStride && decide (64 ≤ d.len) &&
  (if isPage d then d.len == 16896 else d.tile == 0 || d.len == tileBytes d) &&
  (List.range d.rows).all fun r =>
    (d.op == 3 || spaceOk s d.srcSp d.srcCore (rowSrc d r) (srcBytes d) false) && spaceOk s d.dstSp d.dstCore (rowDst d r) d.len true

/-! ### Sources -/

/-- One row of a source: its bytes, and the 64-byte pieces of it that fail their detection code; none where the host
does not return it. -/
structure SrcRow where
  s : State
  data : List Nat
  bad : List Nat

def modelAddr (sp core a : Nat) : Nat :=
  match sp with
  | 3 => commonsAddr a
  | 4 => sramAddr core a
  | _ => a

/-- R142: Sash's own reads are no local poison source: the consumer's detection is. -/
def keepPoison (old : State) (s : State) : State :=
  { s with portion := s.portion.map fun p => match old.portion with | some q => { p with poison := q.poison } | none => p }

def readRow (chk : List (Nat × Check)) (hostOk : Bool) (host : HostMem) (sp core a n : Nat) (s : State) : Option SrcRow :=
  let pieces := fun (base : Nat) (bad : List Nat) => (List.range (n / 64)).filter fun k => bad.contains (base / 64 + k)
  match sp with
  | 0 => (if portUp s .a then hostRead host .a a n else none).map fun bs => ⟨s, bs, []⟩
  | 1 => (if portUp s .b then hostRead host .b a n else none).map fun bs => ⟨s, bs, []⟩
  | 2 =>
    let r := devRead s a n chk hostOk
    let s1 := keepPoison s { r.s with refetch := r.s.refetch ++ r.stall.map fun g => ⟨g, .inStep⟩ }
    some ⟨s1, rdBytes s1 a n, pieces a r.bad⟩
  | _ =>
    let m := modelAddr sp core a
    let bad := (granulesOf m n).filter (marked s)
    some ⟨bump s Reg.MEM_SRAM_DETECT bad.length, rdBytes s m n, pieces m bad⟩

/-! ### Tiles (R135 to R138, R142) -/

/-- The layout of a tile's blocks: code bytes of a block, number of blocks, and bytes of its outlier record. -/
def tileGeom (d : Desc) : Nat × Nat × Nat :=
  match d.tile with
  | 1 => (wBlockBytes d.wfmt, 512, 0)
  | 2 => (32, 512, 8)
  | _ => (32, 64 * d.nb, 0)

/-- R142: the blocks that byte `o` of a tile belongs to. -/
def blockAt (g : Nat × Nat × Nat) (o : Nat) : Option Nat :=
  let sc := g.1 * g.2.1
  let rc := sc + g.2.1
  if o < sc then some (o / g.1) else if o < rc then some (o - sc)
  else if g.2.2 = 0 then none else some ((o - rc) / g.2.2)

/-- R142: scale 0xFF in every block that a failing piece touches. -/
def tilePoison (g : Nat × Nat × Nat) (bad : List Nat) (bs : List Nat) : List Nat :=
  let bks := (bad.flatMap fun k => (List.range 64).filterMap fun i => blockAt g (64 * k + i)).dedup
  bks.foldl (fun l b => l.set (g.1 * g.2.1 + b) 0xFF) bs

/-- R137, R138: the operand tile of two consecutive pages: token t, head-dimension block HD_BLOCK + b.  KT and VX place
their codes and scales at the same offsets.  A block beyond the head dimension is a zero block. -/
def pageTile (nb hd : Nat) (bs : List Nat) : List Nat :=
  let at0 := fun (t b : Nat) => (t / 64 * 2112 * nb, nb * (t % 64) + hd + b)
  let codes := (List.range 128).flatMap fun t => (List.range 4).flatMap fun b =>
    if hd + b < nb then (bs.drop ((at0 t b).1 + (at0 t b).2 * 32)).take 32 else List.replicate 32 0
  let scales := (List.range 128).flatMap fun t => (List.range 4).map fun b =>
    if hd + b < nb then bs.getD ((at0 t b).1 + 2048 * nb + (at0 t b).2) 0 else 0
  codes ++ scales

/-- R142: the pages that a descriptor of OP 0x04 or 0x05 reads, with failing blocks poisoned. -/
def poisonPages (d : Desc) (bad : List Nat) (bs : List Nat) : List Nat :=
  let g := (32, 64 * d.nb, 0)
  let n := 33 * d.nb
  tilePoison g (bad.filter (· < n)) (bs.take (64 * n)) ++ tilePoison g ((bad.filter (n ≤ ·)).map (· - n)) (bs.drop (64 * n))

/-- What a row delivers: its bytes, and the pieces that are delivered as marked granules. -/
def rowOut (d : Desc) (r : SrcRow) : List Nat × List Nat :=
  if isPage d then (pageTile d.nb d.hd (poisonPages d r.bad r.data), [])
  else if d.tile = 0 then (r.data, r.bad)
  else (tilePoison (tileGeom d) r.bad r.data, [])

/-! ### Destinations -/

def portOf (sp : Nat) : Port := if sp = 0 then .a else .b

/-- Write a row to a space of the module or a host. -/
def putRow (d : Desc) (r : Nat) (o : List Nat × List Nat) (s : State) : State :=
  let a := rowDst d r
  if d.dstSp < 2 then (if portUp s (portOf d.dstSp) then emit s (.hostWrite (portOf d.dstSp) a o.1) else s)
  else
    let m := modelAddr d.dstSp d.dstCore a
    setMarks (storeLocal s m o.1) (o.2.map fun k => m / 64 + k) true

/-- R315: the pieces of a row as packets: offset and bytes, at most 512. -/
def packetsOf (a n : Nat) : List (Nat × Nat) := (List.range ((n + 511) / 512)).map fun k => (a + 512 * k, min 512 (n - 512 * k))

/-- R315, R305: a bulk operation of a descriptor's packet. -/
def bulkOp (k : FabKind) (h : Half) (e : SashEnt) (d : Desc) (offset n dst ord : Nat) (payload : List Nat) (s : State) : State :=
  let phys := if k == .mstore then d.target else (remapId s d.target).getD 0
  let body := opBody k s d.job offset (if k == .bulkRead then n else 0) 0 false payload phys
  issueOp ⟨0, 255, 0, some (h, e.num), k, 0, k == .mstore, chanOf k, 0, 0, body, dst, n, false, 0, 0, false, false, false, [], false, none,
    false, 0, ord⟩ d.target s

/-- Where a bulk read delivers. -/
def bulkDst (d : Desc) (a : Nat) : Nat := if d.dstSp < 2 then hostDst (portOf d.dstSp) a else modelAddr d.dstSp d.dstCore a

/-! ### Running a descriptor (R140, R141, R315) -/

def setEnt (h : Half) (e : SashEnt) (s : State) : State :=
  setSashQueue s h ((sashQueue s h).map fun x => if x.num == e.num then e else x)

/-- R141: a refused descriptor moves nothing. -/
def refuseDesc (h : Half) (e : SashEnt) (s : State) : State :=
  engFault h 6 3 e.layer (bump (setEnt h { e with status := some 0x23 } s) Reg.ENG_SASH_REFUSED 1)

/-- R332, R306: the fabric target of a descriptor can be reached: it has a physical ID, in this rack or for an operation
that crosses. -/
def targetOk (s : State) (d : Desc) : Bool :=
  if d.dstSp = 5 && d.mcast then (match groupIds s d.target with | some l => l.all fun x => rackOf x == rackOf (myId s) | none => false)
  else match remapId s d.target with
    | some m => d.op ≤ 3 || rackOf m == rackOf (myId s)
    | none => false

/-- R315: send a descriptor's fabric packets: `rows` as (offset, bytes) for a write; nothing for a read. -/
def sendBulk (h : Half) (e : SashEnt) (d : Desc) (rows : List (Nat × List Nat)) (s : State) : State :=
  let k : FabKind := if d.mcast then .mstore else .bulkWrite
  let ps := rows.flatMap fun r => (packetsOf 0 r.2.length).map fun p => (r.1 + p.1, (r.2.drop p.1).take p.2)
  let s1 := setEnt h { e with waiting := true } s
  let s2 := (List.zip (List.range ps.length) ps).foldl (fun t x => bulkOp k h e d x.2.1 x.2.2.length 0 x.1 x.2.2 t) s1
  -- the packets of a running portion wait in the egress hold: the descriptor is complete with them there (R210)
  if s.portion.isSome && !(s2.fab.ops.any fun o => o.sash == some (h, e.num)) then
    setSashQueue s2 h ((sashQueue s2 h).map fun x => if x.num == e.num && x.waiting then { x with waiting := false, status := some x.acc } else x)
  else s2

def readBulk (h : Half) (e : SashEnt) (d : Desc) (s : State) : State :=
  let ps := (List.range d.rows).flatMap fun r => (packetsOf 0 (srcBytes d)).map fun p => (rowSrc d r + p.1, p.2, rowDst d r + p.1)
  let s1 := setEnt h { e with waiting := true } s
  (List.zip (List.range ps.length) ps).foldl (fun t x => bulkOp .bulkRead h e d x.2.1 x.2.2.1 (bulkDst d x.2.2.2) x.1 [] t) s1

/-- The rows of a descriptor as they are delivered; none where a read of the host fails. -/
def gatherRows (chk : List (Nat × Check)) (hostOk : Bool) (host : HostMem) (d : Desc) (s : State) : Option (State × List (Nat × List Nat × List Nat)) :=
  (List.range d.rows).foldl (fun acc r => acc.bind fun x =>
    if d.op = 3 then some (x.1, x.2 ++ [(r, List.replicate d.len 0, [])])
    else (readRow chk hostOk host d.srcSp d.srcCore (rowSrc d r) (srcBytes d) x.1).map fun y => (y.s, x.2 ++ [(r, rowOut d y)]))
    (some (s, []))

/-- Run a descriptor.  A read that the host fails completes it with DETECTED_UNRECOVERED, and is a local poison source. -/
def runDesc (h : Half) (chk : List (Nat × Check)) (hostOk : Bool) (host : HostMem) (e : SashEnt) (s : State) : State :=
  let d := parseDesc e.bytes
  if !descOk s d then refuseDesc h e s
  else if (d.dstSp == 5 || (d.srcSp == 5 && d.op != 3)) && !targetOk s d then
    noteStatus ⟨0, 255, 0, none, .bulkWrite, 0, false, 3, 0, 0, [], 0, 0, false, 0, 0, false, false, false, [], false,
      s.portion.map (fun p => p.hdr.step), true, 0, 0⟩ 0x23 (refuseDesc h e (bump s Reg.FAB_DENIED 1))
  else if d.srcSp = 5 && d.op != 3 then
    (if isPage d then refuseDesc h e s else readBulk h e d s)
  else match gatherRows chk hostOk host d s with
    | none => addPoison (.memory 0) (setEnt h { e with status := some 0x31 } s)
    | some (s1, rows) =>
      -- data that leaves the module cannot be met later as a failing granule
      let leaves := d.dstSp = 5 ∨ d.dstSp < 2
      let s2 := if leaves && rows.any (fun r => !r.2.2.isEmpty) then addPoison (.memory 0) s1 else s1
      if d.dstSp = 5 then sendBulk h e d (rows.map fun r => (rowDst d r.1, r.2.1)) s2
      else setEnt h { e with status := some 0 } (rows.foldl (fun t r => putRow d r.1 r.2 t) s2)

/-- R140, R141: descriptors of one requester start in queue order; with ORDER, after every earlier one has completed; 16
run at a time. -/
def startable (h : Half) (s : State) (e : SashEnt) : Bool :=
  let q := sashQueue s h
  let before := (q.takeWhile fun x => x.num != e.num).filter fun x => x.src == e.src
  let started := fun (x : SashEnt) => x.waiting || x.status.isSome
  !started e && (if (parseDesc e.bytes).order then before.isEmpty else before.all started) &&
  decide ((q.filter started).length < 16)

/-- Sash starts the first descriptor of the queue that may start, if it is of this kind. -/
def startDesc (op : Nat) (h : Half) (chk : List (Nat × Check)) (hostOk : Bool) (host : HostMem) (s : State) : State :=
  match (sashQueue s h).find? fun e => startable h s e && (parseDesc e.bytes).op == op with
  | some e => runDesc h chk hostOk host e s
  | none => s

/-- R140: COPY. -/
def execCopy (half : Half) (chk : List (Nat × Check)) (hostOk : Bool) (host : HostMem) (s : State) : Res :=
  .next (startDesc 1 half chk hostOk host s)
/-- R140: COPY_2D. -/
def execCopy2d (half : Half) (chk : List (Nat × Check)) (hostOk : Bool) (host : HostMem) (s : State) : Res :=
  .next (startDesc 2 half chk hostOk host s)
/-- R140: FILL_ZERO. -/
def execFillZero (half : Half) (s : State) : Res := .next (startDesc 3 half [] false ⟨[], []⟩ s)
/-- R138: PAGE_TO_KT. -/
def execPageToKt (half : Half) (chk : List (Nat × Check)) (hostOk : Bool) (host : HostMem) (s : State) : Res :=
  .next (startDesc 4 half chk hostOk host s)
/-- R138: PAGE_TO_VX. -/
def execPageToVx (half : Half) (chk : List (Nat × Check)) (hostOk : Bool) (host : HostMem) (s : State) : Res :=
  .next (startDesc 5 half chk hostOk host s)

/-- R141: a descriptor's STATUS byte; a NOTIFY_ADDR that Sash may not write takes nothing (R209). -/
def notifyDesc (d : Desc) (st : Nat) (s : State) : State :=
  if d.notify && devWriteOk s d.notifyAddr 1 && scratchOk s d.notifyAddr 1 then storeLocal s d.notifyAddr [st] else s

/-- R139, R141: the descriptor at a place of the queue completes; its MOV instruction completes with its last one.  A
descriptor with a reserved OP is refused when its turn comes. -/
def execSashDescriptorDone (half : Half) (place : Fin 64) (latency : Nat) (s : State) : Res :=
  .next (match (sashQueue s half)[place.val]? with
    | none => s
    | some e =>
      let d := parseDesc e.bytes
      let fin := fun (st : Nat) (t : State) =>
        let t1 := notifyDesc d st (setSashQueue t half ((sashQueue t half).filter fun x => x.num != e.num))
        if (sashQueue t1 half).any fun x => x.mov == e.mov then t1 else complete e.src .mov e.index latency t1
      match e.status with
      | some st => fin st s
      | none => if startable half s e && (d.op == 0 || decide (5 < d.op)) then fin 0x23 (refuseDesc half e s) else s)

end Sys2Proof.Machine
end

