-- ==== Sys2Proof/Machine/Portions.lean ====
section
/-!
DEFINITION. Machine/Portions.lean: how a module's portion of a step starts, ends, is replayed and leaves, what is counted and
captured when it is final, and how a step arrives from the module before (R162, R174, R210, R211, R230, R234, R235, R263,
R324, R347, R400).
-/
namespace Sys2Proof.Machine

/-! ### Start (R210, R262) -/

/-- A portion starts: its header is in the input hold and the cores begin their lists; what the cores saved of a suspended
portion stays. -/
def startPortion (h : StepHeader) (leases : List Nat) (s : State) : State :=
  { s with barriers := [],
           cores := s.cores.map fun c => (c.1, { c.2 with nextIndex := 0, stall := 7, stop := .run, preempt := false, inFallback := [] }),
           portion := some { hdr := h, start := s.now, leases := leases },
           ctl.lcRan := s.suspended.isSome, ctl.lcReady := false }

/-! ### Attention counts (R169, R170, R174) -/

/-- R169: query positions in a row block. -/
def blockPositions (p : AttPolicy) : Nat := (if p.headDim ≤ 128 then 128 else 64) / p.group

/-- R170, R174: (ROWS, L) of the row blocks of one KV head for `rows` positions from `pos` on. -/
def rowBlocks (p : AttPolicy) (pos rows : Nat) : List (Nat × Nat) :=
  let per := blockPositions p
  (List.range ((rows + per - 1) / per)).map fun k =>
    let n := min per (rows - k * per)
    (n * p.group, pos + k * per + n)

/-- R170: K_pad. -/
def keyPad (l : Nat) : Nat := (l + 255) / 256 * 256

/-- R174: what one request of a committed step adds to SCORED and PADDED in one layer. -/
def attAdd (p : AttPolicy) (pos rows : Nat) : Nat × Nat :=
  let bs := rowBlocks p pos rows
  (p.kvHeads * (bs.map fun b => b.1 * keyPad b.2).sum, p.kvHeads * (bs.map fun b => b.1 * (keyPad b.2 - b.2)).sum)

/-- The request runs on the image's own layers and not on a draft model (R253). -/
def onBase (s : State) (ctx : Nat) : Bool := match alGet s.ctxs ctx with | some c => c.desc.model == 0xFFFF | none => true

/-- R174, R190: the attention counts of a committed step. -/
def countAttention (h : StepHeader) (s : State) : State :=
  match s.img with
  | none => s
  | some i =>
    let adds := (h.reqs.filter fun r => onBase s r.ctx).flatMap fun r => i.att.map fun p => attAdd p r.pos0 r.rows
    let s1 := bump (bump s Reg.ENG_ATT_SCORED (adds.map Prod.fst).sum) Reg.ENG_ATT_PADDED (adds.map Prod.snd).sum
    bump s1 Reg.ENG_ATT_PREFIX_TOKENS ((h.reqs.filter fun r => r.kind == .start).map fun r => r.pos0).sum

/-! ### Aster's records (R162, R165) -/

/-- R162: the bytes of a counter-ring record. -/
def asterBytes (step : Nat) (r : RouteRec) : List Nat :=
  let n := 64 + 64 * ((r.e + 15) / 16)
  let flags := b2n r.vary + 2 * b2n r.fallback + 4 * r.gen
  let tab := (List.range r.e).flatMap fun e => leBytes 2 (r.assigned.getD e 0) ++ leBytes 2 (r.demand.getD e 0)
  leBytes 8 step ++ leBytes 2 r.layer ++ leBytes 2 r.e ++ [r.k, flags, 0, 0] ++ leBytes 4 r.tokens ++ leBytes 4 r.capacity ++
  leBytes 4 r.dropped ++ leBytes 4 r.alternate ++ leBytes 4 r.substituted ++ leBytes 4 r.fetches ++ leBytes 4 n ++
  List.replicate 20 0 ++ (tab ++ List.replicate 64 0).take (n - 64)

/-- R162, R165: a committed routing reaches the ring and the totals. -/
def commitRoute (step : Nat) (s : State) (r : RouteRec) : State :=
  let s1 := bump (bump s Reg.ENG_ASTER_DROPPED r.dropped) Reg.ENG_ASTER_ALTERNATE r.alternate
  let s2 := bump (bump s1 Reg.ENG_ASTER_SUBSTITUTED r.substituted) Reg.ENG_ASTER_FETCHES r.fetches
  ringPut asterRing (asterBytes step r) { s2 with ctl.heat := s2.ctl.heat ++ [r] }

/-! ### Capture (R347) -/

/-- R347: the ranges of the capture map within the armed layers. -/
def capRanges (s : State) : List CapRange :=
  match s.img with
  | some i => (i.capMap.getD []).filter fun r =>
      decide (getF s Reg.CTX_CAPTURE_LAYERS_FIRST ≤ r.layer) && decide (r.layer ≤ getF s Reg.CTX_CAPTURE_LAYERS_LAST)
  | none => []

def capRegion (s : State) : Region := match s.img with | some i => i.vmap.capture.getD ⟨0, 0⟩ | none => ⟨0, 0⟩

/-- R347: the directory entries, from offset `at0` of the region on. -/
def capDir : Nat → List CapRange → List Nat
  | _, [] => []
  | at0, r :: t => leBytes 2 r.layer ++ leBytes 2 r.tensor ++ leBytes 4 at0 ++ leBytes 4 r.bytes ++ [0, 0, 0, 0] ++ capDir (at0 + r.bytes) t

/-- R347: the capture region's bytes. -/
def capBytes (s : State) (step : Nat) (rs : List CapRange) : List Nat :=
  let at0 := 64 + 16 * rs.length
  let total := at0 + (rs.map fun r => r.bytes).sum
  leBytes 8 step ++ leBytes 4 rs.length ++ leBytes 4 total ++ List.replicate 48 0 ++ capDir at0 rs ++
  rs.flatMap fun r => rdBytes s (engAddr r.addr) r.bytes

/-- R347: an armed capture of a step whose portion is final. -/
def captureFinal (p : Portion) (s : State) : State :=
  if !getB s Reg.CTX_CAPTURE_CTL_ARMED || captureStep s != p.hdr.step then s
  else if p.leases.any fun l => l != getF s Reg.CTX_CAPTURE_CTL_LEASE then captureEnds 0x23 s
  else
    let rs := capRanges s
    if (capRegion s).len < 64 + 16 * rs.length + (rs.map fun r => r.bytes).sum then captureEnds 0x10 s
    else
      let s1 := setB (putDev s (capRegion s).base (capBytes s p.hdr.step rs)) Reg.CTX_CAPTURE_CTL_TAKEN true
      captureEnds 0 { s1 with wts.capLease := getF s Reg.CTX_CAPTURE_CTL_LEASE }

/-! ### Contexts at a portion's end (R188, R208, R245) -/

/-- R208: a granule of a page that the context held before this step could not be recovered. -/
def loses (s : State) (p : Portion) (c : Ctx) : Bool :=
  c.spans.any fun e => !c.stepSpans.contains e.1 && p.poison.any fun x => match x with
    | .memory g => decide (pageAddr s e.2.page ≤ g * 64) && decide (g * 64 < pageAddr s e.2.page + pageBytes s)
    | _ => false

/-- A module that is not the entry module follows the step itself: tails, what the last module emitted, commits. -/
def finalCtx (p : Portion) (st : Nat) (s : State) (r : ReqRec) : State :=
  let out := p.returns.find? fun x => x.ctx == r.ctx
  let toks := match out with | some x => x.tokens | none => []
  modCtx s r.ctx fun c =>
    { c with tail := if r.kind = .verify then c.tail else r.pos0 + r.rows,
             before := some (c.hist, c.emitted), hist := (toks.reverse ++ c.hist).take 15, emitted := c.emitted + toks.length,
             lastTok := toks.getLastD c.lastTok, commitDue := r.commit && (st == 0 || st == 0x30) }

def finalCtxs (p : Portion) (st : Nat) (s : State) : State :=
  let s1 := p.hdr.reqs.foldl (fun t r => if st = 0x31 then modCtx t r.ctx fun c => if loses t p c then { c with condemned := true } else c else t) s
  if isEntry s then s1 else (p.hdr.reqs.filter fun r => r.kind != .release).foldl (finalCtx p st) s1

/-! ### Release (R210, R243, R263) -/

/-- R210: one held operation goes out. -/
def releaseOp (s : State) (n : Nat) : State :=
  match s.fab.ops.find? fun o => o.num == n && o.held with
  | none => s
  | some o =>
    let o1 := { o with held := false, first := s.now }
    let s1 := putOp o1 s
    match (if o.mcast then o.members else [o.target]).find? (isDead s1) with
    | some d => endDead d s1 o1
    | none => fabPump s1

def isLast (s : State) : Bool := match s.img with | some i => i.serving.lastLayer + 1 == i.serving.modelLayers | none => false

/-- R243: the return message of a step; its VARY is the step's. -/
def returnOf (p : Portion) : ReturnMsg :=
  ⟨p.hdr.step, p.hdr.status, p.hdr.preemptions, p.vary || p.hdr.reqs.any (fun r => r.vary), p.returns⟩

/-- R112, R261: the header as it travels on.  The records' VARY flags are the only place that can carry the mark. -/
def headerOn (p : Portion) : StepHeader :=
  if p.vary then { p.hdr with reqs := p.hdr.reqs.map fun (r : ReqRec) => { r with vary := true } } else p.hdr

/-- R210: a final portion's egress hold and input hold are released. -/
def releasePortion (s : State) (p : Portion) : State :=
  let s1 := (egressOps p).foldl releaseOp { s with finals := s.finals.filter fun q => q.hdr.step != p.hdr.step }
  let s2 := emit s1 (if isLast s then .ret (returnOf p) else .next (headerOn p))
  { s2 with ctl.flights := s2.ctl.flights.map fun (f : Flight) =>
      if f.hdr.step = p.hdr.step then { f with left := some s2.now, vary := f.vary || p.vary } else f }

/-- R263: no step received before this one is still unreleased; the last module waits for none. -/
def mayLeave (s : State) (p : Portion) : Bool :=
  isLast s ||
  !((s.portion.toList ++ s.suspended.toList ++ s.finals).any (fun q => decide (q.hdr.step < p.hdr.step)) ||
    s.inbox.any fun h => decide (h.step < p.hdr.step))

def releaseFinals : Nat → State → State
  | 0, s => s
  | n + 1, s => match s.finals.find? (mayLeave s) with
    | some p => releaseFinals n (releasePortion s p)
    | none => s

/-! ### The end of a portion (R211, R324, R400) -/

def meanNs (l : List Nat) : Nat := if l.isEmpty then 0 else l.sum / l.length

/-- R400: PWR_PACE. -/
def pace (p : Portion) (s : State) : State :=
  let l := ((s.now - p.start) :: s.pwr.paces).take 256
  setF { s with pwr.paces := l } Reg.PWR_PACE (min (meanNs l) 0xFFFFFFFF)

/-- R210, R211: the portion is final with a status of its own. -/
def portionFinal (st : Nat) (p : Portion) (s : State) : State :=
  let q := { p with ended := true, status := st, hdr := { p.hdr with status := max p.hdr.status st } }
  let s1 := countAttention q.hdr (countEv 0xEE9 1 (releaseStepHolds p.hdr.step { s with portion := none, finals := s.finals ++ [q] }))
  let s2 := p.routes.foldl (commitRoute p.hdr.step) s1
  let s3 := pace p (captureFinal q (finalCtxs q st s2))
  let s4 := if st = 0x31 then bump s3 Reg.MEM_UNRECOVERED 1 else s3
  drainSlots (releaseFinals (s4.finals.length + 1) s4)

/-- R324, R295: a portion that ended dead, denied or with its region broken is not replayed, and nothing of it leaves. -/
def portionDies (p : Portion) (s : State) : State :=
  let s0 := if p.fabStatus = 0x31 then bump s Reg.MEM_UNRECOVERED 1 else s
  let s1 := dropEgress p { s0 with portion := none }
  drainSlots (portionFailed p.hdr.step p.fabStatus { s1 with ctl.dead := listAdd s1.ctl.dead p.hdr.step })

/-- R211: the portion is rerun from its input hold.  A master copy that exists has been read when its source was found
(R208), so none is left to restore here. -/
def rerunPortion (p : Portion) (s : State) : State :=
  let s1 := clearCores (dropEgress p (bump s Reg.MEM_REPLAY 1))
  { s1 with portion := some { p with rerun := true, poison := [], trapped := [], routes := [], egress := [], returns := [], fabStatus := 0 } }

/-- R211: a portion ends for the first time. -/
def execPortionEnd (t : Nat) (s : State) : Res :=
  .next (match s.portion with
    | none => s
    | some p =>
      let s1 := atTime t s
      if p.rerun then s
      else if p.fabStatus ≠ 0 then portionDies p s1
      else if p.failedRegion then portionFinal 0x31 p s1
      else if p.poison.isEmpty then portionFinal (if p.recovered then 0x30 else 0) p s1
      else rerunPortion p s1)

/-- R211: the rerun ends. -/
def execPortionRerunDone (t : Nat) (s : State) : Res :=
  .next (match s.portion with
    | none => s
    | some p =>
      let s1 := atTime t s
      if !p.rerun then s
      else if p.fabStatus ≠ 0 then portionDies p s1
      else portionFinal (if p.poison.isEmpty && !p.failedRegion then 0x30 else 0x31) p s1)

/-! ### A step arrives (R210, R230, R234, R235) -/

/-- R230: the slot holds the step's generation. -/
def genHeld (s : State) (h : StepHeader) : Bool :=
  let st := slotState s h.gen
  (st == 2 || st == 3 || st == 4) && getF s (genIdFld h.gen) == h.genId

/-- R234, R235: the slot that a received step names becomes ACTIVE, and its HOLD is recorded. -/
def takeGen (h : StepHeader) (s : State) : State :=
  drainSlots (setF (activate h.gen s) Reg.MEM_GEN_STATE_HOLD h.hold)

/-- R240: POINTER and HOLD of a module that is not the entry module follow every step received. -/
def noteGen (h : StepHeader) (s : State) : State := setF (setF s Reg.MEM_GEN_STATE_POINTER h.gen) Reg.MEM_GEN_STATE_HOLD h.hold

/-- R324: a packet of a step that this module has discarded before it arrived.  Steps arrive in order, so one at or below
the last step received belongs to a later use of its number (a replay, R345). -/
def lateStep (s : State) (step : Nat) : Bool := s.ctl.dead.contains step && decide (s.lastStep < step)

/-- R230: a module that is not the entry module receives a step. -/
def execStepReceive (h : StepHeader) (t : Nat) (s : State) : Res :=
  .next (if isEntry s || !stageAlive s || s.img.isNone then s
    else
      let s1 := { atTime t s with lastStep := h.step }
      if lateStep s h.step then s1
      else
        let s2 := noteGen h { s1 with ctl.dead := s1.ctl.dead.filter (· != h.step) }
        if genHeld s h then takeGen h { s2 with inbox := s2.inbox ++ [h] }
        else portionFailed h.step 0x40 (drainSlots { s2 with ctl.dead := listAdd s2.ctl.dead h.step }))

end Sys2Proof.Machine
end

