-- ==== Sys2Proof/Machine/Pages.lean ====
section
/-!
DEFINITION. Machine/Pages.lean: the four parts of a step boundary as they act on contexts and pages, the same at every module
(R178 to R189, R246, R247, R490).
-/
namespace Sys2Proof.Machine

/-! ### Part 1 and releases (R188, R246) -/

/-- R188: the tail once the pending accepted count is applied; a count that is sent again after its step has died (R189)
has been applied here already. -/
def nextTail (c : Ctx) : Nat :=
  match c.accepted with | some a => if c.drafts = 0 then c.tail else c.tail + 1 + a | none => c.tail

/-- R261: a record's accepted count is applied. -/
def applyAccepted (s : State) (r : ReqRec) : State :=
  match r.prevAccepted with
  | some a => rollback r.ctx a s
  | none => s

/-- R246: the release at the entry module: the pages and the span table go; the context stays ENDING until the step that
carries its release has returned. -/
def entryRelease (step : Nat) (s : State) (id : Nat) : State :=
  match alGet s.ctxs id with
  | none => s
  | some c =>
    let s1 := zeroRange (dropPages (freedPages s id c) s) c.table (tableBytes c.desc.maxLen)
    setCtx s1 id { c with spans := [], stepSpans := [], releaseStep := some step, drafts := 0 }

/-! ### Parts 2 and 3 (R181, R183) -/

/-- R179 part 2: commits in ascending context ID; `places` are those control firmware takes for nodes (R134). -/
def applyCommits (places : List Nat) (s : State) : State :=
  let ids := sortBy (fun a b => decide (a < b)) ((s.ctxs.filter fun c => c.2.commitDue).map Prod.fst)
  (ids.foldl (fun (acc : State × List Nat) id => commitCtx (freshPref s) id (match alGet acc.1.ctxs id with | some c => c.step | none => 0) acc)
    (s, places)).1

/-- R179 part 3: a quota change whose EFFECTIVE_STEP has been reached. -/
def quotaChange (step : Nat) (s : State) (n : Nat) : State :=
  match s.sec.ks.leases[n]? with
  | none => s
  | some l => match l.nextQuota with
    | some (q, e) => if e ≤ step then setLease s n { l with quota := q, nextQuota := none } else s
    | none => s

/-- R179 part 3, R181: quota changes, then evictions of over-quota tenants in slot order. -/
def applyQuotas (step : Nat) (s : State) : State :=
  let s1 := (List.range 16).foldl (quotaChange step) s
  s1.sec.ks.leases.foldl (fun t l => if l.st = 0 then t else evictOver l.lease (t.prefs.length + 1) t) s1

/-! ### Part 4 (R178 to R180, R188) -/

/-- The spans that rows at `pos` need and the context lacks. -/
def spansNeeded (c : Ctx) (pos rows : Nat) : List Nat := (spansOf pos rows).filter fun k => (alGet c.spans k).isNone

/-- R180, R188: pages are reserved for spans, in ascending page index; a span that takes drafts alone is provisional. -/
def reserveSpans (id step gen pos : Nat) (verify : Bool) : List Nat → State → State
  | [], s => s
  | k :: t, s =>
    match alGet s.ctxs id with
    | none => s
    | some c => match takePage (.ctx id) c.desc.lease step s with
      | none => s
      | some (p, u) =>
        let e : SpanEnt := { page := p, prov := verify && decide (pos < 64 * k), gen := gen }
        reserveSpans id step gen pos verify t (setCtx u id { c with spans := c.spans ++ [(k, e)], stepSpans := c.stepSpans ++ [k] })

/-- R180: `need` more pages for a tenant: 0 with room made for them, OVER_QUOTA, or REFUSED_FIT with nothing evicted. -/
def roomFor (lease need : Nat) (s : State) : Nat × State :=
  if need = 0 then (0, s)
  else if quotaOf s lease < usedPages s lease + need then (0x11, s)
  else match makeRoom need s with
    | some t => (0, t)
    | none => (0x10, s)

/-- R179 part 4: the pages of a live request are touched and those of its new rows reserved. -/
def livePages (id step gen pos rows : Nat) (verify : Bool) (s : State) : Nat × State :=
  match alGet s.ctxs id with
  | none => (0, s)
  | some c =>
    let need := spansNeeded c pos rows
    let r := roomFor c.desc.lease need.length (touchPages (ctxPages c) step s)
    if r.1 = 0 then (0, syncTable id (reserveSpans id step gen pos verify need r.2)) else (r.1, s)

/-- R185, R186: the matched spans of the resident prefixes are mapped as SHARED. -/
def mapMatch (id : Nat) (m : Match) (s : State) : State :=
  let es := m.prefs.flatMap fun k => match alGet s.prefs k with
    | some p => p.pages.map fun x => ({ page := x, shared := true, gen := p.gen } : SpanEnt)
    | none => []
  modCtx s id fun c => { c with spans := List.zip (List.range m.spans) es }

/-- R179 part 4: a START with a match: its prefixes are held, archived ones get pages (R187), and its new rows theirs. -/
def startWith (id step gen n : Nat) (m : Match) (s : State) : Nat × State :=
  let s1 := mapMatch id m s
  match alGet s1.ctxs id with
  | none => (0, s)
  | some c =>
    let pos := 64 * m.spans
    let need := spansNeeded { c with spans := [] } pos (n - pos)
    let back := restorePages s m
    let r := roomFor c.desc.lease (need.length + back) s1
    if r.1 ≠ 0 then (r.1, s)
    else
      let s2 := mapMatch id m (m.prefs.foldl (startRestore step) r.2)
      let held := match alGet s2.ctxs id with | some x => ctxPages x | none => []
      (0, syncTable id (reserveSpans id step gen pos false need (touchPages held step s2)))

/-- R187: a match whose archived part cannot get pages stops at its last resident span. -/
def startPages (id step gen n : Nat) (m : Match) (s : State) : Nat × Match × State :=
  let r := startWith id step gen n m s
  if r.1 = 0 ∨ restorePages s m = 0 then (r.1, m, r.2)
  else
    let m1 := residentMatch s m
    let r1 := startWith id step gen n m1 s
    (r1.1, m1, r1.2)

/-- R490, R346: a match cut to a length in spans. -/
def cutMatch (s : State) (spans : Nat) (m : Match) : Match :=
  if m.spans ≤ spans then m
  else if spans = 0 then { denied := m.denied }
  else if prefMode s = 1 then
    let ids := m.prefs.take spans
    match alGet s.prefs (ids.getLastD 0) with
    | some p => { m with prefs := ids, spans := spans, ref := p.addr, commitStep := p.commitStep }
    | none => { m with prefs := ids, spans := spans }
  else { m with spans := spans }

/-! ### A header applied by a module that is not the entry module (R178, R179) -/

/-- R245, R247: a module's own copy of a context, from the setup block of its START. -/
def newCopy (r : ReqRec) (d : ReqDesc) (st : StopSet) (s : State) : State :=
  countCtxs (setCtx s r.ctx { st := .inStep, port := .a, desc := d, stop := st, tail := r.pos0, table := (tablePlace s d.maxLen).getD 0 })

/-- What a step brings to a context beside its pages. -/
def carryStep (step : Nat) (r : ReqRec) (c : Ctx) : Ctx :=
  { c with step := step, stepPos := r.pos0, stepRows := r.rows, stepSpans := [], before := none,
           toks := c.toks.take r.pos0 ++ r.tokens, drafts := if r.kind = .verify then r.drafts.length else 0,
           commitLen := if r.commit then some r.commitLen else none, commitArchive := r.archive }

/-- R179 part 4 for one record. -/
def admitRecord (h : StepHeader) (s : State) (r : ReqRec) : State :=
  match r.kind, r.setup with
  | .release, _ => s
  | .start, some (d, st) =>
    let m := cutMatch s (r.pos0 / 64) (findMatch s d h.gen r.tokens)
    let s1 := modCtx (newCopy r d st s) r.ctx (carryStep h.step { r with pos0 := 0 })
    let o := startPages r.ctx h.step h.gen (r.pos0 + r.rows) m s1
    modCtx o.2.2 r.ctx fun c => { c with stepPos := r.pos0, stepRows := r.rows, matched := 64 * o.2.1.spans }
  | _, _ =>
    let s1 := modCtx s r.ctx (carryStep h.step r)
    if r.rows = 0 then s1 else (livePages r.ctx h.step h.gen r.pos0 r.rows (r.kind == .verify) s1).2

def byCtx (l : List ReqRec) : List ReqRec := sortBy (fun a b => decide (a.ctx < b.ctx)) l

/-- R179: the boundary of a received step. -/
def applyHeader (places : List Nat) (h : StepHeader) (s : State) : State :=
  let s1 := applyCommits places (h.reqs.foldl applyAccepted s)
  let s2 := (h.reqs.filter fun r => r.kind == .release).foldl (fun t r => releaseCtx r.ctx t) s1
  let s3 := (byCtx h.reqs).foldl (admitRecord h) (applyQuotas h.step s2)
  { s3 with ctl.applied := s3.ctl.applied ++ [h.step] }

end Sys2Proof.Machine
end

