-- ==== Sys2Proof/Machine/Admit.lean ====
section
/-!
DEFINITION. Machine/Admit.lean: submission rings, the checks of request entries and descriptors, and the candidates of a step
(R232, R248 to R258, R361, R446).
-/
namespace Sys2Proof.Machine

/-! ### Layouts (R250, R252 to R254) -/

/-- R252. -/
structure ReqEnt where
  ctx : Nat
  op : Nat
  sample : Bool
  commit : Bool
  archive : Bool
  res : Nat
  n : Nat
  tokens : Nat
  desc : Nat
  commitLen : Nat
deriving DecidableEq, Repr

def parseEnt (bs : List Nat) : ReqEnt :=
  let f := bs.getD 3 0
  ⟨fieldAt bs 0 2 % 4096, bs.getD 2 0, bit f 0, bit f 1, bit f 2, f / 8, fieldAt bs 4 4, fieldAt bs 8 8, fieldAt bs 16 8, fieldAt bs 24 4⟩

/-- R253; with AUTO as given. -/
def parseReq (bs : List Nat) : ReqDesc :=
  let f := bs.getD 20 0
  { seed := fieldAt bs 0 8, maxLen := fieldAt bs 8 4, maxNew := fieldAt bs 12 4, lease := fieldAt bs 16 2, binding := fieldAt bs 18 2,
    be := bit f 0, stopMode := bit f 1, auto := bit f 2, pin := bit f 3, entropy := bit f 4, handleEn := bit f 5, walk := bit f 6,
    model := fieldAt bs 22 2, adapter := fieldAt bs 24 2, temp := fieldAt bs 26 4, topK := fieldAt bs 30 2 % 2048,
    topP16 := fieldAt bs 32 2, client := fieldAt bs 34 2 % 4096, handle := fieldAt bs 40 8, resultAddr := fieldAt bs 48 8,
    resultEntries := fieldAt bs 56 4, stopAddr := fieldAt bs 64 8 }

/-- R254. -/
def parseStop (bs : List Nat) : StopSet :=
  ⟨(List.range (bs.getD 0 0)).map fun k => fieldAt bs (64 + 4 * k) 4,
   (List.range (bs.getD 1 0)).map fun q => (List.range (bs.getD (2 + q) 0)).map fun j => fieldAt bs (320 + 64 * q + 4 * j) 4⟩

def stopSetOk (bs : List Nat) : Bool :=
  decide (bs.getD 0 0 ≤ 64) && decide (bs.getD 1 0 ≤ 8) &&
  (List.range (bs.getD 1 0)).all fun q => decide (1 ≤ bs.getD (2 + q) 0) && decide (bs.getD (2 + q) 0 ≤ 16)

/-! ### Checks (R258, R361, R446) -/

/-- R253, R361: the descriptor holds no reserved value; `res` is bit 7 of its byte 20. -/
def descriptorOk (v : Serving) (drafts : Bool) (d : ReqDesc) (res : Bool) : Bool :=
  !res && decide (1 ≤ d.maxLen) && decide (d.maxLen ≤ 1048576) && decide (1 ≤ d.maxNew) && decide (d.topK ≤ 1024) && (tempOf d.temp).isSome &&
  (if d.stopMode then decide (d.maxNew ≤ d.resultEntries) && v.stopOk
   else [16, 32, 64, 128, 256, 512, 1024, 2048, 4096, 8192, 16384, 32768, 65536].contains d.resultEntries && v.streamOk) &&
  (!d.entropy || v.entropyOk) && !(d.handleEn && d.walk) && (!d.handleEn || v.prefixMode == 2) && (!d.walk || v.prefixMode == 1) &&
  (d.model == 0xFFFF || drafts)

/-- R252, R361: the entry holds no reserved value and NEW_TOKENS is in range. -/
def entryFieldsOk (v : Serving) (e : ReqEnt) : Bool :=
  e.res == 0 && (!e.commit || v.prefixMode != 0) && (!e.archive || v.archive) &&
  (match e.op with
   | 1 => decide (1 ≤ e.n) && decide (e.n ≤ 32768)
   | 2 => decide (1 ≤ e.n) && decide (e.n ≤ 32768)
   | 3 => decide (1 ≤ e.n) && decide (e.n ≤ 8) && v.speculation
   | 4 => e.n == 0
   | _ => false)

/-- R226: the load in a slot: none of the binding, or one that the lease does not share. -/
def loadBad (s : State) (slot : Nat) (d : ReqDesc) : List (Nat × Nat) :=
  match genLoad s slot with
  | none => [(0x40, 0)]
  | some l =>
    if l.binding ≠ d.binding then [(0x40, 0)]
    else if l.lease = d.lease ∨ l.share.contains d.lease then [] else [(0x23, 0)]

/-- R237, R239: a small model that a request names. -/
def smallBad (s : State) (kind idx lease : Nat) (new : Bool) : List (Nat × Nat) :=
  if idx = 0xFFFF then []
  else match alGet s.wts.smalls idx with
    | none => [(0x10, 0x0D)]
    | some m =>
      if m.load.kind ≠ kind ∨ (m.retiring ∧ new) then [(0x10, 0x0D)]
      else if m.load.lease = lease ∨ m.load.share.contains lease then [] else [(0x23, 0)]

/-- R237: the adapter's base. -/
def adapterBad (s : State) (slot : Nat) (d : ReqDesc) : List (Nat × Nat) :=
  if d.adapter = 0xFFFF then []
  else match alGet s.wts.smalls d.adapter with
    | some m => if m.load.kind = 2 ∧ m.load.baseGen ≠ getF s (genIdFld slot) then [(0x40, 0)] else []
    | none => []

/-- R258, R425, R446: lease, binding and client record. -/
def tenantBad (s : State) (p : Port) (d : ReqDesc) : List (Nat × Nat) :=
  let client := match alGet s.clients d.client with | some c => c.lease != 0 && c.lease != d.lease | none => false
  let bindOk := match s.img with | some i => i.binding == d.binding | none => false
  if !leaseActive s d.lease || !leaseBound s d.lease p || !ideOk s d.lease p || !bindOk || client ||
      s.ctxs.any (fun c => c.2.desc.client == d.client && c.2.desc.lease != d.lease) then [(0x23, 0)] else []

/-- R20, R258: the highest status; of several conditions with it, the first in the rule's order names the resource. -/
def worstOf (l : List (Nat × Nat)) : Nat × Nat := l.foldl (fun b x => if b.1 < x.1 then x else b) (0, 0)

def pointerSlot (s : State) : Nat := getF s Reg.MEM_GEN_STATE_POINTER

/-- R232: the slot a live request's step takes. -/
def slotOf (s : State) (c : Ctx) : Nat := if c.desc.pin then c.slot else pointerSlot s

/-- A candidate for the step: its record (with the rows it is expected to need), its slot, and, of a request entry, its port,
tag, index and waiting time.  `cut` is the length in spans that a replayed START must match (R346). -/
structure Cand where
  r : ReqRec
  slot : Nat
  entry : Bool
  port : Port := .a
  tag : Nat := 0
  index : Nat := 0
  wait : Nat := 0
  cut : Option Nat := none
deriving DecidableEq, Repr

/-- R252: the context's last emitted token; the spec states none where it has emitted none. -/
def lastToken (id : Nat) (c : Ctx) : Nat := if c.emitted = 0 then (Config.noToken id c.tail).toNat else c.lastTok

/-- The match a START would find now. -/
def matchNow (s : State) (d : ReqDesc) (slot : Nat) (toks : List Nat) (cut : Option Nat) : Match :=
  let m := findMatch s d slot toks
  match cut with | some k => cutMatch s k m | none => m

/-- R258: a START entry. -/
def checkStart (h : HostMem) (p : Port) (cut : Option Nat) (e : ReqEnt) (v : Serving) (s : State) : (Nat × Nat) × Cand :=
  let slot := pointerSlot s
  let raw := hostRead h p e.desc 128
  let d0 := parseReq (raw.getD [])
  let d := if s.ctl.replay.isSome then { d0 with auto := false } else d0
  let stopRaw := if raw.isNone || d.stopAddr = 0 then some (List.replicate 832 0) else hostRead h p d.stopAddr 832
  let toks := if e.n ≤ 32768 then hostRead h p e.tokens (4 * e.n) else some []
  let ids := (List.range e.n).map fun k => fieldAt (toks.getD []) (4 * k) 4
  let drafts := match s.img with | some i => i.groups.any fun g => g.role == 1 | none => false
  let live := alGet s.ctxs e.ctx
  let m := matchNow s d slot ids cut
  let have0 := raw.isSome
  let bad := worstOf (
    (if !entryFieldsOk v e || (have0 && !descriptorOk v drafts d (bit ((raw.getD []).getD 20 0) 7)) || !stopSetOk (stopRaw.getD []) then [(0x23, 0)] else []) ++
    (match live with | some c => if c.port = p then [] else [(0x23, 0)] | none => []) ++
    (if raw.isNone || stopRaw.isNone || toks.isNone then [(0x23, 0)] else []) ++
    (if have0 then tenantBad s p d ++ loadBad s slot d else []) ++
    (if live.isSome then [(0x10, 0x08)] else []) ++
    (if have0 && decide (d.maxLen < e.n) then [(0x10, 0x0A)] else []) ++
    (if have0 && (tablePlace s d.maxLen).isNone then [(0x10, 0x09)] else []) ++
    (if have0 then smallBad s 1 d.model d.lease true ++ smallBad s 2 d.adapter d.lease true ++ adapterBad s slot d else []) ++
    (if have0 && m.denied then [(0x23, 0)] else []))
  let pos := 64 * m.spans
  (bad, { r := ⟨e.ctx, .start, e.sample, e.commit, e.archive, d.entropy, 0, e.n - pos, pos, none, e.commitLen, [], ids,
            some (d, parseStop (stopRaw.getD []))⟩, slot := slot, entry := true, port := p, cut := cut })

/-- R258: an entry of a live context. -/
def checkLive (h : HostMem) (p : Port) (e : ReqEnt) (v : Serving) (s : State) : (Nat × Nat) × Cand :=
  let none0 : Ctx := { st := .ready, port := p, desc := parseReq [], stop := ⟨[], []⟩ }
  let live := alGet s.ctxs e.ctx
  let c := live.getD none0
  let slot := slotOf s c
  let given := e.op == 4 || (e.op == 2 && e.n == 1 && e.tokens == 0)
  let raw := if given || !entryFieldsOk v e then some [] else hostRead h p e.tokens (4 * e.n)
  let read := if given then [] else (List.range e.n).map fun k => fieldAt (raw.getD []) (4 * k) 4
  let rows := if e.op = 4 then 0 else if e.op = 3 then e.n + 1 else e.n
  let pos := nextTail c
  let kind : ReqKind := if e.op = 4 then .release else if e.op = 3 then .verify else .cont
  let toks := if e.op = 4 then [] else if e.op = 3 then lastToken e.ctx c :: read else if given then [lastToken e.ctx c] else read
  let bad := worstOf (
    (if !entryFieldsOk v e then [(0x23, 0)] else []) ++
    (if live.isSome && c.port != p then [(0x23, 0)] else []) ++
    (if raw.isNone then [(0x23, 0)] else []) ++
    (if live.isSome then tenantBad s p c.desc ++ (if e.op = 4 then [] else loadBad s slot c.desc) else []) ++
    (if live.isNone || c.st != .ready || (c.desc.auto && e.op != 4) then [(0x10, 0x08)] else []) ++
    (if live.isSome && decide (c.desc.maxLen < pos + rows) then [(0x10, 0x0A)] else []) ++
    (if live.isSome && e.op != 4 then
      smallBad s 1 c.desc.model c.desc.lease false ++ smallBad s 2 c.desc.adapter c.desc.lease false ++ adapterBad s slot c.desc else []))
  (bad, { r := ⟨e.ctx, kind, e.sample, e.commit, e.archive, c.desc.entropy && e.op != 4, 0, rows, pos, c.accepted, e.commitLen,
            if e.op = 3 then read else [], toks, none⟩, slot := slot, entry := true, port := p })

def servingOf (s : State) : Serving := match s.img with | some i => i.serving | none => ⟨0, false, false, false, false, false, false, 0, 0, 0, 0, 0, 0, 0⟩

/-- R258: one request entry, against the contexts as they are with what the boundary has placed so far. -/
def checkEntry (h : HostMem) (p : Port) (cut : Option Nat) (e : ReqEnt) (s : State) : (Nat × Nat) × Cand :=
  if e.op = 1 then checkStart h p cut e (servingOf s) s else checkLive h p e (servingOf s) s

/-! ### Placing (R245, R257) -/

/-- R245, R257: the candidate's context is placed: its three completion records are reserved. -/
def place (k : Cand) (s : State) : State :=
  match k.r.kind, k.r.setup with
  | .start, some (d, st) =>
    countCtxs (setCtx s k.r.ctx { st := .inStep, port := k.port, desc := d, stop := st, tail := 0, table := (tablePlace s d.maxLen).getD 0,
                                  slot := k.slot, reserved := 3 })
  | .release, _ => modCtx s k.r.ctx fun c => { c with st := .ending, endStatus := 0, endReason := 4, reserved := 3 }
  | _, _ => modCtx s k.r.ctx fun c => { c with st := .inStep, reserved := 3 }

/-! ### Filling the step (R249 to R251, R256, R257) -/

/-- What the boundary has taken so far: the trial state, the candidates, records that fall due, rings whose head stays, rows in
all and LC rows. -/
structure Fill where
  s : State
  cands : List Cand := []
  recs : List CplRec := []
  stay : List Nat := []
  rows : Nat := 0
  lc : Nat := 0

def isBe (s : State) (k : Cand) : Bool := match k.r.setup with
  | some (d, _) => d.be
  | none => match alGet s.ctxs k.r.ctx with | some c => c.desc.be | none => true

/-- R256, R354. -/
def rowsFit (f : Fill) (rows lc : Nat) : Bool :=
  decide (f.rows + rows ≤ (servingOf f.s).stepRows) && decide (f.lc + lc ≤ (servingOf f.s).lcRows)

def take1 (f : Fill) (k : Cand) : Fill :=
  { f with s := place k f.s, cands := f.cands ++ [k], rows := f.rows + k.r.rows, lc := f.lc + if isBe f.s k then 0 else k.r.rows }

def recsOf (f : Fill) (p : Port) : Nat := (f.recs.filter fun r => r.port == p).length

/-- R256 items 1 and 3: READY AUTO contexts of a class. -/
def fillAuto (h : HostMem) (be : Bool) (f : Fill) (x : Nat × Ctx) : Fill :=
  let c := x.2
  if c.st != .ready || !c.desc.auto || c.desc.be != be || f.s.ctl.replay.isSome || !ideOk f.s c.desc.lease c.port then f
  else if !rowsFit f 1 (b2n (!be)) || !cplRoom f.s c.port (3 + recsOf f c.port) || !streamRoom h c then f
  else
    let pos := nextTail c
    let wait := f.s.now - c.waitFrom.getD f.s.now
    take1 f { r := ⟨x.1, .autoDecode, true, false, false, c.desc.entropy, 0, 1, pos, c.accepted, 0, [], [lastToken x.1 c], none⟩,
              slot := slotOf f.s c, entry := false, port := c.port, wait := wait }

def byId (l : List (Nat × Ctx)) : List (Nat × Ctx) := sortBy (fun a b => decide (a.1 < b.1)) l

/-! ### Rings (R248 to R251) -/

def ringEn (s : State) (p : Port) (be : Bool) : Bool := getP s p (if be then Reg.CTX_RING_CTL_BE_EN else Reg.CTX_RING_CTL_LC_EN) == 1
def ringAt (s : State) (p : Port) (be : Bool) : Nat :=
  if be then getP s p Reg.CTX_BE_BASE_LO * 2 ^ 14 + getP s p Reg.CTX_BE_BASE_HI * 2 ^ 32
  else getP s p Reg.CTX_LC_BASE_LO * 2 ^ 14 + getP s p Reg.CTX_LC_BASE_HI * 2 ^ 32
def consFld (be : Bool) : Fld := if be then Reg.CTX_RING_CONS_BE_CONS else Reg.CTX_RING_CONS_LC_CONS
def phaseFld (be : Bool) : Fld := if be then Reg.CTX_RING_CONS_BE_PHASE else Reg.CTX_RING_CONS_LC_PHASE
def headKey (p : Port) (be : Bool) : Nat := 2 * portNum p + b2n be

/-- R248, R249: the descriptor present at a ring's head. -/
def headOf (h : HostMem) (s : State) (p : Port) (be : Bool) : Option (List Nat) :=
  if !ringEn s p be || !portUp s p || s.ctl.replay.isSome then none
  else match hostRead h p (ringAt s p be + 64 * getP s p (consFld be)) 64 with
    | some bs => if bs.getD 0 0 % 2 = getP s p (phaseFld be) then some bs else none
    | none => none

def headSt (s : State) (p : Port) (be : Bool) : HeadSt := (alGet s.ctl.heads (headKey p be)).getD {}
def setHead (p : Port) (be : Bool) (x : HeadSt) (s : State) : State := { s with ctl.heads := alSet s.ctl.heads (headKey p be) x }

/-- R270: the first boundary at which a descriptor is seen. -/
def seeHead (p : Port) (be : Bool) (s : State) : State :=
  let x := headSt s p be
  setHead p be { x with seen := some (x.seen.getD s.now) } s

/-- R248: a descriptor is consumed. -/
def consume (p : Port) (be : Bool) (s : State) : State :=
  let c := getP s p (consFld be)
  let n := (smGet 0 s.ctl.consumed (headKey p be) + 1) % 2 ^ 64
  let s1 := setP s p (consFld be) ((c + 1) % 256)
  let s2 := if c = 255 then setP s1 p (phaseFld be) (1 - getP s1 p (phaseFld be)) else s1
  let s3 := setHead p be {} { s2 with ctl.consumed := smSet 0 s2.ctl.consumed (headKey p be) n }
  countEv 0xEED 1 (emit s3 (.hostWrite p (ringAt s p be + 16384) (leBytes 8 n)))

/-- R251: the descriptor holds COUNT, ENTRIES or a reserved bit out of order. -/
def batchBad (bs : List Nat) : Bool :=
  let n := fieldAt bs 2 2 % 8192
  n == 0 || decide (4096 < n) || fieldAt bs 8 8 % 64 != 0 || decide (2 ≤ bs.getD 0 0) || bs.getD 1 0 != 0 || decide (32 ≤ bs.getD 3 0) ||
  (bs.drop 16).any fun b => b != 0

/-- R251, R267: the BATCH record. -/
def batchRecord (p : Port) (tag step0 : Nat) : CplRec := ⟨p, recBytes { kind := 5, status := 0x23, tag := tag, index := 0xFFFFFFFF, step := step0 }, none, none⟩

/-- R267: the ENTRY record of a refused entry. -/
def refusedRecord (k : Cand) (st res step0 : Nat) : CplRec :=
  ⟨k.port, recBytes { kind := 1, status := st, resource := if st / 16 = 1 then res else 0, ctx := k.r.ctx, tag := k.tag, index := k.index,
                      step := step0, wait := k.wait }, none, none⟩

/-- One entry of a descriptor: checked against the trial state, and placed in it when it passes. -/
def checkInto (h : HostMem) (p : Port) (tag wait : Nat) (acc : State × List ((Nat × Nat) × Cand)) (x : Nat × List Nat) :
    State × List ((Nat × Nat) × Cand) :=
  let o := checkEntry h p none (parseEnt x.2) acc.1
  let k := { o.2 with tag := tag, index := x.1, wait := wait, port := p }
  (if o.1.1 = 0 then place k acc.1 else acc.1, acc.2 ++ [(o.1, k)])

/-- R251, R256, R257: the descriptor at the head of a ring: taken whole, refused whole, or left. -/
def fillBatch (h : HostMem) (p : Port) (be : Bool) (step0 : Nat) (bs : List Nat) (f : Fill) : Fill :=
  let f1 := { f with s := seeHead p be f.s }
  let x := headSt f1.s p be
  let leave := fun (g : Fill) => { g with stay := portNum p :: g.stay }
  let n := fieldAt bs 2 2 % 8192
  let raw := if batchBad bs then none else hostRead h p (fieldAt bs 8 8) (32 * n)
  let wait := f1.s.now - x.seen.getD f1.s.now
  match raw with
  | none =>
    if !batchBad bs && decide (x.fails + 1 < 16) then leave { f1 with s := setHead p be { x with fails := x.fails + 1 } f1.s }
    else if cplRoom f1.s p (1 + recsOf f1 p) then
      { f1 with s := consume p be f1.s, recs := f1.recs ++ [batchRecord p (fieldAt bs 4 4) step0] }
    else leave f1
  | some es =>
    let f2 := { f1 with s := setHead p be { x with fails := 0 } f1.s }
    let o := (List.zip (List.range n) (chunks 32 n es)).foldl (checkInto h p (fieldAt bs 4 4) wait) (f2.s, [])
    let ok := (o.2.filter fun y => y.1.1 == 0).map fun y => y.2
    let rows := (ok.map fun k => k.r.rows).sum
    let lc := ((ok.filter fun k => !isBe o.1 k).map fun k => k.r.rows).sum
    let room := ok.all fun k => match alGet o.1.ctxs k.r.ctx with | some c => streamRoom h c | none => true
    if decide ((servingOf f2.s).stepRows < rows) then
      if cplRoom f2.s p 0 then
        { f2 with s := consume p be f2.s,
                  recs := f2.recs ++ o.2.map fun y => let w := worstOf [y.1, (0x10, 0x0B)]
                    refusedRecord y.2 w.1 w.2 step0 }
      else leave f2
    else if !rowsFit f2 rows lc || !cplRoom f2.s p (3 * ok.length + recsOf f2 p) || !room then leave f2
    else
      { f2 with s := consume p be o.1, cands := f2.cands ++ ok, rows := f2.rows + rows, lc := f2.lc + lc,
                recs := f2.recs ++ (o.2.filter fun y => y.1.1 != 0).map fun y => refusedRecord y.2 y.1.1 y.1.2 step0 }

/-- R256 items 2 and 4: the two rings of a class in turn (R117). -/
def fillRings (h : HostMem) (be : Bool) (step0 : Nat) : Nat → Fill → Fill
  | 0, f => f
  | n + 1, f =>
    let head := fun (k : Nat) => if f.stay.contains k then none else headOf h f.s (if k = 0 then .a else .b) be
    match grantFrom (fun k => (head k).isSome) 2 (smGet 0 f.s.rr (64 + b2n be)) with
    | none => f
    | some k => match head k with
      | none => f
      | some bs => fillRings h be step0 n (fillBatch h (if k = 0 then .a else .b) be step0 bs { f with s := grantTo f.s (64 + b2n be) 2 k })

/-- R256: candidates of one class. -/
def fillClass (h : HostMem) (be : Bool) (step0 : Nat) (f : Fill) : Fill :=
  let f1 := (byId f.s.ctxs).foldl (fillAuto h be) f
  { fillRings h be step0 1024 { f1 with stay := [] } with stay := [] }

/-- R256, R262: the candidates of a boundary; while a portion is suspended, those of class LC only. -/
def fillStep (h : HostMem) (lcOnly : Bool) (s : State) : Fill :=
  let step0 := getF s Reg.CTX_STEP_NEXT
  let f := fillClass h false step0 { s := s }
  if lcOnly then f else fillClass h true step0 f

end Sys2Proof.Machine
end

