-- ==== Sys2Proof/Machine/Security.lean ====
section
/-!
DEFINITION. Machine/Security.lean: management, attestation, sessions, authority commands, leases, debug, glitches and
firmware (R431 to R433, R437, R442 to R446, R452 to R454, R458, R466, R467, R473).  Answers leave through `Out.mgmt` with the
number of the rule that forms them; what a signature or a digest check comes to is an operand.
-/
namespace Sys2Proof.Machine

/-! ### Answers -/

def answer (rule : Nat) (data : List Nat) (s : State) : State := emit s (.mgmt rule data)

/-- A command is refused with a status and a resource code, and changes nothing. -/
def refuse (status res : Nat) (s : State) : State := answer 437 [status, res] s

/-- A command is done. -/
def done (s : State) : State := answer 443 [0] s

/-- A command of the management controller runs while it answers. -/
def viaMgmt (s : State) (f : State → State) : State := if mgmtAlive s then f s else s

/-! ### Firmware floors (R444) -/

/-- Place of a component in the lists of versions, floors and counters. -/
def compIdx : FwComp → Nat
  | .control => 0 | .security => 1 | .mgmt => 2 | .power => 3

/-- Place of a component among measurements 1 to 4 (R442). -/
def measureIdx : FwComp → Nat
  | .security => 0 | .control => 1 | .mgmt => 2 | .power => 3

/-- R444: a floor is raised: a rollback counter, or SECFW_FLOOR by fusing. -/
def raiseFloor (x : FwComp × Nat) (s : State) : State :=
  let k := s.sec.ks
  match x.1 with
  | .security => putKs s { k with secFloor := max k.secFloor x.2 }
  | c => putKs s { k with rollback := k.rollback.set (compIdx c) (max (k.rollback.getD (compIdx c) 0) x.2) }

/-- R444: one management transaction has run without fault under the new firmware. -/
def transactionRun (s : State) : State :=
  let now := s.sec.fwRaise.filter fun x => x.1 != .control
  now.foldl (fun t x => raiseFloor x t) { s with sec.fwRaise := s.sec.fwRaise.filter fun x => x.1 == .control }

/-- R444, R467: one step boundary has run without fault. -/
def boundaryRun (s : State) : State :=
  s.sec.fwRaise.foldl (fun t x => raiseFloor x t) { s with sec.fwRaise := [], sec.fwNew := false }

/-! ### The management controller (R431, R432) -/

/-- R431: Set Endpoint ID. -/
def execSetEndpointId (eid : BitVec 8) (s : State) : Res :=
  .next (viaMgmt s fun s => transactionRun (setF s Reg.MGT_STATUS_EID eid.toNat))

/-- R431: ENTDAA. -/
def execEntdaa (addr : BitVec 7) (s : State) : Res :=
  .next (viaMgmt s fun s => setF (setF s Reg.MGT_STATUS_I3C_ADDR addr.toNat) Reg.MGT_STATUS_I3C_ADDR_VALID 1)

/-- R432: the numeric sensors in the order of the rule. -/
def sensorFld : Fin 10 → Fld
  | 0 => Reg.PWR_VIN_VIN_MV | 1 => Reg.PWR_VIN_IIN_CA | 2 => Reg.PWR_EST_MEAS | 3 => Reg.PWR_ENERGY | 4 => Reg.PWR_TEMP_TJ_MAX
  | 5 => Reg.PWR_TEMP_DRAM_MAX | 6 => Reg.PWR_COOLANT_INLET | 7 => Reg.PWR_COOLANT_OUTLET | 8 => Reg.PWR_PACE
  | 9 => Reg.PWR_CAP_EFFECTIVE

/-- R432: a PLDM request returns a sensor's value. -/
def execPldmSensorRead (sensor : Fin 10) (s : State) : Res :=
  .next (viaMgmt s fun s => answer 432 [sensor, getF s (sensorFld sensor)] (transactionRun s))

/-- R432, R444: the package is accepted. -/
def packageOk (s : State) (c : FwComp) (version : Nat) (miotric owner : Bool) : Bool :=
  let k := s.sec.ks
  miotric && (!k.countersign || (owner && !k.owner.isEmpty)) && decide (k.minVersion.getD (compIdx c) 0 ≤ version) &&
  (match c with
   | .security => decide (k.secFloor ≤ version)
   | _ => decide (k.rollback.getD (compIdx c) 0 ≤ version))

/-- R432, R444: a firmware package is transferred and verified: `miotric` and `owner` say which signatures verify. -/
def execPldmFirmwareUpdate (c : FwComp) (version : Nat) (floor miotric owner : Bool) (measure : List Nat) (s : State) : Res :=
  .next (viaMgmt s fun s =>
    if packageOk s c version miotric owner then
      answer 444 [0] (transactionRun { s with sec.packages := s.sec.packages ++ [⟨c, version, floor, measure⟩] })
    else answer 444 [0x23] (transactionRun s))

/-! ### Attestation and sessions (R433, R442) -/

/-- R442: whether a certificate slot holds a chain. -/
def slotFilled (s : State) (n : Fin 8) : Bool := n.val == 0 || (n.val == 1 && s.sec.ks.slot1)

/-- R442: GET_CERTIFICATE: the slot and whether it holds a chain. -/
def execGetCertificate (slot : Fin 8) (s : State) : Res :=
  .next (viaMgmt s fun s => answer 442 [slot, b2n (slotFilled s slot)] (transactionRun s))

/-- R442: measurement 9. -/
def debugMeasure (s : State) : Nat :=
  if s.sec.ks.debugDisable then 2 else if getB s Reg.SEC_STATUS_DEBUG || s.sec.ks.debugSeen then 1 else 0

/-- R442: what measurements 1 to 10 are taken over. -/
def measurements (s : State) : List (List Nat) :=
  let k := s.sec.ks
  k.measures ++
  [match s.img with | some i => i.digest | none => [0], match s.img with | some i => i.logical | none => [0], k.owner,
   k.leases.flatMap (fun (l : Lease) => [l.lease, l.st]), [debugMeasure s],
   b2n k.countersign :: k.minVersion ++ k.rollback ++ [k.secFloor]]

/-- R442: a challenge is answered under ALIAS, with what its signature covers. -/
def execChallenge (slot : Fin 8) (nonce : List Nat) (s : State) : Res :=
  .next (viaMgmt s fun s =>
    if slotFilled s slot then answer 442 (slot.val :: nonce ++ (measurements s).flatten) (transactionRun s) else refuse 0x23 0 s)

/-- R442: signed measurements: index 0 for all of them. -/
def execGetMeasurements (index : Fin 11) (nonce : List Nat) (s : State) : Res :=
  .next (viaMgmt s fun s =>
    answer 442 (index.val :: nonce ++ (if index = 0 then (measurements s).flatten else (measurements s).getD (index.val - 1) []))
      (transactionRun s))

/-- R458: MGT_STATUS.SESSIONS. -/
def setSessions (l : List Spdm) (s : State) : State := setF { s with sec.sessions := l } Reg.MGT_STATUS_SESSIONS l.length

/-- R442: the key may authenticate a session of the party. -/
def partyOk (s : State) (party : Party) (key : List Nat) : Bool :=
  let k := s.sec.ks
  match party with
  | .owner => !k.owner.isEmpty && k.owner == key
  | .service => true
  | .anyKey => k.owner.isEmpty
  | .tenant n =>
    match k.leases[n]? with
    | some l => (l.st == 1 || l.st == 2) && l.tenantPub == key
    | none => false

/-- R442: a key exchange: `verified` says that both sides authenticated, a service key chaining to the root. -/
def execKeyExchange (party : Party) (key : List Nat) (verified : Bool) (s : State) : Res :=
  .next (viaMgmt s fun s =>
    let dup := match party with
      | .tenant _ => s.sec.sessions.any fun x => x.key == key
      | _ => false
    if verified && partyOk s party key && !dup && decide (s.sec.sessions.length < 4) then
      answer 442 [s.sec.sessions.length] (transactionRun (setSessions (s.sec.sessions ++ [⟨party, key⟩]) s))
    else refuse 0x23 0 s)

/-- The party of an open session, while its key still stands for it. -/
def sessionParty (s : State) (n : Nat) : Option Party :=
  match s.sec.sessions[n]? with
  | some x => if partyOk s x.party x.key then some x.party else none
  | none => none

/-- R437, R443: an authority command runs for a party that it is granted to; any other is refused and changes nothing. -/
def asParty (n : Nat) (ok : Party → Bool) (s : State) (f : State → State) : State :=
  viaMgmt s fun s => match sessionParty s n with
    | some p => if ok p then transactionRun (f s) else refuse 0x23 0 s
    | none => refuse 0x23 0 s

def isOwner : Party → Bool
  | .owner => true
  | _ => false
def isDebugParty : Party → Bool
  | .owner => true | .service => true
  | _ => false

/-! ### Ownership and policy (R443) -/

/-- R443: the session of R442 whose key the handover token names programs the next OWNER_SLOT. -/
def execTakeOwnership (sess : Nat) (tokenOk : Bool) (s : State) : Res :=
  .next (asParty sess (fun p => p == .anyKey) s fun s =>
    let k := s.sec.ks
    match s.sec.sessions[sess]? with
    | some x =>
      if !tokenOk then refuse 0x23 0 s
      else if 16 ≤ k.ownerSlots then refuse 0x10 0x1B s
      else done (ledgerSecurity 2 0 0 (putKs s { k with owner := x.key, ownerSlots := k.ownerSlots + 1 }))
    | none => s)

/-- The step counter of the module's next boundary. -/
def nextStep (s : State) : Nat := if isEntry s then getF s Reg.CTX_STEP_NEXT else s.lastStep + 1

/-- R443, R453: every lease gets an END that takes effect at the next boundary. -/
def endAll (s : State) : State :=
  putKs s { s.sec.ks with leases := s.sec.ks.leases.map fun (l : Lease) =>
    if l.st = 0 then l else { l with endStep := some (min (l.endStep.getD (nextStep s)) (nextStep s)) } }

/-- R443, R453: with every lease FREE the command's own effect follows. -/
def authorityRun (o : AuthOp) (s : State) : State :=
  let k := s.sec.ks
  match o with
  | .transfer key =>
    fullZeroise 4 (ledgerSecurity 2 0 0 (putKs s { k with owner := key, ownerSlots := k.ownerSlots + 1, app := [], slot1 := false }))
  | .release => fullZeroise 4 (ledgerSecurity 2 0 0 (putKs s { k with owner := [], app := [], slot1 := false }))
  | .debug => fullZeroise 3 (ledgerSecurity 1 0 0 (setF (putKs s { k with debugSeen := true }) Reg.SEC_STATUS_DEBUG 1))

/-- A waiting command runs once no lease is left. -/
def authorityDue (s : State) : State :=
  match s.sec.authOp with
  | some o => if leaseCount s.sec.ks = 0 then authorityRun o { s with sec.authOp := none } else s
  | none => s

def startAuthority (o : AuthOp) (s : State) : State := authorityDue { endAll s with sec.authOp := some o }

/-- R443: TRANSFER_OWNERSHIP. -/
def execTransferOwnership (sess : Nat) (key : List Nat) (s : State) : Res :=
  .next (asParty sess isOwner s fun s =>
    if s.sec.authOp.isSome then refuse 0x23 0 s
    else if 16 ≤ s.sec.ks.ownerSlots then refuse 0x10 0x1B s
    else startAuthority (.transfer key) (done s))

/-- R443: RELEASE_OWNERSHIP. -/
def execReleaseOwnership (sess : Nat) (s : State) : Res :=
  .next (asParty sess isOwner s fun s => if s.sec.authOp.isSome then refuse 0x23 0 s else startAuthority .release (done s))

/-- R443: SET_FW_POLICY. -/
def execSetFwPolicy (sess : Nat) (minVersion : List Nat) (countersign : Bool) (s : State) : Res :=
  .next (asParty sess isOwner s fun s =>
    done (putKs s { s.sec.ks with minVersion := (minVersion ++ [0, 0, 0, 0]).take 4, countersign := countersign }))

/-- R443: SET_APP_KEY. -/
def execSetAppKey (sess : Nat) (key : List Nat) (s : State) : Res :=
  .next (asParty sess isOwner s fun s => done (putKs s { s.sec.ks with app := key }))

/-- R443, R454: GLITCH_ACK. -/
def execGlitchAck (sess : Nat) (s : State) : Res :=
  .next (asParty sess isOwner s fun s => done (putKs s { s.sec.ks with glitchAck := 0 }))

/-- R469: SELFTEST_EXTENDED. -/
def execSelftestExtended (sess : Nat) (s : State) : Res :=
  .next (asParty sess isOwner s fun s =>
    if leaseCount s.sec.ks = 0 then done (putKs s { s.sec.ks with armed := true }) else refuse 0x23 0 s)

/-! ### Lease records (R445, R446) -/

/-- R445: RECORD_SEQ lies above every record of the lease already accepted. -/
def seqOk (s : State) (r : LeaseRecord) : Bool :=
  match alGet s.sec.ks.seqs r.lease with | some x => decide (x < r.seq) | none => true

/-- R445: what every lease record must satisfy besides its signature. -/
def recordOk (s : State) (r : LeaseRecord) : Bool :=
  decide (1 ≤ r.lease) && decide (r.lease ≤ 0xFFFF) && r.reservedOk && (r.serial == 0 || r.serial == getF s Reg.ID_SERIAL) &&
  seqOk s r

def noteSeq (r : LeaseRecord) (s : State) : State := putKs s { s.sec.ks with seqs := alSet s.sec.ks.seqs r.lease r.seq }

/-- The step counter that a ledger record carries: the next one to be used. -/
def ledgerStep (s : State) : Nat := nextStep s

/-- R446: AUTHORISE. -/
def execLeaseAuthorise (sess : Nat) (r : LeaseRecord) (s : State) : Res :=
  .next (asParty sess (fun _ => true) s fun s =>
    if !r.byOwner || s.sec.ks.owner.isEmpty || !recordOk s r || (leaseEnt s r.lease).isSome || getB s Reg.SEC_STATUS_DEBUG ||
        s.sec.authOp.isSome then refuse 0x23 0 s
    else if s.boot.extended then refuse 0x10 0x1C s
    else match s.sec.ks.leases.findIdx? (fun l => l.st == 0) with
      | none => refuse 0x10 0x1A s
      | some n =>
        done (ledgerLease r.lease 0 (ledgerStep s) (setLease (noteSeq r s) n
          { st := 1, lease := r.lease, ide := r.ide, quota := r.quota, tenantPub := r.tenantPub, imagePub := r.imagePub, serial := r.serial })))

/-- R446: QUOTA. -/
def execLeaseQuota (sess : Nat) (r : LeaseRecord) (s : State) : Res :=
  .next (asParty sess (fun _ => true) s fun s =>
    match leaseSlot s r.lease, leaseEnt s r.lease with
    | some n, some l =>
      if r.byOwner && !s.sec.ks.owner.isEmpty && recordOk s r && (l.st == 1 || l.st == 2) && l.ide == r.ide && l.serial == r.serial &&
          l.tenantPub == r.tenantPub && l.imagePub == r.imagePub then
        done (setLease (noteSeq r s) n { l with nextQuota := some (r.quota, r.effective) })
      else refuse 0x23 0 s
    | _, _ => refuse 0x23 0 s)

/-- R445, R450: END. -/
def execLeaseEndRecord (sess : Nat) (r : LeaseRecord) (s : State) : Res :=
  .next (asParty sess (fun _ => true) s fun s =>
    match leaseSlot s r.lease, leaseEnt s r.lease with
    | some n, some l =>
      if ((r.byOwner && !s.sec.ks.owner.isEmpty) || r.byTenant) && recordOk s r && (l.st == 1 || l.st == 2) then
        done (setLease (noteSeq r s) n { l with endStep := some (if s.sec.authOp.isSome then min (l.endStep.getD r.effective) r.effective else r.effective) })
      else refuse 0x23 0 s
    | _, _ => refuse 0x23 0 s)

/-- The slot of a tenant's session. -/
def tenantSlot (s : State) (sess : Nat) : Option Nat :=
  match sessionParty s sess with
  | some (.tenant n) => some n
  | _ => none

def isTenant : Party → Bool
  | .tenant _ => true
  | _ => false

/-- R443: INSTALL_LEASE_KEY. -/
def execInstallLeaseKey (sess : Nat) (s : State) : Res :=
  .next (asParty sess isTenant s fun s =>
    match tenantSlot s sess with
    | some n =>
      let l := s.sec.ks.leases.getD n {}
      if l.st ≠ 1 ∨ getB s Reg.SEC_STATUS_DEBUG then refuse 0x23 0 s
      else if s.boot.extended then refuse 0x10 0x1C s
      else done (ledgerLease l.lease 1 (ledgerStep s) (setLease s n { l with st := 2, keyed := true }))
    | none => refuse 0x23 0 s)

/-- R443: PORT_BIND. -/
def execPortBind (sess : Nat) (p : Port) (s : State) : Res :=
  .next (asParty sess isTenant s fun s =>
    match tenantSlot s sess with
    | some n => done (setBit s (bindFld p) n true)
    | none => refuse 0x23 0 s)

/-- R443: PORT_UNBIND. -/
def execPortUnbind (sess : Nat) (p : Port) (s : State) : Res :=
  .next (asParty sess isTenant s fun s =>
    match tenantSlot s sess with
    | some n => done (setBit s (bindFld p) n false)
    | none => refuse 0x23 0 s)

/-! ### The ledger and erase reports (R443, R452, R473) -/

/-- The fields of a record's body, packed from bit 0. -/
def packBits : List (Nat × Nat) → Nat
  | [] => 0
  | (w, v) :: t => v % 2 ^ w + 2 ^ w * packBits t

/-- R471: bytes [127:0] of a record; its links and signature follow from the records and the LEDGER key. -/
def recordBytes (r : LedgerRec) : List Nat :=
  leBytes 8 r.seq ++ [r.type] ++ List.replicate 7 0 ++ leBytes 8 r.powered ++ leBytes 104 (packBits r.body)

/-- R473: LEDGER_READ. -/
def execLedgerRead (sess first count : Nat) (s : State) : Res :=
  .next (asParty sess isOwner s fun s =>
    if count = 0 ∨ 256 < count then refuse 0x23 0 s
    else answer 473 ((s.ledger.reverse.filter fun r => decide (first ≤ r.seq) && decide (r.seq < first + count)).flatMap recordBytes) s)

/-- R452: the fields of an erase report, in the rule's order. -/
def eraseBytes (r : EraseReport) : List Nat :=
  [r.lease, r.step, r.ledgerSeq, r.pages, r.frames, r.extents, b2n r.cryptoErased, b2n r.zeroised, b2n r.background]

/-- R443: ERASE_REPORT_READ. -/
def execEraseReportRead (sess lease : Nat) (s : State) : Res :=
  .next (asParty sess isOwner s fun s =>
    match s.sec.ks.reports.find? fun r => r.lease == lease with
    | some r => answer 452 (eraseBytes r) s
    | none => refuse 0x23 0 s)

/-- R452: the background zeroisation of an ended lease is done; its report is rewritten. -/
def execBackgroundZeroiseDone (lease : Nat) (s : State) : Res :=
  .next (if s.sec.ks.erasing.contains lease then
    let k := s.sec.ks
    putKs s { k with erasing := k.erasing.filter (· != lease),
                     reports := k.reports.map fun (r : EraseReport) => if r.lease = lease then { r with background := true } else r }
  else s)

/-! ### Debug and glitches (R453, R454) -/

/-- R453: DEBUG_CHALLENGE: a random nonce, valid for one attempt. -/
def execDebugChallenge (sess : Nat) (s : State) : Res :=
  .next (asParty sess isDebugParty s fun s =>
    let n := leBytes 32 (Config.nonce s.fresh).toNat
    answer 453 n { s with sec.nonce := some n, fresh := s.fresh + 1 })

/-- R453: DEBUG_UNLOCK: which of the two signatures over the nonce and the serial number verify. -/
def execDebugUnlock (sess : Nat) (miotric owner : Bool) (s : State) : Res :=
  .next (asParty sess isDebugParty s fun s =>
    if s.sec.nonce.isNone then refuse 0x23 0 s
    else
      let s1 := { s with sec.nonce := none }
      if miotric && owner && !s.sec.ks.owner.isEmpty && !s.sec.ks.debugDisable && s.sec.authOp.isNone then
        startAuthority .debug (done s1)
      else refuse 0x23 0 s1)

/-- R454: a glitch detector trips: a module reset with full zeroisation, recorded and counted. -/
def execGlitchTrip (detector : Fin 6) (s : State) : Res :=
  .next (match s.boot.stage with
    | .unpowered => s | .latched => s | .dark => s
    | _ =>
      let s1 := moduleReset 2 s
      let k := s1.sec.ks
      ledgerSecurity 0 detector 0 (putKs s1 { k with glitchAck := k.glitchAck + 1, glitchTotal := k.glitchTotal + 1, glitchDet := detector.val }))

/-! ### SEC_LSEL (R458) -/

/-- R458: a write to SEC_LSEL latches a slot's fields for the port. -/
def execLeaseSelect (p : Port) (slot : Fin 16) (s : State) : Res :=
  .next (viaPf0 s p fun s =>
    let l := s.sec.ks.leases.getD slot {}
    let e := match l.endStep with | some x => x | none => 2 ^ 64 - 1
    let s1 := setP (setP (setP s p Reg.SEC_LSEL_SLOT slot) p Reg.SEC_LEASE_INFO_LEASE l.lease) p Reg.SEC_LEASE_INFO_IDE_REQUIRED (b2n l.ide)
    setP (setP (setP s1 p Reg.SEC_LEASE_INFO_END_PENDING (b2n (l.endStep.isSome && l.st != 3))) p Reg.SEC_ADOPT_SEQ l.adoptSeq)
      p Reg.SEC_LEASE_END e)

/-! ### Firmware activation (R444, R466, R467) -/

/-- A package is activated: its version and measurement hold, sessions close because ALIAS changes (R439), the ledger
records it, and its floor waits for one boundary or transaction (R444). -/
def activateFw (f : FwPackage) (s : State) : State :=
  let k := s.sec.ks
  let s1 := putKs { s with sec.packages := s.sec.packages.drop 1 }
    { k with versions := k.versions.set (compIdx f.comp) f.version, measures := k.measures.set (measureIdx f.comp) f.measure }
  let s2 := ledgerSecurity 3 (compIdx f.comp) f.version (setSessions [] s1)
  if f.floor then { s2 with sec.fwRaise := s2.sec.fwRaise ++ [(f.comp, f.version)] } else s2

/-- R474: packages are activated in the order they were accepted. -/
def headPackage (s : State) (c : FwComp) : Option FwPackage :=
  match s.sec.packages.head? with
  | some f => if f.comp = c then some f else none
  | none => none

/-- R467: the handoff, at a boundary at which no portion is running or suspended and no image apply is pending. -/
def execControlFwHandoff (s : State) : Res :=
  .next (match headPackage s .control with
    | some f =>
      if s.boot.stage ≠ .ready ∨ s.portion.isSome ∨ s.suspended.isSome ∨ (getB s Reg.ENG_IMG_STATUS_BUSY ∧ getF s Reg.ENG_IMG_STATUS_PHASE = 5) then s
      else
        let k := s.sec.ks
        { activateFw f s with sec.fwNew := true, sec.former := some (k.versions.getD 0 0, k.measures.getD 1 []) }
    | none => s)

/-- R467: the new firmware faults before it completes one boundary; the former resumes and the counter stays. -/
def execControlFwRollback (s : State) : Res :=
  .next (match s.sec.former with
    | some (v, m) =>
      if s.sec.fwNew then
        let k := s.sec.ks
        let s1 := putKs s { k with versions := k.versions.set 0 v, measures := k.measures.set 1 m }
        setSessions [] { s1 with sec.fwNew := false, sec.former := none, sec.fwRaise := s1.sec.fwRaise.filter fun x => x.1 != .control }
      else s
    | none => s)

/-- R466: a swap of the security-block firmware. -/
def execSecurityFwSwap (s : State) : Res :=
  .next (viaMgmt s fun s => match headPackage s .security with | some f => activateFw f s | none => s)

/-- R466: a swap of the management controller firmware. -/
def execMgmtFwSwap (s : State) : Res :=
  .next (viaMgmt s fun s => match headPackage s .mgmt with | some f => activateFw f s | none => s)

/-- R466: a swap of the power manager firmware: the brake holds the floor meanwhile, and C_eff and TARGET are kept. -/
def execPowerFwSwap (s : State) : Res :=
  .next (viaMgmt s fun s => match headPackage s .power with
    | some f => brakeOff 4 s.pwr.cEff (activateFw f (brakeOn 4 s))
    | none => s)

end Sys2Proof.Machine
end

