-- ==== Sys2Proof/Machine/Serving.lean ====
section
/-!
DEFINITION. Machine/Serving.lean: the step boundary and how a step's results come back (R161, R179, R189, R230 to R234, R242
to R249, R256 to R273, R340, R342, R450, R451).
-/
namespace Sys2Proof.Machine

/-! ### Results that fall due at a boundary (R267, R268, R342) -/

/-- R267: the PREEMPT and ENTRY records of a request whose step has returned. -/
def entryRecords (s : State) (d : DueEntry) : State :=
  let c := (alGet s.ctxs d.ctx).map fun (x : Ctx) => (x.port, x.committed, x.handle)
  let port := match c with | some x => x.1 | none => d.port
  let r : RecF :=
    { kind := 1, status := d.status, ctx := d.ctx, vary := d.vary, matchedAny := decide (0 < d.matched), reason := d.reason,
      accepted := d.accepted, tag := d.batchTag, index := d.index, step := d.step, matched := d.matched,
      committed := if d.commit then (match c with | some x => x.2.1 | none => 0) else 0,
      handle := if d.commit then (match c with | some x => x.2.2 | none => 0) else 0,
      produced := d.produced, preempt := d.preemptions, wait := d.wait, ref := d.matchRef }
  let pre : RecF := { kind := 3, status := 0x41, ctx := d.ctx, tag := d.batchTag, index := d.index, step := d.step, preempt := d.preemptions }
  let s1 := if d.preemptions = 0 then s else cplPut ⟨port, recBytes pre, none, some d.ctx⟩ s
  cplPut ⟨port, recBytes r, none, some d.ctx⟩ s1

/-- R246, R267: a context whose release has returned: its FINAL record. -/
def putFinal (s : State) (x : Nat × Ctx) : State :=
  match alGet s.ctxs x.1 with
  | some c => match c.freed, c.releaseStep with
    | true, some k => cplPut (finalRecord x.1 k c) (setCtx s x.1 { c with releaseStep := none })
    | _, _ => s
  | none => s

/-- R268, R342: what is due at a boundary, after its commits: journal records, ENTRY records, FINAL records. -/
def putDue (s : State) : State :=
  let s1 := s.ctl.journalDue.foldl (fun t f => journal f.1 f.2.1 f.2.2 t) { s with ctl.journalDue := [] }
  let s2 := s1.ctl.due.foldl entryRecords { s1 with ctl.due := [] }
  s2.ctxs.foldl putFinal s2

/-! ### The return message (R243, R245, R340) -/

/-- What a request's step brought: tokens to the host, the context's record, and the records that fall due. -/
def returnReq (f : Flight) (m : ReturnMsg) (s : State) (r : ReqRec) : State :=
  match alGet s.ctxs r.ctx with
  | none => s
  | some c0 =>
    let none0 : RetReq := ⟨r.ctx, [], 0, 0, false⟩
    let out := (m.reqs.find? fun x => x.ctx == r.ctx).getD none0
    let lost := r.kind != .release && (out.invalid || c0.condemned)
    let toks := if lost then [] else out.tokens
    let reason := if r.kind = .release then c0.endReason else if lost then 5 else out.reason
    let a := if r.kind = .verify then min out.accepted r.drafts.length else 0
    let v := m.vary || f.vary || r.vary
    let pos := if r.kind = .verify then r.pos0 + 1 else r.pos0 + r.rows
    let s1 := putTokens r.ctx toks pos a m.status m.step reason v s
    let due := if c0.entryDue then [dueEntry f c0 r.ctx m.status m.preemptions reason a toks.length v r.commit] else []
    let upd := fun (c : Ctx) =>
      { c with emitted := c.emitted + toks.length, hist := (toks.reverse ++ c.hist).take 15, lastTok := toks.getLastD c.lastTok,
               tail := if r.kind = .verify ∨ r.kind = .release then c.tail else r.pos0 + r.rows,
               accepted := if r.kind = .verify then some a else c.accepted,
               varyAny := c.varyAny || v, preemptAny := c.preemptAny + m.preemptions, entryDue := false,
               taint := c.taint || f.tainted || v, stepRows := 0,
               commitDue := r.commit && (m.status == 0 || m.status == 0x30),
               reserved := reserveFor c0.entryDue m.preemptions (r.kind == .release) }
    let s2 := modCtx { s1 with ctl.due := s1.ctl.due ++ due } r.ctx upd
    let s3 := modClient c0.desc.client c0.desc.lease (fun (x : Client) =>
      { x with tokens := x.tokens + toks.length, preemptions := x.preemptions + m.preemptions }) s2
    if r.kind = .release then
      let s4 := modCtx s3 r.ctx fun c => { c with freed := true }
      if c0.entryDue then s4 else putFinal s4 (r.ctx, c0)
    else if lost then ending r.ctx 0x31 5 (bump s3 Reg.MEM_UNRECOVERED 1)
    else if reason ≠ 0 then ending r.ctx 0 reason s3
    else ctxBack r.ctx s3

/-- R243, R244: a return message; one of a step already ended is discarded. -/
def execReturnMessage (m : ReturnMsg) (t : Nat) (s : State) : Res :=
  .next (match s.ctl.flights.find? fun f => f.hdr.step == m.step with
    | none => s
    | some f =>
      let s1 := { atTime t s with ctl.flights := s.ctl.flights.filter fun g => g.hdr.step != m.step }
      let v := m.vary || f.vary || f.hdr.reqs.any fun r => r.vary
      let f1 := { f with tainted := f.tainted || v }
      let s2 := f.hdr.reqs.foldl (returnReq f1 m) s1
      { s2 with ctl.journalDue := s2.ctl.journalDue ++ [(f1, m.status, v)] })

/-- R244: the return limit of a step has passed. -/
def execReturnLimitExpire (step t : Nat) (s : State) : Res :=
  .next (match s.ctl.flights.find? fun f => f.hdr.step == step with
    | none => s
    | some f => match f.left with
      | some x => if x + getF s Reg.CTX_RETURN_LIMIT_MS * 1000000 ≤ t then endStepAt step 0x20 (atTime t s) else s
      | none => s)

/-- R245, R272: the orphan limit of a context has passed; an adoption that waits for the boundary comes first. -/
def execOrphanLimitExpire (ctx : Fin 4096) (t : Nat) (s : State) : Res :=
  .next (match alGet s.ctxs ctx with
    | none => s
    | some c => match c.st, c.orphanAt with
      | .orphaned, some x =>
        if x + getF s Reg.CTX_ORPHAN_LIMIT_S * 1000000000 ≤ t ∧ (s.ctl.adopts.all fun a => a.ctx != ctx.val) = true then
          countCtxs (ending ctx 0 5 (atTime t s))
        else s
      | _, _ => s)

/-! ### Polling (R249) -/

/-- R249: the idle entry module reads the heads of its enabled rings. -/
def execRingPoll (host : HostMem) (t : Nat) (s : State) : Res :=
  .next (if isEntry s && stageAlive s && s.portion.isNone then
    let s1 := atTime t s
    [Port.a, Port.b].foldl (fun u p =>
      let lc := (headOf host u p false).isSome
      let be := (headOf host u p true).isSome
      let u1 := if lc then seeHead p false u else u
      let u2 := if be then seeHead p true u1 else u1
      if ringEn u2 p false || ringEn u2 p true then emit u2 (.poll p lc be) else u2) s1
  else s)

/-- R249, R262: during a BE portion the entry module reads the heads of its LC rings. -/
def execLcPoll (host : HostMem) (t : Nat) (s : State) : Res :=
  .next (if isEntry s && stageAlive s && getB s Reg.CTX_POLICY_PREEMPT_EN && s.portion.any (fun p => p.hdr.be) then
    let s1 := atTime t s
    if (headOf host s1 .a false).isSome || (headOf host s1 .b false).isSome then { s1 with ctl.lcReady := true } else s1
  else s)

/-! ### Adoption (R272, R457) -/

/-- R272: GO; the record is read now, and `authSeq` is the sequence number under which its AUTH verifies. -/
def execAdoptGo (p : Port) (host : HostMem) (authSeq : Option Nat) (s : State) : Res :=
  .next (viaPf0 s p fun s =>
    if getP s p Reg.CTX_ADOPT_CMD_BUSY = 1 then s
    else match hostRead host p (getP s p Reg.CTX_ADOPT_ADDR_LO * 64 + getP s p Reg.CTX_ADOPT_ADDR_HI * 2 ^ 32) 64 with
      | none => irq p 2 (setP s p Reg.CTX_ADOPT_CMD_STATUS 0x23)
      | some bs =>
        let a : Adoption := ⟨p, fieldAt bs 0 2 % 4096, fieldAt bs 2 2, fieldAt bs 4 8, fieldAt bs 12 4, authSeq⟩
        setP { s with ctl.adopts := s.ctl.adopts ++ [a] } p Reg.CTX_ADOPT_CMD_BUSY 1)

/-- R272: the adoption is in order. -/
def adoptOk (s : State) (a : Adoption) (c : Ctx) : Bool :=
  c.st == .orphaned && c.desc.lease == a.lease && leaseActive s a.lease && leaseBound s a.lease a.port && ideOk s a.lease a.port &&
  (match leaseEnt s a.lease with | some l => a.authSeq == some l.adoptSeq | none => false)

/-- R272: kept tokens are written to the new result area. -/
def writeKept (id : Nat) (s : State) : State :=
  match alGet s.ctxs id with
  | none => s
  | some c =>
    let n := c.kept.length
    let s1 := setCtx s id { c with kept := [] }
    putProd id ((List.zip (List.range n) c.kept).foldl (fun t k => putToken id (c.emitted - n + k.1) k.2.1 k.2.2.1 k.2.2.2 t) s1)

/-- R272: an adoption at its boundary. -/
def applyAdoption (step0 : Nat) (s : State) (a : Adoption) : State :=
  let fin := fun (st : Nat) (t : State) => irq a.port 2 (setP (setP t a.port Reg.CTX_ADOPT_CMD_BUSY 0) a.port Reg.CTX_ADOPT_CMD_STATUS st)
  match alGet s.ctxs a.ctx with
  | none => fin 0x23 s
  | some c =>
    if !adoptOk s a c then fin 0x23 s
    else
      let s1 := setCtx s a.ctx { c with st := .ready, port := a.port, orphanAt := none, prod := 0, waitFrom := some s.now,
                                        desc := { c.desc with resultAddr := a.resultAddr, resultEntries := a.resultEntries } }
      let s2 := match leaseSlot s1 a.lease, leaseEnt s1 a.lease with
        | some n, some l => setLease s1 n { l with adoptSeq := l.adoptSeq + 1 }
        | _, _ => s1
      let s3 := countCtxs (writeKept a.ctx s2)
      fin 0 (cplPut ⟨a.port, recBytes { kind := 4, ctx := a.ctx, step := step0 }, none, none⟩ s3)

def applyAdoptions (s : State) : State :=
  s.ctl.adopts.foldl (applyAdoption (getF s Reg.CTX_STEP_NEXT)) { s with ctl.adopts := [] }

/-! ### The end of a lease (R450, R451, R456) -/

def imageLease (s : State) : Option Nat := s.img.map fun i => i.lease

/-- R456: operations of the lease under way end with ACCESS_DENIED. -/
def endOps (lease : Nat) (s : State) : State :=
  let s1 := match s.wts.load with | some r => if r.load.lease = lease then loadFails 0x23 s else s | none => s
  let s2 := match s1.wts.imgRun with
    | some ⟨_, some d, _⟩ => if d.lease = lease then imageRefused ⟨0x23, 0, 0, 0⟩ s1 else s1
    | _ => s1
  if getB s2 Reg.CTX_CAPTURE_CTL_ARMED && getF s2 Reg.CTX_CAPTURE_CTL_LEASE == lease then captureEnds 0x23 s2 else s2

/-- R245, R450: READY contexts of a lease, or of every lease, become ENDING. -/
def endContexts (lease : Option Nat) (s : State) : State :=
  s.ctxs.foldl (fun t x => if x.2.st = .ready ∧ (lease = none ∨ lease = some x.2.desc.lease) then ending x.1 0 5 t else t) s

/-- R450 step 1: a lease whose EFFECTIVE_STEP the boundary's counter has reached becomes ENDING; a waiting QUOTA record is
discarded (R456). -/
def leaseEnds (step : Nat) (s : State) (n : Nat) : State :=
  match s.sec.ks.leases[n]? with
  | none => s
  | some l => match l.endStep with
    | some e =>
      if (l.st = 1 ∨ l.st = 2) ∧ e ≤ step then endContexts (some l.lease) (endOps l.lease (setLease s n { l with st := 3, nextQuota := none })) else s
    | none => s

/-- R451: zeros over core SRAM but for the regions that hold the image's lists and records; and over every accumulator. -/
def zeroSram (keep : List (Nat × Nat)) (s : State) : State :=
  let kept := fun (a : Nat) => keep.any fun r => decide (r.1 ≤ a) && decide (a < r.1 + r.2)
  { s with mem := s.mem.filter fun c => decide (c.1 < 2 ^ 64) || kept c.1,
           marks := s.marks.filter fun g => decide (g.1 < 2 ^ 58) || kept (g.1 * 64), accs := [] }

/-- R451: lease-end zeroisation of what steps of several leases share. -/
def zeroShared (s : State) : State :=
  match s.img with
  | none => zeroSram [] (zeroRange s (2 ^ 63) (2 ^ 28))
  | some i =>
    let rs := i.vmap.scratch ++ [i.vmap.saveArea]
    let s1 := rs.foldl (fun t r => zeroRange t r.base r.len) (zeroRange s (2 ^ 63) (2 ^ 28))
    zeroSram (i.listBytes.map fun r => (2 ^ 64 + r.1 % (192 * 2 ^ 21), r.2.length)) s1

/-- Extents that a lease's loads and archived prefixes hold. -/
def leaseExtents (s : State) (lease : Nat) : List (Nat × Extent) :=
  s.extents.filter fun e => match e.2.owner with
    | .gen n => (match genLoad s n with | some l => l.lease == lease | none => false)
    | .small k => (match alGet s.wts.smalls k with | some m => m.load.lease == lease | none => false)
    | .archive p => (match alGet s.prefs p with | some q => q.lease == lease | none => false)
    | .image => imageLease s == some lease

/-- R450 steps 3 to 6. -/
def finishLease (step n : Nat) (l : Lease) (s : State) : State :=
  let xs := leaseExtents s l.lease
  let pages := (s.pages.filter fun p => p.2.lease == l.lease).map Prod.fst
  let s1 := (s.prefs.filter fun p => p.2.lease == l.lease).foldl (fun t p => dropPref p.1 t) (releaseLoadsOf l.lease s)
  let s2 := pages.foldl (fun t p => zeroRange t (pageAddr t p) (pageBytes t)) (dropPages pages s1)
  let s3 := if s2.wts.capLease = l.lease then
      setF { zeroRange s2 (capRegion s2).base (capRegion s2).len with wts.capLease := 0 } Reg.CTX_CAPTURE_CTL_TAKEN 0
    else s2
  let s4 := freeLease n step pages.length (xs.filter fun e => e.2.state == .resident).length xs.length true (zeroShared (zeroClients l.lease s3))
  if imageLease s = some l.lease then fullZeroise 5 (dropImage s4) else s4

/-- R450: no context that must go first remains. -/
def leaseClear (s : State) (l : Lease) : Bool :=
  s.suspended.isNone && s.finals.isEmpty &&
  (if imageLease s = some l.lease then s.ctxs.isEmpty && s.ctl.flights.isEmpty && s.inbox.isEmpty
   else s.ctxs.all fun c => c.2.desc.lease != l.lease)

def leaseFinishes (step : Nat) (s : State) (n : Nat) : State :=
  match s.sec.ks.leases[n]? with
  | none => s
  | some l =>
    if l.st ≠ 3 then s
    else
      let s1 := if imageLease s = some l.lease ∧ (s.ctxs.all fun c => c.2.desc.lease != l.lease) = true then endContexts none s else s
      if leaseClear s1 l then finishLease step n l s1 else s1

/-- R450: the leases at a boundary. -/
def leaseBoundary (step : Nat) (s : State) : State :=
  (List.range 16).foldl (leaseFinishes step) ((List.range 16).foldl (leaseEnds step) s)

/-- R366, R450: the image's lease is ending: nothing new is admitted. -/
def imageEnding (s : State) : Bool :=
  match imageLease s with
  | some l => match leaseEnt s l with | some x => x.st == 3 | none => false
  | none => false

/-! ### Forming steps (R179, R232, R234, R246, R260, R261) -/

/-- A boundary's attempt at parts 1 to 4: the state, each placed candidate with its match, or the candidate refused. -/
structure Placed where
  s : State
  done : List (Cand × Match) := []
  bad : Option (Cand × Nat × Nat) := none

/-- R179 part 4 for one candidate: `step` is the counter its step would take. -/
def placePages (step : Cand → Nat) (w : Placed) (k : Cand) : Placed :=
  if w.bad.isSome then w
  else
    let n := step k
    match k.r.kind, k.r.setup with
    | .release, _ => { w with done := w.done ++ [(k, {})] }
    | .start, some (d, _) =>
      let m := matchNow w.s d k.slot k.r.tokens k.cut
      if m.denied then { w with bad := some (k, 0x23, 0) }
      else if k.cut.any fun x => x != m.spans then { w with bad := some (k, 0x10, 0x0F) }
      else
        let total := k.r.tokens.length
        let o := startPages k.r.ctx n k.slot total m (modCtx w.s k.r.ctx (carryStep n { k.r with pos0 := 0 }))
        let pos := 64 * o.2.1.spans
        if o.1 ≠ 0 then { w with bad := some (k, o.1, 0x0C) }
        else if k.cut.any fun x => x != o.2.1.spans then { w with bad := some (k, 0x10, 0x0F) }
        else
          let m1 := o.2.1
          let s1 := modCtx o.2.2 k.r.ctx fun c =>
            { c with stepPos := pos, stepRows := total - pos, matched := pos, tail := pos,
                     matchRef := if pos = 0 then 0 else m1.ref, matchStep := if pos = 0 then 0 else m1.commitStep }
          { w with s := s1, done := w.done ++ [({ k with r := { k.r with pos0 := pos, rows := total - pos } }, m1)] }
    | kd, _ =>
      let s1 := modCtx w.s k.r.ctx (carryStep n k.r)
      let o := if k.r.rows = 0 then (0, s1) else livePages k.r.ctx n k.slot k.r.pos0 k.r.rows (kd == .verify) s1
      if o.1 ≠ 0 then { w with bad := some (k, o.1, 0x0C) } else { w with s := o.2, done := w.done ++ [(k, {})] }

/-- The state before a candidate was placed. -/
def unplace (was : State) (k : Cand) (s : State) : State :=
  countCtxs (match alGet was.ctxs k.r.ctx with
    | some c => setCtx s k.r.ctx c
    | none => { s with ctxs := smErase s.ctxs k.r.ctx })

/-- R260: the counters of a boundary's steps: that of the pointer's slot first, if it has requests. -/
def counterOf (ptr n0 : Nat) (ks : List Cand) (k : Cand) : Nat :=
  if k.slot = ptr ∨ (ks.any fun x => x.slot == ptr) = false then n0 else n0 + 1

/-- R188, R246: a release applies the accepted count that is pending. -/
def rollPending (s : State) (id : Nat) : State :=
  match alGet s.ctxs id with
  | some c => (match c.accepted with | some a => rollback id a s | none => s)
  | none => s

/-- What runs before part 4: rollbacks of the placed and the released (part 1), commits (2), the releases' pages, quotas and
evictions (3). -/
def beforePart4 (places : List Nat) (n0 : Nat) (rel : List Nat) (ks : List Cand) (s : State) : State :=
  let s1 := applyCommits places (rel.foldl rollPending (ks.foldl (fun t k => applyAccepted t k.r) s))
  applyQuotas n0 (rel.foldl (entryRelease n0) s1)

/-- R178: a refused request changes nothing, so the boundary is formed again without it.  With no request left while a
portion is suspended there is no step, and pending releases wait. -/
def formSteps (places : List Nat) (lcOnly : Bool) (n0 : Nat) (was : State) (rel : List Nat) :
    Nat → List Cand → List (Cand × Nat × Nat) → State → Placed × List (Cand × Nat × Nat)
  | 0, _, out, s => ({ s := s }, out)
  | n + 1, ks, out, s =>
    let go := if lcOnly && ks.isEmpty then [] else rel
    let all := go ++ (ks.filter fun k => k.r.kind == .release).map fun k => k.r.ctx
    let w := (sortBy (fun (a b : Cand) => decide (a.r.ctx < b.r.ctx)) ks).foldl
      (placePages (counterOf (pointerSlot s) n0 ks)) { s := beforePart4 places n0 all ks s }
    match w.bad with
    | none => (w, out)
    | some (k, st, res) =>
      formSteps places lcOnly n0 was rel n (ks.filter fun x => x.r.ctx != k.r.ctx) (out ++ [(k, st, res)]) (unplace was k s)

/-- R180: each refusal for pages is counted; an entry gets its record, an AUTO context is passed over. -/
def refuseCand (step0 : Nat) (acc : State × List CplRec) (x : Cand × Nat × Nat) : State × List CplRec :=
  let s1 := if x.2.2 = 0x0C then bump acc.1 Reg.ENG_KV_REFUSED 1 else acc.1
  (s1, if x.1.entry then acc.2 ++ [refusedRecord x.1 x.2.1 x.2.2 step0] else acc.2)

/-- R245, R270: a placed candidate is admitted. -/
def admitted (s : State) (k : Cand) : State :=
  let c0 := alGet s.ctxs k.r.ctx
  let s1 := modCtx s k.r.ctx fun c =>
    { c with entryDue := k.entry, batchTag := k.tag, entryIndex := k.index, entryWait := k.wait, waitTotal := c.waitTotal + k.wait,
             waitFrom := none, committed := 0, handle := 0 }
  match c0 with
  | some c => modClient c.desc.client c.desc.lease (fun (x : Client) =>
      { x with admitted := x.admitted + b2n (k.r.kind == .start), steps := x.steps + 1, waitNs := x.waitNs + k.wait,
               waitMax := max x.waitMax k.wait }) s1
  | none => s1

/-- R261: rows are numbered through the step. -/
def numberRows : Nat → List ReqRec → List ReqRec
  | _, [] => []
  | n, r :: t => { r with row0 := n } :: numberRows (n + r.rows) t

/-- R234: HOLD as the entry module forms it, with the slots that this boundary's steps are tagged with. -/
def holdMask (s : State) (tags : List Nat) : Nat :=
  ([0, 1].map fun n =>
    let pinned := s.ctxs.any fun c => c.2.desc.pin && c.2.slot == n
    if slotState s n = 0 ∨ (slotState s n = 4 ∧ pinned = false ∧ tags.contains n = false) then 0 else 2 ^ n).sum

/-- R342: what the entry module keeps of a record. -/
def flightReq (s : State) (r : ReqRec) : FlightReq :=
  match alGet s.ctxs r.ctx with
  | some c => if r.kind = .start then ⟨r.ctx, c.desc.lease, c.matched, c.matchRef, c.matchStep⟩ else ⟨r.ctx, c.desc.lease, 0, 0, 0⟩
  | none => ⟨r.ctx, 0, 0, 0, 0⟩

/-- R340: the step reads a tainted prefix or carries a tainted context, or is VARY. -/
def stepTainted (s : State) (rs : List ReqRec) (ms : List Match) : Bool :=
  rs.any (fun r => r.vary || match alGet s.ctxs r.ctx with | some c => c.taint | none => false) ||
  ms.any fun m => m.prefs.any fun k => match alGet s.prefs k with | some p => p.taint | none => false

/-- R246, R261: a RELEASE record of an ENDING context. -/
def releaseRecord (s : State) (id : Nat) : ReqRec :=
  match alGet s.ctxs id with
  | some c => ⟨id, .release, false, false, false, false, 0, 0, c.tail, c.accepted, 0, [], [], none⟩
  | none => ⟨id, .release, false, false, false, false, 0, 0, 0, none, 0, [], [], none⟩

/-- The admission of one step (R230, R260, R261): its header goes to the module's own input hold. -/
def admitStep (slot hold : Nat) (replay : Option (Nat × Bool)) (rs : List ReqRec) (ms : List Match) (s : State) : State :=
  let n := match replay with | some x => x.1 | none => getF s Reg.CTX_STEP_NEXT
  let recs := numberRows 0 rs
  let rows := (recs.map fun r => r.rows).sum
  let be := match replay with
    | some x => x.2
    | none => recs.all fun r => match alGet s.ctxs r.ctx with | some c => c.desc.be | none => true
  let h : StepHeader := ⟨n, getF s (genIdFld slot), slot, hold, be, rows == 0, 0, 0, rows, recs⟩
  let tainted := stepTainted s recs ms
  let fl : Flight := ⟨h, recs.map (flightReq s), tainted, replay.isSome, none, false⟩
  let s1 := if replay.isSome then s else setF s Reg.CTX_STEP_NEXT (n + 1)
  let s2 := countEv 0xEEC rows (countEv 0xEEB 1 s1)
  let s3 := if tainted then recs.foldl (fun t r => modCtx t r.ctx fun c => { c with taint := true }) s2 else s2
  let s4 := recs.foldl (fun t r => modCtx t r.ctx fun c =>
    { c with step := n, accepted := none, releaseStep := if r.kind = .release then some n else c.releaseStep }) s3
  takeGen h { s4 with inbox := s4.inbox ++ [h], ctl.flights := s4.ctl.flights ++ [fl], ctl.applied := s4.ctl.applied ++ [n],
                      ctl.dead := s4.ctl.dead.filter (· != n) }

/-- R179, R232, R246: the steps that a boundary admits from its candidates; `lcOnly` while a portion is suspended. -/
def admitSteps (places : List Nat) (lcOnly : Bool) (was : State) (f : Fill) : State × List CplRec :=
  let step0 := getF was Reg.CTX_STEP_NEXT
  let ptr := pointerSlot f.s
  let rel := (byId was.ctxs).filterMap fun c => if c.2.st == .ending && c.2.releaseStep.isNone && !c.2.freed then some c.1 else none
  let pend := (byId was.ctxs).filter fun c => c.2.st == .ready && c.2.accepted.isSome
  let endDue := f.s.sec.ks.leases.any fun l => l.st != 0 && match l.endStep with | some e => decide (step0 ≤ e) | none => false
  let o := formSteps places lcOnly step0 was rel (f.cands.length + 1) f.cands [] f.s
  let ks := o.1.done
  let x := o.2.foldl (refuseCand step0) (o.1.s, f.recs)
  if !ks.isEmpty then
    let s1 := ks.foldl (fun t k => admitted t k.1) x.1
    let mine := fun (b : Bool) => ks.filter fun k => (k.1.slot == ptr) == b
    let first := if (mine true).isEmpty then false else true
    let relRecs := rel.map (releaseRecord was)
    let group := fun (b : Bool) => byCtx ((mine b).map (fun k => k.1.r) ++ if b == first then relRecs else [])
    let tags := (ks.map fun k => k.1.slot).dedup
    let hold := holdMask s1 tags
    let go := fun (b : Bool) (t : State) => if (mine b).isEmpty then t
      else admitStep (if b then ptr else 1 - ptr) hold none (group b) ((mine b).map fun k => k.2) t
    (go false (go true s1), x.2)
  else if !lcOnly && (!rel.isEmpty || !pend.isEmpty || endDue) then
    let acc := pend.map fun c => (⟨c.1, .cont, false, false, false, false, 0, 0, nextTail c.2, c.2.accepted, 0, [], [], none⟩ : ReqRec)
    let s1 := acc.foldl applyAccepted x.1
    let s2 := acc.foldl (fun t r => modCtx t r.ctx fun c => { c with st := .inStep }) s1
    (admitStep ptr (holdMask s2 []) none (byCtx (rel.map (releaseRecord was) ++ acc)) [] s2, x.2)
  else (x.1, x.2)

/-! ### The boundary (R179) -/

/-- R161: heat from the committed routings. -/
def heatBoundary (s : State) : State :=
  match s.img with
  | none => { s with ctl.heat := [] }
  | some i =>
    let upd := fun (xs : List ExpertSt) (r : RouteRec) => xs.map fun x =>
      if x.slot = r.gen ∧ x.layer = r.layer then { x with heat := heatNext i.heat.shift x.heat (r.demand.getD x.expert 0) } else x
    { s with experts := s.ctl.heat.foldl upd s.experts, ctl.heat := [] }

/-- R364: no group that a portion of these requests needs is BROKEN. -/
def groupsServe (s : State) (draft : Bool) : Bool :=
  match s.img with
  | none => false
  | some i => i.groups.all fun g => groupState s g.idx != 3 || (g.role == 1 && !draft)

def usesDraft (s : State) (h : StepHeader) : Bool :=
  h.reqs.any fun r => match r.setup with
    | some (d, _) => d.model != 0xFFFF
    | none => match alGet s.ctxs r.ctx with | some c => c.desc.model != 0xFFFF | none => false

/-- R208: a context whose entries are lost is released at the next boundary. -/
def releaseCondemned (s : State) : State :=
  s.ctxs.foldl (fun t c => if c.2.condemned ∧ c.2.st = .ready then ending c.1 0x31 5 (bump t Reg.MEM_UNRECOVERED 1) else t) s

/-- R212: control structures of which a copy has failed its check since the last boundary: each copy counts, and where both
have failed, the contexts that the structure concerns are released as R208 states. -/
def controlChecks (l : List (Bool × List (Fin 4096))) (s : State) : State :=
  l.foldl (fun t x =>
    let t1 := bump t Reg.MEM_DRAM_DETECT (if x.1 then 2 else 1)
    if x.1 then x.2.foldl (fun u c => modCtx u c fun k => { k with condemned := true }) t1 else t1) s

/-- Everything of a boundary but steps: what becomes due with it. -/
def boundaryWork (step : Nat) (s : State) : State :=
  let s1 := applyMember (applySwitch (applyRegional (applyWhole s)))
  let s2 := releaseCondemned (applyAdoptions s1)
  let s3 := authorityDue (leaseBoundary step s2)
  applyPending (latchLayers (heatBoundary s3))

/-- The end of a boundary: counters that follow it, the firmware's first clean one (R444), and client records. -/
def boundaryDone (s : State) : State :=
  let s1 := retireSmalls (kvBoundary (boundaryRun s))
  writeClients { s1 with boundaries := s1.boundaries + 1, snp.steps := s1.snp.steps + 1 }

/-- The portions of steps received: the first LC one while a portion is suspended, else the oldest. -/
def nextPortion (s : State) : Option StepHeader :=
  if s.suspended.isSome then (if s.ctl.lcRan then none else s.inbox.find? fun h => !h.be) else s.inbox.head?

def leasesOf (s : State) (h : StepHeader) : List Nat :=
  h.reqs.filterMap fun r => match r.setup with
    | some (d, _) => some d.lease
    | none => (alGet s.ctxs r.ctx).map fun c => c.desc.lease

/-- R178: the page rules of steps received, up to this one, that have not been applied. -/
def catchUp (places : List Nat) (h : StepHeader) (s : State) : State :=
  (s.inbox.filter fun x => decide (x.step ≤ h.step) && !s.ctl.applied.contains x.step).foldl (fun t x => applyHeader places x t) s

/-- A waiting portion starts, unless a group it needs is BROKEN (R364). -/
def startNext (places : List Nat) (s : State) : State :=
  match nextPortion s with
  | none => s
  | some h =>
    if !groupsServe s (usesDraft s h) then s
    else
      let ls := leasesOf s h
      let s1 := catchUp places h s
      startPortion h ls { s1 with inbox := s1.inbox.filter (fun x => x.step != h.step), ctl.applied := s1.ctl.applied.filter (· != h.step) }

/-- The entry module may admit: it holds an image whose lease goes on, its groups serve, no self-test runs, and
it is not in QUARANTINE, where a module holds no step (R330). -/
def mayAdmit (s : State) : Bool :=
  s.img.isSome && groupsServe s false && !s.boot.extended && s.boot.stage == .ready && getF s Reg.FAB_STATE_STATE != 4

end Sys2Proof.Machine
end

