-- ==== Sys2Proof/Machine/Replay.lean ====
section
/-!
DEFINITION. Machine/Replay.lean: replay sessions and their records, the capture command (R344 to R347), and the step boundary
as a command, with what it admits from the rings or from a record (R179, R246, R262).
-/
namespace Sys2Proof.Machine

/-! ### Sessions (R344, R346) -/

/-- A replay command completes (R434: cause CMD). -/
def replayStatus (st res : Nat) (s : State) : State :=
  irqBoth 2 (setF (setF s Reg.CTX_REPLAY_CMD_STATUS st) Reg.CTX_REPLAY_CMD_RESOURCE res)

/-- R346: at LEAVE the prefixes that a session under FRESH committed leave the index, and those hidden return. -/
def endSession (x : Session) (s : State) : State :=
  let s1 := if x.fresh then (s.prefs.filter fun p => p.2.session).foldl (fun t p => dropPref p.1 t) s else s
  setF { s1 with ctl.replay := none, prefs := s1.prefs.map fun p => (p.1, { p.2 with hidden := false, session := false }) }
    Reg.CTX_REPLAY_CMD_MODE 0

/-- R344: every context is FREE and no step is in flight. -/
def allFree (s : State) : Bool := s.ctxs.isEmpty && s.ctl.flights.isEmpty

/-- R344, R346: ENTER, with the FRESH bit written beside it. -/
def execEnter (p : Port) (fresh : Bool) (s : State) : Res :=
  .next (viaPf0 s p fun s =>
    let s1 := setB s Reg.CTX_REPLAY_CMD_FRESH fresh
    if !isEntry s || !allFree s then replayStatus 0x23 0 s1
    else
      let s2 := match s1.ctl.replay with | some x => endSession x s1 | none => s1
      let s3 := { s2 with ctl.replay := some ⟨fresh, none⟩, prefs := s2.prefs.map fun q => (q.1, { q.2 with hidden := fresh }) }
      replayStatus 0 0 (setF s3 Reg.CTX_REPLAY_CMD_MODE 1))

/-- R344: LEAVE. -/
def execLeave (p : Port) (s : State) : Res :=
  .next (viaPf0 s p fun s =>
    match s.ctl.replay with
    | some x => if s.ctxs.isEmpty then replayStatus 0 0 (endSession x s) else replayStatus 0x23 0 s
    | none => replayStatus 0x23 0 s)

/-- R345: SUBMIT: the record is read through the port and awaits its boundary. -/
def execSubmit (p : Port) (host : HostMem) (s : State) : Res :=
  .next (viaPf0 s p fun s =>
    if getB s Reg.CTX_REPLAY_CMD_BUSY then s
    else if s.ctl.replay.isNone then replayStatus 0x23 0 s
    else
      let a := getF s Reg.CTX_REPLAY_ADDR_LO * 64 + getF s Reg.CTX_REPLAY_ADDR_HI * 2 ^ 32
      match hostRead host p a 64 with
      | none => replayStatus 0x23 0 s
      | some hd => match hostRead host p (a + 64) (64 * fieldAt hd 14 2) with
        | none => replayStatus 0x23 0 s
        | some bs => setF { s with ctl.submit := some (p, hd ++ bs) } Reg.CTX_REPLAY_CMD_BUSY 1)

/-- R347, R361, R446: ARM. -/
def execArm (p : Port) (lease : BitVec 16) (s : State) : Res :=
  .next (viaPf0 s p fun s =>
    let s1 := setF s Reg.CTX_CAPTURE_CTL_LEASE lease.toNat
    let l := lease.toNat
    if !(servingOf s).capture || !leaseActive s l || !leaseBound s l p || !ideOk s l p then irqBoth 2 (captureEnds 0x23 s1)
    else setB (setB s1 Reg.CTX_CAPTURE_CTL_ARMED true) Reg.CTX_CAPTURE_CTL_TAKEN false)

/-! ### Replay records (R345, R346) -/

/-- A request of a replay record: its journal record's fields and its entry. -/
structure RepReq where
  ctx : Nat
  kind : Nat
  prev : Nat
  rows : Nat
  pos0 : Nat
  matched : Nat
  ent : ReqEnt
deriving DecidableEq, Repr

def parseRep (bs : List Nat) : RepReq :=
  ⟨fieldAt bs 0 2 % 4096, bs.getD 2 0, bs.getD 4 0, fieldAt bs 8 4, fieldAt bs 12 4, fieldAt bs 16 4, parseEnt (bs.drop 32)⟩

/-- R345: the OP that a KIND takes. -/
def opOfKind (k : Nat) : Nat := if k = 4 then 2 else if k = 5 then 4 else k

def kindOf (k : Nat) : ReqKind :=
  if k = 1 then .start else if k = 3 then .verify else if k = 4 then .autoDecode else if k = 5 then .release else .cont

/-- R345: the entry of a request.  A release that the context has already come to passes as its END; a CONTINUE of no rows
carries an accepted count (R246). -/
def checkRep (h : HostMem) (p : Port) (q : RepReq) (s : State) : (Nat × Nat) × Cand :=
  match alGet s.ctxs q.ctx with
  | none => checkEntry h p (some (q.matched / 64)) q.ent s
  | some c =>
    let bare := fun (k : ReqKind) => ((0, 0),
      ({ r := ⟨q.ctx, k, false, false, false, false, 0, 0, nextTail c, c.accepted, 0, [], [], none⟩, slot := slotOf s c, entry := true, port := p } : Cand))
    if q.kind = 5 ∧ c.st = .ending ∧ c.releaseStep = none ∧ c.freed = false ∧ c.port = p then bare .release
    else if q.kind = 2 ∧ q.ent.op = 2 ∧ q.ent.n = 0 ∧ c.st = .ready ∧ c.accepted.isSome = true ∧ c.port = p then bare .cont
    else checkEntry h p (some (q.matched / 64)) q.ent s

/-- R345, R346: the request record agrees with its entry and the context. -/
def repAgrees (q : RepReq) (k : Cand) : Bool :=
  q.ctx == q.ent.ctx && opOfKind q.kind == q.ent.op && decide (1 ≤ q.kind) && decide (q.kind ≤ 5) &&
  (if q.kind = 1 then true else q.rows == k.r.rows && q.pos0 == k.r.pos0) && q.prev == k.r.prevAccepted.getD 255 &&
  (q.kind != 4 || (q.ent.n == 1 && q.ent.tokens == 0))

/-- R346: the match is exactly MATCHED, whence the rows that are left. -/
def repMatch (q : RepReq) (k : Cand) : List (Nat × Nat) :=
  if q.kind ≠ 1 then []
  else if k.r.pos0 ≠ q.matched then [(0x10, 0x0F)]
  else if q.pos0 ≠ k.r.pos0 ∨ q.rows ≠ k.r.rows then [(0x23, 0)] else []

/-- The requests of a record against the trial state. -/
def repInto (h : HostMem) (p : Port) (gen : Nat) (acc : State × List Cand × List (Nat × Nat)) (x : Nat × RepReq) :
    State × List Cand × List (Nat × Nat) :=
  let o := checkRep h p x.2 acc.1
  let k := { o.2 with index := x.1, slot := gen, r := { o.2.r with kind := if x.2.kind = 4 then .autoDecode else o.2.r.kind } }
  let bad := [o.1] ++ (if repAgrees x.2 k then [] else [(0x23, 0)]) ++ (if o.1.1 = 0 then repMatch x.2 k else [])
  (if (worstOf bad).1 = 0 then place k acc.1 else acc.1, acc.2.1 ++ [k], acc.2.2 ++ bad)

/-- R345: a record at its boundary: admitted whole, refused with a status, or waiting for room in the rings (R257). -/
def admitRecord345 (h : HostMem) (places : List Nat) (p : Port) (bs : List Nat) (x : Session) (s : State) : State :=
  let n := fieldAt bs 14 2
  let f := bs.getD 12 0
  let gen := f % 2
  let step := fieldAt bs 0 8
  let qs := (chunks 64 n (bs.drop 64)).map parseRep
  let ptr := pointerSlot s
  let s0 := setF s Reg.MEM_GEN_STATE_POINTER gen
  let o := (List.zip (List.range n) qs).foldl (repInto h p gen) (s0, [], [])
  let ks := o.2.1
  let logical := match s.img with | some i => (i.logical.flatMap (leBytes 4) ++ List.replicate 32 0).take 32 | none => []
  let st := slotState s gen
  let w := worstOf (
    (if logical != (bs.drop 24).take 32 || x.last.any (fun y => decide (step ≤ y)) then [(0x23, 0)] else []) ++
    (if (st == 2 || st == 3 || st == 4) && getF s (genIdFld gen) == fieldAt bs 8 4 then [] else [(0x40, 0)]) ++ o.2.2 ++
    (if (servingOf s).stepRows < (ks.map fun k => k.r.rows).sum then [(0x10, 0x0B)] else []))
  let room := ks.all fun k => match alGet o.1.ctxs k.r.ctx with | some c => streamRoom h c | none => true
  let fin := fun (t : State) => setF { t with ctl.submit := none } Reg.CTX_REPLAY_CMD_BUSY 0
  if w.1 ≠ 0 then replayStatus w.1 (if w.1 / 16 = 1 then w.2 else 0) (fin s)
  else if !cplRoom s p (3 * n) || !room then s
  else
    let rel := (ks.filter fun k => k.r.kind == .release).map fun k => k.r.ctx
    let pl := (sortBy (fun (a b : Cand) => decide (a.r.ctx < b.r.ctx)) ks).foldl (placePages fun _ => step)
      { s := beforePart4 places step rel ks o.1 }
    match pl.bad with
    | some (_, a, r) => replayStatus a (if a / 16 = 1 then r else 0) (fin s)
    | none =>
      let s1 := pl.done.foldl (fun t k => admitted t k.1) pl.s
      let recs := ks.filterMap fun k => (pl.done.find? fun y => y.1.r.ctx == k.r.ctx).map fun y => y.1.r
      let s2 := admitStep gen (holdMask s1 [gen]) (some (step, bit f 3)) recs (pl.done.map fun y => y.2) s1
      replayStatus 0 0 (fin (setF { s2 with ctl.replay := some { x with last := some step } } Reg.MEM_GEN_STATE_POINTER ptr))

/-! ### The step boundary -/

/-- R179, R249, R256, R344: a boundary at which the entry module admits from its rings, or from a replay record. -/
def entryBoundary (h : HostMem) (places : List Nat) (s : State) : State :=
  let n := getF s Reg.CTX_STEP_NEXT
  let s1 := boundaryWork n s
  if !mayAdmit s1 then boundaryDone (putDue (applyQuotas n (applyCommits places s1)))
  else match s1.ctl.replay with
    | some x =>
      let s2 := applyQuotas n (applyCommits places s1)
      boundaryDone (putDue (match s2.ctl.submit with
        | some (p, bs) => if s2.suspended.isSome || imageEnding s2 then s2 else admitRecord345 h places p bs x s2
        | none => s2))
    | none =>
      let lcOnly := s1.suspended.isSome
      let f : Fill := if imageEnding s1 then { s := s1 } else fillStep h lcOnly s1
      let o := admitSteps places lcOnly s1 f
      boundaryDone (o.2.foldl (fun t r => cplPut r t) (putDue o.1))

/-- A boundary of any other module: what falls due, then the page rules and the portion of the next step received. -/
def otherBoundary (places : List Nat) (s : State) : State :=
  let n := match nextPortion s with | some h => h.step | none => s.lastStep + 1
  let s1 := boundaryWork n s
  let s2 := if (nextPortion s1).isSome then s1 else applyQuotas n (applyCommits places s1)
  boundaryDone (startNext places s2)

/-- R179, R262: a step boundary.  One cannot fall while a portion runs, nor between an LC portion that pre-empted another and
that one's resumption; `places` are the addresses that control firmware takes for prefix-tree nodes (R134), `lost` the control structures with a failing copy
(R212). -/
def execStepBoundary (t : Nat) (host : HostMem) (places : List Nat) (lost : List (Bool × List (Fin 4096))) (s : State) : Res :=
  .next (if s.boot.stage ≠ .ready ∨ s.portion.isSome = true then s
    else
      let s1 := controlChecks lost (atTime t s)
      if s1.suspended.isSome && s1.ctl.lcRan then s1
      else if !isEntry s1 then otherBoundary places s1
      else if (nextPortion s1).isSome then startNext places s1
      else startNext places (entryBoundary host places s1))

end Sys2Proof.Machine
end

