-- ==== Sys2Proof/Machine/RingCtl.lean ====
section
/-!
DEFINITION. Machine/RingCtl.lean: enabling a port's submission and completion rings, CTX_CPL_TAIL and the step-counter origin
(R242, R248, R260, R267, R269, R273).
-/
namespace Sys2Proof.Machine

/-- R273: an enable that goes from 0 to 1 clears PORT_LOST. -/
def enableRing (p : Port) (en : Fld) (on : Bool) (start : State → State) (s : State) : State :=
  let was := getP s p en == 1
  let s1 := setP s p en (b2n on)
  if on && !was then start (setP s1 p Reg.CTX_RING_CTL_PORT_LOST 0) else s1

/-- R248: an enabled ring starts at index 0 with expected phase 1 and no entry consumed. -/
def startRing (p : Port) (be : Bool) (s : State) : State :=
  let s1 := setP (setP s p (consFld be) 0) p (phaseFld be) 1
  setHead p be {} { s1 with ctl.consumed := smSet 0 s1.ctl.consumed (headKey p be) 0 }

/-- R248: LC_EN is written. -/
def execLcRingEnable (p : Port) (on : Bool) (s : State) : Res :=
  .next (viaPf0 s p (enableRing p Reg.CTX_RING_CTL_LC_EN on (startRing p false)))

/-- R248: BE_EN is written. -/
def execBeRingEnable (p : Port) (on : Bool) (s : State) : Res :=
  .next (viaPf0 s p (enableRing p Reg.CTX_RING_CTL_BE_EN on (startRing p true)))

/-- R269: HEAD and TAIL are 0; the records held are written, oldest first. -/
def startCpl (p : Port) (s : State) : State :=
  cplFlush p s.cplHeld.length (setP (setP s p Reg.CTX_CPL_HEAD_INDEX 0) p Reg.CTX_CPL_TAIL_INDEX 0)

/-- R269: CPL_EN is written. -/
def execCplEnable (p : Port) (on : Bool) (s : State) : Res :=
  .next (viaPf0 s p (enableRing p Reg.CTX_RING_CTL_CPL_EN on (startCpl p)))

/-- R267: the value lies from TAIL forward to HEAD, counting modulo twice the ring's size. -/
def tailOk (s : State) (p : Port) (v : Nat) : Bool :=
  let n := 2 * cplSize s p
  decide (v < n) && decide ((v + n - getP s p Reg.CTX_CPL_TAIL_INDEX) % n ≤ cplUsed s p)

/-- R267, R269: the driver advances TAIL, and held records are written in the room that this leaves. -/
def execCplTailWrite (p : Port) (v : BitVec 32) (s : State) : Res :=
  .next (viaPf0 s p fun s =>
    let x := v.toNat % 2 ^ 17
    if tailOk s p x then cplFlush p s.cplHeld.length (setP s p Reg.CTX_CPL_TAIL_INDEX x) else s)

/-- R15, R260, R273: a write of CTX_STEP_ORIGIN_HI takes effect unless the block is locked or a context is not FREE. -/
def execStepOriginWrite (p : Port) (v : BitVec 32) (s : State) : Res :=
  .next (viaPf0 s p fun s =>
    if getB s Reg.CTX_LOCK_LOCK || !s.ctxs.isEmpty then s
    else
      let s1 := setF s Reg.CTX_STEP_ORIGIN_HI v.toNat
      setF s1 Reg.CTX_STEP_NEXT (getF s1 Reg.CTX_STEP_ORIGIN_LO + getF s1 Reg.CTX_STEP_ORIGIN_HI * 2 ^ 32))

end Sys2Proof.Machine
end

