-- ==== Sys2Proof/Machine/Bar2.lean ====
section
/-!
DEFINITION. Machine/Bar2.lean: host accesses to the device range through BAR2 (R213, R415, R421, R425, R435, R447).
-/
namespace Sys2Proof.Machine

/-! ### Authority by region (R447) -/

/-- R447: control firmware's tables, the Aster counter ring and the step journal in the device range. -/
def ownRegions (s : State) : List Region :=
  ([asterRing, journalRing].map fun r => (⟨ringBase s r, ringBytes s r⟩ : Region)) ++
  [⟨getF s Reg.MEM_DIST_BASE, 24576⟩, ⟨getF s Reg.FAB_WINDOW_BASE, 32768⟩, ⟨getF s Reg.FAB_REPORT_BASE, 128⟩]

def clientRegion (s : State) : Region := ⟨getF s Reg.CTX_ACCT_BASE, 262144⟩

/-- R447: the context whose span table holds the address. -/
def tableCtx (s : State) (a : Nat) : Option (Nat × Ctx) :=
  s.ctxs.find? fun c => c.2.releaseStep.isNone && !c.2.freed && decide (c.2.table ≤ a) && decide (a < c.2.table + tableBytes c.2.desc.maxLen)

/-- R447: the lease of what holds a tiered extent. -/
def extentLease (s : State) (e : Extent) : Option Nat :=
  match e.owner with
  | .gen n => (genLoad s n).map fun l => l.lease
  | .small k => (alGet s.wts.smalls k).map fun m => m.load.lease
  | .archive id => (alGet s.prefs id).map fun x => x.lease
  | .image => none

/-- R447: the lease whose binding lets a host read the byte; none where the read is refused. -/
def readLease (s : State) (a : Nat) : Option Nat :=
  if inTier a then (alGet s.extents (extentOf a)).bind (extentLease s)
  else match s.img with
    | none => none
    | some i =>
      match poolPageAt s a with
      | some pg => (alGet s.pages pg).map fun x => x.lease
      | none =>
        if inRegion i.vmap.ctxRegion a 1 then (tableCtx s a).map fun c => c.2.desc.lease
        else if (i.vmap.saveArea :: i.vmap.scratch).any (fun r => inRegion r a 1) then none
        else if inRegion (capRegion s) a 1 then (if s.wts.capLease = 0 then none else some s.wts.capLease)
        else if inRegion (clientRegion s) a 1 then (alGet s.clients ((a - (clientRegion s).base) / 64)).map fun c => c.lease
        else some i.lease

/-- R447: the lease whose binding lets a host write the byte. -/
def writeLease (s : State) (a : Nat) : Option Nat :=
  match s.img with
  | none => none
  | some i =>
    let closed := [i.vmap.ctxRegion, i.vmap.saveArea, capRegion s, clientRegion s] ++ i.vmap.scratch ++ ownRegions s
    if inTier a || (poolPageAt s a).isSome || closed.any (fun r => inRegion r a 1) then none else some i.lease

/-- R425, R447: every byte of the access belongs to a lease bound to the port, whose data the port may carry. -/
def barAllowed (lease : Nat → Option Nat) (s : State) (p : Port) (a n : Nat) : Bool :=
  (List.range n).all fun i =>
    match lease (a + i) with
    | some l => leaseBound s l p && ideOk s l p
    | none => false

/-! ### The accesses (R421) -/

/-- R421: the device-range address behind a BAR2 offset. -/
def barAddr (s : State) (p : Port) (off : Nat) : Nat := getP s p Reg.HOST_BAR2_WIN_LO * 2 ^ 30 + getP s p Reg.HOST_BAR2_WIN_HI * 2 ^ 32 + off

/-- The access lies in the BAR (R420). -/
def inBar2 (s : State) (p : Port) (off n : Nat) : Bool := decide (off + n ≤ 2 ^ (portSt s p).bar2)

/-- R435: SIZE of a logged access; a free value where its log2 is no whole number of at most 7. -/
def sizeLog2 (n : Nat) : Nat := match (List.range 8).find? fun k => 2 ^ k == n with | some k => k | none => (Config.code 435 n).toNat % 8

def barRefused (p : Port) (write : Bool) (off n : Nat) (s : State) : State := logBad 1 p write (sizeLog2 n) false 0x23 off s

/-- A granule read for a host (R203, R204, R207): a failing one is delivered as stored and makes the completion poisoned
(R213); nothing of it concerns the running portion. -/
def barGranule (chk : List (Nat × Check)) (hostOk : Bool) (r : State × Bool) (g : Nat) : State × Bool :=
  let s := r.1
  let x := extentOf (g * 64)
  if inTier (g * 64) && !(match alGet s.extents x with | some e => isResident e | none => false) && !servedFromCard s x then
    if hostCopy s x hostOk then (bump s Reg.MEM_HOST_FETCH 1, r.2) else (s, true)
  else
    let s0 := if inTier (g * 64) then cacheTouch x s else countGranules (g * 64) 64 0 s
    match checkOf s0 chk g with
    | .ok => (s0, r.2)
    | .reread => (bump s0 Reg.MEM_REREAD_OK 1, r.2)
    | .hard => (setMark (bump s0 Reg.MEM_DRAM_DETECT 1) g true, true)

/-- R421: a host read. -/
def execBar2Read (p : Port) (off len : Nat) (chk : List (Nat × Check)) (hostOk : Bool) (s : State) : Res :=
  .next (viaPf0 s p fun s =>
    let a := barAddr s p off
    if !inBar2 s p off len then s
    else if devReadOk s a len && barAllowed (readLease s) s p a len then
      let r := (granulesOf a len).foldl (barGranule chk hostOk) (s, false)
      emit r.1 (if r.2 then .readPoisoned p (rdBytes s a len) else .readData p (rdBytes s a len))
    else emit (barRefused p false off len s) (.readData p (List.replicate len 0)))

/-- R421: a host write. -/
def execBar2Write (p : Port) (off : Nat) (bytes : List (BitVec 8)) (s : State) : Res :=
  .next (viaPf0 s p fun s =>
    let a := barAddr s p off
    let n := bytes.length
    if !inBar2 s p off n then s
    else if devWriteOk s a n && barAllowed (writeLease s) s p a n then putBytes s a (bytes.map fun b => b.toNat)
    else barRefused p true off n s)

/-- R421: the value that a host AtomicOp leaves, in `w` bits. -/
def barAtomNew (fn : BarAtom) (w old operand compare : Nat) : Nat :=
  match fn with
  | .fetchAdd => (old + operand) % 2 ^ w
  | .swap => operand % 2 ^ w
  | .cas => if old = compare % 2 ^ w then operand % 2 ^ w else old

/-- R35, R415, R421: a host AtomicOp of 32 or 64 bits, applied indivisibly.  On a granule that fails its check it is not
applied, and its completion is poisoned. -/
def execBar2Atomic (p : Port) (fn : BarAtom) (wide : Bool) (off : Nat) (operand compare : BitVec 64) (check : Check) (s : State) : Res :=
  .next (viaPf0 s p fun s =>
    let a := barAddr s p off
    let n := if wide then 8 else 4
    if !inBar2 s p off n then s
    else if a % n == 0 && devWriteOk s a n && barAllowed (writeLease s) s p a n then
      let old := rdBytes s a n
      let r := barGranule [(a / 64, check)] false (s, false) (a / 64)
      if r.2 then emit r.1 (.readPoisoned p old)
      else emit (putBytes r.1 a (leBytes n (barAtomNew fn (8 * n) (leNat old) operand.toNat compare.toNat))) (.readData p old)
    else emit (barRefused p true off n s) (.readData p (List.replicate n 0)))

end Sys2Proof.Machine
end

