-- ==== Sys2Proof/Machine/Dispatch.lean ====
section
/-!
DEFINITION. Machine/Dispatch.lean: the meaning of each command, one direct call per constructor.
-/
namespace Sys2Proof.Machine

def exec (i : Instr) (s : State) : Host.Outcome State Fault Refusal :=
  match i with
  | .registerWrite p off v => Sys2Proof.Machine.execRegisterWrite p off v s
  | .badAccess p bar4 off size write => Sys2Proof.Machine.execBadAccess p bar4 off size write s
  | .pairLowerRead p off => Sys2Proof.Machine.execPairLowerRead p off s
  | .pairUpperRead p off => Sys2Proof.Machine.execPairUpperRead p off s
  | .lockSet p block => Sys2Proof.Machine.execLockSet p block s
  | .nop ins => Sys2Proof.Machine.execNop ins s
  | .loop ins target taken => Sys2Proof.Machine.execLoop ins target taken s
  | .branch ins target taken => Sys2Proof.Machine.execBranch ins target taken s
  | .fallbackEntry ins => Sys2Proof.Machine.execFallbackEntry ins s
  | .endLayer ins => Sys2Proof.Machine.execEndLayer ins s
  | .endStep ins => Sys2Proof.Machine.execEndStep ins s
  | .mma ins aGranule wGranule row mMinus1 wfmt => Sys2Proof.Machine.execMma ins aGranule wGranule row mMinus1 wfmt s
  | .mmaX ins aGranule wGranule row mMinus1 => Sys2Proof.Machine.execMmaX ins aGranule wGranule row mMinus1 s
  | .mmaF16 ins aGranule wGranule row mMinus1 wfmt => Sys2Proof.Machine.execMmaF16 ins aGranule wGranule row mMinus1 wfmt s
  | .mmaPassComplete core mismatch latency => Sys2Proof.Machine.execMmaPassComplete core mismatch latency s
  | .residueRerunComplete core mismatch latency t => Sys2Proof.Machine.execResidueRerunComplete core mismatch latency t s
  | .accZero ins row m => Sys2Proof.Machine.execAccZero ins row m s
  | .accConvert ins row m fmt ctl dst elem0 coords => Sys2Proof.Machine.execAccConvert ins row m fmt ctl dst elem0 coords s
  | .trapMessage core layer => Sys2Proof.Machine.execTrapMessage core layer s
  | .trapDrainDone core entry => Sys2Proof.Machine.execTrapDrainDone core entry s
  | .accExport ins row col dst => Sys2Proof.Machine.execAccExport ins row col dst s
  | .accImport ins row col src => Sys2Proof.Machine.execAccImport ins row col src s
  | .vecOp ins fn lanes dst src1 src2 src3 => Sys2Proof.Machine.execVecOp ins fn lanes dst src1 src2 src3 s
  | .mov ins descGranule commons countMinus1 => Sys2Proof.Machine.execMov ins descGranule commons countMinus1 s
  | .memLoad ins addr len dst chk hostOk => Sys2Proof.Machine.execMemLoad ins addr len dst chk hostOk s
  | .memStore ins addr src len chk => Sys2Proof.Machine.execMemStore ins addr src len chk s
  | .memAtomic ins fn wide addr operand compare dst chk => Sys2Proof.Machine.execMemAtomic ins fn wide addr operand compare dst chk s
  | .memFence ins => Sys2Proof.Machine.execMemFence ins s
  | .memRelease ins addr src len chk => Sys2Proof.Machine.execMemRelease ins addr src len chk s
  | .memAcquire ins addr len dst chk hostOk => Sys2Proof.Machine.execMemAcquire ins addr len dst chk hostOk s
  | .engRequest ins engine half granule => Sys2Proof.Machine.execEngRequest ins engine half granule s
  | .wait ins units count => Sys2Proof.Machine.execWait ins units count s
  | .barrier ins => Sys2Proof.Machine.execBarrier ins s
  | .instructionComplete core unit index latency => Sys2Proof.Machine.execInstructionComplete core unit index latency s
  | .rload ins target job size offset loc => Sys2Proof.Machine.execRload ins target job size offset loc s
  | .rstore ins target job size offset loc => Sys2Proof.Machine.execRstore ins target job size offset loc s
  | .rfadd ins target job size offset loc => Sys2Proof.Machine.execRfadd ins target job size offset loc s
  | .rcas ins target job size offset loc => Sys2Proof.Machine.execRcas ins target job size offset loc s
  | .rmin ins target job size offset loc => Sys2Proof.Machine.execRmin ins target job size offset loc s
  | .rmax ins target job size offset loc => Sys2Proof.Machine.execRmax ins target job size offset loc s
  | .rreduce ins target job size form scale offset loc => Sys2Proof.Machine.execRreduce ins target job size form scale offset loc s
  | .rmstore ins group job size offset loc => Sys2Proof.Machine.execRmstore ins group job size offset loc s
  | .rfence ins => Sys2Proof.Machine.execRfence ins s
  | .rretry ins target job size offset loc => Sys2Proof.Machine.execRretry ins target job size offset loc s
  | .preemptionPost cores => Sys2Proof.Machine.execPreemptionPost cores s
  | .cheapPointSave core index lrIndex => Sys2Proof.Machine.execCheapPointSave core index lrIndex s
  | .preemptResume core => Sys2Proof.Machine.execPreemptResume core s
  | .softmax half chk hostOk => Sys2Proof.Machine.execSoftmax half chk hostOk s
  | .rmsnorm half chk hostOk => Sys2Proof.Machine.execRmsnorm half chk hostOk s
  | .layernorm half chk hostOk => Sys2Proof.Machine.execLayernorm half chk hostOk s
  | .rotate half chk hostOk => Sys2Proof.Machine.execRotate half chk hostOk s
  | .append half chk hostOk => Sys2Proof.Machine.execAppend half chk hostOk s
  | .sample half chk hostOk => Sys2Proof.Machine.execSample half chk hostOk s
  | .verify half chk hostOk => Sys2Proof.Machine.execVerify half chk hostOk s
  | .walk half chk => Sys2Proof.Machine.execWalk half chk s
  | .route half chk hostOk => Sys2Proof.Machine.execRoute half chk hostOk s
  | .engineCommandDone half engine latency => Sys2Proof.Machine.execEngineCommandDone half engine latency s
  | .engineWatchdog half engine => Sys2Proof.Machine.execEngineWatchdog half engine s
  | .copy half chk hostOk host => Sys2Proof.Machine.execCopy half chk hostOk host s
  | .copy2d half chk hostOk host => Sys2Proof.Machine.execCopy2d half chk hostOk host s
  | .fillZero half => Sys2Proof.Machine.execFillZero half s
  | .pageToKt half chk hostOk host => Sys2Proof.Machine.execPageToKt half chk hostOk host s
  | .pageToVx half chk hostOk host => Sys2Proof.Machine.execPageToVx half chk hostOk host s
  | .sashDescriptorDone half place latency => Sys2Proof.Machine.execSashDescriptorDone half place latency s
  | .ringEnable p ring en => Sys2Proof.Machine.execRingEnable p ring en s
  | .ringTailWrite p ring v => Sys2Proof.Machine.execRingTailWrite p ring v s
  | .expertPromotion => Sys2Proof.Machine.execExpertPromotion s
  | .stepBoundary t host places lost => Sys2Proof.Machine.execStepBoundary t host places lost s
  | .tenantSelect p slot => Sys2Proof.Machine.execTenantSelect p slot s
  | .prefixArchiveDone id => Sys2Proof.Machine.execPrefixArchiveDone id s
  | .prefixRestoreDone id ok => Sys2Proof.Machine.execPrefixRestoreDone id ok s
  | .refetchDone granule fromFlash hostOk failsAgain t => Sys2Proof.Machine.execRefetchDone granule fromFlash hostOk failsAgain t s
  | .scrubRead addr check failsAgain t => Sys2Proof.Machine.execScrubRead addr check failsAgain t s
  | .extentFetchDone extent ok => Sys2Proof.Machine.execExtentFetchDone extent ok s
  | .frameRelease extent => Sys2Proof.Machine.execFrameRelease extent s
  | .flashRelocate card block wearPct sparePct worn exhausted => Sys2Proof.Machine.execFlashRelocate card block wearPct sparePct worn exhausted s
  | .flashRefresh card block wearPct sparePct worn exhausted => Sys2Proof.Machine.execFlashRefresh card block wearPct sparePct worn exhausted s
  | .wearLevel card block wearPct sparePct worn exhausted => Sys2Proof.Machine.execWearLevel card block wearPct sparePct worn exhausted s
  | .cardControllerFault card => Sys2Proof.Machine.execCardControllerFault card s
  | .cardPulled card => Sys2Proof.Machine.execCardPulled card s
  | .cardInserted card serial wearPct sparePct => Sys2Proof.Machine.execCardInserted card serial wearPct sparePct s
  | .cardRebuildDone card => Sys2Proof.Machine.execCardRebuildDone card s
  | .prepareRemove p card => Sys2Proof.Machine.execPrepareRemove p card s
  | .cardCancel p card => Sys2Proof.Machine.execCardCancel p card s
  | .portionEnd t => Sys2Proof.Machine.execPortionEnd t s
  | .portionRerunDone t => Sys2Proof.Machine.execPortionRerunDone t s
  | .loadGo p port host => Sys2Proof.Machine.execLoadGo p port host s
  | .loadAbort p => Sys2Proof.Machine.execLoadAbort p s
  | .loadPullDone how data digestOk => Sys2Proof.Machine.execLoadPullDone how data digestOk s
  | .loadPrimeDone how => Sys2Proof.Machine.execLoadPrimeDone how s
  | .switch p slot => Sys2Proof.Machine.execSwitch p slot s
  | .discard p slot => Sys2Proof.Machine.execDiscard p slot s
  | .release p index => Sys2Proof.Machine.execRelease p index s
  | .ringPoll host t => Sys2Proof.Machine.execRingPoll host t s
  | .lcPoll host t => Sys2Proof.Machine.execLcPoll host t s
  | .stepReceive h t => Sys2Proof.Machine.execStepReceive h t s
  | .returnMessage m t => Sys2Proof.Machine.execReturnMessage m t s
  | .returnLimitExpire step t => Sys2Proof.Machine.execReturnLimitExpire step t s
  | .orphanLimitExpire ctx t => Sys2Proof.Machine.execOrphanLimitExpire ctx t s
  | .lcRingEnable p on => Sys2Proof.Machine.execLcRingEnable p on s
  | .beRingEnable p on => Sys2Proof.Machine.execBeRingEnable p on s
  | .cplEnable p on => Sys2Proof.Machine.execCplEnable p on s
  | .cplTailWrite p v => Sys2Proof.Machine.execCplTailWrite p v s
  | .stepOriginWrite p v => Sys2Proof.Machine.execStepOriginWrite p v s
  | .adoptGo p host authSeq => Sys2Proof.Machine.execAdoptGo p host authSeq s
  | .flitCrcFail router port sameFlit => Sys2Proof.Machine.execFlitCrcFail router port sameFlit s
  | .flitReplayRequest router port t => Sys2Proof.Machine.execFlitReplayRequest router port t s
  | .meshTimeout core read => Sys2Proof.Machine.execMeshTimeout core read s
  | .routeChangeStart routers => Sys2Proof.Machine.execRouteChangeStart routers s
  | .routeChangeMarker router => Sys2Proof.Machine.execRouteChangeMarker router s
  | .routeChangeAck router => Sys2Proof.Machine.execRouteChangeAck router s
  | .laneTrain port reversed good keyOk t => Sys2Proof.Machine.execLaneTrain port reversed good keyOk t s
  | .laneFail port lane t => Sys2Proof.Machine.execLaneFail port lane t s
  | .laneRecal port => Sys2Proof.Machine.execLaneRecal port s
  | .frameAuthFail port => Sys2Proof.Machine.execFrameAuthFail port s
  | .linkKeyRenew port t => Sys2Proof.Machine.execLinkKeyRenew port t s
  | .load port bytes chk hostOk t => Sys2Proof.Machine.execLoad port bytes chk hostOk t s
  | .store port bytes chk t => Sys2Proof.Machine.execStore port bytes chk t s
  | .fadd port bytes chk t => Sys2Proof.Machine.execFadd port bytes chk t s
  | .cas port bytes chk t => Sys2Proof.Machine.execCas port bytes chk t s
  | .min port bytes chk t => Sys2Proof.Machine.execMin port bytes chk t s
  | .max port bytes chk t => Sys2Proof.Machine.execMax port bytes chk t s
  | .reduce port bytes chk t => Sys2Proof.Machine.execReduce port bytes chk t s
  | .mstore port bytes chk t => Sys2Proof.Machine.execMstore port bytes chk t s
  | .bulkWrite port bytes chk t => Sys2Proof.Machine.execBulkWrite port bytes chk t s
  | .bulkRead port bytes chk hostOk t => Sys2Proof.Machine.execBulkRead port bytes chk hostOk t s
  | .reply port bytes t => Sys2Proof.Machine.execReply port bytes t s
  | .sync port bytes t => Sys2Proof.Machine.execSync port bytes t s
  | .stepAbort port bytes t => Sys2Proof.Machine.execStepAbort port bytes t s
  | .portionFailed port bytes t => Sys2Proof.Machine.execPortionFailed port bytes t s
  | .staleNotice port bytes t => Sys2Proof.Machine.execStaleNotice port bytes t s
  | .discover port rack plane swPort t => Sys2Proof.Machine.execDiscover port rack plane swPort t s
  | .planeAnnouncement plane l t => Sys2Proof.Machine.execPlaneAnnouncement plane l t s
  | .fabricPortStateChange port link t => Sys2Proof.Machine.execFabricPortStateChange port link t s
  | .retryIntervalExpire t => Sys2Proof.Machine.execRetryIntervalExpire t s
  | .loadBoundExpire t => Sys2Proof.Machine.execLoadBoundExpire t s
  | .replyCacheExpire t => Sys2Proof.Machine.execReplyCacheExpire t s
  | .atomicThrottleRelease t => Sys2Proof.Machine.execAtomicThrottleRelease t s
  | .memberApply p host authOk => Sys2Proof.Machine.execMemberApply p host authOk s
  | .enter p fresh => Sys2Proof.Machine.execEnter p fresh s
  | .leave p => Sys2Proof.Machine.execLeave p s
  | .submit p host => Sys2Proof.Machine.execSubmit p host s
  | .arm p lease => Sys2Proof.Machine.execArm p lease s
  | .imageGo p => Sys2Proof.Machine.execImageGo p s
  | .imageAbort p => Sys2Proof.Machine.execImageAbort p s
  | .imageFetchDone ok d => Sys2Proof.Machine.execImageFetchDone ok d s
  | .wholeApply => Sys2Proof.Machine.execWholeApply s
  | .regionalApply => Sys2Proof.Machine.execRegionalApply s
  | .pllLock refA refB tpos unstable t => Sys2Proof.Machine.execPllLock refA refB tpos unstable t s
  | .dividerStep t => Sys2Proof.Machine.execDividerStep t s
  | .nclkTargetWrite p v => Sys2Proof.Machine.execNclkTargetWrite p v s
  | .cclkTargetWrite p v => Sys2Proof.Machine.execCclkTargetWrite p v s
  | .vcoreSlewDone half => Sys2Proof.Machine.execVcoreSlewDone half s
  | .droopTrip core t => Sys2Proof.Machine.execDroopTrip core t s
  | .droopHoldExpire core t => Sys2Proof.Machine.execDroopHoldExpire core t s
  | .referenceLost p t => Sys2Proof.Machine.execReferenceLost p t s
  | .referenceOk p t => Sys2Proof.Machine.execReferenceOk p t s
  | .sourceSelect p v t => Sys2Proof.Machine.execSourceSelect p v t s
  | .pllRelock t => Sys2Proof.Machine.execPllRelock t s
  | .holdoverLimitExpire t => Sys2Proof.Machine.execHoldoverLimitExpire t s
  | .sscUpdate => Sys2Proof.Machine.execSscUpdate s
  | .fcountStart p v => Sys2Proof.Machine.execFcountStart p v s
  | .fcountDone p measured roundUp => Sys2Proof.Machine.execFcountDone p measured roundUp s
  | .powerLoop coreEst restEst predCore predRest t => Sys2Proof.Machine.execPowerLoop coreEst restEst predCore predRest t s
  | .gainCalibration coreEst restEst coreMeas inputMeas => Sys2Proof.Machine.execGainCalibration coreEst restEst coreMeas inputMeas s
  | .capTargetWrite p v => Sys2Proof.Machine.execCapTargetWrite p v s
  | .capUnmet t => Sys2Proof.Machine.execCapUnmet t s
  | .shutterAssert t => Sys2Proof.Machine.execShutterAssert t s
  | .shutterRelease meanMw t => Sys2Proof.Machine.execShutterRelease meanMw t s
  | .shutterStuck t => Sys2Proof.Machine.execShutterStuck t s
  | .thermalCheck js vs inl outl vinMv iinCa meanMw t => Sys2Proof.Machine.execThermalCheck js vs inl outl vinMv iinCa meanMw t s
  | .inletRange t => Sys2Proof.Machine.execInletRange t s
  | .leakAssert t => Sys2Proof.Machine.execLeakAssert t s
  | .leakRelease meanMw t => Sys2Proof.Machine.execLeakRelease meanMw t s
  | .leakGraceExpire t => Sys2Proof.Machine.execLeakGraceExpire t s
  | .vinLow t => Sys2Proof.Machine.execVinLow t s
  | .inputUndervoltage t => Sys2Proof.Machine.execInputUndervoltage t s
  | .inputOvervoltage t => Sys2Proof.Machine.execInputOvervoltage t s
  | .inputReversed => Sys2Proof.Machine.execInputReversed s
  | .railShort rail t => Sys2Proof.Machine.execRailShort rail t s
  | .flashRailShort card => Sys2Proof.Machine.execFlashRailShort card s
  | .senseOpen => Sys2Proof.Machine.execSenseOpen s
  | .inputRemoved ms => Sys2Proof.Machine.execInputRemoved ms s
  | .inputPowerValid refPresent => Sys2Proof.Machine.execInputPowerValid refPresent s
  | .referenceReturn => Sys2Proof.Machine.execReferenceReturn s
  | .resetRequest t => Sys2Proof.Machine.execResetRequest t s
  | .bootVerifyDone okSec bad versions measures => Sys2Proof.Machine.execBootVerifyDone okSec bad versions measures s
  | .selftestDone r info => Sys2Proof.Machine.execSelftestDone r info s
  | .functionsReady dist acct win report => Sys2Proof.Machine.execFunctionsReady dist acct win report s
  | .selftestExtended sess => Sys2Proof.Machine.execSelftestExtended sess s
  | .extendedSelftestDone r info => Sys2Proof.Machine.execExtendedSelftestDone r info s
  | .perstAssert p t => Sys2Proof.Machine.execPerstAssert p t s
  | .linkDownTimeout p t => Sys2Proof.Machine.execLinkDownTimeout p t s
  | .d3hotEntry p => Sys2Proof.Machine.execD3hotEntry p s
  | .functionLevelReset p => Sys2Proof.Machine.execFunctionLevelReset p s
  | .portUp p speed width reversed => Sys2Proof.Machine.execPortUp p speed width reversed s
  | .perstStuck p t => Sys2Proof.Machine.execPerstStuck p t s
  | .sidebandToggling ins t => Sys2Proof.Machine.execSidebandToggling ins t s
  | .togglingEnd ins asserted meanMw t => Sys2Proof.Machine.execTogglingEnd ins asserted meanMw t s
  | .irqHoldoffExpire p => Sys2Proof.Machine.execIrqHoldoffExpire p s
  | .bar2Read p off len chk hostOk => Sys2Proof.Machine.execBar2Read p off len chk hostOk s
  | .bar2Write p off bytes => Sys2Proof.Machine.execBar2Write p off bytes s
  | .bar2Atomic p fn wide off operand compare check => Sys2Proof.Machine.execBar2Atomic p fn wide off operand compare check s
  | .hostReadTimeout p what => Sys2Proof.Machine.execHostReadTimeout p what s
  | .ideIntegrityFail p => Sys2Proof.Machine.execIdeIntegrityFail p s
  | .ideKm p => Sys2Proof.Machine.execIdeKm p s
  | .setEndpointId eid => Sys2Proof.Machine.execSetEndpointId eid s
  | .entdaa addr => Sys2Proof.Machine.execEntdaa addr s
  | .pldmSensorRead sensor => Sys2Proof.Machine.execPldmSensorRead sensor s
  | .pldmCapEffecter watts => Sys2Proof.Machine.execPldmCapEffecter watts s
  | .pldmFirmwareUpdate c version floor miotric owner measure => Sys2Proof.Machine.execPldmFirmwareUpdate c version floor miotric owner measure s
  | .getCertificate slot => Sys2Proof.Machine.execGetCertificate slot s
  | .challenge slot nonce => Sys2Proof.Machine.execChallenge slot nonce s
  | .getMeasurements index nonce => Sys2Proof.Machine.execGetMeasurements index nonce s
  | .keyExchange party key verified => Sys2Proof.Machine.execKeyExchange party key verified s
  | .takeOwnership sess tokenOk => Sys2Proof.Machine.execTakeOwnership sess tokenOk s
  | .transferOwnership sess key => Sys2Proof.Machine.execTransferOwnership sess key s
  | .releaseOwnership sess => Sys2Proof.Machine.execReleaseOwnership sess s
  | .setFwPolicy sess minVersion countersign => Sys2Proof.Machine.execSetFwPolicy sess minVersion countersign s
  | .setAppKey sess key => Sys2Proof.Machine.execSetAppKey sess key s
  | .leaseAuthorise sess r => Sys2Proof.Machine.execLeaseAuthorise sess r s
  | .leaseQuota sess r => Sys2Proof.Machine.execLeaseQuota sess r s
  | .leaseEndRecord sess r => Sys2Proof.Machine.execLeaseEndRecord sess r s
  | .installLeaseKey sess => Sys2Proof.Machine.execInstallLeaseKey sess s
  | .portBind sess p => Sys2Proof.Machine.execPortBind sess p s
  | .portUnbind sess p => Sys2Proof.Machine.execPortUnbind sess p s
  | .ledgerRead sess first count => Sys2Proof.Machine.execLedgerRead sess first count s
  | .eraseReportRead sess lease => Sys2Proof.Machine.execEraseReportRead sess lease s
  | .debugChallenge sess => Sys2Proof.Machine.execDebugChallenge sess s
  | .debugUnlock sess miotric owner => Sys2Proof.Machine.execDebugUnlock sess miotric owner s
  | .glitchAck sess => Sys2Proof.Machine.execGlitchAck sess s
  | .glitchTrip detector => Sys2Proof.Machine.execGlitchTrip detector s
  | .backgroundZeroiseDone lease => Sys2Proof.Machine.execBackgroundZeroiseDone lease s
  | .leaseSelect p slot => Sys2Proof.Machine.execLeaseSelect p slot s
  | .controlFwHandoff => Sys2Proof.Machine.execControlFwHandoff s
  | .controlFwRollback => Sys2Proof.Machine.execControlFwRollback s
  | .securityFwSwap => Sys2Proof.Machine.execSecurityFwSwap s
  | .mgmtFwSwap => Sys2Proof.Machine.execMgmtFwSwap s
  | .powerFwSwap => Sys2Proof.Machine.execPowerFwSwap s
  | .ledgerPowerRecord t => Sys2Proof.Machine.execLedgerPowerRecord t s
  | .ledgerIntegrityRecord t => Sys2Proof.Machine.execLedgerIntegrityRecord t s
  | .freeze p on => Sys2Proof.Machine.execFreeze p on s
  | .snap p => Sys2Proof.Machine.execSnap p s
  | .snapPeriod t => Sys2Proof.Machine.execSnapPeriod t s
  | .snapshotDone => Sys2Proof.Machine.execSnapshotDone s
  | .snapRecordsWrite p v => Sys2Proof.Machine.execSnapRecordsWrite p v s
  | .samplingEnable p v => Sys2Proof.Machine.execSamplingEnable p v s
  | .pmcLayerWrite p n v => Sys2Proof.Machine.execPmcLayerWrite p n v s
  | .configurationRequest p bar2 => Sys2Proof.Machine.execConfigurationRequest p bar2 s
  | .perstRelease p t => Sys2Proof.Machine.execPerstRelease p t s
  | .dlActiveLost p t => Sys2Proof.Machine.execDlActiveLost p t s
  | .extentRebuilt extent hostOk failing => Sys2Proof.Machine.execExtentRebuilt extent hostOk failing s
  | .hostReadRefused p what => Sys2Proof.Machine.execHostReadRefused p what s
  | .counterWrap e past => Sys2Proof.Machine.execCounterWrap e past s

end Sys2Proof.Machine
end

