-- ==== Sys2Proof/WellFormed.lean ====
section
/-!
DEFINITION. WellFormed.lean: the operand fields with which an image's instruction is loaded (R70, R71, R109, R310).  An image
that holds an instruction outside them is refused at load, so no core ever issues one.
-/
namespace Sys2Proof

/-- R109: ROW and M of a pass name accumulator rows. -/
def Instr.passRows (row mMinus1 : Nat) : Bool := decide (row + mMinus1 + 1 ≤ 128)

/-- R101: a row range of the ACC family. -/
def Instr.accRows (row m : Nat) : Bool := decide (row + m ≤ 128)

/-- R96: one accumulator. -/
def Instr.accAt (row col : Nat) : Bool := decide (row < 128) && decide (col < 128)

/-- R70, R71: a control word: RANK 1 to 8; OVF not 3; with ROUND set, STREAM 4 or at least 0x10. -/
def Instr.convCtl (ctl : Nat) : Bool :=
  let rank := ctl / 2 % 16
  let ovf := ctl / 32 % 4
  let stream := ctl / 256 % 256
  decide (1 ≤ rank) && decide (rank ≤ 8) && decide (ovf ≠ 3) && (ctl % 2 == 0 || stream == 4 || decide (16 ≤ stream))

/-- R109: UNITS has five bits and COUNT is at most 32. -/
def Instr.waitFields (units count : Nat) : Bool := decide (units < 32) && decide (count ≤ 32)

/-- R310: TARGET or group, JOB, SIZE (`sizes` codes), OFFSET and LOCAL. -/
def Instr.remoteFields (sizes target job size offset loc : Nat) : Bool :=
  decide (target < 128) && decide (job < 4096) && decide (size < sizes) && decide (offset < 2 ^ 40) && decide (loc < 2 ^ 15)

/-- The command's operand fields are such as an image is loaded with; every other command has no such field. -/
def Instr.wf : Instr → Bool
  | .mma _ _ _ row m _ => passRows row m
  | .mmaX _ _ _ row m => passRows row m
  | .mmaF16 _ _ _ row m f => passRows row m && f != .kv8
  | .accZero _ row m => accRows row m
  | .accConvert _ row m _ ctl _ _ _ => accRows row m && convCtl ctl
  | .accExport _ row col _ => accAt row col
  | .accImport _ row col _ => accAt row col
  | .wait _ units count => waitFields units count
  | .rload _ target job size offset loc => remoteFields 6 target job size offset loc
  | .rstore _ target job size offset loc => remoteFields 6 target job size offset loc
  | .rfadd _ target job size offset loc => remoteFields 2 target job size offset loc
  | .rcas _ target job size offset loc => remoteFields 2 target job size offset loc
  | .rmin _ target job size offset loc => remoteFields 2 target job size offset loc
  | .rmax _ target job size offset loc => remoteFields 2 target job size offset loc
  | .rreduce _ target job size _ scale offset loc => remoteFields 6 target job size offset loc && decide (scale ≤ 128)
  | .rmstore _ group job size offset loc => remoteFields 6 group job size offset loc
  | .rretry _ target job size offset loc => remoteFields 2 target job size offset loc
  | _ => true

end Sys2Proof
end

