-- ==== Sys2Proof/Safety.lean ====
section
/-!
DEFINITION. Safety.lean: the invariant of the module's data that every command keeps, and the words in which statements say what
a command leaves alone.
-/
namespace Sys2Proof.Machine

/-- Memory is in its canonical form, registers are listed once each in order, and every mark listed is a set one. -/
def State.Inv (s : State) : Prop :=
  Memory.wf s.mem = true ∧ smSorted s.flds = true ∧ smCanon false s.marks = true

/-! ### Parts of the state -/

/-- The fields of State. -/
inductive Part where
  | flds | latchA | latchB | mem | marks | accs | cores | engQ | sashQ | rr | barriers | portion | suspended | finals
  | inbox | lastStep | experts | boundaries | extents | ctxs | pages | prefs | prefSeq | clients | cplHeld
  | layerSlots | ringRecs | now | refetch | hardFails | rewritten | ready | cardSerial | cardSeated | blockReads
  | holdoffA | holdoffB | deferA | deferB | nvFault | vflashLatched | residueTimes | ledger | ledgerSeq | movesHeld
  | img | clk | pwr | boot | sec | wts | ctl | fab | mesh | snp | fresh | out | pending
deriving DecidableEq, Repr

/-- A part of the state is the same in both. -/
def State.same : Part → State → State → Prop
  | .flds, s, t => t.flds = s.flds
  | .latchA, s, t => t.latchA = s.latchA
  | .latchB, s, t => t.latchB = s.latchB
  | .mem, s, t => t.mem = s.mem
  | .marks, s, t => t.marks = s.marks
  | .accs, s, t => t.accs = s.accs
  | .cores, s, t => t.cores = s.cores
  | .engQ, s, t => t.engQ = s.engQ
  | .sashQ, s, t => t.sashQ = s.sashQ
  | .rr, s, t => t.rr = s.rr
  | .barriers, s, t => t.barriers = s.barriers
  | .portion, s, t => t.portion = s.portion
  | .suspended, s, t => t.suspended = s.suspended
  | .finals, s, t => t.finals = s.finals
  | .inbox, s, t => t.inbox = s.inbox
  | .lastStep, s, t => t.lastStep = s.lastStep
  | .experts, s, t => t.experts = s.experts
  | .boundaries, s, t => t.boundaries = s.boundaries
  | .extents, s, t => t.extents = s.extents
  | .ctxs, s, t => t.ctxs = s.ctxs
  | .pages, s, t => t.pages = s.pages
  | .prefs, s, t => t.prefs = s.prefs
  | .prefSeq, s, t => t.prefSeq = s.prefSeq
  | .clients, s, t => t.clients = s.clients
  | .cplHeld, s, t => t.cplHeld = s.cplHeld
  | .layerSlots, s, t => t.layerSlots = s.layerSlots
  | .ringRecs, s, t => t.ringRecs = s.ringRecs
  | .now, s, t => t.now = s.now
  | .refetch, s, t => t.refetch = s.refetch
  | .hardFails, s, t => t.hardFails = s.hardFails
  | .rewritten, s, t => t.rewritten = s.rewritten
  | .ready, s, t => t.ready = s.ready
  | .cardSerial, s, t => t.cardSerial = s.cardSerial
  | .cardSeated, s, t => t.cardSeated = s.cardSeated
  | .blockReads, s, t => t.blockReads = s.blockReads
  | .holdoffA, s, t => t.holdoffA = s.holdoffA
  | .holdoffB, s, t => t.holdoffB = s.holdoffB
  | .deferA, s, t => t.deferA = s.deferA
  | .deferB, s, t => t.deferB = s.deferB
  | .nvFault, s, t => t.nvFault = s.nvFault
  | .vflashLatched, s, t => t.vflashLatched = s.vflashLatched
  | .residueTimes, s, t => t.residueTimes = s.residueTimes
  | .ledger, s, t => t.ledger = s.ledger
  | .ledgerSeq, s, t => t.ledgerSeq = s.ledgerSeq
  | .movesHeld, s, t => t.movesHeld = s.movesHeld
  | .img, s, t => t.img = s.img
  | .clk, s, t => t.clk = s.clk
  | .pwr, s, t => t.pwr = s.pwr
  | .boot, s, t => t.boot = s.boot
  | .sec, s, t => t.sec = s.sec
  | .wts, s, t => t.wts = s.wts
  | .ctl, s, t => t.ctl = s.ctl
  | .fab, s, t => t.fab = s.fab
  | .mesh, s, t => t.mesh = s.mesh
  | .snp, s, t => t.snp = s.snp
  | .fresh, s, t => t.fresh = s.fresh
  | .out, s, t => t.out = s.out
  | .pending, s, t => t.pending = s.pending

/-- Nothing but the listed parts is different. -/
def keptBut (l : List Part) (s t : State) : Prop := ∀ p : Part, l.contains p = false → State.same p s t

/-- Every register field reads the same in both states, but those whose key `free` names. -/
def regsKept (free : Nat → Bool) (s t : State) : Prop :=
  ∀ (k d : Nat), free k = false → smGet d t.flds k = smGet d s.flds k

/-- Every byte reads the same in both states, but at the addresses that `free` names. -/
def memKept (free : Nat → Bool) (s t : State) : Prop :=
  ∀ a : Nat, free a = false → rdByte t a = rdByte s a

/-- The address lies in `n` bytes from `lo` on. -/
def within (lo n a : Nat) : Bool := decide (lo ≤ a) && decide (a < lo + n)

/-- The key of a performance counter or of its OVF bit (R475, R478), of either port. -/
def pmcKey (k : Nat) : Bool := within (0xA8000 * 64) (0x8000 * 64) (k % 2 ^ 40) || within (0xA1200 * 64) (0x200 * 64) (k % 2 ^ 40)

/-- The key is that of one of these fields, of port A's copy where there are two. -/
def oneOf (fs : List Fld) (k : Nat) : Bool := (fs.map fun f => fldKey f .a).contains k

/-- The registers that a store of bytes may count in: the performance counters and the two detection counters (R206, R218). -/
def storeKey (k : Nat) : Bool := pmcKey k || oneOf [Reg.MEM_DRAM_DETECT, Reg.MEM_SRAM_DETECT] k

/-- The registers that issuing may change: those of a store, and the sample ring's HEAD and DROP (R484, R486). -/
def issueKey (k : Nat) : Bool := storeKey k || oneOf [Reg.PMC_SMP_HEAD, Reg.PMC_SMP_DROP] k

/-- The interrupt causes of either port (R423, R434). -/
def irqKey (k : Nat) : Bool := (List.range 7).any fun n => k % 2 ^ 40 == fldKey (causeFld n) .a

/-- The format event counters (R84) and the matrix engine's counters and fault record (R114). -/
def fmtKey (k : Nat) : Bool := oneOf [Reg.ENG_FMT_UNDERFLOW, Reg.ENG_FMT_SAT, Reg.ENG_FMT_POISON, Reg.ENG_FMT_OUTLIER_OVF,
  Reg.ENG_FMT_CODE_INVALID, Reg.ENG_FMT_TRAP] k
def mxKey (k : Nat) : Bool := oneOf [Reg.ENG_MX_RESIDUE_MISMATCH, Reg.ENG_MX_RESIDUE_POISON, Reg.ENG_MX_OPERAND_DETECT,
  Reg.ENG_MX_ACC_OVF, Reg.ENG_MX_LAST_FAULT_CORE_ID, Reg.ENG_MX_LAST_FAULT_CAUSE, Reg.ENG_MX_LAST_FAULT_LAYER] k

/-- The registers that the end of a matrix pass may change. -/
def passKey (k : Nat) : Bool := issueKey k || irqKey k || fmtKey k || mxKey k

/-- The instruction issues in this slot (R108, R110, R113): its core is in service and runs, no cheap point holds it back, and
its unit's queue has room. -/
def mayIssue (s : State) (i : Ins) (u : Option XUnit) : Prop :=
  coreFenced s i.core = false ∧ stageAlive s = true ∧ stallCause i u s = none

/-- Where the sample ring takes the next record (R486): at HEAD, or behind a padding record at the ring's start. -/
def sampleBytes (s : State) (a : Nat) : Bool :=
  within (ringBase s sampleRing + getF s sampleRing.head) 64 a || within (ringBase s sampleRing) 64 a

/-- An instruction has issued (R108, R110, R112, R484): fetch goes on behind it, it is outstanding on its unit `u` where it has one, a
VARY instruction marks the step, and beside that the slot's counters and the core's sampling have moved, and nothing else. -/
def Issued (s : State) (i : Ins) (u : Option XUnit) (t : State) : Prop :=
  (∃ n g m, coreGet t i.core = { coreGet s i.core with
    nextIndex := i.index + 1, stall := 0, smpCount := n, tag := g, skipped := m,
    outst := (coreGet s i.core).outst ++ u.toList.map fun x => ⟨x, i.index⟩ }) ∧
  (∀ c, c ≠ i.core.val → coreGet t c = coreGet s c) ∧
  t.portion = (if i.vary then s.portion.map fun p => { p with vary := true } else s.portion) ∧
  keptBut [.flds, .cores, .mem, .marks, .ringRecs, .portion] s t ∧ regsKept issueKey s t ∧ memKept (sampleBytes s) s t

/-- Command `c` is the first of an engine's queue that has not run, its record at address `a` holds OPCODE `op`, passes its codes and names
the command's layer (R121); no command of the portion has been stopped by its watchdog (R83). -/
def EngineTurn (s : State) (h : Half) (e : Engine) (op : Nat) (c : EngCmd) (a : Nat) : Prop :=
  firstOpen (engQueue s h e) = some c ∧ a = recBase h c.granule ∧ rdByte s a = op ∧ anyMarked s a 128 = false ∧ rdLe s (a + 4) 2 = c.layer ∧
  ∀ p, s.portion = some p → p.stopped = []

/-- The state an engine command runs in: a VARY command has marked the step (R112). -/
def engStart (s : State) (c : EngCmd) : State := if c.vary then markVary s else s

/-- The parts that interrupts use (R423, R434). -/
def irqParts : List Part := [.flds, .out, .holdoffA, .holdoffB, .deferA, .deferB]

/-- What an engine command may change: memory and its marks, registers, its queue, the portion's record, interrupts, and the extents and
pending fetches that its reads touch. -/
def engParts : List Part := [.mem, .marks, .flds, .engQ, .portion, .out, .holdoffA, .holdoffB, .deferA, .deferB, .refetch, .extents, .prefs]

/-- Everything volatile is gone (R370, R459); the key store's owner and leases, the cards as they sit and the waiting commands are as before. -/
def VolatileLost (s t : State) : Prop :=
  t.mem = [] ∧ t.marks = [] ∧ t.accs = [] ∧ t.cores = [] ∧ t.extents = [] ∧ t.ctxs = [] ∧ t.pages = [] ∧ t.prefs = [] ∧ t.img = none ∧
  t.portion = none ∧ t.inbox = [] ∧ t.wts = {} ∧ t.ctl = {} ∧ t.fab = {} ∧ t.sec.sessions = [] ∧ t.sec.packages = [] ∧
  t.sec.ks.owner = s.sec.ks.owner ∧ t.sec.ks.leases = s.sec.ks.leases ∧ t.sec.ks.rollback = s.sec.ks.rollback ∧
  t.cardSerial = s.cardSerial ∧ t.cardSeated = s.cardSeated ∧ t.pending = s.pending

/-- A port that was up has gone down (R271, R416). -/
def WentDown (p : Port) (s t : State) : Prop :=
  portUp t p = false ∧ getF t (downFld p) = min 255 (getF s (downFld p) + 1) ∧ getF t (bindFld p) = 0 ∧ getP t p Reg.CTX_RING_CTL_PORT_LOST = 1 ∧
  getP t (otherPort p) Reg.HOST_IRQ_CAUSE_PEER = 1 ∧ portUp t (otherPort p) = portUp s (otherPort p) ∧
  (∀ c ∈ t.ctxs, c.2.port = p → c.2.st ≠ .ready) ∧ (∀ r ∈ t.cplHeld, r.port ≠ p) ∧ (∀ a ∈ t.ctl.adopts, a.port ≠ p) ∧
  t.img = s.img ∧ t.portion = s.portion ∧ (s.wts.load = none → t.mem = s.mem ∧ t.marks = s.marks)

/-- The accepted level of a sideband input (R427). -/
def accepted (s : State) (i : SbInput) : Bool :=
  getB s (match i with
    | .shutter => Reg.HOST_SIDEBAND_SHUTTER | .leak => Reg.HOST_SIDEBAND_LEAK
    | .perstA => Reg.HOST_PORT_A_PERST | .perstB => Reg.HOST_PORT_B_PERST)

end Sys2Proof.Machine
end

