-- ==== Sys2Proof/Certificates/Slice0/Obligations.lean ====
section
/-!
DEFINITION. Certificates/Slice0/Obligations.lean: the statements about this model that are to be proved.  The statements about one
command hold for every state and operands that meet the hypotheses written in them; `Issued`, `keptBut`, `regsKept` and `memKept`
(Safety.lean) say what is left alone.
-/
open Sys2Proof Sys2Proof.Machine

/-- The step of a block: one command of the queue.  Idling on an empty queue is the model's choice (log entry 2). -/
def Obligations.StepRunsTheFrontCommand : Prop :=
  (∀ (s : State) (c : Instr) (rest : List Instr), step { s with pending := c :: rest } = exec c { s with pending := rest }) ∧
  (∀ s : State, s.pending = [] → step s = .next s)

/-- The machine right after a module reset.  Reset values that no table of the spec gives are log entry 3's. -/
def Obligations.ResetMeetsTheInvariant : Prop :=
  State.reset.Inv ∧ (∀ a, rdByte State.reset a = 0) ∧ (∀ g, marked State.reset g = false) ∧ (∀ (p : Port) (f : Fld), getP State.reset p f = f.reset) ∧
  (∀ e, getF State.reset (Reg.PMC_COUNTER e) = 0) ∧ getF State.reset Reg.ENG_FMT_SAT = 0 ∧ getF State.reset Reg.ENG_FMT_TRAP = 0 ∧
  State.reset.pending = [] ∧ State.reset.ctxs = [] ∧ State.reset.pages = [] ∧ State.reset.portion = none ∧ State.reset.accs = [] ∧
  State.reset.engQ = [] ∧ State.reset.sashQ = [] ∧ State.reset.latchA = none ∧ State.reset.latchB = none

/-- Every step keeps `State.Inv`. -/
def Obligations.InvariantIsKept : Prop := ∀ s t : State, s.Inv → step s = .next t → t.Inv

/-- No command touches the queue; a step removes its front and nothing else. -/
def Obligations.CommandsLeaveTheQueue : Prop :=
  (∀ (c : Instr) (s t : State), exec c s = .next t → t.pending = s.pending) ∧ (∀ s t : State, step s = .next t → t.pending = s.pending.tail)

/-- Completion of every command: refusals are for instructions that no loaded image holds. -/
def Obligations.EveryLoadableCommandRuns : Prop :=
  ∀ (c : Instr) (s : State), (c.wf = true → ∃ t, exec c s = .next t) ∧ (c.wf = false → ∃ m, exec c s = .refused (.notLoadable m))

/-- R206: stores. -/
def Obligations.StoredBytesAreRead : Prop :=
  (∀ (s : State) (a : Nat) (bs : List Nat), Memory.wf s.mem = true →
    let t := putBytes s a bs
    (∀ i, i < bs.length → rdByte t (a + i) = bs.getD i 0 % 256) ∧ memKept (within a bs.length) s t ∧
    (∀ g, marked t g = (marked s g && !(decide (a ≤ g * 64) && decide (g * 64 + 64 ≤ a + bs.length)))) ∧
    keptBut [.mem, .marks, .flds] s t ∧ regsKept storeKey s t ∧ Memory.wf t.mem = true) ∧
  (∀ (s : State) (a v : Nat), a + 1 ≤ 2 ^ 38 → marked s (a / 64) = true →
    getF (putBytes s a [v]) Reg.MEM_DRAM_DETECT = min (getF s Reg.MEM_DRAM_DETECT + 1) (2 ^ 64 - 1) ∧ marked (putBytes s a [v]) (a / 64) = true) ∧
  (∀ (m : List Host.Cell) (a : Nat) (bs : List Nat), Memory.wf m = true → Memory.putBlock m a bs = Memory.writeBytes m a bs)

/-- R79, on 64-bit words. -/
def Obligations.DrawsOfTheGenerator : Prop :=
  ∀ (seed step : BitVec 64) (layer : BitVec 16) (stream : BitVec 8) (pos elem : BitVec 32),
    let mixw : BitVec 64 → BitVec 64 := fun z =>
      let z1 := (z ^^^ (z >>> 30)) * 0xBF58476D1CE4E5B9#64
      let z2 := (z1 ^^^ (z1 >>> 27)) * 0x94D049BB133111EB#64
      z2 ^^^ (z2 >>> 31)
    let h1 := mixw (seed + 0x9E3779B97F4A7C15#64)
    let h2 := mixw (h1 ^^^ step)
    let h3 := mixw (h2 ^^^ ((layer.setWidth 64 <<< 48) ||| (stream.setWidth 64 <<< 40) ||| (pos.setWidth 64 <<< 8)))
    let h4 := mixw (h3 ^^^ elem.setWidth 64)
    draw seed.toNat step.toNat layer.toNat stream.toNat pos.toNat elem.toNat = (h4 >>> 40).toNat ∧
    draw seed.toNat step.toNat layer.toNat stream.toNat pos.toNat elem.toNat < 2 ^ 24

/-- R52, with R51's values. -/
def Obligations.InvalidTritBytes : Prop :=
  ∀ bs : List Nat, bs.length = 7 → (∀ b ∈ bs, b < 256) →
    (decodeCodes .t bs).1.length = 32 ∧
    (∀ e, e < 32 → 243 ≤ bs.getD (e / 5) 0 → (decodeCodes .t bs).1.getD e 9 = 0) ∧
    (decodeCodes .t bs).2 = bs.countP (fun b => decide (243 ≤ b)) ∧
    (∀ i j, i < 7 → j < 5 → 5 * i + j < 32 → bs.getD i 0 < 243 →
      let digit := bs.getD i 0 / 3 ^ j % 3
      (decodeCodes .t bs).1.getD (5 * i + j) 9 = if digit = 1 then 1 else if digit = 2 then -1 else 0)

/-- NOP, FALLBACK_ENTRY, LOOP and BRANCH (R109): each issues; a taken LOOP or BRANCH leaves fetch at its target. END_LAYER: with the last core in service of its group the step holds no expert of the layer (R157); END_STEP records the core. -/
def Obligations.ControlOperationsIssue : Prop :=
  (∀ (s : State) (i : Ins), mayIssue s i none →
    (∃ t, exec (.nop i) s = .next t ∧ Issued s i none t) ∧
    (∃ t, exec (.fallbackEntry i) s = .next t ∧ Issued s i none t) ∧
    (∀ target taken, ∃ u, Issued s i none u ∧
      exec (.loop i target taken) s =
        .next (if taken then coreSet u i.core { coreGet u i.core with nextIndex := target } else u)) ∧
    (∀ target taken, ∃ u, Issued s i none u ∧
      exec (.branch i target taken) s =
        .next (if taken then coreSet u i.core { coreGet u i.core with nextIndex := target } else u))) ∧
  (∀ (s : State) (i : Ins), mayIssue s i none →
    (∃ u, Issued s i none u ∧ ∃ t, exec (.endLayer i) s = .next t ∧
      keptBut [.cores, .barriers, .experts, .extents] u t ∧
      coreGet t i.core = { coreGet u i.core with inFallback := (coreGet u i.core).inFallback.filter (· != i.layer) } ∧
      (∀ c, c ≠ i.core.val → coreGet t c = coreGet s c) ∧
      (∀ g, groupOf s i.core = some g →
        let r := i.core.val :: reached s (1000 + i.layer)
        if g.cores.all fun x => r.contains x || coreFenced u x then
          reached t (1000 + i.layer) = [] ∧
          ((∀ e ∈ s.experts, e.wait = false) → t.extents = s.extents ∧
            t.experts = s.experts.map fun e => if e.layer = i.layer then { e with held := e.held.filter (· != curStep s) } else e)
        else reached t (1000 + i.layer) = r ∧ t.experts = s.experts ∧ t.extents = s.extents)) ∧
    (∃ u, Issued s i none u ∧ ∃ t, exec (.endStep i) s = .next t ∧ keptBut [.barriers] u t ∧
      reached t 100000 = (if (reached s 100000).contains i.core.val then reached s 100000 else i.core.val :: reached s 100000) ∧
      ∀ k, k ≠ 100000 → reached t k = reached s k))

/-- WAIT issues exactly when every unit whose bit of UNITS is set has at most COUNT outstanding instructions; BARRIER once each core of
the group has reached it, each core then passing it once. -/
def Obligations.WaitAndBarrier : Prop :=
  ∀ (s : State) (i : Ins), mayIssue s i none →
    (∀ units count, Instr.waitFields units count = true →
      ((∀ u : XUnit, bit units (unitNum u) = true → outstanding (coreGet s i.core) u ≤ count) →
        ∃ t, exec (.wait i units count) s = .next t ∧ Issued s i none t) ∧
      ((∃ u : XUnit, bit units (unitNum u) = true ∧ count < outstanding (coreGet s i.core) u) →
        ∃ t, exec (.wait i units count) s = .next t ∧ coreGet t i.core = { coreGet s i.core with stall := 2 } ∧
          (∀ c, c ≠ i.core.val → coreGet t c = coreGet s c) ∧ keptBut [.cores, .flds] s t ∧ regsKept pmcKey s t)) ∧
    (groupOf s i.core = none → ∃ t, exec (.barrier i) s = .next t ∧ Issued s i none t) ∧
    (∀ g, groupOf s i.core = some g →
      let gone := reached s (2 * g.idx + 1)
      let here := i.core.val :: (reached s (2 * g.idx)).filter (· != i.core.val)
      (i.core.val ∈ gone → ∃ t, exec (.barrier i) s = .next t ∧
        Issued (setReached s (2 * g.idx + 1) (gone.filter (· != i.core.val))) i none t) ∧
      (i.core.val ∉ gone → (∀ x ∈ g.cores, x ∈ here ∨ coreFenced s x = true) → ∃ t, exec (.barrier i) s = .next t ∧
        Issued (setReached (setReached s (2 * g.idx) []) (2 * g.idx + 1)
          (g.cores.filter fun x => x != i.core.val && !coreFenced s x)) i none t) ∧
      (i.core.val ∉ gone → (∃ x ∈ g.cores, x ∉ here ∧ coreFenced s x = false) → ∃ t, exec (.barrier i) s = .next t ∧
        reached t (2 * g.idx) = here ∧ coreGet t i.core = { coreGet s i.core with stall := 3 } ∧
        (∀ c, c ≠ i.core.val → coreGet t c = coreGet s c) ∧ keptBut [.cores, .flds, .barriers] s t ∧ regsKept pmcKey s t))

/-- A held-back instruction leaves the slot stalled with its cause and does nothing else; a shuttered core issues nothing (R287). -/
def Obligations.HeldBackInstructionDoesNotIssue : Prop :=
  ∀ (s : State) (i : Ins) (c : Instr) (u : Option XUnit),
    (c = .nop i ∧ u = none) ∨ (∃ a w row m f, Instr.passRows row m = true ∧ c = .mma i a w row m f ∧ u = some .mx) ∨
    (∃ f n d x y z, c = .vecOp i f n d x y z ∧ u = some .vu) ∨
    (c = .memFence i ∧ u = some .mem) ∨ (∃ e h g, c = .engRequest i e h g ∧ u = some .eng) →
    (coreFenced s i.core = true → exec c s = .next s) ∧
    (∀ k, coreFenced s i.core = false → stageAlive s = true → stallCause i u s = some k →
      ∃ t, exec c s = .next t ∧ coreGet t i.core = { coreGet s i.core with stall := k } ∧
        (∀ d, d ≠ i.core.val → coreGet t d = coreGet s d) ∧ keptBut [.cores, .flds] s t ∧ regsKept pmcKey s t)

/-- An outstanding instruction completes (R110): it leaves the core's list; a tagged one writes its sample record (R484). -/
def Obligations.InstructionCompletion : Prop :=
  ∀ (s : State) (c : Fin 192) (u : XUnit) (index latency : Nat),
    ((coreGet s c).outst.contains ⟨u, index⟩ = false → exec (.instructionComplete c u index latency) s = .next s) ∧
    ((coreGet s c).outst.contains ⟨u, index⟩ = true →
      (u = .vu ∨ (coreGet s c).mxq = [] ∧ s.engQ = [] ∧ s.sashQ = [] ∧ s.fab.ops = [] ∧ s.fab.fences = []) →
      ∃ t, exec (.instructionComplete c u index latency) s = .next t ∧
        (coreGet t c).outst = (coreGet s c).outst.erase ⟨u, index⟩ ∧
        ((coreGet s c).tag = none → t = coreSet s c { coreGet s c with outst := (coreGet s c).outst.erase ⟨u, index⟩ }) ∧
        (∀ d, d ≠ c.val → coreGet t d = coreGet s d) ∧
        keptBut [.cores, .flds, .mem, .marks, .ringRecs] s t ∧ regsKept issueKey s t ∧ memKept (sampleBytes s) s t)

/-- R106: a trap message stops the core and discards what has not completed; after the drain it resumes at the FALLBACK_ENTRY. -/
def Obligations.TrapMessageAndDrain : Prop :=
  (∀ (s : State) (c : Fin 192) (layer : Nat), coreFenced s c = false → layer ∉ (coreGet s c).inFallback →
    ∃ t, exec (.trapMessage c layer) s = .next t ∧
      (coreGet t c).stop = .trapped layer ∧ (coreGet t c).outst = (coreGet s c).outst.filter (fun o => !ofLayer s c layer o.index) ∧
      (∀ p, .pass p ∈ (coreGet t c).mxq ↔ .pass p ∈ (coreGet s c).mxq ∧ ofLayer s c layer p.index = false) ∧
      (coreGet t c).nextIndex = (coreGet s c).nextIndex ∧ (coreGet t c).inFallback = (coreGet s c).inFallback ∧
      (∀ q ∈ t.engQ, ∀ e ∈ q.2, e.src = c.val → ofLayer s c layer e.index = false) ∧
      (∀ q ∈ t.sashQ, ∀ e ∈ q.2, e.src = c.val → ofLayer s c layer e.index = false) ∧
      (∀ d, d ≠ c.val → coreGet t d = coreGet s d) ∧ t.accs = s.accs ∧ t.portion = s.portion ∧
      keptBut [.cores, .flds, .mem, .marks, .ringRecs, .engQ, .sashQ, .fab, .movesHeld] s t ∧
      regsKept issueKey s t ∧ memKept (sampleBytes s) s t) ∧
  (∀ (s : State) (c : Fin 192) (entry layer : Nat), (coreGet s c).stop = .trapped layer →
    ((coreGet s c).outst = [] → exec (.trapDrainDone c entry) s = .next (coreSet s c
      { coreGet s c with stop := .run, nextIndex := entry, inFallback := layer :: (coreGet s c).inFallback })) ∧
    ((coreGet s c).outst ≠ [] → exec (.trapDrainDone c entry) s = .next s))

/-- R113 and R262: the post, the save and the resumption. -/
def Obligations.PreemptionPostSaveResume : Prop :=
  (∀ (s : State) (cores : List (Fin 192)), preemptOk s = true →
    ∃ t, exec (.preemptionPost cores) s = .next t ∧ keptBut [.cores] s t ∧
      ∀ c : Fin 192, coreGet t c = (if c ∈ cores ∧ coreFenced s c = false then { coreGet s c with preempt := true } else coreGet s c)) ∧
  (∀ (s : State) (c : Fin 192) (index lr : Nat) (p : Portion), s.portion = some p → (coreGet s c).preempt = true →
    (coreGet s c).stop = .run → (coreGet s c).outst = [] → coreFenced s c = false →
    ∃ t, exec (.cheapPointSave c index lr) s = .next t ∧
      (coreGet t c).stop = .preempted index lr ∧ (coreGet t c).preempt = false ∧
      (coreGet t c).savedAt = some (index, (coreGet s c).inFallback) ∧
      (coreGet t c).saved = (match liveRange s c lr with
        | some l => l.sram.map fun r => (r.1, rdBytes s (sramAddr c r.1) r.2) | none => []) ∧
      (coreGet t c).savedAcc = (match liveRange s c lr with
        | some l => (rowKeys l.rows).map fun x => (x, smGet {} s.accs (c.val * 16384 + x)) | none => []) ∧
      (∀ d, d ≠ c.val → coreGet t d = coreGet s d) ∧
      (∀ l, liveRange s c lr = some l → ∀ r ∈ l.sram, ∀ g ∈ granulesOf (sramAddr c r.1) r.2, marked s g = true → g ∈ (coreGet t c).savedBad) ∧
      ((∀ l, liveRange s c lr = some l → ∀ r ∈ l.sram, anyMarked s (sramAddr c r.1) r.2 = false) →
      ((∃ d : Fin 192, d ≠ c ∧ (coreGet s d).preempt = true ∧ coreFenced s d = false) → t.portion = s.portion ∧ keptBut [.cores] s t) ∧
      ((∀ d : Fin 192, d ≠ c → coreFenced s d = false → (coreGet s d).preempt = false) →
        t.portion = none ∧ t.barriers = [] ∧ t.ctl = { s.ctl with lcRan := false } ∧
        t.suspended = some { p with hdr := { p.hdr with preemptions := min 255 (p.hdr.preemptions + 1) }, met := s.barriers } ∧
        keptBut [.cores, .flds, .portion, .suspended, .barriers, .ctl] s t ∧ regsKept pmcKey s t))) ∧
  (∀ (s : State) (c : Fin 192) (index : Nat) (falls : List Nat) (p : Portion), (coreGet s c).savedAt = some (index, falls) →
    s.portion = none → s.suspended = some p →
    ∃ t, exec (.preemptResume c) s = .next t ∧
      (coreGet t c).stop = .run ∧ (coreGet t c).nextIndex = index ∧ (coreGet t c).inFallback = falls ∧
      (coreGet t c).savedAt = none ∧
      t.portion = some { p with met := [] } ∧ t.suspended = none ∧ t.barriers = p.met ∧
      t.mem = ((coreGet s c).saved.map fun r => (sramAddr c r.1, r.2)).foldl (fun m r => Memory.writeBytes m r.1 r.2) s.mem ∧
      t.accs = (coreGet s c).savedAcc.foldl (fun m x => smSet {} m (c.val * 16384 + x.1) x.2) s.accs ∧
      (∀ g ∈ (coreGet s c).savedBad, marked t g = true) ∧ (∀ d, d ≠ c.val → coreGet t d = coreGet s d) ∧
      keptBut [.cores, .flds, .mem, .marks, .accs, .portion, .suspended, .barriers, .ctl] s t ∧ regsKept storeKey s t)

/-- MMA, MMA_X and MMA_F16 issue and append their pass to the core's queue of passes. -/
def Obligations.MatrixPassesAreQueued : Prop :=
  ∀ (s : State) (i : Ins) (a w row m : Nat), mayIssue s i (some .mx) → Instr.passRows row m = true →
    (∀ f, ∃ u, Issued s i (some .mx) u ∧ exec (.mma i a w row m f) s = .next (coreSet u i.core
      { coreGet u i.core with mxq := (coreGet s i.core).mxq ++ [.pass ⟨.mma, a, w, row, m + 1, f, i.layer, i.index, false⟩] })) ∧
    (∃ u, Issued s i (some .mx) u ∧ exec (.mmaX i a w row m) s = .next (coreSet u i.core
      { coreGet u i.core with mxq := (coreGet s i.core).mxq ++ [.pass ⟨.mmaX, a, w, row, m + 1, .kv8, i.layer, i.index, false⟩] })) ∧
    (∀ f, f ≠ .kv8 → ∃ u, Issued s i (some .mx) u ∧ exec (.mmaF16 i a w row m f) s = .next (coreSet u i.core
      { coreGet u i.core with mxq := (coreGet s i.core).mxq ++ [.pass ⟨.mmaF16, a, w, row, m + 1, f, i.layer, i.index, false⟩] }))

/-- A pass, or its rerun, that ends without a mismatch: each output takes the exact sum of its value and the pass's terms (R94), unless
an output leaves the 192-bit range; no other accumulator changes (R86). -/
def Obligations.PassAccumulatesExactly : Prop :=
  ∀ (s : State) (c : Fin 192) (p : Pass) (rest : List MxItem) (latency time : Nat),
    (coreGet s c).mxq = .pass p :: rest → (∀ x ∈ rest, ∃ q, x = .pass q) → p.row + p.m ≤ 128 →
    (∀ i j, i < p.m → j < 128 → (accGet s c (p.row + i) j).ovf = false ∧
      accOut ((accGet s c (p.row + i) j).v + (passTerm s c p i j).v) = false) →
    ∃ t, exec (if p.rerun then .residueRerunComplete c false latency time else .mmaPassComplete c false latency) s = .next t ∧
      (∀ i j, i < p.m → j < 128 → accGet t c (p.row + i) j =
        { v := (accGet s c (p.row + i) j).v + (passTerm s c p i j).v,
          poison := (accGet s c (p.row + i) j).poison || (passTerm s c p i j).poison,
          ovf := false,
          nonfinite := (accGet s c (p.row + i) j).nonfinite || (passTerm s c p i j).nonfinite }) ∧
      (∀ (d : Fin 192) row col, col < 128 → (d = c → row < p.row ∨ p.row + p.m ≤ row) → row < 128 → accGet t d row col = accGet s d row col) ∧
      (coreGet t c).mxq = rest ∧ (coreGet t c).outst = (coreGet s c).outst.erase ⟨.mx, p.index⟩ ∧
      (∀ d, d ≠ c.val → coreGet t d = coreGet s d) ∧
      keptBut [.flds, .accs, .cores, .portion, .mem, .marks, .ringRecs, .out, .holdoffA, .holdoffB, .deferA, .deferB] s t ∧
      regsKept passKey s t ∧ memKept (sampleBytes s) s t

/-- R103: one event and a rerun at the first mismatch; every output poisoned at the second. -/
def Obligations.ResidueMismatch : Prop :=
  ∀ (s : State) (c : Fin 192) (p : Pass) (rest : List MxItem) (latency time : Nat),
    (coreGet s c).mxq = .pass p :: rest → (∀ x ∈ rest, ∃ q, x = .pass q) → p.row + p.m ≤ 128 →
    (p.rerun = false → ∃ t, exec (.mmaPassComplete c true latency) s = .next t ∧
      t.accs = s.accs ∧ (coreGet t c).mxq = .pass { p with rerun := true } :: rest ∧ (coreGet t c).outst = (coreGet s c).outst ∧
      getF t Reg.ENG_MX_RESIDUE_MISMATCH = min (getF s Reg.ENG_MX_RESIDUE_MISMATCH + 1) (2 ^ 64 - 1) ∧
      getF t Reg.ENG_MX_LAST_FAULT_CORE_ID = c ∧ getF t Reg.ENG_MX_LAST_FAULT_CAUSE = 1 ∧
      keptBut [.flds, .cores, .portion, .out, .holdoffA, .holdoffB, .deferA, .deferB] s t ∧ regsKept passKey s t ∧
      ∀ d, d ≠ c.val → coreGet t d = coreGet s d) ∧
    (p.rerun = true → (isMappedCore s c = true ∨ getBit s (Reg.NOC_FENCE_PENDING (c.val / 32)) (c.val % 32) = false ∧
        (((alGet s.residueTimes c).getD []).filter fun x => decide (time < x + 86400000000000)).length < 3) →
      ∃ t, exec (.residueRerunComplete c true latency time) s = .next t ∧
      (∀ i j, i < p.m → j < 128 → (accGet t c (p.row + i) j).poison = true) ∧
      (∀ (d : Fin 192) row col, col < 128 → (d = c → row < p.row ∨ p.row + p.m ≤ row) → row < 128 → accGet t d row col = accGet s d row col) ∧
      getF t Reg.ENG_MX_RESIDUE_POISON = min (getF s Reg.ENG_MX_RESIDUE_POISON + 1) (2 ^ 64 - 1) ∧
      (coreGet t c).mxq = rest ∧ (coreGet t c).outst = (coreGet s c).outst.erase ⟨.mx, p.index⟩ ∧
      (∀ d, d ≠ c.val → coreGet t d = coreGet s d) ∧
      keptBut [.flds, .accs, .cores, .portion, .mem, .marks, .ringRecs, .out, .holdoffA, .holdoffB, .deferA, .deferB, .fresh,
        .residueTimes, .ledger, .ledgerSeq] s t ∧ memKept (sampleBytes s) s t) ∧
    (p.rerun = true → isMappedCore s c = false →
      3 ≤ (((alGet s.residueTimes c).getD []).filter fun x => decide (time < x + 86400000000000)).length →
      ∃ t, exec (.residueRerunComplete c true latency time) s = .next t ∧ coreFenced t c = true)

/-- The ACC operations with an empty queue; behind passes each waits in the queue. -/
def Obligations.AccumulatorOperations : Prop :=
  ∀ (s : State) (i : Ins), mayIssue s i (some .mx) →
    (∀ row m, Instr.accRows row m = true → (coreGet s i.core).mxq ≠ [] → ∃ u, Issued s i (some .mx) u ∧
      exec (.accZero i row m) s =
        .next (coreSet u i.core { coreGet u i.core with mxq := (coreGet s i.core).mxq ++ [.acc i.index (.zero row m)] })) ∧
    ((coreGet s i.core).mxq = [] →
      (∀ row m, Instr.accRows row m = true → ∃ u, Issued s i (some .mx) u ∧ ∃ t, exec (.accZero i row m) s = .next t ∧
        keptBut [.accs] u t ∧ ∀ d r k, r < 128 → k < 128 → accGet t d r k =
          (if d = i.core.val ∧ row ≤ r ∧ r < row + m then { v := 0, poison := false, ovf := false, nonfinite := false } else accGet s d r k)) ∧
      (∀ row col dst, Instr.accAt row col = true → ∃ u, Issued s i (some .mx) u ∧
        exec (.accExport i row col dst) s = .next (storeLocal u (sramAddr i.core dst)
          (leBytes 24 (ofSigned 192 (accGet s i.core row col).v) ++
            [b2n (accGet s i.core row col).poison + 2 * b2n (accGet s i.core row col).ovf + 4 * b2n (accGet s i.core row col).nonfinite] ++
            List.replicate 7 0))) ∧
      (∀ row col src, Instr.accAt row col = true → ∃ u, Issued s i (some .mx) u ∧
        let bs := rdBytes u (sramAddr i.core src) 32
        let a := accGet s i.core row col
        let v := toSigned 192 (leNat (bs.take 24))
        (anyMarked u (sramAddr i.core src) 32 = false → bit (bs.getD 24 0) 1 = false → a.ovf = false → accOut (a.v + v) = false →
          ∃ t, exec (.accImport i row col src) s = .next t ∧ keptBut [.accs] u t ∧
            accGet t i.core row col =
              { v := a.v + v, poison := a.poison || bit (bs.getD 24 0) 0, ovf := false, nonfinite := a.nonfinite || bit (bs.getD 24 0) 2 } ∧
            ∀ d r k, r < 128 → k < 128 → (d = i.core.val → r = row → k ≠ col) → accGet t d r k = accGet s d r k)) ∧
      (∀ row m fmt ctl dst elem0 coords, Instr.accRows row m = true → Instr.convCtl ctl = true →
        ∃ u, Issued s i (some .mx) u ∧
          let outs := (List.range m).map fun r => convRow u i.core row r fmt ctl i.layer dst elem0 (coords.getD r ⟨0, 0⟩)
          (abortedAttempt u i.core i.layer = false → (∀ o ∈ outs, o.trapped = false) →
            ∃ t, exec (.accConvert i row m fmt ctl dst elem0 coords) s = .next t ∧ t.accs = s.accs ∧
              t.mem = (outs.flatMap fun o => o.runs).foldl (fun b r => Memory.writeBytes b r.1 r.2) u.mem ∧
              keptBut [.flds, .mem, .marks, .portion] u t)))

/-- VEC_OP: lane k of the destination holds the operation of lane k of the sources. -/
def Obligations.VectorOperation : Prop :=
  ∀ (s : State) (i : Ins) (f : VecFn) (n dst a b c : Nat), mayIssue s i (some .vu) →
    ∃ u, Issued s i (some .vu) u ∧ ∃ t, exec (.vecOp i f n dst a b c) s = .next t ∧
      (∀ k, k < n →
        let x := vecIn u i.core a k
        let y := vecIn u i.core b k
        rdLe t (sramAddr i.core dst + 4 * k) 4 = (match f with
          | .add => add32 x y | .sub => sub32 x y | .mul => mul32 x y | .fma => fma32 x y (vecIn u i.core c k)
          | .div => div32 x y | .sqrt => sqrt32 x) % 2 ^ 32) ∧
      memKept (within (sramAddr i.core dst) (4 * n)) u t ∧ regsKept storeKey u t ∧ keptBut [.mem, .marks, .flds, .portion] u t ∧
      (vecBad u i.core f n a b c = [] → partFailing u (sramAddr i.core dst) (4 * n) = [] → t.portion = u.portion)

/-- R94: the exact sum does not depend on order, nor on how the terms are divided into parts. R102: the residue formed term by term is that of the promoted sum (R90). -/
def Obligations.AccumulationAndResidueArithmetic : Prop :=
  ((∀ l m : List Contrib, l.Perm m → contribSum l = contribSum m) ∧
  (∀ l m : List Contrib, contribSum (l ++ m) = contribAdd (contribSum l) (contribSum m)) ∧
  (∀ (a : LAcc) (l : List Contrib) (free : Int), a.ovf = false →
    (∀ m, m <+: l → accOut (a.v + (contribSum m).v) = false) →
    l.foldl (fun x k => accAdd x k free) a =
      { v := a.v + (contribSum l).v, poison := a.poison || (contribSum l).poison, ovf := false,
        nonfinite := a.nonfinite || (contribSum l).nonfinite })) ∧
  ((∀ (S : Int) (sa sw half : Nat), sa ≠ 0 → sa < 255 → sw ≠ 0 → sw < 255 →
    residueTerm S (s8Sig sa * s8Sig sw) (promoteShift sa sw half) = residue (promote S sa sw half)) ∧
  (∀ l : List Int, residue l.sum = (l.map residue).sum % 255))

/-- The MEM family: loads and acquires, stores and releases, atomics, fences. -/
def Obligations.MemoryFamilyAccesses : Prop :=
  ∀ (s : State) (i : Ins), mayIssue s i (some .mem) → ∃ f : Nat → State, (∀ k, Issued s i (some .mem) (f k)) ∧
    exec (.memFence i) s = .next (f 3) ∧
    (∀ addr len dst chk ok, ∀ c ∈ [(Instr.memLoad i addr len dst chk ok, f 0), (Instr.memAcquire i addr len dst chk ok, f 5)],
      (devReadOk c.2 addr len = true → addr + len ≤ 2 ^ 38 → (∀ g ∈ granulesOf addr len, checkOf c.2 chk g = .ok) →
        ∃ t, exec c.1 s = .next t ∧ t.mem = Memory.writeBytes c.2.mem (sramAddr i.core dst) (rdBytes c.2 addr len) ∧
          keptBut [.mem, .marks, .flds, .portion] c.2 t ∧ regsKept storeKey c.2 t ∧
          (partFailing c.2 (sramAddr i.core dst) len = [] → t.portion = c.2.portion)) ∧
      (devReadOk c.2 addr len = false → exec c.1 s = .next (storeLocal c.2 (sramAddr i.core dst) (List.replicate len 0)))) ∧
    (∀ addr src len chk, ∀ c ∈ [(Instr.memStore i addr src len chk, f 1), (Instr.memRelease i addr src len chk, f 4)],
      (devWriteOk c.2 addr len = true → scratchOk c.2 addr len = true →
        (∀ g ∈ granulesOf addr len, checkOf c.2 chk g = .ok) →
        ∃ t, exec c.1 s = .next t ∧ t.mem = Memory.writeBytes c.2.mem addr (rdBytes c.2 (sramAddr i.core src) len) ∧
          keptBut [.mem, .marks, .flds, .portion] c.2 t ∧ regsKept storeKey c.2 t ∧
          (anyMarked c.2 (sramAddr i.core src) len = false → t.portion = c.2.portion)) ∧
      (devWriteOk c.2 addr len = false ∨ scratchOk c.2 addr len = false → exec c.1 s = .next c.2)) ∧
    (∀ fn wide addr x y dst chk,
      let n := if wide then 8 else 4
      let old := rdLe (f 2) addr n
      let signed := toSigned (8 * n)
      (addr % n = 0 → devWriteOk (f 2) addr n = true → scratchOk (f 2) addr n = true → checkOf (f 2) chk (addr / 64) = .ok →
        ∃ t, exec (.memAtomic i fn wide addr x y dst chk) s = .next t ∧
          rdLe t addr n = (match fn with
            | .fadd => (old + x) % 2 ^ (8 * n)
            | .cas => if old = y % 2 ^ (8 * n) then x % 2 ^ (8 * n) else old
            | .min => if signed x < signed old then x % 2 ^ (8 * n) else old
            | .max => if signed old < signed x then x % 2 ^ (8 * n) else old) ∧
          rdLe t (sramAddr i.core dst) n = old ∧
          memKept (fun a => within addr n a || within (sramAddr i.core dst) n a) (f 2) t ∧
          keptBut [.mem, .marks, .flds, .portion] (f 2) t ∧ regsKept storeKey (f 2) t ∧
          (marked (f 2) (sramAddr i.core dst / 64) = false → marked (f 2) ((sramAddr i.core dst + n - 1) / 64) = false → t.portion = (f 2).portion)) ∧
      (¬ addr % n = 0 ∨ devWriteOk (f 2) addr n = false ∨ scratchOk (f 2) addr n = false →
        exec (.memAtomic i fn wide addr x y dst chk) s = .next (storeLocal (f 2) (sramAddr i.core dst) (List.replicate n 0))))

/-- Iris and Crocus: the runs of bytes each command stores, computed on the state in which its operands have been read. -/
def Obligations.IrisAndCrocusCommands : Prop :=
  ∀ (s : State) (h : Half) (chk : List (Nat × Check)) (ok : Bool) (c : EngCmd) (a : Nat),
    let w := engStart s c
    let ran := fun (e : Engine) (cmd : Instr) (o : Opnd) (outs : List ConvOut) =>
      o.bad = [] → (∀ x ∈ outs, x.trapped = false) → ∃ t, exec cmd s = .next t ∧
        engQueue t h e = closeFirst 0 (engQueue s h e) ∧ t.mem = (engPutRuns o.s (outs.flatMap fun x => x.runs)).mem ∧ keptBut engParts s t
    let plain := fun (l : List (Nat × List Nat)) => [ConvOut.mk l {} false false]
    (EngineTurn s h .iris 1 c a → smOk s a = true →
      let r := smRec w a
      let o := engInputs chk ok ([(r.src, 2 * r.keys * r.rows)] ++ if r.phase = 0 ∧ r.first then [] else [(r.st, 16 * r.rows)]) w
      (r.phase = 0 → ran .iris (.softmax h chk ok) o (plain ((List.range r.rows).map (smMaxRow o.s [] r)))) ∧
      (r.phase = 1 → ran .iris (.softmax h chk ok) o (plain ((List.range r.rows).map (smSumRow o.s [] r)))) ∧
      (2 ≤ r.phase → ran .iris (.softmax h chk ok) o ((List.range r.rows).flatMap fun i =>
        (List.range ((r.keys + 127) / 128 * 4)).map fun b => smNormBlk o.s [] r c.layer i b))) ∧
    (∀ ln : Bool, EngineTurn s h .iris (if ln then 3 else 2) c a → normOk s a = true →
      let r := normRec w a
      let bytes := fun (f : Nat) => if f = 0 then 2 else 4
      let o := engInputs chk ok ([(r.src, bytes r.inFmt * r.n * r.rows), (r.g, bytes r.gFmt * r.n)] ++
        if ln then [(r.b, bytes r.bFmt * r.n)] else []) w
      let x := fun (i : Nat) => (List.range r.n).map fun j => engElem o.s [] r.inFmt r.src (r.n * i + j)
      let g := (List.range r.n).map (engElem o.s [] r.gFmt r.g)
      let b := (List.range r.n).map (engElem o.s [] r.bFmt r.b)
      ran .iris (if ln then .layernorm h chk ok else .rmsnorm h chk ok) o ((List.range r.rows).map fun i =>
        normOut o.s r c.layer i (if ln then layerRow (x i) g b r.n r.eps else rmsRow (x i) g r.n r.eps))) ∧
    (EngineTurn s h .crocus 1 c a → rotOk s a = true →
      let r := rotRec w a
      let o := engInputs chk ok [(r.src, (if r.inFmt = 0 then 2 else 4) * r.headDim * r.vectors), (r.f, 2 * r.rotDims)] w
      let nt := (r.headDim + 127) / 128
      (r.kind = 1 → ran .crocus (.rotate h chk ok) o (plain ((List.range r.vectors).map fun v =>
        (r.dst + 4 * r.headDim * v, (List.range r.headDim).flatMap fun d => leBytes 4 (rotElem o.s [] r v d))))) ∧
      (r.kind ≠ 1 → ran .crocus (.rotate h chk ok) o ((List.range r.vectors).flatMap fun v => (List.range (4 * nt)).map fun b =>
        tileBlock r.ctl (fun e => if ctlRound r.ctl then some (drawFor o.s r.ctx c.layer (ctlStream r.ctl) (r.pos0 + v / r.heads)
            ((r.head0 + v % r.heads) * 256 + (32 * b + e))) else none)
          ((List.range 32).map fun e => if 32 * b + e < r.headDim then rotElem o.s [] r v (32 * b + e) else 0)
          (r.dst + 20992 * (nt * (v / 128) + b / 4)) (v % 128) (b % 4))))

/-- Poppy and Dahlia. -/
def Obligations.PoppyAndDahliaCommands : Prop :=
  ∀ (s : State) (h : Half) (chk : List (Nat × Check)) (ok : Bool) (c : EngCmd) (a : Nat),
    let w := engStart s c
    (EngineTurn s h .poppy 1 c a → popOk false s a = true →
      let r := popRec w a
      let o := engInputs chk ok [(r.logits, (if r.fmt = 0 then 2 else 4) * r.v)] w
      ∀ tok, o.bad = [] → sampleToken (popLogits o.s [] r r.logits) ((tempOf r.temp).getD 0) r.topK r.topP (popU o.s r r.pos 0) = some tok →
        ∃ t, exec (.sample h chk ok) s = .next t ∧ engQueue t h .poppy = closeFirst 0 (engQueue s h .poppy) ∧
          t.mem = (engPut o.s r.out (leBytes 4 tok ++ [popReason o.s r.ctx [] tok r.pos 1] ++ List.replicate 11 0)).mem ∧
          t.portion = (keepReturn ⟨r.ctx, [tok], 0, popReason o.s r.ctx [] tok r.pos 1, false⟩ o.s).portion ∧
          keptBut (.fresh :: engParts) s t) ∧
    (EngineTurn s h .poppy 2 c a → popOk true s a = true →
      let r := popRec w a
      let o := engInputs chk ok [(r.logits, verifyStride r * (r.n + 1))] w
      let samples := (List.range (r.n + 1)).map fun i =>
        sampleToken (popLogits o.s [] r (r.logits + i * verifyStride r)) ((tempOf r.temp).getD 0) r.topK r.topP (popU o.s r (r.pos + i) i)
      let v := verifyFrom (fun before t i => popReason o.s r.ctx before t (r.pos + i) (i + 1))
        ((List.range r.n).map fun i => rdLe w (a + 64 + 4 * i) 4) samples 0 []
      o.bad = [] → v.nan = false → ∃ t, exec (.verify h chk ok) s = .next t ∧ engQueue t h .poppy = closeFirst 0 (engQueue s h .poppy) ∧
        t.mem = (engPut o.s r.out (verifyResult v.a v.reason v.toks)).mem ∧
        t.portion = (keepReturn ⟨r.ctx, v.toks.filter (· != 0xFFFFFFFF), v.a, v.reason, false⟩ o.s).portion ∧ keptBut (.fresh :: engParts) s t) ∧
    (EngineTurn s h .dahlia 1 c a → appOk s a = true →
      let r := appRec w a
      let n := r.headDim * r.kvHeads * r.tokens
      let o := engInputs chk ok [(r.kSrc, 4 * n), (r.vSrc, (if r.vFmt = 0 then 2 else 4) * n)] w
      let outs := (List.range r.tokens).flatMap fun t => (List.range r.kvHeads).flatMap fun hd =>
        (List.range ((r.headDim + 31) / 32)).flatMap fun b =>
          [appBlk o.s [] r c.layer false t hd b, appBlk o.s [] r c.layer true t hd b]
      o.bad = [] → (∀ x ∈ outs, x.trapped = false) →
        ∃ t, exec (.append h chk ok) s = .next t ∧ engQueue t h .dahlia = closeFirst 0 (engQueue s h .dahlia) ∧
          (r.tokens ≤ r.draft0 → t.ctxs = s.ctxs ∧ t.mem = (syncTable r.ctx (engPutRuns o.s (outs.flatMap fun x => x.runs))).mem) ∧
          (∀ x e, alGet s.ctxs r.ctx = some x → ∀ k ∈ spansOf (r.pos0 + r.draft0) (r.tokens - r.draft0), r.draft0 < r.tokens →
            alGet x.spans k = some e → ∃ y e', alGet t.ctxs r.ctx = some y ∧ alGet y.spans k = some e' ∧ e'.spec = true ∧ e'.page = e.page) ∧
          keptBut (.ctxs :: engParts) s t)

/-- Lattice and Aster. -/
def Obligations.LatticeAndAsterCommands : Prop :=
  ∀ (s : State) (h : Half) (chk : List (Nat × Check)) (ok : Bool) (c : EngCmd) (a : Nat),
    let w := engStart s c
    (EngineTurn s h .lattice 1 c a → walkOk s a = true →
      let r := walkRec w a
      let z := walkOut w chk r
      (∀ g, checkOf w chk g ≠ .reread) → (∀ g ∈ granulesOf (engAddr r.prompt) (4 * r.len), checkOf w chk g = .ok) → r.prompt < 2 ^ 38 →
      ∃ t, exec (.walk h chk) s = .next t ∧ engQueue t h .lattice = closeFirst 0 (engQueue s h .lattice) ∧
        t.mem = (engPut w r.out (leBytes 4 z.matched ++ [0, 0, 0, 0] ++ leBytes 8 z.node)).mem ∧ t.portion = w.portion ∧
        keptBut engParts s t) ∧
    (EngineTurn s h .aster 1 c a → routeOk s a = true →
      let r := routeRec w a
      let o := engInputs chk ok ([(r.logits, rowStride r.e * r.t)] ++ (if r.biasEn then [(r.bias, 4 * r.e)] else []) ++
        (if r.validEn then [(r.valid, (r.t + 7) / 8)] else [])) w
      let out := routeBatch r (fun e => expertRes o.s (genSlot o.s) c.layer e == .dram)
        (fun t => (!r.validEn || bit (engLe o.s (r.valid + t / 8) 1) (t % 8), (List.range r.e).map (engElem o.s [] 1 (r.logits + t * rowStride r.e))))
        ((List.range r.e).map (engElem o.s [] 1 r.bias))
      let d := dispatchList out.rows
      o.bad = [] → (∀ x ∈ out.rows, x.poison = false) →
      ∃ t, exec (.route h chk ok) s = .next t ∧ engQueue t h .aster = closeFirst 0 (engQueue s h .aster) ∧
        t.mem = (engPut (engPut (engPut o.s r.slots (out.rows.flatMap (rowSlots r.k))) r.headers (headerBytes r.e d)) r.dispatch
          (dispatchBytes d)).mem ∧
        (∀ p, o.s.portion = some p → ∃ p', t.portion = some p' ∧ ∃ x ∈ p'.routes, x.layer = c.layer ∧ x.e = r.e ∧ x.k = r.k ∧
          x.tokens = out.tv ∧ x.capacity = out.cap ∧ x.demand = out.demand ∧ x.substituted = out.asg.subst) ∧
        keptBut (.experts :: engParts) s t)

/-- The queues of the engines: entry, denial, the watchdog, completion. -/
def Obligations.EngineQueuesAndWatchdog : Prop :=
  (∀ (s : State) (i : Ins) (e : Engine) (h : Half) (granule : Nat), mayIssue s i (some .eng) →
    ((engQueue s h e).length < 64 → ∃ u, Issued s i (some .eng) u ∧ ∃ t, exec (.engRequest i e h granule) s = .next t ∧
      engQueue t h e = engQueue s h e ++ [⟨i.core, i.index, granule, i.layer, i.vary, none⟩] ∧
      (∀ h' e', engKey h' e' ≠ engKey h e → engQueue t h' e' = engQueue s h' e') ∧ keptBut [.engQ, .rr] u t) ∧
    (64 ≤ (engQueue s h e).length → ∃ t, exec (.engRequest i e h granule) s = .next t ∧ t.engQ = s.engQ ∧
      coreGet t i.core = { coreGet s i.core with stall := 1 } ∧ keptBut [.cores, .flds] s t ∧ regsKept pmcKey s t)) ∧
  (∀ (s : State) (h : Half) (chk : List (Nat × Check)) (ok : Bool) (c : EngCmd) (a : Nat), EngineTurn s h .iris 1 c a → smOk s a = false →
    ∃ t, exec (.softmax h chk ok) s = .next t ∧ engQueue t h .iris = closeFirst 0x23 (engQueue s h .iris) ∧
      t.mem = s.mem ∧ t.flds = s.flds ∧ keptBut [.engQ, .portion] s t) ∧
  (∀ (s : State) (h : Half) (e : Engine) (c : EngCmd), firstOpen (engQueue s h e) = some c →
    ∃ t, exec (.engineWatchdog h e) s = .next t ∧ engQueue t h e = closeFirst 0x31 (engQueue s h e) ∧
      getF t Reg.ENG_CMD_WDOG = min (getF s Reg.ENG_CMD_WDOG + 1) (2 ^ 64 - 1) ∧
      t.mem = (engPutRuns s (poisonOutputs e (recBase h c.granule) s)).mem ∧ keptBut engParts s t) ∧
  (∀ (s : State) (h : Half) (e : Engine) (latency st : Nat) (c : EngCmd) (rest : List EngCmd), engQueue s h e = c :: rest →
    c.status = some st → ∃ t, exec (.engineCommandDone h e latency) s = .next t ∧ engQueue t h e = rest ∧
      (coreGet t c.src).outst = (coreGet s c.src).outst.erase ⟨.eng, c.index⟩ ∧ (∀ d, d ≠ c.src → coreGet t d = coreGet s d) ∧
      (sampleBytes s (recBase h c.granule + 8) = false → rdByte t (recBase h c.granule + 8) = st % 256) ∧
      memKept (fun x => within (recBase h c.granule + 8) 1 x || sampleBytes s x) s t ∧
      keptBut [.engQ, .cores, .flds, .mem, .marks, .ringRecs, .portion] s t ∧ regsKept issueKey s t)

/-- Sash: rows written one after another, each computed from its source as R140 to R142 say. MOV and the completion of its descriptors. -/
def Obligations.SashDescriptorsAndMov : Prop :=
  (∀ (s : State) (h : Half) (chk : List (Nat × Check)) (ok : Bool) (host : HostMem) (e : SashEnt) (op : Nat) (c : Instr),
    (op = 1 ∧ c = .copy h chk ok host) ∨ (op = 2 ∧ c = .copy2d h chk ok host) ∨ (op = 3 ∧ c = .fillZero h) ∨
      (op = 4 ∧ c = .pageToKt h chk ok host) ∨ (op = 5 ∧ c = .pageToVx h chk ok host) →
    (sashQueue s h).find? (fun x => startable h s x && (parseDesc x.bytes).op == op) = some e →
    let d := parseDesc e.bytes
    (descOk s d = true → d.dstSp ≠ 5 → (op = 3 ∨ d.srcSp ≠ 5) → ∀ u rows,
      gatherRows chk ok host d s = some (u, rows) →
      exec c s = .next (setEnt h { e with status := some 0 } (rows.foldl (fun t r => putRow d r.1 r.2 t) u))) ∧
    (descOk s d = true → d.srcSp = 3 → d.dstSp = 4 → d.rows = 1 → anyMarked s (commonsAddr d.src) (srcBytes d) = false →
      ∃ t, exec c s = .next t ∧
        t.mem = Memory.writeBytes s.mem (sramAddr d.dstCore d.dst) (
          if op = 3 then List.replicate d.len 0
          else if op = 4 ∨ op = 5 then pageTile d.nb d.hd (rdBytes s (commonsAddr d.src) (srcBytes d))
          else rdBytes s (commonsAddr d.src) d.len) ∧
        sashQueue t h = (sashQueue s h).map (fun x => if x.num = e.num then { e with status := some 0 } else x) ∧
        keptBut [.sashQ, .mem, .marks, .flds, .portion] s t) ∧
    (op = 3 → gatherRows chk ok host d s = some (s, (List.range d.rows).map fun r => (r, List.replicate d.len 0, []))) ∧
    (descOk s d = false → ∃ t, exec c s = .next t ∧ sashQueue t h = (sashQueue s h).map (fun x => if x.num = e.num then { e with status := some 0x23 } else x) ∧
      getF t Reg.ENG_SASH_REFUSED = min (getF s Reg.ENG_SASH_REFUSED + 1) (2 ^ 64 - 1) ∧ t.mem = s.mem ∧
      keptBut [.sashQ, .flds, .out, .holdoffA, .holdoffB, .deferA, .deferB] s t)) ∧
  ((∀ (s : State) (i : Ins) (g : Nat) (commons : Bool) (k : Fin 64), mayIssue s i (some .mov) →
    ((sashQueue s (coreHalf i.core)).length + k.val + 1 ≤ 64 →
      ∃ u, Issued s i (some .mov) u ∧ ∃ t, exec (.mov i g commons k) s = .next t ∧
        sashQueue t (coreHalf i.core) = sashQueue s (coreHalf i.core) ++ ((List.range (k.val + 1)).map fun j =>
          (⟨i.core, i.index, if marked u ((descBase i.core g commons + 64 * j) / 64) then List.replicate 64 0
            else rdBytes u (descBase i.core g commons + 64 * j) 64, none, false, s.fab.next + j, 0, s.fab.next, i.layer⟩ : SashEnt)) ∧
        t.mem = u.mem ∧ keptBut [.sashQ, .rr, .fab, .flds, .portion] u t) ∧
    (64 < (sashQueue s (coreHalf i.core)).length + k.val + 1 → ∃ t, exec (.mov i g commons k) s = .next t ∧ t.sashQ = s.sashQ ∧
      coreGet t i.core = { coreGet s i.core with stall := 1 } ∧ keptBut [.cores, .flds] s t ∧ regsKept pmcKey s t)) ∧
  (∀ (s : State) (h : Half) (place : Fin 64) (latency st : Nat) (e : SashEnt), (sashQueue s h)[place.val]? = some e → e.status = some st →
    ∃ t, exec (.sashDescriptorDone h place latency) s = .next t ∧ sashQueue t h = (sashQueue s h).filter (fun x => x.num != e.num) ∧
      (((sashQueue s h).any fun x => x.num != e.num && x.mov == e.mov) = false →
        (coreGet t e.src).outst = (coreGet s e.src).outst.erase ⟨.mov, e.index⟩) ∧
      (((sashQueue s h).any fun x => x.num != e.num && x.mov == e.mov) = true → t.cores = s.cores) ∧
      keptBut [.sashQ, .cores, .flds, .mem, .marks, .ringRecs, .portion] s t ∧ regsKept issueKey s t))

/-- R208, R214. R187. -/
def Obligations.RefetchScrubAndArchiveTransfers : Prop :=
  ((∀ (s : State) (g : Nat) (flash ok : Bool) (again : Option (Fin 32)) (time : Nat), (∀ r ∈ s.refetch, r.granule ≠ g) →
    exec (.refetchDone g flash ok again time) s = .next s) ∧
  (∀ (s : State) (g : Nat) (ok : Bool) (time c index dst src len : Nat), s.refetch = [⟨g, .core c index dst src len⟩] →
    ∃ t, exec (.refetchDone g true ok none time) s = .next t ∧ t.refetch = [] ∧
      getF t Reg.MEM_REFETCH = min (getF s Reg.MEM_REFETCH + 1) (2 ^ 64 - 1) ∧
      t.mem = Memory.writeBytes s.mem (sramAddr c dst) (rdBytes s src len) ∧ marked t g = false ∧ keptBut [.mem, .marks, .flds, .portion, .refetch, .now] s t) ∧
  (∀ (s : State) (addr : Nat) (chk : Check) (again : Bool) (time : Nat),
    (getB s Reg.MEM_SCRUB_CTL_EN = false ∨ chk = .ok ∧ marked s (addr / 64) = false → exec (.scrubRead addr chk again time) s = .next s) ∧
    (getB s Reg.MEM_SCRUB_CTL_EN = true → chk ≠ .ok → addr < 2 ^ 38 → vaultRetired s (addr / 2 ^ 33) = false →
      ∃ t, exec (.scrubRead addr chk false time) s = .next t ∧
        getF t Reg.MEM_SCRUB_DETECT = min (getF s Reg.MEM_SCRUB_DETECT + 1) (2 ^ 64 - 1) ∧
        (isFreePlace s addr = true → t.mem = Memory.writeBytes s.mem (addr / 64 * 64) (List.replicate 64 0) ∧ marked t (addr / 64) = false) ∧
        (isFreePlace s addr = false → t.mem = s.mem ∧ marked t (addr / 64) = true) ∧
        keptBut [.mem, .marks, .flds, .now] s t) ∧
    (getB s Reg.MEM_SCRUB_CTL_EN = true → chk ≠ .ok → inTier addr = true → residentAt s (extentOf addr) = true →
      ∃ t, exec (.scrubRead addr chk false time) s = .next t ∧ marked t (addr / 64) = true ∧
        t.refetch = s.refetch ++ [⟨addr / 64, .scrub⟩] ∧ t.mem = s.mem ∧ keptBut [.marks, .flds, .now, .refetch] s t))) ∧
  (∀ (s : State) (id : Nat),
    ((∀ p, alGet s.prefs id = some p → p.archiving = false) → exec (.prefixArchiveDone id) s = .next s) ∧
    ((∀ p, alGet s.prefs id = some p → p.restoring = false) → ∀ ok, exec (.prefixRestoreDone id ok) s = .next s) ∧
    (∀ p, alGet s.prefs id = some p →
      (∀ e, p.archiving = true → (s.extents.find? fun e => e.2.owner == .archive id) = some e → ∃ t, exec (.prefixArchiveDone id) s = .next t ∧
        alGet t.prefs id = some { p with archiving := false, archived := some e.1 } ∧ (∀ k, k ≠ id → alGet t.prefs k = alGet s.prefs k) ∧
        keptBut [.prefs, .mem, .marks, .flds] s t) ∧
      (p.restoring = true → ∃ t, exec (.prefixRestoreDone id true) s = .next t ∧
        alGet t.prefs id = some { p with restoring := false } ∧ (∀ k, k ≠ id → alGet t.prefs k = alGet s.prefs k) ∧
        keptBut [.prefs, .mem, .marks, .flds] s t) ∧
      (p.restoring = true → prefMode s ≠ 1 → ∃ t, exec (.prefixRestoreDone id false) s = .next t ∧ alGet t.prefs id = none ∧
        (∀ k, k ≠ id → alGet t.prefs k = alGet s.prefs k) ∧ t.portion = s.portion.map (fun q => { q with failedRegion := true }) ∧
        keptBut [.prefs, .portion, .extents, .pages] s t)))

/-- R157, R161, R199, R204. -/
def Obligations.ExtentsExpertsAndFrames : Prop :=
  (∀ (s : State) (x : Nat) (e : Extent), alGet s.extents x = some e →
    (e.state = .fetching →
      (∃ t, exec (.extentFetchDone x true) s = .next t ∧ alGet t.extents x = some { e with state := .resident } ∧
        (∀ y, y ≠ x → alGet t.extents y = alGet s.extents y) ∧
        t.experts = s.experts.map (fun p =>
          if p.res = .fetching ∧ (p.extents.all fun y => match alGet t.extents y with | some z => z.state == .resident | none => false)
          then { p with res := .dram } else p) ∧ keptBut [.extents, .experts] s t) ∧
      (∃ t, exec (.extentFetchDone x false) s = .next t ∧ alGet t.extents x = some { e with state := .flash } ∧
        t.portion = s.portion.map (fun p => { p with poison := .extent x :: p.poison }) ∧ keptBut [.extents, .portion] s t)) ∧
    (e.state ≠ .fetching → ∀ ok, exec (.extentFetchDone x ok) s = .next s) ∧
    (e.draining = true → exec (.frameRelease x) s = .next { s with extents := alSet s.extents x { e with draining := false } }) ∧
    (e.draining = false → exec (.frameRelease x) s = .next s) ∧
    (∀ ok failing, getF s (cardState (extentCard x)) = 3 → e.onCard = false → isImageExtent x = false → hostCopy s x ok = true →
      ∃ t, exec (.extentRebuilt x ok failing) s = .next t ∧ alGet t.extents x = some { e with onCard := true } ∧
        (∀ y, y ≠ x → alGet t.extents y = alGet s.extents y) ∧
        getF t Reg.MEM_HOST_FETCH = min (getF s Reg.MEM_HOST_FETCH + 128) (2 ^ 64 - 1) ∧ keptBut [.extents, .flds] s t)) ∧
  (∀ (s : State) (i : ImageDesc), s.img = some i →
    (i.heat.every = 0 ∨ s.boundaries % i.heat.every ≠ 0 ∨ s.boundaries = 0 → exec .expertPromotion s = .next s) ∧
    (∀ c rest, 0 < i.heat.every → s.boundaries % i.heat.every = 0 → 0 < s.boundaries → i.heat.maxFetch = 1 →
      sortBy hotBefore (s.experts.filter fun x => x.res == .flash) = c :: rest →
      expertFramesUsed s + c.extents.length ≤ expertBudget s → exec .expertPromotion s = .next (startFetch c s)) ∧
    (∀ c rest v, 0 < i.heat.every → s.boundaries % i.heat.every = 0 → 0 < s.boundaries → i.heat.maxFetch = 1 →
      sortBy hotBefore (s.experts.filter fun x => x.res == .flash) = c :: rest →
      expertBudget s < expertFramesUsed s + c.extents.length → victim s c.slot = some v →
      exec .expertPromotion s = .next (if v.heat + i.heat.hyst < c.heat then startFetch c (demoteExpert v s) else s)))

/-- R202, R203: the translation layer's duties. -/
def Obligations.FlashDuties : Prop :=
  ∀ (s : State) (n : Fin 2) (block wear spare : Nat) (worn gone : Bool) (c : Instr) (counted : Nat),
    (c = .flashRelocate n block wear spare worn gone ∧ counted = 1) ∨ (c = .flashRefresh n block wear spare worn gone ∧ counted = 1) ∨
      (c = .wearLevel n block wear spare worn gone ∧ counted = 0) →
    let st := getF s (cardState n)
    (st ≠ 2 → st ≠ 3 → st ≠ 4 → exec c s = .next s) ∧
    (st = 2 ∨ st = 3 ∨ st = 4 → ∃ t, exec c s = .next t ∧
      smGet 0 t.blockReads (n * 2 ^ 32 + block) = 0 ∧ (∀ k, k ≠ n * 2 ^ 32 + block → smGet 0 t.blockReads k = smGet 0 s.blockReads k) ∧
      getF t Reg.MEM_FLASH_RELOCATE = (if counted = 1 then min (getF s Reg.MEM_FLASH_RELOCATE + 1) (2 ^ 64 - 1) else getF s Reg.MEM_FLASH_RELOCATE) ∧
      getF t (cardState n) = (if gone then 5 else if worn ∧ st = 2 then 4 else st) ∧
      getF t (cardWear n) = min wear 255 ∧ getF t (cardSpare n) = min spare 255 ∧
      getF t (cardState (1 - n.val)) = getF s (cardState (1 - n.val)) ∧
      keptBut [.flds, .blockReads, .out, .holdoffA, .holdoffB, .deferA, .deferB, .ledger, .ledgerSeq] s t)

/-- R203, R204, R408, R468: the states of a card. -/
def Obligations.FlashCardLifecycle : Prop :=
  let parts : List Part := [.flds, .out, .holdoffA, .holdoffB, .deferA, .deferB, .ledger, .ledgerSeq, .prefs, .extents]
  ∀ (s : State) (n : Fin 2) (p : Port),
    let st := getF s (cardState n)
    (st ≠ 0 → st ≠ 5 → ∃ t, exec (.cardControllerFault n) s = .next t ∧ getF t (cardState n) = 5 ∧
      getB t Reg.HOST_ALERT_FLASH = true ∧ (∀ x e, alGet t.extents x = some e → extentCard x = n → e.onCard = false) ∧ keptBut parts s t) ∧
    (st = 0 ∨ st = 5 → exec (.cardControllerFault n) s = .next s) ∧
    (st ≠ 0 → ∃ t, exec (.flashRailShort n) s = .next t ∧ getF t (cardState n) = 5 ∧ t.nvFault = (4, 6 + n.val) ∧
      t.vflashLatched = s.vflashLatched.set n true ∧ keptBut (.nvFault :: .vflashLatched :: parts) s t) ∧
    (st ≠ 0 → ∃ t, exec (.cardPulled n) s = .next t ∧ getF t (cardState n) = 0 ∧ t.cardSeated = s.cardSeated.set n false ∧
      keptBut (.cardSeated :: parts) s t) ∧
    (∀ serial wear spare, st = 0 → s.cardSeated.getD n false = false → ∃ t, exec (.cardInserted n serial wear spare) s = .next t ∧
      getF t (cardState n) = 3 ∧ t.cardSeated = s.cardSeated.set n true ∧ t.cardSerial = s.cardSerial.set n serial ∧
      t.vflashLatched = s.vflashLatched.set n false ∧ (∀ x e, alGet t.extents x = some e → extentCard x = n → e.onCard = false) ∧
      keptBut (.cardSeated :: .cardSerial :: .vflashLatched :: parts) s t) ∧
    (st = 3 → (∀ x ∈ s.extents, extentCard x.1 = n → x.2.onCard = true) → ∃ t, exec (.cardRebuildDone n) s = .next t ∧
      getF t (cardState n) = 2 ∧ t.extents = s.extents ∧ keptBut parts s t) ∧
    (stageAlive s = true →
      (getF s (cardState (1 - n.val)) = 2 → getB s Reg.MEM_LOAD_STATUS_BUSY = false → getB s Reg.ENG_IMG_STATUS_BUSY = false →
        removeSafe s n = true → ∃ t, exec (.prepareRemove p n) s = .next t ∧ getF t (cardState n) = 0 ∧
          getF t Reg.MEM_CARD_CMD_STATUS = 0 ∧ getBit t Reg.MEM_CARD_CMD_RELEASED n = true ∧ keptBut parts s t) ∧
      (getF s (cardState (1 - n.val)) ≠ 2 ∨ getB s Reg.MEM_LOAD_STATUS_BUSY = true ∨ removeSafe s n = false →
        exec (.prepareRemove p n) s = .next (setF s Reg.MEM_CARD_CMD_STATUS 0x10)) ∧
      (st = 0 → s.cardSeated.getD n false = true → ∃ t, exec (.cardCancel p n) s = .next t ∧ getF t (cardState n) = 1 ∧
        getF t Reg.MEM_CARD_CMD_STATUS = 0 ∧ getBit t Reg.MEM_CARD_CMD_RELEASED n = false ∧ keptBut parts s t))

/-- R12, R15, R17.  The three registers named last are the ones whose writes do more (R372, R430, R481); chain bits are masked (R488). -/
def Obligations.RegisterWritesAndLocks : Prop :=
  (∀ (s : State) (p : Port) (off : Nat) (v : BitVec 32), stageAlive s = true →
    (regAt off = false ∨ ownRow.contains off = true ∨ rangeOk off v.toNat = false ∨ heldOff s p off = true ∨ windowOk s p off v.toNat = false →
      exec (.registerWrite p off v) s = .next s) ∧
    (regAt off = true → ownRow.contains off = false → rangeOk off v.toNat = true → heldOff s p off = false → windowOk s p off v.toNat = true →
      off ∉ [Reg.CLK_ACLK_CEIL_MIN_CODE.off, Reg.HOST_ALERT_LEAK.off, Reg.PMC_SNAP_CTL_SNAP.off] → (off < 0xA1000 ∨ 0xA1200 ≤ off) →
      ∃ t, exec (.registerWrite p off v) s = .next t ∧
        (∀ f ∈ Reg.table, f.off = off → getP t p f = match f.acc with
          | .rw => bitsAt v.toNat f.lo f.len
          | .rwl => if getB s (lockOf off) then getP s p f else bitsAt v.toNat f.lo f.len
          | .w1c => (getP s p f - (getP s p f &&& bitsAt v.toNat f.lo f.len)) % 2 ^ f.len
          | _ => getP s p f) ∧
        (∀ f ∈ Reg.table, f.perPort = true → getP t (otherPort p) f = getP s (otherPort p) f) ∧
        regsKept (fun k => k % 2 ^ 40 / 64 == off) s t ∧ keptBut [.flds] s t)) ∧
  (∀ (s : State) (p : Port) (block : Fin 12), stageAlive s = true → ∃ t, exec (.lockSet p block) s = .next t ∧
    getB t (lockOf (block * 0x10000)) = true ∧ regsKept (fun k => k == (block * 0x10000 + 0xFFFC) * 64) s t ∧ keptBut [.flds] s t) ∧
  (∀ (s : State) (p : Port) (off : Nat) (v : BitVec 32) (block : Fin 12), s.boot.stage = .safe →
    exec (.registerWrite p off v) s = .next (emit s (.unsupported p)) ∧ exec (.lockSet p block) s = .next (emit s (.unsupported p)))

/-- R14: the latch of each port. -/
def Obligations.PairReadsUseThePortsLatch : Prop :=
  ∀ (s : State) (p : Port) (off : Nat), stageAlive s = true →
    (isPair off = true →
      (∃ t, exec (.pairLowerRead p off) s = .next t ∧ latch t p = some (off, regRead s p (off + 4)) ∧ latch t (otherPort p) = latch s (otherPort p) ∧
        t.out = .readData p (leBytes 4 (regRead s p off)) :: s.out ∧ keptBut [.latchA, .latchB, .out] s t ∧
        ∀ u : State, stageAlive u = true → latch u p = latch t p → ∃ w, exec (.pairUpperRead p off) u = .next w ∧
          w.out = .readData p (leBytes 4 (regRead s p (off + 4))) :: u.out ∧ latch w p = none ∧ latch w (otherPort p) = latch u (otherPort p) ∧
          keptBut [.latchA, .latchB, .out] u w) ∧
      ((∀ v, latch s p ≠ some (off, v)) → ∃ t, exec (.pairUpperRead p off) s = .next t ∧
        t.out = .readData p (leBytes 4 (regRead s p (off + 4))) :: s.out ∧ keptBut [.out] s t)) ∧
    (isPair off = false → exec (.pairLowerRead p off) s = .next s ∧ exec (.pairUpperRead p off) s = .next s)

/-- R13, R16, R422: the bad-access log. -/
def Obligations.BadAccessesAreLogged : Prop :=
  ∀ (s : State) (p : Port) (bar4 : Bool) (off size : Nat) (write : Bool), clocked s = true → stageAlive s = true → off < 2 ^ 32 → size < 8 →
    let bad := !(shapeOk off size) || !(lanesOk (if bar4 then bar4At else regAt) off size)
    (bar4 = true → write = true → exec (.badAccess p bar4 off size write) s = .next (emit s (.bad p true))) ∧
    (bad = false → (bar4 = true → write = false) → exec (.badAccess p bar4 off size write) s = .next s) ∧
    (bad = true → (bar4 = true → write = false) → ∃ t, exec (.badAccess p bar4 off size write) s = .next t ∧ t.out = .bad p write :: s.out ∧
      let n := getF s Reg.HOST_BADACC_COUNT
      let k := n % 16
      getF t Reg.HOST_BADACC_COUNT = min (n + 1) 0xFFFFFFFF ∧ getF t (Reg.HOST_BADACC_ADDR_OFFSET k) = off ∧
      getF t (Reg.HOST_BADACC_INFO_BAR k) = (if bar4 then 2 else 0) ∧ getF t (Reg.HOST_BADACC_INFO_PORT k) = portNum p ∧
      getB t (Reg.HOST_BADACC_INFO_WRITE k) = write ∧ getF t (Reg.HOST_BADACC_INFO_SIZE k) = size ∧
      getB t (Reg.HOST_BADACC_INFO_MISALIGNED k) = !(shapeOk off size) ∧ getF t (Reg.HOST_BADACC_INFO_STATUS k) = 0 ∧
      (∀ j, j < 16 → j ≠ k → getF t (Reg.HOST_BADACC_ADDR_OFFSET j) = getF s (Reg.HOST_BADACC_ADDR_OFFSET j)) ∧
      regsKept (within (0x40040 * 64) (0xC0 * 64)) s t ∧ keptBut [.flds, .out] s t)

/-- R164, R248, R267, R269: ring control.  A consumer-count word is written first when an entry is consumed (log entry 41). R191, R260, R273, R458. -/
def Obligations.HostRingAndSelectorRegisters : Prop :=
  ((∀ (s : State) (p : Port) (on be : Bool), stageAlive s = true →
    let en := if be then Reg.CTX_RING_CTL_BE_EN else Reg.CTX_RING_CTL_LC_EN
    let c : Instr := if be then .beRingEnable p on else .lcRingEnable p on
    (on = false ∨ getP s p en = 1 → exec c s = .next (setP s p en (b2n on))) ∧
    (on = true → getP s p en ≠ 1 → ∃ t, exec c s = .next t ∧ getP t p en = 1 ∧ getP t p Reg.CTX_RING_CTL_PORT_LOST = 0 ∧
      getP t p (consFld be) = 0 ∧ getP t p (phaseFld be) = 1 ∧ smGet 0 t.ctl.consumed (headKey p be) = 0 ∧ headSt t p be = {} ∧
      (∀ q b, headKey q b ≠ headKey p be → headSt t q b = headSt s q b) ∧
      regsKept (fun k => [en, Reg.CTX_RING_CTL_PORT_LOST, consFld be, phaseFld be].any fun f => fldKey f p == k) s t ∧ keptBut [.flds, .ctl] s t)) ∧
  (∀ (s : State) (p : Port) (on : Bool) (v : BitVec 32), stageAlive s = true → (∀ r ∈ s.cplHeld, r.port ≠ p) →
    (∃ t, exec (.cplEnable p on) s = .next t ∧ getP t p Reg.CTX_RING_CTL_CPL_EN = b2n on ∧
      (on = true → getP s p Reg.CTX_RING_CTL_CPL_EN ≠ 1 → getP t p Reg.CTX_CPL_HEAD_INDEX = 0 ∧ getP t p Reg.CTX_CPL_TAIL_INDEX = 0) ∧
      (on = false ∨ getP s p Reg.CTX_RING_CTL_CPL_EN = 1 → t = setP s p Reg.CTX_RING_CTL_CPL_EN (b2n on)) ∧ keptBut [.flds] s t) ∧
    exec (.cplTailWrite p v) s = .next (if tailOk s p (v.toNat % 2 ^ 17) then setP s p Reg.CTX_CPL_TAIL_INDEX (v.toNat % 2 ^ 17) else s)) ∧
  (∀ (s : State) (p : Port) (n : Fin 3) (en : Bool), stageAlive s = true →
    let r := ringOf n
    ∃ t, exec (.ringEnable p n en) s = .next t ∧ getB t r.en = en ∧ getB t r.enabled = (en && decide (0 < getF s r.size)) ∧
      (en = true → getB s r.en = false → getF t r.head = 0 ∧ getF t r.tail = 0 ∧ ringOffsets t r = []) ∧
      (en = false ∨ getB s r.en = true → getF t r.head = getF s r.head ∧ getF t r.tail = getF s r.tail ∧ ringOffsets t r = ringOffsets s r) ∧
      regsKept (oneOf [r.en, r.enabled, r.head, r.tail]) s t ∧ keptBut [.flds, .ringRecs] s t) ∧
  (∀ (s : State) (p : Port) (n : Fin 3) (v : BitVec 32), stageAlive s = true →
    let r := ringOf n
    (v.toNat % 64 ≠ 0 ∨ v.toNat ≠ getF s r.head ∧ v.toNat ∉ ringOffsets s r → exec (.ringTailWrite p n v) s = .next s) ∧
    (v.toNat % 64 = 0 → v.toNat = getF s r.head → ∃ t, exec (.ringTailWrite p n v) s = .next t ∧ getF t r.tail = v.toNat % 2 ^ r.tail.len ∧
      ringOffsets t r = [] ∧ regsKept (oneOf [r.tail]) s t ∧ keptBut [.flds, .ringRecs] s t) ∧
    (∀ a b, v.toNat % 64 = 0 → v.toNat ≠ getF s r.head → v.toNat ∉ a → ringOffsets s r = a ++ v.toNat :: b →
      ∃ t, exec (.ringTailWrite p n v) s = .next t ∧ getF t r.tail = v.toNat % 2 ^ r.tail.len ∧ ringOffsets t r = v.toNat :: b ∧
        regsKept (oneOf [r.tail]) s t ∧ keptBut [.flds, .ringRecs] s t))) ∧
  ((∀ (s : State) (p : Port) (v : BitVec 32), stageAlive s = true →
    (getB s Reg.CTX_LOCK_LOCK = true ∨ s.ctxs ≠ [] → exec (.stepOriginWrite p v) s = .next s) ∧
    (getB s Reg.CTX_LOCK_LOCK = false → s.ctxs = [] → ∃ t, exec (.stepOriginWrite p v) s = .next t ∧ getF t Reg.CTX_STEP_ORIGIN_HI = v.toNat ∧
      getF t Reg.CTX_STEP_NEXT = (getF s Reg.CTX_STEP_ORIGIN_LO + v.toNat * 2 ^ 32) % 2 ^ 64 ∧
      regsKept (oneOf [Reg.CTX_STEP_ORIGIN_HI, Reg.CTX_STEP_NEXT]) s t ∧ keptBut [.flds] s t)) ∧
  (∀ (s : State) (p : Port) (slot : Fin 16) (a b c d e f : Nat), stageAlive s = true →
    (alGet s.ctl.kvSnap slot = some [a, b, c, d, e, f] → ∃ t, exec (.tenantSelect p slot) s = .next t ∧ getP t p Reg.ENG_KV_TSEL_SLOT = slot ∧
      getP t p Reg.ENG_KV_TENANT_LEASE = a % 2 ^ Reg.ENG_KV_TENANT_LEASE.len ∧ getP t p Reg.ENG_KV_TENANT_VALID = b % 2 ∧
      getP t p Reg.ENG_KV_TENANT_OVER = c % 2 ∧ getP t p Reg.ENG_KV_QUOTA = d % 2 ^ Reg.ENG_KV_QUOTA.len ∧
      getP t p Reg.ENG_KV_USED = e % 2 ^ Reg.ENG_KV_USED.len ∧ getP t p Reg.ENG_KV_ARCHIVED = f % 2 ^ Reg.ENG_KV_ARCHIVED.len ∧
      regsKept (fun k => [Reg.ENG_KV_TSEL_SLOT, Reg.ENG_KV_TENANT_LEASE, Reg.ENG_KV_TENANT_VALID, Reg.ENG_KV_TENANT_OVER, Reg.ENG_KV_QUOTA,
        Reg.ENG_KV_USED, Reg.ENG_KV_ARCHIVED].any fun f => fldKey f p == k) s t ∧ keptBut [.flds] s t) ∧
    (∀ l : Lease, s.sec.ks.leases[slot.val]? = some l → ∃ t, exec (.leaseSelect p slot) s = .next t ∧ getP t p Reg.SEC_LSEL_SLOT = slot ∧
      getP t p Reg.SEC_LEASE_INFO_LEASE = l.lease % 2 ^ Reg.SEC_LEASE_INFO_LEASE.len ∧ getP t p Reg.SEC_LEASE_INFO_IDE_REQUIRED = b2n l.ide ∧
      getP t p Reg.SEC_LEASE_INFO_END_PENDING = b2n (l.endStep.isSome && l.st != 3) ∧
      getP t p Reg.SEC_LEASE_END = (l.endStep.getD (2 ^ 64 - 1)) % 2 ^ 64 ∧
      regsKept (fun k => [Reg.SEC_LSEL_SLOT, Reg.SEC_LEASE_INFO_LEASE, Reg.SEC_LEASE_INFO_IDE_REQUIRED, Reg.SEC_LEASE_INFO_END_PENDING,
        Reg.SEC_ADOPT_SEQ, Reg.SEC_LEASE_END].any fun f => fldKey f p == k) s t ∧ keptBut [.flds] s t)))

/-- R221 to R224.  An aborted load's status is the model's choice (log entry 20). -/
def Obligations.WeightLoads : Prop :=
  (∀ (s : State) (p port : Port) (host : HostMem), stageAlive s = true →
    (getB s Reg.MEM_LOAD_STATUS_BUSY = true → exec (.loadGo p port host) s = .next s) ∧
    (getB s Reg.MEM_LOAD_STATUS_BUSY = false → s.boot.extended = false →
      let a := getF s Reg.MEM_MANIFEST_LO + getF s Reg.MEM_MANIFEST_HI * 2 ^ 32
      (∀ l : Load, portUp s port = true → a % 64 = 0 → readManifest host port a = some l → loadValid s p l = true →
        (l.kind = 0 → slotState s l.target = 0) → (l.kind ≠ 0 → alGet s.wts.smalls l.target = none) → loadFit s l = none →
        ∃ t, exec (.loadGo p port host) s = .next t ∧ getB t Reg.MEM_LOAD_STATUS_BUSY = true ∧ getF t Reg.MEM_LOAD_STATUS_PHASE = 4 ∧
          t.wts.load = some ⟨l, port⟩ ∧ (l.kind = 0 → slotState t l.target = 1) ∧
          (∀ x ∈ loadExtents l, ∃ e, alGet t.extents x = some e ∧ e.owner = loadOwner l ∧ e.state = .flash ∧ e.onCard = false) ∧
          (∀ x, x ∉ loadExtents l → alGet t.extents x = alGet s.extents x) ∧
          regsKept (oneOf [Reg.MEM_LOAD_CMD_PORT, Reg.MEM_LOAD_STATUS_BUSY, Reg.MEM_LOAD_STATUS_PROGRESS, Reg.MEM_LOAD_STATUS_PHASE,
            slotFld l.target]) s t ∧ keptBut [.flds, .wts, .extents] s t) ∧
      (portUp s port = false ∨ a % 64 ≠ 0 ∨ readManifest host port a = none ∨ (∃ l, readManifest host port a = some l ∧ loadValid s p l = false) →
        ∃ t, exec (.loadGo p port host) s = .next t ∧ getF t Reg.MEM_LOAD_STATUS_STATUS = 0x23 ∧ getB t Reg.MEM_LOAD_STATUS_BUSY = false ∧
          keptBut (.wts :: irqParts) s t) ∧
      (∀ (l : Load) (r : Nat), portUp s port = true → a % 64 = 0 → readManifest host port a = some l → loadValid s p l = true →
        (l.kind = 0 → slotState s l.target = 0) → (l.kind ≠ 0 → alGet s.wts.smalls l.target = none) → loadFit s l = some r →
        ∃ t, exec (.loadGo p port host) s = .next t ∧ getF t Reg.MEM_LOAD_STATUS_STATUS = 0x10 ∧ getF t Reg.MEM_LOAD_STATUS_RESOURCE = r ∧
          getB t Reg.MEM_LOAD_STATUS_BUSY = false ∧ keptBut (.wts :: irqParts) s t))) ∧
  (∀ (s : State) (p : Port) (r : LoadRun) (data : List (Nat × List Nat)) (digestOk : Bool), s.wts.load = some r →
    (getF s Reg.MEM_LOAD_STATUS_PHASE = 4 →
      ∃ t, exec (.loadPullDone .ok data true) s = .next t ∧ getF t Reg.MEM_LOAD_STATUS_PHASE = 6 ∧ getF t Reg.MEM_LOAD_STATUS_PROGRESS = 100 ∧
        (∀ x e, x ∈ loadExtents r.load → alGet s.extents x = some e → alGet t.extents x = some { e with
          onCard := true, crc := unitCrcs t x, state := if e.mode = .pin then .fetching else .flash }) ∧
        (∀ x, x ∉ loadExtents r.load → alGet t.extents x = alGet s.extents x) ∧
        keptBut [.flds, .mem, .marks, .extents] s t) ∧
    (getF s Reg.MEM_LOAD_STATUS_PHASE = 6 →
      ∃ t, exec (.loadPrimeDone .ok) s = .next t ∧ getF t Reg.MEM_LOAD_STATUS_STATUS = 0 ∧ getB t Reg.MEM_LOAD_STATUS_BUSY = false ∧ t.wts.load = none ∧
        (r.load.kind = 0 → r.load.target < 2 → s.wts.gens.length = 2 → slotState t r.load.target = 2 ∧
          getF t (genIdFld r.load.target) = r.load.genId % 2 ^ 32 ∧ genLoad t r.load.target = some r.load) ∧
        (r.load.kind ≠ 0 → alGet t.wts.smalls r.load.target = some ⟨r.load, false⟩) ∧
        (∀ e ∈ t.extents, e.2.owner = loadOwner r.load → e.2.state ≠ .fetching) ∧ keptBut (.wts :: .experts :: .extents :: irqParts) s t) ∧
    (∀ (c : Instr) (status : Nat),
      (c = .loadAbort p ∧ stageAlive s = true ∧ status = 0x23) ∨
      (getF s Reg.MEM_LOAD_STATUS_PHASE = 4 ∧ (c = .loadPullDone .unreadable data digestOk ∧ status = 0x31 ∨
        c = .loadPullDone .refused data digestOk ∧ status = 0x23 ∨ c = .loadPullDone .ok data false ∧ status = 0x31)) ∨
      (getF s Reg.MEM_LOAD_STATUS_PHASE = 6 ∧ (c = .loadPrimeDone .unreadable ∧ status = 0x31 ∨ c = .loadPrimeDone .refused ∧ status = 0x23)) →
      ∃ t, exec c s = .next t ∧ getF t Reg.MEM_LOAD_STATUS_STATUS = status ∧ getB t Reg.MEM_LOAD_STATUS_BUSY = false ∧ t.wts.load = none ∧
        (r.load.kind = 0 → r.load.target < 2 → slotState t r.load.target = 0 ∧ getF t (genIdFld r.load.target) = 0) ∧
        (∀ e ∈ t.extents, e.2.owner ≠ loadOwner r.load) ∧
        keptBut (.wts :: .experts :: .extents :: .prefs :: .pages :: .mem :: .marks :: .ctl :: irqParts) s t)) ∧
  (∀ (s : State) (p : Port) (how : PullEnd) (data : List (Nat × List Nat)) (digestOk : Bool), s.wts.load = none → stageAlive s = true →
    exec (.loadAbort p) s = .next s ∧ exec (.loadPullDone how data digestOk) s = .next s ∧ exec (.loadPrimeDone how) s = .next s)

/-- R228, R231, R235, R239. -/
def Obligations.GenerationCommands : Prop :=
  ∀ (s : State) (p : Port) (slot : Fin 2) (index : Fin 256), stageAlive s = true →
    (getB s Reg.MEM_GEN_STATE_CMD_PENDING = true →
      exec (.switch p slot) s = .next s ∧ exec (.discard p slot) s = .next s ∧ exec (.release p index) s = .next s) ∧
    (getB s Reg.MEM_GEN_STATE_CMD_PENDING = false →
      (isEntry s = true → switchStatus s slot (getF s Reg.MEM_GEN_CMD_ID) = 0 → ∃ t, exec (.switch p slot) s = .next t ∧
        t.wts = { s.wts with switchTo := some slot.val } ∧ getB t Reg.MEM_GEN_STATE_CMD_PENDING = true ∧ getF t Reg.MEM_GEN_STATE_CMD_STATUS = 0 ∧
        regsKept (oneOf [Reg.MEM_GEN_STATE_CMD_PENDING, Reg.MEM_GEN_STATE_CMD_STATUS]) s t ∧ keptBut [.flds, .wts] s t) ∧
      (∀ st, st = (if isEntry s then switchStatus s slot (getF s Reg.MEM_GEN_CMD_ID) else 0x23) → st ≠ 0 →
        ∃ t, exec (.switch p slot) s = .next t ∧ getF t Reg.MEM_GEN_STATE_CMD_STATUS = st ∧ keptBut irqParts s t) ∧
      (slotState s slot = 2 → ∃ t, exec (.discard p slot) s = .next t ∧ slotState t slot = 0 ∧ getF t (genIdFld slot) = 0 ∧
        getF t Reg.MEM_GEN_STATE_CMD_STATUS = 0 ∧ (∀ e ∈ t.extents, e.2.owner ≠ .gen slot) ∧
        keptBut (.wts :: .experts :: .extents :: .prefs :: .pages :: .mem :: .marks :: .ctl :: irqParts) s t) ∧
      (slotState s slot ≠ 2 → ∃ t, exec (.discard p slot) s = .next t ∧
        getF t Reg.MEM_GEN_STATE_CMD_STATUS = (if isEntry s = false ∧ (slotState s slot = 3 ∨ slotState s slot = 4) then 0x23 else 0x10) ∧
        slotState t slot = slotState s slot ∧ keptBut irqParts s t) ∧
      (alGet s.wts.smalls index = none → ∃ t, exec (.release p index) s = .next t ∧ getF t Reg.MEM_GEN_STATE_CMD_STATUS = 0x10 ∧
        keptBut irqParts s t) ∧
      (∀ m, alGet s.wts.smalls index = some m → ∃ t, exec (.release p index) s = .next t ∧ getF t Reg.MEM_GEN_STATE_CMD_STATUS = 0 ∧
        (smallUsed s index = false → alGet t.wts.smalls index = none ∧ ∀ e ∈ t.extents, e.2.owner ≠ .small index) ∧
        (smallUsed s index = true → alGet t.wts.smalls index = some { m with retiring := true }) ∧
        keptBut (.wts :: .extents :: irqParts) s t))

/-- R210, R211, R263, R324. -/
def Obligations.PortionsEnd : Prop :=
  (∀ (s : State) (time : Nat), s.portion = none → exec (.portionEnd time) s = .next s ∧ exec (.portionRerunDone time) s = .next s) ∧
  (∀ (s : State) (time : Nat) (p : Portion), s.portion = some p →
    (p.rerun = true → exec (.portionEnd time) s = .next s) ∧ (p.rerun = false → exec (.portionRerunDone time) s = .next s) ∧
    (∀ (c : Instr), (c = .portionEnd time ∧ p.rerun = false) ∨ (c = .portionRerunDone time ∧ p.rerun = true) →
      (∀ st, p.fabStatus = 0 → (p.rerun = false → p.poison = [] ∨ p.failedRegion = true) →
        st = (if p.failedRegion ∨ p.poison ≠ [] then 0x31 else if p.rerun ∨ p.recovered then 0x30 else 0) →
        ∃ t, exec c s = .next t ∧ t.portion = none ∧
          let q : Portion := { p with ended := true, status := st, hdr := { p.hdr with status := max p.hdr.status st } }
          (s.finals = [] → egressOps p = [] → (isLast s = true ∨ s.suspended = none ∧ ∀ h ∈ s.inbox, p.hdr.step ≤ h.step) →
            getF t Reg.MEM_UNRECOVERED = (if st = 0x31 then min (getF s Reg.MEM_UNRECOVERED + 1) (2 ^ 64 - 1) else getF s Reg.MEM_UNRECOVERED) ∧
            t.img = s.img ∧ t.inbox = s.inbox ∧ t.suspended = s.suspended ∧ t.finals = [] ∧
            (if isLast s then Out.ret (returnOf q) else Out.next (headerOn q)) ∈ t.out)) ∧
      (p.fabStatus ≠ 0 → ∃ t, exec c s = .next t ∧ t.portion = none ∧ p.hdr.step ∈ t.ctl.dead)) ∧
    (p.rerun = false → p.fabStatus = 0 → p.failedRegion = false → p.poison ≠ [] →
      ∃ t, exec (.portionEnd time) s = .next t ∧
        t.portion = some { p with rerun := true, poison := [], trapped := [], routes := [], egress := [], returns := [] } ∧
        getF t Reg.MEM_REPLAY = min (getF s Reg.MEM_REPLAY + 1) (2 ^ 64 - 1) ∧ t.finals = s.finals ∧ t.barriers = [] ∧
        (∀ c, (coreGet t c).nextIndex = 0 ∧ (coreGet t c).stop = .run ∧ (coreGet t c).inFallback = []) ∧ t.pages = s.pages ∧ t.ctxs = s.ctxs))

/-- R230, R243, R245. -/
def Obligations.StepsArriveAndReturn : Prop :=
  (∀ (s : State) (h : StepHeader) (time : Nat),
    (isEntry s = true ∨ stageAlive s = false ∨ s.img = none → exec (.stepReceive h time) s = .next s) ∧
    (isEntry s = false → stageAlive s = true → s.img ≠ none → lateStep s h.step = false →
      (genHeld s h = true → h.gen < 2 → ∃ t, exec (.stepReceive h time) s = .next t ∧ t.inbox = s.inbox ++ [h] ∧ t.lastStep = h.step ∧
        getF t Reg.MEM_GEN_STATE_HOLD = h.hold % 2 ^ Reg.MEM_GEN_STATE_HOLD.len ∧ getF t Reg.MEM_GEN_STATE_POINTER = h.gen ∧
        slotState t h.gen = (if slotState s h.gen = 2 then 3 else slotState s h.gen) ∧ t.ctxs = s.ctxs ∧ t.portion = s.portion ∧ t.finals = s.finals) ∧
      (genHeld s h = false → ∃ t, exec (.stepReceive h time) s = .next t ∧ t.inbox = s.inbox ∧ h.step ∈ t.ctl.dead ∧ t.lastStep = h.step ∧
        t.ctxs = s.ctxs ∧ t.portion = s.portion ∧ t.finals = s.finals))) ∧
  (∀ (s : State) (m : ReturnMsg) (time : Nat),
    ((∀ f ∈ s.ctl.flights, f.hdr.step ≠ m.step) → exec (.returnMessage m time) s = .next s) ∧
    (∀ (f : Flight) (r : ReqRec) (c : Ctx), (s.ctl.flights.find? fun g => g.hdr.step == m.step) = some f → f.hdr.reqs = [r] →
      alGet s.ctxs r.ctx = some c →
      (∀ o : RetReq, r.kind = .cont ∨ r.kind = .autoDecode → (m.reqs.find? fun x => x.ctx == r.ctx) = some o → o.invalid = false →
        c.condemned = false → (o.reason = 0 → leaseActive s c.desc.lease = true ∧ portUp s c.port = true) →
        ∃ t d, exec (.returnMessage m time) s = .next t ∧ alGet t.ctxs r.ctx = some d ∧ d.st = (if o.reason = 0 then .ready else .ending) ∧
          d.emitted = c.emitted + o.tokens.length ∧ d.tail = r.pos0 + r.rows ∧ d.endReason = (if o.reason = 0 then c.endReason else o.reason) ∧
          d.varyAny = (c.varyAny || m.vary || f.vary || r.vary) ∧ d.spans = c.spans ∧ d.desc = c.desc ∧ d.port = c.port ∧
          (∀ id, id ≠ r.ctx → alGet t.ctxs id = alGet s.ctxs id) ∧
          t.ctl.flights = s.ctl.flights.filter (fun g => g.hdr.step != m.step) ∧ t.ctl.journalDue.length = s.ctl.journalDue.length + 1 ∧
          keptBut [.flds, .now, .ctxs, .clients, .ctl, .out] s t) ∧
      (∀ k, r.kind = .release → m.reqs = [] → c.entryDue = false → c.releaseStep = some k → cplOpen s c.port = true → s.cplHeld = [] →
        ∃ t, exec (.returnMessage m time) s = .next t ∧ alGet t.ctxs r.ctx = none ∧ (∀ id, id ≠ r.ctx → alGet t.ctxs id = alGet s.ctxs id) ∧
          cplHead t c.port = (cplHead s c.port + 1) % (2 * cplSize s c.port) % 2 ^ 17 ∧
          t.ctl.flights = s.ctl.flights.filter (fun g => g.hdr.step != m.step) ∧ t.mem = s.mem ∧ t.pages = s.pages)))

/-- R244, R245, R249, R262, R272. -/
def Obligations.LimitsPollsAndAdoption : Prop :=
  (∀ (s : State) (step time : Nat) (f : Flight), (s.ctl.flights.find? fun g => g.hdr.step == step) = some f →
    (∀ x, f.left = some x → x + getF s Reg.CTX_RETURN_LIMIT_MS * 1000000 ≤ time →
      ∃ t, exec (.returnLimitExpire step time) s = .next t ∧ (∀ g ∈ t.ctl.flights, g.hdr.step ≠ step) ∧ step ∈ t.ctl.dead ∧
        (∀ g ∈ s.ctl.flights, g.hdr.step ≠ step → g ∈ t.ctl.flights) ∧ t.img = s.img) ∧
    (f.left = none ∨ (∃ x, f.left = some x ∧ time < x + getF s Reg.CTX_RETURN_LIMIT_MS * 1000000) → exec (.returnLimitExpire step time) s = .next s)) ∧
  (∀ (s : State) (ctx : Fin 4096) (time x : Nat) (c : Ctx), alGet s.ctxs ctx = some c →
    (c.st ≠ .orphaned → exec (.orphanLimitExpire ctx time) s = .next s) ∧
    (c.st = .orphaned → c.orphanAt = some x →
      (time < x + getF s Reg.CTX_ORPHAN_LIMIT_S * 1000000000 ∨ (∃ a ∈ s.ctl.adopts, a.ctx = ctx.val) → exec (.orphanLimitExpire ctx time) s = .next s) ∧
      (x + getF s Reg.CTX_ORPHAN_LIMIT_S * 1000000000 ≤ time → (∀ a ∈ s.ctl.adopts, a.ctx ≠ ctx.val) →
        ∃ t, exec (.orphanLimitExpire ctx time) s = .next t ∧
          alGet t.ctxs ctx = some { c with st := .ending, endStatus := 0, endReason := 5, releaseStep := none } ∧
          (∀ id, id ≠ ctx.val → alGet t.ctxs id = alGet s.ctxs id) ∧ keptBut [.flds, .now, .ctxs] s t))) ∧
  (∀ (s : State) (host : HostMem) (time : Nat),
    (isEntry s = true → stageAlive s = true → s.portion = none → ∃ t, exec (.ringPoll host time) s = .next t ∧
      (∀ p be, (headOf host s p be).isSome = true → ∃ y, (headSt t p be).seen = some y) ∧
      (∀ p be, (headOf host s p be).isSome = false → headSt t p be = headSt s p be) ∧
      (∀ p, (ringEn s p false || ringEn s p true) = true → .poll p (headOf host s p false).isSome (headOf host s p true).isSome ∈ t.out) ∧
      keptBut [.flds, .now, .ctl, .out] s t) ∧
    (isEntry s = false ∨ s.portion ≠ none → exec (.ringPoll host time) s = .next s) ∧
    (∀ q, isEntry s = true → stageAlive s = true → getB s Reg.CTX_POLICY_PREEMPT_EN = true → s.portion = some q → q.hdr.be = true →
      ∃ t, exec (.lcPoll host time) s = .next t ∧
        t.ctl.lcReady = (s.ctl.lcReady || (headOf host s .a false).isSome || (headOf host s .b false).isSome) ∧ keptBut [.flds, .now, .ctl] s t) ∧
    (isEntry s = false ∨ getB s Reg.CTX_POLICY_PREEMPT_EN = false ∨ s.portion = none → exec (.lcPoll host time) s = .next s)) ∧
  (∀ (s : State) (p : Port) (host : HostMem) (authSeq : Option Nat), stageAlive s = true →
    let a := getP s p Reg.CTX_ADOPT_ADDR_LO * 64 + getP s p Reg.CTX_ADOPT_ADDR_HI * 2 ^ 32
    (getP s p Reg.CTX_ADOPT_CMD_BUSY = 1 → exec (.adoptGo p host authSeq) s = .next s) ∧
    (getP s p Reg.CTX_ADOPT_CMD_BUSY ≠ 1 →
      (hostRead host p a 64 = none → ∃ t, exec (.adoptGo p host authSeq) s = .next t ∧ getP t p Reg.CTX_ADOPT_CMD_STATUS = 0x23 ∧ keptBut irqParts s t) ∧
      (∀ bs, hostRead host p a 64 = some bs → ∃ t, exec (.adoptGo p host authSeq) s = .next t ∧ getP t p Reg.CTX_ADOPT_CMD_BUSY = 1 ∧
        t.ctl = { s.ctl with adopts := s.ctl.adopts ++ [⟨p, fieldAt bs 0 2 % 4096, fieldAt bs 2 2, fieldAt bs 4 8, fieldAt bs 12 4, authSeq⟩] } ∧
        regsKept (fun k => k == fldKey Reg.CTX_ADOPT_CMD_BUSY p) s t ∧ keptBut [.flds, .ctl] s t)))

/-- R178, R179, R212, R262. R256: the step's budget of rows. -/
def Obligations.StepBoundariesAndRows : Prop :=
  (∀ (s : State) (time : Nat) (host : HostMem) (places : List Nat) (lost : List (Bool × List (Fin 4096))),
    (s.boot.stage ≠ .ready ∨ s.portion ≠ none → exec (.stepBoundary time host places lost) s = .next s) ∧
    (s.boot.stage = .ready → s.portion = none →
      (s.suspended ≠ none → s.ctl.lcRan = true → exec (.stepBoundary time host places lost) s = .next (controlChecks lost (atTime time s))) ∧
      (∀ h, isEntry s = true → nextPortion s = some h → groupsServe s (usesDraft s h) = true → (s.suspended = none ∨ s.ctl.lcRan = false) →
        (∀ x ∈ s.inbox, x.step ≤ h.step → x.step ∈ s.ctl.applied) →
        ∃ t, exec (.stepBoundary time host places []) s = .next t ∧
          t.portion = some { hdr := h, start := max s.now time, leases := leasesOf s h } ∧
          t.inbox = s.inbox.filter (fun x => x.step != h.step) ∧ t.ctl.applied = s.ctl.applied.filter (· != h.step) ∧
          t.ctl.lcRan = s.suspended.isSome ∧ t.barriers = [] ∧ (∀ c, (coreGet t c).nextIndex = 0 ∧ (coreGet t c).stop = .run) ∧
          keptBut [.flds, .now, .inbox, .ctl, .barriers, .cores, .portion] s t) ∧
      (s.img = none → s.suspended = none → s.inbox = [] → s.finals = [] → s.ctxs = [] → s.prefs = [] → s.pages = [] → s.experts = [] → s.clients = [] →
        s.wts = {} → s.fab = {} → s.sec = {} → s.ctl = {} →
        (∀ c, c < 192 → getBit s (Reg.NOC_FENCE_PENDING (c / 32)) (c % 32) = false) → (∀ v, v < 32 → getF s (vaultState v) ≠ 1) →
        ∃ t, exec (.stepBoundary time host places []) s = .next t ∧ t.boundaries = s.boundaries + 1 ∧ t.portion = none ∧ t.inbox = [] ∧
          getF t Reg.CTX_STEP_NEXT = getF s Reg.CTX_STEP_NEXT ∧ getF t Reg.ENG_KV_POOL_FREE = 0 ∧
          (∀ n, n < 16 → smGet (0, false) t.layerSlots n = (getF s (Reg.PMC_LAYER_LAYER n), getB s (Reg.PMC_LAYER_EN n))) ∧
          keptBut [.flds, .now, .layerSlots, .ctl, .boundaries, .snp] s t))) ∧
  (∀ (host : HostMem) (lcOnly : Bool) (s : State), (s.ctxs.map Prod.fst).Nodup →
    let f := fillStep host lcOnly s
    f.rows ≤ (servingOf s).stepRows ∧ f.lc ≤ (servingOf s).lcRows ∧ f.rows = (f.cands.map fun k => k.r.rows).sum ∧
    f.s.mem = s.mem ∧ f.s.pages = s.pages ∧ f.s.portion = s.portion ∧ f.s.img = s.img)

/-- R344 to R347. -/
def Obligations.ReplaySessionsAndCapture : Prop :=
  ∀ (s : State) (p : Port), stageAlive s = true →
    (∀ fresh, isEntry s = true → s.ctxs = [] → s.ctl.flights = [] → s.ctl.replay = none → ∃ t, exec (.enter p fresh) s = .next t ∧
      t.ctl = { s.ctl with replay := some ⟨fresh, none⟩ } ∧ getF t Reg.CTX_REPLAY_CMD_MODE = 1 ∧ getF t Reg.CTX_REPLAY_CMD_STATUS = 0 ∧
      getB t Reg.CTX_REPLAY_CMD_FRESH = fresh ∧ t.prefs = s.prefs.map (fun q => (q.1, { q.2 with hidden := fresh })) ∧
      keptBut (.ctl :: .prefs :: irqParts) s t) ∧
    (∀ fresh, isEntry s = false ∨ s.ctxs ≠ [] ∨ s.ctl.flights ≠ [] → ∃ t, exec (.enter p fresh) s = .next t ∧
      getF t Reg.CTX_REPLAY_CMD_STATUS = 0x23 ∧ keptBut irqParts s t) ∧
    (∀ x, s.ctl.replay = some x → s.ctxs = [] → ∃ t, exec (.leave p) s = .next t ∧ t.ctl.replay = none ∧
      getF t Reg.CTX_REPLAY_CMD_MODE = 0 ∧ getF t Reg.CTX_REPLAY_CMD_STATUS = 0 ∧
      (∀ q ∈ t.prefs, q.2.hidden = false ∧ q.2.session = false) ∧
      (x.fresh = false → t.prefs = s.prefs.map fun q => (q.1, { q.2 with hidden := false, session := false })) ∧
      (x.fresh = true → prefMode s ≠ 1 → ∀ q ∈ s.prefs, q.2.session = true → ∀ r ∈ t.prefs, r.1 ≠ q.1) ∧
      keptBut (.ctl :: .prefs :: .extents :: .pages :: .mem :: .marks :: irqParts) s t) ∧
    (s.ctl.replay = none ∨ s.ctxs ≠ [] → ∃ t, exec (.leave p) s = .next t ∧ getF t Reg.CTX_REPLAY_CMD_STATUS = 0x23 ∧ keptBut irqParts s t) ∧
    (∀ host : HostMem, let a := getF s Reg.CTX_REPLAY_ADDR_LO * 64 + getF s Reg.CTX_REPLAY_ADDR_HI * 2 ^ 32
      (getB s Reg.CTX_REPLAY_CMD_BUSY = true → exec (.submit p host) s = .next s) ∧
      (getB s Reg.CTX_REPLAY_CMD_BUSY = false →
        (∀ hd bs, s.ctl.replay ≠ none → hostRead host p a 64 = some hd → hostRead host p (a + 64) (64 * fieldAt hd 14 2) = some bs →
          ∃ t, exec (.submit p host) s = .next t ∧ t.ctl = { s.ctl with submit := some (p, hd ++ bs) } ∧ getB t Reg.CTX_REPLAY_CMD_BUSY = true ∧
            regsKept (oneOf [Reg.CTX_REPLAY_CMD_BUSY]) s t ∧ keptBut [.flds, .ctl] s t) ∧
        (s.ctl.replay = none ∨ hostRead host p a 64 = none → ∃ t, exec (.submit p host) s = .next t ∧
          getF t Reg.CTX_REPLAY_CMD_STATUS = 0x23 ∧ keptBut irqParts s t))) ∧
    (∀ lease : BitVec 16,
      let ok := (servingOf s).capture && leaseActive s lease.toNat && leaseBound s lease.toNat p && ideOk s lease.toNat p
      (ok = true → ∃ t, exec (.arm p lease) s = .next t ∧ getB t Reg.CTX_CAPTURE_CTL_ARMED = true ∧ getB t Reg.CTX_CAPTURE_CTL_TAKEN = false ∧
        getF t Reg.CTX_CAPTURE_CTL_LEASE = lease.toNat ∧
        regsKept (oneOf [Reg.CTX_CAPTURE_CTL_ARMED, Reg.CTX_CAPTURE_CTL_TAKEN, Reg.CTX_CAPTURE_CTL_LEASE]) s t ∧ keptBut [.flds] s t) ∧
      (ok = false → ∃ t, exec (.arm p lease) s = .next t ∧ getB t Reg.CTX_CAPTURE_CTL_ARMED = false ∧ getF t Reg.CTX_CAPTURE_CTL_STATUS = 0x23 ∧
        keptBut irqParts s t))

/-- R310 to R316, R322.  Where a load's size travels, and what RRETRY resends, are the model's choice (log entry 33). -/
def Obligations.RemoteOperations : Prop :=
  ∀ (s : State) (i : Ins), mayIssue s i (some .mem) → ∃ f : Nat → State, (∀ k, Issued s i (some .mem) (f k)) ∧
    (∀ (target job size : Nat) (form : Bool) (scale offset loc : Nat),
      ∀ row ∈ [(Instr.rload i target job size offset loc, FabKind.load, f 0), (.rstore i target job size offset loc, .store, f 1),
        (.rfadd i target job size offset loc, .fadd, f 2), (.rcas i target job size offset loc, .cas, f 3),
        (.rmin i target job size offset loc, .min, f 4), (.rmax i target job size offset loc, .max, f 5),
        (.rreduce i target job size form scale offset loc, .reduce, f 6), (.rmstore i target job size offset loc, .mstore, f 7)],
      row.1.wf = true →
      let k := row.2.1
      let w := row.2.2
      let a := sramAddr i.core (loc * 64)
      let n := sizeOf8 size
      (∀ ids : List Nat, (if k = .mstore then groupIds s target else (remapId s target).map fun x => [x]) = some ids → ids ≠ [] →
        (∀ x ∈ ids, (crosses k = true ∨ rackOf x = rackOf (myId s)) ∧ isDead s x = false) →
        ∃ (t : State) (o : FabOp), exec row.1 s = .next t ∧ o.num = s.fab.next ∧ o.kind = k ∧ o.core = i.core ∧ o.index = i.index ∧ o.dst = a ∧ o.size = n ∧
          o.sent = false ∧ o.sash = none ∧ o.mcast = (k == .mstore) ∧ o.target = (if k = .mstore then target else ids.headD 0) ∧
          o.members = (if k = .mstore then ids else []) ∧
          (let p := parsePkt (o.packet ++ [0, 0, 0, 0])
           p.kind = typeOf k ∧ p.vc = 1 ∧ p.job = job ∧ p.offset = offset ∧ p.target = o.target ∧
           p.payload = (if k = .load then [] else if k = .cas then rdBytes w (a + 8) n else if isAtomic k then [] else rdBytes w a n) ∧
           p.aux = (if k = .load then n else if isAtomic k then rdLe w a n else 0) ∧
           p.wide = (if isAtomic k then n == 8 else k == .reduce && form) ∧ p.scale = (if k = .reduce ∧ form = false then scale else 0)) ∧
          let v := operandCheck a (if k = .load then 0 else if k = .cas then 16 else if isAtomic k then 8 else n) w
          t = (if isHeld k && s.portion.isSome then holdOp o { v with fab.next := v.fab.next + 1 }
            else fabPump { v with fab.next := v.fab.next + 1, fab.ops := v.fab.ops ++ [o] })) ∧
      (k ≠ .mstore → remapId s target = none → ∃ t, exec row.1 s = .next t ∧
        getF t Reg.FAB_DENIED = min (getF s Reg.FAB_DENIED + 1) (2 ^ 64 - 1) ∧ getF t Reg.FAB_LAST_FAULT_CAUSE = 2 ∧
        getF t Reg.FAB_LAST_FAULT_STATUS = 0x23 ∧ (∀ x ∈ t.fab.ops, x ∈ s.fab.ops) ∧
        keptBut (.cores :: .mem :: .marks :: .ringRecs :: .portion :: .suspended :: .fab :: irqParts) s t)) ∧
    (∀ (target job size offset loc d : Nat), (Instr.rretry i target job size offset loc).wf = true → remapId s target = some d →
      rackOf d = rackOf (myId s) → isDead s d = false →
      ∃ (t : State) (o : FabOp), exec (.rretry i target job size offset loc) s = .next t ∧ o.num = s.fab.next ∧ o.kind = .fadd ∧ o.retry = true ∧
        o.seq = rdLe (f 9) (sramAddr i.core (loc * 64) + 12) 4 ∧ o.target = d ∧
        (let v := operandCheck (sramAddr i.core (loc * 64)) 20 (f 9)
         t = fabPump { v with fab.next := v.fab.next + 1, fab.ops := v.fab.ops ++ [o] })) ∧
    (let ns := (s.fab.ops.filter fun o => o.core == i.core.val && o.sash.isNone && !o.held).map fun o => o.num
     (ns = [] → exec (.rfence i) s = .next (f 8)) ∧
     (ns ≠ [] → exec (.rfence i) s = .next { f 8 with fab.fences := (f 8).fab.fences ++ [⟨i.core, i.index, ns⟩] }))

/-- R305 to R320: the target of a request. -/
def Obligations.FabricRequestsPerformed : Prop :=
  (∀ (s : State) (port : Fin 8) (bytes : List Nat) (chk : List (Nat × Check)) (hostOk : Bool) (time : Nat),
    let cmds : List (Instr × Nat) := [(.load port bytes chk hostOk time, 1), (.store port bytes chk time, 2), (.fadd port bytes chk time, 3),
      (.cas port bytes chk time, 4), (.min port bytes chk time, 5), (.max port bytes chk time, 6), (.reduce port bytes chk time, 7),
      (.mstore port bytes chk time, 8), (.bulkWrite port bytes chk time, 9), (.bulkRead port bytes chk hostOk time, 10)]
    ∀ c ∈ cmds,
      (∀ u, arrive port c.2 bytes time s = (none, u) → exec c.1 s = .next u) ∧
      (∀ p u v, arrive port c.2 bytes time s = (some p, u) →
        (flowCheck p u = (.drop, v) → exec c.1 s = .next v) ∧
        (flowCheck p u = (.fresh, v) →
          (windowAddr p v = none → ∃ w, exec c.1 s = .next (sendReply p 0x23 0 [] w) ∧ w.mem = v.mem ∧
            getF w Reg.FAB_DENIED = min (getF v Reg.FAB_DENIED + 1) (2 ^ 64 - 1) ∧ getF w Reg.FAB_LAST_FAULT_CAUSE = 2 ∧
            getF w Reg.FAB_LAST_FAULT_TARGET = p.source ∧ keptBut (.fab :: irqParts) v w) ∧
          (∀ a, windowAddr p v = some a →
            let n := reqBytes p
            (c.2 = 2 ∨ c.2 = 8 ∨ c.2 = 9 → (∀ g ∈ granulesOf a p.payload.length, checkOf v chk g ≠ .hard) →
              ∃ w, exec c.1 s = .next (sendReply p 0 0 [] w) ∧ w.mem = Memory.writeBytes v.mem a p.payload ∧
                keptBut [.mem, .marks, .flds] v w ∧ regsKept storeKey v w) ∧
            (c.2 = 1 ∨ c.2 = 10 → a + n ≤ 2 ^ 38 → (∀ g ∈ granulesOf a n, checkOf v chk g = .ok) →
              ∃ w, exec c.1 s = .next (sendReply p 0 0 (rdBytes v a n) w) ∧ w.mem = v.mem ∧ keptBut [.flds] v w ∧ regsKept storeKey v w) ∧
            (3 ≤ c.2 → c.2 ≤ 6 → checkOf v chk (a / 64) = .ok →
              let old := rdLe v a n
              let signed := toSigned (8 * n)
              ∃ w, exec c.1 s = .next (sendReply p 0 old [] w) ∧
                rdLe w a n = (if c.2 = 3 then (old + p.aux) % 2 ^ (8 * n)
                  else if c.2 = 4 then (if old = p.aux % 2 ^ (8 * n) then leNat p.payload % 2 ^ (8 * n) else old)
                  else if c.2 = 5 then (if signed p.aux < signed old then p.aux % 2 ^ (8 * n) else old)
                  else if signed old < signed p.aux then p.aux % 2 ^ (8 * n) else old) ∧
                w.fab.cache.head? = some ⟨p.source, p.vc, p.mcast, p.seq, v.now, pktBody (replyPkt v p 0 old [])⟩ ∧
                memKept (within a n) v w ∧ keptBut [.mem, .marks, .flds, .fab] v w ∧ regsKept storeKey v w) ∧
            (c.2 = 7 → p.wide = false → p.payload.length = 8 → (∀ g ∈ granulesOf a 32, checkOf v chk g ≠ .hard) →
              let old := recAcc (rdBytes v a 32)
              let x := toSigned 64 (leNat p.payload) * 2 ^ p.scale
              old.ovf = false → -(2 ^ 191) ≤ old.v + x → old.v + x < 2 ^ 191 →
              ∃ w, exec c.1 s = .next (sendReply p 0 0 [] w) ∧ recAcc (rdBytes w a 32) = { old with v := old.v + x } ∧
                memKept (within a 32) v w ∧ keptBut [.mem, .marks, .flds] v w ∧ regsKept storeKey v w))) ∧
        (flowCheck p u = (.again, v) →
          (c.2 = 2 ∨ 7 ≤ c.2 → exec c.1 s = .next (sendReply p (if (windowAddr p v).isSome then 0 else 0x23) 0 [] v)) ∧
          (3 ≤ c.2 → c.2 ≤ 6 →
            let held := v.fab.cache.find? fun e => e.source == p.source && e.vc == p.vc && e.mcast == p.mcast && e.seq == p.seq && cacheLive v.now e
            (held = none → exec c.1 s = .next (sendReply p 0x22 0 [] (bump v Reg.FAB_ATOMIC_STALE 1))) ∧
            (∀ e, held = some e → ∃ st aux, exec c.1 s = .next (sendReply p st aux [] (bump v Reg.FAB_CACHE_HIT 1)) ∧
              st = (parsePkt (e.reply ++ [0, 0, 0, 0])).status ∧ aux = (parsePkt (e.reply ++ [0, 0, 0, 0])).aux))))) ∧
  (∀ (p : Pkt) (u : State), p.vc ≠ 3 → p.seq < 2 ^ 32 →
    let e := smGet 0 u.fab.rx (rxKey p)
    e < 2 ^ 32 →
    (p.seq = e → flowCheck p u = (.fresh, { u with fab.rx := smSet 0 u.fab.rx (rxKey p) ((e + 1) % 2 ^ 32) })) ∧
    (p.seq ≠ e → 2 ^ 31 ≤ (p.seq + 2 ^ 32 - e) % 2 ^ 32 → flowCheck p u = (.again, bump u Reg.FAB_DUP 1)) ∧
    (p.seq ≠ e → (p.seq + 2 ^ 32 - e) % 2 ^ 32 < 2 ^ 31 → flowCheck p u = (.drop, u)))

/-- R319, R324, R325, R330. -/
def Obligations.FabricAnswersAndControl : Prop :=
  ∀ (s : State) (port : Fin 8) (bytes : List Nat) (time : Nat),
    (∀ kind, bytes.getD 0 0 = kind → portUsable s port = true → carries s = true → pktOk bytes = false →
      arrive port kind bytes time s = (none, bump (atTime time s) Reg.FAB_E2E_CRC 1)) ∧
    (∀ u, (arrive port 0x10 bytes time s = (none, u) → exec (.reply port bytes time) s = .next u) ∧
      (arrive port 0x20 bytes time s = (none, u) → exec (.sync port bytes time) s = .next u) ∧
      (arrive port 0x21 bytes time s = (none, u) → exec (.stepAbort port bytes time) s = .next u) ∧
      (arrive port 0x22 bytes time s = (none, u) → exec (.portionFailed port bytes time) s = .next u)) ∧
    (∀ p u, arrive port 0x10 bytes time s = (some p, u) →
      (replyFor p u = none → exec (.reply port bytes time) s = .next (bump u Reg.FAB_DUP 1)) ∧
      (∀ o, replyFor p u = some o → o.kind = .store → o.mcast = false → o.done = true → o.sash = none → p.status = 0 → u.fab.fences = [] →
        exec (.reply port bytes time) s = .next { u with fab.ops := u.fab.ops.filter fun x => x.num != o.num })) ∧
    (∀ p u, arrive port 0x20 bytes time s = (some p, u) → p.seq < 2 ^ 32 →
      let e := smGet 0 u.fab.rx (rxKey p)
      let d := (p.seq + 2 ^ 32 - e) % 2 ^ 32
      e < 2 ^ 32 → (d = 0 ∨ 2 ^ 31 ≤ d → exec (.sync port bytes time) s = .next u) ∧
      (0 < d → d < 2 ^ 31 → smGet [] u.fab.rx3 (rxKey p) = [] → ∃ t, exec (.sync port bytes time) s = .next t ∧
        smGet 0 t.fab.rx (rxKey p) = p.seq ∧ (∀ k, k ≠ rxKey p → smGet 0 t.fab.rx k = smGet 0 u.fab.rx k) ∧ keptBut [.fab] u t)) ∧
    (∀ p u v, arrive port 0x21 bytes time s = (some p, u) → p.vc = 0 →
      (flowCheck p u = (.fresh, v) → ∃ w, exec (.stepAbort port bytes time) s = .next (sendReply p 0 p.aux [] w) ∧ p.aux ∈ w.ctl.dead ∧
        ofStep p.aux w.portion = none ∧ ofStep p.aux w.suspended = none ∧ (∀ q ∈ w.finals, q.hdr.step ≠ p.aux) ∧ (∀ h ∈ w.inbox, h.step ≠ p.aux) ∧
        getF w Reg.FAB_LAST_FAULT_CAUSE = 7) ∧
      (flowCheck p u = (.again, v) → exec (.stepAbort port bytes time) s = .next (sendReply p 0 p.aux [] v))) ∧
    (∀ p u v, arrive port 0x22 bytes time s = (some p, u) → p.vc = 0 →
      (flowCheck p u = (.fresh, v) → isEntry v = true → exec (.portionFailed port bytes time) s = .next (sendReply p 0 p.aux [] (endStepAt p.aux p.status v))) ∧
      (flowCheck p u = (.fresh, v) → isEntry v = false → exec (.portionFailed port bytes time) s = .next (sendReply p 0 p.aux [] v))) ∧
    (let p := parsePkt bytes
     bytes.getD 0 0 = 0x23 → portUsable s port = true → stageAlive s = true → pktOk bytes = true → p.target = myId s → p.mcast = false →
     getF s Reg.FAB_STATE_STATE = 2 ∨ getF s Reg.FAB_STATE_STATE = 3 → ∃ t, exec (.staleNotice port bytes time) s = .next t ∧
       getF t Reg.FAB_STATE_STATE = 4 ∧ getF t Reg.ID_MODULE_MODULE_ID_VALID = 0 ∧ getB t Reg.HOST_ALERT_FABRIC = true ∧
       t.portion = none ∧ t.suspended = none ∧ t.finals = [] ∧ t.inbox = [] ∧ t.ctl.flights = [])

/-- R299 to R301, R326, R327, R449. -/
def Obligations.FabricPortsAndDiscovery : Prop :=
  ∀ (s : State) (port : Fin 8) (time : Nat),
    (∀ (reversed keyOk : Bool) (good : Fin 32), getF s (Reg.FAB_PORT_LINK port) ≠ 5 → stageAlive s = true →
      (4 ≤ countBits 5 good.val → keyOk = true → getBit s Reg.ID_RESOURCES_FAB_PORTS port = true → ∃ t,
        exec (.laneTrain port reversed good keyOk time) s = .next t ∧ getF t (Reg.FAB_PORT_LINK port) = 2 ∧
        getF t (Reg.FAB_PORT_LANE_OK port) = good ∧ getB t (Reg.FAB_PORT_REVERSED port) = reversed ∧
        getB t (Reg.FAB_PORT_SPARE_USED port) = !((List.range 4).all fun k => bit good.val k) ∧
        t.out = .discover port (getF s Reg.ID_SERIAL) (getF s Reg.ID_MODULE_TPOS) :: s.out ∧ alGet t.fab.linkKeys port = some time ∧
        keptBut [.flds, .now, .fab, .out] s t) ∧
      (countBits 5 good.val < 4 → s.ready = false → getBit s Reg.ID_RESOURCES_FAB_PORTS port = false → ∃ t,
        exec (.laneTrain port reversed good keyOk time) s = .next t ∧ getF t (Reg.FAB_PORT_LINK port) = 5 ∧ port.val ∉ t.fab.seen ∧
        getF t Reg.FAB_LAST_FAULT_CAUSE = 5 ∧ keptBut (.now :: .fab :: irqParts) s t)) ∧
    (∀ lane : Fin 5, getBit s (Reg.FAB_PORT_LANE_OK port) lane = true →
      4 ≤ countBits 5 (setBitsAt (getF s (Reg.FAB_PORT_LANE_OK port)) lane 1 0 % 2 ^ 5) → ∃ t,
        exec (.laneFail port lane time) s = .next t ∧ getBit t (Reg.FAB_PORT_LANE_OK port) lane = false ∧
        (lane.val < 4 → getF t (Reg.FAB_PORT_SPARE_USED port) = 1) ∧ getF t (Reg.FAB_PORT_LINK port) = getF s (Reg.FAB_PORT_LINK port) ∧
        keptBut [.flds, .now] s t) ∧
    (∀ lane : Fin 5, getBit s (Reg.FAB_PORT_LANE_OK port) lane = false → exec (.laneFail port lane time) s = .next (atTime time s)) ∧
    exec (.laneRecal port) s = .next (if getF s (Reg.FAB_PORT_LINK port) = 2 ∧ getF s (Reg.FAB_PORT_SPARE_USED port) = 0 ∧
      getBit s (Reg.FAB_PORT_LANE_OK port) 4 = true then bump s Reg.FAB_LANE_RECAL 1 else s) ∧
    exec (.frameAuthFail port) s = .next s ∧
    (getF s (Reg.FAB_PORT_LINK port) = 2 → ∃ t, exec (.linkKeyRenew port time) s = .next t ∧ alGet t.fab.linkKeys port = some time ∧
      keptBut [.flds, .now, .fab] s t ∧ regsKept pmcKey s t) ∧
    (∀ link : Fin 5, getF s (Reg.FAB_PORT_LINK port) = 5 → exec (.fabricPortStateChange port link time) s = .next (atTime time s)) ∧
    (∀ link : Fin 5, link.val = 0 ∨ link.val = 1 → getF s (Reg.FAB_PORT_LINK port) ≠ 5 → stageAlive s = true → s.ready = false →
      getBit s Reg.ID_RESOURCES_FAB_PORTS port = false →
      ∃ t, exec (.fabricPortStateChange port link time) s = .next t ∧ getF t (Reg.FAB_PORT_LINK port) = link.val ∧ port.val ∉ t.fab.seen ∧
        getF t Reg.FAB_LAST_FAULT_CAUSE = 4 ∧ getF t Reg.FAB_STATE_STATE = getF s Reg.FAB_STATE_STATE ∧ keptBut (.now :: .fab :: irqParts) s t) ∧
    (∀ (rack : Fin 2) (plane : Fin 8) (swPort : Fin 64), getF s (Reg.FAB_PORT_LINK port) = 2 → s.img = none → ∃ t,
      exec (.discover port rack plane swPort time) s = .next t ∧ getF t (Reg.FAB_PORT_PLANE_SEEN port) = plane ∧
        getB t (Reg.FAB_PORT_SWAPPED port) = (plane != port) ∧ getF t (Reg.FAB_PORT_SWITCH_PORT port) = swPort ∧
        getF t (Reg.FAB_PORT_RACK_SEEN port) = rack ∧ getF t (Reg.FAB_PORT_POSITION port) = 64 * rack.val + swPort.val ∧ port.val ∈ t.fab.seen) ∧
    (∀ (plane : Fin 8) (l : List (Nat × Nat × Nat)), stageAlive s = true → s.ready = true → ∃ t,
      exec (.planeAnnouncement plane l time) s = .next t ∧ alGet t.fab.planes plane = some (l.map fun x => (x.1 % 128, x.2.1 * 8 + x.2.2 % 8)))

/-- R319 to R323, R328. -/
def Obligations.FabricTimersAndMembership : Prop :=
  (∀ (s : State) (time : Nat),
    ((∀ o ∈ s.fab.ops, o.sent = true → max s.now time < o.last + boundNs s / 4) → exec (.retryIntervalExpire time) s = .next (atTime time s)) ∧
    ((∀ o ∈ s.fab.ops, o.held = true ∨ o.waiting = true ∨ max s.now time < o.first + boundNs s) → exec (.loadBoundExpire time) s = .next (atTime time s)) ∧
    (∀ o, s.fab.ops = [o] → o.held = false → o.waiting = false → o.mcast = false → o.kind = .store → o.done = true → o.sash = none → o.step = none →
      o.sent = true → s.fab.fences = [] → o.target < 128 → o.first + boundNs s ≤ max s.now time → ∃ t, exec (.loadBoundExpire time) s = .next t ∧
        isDead t o.target = true ∧ (∀ d, d < 128 → d ≠ o.target → isDead t d = isDead s d) ∧ t.fab.ops = [] ∧
        getF t Reg.FAB_BOUND = min (getF s Reg.FAB_BOUND + 1) (2 ^ 64 - 1) ∧ getF t Reg.FAB_LAST_FAULT_CAUSE = 1 ∧
        getF t Reg.FAB_LAST_FAULT_TARGET = o.target ∧ keptBut (.now :: .fab :: irqParts) s t) ∧
    (∃ t, exec (.replyCacheExpire time) s = .next t ∧ t.fab = { s.fab with cache := s.fab.cache.filter fun e => decide (max s.now time < e.at0 + 2000000) } ∧
      keptBut [.flds, .now, .fab] s t ∧ regsKept pmcKey s t) ∧
    ((∀ o ∈ s.fab.ops, o.waiting = false) → exec (.atomicThrottleRelease time) s = .next (atTime time s)) ∧
    (∀ o, s.fab.ops = [o] → o.waiting = true → 512 ≤ (atomicsTo { s with now := max s.now time } o.target).length →
      exec (.atomicThrottleRelease time) s = .next (atTime time s))) ∧
  (∀ (s : State) (p : Port) (host : HostMem) (authOk : Bool), stageAlive s = true →
    let a := getF s Reg.FAB_MEMBER_ADDR_LO * 256 + getF s Reg.FAB_MEMBER_ADDR_HI * 2 ^ 32
    (getB s Reg.FAB_MEMBER_CMD_BUSY = true → exec (.memberApply p host authOk) s = .next s) ∧
    (getB s Reg.FAB_MEMBER_CMD_BUSY = false →
      (∀ bs, hostRead host p a 256 = some bs → memberOk s (parseMember bs) = true → authOk = true → s.sec.ks.app ≠ [] →
        ∃ t, exec (.memberApply p host authOk) s = .next t ∧ t.fab = { s.fab with pend := some (p, some (parseMember bs)) } ∧
          getB t Reg.FAB_MEMBER_CMD_BUSY = true ∧ getF t Reg.FAB_MEMBER_CMD_STATUS = 0 ∧
          regsKept (oneOf [Reg.FAB_MEMBER_CMD_BUSY, Reg.FAB_MEMBER_CMD_STATUS]) s t ∧ keptBut [.flds, .fab] s t) ∧
      (hostRead host p a 256 = none ∨ authOk = false ∨ s.sec.ks.app = [] ∨
        (∃ bs, hostRead host p a 256 = some bs ∧ memberOk s (parseMember bs) = false) →
        ∃ t, exec (.memberApply p host authOk) s = .next t ∧ getF t Reg.FAB_MEMBER_CMD_STATUS = 0x23 ∧ keptBut irqParts s t)))

/-- R282, R283, R293, R294. -/
def Obligations.MeshLinksAndRoutes : Prop :=
  (∀ (s : State) (x : Fin 208) (port : Fin 6) (same : Bool) (time : Nat) (y : Nat × Nat), stageAlive s = true → linkFar x port = some y →
    (linkSt s x port).failed = false →
    let n := if same then (linkSt s x port).refused + 1 else 1
    let ts := time :: (linkSt s x port).times.filter fun z => decide (time < z + 1000000)
    (n < 16 → ∃ t, exec (.flitCrcFail x port same) s = .next t ∧ t.out = .replay x port :: s.out ∧
      linkSt t x port = { linkSt s x port with refused := n } ∧ keptBut [.mesh, .out] s t) ∧
    (ts.length ≤ 1000 → ∃ t, exec (.flitReplayRequest x port time) s = .next t ∧ linkSt t x port = { linkSt s x port with times := ts } ∧
      getF t Reg.NOC_LINK_REPLAY = min (getF s Reg.NOC_LINK_REPLAY + 1) (2 ^ 64 - 1) ∧ keptBut [.mesh, .flds, .now] s t) ∧
    (∀ c : Instr, (c = .flitCrcFail x port same ∧ 16 ≤ n) ∨ (c = .flitReplayRequest x port time ∧ 1000 < ts.length) →
      (∃ p ∈ linkPorts x, p ≠ port.val ∧ (linkSt s x p).failed = false) → (∃ p ∈ linkPorts y.1, (linkSt s y.1 p).failed = false) →
      ∃ t, exec c s = .next t ∧ (linkSt t x port).failed = true ∧
        getF t Reg.NOC_LINK_FAIL = min (getF s Reg.NOC_LINK_FAIL + 1) (2 ^ 64 - 1) ∧
        getF t Reg.NOC_LAST_FAULT_ROUTER = x ∧ getF t Reg.NOC_LAST_FAULT_PORT = port ∧ getF t Reg.NOC_LAST_FAULT_CAUSE = 1 ∧
        (x.val / 104 ≠ y.1 / 104 → getBit t Reg.NOC_HINGE_LINK_UP (routerRow x) = false) ∧ keptBut (.mesh :: .now :: irqParts) s t)) ∧
  (∀ (s : State) (x : Fin 208) (port : Fin 6) (same : Bool) (time : Nat), linkFar x port = none ∨ (linkSt s x port).failed = true →
    exec (.flitCrcFail x port same) s = .next s ∧ exec (.flitReplayRequest x port time) s = .next s) ∧
  (∀ (s : State) (core : Fin 192) (dst : Nat), stageAlive s = true → ∃ t u, exec (.meshTimeout core none) s = .next t ∧
    exec (.meshTimeout core (some dst)) s = .next u ∧ marked u (sramAddr core dst / 64) = true ∧ u.marks = smSet false t.marks (sramAddr core dst / 64) true ∧
    t.marks = s.marks ∧ getF t Reg.NOC_TIMEOUTS = min (getF s Reg.NOC_TIMEOUTS + 1) (2 ^ 64 - 1) ∧ getF t Reg.NOC_LAST_FAULT_CAUSE = 3 ∧
    t.portion = s.portion.map (fun p => { p with poison := .mesh core :: p.poison }) ∧ u.portion = t.portion ∧
    keptBut (.portion :: irqParts) s t ∧ keptBut (.marks :: .portion :: irqParts) s u) ∧
  (∀ (s : State) (routers : List (Fin 208)) (router : Fin 208),
    (s.mesh.route = [] → routers ≠ [] → stageAlive s = true → ∃ t, exec (.routeChangeStart routers) s = .next t ∧
      t.mesh = { s.mesh with route := (routers.map fun r => r.val).dedup.map (fun r => (r, 4)), routeTo := obstacles s } ∧
      (∀ r ∈ routers, .marker r.val ∈ t.out) ∧ keptBut [.mesh, .out] s t) ∧
    exec (.routeChangeMarker router) s = .next { s with mesh.route := s.mesh.route.map fun p => if p.1 = router.val then (p.1, p.2 - 1) else p } ∧
    ((∀ p ∈ s.mesh.route, p.1 = router.val → p.2 ≠ 0) → exec (.routeChangeAck router) s = .next s) ∧
    (∀ rest, (router.val, 0) ∈ s.mesh.route → rest = s.mesh.route.filter (fun p => p.1 != router.val) →
      (rest ≠ [] → exec (.routeChangeAck router) s = .next { s with mesh.route := rest }) ∧
      (rest = [] → ∃ t, exec (.routeChangeAck router) s = .next t ∧ t.mesh.route = [] ∧ t.mesh.detoured = s.mesh.routeTo ∧
        t.mesh.links = s.mesh.links ∧
        getF t Reg.NOC_DETOUR_SEQ = (getF s Reg.NOC_DETOUR_SEQ + 1) % 2 ^ Reg.NOC_DETOUR_SEQ.len ∧ t.ctxs = s.ctxs ∧ t.portion = s.portion)))

/-- R373 to R376, R380, R386, R390, R399. -/
def Obligations.ClockStepsTargetsAndCounts : Prop :=
  (∀ (s : State) (time d : Nat), clocked s = true → s.clk.sw = none → d ∈ rampDomains →
    let c := getF s (codeFld d)
    let op := getF s Reg.PWR_OP_OP
    let g := if d < 32 then (if s.pwr.brakes = [] then op / 32 + (if 32 - op % 32 ≤ d then 1 else 0) else 6) else getF s (targetFld d)
    let dwell := if d < 32 ∧ s.pwr.brakes ≠ [] then 500 else 100 * getF s Reg.CLK_RAMP_DWELL
    let due := match alGet s.clk.stepAt d with | some x => decide (x + dwell ≤ time) | none => true
    let stopped := d < 32 ∧ ((∀ k, k < 192 → homeVault k = d → coreFenced s k = true) ∨ s.boot.stage = .safe ∧ s.boot.report.cause = 9)
    c < 8 → g < 8 → ∃ t, exec (.dividerStep time) s = .next t ∧
      (c = g ∨ stopped ∨ due = false → getF t (codeFld d) = c) ∧
      (c < g → ¬ stopped → due = true → getF t (codeFld d) = c + 1) ∧
      (g < c → 32 ≤ d → due = true → getF t (codeFld d) = c - 1) ∧
      (g < c → getF t (codeFld d) = c ∨ getF t (codeFld d) = c - 1) ∧
      getF t Reg.NOC_HINGE_DIV = nclkDiv (max (getF t Reg.CLK_NCLK_CUR_W) (getF t Reg.CLK_NCLK_CUR_E)) ∧ t.clk.sw = none ∧
      regsKept (fun k => pmcKey k || oneOf (rampDomains.map codeFld ++ [Reg.NOC_HINGE_DIV, Reg.CLK_NCLK_RAMPING, Reg.CLK_CCLK_RAMPING]) k) s t ∧
      keptBut [.flds, .clk, .now] s t) ∧
  (∀ (s : State) (time : Nat), clocked s = false → exec (.dividerStep time) s = .next s) ∧
  (∀ (s : State) (p : Port) (v : BitVec 32), stageAlive s = true →
    let w := bitsAt v.toNat 0 3
    let e := bitsAt v.toNat 4 3
    (getB s Reg.CLK_LOCK_LOCK = true → exec (.nclkTargetWrite p v) s = .next s ∧ exec (.cclkTargetWrite p v) s = .next s) ∧
    (4 < w ∨ 4 < e → exec (.cclkTargetWrite p v) s = .next s) ∧
    (getB s Reg.CLK_LOCK_LOCK = false → ∃ t, exec (.nclkTargetWrite p v) s = .next t ∧ getF t Reg.CLK_NCLK_TARGET_W = w ∧ getF t Reg.CLK_NCLK_TARGET_E = e ∧
      (s.clk.sw = none → t.clk = s.clk) ∧ (∀ x, s.clk.sw = some x → t.clk = { s.clk with sw := some { x with net := (x.net.set 0 w).set 1 e } }) ∧
      regsKept (oneOf [Reg.CLK_NCLK_TARGET_W, Reg.CLK_NCLK_TARGET_E, Reg.CLK_NCLK_RAMPING, Reg.CLK_CCLK_RAMPING, Reg.NOC_HINGE_DIV]) s t ∧
      keptBut [.flds, .clk] s t) ∧
    (getB s Reg.CLK_LOCK_LOCK = false → w ≤ 4 → e ≤ 4 → ∃ t, exec (.cclkTargetWrite p v) s = .next t ∧
      getF t Reg.CLK_CCLK_TARGET_W = w ∧ getF t Reg.CLK_CCLK_TARGET_E = e ∧
      (s.clk.sw = none → t.clk = s.clk) ∧ (∀ x, s.clk.sw = some x → t.clk = { s.clk with sw := some { x with net := (x.net.set 2 w).set 3 e } }) ∧
      regsKept (oneOf [Reg.CLK_CCLK_TARGET_W, Reg.CLK_CCLK_TARGET_E, Reg.CLK_NCLK_RAMPING, Reg.CLK_CCLK_RAMPING, Reg.NOC_HINGE_DIV]) s t ∧
      keptBut [.flds, .clk] s t)) ∧
  (∀ (s : State) (h : Half), exec (.vcoreSlewDone h) s = .next { s with clk.vcoreOk := s.clk.vcoreOk.set (halfNum h) true }) ∧
  (∀ (s : State) (core : Fin 192) (time : Nat),
    let v := homeVault core
    let runs := coreFenced s core = false ∧ clocked s = true ∧ ¬ (s.boot.stage = .safe ∧ s.boot.report.cause = 9)
    (¬ runs → exec (.droopTrip core time) s = .next s) ∧
    (runs → ∃ t, exec (.droopTrip core time) s = .next t ∧ getF t Reg.PWR_DROOP = min (getF s Reg.PWR_DROOP + 1) (2 ^ 64 - 1) ∧
      alGet t.clk.stretched core = some time ∧ (∀ k, k ≠ core.val → alGet t.clk.stretched k = alGet s.clk.stretched k) ∧
      getB t (Reg.CLK_ACLK_CUR_STRETCH v) = true ∧ regsKept (fun k => pmcKey k || oneOf [Reg.PWR_DROOP, Reg.CLK_ACLK_CUR_STRETCH v] k) s t ∧
      keptBut [.flds, .clk, .now] s t) ∧
    (∀ x, alGet s.clk.stretched core = some x → time < x + 1000 * getF s Reg.PWR_DROOP_CTL_HOLD_US → exec (.droopHoldExpire core time) s = .next s) ∧
    (alGet s.clk.stretched core = none → exec (.droopHoldExpire core time) s = .next s) ∧
    (∀ x, alGet s.clk.stretched core = some x → x + 1000 * getF s Reg.PWR_DROOP_CTL_HOLD_US ≤ time →
      ∃ t, exec (.droopHoldExpire core time) s = .next t ∧ alGet t.clk.stretched core = none ∧
        (∀ k, k ≠ core.val → alGet t.clk.stretched k = alGet s.clk.stretched k) ∧
        (getB t (Reg.CLK_ACLK_CUR_STRETCH v) = true ↔ ∃ e ∈ t.clk.stretched, homeVault e.1 = v) ∧
        regsKept (fun k => pmcKey k || oneOf [Reg.CLK_ACLK_CUR_STRETCH v] k) s t ∧ keptBut [.flds, .clk, .now] s t)) ∧
  (∀ s : State,
    (clocked s = true → getB s Reg.CLK_REF_STATUS_SWITCH_BUSY = false →
      exec .sscUpdate s = .next { s with clk.ssc := (getF s Reg.CLK_SSC_EN, getF s Reg.CLK_SSC_DEPTH, getF s Reg.CLK_SSC_RATE) }) ∧
    (clocked s = false ∨ getB s Reg.CLK_REF_STATUS_SWITCH_BUSY = true → exec .sscUpdate s = .next s)) ∧
  (∀ (s : State) (p : Port) (v : BitVec 32), stageAlive s = true →
    let sel := bitsAt v.toNat 0 7
    let g := bitsAt v.toNat 8 5
    let bad := 99 < sel ∧ sel ≠ 127 ∨ g < 10 ∨ 30 < g ∨ bit v.toNat 16 = true ∧ getP s p Reg.CLK_FCOUNT_CTL_BUSY = 1
    (bad → exec (.fcountStart p v) s = .next s) ∧
    (¬ bad → ∃ t, exec (.fcountStart p v) s = .next t ∧ getP t p Reg.CLK_FCOUNT_CTL_SEL = sel ∧ getP t p Reg.CLK_FCOUNT_CTL_GATE_LOG2 = g ∧
      (bit v.toNat 16 = false → getP t p Reg.CLK_FCOUNT_CTL_BUSY = getP s p Reg.CLK_FCOUNT_CTL_BUSY ∧ t.clk = s.clk) ∧
      (bit v.toNat 16 = true → getP t p Reg.CLK_FCOUNT_CTL_BUSY = 1 ∧ getP t p Reg.CLK_FCOUNT_CTL_VALID = 0 ∧
        getP t p Reg.CLK_FCOUNT_CTL_DISTURBED = 0 ∧
        let dist := getB s Reg.CLK_REF_STATUS_SWITCH_BUSY || getB s Reg.CLK_REF_STATUS_HOLDOVER
        t.clk = { s.clk with fcDist := s.clk.fcDist.set (portNum p) dist, fcRun := s.clk.fcRun.set (portNum p) (sel, g) }) ∧
      regsKept (fun k => [Reg.CLK_FCOUNT_CTL_SEL, Reg.CLK_FCOUNT_CTL_GATE_LOG2, Reg.CLK_FCOUNT_CTL_BUSY, Reg.CLK_FCOUNT_CTL_VALID,
        Reg.CLK_FCOUNT_CTL_DISTURBED].any fun f => fldKey f p == k) s t ∧ keptBut [.flds, .clk] s t)) ∧
  (∀ (s : State) (p : Port) (measured : Nat) (up : Bool),
    (getP s p Reg.CLK_FCOUNT_CTL_BUSY ≠ 1 → exec (.fcountDone p measured up) s = .next s) ∧
    (getP s p Reg.CLK_FCOUNT_CTL_BUSY = 1 → ∃ t, exec (.fcountDone p measured up) s = .next t ∧ getP t p Reg.CLK_FCOUNT_CTL_BUSY = 0 ∧
      getP t p Reg.CLK_FCOUNT_CTL_VALID = 1 ∧ getP t p Reg.CLK_FCOUNT_CTL_DISTURBED = b2n (s.clk.fcDist.getD (portNum p) false) ∧
      (∀ d, s.clk.fcDist.getD (portNum p) false = false → alignedDiv s (s.clk.fcRun.getD (portNum p) (0, 0)).1 = some d → 0 < d →
        let gate := 2 ^ (s.clk.fcRun.getD (portNum p) (0, 0)).2
        getP t p Reg.CLK_FCOUNT_RESULT = (if up then (gate + d - 1) / d else gate / d) % 2 ^ 32) ∧
      (alignedDiv s (s.clk.fcRun.getD (portNum p) (0, 0)).1 = some 0 → getP t p Reg.CLK_FCOUNT_RESULT = 0) ∧
      regsKept (fun k => [Reg.CLK_FCOUNT_RESULT, Reg.CLK_FCOUNT_CTL_BUSY, Reg.CLK_FCOUNT_CTL_VALID, Reg.CLK_FCOUNT_CTL_DISTURBED].any fun f =>
        fldKey f p == k) s t ∧ keptBut [.flds] s t))

/-- R370, R371, R382 to R385. -/
def Obligations.ReferenceSwitches : Prop :=
  (∀ (s : State) (refA refB : Bool) (tpos unstable : Fin 8) (time : Nat),
    (s.boot.stage ≠ .boot ∨ refA = false ∧ refB = false → exec (.pllLock refA refB tpos unstable time) s = .next s) ∧
    (s.boot.stage = .boot → refA = true ∨ refB = true → ∃ t, exec (.pllLock refA refB tpos unstable time) s = .next t ∧
      t.boot.stage = .locked ∧ refOk t .a = refA ∧ refOk t .b = refB ∧ srcActive t = (if refA then .a else .b) ∧
      getF t Reg.ID_MODULE_TPOS = tpos.val ||| unstable.val ∧ getF t Reg.HOST_SIDEBAND_TPOS = tpos.val ||| unstable.val ∧
      getB t Reg.HOST_SIDEBAND_TPOS_UNSTABLE = decide (0 < unstable.val) ∧ t.boot.portA.perstAt = some time ∧ t.boot.portB.perstAt = some time ∧
      keptBut [.flds, .boot, .now] s t)) ∧
  (∀ (s : State) (p : Port) (time : Nat), clocked s = true → portUp s p = false →
    let want := if refOk s (otherPort p) = true ∧ getB s Reg.CLK_REF_CTL_AUTO_FAILOVER = true then some (otherPort p) else none
    (s.clk.sw = none → srcActive s ≠ p → ∃ t, exec (.referenceLost p time) s = .next t ∧ refOk t p = false ∧
      refOk t (otherPort p) = refOk s (otherPort p) ∧ regsKept (fun k => pmcKey k || oneOf [Reg.CLK_REF_STATUS_REF_A_OK, Reg.HOST_PORT_A_REF_OK,
        Reg.CLK_REF_STATUS_REF_B_OK, Reg.HOST_PORT_B_REF_OK] k) s t ∧ keptBut [.flds, .now] s t) ∧
    (s.clk.sw = none → srcActive s = p → ∃ t, exec (.referenceLost p time) s = .next t ∧ refOk t p = false ∧ srcActive t = p ∧
      getB t Reg.CLK_REF_STATUS_HOLDOVER = true ∧ getB t Reg.CLK_REF_STATUS_SWITCH_BUSY = true ∧
      t.clk.sw = some ⟨0, want, p, time, (List.range 32).map fun d => getF s (codeFld d), [64, 65, 66, 67].map fun d => getF s (codeFld d)⟩ ∧
      keptBut (.clk :: .now :: irqParts) s t) ∧
    (∀ w, s.clk.sw = some w → w.phase < 2 → w.want ≠ some p → ∃ t, exec (.referenceLost p time) s = .next t ∧ refOk t p = false ∧
      keptBut [.flds, .now] s t)) ∧
  (∀ (s : State) (p : Port) (time : Nat), clocked s = true →
    (s.clk.sw = none → ∃ t, exec (.referenceOk p time) s = .next t ∧ refOk t p = true ∧ refOk t (otherPort p) = refOk s (otherPort p) ∧
      regsKept (fun k => pmcKey k || oneOf [Reg.CLK_REF_STATUS_REF_A_OK, Reg.HOST_PORT_A_REF_OK,
        Reg.CLK_REF_STATUS_REF_B_OK, Reg.HOST_PORT_B_REF_OK] k) s t ∧ keptBut [.flds, .now] s t) ∧
    (∀ w, s.clk.sw = some w → w.phase = 0 → w.want = none → ∃ t ph, exec (.referenceOk p time) s = .next t ∧ refOk t p = true ∧ ph ≤ 1 ∧
      t.clk.sw = some { w with phase := ph, want := some p } ∧ keptBut (.clk :: .now :: irqParts) s t)) ∧
  (∀ (s : State) (p : Port) (time : Nat), clocked s = false → exec (.referenceLost p time) s = .next s ∧ exec (.referenceOk p time) s = .next s) ∧
  (∀ (s : State) (p : Port) (v : BitVec 32) (time : Nat), stageAlive s = true →
    let lim := bitsAt v.toNat 8 7
    let lck := getB s Reg.CLK_LOCK_LOCK
    let want : Port := if bit v.toNat 0 then .b else .a
    let ctl := [Reg.CLK_REF_CTL_SRC_SEL, Reg.CLK_REF_CTL_AUTO_FAILOVER, Reg.CLK_REF_CTL_HOLDOVER_LIMIT]
    let set := fun (t : State) => if lck then getF t Reg.CLK_REF_CTL_AUTO_FAILOVER = getF s Reg.CLK_REF_CTL_AUTO_FAILOVER ∧
        getF t Reg.CLK_REF_CTL_HOLDOVER_LIMIT = getF s Reg.CLK_REF_CTL_HOLDOVER_LIMIT
      else getB t Reg.CLK_REF_CTL_AUTO_FAILOVER = bit v.toNat 1 ∧ getF t Reg.CLK_REF_CTL_HOLDOVER_LIMIT = lim
    (lck = false → lim = 0 ∨ 100 < lim → exec (.sourceSelect p v time) s = .next (atTime time s)) ∧
    (lck = true ∨ 0 < lim ∧ lim ≤ 100 → getB s Reg.CLK_REF_STATUS_SWITCH_BUSY = true ∨ want = srcActive s →
      ∃ t, exec (.sourceSelect p v time) s = .next t ∧ set t ∧ getF t Reg.CLK_REF_CTL_SRC_SEL = getF s Reg.CLK_REF_CTL_SRC_SEL ∧
        regsKept (fun k => pmcKey k || oneOf ctl k) s t ∧ keptBut [.flds, .now] s t) ∧
    (lck = true ∨ 0 < lim ∧ lim ≤ 100 → getB s Reg.CLK_REF_STATUS_SWITCH_BUSY = false → want ≠ srcActive s → refOk s want = false →
      ∃ t, exec (.sourceSelect p v time) s = .next t ∧ getF t Reg.CLK_REF_STATUS_SWITCH_STATUS = 0x10 ∧
        regsKept (fun k => pmcKey k || oneOf [Reg.CLK_REF_STATUS_SWITCH_STATUS] k) s t ∧ keptBut [.flds, .now] s t) ∧
    (lck = true ∨ 0 < lim ∧ lim ≤ 100 → getB s Reg.CLK_REF_STATUS_SWITCH_BUSY = false → want ≠ srcActive s → refOk s want = true →
      ∃ t, exec (.sourceSelect p v time) s = .next t ∧ set t ∧ getF t Reg.CLK_REF_CTL_SRC_SEL = portNum want ∧
        getB t Reg.CLK_REF_STATUS_HOLDOVER = true ∧ getB t Reg.CLK_REF_STATUS_SWITCH_BUSY = true ∧
        t.clk.sw = some ⟨0, some want, srcActive s, time, (List.range 32).map fun d => getF s (codeFld d), [64, 65, 66, 67].map fun d => getF s (codeFld d)⟩ ∧
        keptBut (.clk :: .now :: irqParts) s t)) ∧
  (∀ (s : State) (time : Nat),
    (∀ w p, s.clk.sw = some w → w.want = some p → w.phase = 1 → ∃ t, exec (.pllRelock time) s = .next t ∧ srcActive t = p ∧
      getF t Reg.CLK_REF_CTL_SRC_SEL = portNum p ∧ getB t Reg.CLK_REF_STATUS_HOLDOVER = false ∧ getB t Reg.CLK_REF_STATUS_PLL_LOCK = true ∧
      (t.clk.sw = some { w with phase := 2 } ∨ t.clk.sw = none ∧ getB t Reg.CLK_REF_STATUS_SWITCH_BUSY = false ∧
        getF t Reg.CLK_REF_STATUS_SWITCH_STATUS = 0) ∧ keptBut (.clk :: .now :: irqParts) s t) ∧
    ((∀ w, s.clk.sw = some w → w.phase ≠ 1 ∨ w.want = none) → exec (.pllRelock time) s = .next s) ∧
    (∀ w, s.clk.sw = some w → w.want = none → w.since + 100000 * getF s Reg.CLK_REF_CTL_HOLDOVER_LIMIT ≤ time →
      refOk s .a = false → refOk s .b = false → ∃ t, exec (.holdoverLimitExpire time) s = .next t ∧ t.boot.stage = .dark ∧ t.flds = [] ∧ VolatileLost s t) ∧
    ((∀ w, s.clk.sw = some w → w.want ≠ none ∨ time < w.since + 100000 * getF s Reg.CLK_REF_CTL_HOLDOVER_LIMIT) →
      exec (.holdoverLimitExpire time) s = .next s) ∧
    (∀ w, s.clk.sw = some w → w.phase = 0 → w.want = none → w.since + 100000 * getF s Reg.CLK_REF_CTL_HOLDOVER_LIMIT ≤ time →
      refOk s w.former = true → ∃ t ph, exec (.holdoverLimitExpire time) s = .next t ∧ ph ≤ 1 ∧
        t.clk.sw = some { w with phase := ph, want := some w.former } ∧ keptBut [.flds, .clk, .now] s t))

/-- R391 to R396. -/
def Obligations.PowerLoopAndCap : Prop :=
  (∀ (s : State) (core rest pcore prest time : Nat), clocked s = true →
    let est := (s.pwr.gainCore * core + s.pwr.gainRest * rest) / 1000000
    let pred := (s.pwr.gainCore * pcore + s.pwr.gainRest * prest) / 1000000
    let target := 1000 * getF s Reg.PWR_CAP_TARGET
    let ceff := if s.pwr.cEff ≤ target then min target (s.pwr.cEff + getF s Reg.PWR_SLEW_UP) else max target (s.pwr.cEff - getF s Reg.PWR_SLEW_DOWN)
    let l0 := min ceff (1000 * getF s Reg.PWR_OP_THERM_CAP)
    let l := if s.pwr.calWide then l0 * 9 / 10 else l0
    let floor := 32 * getF s Reg.CLK_ACLK_CEIL_MIN_CODE
    let op := max (getF s Reg.PWR_OP_OP) floor
    ∃ t, exec (.powerLoop core rest pcore prest time) s = .next t ∧ getF t Reg.PWR_EST_EST = min 4095 (est / 1000) ∧ t.pwr.cEff = ceff ∧
      getF t Reg.PWR_CAP_EFFECTIVE = ceff / 1000 % 4096 ∧
      (s.pwr.brakes ≠ [] → getF s Reg.PWR_OP_OP ≤ 192 → getB s Reg.CLK_REF_STATUS_SWITCH_BUSY = false → s.pwr.capDrop = false →
        getF t Reg.PWR_OP_OP = 192 ∧ getF t Reg.PWR_OP_OP_FLOOR = 192) ∧
      (s.pwr.brakes = [] → getF s Reg.PWR_OP_OP ≤ 192 → getF s Reg.CLK_ACLK_CEIL_MIN_CODE ≤ 6 → getB s Reg.CLK_REF_STATUS_SWITCH_BUSY = false →
        s.pwr.capDrop = false → getF t Reg.PWR_OP_OP_FLOOR = floor ∧
          (l < est → getF t Reg.PWR_OP_OP = if op < 192 ∧ dwellPassed s (31 - op % 32) time = true then op + 1 else op) ∧
          (est ≤ l → getF t Reg.PWR_OP_OP = if floor < op ∧ 100 * pred ≤ 98 * l ∧ dwellPassed s (31 - (op - 1) % 32) time = true then op - 1 else op) ∧
          getB t Reg.PWR_STATUS_CAP_LIMITED = decide (floor < getF t Reg.PWR_OP_OP)) ∧
      (getB s Reg.CLK_REF_STATUS_SWITCH_BUSY = true → getF t Reg.PWR_OP_OP = getF s Reg.PWR_OP_OP) ∧
      (est ≤ l → getB t Reg.PWR_STATUS_CAP_UNMET = false ∧ t.pwr.unmetAt = none) ∧
      regsKept (fun k => pmcKey k || oneOf [Reg.PWR_EST_EST, Reg.PWR_CAP_EFFECTIVE, Reg.PWR_OP_OP, Reg.PWR_OP_OP_FLOOR, Reg.PWR_STATUS_CAP_LIMITED,
        Reg.PWR_CAP_LIMITED, Reg.PWR_STATUS_CAP_UNMET] k) s t ∧ keptBut [.flds, .pwr, .now] s t) ∧
  (∀ (s : State) (core rest cmeas inmeas : Nat), clocked s = true →
    let gc := if core = 0 then s.pwr.gainCore else 1000000 * cmeas / core
    let gr := if rest = 0 then s.pwr.gainRest else 1000000 * (inmeas - cmeas) / rest
    let wide := wideCorrection s.pwr.gainCore gc || wideCorrection s.pwr.gainRest gr
    ∃ t, exec (.gainCalibration core rest cmeas inmeas) s = .next t ∧ t.pwr.gainCore = max 800000 (min 1250000 gc) ∧
      t.pwr.gainRest = max 800000 (min 1250000 gr) ∧ t.pwr.calWide = wide ∧
      (wide = true → getB t Reg.PWR_STATUS_CAL_FAULT = true) ∧
      (wide = false → getF t Reg.PWR_STATUS_CAL_FAULT = getF s Reg.PWR_STATUS_CAL_FAULT) ∧ getF t Reg.PWR_EST_MEAS = min 4095 (inmeas / 10) ∧
      getF t Reg.PWR_ENERGY = min (getF s Reg.PWR_ENERGY + (s.pwr.energyMj + inmeas) / 1000) (2 ^ 64 - 1) ∧
      t.pwr.energyMj = (s.pwr.energyMj + inmeas) % 1000 ∧
      regsKept (oneOf [Reg.PWR_STATUS_CAL_FAULT, Reg.PWR_EST_MEAS, Reg.PWR_ENERGY]) s t ∧ keptBut [.flds, .pwr] s t) ∧
  (∀ (s : State) (core rest pcore prest time cmeas inmeas : Nat), clocked s = false →
    exec (.powerLoop core rest pcore prest time) s = .next s ∧ exec (.gainCalibration core rest cmeas inmeas) s = .next s) ∧
  (∀ (s : State) (c : Instr) (w : Nat), (∃ p v, c = .capTargetWrite p v ∧ w = bitsAt v.toNat 0 12 ∧ stageAlive s = true) ∨ (c = .pldmCapEffecter w ∧ mgmtAlive s = true) →
    (w < 900 ∨ 2200 < w → exec c s = .next s) ∧
    (900 ≤ w → w ≤ 2200 → ∃ t, exec c s = .next t ∧ getF t Reg.PWR_CAP_TARGET = w ∧
      (if 1000 * w + 1000 * getF s Reg.PWR_SLEW_DOWN < s.pwr.cEff then
        (if getB s Reg.CLK_REF_STATUS_SWITCH_BUSY = true then getF t Reg.PWR_OP_OP = getF s Reg.PWR_OP_OP ∧ t.pwr = { s.pwr with capDrop := true }
         else getF t Reg.PWR_OP_OP = min 192 (getF s Reg.PWR_OP_OP + 32) ∧ t.pwr = s.pwr)
       else getF t Reg.PWR_OP_OP = getF s Reg.PWR_OP_OP ∧ t.pwr = s.pwr) ∧
      regsKept (oneOf [Reg.PWR_CAP_TARGET, Reg.PWR_OP_OP]) s t ∧ keptBut [.flds, .pwr] s t)) ∧
  (∀ (s : State) (time : Nat),
    (∀ x, s.pwr.unmetAt = some x → x + 1000000 ≤ time → ∃ t, exec (.capUnmet time) s = .next t ∧ getB t Reg.PWR_STATUS_CAP_UNMET = true ∧
      getB t Reg.HOST_ALERT_CAP_UNMET = true ∧
      regsKept (fun k => pmcKey k || irqKey k || oneOf [Reg.PWR_STATUS_CAP_UNMET, Reg.HOST_ALERT_CAP_UNMET] k) s t ∧ keptBut (.now :: irqParts) s t) ∧
    ((∀ x, s.pwr.unmetAt = some x → time < x + 1000000) → exec (.capUnmet time) s = .next s))

/-- R397, R398, R403 to R407, R409, R427 to R429. -/
def Obligations.BrakesTemperaturesAndSideband : Prop :=
  (∀ (s : State) (time : Nat) (c : Instr) (k : Nat) (fs : List Fld), clocked s = true →
    (c = .shutterAssert time ∧ k = 0 ∧ fs = [Reg.HOST_SIDEBAND_SHUTTER, Reg.PWR_STATUS_SHUTTER] ∧ toggling s .shutter = false ∧ getB s Reg.HOST_SIDEBAND_SHUTTER = false) ∨
    (c = .leakAssert time ∧ k = 2 ∧ fs = [Reg.HOST_SIDEBAND_LEAK, Reg.PWR_STATUS_LEAK, Reg.HOST_ALERT_LEAK] ∧ toggling s .leak = false ∧ getB s Reg.HOST_SIDEBAND_LEAK = false) ∨
    (c = .vinLow time ∧ k = 3 ∧ fs = [Reg.PWR_STATUS_VIN_LOW]) → s.pwr.brakes.contains k = false →
    ∃ t, exec c s = .next t ∧ (∀ f ∈ fs, getB t f = true) ∧ t.pwr.brakes = k :: s.pwr.brakes ∧ getB t Reg.PWR_STATUS_BRAKE = true ∧
      getF t Reg.PWR_BRAKES = min (getF s Reg.PWR_BRAKES + 1) (2 ^ 64 - 1) ∧ getF t Reg.PWR_OP_OP_FLOOR = 192 ∧
      (getF s Reg.PWR_OP_OP ≤ 192 → getB s Reg.CLK_REF_STATUS_SWITCH_BUSY = false → getF t Reg.PWR_OP_OP = 192) ∧
      (getB s Reg.CLK_REF_STATUS_SWITCH_BUSY = true → getF t Reg.PWR_OP_OP = getF s Reg.PWR_OP_OP) ∧
      regsKept (fun x => pmcKey x || irqKey x || oneOf ([Reg.PWR_STATUS_BRAKE, Reg.PWR_BRAKES, Reg.PWR_OP_OP, Reg.PWR_OP_OP_FLOOR] ++ fs) x) s t ∧
      keptBut (.pwr :: .now :: .ledger :: .ledgerSeq :: irqParts) s t) ∧
  (∀ (s : State) (time mean : Nat) (c : Instr) (k : Nat) (fs : List Fld), clocked s = true →
    (c = .shutterRelease mean time ∧ k = 0 ∧ fs = [Reg.HOST_SIDEBAND_SHUTTER, Reg.PWR_STATUS_SHUTTER] ∧ toggling s .shutter = false ∧ getB s Reg.HOST_SIDEBAND_SHUTTER = true) ∨
    (c = .leakRelease mean time ∧ k = 2 ∧ fs = [Reg.HOST_SIDEBAND_LEAK, Reg.PWR_STATUS_LEAK] ∧ toggling s .leak = false ∧ getB s Reg.HOST_SIDEBAND_LEAK = true) →
    s.pwr.brakes.contains k = true →
    ∃ t, exec c s = .next t ∧ (∀ f ∈ fs, getB t f = false) ∧ t.pwr.brakes = s.pwr.brakes.filter (· != k) ∧ t.pwr.cEff = min s.pwr.cEff mean ∧
      getB t Reg.PWR_STATUS_BRAKE = !t.pwr.brakes.isEmpty ∧
      getF t Reg.PWR_OP_OP_FLOOR = (if t.pwr.brakes = [] then 32 * getF s Reg.CLK_ACLK_CEIL_MIN_CODE % 256 else 192) ∧
      regsKept (fun x => pmcKey x || oneOf ([Reg.PWR_STATUS_BRAKE, Reg.PWR_CAP_EFFECTIVE, Reg.PWR_OP_OP, Reg.PWR_OP_OP_FLOOR] ++ fs) x) s t ∧
      keptBut [.flds, .pwr, .now] s t) ∧
  (∀ (s : State) (p : Port) (time : Nat), clocked s = true → toggling s (perstInput p) = false →
    (∃ t, exec (.perstAssert p time) s = .next t ∧ getB t (perstFld p) = true ∧ (portSt t p).link = false ∧
      (portSt t p).perstAt = some ((portSt s p).perstAt.getD time) ∧ (portUp s p = false → keptBut [.flds, .boot, .now] s t)) ∧
    (∃ t, exec (.perstRelease p time) s = .next t ∧ getB t (perstFld p) = false ∧ portSt t p = { portSt s p with perstAt := none } ∧
      keptBut [.flds, .boot, .now] s t)) ∧
  (∀ (s : State) (i : SbInput) (time mean : Nat),
    (clocked s = true → toggling s i = false → ∃ t, exec (.sidebandToggling i time) s = .next t ∧ toggling t i = true ∧
      getBit t Reg.HOST_SIDEBAND_TOG (sbNum i) = true ∧ getB t Reg.HOST_ALERT_TOGGLING = true ∧
      accepted t i = true ∧ (s.wts.load = none → t.mem = s.mem)) ∧
    (toggling s i = true → (∃ t, exec (.togglingEnd i true mean time) s = .next t ∧ toggling t i = false ∧
        regsKept (fun k => pmcKey k || oneOf [Reg.HOST_SIDEBAND_TOGGLING] k) s t ∧ keptBut [.flds, .now] s t) ∧
      ∃ t, exec (.togglingEnd i false mean time) s = .next t ∧ toggling t i = false ∧
        accepted t i = false ∧ keptBut [.flds, .pwr, .boot, .now] s t)) ∧
  (∀ (s : State) (p : Port) (time x : Nat),
    (s.pwr.shutterAt = some x → x + 1000000000 ≤ time → ∃ t, exec (.shutterStuck time) s = .next t ∧ getB t Reg.PWR_STATUS_SHUTTER_STUCK = true ∧
      getB t Reg.HOST_ALERT_SHUTTER_STUCK = true ∧ keptBut (.now :: irqParts) s t) ∧
    ((portSt s p).perstAt = some x → x + 1000000000 ≤ time → getB s (perstFld p) = true → ∃ t, exec (.perstStuck p time) s = .next t ∧
      getB t (match p with | .a => Reg.HOST_PORT_A_PERST_STUCK | .b => Reg.HOST_PORT_B_PERST_STUCK) = true ∧
      getB t Reg.HOST_ALERT_PERST_STUCK = true ∧ keptBut (.now :: irqParts) s t) ∧
    (s.pwr.inletAt = some x → x + 1000000000 ≤ time → ∃ t, exec (.inletRange time) s = .next t ∧ getB t Reg.PWR_STATUS_INLET_RANGE = true ∧
      getB t Reg.HOST_ALERT_THERMAL = true ∧ keptBut (.pwr :: .now :: irqParts) s t) ∧
    (s.pwr.leakAt = some x → x + 10000000 * getF s Reg.PWR_LEAK_CTL_GRACE ≤ time → clocked s = true → s.boot.stage ≠ .safe →
      ∃ t, exec (.leakGraceExpire time) s = .next t ∧ t.boot.stage = .safe ∧ t.boot.report.cause = 0x0A ∧ t.boot.report.status = 0x50 ∧
        getF t Reg.ID_STATE_STATE = 3 ∧ getB t Reg.HOST_ALERT_SAFE_STATE = true ∧ t.portion = none ∧ t.inbox = [] ∧
        keptBut (.boot :: .portion :: .suspended :: .finals :: .inbox :: .ctl :: .wts :: .now :: .ledger :: .ledgerSeq :: irqParts) s t)) ∧
  (∀ (s : State) (jv vv : List Int) (inl outl : Int) (vin iin mean time : Nat), clocked s = true → s.boot.stage ≠ .safe → jv.length = 36 → vv.length = 32 →
    (∀ x ∈ jv ++ vv, -200 ≤ x ∧ x ≤ 1500) → 150 ≤ inl → inl ≤ 450 → 0 ≤ outl → outl ≤ 1000 → s.pwr.sensorsOut = [] → s.pwr.inletPeak = 0 →
    s.pwr.brakeAt = none → s.pwr.brakes = [] → getB s Reg.PWR_STATUS_VIN_LOW = false →
    let c : Instr := .thermalCheck (jv.map some) (vv.map some) (some inl) (some outl) vin iin mean time
    let j := hottest jv
    let v := hottest vv
    let tj : Int := 10 * (getF s Reg.PWR_THERM_CTL_TJ_TARGET : Int)
    let cap := getF s Reg.PWR_OP_THERM_CAP
    ∃ t, exec c s = .next t ∧ getF t Reg.PWR_TEMP_TJ_MAX = (j / 10).toNat ∧ getF t Reg.PWR_TEMP_DRAM_MAX = (v / 10).toNat ∧
      vv[getF t Reg.PWR_TEMP_DRAM_VAULT]? = some v ∧ getF t Reg.PWR_COOLANT_INLET = inl.toNat ∧ getF t Reg.PWR_COOLANT_OUTLET = outl.toNat ∧
      getF t Reg.PWR_VIN_VIN_MV = vin % 2 ^ 16 ∧
      (tj < j ∨ 900 < v → getF t Reg.PWR_OP_THERM_CAP = (cap - 10) % 4096 ∧ getB t Reg.PWR_STATUS_THERM_LIMITED = true) ∧
      (j < tj - 30 → v < 870 → getF t Reg.PWR_OP_THERM_CAP = min 2200 (cap + 5)) ∧
      (∀ i x, vv[i]? = some x → 850 < x → i ∈ t.pwr.refresh2x) ∧
      (j < 1050 → v < 950 → t.pwr.brakes = [] ∧ keptBut [.flds, .pwr, .now, .fresh] s t) ∧
      (1050 ≤ j ∨ 950 ≤ v → getB t Reg.HOST_ALERT_THERMAL = true ∧ getB t Reg.PWR_STATUS_THERM_BRAKE = true ∧ t.pwr.brakes = [1] ∧
        getF t Reg.PWR_OP_OP_FLOOR = 192) ∧
      (1050 ≤ j → j < 1100 → v < 950 → t.boot = s.boot ∧ keptBut (.pwr :: .now :: .fresh :: irqParts) s t) ∧
      (1100 ≤ j → t.boot.stage = .safe ∧ t.boot.report.cause = 9 ∧ t.boot.report.detail = [(j / 10).toNat, (v / 10).toNat] ∧ t.pwr.tripHold = true ∧
        t.portion = none))

/-- R370, R388, R408, R454, R459. -/
def Obligations.InputFaultsAndResets : Prop :=
  (∀ (s : State) (time ms : Nat) (rail : Fin 6) (c : Instr) (st : Stage) (f : Nat × Nat), powered s = true →
    (c = .inputUndervoltage time ∧ st = .unpowered ∧ f = (3, 0)) ∨ (c = .inputOvervoltage time ∧ st = .unpowered ∧ f = (2, 0)) ∨
    (c = .inputReversed ∧ st = .unpowered ∧ f = s.nvFault) ∨ (c = .railShort rail time ∧ st = .latched ∧ f = (1, rail.val)) ∨
    (c = .inputRemoved ms ∧ st = .unpowered ∧ f = s.nvFault) →
    ∃ t, exec c s = .next t ∧ t.boot.stage = st ∧ t.nvFault = f ∧ t.flds = [] ∧ t.out = .powerOff :: s.out ∧ VolatileLost s t) ∧
  (∀ (s : State) (time ms : Nat) (rail : Fin 6),
    (powered s = false → ∀ c ∈ [Instr.inputUndervoltage time, .inputOvervoltage time, .inputReversed, .railShort rail time, .senseOpen], exec c s = .next s) ∧
    (powered s = true → exec .senseOpen s = .next (setF s Reg.PWR_STATUS_SENSE_OPEN 1)) ∧
    (s.boot.stage = .unpowered → exec (.inputRemoved ms) s = .next s) ∧
    (s.boot.stage = .latched → exec (.inputRemoved ms) s = .next (if 1000 ≤ ms then { s with boot.stage := .unpowered } else s))) ∧
  (∀ (s : State) (time a b c : Nat) (ref : Bool) (det : Fin 6) (cmd : Instr) (st : Stage) (cause : Nat),
    (cmd = .inputPowerValid ref ∧ s.boot.stage = .unpowered ∧ st = (if ref then .boot else .dark) ∧ cause = 0) ∨
    (cmd = .referenceReturn ∧ s.boot.stage = .dark ∧ st = .boot ∧ cause = 1) ∨
    (cmd = .resetRequest time ∧ clocked s = true ∧ s.pwr.shutterAt = some a ∧ s.boot.portA.perstAt = some b ∧ s.boot.portB.perstAt = some c ∧
      a + 100000000 ≤ time ∧ b + 100000000 ≤ time ∧ c + 100000000 ≤ time ∧ getF s Reg.HOST_SIDEBAND_TOGGLING = 0 ∧ s.pwr.tripHold = false ∧
      st = .boot ∧ cause = 1) ∨
    (cmd = .glitchTrip det ∧ s.boot.stage ∉ [Stage.unpowered, .latched, .dark] ∧ st = .boot ∧ cause = 2) →
    ∃ t, exec cmd s = .next t ∧ t.boot.stage = st ∧ getF t Reg.SEC_STATUS_ZERO_CAUSE = cause ∧ t.sec.ks.boots = s.sec.ks.boots + 1 ∧
      t.sec.ks.erasing = [] ∧ getF t Reg.PWR_FAULT_CAUSE = s.nvFault.1 % 16 ∧ getF t Reg.PWR_FAULT_RAIL = s.nvFault.2 % 16 ∧ VolatileLost s t ∧
      (cause = 2 → t.sec.ks.glitchTotal = s.sec.ks.glitchTotal + 1 ∧ t.sec.ks.glitchAck = s.sec.ks.glitchAck + 1 ∧ t.sec.ks.glitchDet = det.val) ∧
      (cause ≠ 2 → t.sec.ks.glitchTotal = s.sec.ks.glitchTotal ∧ t.sec.ks.glitchAck = s.sec.ks.glitchAck)) ∧
  (∀ (s : State) (time : Nat) (ref : Bool) (det : Fin 6),
    (s.boot.stage ≠ .unpowered → exec (.inputPowerValid ref) s = .next s) ∧ (s.boot.stage ≠ .dark → exec .referenceReturn s = .next s) ∧
    (s.boot.stage ∈ [Stage.unpowered, .latched, .dark] → exec (.glitchTrip det) s = .next s) ∧
    (clocked s = false ∨ s.pwr.shutterAt = none ∨ s.boot.portA.perstAt = none ∨ s.boot.portB.perstAt = none ∨ s.pwr.tripHold = true →
      exec (.resetRequest time) s = .next s))

/-- R440, R456, R460, R462, R463, R469. -/
def Obligations.PowerUpSequence : Prop :=
  (∀ (s : State) (k : Fin 3) (vs : List Nat) (ms : List (List Nat)),
    (s.boot.stage ≠ .locked → ∀ ok bad, exec (.bootVerifyDone ok bad vs ms) s = .next s) ∧
    (s.boot.stage = .locked →
      (∀ bad, ∃ t, exec (.bootVerifyDone false bad vs ms) s = .next t ∧ t.boot.stage = .safe ∧ t.boot.report.cause = 1 ∧ t.mem = s.mem) ∧
      (∃ t, exec (.bootVerifyDone true (some k) vs ms) s = .next t ∧ t.boot.stage = .safe ∧ t.boot.report.cause = 2 ∧ t.boot.report.unit = k.val + 1 ∧ t.mem = s.mem) ∧
      (∃ t, exec (.bootVerifyDone true none vs ms) s = .next t ∧ t.boot.stage = .verified ∧ t.sec.ks.versions = vs.take 4 ∧ t.sec.ks.measures = ms.take 4 ∧
        (∀ n l, n < 16 → s.sec.ks.leases[n]? = some l → t.sec.ks.leases[n]? = some (if l.st = 3 then { st := 0 } else l)) ∧
        t.sec.ks.owner = s.sec.ks.owner ∧ keptBut [.flds, .boot, .sec, .ledger, .ledgerSeq] s t))) ∧
  (∀ (s : State) (info : List (Nat × Nat × Nat)) (c : Fin 192),
    let good : SelfTest := ⟨[], [], [], [], [], [], [], [], [], false, false, false⟩
    s.boot.stage = .verified → s.ready = false → s.img = none → (∀ k, k < 192 → coreFenced s k = false) → (∀ v, v < 32 → vaultRetired s v = false) →
    s.sec.ks.fenceCores = [] → s.sec.ks.fenceVaults = [] → s.sec.ks.glitchAck < 16 → s.vflashLatched = [false, false] → s.boot.commonsOut = [] →
    s.boot.portsShut = [] → getF s (cardState 0) = 0 → getF s (cardState 1) = 0 →
    (∃ t, exec (.selftestDone good info) s = .next t ∧ t.boot.stage = .tested ∧ t.boot.report.grade = 0 ∧ getF t Reg.ID_STATE_STATE = 1 ∧
      getF t Reg.ID_RESOURCES_CORES_LIVE = 192 ∧ getF t Reg.ID_RESOURCES_VAULTS_LIVE = 32 ∧ getF t Reg.ID_RESOURCES_FLASH_CARDS = 3 ∧
      getF t Reg.ID_RESOURCES_HOST_PORTS = 3 ∧ getF t Reg.ID_RESOURCES_FAB_PORTS = 255 ∧ getF t (cardState 0) = 2 ∧ getF t (cardState 1) = 2 ∧
      keptBut [.flds, .boot, .ledger, .ledgerSeq, .cardSerial, .cardSeated] s t) ∧
    (∃ t, exec (.selftestDone { good with cores := [c] } info) s = .next t ∧ t.boot.stage = .tested ∧ getF t Reg.ID_STATE_STATE = 2 ∧
      coreFenced t c = true ∧ t.sec.ks.fenceCores = [c.val] ∧ getF t Reg.ID_RESOURCES_CORES_LIVE = 191 ∧
      keptBut [.flds, .boot, .ledger, .ledgerSeq, .cardSerial, .cardSeated, .cores, .sec] s t)) ∧
  (∀ (s : State) (r : SelfTest) (info : List (Nat × Nat × Nat)), (s.boot.stage ≠ .verified → exec (.selftestDone r info) s = .next s) ∧
    (s.boot.extended = false → exec (.extendedSelftestDone r info) s = .next s)) ∧
  (∀ (s : State) (dist acct win report : Nat),
    (s.boot.stage ≠ .tested → exec (.functionsReady dist acct win report) s = .next s) ∧
    (s.boot.stage = .tested → ∃ t, exec (.functionsReady dist acct win report) s = .next t ∧ t.boot.stage = .ready ∧ t.ready = true ∧
      getF t Reg.MEM_DIST_BASE = dist % 2 ^ 64 ∧ getF t Reg.CTX_ACCT_BASE = acct % 2 ^ 64 ∧ getF t Reg.FAB_WINDOW_BASE = win % 2 ^ 64 ∧
      getF t Reg.FAB_REPORT_BASE = report % 2 ^ 64 ∧ getF t Reg.FAB_STATE_STATE = 1 ∧ t.sec.ks.armed = false ∧
      (s.sec.ks.armed = true → t.boot.extended = true ∧ getF t Reg.ID_STATE_STATE = 4) ∧
      (s.sec.ks.armed = false → t.boot.extended = s.boot.extended ∧ getF t Reg.ID_STATE_STATE = getF s Reg.ID_STATE_STATE) ∧
      keptBut [.flds, .mem, .marks, .boot, .ready, .out, .sec] s t)) ∧
  (∀ (s : State) (info : List (Nat × Nat × Nat)), s.boot.extended = true → (∀ x, x < 208 → routerShut s x = false) →
    (∀ c ∈ s.sec.ks.fenceCores, c < 192) → (∀ v ∈ s.sec.ks.fenceVaults, v < 32) →
    ∃ t, exec (.extendedSelftestDone ⟨[], [], [], [], [], [], [], [], [], false, false, false⟩ info) s = .next t ∧ t.boot.extended = false ∧ t.ready = true ∧
      t.sec.ks.fenceCores = [] ∧ t.sec.ks.fenceVaults = [] ∧ (∀ c ∈ s.sec.ks.fenceCores, coreFenced t c = false) ∧
      (∀ v ∈ s.sec.ks.fenceVaults, vaultRetired t v = false))

/-- R271, R416, R417, R420, R423 to R425, R461. -/
def Obligations.PortsAndInterrupts : Prop :=
  (∀ (s : State) (p : Port) (speed : Fin 7) (width : Fin 9) (rev : Bool),
    (s.boot.stage ∈ [Stage.unpowered, .latched, .dark, .boot] → exec (.portUp p speed width rev) s = .next s) ∧
    (s.boot.stage ∉ [Stage.unpowered, .latched, .dark, .boot] →
      let clear := getB s (perstFld p) = false ∧ getB s (refFld p) = true ∧ s.boot.portsShut.contains (portNum p) = false
      ∃ t, exec (.portUp p speed width rev) s = .next t ∧ getF t (speedFld p) = speed ∧ getF t (widthFld p) = width ∧ getB t (revFld p) = rev ∧
        getB t (d3Fld p) = false ∧ (portSt t p).link = true ∧ (portSt t p).lostAt = none ∧ (portSt t p).flr = false ∧
        (portUp s p = true ∨ ¬ clear → portUp t p = portUp s p ∧ keptBut [.flds, .boot] s t) ∧
        (portUp s p = false → clear → portUp t p = true ∧ (∀ f ∈ perPortFlds, f ≠ Reg.CTX_RING_CTL_PORT_LOST → getP t p f = f.reset) ∧ latch t p = none ∧ (portSt t p).bar2 = 36 ∧
          getP t (otherPort p) Reg.HOST_IRQ_CAUSE_PEER = 1 ∧ keptBut (.boot :: .ctl :: .latchA :: .latchB :: irqParts) s t))) ∧
  (∀ (s : State) (p : Port) (time x : Nat),
    ((portSt s p).link = false → exec (.dlActiveLost p time) s = .next s) ∧
    ((portSt s p).link = true → ∃ t, exec (.dlActiveLost p time) s = .next t ∧ getF t (speedFld p) = 0 ∧ getF t (widthFld p) = 0 ∧
      portSt t p = { portSt s p with link := false, lostAt := some time } ∧ portUp t p = portUp s p ∧ keptBut [.flds, .boot, .now] s t) ∧
    ((portSt s p).lostAt = none → exec (.linkDownTimeout p time) s = .next s) ∧
    ((portSt s p).lostAt = some x → time < x + 100000000 → exec (.linkDownTimeout p time) s = .next s) ∧
    (stageAlive s = true → portUp s p = false → exec (.d3hotEntry p) s = .next s ∧ exec (.functionLevelReset p) s = .next s)) ∧
  (∀ (s : State) (p : Port) (time x : Nat) (c : Instr), portUp s p = true →
    (c = .linkDownTimeout p time ∧ (portSt s p).lostAt = some x ∧ x + 100000000 ≤ time) ∨ (c = .d3hotEntry p ∧ stageAlive s = true) ∨
    (c = .functionLevelReset p ∧ stageAlive s = true) ∨ (c = .perstAssert p time ∧ clocked s = true ∧ toggling s (perstInput p) = false) →
    ∃ t, exec c s = .next t ∧ WentDown p s t ∧ (c = .d3hotEntry p → getB t (d3Fld p) = true) ∧
      (c = .functionLevelReset p → (portSt t p).flr = true) ∧ (c = .perstAssert p time → getB t (perstFld p) = true)) ∧
  (∀ (s : State) (p : Port),
    (holdoff s p = false → exec (.irqHoldoffExpire p) s = .next s) ∧
    (holdoff s p = true → deferred s p = false ∨ portUp s p = false → ∃ t, exec (.irqHoldoffExpire p) s = .next t ∧ holdoff t p = false ∧
      keptBut [.holdoffA, .holdoffB, .deferA, .deferB] s t) ∧
    (holdoff s p = true → deferred s p = true → portUp s p = true → s.boot.stage ≠ .safe → ∃ t, exec (.irqHoldoffExpire p) s = .next t ∧ t.out = .msix p 0 :: s.out ∧
      deferred t p = false ∧ holdoff t p = decide (0 < getP s p Reg.HOST_IRQ_HOLDOFF_US) ∧
      holdoff t (otherPort p) = holdoff s (otherPort p) ∧ keptBut [.out, .holdoffA, .holdoffB, .deferA, .deferB] s t)) ∧
  (∀ (s : State) (p : Port) (n : Fin 9),
    (clocked s = false ∨ getB s (perstFld p) = true ∨ (portSt s p).link = false → ∀ b, exec (.configurationRequest p b) s = .next s) ∧
    (clocked s = true → getB s (perstFld p) = false → (portSt s p).link = true →
      (s.ready = false → s.boot.stage ≠ .safe → ∀ b, exec (.configurationRequest p b) s = .next (emit s (.crs p))) ∧
      (s.ready = true ∨ s.boot.stage = .safe → exec (.configurationRequest p none) s = .next (emit s (.cfg p))) ∧
      (s.boot.stage = .safe → exec (.configurationRequest p (some n)) s = .next (emit s (.cfg p))) ∧
      (s.ready = true → s.boot.stage ≠ .safe → ∃ t, exec (.configurationRequest p (some n)) s = .next t ∧ t.out = .cfg p :: s.out ∧
        portSt t p = { portSt s p with bar2 := 30 + n.val } ∧ portSt t (otherPort p) = portSt s (otherPort p) ∧ keptBut [.out, .boot] s t))) ∧
  (∀ (s : State) (p : Port) (c : Fin 3 → Instr) (status : Nat),
    (c = .hostReadTimeout p ∧ status = 0x31) ∨ (c = .hostReadRefused p ∧ status = 0x23) →
    exec (c 2) s = .next s ∧ (s.wts.load = none → exec (c 0) s = .next s) ∧ (s.wts.imgRun = none → exec (c 1) s = .next s) ∧
    (∀ r, s.wts.load = some r → (r.port ≠ p → exec (c 0) s = .next s) ∧
      (r.port = p → ∃ t, exec (c 0) s = .next t ∧ t.wts.load = none ∧ getF t Reg.MEM_LOAD_STATUS_STATUS = status ∧
        getB t Reg.MEM_LOAD_STATUS_BUSY = false ∧ t.img = s.img ∧ t.portion = s.portion)) ∧
    (∀ r, s.wts.imgRun = some r → (r.port ≠ p ∨ getF s Reg.ENG_IMG_STATUS_PHASE ≠ 1 → exec (c 1) s = .next s) ∧
      (r.port = p → getF s Reg.ENG_IMG_STATUS_PHASE = 1 → ∃ t, exec (c 1) s = .next t ∧ t.wts.imgRun = none ∧
        getF t Reg.ENG_IMG_STATUS_STATUS = 0x23 ∧ getB t Reg.ENG_IMG_STATUS_BUSY = false ∧ keptBut (.wts :: irqParts) s t))) ∧
  (∀ (s : State) (p : Port),
    let used := s.ctxs.any fun c => c.2.port == p && ideRequired s c.2.desc.lease
    exec (.ideKm p) s = .next (if portUp s p = true ∧ s.sec.sessions ≠ [] ∧ mgmtAlive s = true then setF s (ideFld p) 1 else s) ∧
    (getF s (ideFld p) ≠ 1 → exec (.ideIntegrityFail p) s = .next s) ∧
    (getF s (ideFld p) = 1 → used = false → exec (.ideIntegrityFail p) s = .next (setF s (ideFld p) 2)) ∧
    (getF s (ideFld p) = 1 → used = true → portUp s p = true → ∃ t, exec (.ideIntegrityFail p) s = .next t ∧ getF t (ideFld p) = 2 ∧ WentDown p s t))

/-- R213, R357 to R365, R421, R435, R447. -/
def Obligations.Bar2AccessesAndImages : Prop :=
  (∀ (s : State) (p : Port) (off len : Nat) (bytes : List (BitVec 8)) (fn : BarAtom) (wide : Bool) (x y : BitVec 64) (chk : Check) (ok : Bool),
    stageAlive s = true →
    let a := barAddr s p off
    let n := bytes.length
    let w := if wide then 8 else 4
    let logged := fun (write : Bool) (t : State) => getF t Reg.HOST_BADACC_COUNT = min (getF s Reg.HOST_BADACC_COUNT + 1) 0xFFFFFFFF ∧
      getF t (Reg.HOST_BADACC_INFO_STATUS (getF s Reg.HOST_BADACC_COUNT % 16)) = 0x23 ∧
      getB t (Reg.HOST_BADACC_INFO_WRITE (getF s Reg.HOST_BADACC_COUNT % 16)) = write ∧ regsKept (within (0x40040 * 64) (0xC0 * 64)) s t
    (inBar2 s p off n = false → exec (.bar2Write p off bytes) s = .next s) ∧
    (inBar2 s p off len = false → exec (.bar2Read p off len [] ok) s = .next s) ∧
    (inBar2 s p off w = false → exec (.bar2Atomic p fn wide off x y chk) s = .next s) ∧
    (inBar2 s p off n = true → devWriteOk s a n = true → barAllowed (writeLease s) s p a n = true →
      ∃ t, exec (.bar2Write p off bytes) s = .next t ∧ rdBytes t a n = (bytes.map fun b => b.toNat) ∧ memKept (within a n) s t ∧
        regsKept storeKey s t ∧ keptBut [.mem, .marks, .flds] s t) ∧
    (inBar2 s p off n = true → devWriteOk s a n = false ∨ barAllowed (writeLease s) s p a n = false →
      ∃ t, exec (.bar2Write p off bytes) s = .next t ∧ logged true t ∧ keptBut [.flds] s t) ∧
    (inBar2 s p off len = true → a + len ≤ 2 ^ 38 → devReadOk s a len = true → barAllowed (readLease s) s p a len = true →
      (anyMarked s a len = false → ∃ t, exec (.bar2Read p off len [] ok) s = .next t ∧ t.out = .readData p (rdBytes s a len) :: s.out ∧
        regsKept pmcKey s t ∧ keptBut [.flds, .out] s t) ∧
      (0 < len → a / 64 = (a + len - 1) / 64 → marked s (a / 64) = true → ∃ t, exec (.bar2Read p off len [] ok) s = .next t ∧
        t.out = .readPoisoned p (rdBytes s a len) :: s.out ∧ getF t Reg.MEM_DRAM_DETECT = min (getF s Reg.MEM_DRAM_DETECT + 1) (2 ^ 64 - 1) ∧
        keptBut [.marks, .flds, .out] s t)) ∧
    (inBar2 s p off len = true → devReadOk s a len = false ∨ barAllowed (readLease s) s p a len = false →
      ∃ t, exec (.bar2Read p off len [] ok) s = .next t ∧ t.out = .readData p (List.replicate len 0) :: s.out ∧ logged false t ∧ keptBut [.flds, .out] s t) ∧
    (inBar2 s p off w = true → a % w = 0 → devWriteOk s a w = true → barAllowed (writeLease s) s p a w = true →
      let old := rdLe s a w
      (marked s (a / 64) = false → chk = .ok → ∃ t, exec (.bar2Atomic p fn wide off x y chk) s = .next t ∧ t.out = .readData p (rdBytes s a w) :: s.out ∧
        rdLe t a w = (match fn with
          | .fetchAdd => (old + x.toNat) % 2 ^ (8 * w)
          | .swap => x.toNat % 2 ^ (8 * w)
          | .cas => if old = y.toNat % 2 ^ (8 * w) then x.toNat % 2 ^ (8 * w) else old) ∧
        memKept (within a w) s t ∧ regsKept storeKey s t ∧ keptBut [.mem, .marks, .flds, .out] s t) ∧
      (marked s (a / 64) = true ∨ chk = .hard → ∃ t, exec (.bar2Atomic p fn wide off x y chk) s = .next t ∧
        t.out = .readPoisoned p (rdBytes s a w) :: s.out ∧ keptBut [.marks, .flds, .out] s t)) ∧
    (inBar2 s p off w = true → a % w ≠ 0 ∨ devWriteOk s a w = false ∨ barAllowed (writeLease s) s p a w = false →
      ∃ t, exec (.bar2Atomic p fn wide off x y chk) s = .next t ∧ t.out = .readData p (List.replicate w 0) :: s.out ∧ logged true t ∧
        keptBut [.flds, .out] s t)) ∧
  (∀ (s : State) (p q : Port), stageAlive s = true →
    (getB s Reg.ENG_IMG_STATUS_BUSY = true → exec (.imageGo p) s = .next s) ∧
    (getB s Reg.ENG_IMG_STATUS_BUSY = false → ∃ t, exec (.imageGo p) s = .next t ∧ getB t Reg.ENG_IMG_STATUS_BUSY = true ∧
      getF t Reg.ENG_IMG_STATUS_PHASE = 1 ∧ getF t Reg.ENG_IMG_STATUS_PROGRESS = 0 ∧ t.wts = { s.wts with imgRun := some ⟨p, none, []⟩ } ∧
      regsKept (oneOf [Reg.ENG_IMG_STATUS_BUSY, Reg.ENG_IMG_STATUS_PHASE, Reg.ENG_IMG_STATUS_PROGRESS]) s t ∧ keptBut [.flds, .wts] s t) ∧
    (s.wts.imgRun = none ∨ (∃ d g, s.wts.imgRun = some ⟨q, some d, g⟩) → exec (.imageAbort p) s = .next s) ∧
    (s.wts.imgRun = some ⟨q, none, []⟩ → ∃ t, exec (.imageAbort p) s = .next t ∧ getB t Reg.ENG_IMG_STATUS_BUSY = false ∧
      getF t Reg.ENG_IMG_STATUS_STATUS = 0x23 ∧ t.wts = { s.wts with imgRun := none } ∧ keptBut (.wts :: irqParts) s t)) ∧
  (∀ (s : State) (p : Port) (d : ImageDesc) (ok : Bool), s.wts.imgRun = some ⟨p, none, []⟩ →
    let bad := if ok = false then some ⟨0x23, 0, 0, 0⟩ else if sizeBad s d = true then some (badRes 0x13 noItem)
      else ((verifyImage s p d).or (structureOf s d)).or (fitOf s (combined s d))
    (∀ b, bad = some b → ∃ t, exec (.imageFetchDone ok d) s = .next t ∧ getB t Reg.ENG_IMG_STATUS_BUSY = false ∧
      getF t Reg.ENG_IMG_STATUS_STATUS = b.status % 256 ∧ getF t Reg.ENG_IMG_REFUSAL_KIND = b.kind % 16 ∧ getF t Reg.ENG_IMG_REFUSAL_CODE = b.code % 256 ∧
      getF t Reg.ENG_IMG_ITEM_ITEM = b.item % 2 ^ 32 ∧ t.wts = { s.wts with imgRun := none } ∧ keptBut (.wts :: irqParts) s t) ∧
    (bad = none → ∃ t g, exec (.imageFetchDone ok d) s = .next t ∧ t.wts = { s.wts with imgRun := some ⟨p, some d, g⟩ } ∧
      (d.kind = 0 ∨ (∀ x ∈ d.groups, x.idx < 64) → getF t Reg.ENG_IMG_STATUS_PHASE = 5 ∧ getF t Reg.ENG_IMG_STATUS_KIND = d.kind % 4 ∧
        (d.kind ≠ 0 → ∀ x ∈ d.groups, getF t (Reg.ENG_IMG_GROUPS_GROUP x.idx) = 2)) ∧ keptBut [.flds, .wts] s t)) ∧
  (∀ (s : State) (d : ImageDesc) (ok : Bool), s.wts.imgRun = none →
    exec (.imageFetchDone ok d) s = .next s ∧ exec .wholeApply s = .next s ∧ exec .regionalApply s = .next s) ∧
  (∀ (s : State) (p : Port) (d : ImageDesc) (g : List (Nat × Nat)), stageAlive s = true → s.wts.imgRun = some ⟨p, some d, g⟩ →
    (d.kind ≠ 0 ∨ s.portion ≠ none → exec .wholeApply s = .next s) ∧ (d.kind = 0 ∨ s.portion ≠ none ∨ s.suspended ≠ none → exec .regionalApply s = .next s) ∧
    (d.kind = 0 → s.portion = none → s.ctxs ≠ [] ∨ noHold s = false ∨ s.suspended ≠ none → ∃ t, exec .wholeApply s = .next t ∧ getB t Reg.ENG_IMG_STATUS_BUSY = false ∧
      getF t Reg.ENG_IMG_STATUS_STATUS = 0x10 ∧ getF t Reg.ENG_IMG_REFUSAL_KIND = 1 ∧ getF t Reg.ENG_IMG_REFUSAL_CODE = 8 ∧
      t.wts = { s.wts with imgRun := none } ∧ keptBut (.wts :: irqParts) s t) ∧
    (d.kind = 0 → s.ctxs = [] → noHold s = true → s.suspended = none → s.wts.load = none → s.wts.switchTo = none →
      (∀ n, n < 2 → slotState s n ≠ 1 ∧ slotState s n ≠ 4) → fitOf s d = none →
      ∃ t, exec .wholeApply s = .next t ∧ t.img = some d ∧ t.prefs = [] ∧ t.pages = [] ∧ t.ctxs = [] ∧ t.wts.imgRun = none ∧
        t.wts.area = [(0, d.totalBytes)] ∧ getB t Reg.ENG_IMG_STATUS_BUSY = false ∧ getF t Reg.ENG_IMG_STATUS_STATUS = 0 ∧
        getF t Reg.ENG_IMG_STATE_STATE = 1 ∧ getF t Reg.ENG_IMG_SEQ = d.seq % 2 ^ 32 ∧ getF t Reg.ENG_KV_POOL_PAGES = d.serving.kvPoolPages % 2 ^ 32) ∧
    (d.kind ≠ 0 → s.portion = none → s.suspended = none → regionBad s d = false → fitOf s (combined s d) = none →
      ∃ t, exec .regionalApply s = .next t ∧ t.img = some (combined s d) ∧ t.prefs = s.prefs ∧ t.pages = s.pages ∧ t.ctxs = s.ctxs ∧ t.wts.imgRun = none ∧
        getB t Reg.ENG_IMG_STATUS_BUSY = false ∧ getF t Reg.ENG_IMG_STATUS_STATUS = 0 ∧
        ((∀ x ∈ d.groups, x.idx < 64) → ∀ x ∈ d.groups, getF t (Reg.ENG_IMG_GROUPS_GROUP x.idx) = 1)))

/-- R431, R432, R442, R444, R466, R467. -/
def Obligations.ManagementAttestationAndFirmware : Prop :=
  (∀ (s : State) (eid : BitVec 8) (addr : BitVec 7) (sensor : Fin 10) (slot : Fin 8) (nonce key measure : List Nat) (index : Fin 11) (party : Party)
      (ok floor mio own : Bool) (c : FwComp) (version : Nat),
    (mgmtAlive s = false → ∀ i ∈ [Instr.setEndpointId eid, .entdaa addr, .pldmSensorRead sensor, .getCertificate slot, .challenge slot nonce,
      .getMeasurements index nonce, .keyExchange party key ok, .pldmFirmwareUpdate c version floor mio own measure, .securityFwSwap, .mgmtFwSwap,
      .powerFwSwap, .pldmCapEffecter version], exec i s = .next s) ∧
    (mgmtAlive s = true →
      let filled := slot.val = 0 ∨ slot.val = 1 ∧ s.sec.ks.slot1 = true
      let said := fun (rule : Nat) (data : List Nat) (t : State) => t.out = .mgmt rule data :: s.out ∧ keptBut [.flds, .sec, .out] s t ∧
        t.sec.sessions = s.sec.sessions ∧ t.sec.packages = s.sec.packages ∧ t.sec.ks.owner = s.sec.ks.owner ∧ t.sec.ks.leases = s.sec.ks.leases ∧
        (s.sec.fwRaise = [] → keptBut [.out] s t)
      (∃ t, exec (.setEndpointId eid) s = .next t ∧ getF t Reg.MGT_STATUS_EID = eid.toNat ∧ keptBut [.flds, .sec] s t ∧
        (s.sec.fwRaise = [] → regsKept (oneOf [Reg.MGT_STATUS_EID]) s t ∧ t.sec = s.sec) ∧
        (∀ v, s.sec.fwRaise = [(.mgmt, v)] → t.sec.ks.rollback = s.sec.ks.rollback.set 2 (max (s.sec.ks.rollback.getD 2 0) v) ∧ t.sec.fwRaise = [])) ∧
      (∃ t, exec (.entdaa addr) s = .next t ∧ getF t Reg.MGT_STATUS_I3C_ADDR = addr.toNat ∧ getB t Reg.MGT_STATUS_I3C_ADDR_VALID = true ∧
        regsKept (oneOf [Reg.MGT_STATUS_I3C_ADDR, Reg.MGT_STATUS_I3C_ADDR_VALID]) s t ∧ keptBut [.flds] s t) ∧
      (∃ t, exec (.pldmSensorRead sensor) s = .next t ∧ said 432 [sensor, getF s (sensorFld sensor)] t) ∧
      (∃ t, exec (.getCertificate slot) s = .next t ∧ said 442 [slot, if filled then 1 else 0] t) ∧
      (filled → ∃ t, exec (.challenge slot nonce) s = .next t ∧ said 442 (slot.val :: nonce ++ (measurements s).flatten) t) ∧
      (¬ filled → exec (.challenge slot nonce) s = .next (emit s (.mgmt 437 [0x23, 0]))) ∧
      (∃ t, exec (.getMeasurements index nonce) s = .next t ∧
        said 442 (index.val :: nonce ++ (if index = 0 then (measurements s).flatten else (measurements s).getD (index.val - 1) [])) t) ∧
      (let may := ok = true ∧ partyOk s party key = true ∧ s.sec.sessions.length < 4 ∧ (∀ n, party = .tenant n → ∀ x ∈ s.sec.sessions, x.key ≠ key)
       (¬ may → exec (.keyExchange party key ok) s = .next (emit s (.mgmt 437 [0x23, 0]))) ∧
       (may → ∃ t, exec (.keyExchange party key ok) s = .next t ∧ t.sec.sessions = s.sec.sessions ++ [⟨party, key⟩] ∧
         getF t Reg.MGT_STATUS_SESSIONS = s.sec.sessions.length + 1 ∧ t.out = .mgmt 442 [s.sec.sessions.length] :: s.out ∧
         t.sec.ks.owner = s.sec.ks.owner ∧ t.sec.ks.leases = s.sec.ks.leases ∧ keptBut [.flds, .sec, .out] s t)) ∧
      (packageOk s c version mio own = false → ∃ t, exec (.pldmFirmwareUpdate c version floor mio own measure) s = .next t ∧ said 444 [0x23] t) ∧
      (packageOk s c version mio own = true → ∃ t, exec (.pldmFirmwareUpdate c version floor mio own measure) s = .next t ∧
        t.sec.packages = s.sec.packages ++ [⟨c, version, floor, measure⟩] ∧ t.sec.ks.versions = s.sec.ks.versions ∧ t.out = .mgmt 444 [0] :: s.out ∧
        keptBut [.flds, .sec, .out] s t))) ∧
  (∀ (s : State) (f : FwPackage) (l : List FwPackage) (c : Instr), s.sec.packages = f :: l →
    (c = .controlFwHandoff ∧ f.comp = .control ∧ s.boot.stage = .ready ∧ s.portion = none ∧ s.suspended = none ∧
      (getB s Reg.ENG_IMG_STATUS_BUSY = false ∨ getF s Reg.ENG_IMG_STATUS_PHASE ≠ 5)) ∨
    (c = .securityFwSwap ∧ f.comp = .security ∧ mgmtAlive s = true) ∨ (c = .mgmtFwSwap ∧ f.comp = .mgmt ∧ mgmtAlive s = true) ∨
    (c = .powerFwSwap ∧ f.comp = .power ∧ mgmtAlive s = true ∧ 4 ∉ s.pwr.brakes) →
    ∃ t, exec c s = .next t ∧ t.sec.packages = l ∧ t.sec.ks.versions = s.sec.ks.versions.set (compIdx f.comp) f.version ∧
      t.sec.ks.measures = s.sec.ks.measures.set (measureIdx f.comp) f.measure ∧ t.sec.sessions = [] ∧ getF t Reg.MGT_STATUS_SESSIONS = 0 ∧
      t.sec.ks.rollback = s.sec.ks.rollback ∧ t.sec.fwRaise = s.sec.fwRaise ++ (if f.floor then [(f.comp, f.version)] else []) ∧
      (f.comp = .control → t.sec.fwNew = true ∧ t.sec.former = some (s.sec.ks.versions.getD 0 0, s.sec.ks.measures.getD 1 [])) ∧
      (f.comp = .power → t.pwr.brakes = s.pwr.brakes ∧ t.pwr.cEff = s.pwr.cEff ∧ getF t Reg.PWR_CAP_TARGET = getF s Reg.PWR_CAP_TARGET) ∧
      keptBut [.flds, .sec, .pwr, .ledger, .ledgerSeq] s t) ∧
  (∀ (s : State) (v : Nat) (m : List Nat),
    (s.sec.former = none ∨ s.sec.fwNew = false → exec .controlFwRollback s = .next s) ∧
    ((∀ f l, s.sec.packages = f :: l → f.comp ≠ .control) ∨ s.boot.stage ≠ .ready ∨ s.portion ≠ none ∨ s.suspended ≠ none →
      exec .controlFwHandoff s = .next s) ∧
    (s.sec.former = some (v, m) → s.sec.fwNew = true → ∃ t, exec .controlFwRollback s = .next t ∧ t.sec.ks.versions = s.sec.ks.versions.set 0 v ∧
      t.sec.ks.measures = s.sec.ks.measures.set 1 m ∧ t.sec.sessions = [] ∧ t.sec.fwNew = false ∧ t.sec.former = none ∧
      t.sec.ks.rollback = s.sec.ks.rollback ∧ (∀ x ∈ t.sec.fwRaise, x.1 ≠ .control) ∧ keptBut [.flds, .sec] s t))

/-- R437, R442, R443, R453, R454, R469, R473. -/
def Obligations.OwnershipDebugAndReports : Prop :=
  ∀ (s : State) (sess first count lease : Nat) (key mv : List Nat) (cs tok mio own : Bool), mgmtAlive s = true →
    let party := sessionParty s sess
    let refused : Res := .next (emit s (.mgmt 437 [0x23, 0]))
    let ownerCmds := [Instr.transferOwnership sess key, .releaseOwnership sess, .setFwPolicy sess mv cs, .setAppKey sess key, .glitchAck sess,
      .selftestExtended sess, .ledgerRead sess first count, .eraseReportRead sess lease]
    let no := fun (st r : Nat) (c : Instr) => ∃ t, exec c s = .next t ∧ t.out = .mgmt 437 [st, r] :: s.out ∧ t.sec.ks.owner = s.sec.ks.owner ∧
      t.sec.ks.leases = s.sec.ks.leases ∧ t.sec.authOp = s.sec.authOp ∧ keptBut [.flds, .sec, .out] s t
    (party ≠ some .owner → ∀ c ∈ ownerCmds, exec c s = refused) ∧ (party ≠ some .anyKey → exec (.takeOwnership sess tok) s = refused) ∧
    (party ≠ some .owner → party ≠ some .service → exec (.debugChallenge sess) s = refused ∧ exec (.debugUnlock sess mio own) s = refused) ∧
    (party = some .anyKey → (tok = false → no 0x23 0 (.takeOwnership sess tok)) ∧ (tok = true → 16 ≤ s.sec.ks.ownerSlots → no 0x10 0x1B (.takeOwnership sess tok)) ∧
      (∀ x, tok = true → s.sec.ks.ownerSlots < 16 → s.sec.sessions[sess]? = some x → ∃ t, exec (.takeOwnership sess tok) s = .next t ∧
        t.sec.ks.owner = x.key ∧ t.sec.ks.ownerSlots = s.sec.ks.ownerSlots + 1 ∧ getB t Reg.SEC_STATUS_OWNED = !x.key.isEmpty ∧
        getF t Reg.SEC_STATUS_OWNER_SLOT = s.sec.ks.ownerSlots ∧ t.sec.ks.leases = s.sec.ks.leases ∧ t.out = .mgmt 443 [0] :: s.out ∧
        keptBut [.flds, .sec, .out, .ledger, .ledgerSeq] s t)) ∧
    (∀ (c : Instr) (op : AuthOp) (cause : Nat), s.sec.authOp = none →
      (party = some .owner ∧ c = .transferOwnership sess key ∧ op = .transfer key ∧ cause = 4 ∧ s.sec.ks.ownerSlots < 16) ∨
      (party = some .owner ∧ c = .releaseOwnership sess ∧ op = .release ∧ cause = 4) ∨
      (party = some .owner ∨ party = some .service) ∧ c = .debugUnlock sess true true ∧ op = .debug ∧ cause = 3 ∧ s.sec.nonce ≠ none ∧
        s.sec.ks.owner ≠ [] ∧ s.sec.ks.debugDisable = false →
      (leaseCount s.sec.ks = 0 → ∃ t, exec c s = .next t ∧ t.mem = [] ∧ t.marks = [] ∧ t.accs = [] ∧ getF t Reg.SEC_STATUS_ZERO_CAUSE = cause ∧
        t.sec.authOp = none ∧ (op = .transfer key → t.sec.ks.owner = key ∧ t.sec.ks.ownerSlots = s.sec.ks.ownerSlots + 1 ∧ t.sec.ks.app = []) ∧
        (op = .release → t.sec.ks.owner = [] ∧ t.sec.ks.app = []) ∧
        (op = .debug → getB t Reg.SEC_STATUS_DEBUG = true ∧ t.sec.ks.debugSeen = true ∧ t.sec.nonce = none ∧ t.sec.ks.owner = s.sec.ks.owner) ∧
        t.out = .mgmt 443 [0] :: s.out ∧ keptBut [.flds, .sec, .out, .ledger, .ledgerSeq, .mem, .marks, .accs, .rewritten] s t) ∧
      (leaseCount s.sec.ks ≠ 0 → ∃ t, exec c s = .next t ∧ t.sec.authOp = some op ∧ t.sec.ks.owner = s.sec.ks.owner ∧
        (∀ l ∈ t.sec.ks.leases, l.st ≠ 0 → ∃ e, l.endStep = some e ∧ e ≤ nextStep s) ∧ t.out = .mgmt 443 [0] :: s.out ∧ keptBut [.flds, .sec, .out] s t)) ∧
    (party = some .owner → s.sec.authOp ≠ none → no 0x23 0 (.transferOwnership sess key) ∧ no 0x23 0 (.releaseOwnership sess)) ∧
    (party = some .owner → s.sec.authOp = none → 16 ≤ s.sec.ks.ownerSlots → no 0x10 0x1B (.transferOwnership sess key)) ∧
    (party = some .owner ∨ party = some .service →
      (s.sec.nonce = none ∨ mio = false ∨ own = false ∨ s.sec.ks.owner = [] ∨ s.sec.ks.debugDisable = true ∨ s.sec.authOp ≠ none →
        ∃ t, exec (.debugUnlock sess mio own) s = .next t ∧ t.sec.nonce = none ∧ t.out = .mgmt 437 [0x23, 0] :: s.out ∧ keptBut [.flds, .sec, .out] s t) ∧
      (∃ t, exec (.debugChallenge sess) s = .next t ∧ t.sec.nonce = some (leBytes 32 (Config.nonce s.fresh).toNat) ∧ t.fresh = s.fresh + 1 ∧
        t.out = .mgmt 453 (leBytes 32 (Config.nonce s.fresh).toNat) :: s.out ∧ keptBut [.flds, .sec, .out, .fresh] s t)) ∧
    (party = some .owner →
      let did := fun (t : State) => t.sec.ks.owner = s.sec.ks.owner ∧ t.sec.ks.leases = s.sec.ks.leases ∧ t.out = .mgmt 443 [0] :: s.out ∧ keptBut [.flds, .sec, .out] s t
      (∃ t, exec (.setFwPolicy sess mv cs) s = .next t ∧ t.sec.ks.minVersion = (mv ++ [0, 0, 0, 0]).take 4 ∧ t.sec.ks.countersign = cs ∧
        getB t Reg.SEC_STATUS_COUNTERSIGN = cs ∧ did t) ∧
      (∃ t, exec (.setAppKey sess key) s = .next t ∧ t.sec.ks.app = key ∧ did t) ∧
      (∃ t, exec (.glitchAck sess) s = .next t ∧ t.sec.ks.glitchAck = 0 ∧ getF t Reg.SEC_GLITCH_SINCE_ACK = 0 ∧ getB t Reg.SEC_STATUS_GLITCH_LOCK = false ∧
        t.sec.ks.glitchTotal = s.sec.ks.glitchTotal ∧ did t) ∧
      (leaseCount s.sec.ks = 0 → ∃ t, exec (.selftestExtended sess) s = .next t ∧ t.sec.ks.armed = true ∧ did t) ∧
      (leaseCount s.sec.ks ≠ 0 → no 0x23 0 (.selftestExtended sess)) ∧
      (count = 0 ∨ 256 < count → no 0x23 0 (.ledgerRead sess first count)) ∧
      (0 < count → count ≤ 256 → ∃ t, exec (.ledgerRead sess first count) s = .next t ∧
        t.out = .mgmt 473 ((s.ledger.reverse.filter fun r => decide (first ≤ r.seq) && decide (r.seq < first + count)).flatMap recordBytes) :: s.out ∧
        keptBut [.flds, .sec, .out] s t) ∧
      ((∀ r ∈ s.sec.ks.reports, r.lease ≠ lease) → no 0x23 0 (.eraseReportRead sess lease)) ∧
      (∀ r, s.sec.ks.reports.find? (fun x => x.lease == lease) = some r → ∃ t, exec (.eraseReportRead sess lease) s = .next t ∧
        t.out = .mgmt 452 (eraseBytes r) :: s.out ∧ keptBut [.flds, .sec, .out] s t))

/-- R443, R445, R446, R450, R452. -/
def Obligations.LeasesAndBinding : Prop :=
  (∀ (s : State) (sess : Nat) (r : LeaseRecord), mgmtAlive s = true → sessionParty s sess ≠ none →
    let k := s.sec.ks
    let valid := 1 ≤ r.lease ∧ r.lease ≤ 0xFFFF ∧ r.reservedOk = true ∧ (r.serial = 0 ∨ r.serial = getF s Reg.ID_SERIAL) ∧
      (∀ x, alGet k.seqs r.lease = some x → x < r.seq)
    let owner := r.byOwner = true ∧ k.owner ≠ []
    let no := fun (st res : Nat) (c : Instr) => ∃ t, exec c s = .next t ∧ t.out = .mgmt 437 [st, res] :: s.out ∧ t.sec.ks.leases = k.leases ∧
      t.sec.ks.seqs = k.seqs ∧ keptBut [.flds, .sec, .out] s t
    let may := owner ∧ valid ∧ leaseEnt s r.lease = none ∧ getB s Reg.SEC_STATUS_DEBUG = false ∧ s.sec.authOp = none
    (¬ may → no 0x23 0 (.leaseAuthorise sess r)) ∧
    (may → s.boot.extended = true → no 0x10 0x1C (.leaseAuthorise sess r)) ∧
    (may → s.boot.extended = false → (∀ l ∈ k.leases, l.st ≠ 0) → no 0x10 0x1A (.leaseAuthorise sess r)) ∧
    (∀ n, may → s.boot.extended = false → k.leases.findIdx? (fun l => l.st == 0) = some n →
      ∃ t, exec (.leaseAuthorise sess r) s = .next t ∧ t.sec.ks.leases = k.leases.set n
          { st := 1, lease := r.lease, ide := r.ide, quota := r.quota, tenantPub := r.tenantPub, imagePub := r.imagePub, serial := r.serial } ∧
        t.sec.ks.seqs = alSet k.seqs r.lease r.seq ∧ (n < 16 → getF t (Reg.SEC_LEASE_STATE_SLOT n) = 1) ∧ t.out = .mgmt 443 [0] :: s.out ∧
        (s.ledger.length < 235929 → ∃ x, t.ledger = x :: s.ledger ∧ x.type = 0x07 ∧ x.seq = s.ledgerSeq) ∧
        keptBut [.flds, .sec, .out, .ledger, .ledgerSeq] s t) ∧
    (leaseEnt s r.lease = none → no 0x23 0 (.leaseQuota sess r) ∧ no 0x23 0 (.leaseEndRecord sess r)) ∧
    (∀ n l, leaseSlot s r.lease = some n → leaseEnt s r.lease = some l →
      let held := l.st = 1 ∨ l.st = 2
      let same := l.ide = r.ide ∧ l.serial = r.serial ∧ l.tenantPub = r.tenantPub ∧ l.imagePub = r.imagePub
      (¬ (owner ∧ valid ∧ held ∧ same) → no 0x23 0 (.leaseQuota sess r)) ∧
      (owner → valid → held → same → ∃ t, exec (.leaseQuota sess r) s = .next t ∧
        t.sec.ks.leases = k.leases.set n { l with nextQuota := some (r.quota, r.effective) } ∧ t.sec.ks.seqs = alSet k.seqs r.lease r.seq ∧
        t.out = .mgmt 443 [0] :: s.out ∧ keptBut [.flds, .sec, .out] s t) ∧
      (¬ ((owner ∨ r.byTenant = true) ∧ valid ∧ held) → no 0x23 0 (.leaseEndRecord sess r)) ∧
      (owner ∨ r.byTenant = true → valid → held → ∃ t, exec (.leaseEndRecord sess r) s = .next t ∧
        t.sec.ks.leases = k.leases.set n { l with endStep := some r.effective } ∧ t.sec.ks.seqs = alSet k.seqs r.lease r.seq ∧
        t.out = .mgmt 443 [0] :: s.out ∧ keptBut [.flds, .sec, .out] s t))) ∧
  (∀ (s : State) (sess : Nat) (r : LeaseRecord), mgmtAlive s = true → sessionParty s sess = none →
    ∀ c ∈ [Instr.leaseAuthorise sess r, .leaseQuota sess r, .leaseEndRecord sess r], exec c s = .next (emit s (.mgmt 437 [0x23, 0]))) ∧
  (∀ (s : State) (sess : Nat) (p : Port), mgmtAlive s = true →
    ((∀ n, sessionParty s sess ≠ some (.tenant n)) → ∀ c ∈ [Instr.installLeaseKey sess, .portBind sess p, .portUnbind sess p],
      exec c s = .next (emit s (.mgmt 437 [0x23, 0]))) ∧
    (∀ n l, sessionParty s sess = some (.tenant n) → s.sec.ks.leases[n]? = some l → n < 16 →
      (l.st ≠ 1 ∨ getB s Reg.SEC_STATUS_DEBUG = true → ∃ t, exec (.installLeaseKey sess) s = .next t ∧ t.out = .mgmt 437 [0x23, 0] :: s.out ∧
        t.sec.ks.leases = s.sec.ks.leases ∧ keptBut [.flds, .sec, .out] s t) ∧
      (l.st = 1 → getB s Reg.SEC_STATUS_DEBUG = false → s.boot.extended = false → ∃ t, exec (.installLeaseKey sess) s = .next t ∧
        t.sec.ks.leases = s.sec.ks.leases.set n { l with st := 2, keyed := true } ∧ getF t (Reg.SEC_LEASE_STATE_SLOT n) = 2 ∧
        t.out = .mgmt 443 [0] :: s.out ∧ keptBut [.flds, .sec, .out, .ledger, .ledgerSeq] s t) ∧
      (∀ on, ∃ t, exec (if on then .portBind sess p else .portUnbind sess p) s = .next t ∧ getBit t (bindFld p) n = on ∧
        (∀ m, m < 16 → m ≠ n → getBit t (bindFld p) m = getBit s (bindFld p) m) ∧ getF t (bindFld (otherPort p)) = getF s (bindFld (otherPort p)) ∧
        t.sec.ks.leases = s.sec.ks.leases ∧ t.out = .mgmt 443 [0] :: s.out ∧ keptBut [.flds, .sec, .out] s t))) ∧
  (∀ (s : State) (lease : Nat),
    (lease ∉ s.sec.ks.erasing → exec (.backgroundZeroiseDone lease) s = .next s) ∧
    (lease ∈ s.sec.ks.erasing → ∃ t, exec (.backgroundZeroiseDone lease) s = .next t ∧ t.sec.ks.erasing = s.sec.ks.erasing.filter (· != lease) ∧
      t.sec.ks.reports = (s.sec.ks.reports.map fun x => if x.lease = lease then { x with background := true } else x) ∧
      getB t Reg.SEC_STATUS_ERASING = !t.sec.ks.erasing.isEmpty ∧ t.sec.ks.leases = s.sec.ks.leases ∧ keptBut [.flds, .sec] s t))

/-- R472, R478 to R484, R487, R488. -/
def Obligations.CountersAndLedgerRecords : Prop :=
  (∀ (s : State) (p : Port) (on : Bool), stageAlive s = true → ∃ t, exec (.freeze p on) s = .next t ∧ getB t Reg.PMC_CTL_FREEZE = on ∧
    getB t Reg.PMC_CTL_FROZEN = on ∧
    (on = true ∨ getB s Reg.PMC_CTL_FROZEN = false → regsKept (oneOf [Reg.PMC_CTL_FREEZE, Reg.PMC_CTL_FROZEN]) s t ∧ keptBut [.flds] s t) ∧
    (on = false → getB s Reg.PMC_CTL_FROZEN = true → t.movesHeld = [] ∧
      regsKept (fun k => pmcKey k || oneOf [Reg.PMC_CTL_FREEZE, Reg.PMC_CTL_FROZEN] k) s t ∧ keptBut [.flds, .movesHeld] s t)) ∧
  (∀ (s : State) (p : Port) (time : Nat), stageAlive s = true →
    (getB s Reg.PMC_SNAP_STATUS_BUSY = true → exec (.snap p) s = .next (countEv 0xEEE 1 s)) ∧
    (getB s Reg.PMC_SNAP_STATUS_BUSY = false → ∃ t sn, exec (.snap p) s = .next t ∧ getB t Reg.PMC_SNAP_STATUS_BUSY = true ∧
      t.snp = { s.snp with run := some sn } ∧ sn.cause = 0 ∧ sn.frozen = getB s Reg.PMC_CTL_FROZEN ∧
      (∀ e, e < 4095 → (alGet sn.values e).getD 0 = getF s (Reg.PMC_COUNTER e) + 2 ^ 48 * b2n (getBit s (Reg.PMC_OVF (e / 32)) (e % 32)) +
        2 ^ 49 * b2n (getBit s (Reg.PMC_CHAIN (e / 32)) (e % 32))) ∧
      regsKept (oneOf [Reg.PMC_SNAP_STATUS_BUSY]) s t ∧ keptBut [.flds, .snp] s t) ∧
    (getF s Reg.PMC_SNAP_CTL_TRIG = 1 → s.snp.at0 + getF s Reg.PMC_SNAP_CTL_PERIOD ≤ time / 1000 → getB s Reg.PMC_SNAP_STATUS_BUSY = false →
      ∃ t sn, exec (.snapPeriod time) s = .next t ∧ getB t Reg.PMC_SNAP_STATUS_BUSY = true ∧
        t.snp = { s.snp with run := some sn, at0 := time / 1000 } ∧ sn.cause = 1 ∧ keptBut [.flds, .snp, .now] s t) ∧
    (getF s Reg.PMC_SNAP_CTL_TRIG = 2 → getF s Reg.PMC_SNAP_CTL_PERIOD ≤ s.snp.steps → getB s Reg.PMC_SNAP_STATUS_BUSY = false →
      ∃ t sn, exec (.snapPeriod time) s = .next t ∧ getB t Reg.PMC_SNAP_STATUS_BUSY = true ∧
        t.snp = { s.snp with run := some sn, steps := 0 } ∧ sn.cause = 2 ∧ keptBut [.flds, .snp, .now] s t) ∧
    (getF s Reg.PMC_SNAP_CTL_TRIG ≠ 1 → getF s Reg.PMC_SNAP_CTL_TRIG ≠ 2 → exec (.snapPeriod time) s = .next s)) ∧
  (∀ s : State,
    (s.snp.run = none → exec .snapshotDone s = .next s) ∧
    (∀ sn, s.snp.run = some sn → snapOk s = false → ∃ t, exec .snapshotDone s = .next t ∧ getB t Reg.PMC_SNAP_STATUS_BUSY = false ∧
      getF t Reg.PMC_SNAP_STATUS_STATUS = 0x23 ∧ t.snp = { s.snp with run := none } ∧ keptBut [.flds, .snp] s t) ∧
    (∀ sn, s.snp.run = some sn → snapOk s = true → sn.cause < 256 → getF s Reg.PMC_SNAP_RECORDS_RECORDS ≤ 256 →
      let k := getF s Reg.PMC_SNAP_STATUS_NEXT
      let a := snapBase s + 32832 * k
      ∃ t, exec .snapshotDone s = .next t ∧ getB t Reg.PMC_SNAP_STATUS_BUSY = false ∧ getF t Reg.PMC_SNAP_STATUS_STATUS = 0 ∧
        getF t Reg.PMC_SNAP_STATUS_NEXT = (k + 1) % getF s Reg.PMC_SNAP_RECORDS_RECORDS ∧ t.snp = { s.snp with run := none, seq := s.snp.seq + 1 } ∧
        rdBytes t a 32832 = snapBytes sn (s.snp.seq + 1) ∧ memKept (within a 32832) s t ∧
        regsKept (fun x => storeKey x || oneOf [Reg.PMC_SNAP_STATUS_BUSY, Reg.PMC_SNAP_STATUS_STATUS, Reg.PMC_SNAP_STATUS_NEXT] x) s t ∧
        keptBut [.flds, .snp, .mem, .marks] s t)) ∧
  (∀ (s : State) (p : Port) (v : BitVec 32) (slot : Fin 16), stageAlive s = true →
    (getB s Reg.PMC_LOCK_LOCK = true ∨ 256 < bitsAt v.toNat 0 9 → exec (.snapRecordsWrite p v) s = .next s) ∧
    (getB s Reg.PMC_LOCK_LOCK = false → bitsAt v.toNat 0 9 ≤ 256 → ∃ t, exec (.snapRecordsWrite p v) s = .next t ∧
      getF t Reg.PMC_SNAP_RECORDS_RECORDS = bitsAt v.toNat 0 9 ∧ getF t Reg.PMC_SNAP_STATUS_NEXT = 0 ∧
      regsKept (oneOf [Reg.PMC_SNAP_RECORDS_RECORDS, Reg.PMC_SNAP_STATUS_NEXT]) s t ∧ keptBut [.flds] s t) ∧
    (bitsAt v.toNat 0 24 < 256 → exec (.samplingEnable p v) s = .next s) ∧
    (256 ≤ bitsAt v.toNat 0 24 → ∃ t, exec (.samplingEnable p v) s = .next t ∧ getF t Reg.PMC_SMP_CTL_N = bitsAt v.toNat 0 24 ∧
      getB t Reg.PMC_SMP_CTL_EN = bit v.toNat 24 ∧
      (bit v.toNat 24 = true ∧ getB s Reg.PMC_SMP_CTL_EN = false → ∀ c, c < 192 → coreGet t c = { coreGet s c with smpCount := 0 }) ∧
      (bit v.toNat 24 = false ∨ getB s Reg.PMC_SMP_CTL_EN = true → t.cores = s.cores) ∧
      regsKept (oneOf [Reg.PMC_SMP_CTL_N, Reg.PMC_SMP_CTL_EN]) s t ∧ keptBut [.flds, .cores] s t) ∧
    (∃ t, exec (.pmcLayerWrite p slot v) s = .next t ∧ getF t (Reg.PMC_LAYER_LAYER slot) = bitsAt v.toNat 0 16 ∧
      getB t (Reg.PMC_LAYER_EN slot) = bit v.toNat 16 ∧ regsKept (oneOf [Reg.PMC_LAYER_LAYER slot, Reg.PMC_LAYER_EN slot]) s t ∧ keptBut [.flds] s t)) ∧
  (∀ (s : State) (e : Fin 4095) (past : Nat), getF s (Reg.PMC_COUNTER e) < 2 ^ 48 →
    (clocked s = false ∨ eventAssigned e = false ∨ counterStopped s e = true ∨ getB s Reg.PMC_CTL_FROZEN = true ∨ 0 < e.val ∧ chainBit s (e.val - 1) = true → exec (.counterWrap e past) s = .next s) ∧
    (clocked s = true → eventAssigned e = true → counterStopped s e = false → getB s Reg.PMC_CTL_FROZEN = false → e.val = 0 ∨ chainBit s (e.val - 1) = false →
      (chainBit s e = false → ∃ t, exec (.counterWrap e past) s = .next t ∧ getF t (Reg.PMC_COUNTER e) = past % 2 ^ 48 ∧
        getBit t (Reg.PMC_OVF (e.val / 32)) (e.val % 32) = true ∧ regsKept (oneOf [Reg.PMC_COUNTER e, Reg.PMC_OVF (e.val / 32)]) s t ∧ keptBut [.flds] s t) ∧
      (chainBit s e = true → past < 2 ^ 48 → getF s (Reg.PMC_COUNTER (e.val + 1)) + 1 < 2 ^ 48 → ∃ t, exec (.counterWrap e past) s = .next t ∧
        getF t (Reg.PMC_COUNTER e) = past ∧ getF t (Reg.PMC_COUNTER (e.val + 1)) = getF s (Reg.PMC_COUNTER (e.val + 1)) + 1 ∧
        regsKept (oneOf [Reg.PMC_COUNTER e, Reg.PMC_COUNTER (e.val + 1)]) s t ∧ keptBut [.flds] s t))) ∧
  (∀ (s : State) (time : Nat),
    (stageAlive s = false → s.boot.stage ≠ .safe → exec (.ledgerPowerRecord time) s = .next s ∧ exec (.ledgerIntegrityRecord time) s = .next s) ∧
    (stageAlive s = true ∨ s.boot.stage = .safe → s.ledger.length < 235929 →
      (∃ t x, exec (.ledgerPowerRecord time) s = .next t ∧ t.ledger = x :: s.ledger ∧ x.type = 1 ∧ x.seq = s.ledgerSeq ∧ t.ledgerSeq = s.ledgerSeq + 1 ∧
        x.body.head? = some (64, getF s Reg.PWR_ENERGY - s.pwr.energyLogged) ∧ t.pwr.energyLogged = getF s Reg.PWR_ENERGY ∧
        t.pwr.capSum = (0, 0) ∧ t.pwr.inletSum = (0, 0) ∧ regsKept pmcKey s t ∧ keptBut [.flds, .pwr, .now, .ledger, .ledgerSeq] s t) ∧
      (∃ t x, exec (.ledgerIntegrityRecord time) s = .next t ∧ t.ledger = x :: s.ledger ∧ x.type = 3 ∧ x.seq = s.ledgerSeq ∧ t.ledgerSeq = s.ledgerSeq + 1 ∧
        t.sec.integrity = integrityTotals s ∧ x.body = (List.zipWith (fun a b => (64, a - b)) (integrityTotals s) s.sec.integrity) ∧
        regsKept pmcKey s t ∧ keptBut [.flds, .sec, .now, .ledger, .ledgerSeq] s t)))
end

