-- ==== Sys2Proof/Laws/Sparse.lean ====
section
/-!
SUPPORT. Laws/Sparse.lean: reading after writing a sparse map or memory, and the canonical form that every memory operation
keeps.
-/
namespace Sys2Proof.Machine

variable {α : Type}

/-! ### Reading after writing -/

theorem mem_smErase {m : List (Nat × α)} {k : Nat} {p : Nat × α} : p ∈ smErase m k ↔ p ∈ m ∧ p.1 ≠ k := by
  induction m with
  | nil => simp [smErase]
  | cons h t ih =>
    obtain ⟨k', v⟩ := h
    by_cases e : k' = k
    · subst e
      simp only [smErase, if_true, ih, List.mem_cons]
      constructor
      · rintro ⟨a, b⟩; exact ⟨.inr a, b⟩
      · rintro ⟨rfl | a, b⟩
        · exact absurd rfl b
        · exact ⟨a, b⟩
    · simp only [smErase, e, if_false, List.mem_cons, ih]
      constructor
      · rintro (rfl | ⟨a, b⟩)
        · exact ⟨.inl rfl, e⟩
        · exact ⟨.inr a, b⟩
      · rintro ⟨rfl | a, b⟩
        · exact .inl rfl
        · exact .inr ⟨a, b⟩

theorem mem_smInsert {m : List (Nat × α)} {k : Nat} {v : α} {p : Nat × α} : p ∈ smInsert k v m ↔ p = (k, v) ∨ p ∈ m := by
  induction m with
  | nil => simp [smInsert]
  | cons h t ih =>
    obtain ⟨k', v'⟩ := h
    by_cases e : k < k'
    · simp [smInsert, e]
    · simp only [smInsert, e, if_false, List.mem_cons, ih]
      tauto

theorem smGet_of_not_mem {d : α} {m : List (Nat × α)} {k : Nat} (h : ∀ p ∈ m, p.1 ≠ k) : smGet d m k = d := by
  induction m with
  | nil => rfl
  | cons x t ih =>
    obtain ⟨k', v⟩ := x
    have e : k' ≠ k := h (k', v) (by simp)
    simp only [smGet, e, if_false]
    exact ih fun p hp => h p (by simp [hp])

theorem smGet_smErase_self {d : α} {m : List (Nat × α)} {k : Nat} : smGet d (smErase m k) k = d :=
  smGet_of_not_mem fun _ hp => (mem_smErase.mp hp).2

theorem smGet_smErase_ne {d : α} {m : List (Nat × α)} {k j : Nat} (h : j ≠ k) : smGet d (smErase m k) j = smGet d m j := by
  induction m with
  | nil => rfl
  | cons x t ih =>
    obtain ⟨k', v⟩ := x
    by_cases e : k' = k
    · subst e
      simp only [smErase, if_true, ih, smGet]
      rw [if_neg (Ne.symm h)]
    · simp only [smErase, e, if_false, smGet, ih]

theorem smGet_smInsert_self {d v : α} {m : List (Nat × α)} {k : Nat} (h : ∀ p ∈ m, p.1 ≠ k) :
    smGet d (smInsert k v m) k = v := by
  induction m with
  | nil => simp [smInsert, smGet]
  | cons x t ih =>
    obtain ⟨k', v'⟩ := x
    have e : k' ≠ k := h (k', v') (by simp)
    by_cases l : k < k'
    · simp [smInsert, l, smGet]
    · simp only [smInsert, l, if_false, smGet, e]
      exact ih fun p hp => h p (by simp [hp])

theorem smGet_smInsert_ne {d v : α} {m : List (Nat × α)} {k j : Nat} (h : j ≠ k) : smGet d (smInsert k v m) j = smGet d m j := by
  induction m with
  | nil => simp [smInsert, smGet, Ne.symm h]
  | cons x t ih =>
    obtain ⟨k', v'⟩ := x
    by_cases l : k < k'
    · simp [smInsert, l, smGet, Ne.symm h]
    · simp only [smInsert, l, if_false, smGet, ih]

variable [DecidableEq α]

@[simp] theorem smGet_smSet_self {d v : α} {m : List (Nat × α)} {k : Nat} : smGet d (smSet d m k v) k = v := by
  unfold smSet
  split
  · next h => rw [smGet_smErase_self, h]
  · exact smGet_smInsert_self fun _ hp => (mem_smErase.mp hp).2

theorem smGet_smSet_ne {d v : α} {m : List (Nat × α)} {k j : Nat} (h : j ≠ k) : smGet d (smSet d m k v) j = smGet d m j := by
  unfold smSet
  split
  · exact smGet_smErase_ne h
  · rw [smGet_smInsert_ne h, smGet_smErase_ne h]

/-- A read at any key after setting one. -/
theorem smGet_smSet {d v : α} {m : List (Nat × α)} {k j : Nat} :
    smGet d (smSet d m k v) j = if j = k then v else smGet d m j := by
  split
  · next h => subst h; exact smGet_smSet_self
  · next h => exact smGet_smSet_ne h

/-- Setting another map's default leaves reads at other keys with any default alone. -/
theorem smGet_smSet_other {d e v : α} {m : List (Nat × α)} {k j : Nat} (h : j ≠ k) : smGet e (smSet d m k v) j = smGet e m j := by
  unfold smSet
  split
  · exact smGet_smErase_ne h
  · rw [smGet_smInsert_ne h, smGet_smErase_ne h]

/-! ### The canonical form -/

omit [DecidableEq α] in
theorem smSorted_iff {m : List (Nat × α)} : smSorted m = true ↔ m.Pairwise fun p q => p.1 < q.1 := by
  induction m with
  | nil => simp [smSorted]
  | cons x t ih =>
    obtain ⟨k, v⟩ := x
    simp only [smSorted, Bool.and_eq_true, List.all_eq_true, decide_eq_true_eq, List.pairwise_cons, ih]

omit [DecidableEq α] in
theorem smErase_sublist {m : List (Nat × α)} {k : Nat} : (smErase m k).Sublist m := by
  induction m with
  | nil => simp [smErase]
  | cons x t ih =>
    obtain ⟨k', v⟩ := x
    simp only [smErase]
    split
    · exact ih.cons _
    · exact ih.cons_cons _

omit [DecidableEq α] in
theorem smSorted_sublist {m n : List (Nat × α)} (h : n.Sublist m) (s : smSorted m = true) : smSorted n = true :=
  smSorted_iff.mpr ((smSorted_iff.mp s).sublist h)

omit [DecidableEq α] in
theorem smSorted_smErase {m : List (Nat × α)} {k : Nat} (s : smSorted m = true) : smSorted (smErase m k) = true :=
  smSorted_sublist smErase_sublist s

omit [DecidableEq α] in
theorem smSorted_smInsert {m : List (Nat × α)} {k : Nat} {v : α} (s : smSorted m = true) (h : ∀ p ∈ m, p.1 ≠ k) :
    smSorted (smInsert k v m) = true := by
  rw [smSorted_iff] at *
  induction m with
  | nil => simp [smInsert]
  | cons x t ih =>
    obtain ⟨k', v'⟩ := x
    rw [List.pairwise_cons] at s
    by_cases l : k < k'
    · simp only [smInsert, l, if_true, List.pairwise_cons]
      refine ⟨?_, s.1, s.2⟩
      intro p hp
      rcases List.mem_cons.mp hp with rfl | hp
      · exact l
      · exact Nat.lt_trans l (s.1 p hp)
    · simp only [smInsert, l, if_false, List.pairwise_cons]
      refine ⟨?_, ih s.2 fun p hp => h p (by simp [hp])⟩
      intro p hp
      rcases mem_smInsert.mp hp with rfl | hp
      · have := h (k', v') (by simp)
        simp only at this
        show k' < k
        omega
      · exact s.1 p hp

theorem smSorted_smSet {d v : α} {m : List (Nat × α)} {k : Nat} (s : smSorted m = true) : smSorted (smSet d m k v) = true := by
  unfold smSet
  split
  · exact smSorted_smErase s
  · exact smSorted_smInsert (smSorted_smErase s) fun _ hp => (mem_smErase.mp hp).2

theorem smCanon_iff {d : α} {m : List (Nat × α)} : smCanon d m = true ↔ smSorted m = true ∧ ∀ p ∈ m, p.2 ≠ d := by
  simp [smCanon]

theorem smCanon_smSet {d v : α} {m : List (Nat × α)} {k : Nat} (h : smCanon d m = true) : smCanon d (smSet d m k v) = true := by
  rw [smCanon_iff] at *
  refine ⟨smSorted_smSet h.1, ?_⟩
  unfold smSet
  split
  · exact fun p hp => h.2 p (mem_smErase.mp hp).1
  · next e =>
    intro p hp
    rcases mem_smInsert.mp hp with rfl | hp
    · exact e
    · exact h.2 p (mem_smErase.mp hp).1

theorem smCanon_sublist {d : α} {m n : List (Nat × α)} (s : n.Sublist m) (h : smCanon d m = true) : smCanon d n = true := by
  rw [smCanon_iff] at *
  exact ⟨smSorted_sublist s h.1, fun p hp => h.2 p (s.subset hp)⟩

theorem smCanon_filter {d : α} {m : List (Nat × α)} {f : Nat × α → Bool} (h : smCanon d m = true) : smCanon d (m.filter f) = true :=
  smCanon_sublist List.filter_sublist h

/-! ### Memory -/

@[simp] theorem Memory.read_write_self {m : List Host.Cell} {a : Nat} {b : BitVec 8} : Memory.read (Memory.write m a b) a = b :=
  smGet_smSet_self

theorem Memory.read_write_ne {m : List Host.Cell} {a c : Nat} {b : BitVec 8} (h : c ≠ a) :
    Memory.read (Memory.write m a b) c = Memory.read m c := smGet_smSet_ne h

/-- A read after a run of bytes is written: the byte written there, or what was there before. -/
theorem Memory.read_writeBytes {m : List Host.Cell} {a c : Nat} {bs : List Nat} :
    Memory.read (Memory.writeBytes m a bs) c =
      if a ≤ c ∧ c < a + bs.length then BitVec.ofNat 8 (bs.getD (c - a) 0) else Memory.read m c := by
  induction bs generalizing m a with
  | nil => simp [Memory.writeBytes]
  | cons b t ih =>
    simp only [Memory.writeBytes, ih, List.length_cons]
    by_cases h1 : a + 1 ≤ c ∧ c < a + 1 + t.length
    · rw [if_pos h1, if_pos (by omega)]
      have e : c - a = c - (a + 1) + 1 := by omega
      rw [e, List.getD_cons_succ]
    · rw [if_neg h1]
      by_cases h2 : c = a
      · subst h2
        rw [if_pos (by omega), Memory.read_write_self]
        simp
      · rw [if_neg (by omega), Memory.read_write_ne h2]

theorem Memory.wf_write {m : List Host.Cell} {a : Nat} {b : BitVec 8} (h : Memory.wf m = true) :
    Memory.wf (Memory.write m a b) = true := smCanon_smSet h

theorem Memory.wf_writeBytes {m : List Host.Cell} {a : Nat} {bs : List Nat} (h : Memory.wf m = true) :
    Memory.wf (Memory.writeBytes m a bs) = true := by
  induction bs generalizing m a with
  | nil => exact h
  | cons b t ih => exact ih (Memory.wf_write h)

theorem Memory.wf_filter {m : List Host.Cell} {f : Host.Cell → Bool} (h : Memory.wf m = true) : Memory.wf (m.filter f) = true :=
  smCanon_filter h

theorem mem_blockCells {a : Nat} {bs : List Nat} {c : Host.Cell} (h : c ∈ blockCells a bs) :
    a ≤ c.1 ∧ c.1 < a + bs.length ∧ c.2 ≠ memDefault := by
  induction bs generalizing a with
  | nil => simp [blockCells] at h
  | cons b t ih =>
    simp only [blockCells] at h
    split at h
    · obtain ⟨h1, h2, h3⟩ := ih h
      rw [List.length_cons]
      exact ⟨by omega, by omega, h3⟩
    · next e =>
      rcases List.mem_cons.mp h with rfl | h
      · refine ⟨le_refl _, ?_, e⟩
        simp
      · obtain ⟨h1, h2, h3⟩ := ih h
        rw [List.length_cons]
        exact ⟨by omega, by omega, h3⟩

theorem blockCells_sorted {a : Nat} {bs : List Nat} : (blockCells a bs).Pairwise fun p q => p.1 < q.1 := by
  induction bs generalizing a with
  | nil => simp [blockCells]
  | cons b t ih =>
    simp only [blockCells]
    split
    · exact ih
    · rw [List.pairwise_cons]
      exact ⟨fun c hc => (mem_blockCells hc).1, ih⟩

theorem Memory.wf_putBlock {m : List Host.Cell} {a : Nat} {bs : List Nat} (h : Memory.wf m = true) :
    Memory.wf (Memory.putBlock m a bs) = true := by
  unfold Memory.wf at *
  rw [smCanon_iff] at *
  obtain ⟨h1, h2⟩ := h
  rw [smSorted_iff] at h1
  refine ⟨smSorted_iff.mpr ?_, ?_⟩
  · unfold Memory.putBlock
    rw [List.pairwise_append, List.pairwise_append]
    refine ⟨⟨h1.sublist List.filter_sublist, blockCells_sorted, ?_⟩, h1.sublist List.filter_sublist, ?_⟩
    · intro p hp q hq
      have := (mem_blockCells hq).1
      simp only [List.mem_filter, decide_eq_true_eq] at hp
      omega
    · intro p hp q hq
      simp only [List.mem_append, List.mem_filter, decide_eq_true_eq] at hp hq
      rcases hp with hp | hp
      · omega
      · have := (mem_blockCells hp).2.1
        omega
  · intro p hp
    simp only [Memory.putBlock, List.mem_append, List.mem_filter] at hp
    rcases hp with (hp | hp) | hp
    · exact h2 p hp.1
    · exact (mem_blockCells hp).2.2
    · exact h2 p hp.1

end Sys2Proof.Machine
end

