-- ==== Sys2Proof/Laws/State.lean ====
section
/-!
SUPPORT. Laws/State.lean: one lemma per field of State per update of the shared operations, so that no later proof unfolds a
record update.
-/
namespace Sys2Proof.Machine

/-! ### setP -/

@[simp] theorem setP_latchA (s : State) (p : Port) (f : Fld) (v : Nat) : (setP s p f v).latchA = s.latchA := rfl
@[simp] theorem setP_latchB (s : State) (p : Port) (f : Fld) (v : Nat) : (setP s p f v).latchB = s.latchB := rfl
@[simp] theorem setP_mem (s : State) (p : Port) (f : Fld) (v : Nat) : (setP s p f v).mem = s.mem := rfl
@[simp] theorem setP_marks (s : State) (p : Port) (f : Fld) (v : Nat) : (setP s p f v).marks = s.marks := rfl
@[simp] theorem setP_accs (s : State) (p : Port) (f : Fld) (v : Nat) : (setP s p f v).accs = s.accs := rfl
@[simp] theorem setP_cores (s : State) (p : Port) (f : Fld) (v : Nat) : (setP s p f v).cores = s.cores := rfl
@[simp] theorem setP_engQ (s : State) (p : Port) (f : Fld) (v : Nat) : (setP s p f v).engQ = s.engQ := rfl
@[simp] theorem setP_sashQ (s : State) (p : Port) (f : Fld) (v : Nat) : (setP s p f v).sashQ = s.sashQ := rfl
@[simp] theorem setP_rr (s : State) (p : Port) (f : Fld) (v : Nat) : (setP s p f v).rr = s.rr := rfl
@[simp] theorem setP_barriers (s : State) (p : Port) (f : Fld) (v : Nat) : (setP s p f v).barriers = s.barriers := rfl
@[simp] theorem setP_portion (s : State) (p : Port) (f : Fld) (v : Nat) : (setP s p f v).portion = s.portion := rfl
@[simp] theorem setP_suspended (s : State) (p : Port) (f : Fld) (v : Nat) : (setP s p f v).suspended = s.suspended := rfl
@[simp] theorem setP_finals (s : State) (p : Port) (f : Fld) (v : Nat) : (setP s p f v).finals = s.finals := rfl
@[simp] theorem setP_inbox (s : State) (p : Port) (f : Fld) (v : Nat) : (setP s p f v).inbox = s.inbox := rfl
@[simp] theorem setP_lastStep (s : State) (p : Port) (f : Fld) (v : Nat) : (setP s p f v).lastStep = s.lastStep := rfl
@[simp] theorem setP_experts (s : State) (p : Port) (f : Fld) (v : Nat) : (setP s p f v).experts = s.experts := rfl
@[simp] theorem setP_boundaries (s : State) (p : Port) (f : Fld) (v : Nat) : (setP s p f v).boundaries = s.boundaries := rfl
@[simp] theorem setP_extents (s : State) (p : Port) (f : Fld) (v : Nat) : (setP s p f v).extents = s.extents := rfl
@[simp] theorem setP_ctxs (s : State) (p : Port) (f : Fld) (v : Nat) : (setP s p f v).ctxs = s.ctxs := rfl
@[simp] theorem setP_pages (s : State) (p : Port) (f : Fld) (v : Nat) : (setP s p f v).pages = s.pages := rfl
@[simp] theorem setP_prefs (s : State) (p : Port) (f : Fld) (v : Nat) : (setP s p f v).prefs = s.prefs := rfl
@[simp] theorem setP_prefSeq (s : State) (p : Port) (f : Fld) (v : Nat) : (setP s p f v).prefSeq = s.prefSeq := rfl
@[simp] theorem setP_clients (s : State) (p : Port) (f : Fld) (v : Nat) : (setP s p f v).clients = s.clients := rfl
@[simp] theorem setP_cplHeld (s : State) (p : Port) (f : Fld) (v : Nat) : (setP s p f v).cplHeld = s.cplHeld := rfl
@[simp] theorem setP_layerSlots (s : State) (p : Port) (f : Fld) (v : Nat) : (setP s p f v).layerSlots = s.layerSlots := rfl
@[simp] theorem setP_ringRecs (s : State) (p : Port) (f : Fld) (v : Nat) : (setP s p f v).ringRecs = s.ringRecs := rfl
@[simp] theorem setP_now (s : State) (p : Port) (f : Fld) (v : Nat) : (setP s p f v).now = s.now := rfl
@[simp] theorem setP_refetch (s : State) (p : Port) (f : Fld) (v : Nat) : (setP s p f v).refetch = s.refetch := rfl
@[simp] theorem setP_hardFails (s : State) (p : Port) (f : Fld) (v : Nat) : (setP s p f v).hardFails = s.hardFails := rfl
@[simp] theorem setP_rewritten (s : State) (p : Port) (f : Fld) (v : Nat) : (setP s p f v).rewritten = s.rewritten := rfl
@[simp] theorem setP_ready (s : State) (p : Port) (f : Fld) (v : Nat) : (setP s p f v).ready = s.ready := rfl
@[simp] theorem setP_cardSerial (s : State) (p : Port) (f : Fld) (v : Nat) : (setP s p f v).cardSerial = s.cardSerial := rfl
@[simp] theorem setP_cardSeated (s : State) (p : Port) (f : Fld) (v : Nat) : (setP s p f v).cardSeated = s.cardSeated := rfl
@[simp] theorem setP_blockReads (s : State) (p : Port) (f : Fld) (v : Nat) : (setP s p f v).blockReads = s.blockReads := rfl
@[simp] theorem setP_holdoffA (s : State) (p : Port) (f : Fld) (v : Nat) : (setP s p f v).holdoffA = s.holdoffA := rfl
@[simp] theorem setP_holdoffB (s : State) (p : Port) (f : Fld) (v : Nat) : (setP s p f v).holdoffB = s.holdoffB := rfl
@[simp] theorem setP_deferA (s : State) (p : Port) (f : Fld) (v : Nat) : (setP s p f v).deferA = s.deferA := rfl
@[simp] theorem setP_deferB (s : State) (p : Port) (f : Fld) (v : Nat) : (setP s p f v).deferB = s.deferB := rfl
@[simp] theorem setP_nvFault (s : State) (p : Port) (f : Fld) (v : Nat) : (setP s p f v).nvFault = s.nvFault := rfl
@[simp] theorem setP_vflashLatched (s : State) (p : Port) (f : Fld) (v : Nat) : (setP s p f v).vflashLatched = s.vflashLatched := rfl
@[simp] theorem setP_residueTimes (s : State) (p : Port) (f : Fld) (v : Nat) : (setP s p f v).residueTimes = s.residueTimes := rfl
@[simp] theorem setP_ledger (s : State) (p : Port) (f : Fld) (v : Nat) : (setP s p f v).ledger = s.ledger := rfl
@[simp] theorem setP_ledgerSeq (s : State) (p : Port) (f : Fld) (v : Nat) : (setP s p f v).ledgerSeq = s.ledgerSeq := rfl
@[simp] theorem setP_movesHeld (s : State) (p : Port) (f : Fld) (v : Nat) : (setP s p f v).movesHeld = s.movesHeld := rfl
@[simp] theorem setP_img (s : State) (p : Port) (f : Fld) (v : Nat) : (setP s p f v).img = s.img := rfl
@[simp] theorem setP_clk (s : State) (p : Port) (f : Fld) (v : Nat) : (setP s p f v).clk = s.clk := rfl
@[simp] theorem setP_pwr (s : State) (p : Port) (f : Fld) (v : Nat) : (setP s p f v).pwr = s.pwr := rfl
@[simp] theorem setP_boot (s : State) (p : Port) (f : Fld) (v : Nat) : (setP s p f v).boot = s.boot := rfl
@[simp] theorem setP_sec (s : State) (p : Port) (f : Fld) (v : Nat) : (setP s p f v).sec = s.sec := rfl
@[simp] theorem setP_wts (s : State) (p : Port) (f : Fld) (v : Nat) : (setP s p f v).wts = s.wts := rfl
@[simp] theorem setP_ctl (s : State) (p : Port) (f : Fld) (v : Nat) : (setP s p f v).ctl = s.ctl := rfl
@[simp] theorem setP_fab (s : State) (p : Port) (f : Fld) (v : Nat) : (setP s p f v).fab = s.fab := rfl
@[simp] theorem setP_mesh (s : State) (p : Port) (f : Fld) (v : Nat) : (setP s p f v).mesh = s.mesh := rfl
@[simp] theorem setP_snp (s : State) (p : Port) (f : Fld) (v : Nat) : (setP s p f v).snp = s.snp := rfl
@[simp] theorem setP_fresh (s : State) (p : Port) (f : Fld) (v : Nat) : (setP s p f v).fresh = s.fresh := rfl
@[simp] theorem setP_out (s : State) (p : Port) (f : Fld) (v : Nat) : (setP s p f v).out = s.out := rfl
@[simp] theorem setP_pending (s : State) (p : Port) (f : Fld) (v : Nat) : (setP s p f v).pending = s.pending := rfl

/-! ### setF -/

@[simp] theorem setF_latchA (s : State) (f : Fld) (v : Nat) : (setF s f v).latchA = s.latchA := rfl
@[simp] theorem setF_latchB (s : State) (f : Fld) (v : Nat) : (setF s f v).latchB = s.latchB := rfl
@[simp] theorem setF_mem (s : State) (f : Fld) (v : Nat) : (setF s f v).mem = s.mem := rfl
@[simp] theorem setF_marks (s : State) (f : Fld) (v : Nat) : (setF s f v).marks = s.marks := rfl
@[simp] theorem setF_accs (s : State) (f : Fld) (v : Nat) : (setF s f v).accs = s.accs := rfl
@[simp] theorem setF_cores (s : State) (f : Fld) (v : Nat) : (setF s f v).cores = s.cores := rfl
@[simp] theorem setF_engQ (s : State) (f : Fld) (v : Nat) : (setF s f v).engQ = s.engQ := rfl
@[simp] theorem setF_sashQ (s : State) (f : Fld) (v : Nat) : (setF s f v).sashQ = s.sashQ := rfl
@[simp] theorem setF_rr (s : State) (f : Fld) (v : Nat) : (setF s f v).rr = s.rr := rfl
@[simp] theorem setF_barriers (s : State) (f : Fld) (v : Nat) : (setF s f v).barriers = s.barriers := rfl
@[simp] theorem setF_portion (s : State) (f : Fld) (v : Nat) : (setF s f v).portion = s.portion := rfl
@[simp] theorem setF_suspended (s : State) (f : Fld) (v : Nat) : (setF s f v).suspended = s.suspended := rfl
@[simp] theorem setF_finals (s : State) (f : Fld) (v : Nat) : (setF s f v).finals = s.finals := rfl
@[simp] theorem setF_inbox (s : State) (f : Fld) (v : Nat) : (setF s f v).inbox = s.inbox := rfl
@[simp] theorem setF_lastStep (s : State) (f : Fld) (v : Nat) : (setF s f v).lastStep = s.lastStep := rfl
@[simp] theorem setF_experts (s : State) (f : Fld) (v : Nat) : (setF s f v).experts = s.experts := rfl
@[simp] theorem setF_boundaries (s : State) (f : Fld) (v : Nat) : (setF s f v).boundaries = s.boundaries := rfl
@[simp] theorem setF_extents (s : State) (f : Fld) (v : Nat) : (setF s f v).extents = s.extents := rfl
@[simp] theorem setF_ctxs (s : State) (f : Fld) (v : Nat) : (setF s f v).ctxs = s.ctxs := rfl
@[simp] theorem setF_pages (s : State) (f : Fld) (v : Nat) : (setF s f v).pages = s.pages := rfl
@[simp] theorem setF_prefs (s : State) (f : Fld) (v : Nat) : (setF s f v).prefs = s.prefs := rfl
@[simp] theorem setF_prefSeq (s : State) (f : Fld) (v : Nat) : (setF s f v).prefSeq = s.prefSeq := rfl
@[simp] theorem setF_clients (s : State) (f : Fld) (v : Nat) : (setF s f v).clients = s.clients := rfl
@[simp] theorem setF_cplHeld (s : State) (f : Fld) (v : Nat) : (setF s f v).cplHeld = s.cplHeld := rfl
@[simp] theorem setF_layerSlots (s : State) (f : Fld) (v : Nat) : (setF s f v).layerSlots = s.layerSlots := rfl
@[simp] theorem setF_ringRecs (s : State) (f : Fld) (v : Nat) : (setF s f v).ringRecs = s.ringRecs := rfl
@[simp] theorem setF_now (s : State) (f : Fld) (v : Nat) : (setF s f v).now = s.now := rfl
@[simp] theorem setF_refetch (s : State) (f : Fld) (v : Nat) : (setF s f v).refetch = s.refetch := rfl
@[simp] theorem setF_hardFails (s : State) (f : Fld) (v : Nat) : (setF s f v).hardFails = s.hardFails := rfl
@[simp] theorem setF_rewritten (s : State) (f : Fld) (v : Nat) : (setF s f v).rewritten = s.rewritten := rfl
@[simp] theorem setF_ready (s : State) (f : Fld) (v : Nat) : (setF s f v).ready = s.ready := rfl
@[simp] theorem setF_cardSerial (s : State) (f : Fld) (v : Nat) : (setF s f v).cardSerial = s.cardSerial := rfl
@[simp] theorem setF_cardSeated (s : State) (f : Fld) (v : Nat) : (setF s f v).cardSeated = s.cardSeated := rfl
@[simp] theorem setF_blockReads (s : State) (f : Fld) (v : Nat) : (setF s f v).blockReads = s.blockReads := rfl
@[simp] theorem setF_holdoffA (s : State) (f : Fld) (v : Nat) : (setF s f v).holdoffA = s.holdoffA := rfl
@[simp] theorem setF_holdoffB (s : State) (f : Fld) (v : Nat) : (setF s f v).holdoffB = s.holdoffB := rfl
@[simp] theorem setF_deferA (s : State) (f : Fld) (v : Nat) : (setF s f v).deferA = s.deferA := rfl
@[simp] theorem setF_deferB (s : State) (f : Fld) (v : Nat) : (setF s f v).deferB = s.deferB := rfl
@[simp] theorem setF_nvFault (s : State) (f : Fld) (v : Nat) : (setF s f v).nvFault = s.nvFault := rfl
@[simp] theorem setF_vflashLatched (s : State) (f : Fld) (v : Nat) : (setF s f v).vflashLatched = s.vflashLatched := rfl
@[simp] theorem setF_residueTimes (s : State) (f : Fld) (v : Nat) : (setF s f v).residueTimes = s.residueTimes := rfl
@[simp] theorem setF_ledger (s : State) (f : Fld) (v : Nat) : (setF s f v).ledger = s.ledger := rfl
@[simp] theorem setF_ledgerSeq (s : State) (f : Fld) (v : Nat) : (setF s f v).ledgerSeq = s.ledgerSeq := rfl
@[simp] theorem setF_movesHeld (s : State) (f : Fld) (v : Nat) : (setF s f v).movesHeld = s.movesHeld := rfl
@[simp] theorem setF_img (s : State) (f : Fld) (v : Nat) : (setF s f v).img = s.img := rfl
@[simp] theorem setF_clk (s : State) (f : Fld) (v : Nat) : (setF s f v).clk = s.clk := rfl
@[simp] theorem setF_pwr (s : State) (f : Fld) (v : Nat) : (setF s f v).pwr = s.pwr := rfl
@[simp] theorem setF_boot (s : State) (f : Fld) (v : Nat) : (setF s f v).boot = s.boot := rfl
@[simp] theorem setF_sec (s : State) (f : Fld) (v : Nat) : (setF s f v).sec = s.sec := rfl
@[simp] theorem setF_wts (s : State) (f : Fld) (v : Nat) : (setF s f v).wts = s.wts := rfl
@[simp] theorem setF_ctl (s : State) (f : Fld) (v : Nat) : (setF s f v).ctl = s.ctl := rfl
@[simp] theorem setF_fab (s : State) (f : Fld) (v : Nat) : (setF s f v).fab = s.fab := rfl
@[simp] theorem setF_mesh (s : State) (f : Fld) (v : Nat) : (setF s f v).mesh = s.mesh := rfl
@[simp] theorem setF_snp (s : State) (f : Fld) (v : Nat) : (setF s f v).snp = s.snp := rfl
@[simp] theorem setF_fresh (s : State) (f : Fld) (v : Nat) : (setF s f v).fresh = s.fresh := rfl
@[simp] theorem setF_out (s : State) (f : Fld) (v : Nat) : (setF s f v).out = s.out := rfl
@[simp] theorem setF_pending (s : State) (f : Fld) (v : Nat) : (setF s f v).pending = s.pending := rfl

/-! ### setB -/

@[simp] theorem setB_latchA (s : State) (f : Fld) (b : Bool) : (setB s f b).latchA = s.latchA := rfl
@[simp] theorem setB_latchB (s : State) (f : Fld) (b : Bool) : (setB s f b).latchB = s.latchB := rfl
@[simp] theorem setB_mem (s : State) (f : Fld) (b : Bool) : (setB s f b).mem = s.mem := rfl
@[simp] theorem setB_marks (s : State) (f : Fld) (b : Bool) : (setB s f b).marks = s.marks := rfl
@[simp] theorem setB_accs (s : State) (f : Fld) (b : Bool) : (setB s f b).accs = s.accs := rfl
@[simp] theorem setB_cores (s : State) (f : Fld) (b : Bool) : (setB s f b).cores = s.cores := rfl
@[simp] theorem setB_engQ (s : State) (f : Fld) (b : Bool) : (setB s f b).engQ = s.engQ := rfl
@[simp] theorem setB_sashQ (s : State) (f : Fld) (b : Bool) : (setB s f b).sashQ = s.sashQ := rfl
@[simp] theorem setB_rr (s : State) (f : Fld) (b : Bool) : (setB s f b).rr = s.rr := rfl
@[simp] theorem setB_barriers (s : State) (f : Fld) (b : Bool) : (setB s f b).barriers = s.barriers := rfl
@[simp] theorem setB_portion (s : State) (f : Fld) (b : Bool) : (setB s f b).portion = s.portion := rfl
@[simp] theorem setB_suspended (s : State) (f : Fld) (b : Bool) : (setB s f b).suspended = s.suspended := rfl
@[simp] theorem setB_finals (s : State) (f : Fld) (b : Bool) : (setB s f b).finals = s.finals := rfl
@[simp] theorem setB_inbox (s : State) (f : Fld) (b : Bool) : (setB s f b).inbox = s.inbox := rfl
@[simp] theorem setB_lastStep (s : State) (f : Fld) (b : Bool) : (setB s f b).lastStep = s.lastStep := rfl
@[simp] theorem setB_experts (s : State) (f : Fld) (b : Bool) : (setB s f b).experts = s.experts := rfl
@[simp] theorem setB_boundaries (s : State) (f : Fld) (b : Bool) : (setB s f b).boundaries = s.boundaries := rfl
@[simp] theorem setB_extents (s : State) (f : Fld) (b : Bool) : (setB s f b).extents = s.extents := rfl
@[simp] theorem setB_ctxs (s : State) (f : Fld) (b : Bool) : (setB s f b).ctxs = s.ctxs := rfl
@[simp] theorem setB_pages (s : State) (f : Fld) (b : Bool) : (setB s f b).pages = s.pages := rfl
@[simp] theorem setB_prefs (s : State) (f : Fld) (b : Bool) : (setB s f b).prefs = s.prefs := rfl
@[simp] theorem setB_prefSeq (s : State) (f : Fld) (b : Bool) : (setB s f b).prefSeq = s.prefSeq := rfl
@[simp] theorem setB_clients (s : State) (f : Fld) (b : Bool) : (setB s f b).clients = s.clients := rfl
@[simp] theorem setB_cplHeld (s : State) (f : Fld) (b : Bool) : (setB s f b).cplHeld = s.cplHeld := rfl
@[simp] theorem setB_layerSlots (s : State) (f : Fld) (b : Bool) : (setB s f b).layerSlots = s.layerSlots := rfl
@[simp] theorem setB_ringRecs (s : State) (f : Fld) (b : Bool) : (setB s f b).ringRecs = s.ringRecs := rfl
@[simp] theorem setB_now (s : State) (f : Fld) (b : Bool) : (setB s f b).now = s.now := rfl
@[simp] theorem setB_refetch (s : State) (f : Fld) (b : Bool) : (setB s f b).refetch = s.refetch := rfl
@[simp] theorem setB_hardFails (s : State) (f : Fld) (b : Bool) : (setB s f b).hardFails = s.hardFails := rfl
@[simp] theorem setB_rewritten (s : State) (f : Fld) (b : Bool) : (setB s f b).rewritten = s.rewritten := rfl
@[simp] theorem setB_ready (s : State) (f : Fld) (b : Bool) : (setB s f b).ready = s.ready := rfl
@[simp] theorem setB_cardSerial (s : State) (f : Fld) (b : Bool) : (setB s f b).cardSerial = s.cardSerial := rfl
@[simp] theorem setB_cardSeated (s : State) (f : Fld) (b : Bool) : (setB s f b).cardSeated = s.cardSeated := rfl
@[simp] theorem setB_blockReads (s : State) (f : Fld) (b : Bool) : (setB s f b).blockReads = s.blockReads := rfl
@[simp] theorem setB_holdoffA (s : State) (f : Fld) (b : Bool) : (setB s f b).holdoffA = s.holdoffA := rfl
@[simp] theorem setB_holdoffB (s : State) (f : Fld) (b : Bool) : (setB s f b).holdoffB = s.holdoffB := rfl
@[simp] theorem setB_deferA (s : State) (f : Fld) (b : Bool) : (setB s f b).deferA = s.deferA := rfl
@[simp] theorem setB_deferB (s : State) (f : Fld) (b : Bool) : (setB s f b).deferB = s.deferB := rfl
@[simp] theorem setB_nvFault (s : State) (f : Fld) (b : Bool) : (setB s f b).nvFault = s.nvFault := rfl
@[simp] theorem setB_vflashLatched (s : State) (f : Fld) (b : Bool) : (setB s f b).vflashLatched = s.vflashLatched := rfl
@[simp] theorem setB_residueTimes (s : State) (f : Fld) (b : Bool) : (setB s f b).residueTimes = s.residueTimes := rfl
@[simp] theorem setB_ledger (s : State) (f : Fld) (b : Bool) : (setB s f b).ledger = s.ledger := rfl
@[simp] theorem setB_ledgerSeq (s : State) (f : Fld) (b : Bool) : (setB s f b).ledgerSeq = s.ledgerSeq := rfl
@[simp] theorem setB_movesHeld (s : State) (f : Fld) (b : Bool) : (setB s f b).movesHeld = s.movesHeld := rfl
@[simp] theorem setB_img (s : State) (f : Fld) (b : Bool) : (setB s f b).img = s.img := rfl
@[simp] theorem setB_clk (s : State) (f : Fld) (b : Bool) : (setB s f b).clk = s.clk := rfl
@[simp] theorem setB_pwr (s : State) (f : Fld) (b : Bool) : (setB s f b).pwr = s.pwr := rfl
@[simp] theorem setB_boot (s : State) (f : Fld) (b : Bool) : (setB s f b).boot = s.boot := rfl
@[simp] theorem setB_sec (s : State) (f : Fld) (b : Bool) : (setB s f b).sec = s.sec := rfl
@[simp] theorem setB_wts (s : State) (f : Fld) (b : Bool) : (setB s f b).wts = s.wts := rfl
@[simp] theorem setB_ctl (s : State) (f : Fld) (b : Bool) : (setB s f b).ctl = s.ctl := rfl
@[simp] theorem setB_fab (s : State) (f : Fld) (b : Bool) : (setB s f b).fab = s.fab := rfl
@[simp] theorem setB_mesh (s : State) (f : Fld) (b : Bool) : (setB s f b).mesh = s.mesh := rfl
@[simp] theorem setB_snp (s : State) (f : Fld) (b : Bool) : (setB s f b).snp = s.snp := rfl
@[simp] theorem setB_fresh (s : State) (f : Fld) (b : Bool) : (setB s f b).fresh = s.fresh := rfl
@[simp] theorem setB_out (s : State) (f : Fld) (b : Bool) : (setB s f b).out = s.out := rfl
@[simp] theorem setB_pending (s : State) (f : Fld) (b : Bool) : (setB s f b).pending = s.pending := rfl

/-! ### setBit -/

@[simp] theorem setBit_latchA (s : State) (f : Fld) (k : Nat) (b : Bool) : (setBit s f k b).latchA = s.latchA := rfl
@[simp] theorem setBit_latchB (s : State) (f : Fld) (k : Nat) (b : Bool) : (setBit s f k b).latchB = s.latchB := rfl
@[simp] theorem setBit_mem (s : State) (f : Fld) (k : Nat) (b : Bool) : (setBit s f k b).mem = s.mem := rfl
@[simp] theorem setBit_marks (s : State) (f : Fld) (k : Nat) (b : Bool) : (setBit s f k b).marks = s.marks := rfl
@[simp] theorem setBit_accs (s : State) (f : Fld) (k : Nat) (b : Bool) : (setBit s f k b).accs = s.accs := rfl
@[simp] theorem setBit_cores (s : State) (f : Fld) (k : Nat) (b : Bool) : (setBit s f k b).cores = s.cores := rfl
@[simp] theorem setBit_engQ (s : State) (f : Fld) (k : Nat) (b : Bool) : (setBit s f k b).engQ = s.engQ := rfl
@[simp] theorem setBit_sashQ (s : State) (f : Fld) (k : Nat) (b : Bool) : (setBit s f k b).sashQ = s.sashQ := rfl
@[simp] theorem setBit_rr (s : State) (f : Fld) (k : Nat) (b : Bool) : (setBit s f k b).rr = s.rr := rfl
@[simp] theorem setBit_barriers (s : State) (f : Fld) (k : Nat) (b : Bool) : (setBit s f k b).barriers = s.barriers := rfl
@[simp] theorem setBit_portion (s : State) (f : Fld) (k : Nat) (b : Bool) : (setBit s f k b).portion = s.portion := rfl
@[simp] theorem setBit_suspended (s : State) (f : Fld) (k : Nat) (b : Bool) : (setBit s f k b).suspended = s.suspended := rfl
@[simp] theorem setBit_finals (s : State) (f : Fld) (k : Nat) (b : Bool) : (setBit s f k b).finals = s.finals := rfl
@[simp] theorem setBit_inbox (s : State) (f : Fld) (k : Nat) (b : Bool) : (setBit s f k b).inbox = s.inbox := rfl
@[simp] theorem setBit_lastStep (s : State) (f : Fld) (k : Nat) (b : Bool) : (setBit s f k b).lastStep = s.lastStep := rfl
@[simp] theorem setBit_experts (s : State) (f : Fld) (k : Nat) (b : Bool) : (setBit s f k b).experts = s.experts := rfl
@[simp] theorem setBit_boundaries (s : State) (f : Fld) (k : Nat) (b : Bool) : (setBit s f k b).boundaries = s.boundaries := rfl
@[simp] theorem setBit_extents (s : State) (f : Fld) (k : Nat) (b : Bool) : (setBit s f k b).extents = s.extents := rfl
@[simp] theorem setBit_ctxs (s : State) (f : Fld) (k : Nat) (b : Bool) : (setBit s f k b).ctxs = s.ctxs := rfl
@[simp] theorem setBit_pages (s : State) (f : Fld) (k : Nat) (b : Bool) : (setBit s f k b).pages = s.pages := rfl
@[simp] theorem setBit_prefs (s : State) (f : Fld) (k : Nat) (b : Bool) : (setBit s f k b).prefs = s.prefs := rfl
@[simp] theorem setBit_prefSeq (s : State) (f : Fld) (k : Nat) (b : Bool) : (setBit s f k b).prefSeq = s.prefSeq := rfl
@[simp] theorem setBit_clients (s : State) (f : Fld) (k : Nat) (b : Bool) : (setBit s f k b).clients = s.clients := rfl
@[simp] theorem setBit_cplHeld (s : State) (f : Fld) (k : Nat) (b : Bool) : (setBit s f k b).cplHeld = s.cplHeld := rfl
@[simp] theorem setBit_layerSlots (s : State) (f : Fld) (k : Nat) (b : Bool) : (setBit s f k b).layerSlots = s.layerSlots := rfl
@[simp] theorem setBit_ringRecs (s : State) (f : Fld) (k : Nat) (b : Bool) : (setBit s f k b).ringRecs = s.ringRecs := rfl
@[simp] theorem setBit_now (s : State) (f : Fld) (k : Nat) (b : Bool) : (setBit s f k b).now = s.now := rfl
@[simp] theorem setBit_refetch (s : State) (f : Fld) (k : Nat) (b : Bool) : (setBit s f k b).refetch = s.refetch := rfl
@[simp] theorem setBit_hardFails (s : State) (f : Fld) (k : Nat) (b : Bool) : (setBit s f k b).hardFails = s.hardFails := rfl
@[simp] theorem setBit_rewritten (s : State) (f : Fld) (k : Nat) (b : Bool) : (setBit s f k b).rewritten = s.rewritten := rfl
@[simp] theorem setBit_ready (s : State) (f : Fld) (k : Nat) (b : Bool) : (setBit s f k b).ready = s.ready := rfl
@[simp] theorem setBit_cardSerial (s : State) (f : Fld) (k : Nat) (b : Bool) : (setBit s f k b).cardSerial = s.cardSerial := rfl
@[simp] theorem setBit_cardSeated (s : State) (f : Fld) (k : Nat) (b : Bool) : (setBit s f k b).cardSeated = s.cardSeated := rfl
@[simp] theorem setBit_blockReads (s : State) (f : Fld) (k : Nat) (b : Bool) : (setBit s f k b).blockReads = s.blockReads := rfl
@[simp] theorem setBit_holdoffA (s : State) (f : Fld) (k : Nat) (b : Bool) : (setBit s f k b).holdoffA = s.holdoffA := rfl
@[simp] theorem setBit_holdoffB (s : State) (f : Fld) (k : Nat) (b : Bool) : (setBit s f k b).holdoffB = s.holdoffB := rfl
@[simp] theorem setBit_deferA (s : State) (f : Fld) (k : Nat) (b : Bool) : (setBit s f k b).deferA = s.deferA := rfl
@[simp] theorem setBit_deferB (s : State) (f : Fld) (k : Nat) (b : Bool) : (setBit s f k b).deferB = s.deferB := rfl
@[simp] theorem setBit_nvFault (s : State) (f : Fld) (k : Nat) (b : Bool) : (setBit s f k b).nvFault = s.nvFault := rfl
@[simp] theorem setBit_vflashLatched (s : State) (f : Fld) (k : Nat) (b : Bool) : (setBit s f k b).vflashLatched = s.vflashLatched := rfl
@[simp] theorem setBit_residueTimes (s : State) (f : Fld) (k : Nat) (b : Bool) : (setBit s f k b).residueTimes = s.residueTimes := rfl
@[simp] theorem setBit_ledger (s : State) (f : Fld) (k : Nat) (b : Bool) : (setBit s f k b).ledger = s.ledger := rfl
@[simp] theorem setBit_ledgerSeq (s : State) (f : Fld) (k : Nat) (b : Bool) : (setBit s f k b).ledgerSeq = s.ledgerSeq := rfl
@[simp] theorem setBit_movesHeld (s : State) (f : Fld) (k : Nat) (b : Bool) : (setBit s f k b).movesHeld = s.movesHeld := rfl
@[simp] theorem setBit_img (s : State) (f : Fld) (k : Nat) (b : Bool) : (setBit s f k b).img = s.img := rfl
@[simp] theorem setBit_clk (s : State) (f : Fld) (k : Nat) (b : Bool) : (setBit s f k b).clk = s.clk := rfl
@[simp] theorem setBit_pwr (s : State) (f : Fld) (k : Nat) (b : Bool) : (setBit s f k b).pwr = s.pwr := rfl
@[simp] theorem setBit_boot (s : State) (f : Fld) (k : Nat) (b : Bool) : (setBit s f k b).boot = s.boot := rfl
@[simp] theorem setBit_sec (s : State) (f : Fld) (k : Nat) (b : Bool) : (setBit s f k b).sec = s.sec := rfl
@[simp] theorem setBit_wts (s : State) (f : Fld) (k : Nat) (b : Bool) : (setBit s f k b).wts = s.wts := rfl
@[simp] theorem setBit_ctl (s : State) (f : Fld) (k : Nat) (b : Bool) : (setBit s f k b).ctl = s.ctl := rfl
@[simp] theorem setBit_fab (s : State) (f : Fld) (k : Nat) (b : Bool) : (setBit s f k b).fab = s.fab := rfl
@[simp] theorem setBit_mesh (s : State) (f : Fld) (k : Nat) (b : Bool) : (setBit s f k b).mesh = s.mesh := rfl
@[simp] theorem setBit_snp (s : State) (f : Fld) (k : Nat) (b : Bool) : (setBit s f k b).snp = s.snp := rfl
@[simp] theorem setBit_fresh (s : State) (f : Fld) (k : Nat) (b : Bool) : (setBit s f k b).fresh = s.fresh := rfl
@[simp] theorem setBit_out (s : State) (f : Fld) (k : Nat) (b : Bool) : (setBit s f k b).out = s.out := rfl
@[simp] theorem setBit_pending (s : State) (f : Fld) (k : Nat) (b : Bool) : (setBit s f k b).pending = s.pending := rfl

/-! ### bump -/

@[simp] theorem bump_latchA (s : State) (f : Fld) (n : Nat) : (bump s f n).latchA = s.latchA := rfl
@[simp] theorem bump_latchB (s : State) (f : Fld) (n : Nat) : (bump s f n).latchB = s.latchB := rfl
@[simp] theorem bump_mem (s : State) (f : Fld) (n : Nat) : (bump s f n).mem = s.mem := rfl
@[simp] theorem bump_marks (s : State) (f : Fld) (n : Nat) : (bump s f n).marks = s.marks := rfl
@[simp] theorem bump_accs (s : State) (f : Fld) (n : Nat) : (bump s f n).accs = s.accs := rfl
@[simp] theorem bump_cores (s : State) (f : Fld) (n : Nat) : (bump s f n).cores = s.cores := rfl
@[simp] theorem bump_engQ (s : State) (f : Fld) (n : Nat) : (bump s f n).engQ = s.engQ := rfl
@[simp] theorem bump_sashQ (s : State) (f : Fld) (n : Nat) : (bump s f n).sashQ = s.sashQ := rfl
@[simp] theorem bump_rr (s : State) (f : Fld) (n : Nat) : (bump s f n).rr = s.rr := rfl
@[simp] theorem bump_barriers (s : State) (f : Fld) (n : Nat) : (bump s f n).barriers = s.barriers := rfl
@[simp] theorem bump_portion (s : State) (f : Fld) (n : Nat) : (bump s f n).portion = s.portion := rfl
@[simp] theorem bump_suspended (s : State) (f : Fld) (n : Nat) : (bump s f n).suspended = s.suspended := rfl
@[simp] theorem bump_finals (s : State) (f : Fld) (n : Nat) : (bump s f n).finals = s.finals := rfl
@[simp] theorem bump_inbox (s : State) (f : Fld) (n : Nat) : (bump s f n).inbox = s.inbox := rfl
@[simp] theorem bump_lastStep (s : State) (f : Fld) (n : Nat) : (bump s f n).lastStep = s.lastStep := rfl
@[simp] theorem bump_experts (s : State) (f : Fld) (n : Nat) : (bump s f n).experts = s.experts := rfl
@[simp] theorem bump_boundaries (s : State) (f : Fld) (n : Nat) : (bump s f n).boundaries = s.boundaries := rfl
@[simp] theorem bump_extents (s : State) (f : Fld) (n : Nat) : (bump s f n).extents = s.extents := rfl
@[simp] theorem bump_ctxs (s : State) (f : Fld) (n : Nat) : (bump s f n).ctxs = s.ctxs := rfl
@[simp] theorem bump_pages (s : State) (f : Fld) (n : Nat) : (bump s f n).pages = s.pages := rfl
@[simp] theorem bump_prefs (s : State) (f : Fld) (n : Nat) : (bump s f n).prefs = s.prefs := rfl
@[simp] theorem bump_prefSeq (s : State) (f : Fld) (n : Nat) : (bump s f n).prefSeq = s.prefSeq := rfl
@[simp] theorem bump_clients (s : State) (f : Fld) (n : Nat) : (bump s f n).clients = s.clients := rfl
@[simp] theorem bump_cplHeld (s : State) (f : Fld) (n : Nat) : (bump s f n).cplHeld = s.cplHeld := rfl
@[simp] theorem bump_layerSlots (s : State) (f : Fld) (n : Nat) : (bump s f n).layerSlots = s.layerSlots := rfl
@[simp] theorem bump_ringRecs (s : State) (f : Fld) (n : Nat) : (bump s f n).ringRecs = s.ringRecs := rfl
@[simp] theorem bump_now (s : State) (f : Fld) (n : Nat) : (bump s f n).now = s.now := rfl
@[simp] theorem bump_refetch (s : State) (f : Fld) (n : Nat) : (bump s f n).refetch = s.refetch := rfl
@[simp] theorem bump_hardFails (s : State) (f : Fld) (n : Nat) : (bump s f n).hardFails = s.hardFails := rfl
@[simp] theorem bump_rewritten (s : State) (f : Fld) (n : Nat) : (bump s f n).rewritten = s.rewritten := rfl
@[simp] theorem bump_ready (s : State) (f : Fld) (n : Nat) : (bump s f n).ready = s.ready := rfl
@[simp] theorem bump_cardSerial (s : State) (f : Fld) (n : Nat) : (bump s f n).cardSerial = s.cardSerial := rfl
@[simp] theorem bump_cardSeated (s : State) (f : Fld) (n : Nat) : (bump s f n).cardSeated = s.cardSeated := rfl
@[simp] theorem bump_blockReads (s : State) (f : Fld) (n : Nat) : (bump s f n).blockReads = s.blockReads := rfl
@[simp] theorem bump_holdoffA (s : State) (f : Fld) (n : Nat) : (bump s f n).holdoffA = s.holdoffA := rfl
@[simp] theorem bump_holdoffB (s : State) (f : Fld) (n : Nat) : (bump s f n).holdoffB = s.holdoffB := rfl
@[simp] theorem bump_deferA (s : State) (f : Fld) (n : Nat) : (bump s f n).deferA = s.deferA := rfl
@[simp] theorem bump_deferB (s : State) (f : Fld) (n : Nat) : (bump s f n).deferB = s.deferB := rfl
@[simp] theorem bump_nvFault (s : State) (f : Fld) (n : Nat) : (bump s f n).nvFault = s.nvFault := rfl
@[simp] theorem bump_vflashLatched (s : State) (f : Fld) (n : Nat) : (bump s f n).vflashLatched = s.vflashLatched := rfl
@[simp] theorem bump_residueTimes (s : State) (f : Fld) (n : Nat) : (bump s f n).residueTimes = s.residueTimes := rfl
@[simp] theorem bump_ledger (s : State) (f : Fld) (n : Nat) : (bump s f n).ledger = s.ledger := rfl
@[simp] theorem bump_ledgerSeq (s : State) (f : Fld) (n : Nat) : (bump s f n).ledgerSeq = s.ledgerSeq := rfl
@[simp] theorem bump_movesHeld (s : State) (f : Fld) (n : Nat) : (bump s f n).movesHeld = s.movesHeld := rfl
@[simp] theorem bump_img (s : State) (f : Fld) (n : Nat) : (bump s f n).img = s.img := rfl
@[simp] theorem bump_clk (s : State) (f : Fld) (n : Nat) : (bump s f n).clk = s.clk := rfl
@[simp] theorem bump_pwr (s : State) (f : Fld) (n : Nat) : (bump s f n).pwr = s.pwr := rfl
@[simp] theorem bump_boot (s : State) (f : Fld) (n : Nat) : (bump s f n).boot = s.boot := rfl
@[simp] theorem bump_sec (s : State) (f : Fld) (n : Nat) : (bump s f n).sec = s.sec := rfl
@[simp] theorem bump_wts (s : State) (f : Fld) (n : Nat) : (bump s f n).wts = s.wts := rfl
@[simp] theorem bump_ctl (s : State) (f : Fld) (n : Nat) : (bump s f n).ctl = s.ctl := rfl
@[simp] theorem bump_fab (s : State) (f : Fld) (n : Nat) : (bump s f n).fab = s.fab := rfl
@[simp] theorem bump_mesh (s : State) (f : Fld) (n : Nat) : (bump s f n).mesh = s.mesh := rfl
@[simp] theorem bump_snp (s : State) (f : Fld) (n : Nat) : (bump s f n).snp = s.snp := rfl
@[simp] theorem bump_fresh (s : State) (f : Fld) (n : Nat) : (bump s f n).fresh = s.fresh := rfl
@[simp] theorem bump_out (s : State) (f : Fld) (n : Nat) : (bump s f n).out = s.out := rfl
@[simp] theorem bump_pending (s : State) (f : Fld) (n : Nat) : (bump s f n).pending = s.pending := rfl

/-! ### emit -/

@[simp] theorem emit_flds (s : State) (o : Out) : (emit s o).flds = s.flds := rfl
@[simp] theorem emit_latchA (s : State) (o : Out) : (emit s o).latchA = s.latchA := rfl
@[simp] theorem emit_latchB (s : State) (o : Out) : (emit s o).latchB = s.latchB := rfl
@[simp] theorem emit_mem (s : State) (o : Out) : (emit s o).mem = s.mem := rfl
@[simp] theorem emit_marks (s : State) (o : Out) : (emit s o).marks = s.marks := rfl
@[simp] theorem emit_accs (s : State) (o : Out) : (emit s o).accs = s.accs := rfl
@[simp] theorem emit_cores (s : State) (o : Out) : (emit s o).cores = s.cores := rfl
@[simp] theorem emit_engQ (s : State) (o : Out) : (emit s o).engQ = s.engQ := rfl
@[simp] theorem emit_sashQ (s : State) (o : Out) : (emit s o).sashQ = s.sashQ := rfl
@[simp] theorem emit_rr (s : State) (o : Out) : (emit s o).rr = s.rr := rfl
@[simp] theorem emit_barriers (s : State) (o : Out) : (emit s o).barriers = s.barriers := rfl
@[simp] theorem emit_portion (s : State) (o : Out) : (emit s o).portion = s.portion := rfl
@[simp] theorem emit_suspended (s : State) (o : Out) : (emit s o).suspended = s.suspended := rfl
@[simp] theorem emit_finals (s : State) (o : Out) : (emit s o).finals = s.finals := rfl
@[simp] theorem emit_inbox (s : State) (o : Out) : (emit s o).inbox = s.inbox := rfl
@[simp] theorem emit_lastStep (s : State) (o : Out) : (emit s o).lastStep = s.lastStep := rfl
@[simp] theorem emit_experts (s : State) (o : Out) : (emit s o).experts = s.experts := rfl
@[simp] theorem emit_boundaries (s : State) (o : Out) : (emit s o).boundaries = s.boundaries := rfl
@[simp] theorem emit_extents (s : State) (o : Out) : (emit s o).extents = s.extents := rfl
@[simp] theorem emit_ctxs (s : State) (o : Out) : (emit s o).ctxs = s.ctxs := rfl
@[simp] theorem emit_pages (s : State) (o : Out) : (emit s o).pages = s.pages := rfl
@[simp] theorem emit_prefs (s : State) (o : Out) : (emit s o).prefs = s.prefs := rfl
@[simp] theorem emit_prefSeq (s : State) (o : Out) : (emit s o).prefSeq = s.prefSeq := rfl
@[simp] theorem emit_clients (s : State) (o : Out) : (emit s o).clients = s.clients := rfl
@[simp] theorem emit_cplHeld (s : State) (o : Out) : (emit s o).cplHeld = s.cplHeld := rfl
@[simp] theorem emit_layerSlots (s : State) (o : Out) : (emit s o).layerSlots = s.layerSlots := rfl
@[simp] theorem emit_ringRecs (s : State) (o : Out) : (emit s o).ringRecs = s.ringRecs := rfl
@[simp] theorem emit_now (s : State) (o : Out) : (emit s o).now = s.now := rfl
@[simp] theorem emit_refetch (s : State) (o : Out) : (emit s o).refetch = s.refetch := rfl
@[simp] theorem emit_hardFails (s : State) (o : Out) : (emit s o).hardFails = s.hardFails := rfl
@[simp] theorem emit_rewritten (s : State) (o : Out) : (emit s o).rewritten = s.rewritten := rfl
@[simp] theorem emit_ready (s : State) (o : Out) : (emit s o).ready = s.ready := rfl
@[simp] theorem emit_cardSerial (s : State) (o : Out) : (emit s o).cardSerial = s.cardSerial := rfl
@[simp] theorem emit_cardSeated (s : State) (o : Out) : (emit s o).cardSeated = s.cardSeated := rfl
@[simp] theorem emit_blockReads (s : State) (o : Out) : (emit s o).blockReads = s.blockReads := rfl
@[simp] theorem emit_holdoffA (s : State) (o : Out) : (emit s o).holdoffA = s.holdoffA := rfl
@[simp] theorem emit_holdoffB (s : State) (o : Out) : (emit s o).holdoffB = s.holdoffB := rfl
@[simp] theorem emit_deferA (s : State) (o : Out) : (emit s o).deferA = s.deferA := rfl
@[simp] theorem emit_deferB (s : State) (o : Out) : (emit s o).deferB = s.deferB := rfl
@[simp] theorem emit_nvFault (s : State) (o : Out) : (emit s o).nvFault = s.nvFault := rfl
@[simp] theorem emit_vflashLatched (s : State) (o : Out) : (emit s o).vflashLatched = s.vflashLatched := rfl
@[simp] theorem emit_residueTimes (s : State) (o : Out) : (emit s o).residueTimes = s.residueTimes := rfl
@[simp] theorem emit_ledger (s : State) (o : Out) : (emit s o).ledger = s.ledger := rfl
@[simp] theorem emit_ledgerSeq (s : State) (o : Out) : (emit s o).ledgerSeq = s.ledgerSeq := rfl
@[simp] theorem emit_movesHeld (s : State) (o : Out) : (emit s o).movesHeld = s.movesHeld := rfl
@[simp] theorem emit_img (s : State) (o : Out) : (emit s o).img = s.img := rfl
@[simp] theorem emit_clk (s : State) (o : Out) : (emit s o).clk = s.clk := rfl
@[simp] theorem emit_pwr (s : State) (o : Out) : (emit s o).pwr = s.pwr := rfl
@[simp] theorem emit_boot (s : State) (o : Out) : (emit s o).boot = s.boot := rfl
@[simp] theorem emit_sec (s : State) (o : Out) : (emit s o).sec = s.sec := rfl
@[simp] theorem emit_wts (s : State) (o : Out) : (emit s o).wts = s.wts := rfl
@[simp] theorem emit_ctl (s : State) (o : Out) : (emit s o).ctl = s.ctl := rfl
@[simp] theorem emit_fab (s : State) (o : Out) : (emit s o).fab = s.fab := rfl
@[simp] theorem emit_mesh (s : State) (o : Out) : (emit s o).mesh = s.mesh := rfl
@[simp] theorem emit_snp (s : State) (o : Out) : (emit s o).snp = s.snp := rfl
@[simp] theorem emit_fresh (s : State) (o : Out) : (emit s o).fresh = s.fresh := rfl
@[simp] theorem emit_pending (s : State) (o : Out) : (emit s o).pending = s.pending := rfl

/-! ### coreSet -/

@[simp] theorem coreSet_flds (s : State) (c : Nat) (k : CoreSt) : (coreSet s c k).flds = s.flds := rfl
@[simp] theorem coreSet_latchA (s : State) (c : Nat) (k : CoreSt) : (coreSet s c k).latchA = s.latchA := rfl
@[simp] theorem coreSet_latchB (s : State) (c : Nat) (k : CoreSt) : (coreSet s c k).latchB = s.latchB := rfl
@[simp] theorem coreSet_mem (s : State) (c : Nat) (k : CoreSt) : (coreSet s c k).mem = s.mem := rfl
@[simp] theorem coreSet_marks (s : State) (c : Nat) (k : CoreSt) : (coreSet s c k).marks = s.marks := rfl
@[simp] theorem coreSet_accs (s : State) (c : Nat) (k : CoreSt) : (coreSet s c k).accs = s.accs := rfl
@[simp] theorem coreSet_engQ (s : State) (c : Nat) (k : CoreSt) : (coreSet s c k).engQ = s.engQ := rfl
@[simp] theorem coreSet_sashQ (s : State) (c : Nat) (k : CoreSt) : (coreSet s c k).sashQ = s.sashQ := rfl
@[simp] theorem coreSet_rr (s : State) (c : Nat) (k : CoreSt) : (coreSet s c k).rr = s.rr := rfl
@[simp] theorem coreSet_barriers (s : State) (c : Nat) (k : CoreSt) : (coreSet s c k).barriers = s.barriers := rfl
@[simp] theorem coreSet_portion (s : State) (c : Nat) (k : CoreSt) : (coreSet s c k).portion = s.portion := rfl
@[simp] theorem coreSet_suspended (s : State) (c : Nat) (k : CoreSt) : (coreSet s c k).suspended = s.suspended := rfl
@[simp] theorem coreSet_finals (s : State) (c : Nat) (k : CoreSt) : (coreSet s c k).finals = s.finals := rfl
@[simp] theorem coreSet_inbox (s : State) (c : Nat) (k : CoreSt) : (coreSet s c k).inbox = s.inbox := rfl
@[simp] theorem coreSet_lastStep (s : State) (c : Nat) (k : CoreSt) : (coreSet s c k).lastStep = s.lastStep := rfl
@[simp] theorem coreSet_experts (s : State) (c : Nat) (k : CoreSt) : (coreSet s c k).experts = s.experts := rfl
@[simp] theorem coreSet_boundaries (s : State) (c : Nat) (k : CoreSt) : (coreSet s c k).boundaries = s.boundaries := rfl
@[simp] theorem coreSet_extents (s : State) (c : Nat) (k : CoreSt) : (coreSet s c k).extents = s.extents := rfl
@[simp] theorem coreSet_ctxs (s : State) (c : Nat) (k : CoreSt) : (coreSet s c k).ctxs = s.ctxs := rfl
@[simp] theorem coreSet_pages (s : State) (c : Nat) (k : CoreSt) : (coreSet s c k).pages = s.pages := rfl
@[simp] theorem coreSet_prefs (s : State) (c : Nat) (k : CoreSt) : (coreSet s c k).prefs = s.prefs := rfl
@[simp] theorem coreSet_prefSeq (s : State) (c : Nat) (k : CoreSt) : (coreSet s c k).prefSeq = s.prefSeq := rfl
@[simp] theorem coreSet_clients (s : State) (c : Nat) (k : CoreSt) : (coreSet s c k).clients = s.clients := rfl
@[simp] theorem coreSet_cplHeld (s : State) (c : Nat) (k : CoreSt) : (coreSet s c k).cplHeld = s.cplHeld := rfl
@[simp] theorem coreSet_layerSlots (s : State) (c : Nat) (k : CoreSt) : (coreSet s c k).layerSlots = s.layerSlots := rfl
@[simp] theorem coreSet_ringRecs (s : State) (c : Nat) (k : CoreSt) : (coreSet s c k).ringRecs = s.ringRecs := rfl
@[simp] theorem coreSet_now (s : State) (c : Nat) (k : CoreSt) : (coreSet s c k).now = s.now := rfl
@[simp] theorem coreSet_refetch (s : State) (c : Nat) (k : CoreSt) : (coreSet s c k).refetch = s.refetch := rfl
@[simp] theorem coreSet_hardFails (s : State) (c : Nat) (k : CoreSt) : (coreSet s c k).hardFails = s.hardFails := rfl
@[simp] theorem coreSet_rewritten (s : State) (c : Nat) (k : CoreSt) : (coreSet s c k).rewritten = s.rewritten := rfl
@[simp] theorem coreSet_ready (s : State) (c : Nat) (k : CoreSt) : (coreSet s c k).ready = s.ready := rfl
@[simp] theorem coreSet_cardSerial (s : State) (c : Nat) (k : CoreSt) : (coreSet s c k).cardSerial = s.cardSerial := rfl
@[simp] theorem coreSet_cardSeated (s : State) (c : Nat) (k : CoreSt) : (coreSet s c k).cardSeated = s.cardSeated := rfl
@[simp] theorem coreSet_blockReads (s : State) (c : Nat) (k : CoreSt) : (coreSet s c k).blockReads = s.blockReads := rfl
@[simp] theorem coreSet_holdoffA (s : State) (c : Nat) (k : CoreSt) : (coreSet s c k).holdoffA = s.holdoffA := rfl
@[simp] theorem coreSet_holdoffB (s : State) (c : Nat) (k : CoreSt) : (coreSet s c k).holdoffB = s.holdoffB := rfl
@[simp] theorem coreSet_deferA (s : State) (c : Nat) (k : CoreSt) : (coreSet s c k).deferA = s.deferA := rfl
@[simp] theorem coreSet_deferB (s : State) (c : Nat) (k : CoreSt) : (coreSet s c k).deferB = s.deferB := rfl
@[simp] theorem coreSet_nvFault (s : State) (c : Nat) (k : CoreSt) : (coreSet s c k).nvFault = s.nvFault := rfl
@[simp] theorem coreSet_vflashLatched (s : State) (c : Nat) (k : CoreSt) : (coreSet s c k).vflashLatched = s.vflashLatched := rfl
@[simp] theorem coreSet_residueTimes (s : State) (c : Nat) (k : CoreSt) : (coreSet s c k).residueTimes = s.residueTimes := rfl
@[simp] theorem coreSet_ledger (s : State) (c : Nat) (k : CoreSt) : (coreSet s c k).ledger = s.ledger := rfl
@[simp] theorem coreSet_ledgerSeq (s : State) (c : Nat) (k : CoreSt) : (coreSet s c k).ledgerSeq = s.ledgerSeq := rfl
@[simp] theorem coreSet_movesHeld (s : State) (c : Nat) (k : CoreSt) : (coreSet s c k).movesHeld = s.movesHeld := rfl
@[simp] theorem coreSet_img (s : State) (c : Nat) (k : CoreSt) : (coreSet s c k).img = s.img := rfl
@[simp] theorem coreSet_clk (s : State) (c : Nat) (k : CoreSt) : (coreSet s c k).clk = s.clk := rfl
@[simp] theorem coreSet_pwr (s : State) (c : Nat) (k : CoreSt) : (coreSet s c k).pwr = s.pwr := rfl
@[simp] theorem coreSet_boot (s : State) (c : Nat) (k : CoreSt) : (coreSet s c k).boot = s.boot := rfl
@[simp] theorem coreSet_sec (s : State) (c : Nat) (k : CoreSt) : (coreSet s c k).sec = s.sec := rfl
@[simp] theorem coreSet_wts (s : State) (c : Nat) (k : CoreSt) : (coreSet s c k).wts = s.wts := rfl
@[simp] theorem coreSet_ctl (s : State) (c : Nat) (k : CoreSt) : (coreSet s c k).ctl = s.ctl := rfl
@[simp] theorem coreSet_fab (s : State) (c : Nat) (k : CoreSt) : (coreSet s c k).fab = s.fab := rfl
@[simp] theorem coreSet_mesh (s : State) (c : Nat) (k : CoreSt) : (coreSet s c k).mesh = s.mesh := rfl
@[simp] theorem coreSet_snp (s : State) (c : Nat) (k : CoreSt) : (coreSet s c k).snp = s.snp := rfl
@[simp] theorem coreSet_fresh (s : State) (c : Nat) (k : CoreSt) : (coreSet s c k).fresh = s.fresh := rfl
@[simp] theorem coreSet_out (s : State) (c : Nat) (k : CoreSt) : (coreSet s c k).out = s.out := rfl
@[simp] theorem coreSet_pending (s : State) (c : Nat) (k : CoreSt) : (coreSet s c k).pending = s.pending := rfl

/-! ### Counters write registers only -/

theorem pmcAdd_eq (fuel e n : Nat) (s : State) : pmcAdd fuel e n s = { s with flds := (pmcAdd fuel e n s).flds } := by
  induction fuel generalizing e n s with
  | zero => rfl
  | succ k ih =>
    simp only [pmcAdd]
    split
    · rfl
    · split
      · rw [ih]; rfl
      · rfl

theorem countEv_eq (e n : Nat) (s : State) : countEv e n s = { s with flds := (countEv e n s).flds } := by
  unfold countEv
  split
  · rfl
  · rw [pmcAdd_eq]

@[simp] theorem countEv_latchA (e n : Nat) (s : State) : (countEv e n s).latchA = s.latchA := by rw [countEv_eq]
@[simp] theorem countEv_latchB (e n : Nat) (s : State) : (countEv e n s).latchB = s.latchB := by rw [countEv_eq]
@[simp] theorem countEv_mem (e n : Nat) (s : State) : (countEv e n s).mem = s.mem := by rw [countEv_eq]
@[simp] theorem countEv_marks (e n : Nat) (s : State) : (countEv e n s).marks = s.marks := by rw [countEv_eq]
@[simp] theorem countEv_accs (e n : Nat) (s : State) : (countEv e n s).accs = s.accs := by rw [countEv_eq]
@[simp] theorem countEv_cores (e n : Nat) (s : State) : (countEv e n s).cores = s.cores := by rw [countEv_eq]
@[simp] theorem countEv_engQ (e n : Nat) (s : State) : (countEv e n s).engQ = s.engQ := by rw [countEv_eq]
@[simp] theorem countEv_sashQ (e n : Nat) (s : State) : (countEv e n s).sashQ = s.sashQ := by rw [countEv_eq]
@[simp] theorem countEv_rr (e n : Nat) (s : State) : (countEv e n s).rr = s.rr := by rw [countEv_eq]
@[simp] theorem countEv_barriers (e n : Nat) (s : State) : (countEv e n s).barriers = s.barriers := by rw [countEv_eq]
@[simp] theorem countEv_portion (e n : Nat) (s : State) : (countEv e n s).portion = s.portion := by rw [countEv_eq]
@[simp] theorem countEv_suspended (e n : Nat) (s : State) : (countEv e n s).suspended = s.suspended := by rw [countEv_eq]
@[simp] theorem countEv_finals (e n : Nat) (s : State) : (countEv e n s).finals = s.finals := by rw [countEv_eq]
@[simp] theorem countEv_inbox (e n : Nat) (s : State) : (countEv e n s).inbox = s.inbox := by rw [countEv_eq]
@[simp] theorem countEv_lastStep (e n : Nat) (s : State) : (countEv e n s).lastStep = s.lastStep := by rw [countEv_eq]
@[simp] theorem countEv_experts (e n : Nat) (s : State) : (countEv e n s).experts = s.experts := by rw [countEv_eq]
@[simp] theorem countEv_boundaries (e n : Nat) (s : State) : (countEv e n s).boundaries = s.boundaries := by rw [countEv_eq]
@[simp] theorem countEv_extents (e n : Nat) (s : State) : (countEv e n s).extents = s.extents := by rw [countEv_eq]
@[simp] theorem countEv_ctxs (e n : Nat) (s : State) : (countEv e n s).ctxs = s.ctxs := by rw [countEv_eq]
@[simp] theorem countEv_pages (e n : Nat) (s : State) : (countEv e n s).pages = s.pages := by rw [countEv_eq]
@[simp] theorem countEv_prefs (e n : Nat) (s : State) : (countEv e n s).prefs = s.prefs := by rw [countEv_eq]
@[simp] theorem countEv_prefSeq (e n : Nat) (s : State) : (countEv e n s).prefSeq = s.prefSeq := by rw [countEv_eq]
@[simp] theorem countEv_clients (e n : Nat) (s : State) : (countEv e n s).clients = s.clients := by rw [countEv_eq]
@[simp] theorem countEv_cplHeld (e n : Nat) (s : State) : (countEv e n s).cplHeld = s.cplHeld := by rw [countEv_eq]
@[simp] theorem countEv_layerSlots (e n : Nat) (s : State) : (countEv e n s).layerSlots = s.layerSlots := by rw [countEv_eq]
@[simp] theorem countEv_ringRecs (e n : Nat) (s : State) : (countEv e n s).ringRecs = s.ringRecs := by rw [countEv_eq]
@[simp] theorem countEv_now (e n : Nat) (s : State) : (countEv e n s).now = s.now := by rw [countEv_eq]
@[simp] theorem countEv_refetch (e n : Nat) (s : State) : (countEv e n s).refetch = s.refetch := by rw [countEv_eq]
@[simp] theorem countEv_hardFails (e n : Nat) (s : State) : (countEv e n s).hardFails = s.hardFails := by rw [countEv_eq]
@[simp] theorem countEv_rewritten (e n : Nat) (s : State) : (countEv e n s).rewritten = s.rewritten := by rw [countEv_eq]
@[simp] theorem countEv_ready (e n : Nat) (s : State) : (countEv e n s).ready = s.ready := by rw [countEv_eq]
@[simp] theorem countEv_cardSerial (e n : Nat) (s : State) : (countEv e n s).cardSerial = s.cardSerial := by rw [countEv_eq]
@[simp] theorem countEv_cardSeated (e n : Nat) (s : State) : (countEv e n s).cardSeated = s.cardSeated := by rw [countEv_eq]
@[simp] theorem countEv_blockReads (e n : Nat) (s : State) : (countEv e n s).blockReads = s.blockReads := by rw [countEv_eq]
@[simp] theorem countEv_holdoffA (e n : Nat) (s : State) : (countEv e n s).holdoffA = s.holdoffA := by rw [countEv_eq]
@[simp] theorem countEv_holdoffB (e n : Nat) (s : State) : (countEv e n s).holdoffB = s.holdoffB := by rw [countEv_eq]
@[simp] theorem countEv_deferA (e n : Nat) (s : State) : (countEv e n s).deferA = s.deferA := by rw [countEv_eq]
@[simp] theorem countEv_deferB (e n : Nat) (s : State) : (countEv e n s).deferB = s.deferB := by rw [countEv_eq]
@[simp] theorem countEv_nvFault (e n : Nat) (s : State) : (countEv e n s).nvFault = s.nvFault := by rw [countEv_eq]
@[simp] theorem countEv_vflashLatched (e n : Nat) (s : State) : (countEv e n s).vflashLatched = s.vflashLatched := by rw [countEv_eq]
@[simp] theorem countEv_residueTimes (e n : Nat) (s : State) : (countEv e n s).residueTimes = s.residueTimes := by rw [countEv_eq]
@[simp] theorem countEv_ledger (e n : Nat) (s : State) : (countEv e n s).ledger = s.ledger := by rw [countEv_eq]
@[simp] theorem countEv_ledgerSeq (e n : Nat) (s : State) : (countEv e n s).ledgerSeq = s.ledgerSeq := by rw [countEv_eq]
@[simp] theorem countEv_movesHeld (e n : Nat) (s : State) : (countEv e n s).movesHeld = s.movesHeld := by rw [countEv_eq]
@[simp] theorem countEv_img (e n : Nat) (s : State) : (countEv e n s).img = s.img := by rw [countEv_eq]
@[simp] theorem countEv_clk (e n : Nat) (s : State) : (countEv e n s).clk = s.clk := by rw [countEv_eq]
@[simp] theorem countEv_pwr (e n : Nat) (s : State) : (countEv e n s).pwr = s.pwr := by rw [countEv_eq]
@[simp] theorem countEv_boot (e n : Nat) (s : State) : (countEv e n s).boot = s.boot := by rw [countEv_eq]
@[simp] theorem countEv_sec (e n : Nat) (s : State) : (countEv e n s).sec = s.sec := by rw [countEv_eq]
@[simp] theorem countEv_wts (e n : Nat) (s : State) : (countEv e n s).wts = s.wts := by rw [countEv_eq]
@[simp] theorem countEv_ctl (e n : Nat) (s : State) : (countEv e n s).ctl = s.ctl := by rw [countEv_eq]
@[simp] theorem countEv_fab (e n : Nat) (s : State) : (countEv e n s).fab = s.fab := by rw [countEv_eq]
@[simp] theorem countEv_mesh (e n : Nat) (s : State) : (countEv e n s).mesh = s.mesh := by rw [countEv_eq]
@[simp] theorem countEv_snp (e n : Nat) (s : State) : (countEv e n s).snp = s.snp := by rw [countEv_eq]
@[simp] theorem countEv_fresh (e n : Nat) (s : State) : (countEv e n s).fresh = s.fresh := by rw [countEv_eq]
@[simp] theorem countEv_out (e n : Nat) (s : State) : (countEv e n s).out = s.out := by rw [countEv_eq]
@[simp] theorem countEv_pending (e n : Nat) (s : State) : (countEv e n s).pending = s.pending := by rw [countEv_eq]

end Sys2Proof.Machine
end

