-- ==== Sys2Proof/Laws/Ops.lean ====
section
/-!
SUPPORT. Laws/Ops.lean: what each shared operation over registers, cores and memory can do, said once.
-/
namespace Sys2Proof.Machine

/-! ### Register fields -/

theorem getP_setP_self (s : State) (p : Port) (f : Fld) (v : Nat) : getP (setP s p f v) p f = v % 2 ^ f.len := by
  simp [getP, setP]

theorem getP_setP_ne {s : State} {p q : Port} {f g : Fld} {v : Nat} (h : fldKey g q ≠ fldKey f p) :
    getP (setP s p f v) q g = getP s q g := smGet_smSet_other h

@[simp] theorem getF_setF_self (s : State) (f : Fld) (v : Nat) : getF (setF s f v) f = v % 2 ^ f.len := getP_setP_self s .a f v

theorem getF_setF_ne {s : State} {f g : Fld} {v : Nat} (h : fldKey g .a ≠ fldKey f .a) : getF (setF s f v) g = getF s g :=
  getP_setP_ne h

theorem getB_setB_self (s : State) (f : Fld) (b : Bool) (h : 0 < f.len) : getB (setB s f b) f = b := by
  have h2 : 1 < 2 ^ f.len := Nat.one_lt_two_pow (by omega)
  cases b <;> simp [getB, setB, b2n, Nat.mod_eq_of_lt h2]

theorem getB_setB_ne {s : State} {f g : Fld} {b : Bool} (h : fldKey g .a ≠ fldKey f .a) : getB (setB s f b) g = getB s g := by
  simp only [getB, setB, getF_setF_ne h]

/-- A register reads the same in two states with the same registers. -/
theorem getP_congr {s t : State} (h : t.flds = s.flds) (p : Port) (f : Fld) : getP t p f = getP s p f := by
  simp only [getP, h]

theorem getF_congr {s t : State} (h : t.flds = s.flds) (f : Fld) : getF t f = getF s f := getP_congr h .a f

theorem getB_congr {s t : State} (h : t.flds = s.flds) (f : Fld) : getB t f = getB s f := by simp only [getB, getF_congr h]

@[simp] theorem getF_emit (s : State) (o : Out) (f : Fld) : getF (emit s o) f = getF s f := rfl
@[simp] theorem getP_emit (s : State) (o : Out) (p : Port) (f : Fld) : getP (emit s o) p f = getP s p f := rfl
@[simp] theorem getB_emit (s : State) (o : Out) (f : Fld) : getB (emit s o) f = getB s f := rfl
@[simp] theorem getF_coreSet (s : State) (c : Nat) (k : CoreSt) (f : Fld) : getF (coreSet s c k) f = getF s f := rfl
@[simp] theorem getB_coreSet (s : State) (c : Nat) (k : CoreSt) (f : Fld) : getB (coreSet s c k) f = getB s f := rfl

@[simp] theorem emit_out (s : State) (o : Out) : (emit s o).out = o :: s.out := rfl

/-! ### Cores -/

@[simp] theorem coreGet_coreSet_self (s : State) (c : Nat) (k : CoreSt) : coreGet (coreSet s c k) c = k := by
  simp [coreGet, coreSet]

theorem coreGet_coreSet_ne {s : State} {c d : Nat} {k : CoreSt} (h : d ≠ c) : coreGet (coreSet s c k) d = coreGet s d :=
  smGet_smSet_ne h

theorem coreGet_congr {s t : State} (h : t.cores = s.cores) (c : Nat) : coreGet t c = coreGet s c := by simp only [coreGet, h]

@[simp] theorem coreGet_setF (s : State) (f : Fld) (v c : Nat) : coreGet (setF s f v) c = coreGet s c := rfl
@[simp] theorem coreGet_emit (s : State) (o : Out) (c : Nat) : coreGet (emit s o) c = coreGet s c := rfl
@[simp] theorem coreGet_countEv (e n : Nat) (s : State) (c : Nat) : coreGet (countEv e n s) c = coreGet s c := coreGet_congr (by simp) c

/-! ### Lists as finite maps -/

variable {α : Type}

@[simp] theorem alGet_alSet_self {m : List (Nat × α)} {k : Nat} {v : α} : alGet (alSet m k v) k = some v := by
  have : ∀ (l : List (Nat × α)), (∀ p ∈ l, p.1 ≠ k) → alGet (smInsert k v l) k = some v := by
    intro l
    induction l with
    | nil => intro _; simp [smInsert, alGet]
    | cons x t ih =>
      obtain ⟨k', v'⟩ := x
      intro h
      have e : k' ≠ k := h (k', v') (by simp)
      by_cases c : k < k'
      · simp [smInsert, c, alGet]
      · simp only [smInsert, c, if_false, alGet, e]
        exact ih fun p hp => h p (by simp [hp])
  exact this _ fun _ hp => (mem_smErase.mp hp).2

theorem alGet_smErase_ne {m : List (Nat × α)} {k j : Nat} (h : j ≠ k) : alGet (smErase m k) j = alGet m j := by
  induction m with
  | nil => rfl
  | cons x t ih =>
    obtain ⟨k', v⟩ := x
    by_cases e : k' = k
    · subst e
      simp only [smErase, if_true, ih, alGet]
      rw [if_neg (Ne.symm h)]
    · simp only [smErase, e, if_false, alGet, ih]

theorem alGet_smErase_self {m : List (Nat × α)} {k : Nat} : alGet (smErase m k) k = none := by
  induction m with
  | nil => rfl
  | cons x t ih =>
    obtain ⟨k', v⟩ := x
    by_cases e : k' = k
    · simp only [smErase, e, if_true, ih]
    · simp only [smErase, e, if_false, alGet, ih]

theorem alGet_alSet_ne {m : List (Nat × α)} {k j : Nat} {v : α} (h : j ≠ k) : alGet (alSet m k v) j = alGet m j := by
  have : ∀ (l : List (Nat × α)), alGet (smInsert k v l) j = alGet l j := by
    intro l
    induction l with
    | nil => simp [smInsert, alGet, Ne.symm h]
    | cons x t ih =>
      obtain ⟨k', v'⟩ := x
      by_cases c : k < k'
      · simp [smInsert, c, alGet, Ne.symm h]
      · simp only [smInsert, c, if_false, alGet, ih]
  unfold alSet
  rw [this, alGet_smErase_ne h]

/-! ### Memory -/

theorem foldl_bump_eq (f : Nat → Fld) (gs : List Nat) (s : State) :
    gs.foldl (fun t g => bump t (f g) 1) s = { s with flds := (gs.foldl (fun t g => bump t (f g) 1) s).flds } := by
  induction gs generalizing s with
  | nil => rfl
  | cons g t ih => simp only [List.foldl_cons]; rw [ih]; rfl

theorem countGranules_eq (a n k : Nat) (s : State) : countGranules a n k s = { s with flds := (countGranules a n k s).flds } := by
  unfold countGranules
  split
  · rw [countEv_eq]
  · rfl

/-- A store writes its bytes, the marks of the granules it touches, and counters. -/
theorem putBytes_eq (s : State) (a : Nat) (bs : List Nat) :
    putBytes s a bs = { s with mem := Memory.writeBytes s.mem a bs, marks := (putBytes s a bs).marks, flds := (putBytes s a bs).flds } := by
  unfold putBytes
  simp only
  rw [countGranules_eq]
  simp only
  rw [foldl_bump_eq]

@[simp] theorem putBytes_mem (s : State) (a : Nat) (bs : List Nat) : (putBytes s a bs).mem = Memory.writeBytes s.mem a bs := by
  rw [putBytes_eq]

/-- A byte after a store: the byte stored there, or the byte before. -/
theorem rdByte_putBytes (s : State) (a c : Nat) (bs : List Nat) :
    rdByte (putBytes s a bs) c = if a ≤ c ∧ c < a + bs.length then bs.getD (c - a) 0 % 256 else rdByte s c := by
  unfold rdByte
  rw [putBytes_mem, Memory.read_writeBytes]
  split <;> simp

theorem putBlock_eq (s : State) (a : Nat) (bs : List Nat) :
    putBlock s a bs = { s with mem := Memory.putBlock s.mem a bs, marks := (putBlock s a bs).marks, flds := (putBlock s a bs).flds } := by
  unfold putBlock
  rw [countGranules_eq]

end Sys2Proof.Machine
end

