-- ==== Sys2Proof/Laws/Sequencer.lean ====
section
/-!
SUPPORT. Laws/Sequencer.lean: what counting, sampling, stalling and issuing an instruction do and leave alone.
-/
namespace Sys2Proof.Machine

/-! ### Keys -/

theorem flds_setF_ne {s : State} {f : Fld} {v k d : Nat} (h : k ≠ fldKey f .a) :
    smGet d (setF s f v).flds k = smGet d s.flds k := smGet_smSet_other h

theorem flds_setB_ne {s : State} {f : Fld} {b : Bool} {k d : Nat} (h : k ≠ fldKey f .a) :
    smGet d (setB s f b).flds k = smGet d s.flds k := smGet_smSet_other h

theorem flds_setBit_ne {s : State} {f : Fld} {i : Nat} {b : Bool} {k d : Nat} (h : k ≠ fldKey f .a) :
    smGet d (setBit s f i b).flds k = smGet d s.flds k := smGet_smSet_other h

theorem flds_bump_ne {s : State} {f : Fld} {n k d : Nat} (h : k ≠ fldKey f .a) :
    smGet d (bump s f n).flds k = smGet d s.flds k := smGet_smSet_other h

theorem pmcKey_counter {k e : Nat} (h : pmcKey k = false) (he : e < 4096) : k ≠ fldKey (Reg.PMC_COUNTER e) .a := by
  rintro rfl
  simp only [pmcKey, within, Bool.or_eq_false_iff, Bool.and_eq_false_iff, fldKey, Reg.PMC_COUNTER] at h
  simp at h
  omega

theorem pmcKey_ovf {k e : Nat} (h : pmcKey k = false) (he : e < 128) : k ≠ fldKey (Reg.PMC_OVF e) .a := by
  rintro rfl
  simp only [pmcKey, within, Bool.or_eq_false_iff, Bool.and_eq_false_iff, fldKey, Reg.PMC_OVF] at h
  simp at h
  omega

/-! ### Counters (R475 to R483) -/

theorem flds_pmcAdd {fuel e n k d : Nat} {s : State} (hb : e + fuel ≤ 4096) (h : pmcKey k = false) :
    smGet d (pmcAdd fuel e n s).flds k = smGet d s.flds k := by
  induction fuel generalizing e n s with
  | zero => rfl
  | succ j ih =>
    have hc := pmcKey_counter h (show e < 4096 by omega)
    have ho := pmcKey_ovf h (show e / 32 < 128 by omega)
    simp only [pmcAdd]
    split
    · exact flds_setF_ne hc
    · split
      · rw [ih (by omega), flds_setF_ne hc]
      · rw [flds_setBit_ne ho, flds_setF_ne hc]

/-- Counting an event writes the PMC block only. -/
theorem flds_countEv {e n k d : Nat} {s : State} (h : pmcKey k = false) : smGet d (countEv e n s).flds k = smGet d s.flds k := by
  unfold countEv
  split
  · rfl
  · by_cases hb : e ≤ 4096
    · exact flds_pmcAdd (by omega) h
    · have : 4096 - e = 0 := by omega
      rw [this]; rfl

theorem regsKept_countEv (e n : Nat) (s : State) : regsKept pmcKey s (countEv e n s) := fun _ _ h => flds_countEv h

/-! ### Writes of the device range by the rings -/

theorem storeKey_false {k : Nat} (h : storeKey k = false) :
    pmcKey k = false ∧ k ≠ fldKey Reg.MEM_DRAM_DETECT .a ∧ k ≠ fldKey Reg.MEM_SRAM_DETECT .a := by
  simp only [storeKey, oneOf, Bool.or_eq_false_iff, List.contains_eq_mem, List.mem_map, decide_eq_false_iff_not, List.mem_cons,
    List.not_mem_nil, or_false, exists_eq_or_imp, exists_eq_left, not_or] at h
  exact ⟨h.1, fun e => h.2.1 e.symm, fun e => h.2.2 e.symm⟩

theorem flds_foldl_bump {gs : List Nat} {f : Nat → Fld} {k d : Nat} {s : State} (h : ∀ g, k ≠ fldKey (f g) .a) :
    smGet d (gs.foldl (fun t g => bump t (f g) 1) s).flds k = smGet d s.flds k := by
  induction gs generalizing s with
  | nil => rfl
  | cons g t ih => rw [List.foldl_cons, ih, flds_bump_ne (h g)]

theorem flds_countGranules {a n j k d : Nat} {s : State} (h : pmcKey k = false) :
    smGet d (countGranules a n j s).flds k = smGet d s.flds k := by
  unfold countGranules
  split
  · exact flds_countEv h
  · rfl

/-- A store of bytes counts granules and detections and writes no other register. -/
theorem regsKept_putBytes (s : State) (a : Nat) (bs : List Nat) : regsKept storeKey s (putBytes s a bs) := by
  intro k d h
  obtain ⟨hp, h1, h2⟩ := storeKey_false h
  unfold putBytes
  simp only
  rw [flds_countGranules hp, flds_foldl_bump]
  intro g
  unfold detectCounter
  split
  · exact h1
  · exact h2

/-- A store of bytes changes no byte outside them. -/
theorem memKept_putBytes (s : State) (a : Nat) (bs : List Nat) : memKept (within a bs.length) s (putBytes s a bs) := by
  intro c h
  rw [rdByte_putBytes, if_neg]
  simpa [within] using h

theorem rdByte_congr {s t : State} (h : t.mem = s.mem) (a : Nat) : rdByte t a = rdByte s a := by simp [rdByte, h]

theorem regsKept_refl (free : Nat → Bool) (s : State) : regsKept free s s := fun _ _ _ => rfl
theorem memKept_refl (free : Nat → Bool) (s : State) : memKept free s s := fun _ _ => rfl

theorem regsKept_trans {f g : Nat → Bool} {s t u : State} (h1 : regsKept f s t) (h2 : regsKept g t u) :
    regsKept (fun k => f k || g k) s u := by
  intro k d h
  rw [Bool.or_eq_false_iff] at h
  rw [h2 k d h.2, h1 k d h.1]

theorem memKept_trans {f g : Nat → Bool} {s t u : State} (h1 : memKept f s t) (h2 : memKept g t u) :
    memKept (fun a => f a || g a) s u := by
  intro a h
  rw [Bool.or_eq_false_iff] at h
  rw [h2 a h.2, h1 a h.1]

theorem regsKept_mono {f g : Nat → Bool} {s t : State} (h : regsKept f s t) (m : ∀ k, g k = false → f k = false) :
    regsKept g s t := fun k d e => h k d (m k e)

theorem memKept_mono {f g : Nat → Bool} {s t : State} (h : memKept f s t) (m : ∀ a, g a = false → f a = false) :
    memKept g s t := fun a e => h a (m a e)

theorem memKept_of_mem {s t : State} (f : Nat → Bool) (h : t.mem = s.mem) : memKept f s t := fun a _ => by simp [rdByte, h]

theorem regsKept_of_flds {s t : State} (f : Nat → Bool) (h : t.flds = s.flds) : regsKept f s t := fun k d _ => by rw [h]

/-! ### Parts -/

theorem keptBut_refl (l : List Part) (s : State) : keptBut l s s := by
  intro p _
  cases p <;> rfl

theorem State.same_trans {p : Part} {s t u : State} (h1 : State.same p s t) (h2 : State.same p t u) : State.same p s u := by
  cases p <;> exact Eq.trans h2 h1

theorem keptBut_trans {l m : List Part} {s t u : State} (h1 : keptBut l s t) (h2 : keptBut m t u) : keptBut (l ++ m) s u := by
  intro p hp
  rw [List.contains_eq_mem, decide_eq_false_iff_not, List.mem_append, not_or] at hp
  exact State.same_trans (h1 p (by simpa using hp.1)) (h2 p (by simpa using hp.2))

theorem keptBut.mono {l m : List Part} {s t : State} (h : keptBut l s t) (e : ∀ p ∈ l, p ∈ m) : keptBut m s t := by
  intro p hp
  refine h p ?_
  rw [List.contains_eq_mem, decide_eq_false_iff_not] at *
  exact fun q => hp (e p q)

theorem keptBut_setF (s : State) (f : Fld) (v : Nat) : keptBut [.flds] s (setF s f v) := by
  intro p hp
  cases p <;> first | rfl | (exact absurd hp (by decide))

theorem putBytes_kept (s : State) (a : Nat) (bs : List Nat) : keptBut [.mem, .marks, .flds] s (putBytes s a bs) := by
  intro p hp
  rw [putBytes_eq]
  cases p <;> first | rfl | (exact absurd hp (by decide))

theorem putDev_kept (s : State) (a : Nat) (bs : List Nat) : keptBut [.mem, .marks, .flds] s (putDev s a bs) := by
  unfold putDev
  split
  · exact putBytes_kept s a bs
  · exact keptBut_refl _ s

theorem putDev_eq (s : State) (a : Nat) (bs : List Nat) :
    putDev s a bs = { s with mem := (putDev s a bs).mem, marks := (putDev s a bs).marks, flds := (putDev s a bs).flds } := by
  unfold putDev
  split
  · rw [putBytes_eq]
  · rfl

theorem regsKept_putDev (s : State) (a : Nat) (bs : List Nat) : regsKept storeKey s (putDev s a bs) := by
  unfold putDev
  split
  · exact regsKept_putBytes s a bs
  · exact regsKept_refl _ s

theorem memKept_putDev (s : State) (a : Nat) (bs : List Nat) : memKept (within a bs.length) s (putDev s a bs) := by
  unfold putDev
  split
  · exact memKept_putBytes s a bs
  · exact memKept_refl _ s

/-! ### Sample records (R484 to R486) -/

theorem tagRecord_length (c : Nat) (t : Tag) (a : Bool) (l k n : Nat) : (tagRecord c t a l k n).length = 64 := by
  simp [tagRecord, leBytes]

theorem padRecord_length (n : Nat) : (padRecord n).length = 64 := by simp [padRecord, leBytes]

theorem setRingOffsets_kept (s : State) (r : Ring) (l : List Nat) : keptBut [.ringRecs] s (setRingOffsets s r l) := by
  intro q hq
  cases q <;> first | rfl | (exact absurd hq (by decide))

theorem keptBut_ite {c : Prop} [Decidable c] {l : List Part} {s t u : State} (h1 : keptBut l s t) (h2 : keptBut l s u) :
    keptBut l s (if c then t else u) := by
  split
  · exact h1
  · exact h2

/-- What a record on the sample ring changes. -/
theorem ringPut_sample_kept (bs : List Nat) (s : State) :
    keptBut [.flds, .mem, .marks, .ringRecs] s (ringPut sampleRing bs s) := by
  unfold ringPut
  refine keptBut_ite (keptBut_refl _ s) ?_
  dsimp only
  rw [if_pos (show sampleRing.num = 2 from rfl)]
  refine keptBut_ite ?_ ((keptBut_setF _ _ _).mono ?_)
  · refine (keptBut_trans (keptBut_trans (keptBut_trans (keptBut_ite (keptBut_refl [.mem, .marks, .flds] s) (putDev_kept _ _ _))
      (putDev_kept _ _ _)) (keptBut_setF _ _ _)) (setRingOffsets_kept _ _ _)).mono ?_
    decide
  · decide

theorem regsKept_ite {c : Prop} [Decidable c] {f : Nat → Bool} {s t u : State} (h1 : regsKept f s t) (h2 : regsKept f s u) :
    regsKept f s (if c then t else u) := by
  split
  · exact h1
  · exact h2

theorem memKept_ite {c : Prop} [Decidable c] {f : Nat → Bool} {s t u : State} (h1 : memKept f s t) (h2 : memKept f s u) :
    memKept f s (if c then t else u) := by
  split
  · exact h1
  · exact h2

theorem pmcKey_storeKey {k : Nat} (h : storeKey k = false) : pmcKey k = false := (storeKey_false h).1

theorem oneOf_false {fs : List Fld} {f : Fld} {k : Nat} (h : oneOf fs k = false) (hf : f ∈ fs) : k ≠ fldKey f .a := by
  rintro rfl
  simp only [oneOf, List.contains_eq_mem, List.mem_map, decide_eq_false_iff_not, not_exists, not_and] at h
  exact h f hf rfl

theorem issueKey_false {k : Nat} (h : issueKey k = false) :
    storeKey k = false ∧ k ≠ fldKey Reg.PMC_SMP_HEAD .a ∧ k ≠ fldKey Reg.PMC_SMP_DROP .a := by
  simp only [issueKey, Bool.or_eq_false_iff] at h
  exact ⟨h.1, oneOf_false h.2 (by decide), oneOf_false h.2 (by decide)⟩

theorem rdByte_setRingOffsets (s : State) (r : Ring) (l : List Nat) (a : Nat) : rdByte (setRingOffsets s r l) a = rdByte s a := rfl
theorem rdByte_setF (s : State) (f : Fld) (v a : Nat) : rdByte (setF s f v) a = rdByte s a := rfl
theorem rdByte_coreSet (s : State) (c : Nat) (k : CoreSt) (a : Nat) : rdByte (coreSet s c k) a = rdByte s a := rfl
theorem flds_setRingOffsets (s : State) (r : Ring) (l : List Nat) : (setRingOffsets s r l).flds = s.flds := rfl
theorem flds_coreSet (s : State) (c : Nat) (k : CoreSt) : (coreSet s c k).flds = s.flds := rfl
theorem sampleBytes_coreSet (s : State) (c : Nat) (k : CoreSt) : sampleBytes (coreSet s c k) = sampleBytes s := rfl

theorem ringPut_sample_regs (bs : List Nat) (s : State) : regsKept issueKey s (ringPut sampleRing bs s) := by
  unfold ringPut
  refine regsKept_ite (regsKept_refl _ s) ?_
  dsimp only
  rw [if_pos (show sampleRing.num = 2 from rfl)]
  refine regsKept_ite ?_ fun k d h => flds_bump_ne (issueKey_false h).2.2
  intro k d h
  obtain ⟨hs, hh, _⟩ := issueKey_false h
  rw [flds_setRingOffsets, flds_setF_ne (f := sampleRing.head) hh, regsKept_putDev _ _ _ k d hs]
  exact regsKept_ite (regsKept_refl storeKey s) (regsKept_putDev _ _ _) k d hs

theorem ringPut_sample_mem (bs : List Nat) (s : State) (hl : bs.length = 64) : memKept (sampleBytes s) s (ringPut sampleRing bs s) := by
  unfold ringPut
  refine memKept_ite (memKept_refl _ s) ?_
  dsimp only
  rw [if_pos (show sampleRing.num = 2 from rfl)]
  refine memKept_ite ?_ (memKept_of_mem _ rfl)
  intro a h
  simp only [sampleBytes, Bool.or_eq_false_iff] at h
  rw [if_neg (show ¬ sampleRing.num = 1 by decide)]
  rw [rdByte_setRingOffsets, rdByte_setF, memKept_putDev _ _ _ a ?_]
  · refine memKept_ite (f := within (ringBase s sampleRing + getF s sampleRing.head) 64) (memKept_refl _ s) ?_ a h.1
    exact memKept_mono (memKept_putDev _ _ _) fun a e => by rw [padRecord_length]; exact e
  · rw [hl]
    split_ifs
    all_goals first | (rw [Nat.add_zero]; exact h.2) | exact h.1

/-! ### Issue and completion (R108, R110, R484) -/

theorem coreSet_kept (s : State) (c : Nat) (k : CoreSt) : keptBut [.cores] s (coreSet s c k) := by
  intro q hq
  cases q <;> first | rfl | (exact absurd hq (by decide))

theorem countEv_kept (e n : Nat) (s : State) : keptBut [.flds] s (countEv e n s) := by
  intro q hq
  rw [countEv_eq]
  cases q <;> first | rfl | (exact absurd hq (by decide))

theorem markVary_kept (s : State) : keptBut [.portion] s (markVary s) := by
  intro q hq
  cases q <;> first | rfl | (exact absurd hq (by decide))

theorem writeSample_kept (c : Nat) (a : Bool) (l : Nat) (s : State) :
    keptBut [.flds, .mem, .marks, .ringRecs, .cores] s (writeSample c a l s) := by
  unfold writeSample
  dsimp only
  split
  · exact keptBut_refl _ s
  · refine (keptBut_trans (coreSet_kept _ _ _) (ringPut_sample_kept _ _)).mono ?_
    decide

theorem writeSample_regs (c : Nat) (a : Bool) (l : Nat) (s : State) : regsKept issueKey s (writeSample c a l s) := by
  unfold writeSample
  dsimp only
  split
  · exact regsKept_refl _ s
  · intro k d h
    rw [ringPut_sample_regs _ _ k d h, flds_coreSet]

theorem writeSample_mem (c : Nat) (a : Bool) (l : Nat) (s : State) : memKept (sampleBytes s) s (writeSample c a l s) := by
  unfold writeSample
  dsimp only
  split
  · exact memKept_refl _ s
  · intro x h
    rw [ringPut_sample_mem _ _ (tagRecord_length ..) x (by rw [sampleBytes_coreSet]; exact h), rdByte_coreSet]

/-- Two core records that differ in nothing but what sampling uses. -/
def sameButSample (k j : CoreSt) : Prop := j = { k with smpCount := j.smpCount, tag := j.tag, skipped := j.skipped }

theorem ringPut_sample_cores (bs : List Nat) (s : State) : (ringPut sampleRing bs s).cores = s.cores :=
  ringPut_sample_kept bs s .cores (by decide)

theorem writeSample_core (c : Nat) (a : Bool) (l : Nat) (s : State) (d : Nat) :
    coreGet (writeSample c a l s) d = (if d = c then { coreGet s c with tag := none, skipped := if (coreGet s c).tag.isSome then 0 else (coreGet s c).skipped } else coreGet s d) := by
  unfold writeSample
  dsimp only
  split
  · next h =>
    split
    · next e =>
      subst e
      rw [h]
      conv_lhs => rw [show coreGet s d = { coreGet s d with tag := none } by rw [← h]]
      rfl
    · rfl
  · next t h =>
    rw [coreGet_congr (ringPut_sample_cores _ _)]
    split
    · next e =>
      subst e
      rw [coreGet_coreSet_self, h]
      rfl
    · next e => exact coreGet_coreSet_ne e

theorem sampleIssue_kept (i : Ins) (o : OpId) (l : Bool) (n : Nat) (s : State) :
    keptBut [.flds, .cores] s (sampleIssue i o l n s) := by
  unfold sampleIssue
  refine keptBut_ite (keptBut_refl _ s) ?_
  dsimp only
  refine keptBut_ite ((coreSet_kept _ _ _).mono ?_) ?_
  · decide
  · split
    · refine (keptBut_trans (coreSet_kept _ _ _) (countEv_kept _ _ _)).mono ?_
      decide
    · refine (coreSet_kept _ _ _).mono ?_
      decide

theorem sampleIssue_regs (i : Ins) (o : OpId) (l : Bool) (n : Nat) (s : State) : regsKept pmcKey s (sampleIssue i o l n s) := by
  unfold sampleIssue
  refine regsKept_ite (regsKept_refl _ s) ?_
  dsimp only
  refine regsKept_ite (regsKept_of_flds _ rfl) ?_
  split
  · intro k d h
    rw [flds_countEv h, flds_coreSet]
  · exact regsKept_of_flds _ rfl

theorem sampleIssue_core (i : Ins) (o : OpId) (l : Bool) (n : Nat) (s : State) :
    sameButSample (coreGet s i.core) (coreGet (sampleIssue i o l n s) i.core) ∧
      ∀ d, d ≠ i.core.val → coreGet (sampleIssue i o l n s) d = coreGet s d := by
  unfold sampleIssue
  split
  · exact ⟨rfl, fun _ _ => rfl⟩
  dsimp only
  split
  · refine ⟨?_, fun d h => coreGet_coreSet_ne h⟩
    rw [coreGet_coreSet_self]
    rfl
  · split
    · refine ⟨?_, fun d h => ?_⟩
      · rw [coreGet_countEv, coreGet_coreSet_self]
        rfl
      · rw [coreGet_countEv]
        exact coreGet_coreSet_ne h
    · refine ⟨?_, fun d h => coreGet_coreSet_ne h⟩
      rw [coreGet_coreSet_self]
      rfl

/-- What issuing an instruction changes beside the core's own record. -/
theorem issued_kept (i : Ins) (u : Option XUnit) (o : OpId) (l : Bool) (s : State) :
    keptBut [.flds, .cores, .mem, .marks, .ringRecs, .portion] s (issued i u o l s) := by
  have h1 : ∀ k n, keptBut [.flds, .cores] s (sampleIssue i o l n (countSlot i.core 0 (coreSet s i.core k))) := by
    intro k n
    refine (keptBut_trans (keptBut_trans (coreSet_kept _ _ _) (countEv_kept _ _ _)) (sampleIssue_kept _ _ _ _ _)).mono ?_
    decide
  have h2 : ∀ k n, keptBut [.flds, .cores, .portion] s
      (if i.vary = true then markVary (sampleIssue i o l n (countSlot i.core 0 (coreSet s i.core k)))
        else sampleIssue i o l n (countSlot i.core 0 (coreSet s i.core k))) := by
    intro k n
    refine keptBut_ite ((keptBut_trans (h1 k n) (markVary_kept _)).mono ?_) ((h1 k n).mono ?_) <;> decide
  unfold issued
  dsimp only
  split
  · refine (h2 _ _).mono ?_
    decide
  · refine keptBut_ite ((keptBut_trans (h2 _ _) (writeSample_kept _ _ _ _)).mono ?_) ((h2 _ _).mono ?_) <;> decide

theorem markVary_portion (s : State) : (markVary s).portion = s.portion.map fun p => { p with vary := true } := rfl

theorem getF_countEv {f : Fld} {e n : Nat} {s : State} (h : pmcKey (fldKey f .a) = false) : getF (countEv e n s) f = getF s f :=
  flds_countEv h

theorem sampleBytes_congr {s t : State} (h1 : getF t Reg.PMC_SMP_HEAD = getF s Reg.PMC_SMP_HEAD)
    (h2 : getF t Reg.PMC_SMP_BASE_LO = getF s Reg.PMC_SMP_BASE_LO) (h3 : getF t Reg.PMC_SMP_BASE_HI = getF s Reg.PMC_SMP_BASE_HI) :
    sampleBytes t = sampleBytes s := by
  unfold sampleBytes ringBase sampleRing
  rw [h1, h2, h3]

/-- Issuing, before a tagged instruction of no unit writes its record. -/
theorem issued_core {i : Ins} {u : Option XUnit} {o : OpId} {l : Bool} {n : Nat} {s s0 s1 s2 : State}
    (h0 : s0 = coreSet s i.core { coreGet s i.core with nextIndex := i.index + 1, stall := 0, outst := match u with
      | some x => (coreGet s i.core).outst ++ [⟨x, i.index⟩] | none => (coreGet s i.core).outst })
    (h1 : s1 = sampleIssue i o l n (countSlot i.core 0 s0)) (h2 : s2 = if i.vary then markVary s1 else s1) :
    Issued s i u s2 ∧ s2.mem = s.mem ∧ sampleBytes s2 = sampleBytes s := by
  have k1 : keptBut [.flds, .cores] s s1 := by
    subst h1 h0
    exact (keptBut_trans (keptBut_trans (coreSet_kept _ _ _) (countEv_kept _ _ _)) (sampleIssue_kept _ _ _ _ _)).mono (m := [.flds, .cores]) (by decide)
  have r1 : regsKept pmcKey s s1 := by
    subst h1 h0
    intro k d h
    rw [sampleIssue_regs _ _ _ _ _ k d h, countSlot, flds_countEv h, flds_coreSet]
  have e1 : s2.flds = s1.flds := by subst h2; split <;> rfl
  have e2 : s2.cores = s1.cores := by subst h2; split <;> rfl
  have e3 : s2.mem = s.mem := by
    have := k1 .mem (by decide)
    subst h2
    split <;> exact this
  have r2 : regsKept pmcKey s s2 := fun k d h => by rw [e1, r1 k d h]
  have c1 := sampleIssue_core i o l n (countSlot i.core 0 s0)
  rw [← h1] at c1
  refine ⟨⟨?_, ?_, ?_, ?_, ?_, ?_⟩, e3, sampleBytes_congr ?_ ?_ ?_⟩
  · refine ⟨(coreGet s1 i.core).smpCount, (coreGet s1 i.core).tag, (coreGet s1 i.core).skipped, ?_⟩
    rw [coreGet_congr e2, c1.1, countSlot, coreGet_countEv, h0, coreGet_coreSet_self]
    cases u <;> simp
  · intro c hc
    rw [coreGet_congr e2, c1.2 c hc, countSlot, coreGet_countEv, h0, coreGet_coreSet_ne hc]
  · have := k1 .portion (by decide)
    subst h2
    split
    · rw [markVary_portion]
      exact congrArg _ this
    · exact this
  · subst h2
    have h3 : keptBut [.flds, .cores, .portion] s (if i.vary then markVary s1 else s1) :=
      keptBut_ite ((keptBut_trans k1 (markVary_kept _)).mono (by decide)) (k1.mono (by decide))
    exact h3.mono (by decide)
  · exact regsKept_mono r2 fun k h => pmcKey_storeKey (issueKey_false h).1
  · exact memKept_of_mem _ e3
  · exact r2 _ _ (by decide)
  · exact r2 _ _ (by decide)
  · exact r2 _ _ (by decide)

/-- A record written for the instruction as it issues leaves it issued. -/
theorem Issued.sample {i : Ins} {l : Nat} {s w : State} (h : Issued s i none w) (hm : w.mem = s.mem) (hs : sampleBytes w = sampleBytes s) :
    Issued s i none (writeSample i.core false l w) := by
  obtain ⟨⟨n, g, m, hc⟩, ho, hp, hk, hr, _⟩ := h
  refine ⟨⟨n, none, if g.isSome then 0 else m, ?_⟩, fun c e => ?_, ?_, ?_, ?_, ?_⟩
  · rw [writeSample_core, if_pos rfl, hc]
  · rw [writeSample_core, if_neg e, ho c e]
  · rw [writeSample_kept _ _ _ _ .portion (by decide), hp]
  · exact (keptBut_trans hk (writeSample_kept _ _ _ _)).mono (by decide)
  · exact regsKept_mono (regsKept_trans hr (writeSample_regs _ _ _ _)) fun k e => by rw [e]; rfl
  · intro a e
    rw [writeSample_mem _ _ _ _ a (by rw [hs]; exact e)]
    simp only [rdByte, hm]

theorem Issued.ite {c : Prop} [Decidable c] {i : Ins} {u : Option XUnit} {s t w : State} (h1 : Issued s i u t) (h2 : Issued s i u w) :
    Issued s i u (if c then t else w) := by
  split
  · exact h1
  · exact h2

/-- What issuing an instruction does, all of it. -/
theorem issued_spec (i : Ins) (u : Option XUnit) (o : OpId) (l : Bool) (s : State) : Issued s i u (issued i u o l s) := by
  obtain ⟨h, hm, hs⟩ := issued_core (i := i) (u := u) (o := o) (l := l) (n := (coreGet s i.core).stall) (s := s) rfl rfl rfl
  unfold issued
  cases u with
  | some x => exact h
  | none => exact Issued.ite (h.sample hm hs) h

theorem issueWith_eq {i : Ins} {u : Option XUnit} {o : OpId} {l : Bool} {eff : State → State} {s : State} (h : mayIssue s i u) :
    issueWith i u o l eff s = eff (issued i u o l s) := by
  obtain ⟨h1, h2, h3⟩ := h
  simp [issueWith, h1, h2, h3]

/-- A slot in which nothing issues. -/
theorem stalled_spec (c k : Nat) (s : State) :
    coreGet (stalled c k s) c = { coreGet s c with stall := k } ∧
      (∀ d, d ≠ c → coreGet (stalled c k s) d = coreGet s d) ∧ keptBut [.cores, .flds] s (stalled c k s) ∧
      regsKept pmcKey s (stalled c k s) := by
  unfold stalled countSlot
  refine ⟨?_, fun d h => ?_, keptBut_trans (coreSet_kept _ _ _) (countEv_kept _ _ _), fun f d h => ?_⟩
  · rw [coreGet_countEv, coreGet_coreSet_self]
  · rw [coreGet_countEv, coreGet_coreSet_ne h]
  · rw [flds_countEv h, flds_coreSet]

theorem issueWith_stalled {i : Ins} {u : Option XUnit} {o : OpId} {l : Bool} {eff : State → State} {s : State} {k : Nat}
    (h1 : coreFenced s i.core = false) (h2 : stageAlive s = true) (h3 : stallCause i u s = some k) :
    issueWith i u o l eff s = stalled i.core k s := by
  simp [issueWith, h1, h2, h3]

theorem issueWith_fenced {i : Ins} {u : Option XUnit} {o : OpId} {l : Bool} {eff : State → State} {s : State}
    (h1 : coreFenced s i.core = true) : issueWith i u o l eff s = s := by
  simp [issueWith, h1]

theorem removeFirst_eq_erase (p : OutIns) (l : List OutIns) : removeFirst (fun o => o == p) l = l.erase p := by
  induction l with
  | nil => rfl
  | cons x t ih => simp only [removeFirst, List.erase_cons, ih]

/-- The completion of an instruction: it leaves the outstanding list, and a tagged one writes its record. -/
theorem complete_spec (c : Nat) (u : XUnit) (index latency : Nat) (s : State) :
    (∃ g m, coreGet (complete c u index latency s) c = { coreGet s c with outst := (coreGet s c).outst.erase ⟨u, index⟩, tag := g, skipped := m }) ∧
      (∀ d, d ≠ c → coreGet (complete c u index latency s) d = coreGet s d) ∧
      keptBut [.cores, .flds, .mem, .marks, .ringRecs] s (complete c u index latency s) ∧
      regsKept issueKey s (complete c u index latency s) ∧ memKept (sampleBytes s) s (complete c u index latency s) := by
  unfold complete
  dsimp only
  split
  · rw [removeFirst_eq_erase]
    split
    · refine ⟨⟨none, if (coreGet s c).tag.isSome then 0 else (coreGet s c).skipped, ?_⟩, ?_, ?_, ?_, ?_⟩
      · rw [writeSample_core, if_pos rfl, coreGet_coreSet_self]
      · intro d hd
        rw [writeSample_core, if_neg hd, coreGet_coreSet_ne hd]
      · exact (keptBut_trans (coreSet_kept _ _ _) (writeSample_kept _ _ _ _)).mono (by decide)
      · intro a b e
        rw [writeSample_regs _ _ _ _ a b e, flds_coreSet]
      · intro a e
        rw [writeSample_mem _ _ _ _ a (by rw [sampleBytes_coreSet]; exact e), rdByte_coreSet]
    · refine ⟨⟨(coreGet s c).tag, (coreGet s c).skipped, by rw [coreGet_coreSet_self]⟩, fun d hd => coreGet_coreSet_ne hd,
        (coreSet_kept _ _ _).mono (by decide), regsKept_of_flds _ rfl, memKept_of_mem _ rfl⟩
  · next h =>
    refine ⟨⟨(coreGet s c).tag, (coreGet s c).skipped, ?_⟩, fun d _ => rfl, keptBut_refl _ _, regsKept_refl _ _, memKept_refl _ _⟩
    rw [List.erase_of_not_mem (by simpa using h)]

/-! ### Several stores, slots wasted, a core's work discarded -/

/-- Storing several runs of bytes stores them one after another. -/
theorem putRuns_spec (l : List (Nat × List Nat)) (s : State) :
    (putRuns s l).mem = l.foldl (fun m r => Memory.writeBytes m r.1 r.2) s.mem ∧ keptBut [.mem, .marks, .flds] s (putRuns s l) ∧
      regsKept storeKey s (putRuns s l) := by
  induction l generalizing s with
  | nil => exact ⟨rfl, keptBut_refl _ _, regsKept_refl _ _⟩
  | cons x l ih =>
    obtain ⟨h1, h2, h3⟩ := ih (putBytes s x.1 x.2)
    refine ⟨?_, (keptBut_trans (putBytes_kept _ _ _) h2).mono (by decide), fun k d e => ?_⟩
    · rw [List.foldl_cons, ← putBytes_mem]
      exact h1
    · exact (h3 k d e).trans (regsKept_putBytes _ _ _ k d e)

theorem addPoison_kept (x : PoisonSrc) (s : State) : keptBut [.portion] s (addPoison x s) := by
  intro p hp
  cases p <;> first | rfl | (exact absurd hp (by decide))

theorem addPoisons_spec (gs : List Nat) (s : State) :
    keptBut [.portion] s (gs.foldl (fun t g => addPoison (.memory g) t) s) := by
  induction gs generalizing s with
  | nil => exact keptBut_refl _ _
  | cons g gs ih => exact (keptBut_trans (addPoison_kept (.memory g) s) (ih _)).mono (by decide)

/-- A store of the portion: the bytes as putBytes stores them, and no more than a mark of the portion. -/
theorem storeLocal_spec (s : State) (a : Nat) (bs : List Nat) :
    keptBut [.portion] (putBytes s a bs) (storeLocal s a bs) ∧ keptBut [.mem, .marks, .flds, .portion] s (storeLocal s a bs) ∧
      regsKept storeKey s (storeLocal s a bs) ∧ memKept (within a bs.length) s (storeLocal s a bs) := by
  have h := addPoisons_spec (partFailing s a bs.length) (putBytes s a bs)
  refine ⟨h, (keptBut_trans (putBytes_kept s a bs) h).mono (by decide), fun k d e => ?_, fun c e => ?_⟩
  · rw [show (storeLocal s a bs).flds = (putBytes s a bs).flds from h .flds (by decide)]
    exact regsKept_putBytes s a bs k d e
  · rw [rdByte_congr (show (storeLocal s a bs).mem = (putBytes s a bs).mem from h .mem (by decide))]
    exact memKept_putBytes s a bs c e

/-- With no failing granule stored in part, it is putBytes. -/
theorem storeLocal_clean {s : State} {a : Nat} {bs : List Nat} (h : partFailing s a bs.length = []) :
    storeLocal s a bs = putBytes s a bs := by simp [storeLocal, h]

theorem storeRuns_spec (l : List (Nat × List Nat)) (s : State) :
    (storeRuns s l).mem = l.foldl (fun m r => Memory.writeBytes m r.1 r.2) s.mem ∧
      keptBut [.mem, .marks, .flds, .portion] s (storeRuns s l) ∧ regsKept storeKey s (storeRuns s l) := by
  induction l generalizing s with
  | nil => exact ⟨rfl, keptBut_refl _ _, regsKept_refl _ _⟩
  | cons x l ih =>
    obtain ⟨h1, h2, h3⟩ := ih (storeLocal s x.1 x.2)
    obtain ⟨g0, g1, g2, -⟩ := storeLocal_spec s x.1 x.2
    refine ⟨?_, (keptBut_trans g1 h2).mono (by decide), fun k d e => ?_⟩
    · rw [List.foldl_cons, ← putBytes_mem, ← show (storeLocal s x.1 x.2).mem = (putBytes s x.1 x.2).mem from g0 .mem (by decide)]
      exact h1
    · exact (h3 k d e).trans (g2 k d e)

/-- Detections of operands in core SRAM touch the counter of detections and the portion's marks alone. -/
theorem localDetect_spec (gs : List Nat) (s : State) :
    keptBut [.flds, .portion] s (localDetect gs s) ∧ regsKept storeKey s (localDetect gs s) := by
  unfold localDetect
  induction gs generalizing s with
  | nil => exact ⟨keptBut_refl _ _, regsKept_refl _ _⟩
  | cons g gs ih =>
    obtain ⟨h1, h2⟩ := ih (addPoison (.memory g) (bump s Reg.MEM_SRAM_DETECT 1))
    refine ⟨(keptBut_trans (keptBut_trans (keptBut_setF s _ _) (addPoison_kept (.memory g) _)) h1).mono (by decide), fun k d e => ?_⟩
    rw [List.foldl_cons, h2 k d e]
    exact flds_bump_ne (storeKey_false e).2.2

theorem localDetect_nil (s : State) : localDetect [] s = s := rfl

theorem pmcSub_spec {fuel e n : Nat} (s : State) (hb : e + fuel ≤ 4096) :
    keptBut [.flds] s (pmcSub fuel e n s) ∧ regsKept pmcKey s (pmcSub fuel e n s) := by
  induction fuel generalizing e n s with
  | zero => exact ⟨keptBut_refl _ _, regsKept_refl _ _⟩
  | succ j ih =>
    have hc : ∀ v, regsKept pmcKey s (setF s (Reg.PMC_COUNTER e) v) := fun v k d h => flds_setF_ne (pmcKey_counter h (by omega))
    simp only [pmcSub]
    refine ⟨keptBut_ite (keptBut_setF _ _ _) (keptBut_ite ?_ (keptBut_setF _ _ _)), regsKept_ite (hc _) (regsKept_ite ?_ (hc _))⟩
    · exact (keptBut_trans (keptBut_setF _ _ _) (ih _ (by omega)).1).mono (by decide)
    · exact regsKept_mono (regsKept_trans (hc _) (ih _ (by omega)).2) fun k e => by rw [e]; rfl

theorem wasteSlots_spec (c n : Nat) (s : State) (hc : c ≤ 1024) :
    keptBut [.flds, .movesHeld] s (wasteSlots c n s) ∧ regsKept pmcKey s (wasteSlots c n s) := by
  unfold wasteSlots
  refine ⟨keptBut_ite (keptBut_refl _ _) (keptBut_ite ?_ ?_), regsKept_ite (regsKept_refl _ _) (regsKept_ite (regsKept_of_flds _ rfl) ?_)⟩
  · intro q hq
    cases q <;> first | rfl | (exact absurd hq (by decide))
  · exact (keptBut_trans (pmcSub_spec s (by omega)).1 (countEv_kept _ _ _)).mono (by decide)
  · exact regsKept_mono (regsKept_trans (pmcSub_spec s (by omega)).2 (regsKept_countEv _ _ _)) fun k e => by rw [e]; rfl

/-- What discarding the instructions that `p` names leaves outstanding, and in the MX queue. -/
def leftOut (p : Nat → Bool) (k : CoreSt) : List OutIns := k.outst.filter fun o => !p o.index
def leftMxq (p : Nat → Bool) (k : CoreSt) : List MxItem :=
  k.mxq.filter fun x => match x with | .pass q => !p q.index | .acc j _ => !p j

/-- The state of a core whose named instructions, their commands, descriptors, operations and fences are gone. -/
theorem discardIns_spec (c : Nat) (p : Nat → Bool) (s : State) (hc : c ≤ 1024) :
    (∃ n g m, coreGet (discardIns c p s) c = { coreGet s c with outst := leftOut p (coreGet s c), mxq := leftMxq p (coreGet s c), smpCount := n, tag := g, skipped := m }) ∧
      (∀ d, d ≠ c → coreGet (discardIns c p s) d = coreGet s d) ∧
      (discardIns c p s).engQ = (dropCoreCmds c p s.engQ).filter (fun p => !p.2.isEmpty) ∧
      (discardIns c p s).sashQ = (dropCoreDescs c p s.sashQ).filter (fun p => !p.2.isEmpty) ∧
      (discardIns c p s).fab = { s.fab with
        ops := s.fab.ops.map fun (o : FabOp) => if o.core == c && p o.index && !o.done then { o with done := true, size := 0 } else o,
        fences := s.fab.fences.filter fun f => !(f.core == c && p f.index) } ∧
      keptBut [.cores, .flds, .mem, .marks, .ringRecs, .engQ, .sashQ, .fab, .movesHeld] s (discardIns c p s) ∧
      regsKept issueKey s (discardIns c p s) ∧ memKept (sampleBytes s) s (discardIns c p s) := by
  have key : ∀ w : State, keptBut [.cores, .flds, .movesHeld] s w → regsKept pmcKey s w →
      coreGet w c = { coreGet s c with outst := leftOut p (coreGet s c), mxq := leftMxq p (coreGet s c) } → (∀ d, d ≠ c → coreGet w d = coreGet s d) →
      let s2 : State := { w with
        engQ := (dropCoreCmds c p w.engQ).filter (fun p => !p.2.isEmpty)
        sashQ := (dropCoreDescs c p w.sashQ).filter (fun p => !p.2.isEmpty)
        fab.ops := w.fab.ops.map fun (o : FabOp) => if o.core == c && p o.index && !o.done then { o with done := true, size := 0 } else o
        fab.fences := w.fab.fences.filter fun f => !(f.core == c && p f.index) }
      ∀ (b : Bool), let t := if b then writeSample c true 0 s2 else s2
        (∃ n g m, coreGet t c = { coreGet s c with outst := leftOut p (coreGet s c), mxq := leftMxq p (coreGet s c), smpCount := n, tag := g, skipped := m }) ∧
        (∀ d, d ≠ c → coreGet t d = coreGet s d) ∧
        t.engQ = (dropCoreCmds c p s.engQ).filter (fun p => !p.2.isEmpty) ∧
        t.sashQ = (dropCoreDescs c p s.sashQ).filter (fun p => !p.2.isEmpty) ∧
        t.fab = { s.fab with
          ops := s.fab.ops.map fun (o : FabOp) => if o.core == c && p o.index && !o.done then { o with done := true, size := 0 } else o,
          fences := s.fab.fences.filter fun f => !(f.core == c && p f.index) } ∧
        keptBut [.cores, .flds, .mem, .marks, .ringRecs, .engQ, .sashQ, .fab, .movesHeld] s t ∧
        regsKept issueKey s t ∧ memKept (sampleBytes s) s t := by
    intro w hk hr h1 h2 s2 b
    have e1 : w.engQ = s.engQ := hk .engQ (by decide)
    have e2 : w.sashQ = s.sashQ := hk .sashQ (by decide)
    have e3 : w.fab = s.fab := hk .fab (by decide)
    have e4 : w.mem = s.mem := hk .mem (by decide)
    have k2 : keptBut [.engQ, .sashQ, .fab] w s2 := by
      intro q hq
      cases q <;> first | rfl | (exact absurd hq (by decide))
    have r2 : regsKept pmcKey s s2 := hr
    have hs : sampleBytes s2 = sampleBytes s :=
      sampleBytes_congr (r2 _ _ (by decide)) (r2 _ _ (by decide)) (r2 _ _ (by decide))
    have c2 : coreGet s2 c = { coreGet s c with outst := leftOut p (coreGet s c), mxq := leftMxq p (coreGet s c) } := h1
    have c3 : ∀ d, d ≠ c → coreGet s2 d = coreGet s d := h2
    have q1 : s2.engQ = (dropCoreCmds c p s.engQ).filter (fun p => !p.2.isEmpty) := by rw [← e1]
    have q2 : s2.sashQ = (dropCoreDescs c p s.sashQ).filter (fun p => !p.2.isEmpty) := by rw [← e2]
    have q3 : s2.fab = { s.fab with
        ops := s.fab.ops.map fun (o : FabOp) => if o.core == c && p o.index && !o.done then { o with done := true, size := 0 } else o,
        fences := s.fab.fences.filter fun f => !(f.core == c && p f.index) } := by rw [← e3]
    have q4 : rdByte s2 = rdByte s := by
      funext a
      exact rdByte_congr e4 a
    have k3 := keptBut_trans hk k2
    clear_value s2
    cases b with
    | false =>
      refine ⟨⟨_, _, _, c2⟩, c3, q1, q2, q3, k3.mono (by decide), ?_, fun a _ => by rw [← q4]; rfl⟩
      exact regsKept_mono r2 fun k e => pmcKey_storeKey (issueKey_false e).1
    | true =>
      have kw := writeSample_kept c true 0 s2
      refine ⟨⟨(coreGet s c).smpCount, none, if (coreGet s c).tag.isSome then 0 else (coreGet s c).skipped, ?_⟩, fun d e => ?_, ?_, ?_, ?_,
        (keptBut_trans k3 kw).mono (by decide), fun k d e => ?_, fun a e => ?_⟩
      · show coreGet (writeSample c true 0 s2) c = _
        rw [writeSample_core, if_pos rfl, c2]
      · show coreGet (writeSample c true 0 s2) d = _
        rw [writeSample_core, if_neg e, c3 d e]
      · exact (kw .engQ (by decide)).trans q1
      · exact (kw .sashQ (by decide)).trans q2
      · exact (kw .fab (by decide)).trans q3
      · rw [show (if true = true then writeSample c true 0 s2 else s2) = writeSample c true 0 s2 from rfl, writeSample_regs _ _ _ _ k d e]
        exact r2 k d (pmcKey_storeKey (issueKey_false e).1)
      · rw [show (if true = true then writeSample c true 0 s2 else s2) = writeSample c true 0 s2 from rfl,
          writeSample_mem _ _ _ _ a (by rw [hs]; exact e), q4]
  have hw := wasteSlots_spec c ((coreGet s c).outst.filter fun o => p o.index).length (coreSet s c { coreGet s c with outst := leftOut p (coreGet s c), mxq := leftMxq p (coreGet s c) }) hc
  have hcores : (wasteSlots c ((coreGet s c).outst.filter fun o => p o.index).length (coreSet s c { coreGet s c with outst := leftOut p (coreGet s c), mxq := leftMxq p (coreGet s c) })).cores =
      (coreSet s c { coreGet s c with outst := leftOut p (coreGet s c), mxq := leftMxq p (coreGet s c) }).cores := hw.1 .cores (by decide)
  exact key _ ((keptBut_trans (coreSet_kept _ _ _) hw.1).mono (by decide)) hw.2
    (by rw [coreGet_congr hcores, coreGet_coreSet_self]) (fun d h => by rw [coreGet_congr hcores, coreGet_coreSet_ne h]) _

end Sys2Proof.Machine
end

