-- ==== Sys2Proof/Laws/Frames.lean ====
section
/-!
SUPPORT. Laws/Frames.lean: which parts of the state each shared operation can change.
-/
namespace Sys2Proof.Machine

theorem setP_kept (s : State) (p : Port) (f : Fld) (v : Nat) : keptBut [.flds] s (setP s p f v) := by
  intro q hq
  cases q <;> first | rfl | (exact absurd hq (by decide))

theorem setB_kept (s : State) (f : Fld) (b : Bool) : keptBut [.flds] s (setB s f b) := setP_kept _ _ _ _
theorem setBit_kept (s : State) (f : Fld) (i : Nat) (b : Bool) : keptBut [.flds] s (setBit s f i b) := setP_kept _ _ _ _
theorem bump_kept (s : State) (f : Fld) (n : Nat) : keptBut [.flds] s (bump s f n) := setP_kept _ _ _ _

theorem setPortion_kept (s : State) (x : Option Portion) : keptBut [.portion] s { s with portion := x } := by
  intro q hq
  cases q <;> first | rfl | (exact absurd hq (by decide))

theorem emit_kept (s : State) (o : Out) : keptBut [.out] s (emit s o) := by
  intro q hq
  cases q <;> first | rfl | (exact absurd hq (by decide))

theorem setHoldoff_kept (s : State) (p : Port) (b : Bool) : keptBut irqParts s (setHoldoff s p b) := by
  intro q hq
  cases p <;> cases q <;> first | rfl | (exact absurd hq (by decide))

theorem setDeferred_kept (s : State) (p : Port) (b : Bool) : keptBut irqParts s (setDeferred s p b) := by
  intro q hq
  cases p <;> cases q <;> first | rfl | (exact absurd hq (by decide))

theorem sendVector_kept (p : Port) (n : Nat) (s : State) : keptBut irqParts s (sendVector p n s) := by
  unfold sendVector
  refine keptBut_ite (keptBut_refl _ _) (keptBut_ite (keptBut_ite (setDeferred_kept _ _ _) ?_) ((emit_kept _ _).mono (by decide)))
  exact (keptBut_trans (emit_kept _ _) (setHoldoff_kept _ _ _)).mono (by decide)

/-- An interrupt cause (R423). -/
theorem irq_kept (p : Port) (n : Nat) (s : State) : keptBut irqParts s (irq p n s) := by
  unfold irq
  refine keptBut_ite (keptBut_refl _ _) (keptBut_ite ?_ ((setP_kept _ _ _ _).mono (by decide)))
  exact (keptBut_trans (setP_kept _ _ _ _) (sendVector_kept _ _ _)).mono (by decide)

theorem irqBoth_kept (n : Nat) (s : State) : keptBut irqParts s (irqBoth n s) :=
  (keptBut_trans (irq_kept _ _ _) (irq_kept _ _ _)).mono (by decide)

theorem pf1Vector_kept (p : Port) (s : State) : keptBut [.out] s (pf1Vector p s) :=
  keptBut_ite (emit_kept _ _) (keptBut_refl _ _)

theorem alert_kept (f : Fld) (s : State) : keptBut irqParts s (alert f s) := by
  unfold alert
  refine keptBut_ite (keptBut_refl _ _) ?_
  exact (keptBut_trans (keptBut_trans (keptBut_trans (keptBut_trans (setB_kept _ _ _) (irqBoth_kept _ _)) (pf1Vector_kept _ _))
    (pf1Vector_kept _ _)) (emit_kept _ _)).mono (by decide)

theorem addRecovered_kept (s : State) : keptBut [.portion] s (addRecovered s) := by
  intro q hq
  cases q <;> first | rfl | (exact absurd hq (by decide))

theorem lastFault_kept (c cause layer : Nat) (s : State) : keptBut irqParts s (lastFault c cause layer s) := by
  unfold lastFault
  exact (keptBut_trans (keptBut_trans (keptBut_trans (keptBut_setF _ _ _) (keptBut_setF _ _ _)) (keptBut_setF _ _ _))
    (irqBoth_kept _ _)).mono (by decide)

theorem foldl_kept {α : Type} {l : List Part} {f : State → α → State} (xs : List α) (s : State)
    (h : ∀ t x, keptBut l t (f t x)) : keptBut l s (xs.foldl f s) := by
  induction xs generalizing s with
  | nil => exact keptBut_refl _ _
  | cons x t ih => exact (keptBut_trans (h s x) (ih (f s x))).mono (by simp)

theorem countLayer_kept (layer k n : Nat) (s : State) : keptBut [.flds] s (countLayer layer k n s) :=
  foldl_kept _ _ fun _ _ => keptBut_ite (countEv_kept _ _ _) (keptBut_refl _ _)

theorem countFmt_kept (layer : Nat) (ev : FmtEv) (s : State) : keptBut [.flds, .portion] s (countFmt layer ev s) := by
  unfold countFmt
  refine keptBut_ite (keptBut_refl _ _) ?_
  have h1 : keptBut [.flds] s ((fmtList ev).foldl (fun t x => countLayer layer x.2.1 x.2.2 (bump t x.1 x.2.2)) s) :=
    foldl_kept _ _ fun _ _ => (keptBut_trans (bump_kept _ _ _) (countLayer_kept _ _ _ _)).mono (by decide)
  exact (keptBut_trans h1 (setPortion_kept _ _)).mono (by decide)

/-! ### Registers -/

theorem flds_setP_ne {s : State} {p : Port} {f : Fld} {v k d : Nat} (h : k ≠ fldKey f p) :
    smGet d (setP s p f v).flds k = smGet d s.flds k := smGet_smSet_other h

theorem irqKey_ne {k n : Nat} (p : Port) (h : irqKey k = false) (hn : n < 7) : k ≠ fldKey (causeFld n) p := by
  rintro rfl
  simp only [irqKey, List.any_eq_false] at h
  have := h n (by simpa using hn)
  cases p <;> interval_cases n <;> simp [fldKey, causeFld, Reg.HOST_IRQ_CAUSE_CPL, Reg.HOST_IRQ_CAUSE_RING, Reg.HOST_IRQ_CAUSE_CMD,
    Reg.HOST_IRQ_CAUSE_FAULT, Reg.HOST_IRQ_CAUSE_ALERT, Reg.HOST_IRQ_CAUSE_PEER, Reg.HOST_IRQ_CAUSE_CLK] at this

theorem flds_sendVector (p : Port) (n : Nat) (s : State) : (sendVector p n s).flds = s.flds := by
  unfold sendVector
  split
  · rfl
  · split
    · split
      · cases p <;> rfl
      · cases p <;> rfl
    · rfl

/-- An interrupt writes its cause bit only. -/
theorem regsKept_irq (p : Port) {n : Nat} (hn : n < 7) (s : State) : regsKept irqKey s (irq p n s) := by
  intro k d h
  unfold irq
  split
  · rfl
  · dsimp only
    split
    · rw [flds_sendVector, flds_setP_ne (irqKey_ne p h hn)]
    · rw [flds_setP_ne (irqKey_ne p h hn)]

theorem regsKept_irqBoth {n : Nat} (hn : n < 7) (s : State) : regsKept irqKey s (irqBoth n s) := fun k d h => by
  unfold irqBoth
  rw [regsKept_irq .b hn _ k d h, regsKept_irq .a hn _ k d h]

theorem getF_irqBoth {n : Nat} (hn : n < 7) (s : State) (f : Fld) (h : irqKey (fldKey f .a) = false) :
    getF (irqBoth n s) f = getF s f := regsKept_irqBoth hn s _ _ h

theorem foldl_regs {α : Type} {g : Nat → Bool} {f : State → α → State} (xs : List α) (s : State)
    (h : ∀ t x, regsKept g t (f t x)) : regsKept g s (xs.foldl f s) := by
  induction xs generalizing s with
  | nil => exact regsKept_refl _ _
  | cons x t ih => exact regsKept_mono (regsKept_trans (h s x) (ih (f s x))) fun k e => by rw [e]; rfl

theorem regsKept_countLayer (layer k n : Nat) (s : State) : regsKept pmcKey s (countLayer layer k n s) :=
  foldl_regs _ _ fun _ _ => regsKept_ite (regsKept_countEv _ _ _) (regsKept_refl _ _)

theorem regsKept_countFmt (layer : Nat) (ev : FmtEv) (s : State) : regsKept (fun k => pmcKey k || fmtKey k) s (countFmt layer ev s) := by
  intro k d h
  rw [Bool.or_eq_false_iff] at h
  unfold countFmt
  split
  · rfl
  · simp only [fmtList, List.foldl_cons, List.foldl_nil]
    rw [regsKept_countLayer _ _ _ _ k d h.1, flds_bump_ne (oneOf_false h.2 (by decide)),
      regsKept_countLayer _ _ _ _ k d h.1, flds_bump_ne (oneOf_false h.2 (by decide)),
      regsKept_countLayer _ _ _ _ k d h.1, flds_bump_ne (oneOf_false h.2 (by decide)),
      regsKept_countLayer _ _ _ _ k d h.1, flds_bump_ne (oneOf_false h.2 (by decide)),
      regsKept_countLayer _ _ _ _ k d h.1, flds_bump_ne (oneOf_false h.2 (by decide)),
      regsKept_countLayer _ _ _ _ k d h.1, flds_bump_ne (oneOf_false h.2 (by decide))]

end Sys2Proof.Machine
end

