-- ==== Sys2Proof/Laws/PerInstr.lean ====
section
/-!
SUPPORT. Laws/PerInstr.lean: one lemma per constructor of Instr: a command that carries no field checked at load is well
formed whatever its operands.
-/
namespace Sys2Proof.Laws

/-- The instructions with a field that an image's load checks (R70, R71, R109, R310). -/
def F.carriesFields : Instr → Bool
  | .mma _ _ _ _ _ _ => true
  | .mmaX _ _ _ _ _ => true
  | .mmaF16 _ _ _ _ _ _ => true
  | .accZero _ _ _ => true
  | .accConvert _ _ _ _ _ _ _ _ => true
  | .accExport _ _ _ _ => true
  | .accImport _ _ _ _ => true
  | .wait _ _ _ => true
  | .rload _ _ _ _ _ _ => true
  | .rstore _ _ _ _ _ _ => true
  | .rfadd _ _ _ _ _ _ => true
  | .rcas _ _ _ _ _ _ => true
  | .rmin _ _ _ _ _ _ => true
  | .rmax _ _ _ _ _ _ => true
  | .rreduce _ _ _ _ _ _ _ _ => true
  | .rmstore _ _ _ _ _ _ => true
  | .rretry _ _ _ _ _ _ => true
  | _ => false

/-- A command without such a field is well formed. -/
def F.Statement (i : Instr) : Prop := F.carriesFields i = false → i.wf = true

theorem F.registerWrite (p : Port) (off : Nat) (v : BitVec 32) : F.Statement (.registerWrite p off v) := fun _ => rfl
theorem F.badAccess (p : Port) (bar4 : Bool) (off size : Nat) (write : Bool) : F.Statement (.badAccess p bar4 off size write) := fun _ => rfl
theorem F.pairLowerRead (p : Port) (off : Nat) : F.Statement (.pairLowerRead p off) := fun _ => rfl
theorem F.pairUpperRead (p : Port) (off : Nat) : F.Statement (.pairUpperRead p off) := fun _ => rfl
theorem F.lockSet (p : Port) (block : Fin 12) : F.Statement (.lockSet p block) := fun _ => rfl
theorem F.nop (i : Ins) : F.Statement (.nop i) := fun _ => rfl
theorem F.loop (i : Ins) (target : Nat) (taken : Bool) : F.Statement (.loop i target taken) := fun _ => rfl
theorem F.branch (i : Ins) (target : Nat) (taken : Bool) : F.Statement (.branch i target taken) := fun _ => rfl
theorem F.fallbackEntry (i : Ins) : F.Statement (.fallbackEntry i) := fun _ => rfl
theorem F.endLayer (i : Ins) : F.Statement (.endLayer i) := fun _ => rfl
theorem F.endStep (i : Ins) : F.Statement (.endStep i) := fun _ => rfl
theorem F.mma (i : Ins) (aGranule wGranule row mMinus1 : Nat) (wfmt : WFmt) : F.Statement (.mma i aGranule wGranule row mMinus1 wfmt) := by intro h; simp [F.carriesFields] at h
theorem F.mmaX (i : Ins) (aGranule wGranule row mMinus1 : Nat) : F.Statement (.mmaX i aGranule wGranule row mMinus1) := by intro h; simp [F.carriesFields] at h
theorem F.mmaF16 (i : Ins) (aGranule wGranule row mMinus1 : Nat) (wfmt : WFmt) : F.Statement (.mmaF16 i aGranule wGranule row mMinus1 wfmt) := by intro h; simp [F.carriesFields] at h
theorem F.mmaPassComplete (core : Fin 192) (mismatch : Bool) (latency : Nat) : F.Statement (.mmaPassComplete core mismatch latency) := fun _ => rfl
theorem F.residueRerunComplete (core : Fin 192) (mismatch : Bool) (latency : Nat) (t : Nat) : F.Statement (.residueRerunComplete core mismatch latency t) := fun _ => rfl
theorem F.accZero (i : Ins) (row m : Nat) : F.Statement (.accZero i row m) := by intro h; simp [F.carriesFields] at h
theorem F.accConvert (i : Ins) (row m : Nat) (fmt : ConvFmt) (ctl dst elem0 : Nat) (coords : List RowCoord) : F.Statement (.accConvert i row m fmt ctl dst elem0 coords) := by intro h; simp [F.carriesFields] at h
theorem F.trapMessage (core : Fin 192) (layer : Nat) : F.Statement (.trapMessage core layer) := fun _ => rfl
theorem F.trapDrainDone (core : Fin 192) (entry : Nat) : F.Statement (.trapDrainDone core entry) := fun _ => rfl
theorem F.accExport (i : Ins) (row col dst : Nat) : F.Statement (.accExport i row col dst) := by intro h; simp [F.carriesFields] at h
theorem F.accImport (i : Ins) (row col src : Nat) : F.Statement (.accImport i row col src) := by intro h; simp [F.carriesFields] at h
theorem F.vecOp (i : Ins) (fn : VecFn) (lanes dst src1 src2 src3 : Nat) : F.Statement (.vecOp i fn lanes dst src1 src2 src3) := fun _ => rfl
theorem F.mov (i : Ins) (descGranule : Nat) (commons : Bool) (countMinus1 : Fin 64) : F.Statement (.mov i descGranule commons countMinus1) := fun _ => rfl
theorem F.memLoad (i : Ins) (addr len dst : Nat) (chk : List (Nat × Check)) (hostOk : Bool) : F.Statement (.memLoad i addr len dst chk hostOk) := fun _ => rfl
theorem F.memStore (i : Ins) (addr src len : Nat) (chk : List (Nat × Check)) : F.Statement (.memStore i addr src len chk) := fun _ => rfl
theorem F.memAtomic (i : Ins) (fn : AtomFn) (wide : Bool) (addr operand compare dst : Nat) (chk : List (Nat × Check)) : F.Statement (.memAtomic i fn wide addr operand compare dst chk) := fun _ => rfl
theorem F.memFence (i : Ins) : F.Statement (.memFence i) := fun _ => rfl
theorem F.memRelease (i : Ins) (addr src len : Nat) (chk : List (Nat × Check)) : F.Statement (.memRelease i addr src len chk) := fun _ => rfl
theorem F.memAcquire (i : Ins) (addr len dst : Nat) (chk : List (Nat × Check)) (hostOk : Bool) : F.Statement (.memAcquire i addr len dst chk hostOk) := fun _ => rfl
theorem F.engRequest (i : Ins) (engine : Engine) (half : Half) (granule : Nat) : F.Statement (.engRequest i engine half granule) := fun _ => rfl
theorem F.wait (i : Ins) (units count : Nat) : F.Statement (.wait i units count) := by intro h; simp [F.carriesFields] at h
theorem F.barrier (i : Ins) : F.Statement (.barrier i) := fun _ => rfl
theorem F.instructionComplete (core : Fin 192) (unit : XUnit) (index latency : Nat) : F.Statement (.instructionComplete core unit index latency) := fun _ => rfl
theorem F.rload (i : Ins) (target job size offset loc : Nat) : F.Statement (.rload i target job size offset loc) := by intro h; simp [F.carriesFields] at h
theorem F.rstore (i : Ins) (target job size offset loc : Nat) : F.Statement (.rstore i target job size offset loc) := by intro h; simp [F.carriesFields] at h
theorem F.rfadd (i : Ins) (target job size offset loc : Nat) : F.Statement (.rfadd i target job size offset loc) := by intro h; simp [F.carriesFields] at h
theorem F.rcas (i : Ins) (target job size offset loc : Nat) : F.Statement (.rcas i target job size offset loc) := by intro h; simp [F.carriesFields] at h
theorem F.rmin (i : Ins) (target job size offset loc : Nat) : F.Statement (.rmin i target job size offset loc) := by intro h; simp [F.carriesFields] at h
theorem F.rmax (i : Ins) (target job size offset loc : Nat) : F.Statement (.rmax i target job size offset loc) := by intro h; simp [F.carriesFields] at h
theorem F.rreduce (i : Ins) (target job size : Nat) (form : Bool) (scale offset loc : Nat) : F.Statement (.rreduce i target job size form scale offset loc) := by intro h; simp [F.carriesFields] at h
theorem F.rmstore (i : Ins) (group job size offset loc : Nat) : F.Statement (.rmstore i group job size offset loc) := by intro h; simp [F.carriesFields] at h
theorem F.rfence (i : Ins) : F.Statement (.rfence i) := fun _ => rfl
theorem F.rretry (i : Ins) (target job size offset loc : Nat) : F.Statement (.rretry i target job size offset loc) := by intro h; simp [F.carriesFields] at h
theorem F.preemptionPost (cores : List (Fin 192)) : F.Statement (.preemptionPost cores) := fun _ => rfl
theorem F.cheapPointSave (core : Fin 192) (index lrIndex : Nat) : F.Statement (.cheapPointSave core index lrIndex) := fun _ => rfl
theorem F.preemptResume (core : Fin 192) : F.Statement (.preemptResume core) := fun _ => rfl
theorem F.softmax (half : Half) (chk : List (Nat × Check)) (hostOk : Bool) : F.Statement (.softmax half chk hostOk) := fun _ => rfl
theorem F.rmsnorm (half : Half) (chk : List (Nat × Check)) (hostOk : Bool) : F.Statement (.rmsnorm half chk hostOk) := fun _ => rfl
theorem F.layernorm (half : Half) (chk : List (Nat × Check)) (hostOk : Bool) : F.Statement (.layernorm half chk hostOk) := fun _ => rfl
theorem F.rotate (half : Half) (chk : List (Nat × Check)) (hostOk : Bool) : F.Statement (.rotate half chk hostOk) := fun _ => rfl
theorem F.append (half : Half) (chk : List (Nat × Check)) (hostOk : Bool) : F.Statement (.append half chk hostOk) := fun _ => rfl
theorem F.sample (half : Half) (chk : List (Nat × Check)) (hostOk : Bool) : F.Statement (.sample half chk hostOk) := fun _ => rfl
theorem F.verify (half : Half) (chk : List (Nat × Check)) (hostOk : Bool) : F.Statement (.verify half chk hostOk) := fun _ => rfl
theorem F.walk (half : Half) (chk : List (Nat × Check)) : F.Statement (.walk half chk) := fun _ => rfl
theorem F.route (half : Half) (chk : List (Nat × Check)) (hostOk : Bool) : F.Statement (.route half chk hostOk) := fun _ => rfl
theorem F.engineCommandDone (half : Half) (engine : Engine) (latency : Nat) : F.Statement (.engineCommandDone half engine latency) := fun _ => rfl
theorem F.engineWatchdog (half : Half) (engine : Engine) : F.Statement (.engineWatchdog half engine) := fun _ => rfl
theorem F.copy (half : Half) (chk : List (Nat × Check)) (hostOk : Bool) (host : HostMem) : F.Statement (.copy half chk hostOk host) := fun _ => rfl
theorem F.copy2d (half : Half) (chk : List (Nat × Check)) (hostOk : Bool) (host : HostMem) : F.Statement (.copy2d half chk hostOk host) := fun _ => rfl
theorem F.fillZero (half : Half) : F.Statement (.fillZero half) := fun _ => rfl
theorem F.pageToKt (half : Half) (chk : List (Nat × Check)) (hostOk : Bool) (host : HostMem) : F.Statement (.pageToKt half chk hostOk host) := fun _ => rfl
theorem F.pageToVx (half : Half) (chk : List (Nat × Check)) (hostOk : Bool) (host : HostMem) : F.Statement (.pageToVx half chk hostOk host) := fun _ => rfl
theorem F.sashDescriptorDone (half : Half) (place : Fin 64) (latency : Nat) : F.Statement (.sashDescriptorDone half place latency) := fun _ => rfl
theorem F.ringEnable (p : Port) (ring : Fin 3) (en : Bool) : F.Statement (.ringEnable p ring en) := fun _ => rfl
theorem F.ringTailWrite (p : Port) (ring : Fin 3) (v : BitVec 32) : F.Statement (.ringTailWrite p ring v) := fun _ => rfl
theorem F.expertPromotion : F.Statement (.expertPromotion) := fun _ => rfl
theorem F.stepBoundary (t : Nat) (host : HostMem) (places : List Nat) (lost : List (Bool × List (Fin 4096))) : F.Statement (.stepBoundary t host places lost) := fun _ => rfl
theorem F.tenantSelect (p : Port) (slot : Fin 16) : F.Statement (.tenantSelect p slot) := fun _ => rfl
theorem F.prefixArchiveDone (id : Nat) : F.Statement (.prefixArchiveDone id) := fun _ => rfl
theorem F.prefixRestoreDone (id : Nat) (ok : Bool) : F.Statement (.prefixRestoreDone id ok) := fun _ => rfl
theorem F.refetchDone (granule : Nat) (fromFlash hostOk : Bool) (failsAgain : Option (Fin 32)) (t : Nat) : F.Statement (.refetchDone granule fromFlash hostOk failsAgain t) := fun _ => rfl
theorem F.scrubRead (addr : Nat) (check : Check) (failsAgain : Bool) (t : Nat) : F.Statement (.scrubRead addr check failsAgain t) := fun _ => rfl
theorem F.extentFetchDone (extent : Nat) (ok : Bool) : F.Statement (.extentFetchDone extent ok) := fun _ => rfl
theorem F.frameRelease (extent : Nat) : F.Statement (.frameRelease extent) := fun _ => rfl
theorem F.flashRelocate (card : Fin 2) (block wearPct sparePct : Nat) (worn exhausted : Bool) : F.Statement (.flashRelocate card block wearPct sparePct worn exhausted) := fun _ => rfl
theorem F.flashRefresh (card : Fin 2) (block wearPct sparePct : Nat) (worn exhausted : Bool) : F.Statement (.flashRefresh card block wearPct sparePct worn exhausted) := fun _ => rfl
theorem F.wearLevel (card : Fin 2) (block wearPct sparePct : Nat) (worn exhausted : Bool) : F.Statement (.wearLevel card block wearPct sparePct worn exhausted) := fun _ => rfl
theorem F.cardControllerFault (card : Fin 2) : F.Statement (.cardControllerFault card) := fun _ => rfl
theorem F.cardPulled (card : Fin 2) : F.Statement (.cardPulled card) := fun _ => rfl
theorem F.cardInserted (card : Fin 2) (serial wearPct sparePct : Nat) : F.Statement (.cardInserted card serial wearPct sparePct) := fun _ => rfl
theorem F.cardRebuildDone (card : Fin 2) : F.Statement (.cardRebuildDone card) := fun _ => rfl
theorem F.prepareRemove (p : Port) (card : Fin 2) : F.Statement (.prepareRemove p card) := fun _ => rfl
theorem F.cardCancel (p : Port) (card : Fin 2) : F.Statement (.cardCancel p card) := fun _ => rfl
theorem F.portionEnd (t : Nat) : F.Statement (.portionEnd t) := fun _ => rfl
theorem F.portionRerunDone (t : Nat) : F.Statement (.portionRerunDone t) := fun _ => rfl
theorem F.loadGo (p port : Port) (host : HostMem) : F.Statement (.loadGo p port host) := fun _ => rfl
theorem F.loadAbort (p : Port) : F.Statement (.loadAbort p) := fun _ => rfl
theorem F.loadPullDone (how : PullEnd) (data : List (Nat × List Nat)) (digestOk : Bool) : F.Statement (.loadPullDone how data digestOk) := fun _ => rfl
theorem F.loadPrimeDone (how : PullEnd) : F.Statement (.loadPrimeDone how) := fun _ => rfl
theorem F.switch (p : Port) (slot : Fin 2) : F.Statement (.switch p slot) := fun _ => rfl
theorem F.discard (p : Port) (slot : Fin 2) : F.Statement (.discard p slot) := fun _ => rfl
theorem F.release (p : Port) (index : Fin 256) : F.Statement (.release p index) := fun _ => rfl
theorem F.ringPoll (host : HostMem) (t : Nat) : F.Statement (.ringPoll host t) := fun _ => rfl
theorem F.lcPoll (host : HostMem) (t : Nat) : F.Statement (.lcPoll host t) := fun _ => rfl
theorem F.stepReceive (h : StepHeader) (t : Nat) : F.Statement (.stepReceive h t) := fun _ => rfl
theorem F.returnMessage (m : ReturnMsg) (t : Nat) : F.Statement (.returnMessage m t) := fun _ => rfl
theorem F.returnLimitExpire (step t : Nat) : F.Statement (.returnLimitExpire step t) := fun _ => rfl
theorem F.orphanLimitExpire (ctx : Fin 4096) (t : Nat) : F.Statement (.orphanLimitExpire ctx t) := fun _ => rfl
theorem F.lcRingEnable (p : Port) (on : Bool) : F.Statement (.lcRingEnable p on) := fun _ => rfl
theorem F.beRingEnable (p : Port) (on : Bool) : F.Statement (.beRingEnable p on) := fun _ => rfl
theorem F.cplEnable (p : Port) (on : Bool) : F.Statement (.cplEnable p on) := fun _ => rfl
theorem F.cplTailWrite (p : Port) (v : BitVec 32) : F.Statement (.cplTailWrite p v) := fun _ => rfl
theorem F.stepOriginWrite (p : Port) (v : BitVec 32) : F.Statement (.stepOriginWrite p v) := fun _ => rfl
theorem F.adoptGo (p : Port) (host : HostMem) (authSeq : Option Nat) : F.Statement (.adoptGo p host authSeq) := fun _ => rfl
theorem F.flitCrcFail (router : Fin 208) (port : Fin 6) (sameFlit : Bool) : F.Statement (.flitCrcFail router port sameFlit) := fun _ => rfl
theorem F.flitReplayRequest (router : Fin 208) (port : Fin 6) (t : Nat) : F.Statement (.flitReplayRequest router port t) := fun _ => rfl
theorem F.meshTimeout (core : Fin 192) (read : Option Nat) : F.Statement (.meshTimeout core read) := fun _ => rfl
theorem F.routeChangeStart (routers : List (Fin 208)) : F.Statement (.routeChangeStart routers) := fun _ => rfl
theorem F.routeChangeMarker (router : Fin 208) : F.Statement (.routeChangeMarker router) := fun _ => rfl
theorem F.routeChangeAck (router : Fin 208) : F.Statement (.routeChangeAck router) := fun _ => rfl
theorem F.laneTrain (port : Fin 8) (reversed : Bool) (good : Fin 32) (keyOk : Bool) (t : Nat) : F.Statement (.laneTrain port reversed good keyOk t) := fun _ => rfl
theorem F.laneFail (port : Fin 8) (lane : Fin 5) (t : Nat) : F.Statement (.laneFail port lane t) := fun _ => rfl
theorem F.laneRecal (port : Fin 8) : F.Statement (.laneRecal port) := fun _ => rfl
theorem F.frameAuthFail (port : Fin 8) : F.Statement (.frameAuthFail port) := fun _ => rfl
theorem F.linkKeyRenew (port : Fin 8) (t : Nat) : F.Statement (.linkKeyRenew port t) := fun _ => rfl
theorem F.load (port : Fin 8) (bytes : List Nat) (chk : List (Nat × Check)) (hostOk : Bool) (t : Nat) : F.Statement (.load port bytes chk hostOk t) := fun _ => rfl
theorem F.store (port : Fin 8) (bytes : List Nat) (chk : List (Nat × Check)) (t : Nat) : F.Statement (.store port bytes chk t) := fun _ => rfl
theorem F.fadd (port : Fin 8) (bytes : List Nat) (chk : List (Nat × Check)) (t : Nat) : F.Statement (.fadd port bytes chk t) := fun _ => rfl
theorem F.cas (port : Fin 8) (bytes : List Nat) (chk : List (Nat × Check)) (t : Nat) : F.Statement (.cas port bytes chk t) := fun _ => rfl
theorem F.min (port : Fin 8) (bytes : List Nat) (chk : List (Nat × Check)) (t : Nat) : F.Statement (.min port bytes chk t) := fun _ => rfl
theorem F.max (port : Fin 8) (bytes : List Nat) (chk : List (Nat × Check)) (t : Nat) : F.Statement (.max port bytes chk t) := fun _ => rfl
theorem F.reduce (port : Fin 8) (bytes : List Nat) (chk : List (Nat × Check)) (t : Nat) : F.Statement (.reduce port bytes chk t) := fun _ => rfl
theorem F.mstore (port : Fin 8) (bytes : List Nat) (chk : List (Nat × Check)) (t : Nat) : F.Statement (.mstore port bytes chk t) := fun _ => rfl
theorem F.bulkWrite (port : Fin 8) (bytes : List Nat) (chk : List (Nat × Check)) (t : Nat) : F.Statement (.bulkWrite port bytes chk t) := fun _ => rfl
theorem F.bulkRead (port : Fin 8) (bytes : List Nat) (chk : List (Nat × Check)) (hostOk : Bool) (t : Nat) : F.Statement (.bulkRead port bytes chk hostOk t) := fun _ => rfl
theorem F.reply (port : Fin 8) (bytes : List Nat) (t : Nat) : F.Statement (.reply port bytes t) := fun _ => rfl
theorem F.sync (port : Fin 8) (bytes : List Nat) (t : Nat) : F.Statement (.sync port bytes t) := fun _ => rfl
theorem F.stepAbort (port : Fin 8) (bytes : List Nat) (t : Nat) : F.Statement (.stepAbort port bytes t) := fun _ => rfl
theorem F.portionFailed (port : Fin 8) (bytes : List Nat) (t : Nat) : F.Statement (.portionFailed port bytes t) := fun _ => rfl
theorem F.staleNotice (port : Fin 8) (bytes : List Nat) (t : Nat) : F.Statement (.staleNotice port bytes t) := fun _ => rfl
theorem F.discover (port : Fin 8) (rack : Fin 2) (plane : Fin 8) (swPort : Fin 64) (t : Nat) : F.Statement (.discover port rack plane swPort t) := fun _ => rfl
theorem F.planeAnnouncement (plane : Fin 8) (l : List (Nat × Nat × Nat)) (t : Nat) : F.Statement (.planeAnnouncement plane l t) := fun _ => rfl
theorem F.fabricPortStateChange (port : Fin 8) (link : Fin 5) (t : Nat) : F.Statement (.fabricPortStateChange port link t) := fun _ => rfl
theorem F.retryIntervalExpire (t : Nat) : F.Statement (.retryIntervalExpire t) := fun _ => rfl
theorem F.loadBoundExpire (t : Nat) : F.Statement (.loadBoundExpire t) := fun _ => rfl
theorem F.replyCacheExpire (t : Nat) : F.Statement (.replyCacheExpire t) := fun _ => rfl
theorem F.atomicThrottleRelease (t : Nat) : F.Statement (.atomicThrottleRelease t) := fun _ => rfl
theorem F.memberApply (p : Port) (host : HostMem) (authOk : Bool) : F.Statement (.memberApply p host authOk) := fun _ => rfl
theorem F.enter (p : Port) (fresh : Bool) : F.Statement (.enter p fresh) := fun _ => rfl
theorem F.leave (p : Port) : F.Statement (.leave p) := fun _ => rfl
theorem F.submit (p : Port) (host : HostMem) : F.Statement (.submit p host) := fun _ => rfl
theorem F.arm (p : Port) (lease : BitVec 16) : F.Statement (.arm p lease) := fun _ => rfl
theorem F.imageGo (p : Port) : F.Statement (.imageGo p) := fun _ => rfl
theorem F.imageAbort (p : Port) : F.Statement (.imageAbort p) := fun _ => rfl
theorem F.imageFetchDone (ok : Bool) (d : ImageDesc) : F.Statement (.imageFetchDone ok d) := fun _ => rfl
theorem F.wholeApply : F.Statement (.wholeApply) := fun _ => rfl
theorem F.regionalApply : F.Statement (.regionalApply) := fun _ => rfl
theorem F.pllLock (refA refB : Bool) (tpos unstable : Fin 8) (t : Nat) : F.Statement (.pllLock refA refB tpos unstable t) := fun _ => rfl
theorem F.dividerStep (t : Nat) : F.Statement (.dividerStep t) := fun _ => rfl
theorem F.nclkTargetWrite (p : Port) (v : BitVec 32) : F.Statement (.nclkTargetWrite p v) := fun _ => rfl
theorem F.cclkTargetWrite (p : Port) (v : BitVec 32) : F.Statement (.cclkTargetWrite p v) := fun _ => rfl
theorem F.vcoreSlewDone (half : Half) : F.Statement (.vcoreSlewDone half) := fun _ => rfl
theorem F.droopTrip (core : Fin 192) (t : Nat) : F.Statement (.droopTrip core t) := fun _ => rfl
theorem F.droopHoldExpire (core : Fin 192) (t : Nat) : F.Statement (.droopHoldExpire core t) := fun _ => rfl
theorem F.referenceLost (p : Port) (t : Nat) : F.Statement (.referenceLost p t) := fun _ => rfl
theorem F.referenceOk (p : Port) (t : Nat) : F.Statement (.referenceOk p t) := fun _ => rfl
theorem F.sourceSelect (p : Port) (v : BitVec 32) (t : Nat) : F.Statement (.sourceSelect p v t) := fun _ => rfl
theorem F.pllRelock (t : Nat) : F.Statement (.pllRelock t) := fun _ => rfl
theorem F.holdoverLimitExpire (t : Nat) : F.Statement (.holdoverLimitExpire t) := fun _ => rfl
theorem F.sscUpdate : F.Statement (.sscUpdate) := fun _ => rfl
theorem F.fcountStart (p : Port) (v : BitVec 32) : F.Statement (.fcountStart p v) := fun _ => rfl
theorem F.fcountDone (p : Port) (measured : Nat) (roundUp : Bool) : F.Statement (.fcountDone p measured roundUp) := fun _ => rfl
theorem F.powerLoop (coreEst restEst predCore predRest t : Nat) : F.Statement (.powerLoop coreEst restEst predCore predRest t) := fun _ => rfl
theorem F.gainCalibration (coreEst restEst coreMeas inputMeas : Nat) : F.Statement (.gainCalibration coreEst restEst coreMeas inputMeas) := fun _ => rfl
theorem F.capTargetWrite (p : Port) (v : BitVec 32) : F.Statement (.capTargetWrite p v) := fun _ => rfl
theorem F.capUnmet (t : Nat) : F.Statement (.capUnmet t) := fun _ => rfl
theorem F.shutterAssert (t : Nat) : F.Statement (.shutterAssert t) := fun _ => rfl
theorem F.shutterRelease (meanMw t : Nat) : F.Statement (.shutterRelease meanMw t) := fun _ => rfl
theorem F.shutterStuck (t : Nat) : F.Statement (.shutterStuck t) := fun _ => rfl
theorem F.thermalCheck (js vs : List (Option Int)) (inl outl : Option Int) (vinMv iinCa meanMw t : Nat) : F.Statement (.thermalCheck js vs inl outl vinMv iinCa meanMw t) := fun _ => rfl
theorem F.inletRange (t : Nat) : F.Statement (.inletRange t) := fun _ => rfl
theorem F.leakAssert (t : Nat) : F.Statement (.leakAssert t) := fun _ => rfl
theorem F.leakRelease (meanMw t : Nat) : F.Statement (.leakRelease meanMw t) := fun _ => rfl
theorem F.leakGraceExpire (t : Nat) : F.Statement (.leakGraceExpire t) := fun _ => rfl
theorem F.vinLow (t : Nat) : F.Statement (.vinLow t) := fun _ => rfl
theorem F.inputUndervoltage (t : Nat) : F.Statement (.inputUndervoltage t) := fun _ => rfl
theorem F.inputOvervoltage (t : Nat) : F.Statement (.inputOvervoltage t) := fun _ => rfl
theorem F.inputReversed : F.Statement (.inputReversed) := fun _ => rfl
theorem F.railShort (rail : Fin 6) (t : Nat) : F.Statement (.railShort rail t) := fun _ => rfl
theorem F.flashRailShort (card : Fin 2) : F.Statement (.flashRailShort card) := fun _ => rfl
theorem F.senseOpen : F.Statement (.senseOpen) := fun _ => rfl
theorem F.inputRemoved (ms : Nat) : F.Statement (.inputRemoved ms) := fun _ => rfl
theorem F.inputPowerValid (refPresent : Bool) : F.Statement (.inputPowerValid refPresent) := fun _ => rfl
theorem F.referenceReturn : F.Statement (.referenceReturn) := fun _ => rfl
theorem F.resetRequest (t : Nat) : F.Statement (.resetRequest t) := fun _ => rfl
theorem F.bootVerifyDone (okSec : Bool) (bad : Option (Fin 3)) (versions : List Nat) (measures : List (List Nat)) : F.Statement (.bootVerifyDone okSec bad versions measures) := fun _ => rfl
theorem F.selftestDone (r : SelfTest) (info : List (Nat × Nat × Nat)) : F.Statement (.selftestDone r info) := fun _ => rfl
theorem F.functionsReady (dist acct win report : Nat) : F.Statement (.functionsReady dist acct win report) := fun _ => rfl
theorem F.selftestExtended (sess : Nat) : F.Statement (.selftestExtended sess) := fun _ => rfl
theorem F.extendedSelftestDone (r : SelfTest) (info : List (Nat × Nat × Nat)) : F.Statement (.extendedSelftestDone r info) := fun _ => rfl
theorem F.perstAssert (p : Port) (t : Nat) : F.Statement (.perstAssert p t) := fun _ => rfl
theorem F.linkDownTimeout (p : Port) (t : Nat) : F.Statement (.linkDownTimeout p t) := fun _ => rfl
theorem F.d3hotEntry (p : Port) : F.Statement (.d3hotEntry p) := fun _ => rfl
theorem F.functionLevelReset (p : Port) : F.Statement (.functionLevelReset p) := fun _ => rfl
theorem F.portUp (p : Port) (speed : Fin 7) (width : Fin 9) (reversed : Bool) : F.Statement (.portUp p speed width reversed) := fun _ => rfl
theorem F.perstStuck (p : Port) (t : Nat) : F.Statement (.perstStuck p t) := fun _ => rfl
theorem F.sidebandToggling (i : SbInput) (t : Nat) : F.Statement (.sidebandToggling i t) := fun _ => rfl
theorem F.togglingEnd (i : SbInput) (asserted : Bool) (meanMw t : Nat) : F.Statement (.togglingEnd i asserted meanMw t) := fun _ => rfl
theorem F.irqHoldoffExpire (p : Port) : F.Statement (.irqHoldoffExpire p) := fun _ => rfl
theorem F.bar2Read (p : Port) (off len : Nat) (chk : List (Nat × Check)) (hostOk : Bool) : F.Statement (.bar2Read p off len chk hostOk) := fun _ => rfl
theorem F.bar2Write (p : Port) (off : Nat) (bytes : List (BitVec 8)) : F.Statement (.bar2Write p off bytes) := fun _ => rfl
theorem F.bar2Atomic (p : Port) (fn : BarAtom) (wide : Bool) (off : Nat) (operand compare : BitVec 64) (check : Check) : F.Statement (.bar2Atomic p fn wide off operand compare check) := fun _ => rfl
theorem F.hostReadTimeout (p : Port) (what : Fin 3) : F.Statement (.hostReadTimeout p what) := fun _ => rfl
theorem F.ideIntegrityFail (p : Port) : F.Statement (.ideIntegrityFail p) := fun _ => rfl
theorem F.ideKm (p : Port) : F.Statement (.ideKm p) := fun _ => rfl
theorem F.setEndpointId (eid : BitVec 8) : F.Statement (.setEndpointId eid) := fun _ => rfl
theorem F.entdaa (addr : BitVec 7) : F.Statement (.entdaa addr) := fun _ => rfl
theorem F.pldmSensorRead (sensor : Fin 10) : F.Statement (.pldmSensorRead sensor) := fun _ => rfl
theorem F.pldmCapEffecter (watts : Nat) : F.Statement (.pldmCapEffecter watts) := fun _ => rfl
theorem F.pldmFirmwareUpdate (c : FwComp) (version : Nat) (floor miotric owner : Bool) (measure : List Nat) : F.Statement (.pldmFirmwareUpdate c version floor miotric owner measure) := fun _ => rfl
theorem F.getCertificate (slot : Fin 8) : F.Statement (.getCertificate slot) := fun _ => rfl
theorem F.challenge (slot : Fin 8) (nonce : List Nat) : F.Statement (.challenge slot nonce) := fun _ => rfl
theorem F.getMeasurements (index : Fin 11) (nonce : List Nat) : F.Statement (.getMeasurements index nonce) := fun _ => rfl
theorem F.keyExchange (party : Party) (key : List Nat) (verified : Bool) : F.Statement (.keyExchange party key verified) := fun _ => rfl
theorem F.takeOwnership (sess : Nat) (tokenOk : Bool) : F.Statement (.takeOwnership sess tokenOk) := fun _ => rfl
theorem F.transferOwnership (sess : Nat) (key : List Nat) : F.Statement (.transferOwnership sess key) := fun _ => rfl
theorem F.releaseOwnership (sess : Nat) : F.Statement (.releaseOwnership sess) := fun _ => rfl
theorem F.setFwPolicy (sess : Nat) (minVersion : List Nat) (countersign : Bool) : F.Statement (.setFwPolicy sess minVersion countersign) := fun _ => rfl
theorem F.setAppKey (sess : Nat) (key : List Nat) : F.Statement (.setAppKey sess key) := fun _ => rfl
theorem F.leaseAuthorise (sess : Nat) (r : LeaseRecord) : F.Statement (.leaseAuthorise sess r) := fun _ => rfl
theorem F.leaseQuota (sess : Nat) (r : LeaseRecord) : F.Statement (.leaseQuota sess r) := fun _ => rfl
theorem F.leaseEndRecord (sess : Nat) (r : LeaseRecord) : F.Statement (.leaseEndRecord sess r) := fun _ => rfl
theorem F.installLeaseKey (sess : Nat) : F.Statement (.installLeaseKey sess) := fun _ => rfl
theorem F.portBind (sess : Nat) (p : Port) : F.Statement (.portBind sess p) := fun _ => rfl
theorem F.portUnbind (sess : Nat) (p : Port) : F.Statement (.portUnbind sess p) := fun _ => rfl
theorem F.ledgerRead (sess first count : Nat) : F.Statement (.ledgerRead sess first count) := fun _ => rfl
theorem F.eraseReportRead (sess lease : Nat) : F.Statement (.eraseReportRead sess lease) := fun _ => rfl
theorem F.debugChallenge (sess : Nat) : F.Statement (.debugChallenge sess) := fun _ => rfl
theorem F.debugUnlock (sess : Nat) (miotric owner : Bool) : F.Statement (.debugUnlock sess miotric owner) := fun _ => rfl
theorem F.glitchAck (sess : Nat) : F.Statement (.glitchAck sess) := fun _ => rfl
theorem F.glitchTrip (detector : Fin 6) : F.Statement (.glitchTrip detector) := fun _ => rfl
theorem F.backgroundZeroiseDone (lease : Nat) : F.Statement (.backgroundZeroiseDone lease) := fun _ => rfl
theorem F.leaseSelect (p : Port) (slot : Fin 16) : F.Statement (.leaseSelect p slot) := fun _ => rfl
theorem F.controlFwHandoff : F.Statement (.controlFwHandoff) := fun _ => rfl
theorem F.controlFwRollback : F.Statement (.controlFwRollback) := fun _ => rfl
theorem F.securityFwSwap : F.Statement (.securityFwSwap) := fun _ => rfl
theorem F.mgmtFwSwap : F.Statement (.mgmtFwSwap) := fun _ => rfl
theorem F.powerFwSwap : F.Statement (.powerFwSwap) := fun _ => rfl
theorem F.ledgerPowerRecord (t : Nat) : F.Statement (.ledgerPowerRecord t) := fun _ => rfl
theorem F.ledgerIntegrityRecord (t : Nat) : F.Statement (.ledgerIntegrityRecord t) := fun _ => rfl
theorem F.freeze (p : Port) (on : Bool) : F.Statement (.freeze p on) := fun _ => rfl
theorem F.snap (p : Port) : F.Statement (.snap p) := fun _ => rfl
theorem F.snapPeriod (t : Nat) : F.Statement (.snapPeriod t) := fun _ => rfl
theorem F.snapshotDone : F.Statement (.snapshotDone) := fun _ => rfl
theorem F.snapRecordsWrite (p : Port) (v : BitVec 32) : F.Statement (.snapRecordsWrite p v) := fun _ => rfl
theorem F.samplingEnable (p : Port) (v : BitVec 32) : F.Statement (.samplingEnable p v) := fun _ => rfl
theorem F.pmcLayerWrite (p : Port) (n : Fin 16) (v : BitVec 32) : F.Statement (.pmcLayerWrite p n v) := fun _ => rfl
theorem F.configurationRequest (p : Port) (bar2 : Option (Fin 9)) : F.Statement (.configurationRequest p bar2) := fun _ => rfl
theorem F.perstRelease (p : Port) (t : Nat) : F.Statement (.perstRelease p t) := fun _ => rfl
theorem F.dlActiveLost (p : Port) (t : Nat) : F.Statement (.dlActiveLost p t) := fun _ => rfl
theorem F.extentRebuilt (extent : Nat) (hostOk : Bool) (failing : List Nat) : F.Statement (.extentRebuilt extent hostOk failing) := fun _ => rfl
theorem F.hostReadRefused (p : Port) (what : Fin 3) : F.Statement (.hostReadRefused p what) := fun _ => rfl
theorem F.counterWrap (e : Fin 4095) (past : Nat) : F.Statement (.counterWrap e past) := fun _ => rfl

end Sys2Proof.Laws
end

