-- ==== Sys2Proof/Tests/Slice0.lean ====
section
/-!
SUPPORT. Tests/Slice0.lean: tests on small states: one ill-formed instruction per check, the spec's worked examples, and for the
statements of Certificates/Slice0/Obligations.lean concrete states and operands that meet their hypotheses, with what the command answers.
-/
namespace Sys2Proof.Tests
open Sys2Proof Sys2Proof.Machine
set_option Elab.async false

/-! ### Helpers -/

/-- The command answers a next state of which `f` holds. -/
def nextIs (o : Host.Outcome State Fault Refusal) (f : State → Bool) : Bool := match o with | .next t => f t | _ => false

/-- The command answers exactly `s`. -/
def nextEq (o : Host.Outcome State Fault Refusal) (s : State) : Bool := nextIs o fun t => decide (t = s)

/-- The command is refused under this mnemonic. -/
def stops (o : Host.Outcome State Fault Refusal) (m : String) : Bool := match o with | .refused (.notLoadable x) => x == m | _ => false

def sameB (s t : State) : Part → Bool
  | .flds => decide (t.flds = s.flds)
  | .latchA => decide (t.latchA = s.latchA)
  | .latchB => decide (t.latchB = s.latchB)
  | .mem => decide (t.mem = s.mem)
  | .marks => decide (t.marks = s.marks)
  | .accs => decide (t.accs = s.accs)
  | .cores => decide (t.cores = s.cores)
  | .engQ => decide (t.engQ = s.engQ)
  | .sashQ => decide (t.sashQ = s.sashQ)
  | .rr => decide (t.rr = s.rr)
  | .barriers => decide (t.barriers = s.barriers)
  | .portion => decide (t.portion = s.portion)
  | .suspended => decide (t.suspended = s.suspended)
  | .finals => decide (t.finals = s.finals)
  | .inbox => decide (t.inbox = s.inbox)
  | .lastStep => decide (t.lastStep = s.lastStep)
  | .experts => decide (t.experts = s.experts)
  | .boundaries => decide (t.boundaries = s.boundaries)
  | .extents => decide (t.extents = s.extents)
  | .ctxs => decide (t.ctxs = s.ctxs)
  | .pages => decide (t.pages = s.pages)
  | .prefs => decide (t.prefs = s.prefs)
  | .prefSeq => decide (t.prefSeq = s.prefSeq)
  | .clients => decide (t.clients = s.clients)
  | .cplHeld => decide (t.cplHeld = s.cplHeld)
  | .layerSlots => decide (t.layerSlots = s.layerSlots)
  | .ringRecs => decide (t.ringRecs = s.ringRecs)
  | .now => decide (t.now = s.now)
  | .refetch => decide (t.refetch = s.refetch)
  | .hardFails => decide (t.hardFails = s.hardFails)
  | .rewritten => decide (t.rewritten = s.rewritten)
  | .ready => decide (t.ready = s.ready)
  | .cardSerial => decide (t.cardSerial = s.cardSerial)
  | .cardSeated => decide (t.cardSeated = s.cardSeated)
  | .blockReads => decide (t.blockReads = s.blockReads)
  | .holdoffA => decide (t.holdoffA = s.holdoffA)
  | .holdoffB => decide (t.holdoffB = s.holdoffB)
  | .deferA => decide (t.deferA = s.deferA)
  | .deferB => decide (t.deferB = s.deferB)
  | .nvFault => decide (t.nvFault = s.nvFault)
  | .vflashLatched => decide (t.vflashLatched = s.vflashLatched)
  | .residueTimes => decide (t.residueTimes = s.residueTimes)
  | .ledger => decide (t.ledger = s.ledger)
  | .ledgerSeq => decide (t.ledgerSeq = s.ledgerSeq)
  | .movesHeld => decide (t.movesHeld = s.movesHeld)
  | .img => decide (t.img = s.img)
  | .clk => decide (t.clk = s.clk)
  | .pwr => decide (t.pwr = s.pwr)
  | .boot => decide (t.boot = s.boot)
  | .sec => decide (t.sec = s.sec)
  | .wts => decide (t.wts = s.wts)
  | .ctl => decide (t.ctl = s.ctl)
  | .fab => decide (t.fab = s.fab)
  | .mesh => decide (t.mesh = s.mesh)
  | .snp => decide (t.snp = s.snp)
  | .fresh => decide (t.fresh = s.fresh)
  | .out => decide (t.out = s.out)
  | .pending => decide (t.pending = s.pending)

def allParts : List Part :=
  [.flds, .latchA, .latchB, .mem, .marks, .accs, .cores, .engQ, .sashQ, .rr,
   .barriers, .portion, .suspended, .finals, .inbox, .lastStep, .experts, .boundaries, .extents, .ctxs,
   .pages, .prefs, .prefSeq, .clients, .cplHeld, .layerSlots, .ringRecs, .now, .refetch, .hardFails,
   .rewritten, .ready, .cardSerial, .cardSeated, .blockReads, .holdoffA, .holdoffB, .deferA, .deferB, .nvFault,
   .vflashLatched, .residueTimes, .ledger, .ledgerSeq, .movesHeld, .img, .clk, .pwr, .boot, .sec,
   .wts, .ctl, .fab, .mesh, .snp, .fresh, .out, .pending]

/-- Nothing but the listed parts is different (`keptBut`). -/
def keptB (l : List Part) (s t : State) : Bool := allParts.all fun p => l.contains p || sameB s t p

/-- Every register field listed in either state reads the same, but those whose key `free` names (`regsKept`, for defaults 0 and 1). -/
def regsB (free : Nat → Bool) (s t : State) : Bool :=
  (s.flds.map (fun e => e.1) ++ t.flds.map (fun e => e.1)).all fun k => free k || (smGet 0 t.flds k == smGet 0 s.flds k && smGet 1 t.flds k == smGet 1 s.flds k)

/-- Every byte listed in either state reads the same, but those that `free` names (`memKept`). -/
def memB (free : Nat → Bool) (s t : State) : Bool :=
  (s.mem.map (fun e => e.1) ++ t.mem.map (fun e => e.1)).all fun a => free a || rdByte t a == rdByte s a

def setFs (l : List (Fld × Nat)) (s : State) : State := l.foldl (fun t x => setF t x.1 x.2) s

/-- A module that has come up and holds no image. -/
def up : State := { State.reset with boot.stage := .ready, ready := true }
/-- A module in the safe state. -/
def safeSt : State := { State.reset with boot.stage := .safe }

/-! ### A small image, portion and core -/

def sv0 : Serving := ⟨1, true, true, true, true, true, true, 8, 4, 16, 64, 1, 8, 8⟩
def vm0 : VaultMap := ⟨[⟨0x10000, 0x10000⟩], ⟨0x100000, 0x100000⟩, ⟨0x300000, 0x100000⟩, none, some (1000, 100), [0, 0], [0, 0], 0x1000000, 0x10000,
  ⟨2 ^ 33, 2 ^ 21 * 40⟩, [8, 8], 4, 4, 4, [(0, 100), (100, 100)], (200, 100)⟩
def grp0 : ImgGroup := ⟨0, 0, 0, 1, 4, [0, 1], [3, 4, 5]⟩
/-- A loaded image of one core group: cores 3, 4 and 5. -/
def im0 : ImageDesc where
  hdrOk := true
  kind := 0
  region := 0
  totalBytes := 4096
  lease := 7
  binding := 9
  minCores := 1
  minVaults := 1
  needs := 0
  fabNeeds := 0
  seq := 1
  logical := List.replicate 8 1
  digest := List.replicate 8 2
  module := List.replicate 8 3
  badSection := none
  signatureOk := true
  keyOk := true
  digestsOk := true
  serving := sv0
  routes := []
  att := []
  heat := ⟨1, 4, 1, 2⟩
  convs := []
  vmap := vm0
  kv := []
  groups := [grp0]
  instrs := []
  liveRanges := [⟨3, 0, [(0x40, 4)], [(2, 1)]⟩]
  listBytes := []
  plan := []
  windows := []
  mcast := []
  capMap := none
  detours := []
  detoursOk := true
  applyBytes := []

def hdr0 : StepHeader := ⟨5, 0, 0, 0, true, false, 0, 0, 1, []⟩
def por0 : Portion := { hdr := hdr0 }
/-- A module that runs a portion of `im0`. -/
def runSt : State := { up with img := some im0, portion := some por0 }

/-- Instruction 7 of core 3, a VARY instruction at a cheap point. -/
def iv : Ins := ⟨3, 7, true, true, 2, 1⟩
def ip : Ins := ⟨3, 7, false, false, 2, 1⟩

def cs (f : CoreSt → CoreSt) (c : Nat) (s : State) : State := coreSet s c (f (coreGet s c))

/-- `mayIssue`. -/
def mayB (s : State) (i : Ins) (u : Option XUnit) : Bool := !coreFenced s i.core && stageAlive s && (stallCause i u s).isNone

def othersB (s t : State) (c : Nat) : Bool :=
  (s.cores.map (fun e => e.1) ++ t.cores.map (fun e => e.1)).all fun d => d == c || coreGet t d == coreGet s d

/-- `Issued`, with further parts of the state and bytes of memory free. -/
def issuedB (more : List Part) (mfree : Nat → Bool) (s : State) (i : Ins) (u : Option XUnit) (t : State) : Bool :=
  let k := coreGet t i.core
  decide (k = { coreGet s i.core with nextIndex := i.index + 1, stall := 0, smpCount := k.smpCount, tag := k.tag, skipped := k.skipped, mxq := k.mxq, outst := (coreGet s i.core).outst ++ u.toList.map fun x => ⟨x, i.index⟩ }) && othersB s t i.core &&
  (more.contains .portion || decide (t.portion = if i.vary then s.portion.map fun p => { p with vary := true } else s.portion)) &&
  keptB ([.flds, .cores, .mem, .marks, .ringRecs, .portion] ++ more) s t && regsB issueKey s t && memB (fun a => sampleBytes s a || mfree a) s t

def ranOk (s : State) (i : Ins) (u : Option XUnit) (c : Instr) : Bool := nextIs (exec c s) (issuedB [] (fun _ => false) s i u)
/-- The slot stalls with cause `k`: nothing else of the module moves but counters. -/
def stallsB (more : List Part) (s : State) (i : Ins) (k : Nat) (c : Instr) : Bool :=
  nextIs (exec c s) fun t => decide (coreGet t i.core = { coreGet s i.core with stall := k }) && othersB s t i.core &&
    keptB ([.cores, .flds] ++ more) s t && regsB pmcKey s t
def puts (l : List (Nat × List Nat)) (s : State) : State := l.foldl (fun t x => putBytes t x.1 x.2) s
def f32s (l : List Nat) : List Nat := l.flatMap (leBytes 4)
def desc0 : ReqDesc := ⟨0, 64, 64, 7, 9, true, false, false, false, false, false, false, 0, 0, 0, 0, 0, 0, 0, 0x40000, 16, 0⟩
def ctx0 : Ctx := { st := .inStep, port := .a, desc := desc0, stop := ⟨[], []⟩, spans := [(0, { page := 1 })] }
def noHost : HostMem := ⟨[], []⟩
def leaseSt (n : Nat) (l : Lease) (s : State) : State := { s with sec.ks.leases := s.sec.ks.leases.set n l }
def ext0 : Extent := ⟨.fetching, .expert, .gen 0, 2, 1, some (.a, 0x1000), 0, false, false, []⟩
/-- Host memory through port A: these bytes, and zeros up to `n` bytes. -/
def hm (a n : Nat) (bs : List (Nat × List Nat)) : HostMem :=
  ⟨((List.range n).map fun k => match bs.find? (fun x => decide (x.1 ≤ k) && decide (k < x.1 + x.2.length)) with
    | some x => (a + k, BitVec.ofNat 8 (x.2.getD (k - x.1) 0)) | none => (a + k, 0#8)), []⟩
def rq (k : ReqKind) : ReqRec := ⟨0, k, true, false, false, false, 0, 1, 4, none, 0, [], [], none⟩
/-- The boot stage. -/
def bootSt : State := { State.reset with boot.stage := .boot }
/-! ### Ill-formed instructions: one for each check of WellFormed -/

def i5 : Ins := ⟨5, 7, false, false, 3, 0⟩

theorem test_illformed_mma : (Instr.mma i5 0 0 120 8 .w4).wf = false ∧ (Instr.mma i5 0 0 120 7 .w4).wf = true := by decide
theorem test_illformed_mmaX : (Instr.mmaX i5 0 0 128 0).wf = false ∧ (Instr.mmaX i5 0 0 127 0).wf = true := by decide
theorem test_illformed_mmaF16 : (Instr.mmaF16 i5 0 0 0 0 .kv8).wf = false ∧ (Instr.mmaF16 i5 0 0 0 0 .w8).wf = true := by decide
theorem test_illformed_accZero : (Instr.accZero i5 100 29).wf = false ∧ (Instr.accZero i5 100 28).wf = true := by decide
theorem test_illformed_convert_rank : (Instr.accConvert i5 0 1 .a8 0 0 0 []).wf = false ∧ (Instr.accConvert i5 0 1 .a8 2 0 0 []).wf = true := by decide
theorem test_illformed_convert_rank_high : (Instr.accConvert i5 0 1 .a8 18 0 0 []).wf = false ∧ (Instr.accConvert i5 0 1 .a8 16 0 0 []).wf = true := by decide
theorem test_illformed_convert_ovf : (Instr.accConvert i5 0 1 .a8 (2 + 96) 0 0 []).wf = false ∧ (Instr.accConvert i5 0 1 .a8 (2 + 64) 0 0 []).wf = true := by decide
theorem test_illformed_convert_stream : (Instr.accConvert i5 0 1 .a8 (3 + 256 * 15) 0 0 []).wf = false ∧
  (Instr.accConvert i5 0 1 .a8 (3 + 256 * 16) 0 0 []).wf = true ∧ (Instr.accConvert i5 0 1 .a8 (3 + 256 * 4) 0 0 []).wf = true := by decide
theorem test_illformed_accExport : (Instr.accExport i5 128 0 0).wf = false ∧ (Instr.accImport i5 0 128 0).wf = false ∧ (Instr.accExport i5 127 127 0).wf = true := by decide
theorem test_illformed_wait : (Instr.wait i5 32 0).wf = false ∧ (Instr.wait i5 31 33).wf = false ∧ (Instr.wait i5 31 32).wf = true := by decide
theorem test_illformed_remote : (Instr.rload i5 128 0 0 0 0).wf = false ∧ (Instr.rstore i5 0 4096 0 0 0).wf = false ∧ (Instr.rload i5 0 0 6 0 0).wf = false ∧
  (Instr.rfadd i5 0 0 2 0 0).wf = false ∧ (Instr.rmstore i5 0 0 0 (2 ^ 40) 0).wf = false ∧ (Instr.rcas i5 0 0 0 0 (2 ^ 15)).wf = false ∧
  (Instr.rload i5 127 4095 5 (2 ^ 40 - 1) (2 ^ 15 - 1)).wf = true := by decide
theorem test_illformed_rreduce : (Instr.rreduce i5 0 0 0 false 129 0 0).wf = false ∧ (Instr.rreduce i5 0 0 0 false 128 0 0).wf = true := by decide
/-- R109: what no loaded image holds is refused by name when it is issued. -/
theorem test_refused_mma : stops (exec (.mma i5 0 0 120 8 .w4) up) "MMA" = true := by decide +kernel

/-! ### The queue -/

theorem test_step_idles : nextEq (step up) up = true := by decide +kernel
theorem test_step_takes_the_front : nextEq (step { up with pending := [.senseOpen, .expertPromotion] })
  { setF up Reg.PWR_STATUS_SENSE_OPEN 1 with pending := [.expertPromotion] } = true := by decide +kernel
theorem test_reset_inv : State.reset.Inv := by unfold State.Inv; decide +kernel
theorem test_up_inv : up.Inv := by unfold State.Inv; decide +kernel
theorem test_decode_none : decodeTableWord 8 0 = none ∧ up.withFetchWord 8 0 = up := ⟨rfl, rfl⟩

/-! ### Worked examples of the spec -/

/-- R205: the CRC-32C of the nine digits, the check value that the rule gives. -/
theorem test_example_R205 : crc32c [0x31, 0x32, 0x33, 0x34, 0x35, 0x36, 0x37, 0x38, 0x39] = 0xE3069283 := by decide +kernel
/-- R25, R27: cores 17 and 130 and their home vaults. -/
theorem test_example_R25 : (coreRow 17, coreCol 17, homeVault 17) = (1, 5, 1) ∧ (coreRow 130, coreCol 130, homeVault 130) = (2, 11, 23) ∧
  (List.range 192).filter (fun c => homeVault c == 9) = [51, 52, 53, 63, 64, 65] := by decide +kernel
/-- R43: cores 17 and 130 fenced and vault 9 retired: 14.94 P-ops/s, 248 GiB, 46,000 GB/s. -/
def fencedUp : State := setFs [(Reg.ID_FENCED_CORES 0, 2 ^ 17), (Reg.ID_FENCED_CORES 4, 2 ^ 2), (Reg.ID_RETIRED_VAULTS, 2 ^ 9)] up
theorem test_example_R43 : (let t := rate fencedUp
  (getF t Reg.ID_RESOURCES_CORES_LIVE, getF t Reg.ID_RESOURCES_VAULTS_LIVE, getF t Reg.ID_RATING_PEAK_W2, getF t Reg.ID_RATING_DRAM_GIB,
   getF t Reg.ID_HOME_BW_HOME_BW_GBS)) = (190, 31, 1494, 248, 46000) := by decide +kernel
/-- R197: core 17's entries for its home vault 1, vault 0 and vault 23. -/
theorem test_example_R197 : distWord up 17 1 = 128 + 62 * 2 ^ 16 ∧ distWord up 17 0 = 4 + 99 * 2 ^ 16 ∧ distWord up 17 23 = 21 + 64 + 131 * 2 ^ 16 ∧
  distWord fencedUp 17 0 = 0x3F + 0xFFFF * 2 ^ 16 := by decide +kernel
/-- R52: the T byte 0xC5. -/
theorem test_example_R52 : ((decodeCodes .t [0xC5, 0, 0, 0, 0, 0, 0]).1.take 5, (decodeCodes .t [0xC5, 0, 0, 0, 0, 0, 0]).2) = ([-1, -1, 0, 1, -1], 0) := by
  decide +kernel
/-- R56: scale codes 0x3C, 0x5A and 0x78. -/
theorem test_example_scales : (s8Sig 0x3C, s8Exp 0x3C) = (12, -11) ∧ (s8Sig 0x5A, s8Exp 0x5A) = (10, -7) ∧ (s8Sig 0x78, s8Exp 0x78) = (8, -3) := by decide +kernel
/-- R72: the block of the quantiser examples. -/
def qBlock : List RVal := [.fin false 3 2, .fin true 1 2, .fin false 5 128, .fin false 2 1, .fin false 1 1, .fin false 41 1, .fin false 1 1, .fin false 1 1,
  .fin false 1 1, .fin false 37 4] ++ List.replicate 7 (.fin false 1 1) ++ [.fin true 47 2] ++ List.replicate 14 (.fin false 1 1)
theorem test_example_rank3 : (let q := quantise false 3 .clamp (fun _ => none) qBlock
  (q.blk.scale, q.blk.slots, [9, 0, 1, 2, 5, 17].map (fun k => q.blk.codes.getD k 99), q.trapped)) =
    (0x5A, [(5, 0x5120), (17, 0xCDE0)], [118, 19, -6, 0, 0, 0], false) := by decide +kernel
theorem test_example_rank4 : (let q := quantise false 4 .clamp (fun _ => none) qBlock
  (q.blk.scale, q.blk.codes.getD 9 0, q.ev.outlierOvf)) = (0x49, 127, 1) ∧
  (quantise false 4 .widen (fun _ => none) qBlock).blk.scale = 0x5A ∧ (quantise false 4 .trap (fun _ => none) qBlock).trapped = true ∧
  (quantise false 4 .trap (fun _ => none) qBlock).ev.trap = 1 := by decide +kernel
/-- R78: 118.4 under two draws. -/
theorem test_example_round : roundUnits 592 5 (some 0x600000) = 119 ∧ roundUnits 592 5 (some 0xA00000) = 118 := by decide +kernel
/-- R90, R97, R102: the four terms of the matrix engine's example and their residues. -/
def a0Blk : Blk := ⟨0x5A, [118, 19, -6] ++ List.replicate 29 0, [(5, 0x5120), (17, 0xCDE0)]⟩
def w0Blk : Blk := ⟨0x3C, [3, -1, 1, 0, 0, -3] ++ List.replicate 11 0 ++ [1] ++ List.replicate 14 0, []⟩
def a1Blk : Blk := ⟨0x78, [50, -2] ++ List.replicate 30 0, []⟩
def w1Blk : Blk := ⟨0x78, [1, 3] ++ List.replicate 30 0, []⟩
theorem test_example_R90 : (contribSum [blockTerm a0Blk w0Blk (wHalf .w2), blockTerm a1Blk w1Blk (wHalf .w2)]).v = 11348792 * 2 ^ 78 := by decide +kernel
theorem test_example_R102 : residueTerm 329 120 78 = 180 ∧ residue (-47232) = 198 ∧ residue (-9024) = 156 ∧ residueTerm 44 64 90 = 44 ∧
  residue (11348792 * 2 ^ 78) = 68 := by decide +kernel
/-- R129: the candidates of the sampling example. -/
theorem test_example_R129 : drawToken 52429 (0x800000 * 2 ^ 24) [(5, 274877906944), (9, 137438953472), (12, 1099511627776), (40, 549755813888)] = some 12 ∧
  drawToken 52429 (0x100000 * 2 ^ 24) [(5, 274877906944), (9, 137438953472), (12, 1099511627776), (40, 549755813888)] = some 5 := by decide +kernel
/-- R152: the assignment example: six rows, capacity 2. -/
def rcEx : RouteCmd := ⟨2, 1, 16, 0, true, true, false, false, false, 8, 6, one32, 0, 0, 0, 0, 0, 0⟩
theorem test_example_R152 : capacity rcEx 6 = 2 ∧
  (let rows := [[5, 2, 7, 1], [5, 2, 1, 7], [5, 7, 2, 0], [5, 2, 7, 3], [5, 2, 1, 0], [5, 7, 0, 3]]
   (rows.foldl (fun (acc : List (List (Option Nat)) × AsgSt) r =>
      let o := assignRow rcEx (fun _ => true) 2 r acc.2
      (acc.1 ++ [o.1.map fun (x : SlotOut) => x.expert], o.2)) ([], {})).1 =
     [[some 5, some 2], [some 5, some 2], [none, some 7], [some 7, some 3], [some 1, some 0], [some 0, some 3]]) := by decide +kernel
/-- R386: ACLK_1 at code 0 reads 4,194,304 over 2^24 root cycles. -/
theorem test_example_R386 : (let s := { setFs [(Reg.CLK_ACLK_CUR_CODE 1, 0), (Reg.CLK_FCOUNT_CTL_BUSY, 1)] up with clk.fcRun := [(1, 24), (0, 0)] }
  nextIs (exec (.fcountDone .a 0 false) s) fun t => getF t Reg.CLK_FCOUNT_RESULT == 4194304) = true := by decide +kernel
/-- R383: the first two steps of the reference switch: each domain one code slower, then the switch dividers. -/
def swStart : State := setFs ((List.range 32).map (fun d => (Reg.CLK_ACLK_CUR_CODE d, 0)) ++ [(Reg.CLK_REF_STATUS_REF_A_OK, 1), (Reg.CLK_REF_STATUS_REF_B_OK, 1),
  (Reg.PWR_OP_OP, 0)]) up
def runAll (cs : List Instr) (s : State) : State := cs.foldl (fun t c => match exec c t with | .next u => u | _ => t) s
def divs (s : State) : List Nat := [aclkDiv (getF s (codeFld 0)), nclkDiv (getF s (codeFld 64)), cclkDiv (getF s (codeFld 66)), getF s Reg.NOC_HINGE_DIV]
theorem test_example_R383_down : (let s1 := runAll [.referenceLost .a 64, .dividerStep 75] swStart
  let s2 := runAll [.dividerStep 1075, .dividerStep 2075] s1
  (divs s1, getB s1 Reg.CLK_REF_STATUS_SWITCH_BUSY, divs s2, (s2.clk.sw.map fun w => w.phase))) =
    ([5, 6, 8, 6], true, [8, 10, 12, 10], some 1) := by decide +kernel
theorem test_example_R383_up : (let s2 := runAll [.referenceLost .a 64, .dividerStep 75, .dividerStep 1075, .dividerStep 2075, .pllRelock 22100] swStart
  let s3 := runAll ((List.range 10).map fun k => Instr.dividerStep (23100 + 1000 * k)) (runAll [.vcoreSlewDone .west, .vcoreSlewDone .east] s2)
  (getF s2 Reg.CLK_REF_CTL_SRC_SEL, getF s2 Reg.CLK_REF_STATUS_SRC_ACTIVE, getB s2 Reg.CLK_REF_STATUS_HOLDOVER, (divs s3).drop 1)) =
    (1, 1, false, [5, 6, 5]) := by decide +kernel
/-- R395: TARGET 1,000 W at C_eff 1,800 W raises OP by 32. -/
theorem test_example_R395 : (let s := { setF up Reg.PWR_OP_OP 0 with pwr.cEff := 1800000 }
  nextIs (exec (.capTargetWrite .a 1000) s) fun t => getF t Reg.PWR_OP_OP == 32 && t.pwr.cEff == 1800000 && getF t Reg.PWR_CAP_TARGET == 1000) = true := by
  decide +kernel

/-! ### Stores and draws -/

theorem test_witness_store : Memory.wf up.mem = true ∧ (let t := putBytes (setMark up 4 true) 0x100 [1, 2, 259]
  rdBytes t 0x100 3 = [1, 2, 3] ∧ marked t 4 = true ∧ getF t Reg.MEM_DRAM_DETECT = 1 ∧ Memory.wf t.mem = true) := by decide +kernel
theorem test_witness_store_whole : marked (putBytes (setMark up 4 true) 0x100 (List.replicate 64 0)) 4 = false := by decide +kernel
/-! ### The sequencer -/

theorem test_witness_mayIssue : mayB runSt iv none && mayB runSt ip (some .mx) && mayB runSt ip (some .eng) = true := by decide +kernel
theorem test_issue_nop : ranOk runSt iv none (.nop iv) && ranOk runSt ip none (.nop ip) = true := by decide +kernel
theorem test_issue_fallbackEntry : ranOk runSt iv none (.fallbackEntry iv) = true := by decide +kernel
theorem test_issue_loop : nextIs (exec (.loop ip 2 true) runSt) (fun t => (coreGet t 3).nextIndex == 2) && ranOk runSt ip none (.loop ip 2 false) = true := by
  decide +kernel
theorem test_issue_branch : nextIs (exec (.branch ip 9 true) runSt) (fun t => (coreGet t 3).nextIndex == 9) && ranOk runSt ip none (.branch ip 9 false) = true := by
  decide +kernel
/-- Sampling every second instruction of core 3: the second is tagged, and its completion writes a record. -/
def smpSt : State := setFs [(Reg.PMC_SMP_CTL_EN, 1), (Reg.PMC_SMP_CTL_N, 2), (Reg.PMC_SMP_RING_CTL_EN, 1), (Reg.PMC_SMP_RING_CTL_ENABLED, 1), (Reg.PMC_SMP_CORES 0, 8), (Reg.PMC_SMP_SIZE, 1),
  (Reg.PMC_SMP_BASE_LO, 2)] (cs (fun k => { k with smpCount := 1 }) 3 runSt)
/-- Experts of two layers that step 5 holds. -/
def expSt : State := { runSt with experts := [⟨0, 2, 1, .dram, 0, false, [4, 5], [], false⟩, ⟨0, 3, 1, .dram, 0, false, [5], [], false⟩] }
theorem test_endLayer_first : (groupOf expSt 3).isSome && nextIs (exec (.endLayer ip) expSt) (fun t => reached t 1002 == [3] && decide (t.experts = expSt.experts)) = true := by
  decide +kernel
theorem test_endLayer_last : (let s := setReached (cs (fun k => { k with inFallback := [2, 1] }) 3 expSt) 1002 [5, 4]
  nextIs (exec (.endLayer ip) s) fun t => reached t 1002 == [] && (t.experts.map fun e => e.held) == [[4], [5]] && (coreGet t 3).inFallback == [1]) = true := by
  decide +kernel
theorem test_endStep_core : nextIs (exec (.endStep ip) runSt) (fun t => reached t 100000 == [3] && issuedB [.barriers] (fun _ => false) runSt ip none t) = true := by decide +kernel

/-- Core 3 with two instructions of the vector unit and one of Sash outstanding. -/
def busySt : State := cs (fun k => { k with outst := [⟨.vu, 1⟩, ⟨.vu, 2⟩, ⟨.mov, 3⟩] }) 3 runSt
theorem test_wait_issues : mayB busySt ip none && ranOk busySt ip none (.wait ip 0 0) && ranOk busySt ip none (.wait ip 2 2) && ranOk busySt ip none (.wait ip 31 32) = true := by
  decide +kernel
theorem test_wait_stalls : stallsB [] busySt ip 2 (.wait ip 2 1) && stallsB [] busySt ip 2 (.wait ip 31 0) = true := by decide +kernel
theorem test_barrier_none : (let i : Ins := ⟨100, 0, false, false, 0, 0⟩
  (groupOf runSt 100).isNone && ranOk runSt i none (.barrier i)) = true := by decide +kernel
theorem test_barrier_waits : stallsB [.barriers] runSt ip 3 (.barrier ip) && nextIs (exec (.barrier ip) runSt) (fun t => reached t 0 == [3]) = true := by decide +kernel
/-- Core 4 has arrived and core 5 is shuttered: core 3 issues, and lets core 4 through. -/
theorem test_barrier_opens : (let s := setReached (setBit runSt (Reg.ID_FENCED_CORES 0) 5 true) 0 [4]
  mayB s ip none && nextIs (exec (.barrier ip) s) (fun t => issuedB [.barriers] (fun _ => false) s ip none t && reached t 0 == [] && reached t 1 == [4])) = true := by
  decide +kernel
theorem test_barrier_passes : nextIs (exec (.barrier ip) (setReached runSt 1 [3, 4]))
  (fun t => issuedB [.barriers] (fun _ => false) runSt ip none t && reached t 1 == [4]) = true := by decide +kernel
/-- Causes 1, 5 and 6, and a shuttered core. -/
theorem test_heldBack : (let full := cs (fun k => { k with outst := List.replicate 64 ⟨.eng, 1⟩ ++ List.replicate 32 ⟨.mx, 1⟩ ++ List.replicate 64 ⟨.mem, 1⟩ }) 3 runSt
  let post := cs (fun k => { k with preempt := true }) 3 runSt
  let trap := cs (fun k => { k with stop := .trapped 2 }) 3 runSt
  let fenced := setBit runSt (Reg.ID_FENCED_CORES 0) 3 true
  decide (stallCause ip (some .eng) full = some 1) && stallsB [] full ip 1 (.engRequest ip .iris .west 0) && stallsB [] full ip 1 (.mma ip 0 0 0 0 .w4) &&
  stallsB [] full ip 1 (.memFence ip) && decide (stallCause iv none post = some 5) && stallsB [] post iv 5 (.nop iv) && ranOk post ip none (.nop ip) &&
  stallsB [] trap ip 6 (.vecOp ip .add 1 0 0 0 0) && nextEq (exec (.nop ip) fenced) fenced && nextEq (exec (.mma ip 0 0 0 0 .w4) fenced) fenced) = true := by
  decide +kernel
theorem test_complete_plain : nextIs (exec (.instructionComplete 3 .vu 2 9) busySt) (fun t => (coreGet t 3).outst == [⟨.vu, 1⟩, ⟨.mov, 3⟩]) &&
  nextIs (exec (.instructionComplete 3 .mov 3 9) busySt) (fun t => (coreGet t 3).outst == [⟨.vu, 1⟩, ⟨.vu, 2⟩]) &&
  nextEq (exec (.instructionComplete 3 .vu 4 9) busySt) busySt = true := by decide +kernel
/-- R484, R485: a tagged instruction's completion writes a 64-byte record (its OPER byte is a free value) and moves HEAD. -/
theorem test_complete_tagged : (match exec (.vecOp ip .add 0 0 0 0 0) smpSt with
  | .next u => (coreGet u 3).tag.isSome && nextIs (exec (.instructionComplete 3 .vu 7 9) u) fun t =>
      (coreGet t 3).outst == [] && (coreGet t 3).tag.isNone && getF t Reg.PMC_SMP_HEAD == 64
  | _ => false) = true := by decide +kernel
theorem test_trap_message : (let s := cs (fun k => { k with mxq := [.acc 3 (.zero 0 1)], inFallback := [1] }) 3 { busySt with engQ := [(1, [⟨3, 5, 0, 2, false, none⟩, ⟨4, 1, 0, 2, false, none⟩])] }
  nextIs (exec (.trapMessage 3 2) s) fun t => decide ((coreGet t 3).stop = .trapped 2) && (coreGet t 3).outst.isEmpty && (coreGet t 3).mxq.isEmpty &&
    decide (t.engQ = [(1, [⟨4, 1, 0, 2, false, none⟩])])) = true := by decide +kernel
theorem test_trap_drain : (let s := cs (fun k => { k with stop := .trapped 2 }) 3 runSt
  nextEq (exec (.trapDrainDone 3 44) s) (cs (fun k => { k with stop := .run, nextIndex := 44, inFallback := [2] }) 3 runSt)) = true := by decide +kernel

/-! ### Pre-emption -/

def lcHdr : StepHeader := { hdr0 with be := false, step := 6 }
def preSt : State := { setF runSt Reg.CTX_POLICY_PREEMPT_EN 1 with inbox := [lcHdr] }
theorem test_preempt_post : preemptOk preSt && nextIs (exec (.preemptionPost [3, 5]) preSt)
  (fun t => (coreGet t 3).preempt && !(coreGet t 4).preempt && (coreGet t 5).preempt && keptB [.cores] preSt t) = true := by decide +kernel
/-- Core 3 saves four bytes and accumulator row 2; core 4 is still marked. -/
def markSt : State := { cs (fun k => { k with preempt := true }) 4 (cs (fun k => { k with preempt := true, inFallback := [9] }) 3 (putBytes preSt (sramAddr 3 0x40) [1, 2, 3, 4])) with
  accs := smSet {} [] (3 * 16384 + 2 * 128 + 5) { v := 77 } }
theorem test_cheap_save : nextIs (exec (.cheapPointSave 3 20 0) markSt) (fun t => decide ((coreGet t 3).stop = .preempted 20 0) &&
  (coreGet t 3).saved == [(0x40, [1, 2, 3, 4])] && ((coreGet t 3).savedAcc.filter fun x => x.2.v != 0).map (fun x => (x.1, x.2.v)) == [(261, 77)] &&
  decide (t.portion = markSt.portion) && keptB [.cores] markSt t) = true := by decide +kernel
theorem test_cheap_save_last : (match exec (.cheapPointSave 3 20 0) markSt with
  | .next u => nextIs (exec (.cheapPointSave 4 30 1) u) fun t => t.portion.isNone && (t.suspended.map fun p => p.hdr.preemptions) == some 1
  | _ => false) = true := by decide +kernel
/-- The saved bytes and row come back, and issue restarts at the marked instruction. -/
theorem test_preempt_resume : (let s := { cs (fun k => { k with stop := .preempted 20 0, savedAt := some (20, [9]), saved := [(0x40, [5, 6])], savedAcc := [(261, { v := 78 })] }) 3 markSt with
    portion := none, suspended := some por0 }
  nextIs (exec (.preemptResume 3) s) fun t => decide ((coreGet t 3).stop = .run) && (coreGet t 3).nextIndex == 20 && t.suspended.isNone &&
    rdBytes t (sramAddr 3 0x40) 4 == [5, 6, 3, 4] && (accGet t 3 2 5).v == 78) = true := by decide +kernel
/-! ### The matrix engine and the vector unit -/

/-- Core 3's A-tile at granule 0 and W8-tile at granule 400: row 0 of the example of R90 against column 0. -/
def tileSt : State := [(0, [118, 19, 250]), (16384, [0x5A]), (25600, [3, 255, 1]), (25600 + 16384, [0x3C])].foldl (fun s x => putBytes s (sramAddr 3 x.1) x.2) runSt
def pass0 : Pass := ⟨.mma, 0, 400, 5, 1, .w8, 2, 7, false⟩
def passSt (p : Pass) : State := cs (fun k => { k with mxq := [.pass p], outst := [⟨.mx, 7⟩, ⟨.mx, 8⟩] }) 3
  { tileSt with accs := smSet {} (smSet {} [] (3 * 16384 + 5 * 128) { v := 1, nonfinite := true }) (3 * 16384 + 6 * 128) { v := 9 } }
theorem test_witness_passRange : (List.range 128).all (fun j => !(accGet (passSt pass0) 3 5 j).ovf &&
  !accOut ((accGet (passSt pass0) 3 5 j).v + (passTerm (passSt pass0) 3 pass0 0 j).v)) = true := by decide +kernel
theorem test_pass_completes : nextIs (exec (.mmaPassComplete 3 false 20) (passSt pass0)) (fun t =>
  decide (accGet t 3 5 0 = { v := 1 + 39480 * 2 ^ 78, nonfinite := true }) && decide (accGet t 3 5 1 = {}) && (accGet t 3 6 0).v == 9 &&
  (coreGet t 3).mxq.isEmpty && decide ((coreGet t 3).outst = [⟨.mx, 8⟩])) = true := by decide +kernel
theorem test_pass_mismatch : nextIs (exec (.mmaPassComplete 3 true 20) (passSt pass0)) (fun t => decide (t.accs = (passSt pass0).accs) &&
  decide ((coreGet t 3).mxq = [.pass { pass0 with rerun := true }]) && getF t Reg.ENG_MX_RESIDUE_MISMATCH == 1 && getF t Reg.ENG_MX_LAST_FAULT_CORE_ID == 3 &&
  getF t Reg.ENG_MX_LAST_FAULT_CAUSE == 1) = true := by decide +kernel
theorem test_rerun_completes : nextIs (exec (.residueRerunComplete 3 false 20 0) (passSt { pass0 with rerun := true })) (fun t =>
  (accGet t 3 5 0).v == 1 + 39480 * 2 ^ 78 && (coreGet t 3).mxq.isEmpty) = true := by decide +kernel
theorem test_rerun_mismatch : nextIs (exec (.residueRerunComplete 3 true 20 0) (passSt { pass0 with rerun := true })) (fun t =>
  (accGet t 3 5 127).poison && !(accGet t 3 6 0).poison && (coreGet t 3).mxq.isEmpty && getF t Reg.ENG_MX_RESIDUE_POISON == 1) = true := by decide +kernel
theorem test_rerun_fences : (let s := { passSt { pass0 with rerun := true } with residueTimes := [(3, [5, 6, 7])], img := none }
  !isMappedCore s 3 && nextIs (exec (.residueRerunComplete 3 true 20 8) s) fun t => coreFenced t 3 && !getBit t (Reg.NOC_FENCE_PENDING 0) 3) = true := by decide +kernel

def queued (p : Pass) (t : State) : Bool := decide ((coreGet t 3).mxq = [.pass p]) && issuedB [] (fun _ => false) runSt ip (some .mx) t
theorem test_issue_mma : nextIs (exec (.mma ip 1 2 120 7 .t) runSt) (queued ⟨.mma, 1, 2, 120, 8, .t, 2, 7, false⟩) = true := by decide +kernel
theorem test_issue_mmaX : nextIs (exec (.mmaX ip 1 2 0 127) runSt) (queued ⟨.mmaX, 1, 2, 0, 128, .kv8, 2, 7, false⟩) = true := by decide +kernel
theorem test_issue_mmaF16 : nextIs (exec (.mmaF16 ip 1 2 127 0 .w2) runSt) (queued ⟨.mmaF16, 1, 2, 127, 1, .w2, 2, 7, false⟩) = true := by decide +kernel

def accSt : State := { runSt with accs := smSet {} (smSet {} [] (3 * 16384 + 5 * 128 + 1) { v := -2, poison := true }) (3 * 16384 + 6 * 128) { v := 9 } }
theorem test_issue_accZero : nextIs (exec (.accZero ip 5 1) accSt) (fun t => decide (accGet t 3 5 1 = {}) && (accGet t 3 6 0).v == 9 && keptB [.accs, .cores, .flds] accSt t) &&
  nextIs (exec (.accZero ip 5 1) (passSt pass0)) (fun t => decide ((coreGet t 3).mxq = [.pass pass0, .acc 7 (.zero 5 1)])) = true := by decide +kernel
theorem test_issue_accExport : nextIs (exec (.accExport ip 5 1 0x80) accSt) (fun t =>
  rdBytes t (sramAddr 3 0x80) 32 == [254] ++ List.replicate 23 255 ++ [1] ++ List.replicate 7 0) = true := by decide +kernel
/-- The record of the value -3 with NONFINITE. -/
theorem test_issue_accImport : (let s := putBytes accSt (sramAddr 3 0x80) ([253] ++ List.replicate 23 255 ++ [4])
  nextIs (exec (.accImport ip 5 1 0x80) s) fun t => decide (accGet t 3 5 1 = { v := -5, poison := true, nonfinite := true }) && (accGet t 3 6 0).v == 9) = true := by
  decide +kernel
/-- R101: 1.5 in units of 2^-96 converts to the binary32 and bfloat16 of 1.5. -/
theorem test_issue_accConvert : (let s := { runSt with accs := smSet {} [] (3 * 16384 + 5 * 128) { v := 3 * 2 ^ 95 } }
  nextIs (exec (.accConvert ip 5 1 .f32 2 0x400 0 []) s) (fun t => rdLe t (sramAddr 3 0x400) 4 == 0x3FC00000 && decide (t.accs = s.accs)) &&
  nextIs (exec (.accConvert ip 5 1 .bf16 2 0x400 0 []) s) (fun t => rdLe t (sramAddr 3 0x400) 2 == 0x3FC0)) = true := by decide +kernel

/-- R68: lanes 1.5 and 2 against lanes 0.5 and -2; lane 2 holds the square roots' operand 2. -/
def vecSt : State := putBytes (putBytes runSt (sramAddr 3 0x100) (leBytes 4 0x3FC00000 ++ leBytes 4 0x40000000)) (sramAddr 3 0x200) (leBytes 4 0x3F000000 ++ leBytes 4 0xC0000000)
def vecRes (f : VecFn) (l : List Nat) : Bool := mayB vecSt ip (some .vu) && nextIs (exec (.vecOp ip f 2 0x300 0x100 0x200 0x100) vecSt) fun t =>
  [rdLe t (sramAddr 3 0x300) 4, rdLe t (sramAddr 3 0x304) 4] == l && issuedB [] (within (sramAddr 3 0x300) 8) vecSt ip (some .vu) t
theorem test_vec_add_mul : vecRes .add [0x40000000, 0] && vecRes .sub [0x3F800000, 0x40800000] && vecRes .mul [0x3F400000, 0xC0800000] = true := by decide +kernel
theorem test_vec_fma_div_sqrt : vecRes .fma [0x40100000, 0xC0000000] && vecRes .div [0x40400000, 0xBF800000] && vecRes .sqrt [0x3F9CC471, 0x3FB504F3] = true := by decide +kernel
theorem test_witness_order : contribSum [⟨3, true, false⟩, ⟨-5, false, true⟩] = contribSum [⟨-5, false, true⟩, ⟨3, true, false⟩] := by decide
theorem test_witness_scales : residueTerm (-47232) (s8Sig 1 * s8Sig 254) (promoteShift 1 254 2) = residue (promote (-47232) 1 254 2) := by decide +kernel
/-- A reserved code counts unless the scale of its block is 0x00. -/
theorem test_vx_reserved : (let s := [(25600, [0x80]), (25600 + 33, [0x80]), (25600 + 16384, [0x3C])].foldl (fun s x => putBytes s (sramAddr 3 x.1) x.2) runSt
  vxInvalid s (sramAddr 3 25600) = 1) := by decide +kernel
/-! ### The MEM family -/

/-- Core 3's SRAM byte 0x40 holds 7, 8; the scratch holds 5, 6 at 0x10010. -/
def memSt : State := putBytes (putBytes runSt (sramAddr 3 0x40) [7, 8]) 0x10010 [5, 6]
def memRan (c : Instr) (a n : Nat) (bs : List Nat) : Bool := mayB memSt ip (some .mem) && nextIs (exec c memSt) fun t =>
  rdBytes t a n == bs && issuedB [] (within a n) memSt ip (some .mem) t
theorem test_issue_memLoad : devReadOk memSt 0x10010 2 && memRan (.memLoad ip 0x10010 2 0x80 [] true) (sramAddr 3 0x80) 2 [5, 6] &&
  !devReadOk memSt (2 ^ 38) 2 && memRan (.memLoad ip (2 ^ 38) 2 0x40 [] true) (sramAddr 3 0x40) 2 [0, 0] = true := by decide +kernel
theorem test_issue_memAcquire : memRan (.memAcquire ip 0x10010 2 0x80 [] true) (sramAddr 3 0x80) 2 [5, 6] &&
  memRan (.memAcquire ip (2 ^ 38) 2 0x40 [] true) (sramAddr 3 0x40) 2 [0, 0] = true := by decide +kernel
/-- The last bytes of the step scratch, and the first byte behind it. -/
theorem test_issue_memStore : scratchOk memSt 0x1FFFE 2 && memRan (.memStore ip 0x1FFFE 0x40 2 []) 0x1FFFE 2 [7, 8] &&
  !scratchOk memSt 0x1FFFF 2 && memRan (.memStore ip 0x1FFFF 0x40 2 []) 0 0 [] = true := by decide +kernel
theorem test_issue_memRelease : memRan (.memRelease ip 0x1FFFE 0x40 2 []) 0x1FFFE 2 [7, 8] && memRan (.memRelease ip 0x1FFFF 0x40 2 []) 0 0 [] = true := by decide +kernel
theorem test_issue_memFence : memRan (.memFence ip) 0 0 [] = true := by decide +kernel
def atom (fn : AtomFn) (a x y : Nat) (new old : Nat) : Bool := nextIs (exec (.memAtomic ip fn false a x y 0x80 []) memSt) fun t =>
  rdLe t a 4 == new && rdLe t (sramAddr 3 0x80) 4 == old && issuedB [] (fun b => within a 4 b || within (sramAddr 3 0x80) 4 b) memSt ip (some .mem) t
theorem test_issue_memAtomic : atom .fadd 0x10010 (2 ^ 32 - 1) 0 0x604 0x605 && atom .cas 0x10010 9 0x605 9 0x605 && atom .cas 0x10010 9 0x604 0x605 0x605 &&
  atom .min 0x10010 (2 ^ 32 - 1) 0 (2 ^ 32 - 1) 0x605 && atom .max 0x10010 (2 ^ 32 - 1) 0 0x605 0x605 = true := by decide +kernel
/-- A misaligned atomic, and one outside the scratch. -/
theorem test_memAtomic_refused : memRan (.memAtomic ip .fadd false 0x10011 1 0 0x40 []) (sramAddr 3 0x40) 4 [0, 0, 0, 0] &&
  memRan (.memAtomic ip .fadd false 0x20000 1 0 0x40 []) (sramAddr 3 0x40) 4 [0, 0, 0, 0] = true := by decide +kernel

/-! ### Engines: a record at granule 1 of the west commons, operands in the scratch -/

def ec : EngCmd := ⟨3, 7, 1, 2, false, none⟩
def rec0 : Nat := recBase .west 1
/-- The module with one command of engine `e`: OPCODE and further record bytes, and operands. -/
def engSt (e : Engine) (op : Nat) (r data : List (Nat × List Nat)) : State :=
  puts (((0, [op]) :: (4, [2]) :: r).map (fun x => (rec0 + x.1, x.2)) ++ data) { runSt with engQ := [(engKey .west e, [ec])] }
/-- `EngineTurn`. -/
def turnB (s : State) (e : Engine) (op : Nat) : Bool :=
  decide (firstOpen (engQueue s .west e) = some ec) && rdByte s rec0 == op && !anyMarked s rec0 128 && rdLe s (rec0 + 4) 2 == ec.layer
def engRan (e : Engine) (more : List Part) (s : State) (c : Instr) (a n : Nat) (bs : List Nat) : Bool := nextIs (exec c s) fun t =>
  decide (engQueue t .west e = [{ ec with status := some 0 }]) && rdBytes t a n == bs && keptB (engParts ++ more) s t

/-- 32 keys of one row in bfloat16: key 31 is 1.0, the others 0; SCALE 1.0. -/
def smRecB (phase : Nat) : List (Nat × List Nat) := [(6, [6]), (16, [phase]), (20, [32]), (24, leBytes 4 0x3F800000), (40, leBytes 8 0x11000),
  (48, leBytes 8 0x14000), (56, leBytes 8 0x12000), (66, [1])]
def smMax : State := engSt .iris 1 (smRecB 0x80) [(0x11000 + 62, [0x80, 0x3F])]
theorem test_run_softmax_max : turnB smMax .iris 1 && smOk smMax rec0 && engRan .iris [] smMax (.softmax .west [] true) 0x12000 4 (leBytes 4 0x3F800000) = true := by
  decide +kernel
theorem test_run_softmax_sum : (let s := engSt .iris 1 (smRecB 1) []
  smOk s rec0 && engRan .iris [] s (.softmax .west [] true) 0x12004 4 (leBytes 4 0x42000000)) = true := by decide +kernel
/-- Each of the 32 probabilities is 1/32: code 64 under the scale code of significand 8. -/
theorem test_run_softmax_norm : (let s := engSt .iris 1 (smRecB 2) [(0x12004, leBytes 4 0x42000000)]
  smOk s rec0 && nextIs (exec (.softmax .west [] true) s) fun t => decide (engQueue t .west .iris = [{ ec with status := some 0 }]) && rdByte t 0x14000 != 0 &&
    rdByte t 0x14000 == rdByte t 0x1401F) = true := by decide +kernel
def normRecB : List (Nat × List Nat) := [(6, [6]), (16, [2]), (20, [32]), (32, leBytes 8 0x11000), (40, leBytes 8 0x14000), (48, leBytes 8 0x12000), (56, leBytes 8 0x13000)]
def ones (a : Nat) : Nat × List Nat := (a, (List.replicate 32 [0x80, 0x3F]).flatten)
theorem test_run_rmsnorm : (let s := engSt .iris 2 normRecB [ones 0x11000, ones 0x12000]
  turnB s .iris 2 && normOk s rec0 && engRan .iris [] s (.rmsnorm .west [] true) 0x1403E 2 [0x80, 0x3F]) = true := by decide +kernel
/-- Elements 1, -1, 1, -1, ... have mean 0 and variance 1. -/
theorem test_run_layernorm : (let s := engSt .iris 3 normRecB [(0x11000, (List.replicate 16 [0x80, 0x3F, 0x80, 0xBF]).flatten), ones 0x12000]
  turnB s .iris 3 && normOk s rec0 && engRan .iris [] s (.layernorm .west [] true) 0x1403C 4 [0x80, 0x3F, 0x80, 0xBF]) = true := by decide +kernel
/-- Position 0 turns by no angle. -/
def rotSt : State := engSt .crocus 1 [(16, [5]), (18, [2]), (20, [2]), (22, [1]), (28, [1]), (40, leBytes 8 0x11000), (48, leBytes 8 0x14000), (56, leBytes 8 0x12000)]
  [(0x11000, f32s [0x3F800000, 0x40000000]), (0x12000, f32s [0x3F800000])]
theorem test_run_rotate : turnB rotSt .crocus 1 && rotOk rotSt rec0 &&
  engRan .crocus [] rotSt (.rotate .west [] true) 0x14000 8 (f32s [0x3F800000, 0x40000000]) = true := by decide +kernel
/-- TEMP 0: the largest of four logits is the second. -/
def popRecB (n : Nat) : List (Nat × List Nat) := [(16, [2]), (17, [n]), (28, [4]), (40, leBytes 8 0x11000), (48, leBytes 8 0x14000)]
def logits (a : Nat) : Nat × List Nat := (a, f32s [0, 0x40A00000, 0x3F800000, 0x40000000])
theorem test_run_sample : (let s := engSt .poppy 1 (popRecB 0) [logits 0x11000]
  turnB s .poppy 1 && popOk false s rec0 && engRan .poppy [.fresh] s (.sample .west [] true) 0x14000 4 [1, 0, 0, 0] &&
  nextIs (exec (.sample .west [] true) s) fun t => (t.portion.map fun p => p.returns.map fun r => r.tokens) == some [[1]]) = true := by decide +kernel
/-- The draft token 1 is accepted, and the second row emits token 1 as well. -/
theorem test_run_verify : (let s := engSt .poppy 2 ((64, [1]) :: popRecB 1) [logits 0x11000, logits 0x11040]
  turnB s .poppy 2 && popOk true s rec0 && engRan .poppy [.fresh] s (.verify .west [] true) 0x14000 16 [1, 0, 0, 0, 0, 0, 0, 0, 1, 0, 0, 0, 1, 0, 0, 0]) = true := by
  decide +kernel
def appRecB (draft0 : Nat) : List (Nat × List Nat) := [(16, [1]), (18, [32]), (22, [1]), (24, [1]), (32, leBytes 8 0x11000), (40, leBytes 8 0x12000),
  (56, leBytes 8 0x14000), (64, leBytes 4 0x1200), (68, leBytes 4 0), (72, leBytes 4 0x900), (80, leBytes 4 draft0)]
def appSt (draft0 : Nat) : State := { engSt .dahlia 1 (appRecB draft0) [(0x11000, f32s [0x3F800000])] with ctxs := [(0, ctx0)] }
/-- One key of 1.0 in page 1: its block and its scale; a draft row marks the span. -/
theorem test_run_append : turnB (appSt 1) .dahlia 1 && appOk (appSt 1) rec0 && (match exec (.append .west [] true) (appSt 1), exec (.append .west [] true) (appSt 0) with
  | .next t, .next u => decide (t.ctxs = [(0, ctx0)]) && rdByte t (0x14000 + 0x1200) != 0 && rdByte t (0x14000 + 0x1200 + 2048) != 0 && keptB (.ctxs :: engParts) (appSt 1) t &&
    (u.ctxs.map fun c => c.2.spans.map fun e => (e.2.page, e.2.spec)) == [[(1, true)]]
  | _, _ => false) = true := by decide +kernel
/-- A root with one child, whose 64 tokens and the prompt's are zeros; a failing child ends the walk. -/
def walkSt : State := engSt .lattice 1 [(20, [64]), (24, leBytes 8 0x12000), (32, leBytes 8 0x11000), (40, leBytes 8 0x14000)]
  [(0x12000 + 260, [1]), (0x12000 + 264, leBytes 8 0x15000), (0x15008, leBytes 8 0x13000)]
theorem test_run_walk : turnB walkSt .lattice 1 && walkOk walkSt rec0 && engRan .lattice [] walkSt (.walk .west []) 0x14000 16 ([64] ++ List.replicate 8 0 ++ [0x30, 1, 0, 0, 0, 0, 0]) = true := by
  decide +kernel
theorem test_run_walk_bad : nextIs (exec (.walk .west [(0x13000 / 64, .hard)]) walkSt) (fun t => rdLe t 0x14000 4 == 0 && rdLe t 0x14008 8 == 0 &&
  getF t Reg.ENG_LATTICE_NODE_DETECT == 1 && decide (t.portion = walkSt.portion)) = true := by decide +kernel
/-- One row of two experts, K 1: expert 1 has the larger logit. -/
def routeSt : State := engSt .aster 1 [(16, [1]), (18, [16]), (19, [4]), (20, [2]), (24, [1]), (28, leBytes 4 0x3F800000), (32, leBytes 8 0x11000), (56, leBytes 8 0x12000),
  (64, leBytes 8 0x13000), (72, leBytes 8 0x14000)] [(0x11000, f32s [0, 0x3F800000])]
theorem test_run_route : turnB routeSt .aster 1 && routeOk routeSt rec0 && nextIs (exec (.route .west [] true) routeSt) (fun t =>
  decide (engQueue t .west .aster = [{ ec with status := some 0 }]) && rdLe t 0x12000 2 == 1 && keptB (.experts :: engParts) routeSt t &&
  (t.portion.map fun p => p.routes.map fun r => (r.layer, r.e, r.k, r.tokens, r.assigned)) == some [(2, 2, 1, 1, [0, 1])]) = true := by decide +kernel

theorem test_engine_request : (let s := { runSt with engQ := [(engKey .east .iris, List.replicate 63 ec)] }
  nextIs (exec (.engRequest ip .iris .east 5) s) fun t => (engQueue t .east .iris).length == 64 && decide ((engQueue t .east .iris)[63]? = some ⟨3, 7, 5, 2, false, none⟩) &&
    issuedB [.engQ, .rr] (fun _ => false) s ip (some .eng) t) = true := by decide +kernel
theorem test_engine_full : (let s := { runSt with engQ := [(engKey .east .iris, List.replicate 64 ec)] }
  stallsB [] s ip 1 (.engRequest ip .iris .east 5)) = true := by decide +kernel
theorem test_engine_denied : (let s := engSt .iris 1 ((20, [31]) :: smRecB 0x80) []
  turnB (engSt .iris 1 [(16, [3])] []) .iris 1 && !smOk (engSt .iris 1 [(16, [3])] []) rec0 && smOk s rec0 &&
  nextIs (exec (.softmax .west [] true) (engSt .iris 1 [(16, [3])] [])) fun t => decide (engQueue t .west .iris = [{ ec with status := some 0x23 }])) = true := by decide +kernel
theorem test_engine_watchdog : nextIs (exec (.engineWatchdog .west .poppy) (engSt .poppy 1 (popRecB 0) [])) (fun t =>
  decide (engQueue t .west .poppy = [{ ec with status := some 0x31 }]) && getF t Reg.ENG_CMD_WDOG == 1) = true := by decide +kernel
theorem test_engine_done : (let s := cs (fun k => { k with outst := [⟨.eng, 7⟩] }) 3 { runSt with engQ := [(engKey .west .iris, [{ ec with status := some 0x23 }])] }
  !sampleBytes s (rec0 + 8) && nextIs (exec (.engineCommandDone .west .iris 5) s) fun t => (engQueue t .west .iris).isEmpty && (coreGet t 3).outst.isEmpty &&
    rdByte t (rec0 + 8) == 0x23 && keptB [.engQ, .cores, .flds, .mem, .marks, .ringRecs] s t) = true := by decide +kernel

/-! ### Sash -/

/-- A descriptor from the commons at 0x40 to core 4's SRAM at 0x80. -/
def dbytes (op len : Nat) (l : List (Nat × List Nat)) : List Nat :=
  l.foldl (fun b x => b.take x.1 ++ x.2 ++ b.drop (x.1 + x.2.length))
    ([op, 0x43, 0, 0, 4, 0, 0, 0] ++ leBytes 8 0x40 ++ leBytes 8 0x80 ++ leBytes 4 len ++ List.replicate 12 0 ++ [0, 4] ++ List.replicate 22 0)
def se (bs : List Nat) : SashEnt := { src := 3, index := 7, bytes := bs }
def sashSt (bs : List Nat) : State := puts [(commonsAddr 0x40, [1, 2]), (commonsAddr 0x80, [3, 4]), (sramAddr 4 0x82, [9])]
  { runSt with sashQ := [(0, [se bs])] }
def sashRan (op : Nat) (bs : List Nat) (c : Instr) (want : List (Nat × Nat)) : Bool := (parseDesc bs).op == op && descOk (sashSt bs) (parseDesc bs) &&
  decide ((sashQueue (sashSt bs) .west).find? (fun x => startable .west (sashSt bs) x && (parseDesc x.bytes).op == op) = some (se bs)) &&
  nextIs (exec c (sashSt bs)) fun t => decide (sashQueue t .west = [{ se bs with status := some 0 }]) && want.all (fun x => rdByte t (sramAddr 4 x.1) == x.2) &&
    keptB [.sashQ, .mem, .marks, .flds] (sashSt bs) t
theorem test_run_copy : sashRan 1 (dbytes 1 64 []) (.copy .west [] true noHost) [(0x80, 1), (0x81, 2), (0x82, 0)] = true := by decide +kernel
/-- Two rows, 64 bytes apart at the source, 128 at the destination. -/
theorem test_run_copy2d : sashRan 2 (dbytes 2 64 [(28, [1]), (32, [64]), (36, [128])]) (.copy2d .west [] true noHost) [(0x80, 1), (0x81, 2), (0x100, 3), (0x101, 4)] = true := by
  decide +kernel
theorem test_run_fillZero : sashRan 3 (dbytes 3 64 []) (.fillZero .west) [(0x82, 0)] = true := by decide +kernel
/-- A page of one block to a token, for the two page operations. -/
theorem test_witness_pages : [(4, Instr.pageToKt .west [] true noHost), (5, Instr.pageToVx .west [] true noHost)].all (fun x => let bs := dbytes x.1 16896 [(4, [1])]
  descOk (sashSt bs) (parseDesc bs) && decide ((sashQueue (sashSt bs) .west).find? (fun y => startable .west (sashSt bs) y && (parseDesc y.bytes).op == x.1) = some (se bs)) && x.2.wf) = true := by decide +kernel
theorem test_sash_denied : (let bs := dbytes 1 96 []
  !descOk (sashSt bs) (parseDesc bs) && nextIs (exec (.copy .west [] true noHost) (sashSt bs)) fun t => decide (sashQueue t .west = [{ se bs with status := some 0x23 }]) &&
    getF t Reg.ENG_SASH_REFUSED == 1 && decide (t.mem = (sashSt bs).mem)) = true := by decide +kernel
theorem test_mov_issues : (let s := { runSt with sashQ := [(0, List.replicate 62 (se []))] }
  nextIs (exec (.mov ip 1 false 1) (putBytes s (sramAddr 3 0x40) [1, 0x43])) fun t => (sashQueue t .west).length == 64 &&
    ((sashQueue t .west).drop 62).map (fun e => (e.bytes.take 2, e.bytes.length, e.mov)) == [([1, 0x43], 64, 0), ([0, 0], 64, 0)]) = true := by decide +kernel
theorem test_mov_stalls : (let s := { runSt with sashQ := [(0, List.replicate 62 (se []))] }
  stallsB [] s ip 1 (.mov ip 1 false 2)) = true := by decide +kernel
/-- The first of two descriptors of one MOV, then the last. -/
theorem test_sash_done : (let e1 : SashEnt := { se (dbytes 1 64 []) with status := some 0, num := 1, mov := 1 }
  let e2 : SashEnt := { e1 with num := 2, status := some 0x31 }
  let s := cs (fun k => { k with outst := [⟨.mov, 7⟩] }) 3 { runSt with sashQ := [(0, [e1, e2])] }
  nextIs (exec (.sashDescriptorDone .west 1 3) s) (fun t => decide (sashQueue t .west = [e1]) && decide (t.cores = s.cores)) &&
  nextIs (exec (.sashDescriptorDone .west 0 3) { s with sashQ := [(0, [e1])] }) fun t => (sashQueue t .west).isEmpty && (coreGet t 3).outst.isEmpty) = true := by decide +kernel
/-! ### Recovery, extents, experts and cards -/

def refSt : State := { puts [(2 ^ 40 + 4, [6, 7])] runSt with refetch := [⟨2 ^ 34, .core 3 7 0x80 (2 ^ 40 + 4) 2⟩], marks := [(2 ^ 34, true)] }
theorem test_refetch_done : nextIs (exec (.refetchDone (2 ^ 34) true true none 5) refSt) (fun t => t.refetch.isEmpty && rdBytes t (sramAddr 3 0x80) 2 == [6, 7] &&
  !marked t (2 ^ 34) && getF t Reg.MEM_REFETCH == 1 && keptB [.mem, .marks, .flds, .portion, .refetch, .now] refSt t) &&
  nextEq (exec (.refetchDone 3 true true none 5) refSt) refSt = true := by decide +kernel
def scrSt : State := setF { runSt with extents := [(0, { ext0 with state := .resident })] } Reg.MEM_SCRUB_CTL_EN 1
theorem test_scrub_read : (let s := scrSt
  nextEq (exec (.scrubRead 0x40 .ok false 5) s) s && nextEq (exec (.scrubRead 0x40 .hard false 5) (setF s Reg.MEM_SCRUB_CTL_EN 0)) (setF s Reg.MEM_SCRUB_CTL_EN 0) &&
  isFreePlace s (2 ^ 33) && !isFreePlace s 0x40 &&
  nextIs (exec (.scrubRead (2 ^ 33) .hard false 5) s) (fun t => getF t Reg.MEM_SCRUB_DETECT == 1 && !marked t (2 ^ 27)) &&
  nextIs (exec (.scrubRead 0x40 .hard false 5) s) (fun t => getF t Reg.MEM_SCRUB_DETECT == 1 && marked t 1) &&
  nextIs (exec (.scrubRead (2 ^ 40) .hard false 5) s) (fun t => marked t (2 ^ 34) && decide (t.refetch = [⟨2 ^ 34, .scrub⟩]))) = true := by decide +kernel
def exSt : State := { runSt with extents := [(10, ext0), (11, { ext0 with state := .resident })], experts := [⟨0, 2, 1, .fetching, 0, false, [], [10, 11], false⟩] }
theorem test_extent_fetch : nextIs (exec (.extentFetchDone 10 true) exSt) (fun t => (t.extents.all fun e => isResident e.2) && decide (t.experts.map (fun e => e.res) = [.dram])) &&
  nextIs (exec (.extentFetchDone 10 false) exSt) (fun t => decide ((alGet t.extents 10).map (fun e => e.state) = some .flash) &&
    decide ((t.portion.map fun p => p.poison) = some [.extent 10])) && nextEq (exec (.extentFetchDone 11 true) exSt) exSt = true := by decide +kernel
theorem test_frame_release : (let s := { exSt with extents := [(10, { ext0 with draining := true })] }
  nextIs (exec (.frameRelease 10) s) (fun t => decide (t.extents = [(10, ext0)])) && nextEq (exec (.frameRelease 10) exSt) exSt) = true := by decide +kernel
theorem test_extent_rebuilt : (let s := setFs [(cardState 0, 3), (Reg.HOST_PORT_A_UP, 1)] exSt
  hostCopy s 10 true && nextIs (exec (.extentRebuilt 10 true []) s) fun t => ((alGet t.extents 10).map fun e => e.onCard) == some true && getF t Reg.MEM_HOST_FETCH == 128) = true := by
  decide +kernel
/-- Period 4, one fetch, hysteresis 2, four EXPERT frames: expert 1 of heat 9 against expert 2 of heat 6 and 7. -/
def hotSt (heat n : Nat) : State := { runSt with boundaries := 4, experts := [⟨0, 2, 1, .flash, 9, false, [], [10], false⟩, ⟨0, 2, 2, .dram, heat, false, [], List.range n, false⟩], extents := [(10, { ext0 with state := .flash })] }
theorem test_expert_promotion : nextIs (exec .expertPromotion (hotSt 6 3)) (fun t => decide (t.experts.map (fun e => e.res) = [.fetching, .dram])) &&
  decide (victim (hotSt 6 4) 0 = some ⟨0, 2, 2, .dram, 6, false, [], [0, 1, 2, 3], false⟩) &&
  nextIs (exec .expertPromotion (hotSt 6 4)) (fun t => decide (t.experts.map (fun e => e.res) = [.fetching, .flash])) &&
  nextEq (exec .expertPromotion (hotSt 7 4)) (hotSt 7 4) && nextEq (exec .expertPromotion { hotSt 6 3 with boundaries := 5 }) { hotSt 6 3 with boundaries := 5 } = true := by decide +kernel

def cardSt (a b : Nat) : State := { setFs [(cardState 0, a), (cardState 1, b)] runSt with blockReads := [(5, 9), (2 ^ 32 + 5, 8)] }
theorem test_flash_relocate : nextIs (exec (.flashRelocate 0 5 20 300 true false) (cardSt 2 2)) (fun t => getF t (cardState 0) == 4 && getF t (cardState 1) == 2 &&
  decide (t.blockReads = [(2 ^ 32 + 5, 8)]) && getF t (cardWear 0) == 20 && getF t (cardSpare 0) == 255 && getF t Reg.MEM_FLASH_RELOCATE == 1) &&
  nextEq (exec (.flashRelocate 0 5 20 30 true false) (cardSt 1 2)) (cardSt 1 2) = true := by decide +kernel
theorem test_flash_refresh : nextIs (exec (.flashRefresh 1 5 20 30 true true) (cardSt 2 3)) (fun t => getF t (cardState 1) == 5 && getF t Reg.MEM_FLASH_RELOCATE == 1) = true := by decide +kernel
theorem test_wear_level : nextIs (exec (.wearLevel 1 5 20 30 true false) (cardSt 2 4)) (fun t => getF t (cardState 1) == 4 && getF t Reg.MEM_FLASH_RELOCATE == 0) = true := by decide +kernel
theorem test_card_fails : nextIs (exec (.cardControllerFault 1) (cardSt 2 2)) (fun t => getF t (cardState 1) == 5 && getB t Reg.HOST_ALERT_FLASH) &&
  nextEq (exec (.cardControllerFault 1) (cardSt 2 5)) (cardSt 2 5) &&
  nextIs (exec (.flashRailShort 1) (cardSt 2 2)) (fun t => getF t (cardState 1) == 5 && t.nvFault == (4, 7) && t.vflashLatched == [false, true]) = true := by decide +kernel
theorem test_card_pulled_inserted : (match exec (.cardPulled 0) (cardSt 2 2) with
  | .next t => getF t (cardState 0) == 0 && t.cardSeated == [false, true] && nextIs (exec (.cardInserted 0 77 1 99) t) fun u =>
      getF u (cardState 0) == 3 && u.cardSerial == [77, 0] && u.cardSeated == [true, true]
  | _ => false) = true := by decide +kernel
theorem test_card_rebuilt : nextIs (exec (.cardRebuildDone 0) (cardSt 3 2)) (fun t => getF t (cardState 0) == 2) = true := by decide +kernel
theorem test_card_removed : nextIs (exec (.prepareRemove .a 0) (cardSt 2 2)) (fun t => getF t (cardState 0) == 0 && getF t Reg.MEM_CARD_CMD_STATUS == 0 &&
  getBit t Reg.MEM_CARD_CMD_RELEASED 0 && nextIs (exec (.cardCancel .b 0) t) fun u => getF u (cardState 0) == 1) &&
  nextIs (exec (.prepareRemove .a 0) (cardSt 2 4)) (fun t => getF t (cardState 0) == 2 && getF t Reg.MEM_CARD_CMD_STATUS == 0x10) = true := by decide +kernel
/-! ### Registers -/

def wr (s : State) (p : Port) (f : Fld) (v : BitVec 32) (g : State → Bool) : Bool := regAt f.off && !ownRow.contains f.off &&
  nextIs (exec (.registerWrite p f.off v) s) fun t => g t && keptB [.flds] s t && regsB (fun k => k % 2 ^ 40 / 64 == f.off) s t
theorem test_register_write : rangeOk Reg.PWR_LEAK_CTL_GRACE.off 1000 && !heldOff up .a Reg.PWR_LEAK_CTL_GRACE.off && windowOk up .a Reg.PWR_LEAK_CTL_GRACE.off 1000 &&
  wr up .a Reg.PWR_LEAK_CTL_GRACE 1000 (fun t => getF t Reg.PWR_LEAK_CTL_GRACE == 1000) && !rangeOk Reg.PWR_LEAK_CTL_GRACE.off 1001 &&
  nextEq (exec (.registerWrite .a Reg.PWR_LEAK_CTL_GRACE.off 1001) up) up = true := by decide +kernel
theorem test_register_locked : nextIs (exec (.lockSet .b 2) up) (fun t => getB t (lockOf 0x20000) && wr t .a Reg.PWR_LEAK_CTL_GRACE 1000 (fun u => getF u Reg.PWR_LEAK_CTL_GRACE == 10)) = true := by
  decide +kernel
/-- W1C fields of port B's copy: the bit written as 1 is cleared, the other and port A's stay. -/
theorem test_register_w1c : (let s := setP (setP (setP up .b Reg.HOST_IRQ_CAUSE_CPL 1) .b Reg.HOST_IRQ_CAUSE_RING 1) .a Reg.HOST_IRQ_CAUSE_CPL 1
  wr s .b Reg.HOST_IRQ_CAUSE_CPL 1 fun t => getP t .b Reg.HOST_IRQ_CAUSE_CPL == 0 && getP t .b Reg.HOST_IRQ_CAUSE_RING == 1 && getP t .a Reg.HOST_IRQ_CAUSE_CPL == 1) = true := by
  decide +kernel
theorem test_register_held_off : (let s := setF up Reg.MEM_LOAD_STATUS_BUSY 1
  heldOff s .a Reg.MEM_MANIFEST_HI.off && nextEq (exec (.registerWrite .a Reg.MEM_MANIFEST_HI.off 5) s) s && wr up .a Reg.MEM_MANIFEST_HI 5 fun t => getF t Reg.MEM_MANIFEST_HI == 5) = true := by
  decide +kernel
theorem test_register_safe : nextEq (exec (.registerWrite .a Reg.PWR_LEAK_CTL_GRACE.off 7) safeSt) (emit safeSt (.unsupported .a)) &&
  nextEq (exec (.lockSet .a 0) safeSt) (emit safeSt (.unsupported .a)) = true := by decide +kernel
/-- R14: the upper half is that of the lower read's instant; port B's latch is its own. -/
theorem test_pair_reads : (let f := Reg.CTX_STEP_NEXT
  let s := setF up f (7 + 9 * 2 ^ 32)
  isPair f.off && nextIs (exec (.pairLowerRead .a f.off) s) fun t => t.out == [.readData .a [7, 0, 0, 0]] && latch t .a == some (f.off, 9) && latch t .b == none &&
    nextIs (exec (.pairUpperRead .a f.off) (setF t f 0)) (fun u => u.out.head? == some (.readData .a [9, 0, 0, 0]) && latch u .a == none) &&
    nextIs (exec (.pairUpperRead .b f.off) (setF t f 0)) (fun u => u.out.head? == some (.readData .b [0, 0, 0, 0]) && latch u .a == some (f.off, 9))) = true := by decide +kernel
theorem test_pair_none : !isPair 4 && nextEq (exec (.pairLowerRead .a 4) up) up && nextEq (exec (.pairUpperRead .a 4) up) up = true := by decide +kernel
/-- A misaligned read of BAR4, and the 18th entry of the log. -/
theorem test_bad_access : nextIs (exec (.badAccess .a false 0x40002 2 false) (setF up Reg.HOST_BADACC_COUNT 17)) (fun t => getF t Reg.HOST_BADACC_COUNT == 18 &&
    getF t (Reg.HOST_BADACC_ADDR_OFFSET 1) == 0x40002 && getF t (Reg.HOST_BADACC_ADDR_OFFSET 0) == 0) &&
  nextEq (exec (.badAccess .b true 0 2 true) up) (emit up (.bad .b true)) && shapeOk 0x40000 2 && lanesOk regAt 0x40000 2 &&
  nextEq (exec (.badAccess .a false 0x40000 2 false) up) up = true := by decide +kernel

theorem test_ring_enables : nextIs (exec (.lcRingEnable .b true) (setP up .b Reg.CTX_RING_CTL_PORT_LOST 1)) (fun t => getP t .b Reg.CTX_RING_CTL_LC_EN == 1 &&
    getP t .b Reg.CTX_RING_CTL_PORT_LOST == 0 && getP t .a Reg.CTX_RING_CTL_LC_EN == 0 && getP t .b (phaseFld false) == 1) &&
  nextIs (exec (.beRingEnable .a true) up) (fun t => getP t .a Reg.CTX_RING_CTL_BE_EN == 1 && nextIs (exec (.beRingEnable .a false) t) fun u => getP u .a Reg.CTX_RING_CTL_BE_EN == 0) = true := by
  decide +kernel
theorem test_cpl_ring : (let s := setP (setP up .a Reg.CTX_CPL_HEAD_INDEX 9) .a Reg.CTX_CPL_TAIL_INDEX 5
  tailOk s .a 7 && !tailOk s .a 10 && !tailOk s .a 4 && nextIs (exec (.cplTailWrite .a 7) s) (fun t => getP t .a Reg.CTX_CPL_TAIL_INDEX == 7) &&
  nextEq (exec (.cplTailWrite .a 10) s) s && nextIs (exec (.cplEnable .a true) s) fun t => getP t .a Reg.CTX_CPL_HEAD_INDEX == 0 && getP t .a Reg.CTX_RING_CTL_CPL_EN == 1) = true := by
  decide +kernel
theorem test_record_ring : (let s := setF (setF up Reg.PMC_SMP_HEAD 192) Reg.PMC_SMP_SIZE 1
  let u := { s with ringRecs := [(2, [64, 128])] }
  nextIs (exec (.ringEnable .a 2 true) s) (fun t => getF t Reg.PMC_SMP_HEAD == 0 && getB t Reg.PMC_SMP_RING_CTL_ENABLED) &&
  nextIs (exec (.ringTailWrite .a 2 192) u) (fun t => getF t Reg.PMC_SMP_TAIL == 192 && ringOffsets t sampleRing == []) &&
  nextIs (exec (.ringTailWrite .a 2 128) u) (fun t => getF t Reg.PMC_SMP_TAIL == 128 && ringOffsets t sampleRing == [128]) &&
  nextEq (exec (.ringTailWrite .a 2 100) u) u && nextEq (exec (.ringTailWrite .a 2 256) u) u) = true := by decide +kernel
theorem test_step_origin : nextIs (exec (.stepOriginWrite .a 3) (setF up Reg.CTX_STEP_ORIGIN_LO 4)) (fun t => getF t Reg.CTX_STEP_NEXT == 4 + 3 * 2 ^ 32) &&
  nextEq (exec (.stepOriginWrite .a 3) { up with ctxs := [(0, ctx0)] }) { up with ctxs := [(0, ctx0)] } = true := by decide +kernel
theorem test_tenant_select : nextIs (exec (.tenantSelect .b 15) { up with ctl.kvSnap := [(15, [7, 1, 0, 64, 5, 6])] }) (fun t => getP t .b Reg.ENG_KV_TSEL_SLOT == 15 &&
  getP t .b Reg.ENG_KV_TENANT_LEASE == 7 && getP t .b Reg.ENG_KV_USED == 5 && getP t .a Reg.ENG_KV_TSEL_SLOT == 0) = true := by decide +kernel
theorem test_lease_select : nextIs (exec (.leaseSelect .a 15) (leaseSt 15 { st := 2, lease := 7, ide := true, endStep := some 99 } up)) (fun t => getP t .a Reg.SEC_LSEL_SLOT == 15 &&
  getP t .a Reg.SEC_LEASE_INFO_LEASE == 7 && getP t .a Reg.SEC_LEASE_INFO_END_PENDING == 1 && getP t .a Reg.SEC_LEASE_END == 99) = true := by decide +kernel
/-! ### Loads and generations -/

/-- An entry module: port A is up, lease 7 is ACTIVE and bound to it, both cards ACTIVE, generation 55 ACTIVE in slot 0. -/
def servSt : State := leaseSt 2 { st := 2, lease := 7, quota := 64 } (setFs [(Reg.HOST_PORT_A_UP, 1), (Reg.SEC_PORT_BIND_PORT_A, 4), (Reg.MEM_GEN_STATE_ENTRY, 1),
  (cardState 0, 2), (cardState 1, 2), (slotFld 0, 3), (genIdFld 0, 55)] { up with img := some im0 })
/-- A generation load into slot 1: extent 100, PIN, layer 2. -/
def manif : HostMem := hm 0x1000 160 [(0, [1]), (5, [1]), (8, [56]), (12, [9]), (14, [7]), (16, [1]), (130, [0x10]), (136, [100]), (140, [1]), (146, [2]), (148, [255, 255])]
def load1 : Load := ⟨0, 1, .a, 56, 9, 7, 0, List.replicate 8 0, [⟨0x100000, 100, 1, 0, false, 2, 0xFFFF⟩]⟩
def goSt : State := setF servSt Reg.MEM_MANIFEST_LO 0x1000
theorem test_witness_manifest : decide (readManifest manif .a 0x1000 = some load1) && loadValid goSt .a load1 && decide (loadFit goSt load1 = none) && (slotState goSt 1 == 0) = true := by decide +kernel
theorem test_load_go : nextIs (exec (.loadGo .a .a manif) goSt) (fun t => getB t Reg.MEM_LOAD_STATUS_BUSY && getF t Reg.MEM_LOAD_STATUS_PHASE == 4 && slotState t 1 == 1 &&
  decide (t.wts.load = some ⟨load1, .a⟩) && (t.extents.map fun e => (e.1, e.2.onCard)) == [(100, false)] && nextEq (exec (.loadGo .a .a manif) t) t) = true := by decide +kernel
theorem test_load_refused : nextIs (exec (.loadGo .a .b manif) goSt) (fun t => getF t Reg.MEM_LOAD_STATUS_STATUS == 0x23 && !getB t Reg.MEM_LOAD_STATUS_BUSY) &&
  nextIs (exec (.loadGo .a .a manif) (setF goSt (cardState 1) 4)) (fun t => getF t Reg.MEM_LOAD_STATUS_STATUS == 0x10 && getF t Reg.MEM_LOAD_STATUS_RESOURCE == 1) &&
  !loadValid goSt .b load1 = true := by decide +kernel
def pullSt (phase : Nat) : State := { setFs [(Reg.MEM_LOAD_STATUS_BUSY, 1), (Reg.MEM_LOAD_STATUS_PHASE, phase), (slotFld 1, 1)] goSt with wts.load := some ⟨load1, .a⟩, extents := [(100, ⟨.flash, .pin, .gen 1, 2, 0xFFFF, none, 0, false, false, []⟩), (7, ext0)] }
theorem test_load_pulled : nextIs (exec (.loadPullDone .ok [(2 ^ 40 + 100 * 2 ^ 21, [5])] true) (pullSt 4)) (fun t => getF t Reg.MEM_LOAD_STATUS_PHASE == 6 &&
  getF t Reg.MEM_LOAD_STATUS_PROGRESS == 100 && rdByte t (2 ^ 40 + 100 * 2 ^ 21) == 5 && (t.extents.map fun e => (e.1, e.2.onCard)) == [(100, true), (7, false)]) = true := by decide +kernel
def gone (st : Nat) (t : State) : Bool := getF t Reg.MEM_LOAD_STATUS_STATUS == st && !getB t Reg.MEM_LOAD_STATUS_BUSY && t.wts.load.isNone && slotState t 1 == 0 &&
  (t.extents.map fun e => e.1) == [7] && slotState t 0 == 3
theorem test_load_pull_fails : nextIs (exec (.loadPullDone .unreadable [] true) (pullSt 4)) (gone 0x31) && nextIs (exec (.loadPullDone .refused [] true) (pullSt 4)) (gone 0x23) &&
  nextIs (exec (.loadPullDone .ok [] false) (pullSt 4)) (gone 0x31) = true := by decide +kernel
theorem test_load_primed : nextIs (exec (.loadPrimeDone .ok) (pullSt 6)) (fun t => slotState t 1 == 2 && getF t (genIdFld 1) == 56 && getF t Reg.MEM_LOAD_STATUS_STATUS == 0 &&
  t.wts.load.isNone) && nextIs (exec (.loadPrimeDone .unreadable) (pullSt 6)) (gone 0x31) && nextIs (exec (.loadPrimeDone .refused) (pullSt 6)) (gone 0x23) = true := by decide +kernel
theorem test_load_aborted : nextIs (exec (.loadAbort .a) (pullSt 4)) (gone 0x23) && nextEq (exec (.loadAbort .a) goSt) goSt && nextEq (exec (.loadPullDone .ok [] true) goSt) goSt &&
  nextEq (exec (.loadPrimeDone .ok) goSt) goSt = true := by decide +kernel
def genSt : State := setFs [(slotFld 1, 2), (genIdFld 1, 56), (Reg.MEM_GEN_CMD_ID, 56)] servSt
theorem test_switch_taken : switchStatus genSt 1 56 == 0 && nextIs (exec (.switch .a 1) genSt) (fun t => decide (t.wts.switchTo = some 1) && getB t Reg.MEM_GEN_STATE_CMD_PENDING &&
  nextEq (exec (.discard .a 1) t) t) && nextIs (exec (.switch .a 0) genSt) (fun t => getF t Reg.MEM_GEN_STATE_CMD_STATUS == 0x40) &&
  nextIs (exec (.switch .a 1) (setF genSt Reg.MEM_GEN_STATE_ENTRY 0)) (fun t => getF t Reg.MEM_GEN_STATE_CMD_STATUS == 0x23) = true := by decide +kernel
theorem test_discard_slot : nextIs (exec (.discard .a 1) genSt) (fun t => slotState t 1 == 0 && getF t (genIdFld 1) == 0 && getF t Reg.MEM_GEN_STATE_CMD_STATUS == 0) &&
  nextIs (exec (.discard .a 0) genSt) (fun t => slotState t 0 == 3 && getF t Reg.MEM_GEN_STATE_CMD_STATUS == 0x10) &&
  nextIs (exec (.discard .a 0) (setF genSt Reg.MEM_GEN_STATE_ENTRY 0)) (fun t => getF t Reg.MEM_GEN_STATE_CMD_STATUS == 0x23) = true := by decide +kernel
def smallSt : State := { servSt with wts.smalls := [(4, ⟨load1, false⟩)] }
theorem test_release_small : nextIs (exec (.release .a 4) smallSt) (fun t => t.wts.smalls.isEmpty && getF t Reg.MEM_GEN_STATE_CMD_STATUS == 0) &&
  nextIs (exec (.release .a 5) smallSt) (fun t => getF t Reg.MEM_GEN_STATE_CMD_STATUS == 0x10) &&
  nextIs (exec (.release .a 4) { smallSt with ctxs := [(0, { ctx0 with desc.model := 4 })] }) (fun t => t.wts.smalls.map (fun m => m.2.retiring) == [true]) = true := by decide +kernel

/-! ### Portions, steps and boundaries -/

theorem test_portion_final : nextIs (exec (.portionEnd 10) runSt) (fun t => t.portion.isNone && t.finals.isEmpty && t.out.contains (.next hdr0) && getF t Reg.MEM_UNRECOVERED == 0) &&
  nextEq (exec (.portionEnd 10) up) up && nextEq (exec (.portionRerunDone 10) runSt) runSt = true := by decide +kernel
def lastSt : State := { runSt with img := some { im0 with serving.lastLayer := 7 } }
theorem test_portion_rerun : nextIs (exec (.portionEnd 10) { runSt with portion := some { por0 with poison := [.core 3 2] } }) (fun t =>
    decide (t.portion = some { por0 with rerun := true }) && getF t Reg.MEM_REPLAY == 1) &&
  nextIs (exec (.portionRerunDone 10) { lastSt with portion := some { por0 with rerun := true, poison := [.core 3 2] } }) (fun t =>
    isLast lastSt && t.portion.isNone && getF t Reg.MEM_UNRECOVERED == 1 && t.out.contains (.ret ⟨5, 0x31, 0, false, []⟩)) &&
  nextIs (exec (.portionRerunDone 10) { lastSt with portion := some { por0 with rerun := true } }) (fun t => t.out.contains (.ret ⟨5, 0x30, 0, false, []⟩)) = true := by decide +kernel
theorem test_portion_dead : nextIs (exec (.portionEnd 10) { runSt with portion := some { por0 with fabStatus := 0x20 } }) (fun t => t.portion.isNone && t.ctl.dead == [5]) = true := by decide +kernel
def midSt : State := setF servSt Reg.MEM_GEN_STATE_ENTRY 0
def stepHdr : StepHeader := { hdr0 with step := 9, genId := 55 }
theorem test_step_received : genHeld midSt stepHdr && !lateStep midSt 9 && nextIs (exec (.stepReceive stepHdr 3) midSt) (fun t => decide (t.inbox = [stepHdr]) && t.lastStep == 9 && slotState t 0 == 3) &&
  nextIs (exec (.stepReceive { stepHdr with genId := 54, gen := 1 } 3) midSt) (fun t => t.inbox.isEmpty && t.ctl.dead == [9] && getF t Reg.MEM_GEN_STATE_POINTER == 1) && nextEq (exec (.stepReceive stepHdr 3) servSt) servSt = true := by decide +kernel
def flSt (k : ReqKind) (c : Ctx) : State := { servSt with ctxs := [(0, c), (1, ctx0)], ctl.flights := [⟨{ hdr0 with reqs := [rq k] }, [⟨0, 7, 0, 0, 0⟩], false, false, some 4, false⟩] }
def retM (reason : Nat) : ReturnMsg := ⟨5, 0, 0, true, [⟨0, [77], 0, reason, false⟩]⟩
theorem test_return_message : leaseActive (flSt .cont ctx0) 7 && nextIs (exec (.returnMessage (retM 0) 9) (flSt .cont ctx0)) (fun t =>
    ((alGet t.ctxs 0).map fun d => (d.st == .ready, d.emitted, d.tail, d.varyAny)) == some (true, 1, 5, true) && t.ctl.flights.isEmpty && t.ctl.journalDue.length == 1) &&
  nextIs (exec (.returnMessage (retM 2) 9) (flSt .autoDecode ctx0)) (fun t => ((alGet t.ctxs 0).map fun d => (d.st == .ending, d.endReason)) == some (true, 2)) &&
  nextEq (exec (.returnMessage { retM 0 with step := 6 } 9) (flSt .cont ctx0)) (flSt .cont ctx0) = true := by decide +kernel
theorem test_return_release : (let s := setP (flSt .release { ctx0 with releaseStep := some 5 }) .a Reg.CTX_RING_CTL_CPL_EN 1
  cplOpen s .a && nextIs (exec (.returnMessage { retM 0 with reqs := [] } 9) s) fun t => (alGet t.ctxs 0).isNone && (alGet t.ctxs 1).isSome && cplHead t .a == 1) = true := by decide +kernel
theorem test_return_limit : nextIs (exec (.returnLimitExpire 5 (4 + 100000000)) (flSt .cont ctx0)) (fun t => t.ctl.flights.isEmpty && t.ctl.dead.contains 5) &&
  nextEq (exec (.returnLimitExpire 5 (3 + 100000000)) (flSt .cont ctx0)) (flSt .cont ctx0) = true := by decide +kernel
theorem test_orphan_limit : (let s := { servSt with ctxs := [(0, { ctx0 with st := .orphaned, orphanAt := some 5 })] }
  nextIs (exec (.orphanLimitExpire 0 (5 + 60000000000)) s) (fun t => ((alGet t.ctxs 0).map fun d => (d.st == .ending, d.endReason)) == some (true, 5)) &&
  nextEq (exec (.orphanLimitExpire 0 (4 + 60000000000)) s) s && nextEq (exec (.orphanLimitExpire 0 9) { s with ctxs := [(0, ctx0)] }) { s with ctxs := [(0, ctx0)] }) = true := by decide +kernel
def pollSt : State := setP (setP (setP (setP servSt .a Reg.CTX_RING_CTL_LC_EN 1) .a Reg.CTX_RING_CTL_BE_EN 1) .a (phaseFld false) 1) .a (phaseFld true) 0
def ringMem : HostMem := hm 0 64 [(0, [1])]
theorem test_ring_poll : (headOf ringMem pollSt .a false).isSome && (headOf ringMem (setP pollSt .a (phaseFld true) 1) .a true).isSome &&
  nextIs (exec (.ringPoll ringMem 8) pollSt) (fun t => (headSt t .a false).seen == some 8 && (headSt t .b false).seen == none && t.out.contains (.poll .a true false)) = true := by decide +kernel
theorem test_lc_poll : (let s := { pollSt with portion := some por0 }
  nextIs (exec (.lcPoll ringMem 8) s) (fun t => t.ctl.lcReady) && nextIs (exec (.lcPoll noHost 8) s) (fun t => !t.ctl.lcReady) && nextEq (exec (.ringPoll ringMem 8) s) s &&
  nextEq (exec (.lcPoll ringMem 8) pollSt) pollSt) = true := by decide +kernel
theorem test_adopt_go : nextIs (exec (.adoptGo .a (hm 0 64 [(0, [3, 0, 7])]) (some 1)) servSt) (fun t => getP t .a Reg.CTX_ADOPT_CMD_BUSY == 1 &&
    decide (t.ctl.adopts = [⟨.a, 3, 7, 0, 0, some 1⟩]) && nextEq (exec (.adoptGo .a noHost none) t) t) &&
  nextIs (exec (.adoptGo .a noHost (some 1)) servSt) (fun t => getP t .a Reg.CTX_ADOPT_CMD_STATUS == 0x23) = true := by decide +kernel
def bndSt : State := { servSt with inbox := [stepHdr], ctl.applied := [9] }
theorem test_boundary_starts : groupsServe bndSt false && nextIs (exec (.stepBoundary 50 noHost [] []) bndSt) (fun t => decide (t.portion = some { hdr := stepHdr, start := 50 }) &&
  t.inbox.isEmpty && t.ctl.applied.isEmpty) && nextEq (exec (.stepBoundary 50 noHost [] []) runSt) runSt = true := by decide +kernel
theorem test_boundary_idle : (let s := setF (setF up (Reg.PMC_LAYER_LAYER 15) 3) (Reg.PMC_LAYER_EN 15) 1
  nextIs (exec (.stepBoundary 50 noHost [] []) s) fun t => t.boundaries == 1 && smGet (0, false) t.layerSlots 15 == (3, true) && t.portion.isNone) = true := by decide +kernel
theorem test_boundary_waits : (let s := { bndSt with suspended := some por0, ctl.lcRan := true }
  nextIs (exec (.stepBoundary 50 noHost [] [(true, [0])]) s) fun t => t.portion.isNone && decide (t.inbox = [stepHdr])) = true := by decide +kernel
theorem test_step_rows : (let f := fillStep noHost false { servSt with ctxs := [(0, { ctx0 with st := .ready, desc.auto := true })] }
  f.rows ≤ 8 ∧ f.lc ≤ 4) := by decide +kernel

/-! ### Replay, capture and archives -/

def prefA : Pref := ⟨7, 9, 0, [3], 1, 0, none, [], 0, 0, 1, 0, none, true, true, false, false, true⟩
theorem test_replay_enter : nextIs (exec (.enter .a true) { servSt with prefs := [(1, prefA)] }) (fun t => (t.ctl.replay.map fun x => x.fresh) == some true &&
    getF t Reg.CTX_REPLAY_CMD_MODE == 1 && (t.prefs.map fun q => q.2.hidden) == [true] && nextIs (exec (.leave .a) t) fun u => u.ctl.replay.isNone && getF u Reg.CTX_REPLAY_CMD_MODE == 0) &&
  nextIs (exec (.enter .a false) { servSt with ctxs := [(0, ctx0)] }) (fun t => getF t Reg.CTX_REPLAY_CMD_STATUS == 0x23 && t.ctl.replay.isNone) &&
  nextIs (exec (.leave .a) servSt) (fun t => getF t Reg.CTX_REPLAY_CMD_STATUS == 0x23) = true := by decide +kernel
theorem test_replay_submit : (let s := { servSt with ctl.replay := some ⟨false, none⟩ }
  nextIs (exec (.submit .a (hm 0 128 [(14, [1])])) s) (fun t => getB t Reg.CTX_REPLAY_CMD_BUSY && (t.ctl.submit.map fun x => x.2.length) == some 128 && nextEq (exec (.submit .a noHost) t) t) &&
  nextIs (exec (.submit .a noHost) s) (fun t => getF t Reg.CTX_REPLAY_CMD_STATUS == 0x23) && nextIs (exec (.submit .a noHost) servSt) (fun t => getF t Reg.CTX_REPLAY_CMD_STATUS == 0x23)) = true := by
  decide +kernel
theorem test_capture_arm : nextIs (exec (.arm .a 7) servSt) (fun t => getB t Reg.CTX_CAPTURE_CTL_ARMED && getF t Reg.CTX_CAPTURE_CTL_LEASE == 7) &&
  nextIs (exec (.arm .b 7) servSt) (fun t => !getB t Reg.CTX_CAPTURE_CTL_ARMED && getF t Reg.CTX_CAPTURE_CTL_STATUS == 0x23) = true := by decide +kernel
def archSt : State := { servSt with img := some { im0 with serving.prefixMode := 0, vmap.pageBytes := 256 }, prefs := [(1, prefA)], extents := [(1000, { ext0 with owner := .archive 1 })] }
theorem test_prefix_archived : nextIs (exec (.prefixArchiveDone 1) archSt) (fun t => ((alGet t.prefs 1).map fun p => (p.archiving, p.archived)) == some (false, some 1000)) &&
  nextEq (exec (.prefixArchiveDone 2) archSt) archSt = true := by decide +kernel
theorem test_prefix_restored : nextIs (exec (.prefixRestoreDone 1 true) archSt) (fun t => ((alGet t.prefs 1).map fun p => p.restoring) == some false) &&
  nextIs (exec (.prefixRestoreDone 1 false) { archSt with portion := some por0 }) (fun t => (alGet t.prefs 1).isNone &&
    (t.portion.map fun p => p.failedRegion) == some true) && nextEq (exec (.prefixRestoreDone 2 true) archSt) archSt = true := by decide +kernel
/-! ### The fabric -/

/-- Module 3 of rack 0, a member with module 5 at epoch 2, port 0 on plane 0; a window for job 4 at OFFSET 0x1000, and group 6 of both. -/
def fabIm : ImageDesc := { im0 with windows := [⟨4, 7, true, true, true, true, true, true, true, 3, 0x1000, 0x100, 0x12000⟩], mcast := [⟨6, [3, 5]⟩], plan := [⟨5, false, 0⟩] }
def fabSt : State := { setFs [(Reg.FAB_STATE_STATE, 2), (Reg.FAB_EPOCH, 2), (Reg.ID_MODULE_MODULE_ID, 3), (Reg.ID_MODULE_MODULE_ID_VALID, 1), (Reg.FAB_PORT_LINK 0, 2),
  (Reg.FAB_MEMBERS 0, 0x28)] (puts [(0x12000, [9, 1]), (sramAddr 3 0x80, [1, 2, 3, 4, 5, 6, 7, 8, 0xA])] runSt) with img := some fabIm, fab.seen := [0], fab.planes := [(0, [(5, 8)])] }
def pk (k : Nat) : Pkt := { kind := k, source := 5, target := 3, job := 4, epoch := 2, offset := 0x1000 }
def bytesOf (p : Pkt) : List Nat := withCrc (pktBody p)
/-- The packet that the module sent last. -/
def sent (t : State) : Option Pkt := match t.out with | .packet 0 5 _ bs :: _ => some (parsePkt bs) | _ => none
def answers (c : Instr) (st aux : Nat) (payload : List Nat) (g : State → Bool) : Bool := nextIs (exec c fabSt) fun t => g t &&
  ((sent t).map fun r => (r.kind, r.status, r.aux, r.payload, r.seq)) == some (0x10, st, aux, payload, 0) && smGet 0 t.fab.rx (rxKey (pk 1)) == 1
theorem test_witness_arrives : (arrive 0 1 (bytesOf { pk 1 with aux := 4 }) 7 fabSt).1.isSome && (flowCheck (pk 1) fabSt).1 == .fresh && (windowAddr { pk 1 with aux := 4 } fabSt == some 0x12000) = true := by
  decide +kernel
theorem test_fab_load : answers (.load 0 (bytesOf { pk 1 with aux := 4 }) [] true 7) 0 0 [9, 1, 0, 0] (fun _ => true) = true := by decide +kernel
theorem test_fab_store : answers (.store 0 (bytesOf { pk 2 with payload := [4, 3, 2, 1] }) [] 7) 0 0 [] (fun t => rdBytes t 0x12000 4 == [4, 3, 2, 1]) = true := by decide +kernel
theorem test_fab_fadd : answers (.fadd 0 (bytesOf { pk 3 with aux := 2 ^ 32 - 1 }) [] 7) 0 0x109 [] (fun t => rdLe t 0x12000 4 == 0x108 && t.fab.cache.length == 1) = true := by decide +kernel
theorem test_fab_cas : answers (.cas 0 (bytesOf { pk 4 with aux := 0x109, payload := [6, 0, 0, 0] }) [] 7) 0 0x109 [] (fun t => rdLe t 0x12000 4 == 6) = true := by decide +kernel
theorem test_fab_min : answers (.min 0 (bytesOf { pk 5 with aux := 2 ^ 32 - 2 }) [] 7) 0 0x109 [] (fun t => rdLe t 0x12000 4 == 2 ^ 32 - 2) = true := by decide +kernel
theorem test_fab_max : answers (.max 0 (bytesOf { pk 6 with aux := 2 ^ 32 - 2 }) [] 7) 0 0x109 [] (fun t => rdLe t 0x12000 4 == 0x109) = true := by decide +kernel
/-- The value 3 at scale 1 is added to the record's 0x109. -/
theorem test_fab_reduce : answers (.reduce 0 (bytesOf { pk 7 with payload := [3, 0, 0, 0, 0, 0, 0, 0], scale := 1 }) [] 7) 0 0 [] (fun t => rdLe t 0x12000 4 == 0x10F) = true := by decide +kernel
theorem test_fab_bulkWrite : nextIs (exec (.bulkWrite 0 (bytesOf { pk 9 with vc := 3, payload := List.replicate 64 5 }) [] 7) fabSt) (fun t => rdBytes t 0x1203E 3 == [5, 5, 0] &&
  ((sent t).map fun r => (r.kind, r.status)) == some (0x10, 0)) = true := by decide +kernel
theorem test_fab_bulkRead : nextIs (exec (.bulkRead 0 (bytesOf { pk 10 with vc := 3, aux := 64 }) [] true 7) fabSt) (fun t =>
  ((sent t).map fun r => (r.kind, r.vc, r.status, r.payload)) == some (0x10, 3, 0, [9, 1] ++ List.replicate 62 0)) = true := by decide +kernel
theorem test_fab_mstore : nextIs (exec (.mstore 0 (bytesOf { pk 8 with mcast := true, target := 6, payload := [4, 3, 2, 1] }) [] 7) fabSt) (fun t => rdBytes t 0x12000 4 == [4, 3, 2, 1]) = true := by decide +kernel
/-- Beyond the window: denied, and nothing stored. -/
theorem test_fab_denied : answers (.store 0 (bytesOf { pk 2 with offset := 0x1100, payload := [4, 3, 2, 1] }) [] 7) 0x23 0 [] (fun t => decide (t.mem = fabSt.mem) && getF t Reg.FAB_DENIED == 1 &&
  getF t Reg.FAB_LAST_FAULT_CAUSE == 2 && getF t Reg.FAB_LAST_FAULT_TARGET == 5) = true := by decide +kernel
/-- A duplicate atomic from the cache, a duplicate store, and a packet before its turn. -/
theorem test_fab_duplicate : nextIs (exec (.fadd 0 (bytesOf { pk 3 with aux := 1 }) [] 7) fabSt) (fun t => nextIs (exec (.fadd 0 (bytesOf { pk 3 with aux := 1 }) [] 8) t) fun u =>
    rdLe u 0x12000 4 == 0x10A && getF u Reg.FAB_CACHE_HIT == 1 && ((sent u).map fun r => r.aux) == some 0x109 &&
    nextIs (exec (.fadd 0 (bytesOf { pk 3 with aux := 1 }) [] 9) { u with fab.cache := [] }) fun v => ((sent v).map fun r => r.status) == some 0x22 && getF v Reg.FAB_ATOMIC_STALE == 1) &&
  nextIs (exec (.store 0 (bytesOf { pk 2 with seq := 1, payload := [4, 3, 2, 1] }) [] 7) fabSt) (fun t => decide (t.mem = fabSt.mem) && t.out.isEmpty) = true := by decide +kernel
theorem test_fab_crc : nextIs (exec (.store 0 ((bytesOf { pk 2 with payload := [4, 3, 2, 1] }).set 33 9) [] 7) fabSt) (fun t => getF t Reg.FAB_E2E_CRC == 1 && decide (t.mem = fabSt.mem)) = true := by decide +kernel

def issues (c : Instr) (kind : FabKind) (g : Pkt → Bool) : Bool := mayB fabSt ip (some .mem) && c.wf && nextIs (exec c fabSt) fun t => match t.fab.ops with
  | [o] => o.kind == kind && o.core == 3 && o.index == 7 && g (parsePkt (o.packet ++ [0, 0, 0, 0])) && (coreGet t 3).outst.length + b2n o.done == 1
  | _ => false
theorem test_issue_rload : issues (.rload ip 5 4 0 0x1000 2) .load (fun p => p.aux == sizeOf8 0 && p.payload == [] && p.offset == 0x1000 && p.target == 5) = true := by decide +kernel
theorem test_issue_rstore : issues (.rstore ip 5 4 0 0x1000 2) .store (fun p => p.payload == [1, 2, 3, 4]) = true := by decide +kernel
theorem test_issue_rfadd : issues (.rfadd ip 5 4 0 0x1000 2) .fadd (fun p => p.aux == 0x04030201 && !p.wide) = true := by decide +kernel
theorem test_issue_rcas : issues (.rcas ip 5 4 0 0x1000 2) .cas (fun p => p.aux == 0x04030201 && p.payload == [0xA, 0, 0, 0]) = true := by decide +kernel
theorem test_issue_rmin : issues (.rmin ip 5 4 1 0x1000 2) .min (fun p => p.aux == 0x0807060504030201 && p.wide) = true := by decide +kernel
theorem test_issue_rmax : issues (.rmax ip 5 4 1 0x1000 2) .max (fun p => p.wide) = true := by decide +kernel
theorem test_issue_rreduce : issues (.rreduce ip 5 4 1 false 128 0x1000 2) .reduce (fun p => p.scale == 128 && p.payload == [1, 2, 3, 4, 5, 6, 7, 8]) = true := by decide +kernel
theorem test_issue_rmstore : issues (.rmstore ip 6 4 0 0x1000 2) .mstore (fun p => p.mcast && p.target == 6) = true := by decide +kernel
theorem test_issue_rretry : issues (.rretry ip 5 4 0 0x1000 2) .fadd (fun p => p.aux == 0) = true := by decide +kernel
theorem test_issue_refused : nextIs (exec (.rload ip 0 4 0 0x1000 2) { fabSt with fab.remap := List.replicate 128 255 }) (fun t => t.fab.ops.isEmpty && getF t Reg.FAB_DENIED == 1 &&
  getF t Reg.FAB_LAST_FAULT_STATUS == 0x23) = true := by decide +kernel
theorem test_issue_rfence : ranOk fabSt ip (some .mem) (.rfence ip) && nextIs (exec (.rfadd ip 5 4 0 0x1000 2) fabSt) (fun t => nextIs (exec (.rfence ip) t) fun u =>
  decide (u.fab.fences = [⟨3, 7, [t.fab.next - 1]⟩])) = true := by decide +kernel

/-- A store that has been sent and whose instruction has completed. -/
def opPkt : Pkt := { kind := 2, source := 3, target := 5, job := 4, offset := 0x1000, payload := [1, 2, 3, 4] }
def op1 : FabOp := { num := 1, core := 3, index := 7, sash := none, kind := .store, target := 5, mcast := false, vc := 1, seq := 9, epoch := 2, packet := pktBody opPkt, dst := 0, size := 4, wide := false, first := 0, last := 0, sent := true, waiting := false, retry := false, members := [], done := true }
def opSt : State := { fabSt with fab.ops := [op1] }
theorem test_fab_reply : nextIs (exec (.reply 0 (bytesOf { pk 0x10 with vc := 2, seq := 9 }) 7) opSt) (fun t => t.fab.ops.isEmpty) &&
  nextIs (exec (.reply 0 (bytesOf { pk 0x10 with vc := 2, seq := 8 }) 7) opSt) (fun t => decide (t.fab.ops = [op1]) && getF t Reg.FAB_DUP == 1) = true := by decide +kernel
theorem test_fab_sync : nextIs (exec (.sync 0 (bytesOf { pk 0x20 with seq := 6 }) 7) fabSt) (fun t => smGet 0 t.fab.rx (rxKey (pk 1)) == 6 &&
  nextIs (exec (.sync 0 (bytesOf { pk 0x20 with seq := 4 }) 7) t) fun u => smGet 0 u.fab.rx (rxKey (pk 1)) == 6) = true := by decide +kernel
theorem test_fab_stepAbort : nextIs (exec (.stepAbort 0 (bytesOf { pk 0x21 with vc := 0, aux := 5 }) 7) fabSt) (fun t => t.ctl.dead == [5] && t.portion.isNone && getF t Reg.FAB_LAST_FAULT_CAUSE == 7 &&
  ((sent t).map fun r => r.aux) == some 5) = true := by decide +kernel
def pfSt : State := leaseSt 2 { st := 2, lease := 7 } { setFs [(Reg.MEM_GEN_STATE_ENTRY, 1), (Reg.HOST_PORT_A_UP, 1)] fabSt with ctxs := [(0, { ctx0 with entryDue := true })], ctl.flights := [⟨{ hdr0 with reqs := [rq .cont] }, [⟨0, 7, 0, 0, 0⟩], false, false, some 4, false⟩] }
theorem test_fab_portionFailed : nextIs (exec (.portionFailed 0 (bytesOf { pk 0x22 with vc := 0, aux := 5, status := 0x31 }) 7) pfSt) (fun t => t.ctl.flights.isEmpty &&
  (t.ctl.due.map fun d => (d.ctx, d.status)) == [(0, 0x31)] && (t.ctxs.map fun c => c.2.st == .ready) == [true]) = true := by decide +kernel
theorem test_fab_stale : nextIs (exec (.staleNotice 0 (bytesOf (pk 0x23)) 7) fabSt) (fun t => getF t Reg.FAB_STATE_STATE == 4 && getF t Reg.ID_MODULE_MODULE_ID_VALID == 0 &&
  getB t Reg.HOST_ALERT_FABRIC && t.portion.isNone) = true := by decide +kernel

theorem test_lane_train : (let s := setBit up Reg.ID_RESOURCES_FAB_PORTS 7 true
  nextIs (exec (.laneTrain 7 true 0x1E true 5) s) (fun t => getF t (Reg.FAB_PORT_LINK 7) == 2 && getB t (Reg.FAB_PORT_SPARE_USED 7) && getB t (Reg.FAB_PORT_REVERSED 7) &&
    nextIs (exec (.laneFail 7 1 6) t) fun u => getF u (Reg.FAB_PORT_LINK 7) == 5) &&
  nextIs (exec (.laneTrain 7 false 0x1F true 5) s) (fun t => nextIs (exec (.laneFail 7 1 6) t) (fun u => getF u (Reg.FAB_PORT_LINK 7) == 2 && getF u (Reg.FAB_PORT_SPARE_USED 7) == 1) &&
    nextIs (exec (.laneRecal 7) t) (fun u => getF u Reg.FAB_LANE_RECAL == 1) && nextIs (exec (.linkKeyRenew 7 9) t) (fun u => alGet u.fab.linkKeys 7 == some 9) &&
    nextEq (exec (.frameAuthFail 7) t) t)) = true := by decide +kernel
theorem test_lane_train_fails : (let s := { setBit up Reg.ID_RESOURCES_FAB_PORTS 7 false with ready := false }
  nextIs (exec (.laneTrain 7 false 7 true 5) s) fun t => getF t (Reg.FAB_PORT_LINK 7) == 5 && getF t Reg.FAB_LAST_FAULT_CAUSE == 5 && nextEq (exec (.fabricPortStateChange 7 2 0) t) t) = true := by
  decide +kernel
theorem test_port_down : (let s := { setBit (setF up (Reg.FAB_PORT_LINK 7) 2) Reg.ID_RESOURCES_FAB_PORTS 7 false with ready := false, fab.seen := [7] }
  nextIs (exec (.fabricPortStateChange 7 1 5) s) fun t => getF t (Reg.FAB_PORT_LINK 7) == 1 && t.fab.seen == [] && getF t Reg.FAB_LAST_FAULT_CAUSE == 4) = true := by decide +kernel
theorem test_discovered : nextIs (exec (.discover 7 1 6 63 5) (setF up (Reg.FAB_PORT_LINK 7) 2)) (fun t => getF t (Reg.FAB_PORT_PLANE_SEEN 7) == 6 && getB t (Reg.FAB_PORT_SWAPPED 7) &&
  getF t (Reg.FAB_PORT_POSITION 7) == 127 && t.fab.seen == [7]) && nextIs (exec (.planeAnnouncement 6 [(5, 2, 1)] 5) up) (fun t => alGet t.fab.planes 6 == some [(5, 17)]) = true := by decide +kernel

/-- LOAD_BOUND 40 us: a quarter of it, and all of it. -/
theorem test_fab_timers : nextEq (exec (.retryIntervalExpire 9999) opSt) (atTime 9999 opSt) && nextIs (exec (.retryIntervalExpire 10000) opSt) (fun t => getF t Reg.FAB_RETRY == 1) &&
  nextEq (exec (.loadBoundExpire 39999) opSt) (atTime 39999 opSt) &&
  nextIs (exec (.loadBoundExpire 40000) opSt) (fun t => isDead t 5 && !isDead t 3 && t.fab.ops.isEmpty && getF t Reg.FAB_BOUND == 1 && getF t Reg.FAB_LAST_FAULT_TARGET == 5) = true := by decide +kernel
theorem test_fab_cache_expires : (let s := { fabSt with fab.cache := [⟨5, 1, false, 0, 10, []⟩, ⟨5, 1, false, 1, 9, []⟩] }
  nextIs (exec (.replyCacheExpire 2000009) s) fun t => decide (t.fab.cache = [⟨5, 1, false, 0, 10, []⟩])) = true := by decide +kernel
theorem test_fab_throttle : (let o := { op1 with kind := .fadd, sent := false, waiting := true, done := false }
  let s := { fabSt with fab.ops := [o], fab.atomTimes := [(5, List.replicate 512 0)] }
  nextEq (exec (.atomicThrottleRelease 2999999) s) (atTime 2999999 s) && nextIs (exec (.atomicThrottleRelease 3000000) s) (fun t => t.fab.ops.map (fun x => (x.sent, x.waiting)) == [(true, false)])) = true := by
  decide +kernel
/-- A record of epoch 3 with modules 3 and 5 and no logical module. -/
def memHost : HostMem := hm 0 256 [(0, [3]), (4, [0x28]), (20, List.replicate 128 255)]
def memSt3 : State := { fabSt with sec.ks.app := [1] }
theorem test_member_apply : nextIs (exec (.memberApply .a memHost true) memSt3) (fun t => getB t Reg.FAB_MEMBER_CMD_BUSY && (t.fab.pend.map fun x => x.2.map fun m => m.epoch) == some (some 3)) = true := by
  decide +kernel
theorem test_member_refused : nextIs (exec (.memberApply .a noHost true) memSt3) (fun t => getF t Reg.FAB_MEMBER_CMD_STATUS == 0x23 && t.fab.pend.isNone) &&
  nextEq (exec (.memberApply .a noHost true) (setF memSt3 Reg.FAB_MEMBER_CMD_BUSY 1)) (setF memSt3 Reg.FAB_MEMBER_CMD_BUSY 1) &&
  !memberOk memSt3 ⟨2, 0x28, []⟩ && memberOk memSt3 ⟨3, 0x28, [3, 5, 255]⟩ && !memberOk memSt3 ⟨3, 0x28, [3, 6]⟩ = true := by decide +kernel

/-! ### The mesh -/

def linkAt (n : Nat) (ts : List Nat) : State := { up with mesh.links := [(10 * 8 + (linkPorts 10).headD 0, { refused := n, times := ts })] }
def lp : Fin 6 := ⟨(linkPorts 10).headD 0 % 6, Nat.mod_lt _ (by decide)⟩
theorem test_flit_refused : (linkFar 10 lp).isSome && nextIs (exec (.flitCrcFail 10 lp true) (linkAt 14 [])) (fun t => t.out == [.replay 10 lp] && (linkSt t 10 lp).refused == 15) &&
  nextIs (exec (.flitCrcFail 10 lp true) (linkAt 15 [])) (fun t => (linkSt t 10 lp).failed && getF t Reg.NOC_LINK_FAIL == 1 && getF t Reg.NOC_LAST_FAULT_ROUTER == 10 &&
    nextEq (exec (.flitCrcFail 10 lp true) t) t) = true := by decide +kernel
theorem test_flit_replayed : nextIs (exec (.flitReplayRequest 10 lp 5) (linkAt 0 [])) (fun t => (linkSt t 10 lp).times == [5] && getF t Reg.NOC_LINK_REPLAY == 1) &&
  nextIs (exec (.flitReplayRequest 10 lp 5) (linkAt 0 (List.replicate 1000 1))) (fun t => (linkSt t 10 lp).failed && getF t Reg.NOC_LAST_FAULT_CAUSE == 1) = true := by decide +kernel
theorem test_mesh_timeout : nextIs (exec (.meshTimeout 3 (some 0x40)) runSt) (fun t => marked t (sramAddr 3 0x40 / 64) && getF t Reg.NOC_TIMEOUTS == 1 &&
  decide ((t.portion.map fun p => p.poison) = some [.mesh 3]) && getF t Reg.NOC_LAST_FAULT_CAUSE == 3) = true := by decide +kernel
theorem test_route_change : nextIs (exec (.routeChangeStart [10]) up) (fun t => t.mesh.route == [(10, 4)] && t.out.contains (.marker 10) && nextIs (exec (.routeChangeMarker 10) t) fun u =>
    u.mesh.route == [(10, 3)] && nextEq (exec (.routeChangeAck 10) u) u) &&
  nextIs (exec (.routeChangeAck 10) { up with mesh.route := [(10, 0)], mesh.routeTo := ([4], []) }) (fun t => t.mesh.route.isEmpty && t.mesh.detoured == ([4], []) && getF t Reg.NOC_DETOUR_SEQ == 1) &&
  nextIs (exec (.routeChangeAck 10) { up with mesh.route := [(10, 0), (11, 2)] }) (fun t => t.mesh.route == [(11, 2)] && getF t Reg.NOC_DETOUR_SEQ == 0) = true := by decide +kernel
/-! ### Clocks -/

/-- OP 100: the 4 domains numbered from 28 on go at code 4, the others at code 3; every code is 0, and both references are OK. -/
def clkSt : State := setFs [(Reg.PWR_OP_OP, 100), (Reg.CLK_NCLK_TARGET_W, 2), (Reg.CLK_NCLK_CUR_W, 1), (Reg.CLK_REF_STATUS_REF_A_OK, 1), (Reg.CLK_REF_STATUS_REF_B_OK, 1)]
  (setFs ((List.range 32).map fun d => (Reg.CLK_ACLK_CUR_CODE d, 0)) up)
theorem test_divider_step : (let s := { setF clkSt (Reg.CLK_ACLK_CUR_CODE 27) 3 with clk.stepAt := [(31, 100)] }
  let dwell := 100 * getF s Reg.CLK_RAMP_DWELL
  nextIs (exec (.dividerStep (99 + dwell)) s) fun t => getF t (Reg.CLK_ACLK_CUR_CODE 0) == 1 && getF t (Reg.CLK_ACLK_CUR_CODE 31) == 0 && getF t (Reg.CLK_ACLK_CUR_CODE 27) == 3 &&
    getF t Reg.CLK_NCLK_CUR_W == 2 && nextIs (exec (.dividerStep (100 + dwell)) s) fun u => getF u (Reg.CLK_ACLK_CUR_CODE 31) == 1) = true := by decide +kernel
theorem test_divider_stopped : nextEq (exec (.dividerStep 9) State.reset) State.reset = true := by decide +kernel
theorem test_clock_targets : nextIs (exec (.nclkTargetWrite .a 0x43) clkSt) (fun t => getF t Reg.CLK_NCLK_TARGET_W == 3 && getF t Reg.CLK_NCLK_TARGET_E == 4) &&
  nextIs (exec (.cclkTargetWrite .a 0x43) clkSt) (fun t => getF t Reg.CLK_CCLK_TARGET_W == 3 && getF t Reg.CLK_CCLK_TARGET_E == 4) &&
  nextEq (exec (.cclkTargetWrite .a 0x53) clkSt) clkSt && nextEq (exec (.nclkTargetWrite .a 0x43) (setF clkSt Reg.CLK_LOCK_LOCK 1)) (setF clkSt Reg.CLK_LOCK_LOCK 1) = true := by decide +kernel
theorem test_vcore_settles : nextIs (exec (.vcoreSlewDone .east) { clkSt with clk.vcoreOk := [false, false] }) (fun t => t.clk.vcoreOk == [false, true]) = true := by decide +kernel
theorem test_droop : nextIs (exec (.droopTrip 17 50) clkSt) (fun t => getF t Reg.PWR_DROOP == 1 && getB t (Reg.CLK_ACLK_CUR_STRETCH 1) && alGet t.clk.stretched 17 == some 50 &&
    nextEq (exec (.droopHoldExpire 17 (49 + 1000 * getF t Reg.PWR_DROOP_CTL_HOLD_US)) t) t &&
    nextIs (exec (.droopHoldExpire 17 (50 + 1000 * getF t Reg.PWR_DROOP_CTL_HOLD_US)) t) fun u => !getB u (Reg.CLK_ACLK_CUR_STRETCH 1) && u.clk.stretched.isEmpty) &&
  nextEq (exec (.droopTrip 17 50) (setBit clkSt (Reg.ID_FENCED_CORES 0) 17 true)) (setBit clkSt (Reg.ID_FENCED_CORES 0) 17 true) = true := by decide +kernel
theorem test_ssc_update : nextIs (exec .sscUpdate (setF clkSt Reg.CLK_SSC_EN 1)) (fun t => t.clk.ssc.1 == 1) &&
  nextEq (exec .sscUpdate (setF (setF clkSt Reg.CLK_SSC_EN 1) Reg.CLK_REF_STATUS_SWITCH_BUSY 1)) (setF (setF clkSt Reg.CLK_SSC_EN 1) Reg.CLK_REF_STATUS_SWITCH_BUSY 1) = true := by decide +kernel
/-- SEL 99, GATE 10 and 30 are the ends of the ranges. -/
theorem test_fcount_start : nextIs (exec (.fcountStart .b (BitVec.ofNat 32 (99 + 10 * 256 + 65536))) clkSt) (fun t => getP t .b Reg.CLK_FCOUNT_CTL_BUSY == 1 && getP t .b Reg.CLK_FCOUNT_CTL_SEL == 99 &&
    getP t .a Reg.CLK_FCOUNT_CTL_BUSY == 0 && nextEq (exec (.fcountStart .b (BitVec.ofNat 32 (30 * 256 + 65536))) t) t) &&
  nextEq (exec (.fcountStart .b (BitVec.ofNat 32 (100 + 10 * 256))) clkSt) clkSt && nextEq (exec (.fcountStart .b (BitVec.ofNat 32 (9 * 256))) clkSt) clkSt &&
  nextEq (exec (.fcountStart .b (BitVec.ofNat 32 (31 * 256))) clkSt) clkSt && nextEq (exec (.fcountDone .a 0 false) clkSt) clkSt = true := by decide +kernel

theorem test_pll_lock : nextIs (exec (.pllLock false true 5 2 77) bootSt) (fun t => decide (t.boot.stage = .locked) && decide (srcActive t = .b) && getF t Reg.ID_MODULE_TPOS == 7 &&
  getB t Reg.HOST_SIDEBAND_TPOS_UNSTABLE) && nextEq (exec (.pllLock false false 5 2 77) bootSt) bootSt && nextEq (exec (.pllLock true true 5 2 77) up) up = true := by decide +kernel
theorem test_reference_lost : nextIs (exec (.referenceLost .b 9) clkSt) (fun t => !refOk t .b && t.clk.sw.isNone) &&
  nextIs (exec (.referenceLost .a 9) clkSt) (fun t => getB t Reg.CLK_REF_STATUS_HOLDOVER && decide (t.clk.sw.map (fun w => (w.phase, w.want, w.former, w.since)) = some (0, some .b, .a, 9))) &&
  nextIs (exec (.referenceLost .a 9) (setF clkSt Reg.CLK_REF_STATUS_REF_B_OK 0)) (fun t => decide (t.clk.sw.map (fun w => w.want) = some none) &&
    nextIs (exec (.referenceOk .b 10) t) fun u => refOk u .b && decide (u.clk.sw.map (fun w => w.want) = some (some .b))) = true := by decide +kernel
theorem test_source_select : nextIs (exec (.sourceSelect .a 0x101 9) clkSt) (fun t => getF t Reg.CLK_REF_CTL_SRC_SEL == 1 && getF t Reg.CLK_REF_CTL_HOLDOVER_LIMIT == 1 &&
    decide (t.clk.sw.map (fun w => w.want) = some (some .b))) &&
  nextIs (exec (.sourceSelect .a 0x6401 9) (setF clkSt Reg.CLK_REF_STATUS_REF_B_OK 0)) (fun t => getF t Reg.CLK_REF_STATUS_SWITCH_STATUS == 0x10) &&
  nextIs (exec (.sourceSelect .a 0x6400 9) clkSt) (fun t => t.clk.sw.isNone && getF t Reg.CLK_REF_CTL_HOLDOVER_LIMIT == 100) &&
  nextEq (exec (.sourceSelect .a 0x6501 9) clkSt) (atTime 9 clkSt) = true := by decide +kernel
def darkSt : State := { setFs [(Reg.CLK_REF_STATUS_REF_A_OK, 0), (Reg.CLK_REF_STATUS_REF_B_OK, 0)] clkSt with mem := [(3, 1#8)], clk.sw := some ⟨0, none, .a, 9, List.replicate 32 0, [1, 1, 1, 1]⟩ }
theorem test_holdover_limit : nextIs (exec (.holdoverLimitExpire (9 + 100000 * getF clkSt Reg.CLK_REF_CTL_HOLDOVER_LIMIT)) darkSt) (fun t => decide (t.boot.stage = .dark) && t.mem.isEmpty && t.flds.isEmpty) &&
  nextEq (exec (.holdoverLimitExpire (8 + 100000 * getF clkSt Reg.CLK_REF_CTL_HOLDOVER_LIMIT)) darkSt) darkSt && nextEq (exec (.pllRelock 9) darkSt) darkSt &&
  nextIs (exec (.holdoverLimitExpire (9 + 100000 * getF clkSt Reg.CLK_REF_CTL_HOLDOVER_LIMIT)) (setF darkSt Reg.CLK_REF_STATUS_REF_A_OK 1)) (fun t => decide (t.clk.sw.map (fun w => w.want) = some (some .a))) = true := by decide +kernel

/-! ### Power, brakes, temperatures -/

/-- OP 64, TARGET 1,500 W, C_eff 1,400 W. -/
def pwSt : State := { setFs [(Reg.PWR_OP_OP, 64), (Reg.PWR_CAP_TARGET, 1500), (Reg.PWR_OP_THERM_CAP, 2200)] clkSt with pwr.cEff := 1400000 }
theorem test_power_loop : nextIs (exec (.powerLoop 900000 700000 0 0 500) pwSt) (fun t => getF t Reg.PWR_EST_EST == 1600 && t.pwr.cEff == 1400000 + getF pwSt Reg.PWR_SLEW_UP && getF t Reg.PWR_OP_OP == 65) &&
  nextIs (exec (.powerLoop 700000 600000 700000 650000 500) pwSt) (fun t => getF t Reg.PWR_OP_OP == 63 && getB t Reg.PWR_STATUS_CAP_LIMITED) &&
  nextIs (exec (.powerLoop 700000 600000 720000 660000 500) pwSt) (fun t => getF t Reg.PWR_OP_OP == 64) &&
  nextIs (exec (.powerLoop 0 0 0 0 500) { pwSt with pwr.brakes := [0] }) (fun t => getF t Reg.PWR_OP_OP == 192) && nextEq (exec (.powerLoop 1 1 1 1 5) State.reset) State.reset = true := by decide +kernel
theorem test_gain_calibration : nextIs (exec (.gainCalibration 1000000 1000000 900000 2300000) pwSt) (fun t => t.pwr.gainCore == 900000 && t.pwr.gainRest == 1250000 && t.pwr.calWide &&
  getB t Reg.PWR_STATUS_CAL_FAULT && getF t Reg.PWR_ENERGY == 2300) = true := by decide +kernel
theorem test_cap_target : nextIs (exec (.capTargetWrite .a 900) pwSt) (fun t => getF t Reg.PWR_CAP_TARGET == 900 && getF t Reg.PWR_OP_OP == 96) &&
  nextIs (exec (.pldmCapEffecter 2200) pwSt) (fun t => getF t Reg.PWR_CAP_TARGET == 2200 && getF t Reg.PWR_OP_OP == 64) && nextEq (exec (.capTargetWrite .a 899) pwSt) pwSt &&
  nextEq (exec (.pldmCapEffecter 2201) pwSt) pwSt = true := by decide +kernel
theorem test_cap_unmet : (let s := { pwSt with pwr.unmetAt := some 5 }
  nextIs (exec (.capUnmet 1000005) s) (fun t => getB t Reg.PWR_STATUS_CAP_UNMET && getB t Reg.HOST_ALERT_CAP_UNMET) && nextEq (exec (.capUnmet 1000004) s) s) = true := by decide +kernel
def braked (k : Nat) (f : Fld) (t : State) : Bool := getB t f && t.pwr.brakes == [k] && getB t Reg.PWR_STATUS_BRAKE && getF t Reg.PWR_OP_OP == 192 && getF t Reg.PWR_BRAKES == 1
theorem test_brake_on : nextIs (exec (.shutterAssert 5) pwSt) (braked 0 Reg.PWR_STATUS_SHUTTER) && nextIs (exec (.leakAssert 5) pwSt) (braked 2 Reg.HOST_ALERT_LEAK) &&
  nextIs (exec (.vinLow 5) pwSt) (braked 3 Reg.PWR_STATUS_VIN_LOW) = true := by decide +kernel
theorem test_brake_off : nextIs (exec (.shutterAssert 5) pwSt) (fun t => nextIs (exec (.shutterRelease 1200000 9) t) fun u => u.pwr.brakes.isEmpty && u.pwr.cEff == 1200000 && !getB u Reg.PWR_STATUS_BRAKE) &&
  nextIs (exec (.leakAssert 5) pwSt) (fun t => nextIs (exec (.leakRelease 1500000 9) t) fun u => u.pwr.brakes.isEmpty && u.pwr.cEff == 1400000) = true := by decide +kernel
theorem test_perst_levels : nextIs (exec (.perstAssert .b 5) pwSt) (fun t => getB t (perstFld .b) && decide ((portSt t .b).perstAt = some 5) && nextIs (exec (.perstRelease .b 6) t) fun u =>
  !getB u (perstFld .b) && decide ((portSt u .b).perstAt = none)) = true := by decide +kernel
theorem test_toggling_input : nextIs (exec (.sidebandToggling .shutter 5) pwSt) (fun t => toggling t .shutter && accepted t .shutter && getB t Reg.HOST_ALERT_TOGGLING &&
  nextIs (exec (.togglingEnd .shutter true 0 6) t) (fun u => !toggling u .shutter && accepted u .shutter) &&
  nextIs (exec (.togglingEnd .shutter false 0 6) t) (fun u => !toggling u .shutter && !accepted u .shutter)) = true := by decide +kernel
theorem test_stuck_inputs : nextIs (exec (.shutterStuck 1000000005) { pwSt with pwr.shutterAt := some 5 }) (fun t => getB t Reg.HOST_ALERT_SHUTTER_STUCK) &&
  nextIs (exec (.perstStuck .b 1000000005) { setF pwSt (perstFld .b) 1 with boot.portB.perstAt := some 5 }) (fun t => getB t Reg.HOST_PORT_B_PERST_STUCK) &&
  nextIs (exec (.inletRange 1000000005) { pwSt with pwr.inletAt := some 5 }) (fun t => getB t Reg.PWR_STATUS_INLET_RANGE) = true := by decide +kernel
theorem test_leak_grace : (let s := { pwSt with pwr.leakAt := some 5 }
  nextIs (exec (.leakGraceExpire (5 + 10000000 * getF s Reg.PWR_LEAK_CTL_GRACE)) s) fun t => decide (t.boot.stage = .safe) && t.boot.report.cause == 10 && getF t Reg.ID_STATE_STATE == 3) = true := by decide +kernel
def therm (j v : Int) : Instr := .thermalCheck ((List.range 36).map fun k => some (if k = 7 then j else 600)) ((List.range 32).map fun k => some (if k = 9 then v else 500)) (some 300) (some 400) 48000 20 0 5
theorem test_thermal_normal : nextIs (exec (therm 700 600) pwSt) (fun t => getF t Reg.PWR_TEMP_TJ_MAX == 70 && getF t Reg.PWR_TEMP_DRAM_MAX == 60 && getF t Reg.PWR_TEMP_DRAM_VAULT == 9 &&
  getF t Reg.PWR_OP_THERM_CAP == 2200 && t.pwr.brakes.isEmpty) && nextIs (exec (therm 600 901) pwSt) (fun t => getF t Reg.PWR_OP_THERM_CAP == 2190 && t.pwr.refresh2x.contains 9) = true := by decide +kernel
theorem test_thermal_brake : nextIs (exec (therm 1050 600) pwSt) (fun t => t.pwr.brakes == [1] && getB t Reg.HOST_ALERT_THERMAL && decide (t.boot.stage = .ready)) &&
  nextIs (exec (therm 600 950) pwSt) (fun t => t.pwr.brakes == [1]) && nextIs (exec (therm 1100 600) pwSt) (fun t => decide (t.boot.stage = .safe) && t.boot.report.cause == 9 && t.pwr.tripHold) = true := by
  decide +kernel
/-! ### Input faults, resets, power-up -/

def lossSt : State := { leaseSt 2 { st := 2, lease := 7 } up with mem := [(3, 1#8)], img := some im0, sec.ks.owner := [1] }
def lost (st : Stage) (f : Nat × Nat) (t : State) : Bool := decide (t.boot.stage = st) && t.nvFault == f && t.mem.isEmpty && t.img.isNone && t.sec.ks.owner == [1] &&
  decide (t.sec.ks.leases = lossSt.sec.ks.leases)
theorem test_input_faults : nextIs (exec (.inputUndervoltage 5) lossSt) (lost .unpowered (3, 0)) && nextIs (exec (.inputOvervoltage 5) lossSt) (lost .unpowered (2, 0)) &&
  nextIs (exec .inputReversed lossSt) (lost .unpowered (0, 0)) && nextIs (exec (.railShort 4 5) lossSt) (lost .latched (1, 4)) &&
  nextIs (exec (.inputRemoved 1) lossSt) (lost .unpowered (0, 0)) = true := by decide +kernel
def offSt : State := { State.reset with boot.stage := .unpowered, nvFault := (2, 3), sec.ks.owner := [1] }
theorem test_input_off : nextEq (exec (.inputUndervoltage 5) offSt) offSt && nextEq (exec (.inputRemoved 5) offSt) offSt && nextEq (exec .senseOpen offSt) offSt &&
  nextIs (exec (.inputRemoved 1000) { offSt with boot.stage := .latched }) (fun t => decide (t.boot.stage = .unpowered)) &&
  nextIs (exec (.inputRemoved 999) { offSt with boot.stage := .latched }) (fun t => decide (t.boot.stage = .latched)) && nextIs (exec .senseOpen up) (fun t => getB t Reg.PWR_STATUS_SENSE_OPEN) = true := by
  decide +kernel
theorem test_power_valid : nextIs (exec (.inputPowerValid true) offSt) (fun t => decide (t.boot.stage = .boot) && getF t Reg.PWR_FAULT_CAUSE == 2 && getF t Reg.PWR_FAULT_RAIL == 3 && t.sec.ks.boots == 1) &&
  nextIs (exec (.inputPowerValid false) offSt) (fun t => decide (t.boot.stage = .dark) && nextIs (exec .referenceReturn t) fun u => decide (u.boot.stage = .boot) && getF u Reg.SEC_STATUS_ZERO_CAUSE == 1) &&
  nextEq (exec (.inputPowerValid true) up) up && nextEq (exec .referenceReturn up) up = true := by decide +kernel
theorem test_reset_request : (let s := { lossSt with pwr.shutterAt := some 5, boot.portA.perstAt := some 4, boot.portB.perstAt := some 3 }
  nextIs (exec (.resetRequest 100000005) s) (lost .boot (0, 0)) && nextEq (exec (.resetRequest 100000005) { s with pwr.tripHold := true }) { s with pwr.tripHold := true } &&
  nextIs (exec (.resetRequest 100000004) s) (fun t => decide (t.boot.stage = .ready))) = true := by decide +kernel
theorem test_glitch_trip : nextIs (exec (.glitchTrip 5) lossSt) (fun t => lost .boot (0, 0) t && t.sec.ks.glitchTotal == 1 && t.sec.ks.glitchDet == 5 && getF t Reg.SEC_STATUS_ZERO_CAUSE == 2) &&
  nextEq (exec (.glitchTrip 5) offSt) offSt = true := by decide +kernel
def lockSt : State := leaseSt 3 { st := 3, lease := 9 } (leaseSt 2 { st := 2, lease := 7 } { State.reset with boot.stage := .locked })
theorem test_boot_verify : nextIs (exec (.bootVerifyDone true none [1, 2, 3, 4] [[1]]) lockSt) (fun t => decide (t.boot.stage = .verified) && t.sec.ks.versions == [1, 2, 3, 4] &&
    (t.sec.ks.leases.map fun l => l.st).take 4 == [0, 0, 2, 0]) &&
  nextIs (exec (.bootVerifyDone false none [] []) lockSt) (fun t => decide (t.boot.stage = .safe) && t.boot.report.cause == 1) &&
  nextIs (exec (.bootVerifyDone true (some 2) [] []) lockSt) (fun t => t.boot.report.cause == 2 && t.boot.report.unit == 3) && nextEq (exec (.bootVerifyDone true none [] []) up) up = true := by decide +kernel
def goodSt : SelfTest := ⟨[], [], [], [], [], [], [], [], [], false, false, false⟩
def verSt : State := { State.reset with boot.stage := .verified }
theorem test_selftest_good : nextIs (exec (.selftestDone goodSt []) verSt) (fun t => decide (t.boot.stage = .tested) && getF t Reg.ID_STATE_STATE == 1 && getF t Reg.ID_RESOURCES_CORES_LIVE == 192 &&
  getF t Reg.ID_RESOURCES_FAB_PORTS == 255 && getF t (cardState 1) == 2) = true := by decide +kernel
theorem test_selftest_core : nextIs (exec (.selftestDone { goodSt with cores := [17] } []) verSt) (fun t => getF t Reg.ID_STATE_STATE == 2 && coreFenced t 17 && t.sec.ks.fenceCores == [17] &&
  getF t Reg.ID_RESOURCES_CORES_LIVE == 191) = true := by decide +kernel
theorem test_functions_ready : nextIs (exec (.functionsReady 0x100000 0x200000 0x300000 0x400000) { verSt with boot.stage := .tested, sec.ks.armed := true }) (fun t => decide (t.boot.stage = .ready) && t.ready &&
  getF t Reg.MEM_DIST_BASE == 0x100000 && getF t Reg.FAB_STATE_STATE == 1 && t.boot.extended && getF t Reg.ID_STATE_STATE == 4 && !t.sec.ks.armed) &&
  nextEq (exec (.functionsReady 0 0 0 0) up) up && nextEq (exec (.selftestDone goodSt []) up) up && nextEq (exec (.extendedSelftestDone goodSt []) up) up = true := by decide +kernel
theorem test_extended_selftest : (let s := { setBit up (Reg.ID_FENCED_CORES 0) 17 true with boot.extended := true, sec.ks.fenceCores := [17] }
  nextIs (exec (.extendedSelftestDone goodSt []) s) fun t => !t.boot.extended && t.sec.ks.fenceCores.isEmpty && !coreFenced t 17) = true := by decide +kernel

/-! ### Host ports -/

def portStt : State := setFs [(Reg.HOST_PORT_A_UP, 1), (Reg.HOST_PORT_B_UP, 1)] { up with boot.portA.link := true }
theorem test_port_up : (let s := setFs [(refFld .a, 1), (perstFld .a, 0)] up
  nextIs (exec (.portUp .a 5 8 true) s) (fun t => portUp t .a && getF t (speedFld .a) == 5 && getF t (widthFld .a) == 8 && getB t (revFld .a) && getP t .b Reg.HOST_IRQ_CAUSE_PEER == 1) &&
  nextIs (exec (.portUp .a 6 4 false) (setF s (perstFld .a) 1)) (fun t => !portUp t .a && getF t (widthFld .a) == 4) && nextEq (exec (.portUp .a 5 8 true) bootSt) bootSt) = true := by decide +kernel
theorem test_dl_active_lost : nextIs (exec (.dlActiveLost .a 7) portStt) (fun t => decide ((portSt t .a).lostAt = some 7) && portUp t .a && nextEq (exec (.linkDownTimeout .a 100000006) t) t &&
  nextIs (exec (.linkDownTimeout .a 100000007) t) fun u => !portUp u .a && portUp u .b && getF u (downFld .a) == 1 && getP u .b Reg.HOST_IRQ_CAUSE_PEER == 1) &&
  nextEq (exec (.dlActiveLost .b 7) portStt) portStt && nextEq (exec (.linkDownTimeout .b 7) portStt) portStt = true := by decide +kernel
def downA (g : State → Bool) (t : State) : Bool := !portUp t .a && getF t (downFld .a) == 1 && getF t (bindFld .a) == 0 && (t.ctxs.map fun c => (c.1, c.2.st == .orphaned)) == [(0, true), (1, false)] && g t
def upSt : State := leaseSt 2 { st := 2, lease := 7 } { setF portStt (bindFld .a) 4 with img := some im0, ctxs := [(0, { ctx0 with st := .ready }), (1, { ctx0 with st := .ready, port := .b })] }
theorem test_port_goes_down : nextIs (exec (.d3hotEntry .a) upSt) (downA fun t => getB t (d3Fld .a)) && nextIs (exec (.functionLevelReset .a) upSt) (downA fun t => (portSt t .a).flr) &&
  nextIs (exec (.perstAssert .a 9) upSt) (downA fun t => getB t (perstFld .a)) && nextEq (exec (.d3hotEntry .a) up) up && nextEq (exec (.functionLevelReset .a) up) up = true := by decide +kernel
theorem test_irq_holdoff : (let s := { portStt with holdoffA := true, deferA := true, holdoffB := true }
  nextIs (exec (.irqHoldoffExpire .a) s) (fun t => t.out == [.msix .a 0] && !t.deferA && t.holdoffB && t.holdoffA == decide (0 < getP s .a Reg.HOST_IRQ_HOLDOFF_US)) &&
  nextIs (exec (.irqHoldoffExpire .b) s) (fun t => t.out.isEmpty && !t.holdoffB && t.holdoffA) && nextEq (exec (.irqHoldoffExpire .a) up) up) = true := by decide +kernel
theorem test_configuration : (let s := setF portStt (perstFld .a) 0
  nextIs (exec (.configurationRequest .a (some 8)) s) (fun t => t.out == [.cfg .a] && (portSt t .a).bar2 == 38) && nextIs (exec (.configurationRequest .a none) s) (fun t => t.out == [.cfg .a]) &&
  nextIs (exec (.configurationRequest .a none) { s with ready := false }) (fun t => t.out == [.crs .a]) && nextEq (exec (.configurationRequest .b none) s) s) = true := by decide +kernel
def hrSt : State := { setFs [(Reg.MEM_LOAD_STATUS_BUSY, 1), (Reg.ENG_IMG_STATUS_BUSY, 1), (Reg.ENG_IMG_STATUS_PHASE, 1)] portStt with wts.load := some ⟨⟨0, 1, .a, 56, 9, 7, 0, [], []⟩, .a⟩, wts.imgRun := some ⟨.a, none, []⟩ }
theorem test_host_read_fails : nextIs (exec (.hostReadTimeout .a 0) hrSt) (fun t => t.wts.load.isNone && getF t Reg.MEM_LOAD_STATUS_STATUS == 0x31) &&
  nextIs (exec (.hostReadRefused .a 0) hrSt) (fun t => t.wts.load.isNone && getF t Reg.MEM_LOAD_STATUS_STATUS == 0x23) && nextIs (exec (.hostReadTimeout .a 1) hrSt) (fun t => t.wts.imgRun.isNone &&
  getF t Reg.ENG_IMG_STATUS_STATUS == 0x23) && nextIs (exec (.hostReadRefused .a 1) hrSt) (fun t => t.wts.imgRun.isNone) && nextEq (exec (.hostReadTimeout .b 0) hrSt) hrSt &&
  nextEq (exec (.hostReadRefused .b 1) hrSt) hrSt && nextEq (exec (.hostReadTimeout .a 2) hrSt) hrSt = true := by decide +kernel
theorem test_ide_keys : nextIs (exec (.ideKm .a) { portStt with sec.sessions := [⟨.owner, [1]⟩] }) (fun t => getF t (ideFld .a) == 1 && nextIs (exec (.ideIntegrityFail .a) t) fun u =>
  getF u (ideFld .a) == 2 && portUp u .a && nextEq (exec (.ideIntegrityFail .a) u) u) && nextEq (exec (.ideKm .a) portStt) portStt &&
  nextIs (exec (.ideIntegrityFail .a) (leaseSt 2 { st := 2, lease := 7, ide := true } (setF upSt (ideFld .a) 1))) (fun t => getF t (ideFld .a) == 2 && !portUp t .a) = true := by decide +kernel
/-! ### Host accesses through BAR2 -/

/-- Lease 7, the image's, is in slot 2 and bound to port A; granule 0x1401 (bytes 0x50040 on) fails its check. -/
def barSt : State := let s := puts [(0x50000, [9, 1, 0, 0]), (0x50040, [6])] (leaseSt 2 { st := 2, lease := 7 } { setF up (bindFld .a) 4 with img := some im0 })
  setMark s 0x1401 true
def loggedB (s : State) (write : Bool) (t : State) : Bool := getF t Reg.HOST_BADACC_COUNT == 1 && getF t (Reg.HOST_BADACC_INFO_STATUS 0) == 0x23 && getB t (Reg.HOST_BADACC_INFO_WRITE 0) == write &&
  regsB (within (0x40040 * 64) (0xC0 * 64)) s t
theorem test_witness_bar2 : stageAlive barSt && inBar2 barSt .a 0x50000 4 && barAddr barSt .a 0x50000 == 0x50000 && devWriteOk barSt 0x50000 4 && barAllowed (writeLease barSt) barSt .a 0x50000 4 &&
  barAllowed (readLease barSt) barSt .a 0x50000 4 && !anyMarked barSt 0x50000 4 && marked barSt 0x1401 && !barAllowed (readLease barSt) barSt .b 0x50000 4 &&
  inBar2 barSt .a (2 ^ 36 - 1) 1 && !inBar2 barSt .a (2 ^ 36) 1 = true := by decide +kernel
theorem test_bar2_beyond : nextEq (exec (.bar2Write .a (2 ^ 36) [1#8]) barSt) barSt && nextEq (exec (.bar2Read .a (2 ^ 36 - 3) 4 [] true) barSt) barSt &&
  nextEq (exec (.bar2Atomic .a .swap true (2 ^ 36 - 4) 1 0 .ok) barSt) barSt = true := by decide +kernel
theorem test_bar2_write : nextIs (exec (.bar2Write .a 0x50000 [4#8, 3#8]) barSt) (fun t => rdBytes t 0x50000 4 == [4, 3, 0, 0] && memB (within 0x50000 2) barSt t && regsB storeKey barSt t &&
    keptB [.mem, .marks, .flds] barSt t) &&
  nextIs (exec (.bar2Write .b 0x50000 [4#8]) barSt) (fun t => loggedB barSt true t && keptB [.flds] barSt t) = true := by decide +kernel
theorem test_bar2_read : nextIs (exec (.bar2Read .a 0x50000 4 [] true) barSt) (fun t => t.out == [.readData .a [9, 1, 0, 0]] && regsB pmcKey barSt t && keptB [.flds, .out] barSt t) &&
  nextIs (exec (.bar2Read .a 0x50040 1 [] true) barSt) (fun t => t.out == [.readPoisoned .a [6]] && getF t Reg.MEM_DRAM_DETECT == 1 && keptB [.flds, .out, .marks] barSt t) &&
  nextIs (exec (.bar2Read .b 0x50000 4 [] true) barSt) (fun t => t.out == [.readData .b [0, 0, 0, 0]] && loggedB barSt false t && keptB [.flds, .out] barSt t) = true := by decide +kernel
theorem test_bar2_atomic : nextIs (exec (.bar2Atomic .a .fetchAdd false 0x50000 (BitVec.ofNat 64 (2 ^ 32 - 1)) 0 .ok) barSt) (fun t => t.out == [.readData .a [9, 1, 0, 0]] && rdLe t 0x50000 4 == 0x108 &&
    memB (within 0x50000 4) barSt t && keptB [.mem, .marks, .flds, .out] barSt t) &&
  nextIs (exec (.bar2Atomic .a .cas true 0x50000 5 0x109 .ok) barSt) (fun t => rdLe t 0x50000 8 == 5) && nextIs (exec (.bar2Atomic .a .cas true 0x50000 5 0x108 .ok) barSt) (fun t => rdLe t 0x50000 8 == 0x109) &&
  nextIs (exec (.bar2Atomic .a .swap false 0x50000 5 0 .hard) barSt) (fun t => t.out == [.readPoisoned .a [9, 1, 0, 0]] && decide (t.mem = barSt.mem)) &&
  nextIs (exec (.bar2Atomic .a .swap false 0x50002 5 0 .ok) barSt) (fun t => t.out == [.readData .a [0, 0, 0, 0]] && loggedB barSt true t && decide (t.mem = barSt.mem)) = true := by decide +kernel

/-! ### Images -/

theorem test_image_go : nextIs (exec (.imageGo .a) barSt) (fun t => getB t Reg.ENG_IMG_STATUS_BUSY && getF t Reg.ENG_IMG_STATUS_PHASE == 1 && nextEq (exec (.imageGo .b) t) t && t.wts == { barSt.wts with imgRun := some ⟨.a, none, []⟩ } &&
  nextIs (exec (.imageAbort .b) t) fun u => !getB u Reg.ENG_IMG_STATUS_BUSY && getF u Reg.ENG_IMG_STATUS_STATUS == 0x23 && u.wts == barSt.wts) && nextEq (exec (.imageAbort .a) barSt) barSt = true := by decide +kernel
def imgAt (d : ImageDesc) (s : State) : State := { setFs [(Reg.ENG_IMG_STATUS_BUSY, 1), (Reg.ENG_IMG_STATUS_PHASE, 5)] s with wts.imgRun := some ⟨.a, some d, []⟩ }
def fetSt : State := { setF barSt Reg.ENG_IMG_STATUS_BUSY 1 with wts.imgRun := some ⟨.a, none, []⟩ }
def badB (d : ImageDesc) (ok : Bool) (st k c i : Nat) : Bool := nextIs (exec (.imageFetchDone ok d) fetSt) fun t => !getB t Reg.ENG_IMG_STATUS_BUSY && getF t Reg.ENG_IMG_STATUS_STATUS == st &&
  getF t Reg.ENG_IMG_REFUSAL_KIND == k && getF t Reg.ENG_IMG_REFUSAL_CODE == c && getF t Reg.ENG_IMG_ITEM_ITEM == i && t.wts == barSt.wts
/-- 2^28 bytes are the most that a whole image may have. -/
theorem test_image_fetch_refused : badB im0 false 0x23 0 0 0 && badB { im0 with totalBytes := 2 ^ 28 + 64 } true 0x10 1 0x13 0xFFFFFFFF && badB { im0 with signatureOk := false } true 0x23 2 0x0C 0xFFFFFFFF &&
  badB { im0 with badSection := some (4, 9) } true 0x23 5 4 9 && !sizeBad fetSt { im0 with totalBytes := 2 ^ 28 } = true := by decide +kernel
theorem test_image_none : nextEq (exec (.imageFetchDone true im0) barSt) barSt && nextEq (exec .wholeApply barSt) barSt && nextEq (exec .regionalApply barSt) barSt = true := by decide +kernel
theorem test_image_busy : nextIs (exec .wholeApply { imgAt im0 barSt with ctxs := [(0, ctx0)] }) (fun t => !getB t Reg.ENG_IMG_STATUS_BUSY && getF t Reg.ENG_IMG_STATUS_STATUS == 0x10 &&
    getF t Reg.ENG_IMG_REFUSAL_KIND == 1 && getF t Reg.ENG_IMG_REFUSAL_CODE == 8 && t.wts.imgRun.isNone) &&
  nextEq (exec .wholeApply (imgAt { im0 with kind := 2 } barSt)) (imgAt { im0 with kind := 2 } barSt) && nextEq (exec .regionalApply (imgAt im0 barSt)) (imgAt im0 barSt) = true := by decide +kernel
/-- An image that passes every check, and a module with both cards. -/
def im1 : ImageDesc := { im0 with groups := [{ grp0 with firstLayer := 0, lastLayer := 7 }], serving := { sv0 with stepRows := 16, archive := false, capture := false, prefixRecords := 0, firstLayer := 0, lastLayer := 7 } }
/-- The same group again, as a regional image of `im1`. -/
def im2 : ImageDesc := { im1 with kind := 2, region := 0, seq := 2 }
def crdSt : State := setFs [(cardState 0, 2), (cardState 1, 2)] fetSt
theorem test_image_waits : nextIs (exec (.imageFetchDone true im1) crdSt) (fun t => getF t Reg.ENG_IMG_STATUS_PHASE == 5 && t.wts.imgRun == some ⟨.a, some im1, []⟩) &&
  nextIs (exec (.imageFetchDone true im2) { crdSt with img := some im1 }) (fun t => getF t Reg.ENG_IMG_STATUS_PHASE == 5 && getF t (Reg.ENG_IMG_GROUPS_GROUP 0) == 2 &&
    t.wts.imgRun == some ⟨.a, some im2, [(0, 0)]⟩) = true := by decide +kernel
theorem test_regional_apply : nextIs (exec .regionalApply { imgAt im2 crdSt with img := some im1, ctxs := [(0, ctx0)] }) (fun t => t.img == some (combined { crdSt with img := some im1 } im2) && t.wts.imgRun.isNone &&
  !getB t Reg.ENG_IMG_STATUS_BUSY && getF t Reg.ENG_IMG_STATUS_STATUS == 0 && getF t (Reg.ENG_IMG_GROUPS_GROUP 0) == 1 && t.ctxs == [(0, ctx0)]) = true := by decide +kernel
theorem test_whole_apply : nextIs (exec .wholeApply { imgAt im1 crdSt with ready := false }) (fun t => t.img == some im1 && t.wts.imgRun.isNone && t.wts.area == [(0, 4096)] &&
  !getB t Reg.ENG_IMG_STATUS_BUSY && getF t Reg.ENG_IMG_STATUS_STATUS == 0 && getF t Reg.ENG_IMG_STATE_STATE == 1 && getF t Reg.ENG_IMG_SEQ == 1) = true := by decide +kernel
/-! ### Management, firmware -/

/-- An owned module with a session of the Owner (0), one of a service key (1) and one of lease 7's tenant (2), and a floor of the management firmware to raise. -/
def mgSt : State := leaseSt 2 { st := 2, lease := 7, tenantPub := [8] } { up with sec.ks.owner := [1], sec.ks.ownerSlots := 1, sec.sessions := [⟨.owner, [1]⟩, ⟨.service, [6]⟩, ⟨.tenant 2, [8]⟩] }
def saidB (s : State) (rule : Nat) (data : List Nat) (t : State) : Bool := t.out == [.mgmt rule data] && keptB [.out] s t
theorem test_endpoint : nextIs (exec (.setEndpointId 9) { mgSt with sec.fwRaise := [(.mgmt, 5)] }) (fun t => getF t Reg.MGT_STATUS_EID == 9 && t.sec.fwRaise.isEmpty && t.sec.ks.rollback == [0, 0, 5, 0]) &&
  nextIs (exec (.entdaa 9) mgSt) (fun t => getF t Reg.MGT_STATUS_I3C_ADDR == 9 && getB t Reg.MGT_STATUS_I3C_ADDR_VALID) && nextEq (exec (.entdaa 9) { mgSt with boot.stage := .boot }) { mgSt with boot.stage := .boot } = true := by decide +kernel
theorem test_answers_given : nextIs (exec (.pldmSensorRead 9) (setF mgSt Reg.PWR_CAP_EFFECTIVE 1500)) (saidB (setF mgSt Reg.PWR_CAP_EFFECTIVE 1500) 432 [9, 1500]) && nextIs (exec (.getCertificate 7) mgSt) (saidB mgSt 442 [7, 0]) &&
  nextIs (exec (.getCertificate 0) mgSt) (saidB mgSt 442 [0, 1]) && nextIs (exec (.challenge 0 [3]) mgSt) (saidB mgSt 442 ([0, 3] ++ (measurements mgSt).flatten)) &&
  nextIs (exec (.challenge 1 [3]) mgSt) (saidB mgSt 437 [0x23, 0]) && nextIs (exec (.getMeasurements 7 [3]) mgSt) (saidB mgSt 442 [7, 3, 1]) = true := by decide +kernel
theorem test_key_exchange : nextIs (exec (.keyExchange .service [9] true) mgSt) (fun t => t.out == [.mgmt 442 [3]] && getF t Reg.MGT_STATUS_SESSIONS == 4 &&
    nextIs (exec (.keyExchange .service [9] true) t) (fun u => u.sec.sessions.length == 4 && u.out.head? == some (.mgmt 437 [0x23, 0]))) &&
  nextIs (exec (.keyExchange (.tenant 2) [8] true) mgSt) (saidB mgSt 437 [0x23, 0]) && nextIs (exec (.keyExchange .anyKey [9] true) mgSt) (saidB mgSt 437 [0x23, 0]) = true := by decide +kernel
def pkg (c : FwComp) (floor : Bool) : FwPackage := ⟨c, 7, floor, [4]⟩
theorem test_firmware_update : nextIs (exec (.pldmFirmwareUpdate .power 7 true true false [4]) mgSt) (fun t => t.sec.packages == [pkg .power true] && t.out == [.mgmt 444 [0]]) &&
  nextIs (exec (.pldmFirmwareUpdate .security 7 true true false [4]) { mgSt with sec.ks.secFloor := 8 }) (fun t => t.sec.packages.isEmpty && t.out == [.mgmt 444 [0x23]]) &&
  nextIs (exec (.pldmFirmwareUpdate .security 7 true true false [4]) { mgSt with sec.ks.countersign := true }) (fun t => t.out == [.mgmt 444 [0x23]]) = true := by decide +kernel
def swapB (c : Instr) (k : FwComp) (v : List Nat) (raise : List (FwComp × Nat)) : Bool := nextIs (exec c { mgSt with sec.packages := [pkg k (!raise.isEmpty), pkg .mgmt false] }) fun t => t.sec.packages == [pkg .mgmt false] &&
  t.sec.ks.versions == v && t.sec.sessions.isEmpty && getF t Reg.MGT_STATUS_SESSIONS == 0 && t.sec.fwRaise == raise && keptB [.flds, .sec, .pwr, .ledger, .ledgerSeq] mgSt t
theorem test_firmware_swaps : swapB .controlFwHandoff .control [7, 0, 0, 0] [(.control, 7)] && swapB .securityFwSwap .security [0, 7, 0, 0] [] && swapB .mgmtFwSwap .mgmt [0, 0, 7, 0] [(.mgmt, 7)] &&
  swapB .powerFwSwap .power [0, 0, 0, 7] [] && nextEq (exec .mgmtFwSwap { mgSt with sec.packages := [pkg .power false] }) { mgSt with sec.packages := [pkg .power false] } = true := by decide +kernel
theorem test_firmware_rollback : (let s := { mgSt with sec.packages := [pkg .control true] }
  nextIs (exec .controlFwHandoff s) fun t => t.sec.fwNew && nextIs (exec .controlFwRollback t) fun u => u.sec.ks.versions == [0, 0, 0, 0] && u.sec.fwRaise.isEmpty && !u.sec.fwNew && u.sec.ks.rollback == [0, 0, 0, 0]) &&
  nextEq (exec .controlFwRollback mgSt) mgSt && nextEq (exec .controlFwHandoff { runSt with sec.packages := [pkg .control true] }) { runSt with sec.packages := [pkg .control true] } = true := by decide +kernel

/-! ### Ownership, debug, reports -/

/-- No lease is held. -/
def owSt : State := leaseSt 2 {} { mgSt with mem := [(3, 1#8)] }
theorem test_not_granted : nextIs (exec (.glitchAck 1) mgSt) (saidB mgSt 437 [0x23, 0]) && nextIs (exec (.takeOwnership 0 true) mgSt) (saidB mgSt 437 [0x23, 0]) &&
  nextIs (exec (.debugChallenge 2) mgSt) (saidB mgSt 437 [0x23, 0]) && nextIs (exec (.ledgerRead 9 0 1) mgSt) (saidB mgSt 437 [0x23, 0]) = true := by decide +kernel
theorem test_take_ownership : (let s := { up with sec.sessions := [⟨.anyKey, [5]⟩] }
  nextIs (exec (.takeOwnership 0 true) s) (fun t => t.sec.ks.owner == [5] && t.sec.ks.ownerSlots == 1 && getB t Reg.SEC_STATUS_OWNED && t.out == [.mgmt 443 [0]]) &&
  nextIs (exec (.takeOwnership 0 false) s) (fun t => t.out == [.mgmt 437 [0x23, 0]] && t.sec.ks.owner.isEmpty) &&
  nextIs (exec (.takeOwnership 0 true) { s with sec.ks.ownerSlots := 16 }) (fun t => t.out == [.mgmt 437 [0x10, 0x1B]])) = true := by decide +kernel
def zeroed (cause : Nat) (t : State) : Bool := t.mem.isEmpty && getF t Reg.SEC_STATUS_ZERO_CAUSE == cause && decide (t.sec.authOp = none) && t.out.head? == some (.mgmt 443 [0])
theorem test_authority_now : nextIs (exec (.transferOwnership 0 [5]) { owSt with sec.ks.ownerSlots := 15 }) (fun t => zeroed 4 t && t.sec.ks.owner == [5] && t.sec.ks.ownerSlots == 16) &&
  nextIs (exec (.transferOwnership 0 [5]) { owSt with sec.ks.ownerSlots := 16 }) (saidB { owSt with sec.ks.ownerSlots := 16 } 437 [0x10, 0x1B]) &&
  nextIs (exec (.releaseOwnership 0) owSt) (fun t => zeroed 4 t && t.sec.ks.owner.isEmpty) &&
  nextIs (exec (.debugUnlock 1 true true) { owSt with sec.nonce := some [1] }) (fun t => zeroed 3 t && getB t Reg.SEC_STATUS_DEBUG && t.sec.ks.debugSeen && decide (t.sec.nonce = none)) = true := by decide +kernel
theorem test_authority_waits : nextIs (exec (.transferOwnership 0 [5]) mgSt) (fun t => decide (t.sec.authOp = some (.transfer [5])) && t.sec.ks.owner == [1] && ((t.sec.ks.leases.getD 2 {}).endStep == some 1) &&
    ((t.sec.ks.leases.getD 3 {}).endStep == none) && nextIs (exec (.releaseOwnership 0) t) fun u => u.out.head? == some (.mgmt 437 [0x23, 0]) && decide (u.sec.authOp = t.sec.authOp)) &&
  nextIs (exec (.debugUnlock 0 true true) { mgSt with sec.nonce := some [1] }) (fun t => decide (t.sec.authOp = some .debug)) = true := by decide +kernel
theorem test_debug_attempts : nextIs (exec (.debugUnlock 0 true false) { owSt with sec.nonce := some [1] }) (fun t => decide (t.sec.nonce = none) && t.out == [.mgmt 437 [0x23, 0]]) &&
  nextIs (exec (.debugUnlock 0 true true) owSt) (fun t => t.out == [.mgmt 437 [0x23, 0]]) && nextIs (exec (.debugChallenge 1) owSt) (fun t => t.sec.nonce.isSome && t.fresh == owSt.fresh + 1) = true := by decide +kernel
theorem test_owner_writes : nextIs (exec (.setFwPolicy 0 [1, 2] true) mgSt) (fun t => t.sec.ks.minVersion == [1, 2, 0, 0] && t.sec.ks.countersign && getB t Reg.SEC_STATUS_COUNTERSIGN) &&
  nextIs (exec (.setAppKey 0 [4]) mgSt) (fun t => t.sec.ks.app == [4] && t.out == [.mgmt 443 [0]]) &&
  nextIs (exec (.glitchAck 0) { mgSt with sec.ks.glitchAck := 16, sec.ks.glitchTotal := 20 }) (fun t => t.sec.ks.glitchAck == 0 && t.sec.ks.glitchTotal == 20 && !getB t Reg.SEC_STATUS_GLITCH_LOCK) &&
  nextIs (exec (.selftestExtended 0) owSt) (fun t => t.sec.ks.armed) && nextIs (exec (.selftestExtended 0) mgSt) (saidB mgSt 437 [0x23, 0]) = true := by decide +kernel
def rep7 : EraseReport := ⟨7, 11, 3, 1, 2, 3, true, true, false⟩
theorem test_owner_reads : (let s := { mgSt with ledger := [⟨6, 1, 0, [(64, 5)]⟩, ⟨5, 2, 0, []⟩, ⟨4, 2, 0, []⟩], sec.ks.reports := [rep7] }
  nextIs (exec (.ledgerRead 0 5 2) s) (saidB s 473 (recordBytes ⟨5, 2, 0, []⟩ ++ recordBytes ⟨6, 1, 0, [(64, 5)]⟩)) && nextIs (exec (.ledgerRead 0 5 257) s) (saidB s 437 [0x23, 0]) &&
  nextIs (exec (.ledgerRead 0 5 0) s) (saidB s 437 [0x23, 0]) && nextIs (exec (.eraseReportRead 0 7) s) (saidB s 452 [7, 11, 3, 1, 2, 3, 1, 1, 0]) && nextIs (exec (.eraseReportRead 0 8) s) (saidB s 437 [0x23, 0])) = true := by decide +kernel

/-! ### Leases -/

def rec9 : LeaseRecord := ⟨9, true, 40, 12, 0, 1, [8], [2], true, true, false⟩
def authB (s : State) (r : LeaseRecord) (st res : Nat) : Bool := nextIs (exec (.leaseAuthorise 1 r) s) (saidB s 437 [st, res])
theorem test_lease_authorise : nextIs (exec (.leaseAuthorise 1 rec9) mgSt) (fun t => t.sec.ks.leases[0]? == some { st := 1, lease := 9, ide := true, quota := 40, tenantPub := [8], imagePub := [2] } && t.sec.ks.seqs == [(9, 1)] &&
    getF t (Reg.SEC_LEASE_STATE_SLOT 0) == 1 && t.out == [.mgmt 443 [0]] && t.ledger.length == 1) &&
  authB { mgSt with sec.ks.seqs := [(9, 1)] } rec9 0x23 0 && authB mgSt { rec9 with lease := 7 } 0x23 0 && authB mgSt { rec9 with lease := 0x10000 } 0x23 0 && authB { mgSt with boot.extended := true } rec9 0x10 0x1C &&
  authB { mgSt with sec.ks.leases := (List.range 16).map fun n => { st := 2, lease := n + 20 } } rec9 0x10 0x1A && authB mgSt { rec9 with byOwner := false } 0x23 0 = true := by decide +kernel
theorem test_lease_quota_end : (let r := { rec9 with lease := 7, ide := false, imagePub := [] }
  nextIs (exec (.leaseQuota 0 r) mgSt) (fun t => (t.sec.ks.leases.getD 2 {}).nextQuota == some (40, 12) && t.sec.ks.seqs == [(7, 1)]) &&
  nextIs (exec (.leaseQuota 0 { r with ide := true }) mgSt) (saidB mgSt 437 [0x23, 0]) && nextIs (exec (.leaseQuota 0 rec9) mgSt) (saidB mgSt 437 [0x23, 0]) &&
  nextIs (exec (.leaseEndRecord 2 { rec9 with lease := 7, byOwner := false, byTenant := true }) mgSt) (fun t => (t.sec.ks.leases.getD 2 {}).endStep == some 12) &&
  nextIs (exec (.leaseEndRecord 2 { rec9 with lease := 7, byOwner := false }) mgSt) (saidB mgSt 437 [0x23, 0]) && nextIs (exec (.leaseEndRecord 5 rec9) mgSt) (saidB mgSt 437 [0x23, 0])) = true := by decide +kernel
theorem test_lease_key : (let s := leaseSt 2 { st := 1, lease := 7, tenantPub := [8] } mgSt
  nextIs (exec (.installLeaseKey 2) s) (fun t => t.sec.ks.leases[2]? == some { st := 2, lease := 7, tenantPub := [8], keyed := true } && getF t (Reg.SEC_LEASE_STATE_SLOT 2) == 2) &&
  nextIs (exec (.installLeaseKey 2) mgSt) (saidB mgSt 437 [0x23, 0]) && nextIs (exec (.installLeaseKey 0) s) (saidB s 437 [0x23, 0])) = true := by decide +kernel
theorem test_port_binding : nextIs (exec (.portBind 2 .b) mgSt) (fun t => getF t (bindFld .b) == 4 && getF t (bindFld .a) == 0 && nextIs (exec (.portUnbind 2 .b) (setF t (bindFld .b) 5)) fun u => getF u (bindFld .b) == 1) &&
  nextIs (exec (.portBind 0 .b) mgSt) (saidB mgSt 437 [0x23, 0]) = true := by decide +kernel
theorem test_background_zeroise : (let s := { mgSt with sec.ks.erasing := [7], sec.ks.reports := [rep7] }
  nextIs (exec (.backgroundZeroiseDone 7) s) (fun t => t.sec.ks.erasing.isEmpty && t.sec.ks.reports == [{ rep7 with background := true }] && !getB t Reg.SEC_STATUS_ERASING) &&
  nextEq (exec (.backgroundZeroiseDone 8) s) s) = true := by decide +kernel

/-! ### Counters, the ledger's periodic records -/

theorem test_freeze : nextIs (exec (.freeze .a true) up) (fun t => getB t Reg.PMC_CTL_FREEZE && getB t Reg.PMC_CTL_FROZEN && nextIs (exec (.freeze .b false) { t with movesHeld := [(3, 2)] }) fun u =>
  !getB u Reg.PMC_CTL_FROZEN && u.movesHeld.isEmpty) = true := by decide +kernel
def pmSt : State := setFs [(Reg.PMC_COUNTER 4094, 9), (Reg.PMC_OVF 127, 2 ^ 30), (Reg.PMC_SNAP_RECORDS_RECORDS, 2), (Reg.PMC_SNAP_BASE_LO, 0x8000), (Reg.PMC_SNAP_STATUS_NEXT, 1), (Reg.PMC_SNAP_CTL_PERIOD, 5)] up
theorem test_snap : nextIs (exec (.snap .a) pmSt) (fun t => getB t Reg.PMC_SNAP_STATUS_BUSY && ((t.snp.run.map fun n => (n.cause, n.values)) == some (0, [(4094, 9 + 2 ^ 48)])) &&
  nextIs (exec (.snap .a) t) (fun u => getF u (Reg.PMC_COUNTER 0xEEE) == 1 && decide (u.snp = t.snp))) = true := by decide +kernel
theorem test_snap_period : nextIs (exec (.snapPeriod 5999) (setF pmSt Reg.PMC_SNAP_CTL_TRIG 1)) (fun t => (t.snp.run.map fun n => n.cause) == some 1 && t.snp.at0 == 5) &&
  nextIs (exec (.snapPeriod 7) { setF pmSt Reg.PMC_SNAP_CTL_TRIG 2 with snp.steps := 5 }) (fun t => (t.snp.run.map fun n => n.cause) == some 2 && t.snp.steps == 0) && nextEq (exec (.snapPeriod 9999) pmSt) pmSt = true := by decide +kernel
def sn0 : Snap := ⟨0, 1, 2, false, []⟩
theorem test_snapshot_done : (let s := { setF pmSt Reg.PMC_SNAP_STATUS_BUSY 1 with snp.run := some sn0 }
  snapOk s && nextIs (exec .snapshotDone s) (fun t => !getB t Reg.PMC_SNAP_STATUS_BUSY && getF t Reg.PMC_SNAP_STATUS_NEXT == 0 && t.snp.seq == s.snp.seq + 1 && t.snp.run.isNone) &&
  nextIs (exec .snapshotDone (setF s Reg.PMC_SNAP_RECORDS_RECORDS 0)) (fun t => getF t Reg.PMC_SNAP_STATUS_STATUS == 0x23 && t.snp.run.isNone) && nextEq (exec .snapshotDone pmSt) pmSt) = true := by decide +kernel
theorem test_snap_records : nextIs (exec (.snapRecordsWrite .a 256) pmSt) (fun t => getF t Reg.PMC_SNAP_RECORDS_RECORDS == 256 && getF t Reg.PMC_SNAP_STATUS_NEXT == 0) && nextEq (exec (.snapRecordsWrite .a 257) pmSt) pmSt &&
  nextEq (exec (.snapRecordsWrite .a 2) (setF pmSt Reg.PMC_LOCK_LOCK 1)) (setF pmSt Reg.PMC_LOCK_LOCK 1) = true := by decide +kernel
theorem test_sampling_enable : nextIs (exec (.samplingEnable .a 0x1000100) (cs (fun k => { k with smpCount := 9 }) 191 pmSt)) (fun t => getF t Reg.PMC_SMP_CTL_N == 256 && getB t Reg.PMC_SMP_CTL_EN && (coreGet t 191).smpCount == 0) &&
  nextIs (exec (.samplingEnable .a 0x100) (cs (fun k => { k with smpCount := 9 }) 191 pmSt)) (fun t => (coreGet t 191).smpCount == 9) && nextEq (exec (.samplingEnable .a 0x10000FF) pmSt) pmSt = true := by decide +kernel
theorem test_pmc_layer : nextIs (exec (.pmcLayerWrite .a 15 0x10007) up) (fun t => getF t (Reg.PMC_LAYER_LAYER 15) == 7 && getB t (Reg.PMC_LAYER_EN 15) && !getB t (Reg.PMC_LAYER_EN 14)) = true := by decide +kernel
theorem test_counter_wrap : nextIs (exec (.counterWrap 33 5) pmSt) (fun t => getF t (Reg.PMC_COUNTER 33) == 5 && getF t (Reg.PMC_OVF 1) == 2) &&
  nextIs (exec (.counterWrap 33 5) (setF pmSt (Reg.PMC_CHAIN 1) 2)) (fun t => getF t (Reg.PMC_COUNTER 33) == 5 && getF t (Reg.PMC_COUNTER 34) == 1 && getF t (Reg.PMC_OVF 1) == 0) &&
  nextEq (exec (.counterWrap 33 5) (setF pmSt (Reg.PMC_CHAIN 1) 1)) (setF pmSt (Reg.PMC_CHAIN 1) 1) && nextEq (exec (.counterWrap 33 5) (setF pmSt Reg.PMC_CTL_FROZEN 1)) (setF pmSt Reg.PMC_CTL_FROZEN 1) = true := by decide +kernel
theorem test_ledger_periodic : nextIs (exec (.ledgerPowerRecord 9) (setF { up with pwr.energyLogged := 3 } Reg.PWR_ENERGY 10)) (fun t => (t.ledger.map fun r => (r.type, r.body.head?)) == [(1, some (64, 7))] && t.pwr.energyLogged == 10 && t.pwr.capSum == (0, 0)) &&
  nextIs (exec (.ledgerIntegrityRecord 9) (setF up Reg.MEM_REPLAY 4)) (fun t => (t.ledger.map fun r => (r.type, r.body.getD 2 (0, 0))) == [(3, (64, 4))] && t.sec.integrity.getD 2 0 == 4) &&
  nextEq (exec (.ledgerPowerRecord 9) offSt) offSt && nextEq (exec (.ledgerIntegrityRecord 9) offSt) offSt = true := by decide +kernel


end Sys2Proof.Tests
end

