-- ==== Sys2Proof/Proofs/Keeps.lean ====
section
/-!
SUPPORT. Proofs/Keeps.lean: operations that keep the canonical form of memory, registers and marks (R12, R28, R205,
R206) and leave the queue alone: the shapes meanings are built of, and the shared operations.
-/
namespace Sys2Proof.Machine

-- The lemmas are many and short: they are elaborated one after another, not each on a thread of its own.
set_option Elab.async false

theorem smCanon_foldl_smSet {α : Type} [DecidableEq α] {d v : α} {ks : List Nat} {m : List (Nat × α)}
    (h : smCanon d m = true) : smCanon d (ks.foldl (fun m k => smSet d m k v) m) = true := by
  induction ks generalizing m with
  | nil => exact h
  | cons k ks ih => exact ih (smCanon_smSet h)

/-- `t` is reached from `s` by operations that keep the canonical form (R12, R28, R205) and leave the queue alone. -/
structure Keeps (s t : State) : Prop where
  inv : s.Inv → t.Inv
  queue : t.pending = s.pending

/-- Whatever next state an outcome answers is reached from `s` so. -/
def KeepsNext (s : State) (r : Res) : Prop := ∀ t, r = .next t → Keeps s t

variable {s t u : State}

/-! ### The shapes that meanings are built of -/

namespace Keeps

@[refl] protected theorem rfl : Keeps s s := ⟨id, Eq.refl _⟩

/-- An update of other parts of the state. -/
protected theorem upd
    {latchA latchB accs cores engQ sashQ rr barriers portion suspended finals inbox lastStep experts boundaries extents
    ctxs pages prefs prefSeq clients cplHeld layerSlots ringRecs now refetch hardFails rewritten ready cardSerial
    cardSeated blockReads holdoffA holdoffB deferA deferB nvFault vflashLatched residueTimes ledger ledgerSeq movesHeld
    img clk pwr boot sec wts ctl fab mesh snp fresh out : _}
    (h : Keeps s t) :
    Keeps s { t with
      latchA := latchA, latchB := latchB, accs := accs, cores := cores, engQ := engQ, sashQ := sashQ, rr := rr,
      barriers := barriers, portion := portion, suspended := suspended, finals := finals, inbox := inbox, lastStep :=
      lastStep, experts := experts, boundaries := boundaries, extents := extents, ctxs := ctxs, pages := pages, prefs :=
      prefs, prefSeq := prefSeq, clients := clients, cplHeld := cplHeld, layerSlots := layerSlots, ringRecs := ringRecs,
      now := now, refetch := refetch, hardFails := hardFails, rewritten := rewritten, ready := ready, cardSerial :=
      cardSerial, cardSeated := cardSeated, blockReads := blockReads, holdoffA := holdoffA, holdoffB := holdoffB, deferA
      := deferA, deferB := deferB, nvFault := nvFault, vflashLatched := vflashLatched, residueTimes := residueTimes,
      ledger := ledger, ledgerSeq := ledgerSeq, movesHeld := movesHeld, img := img, clk := clk, pwr := pwr, boot :=
      boot, sec := sec, wts := wts, ctl := ctl, fab := fab, mesh := mesh, snp := snp, fresh := fresh, out := out } :=
  ⟨h.inv, h.queue⟩

/-- An update of memory, registers or marks that keeps each in its canonical form. -/
protected theorem ofParts (h : Keeps s t) (hm : Memory.wf t.mem = true → Memory.wf u.mem = true)
    (hf : smSorted t.flds = true → smSorted u.flds = true) (hk : smCanon false t.marks = true → smCanon false u.marks = true)
    (hq : u.pending = t.pending) : Keeps s u := by
  refine ⟨fun i => ?_, hq.trans h.queue⟩
  obtain ⟨im, jf, ik⟩ := h.inv i
  exact ⟨hm im, hf jf, hk ik⟩

protected theorem ite {c : Prop} [Decidable c] (h : Keeps s t) (g : Keeps s u) : Keeps s (if c then t else u) := by
  split
  · exact h
  · exact g

protected theorem iteBy {β : Type} (π : β → State) {c : Prop} [Decidable c] {x y : β} (h : Keeps s (π x))
    (g : Keeps s (π y)) : Keeps s (π (if c then x else y)) := by
  split
  · exact h
  · exact g

/-- A further operation under a condition. -/
protected theorem when {c : Prop} [Decidable c] (h : Keeps s t) (g : Keeps s t → Keeps s u) : Keeps s (if c then u else t) :=
  .ite (g h) h

protected theorem whenNot {c : Prop} [Decidable c] (h : Keeps s t) (g : Keeps s t → Keeps s u) : Keeps s (if c then t else u) :=
  .ite h (g h)

/-- One operation per element of a list; `π` is the state in what the operations pass on. -/
protected theorem foldlBy {α β : Type} (π : β → State) {f : β → α → β} {b : β} {l : List α} (h : Keeps s (π b))
    (hf : ∀ {b x}, Keeps s (π b) → Keeps s (π (f b x))) : Keeps s (π (l.foldl f b)) := by
  induction l generalizing b with
  | nil => exact h
  | cons x l ih => exact ih (hf h)

protected theorem foldl {α : Type} {f : State → α → State} {l : List α} (h : Keeps s t)
    (hf : ∀ {u x}, Keeps s u → Keeps s (f u x)) : Keeps s (l.foldl f t) := .foldlBy id h hf

/-- The same where an operation may answer nothing. -/
protected theorem foldlBind {α β : Type} (π : β → State) {f : α → β → Option β} {b c : β} {l : List α}
    (h : Keeps s (π b)) (hf : ∀ {a x y}, Keeps s (π x) → f a x = some y → Keeps s (π y))
    (e : l.foldl (fun acc a => acc.bind (f a)) (some b) = some c) : Keeps s (π c) := by
  induction l generalizing b with
  | nil =>
    obtain rfl := Option.some.inj e
    exact h
  | cons a l ih =>
    cases ea : f a b with
    | none =>
      have key (l : List α) : l.foldl (fun acc a => acc.bind (f a)) none = none := by induction l with
        | nil => rfl
        | cons a l ih => exact ih
      simp [ea, key] at e
    | some x => exact ih (hf h ea) (by simpa [ea] using e)

end Keeps

namespace KeepsNext

protected theorem next (h : Keeps s t) : KeepsNext s (.next t) := by
  rintro u ⟨⟩
  exact h

protected theorem refused {r : Refusal} : KeepsNext s (.refused r) := fun _ e => by cases e

protected theorem ite {c : Prop} [Decidable c] {x y : Res} (h : KeepsNext s x) (g : KeepsNext s y) :
    KeepsNext s (if c then x else y) := by
  split
  · exact h
  · exact g

end KeepsNext

/-! ### Registers, memory and marks -/

protected theorem Keeps.setP {p : Port} {f : Fld} {v : Nat} (h : Keeps s t) : Keeps s (setP t p f v) :=
  h.ofParts id smSorted_smSet id rfl

protected theorem Keeps.setF {f : Fld} {v : Nat} (h : Keeps s t) : Keeps s (setF t f v) := h.setP
protected theorem Keeps.setB {f : Fld} {b : Bool} (h : Keeps s t) : Keeps s (setB t f b) := h.setF
protected theorem Keeps.setBit {f : Fld} {i : Nat} {b : Bool} (h : Keeps s t) : Keeps s (setBit t f i b) := h.setF
protected theorem Keeps.bump {f : Fld} {n : Nat} (h : Keeps s t) : Keeps s (bump t f n) := h.setF
protected theorem Keeps.emit {o : Out} (h : Keeps s t) : Keeps s (emit t o) := h.upd
protected theorem Keeps.grantTo {resource n k : Nat} (h : Keeps s t) : Keeps s (grantTo t resource n k) := h.upd

protected theorem Keeps.pmcAdd {fuel e n : Nat} (h : Keeps s t) : Keeps s (pmcAdd fuel e n t) := by
  induction fuel generalizing e n t with
  | zero => exact h
  | succ k ih => exact .ite h.setF (.ite (ih h.setF) h.setF.setBit)

protected theorem Keeps.countEv {e n : Nat} (h : Keeps s t) : Keeps s (countEv e n t) := .ite h h.pmcAdd

protected theorem Keeps.pmcSub {fuel e n : Nat} (h : Keeps s t) : Keeps s (pmcSub fuel e n t) := by
  induction fuel generalizing e n t with
  | zero => exact h
  | succ k ih => exact .ite h.setF (.ite (ih h.setF) h.setF)

protected theorem Keeps.countSlot {c k : Nat} (h : Keeps s t) : Keeps s (countSlot c k t) := h.countEv
protected theorem Keeps.wasteSlots {c n : Nat} (h : Keeps s t) : Keeps s (wasteSlots c n t) :=
  .ite h (.ite h.upd h.pmcSub.countEv)
protected theorem Keeps.coreSet {c : Nat} {k : CoreSt} (h : Keeps s t) : Keeps s (coreSet t c k) := h.upd

protected theorem Keeps.setMark {g : Nat} {b : Bool} (h : Keeps s t) : Keeps s (setMark t g b) :=
  h.ofParts id id smCanon_smSet rfl

protected theorem Keeps.setMarks {gs : List Nat} {b : Bool} (h : Keeps s t) : Keeps s (setMarks t gs b) :=
  h.ofParts id id smCanon_foldl_smSet rfl

protected theorem Keeps.countGranules {a n k : Nat} (h : Keeps s t) : Keeps s (countGranules a n k t) :=
  .ite h.countEv h

protected theorem Keeps.putBytes {a : Nat} {bs : List Nat} (h : Keeps s t) : Keeps s (putBytes t a bs) := by
  unfold putBytes
  extract_lets +onlyGivenNames _ _ whole _ s1 s2
  have h1 : Keeps s s1 := h.ofParts Memory.wf_writeBytes id smCanon_foldl_smSet rfl
  have h2 : Keeps s s2 := h1.foldl (·.bump)
  exact h2.countGranules

protected theorem Keeps.putRuns {l : List (Nat × List Nat)} (h : Keeps s t) : Keeps s (putRuns t l) :=
  h.foldl (·.putBytes)

protected theorem Keeps.putBlock {a : Nat} {bs : List Nat} (h : Keeps s t) : Keeps s (putBlock t a bs) := by
  unfold putBlock
  exact .countGranules (h.ofParts Memory.wf_putBlock id smCanon_filter rfl)

protected theorem Keeps.zeroRange {a n : Nat} (h : Keeps s t) : Keeps s (zeroRange t a n) :=
  h.ofParts Memory.wf_filter id smCanon_filter rfl

protected theorem Keeps.viaPf0 {p : Port} {f : State → State} (h : Keeps s t) (hf : ∀ {u}, Keeps s u → Keeps s (f u)) :
    Keeps s (viaPf0 t p f) :=
  .ite (hf h) (.ite h.emit h)

protected theorem Keeps.atTime {time : Nat} (h : Keeps s t) : Keeps s (atTime time t) := (Keeps.ite h.countEv h).upd
protected theorem Keeps.countLayer {layer k n : Nat} (h : Keeps s t) : Keeps s (countLayer layer k n t) :=
  h.foldl (fun hu => .ite hu.countEv hu)
protected theorem Keeps.countFmt {layer : Nat} {ev : FmtEv} (h : Keeps s t) : Keeps s (countFmt layer ev t) :=
  .ite h ((h.foldl (·.bump.countLayer)).upd)

protected theorem Keeps.discardFmt {layer : Nat} (h : Keeps s t) : Keeps s (discardFmt layer t) := by
  unfold discardFmt
  split
  · exact h
  · exact .ite h (.upd (h.foldl fun hu => .foldl hu.setF (·.when (·.pmcSub))))

protected theorem Keeps.addPoison {src : PoisonSrc} (h : Keeps s t) : Keeps s (addPoison src t) := h.upd
protected theorem Keeps.addRecovered (h : Keeps s t) : Keeps s (addRecovered t) := h.upd
protected theorem Keeps.storeLocal {a : Nat} {bs : List Nat} (h : Keeps s t) : Keeps s (storeLocal t a bs) :=
  h.putBytes.foldl (·.addPoison)
protected theorem Keeps.storeRuns {l : List (Nat × List Nat)} (h : Keeps s t) : Keeps s (storeRuns t l) :=
  h.foldl (·.storeLocal)
protected theorem Keeps.localDetect {gs : List Nat} (h : Keeps s t) : Keeps s (localDetect gs t) :=
  h.foldl (·.bump.addPoison)
protected theorem Keeps.markVary (h : Keeps s t) : Keeps s (markVary t) := h.upd

end Sys2Proof.Machine
end

