-- ==== Sys2Proof/Proofs/KeepsCores.lean ====
section
/-!
SUPPORT. Proofs/KeepsCores.lean: the operations and commands of the cores, the distance table, the rings and the
experts keep the canonical form.
-/
namespace Sys2Proof.Machine

set_option Elab.async false

variable {s t u : State}

/-! ### Vectors -/

protected theorem Keeps.setHoldoff {p : Port} {b : Bool} (h : Keeps s t) : Keeps s (setHoldoff t p b) := by
  unfold setHoldoff
  split
  · exact h.upd
  · exact h.upd

protected theorem Keeps.setDeferred {p : Port} {b : Bool} (h : Keeps s t) : Keeps s (setDeferred t p b) := by
  unfold setDeferred
  split
  · exact h.upd
  · exact h.upd

protected theorem Keeps.sendVector {p : Port} {n : Nat} (h : Keeps s t) : Keeps s (sendVector p n t) :=
  .ite h (.ite (.ite h.setDeferred h.emit.setHoldoff) h.emit)
protected theorem Keeps.irq {p : Port} {n : Nat} (h : Keeps s t) : Keeps s (irq p n t) :=
  .ite h (h.setP.when (·.sendVector))
protected theorem Keeps.irqBoth {n : Nat} (h : Keeps s t) : Keeps s (irqBoth n t) := h.irq.irq
protected theorem Keeps.pf1Vector {p : Port} (h : Keeps s t) : Keeps s (pf1Vector p t) := .ite h.emit h
protected theorem Keeps.alert {f : Fld} (h : Keeps s t) : Keeps s (alert f t) :=
  .ite h h.setB.irqBoth.pf1Vector.pf1Vector.emit

/-! ### The ledger -/

protected theorem Keeps.ledgerPush {type : Nat} {body : List (Nat × Nat)} (h : Keeps s t) :
    Keeps s (ledgerPush type body t) :=
  h.upd

protected theorem Keeps.ledgerFold (h : Keeps s t) : Keeps s (ledgerFold t) := by
  unfold ledgerFold
  split
  · exact h
  · extract_lets +onlyGivenNames _ _
    split
    · exact .ite h h.ledgerPush.upd
    · exact h

protected theorem Keeps.ledgerAdd {type : Nat} {body : List (Nat × Nat)} (h : Keeps s t) :
    Keeps s (ledgerAdd type body t) :=
  h.ledgerPush.ledgerFold

protected theorem Keeps.ledgerFence {kind unit cause : Nat} (h : Keeps s t) : Keeps s (ledgerFence kind unit cause t) :=
  h.ledgerAdd
protected theorem Keeps.ledgerVault {kind vault : Nat} (h : Keeps s t) : Keeps s (ledgerVault kind vault t) :=
  h.ledgerAdd

protected theorem Keeps.ledgerSecurity {event component version : Nat} (h : Keeps s t) :
    Keeps s (ledgerSecurity event component version t) :=
  h.ledgerAdd

protected theorem Keeps.ledgerLease {lease kind step : Nat} (h : Keeps s t) : Keeps s (ledgerLease lease kind step t) :=
  h.ledgerAdd

/-! ### The distance table -/

protected theorem Keeps.writeDist (h : Keeps s t) : Keeps s (writeDist t) := by
  unfold writeDist
  extract_lets
  split
  · exact h.putBlock
  · exact h

protected theorem Keeps.distRewrite (h : Keeps s t) : Keeps s (distRewrite t) := .ite h.setF.writeDist h

/-! ### The rating and changes of the configuration -/

protected theorem Keeps.rate (h : Keeps s t) : Keeps s (rate t) := h.setF.setF.setF.setF.setF

protected theorem Keeps.configChange {f : State → State} (h : Keeps s t) (hf : ∀ {u}, Keeps s u → Keeps s (f u)) :
    Keeps s (configChange f t) :=
  .ite ((hf h.setF).setF) (hf h)

protected theorem Keeps.shutterCore {c cause : Nat} (h : Keeps s t) : Keeps s (shutterCore c cause t) :=
  .ite h ((h.configChange (·.setBit.rate)).setBit.upd.distRewrite.ledgerFence)
protected theorem Keeps.retireVault {v : Nat} (h : Keeps s t) : Keeps s (retireVault v t) :=
  .ite h ((h.setF.configChange (·.setBit.rate)).upd.distRewrite.ledgerVault)
protected theorem Keeps.applyPending (h : Keeps s t) : Keeps s (applyPending t) :=
  (h.foldl (fun hu => .ite hu.shutterCore hu)).foldl (fun hu => .ite hu.retireVault hu)

/-! ### The rings -/

protected theorem Keeps.setRingOffsets {r : Ring} {l : List Nat} (h : Keeps s t) : Keeps s (setRingOffsets t r l) :=
  h.upd
protected theorem Keeps.putDev {a : Nat} {bs : List Nat} (h : Keeps s t) : Keeps s (putDev t a bs) := .ite h.putBytes h
protected theorem Keeps.ringPut {r : Ring} {bs : List Nat} (h : Keeps s t) : Keeps s (ringPut r bs t) :=
  .ite h (.ite ((Keeps.ite h h.putDev).putDev.setF.setRingOffsets.whenNot (·.irqBoth)) h.bump)
protected theorem Keeps.ringEnable {r : Ring} {en : Bool} (h : Keeps s t) : Keeps s (ringEnable r en t) :=
  (h.setB.when (·.setF.setF.setRingOffsets)).setB
protected theorem Keeps.ringTail {r : Ring} {v : Nat} (h : Keeps s t) : Keeps s (ringTail r v t) :=
  .ite h.setF.setRingOffsets h

/-! ### Experts -/

protected theorem Keeps.setExtent {x : Nat} {e : Extent} (h : Keeps s t) : Keeps s (setExtent t x e) := h.upd

protected theorem Keeps.demote {x : Nat} (h : Keeps s t) : Keeps s (demote x t) := by
  unfold demote
  split
  · exact h.setExtent
  · exact h

protected theorem Keeps.setExpert {x y : ExpertSt} (h : Keeps s t) : Keeps s (setExpert x y t) := h.upd
protected theorem Keeps.startFetch {x : ExpertSt} (h : Keeps s t) : Keeps s (startFetch x t) := h.setExpert.upd
protected theorem Keeps.demoteExpert {x : ExpertSt} (h : Keeps s t) : Keeps s (demoteExpert x t) :=
  h.setExpert.foldl (·.demote)

protected theorem Keeps.requestFetch {slot layer e : Nat} (h : Keeps s t) : Keeps s (requestFetch slot layer t e) := by
  unfold requestFetch
  split
  · exact h
  · split
    · exact h
    · split
      · exact h.startFetch
      · split
        · exact h.demoteExpert.startFetch
        · exact h.setExpert

protected theorem Keeps.serveWaiting (h : Keeps s t) : Keeps s (serveWaiting t) := h.foldl (·.requestFetch)

protected theorem Keeps.releaseHeld {step : Nat} {of : ExpertSt → Bool} (h : Keeps s t) :
    Keeps s (releaseHeld step of t) :=
  h.upd

protected theorem Keeps.releaseStepHolds {step : Nat} (h : Keeps s t) : Keeps s (releaseStepHolds step t) :=
  h.releaseHeld.serveWaiting

/-! ### The sequencer of a core -/

protected theorem Keeps.writeSample {c : Nat} {aborted : Bool} {latency : Nat} (h : Keeps s t) :
    Keeps s (writeSample c aborted latency t) := by
  unfold writeSample
  extract_lets +onlyGivenNames _
  split
  · exact h
  · exact h.coreSet.ringPut

protected theorem Keeps.sampleIssue {i : Ins} {o : OpId} {layerField : Bool} {stall : Nat} (h : Keeps s t) :
    Keeps s (sampleIssue i o layerField stall t) := by
  unfold sampleIssue
  split
  · exact h
  · extract_lets +onlyGivenNames _
    split
    · exact h.coreSet
    · split
      · exact h.coreSet.countEv
      · exact h.coreSet

protected theorem Keeps.stalled {c cause : Nat} (h : Keeps s t) : Keeps s (stalled c cause t) := h.coreSet.countSlot

protected theorem Keeps.issued {i : Ins} {u : Option XUnit} {o : OpId} {layerField : Bool} (h : Keeps s t) :
    Keeps s (issued i u o layerField t) := by
  unfold issued
  extract_lets +onlyGivenNames _ _ _ s2
  have h2 : Keeps s s2 := h.coreSet.countSlot.sampleIssue.when (·.markVary)
  split
  · exact h2
  · exact h2.when (·.writeSample)

protected theorem Keeps.issueWith {i : Ins} {u : Option XUnit} {o : OpId} {layerField : Bool} {eff : State → State}
    (h : Keeps s t) (heff : ∀ {u}, Keeps s u → Keeps s (eff u)) : Keeps s (issueWith i u o layerField eff t) := by
  unfold issueWith
  split
  · exact h
  · split
    · exact h.stalled
    · exact heff h.issued

protected theorem Keeps.complete {c : Nat} {u : XUnit} {index latency : Nat} (h : Keeps s t) :
    Keeps s (complete c u index latency t) :=
  .ite (h.coreSet.when (·.writeSample)) h

protected theorem Keeps.lastFault {c cause layer : Nat} (h : Keeps s t) : Keeps s (lastFault c cause layer t) :=
  h.setF.setF.setF.irqBoth
protected theorem Keeps.raiseTrap {c layer : Nat} (h : Keeps s t) : Keeps s (raiseTrap c layer t) :=
  (Keeps.ite h.discardFmt.countFmt h).upd.lastFault.emit
protected theorem Keeps.discardIns {c : Nat} {p : Nat → Bool} (h : Keeps s t) : Keeps s (discardIns c p t) :=
  h.coreSet.wasteSlots.upd.when (·.writeSample)
protected theorem Keeps.discardCore {c : Nat} (h : Keeps s t) : Keeps s (discardCore c t) := h.discardIns

protected theorem KeepsNext.execTrapMessage {core : Fin 192} {layer : Nat} (h : Keeps s t) :
    KeepsNext s (execTrapMessage core layer t) :=
  .next (.ite h h.discardIns.coreSet)

protected theorem KeepsNext.execTrapDrainDone {core : Fin 192} {entry : Nat} (h : Keeps s t) :
    KeepsNext s (execTrapDrainDone core entry t) := by
  unfold execTrapDrainDone
  refine .next ?_
  split
  · exact .ite h.coreSet h
  · exact h

protected theorem KeepsNext.execNop {i : Ins} (h : Keeps s t) : KeepsNext s (execNop i t) := .next (h.issueWith id)

protected theorem KeepsNext.execLoop {i : Ins} {target : Nat} {taken : Bool} (h : Keeps s t) :
    KeepsNext s (execLoop i target taken t) :=
  .next (h.issueWith (fun hu => .ite hu.coreSet hu))

protected theorem KeepsNext.execBranch {i : Ins} {target : Nat} {taken : Bool} (h : Keeps s t) :
    KeepsNext s (execBranch i target taken t) :=
  .next (h.issueWith (fun hu => .ite hu.coreSet hu))

protected theorem KeepsNext.execFallbackEntry {i : Ins} (h : Keeps s t) : KeepsNext s (execFallbackEntry i t) :=
  .next (h.issueWith id)
protected theorem Keeps.setReached {k : Nat} {l : List Nat} (h : Keeps s t) : Keeps s (setReached t k l) := h.upd
protected theorem Keeps.releaseLayer {layer : Nat} (h : Keeps s t) : Keeps s (releaseLayer layer t) :=
  h.releaseHeld.serveWaiting

protected theorem Keeps.endLayer {c layer : Nat} (h : Keeps s t) : Keeps s (endLayer c layer t) := by
  unfold endLayer
  extract_lets +onlyGivenNames _ _
  split
  · exact h.coreSet
  · exact .ite h.coreSet.setReached.releaseLayer h.coreSet.setReached

protected theorem KeepsNext.execEndLayer {i : Ins} (h : Keeps s t) : KeepsNext s (execEndLayer i t) :=
  .next (h.issueWith (·.endLayer))
protected theorem KeepsNext.execEndStep {i : Ins} (h : Keeps s t) : KeepsNext s (execEndStep i t) :=
  .next (h.issueWith (fun hu => .ite hu hu.setReached))

protected theorem KeepsNext.execWait {i : Ins} {units count : Nat} (h : Keeps s t) :
    KeepsNext s (execWait i units count t) :=
  .ite .refused (.next (.ite h.stalled (h.issueWith id)))

protected theorem KeepsNext.execBarrier {i : Ins} (h : Keeps s t) : KeepsNext s (execBarrier i t) := by
  unfold execBarrier
  refine .next ?_
  split
  · exact h.issueWith id
  · split
    · exact h.issueWith id
    · exact .ite (h.setReached.issueWith id) (.ite (h.setReached.setReached.issueWith id) h.setReached.stalled)

protected theorem KeepsNext.execInstructionComplete {core : Fin 192} {unit : XUnit} {index latency : Nat}
    (h : Keeps s t) : KeepsNext s (execInstructionComplete core unit index latency t) :=
  .next (.ite h h.complete)

protected theorem KeepsNext.execPreemptionPost {cores : List (Fin 192)} (h : Keeps s t) :
    KeepsNext s (execPreemptionPost cores t) :=
  .next (.ite (h.foldl (fun hu => .ite hu hu.coreSet)) h)

protected theorem KeepsNext.execCheapPointSave {core : Fin 192} {index lrIndex : Nat} (h : Keeps s t) :
    KeepsNext s (execCheapPointSave core index lrIndex t) := by
  unfold execCheapPointSave
  extract_lets +onlyGivenNames _
  refine .next ?_
  split
  · extract_lets +onlyGivenNames _ _ _ _ _ s1 _
    have h1 : Keeps s s1 := h.localDetect.coreSet
    split
    · exact h1.whenNot (·.upd.countEv)
    · exact h1
  · exact h

protected theorem KeepsNext.execPreemptResume {core : Fin 192} (h : Keeps s t) :
    KeepsNext s (execPreemptResume core t) := by
  unfold execPreemptResume
  extract_lets +onlyGivenNames _
  refine .next ?_
  split
  · split
    · exact h
    · extract_lets +onlyGivenNames _ _ s3
      have h3 : Keeps s s3 := h.putRuns.setMarks.upd.coreSet
      split
      · exact h3.upd
      · exact h3
  · exact h

/-! ### Matrix instructions -/

protected theorem Keeps.accInto {c layer row col : Nat} {k : Contrib} (h : Keeps s t) :
    Keeps s (accInto c layer row col k t) :=
  (h.upd.when (·.upd)).when (·.bump.lastFault.addPoison)

protected theorem Keeps.passAdd {c : Nat} {p : Pass} (h : Keeps s t) : Keeps s (passAdd c p t) := h.foldl (·.accInto)
protected theorem Keeps.passPoison {c : Nat} {p : Pass} (h : Keeps s t) : Keeps s (passPoison c p t) := h.upd

protected theorem Keeps.accApply {c : Nat} {op : AccOp} (h : Keeps s t) : Keeps s (accApply c op t) := by
  unfold accApply
  split
  · exact h.upd
  · exact .ite h (.ite h.raiseTrap (h.storeRuns.countFmt.when (·.addPoison)))
  · exact h.storeLocal
  · exact h.localDetect.accInto.when (·.upd)

protected theorem Keeps.mxDrain {c : Nat} {q : List MxItem} (h : Keeps s t) : Keeps s (mxDrain c q t) := by
  induction q generalizing t with
  | nil => exact h.coreSet
  | cons x q ih =>
    cases x with
    | pass p => exact h.coreSet
    | acc i op => exact ih h.accApply

protected theorem Keeps.queuePass {i : Ins} {place : Nat} {p : Pass} (h : Keeps s t) :
    Keeps s (queuePass i place p t) :=
  h.issueWith (·.coreSet)

protected theorem KeepsNext.execMma {i : Ins} {aGranule wGranule row mMinus1 : Nat} {wfmt : WFmt} (h : Keeps s t) :
    KeepsNext s (execMma i aGranule wGranule row mMinus1 wfmt t) :=
  .ite (.next h.queuePass) .refused

protected theorem KeepsNext.execMmaX {i : Ins} {aGranule wGranule row mMinus1 : Nat} (h : Keeps s t) :
    KeepsNext s (execMmaX i aGranule wGranule row mMinus1 t) :=
  .ite (.next h.queuePass) .refused

protected theorem KeepsNext.execMmaF16 {i : Ins} {aGranule wGranule row mMinus1 : Nat} {wfmt : WFmt} (h : Keeps s t) :
    KeepsNext s (execMmaF16 i aGranule wGranule row mMinus1 wfmt t) :=
  .ite (.next h.queuePass) .refused

protected theorem Keeps.passEnd {c : Nat} {p : Pass} {latency : Nat} (h : Keeps s t) :
    Keeps s (passEnd c p latency t) :=
  h.mxDrain.complete

protected theorem Keeps.passDetect {c : Nat} {p : Pass} (h : Keeps s t) : Keeps s (passDetect c p t) :=
  .ite h h.bump.bump.lastFault.addPoison

protected theorem KeepsNext.execMmaPassComplete {core : Fin 192} {mismatch : Bool} {latency : Nat} (h : Keeps s t) :
    KeepsNext s (execMmaPassComplete core mismatch latency t) := by
  unfold execMmaPassComplete
  refine .next ?_
  split
  · split
    · exact h
    · extract_lets +onlyGivenNames _ _ s1
      have h1 : Keeps s s1 := h.passDetect.countEv.countEv.countEv.whenNot (·.countFmt)
      exact .ite h1.bump.lastFault.coreSet h1.passAdd.passEnd
  · exact h

protected theorem Keeps.residuePoisonAt {c time : Nat} (h : Keeps s t) : Keeps s (residuePoisonAt c time t) :=
  h.upd.when (·.whenNot (·.setBit.ledgerFence.setF.setF.setF.irqBoth))
protected theorem Keeps.fenceUnmapped {c : Nat} (h : Keeps s t) : Keeps s (fenceUnmapped c t) := .ite h.shutterCore h

protected theorem KeepsNext.execResidueRerunComplete {core : Fin 192} {mismatch : Bool} {latency time : Nat}
    (h : Keeps s t) : KeepsNext s (execResidueRerunComplete core mismatch latency time t) := by
  unfold execResidueRerunComplete
  refine .next ?_
  split
  · exact .ite h (.ite h.passAdd.passPoison.bump.lastFault.residuePoisonAt.addPoison.passEnd.fenceUnmapped h.passAdd.passEnd)
  · exact h

protected theorem Keeps.queueAcc {i : Ins} {place : Nat} {op : AccOp} (h : Keeps s t) :
    Keeps s (queueAcc i place op t) :=
  h.issueWith (fun hu => .ite hu.accApply hu.coreSet)

protected theorem KeepsNext.execAccZero {i : Ins} {row m : Nat} (h : Keeps s t) : KeepsNext s (execAccZero i row m t) :=
  .ite (.next h.queueAcc) .refused

protected theorem KeepsNext.execAccConvert {i : Ins} {row m : Nat} {fmt : ConvFmt} {ctl dst elem0 : Nat}
    {coords : List RowCoord} (h : Keeps s t) : KeepsNext s (execAccConvert i row m fmt ctl dst elem0 coords t) :=
  .ite (.next h.queueAcc) .refused

protected theorem KeepsNext.execAccExport {i : Ins} {row col dst : Nat} (h : Keeps s t) :
    KeepsNext s (execAccExport i row col dst t) :=
  .ite (.next h.queueAcc) .refused

protected theorem KeepsNext.execAccImport {i : Ins} {row col src : Nat} (h : Keeps s t) :
    KeepsNext s (execAccImport i row col src t) :=
  .ite (.next h.queueAcc) .refused

protected theorem KeepsNext.execVecOp {i : Ins} {fn : VecFn} {lanes dst src1 src2 src3 : Nat} (h : Keeps s t) :
    KeepsNext s (execVecOp i fn lanes dst src1 src2 src3 t) :=
  .next (h.issueWith (·.localDetect.storeLocal))

end Sys2Proof.Machine
end

