-- ==== Sys2Proof/Proofs/KeepsMemory.lean ====
section
/-!
SUPPORT. Proofs/KeepsMemory.lean: the operations and commands of memory, prefixes, engines, counters, contexts and
weight loads keep the canonical form.
-/
namespace Sys2Proof.Machine

set_option Elab.async false

variable {s t u : State}

/-! ### Prefixes -/

protected theorem Keeps.dropPages {ps : List Nat} (h : Keeps s t) : Keeps s (dropPages ps t) := h.upd

protected theorem Keeps.writeChildren {parentAddr arr : Nat} {kids : List (Nat × Pref)} (h : Keeps s t) :
    Keeps s (writeChildren t parentAddr arr kids) :=
  (h.foldl (·.putDev)).putDev

protected theorem Keeps.dropPref {id : Nat} (h : Keeps s t) : Keeps s (dropPref id t) := by
  unfold dropPref
  split
  · exact h
  · exact h.upd.dropPages.when (·.writeChildren)

/-! ### The tiers of memory -/

protected theorem Keeps.setCard {n st : Nat} (h : Keeps s t) : Keeps s (setCard n st t) :=
  .ite h (((h.setF.whenNot (·.configChange (·.setBit))).when (·.alert)).ledgerAdd)

protected theorem Keeps.cacheTouch {x : Nat} (h : Keeps s t) : Keeps s (cacheTouch x t) := by
  unfold cacheTouch
  split
  · extract_lets +onlyGivenNames s1
    have h1 : Keeps s s1 := h.setExtent
    split
    · split
      · exact h1.setExtent
      · split
        · exact h1.demote.setExtent
        · exact h1
    · exact h1
  · exact h

protected theorem Keeps.hardRead {g : Nat} {hostOk : Bool} {r : ReadRes} (h : Keeps s r.s) :
    Keeps s (hardRead g hostOk r).s := by
  unfold hardRead
  extract_lets +onlyGivenNames s1
  have h1 : Keeps s s1 := h.bump.setMark
  split
  · extract_lets +onlyGivenNames _
    split
    · exact h1
    · exact h1.addPoison
  · split
    · split
      · exact h1
      · exact h1.dropPref.addPoison
    · exact h1.addPoison

protected theorem Keeps.countBlock {g : Nat} (h : Keeps s t) : Keeps s (countBlock g t) := h.upd

protected theorem Keeps.readGranule {chk : List (Nat × Check)} {hostOk : Bool} {r : ReadRes} {g : Nat} (h : Keeps s r.s)
    : Keeps s (readGranule chk hostOk r g).s := by
  unfold readGranule
  extract_lets +onlyGivenNames _
  split
  · split
    · exact .ite h h.bump
    · exact h.addPoison
  · extract_lets +onlyGivenNames _ s0 _
    have h0 : Keeps s s0 := .ite ((Keeps.ite h.countBlock h).cacheTouch) h.countGranules
    split
    · exact h0
    · exact h0.bump.addRecovered
    · exact h0.hardRead

protected theorem Keeps.devRead {a n : Nat} {chk : List (Nat × Check)} {hostOk : Bool} (h : Keeps s t) :
    Keeps s (devRead t a n chk hostOk).s :=
  .foldlBy ReadRes.s h (·.readGranule)

protected theorem Keeps.deliver {dst src n : Nat} {bad : List Nat} (h : Keeps s t) :
    Keeps s (deliver t dst src n bad) :=
  h.storeLocal.setMarks

protected theorem Keeps.vaultHardFail {v time : Nat} (h : Keeps s t) : Keeps s (vaultHardFail v time t) :=
  h.upd.when (·.setF.ledgerVault.whenNot (·.retireVault))

protected theorem Keeps.refetchDeliver {ok : Bool} {r : Refetch} (h : Keeps s t) : Keeps s (refetchDeliver ok t r) := by
  unfold refetchDeliver
  split
  · exact h.deliver
  · exact h

protected theorem KeepsNext.execRefetchDone {granule : Nat} {fromFlash hostOk : Bool} {failsAgain : Option (Fin 32)} {time : Nat}
    (h : Keeps s t) : KeepsNext s (execRefetchDone granule fromFlash hostOk failsAgain time t) := by
  unfold execRefetchDone
  extract_lets +onlyGivenNames _
  refine .next ?_
  split
  · exact h
  · extract_lets +onlyGivenNames _ _ _ s0 s1 mine s2 s3
    have h0 : Keeps s s0 := h.atTime.upd
    have h1 : Keeps s s1 := .ite h0.bump (h0.when (·.bump))
    have h2 : Keeps s s2 := by
      unfold s2
      split
      · split
        · exact h1.setMark.addRecovered
        · exact h1.setMark
      · split
        · split
          · exact h1.addPoison
          · exact h1
        · split
          · refine .addPoison ?_
            split
            · exact h1.dropPref
            · exact h1
          · rw [id]
            split
            · exact h1.dropPref
            · exact h1
    have h3 : Keeps s s3 := h2.foldl (·.refetchDeliver)
    split
    · exact h3.setMark.vaultHardFail
    · exact h3

protected theorem KeepsNext.execScrubRead {addr : Nat} {check : Check} {failsAgain : Bool} {time : Nat} (h : Keeps s t)
    : KeepsNext s (execScrubRead addr check failsAgain time t) := by
  unfold execScrubRead
  extract_lets +onlyGivenNames _
  refine .next ?_
  split
  · exact h
  · extract_lets +onlyGivenNames s1
    have h1 : Keeps s s1 := h.atTime.bump
    exact (Keeps.ite h1.setMark.upd (.ite h1.putBytes h1.setMark)).when (·.vaultHardFail)

protected theorem Keeps.expertFollow (h : Keeps s t) : Keeps s (expertFollow t) := h.upd

protected theorem KeepsNext.execExtentFetchDone {extent : Nat} {ok : Bool} (h : Keeps s t) :
    KeepsNext s (execExtentFetchDone extent ok t) := by
  unfold execExtentFetchDone
  refine .next ?_
  split
  · exact .ite (.ite h.setExtent.expertFollow h.setExtent.addPoison) h
  · exact h

protected theorem KeepsNext.execFrameRelease {extent : Nat} (h : Keeps s t) :
    KeepsNext s (execFrameRelease extent t) := by
  unfold execFrameRelease
  refine .next ?_
  split
  · exact .ite h.setExtent h
  · exact h

protected theorem Keeps.cardLost {n : Nat} (h : Keeps s t) : Keeps s (cardLost n t) := h.upd

protected theorem Keeps.cardWearTo {n wear spare : Nat} {worn exhausted : Bool} (h : Keeps s t) :
    Keeps s (cardWearTo n wear spare worn exhausted t) := by
  unfold cardWearTo
  extract_lets +onlyGivenNames s1
  have h1 : Keeps s s1 := h.setF.setF
  exact .ite h1.setCard.cardLost (h1.when (·.setCard))

protected theorem KeepsNext.execFlashRelocate {card : Fin 2} {block wearPct sparePct : Nat} {worn exhausted : Bool}
    (h : Keeps s t) : KeepsNext s (execFlashRelocate card block wearPct sparePct worn exhausted t) :=
  .next (.ite h.bump.upd.cardWearTo h)

protected theorem KeepsNext.execFlashRefresh {card : Fin 2} {block wearPct sparePct : Nat} {worn exhausted : Bool}
    (h : Keeps s t) : KeepsNext s (execFlashRefresh card block wearPct sparePct worn exhausted t) :=
  .next (.ite h.bump.upd.cardWearTo h)

protected theorem KeepsNext.execWearLevel {card : Fin 2} {block wearPct sparePct : Nat} {worn exhausted : Bool}
    (h : Keeps s t) : KeepsNext s (execWearLevel card block wearPct sparePct worn exhausted t) :=
  .next (.ite h.upd.cardWearTo h)

protected theorem KeepsNext.execCardControllerFault {card : Fin 2} (h : Keeps s t) :
    KeepsNext s (execCardControllerFault card t) :=
  .next (.ite h h.setCard.cardLost)

protected theorem KeepsNext.execFlashRailShort {card : Fin 2} (h : Keeps s t) :
    KeepsNext s (execFlashRailShort card t) :=
  .next (h.upd.ledgerAdd.whenNot (·.setCard.cardLost))

protected theorem KeepsNext.execCardPulled {card : Fin 2} (h : Keeps s t) : KeepsNext s (execCardPulled card t) :=
  .next (h.upd.whenNot (·.setCard.cardLost))

protected theorem KeepsNext.execCardInserted {card : Fin 2} {serial wearPct sparePct : Nat} (h : Keeps s t) :
    KeepsNext s (execCardInserted card serial wearPct sparePct t) :=
  .next (.ite h.upd.setF.setF.setBit.setCard.setCard h)

protected theorem KeepsNext.execExtentRebuilt {extent : Nat} {hostOk : Bool} {failing : List Nat} (h : Keeps s t) :
    KeepsNext s (execExtentRebuilt extent hostOk failing t) := by
  unfold execExtentRebuilt
  extract_lets +onlyGivenNames _
  refine .next ?_
  split
  · split
    · extract_lets +onlyGivenNames s1
      have h1 : Keeps s s1 := h.setExtent.setCard
      exact .ite h1.setMarks h1.bump
    · exact h
  · exact h

protected theorem KeepsNext.execCardRebuildDone {card : Fin 2} (h : Keeps s t) :
    KeepsNext s (execCardRebuildDone card t) :=
  .next (.ite h.setCard h)

protected theorem KeepsNext.execPrepareRemove {p : Port} {card : Fin 2} (h : Keeps s t) :
    KeepsNext s (execPrepareRemove p card t) :=
  .next (h.viaPf0 (fun hu => .ite hu.setF hu.setF.setCard.cardLost.setBit))

protected theorem KeepsNext.execCardCancel {p : Port} {card : Fin 2} (h : Keeps s t) :
    KeepsNext s (execCardCancel p card t) :=
  .next (h.viaPf0 (fun hu => .ite hu.setF.setBit.setCard hu.setF))

/-! ### Engines -/

protected theorem Keeps.setEngQueue {half : Half} {e : Engine} {q : List EngCmd} (h : Keeps s t) :
    Keeps s (setEngQueue t half e q) :=
  h.upd

protected theorem Keeps.engEnqueue {half : Half} {e : Engine} {c : EngCmd} (h : Keeps s t) :
    Keeps s (engEnqueue half e c t) :=
  h.setEngQueue.grantTo

protected theorem KeepsNext.execEngRequest {i : Ins} {engine : Engine} {half : Half} {granule : Nat} (h : Keeps s t) :
    KeepsNext s (execEngRequest i engine half granule t) :=
  .next (.ite h.stalled (h.issueWith (·.engEnqueue)))

protected theorem Keeps.engFault {half : Half} {engine cause layer : Nat} (h : Keeps s t) :
    Keeps s (engFault half engine cause layer t) :=
  h.setF.setF.setF.setF.irqBoth

protected theorem Keeps.engPut {a : Nat} {bs : List Nat} (h : Keeps s t) : Keeps s (engPut t a bs) :=
  .ite h.storeLocal (.ite h.storeLocal h)
protected theorem Keeps.engPutRuns {l : List (Nat × List Nat)} (h : Keeps s t) : Keeps s (engPutRuns t l) :=
  h.foldl (·.engPut)

protected theorem Keeps.engIn {chk : List (Nat × Check)} {hostOk : Bool} {o : Opnd} {r : Nat × Nat} (h : Keeps s o.s) :
    Keeps s (engIn chk hostOk o r).s := by
  unfold engIn
  split
  · exact h.bump
  · split
    · exact h.devRead.upd
    · exact h

protected theorem Keeps.engInputs {chk : List (Nat × Check)} {hostOk : Bool} {rs : List (Nat × Nat)} (h : Keeps s t) :
    Keeps s (engInputs chk hostOk rs t).s :=
  .foldlBy Opnd.s h (·.engIn)

protected theorem Keeps.engDetect {half : Half} {e : Engine} {layer : Nat} {bad : List Nat} (h : Keeps s t) :
    Keeps s (engDetect half e layer bad t) :=
  .ite h h.bump.engFault.addPoison

protected theorem Keeps.countAgain {c : EngCmd} {eff : State → EngRes} (h : Keeps s t)
    (heff : ∀ {u}, Keeps s u → Keeps s (eff u).s) : Keeps s (countAgain c eff t).s := by
  unfold countAgain
  split
  · split
    · exact (heff h.upd).upd
    · exact heff h
  · exact heff h

protected theorem Keeps.runEngine {half : Half} {e : Engine} {op : Nat} {ok : State → Nat → Bool}
    {deny : Nat → State → State} {eff : EngCmd → Nat → State → EngRes} (h : Keeps s t) (hdeny : ∀ {a u}, Keeps s u → Keeps s (deny a u))
    (heff : ∀ {c a u}, Keeps s u → Keeps s (eff c a u).s) : Keeps s (runEngine half e op ok deny eff t) := by
  unfold runEngine
  split
  · exact h
  · extract_lets +onlyGivenNames _
    split
    · exact h
    · extract_lets +onlyGivenNames s0 r
      have h0 : Keeps s s0 := .ite h.markVary h
      have hr (x : EngRes) (ex : r = x) : Keeps s x.s := by
        unfold r at ex
        split at ex
        · exact ex ▸ (hdeny h0).bump.engDetect.addPoison
        · split at ex
          · exact ex ▸ (hdeny h0).addPoison
          · exact ex ▸ h0.countAgain (fun hu => heff hu)
      exact (hr r rfl).setEngQueue

protected theorem Keeps.engineDone {half : Half} {e : Engine} {latency : Nat} (h : Keeps s t) :
    Keeps s (engineDone half e latency t) := by
  unfold engineDone
  extract_lets +onlyGivenNames _
  split
  · exact h
  · split
    · exact h.storeLocal.setEngQueue.complete
    · exact .ite h h.addPoison.storeLocal.setEngQueue.complete

protected theorem KeepsNext.execEngineCommandDone {half : Half} {engine : Engine} {latency : Nat} (h : Keeps s t) :
    KeepsNext s (execEngineCommandDone half engine latency t) :=
  .next h.engineDone

protected theorem Keeps.engConvDone {half : Half} {e : Engine} {c : EngCmd} {o : ConvOut} (h : Keeps s t) :
    Keeps s (engConvDone half e c o t) :=
  .ite h (.ite h.raiseTrap (h.engPutRuns.countFmt.when (·.addPoison)))

protected theorem Keeps.smEffect {half : Half} {chk : List (Nat × Check)} {hostOk : Bool} {c : EngCmd} {a : Nat}
    (h : Keeps s t) : Keeps s (smEffect half chk hostOk c a t).s := by
  unfold smEffect
  extract_lets +onlyGivenNames _ _ _ s1
  have h1 : Keeps s s1 := h.engInputs.engDetect
  split
  · exact h1.engPutRuns
  · exact h1.engPutRuns
  · exact h1.engConvDone

protected theorem KeepsNext.execSoftmax {half : Half} {chk : List (Nat × Check)} {hostOk : Bool} (h : Keeps s t) :
    KeepsNext s (execSoftmax half chk hostOk t) :=
  .next (h.runEngine id (·.smEffect))

protected theorem Keeps.normEffect {layerNorm : Bool} {half : Half} {chk : List (Nat × Check)} {hostOk : Bool}
    {c : EngCmd} {a : Nat} (h : Keeps s t) : Keeps s (normEffect layerNorm half chk hostOk c a t).s :=
  h.engInputs.engDetect.engConvDone

protected theorem KeepsNext.execRmsnorm {half : Half} {chk : List (Nat × Check)} {hostOk : Bool} (h : Keeps s t) :
    KeepsNext s (execRmsnorm half chk hostOk t) :=
  .next (h.runEngine id (·.normEffect))

protected theorem KeepsNext.execLayernorm {half : Half} {chk : List (Nat × Check)} {hostOk : Bool} (h : Keeps s t) :
    KeepsNext s (execLayernorm half chk hostOk t) :=
  .next (h.runEngine id (·.normEffect))

protected theorem Keeps.rotEffect {half : Half} {chk : List (Nat × Check)} {hostOk : Bool} {c : EngCmd} {a : Nat}
    (h : Keeps s t) : Keeps s (rotEffect half chk hostOk c a t).s := by
  unfold rotEffect
  extract_lets +onlyGivenNames _ _ _ s1
  have h1 : Keeps s s1 := h.engInputs.engDetect
  split
  · exact h1.engPutRuns
  · exact h1.engConvDone

protected theorem KeepsNext.execRotate {half : Half} {chk : List (Nat × Check)} {hostOk : Bool} (h : Keeps s t) :
    KeepsNext s (execRotate half chk hostOk t) :=
  .next (h.runEngine id (·.rotEffect))

protected theorem Keeps.setSpans {ctx : Nat} {f : List (Nat × SpanEnt) → List (Nat × SpanEnt)} (h : Keeps s t) :
    Keeps s (setSpans ctx f t) :=
  h.upd

protected theorem Keeps.syncTable {ctx : Nat} (h : Keeps s t) : Keeps s (syncTable ctx t) := by
  unfold syncTable
  split
  · exact h
  · exact h.foldl (·.putDev)

protected theorem Keeps.appEffect {half : Half} {chk : List (Nat × Check)} {hostOk : Bool} {c : EngCmd} {a : Nat}
    (h : Keeps s t) : Keeps s (appEffect half chk hostOk c a t).s :=
  h.engInputs.engDetect.engConvDone.setSpans.syncTable

protected theorem KeepsNext.execAppend {half : Half} {chk : List (Nat × Check)} {hostOk : Bool} (h : Keeps s t) :
    KeepsNext s (execAppend half chk hostOk t) :=
  .next (h.runEngine id (·.appEffect))

/-! ### Sampling -/

protected theorem Keeps.keepReturn {r : RetReq} (h : Keeps s t) : Keeps s (keepReturn r t) := h.upd
protected theorem Keeps.popNoToken {verify : Bool} {a : Nat} (h : Keeps s t) : Keeps s (popNoToken verify a t) :=
  h.engPut
protected theorem Keeps.noToken0 {a : Nat} (h : Keeps s t) : Keeps s (noToken0 a t) := h.keepReturn
protected theorem Keeps.popDeny {verify : Bool} {a : Nat} (h : Keeps s t) : Keeps s (popDeny verify a t) :=
  (Keeps.ite h.popNoToken h).noToken0

protected theorem Keeps.sampleEffect {half : Half} {chk : List (Nat × Check)} {hostOk : Bool} {c : EngCmd} {a : Nat}
    (h : Keeps s t) : Keeps s (sampleEffect half chk hostOk c a t).s := by
  unfold sampleEffect
  extract_lets +onlyGivenNames _ _ _ s2 _
  have h2 : Keeps s s2 := h.engInputs.engDetect.when (·.upd)
  split
  · exact (h2.when (·.addPoison)).engPut.keepReturn
  · exact h2.engPut.keepReturn

protected theorem KeepsNext.execSample {half : Half} {chk : List (Nat × Check)} {hostOk : Bool} (h : Keeps s t) :
    KeepsNext s (execSample half chk hostOk t) :=
  .next (h.runEngine (·.popDeny) (·.sampleEffect))

protected theorem Keeps.verifyEffect {half : Half} {chk : List (Nat × Check)} {hostOk : Bool} {c : EngCmd} {a : Nat}
    (h : Keeps s t) : Keeps s (verifyEffect half chk hostOk c a t).s :=
  ((h.engInputs.engDetect.when (·.upd)).engPut.when (·.addPoison)).keepReturn

protected theorem KeepsNext.execVerify {half : Half} {chk : List (Nat × Check)} {hostOk : Bool} (h : Keeps s t) :
    KeepsNext s (execVerify half chk hostOk t) :=
  .next (h.runEngine (·.popDeny) (·.verifyEffect))

protected theorem Keeps.walkReread {chk : List (Nat × Check)} {w : WalkOut} (h : Keeps s t) :
    Keeps s (walkReread chk w t) :=
  h.foldl (·.bump.addRecovered)

protected theorem Keeps.walkEffect {half : Half} {chk : List (Nat × Check)} {c : EngCmd} {a : Nat} (h : Keeps s t) :
    Keeps s (walkEffect half chk c a t).s :=
  (h.engInputs.engDetect.walkReread.whenNot (·.bump.bump.engFault)).engPut

protected theorem KeepsNext.execWalk {half : Half} {chk : List (Nat × Check)} (h : Keeps s t) :
    KeepsNext s (execWalk half chk t) :=
  .next (h.runEngine id (·.walkEffect))

/-! ### Walking and routing -/

protected theorem Keeps.holdExperts {slot layer step : Nat} {es : List Nat} (h : Keeps s t) :
    Keeps s (holdExperts slot layer step es t) :=
  h.upd

protected theorem Keeps.keepRoute {r : RouteRec} (h : Keeps s t) : Keeps s (keepRoute r t) := h.upd

protected theorem Keeps.routeEffect {half : Half} {chk : List (Nat × Check)} {hostOk : Bool} {c : EngCmd} {a : Nat}
    (h : Keeps s t) : Keeps s (routeEffect half chk hostOk c a t).s :=
  (h.engInputs.engDetect.engPut.engPut.engPut.holdExperts.foldl (·.requestFetch)).keepRoute.when (·.addPoison)

protected theorem KeepsNext.execRoute {half : Half} {chk : List (Nat × Check)} {hostOk : Bool} (h : Keeps s t) :
    KeepsNext s (execRoute half chk hostOk t) :=
  .next (h.runEngine id (·.routeEffect))

protected theorem Keeps.promoteFrom {hyst left : Nat} {l : List ExpertSt} (h : Keeps s t) :
    Keeps s (promoteFrom hyst left l t) := by
  induction left generalizing l t with
  | zero => exact h
  | succ n ih =>
    cases l with
    | nil => exact h
    | cons c l =>
      unfold promoteFrom
      split
      · exact ih h.startFetch
      · split
        · exact .ite (ih h.demoteExpert.startFetch) h
        · exact h

protected theorem KeepsNext.execExpertPromotion (h : Keeps s t) : KeepsNext s (execExpertPromotion t) := by
  unfold execExpertPromotion
  refine .next ?_
  split
  · exact h
  · exact .ite h h.promoteFrom

protected theorem Keeps.noteStopped {c : EngCmd} (h : Keeps s t) : Keeps s (noteStopped c t) := h.upd

protected theorem KeepsNext.execEngineWatchdog {half : Half} {engine : Engine} (h : Keeps s t) :
    KeepsNext s (execEngineWatchdog half engine t) := by
  unfold execEngineWatchdog
  refine .next ?_
  split
  · exact h
  · exact (h.engPutRuns.when (·.noToken0)).bump.engFault.addPoison.noteStopped.setEngQueue

/-! ### Counters and snapshots -/

protected theorem Keeps.applyMoves (h : Keeps s t) : Keeps s (applyMoves t) := (h.upd.foldl (·.wasteSlots))
protected theorem KeepsNext.execFreeze {p : Port} {on : Bool} (h : Keeps s t) : KeepsNext s (execFreeze p on t) :=
  .next (h.viaPf0 (·.setB.setB.when (·.applyMoves)))
protected theorem Keeps.startSnap {cause : Nat} (h : Keeps s t) : Keeps s (startSnap cause t) :=
  .ite h.countEv h.setF.upd
protected theorem KeepsNext.execSnap {p : Port} (h : Keeps s t) : KeepsNext s (execSnap p t) :=
  .next (h.viaPf0 (·.startSnap))
protected theorem KeepsNext.execSnapPeriod {time : Nat} (h : Keeps s t) : KeepsNext s (execSnapPeriod time t) :=
  .next (.ite h (.ite h.atTime.upd.startSnap (.ite h.atTime.upd.startSnap h)))

protected theorem KeepsNext.execSnapshotDone (h : Keeps s t) : KeepsNext s (execSnapshotDone t) := by
  unfold execSnapshotDone
  refine .next ?_
  split
  · exact h
  · extract_lets +onlyGivenNames _ s1
    have h1 : Keeps s s1 := h.upd.setF
    exact .ite h1.setF h1.putBytes.setF.setF.upd

protected theorem KeepsNext.execSnapRecordsWrite {p : Port} {v : BitVec 32} (h : Keeps s t) :
    KeepsNext s (execSnapRecordsWrite p v t) :=
  .next (h.viaPf0 (fun hu => .ite hu hu.setF.setF))

protected theorem KeepsNext.execSamplingEnable {p : Port} {v : BitVec 32} (h : Keeps s t) :
    KeepsNext s (execSamplingEnable p v t) :=
  .next (h.viaPf0 (fun hu => .ite hu (hu.setF.setB.when (·.foldl (·.coreSet)))))

protected theorem KeepsNext.execPmcLayerWrite {p : Port} {n : Fin 16} {v : BitVec 32} (h : Keeps s t) :
    KeepsNext s (execPmcLayerWrite p n v t) :=
  .next (h.viaPf0 (·.setF.setB))

protected theorem Keeps.latchLayers (h : Keeps s t) : Keeps s (latchLayers t) := h.upd

protected theorem KeepsNext.execCounterWrap {e : Fin 4095} {past : Nat} (h : Keeps s t) :
    KeepsNext s (execCounterWrap e past t) :=
  .next (.ite h.countEv h)

protected theorem KeepsNext.execRingEnable {p : Port} {ring : Fin 3} {en : Bool} (h : Keeps s t) :
    KeepsNext s (execRingEnable p ring en t) :=
  .next (h.viaPf0 (·.ringEnable))

protected theorem KeepsNext.execRingTailWrite {p : Port} {ring : Fin 3} {v : BitVec 32} (h : Keeps s t) :
    KeepsNext s (execRingTailWrite p ring v t) :=
  .next (h.viaPf0 (·.ringTail))

/-! ### Contexts -/

protected theorem Keeps.takePage {owner : PageOwner} {lease step : Nat} {r : Nat × State} (h : Keeps s t)
    (e : takePage owner lease step t = some r) : Keeps s r.2 := by
  unfold takePage at e
  split at e
  · contradiction
  · obtain rfl := Option.some.inj e
    exact h.zeroRange.upd

protected theorem Keeps.takePages {owner : PageOwner} {lease step n : Nat} {r : List Nat × State} (h : Keeps s t)
    (e : takePages owner lease step n t = some r) : Keeps s r.2 := by
  induction n generalizing t r with
  | zero =>
    obtain rfl := Option.some.inj e
    exact h
  | succ n ih =>
    unfold takePages at e
    split at e
    · contradiction
    · next p u ep =>
      obtain ⟨q, eq, rfl⟩ := Option.map_eq_some_iff.mp e
      have hu : Keeps s u := h.takePage ep
      exact ih (r := q) hu eq

protected theorem Keeps.touchPages {ps : List Nat} {step : Nat} (h : Keeps s t) : Keeps s (touchPages ps step t) :=
  h.upd
protected theorem Keeps.setCtx {id : Nat} {c : Ctx} (h : Keeps s t) : Keeps s (setCtx t id c) := h.upd

protected theorem Keeps.modCtx {id : Nat} {f : Ctx → Ctx} (h : Keeps s t) : Keeps s (modCtx t id f) := by
  unfold modCtx
  split
  · exact h.setCtx
  · exact h

protected theorem Keeps.countCtxs (h : Keeps s t) : Keeps s (countCtxs t) := h.setF.setF

protected theorem Keeps.zeroEntry {c : Ctx} {pos : Nat} (h : Keeps s t) : Keeps s (zeroEntry c t pos) := by
  unfold zeroEntry
  split
  · exact h.foldl (·.foldl (·.zeroRange.zeroRange))
  · exact h

protected theorem Keeps.rollback {id a : Nat} (h : Keeps s t) : Keeps s (rollback id a t) := by
  unfold rollback
  split
  · exact h
  · exact .ite h.setCtx ((h.foldl (·.zeroEntry)).bump.dropPages.setCtx.syncTable)

protected theorem Keeps.releaseCtx {id : Nat} (h : Keeps s t) : Keeps s (releaseCtx id t) := by
  unfold releaseCtx
  split
  · exact h
  · extract_lets +onlyGivenNames s1
    have h1 : Keeps s s1 := by
      unfold s1
      split
      · exact h.rollback
      · exact h
    exact h1.dropPages.zeroRange.upd.countCtxs

protected theorem Keeps.discardAppends {id pos rows : Nat} (h : Keeps s t) :
    Keeps s (discardAppends id pos rows t) := by
  unfold discardAppends
  split
  · exact h
  · exact (h.foldl (·.zeroEntry)).dropPages.setCtx.syncTable

protected theorem Keeps.evictPref {id : Nat} (h : Keeps s t) : Keeps s (evictPref id t) := by
  unfold evictPref
  split
  · exact h
  · extract_lets +onlyGivenNames s1
    have h1 : Keeps s s1 := h.bump
    split
    · exact .dropPages h1.upd
    · exact h1.dropPref

protected theorem Keeps.evictOver {lease n : Nat} (h : Keeps s t) : Keeps s (evictOver lease n t) := by
  induction n generalizing t with
  | zero => exact h
  | succ n ih =>
    unfold evictOver
    split
    · split
      · exact ih h.evictPref
      · exact h
    · exact h

protected theorem Keeps.evictFor {need n : Nat} (h : Keeps s t) : Keeps s (evictFor need n t) := by
  induction n generalizing t with
  | zero => exact h
  | succ n ih =>
    unfold evictFor
    split
    · exact h
    · split
      · exact ih h.evictPref
      · exact h

protected theorem Keeps.makeRoom {need : Nat} (h : Keeps s t) (e : makeRoom need t = some u) : Keeps s u := by
  unfold makeRoom at e
  dsimp only at e
  split at e
  · obtain rfl := Option.some.inj e
    exact h.evictFor
  · contradiction

protected theorem Keeps.startArchive {id : Nat} (h : Keeps s t) : Keeps s (startArchive id t) := by
  unfold startArchive
  split
  · exact h
  · split
    · exact h
    · extract_lets +onlyGivenNames _
      split
      · exact h.bump
      · exact h.upd

protected theorem Keeps.takeRecord {r : Nat × State} (h : Keeps s t) (e : takeRecord t = some r) : Keeps s r.2 := by
  unfold takeRecord at e
  dsimp only at e
  split at e
  · obtain rfl := Option.some.inj e
    exact h
  · split at e
    · obtain rfl := Option.some.inj e
      exact h.bump.dropPref
    · contradiction

protected theorem Keeps.pagesTo {id : Nat} {ps : List Nat} (h : Keeps s t) : Keeps s (pagesTo id ps t) := h.upd

protected theorem Keeps.commitHandle {id step : Nat} {c : Ctx} {lc : Nat} {archive : Bool} (h : Keeps s t) :
    Keeps s (commitHandle id step c lc archive t).s := by
  unfold commitHandle
  extract_lets +onlyGivenNames _
  split
  · exact h
  · next k u e =>
    have hu : Keeps s u := h.takeRecord e
    extract_lets +onlyGivenNames _ _ _ _ s1 s2
    have h2 : Keeps s s2 := hu.upd.pagesTo.setCtx.syncTable
    exact h2.when (·.startArchive)

protected theorem Keeps.insertNode {parent : Option Nat} {c : Ctx} {step k page gen : Nat} {at0 : List Nat}
    (h : Keeps s t) : Keeps s (insertNode parent c step k page gen at0 t).2 :=
  (h.upd.pagesTo.whenNot (·.putDev.putDev)).whenNot (·.writeChildren)

protected theorem Keeps.commitSpan {base step : Nat} {c : Ctx} {w : TreeSt} {k : Nat} (h : Keeps s w.s) :
    Keeps s (commitSpan base step c w k).s := by
  unfold commitSpan
  split
  · exact h
  · split
    · exact h
    · extract_lets +onlyGivenNames _ _
      split
      · exact h
      · split
        · exact h
        · exact h.insertNode

protected theorem Keeps.commitTree {base id step : Nat} {c : Ctx} {lc : Nat} {archive : Bool} {places : List Nat}
    (h : Keeps s t) : Keeps s (commitTree base id step c lc archive places t).1.s := by
  unfold commitTree
  extract_lets +onlyGivenNames _ _ _ _ _ s0 w s1
  have h0 : Keeps s s0 := .ite h h.upd.putDev
  have hw : Keeps s w.s := .foldlBy TreeSt.s h0 (·.commitSpan)
  have h1 : Keeps s s1 := hw.setCtx.syncTable
  exact h1.when (·.foldl (·.startArchive))

protected theorem Keeps.commitCtx {base id step : Nat} {acc : State × List Nat} (h : Keeps s acc.1) :
    Keeps s (commitCtx base id step acc).1 := by
  unfold commitCtx
  extract_lets +onlyGivenNames _
  split
  · exact h
  · split
    · exact h
    · extract_lets +onlyGivenNames _ _ s1
      have h1 : Keeps s s1 := h.setCtx
      split
      · exact h1
      · split
        · exact h1.commitHandle.modCtx
        · split
          · exact h1.commitTree.modCtx
          · exact h1

protected theorem Keeps.startRestore {step id : Nat} (h : Keeps s t) : Keeps s (startRestore step t id) := by
  unfold startRestore
  split
  · exact h
  · split
    · exact h
    · split
      · next e => exact (h.takePages e).upd
      · exact h

protected theorem KeepsNext.execPrefixArchiveDone {id : Nat} (h : Keeps s t) :
    KeepsNext s (execPrefixArchiveDone id t) := by
  unfold execPrefixArchiveDone
  refine .next ?_
  split
  · split
    · split
      · exact (h.foldl (·.deliver)).upd
      · exact h.upd
    · exact h
  · exact h

protected theorem KeepsNext.execPrefixRestoreDone {id : Nat} {ok : Bool} (h : Keeps s t) :
    KeepsNext s (execPrefixRestoreDone id ok t) := by
  unfold execPrefixRestoreDone
  refine .next ?_
  split
  · exact .ite (.ite ((h.foldl (·.deliver)).upd) h.upd.upd.dropPref) h
  · exact h

protected theorem Keeps.kvBoundary (h : Keeps s t) : Keeps s (kvBoundary t) := h.setF.upd

protected theorem KeepsNext.execTenantSelect {p : Port} {slot : Fin 16} (h : Keeps s t) :
    KeepsNext s (execTenantSelect p slot t) :=
  .next (h.viaPf0 (·.setP.setP.setP.setP.setP.setP.setP))

/-! ### Safe points -/

protected theorem Keeps.secView (h : Keeps s t) : Keeps s (secView t) :=
  h.setB.setF.setF.setB.setF.setF.setF.setF.foldl (·.setF)
protected theorem Keeps.putKs {k : KeyStore} (h : Keeps s t) : Keeps s (putKs t k) := h.upd.secView
protected theorem Keeps.setLease {n : Nat} {l : Lease} (h : Keeps s t) : Keeps s (setLease t n l) := h.putKs
protected theorem Keeps.fenceAtReset (h : Keeps s t) : Keeps s (fenceAtReset t) :=
  (Keeps.foldl (h.foldl (·.ledgerFence)) (·.ledgerVault)).upd

protected theorem Keeps.volatileLost (h : Keeps s t) : Keeps s (volatileLost t) :=
  ⟨fun _ => ⟨rfl, rfl, rfl⟩, h.fenceAtReset.queue⟩

protected theorem Keeps.integrityRecord (h : Keeps s t) : Keeps s (integrityRecord t) := h.ledgerAdd.upd
protected theorem Keeps.moduleReset {cause : Nat} (h : Keeps s t) : Keeps s (moduleReset cause t) :=
  h.integrityRecord.volatileLost.putKs.setF.setF.setF.upd
protected theorem Keeps.goDark (h : Keeps s t) : Keeps s (goDark t) := h.volatileLost.upd
protected theorem Keeps.powerLost {st : Stage} (h : Keeps s t) : Keeps s (powerLost st t) := h.volatileLost.upd.emit

protected theorem Keeps.fullZeroise {cause : Nat} (h : Keeps s t) : Keeps s (fullZeroise cause t) := by
  unfold fullZeroise
  extract_lets +onlyGivenNames s1
  have h1 : Keeps s s1 := h.ofParts (fun _ => rfl) id (fun _ => rfl) rfl
  exact h1.setF

protected theorem Keeps.setIdState {v : Nat} (h : Keeps s t) : Keeps s (setIdState v t) :=
  .ite h (h.configChange (·.setF))
protected theorem Keeps.portToPf1 {p : Port} (h : Keeps s t) : Keeps s (portToPf1 p t) := .ite h.emit.emit h

protected theorem Keeps.enterSafe {cause unit : Nat} {detail : List Nat} (h : Keeps s t) :
    Keeps s (enterSafe cause unit detail t) := by
  unfold enterSafe
  split
  · exact h
  · exact h
  · exact h
  · exact h
  · exact h.setIdState.alert.upd.ledgerAdd.portToPf1.portToPf1

protected theorem Keeps.logBad {bar : Nat} {p : Port} {write : Bool} {size : Nat} {mis : Bool} {status offset : Nat}
    (h : Keeps s t) : Keeps s (logBad bar p write size mis status offset t) :=
  h.setF.setF.setF.setB.setF.setB.setF.setF

/-! ### Weight loads -/

protected theorem Keeps.countSmalls (h : Keeps s t) : Keeps s (countSmalls t) := h.setF
protected theorem Keeps.releaseExtents {o : ExtOwner} (h : Keeps s t) : Keeps s (releaseExtents o t) := h.upd
protected theorem Keeps.emptySlot {n : Nat} (h : Keeps s t) : Keeps s (emptySlot n t) :=
  (h.releaseExtents.upd.foldl (fun hu => .ite hu.dropPref hu)).upd.setF.setF
protected theorem Keeps.freeSmall {i : Nat} (h : Keeps s t) : Keeps s (freeSmall i t) :=
  h.releaseExtents.upd.countSmalls
protected theorem Keeps.loadStatus {phase status res : Nat} (h : Keeps s t) : Keeps s (loadStatus phase status res t) :=
  h.setF.setF.setF.setF.upd.irqBoth
protected theorem Keeps.claimExtents {l : Load} (h : Keeps s t) : Keeps s (claimExtents l t) :=
  h.foldl (·.foldl (·.setExtent))
protected theorem Keeps.loadUndo {l : Load} (h : Keeps s t) : Keeps s (loadUndo l t) :=
  .ite h.emptySlot h.releaseExtents.countSmalls

protected theorem Keeps.loadFails {status : Nat} (h : Keeps s t) : Keeps s (loadFails status t) := by
  unfold loadFails
  split
  · exact h
  · exact h.loadUndo.loadStatus

protected theorem KeepsNext.execLoadGo {p port : Port} {host : HostMem} (h : Keeps s t) :
    KeepsNext s (execLoadGo p port host t) := by
  unfold execLoadGo
  refine .next ?_
  refine h.viaPf0 fun hu => ?_
  split
  · exact hu
  · extract_lets +onlyGivenNames s0
    have h0 : Keeps s s0 := hu.setF.setF.setF
    split
    · exact h0.loadStatus
    · extract_lets +onlyGivenNames _
      split
      · exact h0.loadStatus
      · split
        · exact h0.loadStatus
        · split
          · exact h0.loadStatus
          · split
            · exact h0.loadStatus
            · split
              · exact h0.loadStatus
              · exact (h0.setF.setF.claimExtents.when (·.setF)).upd

protected theorem KeepsNext.execLoadAbort {p : Port} (h : Keeps s t) : KeepsNext s (execLoadAbort p t) :=
  .next (h.viaPf0 (·.loadFails))

protected theorem KeepsNext.execLoadPullDone {how : PullEnd} {data : List (Nat × List Nat)} {digestOk : Bool}
    (h : Keeps s t) : KeepsNext s (execLoadPullDone how data digestOk t) := by
  unfold execLoadPullDone
  refine .next ?_
  split
  · exact h
  · split
    · exact h
    · split
      · exact h.loadFails
      · exact h.loadFails
      · extract_lets +onlyGivenNames _ _ _ s2
        have h2 : Keeps s s2 := h.putRuns.setF.setF
        exact .ite h2.loadFails h2.upd.setF

protected theorem Keeps.primeExtents {o : ExtOwner} (h : Keeps s t) : Keeps s (primeExtents o t) := h.upd

protected theorem KeepsNext.execLoadPrimeDone {how : PullEnd} (h : Keeps s t) :
    KeepsNext s (execLoadPrimeDone how t) := by
  unfold execLoadPrimeDone
  refine .next ?_
  split
  · exact h
  · split
    · exact h
    · split
      · exact h.loadFails
      · exact h.loadFails
      · extract_lets +onlyGivenNames _ s1
        have h1 : Keeps s s1 := h.primeExtents
        exact .ite h1.upd.setF.setF.loadStatus h1.upd.countSmalls.loadStatus

protected theorem Keeps.genStatus {v : Nat} (h : Keeps s t) : Keeps s (genStatus v t) := h.setF.irqBoth
protected theorem KeepsNext.execSwitch {p : Port} {slot : Fin 2} (h : Keeps s t) : KeepsNext s (execSwitch p slot t) :=
  .next (h.viaPf0 (fun hu => .ite hu (.ite hu.genStatus (.ite hu.genStatus hu.setF.setF.upd))))

protected theorem KeepsNext.execDiscard {p : Port} {slot : Fin 2} (h : Keeps s t) :
    KeepsNext s (execDiscard p slot t) :=
  .next (h.viaPf0 (fun hu => .ite hu (.ite hu.emptySlot.genStatus (.ite hu.genStatus hu.genStatus))))

protected theorem Keeps.retireSmalls (h : Keeps s t) : Keeps s (retireSmalls t) :=
  h.foldl (fun hu => .ite hu.freeSmall hu)

protected theorem KeepsNext.execRelease {p : Port} {index : Fin 256} (h : Keeps s t) :
    KeepsNext s (execRelease p index t) := by
  unfold execRelease
  refine .next ?_
  refine h.viaPf0 fun hu => ?_
  split
  · exact hu
  · split
    · exact hu.genStatus
    · exact hu.upd.retireSmalls.genStatus

protected theorem Keeps.activate {n : Nat} (h : Keeps s t) : Keeps s (activate n t) :=
  (Keeps.ite h.setF h).when (·.setF)

protected theorem Keeps.applySwitch (h : Keeps s t) : Keeps s (applySwitch t) := by
  unfold applySwitch
  split
  · exact h
  · exact h.activate.setF.setF.upd.genStatus

protected theorem Keeps.drainSlots (h : Keeps s t) : Keeps s (drainSlots t) := h.foldl (fun hu => .ite hu.emptySlot hu)

protected theorem Keeps.releaseLoadsOf {lease : Nat} (h : Keeps s t) : Keeps s (releaseLoadsOf lease t) := by
  unfold releaseLoadsOf
  extract_lets +onlyGivenNames s0 s1
  have h0 : Keeps s s0 := by
    unfold s0
    split
    · exact .ite h.loadFails h
    · exact h
  have h1 : Keeps s s1 := by
    unfold s1
    refine h0.foldl fun hu => ?_
    split
    · exact .ite hu.emptySlot hu
    · exact hu
  exact h1.foldl (fun hu => .ite hu.freeSmall hu)

end Sys2Proof.Machine
end

