-- ==== Sys2Proof/Proofs/KeepsModule.lean ====
section
/-!
SUPPORT. Proofs/KeepsModule.lean: the operations and commands of ports, clocks, power, host, mesh, boot and results
keep the canonical form.
-/
namespace Sys2Proof.Machine

set_option Elab.async false

variable {s t u : State}

/-! ### Ports -/

protected theorem Keeps.setPortSt {p : Port} {x : PortSt} (h : Keeps s t) : Keeps s (setPortSt p x t) := by
  unfold setPortSt
  split
  · exact h.upd
  · exact h.upd

protected theorem Keeps.imageEnds {status kind code item : Nat} (h : Keeps s t) :
    Keeps s (imageEnds status kind code item t) :=
  h.setF.setF.setF.setF.setF.upd.irqBoth

protected theorem Keeps.portLoadsFail {p : Port} {status : Nat} (h : Keeps s t) :
    Keeps s (portLoadsFail p status t) := by
  unfold portLoadsFail
  extract_lets +onlyGivenNames s1
  have h1 : Keeps s s1 := by
    unfold s1
    split
    · exact .ite h.loadFails h
    · exact h
  split
  · exact h1.when (·.imageEnds)
  · exact h1

protected theorem Keeps.orphanPort {p : Port} (h : Keeps s t) : Keeps s (orphanPort p t) := h.upd.countCtxs
protected theorem Keeps.portDown {p : Port} (h : Keeps s t) : Keeps s (portDown p t) :=
  .ite h h.setB.setF.setF.setP.upd.portLoadsFail.orphanPort.irq

protected theorem Keeps.resetPerPort {p : Port} (h : Keeps s t) : Keeps s (resetPerPort p t) := by
  unfold resetPerPort
  extract_lets +onlyGivenNames _ _ s1 s2
  have h1 : Keeps s s1 := h.ofParts id (smSorted_sublist List.filter_sublist) id rfl
  have h2 : Keeps s s2 := h1.setHoldoff.setDeferred
  split
  · exact h2.upd
  · exact h2.upd

protected theorem Keeps.portRise {p : Port} (h : Keeps s t) : Keeps s (portRise p t) :=
  h.resetPerPort.setB.setPortSt.irq

protected theorem KeepsNext.execPortUp {p : Port} {speed : Fin 7} {width : Fin 9} {reversed : Bool} (h : Keeps s t) :
    KeepsNext s (execPortUp p speed width reversed t) := by
  unfold execPortUp
  refine .next ?_
  split
  · exact h
  · exact h
  · exact h
  · exact h
  · exact h.setF.setF.setB.setB.setPortSt.when (·.portRise)

protected theorem KeepsNext.execDlActiveLost {p : Port} {time : Nat} (h : Keeps s t) :
    KeepsNext s (execDlActiveLost p time t) :=
  .next (.ite h.atTime.setF.setF.setPortSt h)

protected theorem KeepsNext.execLinkDownTimeout {p : Port} {time : Nat} (h : Keeps s t) :
    KeepsNext s (execLinkDownTimeout p time t) := by
  unfold execLinkDownTimeout
  refine .next ?_
  split
  · exact .ite h.atTime.portDown h
  · exact h

protected theorem KeepsNext.execD3hotEntry {p : Port} (h : Keeps s t) : KeepsNext s (execD3hotEntry p t) :=
  .next (h.viaPf0 (fun hu => .ite hu.setB.portDown hu))

protected theorem KeepsNext.execFunctionLevelReset {p : Port} (h : Keeps s t) :
    KeepsNext s (execFunctionLevelReset p t) :=
  .next (h.viaPf0 (fun hu => .ite hu.setPortSt.portDown hu))

protected theorem Keeps.perstOn {p : Port} {time : Nat} (h : Keeps s t) : Keeps s (perstOn p time t) :=
  h.setB.setB.setPortSt.portDown
protected theorem Keeps.perstOff {p : Port} (h : Keeps s t) : Keeps s (perstOff p t) := h.setB.setB.setPortSt

/-! ### Clocks -/

protected theorem Keeps.setCode {d c time : Nat} (h : Keeps s t) : Keeps s (setCode d c time t) := h.setF.upd
protected theorem Keeps.stepDomain {time d : Nat} (h : Keeps s t) : Keeps s (stepDomain time t d) :=
  .ite h (.ite (.ite (.ite h.setCode h) h.upd) (.ite h.setCode h))
protected theorem Keeps.vcoreDown {half : Nat} (h : Keeps s t) : Keeps s (vcoreDown t half) := .ite h.upd h
protected theorem Keeps.clockView (h : Keeps s t) : Keeps s (clockView t) := h.setF.setB.setB

protected theorem Keeps.switchAdvance (h : Keeps s t) : Keeps s (switchAdvance t) := by
  unfold switchAdvance
  split
  · exact h
  · exact .ite h (.ite (.ite h.upd.setF h) (.ite (h.upd.setF.setF.when (·.setF.irqBoth)) h))

protected theorem KeepsNext.execDividerStep {time : Nat} (h : Keeps s t) : KeepsNext s (execDividerStep time t) :=
  .next (.ite ((h.atTime.foldl (·.stepDomain)).vcoreDown.vcoreDown.switchAdvance.clockView) h)
protected theorem KeepsNext.execVcoreSlewDone {half : Half} (h : Keeps s t) : KeepsNext s (execVcoreSlewDone half t) :=
  .next h.upd
protected theorem Keeps.setTargets {d w e : Nat} (h : Keeps s t) : Keeps s (setTargets d w e t) :=
  h.setF.setF.upd.clockView

protected theorem KeepsNext.execNclkTargetWrite {p : Port} {v : BitVec 32} (h : Keeps s t) :
    KeepsNext s (execNclkTargetWrite p v t) :=
  .next (h.viaPf0 (fun hu => .ite hu hu.setTargets))

protected theorem KeepsNext.execCclkTargetWrite {p : Port} {v : BitVec 32} (h : Keeps s t) :
    KeepsNext s (execCclkTargetWrite p v t) :=
  .next (h.viaPf0 (fun hu => .ite hu hu.setTargets))

protected theorem Keeps.stretchView {v : Nat} (h : Keeps s t) : Keeps s (stretchView v t) := h.setB

protected theorem KeepsNext.execDroopTrip {core : Fin 192} {time : Nat} (h : Keeps s t) :
    KeepsNext s (execDroopTrip core time t) :=
  .next (.ite h h.atTime.bump.upd.stretchView)

protected theorem KeepsNext.execDroopHoldExpire {core : Fin 192} {time : Nat} (h : Keeps s t) :
    KeepsNext s (execDroopHoldExpire core time t) := by
  unfold execDroopHoldExpire
  refine .next ?_
  split
  · exact .ite h.atTime.upd.stretchView h
  · exact h

protected theorem Keeps.setRefOk {p : Port} {v : Bool} (h : Keeps s t) : Keeps s (setRefOk p v t) := by
  unfold setRefOk
  split
  · exact h.setB.setB
  · exact h.setB.setB

protected theorem Keeps.switchIrq {want : Option Port} {former : Port} (h : Keeps s t) :
    Keeps s (switchIrq want former t) :=
  .ite h.irqBoth h

protected theorem Keeps.startSwitch {want : Option Port} {time : Nat} (h : Keeps s t) :
    Keeps s (startSwitch want time t) :=
  h.setF.setF.upd.switchIrq

protected theorem KeepsNext.execReferenceLost {p : Port} {time : Nat} (h : Keeps s t) :
    KeepsNext s (execReferenceLost p time t) := by
  unfold execReferenceLost
  refine .next ?_
  split
  · exact h
  · extract_lets +onlyGivenNames s1 _
    have h1 : Keeps s s1 := h.atTime.setRefOk.portDown
    split
    · exact .ite h1.setF.setF.upd.switchAdvance (h1.when (·.setF.upd.switchIrq))
    · exact h1.when (·.startSwitch)

protected theorem KeepsNext.execReferenceOk {p : Port} {time : Nat} (h : Keeps s t) :
    KeepsNext s (execReferenceOk p time t) := by
  unfold execReferenceOk
  refine .next ?_
  split
  · exact h
  · extract_lets +onlyGivenNames s1
    have h1 : Keeps s s1 := h.atTime.setRefOk
    split
    · exact h1.when (·.upd.switchIrq.switchAdvance)
    · exact h1

protected theorem KeepsNext.execSourceSelect {p : Port} {v : BitVec 32} {time : Nat} (h : Keeps s t) :
    KeepsNext s (execSourceSelect p v time t) := by
  refine .next (h.viaPf0 fun hu => .ite hu.atTime ?_)
  exact .ite (hu.atTime.whenNot (·.setB.setF))
    (.ite hu.atTime.setF (Keeps.ite hu.atTime.setF hu.atTime.setF.setB.setF).startSwitch)

protected theorem KeepsNext.execPllRelock {time : Nat} (h : Keeps s t) : KeepsNext s (execPllRelock time t) := by
  unfold execPllRelock
  refine .next ?_
  split
  · split
    · exact .ite h.atTime.setF.setF.setF.setF.upd.switchAdvance h
    · exact h
  · exact h

protected theorem KeepsNext.execHoldoverLimitExpire {time : Nat} (h : Keeps s t) :
    KeepsNext s (execHoldoverLimitExpire time t) := by
  unfold execHoldoverLimitExpire
  refine .next ?_
  split
  · split
    · split
      · exact h.atTime.upd.switchIrq.switchAdvance
      · exact h.atTime.goDark
    · exact h
  · exact h

protected theorem KeepsNext.execPllLock {refA refB : Bool} {tpos unstable : Fin 8} {time : Nat} (h : Keeps s t) :
    KeepsNext s (execPllLock refA refB tpos unstable time t) :=
  .next (.ite h.atTime.setRefOk.setRefOk.setF.setF.setF.setB.upd.clockView h)

protected theorem KeepsNext.execSscUpdate (h : Keeps s t) : KeepsNext s (execSscUpdate t) := .next (.ite h.upd h)

protected theorem KeepsNext.execFcountStart {p : Port} {v : BitVec 32} (h : Keeps s t) :
    KeepsNext s (execFcountStart p v t) :=
  .next (h.viaPf0 (fun hu => .ite hu (hu.setP.setP.when (·.setP.setP.setP.upd))))

protected theorem KeepsNext.execFcountDone {p : Port} {measured : Nat} {roundUp : Bool} (h : Keeps s t) :
    KeepsNext s (execFcountDone p measured roundUp t) :=
  .next (.ite h.setP.setP.setP.setP h)

/-! ### Power and temperature -/

protected theorem Keeps.setFloor (h : Keeps s t) : Keeps s (setFloor t) := h.setF.whenNot (·.setF)
protected theorem Keeps.brakeOn {k : Nat} (h : Keeps s t) : Keeps s (brakeOn k t) := .ite h h.setF.bump.upd.setFloor
protected theorem Keeps.setCeff {mw : Nat} (h : Keeps s t) : Keeps s (setCeff mw t) := h.upd.setF
protected theorem Keeps.brakeOff {k meanMw : Nat} (h : Keeps s t) : Keeps s (brakeOff k meanMw t) :=
  .ite h.setCeff.upd.setB.setFloor h
protected theorem Keeps.slewCeff (h : Keeps s t) : Keeps s (slewCeff t) := .ite h.setCeff h.setCeff
protected theorem Keeps.moveOp {p pred time : Nat} (h : Keeps s t) : Keeps s (moveOp p pred time t) :=
  .ite h (.ite h.setF.upd (.ite (.ite h.setF h) (.ite h.setF h)))

protected theorem Keeps.capView {p time : Nat} (h : Keeps s t) : Keeps s (capView p time t) := by
  unfold capView
  extract_lets +onlyGivenNames _ _ _ _ _ _ s2
  have h2 : Keeps s s2 := .ite h.setB.upd h.setB.bump.upd
  exact .ite h2.setF.upd (.ite h2.upd h2.upd)

protected theorem KeepsNext.execPowerLoop {coreEst restEst predCore predRest time : Nat} (h : Keeps s t) :
    KeepsNext s (execPowerLoop coreEst restEst predCore predRest time t) :=
  .next (.ite h h.atTime.setF.slewCeff.setFloor.moveOp.capView.upd)

protected theorem KeepsNext.execGainCalibration {coreEst restEst coreMeas inputMeas : Nat} (h : Keeps s t) :
    KeepsNext s (execGainCalibration coreEst restEst coreMeas inputMeas t) :=
  .next (.ite h ((h.upd.when (·.setF)).setF.bump.upd))

protected theorem Keeps.setTarget {w : Nat} (h : Keeps s t) : Keeps s (setTarget w t) :=
  .ite h (.ite (.ite h.setF.upd h.setF.setF) h.setF)

protected theorem KeepsNext.execCapTargetWrite {p : Port} {v : BitVec 32} (h : Keeps s t) :
    KeepsNext s (execCapTargetWrite p v t) :=
  .next (h.viaPf0 (·.setTarget))

protected theorem KeepsNext.execPldmCapEffecter {watts : Nat} (h : Keeps s t) :
    KeepsNext s (execPldmCapEffecter watts t) :=
  .next (.ite h.setTarget h)

protected theorem KeepsNext.execCapUnmet {time : Nat} (h : Keeps s t) : KeepsNext s (execCapUnmet time t) := by
  unfold execCapUnmet
  refine .next ?_
  split
  · exact .ite h.atTime.setF.alert h
  · exact h

protected theorem Keeps.shutterOn {time : Nat} (h : Keeps s t) : Keeps s (shutterOn time t) :=
  .ite h h.setF.setF.upd.brakeOn
protected theorem Keeps.shutterOff {meanMw : Nat} (h : Keeps s t) : Keeps s (shutterOff meanMw t) :=
  .ite h.setF.setF.upd.brakeOff h
protected theorem Keeps.ledgerThermal {cause peak ms : Nat} (h : Keeps s t) : Keeps s (ledgerThermal cause peak ms t) :=
  h.ledgerAdd
protected theorem Keeps.leakOn {time : Nat} (h : Keeps s t) : Keeps s (leakOn time t) :=
  .ite h h.setF.setF.upd.alert.ledgerThermal.brakeOn
protected theorem Keeps.leakOff {meanMw : Nat} (h : Keeps s t) : Keeps s (leakOff meanMw t) :=
  .ite h.setF.setF.upd.brakeOff h

protected theorem Keeps.filtered {i : SbInput} {time : Nat} {f : State → State} (h : Keeps s t)
    (hf : ∀ {u}, Keeps s u → Keeps s (f u)) : Keeps s (filtered t i time f) :=
  .ite (hf h.atTime) h

protected theorem KeepsNext.execShutterAssert {time : Nat} (h : Keeps s t) : KeepsNext s (execShutterAssert time t) :=
  .next (h.filtered (fun hu => hu.shutterOn))

protected theorem KeepsNext.execShutterRelease {meanMw time : Nat} (h : Keeps s t) :
    KeepsNext s (execShutterRelease meanMw time t) :=
  .next (h.filtered (fun hu => hu.shutterOff))

protected theorem KeepsNext.execLeakAssert {time : Nat} (h : Keeps s t) : KeepsNext s (execLeakAssert time t) :=
  .next (h.filtered (·.leakOn))

protected theorem KeepsNext.execLeakRelease {meanMw time : Nat} (h : Keeps s t) :
    KeepsNext s (execLeakRelease meanMw time t) :=
  .next (h.filtered (·.leakOff))

protected theorem KeepsNext.execPerstAssert {p : Port} {time : Nat} (h : Keeps s t) :
    KeepsNext s (execPerstAssert p time t) :=
  .next (h.filtered (·.perstOn))

protected theorem KeepsNext.execPerstRelease {p : Port} {time : Nat} (h : Keeps s t) :
    KeepsNext s (execPerstRelease p time t) :=
  .next (h.filtered (·.perstOff))

protected theorem KeepsNext.execShutterStuck {time : Nat} (h : Keeps s t) : KeepsNext s (execShutterStuck time t) := by
  unfold execShutterStuck
  refine .next ?_
  split
  · exact .ite h.atTime.setF.alert h
  · exact h

protected theorem KeepsNext.execPerstStuck {p : Port} {time : Nat} (h : Keeps s t) :
    KeepsNext s (execPerstStuck p time t) := by
  unfold execPerstStuck
  refine .next ?_
  split
  · exact .ite h.atTime.setF.alert h
  · exact h

protected theorem KeepsNext.execLeakGraceExpire {time : Nat} (h : Keeps s t) :
    KeepsNext s (execLeakGraceExpire time t) := by
  unfold execLeakGraceExpire
  refine .next ?_
  split
  · exact .ite h.atTime.enterSafe h
  · exact h

protected theorem Keeps.sbOn {i : SbInput} {time : Nat} (h : Keeps s t) : Keeps s (sbOn i time t) := by
  unfold sbOn
  split
  · exact h.shutterOn
  · exact h.leakOn
  · exact h.perstOn
  · exact h.perstOn

protected theorem Keeps.sbOff {i : SbInput} {meanMw : Nat} (h : Keeps s t) : Keeps s (sbOff i meanMw t) := by
  unfold sbOff
  split
  · exact h.shutterOff
  · exact h.leakOff
  · exact h.perstOff
  · exact h.perstOff

protected theorem KeepsNext.execSidebandToggling {i : SbInput} {time : Nat} (h : Keeps s t) :
    KeepsNext s (execSidebandToggling i time t) :=
  .next (.ite h.atTime.setBit.setBit.alert.sbOn h)

protected theorem KeepsNext.execTogglingEnd {i : SbInput} {asserted : Bool} {meanMw time : Nat} (h : Keeps s t) :
    KeepsNext s (execTogglingEnd i asserted meanMw time t) :=
  .next (.ite (h.atTime.setBit.whenNot (·.sbOff)) h)

protected theorem Keeps.thermCap {j v : ℤ} (h : Keeps s t) : Keeps s (thermCap t j v) :=
  .ite h.setF.setF (.ite h.setF.setB h)
protected theorem Keeps.refreshRates {vs : List ℤ} (h : Keeps s t) : Keeps s (refreshRates t vs) := h.upd

protected theorem Keeps.thermalBrake {j v : ℤ} {meanMw time : Nat} (h : Keeps s t) :
    Keeps s (thermalBrake j v meanMw time t) := by
  unfold thermalBrake
  extract_lets +onlyGivenNames _ _
  split
  · exact .ite h.upd.setF.alert.brakeOn h
  · exact .ite h.upd.setF.ledgerThermal.brakeOff h.upd

protected theorem Keeps.thermalTrip {j v : ℤ} {time : Nat} (h : Keeps s t) : Keeps s (thermalTrip j v time t) :=
  h.upd.alert.ledgerThermal.enterSafe

protected theorem Keeps.inletWatch {bad : Bool} {temp : ℤ} {time : Nat} (h : Keeps s t) :
    Keeps s (inletWatch bad temp time t) :=
  .ite h.upd ((Keeps.ite h h.ledgerThermal).upd)

protected theorem Keeps.inletRange {temp : ℤ} (h : Keeps s t) : Keeps s (inletRange temp t) := h.upd.setF.alert

protected theorem KeepsNext.execThermalCheck {js vs : List (Option ℤ)} {inl outl : Option ℤ} {vinMv iinCa meanMw time : Nat}
    (h : Keeps s t) : KeepsNext s (execThermalCheck js vs inl outl vinMv iinCa meanMw time t) := by
  unfold execThermalCheck
  refine .next ?_
  split
  · exact h
  · extract_lets +onlyGivenNames s0 _ _ s1 _ _ _ _ _ _ _ _ _ s2 s3 s4 s5 s6 s7
    have h1 : Keeps s s1 := h.atTime.setF.setF.whenNot (·.upd.setF.alert.foldl (·.ledgerThermal))
    have h3 : Keeps s s3 := h1.upd.setF.setF.setF.setF.setF.setF
    have h5 : Keeps s s5 := (h3.when (·.setF.brakeOff)).inletWatch
    have h7 : Keeps s s7 := (h5.when (·.inletRange)).thermCap.refreshRates.thermalBrake
    exact .ite h7.upd.upd (h7.upd.when (·.thermalTrip))

protected theorem KeepsNext.execInletRange {time : Nat} (h : Keeps s t) : KeepsNext s (execInletRange time t) := by
  unfold execInletRange
  refine .next ?_
  split
  · exact .ite h.atTime.inletRange h
  · exact h

protected theorem KeepsNext.execVinLow {time : Nat} (h : Keeps s t) : KeepsNext s (execVinLow time t) :=
  .next (.ite h.atTime.setF.brakeOn h)
protected theorem Keeps.railRecord {cause rail : Nat} (h : Keeps s t) : Keeps s (railRecord cause rail t) :=
  h.upd.ledgerAdd

protected theorem KeepsNext.execInputUndervoltage {time : Nat} (h : Keeps s t) :
    KeepsNext s (execInputUndervoltage time t) :=
  .next (.ite h.atTime.railRecord.powerLost h)

protected theorem KeepsNext.execInputOvervoltage {time : Nat} (h : Keeps s t) :
    KeepsNext s (execInputOvervoltage time t) :=
  .next (.ite h.atTime.railRecord.powerLost h)

protected theorem KeepsNext.execInputReversed (h : Keeps s t) : KeepsNext s (execInputReversed t) :=
  .next (.ite h.powerLost h)

protected theorem KeepsNext.execRailShort {rail : Fin 6} {time : Nat} (h : Keeps s t) :
    KeepsNext s (execRailShort rail time t) :=
  .next (.ite h.atTime.railRecord.powerLost h)

protected theorem KeepsNext.execSenseOpen (h : Keeps s t) : KeepsNext s (execSenseOpen t) := .next (.ite h.setF h)

protected theorem KeepsNext.execInputRemoved {ms : Nat} (h : Keeps s t) : KeepsNext s (execInputRemoved ms t) := by
  unfold execInputRemoved
  refine .next ?_
  split
  · exact h
  · exact .ite h.upd h
  · exact h.powerLost

protected theorem KeepsNext.execInputPowerValid {refPresent : Bool} (h : Keeps s t) :
    KeepsNext s (execInputPowerValid refPresent t) :=
  .next (.ite (h.moduleReset.whenNot (·.upd)) h)

protected theorem KeepsNext.execReferenceReturn (h : Keeps s t) : KeepsNext s (execReferenceReturn t) :=
  .next (.ite h.moduleReset h)
protected theorem KeepsNext.execResetRequest {time : Nat} (h : Keeps s t) : KeepsNext s (execResetRequest time t) :=
  .next (.ite h.atTime.moduleReset h)

/-! ### Accesses of the host -/

protected theorem KeepsNext.execBadAccess {p : Port} {bar4 : Bool} {off size : Nat} {write : Bool} (h : Keeps s t) :
    KeepsNext s (execBadAccess p bar4 off size write t) := by
  unfold execBadAccess
  extract_lets +onlyGivenNames _ _ log
  have hlog : Keeps s log := h.logBad.emit
  exact .next (.ite h (.ite (.ite h.emit (.ite hlog h)) (.ite (h.viaPf0 (fun hu => hlog)) h)))

protected theorem Keeps.setLatch {p : Port} {l : Option (Nat × Nat)} (h : Keeps s t) : Keeps s (setLatch p l t) := by
  unfold setLatch
  split
  · exact h.upd
  · exact h.upd

protected theorem KeepsNext.execPairLowerRead {p : Port} {off : Nat} (h : Keeps s t) :
    KeepsNext s (execPairLowerRead p off t) :=
  .next (.ite (h.viaPf0 (·.emit.setLatch)) h)

protected theorem KeepsNext.execPairUpperRead {p : Port} {off : Nat} (h : Keeps s t) :
    KeepsNext s (execPairUpperRead p off t) := by
  unfold execPairUpperRead
  refine .next ?_
  split
  · refine h.viaPf0 fun hu => ?_
    split
    · exact .ite hu.emit.setLatch hu.emit
    · exact hu.emit
  · exact h

protected theorem KeepsNext.execLockSet {p : Port} {block : Fin 12} (h : Keeps s t) :
    KeepsNext s (execLockSet p block t) :=
  .next (h.viaPf0 (·.setF))

protected theorem Keeps.writeField {p : Port} {lck : Bool} {v : Nat} {f : Fld} (h : Keeps s t) :
    Keeps s (writeField p lck v t f) := by
  unfold writeField
  extract_lets +onlyGivenNames _
  split
  · exact h.setP
  · exact .ite h h.setP
  · exact h.setP
  · exact h

protected theorem Keeps.realert (h : Keeps s t) : Keeps s (realert t) := by
  unfold realert
  extract_lets again
  have ha {f c u} (hu : Keeps s u) : Keeps s (again f c u) := .ite hu.alert hu
  exact ha (ha (ha (ha (ha (ha (ha (ha (ha h))))))))

protected theorem Keeps.afterWrite {o v : Nat} (h : Keeps s t) : Keeps s (afterWrite o v t) :=
  .ite h.setFloor (.ite h.realert (.ite h.startSnap h))
protected theorem Keeps.writeReg {p : Port} {o v : Nat} (h : Keeps s t) : Keeps s (writeReg p o v t) :=
  .ite h (.afterWrite (h.foldl (·.writeField)))

protected theorem KeepsNext.execRegisterWrite {p : Port} {off : Nat} {v : BitVec 32} (h : Keeps s t) :
    KeepsNext s (execRegisterWrite p off v t) :=
  .next (h.viaPf0 (fun hu => .ite hu.writeReg hu))

protected theorem KeepsNext.execIrqHoldoffExpire {p : Port} (h : Keeps s t) : KeepsNext s (execIrqHoldoffExpire p t) :=
  .next (.ite (h.setHoldoff.when (·.setDeferred.sendVector)) h)

protected theorem KeepsNext.execConfigurationRequest {p : Port} {bar2 : Option (Fin 9)} (h : Keeps s t) :
    KeepsNext s (execConfigurationRequest p bar2 t) := by
  unfold execConfigurationRequest
  refine .next ?_
  split
  · exact h
  · split
    · extract_lets +onlyGivenNames _
      split
      · exact h.emit.whenNot (·.setPortSt)
      · exact h.emit
    · exact h.emit

protected theorem Keeps.hostReadFails {p : Port} {what : Fin 3} {status : Nat} (h : Keeps s t) :
    Keeps s (hostReadFails p what status t) := by
  unfold hostReadFails
  split
  · split
    · exact .ite h.loadFails h
    · exact h
  · split
    · split
      · exact .ite h.imageEnds h
      · exact h
    · exact h

protected theorem KeepsNext.execHostReadTimeout {p : Port} {what : Fin 3} (h : Keeps s t) :
    KeepsNext s (execHostReadTimeout p what t) :=
  .next h.hostReadFails

protected theorem KeepsNext.execHostReadRefused {p : Port} {what : Fin 3} (h : Keeps s t) :
    KeepsNext s (execHostReadRefused p what t) :=
  .next h.hostReadFails

protected theorem KeepsNext.execIdeKm {p : Port} (h : Keeps s t) : KeepsNext s (execIdeKm p t) := .next (.ite h.setF h)
protected theorem KeepsNext.execIdeIntegrityFail {p : Port} (h : Keeps s t) : KeepsNext s (execIdeIntegrityFail p t) :=
  .next (.ite (h.setF.when (·.portDown)) h)

/-! ### The mesh -/

protected theorem Keeps.setLink {x port : Nat} {l : LinkSt} (h : Keeps s t) : Keeps s (setLink x port l t) := h.upd
protected theorem Keeps.nocFault {router port cause : Nat} (h : Keeps s t) : Keeps s (nocFault router port cause t) :=
  h.setF.setF.setF.irqBoth

protected theorem Keeps.breakGroups {f : ImgGroup → Bool} (h : Keeps s t) : Keeps s (breakGroups f t) := by
  unfold breakGroups
  split
  · exact h
  · exact .ite h ((h.foldl (·.setF)).upd)

protected theorem Keeps.loseCore {c cause : Nat} (h : Keeps s t) : Keeps s (loseCore c cause t) :=
  h.shutterCore.breakGroups.when (·.addPoison)
protected theorem Keeps.loseCommons {half : Nat} (h : Keeps s t) : Keeps s (loseCommons half t) := .ite h h.upd
protected theorem Keeps.shutFabPort {p : Nat} (h : Keeps s t) : Keeps s (shutFabPort p t) :=
  h.setF.configChange (·.setBit)
protected theorem Keeps.shutHostPort {p : Port} (h : Keeps s t) : Keeps s (shutHostPort p t) :=
  .ite h (h.upd.configChange (·.setBit))

protected theorem Keeps.loseAttachment {x : Nat} (h : Keeps s t) : Keeps s (loseAttachment x t) := by
  unfold loseAttachment
  split
  · exact h.shutHostPort
  · split
    · exact h.shutHostPort
    · split
      · exact h.shutFabPort
      · exact h

protected theorem Keeps.hingeDown {row : Nat} (h : Keeps s t) : Keeps s (hingeDown row t) := h.setBit

protected theorem Keeps.routerOut {x : Nat} (h : Keeps s t) : Keeps s (routerOut x t) := by
  unfold routerOut
  split
  · exact h
  · extract_lets +onlyGivenNames s1 s2 s3
    have h1 : Keeps s s1 := h.setBit.nocFault.ledgerFence
    have h2 : Keeps s s2 := by
      unfold s2
      split
      · exact h1.loseCore
      · exact h1.loseCommons.breakGroups
    have h3 : Keeps s s3 := by
      unfold s3
      split
      · exact h2.hingeDown
      · exact h2
    exact h3.distRewrite.loseAttachment

protected theorem Keeps.safeOf {l : List (Nat × List Nat)} (h : Keeps s t) : Keeps s (safeOf l t) := by
  unfold safeOf
  split
  · exact h
  · exact h.enterSafe

protected theorem Keeps.routerFails {x : Nat} (h : Keeps s t) : Keeps s (routerFails x t) :=
  .ite h ((h.routerOut.when (·.nocFault)).safeOf)

protected theorem Keeps.linkFails {x port : Nat} (h : Keeps s t) : Keeps s (linkFails x port t) := by
  unfold linkFails
  split
  · exact h
  · exact .ite h (((h.setLink.bump.nocFault.whenNot (·.hingeDown)).when (·.routerFails)).when (·.routerFails))

protected theorem KeepsNext.execFlitCrcFail {router : Fin 208} {port : Fin 6} {sameFlit : Bool} (h : Keeps s t) :
    KeepsNext s (execFlitCrcFail router port sameFlit t) :=
  .next (.ite h (h.setLink.emit.when (·.linkFails)))

protected theorem KeepsNext.execFlitReplayRequest {router : Fin 208} {port : Fin 6} {time : Nat} (h : Keeps s t) :
    KeepsNext s (execFlitReplayRequest router port time t) :=
  .next (.ite h (h.atTime.setLink.bump.when (·.linkFails)))

protected theorem KeepsNext.execMeshTimeout {core : Fin 192} {read : Option Nat} (h : Keeps s t) :
    KeepsNext s (execMeshTimeout core read t) := by
  unfold execMeshTimeout
  refine .next ?_
  split
  · exact h
  · extract_lets +onlyGivenNames s1
    have h1 : Keeps s s1 := h.bump.nocFault.addPoison
    split
    · exact h1.setMark
    · exact h1

protected theorem KeepsNext.execRouteChangeStart {routers : List (Fin 208)} (h : Keeps s t) :
    KeepsNext s (execRouteChangeStart routers t) :=
  .next (.ite (h.upd.foldl (·.emit)) h)

protected theorem KeepsNext.execRouteChangeMarker {router : Fin 208} (h : Keeps s t) :
    KeepsNext s (execRouteChangeMarker router t) :=
  .next h.upd

protected theorem KeepsNext.execRouteChangeAck {router : Fin 208} (h : Keeps s t) :
    KeepsNext s (execRouteChangeAck router t) :=
  .next (.ite (.ite h.upd.setF.distRewrite h.upd) h)

/-! ### Boot and self-test -/

protected theorem Keeps.addReport {r : EraseReport} (h : Keeps s t) : Keeps s (addReport r t) := h.putKs

protected theorem Keeps.freeLease {n step pages frames extents : Nat} {bg : Bool} (h : Keeps s t) :
    Keeps s (freeLease n step pages frames extents bg t) := by
  unfold freeLease
  split
  · exact h
  · exact h.ledgerLease.addReport.putKs.setBit.setBit

protected theorem Keeps.finishEnding (h : Keeps s t) : Keeps s (finishEnding t) := by
  unfold finishEnding
  refine h.foldl fun hu => ?_
  split
  · exact .ite hu.freeLease hu
  · exact hu

protected theorem KeepsNext.execBootVerifyDone {okSec : Bool} {bad : Option (Fin 3)} {versions : List Nat}
    {measures : List (List Nat)} (h : Keeps s t) : KeepsNext s (execBootVerifyDone okSec bad versions measures t) := by
  unfold execBootVerifyDone
  refine .next ?_
  split
  · exact h
  · split
    · exact h.enterSafe
    · split
      · exact h.putKs.enterSafe
      · exact h.putKs.upd.finishEnding

protected theorem Keeps.ledgerSelfTest (h : Keeps s t) : Keeps s (ledgerSelfTest t) := h.ledgerAdd

protected theorem Keeps.testCard {r : SelfTest} {info : List (Nat × Nat × Nat)} {n : Nat} (h : Keeps s t) :
    Keeps s (testCard r info n t) :=
  (Keeps.ite h.upd h.upd).setF.setF.setCard

protected theorem Keeps.failUnits {r : SelfTest} (h : Keeps s t) : Keeps s (failUnits r t) :=
  ((((((h.foldl (·.routerOut)).foldl (·.setLink.hingeDown)).foldl (·.loseCore)).foldl (·.loseCommons)).foldl
    (·.retireVault)).foldl (·.shutFabPort)).foldl (·.shutHostPort)

protected theorem Keeps.applyFenceList (h : Keeps s t) : Keeps s (applyFenceList t) :=
  (h.foldl (·.setBit)).foldl (·.setBit.setF)

protected theorem KeepsNext.execSelftestDone {r : SelfTest} {info : List (Nat × Nat × Nat)} (h : Keeps s t) :
    KeepsNext s (execSelftestDone r info t) := by
  unfold execSelftestDone
  refine .next ?_
  split
  · exact h
  · extract_lets +onlyGivenNames _ _ _ _ s4
    have h4 : Keeps s s4 := h.applyFenceList.setF.setF.setF.failUnits.testCard.testCard.rate.upd.ledgerSelfTest
    split
    · exact h4.upd.setIdState
    · exact h4.upd.safeOf

protected theorem Keeps.sendDiscover (h : Keeps s t) : Keeps s (sendDiscover t) := h.foldl (fun hu => .ite hu.emit hu)

protected theorem KeepsNext.execFunctionsReady {dist acct win report : Nat} (h : Keeps s t) :
    KeepsNext s (execFunctionsReady dist acct win report t) :=
  .next (.ite h (h.setF.setF.setF.setF.writeDist.upd.setF.sendDiscover.when (·.putKs.upd.setIdState)))

protected theorem Keeps.restoreUnits {r : SelfTest} (h : Keeps s t) : Keeps s (restoreUnits r t) :=
  ((h.foldl (·.setBit.ledgerFence)).foldl (·.setBit.setF.ledgerVault)).putKs

protected theorem KeepsNext.execExtendedSelftestDone {r : SelfTest} {info : List (Nat × Nat × Nat)} (h : Keeps s t) :
    KeepsNext s (execExtendedSelftestDone r info t) :=
  .next (.ite h (.safeOf (.distRewrite
    (h.configChange (·.upd.restoreUnits.failUnits.testCard.testCard.rate.upd.ledgerSelfTest.setF.upd)))))

protected theorem KeepsNext.execLedgerPowerRecord {time : Nat} (h : Keeps s t) :
    KeepsNext s (execLedgerPowerRecord time t) :=
  .next (.ite h.atTime.ledgerAdd.upd h)

protected theorem KeepsNext.execLedgerIntegrityRecord {time : Nat} (h : Keeps s t) :
    KeepsNext s (execLedgerIntegrityRecord time t) :=
  .next (.ite h.atTime.integrityRecord h)

/-! ### Results -/

protected theorem Keeps.freeCtx {o : Option Nat} (h : Keeps s t) : Keeps s (freeCtx o t) := by
  unfold freeCtx
  split
  · exact h.upd.countCtxs.retireSmalls
  · exact h

protected theorem Keeps.giveBack {o : Option Nat} (h : Keeps s t) : Keeps s (giveBack o t) := by
  unfold giveBack
  split
  · exact h.modCtx
  · exact h

protected theorem Keeps.cplWrite {r : CplRec} (h : Keeps s t) : Keeps s (cplWrite r t) :=
  h.emit.setP.giveBack.freeCtx.irq
protected theorem Keeps.cplPut {r : CplRec} (h : Keeps s t) : Keeps s (cplPut r t) :=
  .ite h.giveBack.freeCtx (.ite h.cplWrite h.upd)

protected theorem Keeps.cplFlush {p : Port} {n : Nat} (h : Keeps s t) : Keeps s (cplFlush p n t) := by
  induction n generalizing t with
  | zero => exact h
  | succ n ih =>
    unfold cplFlush
    split
    · exact h
    · exact .ite (ih h.upd.cplWrite) h

protected theorem Keeps.putToken {id k tok pos tail : Nat} (h : Keeps s t) :
    Keeps s (putToken id k tok pos tail t) := by
  unfold putToken
  split
  · exact h
  · exact .ite h.setCtx (.ite h.emit h.emit.setCtx)

protected theorem Keeps.putProd {id : Nat} (h : Keeps s t) : Keeps s (putProd id t) := by
  unfold putProd
  split
  · exact h
  · exact .ite h h.emit

protected theorem Keeps.putTokens {id : Nat} {toks : List Nat} {pos a status step reason : Nat} {vary : Bool}
    (h : Keeps s t) : Keeps s (putTokens id toks pos a status step reason vary t) := by
  unfold putTokens
  split
  · exact h
  · exact .ite h (.putProd (h.foldl (·.putToken)))

protected theorem Keeps.journal {f : Flight} {status : Nat} {vary : Bool} (h : Keeps s t) :
    Keeps s (journal f status vary t) :=
  h.ringPut

protected theorem Keeps.modClient {k lease : Nat} {f : Client → Client} (h : Keeps s t) :
    Keeps s (modClient k lease f t) :=
  h.upd

protected theorem Keeps.writeClients (h : Keeps s t) : Keeps s (writeClients t) := h.foldl (·.putDev)
protected theorem Keeps.zeroClients {lease : Nat} (h : Keeps s t) : Keeps s (zeroClients lease t) :=
  (h.foldl (·.putDev)).upd
protected theorem Keeps.ending {id status reason : Nat} (h : Keeps s t) : Keeps s (ending id status reason t) :=
  h.modCtx

protected theorem Keeps.ctxBack {id : Nat} (h : Keeps s t) : Keeps s (ctxBack id t) := by
  unfold ctxBack
  split
  · exact h
  · exact .ite h.ending (.ite h.setCtx.countCtxs h.setCtx)

protected theorem Keeps.dropEgress {p : Portion} (h : Keeps s t) : Keeps s (dropEgress p t) := h.upd
protected theorem Keeps.clearCores (h : Keeps s t) : Keeps s (clearCores t) :=
  (h.foldl (fun hu => .ite hu hu.discardCore)).upd
protected theorem Keeps.dropSaved (h : Keeps s t) : Keeps s (dropSaved t) := h.upd
protected theorem Keeps.captureEnds {status : Nat} (h : Keeps s t) : Keeps s (captureEnds status t) := h.setB.setF
protected theorem Keeps.discardStep {step : Nat} (h : Keeps s t) : Keeps s (discardStep step t) :=
  ((((h.foldl (·.dropEgress)).when (·.clearCores)).when (·.dropSaved)).upd.releaseStepHolds.foldl
    (·.setCtx.discardAppends)).when (·.captureEnds)

protected theorem Keeps.reqDies {f : Flight} {status : Nat} {r : ReqRec} (h : Keeps s t) :
    Keeps s (reqDies f status r t) := by
  unfold reqDies
  split
  · exact h
  · exact h.upd.setCtx.whenNot (·.ctxBack)

protected theorem Keeps.stepDies {step status : Nat} (h : Keeps s t) : Keeps s (stepDies step status t) := by
  unfold stepDies
  split
  · exact h
  · exact .journal (h.upd.discardStep.foldl (·.reqDies))

end Sys2Proof.Machine
end

