-- ==== Sys2Proof/Proofs/KeepsFabric.lean ====
section
/-!
SUPPORT. Proofs/KeepsFabric.lean: the operations and commands of the fabric, the images and the descriptor queues keep
the canonical form.
-/
namespace Sys2Proof.Machine

set_option Elab.async false

variable {s t u : State}

/-! ### The fabric -/

protected theorem Keeps.fabFault {target status plane cause : Nat} (h : Keeps s t) :
    Keeps s (fabFault target status plane cause t) :=
  h.setF.setF.setF.setF.irqBoth

protected theorem Keeps.takeSeq {key : Nat} (h : Keeps s t) : Keeps s (takeSeq key t).2 := h.upd
protected theorem Keeps.putOp {o : FabOp} (h : Keeps s t) : Keeps s (putOp o t) := h.upd

protected theorem Keeps.toPlane {q route vc : Nat} {bs : List Nat} (h : Keeps s t) :
    Keeps s (toPlane q route vc bs t) := by
  unfold toPlane
  split
  · exact h.emit
  · exact h

protected theorem Keeps.sendNew {o : FabOp} (h : Keeps s t) : Keeps s (sendNew t o) := by
  unfold sendNew
  split
  · exact h
  · split
    · exact h.putOp
    · split
      · exact h
      · extract_lets +onlyGivenNames r
        have hr : Keeps s r.2 := by
          unfold r
          split
          · exact h
          · exact h.takeSeq
        exact (hr.putOp.when (·.upd)).toPlane

protected theorem Keeps.fabPump (h : Keeps s t) : Keeps s (fabPump t) := h.foldl (·.sendNew)

protected theorem Keeps.resendOp {o : FabOp} (h : Keeps s t) : Keeps s (resendOp t o) := by
  unfold resendOp
  extract_lets +onlyGivenNames _ _ one
  refine h.foldl fun hu => ?_
  unfold one
  split
  · exact hu.bump.putOp.toPlane
  · exact hu

protected theorem Keeps.resendFlow {key : Nat} (h : Keeps s t) : Keeps s (resendFlow key t) :=
  .ite (h.foldl (·.resendOp)) h

protected theorem Keeps.replan (h : Keeps s t) : Keeps s (replan t) := by
  unfold replan
  refine Keeps.fabPump ?_
  refine h.foldl fun hu => ?_
  split
  · exact .ite hu hu.resendFlow
  · exact hu

protected theorem Keeps.errorValue {dst size : Nat} (h : Keeps s t) : Keeps s (errorValue dst size t) :=
  h.putBytes.setMarks

protected theorem Keeps.putData {dst : Nat} {data : List Nat} {bad : Bool} (h : Keeps s t) :
    Keeps s (putData dst data bad t) :=
  .ite (.ite h.emit h) (h.storeLocal.when (·.setMarks))

protected theorem Keeps.opResult {o : FabOp} {st old : Nat} {data : List Nat} (h : Keeps s t) :
    Keeps s (opResult o st old data t) := by
  unfold opResult
  split
  · exact h
  · split
    · exact .ite h.putData h.errorValue
    · exact .ite h.putData h
    · exact .ite h.storeLocal h

protected theorem Keeps.fenceNote {num : Nat} (h : Keeps s t) : Keeps s (fenceNote num t) := h.upd.foldl (·.complete)
protected theorem Keeps.sashNote {half : Half} {num st : Nat} (h : Keeps s t) : Keeps s (sashNote half num st t) :=
  h.upd

protected theorem Keeps.sendCtrl {kind target status step : Nat} (h : Keeps s t) :
    Keeps s (sendCtrl kind target status step t) :=
  .ite h h.upd.fabPump

protected theorem Keeps.endStepAt {step status : Nat} (h : Keeps s t) : Keeps s (endStepAt step status t) :=
  .ite (h.stepDies.foldl (·.sendCtrl)) h

protected theorem Keeps.portionFailed {step status : Nat} (h : Keeps s t) : Keeps s (portionFailed step status t) := by
  unfold portionFailed
  split
  · exact h.endStepAt
  · split
    · exact h.sendCtrl
    · exact h

protected theorem Keeps.noteStatus {o : FabOp} {st : Nat} (h : Keeps s t) : Keeps s (noteStatus o st t) := by
  unfold noteStatus
  split
  · exact h
  · exact .ite h (.ite h.upd h.portionFailed)

protected theorem Keeps.endOp {o : FabOp} {st old : Nat} {data : List Nat} (h : Keeps s t) :
    Keeps s (endOp o st old data t) := by
  unfold endOp
  split
  · exact h
  · extract_lets +onlyGivenNames r _ _ _ _ _ s3 s4
    have hr : Keeps s r.2 := by
      unfold r
      split
      · exact h.takeSeq
      · exact h
    have h3 : Keeps s s3 := hr.upd.opResult.whenNot (·.complete)
    have h4 : Keeps s s4 := by
      unfold s4
      split
      · exact h3.sashNote
      · exact h3
    exact h4.fenceNote.noteStatus

protected theorem Keeps.endDead {target : Nat} {o : FabOp} (h : Keeps s t) : Keeps s (endDead target t o) :=
  .ite h.upd h.bump.fabFault.endOp
protected theorem Keeps.markDead {target : Nat} (h : Keeps s t) : Keeps s (markDead t target) :=
  h.setBit.foldl (·.endDead)
protected theorem Keeps.refuseOp {target : Nat} {o : FabOp} (h : Keeps s t) : Keeps s (refuseOp target o t) :=
  h.bump.fabFault.endOp

protected theorem Keeps.holdOp {o : FabOp} (h : Keeps s t) : Keeps s (holdOp o t) := by
  unfold holdOp
  extract_lets +onlyGivenNames _ _ _
  split
  · exact h.upd.complete
  · exact h.upd

protected theorem Keeps.issueOp {o : FabOp} {logical : Nat} (h : Keeps s t) : Keeps s (issueOp o logical t) := by
  unfold issueOp
  extract_lets +onlyGivenNames o1 _ s1 _ add
  have h1 : Keeps s s1 := h.upd
  have hadd (x : FabOp) : Keeps s (add x) := h1.upd
  split
  · exact (hadd _).refuseOp
  · extract_lets +onlyGivenNames o2
    split
    · exact (hadd o2).endDead
    · exact .ite h1.holdOp (hadd o2).fabPump

protected theorem Keeps.operandCheck {a n : Nat} (h : Keeps s t) : Keeps s (operandCheck a n t) := h.localDetect
protected theorem Keeps.remoteOp {i : Ins} {k : FabKind} {r : RIns} (h : Keeps s t) : Keeps s (remoteOp i k r t) :=
  h.operandCheck.issueOp

protected theorem KeepsNext.remoteIssue {place : Nat} {m : String} {i : Ins} {k : FabKind} {r : RIns} (h : Keeps s t) :
    KeepsNext s (remoteIssue place m i k r t) :=
  .ite (.next (h.issueWith (·.remoteOp))) .refused

protected theorem KeepsNext.execRload {i : Ins} {target job size offset loc : Nat} (h : Keeps s t) :
    KeepsNext s (execRload i target job size offset loc t) :=
  .remoteIssue h

protected theorem KeepsNext.execRstore {i : Ins} {target job size offset loc : Nat} (h : Keeps s t) :
    KeepsNext s (execRstore i target job size offset loc t) :=
  .remoteIssue h

protected theorem KeepsNext.execRfadd {i : Ins} {target job size offset loc : Nat} (h : Keeps s t) :
    KeepsNext s (execRfadd i target job size offset loc t) :=
  .remoteIssue h

protected theorem KeepsNext.execRcas {i : Ins} {target job size offset loc : Nat} (h : Keeps s t) :
    KeepsNext s (execRcas i target job size offset loc t) :=
  .remoteIssue h

protected theorem KeepsNext.execRmin {i : Ins} {target job size offset loc : Nat} (h : Keeps s t) :
    KeepsNext s (execRmin i target job size offset loc t) :=
  .remoteIssue h

protected theorem KeepsNext.execRmax {i : Ins} {target job size offset loc : Nat} (h : Keeps s t) :
    KeepsNext s (execRmax i target job size offset loc t) :=
  .remoteIssue h

protected theorem KeepsNext.execRreduce {i : Ins} {target job size : Nat} {form : Bool} {scale offset loc : Nat}
    (h : Keeps s t) : KeepsNext s (execRreduce i target job size form scale offset loc t) :=
  .remoteIssue h

protected theorem KeepsNext.execRmstore {i : Ins} {group job size offset loc : Nat} (h : Keeps s t) :
    KeepsNext s (execRmstore i group job size offset loc t) :=
  .remoteIssue h

protected theorem KeepsNext.execRfence {i : Ins} (h : Keeps s t) : KeepsNext s (execRfence i t) :=
  .next (h.issueWith (fun hu => .ite hu hu.upd))
protected theorem Keeps.retryOp {i : Ins} {r : RIns} (h : Keeps s t) : Keeps s (retryOp i r t) := h.operandCheck.issueOp

protected theorem KeepsNext.execRretry {i : Ins} {target job size offset loc : Nat} (h : Keeps s t) :
    KeepsNext s (execRretry i target job size offset loc t) :=
  .ite (.next (h.issueWith (·.retryOp))) .refused

protected theorem KeepsNext.execRetryIntervalExpire {time : Nat} (h : Keeps s t) :
    KeepsNext s (execRetryIntervalExpire time t) := by
  unfold execRetryIntervalExpire
  refine .next ?_
  extract_lets +onlyGivenNames _
  refine h.atTime.foldl fun hu => ?_
  split
  · exact .ite hu.resendFlow hu
  · exact hu

protected theorem KeepsNext.execLoadBoundExpire {time : Nat} (h : Keeps s t) :
    KeepsNext s (execLoadBoundExpire time t) :=
  .next (h.atTime.foldl (·.markDead))

protected theorem KeepsNext.execReplyCacheExpire {time : Nat} (h : Keeps s t) :
    KeepsNext s (execReplyCacheExpire time t) :=
  .next h.atTime.upd

protected theorem Keeps.releaseAtomic {o : FabOp} (h : Keeps s t) : Keeps s (releaseAtomic t o) :=
  .ite h.putOp.sendNew h

protected theorem KeepsNext.execAtomicThrottleRelease {time : Nat} (h : Keeps s t) :
    KeepsNext s (execAtomicThrottleRelease time t) :=
  .next (h.atTime.foldl (·.releaseAtomic))

/-! ### Memory instructions -/

protected theorem Keeps.loadInto {i : Ins} {addr len dst : Nat} {chk : List (Nat × Check)} {hostOk : Bool}
    (h : Keeps s t) : Keeps s (loadInto i addr len dst chk hostOk t) :=
  .ite h.devRead.deliver.upd h.storeLocal

protected theorem KeepsNext.execMemLoad {i : Ins} {addr len dst : Nat} {chk : List (Nat × Check)} {hostOk : Bool}
    (h : Keeps s t) : KeepsNext s (execMemLoad i addr len dst chk hostOk t) :=
  .next (h.issueWith (·.loadInto))

protected theorem Keeps.storePart {addr len : Nat} {chk : List (Nat × Check)} (h : Keeps s t) :
    Keeps s (storePart addr len chk t) :=
  (((Keeps.ite h h.bump).setMarks).foldl (·.bump.addRecovered)).foldl (·.addPoison)

protected theorem Keeps.storeFrom {c addr src len : Nat} {chk : List (Nat × Check)} (h : Keeps s t) :
    Keeps s (storeFrom c addr src len chk t) :=
  .ite h.localDetect.storePart.putBytes.setMarks h

protected theorem KeepsNext.execMemStore {i : Ins} {addr src len : Nat} {chk : List (Nat × Check)} (h : Keeps s t) :
    KeepsNext s (execMemStore i addr src len chk t) :=
  .next (h.issueWith (·.storeFrom))

protected theorem Keeps.atomicDo {c : Nat} {fn : AtomFn} {wide : Bool} {addr operand compare dst : Nat}
    {chk : List (Nat × Check)} (h : Keeps s t) : Keeps s (atomicDo c fn wide addr operand compare dst chk t) := by
  unfold atomicDo
  extract_lets +onlyGivenNames _ _
  split
  · split
    · exact h.bump.setMark.addPoison.setMark
    · exact (Keeps.ite h.bump.addRecovered h).putBytes.storeLocal
  · exact h.storeLocal

protected theorem KeepsNext.execMemAtomic {i : Ins} {fn : AtomFn} {wide : Bool} {addr operand compare dst : Nat}
    {chk : List (Nat × Check)} (h : Keeps s t) : KeepsNext s (execMemAtomic i fn wide addr operand compare dst chk t) :=
  .next (h.issueWith (·.atomicDo))

protected theorem KeepsNext.execMemFence {i : Ins} (h : Keeps s t) : KeepsNext s (execMemFence i t) :=
  .next (h.issueWith id)

protected theorem KeepsNext.execMemRelease {i : Ins} {addr src len : Nat} {chk : List (Nat × Check)} (h : Keeps s t) :
    KeepsNext s (execMemRelease i addr src len chk t) :=
  .next (h.issueWith (·.storeFrom))

protected theorem KeepsNext.execMemAcquire {i : Ins} {addr len dst : Nat} {chk : List (Nat × Check)} {hostOk : Bool}
    (h : Keeps s t) : KeepsNext s (execMemAcquire i addr len dst chk hostOk t) :=
  .next (h.issueWith (·.loadInto))

/-! ### Fabric packets -/

protected theorem Keeps.staleNotice {port : Nat} {p : Pkt} (h : Keeps s t) : Keeps s (staleNotice port p t) := by
  unfold staleNotice
  extract_lets +onlyGivenNames _ r _ _ s2
  have hr : Keeps s r.2 := h.bump.fabFault.takeSeq
  have h2 : Keeps s s2 := by
    unfold s2
    split
    · exact hr.toPlane
    · exact hr
  exact h2.emit

protected theorem Keeps.arrive {port : Fin 8} {kind : Nat} {bytes : List Nat} {time : Nat} (h : Keeps s t) :
    Keeps s (arrive port kind bytes time t).2 := by
  unfold arrive
  extract_lets +onlyGivenNames s0
  have h0 : Keeps s s0 := h.atTime
  split
  · exact h0
  · split
    · exact h0.bump
    · extract_lets +onlyGivenNames p
      cases hc : (if p.mcast then !inGroup s0 p.target else p.target != myId s0)
      · split
        · contradiction
        · split
          · exact h0
          · split
            · exact h0.bump
            · exact h0.staleNotice
      · exact h0

protected theorem Keeps.flowCheck {p : Pkt} (h : Keeps s t) : Keeps s (flowCheck p t).2 := by
  generalize e : flowCheck p t = r
  unfold flowCheck at e
  dsimp only at e
  split at e
  · split at e
    · exact e ▸ h.bump
    · generalize advance 4097 _ _ = a at e
      exact e ▸ h.upd
  · split at e
    · exact e ▸ h.upd
    · split at e
      · exact e ▸ h.bump
      · exact e ▸ h

protected theorem Keeps.sendReply {p : Pkt} {st aux : Nat} {payload : List Nat} (h : Keeps s t) :
    Keeps s (sendReply p st aux payload t) := by
  unfold sendReply
  extract_lets +onlyGivenNames _
  split
  · exact h.toPlane
  · exact h

protected theorem Keeps.remoteRead {chk : List (Nat × Check)} {hostOk : Bool} {p : Pkt} {a : Nat} (h : Keeps s t) :
    Keeps s (remoteRead chk hostOk p a t) :=
  h.devRead.upd.sendReply

protected theorem Keeps.remoteWrite {chk : List (Nat × Check)} {p : Pkt} {a : Nat} (h : Keeps s t) :
    Keeps s (remoteWrite chk p a t) :=
  (Keeps.ite h h.bump).setMarks.putBytes.sendReply

protected theorem Keeps.cachePut {p r : Pkt} (h : Keeps s t) : Keeps s (cachePut p r t) := h.upd

protected theorem Keeps.remoteAtomic {chk : List (Nat × Check)} {p : Pkt} {a : Nat} (h : Keeps s t) :
    Keeps s (remoteAtomic chk p a t) := by
  unfold remoteAtomic
  extract_lets +onlyGivenNames _ _ _
  split
  · exact h.bump.setMark.cachePut.sendReply
  · exact (Keeps.ite h.bump h).putBytes.cachePut.sendReply

protected theorem Keeps.reduceInto {a : Nat} {part : LAcc} (h : Keeps s t) : Keeps s (reduceInto a part t) :=
  ((Keeps.ite h.upd (.ite h.upd h)).when (·.bump)).putBytes

protected theorem Keeps.remoteReduce {chk : List (Nat × Check)} {p : Pkt} {a : Nat} (h : Keeps s t) :
    Keeps s (remoteReduce chk p a t) :=
  (h.bump.setMarks.foldl (·.reduceInto)).setMarks.sendReply

protected theorem Keeps.denyPkt {port : Nat} {p : Pkt} (h : Keeps s t) : Keeps s (denyPkt port p t) :=
  (h.bump.fabFault.when (·.cachePut)).sendReply

protected theorem Keeps.performPkt {port : Nat} {chk : List (Nat × Check)} {hostOk : Bool} {p : Pkt} (h : Keeps s t) :
    Keeps s (performPkt port chk hostOk p t) := by
  unfold performPkt
  split
  · exact h.denyPkt
  · split
    · exact h.remoteRead
    · exact h.remoteRead
    · exact h.remoteReduce
    · exact h.remoteWrite
    · exact h.remoteWrite
    · exact h.remoteWrite
    · exact h.remoteAtomic

protected theorem Keeps.againPkt {port : Nat} {chk : List (Nat × Check)} {hostOk : Bool} {p : Pkt} (h : Keeps s t) :
    Keeps s (againPkt port chk hostOk p t) := by
  unfold againPkt
  split
  · exact h.performPkt
  · split
    · split
      · exact h.bump.sendReply
      · exact h.bump.sendReply
    · exact h.sendReply

protected theorem Keeps.takeRequest {kind : Nat} {port : Fin 8} {bytes : List Nat} {chk : List (Nat × Check)} {hostOk : Bool}
    {time : Nat} (h : Keeps s t) : Keeps s (takeRequest kind port bytes chk hostOk time t) := by
  have ha : Keeps s (arrive port kind bytes time t).2 := h.arrive
  unfold takeRequest
  split
  · next e => rw [e] at ha; exact ha
  · next p u e =>
    have hu : Keeps s u := by rw [e] at ha; exact ha
    have hf : Keeps s (flowCheck p u).2 := hu.flowCheck
    split
    · next e => rw [e] at hf; exact hf
    · next e => rw [e] at hf; exact hf.againPkt
    · next e => rw [e] at hf; exact hf.performPkt

protected theorem KeepsNext.execLoad {port : Fin 8} {bytes : List Nat} {chk : List (Nat × Check)} {hostOk : Bool}
    {time : Nat} (h : Keeps s t) : KeepsNext s (execLoad port bytes chk hostOk time t) :=
  .next h.takeRequest

protected theorem KeepsNext.execStore {port : Fin 8} {bytes : List Nat} {chk : List (Nat × Check)} {time : Nat}
    (h : Keeps s t) : KeepsNext s (execStore port bytes chk time t) :=
  .next h.takeRequest

protected theorem KeepsNext.execFadd {port : Fin 8} {bytes : List Nat} {chk : List (Nat × Check)} {time : Nat}
    (h : Keeps s t) : KeepsNext s (execFadd port bytes chk time t) :=
  .next h.takeRequest

protected theorem KeepsNext.execCas {port : Fin 8} {bytes : List Nat} {chk : List (Nat × Check)} {time : Nat}
    (h : Keeps s t) : KeepsNext s (execCas port bytes chk time t) :=
  .next h.takeRequest

protected theorem KeepsNext.execMin {port : Fin 8} {bytes : List Nat} {chk : List (Nat × Check)} {time : Nat}
    (h : Keeps s t) : KeepsNext s (execMin port bytes chk time t) :=
  .next h.takeRequest

protected theorem KeepsNext.execMax {port : Fin 8} {bytes : List Nat} {chk : List (Nat × Check)} {time : Nat}
    (h : Keeps s t) : KeepsNext s (execMax port bytes chk time t) :=
  .next h.takeRequest

protected theorem KeepsNext.execReduce {port : Fin 8} {bytes : List Nat} {chk : List (Nat × Check)} {time : Nat}
    (h : Keeps s t) : KeepsNext s (execReduce port bytes chk time t) :=
  .next h.takeRequest

protected theorem KeepsNext.execMstore {port : Fin 8} {bytes : List Nat} {chk : List (Nat × Check)} {time : Nat}
    (h : Keeps s t) : KeepsNext s (execMstore port bytes chk time t) :=
  .next h.takeRequest

protected theorem KeepsNext.execBulkWrite {port : Fin 8} {bytes : List Nat} {chk : List (Nat × Check)} {time : Nat}
    (h : Keeps s t) : KeepsNext s (execBulkWrite port bytes chk time t) :=
  .next h.takeRequest

protected theorem KeepsNext.execBulkRead {port : Fin 8} {bytes : List Nat} {chk : List (Nat × Check)} {hostOk : Bool}
    {time : Nat} (h : Keeps s t) : KeepsNext s (execBulkRead port bytes chk hostOk time t) :=
  .next h.takeRequest

protected theorem Keeps.acknowledge {port : Nat} {p : Pkt} (h : Keeps s t) : Keeps s (acknowledge port p t) := by
  unfold acknowledge
  split
  · exact h.bump
  · extract_lets +onlyGivenNames s1
    have h1 : Keeps s s1 := .ite h.fabFault h
    exact .ite h1.upd (.ite h1.putOp.noteStatus h1.endOp)

protected theorem KeepsNext.execReply {port : Fin 8} {bytes : List Nat} {time : Nat} (h : Keeps s t) :
    KeepsNext s (execReply port bytes time t) := by
  have ha : Keeps s (arrive port 0x10 bytes time t).2 := h.arrive
  unfold execReply
  refine .next ?_
  split
  · next e => rw [e] at ha; exact ha
  · next e => rw [e] at ha; exact ha.acknowledge

protected theorem KeepsNext.execSync {port : Fin 8} {bytes : List Nat} {time : Nat} (h : Keeps s t) :
    KeepsNext s (execSync port bytes time t) := by
  have ha : Keeps s (arrive port 0x20 bytes time t).2 := h.arrive
  unfold execSync
  refine .next ?_
  split
  · next e => rw [e] at ha; exact ha
  · next e => rw [e] at ha; exact .ite ha.upd ha

protected theorem Keeps.takeControl {kind : Nat} {port : Fin 8} {bytes : List Nat} {time : Nat} {eff : Pkt → State → State}
    (h : Keeps s t) (heff : ∀ {p u}, Keeps s u → Keeps s (eff p u)) : Keeps s (takeControl kind port bytes time eff t) := by
  have ha : Keeps s (arrive port kind bytes time t).2 := h.arrive
  unfold takeControl
  split
  · next e => rw [e] at ha; exact ha
  · next p u e =>
    have hu : Keeps s u := by rw [e] at ha; exact ha
    have hf : Keeps s (flowCheck p u).2 := hu.flowCheck
    split
    · exact hu.denyPkt
    · split
      · next e => rw [e] at hf; exact hf
      · next e => rw [e] at hf; exact hf.sendReply
      · next e => rw [e] at hf; exact (heff hf).sendReply

protected theorem KeepsNext.execStepAbort {port : Fin 8} {bytes : List Nat} {time : Nat} (h : Keeps s t) :
    KeepsNext s (execStepAbort port bytes time t) :=
  .next (h.takeControl (·.discardStep.fabFault))

protected theorem KeepsNext.execPortionFailed {port : Fin 8} {bytes : List Nat} {time : Nat} (h : Keeps s t) :
    KeepsNext s (execPortionFailed port bytes time t) :=
  .next (h.takeControl (fun hu => .ite hu.endStepAt hu))

protected theorem Keeps.quarantine {target plane : Nat} (h : Keeps s t) : Keeps s (quarantine target plane t) :=
  ((h.setF.setF.foldl (·.stepDies)).foldl (·.discardStep)).fabFault.alert

protected theorem KeepsNext.execStaleNotice {port : Fin 8} {bytes : List Nat} {time : Nat} (h : Keeps s t) :
    KeepsNext s (execStaleNotice port bytes time t) :=
  .next (.ite h.atTime (.ite h.atTime.bump (h.atTime.when (·.quarantine))))

protected theorem Keeps.classifyPort {pos p : Nat} (h : Keeps s t) : Keeps s (classifyPort pos t p) :=
  .ite h.setF.setF h.setF.setF

protected theorem Keeps.comparePlan {pos : Nat} {plan : List PlanPos} (h : Keeps s t) :
    Keeps s (comparePlan pos plan t) :=
  h.setF.setF.setF.setF.setB.setF.putDev

protected theorem Keeps.setFabState {v : Nat} (h : Keeps s t) : Keeps s (setFabState v t) := .ite h h.setF

protected theorem Keeps.discovery (h : Keeps s t) : Keeps s (discovery t) := by
  unfold discovery
  split
  · exact h.setFabState
  · split
    · exact h.upd.setFabState
    · extract_lets +onlyGivenNames _ _ s2
      have h2 : Keeps s s2 := (h.upd.foldl (·.classifyPort)).comparePlan
      exact .ite h2.setB.setF.setFabState h2.setFabState

protected theorem Keeps.rediscover (h : Keeps s t) : Keeps s (rediscover t) := .ite h.discovery.replan h

protected theorem KeepsNext.execDiscover {port : Fin 8} {rack : Fin 2} {plane : Fin 8} {swPort : Fin 64} {time : Nat}
    (h : Keeps s t) : KeepsNext s (execDiscover port rack plane swPort time t) :=
  .next (h.atTime.when (·.setB.setF.setF.setF.setF.upd.rediscover))

protected theorem KeepsNext.execPlaneAnnouncement {plane : Fin 8} {l : List (Nat × Nat × Nat)} {time : Nat}
    (h : Keeps s t) : KeepsNext s (execPlaneAnnouncement plane l time t) :=
  .next (h.atTime.when (fun hu => .replan (hu.upd.discovery.foldl (·.markDead))))

protected theorem Keeps.portService {p : Nat} {on : Bool} (h : Keeps s t) : Keeps s (portService p on t) :=
  .ite h (h.configChange (·.setBit))
protected theorem Keeps.portGone {p link cause : Nat} (h : Keeps s t) : Keeps s (portGone p link cause t) :=
  h.setF.upd.portService.fabFault.rediscover
protected theorem Keeps.portTrained {p : Nat} (h : Keeps s t) : Keeps s (portTrained p t) := h.setF.upd.portService.emit
protected theorem Keeps.portShut {p : Nat} (h : Keeps s t) : Keeps s (portShut p t) := .ite h h.portGone

protected theorem KeepsNext.execLaneTrain {port : Fin 8} {reversed : Bool} {good : Fin 32} {keyOk : Bool} {time : Nat}
    (h : Keeps s t) : KeepsNext s (execLaneTrain port reversed good keyOk time t) := by
  unfold execLaneTrain
  extract_lets +onlyGivenNames _
  refine .next ?_
  split
  · exact h.atTime
  · extract_lets +onlyGivenNames s1
    have h1 : Keeps s s1 := h.atTime.setB.setB.setF
    exact .ite h1.portShut (.ite h1.upd.portTrained h1.portGone)

protected theorem KeepsNext.execLaneFail {port : Fin 8} {lane : Fin 5} {time : Nat} (h : Keeps s t) :
    KeepsNext s (execLaneFail port lane time t) := by
  unfold execLaneFail
  extract_lets +onlyGivenNames _
  refine .next ?_
  split
  · extract_lets +onlyGivenNames s1
    have h1 : Keeps s s1 := h.atTime.setBit
    exact .ite h1.portShut (h1.when (·.setF))
  · exact h.atTime

protected theorem KeepsNext.execLaneRecal {port : Fin 8} (h : Keeps s t) : KeepsNext s (execLaneRecal port t) :=
  .next (.ite h.bump h)

protected theorem KeepsNext.execFrameAuthFail {_port : Fin 8} (h : Keeps s t) :
    KeepsNext s (execFrameAuthFail _port t) :=
  .next h

protected theorem KeepsNext.execLinkKeyRenew {port : Fin 8} {time : Nat} (h : Keeps s t) :
    KeepsNext s (execLinkKeyRenew port time t) :=
  .next (h.atTime.when (·.upd))

protected theorem KeepsNext.execFabricPortStateChange {port : Fin 8} {link : Fin 5} {time : Nat} (h : Keeps s t) :
    KeepsNext s (execFabricPortStateChange port link time t) := by
  unfold execFabricPortStateChange
  extract_lets +onlyGivenNames _
  refine .next ?_
  split
  · exact h.atTime
  · extract_lets +onlyGivenNames s1
    have h1 : Keeps s s1 := by
      unfold s1
      split
      · exact h.atTime.portTrained.rediscover
      · exact h.atTime.portGone
      · exact h.atTime.portGone
    exact h1.when (·.quarantine)

protected theorem Keeps.syncTo {m : Nat} (h : Keeps s t) : Keeps s (syncTo m t) := by
  unfold syncTo
  extract_lets +onlyGivenNames _
  refine h.foldl fun hu => ?_
  extract_lets +onlyGivenNames _ _
  split
  · exact hu.toPlane
  · exact hu

protected theorem Keeps.setMap {f : Nat → Fld} {v : Nat} (h : Keeps s t) : Keeps s (setMap f v t) := h.foldl (·.setF)

protected theorem Keeps.applyMember (h : Keeps s t) : Keeps s (applyMember t) := by
  unfold applyMember
  split
  · extract_lets +onlyGivenNames _ _ _ _ _ _ _ s3
    have h3 : Keeps s s3 := h.upd.setMap.setF.setF.setF.foldl (·.setBit)
    exact ((Keeps.ite h3.setF.setF (h3.when (·.setF))).when (·.foldl (·.syncTo))).fabPump.irqBoth
  · exact h

protected theorem KeepsNext.execMemberApply {p : Port} {host : HostMem} {authOk : Bool} (h : Keeps s t) :
    KeepsNext s (execMemberApply p host authOk t) := by
  unfold execMemberApply
  refine .next ?_
  refine h.viaPf0 fun hu => ?_
  split
  · exact hu
  · extract_lets +onlyGivenNames _ bad
    have hbad : Keeps s bad := hu.setF.irqBoth
    split
    · exact hbad
    · exact .ite hu.upd.setF.setF hbad

/-! ### Images -/

protected theorem Keeps.setGroup {g v : Nat} (h : Keeps s t) : Keeps s (setGroup g v t) := h.setF
protected theorem Keeps.imageRefused {b : ImgBad} (h : Keeps s t) : Keeps s (imageRefused b t) :=
  .imageEnds (h.foldl (·.setGroup))
protected theorem Keeps.imageDone (h : Keeps s t) : Keeps s (imageDone t) := h.imageEnds
protected theorem Keeps.placeImage {d : ImageDesc} (h : Keeps s t) : Keeps s (placeImage d t) :=
  (h.foldl (·.setExtent)).putRuns.putRuns
protected theorem Keeps.writeWindows {ws : List JobWin} (h : Keeps s t) : Keeps s (writeWindows ws t) :=
  (Keeps.ite h.zeroRange h).putDev
protected theorem Keeps.freeArea (h : Keeps s t) : Keeps s (freeArea t) := h.releaseExtents.upd
protected theorem Keeps.clearPool (h : Keeps s t) : Keeps s (clearPool t) := h.upd
protected theorem Keeps.showRegions {pages capture : Nat} (h : Keeps s t) : Keeps s (showRegions pages capture t) :=
  h.setF.setF
protected theorem Keeps.showImage {i : ImageDesc} (h : Keeps s t) : Keeps s (showImage i t) :=
  (h.setF.setF.setB.setB.setF.setB.showRegions.foldl (·.setF)).foldl (·.setGroup)
protected theorem Keeps.refetchPins {old new : ImageDesc} (h : Keeps s t) : Keeps s (refetchPins old new t) := h.upd
protected theorem Keeps.dropLoads (h : Keeps s t) : Keeps s (dropLoads t) := h.emptySlot.emptySlot.foldl (·.freeSmall)

protected theorem Keeps.installWhole {d : ImageDesc} (h : Keeps s t) : Keeps s (installWhole d t) := by
  unfold installWhole
  extract_lets +onlyGivenNames s1
  have h1 : Keeps s s1 := by
    unfold s1
    split
    · exact h.dropLoads
    · exact .ite h.refetchPins h.dropLoads
  exact h1.clearPool.freeArea.placeImage.upd.showImage.writeWindows.upd.distRewrite.rediscover.applyPending.imageDone

protected theorem Keeps.applyWhole (h : Keeps s t) : Keeps s (applyWhole t) := by
  unfold applyWhole
  split
  · split
    · exact h
    · split
      · exact h.imageRefused
      · split
        · exact h.imageRefused
        · split
          · exact h.imageRefused
          · exact h.installWhole
  · exact h

protected theorem Keeps.installRegional {d : ImageDesc} (h : Keeps s t) : Keeps s (installRegional d t) :=
  (((h.upd.placeImage.foldl (·.setGroup)).foldl (·.setGroup)).whenNot (·.upd.setF.distRewrite)).applyPending.imageDone

protected theorem Keeps.applyRegional (h : Keeps s t) : Keeps s (applyRegional t) := by
  unfold applyRegional
  split
  · split
    · exact h
    · split
      · exact h.imageRefused
      · split
        · exact h.imageRefused
        · exact h.installRegional
  · exact h

protected theorem Keeps.dropImage (h : Keeps s t) : Keeps s (dropImage t) :=
  .rediscover ((h.upd.freeArea.dropLoads.clearPool.setF.setF.setF.setF.showRegions.setF.setF.foldl (·.setF)).foldl (·.setGroup))
protected theorem KeepsNext.execImageGo {p : Port} (h : Keeps s t) : KeepsNext s (execImageGo p t) :=
  .next (h.viaPf0 (fun hu => .ite hu hu.setF.setF.setF.upd))

protected theorem KeepsNext.execImageAbort {p : Port} (h : Keeps s t) : KeepsNext s (execImageAbort p t) := by
  unfold execImageAbort
  refine .next ?_
  refine h.viaPf0 fun hu => ?_
  split
  · exact hu.imageRefused
  · exact hu

protected theorem KeepsNext.execImageFetchDone {ok : Bool} {d : ImageDesc} (h : Keeps s t) :
    KeepsNext s (execImageFetchDone ok d t) := by
  unfold execImageFetchDone
  refine .next ?_
  split
  · extract_lets +onlyGivenNames s1 _
    have h1 : Keeps s s1 := h.setF.setF
    split
    · exact h.imageRefused
    · split
      · exact h.setF.imageRefused
      · split
        · exact h1.setF.imageRefused
        · split
          · exact h1.setF.imageRefused
          · split
            · exact h1.setF.imageRefused
            · exact (h1.setF.foldl (·.setGroup)).upd
  · exact h

protected theorem KeepsNext.execWholeApply (h : Keeps s t) : KeepsNext s (execWholeApply t) :=
  .next (.ite h.applyWhole h)
protected theorem KeepsNext.execRegionalApply (h : Keeps s t) : KeepsNext s (execRegionalApply t) :=
  .next (.ite h.applyRegional h)

/-! ### Descriptor queues -/

protected theorem Keeps.setSashQueue {half : Half} {q : List SashEnt} (h : Keeps s t) :
    Keeps s (setSashQueue t half q) :=
  h.upd

protected theorem Keeps.movEnqueue {i : Ins} {granule : Nat} {commons : Bool} {n : Nat} (h : Keeps s t) :
    Keeps s (movEnqueue i granule commons n t) :=
  h.localDetect.setSashQueue.upd.grantTo

protected theorem KeepsNext.execMov {i : Ins} {descGranule : Nat} {commons : Bool} {countMinus1 : Fin 64}
    (h : Keeps s t) : KeepsNext s (execMov i descGranule commons countMinus1 t) :=
  .next (.ite h.stalled (h.issueWith (·.movEnqueue)))

protected theorem Keeps.keepPoison {old : State} (h : Keeps s t) : Keeps s (keepPoison old t) :=
  h.upd

protected theorem Keeps.readRow {chk : List (Nat × Check)} {hostOk : Bool} {host : HostMem} {sp core a n : Nat} {r : SrcRow}
    (h : Keeps s t) (e : readRow chk hostOk host sp core a n t = some r) : Keeps s r.s := by
  unfold readRow at e
  dsimp only at e
  split at e
  · obtain ⟨_, -, rfl⟩ := Option.map_eq_some_iff.mp e
    exact h
  · obtain ⟨_, -, rfl⟩ := Option.map_eq_some_iff.mp e
    exact h
  · obtain rfl := Option.some.inj e
    exact h.devRead.upd.keepPoison
  · obtain rfl := Option.some.inj e
    exact h.bump

protected theorem Keeps.putRow {d : Desc} {r : Nat} {o : List Nat × List Nat} (h : Keeps s t) :
    Keeps s (putRow d r o t) :=
  .ite (.ite h.emit h) h.storeLocal.setMarks

protected theorem Keeps.bulkOp {k : FabKind} {half : Half} {e : SashEnt} {d : Desc} {offset n dst ord : Nat}
    {payload : List Nat} (h : Keeps s t) : Keeps s (bulkOp k half e d offset n dst ord payload t) :=
  h.issueOp

protected theorem Keeps.setEnt {half : Half} {e : SashEnt} (h : Keeps s t) : Keeps s (setEnt half e t) := h.setSashQueue
protected theorem Keeps.refuseDesc {half : Half} {e : SashEnt} (h : Keeps s t) : Keeps s (refuseDesc half e t) :=
  h.setEnt.bump.engFault

protected theorem Keeps.sendBulk {half : Half} {e : SashEnt} {d : Desc} {rows : List (Nat × List Nat)} (h : Keeps s t) :
    Keeps s (sendBulk half e d rows t) :=
  (h.setEnt.foldl (·.bulkOp)).when (·.setSashQueue)

protected theorem Keeps.readBulk {half : Half} {e : SashEnt} {d : Desc} (h : Keeps s t) :
    Keeps s (readBulk half e d t) :=
  h.setEnt.foldl (·.bulkOp)

protected theorem Keeps.gatherRows {chk : List (Nat × Check)} {hostOk : Bool} {host : HostMem} {d : Desc}
    {r : State × List (Nat × List Nat × List Nat)} (h : Keeps s t) (e : gatherRows chk hostOk host d t = some r) :
    Keeps s r.1 := by
  refine .foldlBind Prod.fst h (fun {i x y} hx ey => ?_) e
  split at ey
  · obtain rfl := Option.some.inj ey
    exact hx
  · obtain ⟨z, ez, rfl⟩ := Option.map_eq_some_iff.mp ey
    exact hx.readRow ez

protected theorem Keeps.runDesc {half : Half} {chk : List (Nat × Check)} {hostOk : Bool} {host : HostMem} {e : SashEnt}
    (h : Keeps s t) : Keeps s (runDesc half chk hostOk host e t) := by
  unfold runDesc
  extract_lets +onlyGivenNames _
  split
  · exact h.refuseDesc
  · split
    · exact h.bump.refuseDesc.noteStatus
    · split
      · exact .ite h.refuseDesc h.readBulk
      · split
        · exact h.setEnt.addPoison
        · next u rows eu =>
          have hu : Keeps s u := h.gatherRows eu
          extract_lets +onlyGivenNames _ s2
          have h2 : Keeps s s2 := hu.when (·.addPoison)
          exact .ite h2.sendBulk (.setEnt (h2.foldl (·.putRow)))

protected theorem Keeps.startDesc {op : Nat} {half : Half} {chk : List (Nat × Check)} {hostOk : Bool} {host : HostMem}
    (h : Keeps s t) : Keeps s (startDesc op half chk hostOk host t) := by
  unfold startDesc
  split
  · exact h.runDesc
  · exact h

protected theorem KeepsNext.execCopy {half : Half} {chk : List (Nat × Check)} {hostOk : Bool} {host : HostMem}
    (h : Keeps s t) : KeepsNext s (execCopy half chk hostOk host t) :=
  .next h.startDesc

protected theorem KeepsNext.execCopy2d {half : Half} {chk : List (Nat × Check)} {hostOk : Bool} {host : HostMem}
    (h : Keeps s t) : KeepsNext s (execCopy2d half chk hostOk host t) :=
  .next h.startDesc

protected theorem KeepsNext.execFillZero {half : Half} (h : Keeps s t) : KeepsNext s (execFillZero half t) :=
  .next h.startDesc

protected theorem KeepsNext.execPageToKt {half : Half} {chk : List (Nat × Check)} {hostOk : Bool} {host : HostMem}
    (h : Keeps s t) : KeepsNext s (execPageToKt half chk hostOk host t) :=
  .next h.startDesc

protected theorem KeepsNext.execPageToVx {half : Half} {chk : List (Nat × Check)} {hostOk : Bool} {host : HostMem}
    (h : Keeps s t) : KeepsNext s (execPageToVx half chk hostOk host t) :=
  .next h.startDesc

protected theorem Keeps.notifyDesc {d : Desc} {st : Nat} (h : Keeps s t) : Keeps s (notifyDesc d st t) :=
  .ite h.storeLocal h

protected theorem KeepsNext.execSashDescriptorDone {half : Half} {place : Fin 64} {latency : Nat} (h : Keeps s t) :
    KeepsNext s (execSashDescriptorDone half place latency t) := by
  unfold execSashDescriptorDone
  refine .next ?_
  split
  · exact h
  · extract_lets +onlyGivenNames _ _
    split
    · exact h.setSashQueue.notifyDesc.whenNot (·.complete)
    · exact .ite (h.refuseDesc.setSashQueue.notifyDesc.whenNot (·.complete)) h

end Sys2Proof.Machine
end

