-- ==== Sys2Proof/Proofs/KeepsServing.lean ====
section
/-!
SUPPORT. Proofs/KeepsServing.lean: the operations and commands of portions, pages, admission, security and step
boundaries keep the canonical form.
-/
namespace Sys2Proof.Machine

set_option Elab.async false

variable {s t u : State}

/-! ### Portions -/

protected theorem Keeps.startPortion {half : StepHeader} {leases : List Nat} (h : Keeps s t) :
    Keeps s (startPortion half leases t) :=
  h.upd

protected theorem Keeps.countAttention {half : StepHeader} (h : Keeps s t) : Keeps s (countAttention half t) := by
  unfold countAttention
  split
  · exact h
  · exact h.bump.bump.bump

protected theorem Keeps.commitRoute {step : Nat} {r : RouteRec} (h : Keeps s t) : Keeps s (commitRoute step t r) :=
  h.bump.bump.bump.bump.upd.ringPut
protected theorem Keeps.captureFinal {p : Portion} (h : Keeps s t) : Keeps s (captureFinal p t) :=
  .ite h (.ite h.captureEnds (.ite h.captureEnds h.putDev.setB.upd.captureEnds))
protected theorem Keeps.finalCtx {p : Portion} {st : Nat} {r : ReqRec} (h : Keeps s t) : Keeps s (finalCtx p st t r) :=
  h.modCtx
protected theorem Keeps.finalCtxs {p : Portion} {st : Nat} (h : Keeps s t) : Keeps s (finalCtxs p st t) :=
  (h.foldl (fun hu => .ite hu.modCtx hu)).whenNot (·.foldl (·.finalCtx))

protected theorem Keeps.releaseOp {n : Nat} (h : Keeps s t) : Keeps s (releaseOp t n) := by
  unfold releaseOp
  split
  · exact h
  · extract_lets +onlyGivenNames _ _
    split
    · exact h.putOp.endDead
    · exact h.putOp.fabPump

protected theorem Keeps.releasePortion {p : Portion} (h : Keeps s t) : Keeps s (releasePortion t p) := by
  unfold releasePortion
  extract_lets +onlyGivenNames _ s2
  have h2 : Keeps s s2 := (h.upd.foldl (·.releaseOp)).emit
  exact h2.upd

protected theorem Keeps.releaseFinals {n : Nat} (h : Keeps s t) : Keeps s (releaseFinals n t) := by
  induction n generalizing t with
  | zero => exact h
  | succ n ih =>
    unfold releaseFinals
    split
    · exact ih h.releasePortion
    · exact h

protected theorem Keeps.pace {p : Portion} (h : Keeps s t) : Keeps s (pace p t) := h.upd.setF
protected theorem Keeps.portionFinal {st : Nat} {p : Portion} (h : Keeps s t) : Keeps s (portionFinal st p t) :=
  ((h.upd.releaseStepHolds.countEv.countAttention.foldl (·.commitRoute)).finalCtxs.captureFinal.pace.when
    (·.bump)).releaseFinals.drainSlots
protected theorem Keeps.portionDies {p : Portion} (h : Keeps s t) : Keeps s (portionDies p t) :=
  (Keeps.ite h.bump h).upd.dropEgress.upd.portionFailed.drainSlots
protected theorem Keeps.rerunPortion {p : Portion} (h : Keeps s t) : Keeps s (rerunPortion p t) :=
  h.bump.dropEgress.clearCores.upd

protected theorem KeepsNext.execPortionEnd {time : Nat} (h : Keeps s t) : KeepsNext s (execPortionEnd time t) := by
  unfold execPortionEnd
  refine .next ?_
  split
  · exact h
  · exact .ite h (.ite h.atTime.portionDies (.ite h.atTime.portionFinal (.ite h.atTime.portionFinal h.atTime.rerunPortion)))

protected theorem KeepsNext.execPortionRerunDone {time : Nat} (h : Keeps s t) :
    KeepsNext s (execPortionRerunDone time t) := by
  unfold execPortionRerunDone
  refine .next ?_
  split
  · exact h
  · exact .ite h (.ite h.atTime.portionDies h.atTime.portionFinal)

protected theorem Keeps.takeGen {half : StepHeader} (h : Keeps s t) : Keeps s (takeGen half t) :=
  h.activate.setF.drainSlots
protected theorem Keeps.noteGen {half : StepHeader} (h : Keeps s t) : Keeps s (noteGen half t) := h.setF.setF

protected theorem KeepsNext.execStepReceive {half : StepHeader} {time : Nat} (h : Keeps s t) :
    KeepsNext s (execStepReceive half time t) := by
  unfold execStepReceive
  refine .next ?_
  split
  · exact h
  · extract_lets +onlyGivenNames _ s1
    have h1 : Keeps s s1 := h.atTime.upd
    split
    · exact h1
    · extract_lets +onlyGivenNames _ s2
      have h2 : Keeps s s2 := h1.upd.noteGen
      exact .ite h2.upd.takeGen h2.upd.drainSlots.portionFailed

/-! ### Pages -/

protected theorem Keeps.applyAccepted {r : ReqRec} (h : Keeps s t) : Keeps s (applyAccepted t r) := by
  unfold applyAccepted
  split
  · exact h.rollback
  · exact h

protected theorem Keeps.entryRelease {step id : Nat} (h : Keeps s t) : Keeps s (entryRelease step t id) := by
  unfold entryRelease
  split
  · exact h
  · exact h.dropPages.zeroRange.setCtx

protected theorem Keeps.applyCommits {places : List Nat} (h : Keeps s t) : Keeps s (applyCommits places t) :=
  .foldlBy Prod.fst h (·.commitCtx)

protected theorem Keeps.quotaChange {step n : Nat} (h : Keeps s t) : Keeps s (quotaChange step t n) := by
  unfold quotaChange
  split
  · exact h
  · split
    · exact .ite h.setLease h
    · exact h

protected theorem Keeps.applyQuotas {step : Nat} (h : Keeps s t) : Keeps s (applyQuotas step t) :=
  (h.foldl (·.quotaChange)).foldl (fun hu => .ite hu hu.evictOver)

protected theorem Keeps.reserveSpans {id step gen pos : Nat} {verify : Bool} {ks : List Nat} (h : Keeps s t) :
    Keeps s (reserveSpans id step gen pos verify ks t) := by
  induction ks generalizing t with
  | nil => exact h
  | cons k ks ih =>
    unfold reserveSpans
    split
    · exact h
    · split
      · exact h
      · next e => exact ih (h.takePage e).setCtx

protected theorem Keeps.roomFor {lease need : Nat} (h : Keeps s t) : Keeps s (roomFor lease need t).2 := by
  unfold roomFor
  split
  · exact h
  · split
    · exact h
    · split
      · next e => exact h.makeRoom e
      · exact h

protected theorem Keeps.livePages {id step gen pos rows : Nat} {verify : Bool} (h : Keeps s t) :
    Keeps s (livePages id step gen pos rows verify t).2 := by
  unfold livePages
  split
  · exact h
  · extract_lets +onlyGivenNames _ _
    split
    · exact h.touchPages.roomFor.reserveSpans.syncTable
    · exact h

protected theorem Keeps.mapMatch {id : Nat} {m : Match} (h : Keeps s t) : Keeps s (mapMatch id m t) := h.modCtx

protected theorem Keeps.startWith {id step gen n : Nat} {m : Match} (h : Keeps s t) :
    Keeps s (startWith id step gen n m t).2 := by
  unfold startWith
  extract_lets +onlyGivenNames _
  split
  · exact h
  · extract_lets +onlyGivenNames _ _ _ _
    split
    · exact h
    · exact (Keeps.mapMatch (h.mapMatch.roomFor.foldl (·.startRestore))).touchPages.reserveSpans.syncTable

protected theorem Keeps.startPages {id step gen n : Nat} {m : Match} (h : Keeps s t) :
    Keeps s (startPages id step gen n m t).2.2 := by
  unfold startPages
  extract_lets
  split
  · exact h.startWith
  · exact h.startWith

protected theorem Keeps.newCopy {r : ReqRec} {d : ReqDesc} {st : StopSet} (h : Keeps s t) :
    Keeps s (newCopy r d st t) :=
  h.setCtx.countCtxs

protected theorem Keeps.admitRecord {half : StepHeader} {r : ReqRec} (h : Keeps s t) : Keeps s (admitRecord half t r) := by
  unfold admitRecord
  split
  · exact h
  · exact h.newCopy.modCtx.startPages.modCtx
  · exact .ite h.modCtx h.modCtx.livePages

protected theorem Keeps.applyHeader {places : List Nat} {half : StepHeader} (h : Keeps s t) :
    Keeps s (applyHeader places half t) :=
  (((Keeps.applyCommits (h.foldl (·.applyAccepted))).foldl (·.releaseCtx)).applyQuotas.foldl (·.admitRecord)).upd

/-! ### Admission -/

protected theorem Keeps.place {k : Cand} (h : Keeps s t) : Keeps s (place k t) := by
  unfold place
  split
  · exact h.setCtx.countCtxs
  · exact h.modCtx
  · exact h.modCtx

protected theorem Keeps.take1 {f : Fill} {k : Cand} (h : Keeps s f.s) : Keeps s (take1 f k).s := h.place

protected theorem Keeps.fillAuto {half : HostMem} {be : Bool} {f : Fill} {x : Nat × Ctx} (h : Keeps s f.s) :
    Keeps s (fillAuto half be f x).s := by
  unfold fillAuto
  extract_lets +onlyGivenNames _
  split
  · exact h
  · split
    · exact h
    · exact h.take1

protected theorem Keeps.setHead {p : Port} {be : Bool} {x : HeadSt} (h : Keeps s t) : Keeps s (setHead p be x t) :=
  h.upd
protected theorem Keeps.seeHead {p : Port} {be : Bool} (h : Keeps s t) : Keeps s (seeHead p be t) := h.setHead
protected theorem Keeps.consume {p : Port} {be : Bool} (h : Keeps s t) : Keeps s (consume p be t) :=
  (h.setP.when (·.setP)).upd.setHead.emit.countEv

protected theorem Keeps.checkInto {half : HostMem} {p : Port} {tag wait : Nat} {acc : State × List ((Nat × Nat) × Cand)}
    {x : Nat × List Nat} (h : Keeps s acc.1) : Keeps s (checkInto half p tag wait acc x).1 :=
  .ite h.place h

protected theorem Keeps.fillBatch {half : HostMem} {p : Port} {be : Bool} {step0 : Nat} {bs : List Nat} {f : Fill}
    (h : Keeps s f.s) : Keeps s (fillBatch half p be step0 bs f).s := by
  unfold fillBatch
  extract_lets +onlyGivenNames f1 x leave n raw wait
  have h1 : Keeps s f1.s := h.seeHead
  clear_value raw
  split
  · split
    · exact h1.setHead
    · split
      · exact h1.consume
      · exact h1
  · extract_lets +onlyGivenNames f2 o ok rows lc room
    have h2 : Keeps s f2.s := h1.setHead
    have ho : Keeps s o.1 := .foldlBy Prod.fst h2 (·.checkInto)
    split
    · split
      · exact h2.consume
      · exact h2
    · split
      · exact h2
      · exact ho.consume

protected theorem Keeps.fillRings {half : HostMem} {be : Bool} {step0 n : Nat} {f : Fill} (h : Keeps s f.s) :
    Keeps s (fillRings half be step0 n f).s := by
  induction n generalizing f with
  | zero => exact h
  | succ n ih =>
    unfold fillRings
    extract_lets
    split
    · exact h
    · split
      · exact h
      · exact ih (Keeps.fillBatch h.grantTo)

protected theorem Keeps.fillClass {half : HostMem} {be : Bool} {step0 : Nat} {f : Fill} (h : Keeps s f.s) :
    Keeps s (fillClass half be step0 f).s := by
  unfold fillClass
  extract_lets +onlyGivenNames f1
  have h1 : Keeps s f1.s := .foldlBy Fill.s h (·.fillAuto)
  exact h1.fillRings (f := { f1 with stay := [] })

protected theorem Keeps.fillStep {half : HostMem} {lcOnly : Bool} (h : Keeps s t) :
    Keeps s (fillStep half lcOnly t).s := by
  unfold fillStep
  extract_lets +onlyGivenNames _ f
  have hf : Keeps s f.s := h.fillClass
  split
  · exact hf
  · exact hf.fillClass

/-! ### Security -/

protected theorem Keeps.answer {rule : Nat} {data : List Nat} (h : Keeps s t) : Keeps s (answer rule data t) := h.emit
protected theorem Keeps.refuse {status res : Nat} (h : Keeps s t) : Keeps s (refuse status res t) := h.answer
protected theorem Keeps.done (h : Keeps s t) : Keeps s (done t) := h.answer

protected theorem Keeps.viaMgmt {f : State → State} (h : Keeps s t) (hf : ∀ {u}, Keeps s u → Keeps s (f u)) :
    Keeps s (viaMgmt t f) :=
  .ite (hf h) h

protected theorem Keeps.raiseFloor {x : FwComp × Nat} (h : Keeps s t) : Keeps s (raiseFloor x t) := by
  unfold raiseFloor
  extract_lets +onlyGivenNames _
  split
  · exact h.putKs
  · exact h.putKs

protected theorem Keeps.transactionRun (h : Keeps s t) : Keeps s (transactionRun t) := h.upd.foldl (·.raiseFloor)
protected theorem Keeps.boundaryRun (h : Keeps s t) : Keeps s (boundaryRun t) := h.upd.foldl (·.raiseFloor)

protected theorem KeepsNext.execSetEndpointId {eid : BitVec 8} (h : Keeps s t) :
    KeepsNext s (execSetEndpointId eid t) :=
  .next (h.viaMgmt (·.setF.transactionRun))

protected theorem KeepsNext.execEntdaa {addr : BitVec 7} (h : Keeps s t) : KeepsNext s (execEntdaa addr t) :=
  .next (h.viaMgmt (·.setF.setF))

protected theorem KeepsNext.execPldmSensorRead {sensor : Fin 10} (h : Keeps s t) :
    KeepsNext s (execPldmSensorRead sensor t) :=
  .next (h.viaMgmt (·.transactionRun.answer))

protected theorem KeepsNext.execPldmFirmwareUpdate {c : FwComp} {version : Nat} {floor miotric owner : Bool}
    {measure : List Nat} (h : Keeps s t) :
    KeepsNext s (execPldmFirmwareUpdate c version floor miotric owner measure t) :=
  .next (h.viaMgmt (fun hu => .ite hu.upd.transactionRun.answer hu.transactionRun.answer))

protected theorem KeepsNext.execGetCertificate {slot : Fin 8} (h : Keeps s t) :
    KeepsNext s (execGetCertificate slot t) :=
  .next (h.viaMgmt (·.transactionRun.answer))

protected theorem KeepsNext.execChallenge {slot : Fin 8} {nonce : List Nat} (h : Keeps s t) :
    KeepsNext s (execChallenge slot nonce t) :=
  .next (h.viaMgmt (fun hu => .ite hu.transactionRun.answer hu.refuse))

protected theorem KeepsNext.execGetMeasurements {index : Fin 11} {nonce : List Nat} (h : Keeps s t) :
    KeepsNext s (execGetMeasurements index nonce t) :=
  .next (h.viaMgmt (·.transactionRun.answer))

protected theorem Keeps.setSessions {l : List Spdm} (h : Keeps s t) : Keeps s (setSessions l t) := h.upd.setF

protected theorem KeepsNext.execKeyExchange {party : Party} {key : List Nat} {verified : Bool} (h : Keeps s t) :
    KeepsNext s (execKeyExchange party key verified t) :=
  .next (h.viaMgmt (fun hu => .ite hu.setSessions.transactionRun.answer hu.refuse))

protected theorem Keeps.asParty {n : Nat} {ok : Party → Bool} {f : State → State} (h : Keeps s t)
    (hf : ∀ {u}, Keeps s u → Keeps s (f u)) : Keeps s (asParty n ok t f) := by
  unfold asParty
  refine h.viaMgmt fun hu => ?_
  split
  · exact .ite ((hf hu).transactionRun) hu.refuse
  · exact hu.refuse

protected theorem KeepsNext.execTakeOwnership {sess : Nat} {tokenOk : Bool} (h : Keeps s t) :
    KeepsNext s (execTakeOwnership sess tokenOk t) := by
  unfold execTakeOwnership
  refine .next ?_
  refine h.asParty fun hu => ?_
  extract_lets +onlyGivenNames _
  split
  · exact .ite hu.refuse (.ite hu.refuse hu.putKs.ledgerSecurity.done)
  · exact hu

protected theorem Keeps.endAll (h : Keeps s t) : Keeps s (endAll t) := h.putKs

protected theorem Keeps.authorityRun {o : AuthOp} (h : Keeps s t) : Keeps s (authorityRun o t) := by
  unfold authorityRun
  extract_lets +onlyGivenNames _
  split
  · exact h.putKs.ledgerSecurity.fullZeroise
  · exact h.putKs.ledgerSecurity.fullZeroise
  · exact h.putKs.setF.ledgerSecurity.fullZeroise

protected theorem Keeps.authorityDue (h : Keeps s t) : Keeps s (authorityDue t) := by
  unfold authorityDue
  split
  · exact .ite h.upd.authorityRun h
  · exact h

protected theorem Keeps.startAuthority {o : AuthOp} (h : Keeps s t) : Keeps s (startAuthority o t) :=
  h.endAll.upd.authorityDue

protected theorem KeepsNext.execTransferOwnership {sess : Nat} {key : List Nat} (h : Keeps s t) :
    KeepsNext s (execTransferOwnership sess key t) :=
  .next (h.asParty (fun hu => .ite hu.refuse (.ite hu.refuse hu.done.startAuthority)))

protected theorem KeepsNext.execReleaseOwnership {sess : Nat} (h : Keeps s t) :
    KeepsNext s (execReleaseOwnership sess t) :=
  .next (h.asParty (fun hu => .ite hu.refuse hu.done.startAuthority))

protected theorem KeepsNext.execSetFwPolicy {sess : Nat} {minVersion : List Nat} {countersign : Bool} (h : Keeps s t) :
    KeepsNext s (execSetFwPolicy sess minVersion countersign t) :=
  .next (h.asParty (·.putKs.done))

protected theorem KeepsNext.execSetAppKey {sess : Nat} {key : List Nat} (h : Keeps s t) :
    KeepsNext s (execSetAppKey sess key t) :=
  .next (h.asParty (·.putKs.done))

protected theorem KeepsNext.execGlitchAck {sess : Nat} (h : Keeps s t) : KeepsNext s (execGlitchAck sess t) :=
  .next (h.asParty (·.putKs.done))

protected theorem KeepsNext.execSelftestExtended {sess : Nat} (h : Keeps s t) :
    KeepsNext s (execSelftestExtended sess t) :=
  .next (h.asParty (fun hu => .ite hu.putKs.done hu.refuse))

protected theorem Keeps.noteSeq {r : LeaseRecord} (h : Keeps s t) : Keeps s (noteSeq r t) := h.putKs

protected theorem KeepsNext.execLeaseAuthorise {sess : Nat} {r : LeaseRecord} (h : Keeps s t) :
    KeepsNext s (execLeaseAuthorise sess r t) := by
  unfold execLeaseAuthorise
  refine .next ?_
  refine h.asParty fun hu => ?_
  split
  · exact hu.refuse
  · split
    · exact hu.refuse
    · split
      · exact hu.refuse
      · exact hu.noteSeq.setLease.ledgerLease.done

protected theorem KeepsNext.execLeaseQuota {sess : Nat} {r : LeaseRecord} (h : Keeps s t) :
    KeepsNext s (execLeaseQuota sess r t) := by
  unfold execLeaseQuota
  refine .next ?_
  refine h.asParty fun hu => ?_
  split
  · exact .ite hu.noteSeq.setLease.done hu.refuse
  · exact hu.refuse

protected theorem KeepsNext.execLeaseEndRecord {sess : Nat} {r : LeaseRecord} (h : Keeps s t) :
    KeepsNext s (execLeaseEndRecord sess r t) := by
  unfold execLeaseEndRecord
  refine .next ?_
  refine h.asParty fun hu => ?_
  split
  · exact .ite hu.noteSeq.setLease.done hu.refuse
  · exact hu.refuse

protected theorem KeepsNext.execInstallLeaseKey {sess : Nat} (h : Keeps s t) :
    KeepsNext s (execInstallLeaseKey sess t) := by
  unfold execInstallLeaseKey
  refine .next ?_
  refine h.asParty fun hu => ?_
  split
  · exact .ite hu.refuse (.ite hu.refuse hu.setLease.ledgerLease.done)
  · exact hu.refuse

protected theorem KeepsNext.execPortBind {sess : Nat} {p : Port} (h : Keeps s t) :
    KeepsNext s (execPortBind sess p t) := by
  unfold execPortBind
  refine .next ?_
  refine h.asParty fun hu => ?_
  split
  · exact hu.setBit.done
  · exact hu.refuse

protected theorem KeepsNext.execPortUnbind {sess : Nat} {p : Port} (h : Keeps s t) :
    KeepsNext s (execPortUnbind sess p t) := by
  unfold execPortUnbind
  refine .next ?_
  refine h.asParty fun hu => ?_
  split
  · exact hu.setBit.done
  · exact hu.refuse

protected theorem KeepsNext.execLedgerRead {sess first count : Nat} (h : Keeps s t) :
    KeepsNext s (execLedgerRead sess first count t) :=
  .next (h.asParty (fun hu => .ite hu.refuse hu.answer))

protected theorem KeepsNext.execEraseReportRead {sess lease : Nat} (h : Keeps s t) :
    KeepsNext s (execEraseReportRead sess lease t) := by
  unfold execEraseReportRead
  refine .next ?_
  refine h.asParty fun hu => ?_
  split
  · exact hu.answer
  · exact hu.refuse

protected theorem KeepsNext.execBackgroundZeroiseDone {lease : Nat} (h : Keeps s t) :
    KeepsNext s (execBackgroundZeroiseDone lease t) :=
  .next (.ite h.putKs h)

protected theorem KeepsNext.execDebugChallenge {sess : Nat} (h : Keeps s t) : KeepsNext s (execDebugChallenge sess t) :=
  .next (h.asParty (·.upd.answer))

protected theorem KeepsNext.execDebugUnlock {sess : Nat} {miotric owner : Bool} (h : Keeps s t) :
    KeepsNext s (execDebugUnlock sess miotric owner t) :=
  .next (h.asParty (fun hu => .ite hu.refuse (.ite hu.upd.done.startAuthority hu.upd.refuse)))

protected theorem KeepsNext.execGlitchTrip {detector : Fin 6} (h : Keeps s t) :
    KeepsNext s (execGlitchTrip detector t) := by
  unfold execGlitchTrip
  refine .next ?_
  split
  · exact h
  · exact h
  · exact h
  · exact h.moduleReset.putKs.ledgerSecurity

protected theorem KeepsNext.execLeaseSelect {p : Port} {slot : Fin 16} (h : Keeps s t) :
    KeepsNext s (execLeaseSelect p slot t) :=
  .next (h.viaPf0 (·.setP.setP.setP.setP.setP.setP))

protected theorem Keeps.activateFw {f : FwPackage} (h : Keeps s t) : Keeps s (activateFw f t) :=
  h.upd.putKs.setSessions.ledgerSecurity.when (·.upd)

protected theorem KeepsNext.execControlFwHandoff (h : Keeps s t) : KeepsNext s (execControlFwHandoff t) := by
  unfold execControlFwHandoff
  refine .next ?_
  split
  · exact .ite h h.activateFw.upd
  · exact h

protected theorem KeepsNext.execControlFwRollback (h : Keeps s t) : KeepsNext s (execControlFwRollback t) := by
  unfold execControlFwRollback
  refine .next ?_
  split
  · exact .ite h.putKs.upd.setSessions h
  · exact h

protected theorem KeepsNext.execSecurityFwSwap (h : Keeps s t) : KeepsNext s (execSecurityFwSwap t) := by
  unfold execSecurityFwSwap
  refine .next ?_
  refine h.viaMgmt fun hu => ?_
  split
  · exact hu.activateFw
  · exact hu

protected theorem KeepsNext.execMgmtFwSwap (h : Keeps s t) : KeepsNext s (execMgmtFwSwap t) := by
  unfold execMgmtFwSwap
  refine .next ?_
  refine h.viaMgmt fun hu => ?_
  split
  · exact hu.activateFw
  · exact hu

protected theorem KeepsNext.execPowerFwSwap (h : Keeps s t) : KeepsNext s (execPowerFwSwap t) := by
  unfold execPowerFwSwap
  refine .next ?_
  refine h.viaMgmt fun hu => ?_
  split
  · exact hu.brakeOn.activateFw.brakeOff
  · exact hu

/-! ### Steps and boundaries -/

protected theorem Keeps.entryRecords {d : DueEntry} (h : Keeps s t) : Keeps s (entryRecords t d) :=
  (Keeps.ite h h.cplPut).cplPut

protected theorem Keeps.putFinal {x : Nat × Ctx} (h : Keeps s t) : Keeps s (putFinal t x) := by
  unfold putFinal
  split
  · split
    · exact h.setCtx.cplPut
    · exact h
  · exact h

protected theorem Keeps.putDue (h : Keeps s t) : Keeps s (putDue t) :=
  ((h.upd.foldl (·.journal)).upd.foldl (·.entryRecords)).foldl (·.putFinal)

protected theorem Keeps.returnReq {f : Flight} {m : ReturnMsg} {r : ReqRec} (h : Keeps s t) :
    Keeps s (returnReq f m t r) := by
  unfold returnReq
  split
  · exact h
  · extract_lets +onlyGivenNames _ _ _ _ _ _ _ _ _ _ _ _ _ s3
    have h3 : Keeps s s3 := h.putTokens.upd.modCtx.modClient
    exact .ite (h3.modCtx.whenNot (·.putFinal)) (.ite h3.bump.ending (.ite h3.ending h3.ctxBack))

protected theorem KeepsNext.execReturnMessage {m : ReturnMsg} {time : Nat} (h : Keeps s t) :
    KeepsNext s (execReturnMessage m time t) := by
  unfold execReturnMessage
  refine .next ?_
  split
  · exact h
  · exact (h.atTime.upd.foldl (·.returnReq)).upd

protected theorem KeepsNext.execReturnLimitExpire {step time : Nat} (h : Keeps s t) :
    KeepsNext s (execReturnLimitExpire step time t) := by
  unfold execReturnLimitExpire
  refine .next ?_
  split
  · exact h
  · split
    · exact .ite h.atTime.endStepAt h
    · exact h

protected theorem KeepsNext.execOrphanLimitExpire {ctx : Fin 4096} {time : Nat} (h : Keeps s t) :
    KeepsNext s (execOrphanLimitExpire ctx time t) := by
  unfold execOrphanLimitExpire
  refine .next ?_
  split
  · exact h
  · split
    · exact .ite h.atTime.ending.countCtxs h
    · exact h

protected theorem KeepsNext.execRingPoll {host : HostMem} {time : Nat} (h : Keeps s t) :
    KeepsNext s (execRingPoll host time t) :=
  .next (.ite (h.atTime.foldl (fun hu => ((Keeps.ite hu.seeHead hu).when (·.seeHead)).when (·.emit))) h)

protected theorem KeepsNext.execLcPoll {host : HostMem} {time : Nat} (h : Keeps s t) :
    KeepsNext s (execLcPoll host time t) :=
  .next (.ite (h.atTime.when (·.upd)) h)

protected theorem KeepsNext.execAdoptGo {p : Port} {host : HostMem} {authSeq : Option Nat} (h : Keeps s t) :
    KeepsNext s (execAdoptGo p host authSeq t) := by
  unfold execAdoptGo
  refine .next ?_
  refine h.viaPf0 fun hu => ?_
  split
  · exact hu
  · split
    · exact hu.setP.irq
    · exact hu.upd.setP

protected theorem Keeps.writeKept {id : Nat} (h : Keeps s t) : Keeps s (writeKept id t) := by
  unfold writeKept
  split
  · exact h
  · exact .putProd (h.setCtx.foldl (·.putToken))

protected theorem Keeps.applyAdoption {step0 : Nat} {a : Adoption} (h : Keeps s t) :
    Keeps s (applyAdoption step0 t a) := by
  unfold applyAdoption
  extract_lets +onlyGivenNames _
  split
  · exact h.setP.setP.irq
  · split
    · exact h.setP.setP.irq
    · extract_lets +onlyGivenNames _ _ s2
      have h2 : Keeps s s2 := by
        unfold s2
        split
        · exact h.setCtx.setLease
        · exact h.setCtx
      exact h2.writeKept.countCtxs.cplPut.setP.setP.irq

protected theorem Keeps.applyAdoptions (h : Keeps s t) : Keeps s (applyAdoptions t) := h.upd.foldl (·.applyAdoption)

protected theorem Keeps.endOps {lease : Nat} (h : Keeps s t) : Keeps s (endOps lease t) := by
  unfold endOps
  extract_lets +onlyGivenNames s1 s2
  have h1 : Keeps s s1 := by
    unfold s1
    split
    · exact .ite h.loadFails h
    · exact h
  have h2 : Keeps s s2 := by
    unfold s2
    split
    · exact h1.when (·.imageRefused)
    · exact h1
  exact h2.when (·.captureEnds)

protected theorem Keeps.endContexts {lease : Option Nat} (h : Keeps s t) : Keeps s (endContexts lease t) :=
  h.foldl (fun hu => .ite hu.ending hu)

protected theorem Keeps.leaseEnds {step n : Nat} (h : Keeps s t) : Keeps s (leaseEnds step t n) := by
  unfold leaseEnds
  split
  · exact h
  · split
    · exact .ite h.setLease.endOps.endContexts h
    · exact h

protected theorem Keeps.zeroSram {keep : List (Nat × Nat)} (h : Keeps s t) : Keeps s (zeroSram keep t) :=
  h.ofParts Memory.wf_filter id smCanon_filter rfl

protected theorem Keeps.zeroShared (h : Keeps s t) : Keeps s (zeroShared t) := by
  unfold zeroShared
  split
  · exact h.zeroRange.zeroSram
  · exact (h.zeroRange.foldl (·.zeroRange)).zeroSram

protected theorem Keeps.finishLease {step n : Nat} {l : Lease} (h : Keeps s t) : Keeps s (finishLease step n l t) :=
  (((h.releaseLoadsOf.foldl (·.dropPref)).dropPages.foldl (·.zeroRange)).when (·.zeroRange.upd.setF)).zeroClients.zeroShared.freeLease.when
    (·.dropImage.fullZeroise)

protected theorem Keeps.leaseFinishes {step n : Nat} (h : Keeps s t) : Keeps s (leaseFinishes step t n) := by
  unfold leaseFinishes
  split
  · exact h
  · exact .ite h ((Keeps.ite h.endContexts h).when (·.finishLease))

protected theorem Keeps.leaseBoundary {step : Nat} (h : Keeps s t) : Keeps s (leaseBoundary step t) :=
  .foldl (h.foldl (·.leaseEnds)) (·.leaseFinishes)

protected theorem Keeps.placePages {step : Cand → Nat} {w : Placed} {k : Cand} (h : Keeps s w.s) :
    Keeps s (placePages step w k).s := by
  unfold placePages
  split
  · exact h
  · extract_lets +onlyGivenNames n
    split
    · exact h
    · extract_lets +onlyGivenNames m
      split
      · exact h
      · split
        · exact h
        · extract_lets +onlyGivenNames total _ o pos m1 s1
          have ho : Keeps s o.2.2 := h.modCtx.startPages
          split
          · exact h
          · split
            · exact h
            · exact ho.modCtx
    · extract_lets +onlyGivenNames s1 o
      have h1 : Keeps s s1 := h.modCtx
      have ho : Keeps s o.2 := by
        unfold o
        split
        · exact h1
        · exact h1.livePages
      split
      · exact h
      · exact ho

protected theorem Keeps.rollPending {id : Nat} (h : Keeps s t) : Keeps s (rollPending t id) := by
  unfold rollPending
  split
  · split
    · exact h.rollback
    · exact h
  · exact h

protected theorem Keeps.beforePart4 {places : List Nat} {n0 : Nat} {rel : List Nat} {ks : List Cand} (h : Keeps s t) :
    Keeps s (beforePart4 places n0 rel ks t) := by
  unfold beforePart4
  extract_lets s1
  have h1 : Keeps s s1 := .applyCommits (.foldl (.foldl h (·.applyAccepted)) (·.rollPending))
  exact .applyQuotas (.foldl h1 (·.entryRelease))

protected theorem Keeps.unplace {k : Cand} (h : Keeps s t) : Keeps s (unplace u k t) := by
  unfold unplace
  refine .countCtxs ?_
  split
  · exact h.upd
  · exact h.upd

protected theorem Keeps.formSteps {places : List Nat} {lcOnly : Bool} {n0 n : Nat} {was : State} {rel : List Nat} {ks : List Cand}
    {bad : List (Cand × Nat × Nat)} (h : Keeps s t) : Keeps s (formSteps places lcOnly n0 was rel n ks bad t).1.s := by
  induction n generalizing ks bad t with
  | zero => exact h
  | succ n ih =>
    unfold formSteps
    extract_lets go all w
    have h0 : Keeps s (Placed.s { s := beforePart4 places n0 all ks t }) := by
      dsimp only
      exact h.beforePart4
    have hw : Keeps s w.s := .foldlBy Placed.s h0 (·.placePages)
    split
    · exact hw
    · exact ih h.unplace

protected theorem Keeps.refuseCand {step0 : Nat} {acc : State × List CplRec} {x : Cand × Nat × Nat} (h : Keeps s acc.1)
    : Keeps s (refuseCand step0 acc x).1 :=
  (Keeps.ite h.bump h)

protected theorem Keeps.admitted {k : Cand} (h : Keeps s t) : Keeps s (admitted t k) := by
  unfold admitted
  dsimp only
  split
  · exact h.modCtx.modClient
  · exact h.modCtx

protected theorem Keeps.admitStep {slot hold : Nat} {replay : Option (Nat × Bool)} {rs : List ReqRec} {ms : List Match}
    (h : Keeps s t) : Keeps s (admitStep slot hold replay rs ms t) :=
  (((Keeps.ite h h.setF).countEv.countEv.when (·.foldl (·.modCtx))).foldl (·.modCtx)).upd.takeGen

protected theorem Keeps.admitSteps {places : List Nat} {lcOnly : Bool} {was : State} {f : Fill} (h : Keeps s f.s) :
    Keeps s (admitSteps places lcOnly was f).1 := by
  unfold admitSteps
  extract_lets +onlyGivenNames step0 ptr rel pend endDue o ks x
  have ho : Keeps s o.1.s := h.formSteps
  have hx : Keeps s x.1 := .foldlBy Prod.fst ho (·.refuseCand)
  clear_value o x endDue
  split
  · extract_lets +onlyGivenNames s1 mine first relRecs group tags hold go
    have h1 : Keeps s s1 := hx.foldl (·.admitted)
    have hgo {b u} (hu : Keeps s u) : Keeps s (go b u) := .ite hu hu.admitStep
    exact hgo (hgo h1)
  · split
    · extract_lets +onlyGivenNames acc s1 s2
      have h1 : Keeps s s1 := hx.foldl (·.applyAccepted)
      have h2 : Keeps s s2 := h1.foldl (·.modCtx)
      dsimp only
      exact h2.admitStep
    · exact hx

protected theorem Keeps.heatBoundary (h : Keeps s t) : Keeps s (heatBoundary t) := by
  unfold heatBoundary
  split
  · exact h.upd
  · exact h.upd

protected theorem Keeps.releaseCondemned (h : Keeps s t) : Keeps s (releaseCondemned t) :=
  h.foldl (fun hu => .ite hu.bump.ending hu)

protected theorem Keeps.controlChecks {l : List (Bool × List (Fin 4096))} (h : Keeps s t) :
    Keeps s (controlChecks l t) :=
  h.foldl (·.bump.when (·.foldl (·.modCtx)))

protected theorem Keeps.boundaryWork {step : Nat} (h : Keeps s t) : Keeps s (boundaryWork step t) := by
  unfold boundaryWork
  extract_lets +onlyGivenNames s1 s2 s3
  have h1 : Keeps s s1 := h.applyWhole.applyRegional.applySwitch.applyMember
  have h2 : Keeps s s2 := h1.applyAdoptions.releaseCondemned
  have h3 : Keeps s s3 := h2.leaseBoundary.authorityDue
  exact h3.heatBoundary.latchLayers.applyPending

protected theorem Keeps.boundaryDone (h : Keeps s t) : Keeps s (boundaryDone t) :=
  h.boundaryRun.kvBoundary.retireSmalls.upd.writeClients

protected theorem Keeps.catchUp {places : List Nat} {half : StepHeader} (h : Keeps s t) :
    Keeps s (catchUp places half t) :=
  h.foldl (·.applyHeader)

protected theorem Keeps.startNext {places : List Nat} (h : Keeps s t) : Keeps s (startNext places t) := by
  unfold startNext
  split
  · exact h
  · exact .ite h h.catchUp.upd.startPortion

/-! ### Replay -/

protected theorem Keeps.replayStatus {st res : Nat} (h : Keeps s t) : Keeps s (replayStatus st res t) :=
  h.setF.setF.irqBoth
protected theorem Keeps.endSession {x : Session} (h : Keeps s t) : Keeps s (endSession x t) :=
  (Keeps.ite (h.foldl (·.dropPref)) h).upd.setF

protected theorem KeepsNext.execEnter {p : Port} {fresh : Bool} (h : Keeps s t) :
    KeepsNext s (execEnter p fresh t) := by
  unfold execEnter
  refine .next ?_
  refine h.viaPf0 fun hu => ?_
  extract_lets +onlyGivenNames _
  split
  · exact hu.setB.replayStatus
  · extract_lets +onlyGivenNames s2
    have h2 : Keeps s s2 := by
      unfold s2
      split
      · exact hu.setB.endSession
      · exact hu.setB
    exact h2.upd.setF.replayStatus

protected theorem KeepsNext.execLeave {p : Port} (h : Keeps s t) : KeepsNext s (execLeave p t) := by
  unfold execLeave
  refine .next ?_
  refine h.viaPf0 fun hu => ?_
  split
  · exact .ite hu.endSession.replayStatus hu.replayStatus
  · exact hu.replayStatus

protected theorem KeepsNext.execSubmit {p : Port} {host : HostMem} (h : Keeps s t) :
    KeepsNext s (execSubmit p host t) := by
  unfold execSubmit
  refine .next ?_
  refine h.viaPf0 fun hu => ?_
  split
  · exact hu
  · split
    · exact hu.replayStatus
    · extract_lets +onlyGivenNames _
      split
      · exact hu.replayStatus
      · split
        · exact hu.replayStatus
        · exact hu.upd.setF

protected theorem KeepsNext.execArm {p : Port} {lease : BitVec 16} (h : Keeps s t) : KeepsNext s (execArm p lease t) :=
  .next (h.viaPf0 (fun hu => .ite hu.setF.captureEnds.irqBoth hu.setF.setB.setB))

protected theorem Keeps.repInto {half : HostMem} {p : Port} {gen : Nat} {acc : State × List Cand × List (Nat × Nat)}
    {x : Nat × RepReq} (h : Keeps s acc.1) : Keeps s (repInto half p gen acc x).1 :=
  .ite h.place h

protected theorem Keeps.admitRecord345 {half : HostMem} {places : List Nat} {p : Port} {bs : List Nat} {x : Session}
    (h : Keeps s t) : Keeps s (admitRecord345 half places p bs x t) := by
  unfold admitRecord345
  extract_lets +onlyGivenNames n f gen step qs ptr s0 o ks logical st w room fin
  have ho : Keeps s o.1 := .foldlBy Prod.fst h.setF (·.repInto)
  have hfin {u} (hu : Keeps s u) : Keeps s (fin u) := hu.upd.setF
  clear_value o w room fin
  split
  · exact (hfin h).replayStatus
  · split
    · exact h
    · extract_lets +onlyGivenNames rel pl
      have hb : Keeps s (Placed.s { s := beforePart4 places step rel ks o.1 }) := by
        dsimp only
        exact ho.beforePart4
      have hpl : Keeps s pl.s := .foldlBy Placed.s hb (·.placePages)
      clear_value pl
      split
      · exact (hfin h).replayStatus
      · extract_lets +onlyGivenNames s1 recs s2
        have h1 : Keeps s s1 := hpl.foldl (·.admitted)
        have h2 : Keeps s s2 := h1.admitStep
        exact (hfin h2.upd.setF).replayStatus

protected theorem Keeps.entryBoundary {half : HostMem} {places : List Nat} (h : Keeps s t) :
    Keeps s (entryBoundary half places t) := by
  unfold entryBoundary
  extract_lets +onlyGivenNames n s1
  have h1 : Keeps s s1 := h.boundaryWork
  clear_value s1
  split
  · exact h1.applyCommits.applyQuotas.putDue.boundaryDone
  · split
    · extract_lets +onlyGivenNames s2
      have h2 : Keeps s s2 := h1.applyCommits.applyQuotas
      refine .boundaryDone (.putDue ?_)
      split
      · exact .ite h2 h2.admitRecord345
      · exact h2
    · extract_lets +onlyGivenNames lcOnly f o
      have hf : Keeps s f.s := by
        unfold f
        split
        · exact h1
        · exact h1.fillStep
      have ho : Keeps s o.1 := hf.admitSteps
      exact (ho.putDue.foldl (·.cplPut)).boundaryDone

protected theorem Keeps.otherBoundary {places : List Nat} (h : Keeps s t) : Keeps s (otherBoundary places t) := by
  unfold otherBoundary
  extract_lets +onlyGivenNames n s1 s2
  have h1 : Keeps s s1 := h.boundaryWork
  have h2 : Keeps s s2 := .ite h1 h1.applyCommits.applyQuotas
  exact h2.startNext.boundaryDone

protected theorem KeepsNext.execStepBoundary {time : Nat} {host : HostMem} {places : List Nat}
    {lost : List (Bool × List (Fin 4096))} (h : Keeps s t) :
    KeepsNext s (execStepBoundary time host places lost t) := by
  unfold execStepBoundary
  refine .next ?_
  split
  · exact h
  · extract_lets +onlyGivenNames s1
    have h1 : Keeps s s1 := h.atTime.controlChecks
    exact .ite h1 (.ite h1.otherBoundary (.ite h1.startNext h1.entryBoundary.startNext))

/-! ### Ring controls -/

protected theorem Keeps.enableRing {p : Port} {en : Fld} {on : Bool} {start : State → State} (h : Keeps s t)
    (hstart : ∀ {u}, Keeps s u → Keeps s (start u)) : Keeps s (enableRing p en on start t) :=
  h.setP.when (fun hu => hstart hu.setP)

protected theorem Keeps.startRing {p : Port} {be : Bool} (h : Keeps s t) : Keeps s (startRing p be t) :=
  h.setP.setP.upd.setHead

protected theorem KeepsNext.execLcRingEnable {p : Port} {on : Bool} (h : Keeps s t) :
    KeepsNext s (execLcRingEnable p on t) :=
  .next (h.viaPf0 (·.enableRing (·.startRing)))

protected theorem KeepsNext.execBeRingEnable {p : Port} {on : Bool} (h : Keeps s t) :
    KeepsNext s (execBeRingEnable p on t) :=
  .next (h.viaPf0 (·.enableRing (·.startRing)))

protected theorem Keeps.startCpl {p : Port} (h : Keeps s t) : Keeps s (startCpl p t) := h.setP.setP.cplFlush
protected theorem KeepsNext.execCplEnable {p : Port} {on : Bool} (h : Keeps s t) : KeepsNext s (execCplEnable p on t) :=
  .next (h.viaPf0 (·.enableRing (·.startCpl)))

protected theorem KeepsNext.execCplTailWrite {p : Port} {v : BitVec 32} (h : Keeps s t) :
    KeepsNext s (execCplTailWrite p v t) :=
  .next (h.viaPf0 (fun hu => .ite hu.setP.cplFlush hu))

protected theorem KeepsNext.execStepOriginWrite {p : Port} {v : BitVec 32} (h : Keeps s t) :
    KeepsNext s (execStepOriginWrite p v t) :=
  .next (h.viaPf0 (fun hu => .ite hu hu.setF.setF))

/-! ### BAR2 -/

protected theorem Keeps.barRefused {p : Port} {write : Bool} {off n : Nat} (h : Keeps s t) :
    Keeps s (barRefused p write off n t) :=
  h.logBad

protected theorem Keeps.barGranule {chk : List (Nat × Check)} {hostOk : Bool} {r : State × Bool} {g : Nat} (h : Keeps s r.1) :
    Keeps s (barGranule chk hostOk r g).1 := by
  unfold barGranule
  extract_lets +onlyGivenNames x y s0
  refine .iteBy Prod.fst (.iteBy Prod.fst ?_ ?_) ?_
  · exact h.bump
  · exact h
  · have h0 : Keeps s s0 := .ite h.cacheTouch h.countGranules
    split
    · exact h0
    · exact h0.bump
    · exact h0.bump.setMark

protected theorem KeepsNext.execBar2Read {p : Port} {off len : Nat} {chk : List (Nat × Check)} {hostOk : Bool}
    (h : Keeps s t) : KeepsNext s (execBar2Read p off len chk hostOk t) :=
  .next (h.viaPf0 (fun hu => .ite hu (.ite ((Keeps.foldlBy Prod.fst hu (·.barGranule)).emit) hu.barRefused.emit)))

protected theorem KeepsNext.execBar2Write {p : Port} {off : Nat} {bytes : List (BitVec 8)} (h : Keeps s t) :
    KeepsNext s (execBar2Write p off bytes t) :=
  .next (h.viaPf0 (fun hu => .ite hu (.ite hu.putBytes hu.barRefused)))

protected theorem KeepsNext.execBar2Atomic {p : Port} {fn : BarAtom} {wide : Bool} {off : Nat} {operand compare : BitVec 64}
    {check : Check} (h : Keeps s t) : KeepsNext s (execBar2Atomic p fn wide off operand compare check t) := by
  unfold execBar2Atomic
  refine .next (h.viaPf0 fun {u} hu => ?_)
  extract_lets +onlyGivenNames a n
  clear_value a n
  split
  · exact hu
  · split
    · have hr : Keeps s (barGranule [(a / 64, check)] false (u, false) (a / 64)).1 := hu.barGranule
      exact .ite hr.emit hr.putBytes.emit
    · exact hu.barRefused.emit

end Sys2Proof.Machine
end

