-- ==== Sys2Proof/Proofs/InvariantIsKept.lean ====
section
/-!
SUPPORT. Proofs/InvariantIsKept.lean: every command keeps the canonical form, and so does every step.
-/
namespace Sys2Proof.Machine

variable {s t : State}

/-- Every command keeps the canonical form and leaves the queue alone. -/
protected theorem KeepsNext.exec {i : Instr} (h : Keeps s t) : KeepsNext s (exec i t) := by
  cases i with
  | registerWrite => exact .execRegisterWrite h
  | badAccess => exact .execBadAccess h
  | pairLowerRead => exact .execPairLowerRead h
  | pairUpperRead => exact .execPairUpperRead h
  | lockSet => exact .execLockSet h
  | nop => exact .execNop h
  | loop => exact .execLoop h
  | branch => exact .execBranch h
  | fallbackEntry => exact .execFallbackEntry h
  | endLayer => exact .execEndLayer h
  | endStep => exact .execEndStep h
  | mma => exact .execMma h
  | mmaX => exact .execMmaX h
  | mmaF16 => exact .execMmaF16 h
  | mmaPassComplete => exact .execMmaPassComplete h
  | residueRerunComplete => exact .execResidueRerunComplete h
  | accZero => exact .execAccZero h
  | accConvert => exact .execAccConvert h
  | trapMessage => exact .execTrapMessage h
  | trapDrainDone => exact .execTrapDrainDone h
  | accExport => exact .execAccExport h
  | accImport => exact .execAccImport h
  | vecOp => exact .execVecOp h
  | mov => exact .execMov h
  | memLoad => exact .execMemLoad h
  | memStore => exact .execMemStore h
  | memAtomic => exact .execMemAtomic h
  | memFence => exact .execMemFence h
  | memRelease => exact .execMemRelease h
  | memAcquire => exact .execMemAcquire h
  | engRequest => exact .execEngRequest h
  | wait => exact .execWait h
  | barrier => exact .execBarrier h
  | instructionComplete => exact .execInstructionComplete h
  | rload => exact .execRload h
  | rstore => exact .execRstore h
  | rfadd => exact .execRfadd h
  | rcas => exact .execRcas h
  | rmin => exact .execRmin h
  | rmax => exact .execRmax h
  | rreduce => exact .execRreduce h
  | rmstore => exact .execRmstore h
  | rfence => exact .execRfence h
  | rretry => exact .execRretry h
  | preemptionPost => exact .execPreemptionPost h
  | cheapPointSave => exact .execCheapPointSave h
  | preemptResume => exact .execPreemptResume h
  | softmax => exact .execSoftmax h
  | rmsnorm => exact .execRmsnorm h
  | layernorm => exact .execLayernorm h
  | rotate => exact .execRotate h
  | append => exact .execAppend h
  | sample => exact .execSample h
  | verify => exact .execVerify h
  | walk => exact .execWalk h
  | route => exact .execRoute h
  | engineCommandDone => exact .execEngineCommandDone h
  | engineWatchdog => exact .execEngineWatchdog h
  | copy => exact .execCopy h
  | copy2d => exact .execCopy2d h
  | fillZero => exact .execFillZero h
  | pageToKt => exact .execPageToKt h
  | pageToVx => exact .execPageToVx h
  | sashDescriptorDone => exact .execSashDescriptorDone h
  | ringEnable => exact .execRingEnable h
  | ringTailWrite => exact .execRingTailWrite h
  | expertPromotion => exact .execExpertPromotion h
  | stepBoundary => exact .execStepBoundary h
  | tenantSelect => exact .execTenantSelect h
  | prefixArchiveDone => exact .execPrefixArchiveDone h
  | prefixRestoreDone => exact .execPrefixRestoreDone h
  | refetchDone => exact .execRefetchDone h
  | scrubRead => exact .execScrubRead h
  | extentFetchDone => exact .execExtentFetchDone h
  | frameRelease => exact .execFrameRelease h
  | flashRelocate => exact .execFlashRelocate h
  | flashRefresh => exact .execFlashRefresh h
  | wearLevel => exact .execWearLevel h
  | cardControllerFault => exact .execCardControllerFault h
  | cardPulled => exact .execCardPulled h
  | cardInserted => exact .execCardInserted h
  | cardRebuildDone => exact .execCardRebuildDone h
  | prepareRemove => exact .execPrepareRemove h
  | cardCancel => exact .execCardCancel h
  | portionEnd => exact .execPortionEnd h
  | portionRerunDone => exact .execPortionRerunDone h
  | loadGo => exact .execLoadGo h
  | loadAbort => exact .execLoadAbort h
  | loadPullDone => exact .execLoadPullDone h
  | loadPrimeDone => exact .execLoadPrimeDone h
  | switch => exact .execSwitch h
  | discard => exact .execDiscard h
  | release => exact .execRelease h
  | ringPoll => exact .execRingPoll h
  | lcPoll => exact .execLcPoll h
  | stepReceive => exact .execStepReceive h
  | returnMessage => exact .execReturnMessage h
  | returnLimitExpire => exact .execReturnLimitExpire h
  | orphanLimitExpire => exact .execOrphanLimitExpire h
  | lcRingEnable => exact .execLcRingEnable h
  | beRingEnable => exact .execBeRingEnable h
  | cplEnable => exact .execCplEnable h
  | cplTailWrite => exact .execCplTailWrite h
  | stepOriginWrite => exact .execStepOriginWrite h
  | adoptGo => exact .execAdoptGo h
  | flitCrcFail => exact .execFlitCrcFail h
  | flitReplayRequest => exact .execFlitReplayRequest h
  | meshTimeout => exact .execMeshTimeout h
  | routeChangeStart => exact .execRouteChangeStart h
  | routeChangeMarker => exact .execRouteChangeMarker h
  | routeChangeAck => exact .execRouteChangeAck h
  | laneTrain => exact .execLaneTrain h
  | laneFail => exact .execLaneFail h
  | laneRecal => exact .execLaneRecal h
  | frameAuthFail port => exact .execFrameAuthFail (_port := port) h
  | linkKeyRenew => exact .execLinkKeyRenew h
  | load => exact .execLoad h
  | store => exact .execStore h
  | fadd => exact .execFadd h
  | cas => exact .execCas h
  | min => exact .execMin h
  | max => exact .execMax h
  | reduce => exact .execReduce h
  | mstore => exact .execMstore h
  | bulkWrite => exact .execBulkWrite h
  | bulkRead => exact .execBulkRead h
  | reply => exact .execReply h
  | sync => exact .execSync h
  | stepAbort => exact .execStepAbort h
  | portionFailed => exact .execPortionFailed h
  | staleNotice => exact .execStaleNotice h
  | discover => exact .execDiscover h
  | planeAnnouncement => exact .execPlaneAnnouncement h
  | fabricPortStateChange => exact .execFabricPortStateChange h
  | retryIntervalExpire => exact .execRetryIntervalExpire h
  | loadBoundExpire => exact .execLoadBoundExpire h
  | replyCacheExpire => exact .execReplyCacheExpire h
  | atomicThrottleRelease => exact .execAtomicThrottleRelease h
  | memberApply => exact .execMemberApply h
  | enter => exact .execEnter h
  | leave => exact .execLeave h
  | submit => exact .execSubmit h
  | arm => exact .execArm h
  | imageGo => exact .execImageGo h
  | imageAbort => exact .execImageAbort h
  | imageFetchDone => exact .execImageFetchDone h
  | wholeApply => exact .execWholeApply h
  | regionalApply => exact .execRegionalApply h
  | pllLock => exact .execPllLock h
  | dividerStep => exact .execDividerStep h
  | nclkTargetWrite => exact .execNclkTargetWrite h
  | cclkTargetWrite => exact .execCclkTargetWrite h
  | vcoreSlewDone => exact .execVcoreSlewDone h
  | droopTrip => exact .execDroopTrip h
  | droopHoldExpire => exact .execDroopHoldExpire h
  | referenceLost => exact .execReferenceLost h
  | referenceOk => exact .execReferenceOk h
  | sourceSelect => exact .execSourceSelect h
  | pllRelock => exact .execPllRelock h
  | holdoverLimitExpire => exact .execHoldoverLimitExpire h
  | sscUpdate => exact .execSscUpdate h
  | fcountStart => exact .execFcountStart h
  | fcountDone => exact .execFcountDone h
  | powerLoop => exact .execPowerLoop h
  | gainCalibration => exact .execGainCalibration h
  | capTargetWrite => exact .execCapTargetWrite h
  | capUnmet => exact .execCapUnmet h
  | shutterAssert => exact .execShutterAssert h
  | shutterRelease => exact .execShutterRelease h
  | shutterStuck => exact .execShutterStuck h
  | thermalCheck => exact .execThermalCheck h
  | inletRange => exact .execInletRange h
  | leakAssert => exact .execLeakAssert h
  | leakRelease => exact .execLeakRelease h
  | leakGraceExpire => exact .execLeakGraceExpire h
  | vinLow => exact .execVinLow h
  | inputUndervoltage => exact .execInputUndervoltage h
  | inputOvervoltage => exact .execInputOvervoltage h
  | inputReversed => exact .execInputReversed h
  | railShort => exact .execRailShort h
  | flashRailShort => exact .execFlashRailShort h
  | senseOpen => exact .execSenseOpen h
  | inputRemoved => exact .execInputRemoved h
  | inputPowerValid => exact .execInputPowerValid h
  | referenceReturn => exact .execReferenceReturn h
  | resetRequest => exact .execResetRequest h
  | bootVerifyDone => exact .execBootVerifyDone h
  | selftestDone => exact .execSelftestDone h
  | functionsReady => exact .execFunctionsReady h
  | selftestExtended => exact .execSelftestExtended h
  | extendedSelftestDone => exact .execExtendedSelftestDone h
  | perstAssert => exact .execPerstAssert h
  | linkDownTimeout => exact .execLinkDownTimeout h
  | d3hotEntry => exact .execD3hotEntry h
  | functionLevelReset => exact .execFunctionLevelReset h
  | portUp => exact .execPortUp h
  | perstStuck => exact .execPerstStuck h
  | sidebandToggling => exact .execSidebandToggling h
  | togglingEnd => exact .execTogglingEnd h
  | irqHoldoffExpire => exact .execIrqHoldoffExpire h
  | bar2Read => exact .execBar2Read h
  | bar2Write => exact .execBar2Write h
  | bar2Atomic => exact .execBar2Atomic h
  | hostReadTimeout => exact .execHostReadTimeout h
  | ideIntegrityFail => exact .execIdeIntegrityFail h
  | ideKm => exact .execIdeKm h
  | setEndpointId => exact .execSetEndpointId h
  | entdaa => exact .execEntdaa h
  | pldmSensorRead => exact .execPldmSensorRead h
  | pldmCapEffecter => exact .execPldmCapEffecter h
  | pldmFirmwareUpdate => exact .execPldmFirmwareUpdate h
  | getCertificate => exact .execGetCertificate h
  | challenge => exact .execChallenge h
  | getMeasurements => exact .execGetMeasurements h
  | keyExchange => exact .execKeyExchange h
  | takeOwnership => exact .execTakeOwnership h
  | transferOwnership => exact .execTransferOwnership h
  | releaseOwnership => exact .execReleaseOwnership h
  | setFwPolicy => exact .execSetFwPolicy h
  | setAppKey => exact .execSetAppKey h
  | leaseAuthorise => exact .execLeaseAuthorise h
  | leaseQuota => exact .execLeaseQuota h
  | leaseEndRecord => exact .execLeaseEndRecord h
  | installLeaseKey => exact .execInstallLeaseKey h
  | portBind => exact .execPortBind h
  | portUnbind => exact .execPortUnbind h
  | ledgerRead => exact .execLedgerRead h
  | eraseReportRead => exact .execEraseReportRead h
  | debugChallenge => exact .execDebugChallenge h
  | debugUnlock => exact .execDebugUnlock h
  | glitchAck => exact .execGlitchAck h
  | glitchTrip => exact .execGlitchTrip h
  | backgroundZeroiseDone => exact .execBackgroundZeroiseDone h
  | leaseSelect => exact .execLeaseSelect h
  | controlFwHandoff => exact .execControlFwHandoff h
  | controlFwRollback => exact .execControlFwRollback h
  | securityFwSwap => exact .execSecurityFwSwap h
  | mgmtFwSwap => exact .execMgmtFwSwap h
  | powerFwSwap => exact .execPowerFwSwap h
  | ledgerPowerRecord => exact .execLedgerPowerRecord h
  | ledgerIntegrityRecord => exact .execLedgerIntegrityRecord h
  | freeze => exact .execFreeze h
  | snap => exact .execSnap h
  | snapPeriod => exact .execSnapPeriod h
  | snapshotDone => exact .execSnapshotDone h
  | snapRecordsWrite => exact .execSnapRecordsWrite h
  | samplingEnable => exact .execSamplingEnable h
  | pmcLayerWrite => exact .execPmcLayerWrite h
  | configurationRequest => exact .execConfigurationRequest h
  | perstRelease => exact .execPerstRelease h
  | dlActiveLost => exact .execDlActiveLost h
  | extentRebuilt => exact .execExtentRebuilt h
  | hostReadRefused => exact .execHostReadRefused h
  | counterWrap => exact .execCounterWrap h

/-- A step drops the front of the queue, which no part of the canonical form speaks of, and then carries the command out. -/
theorem inv_step (h : s.Inv) (e : step s = .next t) : t.Inv := by
  unfold step at e
  split at e
  · obtain rfl := Host.Outcome.next.inj e
    exact h
  · next c rest hp =>
    have hd : State.Inv { s with pending := rest } := h
    have hk : Keeps { s with pending := rest } t := KeepsNext.exec .rfl t e
    exact hk.inv hd

/-- Settles O3: every command is built of operations that keep the canonical form of each of the three parts. -/
theorem invariantIsKept : Obligations.InvariantIsKept := fun _ _ h e => inv_step h e

end Sys2Proof.Machine
end

