-- ==== Sys2Proof/Proofs/RegisterTable.lean ====
section
/-!
SUPPORT. Proofs/RegisterTable.lean: the fields of the register tables have keys of their own, and what one write of a
field does (R12, R15).
-/
namespace Sys2Proof.Machine

/-! ### Keys of the table's fields -/

/-- No number stands twice in the list, as a check that evaluates in few steps. -/
def allDistinct : List Nat → Bool
  | [] => true
  | k :: l => l.all (fun j => !Nat.beq k j) && allDistinct l

theorem nodup_of_allDistinct {l : List Nat} (h : allDistinct l = true) : l.Nodup := by
  induction l with
  | nil => exact .nil
  | cons k l ih =>
    simp only [allDistinct, Bool.and_eq_true, List.all_eq_true, Bool.not_eq_true'] at h
    obtain ⟨hk, hl⟩ := h
    refine List.nodup_cons.mpr ⟨fun hm => ?_, ih hl⟩
    have := hk k hm
    simp at this

theorem table_bounds : ∀ f ∈ Reg.table, f.lo < 64 ∧ f.off < 0xC0000 := by decide +kernel

theorem table_blocks_distinct : (List.range 12).all (fun b =>
    allDistinct ((Reg.table.filter fun f => f.off / 0x10000 == b).map fun f => f.off * 64 + f.lo)) = true := by
  decide +kernel

/-- The fields of the register at an offset. -/
def regFields (o : Nat) : List Fld := (fieldsAt o).filter fun f => f.off == o

theorem mem_regFields {o : Nat} {f : Fld} : f ∈ regFields o ↔ f ∈ Reg.table ∧ f.off = o := by
  simp only [regFields, fieldsAt, List.mem_filter, beq_iff_eq, Bool.or_eq_true]
  exact ⟨fun ⟨⟨hf, _⟩, ho⟩ => ⟨hf, ho⟩, fun ⟨hf, ho⟩ => ⟨⟨hf, .inl ho⟩, ho⟩⟩

theorem regFields_sublist (o : Nat) : (regFields o).Sublist (Reg.table.filter fun f => f.off / 0x10000 == o / 0x10000) := by
  have h : regFields o = (regFields o).filter fun f => f.off / 0x10000 == o / 0x10000 := by
    refine (List.filter_eq_self.mpr fun f hf => ?_).symm
    rw [(mem_regFields.mp hf).2]
    exact beq_self_eq_true _
  rw [h]
  exact (List.filter_sublist.trans List.filter_sublist).filter _

/-- The fields of one register start at different bits. -/
theorem regFields_lo (o : Nat) : (regFields o).Pairwise fun f g => f.lo ≠ g.lo := by
  by_cases ho : o / 0x10000 < 12
  · have hd := List.all_eq_true.mp table_blocks_distinct _ (List.mem_range.mpr ho)
    have hn := (nodup_of_allDistinct hd).sublist ((regFields_sublist o).map _)
    refine (List.pairwise_map.mp hn).imp_of_mem fun hf hg hne hlo => hne ?_
    rw [(mem_regFields.mp hf).2, (mem_regFields.mp hg).2, hlo]
  · have : regFields o = [] := List.eq_nil_iff_forall_not_mem.mpr fun f hf => by
      obtain ⟨hm, rfl⟩ := mem_regFields.mp hf
      have := (table_bounds f hm).2
      omega
    rw [this]
    exact .nil

theorem eq_of_regFields {o : Nat} {f g : Fld} (hf : f ∈ regFields o) (hg : g ∈ regFields o) (h : f.lo = g.lo) : f = g :=
  List.inj_on_of_nodup_map (List.pairwise_map.mpr (regFields_lo o)) hf hg h

/-- The key of a field on a port: its offset, its first bit, and whether it is the second port's copy. -/
theorem fldKey_parts {f : Fld} (hf : f ∈ Reg.table) (p : Port) :
    fldKey f p % 2 ^ 40 / 64 = f.off ∧ fldKey f p % 64 = f.lo ∧ fldKey f p / 2 ^ 40 = b2n (f.perPort && p == .b) := by
  obtain ⟨hlo, hoff⟩ := table_bounds f hf
  unfold fldKey b2n
  split <;> omega

theorem fldKey_ne_of_lo {f g : Fld} (hf : f ∈ Reg.table) (hg : g ∈ Reg.table) (h : f.lo ≠ g.lo) (p : Port) :
    fldKey f p ≠ fldKey g p := fun e => h (by rw [← (fldKey_parts hf p).2.1, ← (fldKey_parts hg p).2.1, e])

/-- The other port's copy of a field is no field of this port. -/
theorem fldKey_otherPort_ne {f g : Fld} (hf : f ∈ Reg.table) (hg : g ∈ Reg.table) (h : f.perPort = true) (p : Port) :
    fldKey f (otherPort p) ≠ fldKey g p := by
  intro e
  obtain ⟨foff, flo, fport⟩ := fldKey_parts hf (otherPort p)
  obtain ⟨goff, glo, gport⟩ := fldKey_parts hg p
  rw [e] at foff flo fport
  have hfg : f = g :=
    eq_of_regFields (mem_regFields.mpr ⟨hf, rfl⟩) (mem_regFields.mpr ⟨hg, goff.symm.trans foff⟩) (flo.symm.trans glo)
  subst hfg
  rw [fport] at gport
  cases p <;> simp [otherPort, h, b2n] at gport

/-! ### One field -/

/-- What a field reads after a write of `v` to its register (R12, R15): `lck` where the block's LOCK is set. -/
def written (s : State) (p : Port) (lck : Bool) (v : Nat) (f : Fld) : Nat :=
  match f.acc with
  | .rw => bitsAt v f.lo f.len
  | .rwl => if lck then getP s p f else bitsAt v f.lo f.len
  | .w1c => (getP s p f - (getP s p f &&& bitsAt v f.lo f.len)) % 2 ^ f.len
  | _ => getP s p f

theorem written_congr {s t : State} {p : Port} {f : Fld} (h : getP t p f = getP s p f) (lck : Bool) (v : Nat) :
    written t p lck v f = written s p lck v f := by simp only [written, h]

section
variable (p : Port) (lck : Bool) (v : Nat)

theorem getP_writeField_self (s : State) (f : Fld) : getP (writeField p lck v s f) p f = written s p lck v f := by
  unfold writeField written bitsAt
  cases f.acc <;> simp only [getP_setP_self, Nat.mod_mod]
  split
  · rfl
  · rw [getP_setP_self, Nat.mod_mod]

theorem flds_writeField_ne (s : State) {f : Fld} {k d : Nat} (h : k ≠ fldKey f p) :
    smGet d (writeField p lck v s f).flds k = smGet d s.flds k := by
  unfold writeField
  dsimp only
  split
  · exact flds_setP_ne h
  · split
    · rfl
    · exact flds_setP_ne h
  · exact flds_setP_ne h
  · rfl

theorem writeField_kept (s : State) (f : Fld) : keptBut [.flds] s (writeField p lck v s f) := by
  unfold writeField
  dsimp only
  split
  · exact setP_kept _ _ _ _
  · exact keptBut_ite (keptBut_refl _ _) (setP_kept _ _ _ _)
  · exact setP_kept _ _ _ _
  · exact keptBut_refl _ _

/-! ### The fields of one register -/

theorem flds_foldl_writeField_ne {l : List Fld} {s : State} {k d : Nat} (h : ∀ f ∈ l, k ≠ fldKey f p) :
    smGet d (l.foldl (writeField p lck v) s).flds k = smGet d s.flds k := by
  induction l generalizing s with
  | nil => rfl
  | cons f l ih =>
    rw [List.foldl_cons, ih fun g hg => h g (List.mem_cons_of_mem _ hg), flds_writeField_ne p lck v s (h f List.mem_cons_self)]

theorem foldl_writeField_kept (l : List Fld) (s : State) : keptBut [.flds] s (l.foldl (writeField p lck v) s) :=
  foldl_kept _ _ fun _ _ => writeField_kept p lck v _ _

/-- Fields with keys of their own are each written once, from what they read before. -/
theorem getP_foldl_writeField {l : List Fld} (s : State) (hl : l.Pairwise fun f g => fldKey f p ≠ fldKey g p) {f : Fld}
    (hf : f ∈ l) : getP (l.foldl (writeField p lck v) s) p f = written s p lck v f := by
  induction l generalizing s with
  | nil => cases hf
  | cons g l ih =>
    obtain ⟨hg, hl⟩ := List.pairwise_cons.mp hl
    rw [List.foldl_cons]
    cases hf with
    | head =>
      rw [← getP_writeField_self]
      exact flds_foldl_writeField_ne p lck v hg
    | tail _ hm =>
      rw [ih _ hl hm]
      exact written_congr (flds_writeField_ne p lck v s (hg f hm).symm) lck v

end

end Sys2Proof.Machine
end

