-- ==== Sys2Proof/Proofs/RegisterWrites.lean ====
section
/-!
SUPPORT. Proofs/RegisterWrites.lean: a host's plain register write and LOCK (R12, R14 to R17).
-/
namespace Sys2Proof.Machine

/-! ### Which commands reach the registers (R13, R458) -/

theorem viaPf0_alive {s : State} (h : stageAlive s = true) (p : Port) (f : State → State) : viaPf0 s p f = f s := if_pos h

theorem viaPf0_safe {s : State} (h : s.boot.stage = .safe) (p : Port) (f : State → State) :
    viaPf0 s p f = emit s (.unsupported p) := by
  have hs : stageAlive s = false := by simp [stageAlive, h]
  simp [viaPf0, hs, h]

/-! ### REGISTER_WRITE and LOCK_SET -/

variable {s : State} {p : Port} {off v : Nat}

theorem exec_registerWrite (ha : stageAlive s = true) (p : Port) (off : Nat) (v : BitVec 32) :
    exec (.registerWrite p off v) s = .next (if regAt off then writeReg p off v.toNat s else s) :=
  congrArg Host.Outcome.next (viaPf0_alive ha p _)

theorem exec_lockSet (ha : stageAlive s = true) (p : Port) (block : Fin 12) :
    exec (.lockSet p block) s = .next (setF s (lockOf (block * 0x10000)) 1) :=
  congrArg Host.Outcome.next (viaPf0_alive ha p _)

theorem writeReg_ignored
    (h : ownRow.contains off = true ∨ rangeOk off v = false ∨ heldOff s p off = true ∨ windowOk s p off v = false) :
    writeReg p off v s = s := by
  refine if_pos ?_
  simpa only [Bool.or_eq_true, Bool.not_eq_true', or_assoc] using h

/-- A register that does no more than hold its fields takes the write field by field. -/
theorem writeReg_plain (hown : ownRow.contains off = false) (hrange : rangeOk off v = true) (hheld : heldOff s p off = false)
    (hwindow : windowOk s p off v = true)
    (hmore : off ∉ [Reg.CLK_ACLK_CEIL_MIN_CODE.off, Reg.HOST_ALERT_LEAK.off, Reg.PMC_SNAP_CTL_SNAP.off])
    (hchain : off < 0xA1000 ∨ 0xA1200 ≤ off) :
    writeReg p off v s = (regFields off).foldl (writeField p (getB s (lockOf off)) v) s := by
  simp only [List.mem_cons, List.not_mem_nil, or_false, not_or] at hmore
  obtain ⟨hceil, halert, hsnap⟩ := hmore
  have hmask : maskChain off v = v := if_neg (by omega)
  unfold writeReg afterWrite
  simp only [hown, hrange, hheld, hwindow, hmask, hceil, halert, hsnap, Bool.not_true, Bool.or_false, Bool.false_eq_true,
    if_false, false_and]
  rfl

theorem fldKey_regFields (off : Nat) (p : Port) : (regFields off).Pairwise fun f g => fldKey f p ≠ fldKey g p :=
  (regFields_lo off).imp_of_mem fun hf hg h => fldKey_ne_of_lo (mem_regFields.mp hf).1 (mem_regFields.mp hg).1 h p

theorem regsKept_foldl_writeField (s : State) (p : Port) (lck : Bool) (off v : Nat) :
    regsKept (fun k => k % 2 ^ 40 / 64 == off) s ((regFields off).foldl (writeField p lck v) s) := by
  refine fun k d hk => flds_foldl_writeField_ne p lck v fun f hf e => ?_
  obtain ⟨hm, ho⟩ := mem_regFields.mp hf
  subst e
  exact ne_of_beq_false hk ((fldKey_parts hm p).1.trans ho)

theorem otherPort_foldl_writeField (s : State) (p : Port) (lck : Bool) (off v : Nat) {f : Fld} (hf : f ∈ Reg.table)
    (h : f.perPort = true) :
    getP ((regFields off).foldl (writeField p lck v) s) (otherPort p) f = getP s (otherPort p) f :=
  flds_foldl_writeField_ne p lck v fun _ hg => fldKey_otherPort_ne hf (mem_regFields.mp hg).1 h p

/-! ### LOCK_SET -/

theorem getB_setF_one (s : State) {f : Fld} (h : 0 < f.len) : getB (setF s f 1) f = true := by
  simp [getB, Nat.mod_eq_of_lt (Nat.one_lt_two_pow h.ne')]

theorem fldKey_lockOf (block : Nat) : fldKey (lockOf (block * 0x10000)) .a = (block * 0x10000 + 0xFFFC) * 64 := by
  simp [fldKey, lockOf]

/-- Settles O31: the fields of one register have keys of their own, so each is written once and nothing else is. -/
theorem registerWritesAndLocks : Obligations.RegisterWritesAndLocks := by
  refine ⟨fun s p off v ha => ?_, fun s p block ha => ?_, fun s p off v block hs => ?_⟩
  · rw [exec_registerWrite ha]
    refine ⟨fun h => congrArg _ ?_, fun hat hown hrange hheld hwindow hmore hchain => ?_⟩
    · obtain hat | h := h
      · exact if_neg (by simp [hat])
      · exact ite_eq_right_iff.mpr fun _ => writeReg_ignored h
    · rw [if_pos hat, writeReg_plain hown hrange hheld hwindow hmore hchain]
      refine ⟨_, rfl, fun f hf ho => ?_, fun f hf hp => ?_, regsKept_foldl_writeField s p _ off _,
        foldl_writeField_kept p _ _ _ s⟩
      · exact getP_foldl_writeField p _ _ s (fldKey_regFields off p) (mem_regFields.mpr ⟨hf, ho⟩)
      · exact otherPort_foldl_writeField s p _ off _ hf hp
  · rw [exec_lockSet ha]
    refine ⟨_, rfl, getB_setF_one s Nat.one_pos, fun k d hk => flds_setF_ne ?_, keptBut_setF _ _ _⟩
    rw [fldKey_lockOf]
    exact ne_of_beq_false hk
  · exact ⟨congrArg Host.Outcome.next (viaPf0_safe hs p _), congrArg Host.Outcome.next (viaPf0_safe hs p _)⟩

end Sys2Proof.Machine
end

