-- ==== Sys2Proof/Proofs/Reset.lean ====
section
/-!
SUPPORT. Proofs/Reset.lean: the state right after a module reset.
-/
namespace Sys2Proof.Machine

/-- The reset state lists no field, so every field reads its table's reset value. -/
theorem getP_reset (p : Port) (f : Fld) : getP State.reset p f = f.reset := rfl

/-- The reset state lists no byte and no mark. -/
theorem reset_inv : State.reset.Inv := ⟨rfl, rfl, rfl⟩

theorem rdByte_reset (a : Nat) : rdByte State.reset a = 0 := rfl

/-- Settles O2: every sparse map of the reset state is empty, so a reader finds the default of what it asks for. -/
theorem resetMeetsTheInvariant : Obligations.ResetMeetsTheInvariant :=
  ⟨reset_inv, rdByte_reset, fun _ => rfl, getP_reset, fun e => getP_reset .a (Reg.PMC_COUNTER e), getP_reset .a Reg.ENG_FMT_SAT,
    getP_reset .a Reg.ENG_FMT_TRAP, rfl, rfl, rfl, rfl, rfl, rfl, rfl, rfl, rfl⟩

end Sys2Proof.Machine
end

