-- ==== Sys2Proof/Proofs/PairReads.lean ====
section
/-!
SUPPORT. Proofs/PairReads.lean: the latch of each port's pair reads (R14).
-/
namespace Sys2Proof.Machine

/-! ### The latches -/

theorem latch_setLatch_self (s : State) (p : Port) (l : Option (Nat × Nat)) : latch (setLatch p l s) p = l := by cases p <;> rfl

theorem latch_setLatch_other (s : State) (p : Port) (l : Option (Nat × Nat)) :
    latch (setLatch p l s) (otherPort p) = latch s (otherPort p) := by cases p <;> rfl

theorem latch_emit (s : State) (p : Port) (o : Out) : latch (emit s o) p = latch s p := by cases p <;> rfl

theorem setLatch_out (s : State) (p : Port) (l : Option (Nat × Nat)) : (setLatch p l s).out = s.out := by cases p <;> rfl

theorem setLatch_kept (s : State) (p : Port) (l : Option (Nat × Nat)) : keptBut [.latchA, .latchB] s (setLatch p l s) := by
  intro q hq
  cases p <;> cases q <;> first | rfl | (exact absurd hq (by decide))

/-- A read that answers and loads or empties its port's latch. -/
theorem setLatch_emit_kept (s : State) (p : Port) (l : Option (Nat × Nat)) (o : Out) :
    keptBut [.latchA, .latchB, .out] s (setLatch p l (emit s o)) :=
  (keptBut_trans (emit_kept s o) (setLatch_kept _ p l)).mono (by decide)

/-! ### The two reads -/

variable {s : State} {p : Port} {off : Nat}

theorem exec_pairLowerRead (ha : stageAlive s = true) (hp : isPair off = true) :
    exec (.pairLowerRead p off) s =
      .next (setLatch p (some (off, regRead s p (off + 4))) (emit s (.readData p (leBytes 4 (regRead s p off))))) :=
  congrArg Host.Outcome.next ((if_pos hp).trans (viaPf0_alive ha p _))

/-- The latch holds this pair: its value answers and the latch is empty after. -/
theorem exec_pairUpperRead_latched {v : Nat} (ha : stageAlive s = true) (hp : isPair off = true)
    (hl : latch s p = some (off, v)) :
    exec (.pairUpperRead p off) s = .next (setLatch p none (emit s (.readData p (leBytes 4 v)))) := by
  refine congrArg Host.Outcome.next ((if_pos hp).trans ((viaPf0_alive ha p _).trans ?_))
  simp only [hl, if_true]

/-- The latch is empty or holds another pair: the register answers and the latch stays. -/
theorem exec_pairUpperRead_other (ha : stageAlive s = true) (hp : isPair off = true)
    (hl : ∀ v, latch s p ≠ some (off, v)) :
    exec (.pairUpperRead p off) s = .next (emit s (.readData p (leBytes 4 (regRead s p (off + 4))))) := by
  refine congrArg Host.Outcome.next ((if_pos hp).trans ((viaPf0_alive ha p _).trans ?_))
  split
  · next o v h => exact if_neg fun (e : o = off) => hl v (e ▸ h)
  · rfl

/-- Settles O32: the latched value stands in the latch alone, so it answers whatever state follows with the latch kept. -/
theorem pairReadsUseThePortsLatch : Obligations.PairReadsUseThePortsLatch := by
  refine fun s p off ha => ⟨fun hp => ⟨⟨_, exec_pairLowerRead ha hp, latch_setLatch_self _ _ _, ?_, setLatch_out _ _ _,
    setLatch_emit_kept _ _ _ _, fun u hu hl => ?_⟩, fun hl => ?_⟩, fun hp => ?_⟩
  · rw [latch_setLatch_other, latch_emit]
  · rw [latch_setLatch_self] at hl
    refine ⟨_, exec_pairUpperRead_latched hu hp hl, setLatch_out _ _ _, latch_setLatch_self _ _ _, ?_,
      setLatch_emit_kept _ _ _ _⟩
    rw [latch_setLatch_other, latch_emit]
  · exact ⟨_, exec_pairUpperRead_other ha hp hl, rfl, emit_kept _ _⟩
  · exact ⟨congrArg Host.Outcome.next (if_neg (by simp [hp])), congrArg Host.Outcome.next (if_neg (by simp [hp]))⟩

end Sys2Proof.Machine
end

