-- ==== Sys2Proof/Proofs/BadAccesses.lean ====
section
/-!
SUPPORT. Proofs/BadAccesses.lean: the log of accesses that are not permitted (R13, R16, R422, R434).
-/
namespace Sys2Proof.Machine

/-! ### Several fields written one after another -/

/-- Each field of the list is written its value, in order. -/
def setAll (s : State) (ws : List (Fld × Nat)) : State := ws.foldl (fun t w => setF t w.1 w.2) s

theorem flds_setAll_ne {s : State} {ws : List (Fld × Nat)} {k d : Nat} (h : ∀ w ∈ ws, k ≠ fldKey w.1 .a) :
    smGet d (setAll s ws).flds k = smGet d s.flds k := by
  induction ws generalizing s with
  | nil => rfl
  | cons w ws ih => exact (ih fun x hx => h x (List.mem_cons_of_mem _ hx)).trans (flds_setF_ne (h w List.mem_cons_self))

theorem getF_setAll {s : State} {ws : List (Fld × Nat)} (h : ws.Pairwise fun w x => fldKey w.1 .a ≠ fldKey x.1 .a)
    {f : Fld} {v : Nat} (hw : (f, v) ∈ ws) : getF (setAll s ws) f = v % 2 ^ f.len := by
  induction ws generalizing s with
  | nil => cases hw
  | cons w ws ih =>
    obtain ⟨hfst, hrest⟩ := List.pairwise_cons.mp h
    cases hw with
    | head => exact (flds_setAll_ne hfst).trans (getF_setF_self s f v)
    | tail _ hm => exact ih hrest hm

theorem setAll_kept (s : State) (ws : List (Fld × Nat)) : keptBut [.flds] s (setAll s ws) :=
  foldl_kept _ _ fun _ _ => keptBut_setF _ _ _

/-! ### The entry of one bad access -/

/-- R434: what is written for bad access number `n`. -/
def badEntry (n bar : Nat) (p : Port) (write : Bool) (size : Nat) (mis : Bool) (status off : Nat) : List (Fld × Nat) :=
  [(Reg.HOST_BADACC_ADDR_OFFSET (n % 16), off), (Reg.HOST_BADACC_INFO_BAR (n % 16), bar),
   (Reg.HOST_BADACC_INFO_PORT (n % 16), portNum p), (Reg.HOST_BADACC_INFO_WRITE (n % 16), b2n write),
   (Reg.HOST_BADACC_INFO_SIZE (n % 16), size), (Reg.HOST_BADACC_INFO_MISALIGNED (n % 16), b2n mis),
   (Reg.HOST_BADACC_INFO_STATUS (n % 16), status), (Reg.HOST_BADACC_COUNT, min (n + 1) 0xFFFFFFFF)]

theorem logBad_eq (bar : Nat) (p : Port) (write : Bool) (size : Nat) (mis : Bool) (status off : Nat) (s : State) :
    logBad bar p write size mis status off s =
      setAll s (badEntry (getF s Reg.HOST_BADACC_COUNT) bar p write size mis status off) := rfl

theorem fldKey_a (f : Fld) : fldKey f .a = f.off * 64 + f.lo := by simp [fldKey]

section
variable {n bar size status off : Nat} {p : Port} {write mis : Bool}

/-- The keys of what an entry writes: its two registers, and the count. -/
theorem badEntry_keys : (badEntry n bar p write size mis status off).map (fun w => fldKey w.1 .a) =
    [0x1002000 + 512 * (n % 16), 0x1002100 + 512 * (n % 16), 0x1002102 + 512 * (n % 16), 0x1002103 + 512 * (n % 16),
     0x1002104 + 512 * (n % 16), 0x1002107 + 512 * (n % 16), 0x1002108 + 512 * (n % 16), 0x1001000] := by
  simp only [badEntry, List.map_cons, List.map_nil, fldKey_a, Reg.HOST_BADACC_ADDR_OFFSET, Reg.HOST_BADACC_INFO_BAR,
    Reg.HOST_BADACC_INFO_PORT, Reg.HOST_BADACC_INFO_WRITE, Reg.HOST_BADACC_INFO_SIZE, Reg.HOST_BADACC_INFO_MISALIGNED,
    Reg.HOST_BADACC_INFO_STATUS, Reg.HOST_BADACC_COUNT, List.cons.injEq, and_true]
  omega

theorem badEntry_distinct :
    (badEntry n bar p write size mis status off).Pairwise fun w x => fldKey w.1 .a ≠ fldKey x.1 .a := by
  refine List.pairwise_map.mp ?_
  rw [badEntry_keys]
  simp only [List.pairwise_cons, List.mem_cons, List.not_mem_nil, or_false, ne_eq, forall_eq_or_imp, forall_eq,
    Nat.add_right_cancel_iff, Nat.reduceEqDiff, not_false_eq_true, true_and, IsEmpty.forall_iff, implies_true,
    List.Pairwise.nil, and_self, and_true]
  omega

/-- An entry stands in the log's registers. -/
theorem badEntry_within {w : Fld × Nat} (hw : w ∈ badEntry n bar p write size mis status off) :
    within (0x40040 * 64) (0xC0 * 64) (fldKey w.1 .a) = true := by
  have hk := badEntry_keys ▸ List.mem_map_of_mem (f := fun w : Fld × Nat => fldKey w.1 .a) hw
  simp only [List.mem_cons, List.not_mem_nil, or_false] at hk
  simp only [within, Bool.and_eq_true, decide_eq_true_eq]
  omega

/-- The address register of another entry is not among them. -/
theorem badEntry_other {j : Nat} (hj : j < 16) (hne : j ≠ n % 16) {w : Fld × Nat}
    (hw : w ∈ badEntry n bar p write size mis status off) : fldKey (Reg.HOST_BADACC_ADDR_OFFSET j) .a ≠ fldKey w.1 .a := by
  have hk := badEntry_keys ▸ List.mem_map_of_mem (f := fun w : Fld × Nat => fldKey w.1 .a) hw
  simp only [List.mem_cons, List.not_mem_nil, or_false] at hk
  rw [fldKey_a]
  simp only [Reg.HOST_BADACC_ADDR_OFFSET]
  omega

end

section
variable {s : State} {bar size status off : Nat} {p : Port} {write mis : Bool}

theorem getF_logBad {f : Fld} {v : Nat} (h : (f, v) ∈ badEntry (getF s Reg.HOST_BADACC_COUNT) bar p write size mis status off)
    (hv : v < 2 ^ f.len) : getF (logBad bar p write size mis status off s) f = v := by
  rw [logBad_eq, getF_setAll badEntry_distinct h, Nat.mod_eq_of_lt hv]

theorem getB_logBad {f : Fld} {b : Bool}
    (h : (f, b2n b) ∈ badEntry (getF s Reg.HOST_BADACC_COUNT) bar p write size mis status off) (hl : f.len = 1) : getB (logBad bar p write size mis status off s) f = b := by
  rw [getB, getF_logBad h (by cases b <;> simp [hl, b2n])]
  cases b <;> rfl

theorem getF_logBad_other {j : Nat} (hj : j < 16) (hne : j ≠ getF s Reg.HOST_BADACC_COUNT % 16) :
    getF (logBad bar p write size mis status off s) (Reg.HOST_BADACC_ADDR_OFFSET j) = getF s (Reg.HOST_BADACC_ADDR_OFFSET j) := by
  rw [logBad_eq]
  exact flds_setAll_ne fun _ hw => badEntry_other hj hne hw

theorem regsKept_logBad : regsKept (within (0x40040 * 64) (0xC0 * 64)) s (logBad bar p write size mis status off s) := by
  rw [logBad_eq]
  refine fun k d hk => flds_setAll_ne fun w hw e => ?_
  rw [e, badEntry_within hw] at hk
  contradiction

theorem logBad_kept : keptBut [.flds] s (logBad bar p write size mis status off s) := by
  rw [logBad_eq]
  exact setAll_kept _ _

end

/-! ### The command -/

/-- R16: what is answered and logged, by where the access goes and whether it is permitted. -/
theorem exec_badAccess {s : State} (hc : clocked s = true) (ha : stageAlive s = true) (p : Port) (bar4 : Bool) (off size : Nat)
    (write : Bool) :
    exec (.badAccess p bar4 off size write) s =
      .next (if bar4 && write then emit s (.bad p true)
        else if !(shapeOk off size) || !(lanesOk (if bar4 then bar4At else regAt) off size) then
          emit (logBad (if bar4 then 2 else 0) p write size (!shapeOk off size) 0 off s) (.bad p write)
        else s) := by
  refine congrArg Host.Outcome.next ((if_neg (by simp [hc])).trans ?_)
  rw [viaPf0_alive ha]
  cases bar4 with
  | false => rfl
  | true => cases write <;> rfl

/-- Settles O33: the fields of an entry have keys of their own in the log, so each reads what is written there. -/
theorem badAccessesAreLogged : Obligations.BadAccessesAreLogged := by
  intro s p bar4 off size write hc ha hoff hsize bad
  rw [exec_badAccess hc ha]
  refine ⟨fun hb hw => ?_, fun hbad hbw => ?_, fun hbad hbw => ?_⟩
  · rw [if_pos (by simp [hb, hw])]
  · rw [if_neg (by simpa using hbw), if_neg (by simpa only [Bool.not_eq_true] using hbad)]
  · rw [if_neg (by simpa using hbw), if_pos hbad]
    refine ⟨_, rfl, rfl, ?_⟩
    simp only [getF_emit, getB_emit]
    refine ⟨getF_logBad (by simp [badEntry]) ?_, getF_logBad (by simp [badEntry]) hoff, getF_logBad (by simp [badEntry]) ?_,
      getF_logBad (by simp [badEntry]) ?_, getB_logBad (by simp [badEntry]) rfl, getF_logBad (by simp [badEntry]) hsize,
      getB_logBad (by simp [badEntry]) rfl, getF_logBad (by simp [badEntry]) (Nat.two_pow_pos _),
      fun j hj hne => getF_logBad_other hj hne, regsKept_logBad, (keptBut_trans logBad_kept (emit_kept _ _)).mono (by decide)⟩
    · change _ < 2 ^ 32
      omega
    · change _ < 2 ^ 2
      cases bar4 <;> decide
    · change _ < 2 ^ 1
      cases p <;> decide

end Sys2Proof.Machine
end

