-- ==== Sys2Proof/Proofs/Stores.lean ====
section
/-!
SUPPORT. Proofs/Stores.lean: what a store leaves in memory, in the granules' codes and in the counters of detections
(R206, R207), and the numbers that bytes spell (R9).
-/
namespace Sys2Proof.Machine

/-! ### Sparse maps -/

section
variable {α : Type} {d : α} {m n : List (Nat × α)}

/-- The keys of a sorted map differ, so a listed entry is the one that is read. -/
theorem smGet_of_mem (h : smSorted m = true) {p : Nat × α} (hp : p ∈ m) : smGet d m p.1 = p.2 := by
  induction m with
  | nil => cases hp
  | cons q m ih =>
    simp only [smSorted, Bool.and_eq_true, List.all_eq_true, decide_eq_true_eq] at h
    obtain ⟨hq, hm⟩ := h
    cases hp with
    | head => exact if_pos rfl
    | tail _ hp => exact (if_neg (hq p hp).ne).trans (ih hm hp)

theorem mem_of_smGet_ne {k : Nat} (h : smGet d m k ≠ d) : (k, smGet d m k) ∈ m := by
  induction m with
  | nil => exact absurd rfl h
  | cons q m ih =>
    obtain ⟨j, v⟩ := q
    simp only [smGet] at h ⊢
    split
    · next e => exact e ▸ List.mem_cons_self
    · next e =>
      rw [if_neg e] at h
      exact List.mem_cons_of_mem _ (ih h)

variable [DecidableEq α]

/-- A read after several keys are set to one value. -/
theorem smGet_foldl_smSet {v : α} {ks : List Nat} {j : Nat} :
    smGet d (ks.foldl (fun m k => smSet d m k v) m) j = if j ∈ ks then v else smGet d m j := by
  induction ks generalizing m with
  | nil => simp
  | cons k ks ih =>
    rw [List.foldl_cons, ih, smGet_smSet]
    by_cases hj : j ∈ ks <;> simp [hj]

/-- A map in canonical form lists a key exactly where it reads other than the default. -/
theorem mem_iff_of_smCanon (h : smCanon d m = true) (p : Nat × α) : p ∈ m ↔ p.2 ≠ d ∧ smGet d m p.1 = p.2 := by
  obtain ⟨hs, hd⟩ := smCanon_iff.mp h
  refine ⟨fun hp => ⟨hd p hp, smGet_of_mem hs hp⟩, fun ⟨hne, he⟩ => ?_⟩
  have hp := mem_of_smGet_ne (he ▸ hne)
  rwa [he] at hp

/-- Two maps in canonical form that list the same entries are one. -/
theorem smCanon_ext (hm : smCanon d m = true) (hn : smCanon d n = true) (h : ∀ p, p ∈ m ↔ p ∈ n) : m = n := by
  have sm := smSorted_iff.mp (smCanon_iff.mp hm).1
  have sn := smSorted_iff.mp (smCanon_iff.mp hn).1
  have nodup {l : List (Nat × α)} (hl : l.Pairwise fun p q => p.1 < q.1) : l.Nodup :=
    hl.imp fun hlt e => hlt.ne (congrArg Prod.fst e)
  refine ((List.perm_ext_iff_of_nodup (nodup sm) (nodup sn)).mpr h).eq_of_pairwise (fun p q _ _ hpq hqp => ?_) sm sn
  exact absurd hpq hqp.asymm

end

/-! ### The block store -/

/-- A block's cells are its bytes at their addresses, but those that read as unwritten memory does. -/
theorem mem_blockCells_iff {a : Nat} {bs : List Nat} {c : Host.Cell} :
    c ∈ blockCells a bs ↔ (a ≤ c.1 ∧ c.1 < a + bs.length) ∧ c.2 ≠ memDefault ∧ BitVec.ofNat 8 (bs.getD (c.1 - a) 0) = c.2 := by
  induction bs generalizing a with
  | nil =>
    simp only [blockCells, List.not_mem_nil, List.length_nil, false_iff]
    omega
  | cons b bs ih =>
    have hcons : c ∈ blockCells a (b :: bs) ↔ (c.2 ≠ memDefault ∧ c = (a, BitVec.ofNat 8 b)) ∨ c ∈ blockCells (a + 1) bs := by
      simp only [blockCells]
      split
      · next h =>
        refine ⟨.inr, fun hc => hc.resolve_left ?_⟩
        rintro ⟨hne, rfl⟩
        exact hne h
      · next h => exact List.mem_cons.trans (or_congr_left ⟨fun e => ⟨e ▸ h, e⟩, And.right⟩)
    rw [hcons, ih]
    obtain ⟨k, v⟩ := c
    rcases lt_trichotomy k a with hk | rfl | hk
    · simp [hk.ne, Nat.not_le.mpr hk, Nat.not_le.mpr (Nat.lt_succ_of_lt hk)]
    · simp [eq_comm]
    · have hd : k - a = k - (a + 1) + 1 := by omega
      have hr : (a ≤ k ∧ k < a + (b :: bs).length) ↔ a + 1 ≤ k ∧ k < a + 1 + bs.length := by
        rw [List.length_cons]
        omega
      rw [hd, List.getD_cons_succ, hr]
      simp [hk.ne']

theorem Memory.mem_iff {m : List Host.Cell} (h : Memory.wf m = true) (c : Host.Cell) :
    c ∈ m ↔ c.2 ≠ memDefault ∧ Memory.read m c.1 = c.2 := mem_iff_of_smCanon h c

/-- The block store writes the bytes one after another. -/
theorem Memory.putBlock_eq_writeBytes {m : List Host.Cell} (h : Memory.wf m = true) (a : Nat) (bs : List Nat) :
    Memory.putBlock m a bs = Memory.writeBytes m a bs := by
  refine smCanon_ext (Memory.wf_putBlock h) (Memory.wf_writeBytes h) fun c => ?_
  rw [Memory.mem_iff (Memory.wf_writeBytes h), Memory.read_writeBytes]
  simp only [Memory.putBlock, List.mem_append, List.mem_filter, decide_eq_true_eq, mem_blockCells_iff, Memory.mem_iff h]
  split
  · next hin => simp [hin.1.not_gt, hin.2.not_ge, hin]
  · next hout =>
    have hor : c.1 < a ∨ a + bs.length ≤ c.1 := by omega
    simp only [hout, false_and, or_false, ← and_or_left, hor, and_true]

/-! ### The granules that a range touches, and their marks -/

theorem mem_granulesOf {a n g : Nat} : g ∈ granulesOf a n ↔ 0 < n ∧ a / 64 ≤ g ∧ g ≤ (a + n - 1) / 64 := by
  unfold granulesOf
  split
  · next h => simp [h]
  · next h =>
    simp only [List.mem_map, List.mem_range]
    refine ⟨?_, fun ⟨_, hlo, hhi⟩ => ⟨g - a / 64, by omega, by omega⟩⟩
    rintro ⟨i, hi, rfl⟩
    omega

/-- The range covers the whole granule. -/
def covers (a n g : Nat) : Bool := decide (a ≤ g * 64) && decide (g * 64 + 64 ≤ a + n)

theorem covers_iff {a n g : Nat} : covers a n g = true ↔ a ≤ g * 64 ∧ g * 64 + 64 ≤ a + n := by simp [covers]

theorem mem_granulesOf_of_covers {a n g : Nat} (h : covers a n g = true) : g ∈ granulesOf a n := by
  rw [covers_iff] at h
  rw [mem_granulesOf]
  omega

theorem granulesOf_one (a : Nat) : granulesOf a 1 = [a / 64] := by simp [granulesOf]

/-- A store's own steps: the bytes and the fresh codes of covered granules, then the detections, then the count of
granules written. -/
theorem putBytes_steps (s : State) (a : Nat) (bs : List Nat) :
    putBytes s a bs = countGranules a bs.length 1 ((partFailing s a bs.length).foldl (fun t g => bump t (detectCounter g) 1)
      { s with mem := Memory.writeBytes s.mem a bs,
               marks := ((granulesOf a bs.length).filter (covers a bs.length)).foldl (fun m g => smSet false m g false) s.marks }) := by
  have hpart : partFailing s a bs.length =
      (granulesOf a bs.length).filter fun g => marked s g && !((granulesOf a bs.length).filter (covers a bs.length)).contains g :=
    List.filter_congr fun g hg => by
      rw [Bool.eq_iff_iff]
      simp [hg, covers]
  rw [hpart]
  rfl

/-- A store gives the granules it covers fresh codes (R206). -/
theorem marked_putBytes (s : State) (a : Nat) (bs : List Nat) (g : Nat) :
    marked (putBytes s a bs) g = (marked s g && !covers a bs.length g) := by
  have hm : (putBytes s a bs).marks =
      ((granulesOf a bs.length).filter (covers a bs.length)).foldl (fun m g => smSet false m g false) s.marks := by
    rw [putBytes_steps, countGranules_eq]
    dsimp only
    rw [foldl_bump_eq]
  rw [marked, hm, smGet_foldl_smSet]
  simp only [List.mem_filter, and_iff_right_of_imp mem_granulesOf_of_covers]
  cases covers a bs.length g <;> simp [marked]

/-! ### The detections of a store -/

/-- Counting reads the registers alone. -/
theorem getF_foldl_bump_congr {f : Fld} {c : Nat → Fld} {gs : List Nat} {s t : State} (h : t.flds = s.flds) :
    getF (gs.foldl (fun t g => bump t (c g) 1) t) f = getF (gs.foldl (fun t g => bump t (c g) 1) s) f := by
  induction gs generalizing s t with
  | nil => exact getF_congr h f
  | cons g gs ih =>
    refine ih ?_
    simp only [bump, setF, setP, getF_congr h, h]

/-- Beside the performance counters a store counts the granules that it takes in part and that fail (R206). -/
theorem getF_putBytes {s : State} {f : Fld} (a : Nat) (bs : List Nat) (h : pmcKey (fldKey f .a) = false) :
    getF (putBytes s a bs) f = getF ((partFailing s a bs.length).foldl (fun t g => bump t (detectCounter g) 1) s) f := by
  rw [putBytes_steps]
  refine (flds_countGranules h).trans ?_
  exact getF_foldl_bump_congr rfl

theorem getF_bump_self (s : State) {f : Fld} (h : f.len = 64) (n : Nat) :
    getF (bump s f n) f = min (getF s f + n) (2 ^ 64 - 1) := by
  rw [bump, getF_setF_self, h, Nat.mod_eq_of_lt]
  omega

theorem covers_one (a g : Nat) : covers a 1 g = false := by
  rw [Bool.eq_false_iff, ne_eq, covers_iff]
  omega

/-- One byte never covers its granule. -/
theorem partFailing_one {s : State} {a : Nat} (h : marked s (a / 64) = true) : partFailing s a 1 = [a / 64] := by
  have hp : (marked s (a / 64) && !covers a 1 (a / 64)) = true := by rw [h, covers_one]; rfl
  rw [partFailing, granulesOf_one]
  exact List.filter_cons_of_pos hp

/-! ### Marks, and stores of the portion -/

theorem marked_congr {s t : State} (h : t.marks = s.marks) : marked t = marked s := by
  funext g
  simp only [marked, h]

theorem partFailing_congr {s t : State} (h : t.marks = s.marks) (a n : Nat) : partFailing t a n = partFailing s a n := by
  simp only [partFailing, marked_congr h]

theorem partFailing_eq_nil {s : State} {a n : Nat} (h : ∀ g ∈ granulesOf a n, marked s g = false) : partFailing s a n = [] := by
  refine List.filter_eq_nil_iff.mpr fun g hg => ?_
  simp [h g hg]

theorem setMarks_kept (s : State) (gs : List Nat) (b : Bool) : keptBut [.marks] s (setMarks s gs b) := by
  intro p hp
  cases p with
  | marks => exact absurd hp (by decide)
  | _ => rfl

theorem storeLocal_mem (s : State) (a : Nat) (bs : List Nat) : (storeLocal s a bs).mem = Memory.writeBytes s.mem a bs := by
  rw [(storeLocal_spec s a bs).1 .mem (by decide), putBytes_mem]

theorem storeLocal_portion {s : State} {a : Nat} {bs : List Nat} (h : partFailing s a bs.length = []) :
    (storeLocal s a bs).portion = s.portion := by
  rw [storeLocal_clean h]
  exact putBytes_kept s a bs .portion (by decide)

/-! ### Numbers in memory (R9) -/

@[simp] theorem leBytes_length (n v : Nat) : (leBytes n v).length = n := by
  induction n generalizing v with
  | zero => rfl
  | succ n ih => simp [leBytes, ih]

theorem leBytes_lt {n v b : Nat} (h : b ∈ leBytes n v) : b < 256 := by
  induction n generalizing v with
  | zero => cases h
  | succ n ih =>
    rcases List.mem_cons.mp h with rfl | h
    · exact Nat.mod_lt _ (by decide)
    · exact ih h

theorem two_pow_bytes_succ (n : Nat) : 2 ^ (8 * (n + 1)) = 256 * 2 ^ (8 * n) := by
  rw [Nat.mul_add_one, pow_add, Nat.mul_comm, show 2 ^ 8 = 256 from rfl]

theorem leNat_leBytes (n v : Nat) : leNat (leBytes n v) = v % 2 ^ (8 * n) := by
  induction n generalizing v with
  | zero => exact (Nat.mod_one v).symm
  | succ n ih =>
    rw [leBytes, leNat, ih, two_pow_bytes_succ, Nat.mod_mul]

theorem leNat_lt {bs : List Nat} (h : ∀ b ∈ bs, b < 256) : leNat bs < 2 ^ (8 * bs.length) := by
  induction bs with
  | nil => exact Nat.one_pos
  | cons b bs ih =>
    have hb := h b List.mem_cons_self
    have hbs := ih fun x hx => h x (List.mem_cons_of_mem _ hx)
    rw [leNat, List.length_cons, two_pow_bytes_succ]
    omega

theorem rdBytes_length (s : State) (a n : Nat) : (rdBytes s a n).length = n := by simp [rdBytes, Memory.bytes]

theorem getElem_rdBytes {s : State} {a n i : Nat} (h : i < (rdBytes s a n).length) : (rdBytes s a n)[i] = rdByte s (a + i) := by
  simp [rdBytes, Memory.bytes, rdByte]

theorem rdLe_lt (s : State) (a n : Nat) : rdLe s a n < 2 ^ (8 * n) := by
  have h : ∀ b ∈ rdBytes s a n, b < 256 := by
    intro b hb
    obtain ⟨i, -, rfl⟩ := List.mem_map.mp hb
    exact (Memory.read s.mem (a + i)).isLt
  have hlt := leNat_lt h
  rwa [rdBytes_length] at hlt

theorem rdBytes_congr {s t : State} (h : t.mem = s.mem) (a n : Nat) : rdBytes t a n = rdBytes s a n := by simp only [rdBytes, h]

theorem rdLe_congr {s t : State} {a n : Nat} (h : ∀ i, i < n → rdByte t (a + i) = rdByte s (a + i)) :
    rdLe t a n = rdLe s a n :=
  congrArg leNat (List.map_congr_left fun i hi => h i (List.mem_range.mp hi))

/-- A number stored reads back, truncated to the bytes stored. -/
theorem rdLe_putBytes_self (s : State) (a n v : Nat) : rdLe (putBytes s a (leBytes n v)) a n = v % 2 ^ (8 * n) := by
  have hb : rdBytes (putBytes s a (leBytes n v)) a n = leBytes n v := by
    refine List.ext_getElem (by rw [rdBytes_length, leBytes_length]) fun i hi hi' => ?_
    rw [rdBytes_length] at hi
    rw [getElem_rdBytes, rdByte_putBytes, leBytes_length, if_pos (by omega), Nat.add_sub_cancel_left,
      List.getD_eq_getElem _ _ hi', Nat.mod_eq_of_lt (leBytes_lt (List.getElem_mem hi'))]
  rw [rdLe, hb, leNat_leBytes]

theorem rdLe_storeLocal_self (s : State) (a n v : Nat) : rdLe (storeLocal s a (leBytes n v)) a n = v % 2 ^ (8 * n) := by
  rw [← rdLe_putBytes_self s a n v, rdLe, rdLe, rdBytes_congr ((storeLocal_mem _ _ _).trans (putBytes_mem _ _ _).symm)]

/-! ### The obligation -/

/-- Settles O6: the block store is the store byte by byte because memory has one canonical form, in which the bytes read
decide what is listed. -/
theorem storedBytesAreRead : Obligations.StoredBytesAreRead := by
  refine ⟨fun s a bs hm => ⟨fun i hi => ?_, memKept_putBytes s a bs, marked_putBytes s a bs, putBytes_kept s a bs,
    regsKept_putBytes s a bs, ?_⟩, fun s a v ha hg => ⟨?_, ?_⟩, fun m a bs h => Memory.putBlock_eq_writeBytes h a bs⟩
  · rw [rdByte_putBytes, if_pos (by omega), Nat.add_sub_cancel_left]
  · rw [putBytes_mem]
    exact Memory.wf_writeBytes hm
  · rw [getF_putBytes a [v] (by decide), List.length_singleton, partFailing_one hg, List.foldl_cons, List.foldl_nil,
      detectCounter, if_pos (by omega), getF_bump_self s rfl]
  · rw [marked_putBytes, List.length_singleton, covers_one, hg]
    rfl

end Sys2Proof.Machine
end

