-- ==== Sys2Proof/Proofs/MemoryFamily.lean ====
section
/-!
SUPPORT. Proofs/MemoryFamily.lean: what the MEM family's loads, stores, atomics and fences do on the state in which they
have issued (R33 to R35, R192, R206, R207, R209).
-/
namespace Sys2Proof.Machine

/-! ### Loads (R33, R34, R192, R207) -/

theorem checkOf_congr {s t : State} (h : t.marks = s.marks) : checkOf t = checkOf s := by
  funext chk g
  simp only [checkOf, marked_congr h]

/-- The reads of granules of the DRAM window, counted one by one (R475). -/
def countReads (gs : List Nat) (s : State) : State := gs.foldl (fun t g => countGranules (g * 64) 64 0 t) s

theorem countGranules_kept (a n k : Nat) (s : State) : keptBut [.flds] s (countGranules a n k s) :=
  keptBut_ite (countEv_kept _ _ _) (keptBut_refl _ _)

theorem countReads_kept (gs : List Nat) (s : State) : keptBut [.flds] s (countReads gs s) :=
  foldl_kept gs s fun _ _ => countGranules_kept _ _ _ _

theorem regsKept_countReads (gs : List Nat) (s : State) : regsKept pmcKey s (countReads gs s) :=
  foldl_regs gs s fun _ _ _ _ h => flds_countGranules h

/-- A granule of the DRAM window that passes its check is counted. -/
theorem readGranule_passes {chk : List (Nat × Check)} {r : ReadRes} {g : Nat} (hg : g * 64 < 2 ^ 38)
    (hc : checkOf r.s chk g = .ok) (hostOk : Bool) :
    readGranule chk hostOk r g = { r with s := countGranules (g * 64) 64 0 r.s } := by
  have hlo : ¬ tierBase ≤ g * 64 := by
    unfold tierBase
    omega
  have ht : inTier (g * 64) = false := by simp [inTier, hlo]
  have hm := countGranules_kept (g * 64) 64 0 r.s .marks (by decide)
  unfold readGranule
  simp [ht, checkOf_congr hm, hc]

theorem foldl_readGranule_passes {chk : List (Nat × Check)} {gs : List Nat} {r : ReadRes}
    (h : ∀ g ∈ gs, g * 64 < 2 ^ 38 ∧ checkOf r.s chk g = .ok) (hostOk : Bool) :
    gs.foldl (readGranule chk hostOk) r = { r with s := countReads gs r.s } := by
  induction gs generalizing r with
  | nil => rfl
  | cons g gs ih =>
    obtain ⟨hg, hc⟩ := h g List.mem_cons_self
    rw [List.foldl_cons, readGranule_passes hg hc, ih fun x hx => ?_]
    · rfl
    · rw [checkOf_congr (countGranules_kept (g * 64) 64 0 r.s .marks (by decide))]
      exact h x (List.mem_cons_of_mem _ hx)

section
variable {s : State} {i : Ins} {addr len dst : Nat} {chk : List (Nat × Check)} {hostOk : Bool}

/-- A load of DRAM whose granules pass delivers its bytes. -/
theorem loadInto_passes (hok : devReadOk s addr len = true) (hend : addr + len ≤ 2 ^ 38)
    (hc : ∀ g ∈ granulesOf addr len, checkOf s chk g = .ok) : loadInto i addr len dst chk hostOk s =
      storeLocal (countReads (granulesOf addr len) s) (sramAddr i.core dst) (rdBytes s addr len) := by
  have hr : devRead s addr len chk hostOk = { s := countReads (granulesOf addr len) s } := by
    refine foldl_readGranule_passes (fun g hg => ⟨?_, hc g hg⟩) hostOk
    rw [mem_granulesOf] at hg
    omega
  have hm : (countReads (granulesOf addr len) s).mem = s.mem := countReads_kept _ s .mem (by decide)
  unfold loadInto deliver
  rw [if_pos hok, hr]
  dsimp only
  rw [rdBytes_congr hm]
  simp [setMarks]

theorem loadInto_reserved (h : devReadOk s addr len = false) :
    loadInto i addr len dst chk hostOk s = storeLocal s (sramAddr i.core dst) (List.replicate len 0) :=
  if_neg (by simp [h])

end

/-! ### Stores (R33, R34, R206, R209) -/

section
variable {s : State} {addr len : Nat} {chk : List (Nat × Check)}

/-- With every check passed there is nothing to detect. -/
theorem storePart_passes (hc : ∀ g ∈ granulesOf addr len, checkOf s chk g = .ok) : storePart addr len chk s = s := by
  have hnone (k : Check) (hk : k ≠ .ok) (p : Nat → Bool) :
      ((granulesOf addr len).filter p).filter (fun g => checkOf s chk g == k) = [] := by
    refine List.filter_eq_nil_iff.mpr fun g hg => ?_
    rw [hc g (List.mem_of_mem_filter hg), beq_iff_eq]
    exact hk.symm
  unfold storePart
  dsimp only
  rw [hnone .hard (by decide), hnone .reread (by decide)]
  rfl

/-- The failing granules of the core's SRAM that a store reads (R208). -/
def failingSource (s : State) (c src len : Nat) : List Nat := (granulesOf (sramAddr c src) len).filter (marked s)

variable {c src : Nat}

theorem failingSource_eq_nil (h : anyMarked s (sramAddr c src) len = false) : failingSource s c src len = [] := by
  refine List.filter_eq_nil_iff.mpr fun g hg => ?_
  simpa using List.any_eq_false.mp h g hg

/-- A store that is allowed and whose granules pass: the detections of its source, its bytes, the source's marks. -/
theorem storeFrom_passes (hw : devWriteOk s addr len = true) (hs : scratchOk s addr len = true)
    (hc : ∀ g ∈ granulesOf addr len, checkOf s chk g = .ok) :
    ∃ gs, storeFrom c addr src len chk s =
      setMarks (putBytes (localDetect (failingSource s c src len) s) addr (rdBytes s (sramAddr c src) len)) gs true := by
  have hm := (localDetect_spec (failingSource s c src len) s).1 .marks (by decide)
  have hp : storePart addr len chk (localDetect (failingSource s c src len) s) = localDetect (failingSource s c src len) s :=
    storePart_passes fun g hg => by rw [checkOf_congr hm, hc g hg]
  exact ⟨_, (if_pos (by rw [hw, hs]; rfl)).trans (by rw [← hp]; rfl)⟩

theorem storeFrom_refused (h : devWriteOk s addr len = false ∨ scratchOk s addr len = false) :
    storeFrom c addr src len chk s = s := by
  refine if_neg ?_
  rcases h with h | h <;> simp [h]

end

/-! ### Atomics (R35, R192, R206, R209) -/

section
variable {s : State} {c : Nat} {fn : AtomFn} {wide : Bool} {addr x y dst n : Nat} {chk : List (Nat × Check)}

/-- What an atomic leaves is a number of its width. -/
theorem atomicNew_lt (fn : AtomFn) {w old : Nat} (x y : Nat) (h : old < 2 ^ w) : atomicNew fn w old x y < 2 ^ w := by
  have hx : ∀ v, v % 2 ^ w < 2 ^ w := fun v => Nat.mod_lt v (Nat.two_pow_pos w)
  cases fn with
  | fadd => exact hx _
  | cas | min | max =>
    unfold atomicNew
    dsimp only
    split
    · exact hx _
    · exact h

theorem atomicDo_passes (hn : n = if wide then 8 else 4) (ha : addr % n = 0) (hw : devWriteOk s addr n = true)
    (hs : scratchOk s addr n = true) (hc : checkOf s chk (addr / 64) = .ok) :
    atomicDo c fn wide addr x y dst chk s =
      storeLocal (putBytes s addr (leBytes n (atomicNew fn (8 * n) (rdLe s addr n) x y))) (sramAddr c dst)
        (leBytes n (rdLe s addr n)) := by
  subst hn
  unfold atomicDo
  dsimp only
  rw [if_pos ⟨ha, hw, hs⟩, hc]
  rfl

theorem atomicDo_refused (hn : n = if wide then 8 else 4)
    (h : ¬ addr % n = 0 ∨ devWriteOk s addr n = false ∨ scratchOk s addr n = false) :
    atomicDo c fn wide addr x y dst chk s = storeLocal s (sramAddr c dst) (List.replicate n 0) := by
  subst hn
  refine if_neg fun ⟨ha, hw, hs⟩ => ?_
  simp [ha, hw, hs] at h

end

/-! ### The commands -/

/-- The state in which the instruction at a place of the MEM family has issued. -/
def memIssued (s : State) (i : Ins) (place : Nat) : State := issued i (some .mem) (memOp place) false s

section
variable {s : State} {i : Ins}

theorem exec_memLoad (h : mayIssue s i (some .mem)) (addr len dst : Nat) (chk : List (Nat × Check)) (ok : Bool) :
    exec (.memLoad i addr len dst chk ok) s = .next (loadInto i addr len dst chk ok (memIssued s i 0)) :=
  congrArg Host.Outcome.next (issueWith_eq h)

theorem exec_memAcquire (h : mayIssue s i (some .mem)) (addr len dst : Nat) (chk : List (Nat × Check)) (ok : Bool) :
    exec (.memAcquire i addr len dst chk ok) s = .next (loadInto i addr len dst chk ok (memIssued s i 5)) :=
  congrArg Host.Outcome.next (issueWith_eq h)

theorem exec_memStore (h : mayIssue s i (some .mem)) (addr src len : Nat) (chk : List (Nat × Check)) :
    exec (.memStore i addr src len chk) s = .next (storeFrom i.core addr src len chk (memIssued s i 1)) :=
  congrArg Host.Outcome.next (issueWith_eq h)

theorem exec_memRelease (h : mayIssue s i (some .mem)) (addr src len : Nat) (chk : List (Nat × Check)) :
    exec (.memRelease i addr src len chk) s = .next (storeFrom i.core addr src len chk (memIssued s i 4)) :=
  congrArg Host.Outcome.next (issueWith_eq h)

theorem exec_memAtomic (h : mayIssue s i (some .mem)) (fn : AtomFn) (wide : Bool) (addr x y dst : Nat) (chk : List (Nat × Check)) :
    exec (.memAtomic i fn wide addr x y dst chk) s = .next (atomicDo i.core fn wide addr x y dst chk (memIssued s i 2)) :=
  congrArg Host.Outcome.next (issueWith_eq h)

theorem exec_memFence (h : mayIssue s i (some .mem)) : exec (.memFence i) s = .next (memIssued s i 3) :=
  congrArg Host.Outcome.next (issueWith_eq h)

end

theorem loadInto_spec {s : State} {i : Ins} {addr len dst : Nat} {chk : List (Nat × Check)} (hok : devReadOk s addr len = true)
    (hend : addr + len ≤ 2 ^ 38) (hc : ∀ g ∈ granulesOf addr len, checkOf s chk g = .ok) (ok : Bool) :
    (loadInto i addr len dst chk ok s).mem = Memory.writeBytes s.mem (sramAddr i.core dst) (rdBytes s addr len) ∧
      keptBut [.mem, .marks, .flds, .portion] s (loadInto i addr len dst chk ok s) ∧
      regsKept storeKey s (loadInto i addr len dst chk ok s) ∧
      (partFailing s (sramAddr i.core dst) len = [] → (loadInto i addr len dst chk ok s).portion = s.portion) := by
  rw [loadInto_passes hok hend hc]
  have hr := countReads_kept (granulesOf addr len) s
  obtain ⟨-, hk, hf, -⟩ := storeLocal_spec (countReads (granulesOf addr len) s) (sramAddr i.core dst) (rdBytes s addr len)
  refine ⟨?_, (keptBut_trans hr hk).mono (by decide), fun k d h => ?_, fun hp => ?_⟩
  · rw [storeLocal_mem, hr .mem (by decide)]
  · rw [hf k d h, regsKept_countReads _ _ k d (pmcKey_storeKey h)]
  · rw [storeLocal_portion, hr .portion (by decide)]
    rw [rdBytes_length, partFailing_congr (hr .marks (by decide)), hp]

theorem storeFrom_spec {s : State} {c addr src len : Nat} {chk : List (Nat × Check)} (hw : devWriteOk s addr len = true)
    (hs : scratchOk s addr len = true) (hc : ∀ g ∈ granulesOf addr len, checkOf s chk g = .ok) :
    (storeFrom c addr src len chk s).mem = Memory.writeBytes s.mem addr (rdBytes s (sramAddr c src) len) ∧
      keptBut [.mem, .marks, .flds, .portion] s (storeFrom c addr src len chk s) ∧
      regsKept storeKey s (storeFrom c addr src len chk s) ∧
      (anyMarked s (sramAddr c src) len = false → (storeFrom c addr src len chk s).portion = s.portion) := by
  obtain ⟨gs, e⟩ := storeFrom_passes (c := c) (src := src) hw hs hc
  rw [e]
  obtain ⟨hd, hdr⟩ := localDetect_spec (failingSource s c src len) s
  have hp := putBytes_kept (localDetect (failingSource s c src len) s) addr (rdBytes s (sramAddr c src) len)
  have hm := setMarks_kept (putBytes (localDetect (failingSource s c src len) s) addr (rdBytes s (sramAddr c src) len)) gs true
  refine ⟨?_, (keptBut_trans (keptBut_trans hd hp) hm).mono (by decide), fun k d h => ?_, fun hn => ?_⟩
  · rw [hm .mem (by decide), putBytes_mem, hd .mem (by decide)]
  · rw [hm .flds (by decide), regsKept_putBytes _ _ _ k d h, hdr k d h]
  · rw [hm .portion (by decide), hp .portion (by decide), failingSource_eq_nil hn, localDetect_nil]

/-- The DRAM window ends below the cores' SRAM (R28). -/
theorem sramAddr_outside {s : State} {c o a n i : Nat} (h : devWriteOk s a n = true) (hi : i < n) (m : Nat) :
    within (sramAddr c o) m (a + i) = false := by
  have hend : a + n ≤ 2 ^ 38 := by
    simp only [devWriteOk, Bool.and_eq_true, decide_eq_true_eq] at h
    exact h.1
  have hlo : ¬ sramAddr c o ≤ a + i := by
    unfold sramAddr
    omega
  simp [within, hlo]

/-- A number of up to eight bytes touches the granules of its first and its last byte. -/
theorem granulesOf_short {a n g : Nat} (hn : n ≤ 8) (h : g ∈ granulesOf a n) : g = a / 64 ∨ g = (a + n - 1) / 64 := by
  rw [mem_granulesOf] at h
  omega

theorem atomicDo_spec {s : State} {c : Nat} {fn : AtomFn} {wide : Bool} {addr x y dst n : Nat} {chk : List (Nat × Check)}
    (hn : n = if wide then 8 else 4) (ha : addr % n = 0) (hw : devWriteOk s addr n = true) (hs : scratchOk s addr n = true)
    (hc : checkOf s chk (addr / 64) = .ok) :
    let t := atomicDo c fn wide addr x y dst chk s
    rdLe t addr n = atomicNew fn (8 * n) (rdLe s addr n) x y ∧ rdLe t (sramAddr c dst) n = rdLe s addr n ∧
      memKept (fun a => within addr n a || within (sramAddr c dst) n a) s t ∧
      keptBut [.mem, .marks, .flds, .portion] s t ∧ regsKept storeKey s t ∧
      (marked s (sramAddr c dst / 64) = false → marked s ((sramAddr c dst + n - 1) / 64) = false → t.portion = s.portion) := by
  dsimp only
  rw [atomicDo_passes hn ha hw hs hc]
  have hnew := atomicNew_lt fn x y (rdLe_lt s addr n)
  generalize atomicNew fn (8 * n) (rdLe s addr n) x y = new at hnew ⊢
  have hp := putBytes_kept s addr (leBytes n new)
  have hpm := memKept_putBytes s addr (leBytes n new)
  obtain ⟨-, hk, hf, hm⟩ := storeLocal_spec (putBytes s addr (leBytes n new)) (sramAddr c dst) (leBytes n (rdLe s addr n))
  rw [leBytes_length] at hm hpm
  refine ⟨?_, ?_, memKept_trans hpm hm, (keptBut_trans hp hk).mono (by decide), fun k d h => ?_, fun h1 h2 => ?_⟩
  · rw [rdLe_congr fun j hj => hm _ (sramAddr_outside hw hj n), rdLe_putBytes_self, Nat.mod_eq_of_lt hnew]
  · rw [rdLe_storeLocal_self, Nat.mod_eq_of_lt (rdLe_lt s addr n)]
  · rw [hf k d h, regsKept_putBytes _ _ _ k d h]
  · rw [storeLocal_portion, hp .portion (by decide)]
    rw [leBytes_length]
    refine partFailing_eq_nil fun g hg => ?_
    have hg' : marked s g = false := by
      rcases granulesOf_short (by split at hn <;> omega) hg with rfl | rfl
      · exact h1
      · exact h2
    rw [marked_putBytes, hg', Bool.false_and]

/-- Settles O21: each instruction's access runs on the state in which it has issued, so what is shown of the accesses on
any state is shown of the instructions. -/
theorem memoryFamilyAccesses : Obligations.MemoryFamilyAccesses := by
  refine fun s i h => ⟨memIssued s i, fun k => issued_spec i (some .mem) (memOp k) false s, exec_memFence h,
    fun addr len dst chk ok c hc => ?_, fun addr src len chk c hc => ?_,
    fun fn wide addr x y dst chk => ⟨fun ha hw hs hc => ?_, fun hno => ?_⟩⟩
  · have he : exec c.1 s = .next (loadInto i addr len dst chk ok c.2) := by
      rcases List.mem_pair.mp hc with rfl | rfl
      · exact exec_memLoad h addr len dst chk ok
      · exact exec_memAcquire h addr len dst chk ok
    rw [he]
    exact ⟨fun hok hend hg => ⟨_, rfl, loadInto_spec hok hend hg ok⟩, fun hres => by rw [loadInto_reserved hres]⟩
  · have he : exec c.1 s = .next (storeFrom i.core addr src len chk c.2) := by
      rcases List.mem_pair.mp hc with rfl | rfl
      · exact exec_memStore h addr src len chk
      · exact exec_memRelease h addr src len chk
    rw [he]
    exact ⟨fun hw hs hg => ⟨_, rfl, storeFrom_spec hw hs hg⟩, fun hno => by rw [storeFrom_refused hno]⟩
  · refine ⟨_, exec_memAtomic h fn wide addr x y dst chk, ?_⟩
    have hspec := atomicDo_spec (c := i.core) (fn := fn) (x := x) (y := y) (dst := dst) rfl ha hw hs hc
    cases fn <;> exact hspec
  · rw [exec_memAtomic h, atomicDo_refused rfl hno]

end Sys2Proof.Machine
end

