-- ==== Sys2Proof/Proofs/LoadableCommands.lean ====
section
/-!
SUPPORT. Proofs/LoadableCommands.lean: a command answers a next state, but for the instructions whose fields an image's
load checks (R70, R71, R109, R145, R310).
-/
namespace Sys2Proof.Machine

/-- The outcome is a next state where the fields are such as an image is loaded with, and a refusal where not. -/
def AnswersBy (wf : Bool) (r : Res) : Prop :=
  (wf = true → ∃ t, r = .next t) ∧ (wf = false → ∃ m, r = .refused (.notLoadable m))

namespace AnswersBy

/-- A command without a checked field. -/
protected theorem next {t : State} : AnswersBy true (.next t) := ⟨fun _ => ⟨t, rfl⟩, nofun⟩

/-- An instruction that tests its fields first. -/
protected theorem ite {wf : Bool} {c : Prop} [Decidable c] {t : State} {m : String} (h : wf = true ↔ c) :
    AnswersBy wf (if c then .next t else .refused (.notLoadable m)) := by
  refine ⟨fun hw => ⟨t, if_pos (h.mp hw)⟩, fun hw => ⟨m, if_neg fun hc => ?_⟩⟩
  rw [h.mpr hc] at hw
  cases hw

/-- The same with the refusal first. -/
protected theorem iteNot {wf : Bool} {c : Prop} [Decidable c] {t : State} {m : String} (h : wf = true ↔ ¬ c) :
    AnswersBy wf (if c then .refused (.notLoadable m) else .next t) := by
  rw [← ite_not]
  exact .ite h

end AnswersBy

/-! ### The checks (R70, R71, R109, R310) -/

theorem passRows_iff {row m : Nat} : Instr.passRows row m = true ↔ passLoadable row m = true := by
  simp only [Instr.passRows, passLoadable, Bool.and_eq_true, decide_eq_true_eq]
  omega

theorem convCtl_iff {ctl : Nat} : Instr.convCtl ctl = true ↔ ctlOk ctl = true := by
  simp only [Instr.convCtl, ctlOk, Bool.and_eq_true, Bool.or_eq_true, decide_eq_true_eq]
  simp [ctlRank, ctlRound, ctlStream, bitsAt, bit]

theorem waitFields_iff {units count : Nat} : Instr.waitFields units count = true ↔ ¬ (32 ≤ units ∨ 32 < count) := by
  simp [Instr.waitFields]

/-- R310's fields; SIZE has two codes for an atomic and six for the others. -/
theorem rLoadable_eq (atomic form : Bool) (target job size scale offset loc : Nat) :
    rLoadable atomic ⟨target, job, size, form, scale, offset, loc⟩ =
      (Instr.remoteFields (if atomic then 2 else 6) target job size offset loc && decide (scale ≤ 128)) := by
  simp only [rLoadable, Instr.remoteFields]
  ac_rfl

/-- A remote operation without SCALE answers by R310's fields. -/
theorem remoteIssue_answers {wf : Bool} {place : Nat} {name : String} {i : Ins} {k : FabKind}
    {target job size offset loc : Nat} {s : State}
    (h : wf = Instr.remoteFields (if isAtomic k then 2 else 6) target job size offset loc) :
    AnswersBy wf (remoteIssue place name i k ⟨target, job, size, false, 0, offset, loc⟩ s) :=
  .ite (by rw [rLoadable_eq, h]; simp)

/-! ### The commands -/

/-- Every command answers by its fields: those without a checked one always carry out their meaning. -/
theorem exec_answers (c : Instr) (s : State) : AnswersBy c.wf (exec c s) := by
  cases c with
  | wait => exact .iteNot waitFields_iff
  | mma => exact .ite passRows_iff
  | mmaX => exact .ite passRows_iff
  | mmaF16 => exact .ite (by simp only [Instr.wf, Bool.and_eq_true, passRows_iff])
  | accZero => exact .ite decide_eq_true_iff
  | accConvert => exact .ite (by simp only [Instr.wf, Instr.accRows, Bool.and_eq_true, convCtl_iff])
  | accExport => exact .ite Iff.rfl
  | accImport => exact .ite Iff.rfl
  | rload => exact remoteIssue_answers rfl
  | rstore => exact remoteIssue_answers rfl
  | rfadd => exact remoteIssue_answers rfl
  | rcas => exact remoteIssue_answers rfl
  | rmin => exact remoteIssue_answers rfl
  | rmax => exact remoteIssue_answers rfl
  | rmstore => exact remoteIssue_answers rfl
  | rreduce => exact .ite (by rw [rLoadable_eq]; rfl)
  | rretry => exact .ite (by rw [rLoadable_eq]; simp [Instr.wf])
  | _ => exact .next

/-- Settles O5: only the instructions that an image's load checks test their fields, and they test those of `Instr.wf`. -/
theorem everyLoadableCommandRuns : Obligations.EveryLoadableCommandRuns := exec_answers

end Sys2Proof.Machine
end

