-- ==== Sys2Proof/Proofs/NumberFormats.lean ====
section
/-!
SUPPORT. Proofs/NumberFormats.lean: the draw generator as a procedure on 64-bit words (R79), and the bytes of a T block
(R51, R52).
-/
namespace Sys2Proof.Machine

/-! ### The generator (R79) -/

/-- R79's mixing procedure on 64-bit words. -/
def mixWord (z : BitVec 64) : BitVec 64 :=
  let z1 := (z ^^^ (z >>> 30)) * 0xBF58476D1CE4E5B9#64
  let z2 := (z1 ^^^ (z1 >>> 27)) * 0x94D049BB133111EB#64
  z2 ^^^ (z2 >>> 31)

/-- The word that carries layer, stream and position (R79). -/
def placeWord (layer : BitVec 16) (stream : BitVec 8) (pos : BitVec 32) : BitVec 64 :=
  (layer.setWidth 64 <<< 48) ||| (stream.setWidth 64 <<< 40) ||| (pos.setWidth 64 <<< 8)

/-- R79's procedure on 64-bit words: four mixes, each of the last one's word with the next coordinates. -/
def drawWord (seed step : BitVec 64) (layer : BitVec 16) (stream : BitVec 8) (pos elem : BitVec 32) : BitVec 64 :=
  let h1 := mixWord (seed + 0x9E3779B97F4A7C15#64)
  let h2 := mixWord (h1 ^^^ step)
  let h3 := mixWord (h2 ^^^ placeWord layer stream pos)
  mixWord (h3 ^^^ elem.setWidth 64)

/-- One round of the mix: a word with its upper bits folded in, times a constant modulo 2^64. -/
theorem toNat_foldMul (z c : BitVec 64) (k : Nat) :
    ((z ^^^ (z >>> k)) * c).toNat = (z.toNat ^^^ (z.toNat / 2 ^ k)) * c.toNat % m64 := by
  rw [BitVec.toNat_mul, BitVec.toNat_xor, BitVec.toNat_ushiftRight, Nat.shiftRight_eq_div_pow]
  rfl

theorem mix_toNat (z : BitVec 64) : mix z.toNat = (mixWord z).toNat := by
  have hz : z.toNat % m64 = z.toNat := Nat.mod_eq_of_lt z.isLt
  unfold mix mixWord
  dsimp only
  rw [hz, BitVec.toNat_xor, BitVec.toNat_ushiftRight, Nat.shiftRight_eq_div_pow, toNat_foldMul, toNat_foldMul]
  rfl

/-- A coordinate put in its place loses no bit. -/
theorem toNat_setWidth_shiftLeft {w k : Nat} (x : BitVec w) (hw : w ≤ 64) (h : x.toNat * 2 ^ k < 2 ^ 64) :
    (x.setWidth 64 <<< k).toNat = x.toNat <<< k := by
  rw [BitVec.toNat_shiftLeft, BitVec.toNat_setWidth_of_le hw, Nat.mod_eq_of_lt (by rwa [Nat.shiftLeft_eq])]

/-- The three coordinates stand in bits of their own, so they may be added as numbers. -/
theorem placeWord_toNat (layer : BitVec 16) (stream : BitVec 8) (pos : BitVec 32) :
    (placeWord layer stream pos).toNat = layer.toNat * 2 ^ 48 + stream.toNat * 2 ^ 40 + pos.toNat * 2 ^ 8 := by
  have hl := layer.isLt
  have hs := stream.isLt
  have hp := pos.isLt
  rw [placeWord, BitVec.toNat_or, BitVec.toNat_or, toNat_setWidth_shiftLeft layer (by decide) (by omega),
    toNat_setWidth_shiftLeft stream (by decide) (by omega), toNat_setWidth_shiftLeft pos (by decide) (by omega), Nat.or_assoc,
    ← Nat.shiftLeft_add_eq_or_of_lt (by omega : pos.toNat <<< 8 < 2 ^ 40),
    ← Nat.shiftLeft_add_eq_or_of_lt (by omega : stream.toNat <<< 40 + pos.toNat <<< 8 < 2 ^ 48)]
  simp only [Nat.shiftLeft_eq, Nat.add_assoc]

/-- The model's draw, on numbers, is bits 63 to 40 of the procedure's last word. -/
theorem draw_toNat (seed step : BitVec 64) (layer : BitVec 16) (stream : BitVec 8) (pos elem : BitVec 32) :
    draw seed.toNat step.toNat layer.toNat stream.toNat pos.toNat elem.toNat =
      (drawWord seed step layer stream pos elem >>> 40).toNat := by
  have hseed : (seed.toNat + 0x9E3779B97F4A7C15) % m64 = (seed + 0x9E3779B97F4A7C15#64).toNat := by
    rw [BitVec.toNat_add, BitVec.toNat_ofNat, Nat.add_mod_mod, m64]
  have helem : elem.toNat % 2 ^ 32 = (elem.setWidth 64).toNat := by
    rw [BitVec.toNat_setWidth_of_le (by decide), Nat.mod_eq_of_lt elem.isLt]
  unfold draw drawWord
  dsimp only
  rw [show step.toNat % m64 = step.toNat from Nat.mod_eq_of_lt step.isLt, Nat.mod_eq_of_lt layer.isLt, Nat.mod_eq_of_lt stream.isLt,
    Nat.mod_eq_of_lt pos.isLt, ← placeWord_toNat, hseed, helem]
  simp only [mix_toNat, ← BitVec.toNat_xor]
  rw [BitVec.toNat_ushiftRight, Nat.shiftRight_eq_div_pow]

/-- Settles O7: every operation of the draw on numbers is that of 64-bit words. -/
theorem drawsOfTheGenerator : Obligations.DrawsOfTheGenerator := by
  intro seed step layer stream pos elem
  refine ⟨draw_toNat seed step layer stream pos elem, ?_⟩
  rw [draw_toNat, BitVec.toNat_ushiftRight, Nat.shiftRight_eq_div_pow]
  omega

/-! ### T blocks (R51, R52) -/

/-- R51, R52: the value of an element of a T block. -/
theorem decodeCodes_t_getD (bs : List Nat) {e : Nat} (he : e < 32) (d : Int) :
    (decodeCodes .t bs).1.getD e d =
      if 243 ≤ bs.getD (e / 5) 0 then 0 else tritVal (bs.getD (e / 5) 0 / 3 ^ (e % 5)) := by
  simp [decodeCodes, List.getD_eq_getElem?_getD, he]

theorem decodeCodes_t_length (bs : List Nat) : (decodeCodes .t bs).1.length = 32 := by simp [decodeCodes]

theorem decodeCodes_t_events (bs : List Nat) : (decodeCodes .t bs).2 = bs.countP fun b => decide (243 ≤ b) :=
  List.countP_eq_length_filter.symm

theorem tritVal_eq (n : Nat) : tritVal n = if n % 3 = 1 then 1 else if n % 3 = 2 then -1 else 0 := by
  have h : n % 3 < 3 := Nat.mod_lt n (by decide)
  unfold tritVal
  interval_cases n % 3 <;> rfl

/-- Settles O8: element e is a digit of byte e / 5, and the events are counted over the block's bytes. -/
theorem invalidTritBytes : Obligations.InvalidTritBytes := by
  refine fun bs _ _ => ⟨decodeCodes_t_length bs, fun e he hb => ?_, decodeCodes_t_events bs, fun i j _ hj he hb => ?_⟩
  · rw [decodeCodes_t_getD bs he, if_pos hb]
  · have hi : (5 * i + j) / 5 = i := by omega
    have hd : (5 * i + j) % 5 = j := by omega
    rw [decodeCodes_t_getD bs he, hi, hd, if_neg hb.not_ge, tritVal_eq]

end Sys2Proof.Machine
end

