-- ==== Sys2Proof/Proofs/VectorUnit.lean ====
section
/-!
SUPPORT. Proofs/VectorUnit.lean: words stored one after another read back each at its place, and what VEC_OP does on the
state in which it has issued (R68, R205).
-/
namespace Sys2Proof.Machine

/-! ### Words in memory -/

/-- Bytes stored in the middle of a run read back. -/
theorem rdBytes_putBytes_middle (s : State) (a : Nat) (pre post : List Nat) {bs : List Nat} (h : ∀ b ∈ bs, b < 256) :
    rdBytes (putBytes s a (pre ++ (bs ++ post))) (a + pre.length) bs.length = bs := by
  refine List.ext_getElem (rdBytes_length _ _ _) fun i hi hi' => ?_
  rw [getElem_rdBytes, rdByte_putBytes, if_pos (by simp only [List.length_append]; omega),
    show a + pre.length + i - a = pre.length + i by omega, List.getD_append_right _ _ _ _ (by omega), Nat.add_sub_cancel_left,
    List.getD_append _ _ _ _ hi', List.getD_eq_getElem _ _ hi', Nat.mod_eq_of_lt (h _ (List.getElem_mem hi'))]

/-- The first `n` values of `v`, each as `w` bytes, one after another. -/
def wordBytes (w n : Nat) (v : Nat → Nat) : List Nat := (List.range n).flatMap fun k => leBytes w (v k)

@[simp] theorem wordBytes_length (w n : Nat) (v : Nat → Nat) : (wordBytes w n v).length = w * n := by
  simp [wordBytes, List.length_flatMap, Nat.mul_comm]

theorem wordBytes_succ (w n : Nat) (v : Nat → Nat) : wordBytes w (n + 1) v = wordBytes w n v ++ leBytes w (v n) := by
  simp [wordBytes, List.range_succ]

/-- Any of the words, between those before it and those behind. -/
theorem wordBytes_split {w n k : Nat} (v : Nat → Nat) (h : k < n) :
    ∃ post, wordBytes w n v = wordBytes w k v ++ (leBytes w (v k) ++ post) := by
  induction n, h using Nat.le_induction with
  | base => exact ⟨[], by rw [wordBytes_succ, List.append_nil]⟩
  | succ n _ ih =>
    obtain ⟨post, e⟩ := ih
    exact ⟨post ++ leBytes w (v n), by rw [wordBytes_succ, e, List.append_assoc, List.append_assoc]⟩

/-- A word of a stored run reads back at its place, truncated to its bytes. -/
theorem rdLe_storeLocal_words (s : State) (a : Nat) {w n k : Nat} (v : Nat → Nat) (h : k < n) :
    rdLe (storeLocal s a (wordBytes w n v)) (a + w * k) w = v k % 2 ^ (8 * w) := by
  obtain ⟨post, e⟩ := wordBytes_split (w := w) v h
  have hm := rdBytes_putBytes_middle s a (wordBytes w k v) post fun b => leBytes_lt (n := w) (v := v k)
  rw [leBytes_length, wordBytes_length, ← e] at hm
  rw [rdLe, rdBytes_congr ((storeLocal_mem _ _ _).trans (putBytes_mem _ _ _).symm), hm, leNat_leBytes]

/-! ### The command -/

/-- The state in which a vector operation has issued. -/
def vecIssued (s : State) (i : Ins) (f : VecFn) : State :=
  issued i (some .vu) ⟨3, match f with | .add => 0 | .sub => 1 | .mul => 2 | .fma => 3 | .div => 4 | .sqrt => 5, 7⟩ false s

/-- The result of lane `k` (R68). -/
def vecLane (s : State) (c : Nat) (f : VecFn) (src1 src2 src3 k : Nat) : Nat :=
  vecFn f (vecIn s c src1 k) (vecIn s c src2 k) (vecIn s c src3 k)

/-- A vector operation on the state in which it has issued: the detections of its operands, then its lanes' results. -/
def vecStore (s : State) (c : Nat) (f : VecFn) (n dst src1 src2 src3 : Nat) : State :=
  storeLocal (localDetect (vecBad s c f n src1 src2 src3) s) (sramAddr c dst) (wordBytes 4 n (vecLane s c f src1 src2 src3))

theorem exec_vecOp {s : State} {i : Ins} (h : mayIssue s i (some .vu)) (f : VecFn) (n dst src1 src2 src3 : Nat) :
    exec (.vecOp i f n dst src1 src2 src3) s = .next (vecStore (vecIssued s i f) i.core f n dst src1 src2 src3) :=
  congrArg Host.Outcome.next (issueWith_eq h)

theorem vecStore_spec (s : State) (c : Nat) (f : VecFn) (n dst src1 src2 src3 : Nat) :
    let t := vecStore s c f n dst src1 src2 src3
    (∀ k, k < n → rdLe t (sramAddr c dst + 4 * k) 4 = vecLane s c f src1 src2 src3 k % 2 ^ 32) ∧
      memKept (within (sramAddr c dst) (4 * n)) s t ∧ regsKept storeKey s t ∧ keptBut [.mem, .marks, .flds, .portion] s t ∧
      (vecBad s c f n src1 src2 src3 = [] → partFailing s (sramAddr c dst) (4 * n) = [] → t.portion = s.portion) := by
  obtain ⟨hd, hdr⟩ := localDetect_spec (vecBad s c f n src1 src2 src3) s
  obtain ⟨-, hk, hf, hm⟩ := storeLocal_spec (localDetect (vecBad s c f n src1 src2 src3) s) (sramAddr c dst)
    (wordBytes 4 n (vecLane s c f src1 src2 src3))
  rw [wordBytes_length] at hm
  refine ⟨fun k h => rdLe_storeLocal_words _ _ _ h, fun a h => ?_, fun k d h => ?_, (keptBut_trans hd hk).mono (by decide),
    fun hb hp => ?_⟩
  · exact (hm a h).trans (rdByte_congr (hd .mem (by decide)) a)
  · exact (hf k d h).trans (hdr k d h)
  · unfold vecStore
    rw [hb, localDetect_nil, storeLocal_portion]
    rw [wordBytes_length, hp]

/-- Settles O19: what VEC_OP does on the state in which it has issued. -/
theorem vectorOperation : Obligations.VectorOperation := by
  intro s i f n dst a b c h
  refine ⟨vecIssued s i f, issued_spec _ _ _ _ _, _, exec_vecOp h f n dst a b c, ?_⟩
  have hspec := vecStore_spec (vecIssued s i f) i.core f n dst a b c
  cases f <;> exact hspec

end Sys2Proof.Machine
end

