-- ==== Sys2Proof/Proofs/Touches.lean ====
section
/-!
SUPPORT. Proofs/Touches.lean: the parts and the registers that a chain of operations may change, said at once.
-/
namespace Sys2Proof.Machine

/-- Nothing but the listed parts is different, and no register but those whose key `K` names. -/
structure Touches (l : List Part) (K : Nat → Bool) (s t : State) : Prop where
  parts : keptBut l s t
  regs : regsKept K s t

theorem accs_kept (s : State) (m : List (Nat × LAcc)) : keptBut [.accs] s { s with accs := m } := by
  intro p hp
  cases p with
  | accs => exact absurd hp (by decide)
  | _ => rfl

/-- The fault record of the matrix engine (R114). -/
def mxFaultKey (k : Nat) : Bool :=
  oneOf [Reg.ENG_MX_LAST_FAULT_CORE_ID, Reg.ENG_MX_LAST_FAULT_CAUSE, Reg.ENG_MX_LAST_FAULT_LAYER] k

namespace Touches
variable {l m : List Part} {K L : Nat → Bool} {s t u : State}

protected theorem refl (s : State) : Touches l K s s := ⟨keptBut_refl _ _, regsKept_refl _ _⟩

/-- A further operation, which may change no more than the chain may. -/
protected theorem step (h : Touches l K s t) (g : Touches m L t u) (hl : ∀ p ∈ m, p ∈ l) (hK : ∀ k, K k = false → L k = false) :
    Touches l K s u :=
  ⟨(keptBut_trans h.parts (g.parts.mono hl)).mono (by simp), fun k d e => (g.regs k d (hK k e)).trans (h.regs k d e)⟩

protected theorem trans (h : Touches l K s t) (g : Touches l K t u) : Touches l K s u := h.step g (fun _ => id) fun _ => id

protected theorem mono (h : Touches m L s t) (hl : ∀ p ∈ m, p ∈ l) (hK : ∀ k, K k = false → L k = false) : Touches l K s t :=
  (Touches.refl s).step h hl hK

protected theorem ite {c : Prop} [Decidable c] (h : Touches l K s t) (g : Touches l K s u) : Touches l K s (if c then t else u) :=
  ⟨keptBut_ite h.parts g.parts, regsKept_ite h.regs g.regs⟩

protected theorem foldl {α : Type} {f : State → α → State} {xs : List α} (h : Touches l K s t)
    (hf : ∀ u x, Touches l K u (f u x)) : Touches l K s (xs.foldl f t) :=
  h.trans ⟨foldl_kept xs t fun u x => (hf u x).parts, foldl_regs xs t fun u x => (hf u x).regs⟩

/-- A further operation that leaves the registers alone. -/
protected theorem keep (h : Touches l K s t) (g : keptBut m t u) (hl : ∀ p ∈ m, p ∈ l := by decide)
    (hf : m.contains .flds = false := by decide) : Touches l K s u :=
  h.step (L := K) ⟨g, regsKept_of_flds _ (g .flds hf)⟩ hl fun _ => id

/-- A register that is not named reads the same. -/
protected theorem getF (h : Touches l K s t) {f : Fld} (hf : K (fldKey f .a) = false) : getF t f = getF s f := h.regs _ _ hf

protected theorem sampleBytes (h : Touches l K s t) (h1 : K (fldKey Reg.PMC_SMP_HEAD .a) = false := by decide)
    (h2 : K (fldKey Reg.PMC_SMP_BASE_LO .a) = false := by decide) (h3 : K (fldKey Reg.PMC_SMP_BASE_HI .a) = false := by decide) :
    sampleBytes t = sampleBytes s := sampleBytes_congr (h.getF h1) (h.getF h2) (h.getF h3)

/-! ### The operations -/

protected theorem setF {f : Fld} {v : Nat} (h : Touches l K s t) (hK : K (fldKey f .a) = true := by decide)
    (hl : .flds ∈ l := by decide) : Touches l K s (setF t f v) := by
  refine h.step (L := K) ⟨keptBut_setF t f v, fun k d e => flds_setF_ne ?_⟩ (by simpa using hl) fun _ => id
  rintro rfl
  rw [hK] at e
  cases e

protected theorem bump {f : Fld} {n : Nat} (h : Touches l K s t) (hK : K (fldKey f .a) = true := by decide)
    (hl : .flds ∈ l := by decide) : Touches l K s (bump t f n) := h.setF hK hl

protected theorem setBit {f : Fld} {i : Nat} {b : Bool} (h : Touches l K s t) (hK : K (fldKey f .a) = true := by decide)
    (hl : .flds ∈ l := by decide) : Touches l K s (setBit t f i b) := h.setF hK hl

protected theorem countEv {e n : Nat} (h : Touches l K s t) (hK : ∀ k, K k = false → pmcKey k = false) (hl : .flds ∈ l := by decide) :
    Touches l K s (countEv e n t) := h.step ⟨countEv_kept e n t, regsKept_countEv e n t⟩ (by simpa using hl) hK

protected theorem countFmt {layer : Nat} {ev : FmtEv} (h : Touches l K s t)
    (hK : ∀ k, K k = false → pmcKey k = false ∧ fmtKey k = false) (hl : ∀ p ∈ [Part.flds, .portion], p ∈ l := by decide) :
    Touches l K s (countFmt layer ev t) :=
  h.step ⟨countFmt_kept layer ev t, regsKept_countFmt layer ev t⟩ hl fun k e => by rw [(hK k e).1, (hK k e).2]; rfl

protected theorem irqBoth {n : Nat} (h : Touches l K s t) (hn : n < 7) (hK : ∀ k, K k = false → irqKey k = false)
    (hl : ∀ p ∈ irqParts, p ∈ l := by decide) : Touches l K s (irqBoth n t) :=
  h.step ⟨irqBoth_kept n t, regsKept_irqBoth hn t⟩ hl hK

/-- R114, R434: a fault record changes its three fields and raises FAULT at both ports. -/
protected theorem lastFault {c cause layer : Nat} (h : Touches l K s t)
    (hK : ∀ k, K k = false → irqKey k = false ∧ mxFaultKey k = false) (hl : ∀ p ∈ irqParts, p ∈ l := by decide) :
    Touches l K s (lastFault c cause layer t) := by
  have g : Touches irqParts (fun k => irqKey k || mxFaultKey k) t (lastFault c cause layer t) :=
    .irqBoth (.setF (.setF (.setF (.refl t)))) (by decide) fun k e => (Bool.or_eq_false_iff.mp e).1
  exact h.step g hl fun k e => by rw [(hK k e).1, (hK k e).2]; rfl

protected theorem addPoison {x : PoisonSrc} (h : Touches l K s t) (hl : .portion ∈ l := by decide) : Touches l K s (addPoison x t) :=
  h.keep (addPoison_kept x t) (by simpa using hl)

protected theorem coreSet {c : Nat} {k : CoreSt} (h : Touches l K s t) (hl : .cores ∈ l := by decide) : Touches l K s (coreSet t c k) :=
  h.keep (coreSet_kept t c k) (by simpa using hl)

end Touches

end Sys2Proof.Machine
end

