-- ==== Sys2Proof/Proofs/Accumulators.lean ====
section
/-!
SUPPORT. Proofs/Accumulators.lean: exact sums in any order and their residues (R90, R94, R102), and the rows of accumulators
that an operation writes (R86, R91 to R93).
-/
namespace Sys2Proof.Machine

/-! ### Exact sums (R94) -/

theorem contribAdd_assoc (a b c : Contrib) : contribAdd (contribAdd a b) c = contribAdd a (contribAdd b c) := by
  simp only [contribAdd, add_assoc, Bool.or_assoc]

theorem contribAdd_comm (a b : Contrib) : contribAdd a b = contribAdd b a := by
  simp only [contribAdd, add_comm, Bool.or_comm]

theorem contribAdd_zero (a : Contrib) : contribAdd a {} = a := by simp [contribAdd]

theorem foldl_contribAdd (l : List Contrib) (a : Contrib) : l.foldl contribAdd a = contribAdd a (contribSum l) := by
  induction l generalizing a with
  | nil => exact (contribAdd_zero a).symm
  | cons x l ih =>
    rw [contribSum, List.foldl_cons, List.foldl_cons, ih, ih (contribAdd {} x), ← contribAdd_assoc, ← contribAdd_assoc, contribAdd_zero]

theorem contribSum_cons (x : Contrib) (l : List Contrib) : contribSum (x :: l) = contribAdd x (contribSum l) := by
  rw [contribSum, List.foldl_cons, foldl_contribAdd, contribAdd_comm {} x, contribAdd_zero]

theorem contribSum_append (l m : List Contrib) : contribSum (l ++ m) = contribAdd (contribSum l) (contribSum m) := by
  rw [contribSum, List.foldl_append, foldl_contribAdd]
  rfl

theorem contribSum_perm {l m : List Contrib} (h : l.Perm m) : contribSum l = contribSum m := by
  induction h with
  | nil => rfl
  | cons x _ ih => rw [contribSum_cons, contribSum_cons, ih]
  | swap x y l => simp only [contribSum_cons, ← contribAdd_assoc, contribAdd_comm x y]
  | trans _ _ ih₁ ih₂ => exact ih₁.trans ih₂

/-- The exact sum of an accumulator and a contribution, in range (R94). -/
def accPlus (a : LAcc) (k : Contrib) : LAcc :=
  { v := a.v + k.v, poison := a.poison || k.poison, ovf := false, nonfinite := a.nonfinite || k.nonfinite }

theorem accAdd_inRange {a : LAcc} {k : Contrib} (ho : a.ovf = false) (hr : accOut (a.v + k.v) = false) (free : Int) :
    accAdd a k free = accPlus a k := by simp [accAdd, accPlus, ho, hr]

theorem accPlus_contribAdd (a : LAcc) (k j : Contrib) : accPlus (accPlus a k) j = accPlus a (contribAdd k j) := by
  simp only [accPlus, contribAdd, add_assoc, Bool.or_assoc]

/-- Terms added one by one, no sum of their first ones out of range, add their exact sum. -/
theorem foldl_accAdd_inRange (l : List Contrib) (free : Int) {a : LAcc} (ho : a.ovf = false)
    (hr : ∀ m, m <+: l → accOut (a.v + (contribSum m).v) = false) :
    l.foldl (fun x k => accAdd x k free) a = accPlus a (contribSum l) := by
  induction l generalizing a with
  | nil =>
    obtain ⟨v, p, o, n⟩ := a
    obtain rfl : o = false := ho
    simp [accPlus, contribSum]
  | cons k l ih =>
    have hk : accOut (a.v + k.v) = false := by
      have hp := hr [k] ⟨l, rfl⟩
      rwa [contribSum_cons, show contribSum [] = {} from rfl, contribAdd_zero] at hp
    have hl (m : List Contrib) (hm : m <+: l) : accOut ((accPlus a k).v + (contribSum m).v) = false := by
      have hp := hr (k :: m) (List.cons_prefix_cons.mpr ⟨rfl, hm⟩)
      rwa [contribSum_cons, contribAdd, ← add_assoc] at hp
    rw [List.foldl_cons, accAdd_inRange ho hk, ih rfl hl, accPlus_contribAdd, contribSum_cons]

/-! ### Residues (R90, R102) -/

theorem residue_cast (x : Int) : (residue x : Int) = x % 255 := Int.toNat_of_nonneg (Int.emod_nonneg x (by decide))

/-- 2^8 is 1 modulo 255, so a shift counts modulo 8. -/
theorem two_pow_mod_255 (n : Nat) : 2 ^ n % 255 = 2 ^ (n % 8) % 255 := by
  conv_lhs => rw [← Nat.div_add_mod n 8, pow_add, pow_mul, Nat.mul_mod, Nat.pow_mod]
  norm_num

theorem residueTerm_eq (x : Int) (sig sh : Nat) : residueTerm x sig sh = residue (x * (sig : Int) * 2 ^ sh) := by
  have hp : ((2 : Int) ^ (sh % 8)) ≡ 2 ^ sh [ZMOD 255] := by
    have h := (two_pow_mod_255 sh).symm
    exact_mod_cast Int.natCast_modEq_iff.mpr h
  have hx : (residue x : Int) ≡ x [ZMOD 255] := by rw [residue_cast]; exact Int.mod_modEq x 255
  zify
  rw [residueTerm, residue_cast]
  push_cast
  exact (hx.mul_right _).mul hp

theorem residue_add (x y : Int) : residue (x + y) = (residue x + residue y) % 255 := by
  zify
  rw [residue_cast, residue_cast, residue_cast, Int.add_emod]

theorem residue_sum (l : List Int) : residue l.sum = (l.map residue).sum % 255 := by
  induction l with
  | nil => rfl
  | cons x l ih => rw [List.sum_cons, residue_add, ih, Nat.add_mod_mod, List.map_cons, List.sum_cons]

/-- Settles O20: the residue's exponent counts modulo 8 because 2^8 is 1 modulo 255. -/
theorem accumulationAndResidueArithmetic : Obligations.AccumulationAndResidueArithmetic :=
  ⟨⟨fun _ _ => contribSum_perm, contribSum_append, fun _ l free ho hr => foldl_accAdd_inRange l free ho hr⟩,
    fun S sa sw half _ _ _ _ => residueTerm_eq S (s8Sig sa * s8Sig sw) (promoteShift sa sw half), residue_sum⟩

/-! ### Accumulators as they are listed (R91, R92) -/

/-- The key of an accumulator. -/
def accKey (c row col : Nat) : Nat := c * 16384 + row * 128 + col

theorem accGet_eq (s : State) (c row col : Nat) : accGet s c row col = smGet {} s.accs (accKey c row col) := rfl

theorem accGet_congr {s t : State} (h : t.accs = s.accs) : accGet t = accGet s := by
  funext c row col
  simp only [accGet, h]

theorem mem_passOutputs {m : Nat} {o : Nat × Nat} : o ∈ passOutputs m ↔ o.1 < m ∧ o.2 < 128 := by
  rw [← List.mem_range, ← List.mem_range]
  exact List.mem_product

theorem nodup_passOutputs (m : Nat) : (passOutputs m).Nodup := (List.nodup_range).product List.nodup_range

/-- The key of an output of a pass whose first row is `row`. -/
def outKey (c row : Nat) (o : Nat × Nat) : Nat := accKey c (row + o.1) o.2

theorem outKey_pairwise (c row m : Nat) : (passOutputs m).Pairwise fun o p => outKey c row o ≠ outKey c row p := by
  refine (nodup_passOutputs m).imp_of_mem fun {o p} ho hp hne he => hne ?_
  have ho2 := (mem_passOutputs.mp ho).2
  have hp2 := (mem_passOutputs.mp hp).2
  unfold outKey accKey at he
  exact Prod.ext (by omega) (by omega)

/-- An accumulator outside the rows of a pass is none of its outputs. -/
theorem accKey_ne_outKey {c d row m r k : Nat} (hm : row + m ≤ 128) (hr : r < 128) (hk : k < 128)
    (h : d = c → r < row ∨ row + m ≤ r) : ∀ o ∈ passOutputs m, accKey d r k ≠ outKey c row o := by
  intro o ho
  obtain ⟨h1, h2⟩ := mem_passOutputs.mp ho
  unfold outKey accKey
  omega

/-! ### One write per output (R86)

The outputs of a pass are written one after another, each write reading and setting its own accumulator.  `read` is how the
accumulators are read from what the writes pass on, `key` where an output's accumulator is. -/

section
variable {β : Type} {read : β → Nat → LAcc} {key : Nat × Nat → Nat} {g : β → Nat × Nat → β}

theorem foldl_read_other (hg : ∀ b o j, j ≠ key o → read (g b o) j = read b j) {os : List (Nat × Nat)} {b : β} {j : Nat}
    (hj : ∀ o ∈ os, j ≠ key o) : read (os.foldl g b) j = read b j := by
  induction os generalizing b with
  | nil => rfl
  | cons p os ih =>
    rw [List.foldl_cons, ih fun o ho => hj o (List.mem_cons_of_mem _ ho), hg b p j (hj p List.mem_cons_self)]

variable {ok : Nat × Nat → LAcc → Prop}

/-- What the writes keep one by one, each on an accumulator that still holds its first value. -/
theorem foldl_invariant {I : β → Prop} (hg : ∀ b o j, j ≠ key o → read (g b o) j = read b j)
    (hI : ∀ b o, I b → ok o (read b (key o)) → I (g b o)) {os : List (Nat × Nat)} (hos : os.Pairwise fun o p => key o ≠ key p)
    {b : β} (hok : ∀ o ∈ os, ok o (read b (key o))) (hb : I b) : I (os.foldl g b) := by
  induction os generalizing b with
  | nil => exact hb
  | cons p os ih =>
    obtain ⟨hp, hos⟩ := List.pairwise_cons.mp hos
    refine ih hos (fun o ho => ?_) (hI b p hb (hok p List.mem_cons_self))
    rw [hg b p _ (hp o ho).symm]
    exact hok o (List.mem_cons_of_mem _ ho)

/-- An output is written once, from its first value. -/
theorem foldl_read_self {new : Nat × Nat → LAcc → LAcc} (hg : ∀ b o j, j ≠ key o → read (g b o) j = read b j)
    (hv : ∀ b o, ok o (read b (key o)) → read (g b o) (key o) = new o (read b (key o))) {os : List (Nat × Nat)}
    (hos : os.Pairwise fun o p => key o ≠ key p) {b : β} (hok : ∀ o ∈ os, ok o (read b (key o))) {o : Nat × Nat}
    (ho : o ∈ os) : read (os.foldl g b) (key o) = new o (read b (key o)) := by
  induction os generalizing b with
  | nil => cases ho
  | cons p os ih =>
    obtain ⟨hp, hos⟩ := List.pairwise_cons.mp hos
    rw [List.foldl_cons]
    cases ho with
    | head => rw [foldl_read_other hg hp, hv b _ (hok _ List.mem_cons_self)]
    | tail _ ho =>
      have hb (q : Nat × Nat) (hq : q ∈ os) : read (g b p) (key q) = read b (key q) := hg b p _ (hp q hq).symm
      rw [ih hos (fun q hq => (hb q hq).symm ▸ hok q (List.mem_cons_of_mem _ hq)) ho, hb o ho]

end

end Sys2Proof.Machine
end

