-- ==== Sys2Proof/Proofs/MatrixPasses.lean ====
section
/-!
SUPPORT. Proofs/MatrixPasses.lean: a pass is queued, reads its operands, adds its terms to its outputs and ends, or meets a
residue mismatch (R85, R86, R94, R103, R104, R288).
-/
namespace Sys2Proof.Machine

/-! ### Issue (R85, R109, R110) -/

/-- A pass issues and joins the core's queue. -/
theorem queuePass_spec {s : State} {i : Ins} (h : mayIssue s i (some .mx)) (place : Nat) (p : Pass) :
    ∃ u, Issued s i (some .mx) u ∧ queuePass i place p s =
      coreSet u i.core { coreGet u i.core with mxq := (coreGet s i.core).mxq ++ [.pass p] } := by
  have hu := issued_spec i (some .mx) ⟨1, place, 7⟩ true s
  refine ⟨_, hu, (issueWith_eq h).trans ?_⟩
  obtain ⟨⟨_, _, _, hc⟩, -⟩ := hu
  rw [hc]

/-- Settles O15: the three instructions queue their pass by one operation. -/
theorem matrixPassesAreQueued : Obligations.MatrixPassesAreQueued := by
  intro s i a w row m h hrow
  have hload := passRows_iff.mp hrow
  have key (place : Nat) (p : Pass) {r : Res} (hr : r = .next (queuePass i place p s)) :
      ∃ u, Issued s i (some .mx) u ∧
        r = .next (coreSet u i.core { coreGet u i.core with mxq := (coreGet s i.core).mxq ++ [.pass p] }) := by
    obtain ⟨u, hu, e⟩ := queuePass_spec h place p
    exact ⟨u, hu, by rw [hr, e]⟩
  refine ⟨fun f => key 0 _ (if_pos hload), key 1 _ (if_pos hload), fun f hf => key 2 _ (if_pos ?_)⟩
  rw [hload, Bool.true_and, bne_iff_ne]
  exact hf

/-! ### The end of a pass (R86, R110) -/

/-- With passes alone behind it, nothing else is performed when a pass ends. -/
theorem mxDrain_passes (c : Nat) (s : State) {rest : List MxItem} (h : ∀ x ∈ rest, ∃ q, x = .pass q) :
    mxDrain c rest s = coreSet s c { coreGet s c with mxq := rest } := by
  cases rest with
  | nil => rfl
  | cons x rest =>
    obtain ⟨q, rfl⟩ := h x List.mem_cons_self
    rfl

theorem passEnd_spec {s : State} {c : Nat} {p : Pass} {rest : List MxItem} (hq : (coreGet s c).mxq = .pass p :: rest)
    (hrest : ∀ x ∈ rest, ∃ q, x = .pass q) (latency : Nat) :
    let t := passEnd c p latency s
    (coreGet t c).mxq = rest ∧ (coreGet t c).outst = (coreGet s c).outst.erase ⟨.mx, p.index⟩ ∧
      (∀ d, d ≠ c → coreGet t d = coreGet s d) ∧ Touches [.cores, .flds, .mem, .marks, .ringRecs] issueKey s t ∧
      memKept (sampleBytes s) s t := by
  have he : passEnd c p latency s = complete c .mx p.index latency (coreSet s c { coreGet s c with mxq := rest }) := by
    unfold passEnd
    dsimp only
    rw [hq, List.tail_cons, mxDrain_passes c s hrest]
  obtain ⟨⟨g, m, hc⟩, ho, hk, hr, hm⟩ := complete_spec c .mx p.index latency (coreSet s c { coreGet s c with mxq := rest })
  dsimp only
  rw [he, hc, coreGet_coreSet_self]
  refine ⟨rfl, rfl, fun d hd => (ho d hd).trans (coreGet_coreSet_ne hd), ?_, hm⟩
  exact (Touches.refl s).coreSet.trans ⟨hk, hr⟩

/-! ### The operands (R104) -/

theorem rdByte_of_mem {s t : State} (h : t.mem = s.mem) : rdByte t = rdByte s := funext (rdByte_congr h)
theorem rdBytes_of_mem {s t : State} (h : t.mem = s.mem) : rdBytes t = rdBytes s := funext₂ (rdBytes_congr h)
theorem anyMarked_of_marks {s t : State} (h : t.marks = s.marks) : anyMarked t = anyMarked s := by
  funext a n
  rw [anyMarked, marked_congr h]
  rfl

/-- The terms of a pass are those of its operands in memory. -/
theorem passTerm_congr {s t : State} (hm : t.mem = s.mem) (hk : t.marks = s.marks) : passTerm t = passTerm s := by
  funext c p i j
  simp only [passTerm, aBlk, wBlk, sramBlk, vxElem, f16Bad, rdLe, rdByte_of_mem hm, rdBytes_of_mem hm, anyMarked_of_marks hk]

/-- The state in which a pass has read its operands: their detections, events and activity are counted. -/
def passRead (c : Nat) (p : Pass) (s : State) : State :=
  let s0 := countEv (0x600 + 4 * c) p.m (countEv (0x600 + 4 * c + 1) (passActivity s c p).1
    (countEv (0x600 + 4 * c + 2) (passActivity s c p).2 (passDetect c p s)))
  if abortedAttempt s c p.layer then s0 else countFmt p.layer { codeInvalid := passInvalid s c p } s0

/-- The registers in which reading operands is counted. -/
def passReadKey (k : Nat) : Bool := storeKey k || irqKey k || fmtKey k || mxFaultKey k || oneOf [Reg.ENG_MX_OPERAND_DETECT] k

/-- The parts that reading operands uses. -/
def passReadParts : List Part := [.flds, .portion] ++ irqParts

theorem passReadKey_false {k : Nat} (h : passReadKey k = false) :
    storeKey k = false ∧ irqKey k = false ∧ fmtKey k = false ∧ mxFaultKey k = false := by
  simp only [passReadKey, Bool.or_eq_false_iff] at h
  tauto

theorem oneOf_mono {fs gs : List Fld} {k : Nat} (hs : ∀ f ∈ fs, f ∈ gs) (h : oneOf gs k = false) : oneOf fs k = false := by
  simp only [oneOf, List.contains_eq_mem, decide_eq_false_iff_not, List.mem_map, not_exists, not_and] at h ⊢
  exact fun f hf => h f (hs f hf)

/-- The registers of a pass's end are those of issue and of reading operands, among others. -/
theorem passKey_false {k : Nat} (h : passKey k = false) : issueKey k = false ∧ passReadKey k = false := by
  simp only [passKey, Bool.or_eq_false_iff] at h
  obtain ⟨⟨⟨hi, hq⟩, hf⟩, hm⟩ := h
  refine ⟨hi, ?_⟩
  rw [passReadKey, (issueKey_false hi).1, hq, hf, mxFaultKey, oneOf_mono (by decide) hm, oneOf_mono (by decide) hm]
  rfl

theorem touches_passDetect (c : Nat) (p : Pass) (s : State) : Touches passReadParts passReadKey s (passDetect c p s) :=
  .ite (.refl s) (.addPoison (.lastFault (.bump (.bump (.refl s))) fun _ e =>
    ⟨(passReadKey_false e).2.1, (passReadKey_false e).2.2.2⟩))

theorem touches_passRead (c : Nat) (p : Pass) (s : State) : Touches passReadParts passReadKey s (passRead c p s) := by
  have hpmc (k : Nat) (e : passReadKey k = false) : pmcKey k = false := pmcKey_storeKey (passReadKey_false e).1
  refine .ite ?_ (.countFmt ?_ fun k e => ⟨hpmc k e, (passReadKey_false e).2.2.1⟩) <;>
    exact .countEv (.countEv (.countEv (touches_passDetect c p s) hpmc) hpmc) hpmc

/-! ### The sums (R86, R93, R94) -/

theorem accInto_accs (c layer row col : Nat) (k : Contrib) (s : State) : (accInto c layer row col k s).accs =
    smSet {} s.accs (accKey c row col) (accAdd (accGet s c row col) k (freeAcc s)) := by
  unfold accInto
  dsimp only
  generalize accAdd (accGet s c row col) k (freeAcc s) = r
  split
  · rw [addPoison_kept _ _ .accs (by decide), lastFault_kept _ _ _ _ .accs (by decide), bump_kept _ _ _ .accs (by decide)]
    split <;> rfl
  · split <;> rfl

/-- A contribution that does not leave the range changes its accumulator and nothing else. -/
theorem accInto_inRange {c layer row col : Nat} {k : Contrib} {s : State} (ho : (accGet s c row col).ovf = false)
    (hr : accOut ((accGet s c row col).v + k.v) = false) : keptBut [.accs] s (accInto c layer row col k s) := by
  unfold accInto
  dsimp only
  rw [accAdd_inRange ho hr]
  exact accs_kept s _

/-- The registers that an overflow changes (R93, R114). -/
def overflowKey (k : Nat) : Bool := irqKey k || mxFaultKey k || oneOf [Reg.ENG_MX_ACC_OVF] k

/-- The parts that an overflow uses. -/
def overflowParts : List Part := [.accs, .fresh, .flds, .portion] ++ irqParts

theorem touches_accInto (c layer row col : Nat) (k : Contrib) (s : State) :
    Touches overflowParts overflowKey s (accInto c layer row col k s) := by
  have hset (m : List (Nat × LAcc)) (n : Nat) : Touches overflowParts overflowKey s { s with accs := m, fresh := n } := by
    refine .keep (m := [.accs, .fresh]) (.refl s) fun p hp => ?_
    cases p with
    | accs | fresh => exact absurd hp (by decide)
    | _ => rfl
  refine .ite (.addPoison (.lastFault (.bump (.ite (hset _ _) (hset _ _))) fun k e => ?_)) (.ite (hset _ _) (hset _ _))
  simp only [overflowKey, Bool.or_eq_false_iff] at e
  exact e.1

theorem touches_passAdd (c : Nat) (p : Pass) (s : State) : Touches overflowParts overflowKey s (passAdd c p s) :=
  .foldl (.refl s) fun t o => touches_accInto c p.layer (p.row + o.1) o.2 (passTerm s c p o.1 o.2) t

/-- How an accumulator is read where accumulators are written one after another. -/
def readAcc (s : State) (k : Nat) : LAcc := smGet {} s.accs k

section
variable {c : Nat} {p : Pass} {s : State}

/-- The write of an output by the sum of a pass whose terms are those of state `s`. -/
def addTerm (c : Nat) (p : Pass) (s t : State) (o : Nat × Nat) : State :=
  accInto c p.layer (p.row + o.1) o.2 (passTerm s c p o.1 o.2) t

theorem addTerm_other (t : State) (o : Nat × Nat) (j : Nat) (h : j ≠ outKey c p.row o) :
    readAcc (addTerm c p s t o) j = readAcc t j := by
  rw [readAcc, addTerm, accInto_accs]
  exact smGet_smSet_ne h

/-- A pass leaves every accumulator alone that is none of its outputs (R86). -/
theorem accGet_passAdd_other (hm : p.row + p.m ≤ 128) {d r k : Nat} (hr : r < 128) (hk : k < 128)
    (h : d = c → r < p.row ∨ p.row + p.m ≤ r) : accGet (passAdd c p s) d r k = accGet s d r k :=
  foldl_read_other (read := readAcc) (key := outKey c p.row) addTerm_other (accKey_ne_outKey hm hr hk h)

/-- An output's sum stays in range. -/
def TermFits (c : Nat) (p : Pass) (s : State) (o : Nat × Nat) (a : LAcc) : Prop :=
  a.ovf = false ∧ accOut (a.v + (passTerm s c p o.1 o.2).v) = false

/-- With every output's sum in range, a pass adds its terms and changes nothing else (R94). -/
theorem passAdd_inRange
    (h : ∀ i j, i < p.m → j < 128 → TermFits c p s (i, j) (accGet s c (p.row + i) j)) :
    keptBut [.accs] s (passAdd c p s) ∧ ∀ i j, i < p.m → j < 128 →
      accGet (passAdd c p s) c (p.row + i) j = accPlus (accGet s c (p.row + i) j) (passTerm s c p i j) := by
  have hok (o : Nat × Nat) (ho : o ∈ passOutputs p.m) : TermFits c p s o (readAcc s (outKey c p.row o)) :=
    h o.1 o.2 (mem_passOutputs.mp ho).1 (mem_passOutputs.mp ho).2
  constructor
  · refine foldl_invariant (I := keptBut [.accs] s) addTerm_other (fun t o ht hf => ?_) (outKey_pairwise c p.row p.m) hok (keptBut_refl _ s)
    exact (keptBut_trans ht (accInto_inRange hf.1 hf.2)).mono (by decide)
  · refine fun i j hi hj => foldl_read_self (read := readAcc) (new := fun o a => accPlus a (passTerm s c p o.1 o.2)) addTerm_other
      (fun t o hf => ?_) (outKey_pairwise c p.row p.m) hok (o := (i, j)) (mem_passOutputs.mpr ⟨hi, hj⟩)
    have hv := accAdd_inRange hf.1 hf.2 (freeAcc t)
    rw [readAcc, addTerm, accInto_accs]
    exact smGet_smSet_self.trans hv

end

/-! ### A pass without a mismatch -/

theorem exec_mmaPassComplete {s : State} {c : Fin 192} {p : Pass} {rest : List MxItem} (hq : (coreGet s c).mxq = .pass p :: rest)
    (hr : p.rerun = false) (latency : Nat) : exec (.mmaPassComplete c false latency) s =
      .next (passEnd c p latency (passAdd c p (passRead c p s))) := by
  refine congrArg Host.Outcome.next ?_
  rw [hq]
  simp only [hr, Bool.false_eq_true, if_false]
  rfl

theorem exec_residueRerunComplete {s : State} {c : Fin 192} {p : Pass} {rest : List MxItem} (hq : (coreGet s c).mxq = .pass p :: rest)
    (hr : p.rerun = true) (latency time : Nat) : exec (.residueRerunComplete c false latency time) s =
      .next (passEnd c p latency (passAdd c p s)) := by
  refine congrArg Host.Outcome.next ?_
  rw [hq]
  simp [hr]

/-- A pass that adds its terms to the operands that `w` holds, and ends. -/
theorem passAdd_passEnd_spec {s w : State} {c : Fin 192} {p : Pass} {rest : List MxItem} (hw : Touches passReadParts passReadKey s w)
    (hq : (coreGet s c).mxq = .pass p :: rest) (hrest : ∀ x ∈ rest, ∃ q, x = .pass q) (hm : p.row + p.m ≤ 128)
    (hfit : ∀ i j, i < p.m → j < 128 → TermFits c p s (i, j) (accGet s c (p.row + i) j)) (latency : Nat) :
    let t := passEnd c p latency (passAdd c p w)
    (∀ i j, i < p.m → j < 128 → accGet t c (p.row + i) j = accPlus (accGet s c (p.row + i) j) (passTerm s c p i j)) ∧
      (∀ (d : Fin 192) row col, col < 128 → (d = c → row < p.row ∨ p.row + p.m ≤ row) → row < 128 →
        accGet t d row col = accGet s d row col) ∧
      (coreGet t c).mxq = rest ∧ (coreGet t c).outst = (coreGet s c).outst.erase ⟨.mx, p.index⟩ ∧
      (∀ d, d ≠ c.val → coreGet t d = coreGet s d) ∧
      keptBut [.flds, .accs, .cores, .portion, .mem, .marks, .ringRecs, .out, .holdoffA, .holdoffB, .deferA, .deferB] s t ∧
      regsKept passKey s t ∧ memKept (sampleBytes s) s t := by
  have hterm : passTerm w = passTerm s := passTerm_congr (hw.parts .mem (by decide)) (hw.parts .marks (by decide))
  have hacc : accGet w = accGet s := accGet_congr (hw.parts .accs (by decide))
  obtain ⟨hk, hv⟩ := passAdd_inRange (c := c.val) (p := p) (s := w) (by simpa only [TermFits, hterm, hacc] using hfit)
  have hcore (d : Nat) : coreGet (passAdd c p w) d = coreGet s d :=
    coreGet_congr ((hk .cores (by decide)).trans (hw.parts .cores (by decide))) d
  obtain ⟨hmxq, hout, hoth, ht, hmem⟩ := passEnd_spec ((congrArg CoreSt.mxq (hcore c)).trans hq) hrest latency
  have hpre : Touches (.accs :: passReadParts) passReadKey s (passAdd c p w) := (hw.mono (by decide) fun _ => id).keep hk
  have hta : accGet (passEnd c p latency (passAdd c p w)) = accGet (passAdd c p w) := accGet_congr (ht.parts .accs (by decide))
  refine ⟨fun i j hi hj => ?_, fun d r k hc hd hr => ?_, hmxq, by rw [hout, hcore], fun d hd => by rw [hoth d hd, hcore], ?_, ?_, ?_⟩
  · rw [hta, hv i j hi hj, hacc, hterm]
  · rw [hta, accGet_passAdd_other hm hr hc fun e => hd (Fin.ext e), hacc]
  · exact (keptBut_trans hpre.parts ht.parts).mono (by decide)
  · intro k d e
    obtain ⟨hi, hp⟩ := passKey_false e
    rw [ht.regs k d hi, hpre.regs k d hp]
  · intro a ha
    rw [hmem a (by rw [hpre.sampleBytes]; exact ha)]
    exact rdByte_congr (hpre.parts .mem (by decide)) a

/-- Settles O16: the reading of the operands, the sums and the completion each say what they change. -/
theorem passAccumulatesExactly : Obligations.PassAccumulatesExactly := by
  intro s c p rest latency time hq hrest hm hfit
  cases hr : p.rerun with
  | false => exact ⟨_, exec_mmaPassComplete hq hr latency, passAdd_passEnd_spec (touches_passRead c p s) hq hrest hm hfit latency⟩
  | true => exact ⟨_, exec_residueRerunComplete hq hr latency time, passAdd_passEnd_spec (.refl s) hq hrest hm hfit latency⟩

end Sys2Proof.Machine
end

