-- ==== Sys2Proof/Proofs/ResidueMismatches.lean ====
section
/-!
SUPPORT. Proofs/ResidueMismatches.lean: what a residue mismatch of a pass and of its rerun leaves, and when the core is
shuttered (R103, R114, R288).
-/
namespace Sys2Proof.Machine

/-! ### Bits of registers that span the cores -/

theorem bit_eq_testBit (v i : Nat) : bit v i = v.testBit i := by
  rw [bit, Nat.testBit_eq_decide_div_mod_eq]
  exact beq_eq_decide _ _

theorem bit_setBitsAt (w i : Nat) (b : Bool) : bit (setBitsAt w i 1 (b2n b)) i = b := by
  have hp : 0 < 2 ^ i := Nat.two_pow_pos i
  have hd : setBitsAt w i 1 (b2n b) / 2 ^ i = b2n b + w / 2 ^ (i + 1) * 2 := by
    have hb : b2n b % 2 ^ 1 = b2n b := by cases b <;> rfl
    rw [setBitsAt, hb, pow_succ, ← Nat.mul_assoc (w / _), Nat.mul_right_comm, Nat.add_mul_div_right _ _ hp,
      Nat.add_mul_div_right _ _ hp, Nat.div_eq_of_lt (Nat.mod_lt _ hp), Nat.zero_add]
  rw [bit, hd, Nat.add_mul_mod_self_right]
  cases b <;> rfl

theorem getBit_setBit_self (s : State) {f : Fld} {i : Nat} (h : i < f.len) (b : Bool) : getBit (setBit s f i b) f i = b := by
  rw [getBit, setBit, getF_setF_self, bit_eq_testBit, Nat.testBit_mod_two_pow, ← bit_eq_testBit, bit_setBitsAt]
  simp [h]

/-- A core's bit in registers that are not named. -/
theorem Touches.getBit_core {l : List Part} {K : Nat → Bool} {s t : State} (h : Touches l K s t) {F : Nat → Fld} {c : Nat} (hc : c < 192)
    (hK : ∀ j, j < 6 → K (fldKey (F j) .a) = false) : getBit t (F (c / 32)) (c % 32) = getBit s (F (c / 32)) (c % 32) := by
  rw [getBit, getBit, h.getF (hK _ (by omega))]

theorem Touches.coreFenced {l : List Part} {K : Nat → Bool} {s t : State} (h : Touches l K s t) {c : Nat} (hc : c < 192)
    (hK : ∀ j, j < 6 → K (fldKey (Reg.ID_FENCED_CORES j) .a) = false) : coreFenced t c = coreFenced s c := h.getBit_core hc hK

/-! ### Fault records (R114) -/

theorem getF_lastFault_core {c : Nat} (hc : c < 192) (cause layer : Nat) (s : State) :
    getF (lastFault c cause layer s) Reg.ENG_MX_LAST_FAULT_CORE_ID = c := by
  rw [lastFault, getF_irqBoth (by decide) _ _ (by decide), getF_setF_ne (by decide), getF_setF_ne (by decide), getF_setF_self]
  exact Nat.mod_eq_of_lt (show c < 256 by omega)

theorem getF_lastFault_cause (c : Nat) {cause : Nat} (h : cause < 16) (layer : Nat) (s : State) :
    getF (lastFault c cause layer s) Reg.ENG_MX_LAST_FAULT_CAUSE = cause := by
  rw [lastFault, getF_irqBoth (by decide) _ _ (by decide), getF_setF_ne (by decide), getF_setF_self]
  exact Nat.mod_eq_of_lt h

/-! ### The first mismatch -/

/-- The state in which a first mismatch has been counted and recorded. -/
def mismatchNoted (c : Nat) (p : Pass) (s : State) : State :=
  lastFault c 1 p.layer (bump (passRead c p s) Reg.ENG_MX_RESIDUE_MISMATCH 1)

theorem exec_mmaPassComplete_mismatch {s : State} {c : Fin 192} {p : Pass} {rest : List MxItem}
    (hq : (coreGet s c).mxq = .pass p :: rest) (hr : p.rerun = false) (latency : Nat) :
    exec (.mmaPassComplete c true latency) s = .next (coreSet (mismatchNoted c p s) c { coreGet (passRead c p s) c with
      mxq := .pass { p with rerun := true } :: rest,
      tag := (coreGet (passRead c p s) c).tag.map fun g => if g.index = p.index then { g with rerun := true } else g }) := by
  refine congrArg Host.Outcome.next ?_
  rw [hq]
  simp only [hr, Bool.false_eq_true, if_false]
  rfl

theorem touches_mismatchNoted (c : Nat) (p : Pass) (s : State) : Touches passReadParts passKey s (mismatchNoted c p s) := by
  refine .lastFault (.bump ((touches_passRead c p s).mono (by decide) fun k e => (passKey_false e).2)) fun k e => ?_
  obtain ⟨-, hi, -, hm⟩ := passReadKey_false (passKey_false e).2
  exact ⟨hi, hm⟩

theorem getF_mismatchNoted (c : Nat) (p : Pass) (s : State) :
    getF (mismatchNoted c p s) Reg.ENG_MX_RESIDUE_MISMATCH = min (getF s Reg.ENG_MX_RESIDUE_MISMATCH + 1) (2 ^ 64 - 1) := by
  have hf : Touches irqParts (fun k => irqKey k || mxFaultKey k) (bump (passRead c p s) Reg.ENG_MX_RESIDUE_MISMATCH 1)
      (mismatchNoted c p s) := .lastFault (.refl _) fun k e => Bool.or_eq_false_iff.mp e
  rw [hf.getF (by decide), getF_bump_self _ rfl, (touches_passRead c p s).getF (by decide)]

/-! ### The second mismatch -/

section
variable {c : Nat} {p : Pass} {s : State}

theorem passPoison_kept : keptBut [.accs] s (passPoison c p s) := accs_kept s _

/-- The write of an output by R103's poison. -/
def addPoisonFlag (c : Nat) (p : Pass) (m : List (Nat × LAcc)) (o : Nat × Nat) : List (Nat × LAcc) :=
  smSet {} m (outKey c p.row o) { smGet {} m (outKey c p.row o) with poison := true }

theorem addPoisonFlag_other (m : List (Nat × LAcc)) (o : Nat × Nat) (j : Nat) (h : j ≠ outKey c p.row o) :
    smGet {} (addPoisonFlag c p m o) j = smGet {} m j := smGet_smSet_ne h

theorem accGet_passPoison_other (hm : p.row + p.m ≤ 128) {d r k : Nat} (hr : r < 128) (hk : k < 128)
    (h : d = c → r < p.row ∨ p.row + p.m ≤ r) : accGet (passPoison c p s) d r k = accGet s d r k :=
  foldl_read_other (read := smGet {}) (key := outKey c p.row) (g := addPoisonFlag c p) addPoisonFlag_other (accKey_ne_outKey hm hr hk h)

theorem accGet_passPoison {i j : Nat} (hi : i < p.m) (hj : j < 128) :
    accGet (passPoison c p s) c (p.row + i) j = { accGet s c (p.row + i) j with poison := true } :=
  foldl_read_self (read := smGet {}) (g := addPoisonFlag c p) (ok := fun _ _ => True) (new := fun _ a => { a with poison := true })
    addPoisonFlag_other (fun _ _ _ => smGet_smSet_self) (outKey_pairwise c p.row p.m) (fun _ _ => trivial) (o := (i, j))
    (mem_passOutputs.mpr ⟨hi, hj⟩)

end

/-- The state in which every output is poisoned and the event counted. -/
def outputsPoisoned (c : Nat) (p : Pass) (s : State) : State :=
  bump (passPoison c p (passAdd c p s)) Reg.ENG_MX_RESIDUE_POISON 1

/-- And the event recorded, with what follows from its time. -/
def poisonNoted (c : Nat) (p : Pass) (time : Nat) (s : State) : State :=
  addPoison (.core c p.layer) (residuePoisonAt c time (lastFault c 2 p.layer (outputsPoisoned c p s)))

theorem exec_residueRerunComplete_mismatch {s : State} {c : Fin 192} {p : Pass} {rest : List MxItem}
    (hq : (coreGet s c).mxq = .pass p :: rest) (hr : p.rerun = true) (latency time : Nat) :
    exec (.residueRerunComplete c true latency time) s =
      .next (fenceUnmapped c (passEnd c p latency (poisonNoted c p time s))) := by
  refine congrArg Host.Outcome.next ?_
  rw [hq]
  simp only [hr, Bool.not_true, Bool.false_eq_true, if_false, if_true]
  rfl

/-! ### The fourth event in 24 h (R288) -/

theorem ledgerAdd_kept (type : Nat) (body : List (Nat × Nat)) (s : State) : keptBut [.ledger, .ledgerSeq] s (ledgerAdd type body s) := by
  have hset (l : List LedgerRec) (n : Nat) (t : State) : keptBut [.ledger, .ledgerSeq] t { t with ledger := l, ledgerSeq := n } := by
    intro p hp
    cases p with
    | ledger | ledgerSeq => exact absurd hp (by decide)
    | _ => rfl
  have hfold (t : State) : keptBut [.ledger, .ledgerSeq] t (ledgerFold t) := by
    unfold ledgerFold
    dsimp only
    refine keptBut_ite (keptBut_refl _ _) ?_
    split
    · exact keptBut_ite (keptBut_refl _ _) (hset _ _ _)
    · exact keptBut_refl _ _
  exact (keptBut_trans (hset _ _ s) (hfold _)).mono (by decide)

/-- The core's events of the last 24 h. -/
def recentPoison (s : State) (c time : Nat) : List Nat :=
  ((alGet s.residueTimes c).getD []).filter fun x => decide (time < x + 86400000000000)

/-- The registers of R288's record of a pending fence. -/
def fenceKey (k : Nat) : Bool :=
  irqKey k || oneOf [Reg.NOC_LAST_FAULT_ROUTER, Reg.NOC_LAST_FAULT_PORT, Reg.NOC_LAST_FAULT_CAUSE] k ||
    oneOf ((List.range 6).map Reg.NOC_FENCE_PENDING) k

/-- And its parts, the times of the core's events among them. -/
def fenceParts : List Part := [.residueTimes, .ledger, .ledgerSeq, .flds] ++ irqParts

/-- The event at `time` joins them. -/
def poisonTimed (c time : Nat) (s : State) : State :=
  { s with residueTimes := alSet s.residueTimes c (time :: recentPoison s c time) }

theorem poisonTimed_kept (c time : Nat) (s : State) : keptBut [.residueTimes] s (poisonTimed c time s) := by
  intro p hp
  cases p with
  | residueTimes => exact absurd hp (by decide)
  | _ => rfl

/-- A fence that becomes pending: its bit, the ledger, the mesh's fault record and FAULT. -/
def fencePending (c : Nat) (s : State) : State :=
  irqBoth 3 (setF (setF (setF (ledgerFence 0 c 0 (setBit s (Reg.NOC_FENCE_PENDING (c / 32)) (c % 32) true)) Reg.NOC_LAST_FAULT_ROUTER
    (104 * (c / 96) + 13 * coreRow c + coreCol c)) Reg.NOC_LAST_FAULT_PORT 0) Reg.NOC_LAST_FAULT_CAUSE 5)

theorem residuePoisonAt_eq (c time : Nat) (s : State) : residuePoisonAt c time s =
    if 3 ≤ (recentPoison s c time).length ∧ coreFenced s c = false then
      if getBit s (Reg.NOC_FENCE_PENDING (c / 32)) (c % 32) = true then poisonTimed c time s else fencePending c (poisonTimed c time s)
    else poisonTimed c time s := by
  refine if_congr (Q := 3 ≤ (recentPoison s c time).length ∧ coreFenced s c = false) ?_ rfl rfl
  rw [Bool.and_eq_true, decide_eq_true_eq, Bool.not_eq_true', List.length_cons, Nat.succ_le_succ_iff]
  rfl

theorem touches_fencePending {c : Nat} (hc : c < 192) (s : State) : Touches fenceParts fenceKey s (fencePending c s) := by
  have hp : ∀ j, j < 6 → fenceKey (fldKey (Reg.NOC_FENCE_PENDING j) .a) = true := by decide
  have hl (t : State) : Touches fenceParts fenceKey t (ledgerFence 0 c 0 t) := .keep (.refl t) (ledgerAdd_kept _ _ t)
  refine .irqBoth (.setF (.setF (.setF (.trans (.setBit (.refl s) (hp _ (by omega))) (hl _))))) (by decide) fun k e => ?_
  simp only [fenceKey, Bool.or_eq_false_iff] at e
  exact e.1.1

theorem touches_residuePoisonAt {c : Nat} (hc : c < 192) (time : Nat) (s : State) :
    Touches fenceParts fenceKey s (residuePoisonAt c time s) := by
  have h1 : Touches fenceParts fenceKey s (poisonTimed c time s) := .keep (.refl s) (poisonTimed_kept c time s)
  rw [residuePoisonAt_eq]
  exact .ite (.ite h1 (h1.trans (touches_fencePending hc _))) h1

/-- Before the fourth event nothing but the times changes. -/
theorem residuePoisonAt_few {c time : Nat} {s : State} (h : (recentPoison s c time).length < 3) :
    keptBut [.residueTimes] s (residuePoisonAt c time s) := by
  rw [residuePoisonAt_eq, if_neg fun hn => absurd hn.1 h.not_ge]
  exact poisonTimed_kept c time s

theorem pending_fencePending {c : Nat} (hc : c < 192) (s : State) :
    getBit (fencePending c s) (Reg.NOC_FENCE_PENDING (c / 32)) (c % 32) = true := by
  have hl (t : State) : Touches fenceParts (fun k => irqKey k || oneOf [Reg.NOC_LAST_FAULT_ROUTER, Reg.NOC_LAST_FAULT_PORT, Reg.NOC_LAST_FAULT_CAUSE] k)
      t (ledgerFence 0 c 0 t) := .keep (.refl t) (ledgerAdd_kept _ _ t)
  have h : Touches fenceParts (fun k => irqKey k || oneOf [Reg.NOC_LAST_FAULT_ROUTER, Reg.NOC_LAST_FAULT_PORT, Reg.NOC_LAST_FAULT_CAUSE] k)
      (setBit s (Reg.NOC_FENCE_PENDING (c / 32)) (c % 32) true) (fencePending c s) :=
    .irqBoth (.setF (.setF (.setF (hl _)))) (by decide) fun k e => (Bool.or_eq_false_iff.mp e).1
  rw [h.getBit_core (F := Reg.NOC_FENCE_PENDING) hc (by decide)]
  exact getBit_setBit_self s (Nat.mod_lt c (show 0 < 32 by decide)) true

/-- With the fourth event the core is shuttered already, or its fence is pending. -/
theorem pending_residuePoisonAt {c time : Nat} (hc : c < 192) {s : State} (h : 3 ≤ (recentPoison s c time).length) :
    coreFenced s c = true ∨ getBit (residuePoisonAt c time s) (Reg.NOC_FENCE_PENDING (c / 32)) (c % 32) = true := by
  cases hf : coreFenced s c with
  | true => exact .inl rfl
  | false =>
    refine .inr ?_
    rw [residuePoisonAt_eq, if_pos ⟨h, hf⟩]
    split
    · next hb => exact hb
    · exact pending_fencePending hc _

/-! ### Shuttering (R46, R288) -/

/-- The registers that a shutter changes beside the core's fence bit. -/
def shutterKey (k : Nat) : Bool :=
  pmcKey k || oneOf [Reg.ID_CONFIG_SEQ, Reg.ID_RESOURCES_CORES_LIVE, Reg.ID_RESOURCES_VAULTS_LIVE, Reg.ID_RATING_PEAK_W2,
    Reg.ID_RATING_DRAM_GIB, Reg.ID_HOME_BW_HOME_BW_GBS, Reg.MEM_DIST_SEQ] k || oneOf ((List.range 6).map Reg.NOC_FENCE_PENDING) k

/-- The parts that a shutter changes. -/
def shutterParts : List Part := [.flds, .cores, .sec, .mem, .marks, .ledger, .ledgerSeq]

theorem touches_rate (s : State) : Touches shutterParts shutterKey s (rate s) := .setF (.setF (.setF (.setF (.setF (.refl s)))))

theorem touches_writeDist (s : State) : Touches shutterParts shutterKey s (writeDist s) := by
  have hput (a : Nat) (bs : List Nat) : Touches shutterParts shutterKey s (putBlock s a bs) := by
    refine .step (m := [.mem, .marks, .flds]) (L := pmcKey) (.refl s) ⟨?_, fun k d e => flds_countGranules e⟩ (by decide) fun k e => ?_
    · rw [putBlock_eq]
      intro p hp
      cases p with
      | mem | marks | flds => exact absurd hp (by decide)
      | _ => rfl
    · simp only [shutterKey, Bool.or_eq_false_iff] at e
      exact e.1.1
  unfold writeDist
  dsimp only
  exact .ite (hput _ _) (.refl s)

theorem touches_distRewrite (s : State) : Touches shutterParts shutterKey s (distRewrite s) := by
  unfold distRewrite
  exact .ite (.trans (.setF (.refl s)) (touches_writeDist _)) (.refl s)

/-- A shuttered core is out of service (R288): its bit is set, and nothing after it writes the bit. -/
theorem coreFenced_shutterCore {c : Nat} (hc : c < 192) (cause : Nat) (s : State) : coreFenced (shutterCore c cause s) c = true := by
  have hset (t : State) : coreFenced (setBit t (Reg.ID_FENCED_CORES (c / 32)) (c % 32) true) c = true :=
    getBit_setBit_self t (Nat.mod_lt c (show 0 < 32 by decide)) true
  have hkeep {t u : State} (h : Touches shutterParts shutterKey t u) (ht : coreFenced t c = true) : coreFenced u c = true := by
    rw [h.coreFenced hc (by decide), ht]
  have hcfg : coreFenced (configChange (fun t => rate (setBit t (Reg.ID_FENCED_CORES (c / 32)) (c % 32) true)) s) c = true := by
    unfold configChange
    dsimp only
    split
    · exact hkeep (.setF (touches_rate _)) (hset _)
    · exact hkeep (touches_rate _) (hset _)
  have hsec (t : State) (l : List (Nat × CoreSt)) (x : SecSt) : Touches shutterParts shutterKey t { t with cores := l, sec := x } := by
    refine .keep (m := [.cores, .sec]) (.refl t) fun p hp => ?_
    cases p with
    | cores | sec => exact absurd hp (by decide)
    | _ => rfl
  have hpend : ∀ j, j < 6 → shutterKey (fldKey (Reg.NOC_FENCE_PENDING j) .a) = true := by decide
  unfold shutterCore
  split
  · assumption
  · exact hkeep (.keep (.trans (.trans (.setBit (.refl _) (hpend _ (by omega))) (hsec _ _ _)) (touches_distRewrite _)) (ledgerAdd_kept _ _ _)) hcfg

theorem fenceUnmapped_eq {c : Nat} {s : State}
    (h : isMappedCore s c = true ∨ getBit s (Reg.NOC_FENCE_PENDING (c / 32)) (c % 32) = false) : fenceUnmapped c s = s := by
  refine if_neg ?_
  rcases h with h | h <;> simp [h]

theorem coreFenced_fenceUnmapped {c : Nat} (hc : c < 192) {s : State} (hm : isMappedCore s c = false)
    (h : coreFenced s c = true ∨ getBit s (Reg.NOC_FENCE_PENDING (c / 32)) (c % 32) = true) : coreFenced (fenceUnmapped c s) c = true := by
  unfold fenceUnmapped
  split
  · exact coreFenced_shutterCore hc 0 s
  · next hn =>
    rcases h with h | h
    · exact h
    · exact absurd (by simp [h, hm]) hn

/-! ### What the mismatch of a rerun leaves -/

/-- The registers of a second mismatch. -/
def poisonKey (k : Nat) : Bool := overflowKey k || oneOf [Reg.ENG_MX_RESIDUE_POISON] k

/-- The registers of its records. -/
def noteKey (k : Nat) : Bool := irqKey k || mxFaultKey k || fenceKey k

theorem noteKey_false {k : Nat} (h : noteKey k = false) : irqKey k = false ∧ mxFaultKey k = false ∧ fenceKey k = false := by
  simp only [noteKey, Bool.or_eq_false_iff] at h
  exact ⟨h.1.1, h.1.2, h.2⟩

theorem poisonKey_false {k : Nat} (h : poisonKey k = false) : overflowKey k = false ∧ irqKey k = false ∧ mxFaultKey k = false := by
  simp only [poisonKey, overflowKey, Bool.or_eq_false_iff] at h ⊢
  tauto

theorem touches_outputsPoisoned (c : Nat) (p : Pass) (s : State) : Touches overflowParts poisonKey s (outputsPoisoned c p s) :=
  .bump (.keep ((touches_passAdd c p s).mono (fun _ => id) fun _ e => (poisonKey_false e).1) passPoison_kept)

/-- A second mismatch in the matrix engine's fault record. -/
def poisonFault (c : Nat) (p : Pass) (s : State) : State := lastFault c 2 p.layer (outputsPoisoned c p s)

theorem touches_poisonFault (c : Nat) (p : Pass) (s : State) : Touches overflowParts poisonKey s (poisonFault c p s) :=
  .lastFault (touches_outputsPoisoned c p s) fun _ e => (poisonKey_false e).2

/-- The parts and registers of a second mismatch up to the end of its pass. -/
def poisonNotedParts : List Part := overflowParts ++ fenceParts
def poisonNotedKey (k : Nat) : Bool := poisonKey k || fenceKey k

theorem touches_poisonNoted {c : Nat} (hc : c < 192) (p : Pass) (time : Nat) (s : State) :
    Touches poisonNotedParts poisonNotedKey s (poisonNoted c p time s) :=
  .addPoison (.step ((touches_poisonFault c p s).mono (by decide) fun _ e => (Bool.or_eq_false_iff.mp e).1)
    (touches_residuePoisonAt hc time _) (by decide) fun _ e => (Bool.or_eq_false_iff.mp e).2)

/-- The records of the event leave its counter and the outputs alone. -/
theorem touches_eventRecords {c : Nat} (hc : c < 192) (p : Pass) (time : Nat) (s : State) :
    Touches (.portion :: fenceParts) noteKey (outputsPoisoned c p s) (poisonNoted c p time s) :=
  .addPoison (.step (.lastFault (.refl _) fun _ e => ⟨(noteKey_false e).1, (noteKey_false e).2.1⟩)
    (touches_residuePoisonAt hc time _) (by decide) fun _ e => (noteKey_false e).2.2)

theorem getF_poisonNoted {c : Nat} (hc : c < 192) (p : Pass) (time : Nat) (s : State) :
    getF (poisonNoted c p time s) Reg.ENG_MX_RESIDUE_POISON = min (getF s Reg.ENG_MX_RESIDUE_POISON + 1) (2 ^ 64 - 1) := by
  rw [(touches_eventRecords hc p time s).getF (by decide), outputsPoisoned, getF_bump_self _ rfl,
    getF_congr (passPoison_kept .flds (by decide)), (touches_passAdd c p s).getF (by decide)]

theorem accGet_poisonNoted {c : Nat} (hc : c < 192) (p : Pass) (time : Nat) (s : State) :
    accGet (poisonNoted c p time s) = accGet (passPoison c p (passAdd c p s)) :=
  accGet_congr (((touches_eventRecords hc p time s).parts .accs (by decide)).trans (bump_kept _ _ _ .accs (by decide)))

theorem poisonNoted_flds (c : Nat) (p : Pass) (time : Nat) (s : State) :
    (poisonNoted c p time s).flds = (residuePoisonAt c time (poisonFault c p s)).flds := addPoison_kept _ _ .flds (by decide)

theorem getBit_congr {s t : State} (h : t.flds = s.flds) (f : Fld) (i : Nat) : getBit t f i = getBit s f i := by
  rw [getBit, getBit, getF_congr h]

theorem recentPoison_congr {s t : State} (h : t.residueTimes = s.residueTimes) (c time : Nat) :
    recentPoison t c time = recentPoison s c time := by simp only [recentPoison, h]

theorem isMappedCore_congr {s t : State} (h : t.img = s.img) (c : Nat) : isMappedCore t c = isMappedCore s c := by
  simp only [isMappedCore, h]

section
variable {s : State} {c : Fin 192} {p : Pass} {rest : List MxItem} (hq : (coreGet s c).mxq = .pass p :: rest)
  (hrest : ∀ x ∈ rest, ∃ q, x = .pass q)
include hq hrest

/-- The pass's end after a second mismatch. -/
theorem poisonNoted_passEnd_spec (latency time : Nat) :
    let t := passEnd c p latency (poisonNoted c p time s)
    (coreGet t c).mxq = rest ∧ (coreGet t c).outst = (coreGet s c).outst.erase ⟨.mx, p.index⟩ ∧
      (∀ d, d ≠ c.val → coreGet t d = coreGet s d) ∧
      Touches [.cores, .flds, .mem, .marks, .ringRecs] issueKey (poisonNoted c p time s) t ∧ memKept (sampleBytes s) s t := by
  have hw := touches_poisonNoted c.isLt p time s
  have hcore (d : Nat) : coreGet (poisonNoted c p time s) d = coreGet s d := coreGet_congr (hw.parts .cores (by decide)) d
  obtain ⟨h1, h2, h3, ht, hmem⟩ := passEnd_spec ((congrArg CoreSt.mxq (hcore c)).trans hq) hrest latency
  refine ⟨h1, by rw [h2, hcore], fun d hd => by rw [h3 d hd, hcore], ht, fun a ha => ?_⟩
  rw [hmem a (by rw [hw.sampleBytes]; exact ha)]
  exact rdByte_congr (hw.parts .mem (by decide)) a

/-- Where the core stays in service nothing follows the pass's end. -/
theorem fenceUnmapped_poisonNoted_passEnd {latency time : Nat}
    (h : isMappedCore s c = true ∨ getBit s (Reg.NOC_FENCE_PENDING (c.val / 32)) (c.val % 32) = false ∧ (recentPoison s c time).length < 3) :
    fenceUnmapped c (passEnd c p latency (poisonNoted c p time s)) = passEnd c p latency (poisonNoted c p time s) := by
  have hf := touches_poisonFault c p s
  obtain ⟨-, -, -, ht, -⟩ := poisonNoted_passEnd_spec hq hrest latency time
  refine fenceUnmapped_eq (h.imp (fun hm => ?_) fun ⟨hb, hn⟩ => ?_)
  · rw [isMappedCore_congr ((ht.parts .img (by decide)).trans ((touches_poisonNoted c.isLt p time s).parts .img (by decide))), hm]
  · have hfew := residuePoisonAt_few (s := poisonFault c p s) (time := time) (by
      rw [recentPoison_congr (hf.parts .residueTimes (by decide))]
      exact hn)
    rw [ht.getBit_core (F := Reg.NOC_FENCE_PENDING) c.isLt (by decide), ← hb, ← hf.getBit_core (F := Reg.NOC_FENCE_PENDING) c.isLt (by decide)]
    exact getBit_congr ((poisonNoted_flds c p time s).trans (hfew .flds (by decide))) _ _

/-- With the fourth event in 24 h, a core that nothing maps is shuttered (R288). -/
theorem coreFenced_poisonNoted_passEnd {latency time : Nat} (hm : isMappedCore s c = false) (h : 3 ≤ (recentPoison s c time).length) :
    coreFenced (fenceUnmapped c (passEnd c p latency (poisonNoted c p time s))) c = true := by
  have hf := touches_poisonFault c p s
  obtain ⟨-, -, -, ht, -⟩ := poisonNoted_passEnd_spec hq hrest latency time
  have hw := touches_poisonNoted c.isLt p time s
  have hp := pending_residuePoisonAt (s := poisonFault c p s) (time := time) c.isLt (by
    rw [recentPoison_congr (hf.parts .residueTimes (by decide))]
    exact h)
  refine coreFenced_fenceUnmapped c.isLt ?_ (hp.imp (fun hc => ?_) fun hb => ?_)
  · rw [isMappedCore_congr ((ht.parts .img (by decide)).trans (hw.parts .img (by decide))), hm]
  · rw [ht.coreFenced c.isLt (by decide), hw.coreFenced c.isLt (by decide), ← hf.coreFenced c.isLt (by decide), hc]
  · rw [ht.getBit_core (F := Reg.NOC_FENCE_PENDING) c.isLt (by decide)]
    rw [getBit_congr (poisonNoted_flds c p time s), hb]

end

/-- Settles O17: the records of a mismatch and R288's count of events each say what they change; the outputs are poisoned one by one. -/
theorem residueMismatch : Obligations.ResidueMismatch := by
  intro s c p rest latency time hq hrest hm
  refine ⟨fun hr => ⟨_, exec_mmaPassComplete_mismatch hq hr latency, ?_⟩, fun hr hstay => ?_, fun hr hun hfew => ?_⟩
  · have hn := touches_mismatchNoted c p s
    have hcore : coreGet (passRead c p s) c = coreGet s c := coreGet_congr ((touches_passRead c p s).parts .cores (by decide)) c
    rw [coreGet_coreSet_self, hcore]
    refine ⟨hn.parts .accs (by decide), rfl, rfl, getF_mismatchNoted c p s, getF_lastFault_core c.isLt 1 p.layer _,
      getF_lastFault_cause c (by decide) p.layer _, (keptBut_trans hn.parts (coreSet_kept _ _ _)).mono (by decide), hn.regs, fun d hd => ?_⟩
    rw [coreGet_coreSet_ne hd, coreGet_congr (hn.parts .cores (by decide))]
  · have hw := touches_poisonNoted c.isLt p time s
    obtain ⟨hmxq, hout, hoth, ht, hmem⟩ := poisonNoted_passEnd_spec hq hrest latency time
    have hacc : accGet (passEnd c p latency (poisonNoted c p time s)) = accGet (passPoison c p (passAdd c p s)) :=
      (accGet_congr (ht.parts .accs (by decide))).trans (accGet_poisonNoted c.isLt p time s)
    refine ⟨_, exec_residueRerunComplete_mismatch hq hr latency time, ?_⟩
    rw [fenceUnmapped_poisonNoted_passEnd hq hrest hstay]
    refine ⟨fun i j hi hj => ?_, fun d r k hk hd hr => ?_, ?_, hmxq, hout, hoth, (keptBut_trans hw.parts ht.parts).mono (by decide), hmem⟩
    · rw [hacc, accGet_passPoison hi hj]
    · rw [hacc, accGet_passPoison_other hm hr hk fun e => hd (Fin.ext e), accGet_passAdd_other hm hr hk fun e => hd (Fin.ext e)]
    · rw [ht.getF (by decide), getF_poisonNoted c.isLt p time s]
  · exact ⟨_, exec_residueRerunComplete_mismatch hq hr latency time, coreFenced_poisonNoted_passEnd hq hrest hun hfew⟩

end Sys2Proof.Machine
end

