-- ==== Sys2Proof/Proofs/AccumulatorOperations.lean ====
section
/-!
SUPPORT. Proofs/AccumulatorOperations.lean: the ACC operations wait behind passes; with none they run at once on the state in
which they have issued (R93, R96, R101).
-/
namespace Sys2Proof.Machine

section
variable {s : State} {i : Ins}

/-- The state in which an ACC operation has issued. -/
def accIssued (s : State) (i : Ins) (place : Nat) : State := issued i (some .mx) ⟨2, place, 7⟩ false s

theorem accIssued_spec (s : State) (i : Ins) (place : Nat) : Issued s i (some .mx) (accIssued s i place) := issued_spec _ _ _ _ s

theorem mxq_accIssued (s : State) (i : Ins) (place : Nat) : (coreGet (accIssued s i place) i.core).mxq = (coreGet s i.core).mxq := by
  obtain ⟨⟨_, _, _, hc⟩, -⟩ := accIssued_spec s i place
  rw [hc]

theorem accGet_accIssued (s : State) (i : Ins) (place : Nat) : accGet (accIssued s i place) = accGet s := by
  obtain ⟨-, -, -, hk, -⟩ := accIssued_spec s i place
  exact accGet_congr (hk .accs (by decide))

variable (h : mayIssue s i (some .mx)) (place : Nat) (op : AccOp)
include h

/-- Behind passes the operation waits; with none before it, it runs. -/
theorem queueAcc_eq : queueAcc i place op s =
    if (coreGet s i.core).mxq.isEmpty then accApply i.core op (accIssued s i place)
    else coreSet (accIssued s i place) i.core
      { coreGet (accIssued s i place) i.core with mxq := (coreGet s i.core).mxq ++ [.acc i.index op] } := by
  rw [← mxq_accIssued s i place]
  exact issueWith_eq h

theorem queueAcc_waits (hq : (coreGet s i.core).mxq ≠ []) : queueAcc i place op s = coreSet (accIssued s i place) i.core
    { coreGet (accIssued s i place) i.core with mxq := (coreGet s i.core).mxq ++ [.acc i.index op] } := by
  rw [queueAcc_eq h, if_neg (by simpa using hq)]

theorem queueAcc_runs (hq : (coreGet s i.core).mxq = []) : queueAcc i place op s = accApply i.core op (accIssued s i place) := by
  rw [queueAcc_eq h, hq]
  rfl

end

/-! ### ACC_ZERO (R101) -/

section
variable {c row m : Nat}

/-- The write of an output by ACC_ZERO. -/
def clearAcc (c row : Nat) (a : List (Nat × LAcc)) (o : Nat × Nat) : List (Nat × LAcc) := smSet {} a (outKey c row o) {}

theorem clearAcc_other (a : List (Nat × LAcc)) (o : Nat × Nat) (j : Nat) (h : j ≠ outKey c row o) :
    smGet {} (clearAcc c row a o) j = smGet {} a j := smGet_smSet_ne h

theorem accApply_zero_kept (s : State) : keptBut [.accs] s (accApply c (.zero row m) s) := accs_kept s _

/-- The named rows of the core are cleared, and no other accumulator. -/
theorem accGet_zero (hm : row + m ≤ 128) (s : State) (d r k : Nat) (hr : r < 128) (hk : k < 128) :
    accGet (accApply c (.zero row m) s) d r k = if d = c ∧ row ≤ r ∧ r < row + m then {} else accGet s d r k := by
  split
  · next h =>
    obtain ⟨rfl, hlo, hhi⟩ := h
    obtain ⟨j, rfl⟩ := Nat.exists_eq_add_of_le hlo
    exact foldl_read_self (read := smGet {}) (g := clearAcc d row) (ok := fun _ _ => True) (new := fun _ _ => {}) clearAcc_other
      (fun _ _ _ => smGet_smSet_self) (outKey_pairwise d row m) (fun _ _ => trivial) (o := (j, k)) (mem_passOutputs.mpr ⟨by omega, hk⟩)
  · next h =>
    exact foldl_read_other (read := smGet {}) (g := clearAcc c row) clearAcc_other (accKey_ne_outKey hm hr hk (by omega))

end

/-! ### ACC_IMPORT (R96) -/

/-- A record that passes its codes and has no OVF is added. -/
theorem accApply_import {c row col src layer : Nat} {s : State} (hb : anyMarked s (sramAddr c src) 32 = false)
    (ho : bit ((rdBytes s (sramAddr c src) 32).getD 24 0) 1 = false) : accApply c (.importFrom row col src layer) s =
      let bs := rdBytes s (sramAddr c src) 32
      accInto c layer row col ⟨toSigned 192 (leNat (bs.take 24)), bit (bs.getD 24 0) 0, bit (bs.getD 24 0) 2⟩ s := by
  have hg : (granulesOf (sramAddr c src) 32).filter (marked s) = [] := failingSource_eq_nil hb
  unfold accApply
  simp only [hb, ho, hg, localDetect_nil, Bool.false_and, Bool.false_eq_true, if_false, Bool.false_or, Bool.not_false, Bool.true_and]

theorem accInto_spec {c layer row col : Nat} {k : Contrib} {s : State} (hrow : row < 128) (hcol : col < 128)
    (ho : (accGet s c row col).ovf = false) (hr : accOut ((accGet s c row col).v + k.v) = false) :
    keptBut [.accs] s (accInto c layer row col k s) ∧ accGet (accInto c layer row col k s) c row col = accPlus (accGet s c row col) k ∧
      ∀ d r j, r < 128 → j < 128 → (d = c → r = row → j ≠ col) → accGet (accInto c layer row col k s) d r j = accGet s d r j := by
  refine ⟨accInto_inRange ho hr, ?_, fun d r j hr' hj hne => ?_⟩
  · have hv := accAdd_inRange ho hr (freeAcc s)
    rw [accGet_eq, accInto_accs, smGet_smSet_self, hv]
  · rw [accGet_eq, accInto_accs, smGet_smSet_ne]
    · rfl
    · unfold accKey
      omega

/-! ### ACC_CONVERT (R93, R101) -/

/-- The rows of a conversion, each with the bytes it writes. -/
def convOuts (s : State) (c row m : Nat) (fmt : ConvFmt) (ctl layer dst elem0 : Nat) (coords : List RowCoord) : List ConvOut :=
  (List.range m).map fun r => convRow s c row r fmt ctl layer dst elem0 (coords.getD r ⟨0, 0⟩)

/-- Without a trap a conversion stores its rows and counts their events. -/
theorem accApply_convert_spec {s : State} {c row m ctl layer dst elem0 : Nat} {fmt : ConvFmt} {coords : List RowCoord}
    (ha : abortedAttempt s c layer = false) (ht : ∀ o ∈ convOuts s c row m fmt ctl layer dst elem0 coords, o.trapped = false) :
    let t := accApply c (.convert row m fmt ctl layer dst elem0 coords) s
    t.accs = s.accs ∧ t.mem = ((convOuts s c row m fmt ctl layer dst elem0 coords).flatMap fun o => o.runs).foldl
      (fun b r => Memory.writeBytes b r.1 r.2) s.mem ∧ keptBut [.flds, .mem, .marks, .portion] s t := by
  have htrap : ((convOuts s c row m fmt ctl layer dst elem0 coords).any fun o => o.trapped) = false :=
    List.any_eq_false.mpr fun o ho => by simp [ht o ho]
  have he : accApply c (.convert row m fmt ctl layer dst elem0 coords) s =
      let outs := convOuts s c row m fmt ctl layer dst elem0 coords
      let s1 := countFmt layer (fmtEvSum (outs.map fun o => o.ev)) (storeRuns s (outs.flatMap fun o => o.runs))
      if outs.any fun o => o.localPoison then addPoison (.conv layer) s1 else s1 :=
    (if_neg (by simp [ha])).trans (if_neg (by rw [← Bool.not_eq_true] at htrap; exact htrap))
  dsimp only at he ⊢
  rw [he]
  generalize convOuts s c row m fmt ctl layer dst elem0 coords = outs
  obtain ⟨hm, hk, -⟩ := storeRuns_spec (outs.flatMap fun o => o.runs) s
  have hc := countFmt_kept layer (fmtEvSum (outs.map fun o => o.ev)) (storeRuns s (outs.flatMap fun o => o.runs))
  have hp := keptBut_ite (c := (outs.any fun o => o.localPoison) = true) (addPoison_kept (.conv layer) _) (keptBut_refl [.portion]
    (countFmt layer (fmtEvSum (outs.map fun o => o.ev)) (storeRuns s (outs.flatMap fun o => o.runs))))
  refine ⟨?_, ?_, (keptBut_trans hk (keptBut_trans hc hp)).mono (by decide)⟩
  · rw [hp .accs (by decide), hc .accs (by decide), hk .accs (by decide)]
  · rw [hp .mem (by decide), hc .mem (by decide), hm]

/-- Settles O18: an ACC operation with no pass before it is `accApply` on the state in which it has issued. -/
theorem accumulatorOperations : Obligations.AccumulatorOperations := by
  intro s i h
  refine ⟨fun row m hrow hq => ?_, fun hq => ⟨fun row m hrow => ?_, fun row col dst hat => ?_, fun row col src hat => ?_,
    fun row m fmt ctl dst elem0 coords hrow hctl => ?_⟩⟩
  · refine ⟨accIssued s i 0, accIssued_spec s i 0, (if_pos (of_decide_eq_true hrow)).trans ?_⟩
    rw [queueAcc_waits h 0 _ hq]
  · refine ⟨accIssued s i 0, accIssued_spec s i 0, _, if_pos (of_decide_eq_true hrow), ?_⟩
    rw [queueAcc_runs h 0 _ hq]
    refine ⟨accApply_zero_kept _, fun d r k hr hk => ?_⟩
    rw [accGet_zero (of_decide_eq_true hrow) _ d r k hr hk, accGet_accIssued]
  · refine ⟨accIssued s i 2, accIssued_spec s i 2, (if_pos hat).trans ?_⟩
    rw [queueAcc_runs h 2 _ hq, ← accGet_accIssued s i 2]
    rfl
  · refine ⟨accIssued s i 3, accIssued_spec s i 3, fun hb ho hovf hout => ⟨_, if_pos hat, ?_⟩⟩
    rw [queueAcc_runs h 3 _ hq, accApply_import hb ho]
    have hin : row < 128 ∧ col < 128 := by simpa [Instr.accAt] using hat
    rw [← accGet_accIssued s i 3] at hovf hout ⊢
    dsimp only
    generalize toSigned 192 _ = v at hout ⊢
    exact accInto_spec hin.1 hin.2 hovf hout
  · refine ⟨accIssued s i 1, accIssued_spec s i 1, fun ha ht => ⟨_, if_pos ?_, ?_⟩⟩
    · rw [convCtl_iff.mp hctl, show decide (row + m ≤ 128) = true from hrow]
      rfl
    · rw [queueAcc_runs h 1 _ hq]
      obtain ⟨hacc, hmem, hk⟩ := accApply_convert_spec ha ht
      obtain ⟨-, -, -, hki, -⟩ := accIssued_spec s i 1
      exact ⟨hacc.trans (hki .accs (by decide)), hmem, hk⟩

end Sys2Proof.Machine
end

