-- ==== Sys2Proof/Proofs/SequencerControl.lean ====
section
/-!
SUPPORT. Proofs/SequencerControl.lean: control and wait operations, instructions that are held back, and completion (R108 to
R113, R157, R484).
-/
namespace Sys2Proof.Machine

/-! ### Meeting points (R109) -/

theorem setReached_kept (s : State) (k : Nat) (l : List Nat) : keptBut [.barriers] s (setReached s k l) := by
  intro p hp
  cases p with
  | barriers => exact absurd hp (by decide)
  | _ => rfl

@[simp] theorem reached_setReached_self (s : State) (k : Nat) (l : List Nat) : reached (setReached s k l) k = l := smGet_smSet_self

theorem reached_setReached_ne {s : State} {k j : Nat} {l : List Nat} (h : j ≠ k) : reached (setReached s k l) j = reached s j :=
  smGet_smSet_ne h

theorem reached_congr {s t : State} (h : t.barriers = s.barriers) : reached t = reached s := by
  funext k
  simp only [reached, h]

/-- What the cores have reached has no part in whether an instruction issues. -/
theorem mayIssue_setReached {s : State} {i : Ins} {u : Option XUnit} (h : mayIssue s i u) (k : Nat) (l : List Nat) :
    mayIssue (setReached s k l) i u := h

/-! ### Control operations (R109) -/

/-- The state in which an operation of the CTL family has issued. -/
def ctlIssued (s : State) (i : Ins) (place : Nat) : State := issued i none ⟨0, place, 7⟩ false s

theorem ctlIssued_spec (s : State) (i : Ins) (place : Nat) : Issued s i none (ctlIssued s i place) := issued_spec _ _ _ _ s

section
variable {s : State} {i : Ins} (h : mayIssue s i none)
include h

theorem exec_nop : exec (.nop i) s = .next (ctlIssued s i 0) := congrArg Host.Outcome.next (issueWith_eq h)

theorem exec_fallbackEntry : exec (.fallbackEntry i) s = .next (ctlIssued s i 3) := congrArg Host.Outcome.next (issueWith_eq h)

theorem exec_loop (target : Nat) (taken : Bool) : exec (.loop i target taken) s =
    .next (if taken then coreSet (ctlIssued s i 1) i.core { coreGet (ctlIssued s i 1) i.core with nextIndex := target }
      else ctlIssued s i 1) := congrArg Host.Outcome.next (issueWith_eq h)

theorem exec_branch (target : Nat) (taken : Bool) : exec (.branch i target taken) s =
    .next (if taken then coreSet (ctlIssued s i 2) i.core { coreGet (ctlIssued s i 2) i.core with nextIndex := target }
      else ctlIssued s i 2) := congrArg Host.Outcome.next (issueWith_eq h)

theorem exec_endLayer : exec (.endLayer i) s = .next (endLayer i.core i.layer (ctlIssued s i 4)) :=
  congrArg Host.Outcome.next (issueWith_eq h)

/-- The core joins those that have ended the step, once. -/
def endStep (c : Nat) (s : State) : State :=
  if (reached s 100000).contains c then s else setReached s 100000 (c :: reached s 100000)

theorem exec_endStep : exec (.endStep i) s = .next (endStep i.core (ctlIssued s i 5)) := congrArg Host.Outcome.next (issueWith_eq h)

end

theorem endStep_spec (c : Nat) (s : State) : keptBut [.barriers] s (endStep c s) ∧
    reached (endStep c s) 100000 = (if (reached s 100000).contains c then reached s 100000 else c :: reached s 100000) ∧
      ∀ k, k ≠ 100000 → reached (endStep c s) k = reached s k := by
  unfold endStep
  split
  · exact ⟨keptBut_refl _ _, rfl, fun _ _ => rfl⟩
  · exact ⟨setReached_kept _ _ _, reached_setReached_self _ _ _, fun k hk => reached_setReached_ne hk⟩

/-! ### The end of a layer (R157, R161) -/

theorem experts_extents_kept (s : State) (l : List ExpertSt) (m : List (Nat × Extent)) :
    keptBut [.experts, .extents] s { s with experts := l, extents := m } := by
  intro p hp
  cases p with
  | experts | extents => exact absurd hp (by decide)
  | _ => rfl

theorem demote_kept (x : Nat) (s : State) : keptBut [.experts, .extents] s (demote x s) := by
  unfold demote
  split
  · exact experts_extents_kept s _ _
  · exact keptBut_refl _ _

theorem startFetch_kept (x : ExpertSt) (s : State) : keptBut [.experts, .extents] s (startFetch x s) := experts_extents_kept s _ _

theorem demoteExpert_kept (x : ExpertSt) (s : State) : keptBut [.experts, .extents] s (demoteExpert x s) :=
  (keptBut_trans (experts_extents_kept s _ _) (foldl_kept _ _ fun t e => demote_kept e t)).mono (by decide)

theorem requestFetch_kept (slot layer : Nat) (s : State) (e : Nat) : keptBut [.experts, .extents] s (requestFetch slot layer s e) := by
  unfold requestFetch
  split
  · exact keptBut_refl _ _
  · refine keptBut_ite (keptBut_refl _ _) (keptBut_ite (startFetch_kept _ _) ?_)
    split
    · exact (keptBut_trans (demoteExpert_kept _ _) (startFetch_kept _ _)).mono (by decide)
    · exact experts_extents_kept s _ _

theorem serveWaiting_kept (s : State) : keptBut [.experts, .extents] s (serveWaiting s) :=
  foldl_kept _ _ fun t x => requestFetch_kept x.slot x.layer t x.expert

theorem serveWaiting_none {s : State} (h : ∀ e ∈ s.experts, e.wait = false) : serveWaiting s = s := by
  have hn : s.experts.filter (fun x => x.wait) = [] := List.filter_eq_nil_iff.mpr fun e he => by simp [h e he]
  rw [serveWaiting, hn, List.foldl_nil]

theorem releaseLayer_kept (layer : Nat) (s : State) : keptBut [.experts, .extents] s (releaseLayer layer s) :=
  (keptBut_trans (experts_extents_kept s _ _) (serveWaiting_kept _)).mono (by decide)

/-- With no fetch waiting, the end of a layer releases the step's experts of the layer and no more. -/
theorem releaseLayer_none {layer : Nat} {s : State} (h : ∀ e ∈ s.experts, e.wait = false) :
    (releaseLayer layer s).extents = s.extents ∧ (releaseLayer layer s).experts =
      s.experts.map fun e => if e.layer = layer then { e with held := e.held.filter (· != curStep s) } else e := by
  have hw : ∀ e ∈ (releaseHeld (curStep s) (fun e => e.layer == layer) s).experts, e.wait = false := by
    intro e he
    obtain ⟨x, hx, rfl⟩ := List.mem_map.mp he
    split
    · exact h x hx
    · exact h x hx
  rw [releaseLayer, serveWaiting_none hw]
  refine ⟨rfl, List.map_congr_left fun e _ => ?_⟩
  simp only [beq_iff_eq]

/-- The core leaves the layer's fallback. -/
def leaveFallback (c layer : Nat) (s : State) : State :=
  coreSet s c { coreGet s c with inFallback := (coreGet s c).inFallback.filter (· != layer) }

theorem endLayer_none {c layer : Nat} {s : State} (h : groupOf s c = none) : endLayer c layer s = leaveFallback c layer s := by
  unfold endLayer
  rw [h]
  rfl

theorem endLayer_some {c layer : Nat} {s : State} {g : ImgGroup} (h : groupOf s c = some g) : endLayer c layer s =
    let r := c :: reached s (1000 + layer)
    if g.cores.all fun x => r.contains x || coreFenced s x then releaseLayer layer (setReached (leaveFallback c layer s) (1000 + layer) [])
    else setReached (leaveFallback c layer s) (1000 + layer) r := by
  unfold endLayer
  rw [h]
  rfl

/-- Beside the layer's record and experts, the end of a layer changes the core as `leaveFallback` does. -/
theorem endLayer_kept (c layer : Nat) (s : State) : keptBut [.barriers, .experts, .extents] (leaveFallback c layer s) (endLayer c layer s) := by
  cases h : groupOf s c with
  | none =>
    rw [endLayer_none h]
    exact keptBut_refl _ _
  | some g =>
    rw [endLayer_some h]
    have hr (l : List Nat) := setReached_kept (leaveFallback c layer s) (1000 + layer) l
    exact keptBut_ite ((keptBut_trans (hr _) (releaseLayer_kept _ _)).mono (by decide)) ((hr _).mono (by decide))

theorem groupOf_congr {s t : State} (h : t.img = s.img) (c : Nat) : groupOf t c = groupOf s c := by simp only [groupOf, h]

theorem curStep_of_issued {s t : State} {i : Ins} {u : Option XUnit} (h : Issued s i u t) : curStep t = curStep s := by
  obtain ⟨-, -, hp, -⟩ := h
  unfold curStep
  rw [hp]
  cases i.vary <;> cases s.portion <;> rfl

/-- Settles O9: what issuing changes is `Issued`; the operations of the layer's and the step's end follow it. -/
theorem controlOperationsIssue : Obligations.ControlOperationsIssue := by
  refine ⟨fun s i h => ⟨⟨_, exec_nop h, ctlIssued_spec s i 0⟩, ⟨_, exec_fallbackEntry h, ctlIssued_spec s i 3⟩,
    fun target taken => ⟨_, ctlIssued_spec s i 1, exec_loop h target taken⟩,
    fun target taken => ⟨_, ctlIssued_spec s i 2, exec_branch h target taken⟩⟩,
    fun s i h => ⟨⟨_, ctlIssued_spec s i 4, _, exec_endLayer h, ?_⟩, ⟨_, ctlIssued_spec s i 5, _, exec_endStep h, ?_⟩⟩⟩
  · have hu := ctlIssued_spec s i 4
    have hstep := curStep_of_issued hu
    obtain ⟨-, hoth, -, hk, -⟩ := hu
    generalize ctlIssued s i 4 = u at hoth hk hstep ⊢
    have ht := endLayer_kept i.core i.layer u
    have hcores : (endLayer i.core i.layer u).cores = (leaveFallback i.core i.layer u).cores := ht .cores (by decide)
    refine ⟨(keptBut_trans (coreSet_kept _ _ _) ht).mono (by decide), ?_, fun c hc => ?_, fun g hg => ?_⟩
    · rw [coreGet_congr hcores, leaveFallback, coreGet_coreSet_self]
    · rw [coreGet_congr hcores, leaveFallback, coreGet_coreSet_ne hc, hoth c hc]
    · have hgu : groupOf u i.core = some g := (groupOf_congr (hk .img (by decide)) _).trans hg
      have hexp : u.experts = s.experts := hk .experts (by decide)
      have hext : u.extents = s.extents := hk .extents (by decide)
      rw [← reached_congr (hk .barriers (by decide)), endLayer_some hgu]
      dsimp only
      split
      · refine ⟨?_, fun hw => ?_⟩
        · rw [reached_congr (releaseLayer_kept _ _ .barriers (by decide)), reached_setReached_self]
        · obtain ⟨h1, h2⟩ := releaseLayer_none (layer := i.layer) (s := setReached (leaveFallback i.core i.layer u) (1000 + i.layer) [])
            (by rw [← hexp] at hw; exact hw)
          exact ⟨h1.trans hext, by rw [h2, ← hstep, ← hexp]; rfl⟩
      · exact ⟨reached_setReached_self _ _ _, hexp, hext⟩
  · obtain ⟨hk, hself, hother⟩ := endStep_spec i.core (ctlIssued s i 5)
    obtain ⟨-, -, -, hki, -⟩ := ctlIssued_spec s i 5
    rw [← reached_congr (hki .barriers (by decide))]
    exact ⟨hk, hself, hother⟩

/-! ### WAIT and BARRIER (R109, R110) -/

theorem waitMet_iff {k : CoreSt} {units count : Nat} :
    waitMet k units count = true ↔ ∀ u : XUnit, bit units (unitNum u) = true → outstanding k u ≤ count := by
  have hmem (u : XUnit) : u ∈ [XUnit.mx, .vu, .mov, .mem, .eng] := by cases u <;> decide
  simp only [waitMet, List.all_eq_true, Bool.or_eq_true, Bool.not_eq_true', decide_eq_true_eq]
  refine ⟨fun h u hu => (h u (hmem u)).resolve_left (by simp [hu]), fun h u _ => ?_⟩
  cases hu : bit units (unitNum u) with
  | true => exact .inr (h u hu)
  | false => exact .inl rfl

section
variable {s : State} {i : Ins} (h : mayIssue s i none)
include h

/-- The state in which a WAIT (0) or a BARRIER (1) has issued. -/
theorem issueWith_wait (place : Nat) : Issued s i none (issueWith i none ⟨7, place, 7⟩ false id s) := by
  rw [issueWith_eq h]
  exact issued_spec _ _ _ _ s

theorem exec_wait {units count : Nat} (hf : Instr.waitFields units count = true) : exec (.wait i units count) s =
    .next (if waitMet (coreGet s i.core) units count then issueWith i none ⟨7, 0, 7⟩ false id s else stalled i.core 2 s) := by
  obtain ⟨h1, -, h3⟩ := h
  refine (if_neg (waitFields_iff.mp hf)).trans (congrArg Host.Outcome.next ?_)
  rw [h1, h3]
  cases waitMet (coreGet s i.core) units count <;> rfl

theorem exec_barrier_none (hg : groupOf s i.core = none) :
    exec (.barrier i) s = .next (issueWith i none ⟨7, 1, 7⟩ false id s) := by
  obtain ⟨h1, -, h3⟩ := h
  refine congrArg Host.Outcome.next ((if_neg (by simp [h1, h3])).trans ?_)
  rw [hg]

theorem exec_barrier_some {g : ImgGroup} (hg : groupOf s i.core = some g) : exec (.barrier i) s =
    let rel := reached s (2 * g.idx + 1)
    let arr := i.core.val :: (reached s (2 * g.idx)).filter (· != i.core.val)
    .next (if rel.contains i.core.val then
      issueWith i none ⟨7, 1, 7⟩ false id (setReached s (2 * g.idx + 1) (rel.filter (· != i.core.val)))
    else if g.cores.all fun x => arr.contains x || coreFenced s x then
      issueWith i none ⟨7, 1, 7⟩ false id
        (setReached (setReached s (2 * g.idx) []) (2 * g.idx + 1) (g.cores.filter fun x => x != i.core.val && !coreFenced s x))
    else stalled i.core 3 (setReached s (2 * g.idx) arr)) := by
  obtain ⟨h1, -, h3⟩ := h
  refine congrArg Host.Outcome.next ((if_neg (by simp [h1, h3])).trans ?_)
  rw [hg]

end

/-- A slot that stalls at a meeting point, after the core's arrival there. -/
theorem stalled_setReached_spec (c : Nat) (s : State) (k : Nat) (l : List Nat) :
    let t := stalled c 3 (setReached s k l)
    reached t k = l ∧ coreGet t c = { coreGet s c with stall := 3 } ∧ (∀ d, d ≠ c → coreGet t d = coreGet s d) ∧
      keptBut [.cores, .flds, .barriers] s t ∧ regsKept pmcKey s t := by
  obtain ⟨h1, h2, h3, h4⟩ := stalled_spec c 3 (setReached s k l)
  refine ⟨?_, h1, h2, (keptBut_trans (setReached_kept s k l) h3).mono (by decide), h4⟩
  rw [reached_congr (h3 .barriers (by decide)), reached_setReached_self]

/-- Settles O10: WAIT by the outstanding instructions of each unit, BARRIER by the cores that its group still waits for. -/
theorem waitAndBarrier : Obligations.WaitAndBarrier := by
  refine fun s i h => ⟨fun units count hf => ⟨fun hmet => ?_, fun hun => ?_⟩, fun hg => ?_, fun g hg => ⟨fun hgone => ?_, fun hgone hall => ?_,
    fun hgone hmiss => ?_⟩⟩
  · rw [exec_wait h hf, if_pos (waitMet_iff.mpr hmet)]
    exact ⟨_, rfl, issueWith_wait h 0⟩
  · obtain ⟨u, hu, hlt⟩ := hun
    rw [exec_wait h hf, if_neg fun hmet => (waitMet_iff.mp hmet u hu).not_gt hlt]
    exact ⟨_, rfl, stalled_spec i.core 2 s⟩
  · exact ⟨_, exec_barrier_none h hg, issueWith_wait h 1⟩
  · rw [exec_barrier_some h hg]
    dsimp only
    rw [if_pos (List.contains_iff_mem.mpr hgone)]
    exact ⟨_, rfl, issueWith_wait (mayIssue_setReached h _ _) 1⟩
  · rw [exec_barrier_some h hg]
    dsimp only
    rw [if_neg fun hc => hgone (List.contains_iff_mem.mp hc), if_pos (by simpa using hall)]
    exact ⟨_, rfl, issueWith_wait (mayIssue_setReached (mayIssue_setReached h _ _) _ _) 1⟩
  · obtain ⟨x, hx, hhere, hfen⟩ := hmiss
    rw [exec_barrier_some h hg]
    dsimp only
    rw [if_neg fun hc => hgone (List.contains_iff_mem.mp hc), if_neg fun hall => ?_]
    · exact ⟨_, rfl, stalled_setReached_spec i.core s _ _⟩
    · have hx' := List.all_eq_true.mp hall x hx
      rw [hfen, Bool.or_false] at hx'
      exact hhere (List.contains_iff_mem.mp hx')

/-! ### Instructions held back (R108, R109, R113) -/

/-- The outcome is that of putting the instruction to the sequencer. -/
def Presented (s : State) (i : Ins) (u : Option XUnit) (r : Res) : Prop := ∃ o l eff, r = .next (issueWith i u o l eff s)

theorem presented_mma {s : State} {i : Ins} {row m : Nat} (hrow : Instr.passRows row m = true) (a w : Nat) (f : WFmt) :
    Presented s i (some .mx) (exec (.mma i a w row m f) s) := ⟨_, _, _, if_pos (passRows_iff.mp hrow)⟩

/-- A request to an engine is put to the sequencer also when the engine's queue is full. -/
theorem presented_engRequest {s : State} {i : Ins} (h : coreFenced s i.core = true ∨ (stallCause i (some .eng) s).isSome = true)
    (e : Engine) (hf : Half) (g : Nat) : Presented s i (some .eng) (exec (.engRequest i e hf g) s) := by
  refine ⟨_, _, _, congrArg Host.Outcome.next (if_neg ?_)⟩
  rcases h with h | h
  · simp [h]
  · obtain ⟨k, hk⟩ := Option.isSome_iff_exists.mp h
    simp [hk]

theorem presented_fenced {s : State} {i : Ins} {u : Option XUnit} {r : Res} (h : Presented s i u r) (hf : coreFenced s i.core = true) :
    r = .next s := by
  obtain ⟨o, l, eff, rfl⟩ := h
  rw [issueWith_fenced hf]

theorem presented_stalled {s : State} {i : Ins} {u : Option XUnit} {r : Res} (h : Presented s i u r) {k : Nat}
    (hf : coreFenced s i.core = false) (ha : stageAlive s = true) (hk : stallCause i u s = some k) : r = .next (stalled i.core k s) := by
  obtain ⟨o, l, eff, rfl⟩ := h
  rw [issueWith_stalled hf ha hk]

/-- Settles O11: each of the instructions is put to the sequencer, which stalls the slot. -/
theorem heldBackInstructionDoesNotIssue : Obligations.HeldBackInstructionDoesNotIssue := by
  intro s i c u hc
  have hp : coreFenced s i.core = true ∨ (stallCause i u s).isSome = true → Presented s i u (exec c s) := by
    intro h
    rcases hc with ⟨rfl, rfl⟩ | ⟨a, w, row, m, f, hrow, rfl, rfl⟩ | ⟨f, n, d, x, y, z, rfl, rfl⟩ | ⟨rfl, rfl⟩ | ⟨e, hf, g, rfl, rfl⟩
    · exact ⟨_, _, _, rfl⟩
    · exact presented_mma hrow a w f
    · exact ⟨_, _, _, rfl⟩
    · exact ⟨_, _, _, rfl⟩
    · exact presented_engRequest h e hf g
  refine ⟨fun hf => presented_fenced (hp (.inl hf)) hf, fun k hf ha hk => ⟨_, presented_stalled (hp (.inr (by rw [hk]; rfl))) hf ha hk, ?_⟩⟩
  exact stalled_spec i.core k s

/-! ### Completion (R110, R484) -/

/-- The instruction waits for its pass, engine command, descriptors or fabric operations. -/
def awaitsUnit (s : State) (c : Nat) (u : XUnit) (index : Nat) : Bool :=
  (u == .mx && (coreGet s c).mxq.any fun x => match x with | .pass p => p.index == index | .acc j _ => j == index) ||
    (u == .eng && s.engQ.any fun q => q.2.any fun e => e.src == c && e.index == index) ||
    (u == .mov && s.sashQ.any fun q => q.2.any fun e => e.src == c && e.index == index) ||
    (u == .mem && ((s.fab.ops.any fun o => o.core == c && o.index == index && !o.done) ||
      s.fab.fences.any fun f => f.core == c && f.index == index))

theorem exec_instructionComplete (s : State) (c : Fin 192) (u : XUnit) (index latency : Nat) :
    exec (.instructionComplete c u index latency) s = .next (if awaitsUnit s c u index then s else complete c u index latency s) := rfl

theorem awaitsUnit_false {s : State} {c : Nat} {u : XUnit} {index : Nat}
    (h : u = .vu ∨ (coreGet s c).mxq = [] ∧ s.engQ = [] ∧ s.sashQ = [] ∧ s.fab.ops = [] ∧ s.fab.fences = []) :
    awaitsUnit s c u index = false := by
  rcases h with rfl | ⟨h1, h2, h3, h4, h5⟩
  · rfl
  · simp [awaitsUnit, h1, h2, h3, h4, h5]

theorem complete_untagged {s : State} {c : Nat} {u : XUnit} {index latency : Nat} (h : (coreGet s c).outst.contains ⟨u, index⟩ = true)
    (ht : (coreGet s c).tag = none) : complete c u index latency s =
      coreSet s c { coreGet s c with outst := (coreGet s c).outst.erase ⟨u, index⟩ } := by
  unfold complete
  dsimp only
  rw [if_pos h, ht, removeFirst_eq_erase]
  rfl

/-- Settles O12: with no work waiting on its unit, the instruction leaves the list. -/
theorem instructionCompletion : Obligations.InstructionCompletion := by
  refine fun s c u index latency => ⟨fun hn => ?_, fun hc hfree => ⟨complete c u index latency s, ?_, ?_⟩⟩
  · have he : complete c u index latency s = s := if_neg (by rw [hn]; decide)
    rw [exec_instructionComplete, he, ite_self]
  · rw [exec_instructionComplete, awaitsUnit_false hfree]
    rfl
  · obtain ⟨⟨g, m, hcore⟩, hoth, hk, hr, hm⟩ := complete_spec c u index latency s
    exact ⟨by rw [hcore], complete_untagged hc, hoth, hk, hr, hm⟩

end Sys2Proof.Machine
end

