-- ==== Sys2Proof/Proofs/TrapsAndPreemption.lean ====
section
/-!
SUPPORT. Proofs/TrapsAndPreemption.lean: outlier traps on a core, and the suspension and resumption of a portion at cheap points
(R106, R107, R113, R262).
-/
namespace Sys2Proof.Machine

/-! ### Traps (R106) -/

theorem mem_leftMxq_pass {f : Nat → Bool} {k : CoreSt} {p : Pass} : .pass p ∈ leftMxq f k ↔ .pass p ∈ k.mxq ∧ f p.index = false := by
  unfold leftMxq
  rw [List.mem_filter]
  simp

/-- No entry of the core that `f` names is left in a queue from which they are dropped. -/
theorem not_named_of_mem_dropped {β : Type} {src index : β → Nat} {c : Nat} {f : Nat → Bool} {m q : List (Nat × List β)}
    (h : q = (m.map fun x => (x.1, x.2.filter fun e => !(src e == c && f (index e)))).filter fun p => !p.2.isEmpty) :
    ∀ x ∈ q, ∀ e ∈ x.2, src e = c → f (index e) = false := by
  subst h
  intro x hx e he hsrc
  obtain ⟨y, -, rfl⟩ := List.mem_map.mp (List.mem_of_mem_filter hx)
  simpa [hsrc] using (List.mem_filter.mp he).2

/-- The core stops, trapped on the layer, and what it has not completed of the layer is discarded. -/
def trapCore (c layer : Nat) (s : State) : State :=
  coreSet (discardIns c (ofLayer s c layer) s) c
    { coreGet (discardIns c (ofLayer s c layer) s) c with stop := .trapped layer, stall := 6 }

theorem exec_trapMessage {s : State} {c : Fin 192} {layer : Nat} (hf : coreFenced s c = false) (hn : layer ∉ (coreGet s c).inFallback) :
    exec (.trapMessage c layer) s = .next (trapCore c layer s) := by
  refine congrArg Host.Outcome.next (if_neg ?_)
  simp [hf, hn]

theorem exec_trapDrainDone {s : State} {c : Fin 192} {layer : Nat} (h : (coreGet s c).stop = .trapped layer) (entry : Nat) :
    exec (.trapDrainDone c entry) s = .next (if (coreGet s c).outst.isEmpty then coreSet s c
      { coreGet s c with stop := .run, nextIndex := entry, inFallback := layer :: (coreGet s c).inFallback } else s) := by
  refine congrArg Host.Outcome.next ?_
  rw [h]

/-- Settles O13: the trap discards as `discardIns` does and stops the core; the drain waits for an empty list. -/
theorem trapMessageAndDrain : Obligations.TrapMessageAndDrain := by
  refine ⟨fun s c layer hf hn => ⟨_, exec_trapMessage hf hn, ?_⟩, fun s c entry layer h => ⟨fun he => ?_, fun hne => ?_⟩⟩
  · obtain ⟨⟨n, g, m, hc⟩, hoth, heng, hsash, -, hk, hr, hm⟩ := discardIns_spec c.val (ofLayer s c layer) s (by omega)
    have hset := coreSet_kept (discardIns c (ofLayer s c layer) s) c
      { coreGet (discardIns c (ofLayer s c layer) s) c with stop := .trapped layer, stall := 6 }
    unfold trapCore
    rw [coreGet_coreSet_self, hc]
    exact ⟨rfl, rfl, fun p => mem_leftMxq_pass, rfl, rfl, not_named_of_mem_dropped heng, not_named_of_mem_dropped hsash,
      fun d hd => (coreGet_coreSet_ne hd).trans (hoth d hd), hk .accs (by decide), hk .portion (by decide),
      (keptBut_trans hk (coreSet_kept _ _ _)).mono (by decide), hr, hm⟩
  · rw [exec_trapDrainDone h, he]
    rfl
  · rw [exec_trapDrainDone h, if_neg (by simpa using hne)]

/-! ### The post (R113, R262) -/

/-- A post reaches a core in service. -/
def postCore (s : State) (c : Fin 192) : State :=
  if coreFenced s c then s else coreSet s c { coreGet s c with preempt := true }

theorem exec_preemptionPost {s : State} (h : preemptOk s = true) (cores : List (Fin 192)) :
    exec (.preemptionPost cores) s = .next (cores.foldl postCore s) := congrArg Host.Outcome.next (if_pos h)

theorem postCore_kept (s : State) (c : Fin 192) : keptBut [.cores] s (postCore s c) :=
  keptBut_ite (keptBut_refl _ _) (coreSet_kept _ _ _)

theorem coreFenced_congr {s t : State} (h : t.flds = s.flds) (c : Nat) : coreFenced t c = coreFenced s c := getBit_congr h _ _

theorem coreGet_postCore (s : State) (d c : Fin 192) : coreGet (postCore s d) c =
    if c = d ∧ coreFenced s c = false then { coreGet s c with preempt := true } else coreGet s c := by
  unfold postCore
  by_cases hcd : c = d
  · subst hcd
    cases hf : coreFenced s c <;> simp
  · have hne : (c : Nat) ≠ d := fun e => hcd (Fin.ext e)
    simp only [hcd, false_and, if_false]
    split
    · rfl
    · exact coreGet_coreSet_ne hne

theorem coreGet_foldl_postCore (l : List (Fin 192)) (s : State) (c : Fin 192) : coreGet (l.foldl postCore s) c =
    if c ∈ l ∧ coreFenced s c = false then { coreGet s c with preempt := true } else coreGet s c := by
  induction l generalizing s with
  | nil => simp
  | cons d l ih =>
    rw [List.foldl_cons, ih, coreFenced_congr (postCore_kept s d .flds (by decide)), coreGet_postCore]
    cases hf : coreFenced s c
    · by_cases hd : c = d <;> by_cases hl : c ∈ l <;> simp [hd, hl]
    · simp

/-! ### The save (R113) -/

/-- The record of a core's cheap point; a core that the image gives none saves nothing. -/
def rangeAt (s : State) (c lr : Nat) : LiveRange := (liveRange s c lr).getD ⟨c, lr, [], []⟩

/-- The granules of its bytes that fail their code. -/
def rangeBad (s : State) (c lr : Nat) : List Nat :=
  ((rangeAt s c lr).sram.flatMap fun r => (granulesOf (sramAddr c r.1) r.2).filter (marked s)).dedup

/-- The core once it has saved. -/
def savedCore (s : State) (c index lr : Nat) : CoreSt :=
  { coreGet s c with
    preempt := false, stall := 5, stop := .preempted index lr
    saved := (rangeAt s c lr).sram.map fun r => (r.1, rdBytes s (sramAddr c r.1) r.2)
    savedAcc := (rowKeys (rangeAt s c lr).rows).map fun x => (x, smGet {} s.accs (c * 16384 + x))
    savedBad := rangeBad s c lr
    savedAt := some (index, (coreGet s c).inFallback) }

/-- A core in service is still to save. -/
def unsaved (s : State) : Bool := (List.range 192).any fun c => (coreGet s c).preempt && !coreFenced s c

/-- A portion as it is suspended, with the cores that have reached its meeting points. -/
def preemptedPortion (p : Portion) (met : List (Nat × List Nat)) : Portion :=
  { p with hdr := { p.hdr with preemptions := min 255 (p.hdr.preemptions + 1) }, met := met }

/-- The portion `p` suspended. -/
def suspendPortion (p : Portion) (s : State) : State :=
  countEv 0xEEA 1 { s with portion := none, suspended := some (preemptedPortion p s.barriers), barriers := [], ctl.lcRan := false }

/-- With the last save the portion is suspended. -/
def suspendSaved (s : State) : State :=
  match s.portion with
  | some p => if unsaved s then s else suspendPortion p s
  | none => s

theorem exec_cheapPointSave {s : State} {c : Fin 192} (hp : (coreGet s c).preempt = true) (hs : (coreGet s c).stop = .run)
    (ho : (coreGet s c).outst = []) (hf : coreFenced s c = false) (index lr : Nat) : exec (.cheapPointSave c index lr) s =
      .next (suspendSaved (coreSet (localDetect (rangeBad s c lr) s) c (savedCore s c index lr))) := by
  refine congrArg Host.Outcome.next ((if_pos ?_).trans rfl)
  simp [hp, hs, ho, hf]

/-- A suspension takes the portion with what its cores have reached, and counts one event. -/
theorem suspendPortion_spec (p : Portion) (s : State) :
    (suspendPortion p s).portion = none ∧ (suspendPortion p s).barriers = [] ∧ (suspendPortion p s).ctl = { s.ctl with lcRan := false } ∧
      (suspendPortion p s).suspended = some (preemptedPortion p s.barriers) ∧
      keptBut [.flds, .portion, .suspended, .barriers, .ctl] s (suspendPortion p s) ∧ regsKept pmcKey s (suspendPortion p s) := by
  refine ⟨countEv_portion _ _ _, countEv_barriers _ _ _, countEv_ctl _ _ _, countEv_suspended _ _ _,
    (keptBut_trans (l := [.portion, .suspended, .barriers, .ctl]) (fun q hq => ?_) (countEv_kept _ _ _)).mono (by decide),
    fun k d e => flds_countEv e⟩
  cases q with
  | portion | suspended | barriers | ctl => exact absurd hq (by decide)
  | _ => rfl

theorem suspendSaved_kept (s : State) : keptBut [.flds, .portion, .suspended, .barriers, .ctl] s (suspendSaved s) := by
  unfold suspendSaved
  split
  · obtain ⟨-, -, -, -, hk, -⟩ := suspendPortion_spec _ s
    exact keptBut_ite (keptBut_refl _ _) hk
  · exact keptBut_refl _ _

theorem coreGet_suspendSaved_coreSet {s t : State} (ht : t.cores = s.cores) (c : Nat) (k : CoreSt) :
    coreGet (suspendSaved (coreSet t c k)) c = k ∧ ∀ d, d ≠ c → coreGet (suspendSaved (coreSet t c k)) d = coreGet s d := by
  have hc : (suspendSaved (coreSet t c k)).cores = (coreSet t c k).cores := suspendSaved_kept _ .cores (by decide)
  refine ⟨by rw [coreGet_congr hc, coreGet_coreSet_self], fun d hd => ?_⟩
  rw [coreGet_congr hc, coreGet_coreSet_ne hd, coreGet_congr ht]

theorem mem_rangeBad {s : State} {c lr : Nat} {l : LiveRange} (h : liveRange s c lr = some l) {r : Nat × Nat} (hr : r ∈ l.sram) {g : Nat}
    (hg : g ∈ granulesOf (sramAddr c r.1) r.2) (hm : marked s g = true) : g ∈ rangeBad s c lr := by
  have hl : rangeAt s c lr = l := by rw [rangeAt, h]; rfl
  rw [rangeBad, hl, List.mem_dedup]
  exact List.mem_flatMap.mpr ⟨r, hr, List.mem_filter.mpr ⟨hg, hm⟩⟩

/-- No granule of the saved bytes fails where each range reads clean. -/
theorem rangeBad_eq_nil {s : State} {c lr : Nat}
    (h : ∀ l, liveRange s c lr = some l → ∀ r ∈ l.sram, anyMarked s (sramAddr c r.1) r.2 = false) : rangeBad s c lr = [] := by
  have hn : (rangeAt s c lr).sram.flatMap (fun r => (granulesOf (sramAddr c r.1) r.2).filter (marked s)) = [] := by
    refine List.flatMap_eq_nil_iff.mpr fun r hr => failingSource_eq_nil ?_
    cases hl : liveRange s c lr with
    | none =>
      rw [rangeAt, hl] at hr
      cases hr
    | some l =>
      rw [rangeAt, hl] at hr
      exact h l hl r hr
  rw [rangeBad, hn, List.dedup_nil]

theorem unsaved_iff {s : State} : unsaved s = true ↔ ∃ d : Fin 192, (coreGet s d).preempt = true ∧ coreFenced s d = false := by
  simp only [unsaved, List.any_eq_true, List.mem_range, Bool.and_eq_true, Bool.not_eq_true']
  exact ⟨fun ⟨d, hd, h⟩ => ⟨⟨d, hd⟩, h⟩, fun ⟨d, h⟩ => ⟨d, d.isLt, h⟩⟩

section
variable {s : State} {c : Fin 192} {k : CoreSt} {p : Portion} (hp : s.portion = some p) (hk : k.preempt = false)

include hp in
/-- While another core is still to save, the portion stays. -/
theorem suspendSaved_waits (h : ∃ d : Fin 192, d ≠ c ∧ (coreGet s d).preempt = true ∧ coreFenced s d = false) :
    suspendSaved (coreSet s c k) = coreSet s c k := by
  obtain ⟨d, hd, hpre, hf⟩ := h
  have hu : unsaved (coreSet s c k) = true :=
    unsaved_iff.mpr ⟨d, by rw [coreGet_coreSet_ne fun e => hd (Fin.ext e)]; exact hpre, hf⟩
  unfold suspendSaved
  rw [coreSet_portion, hp]
  exact if_pos hu

include hp hk in
theorem suspendSaved_last (h : ∀ d : Fin 192, d ≠ c → coreFenced s d = false → (coreGet s d).preempt = false) :
    suspendSaved (coreSet s c k) = suspendPortion p (coreSet s c k) := by
  have hu : ¬ unsaved (coreSet s c k) = true := by
    rw [unsaved_iff]
    rintro ⟨d, hpre, hf⟩
    by_cases hd : d = c
    · rw [hd, coreGet_coreSet_self, hk] at hpre
      cases hpre
    · rw [coreGet_coreSet_ne fun e => hd (Fin.ext e), h d hd hf] at hpre
      cases hpre
  unfold suspendSaved
  rw [coreSet_portion, hp]
  exact if_neg hu

end

/-! ### The resumption (R113, R262) -/

/-- The core's saved bytes and accumulators put back, and its issue restarted. -/
def restoredCore (c index : Nat) (falls : List Nat) (s : State) : State :=
  let k := coreGet s c
  let s1 := setMarks (putRuns s (k.saved.map fun r => (sramAddr c r.1, r.2))) k.savedBad true
  coreSet { s1 with accs := k.savedAcc.foldl (fun m x => smSet {} m (c * 16384 + x.1) x.2) s1.accs } c
    { k with stop := .run, nextIndex := index, saved := [], savedAcc := [], savedBad := [], savedAt := none, inFallback := falls }

/-- The suspended portion runs again. -/
def resumePortion (s : State) : State :=
  match s.suspended with
  | some p => { s with portion := some { p with met := [] }, suspended := none, barriers := p.met, ctl.lcRan := false }
  | none => s

theorem exec_preemptResume {s : State} {c : Fin 192} {index : Nat} {falls : List Nat}
    (ha : (coreGet s c).savedAt = some (index, falls)) (hn : s.portion = none) :
    exec (.preemptResume c) s = .next (resumePortion (restoredCore c index falls s)) := by
  have hlc : ¬ (s.portion.any fun p => !p.hdr.be) = true := by simp [hn]
  refine congrArg Host.Outcome.next ?_
  rw [ha]
  exact if_neg hlc

/-- A resumed portion leaves all but the portions and their meeting points alone. -/
theorem resumePortion_spec {s : State} {p : Portion} (h : s.suspended = some p) :
    (resumePortion s).portion = some { p with met := [] } ∧ (resumePortion s).suspended = none ∧ (resumePortion s).barriers = p.met ∧
      keptBut [.portion, .suspended, .barriers, .ctl] s (resumePortion s) := by
  unfold resumePortion
  rw [h]
  refine ⟨rfl, rfl, rfl, fun q hq => ?_⟩
  cases q with
  | portion | suspended | barriers | ctl => exact absurd hq (by decide)
  | _ => rfl

/-- The restored core, its bytes, accumulators and failing granules. -/
theorem restoredCore_spec (c index : Nat) (falls : List Nat) (s : State) :
    let t := restoredCore c index falls s
    t.mem = ((coreGet s c).saved.map fun r => (sramAddr c r.1, r.2)).foldl (fun m r => Memory.writeBytes m r.1 r.2) s.mem ∧
      t.accs = (coreGet s c).savedAcc.foldl (fun m x => smSet {} m (c * 16384 + x.1) x.2) s.accs ∧
      (∀ g ∈ (coreGet s c).savedBad, marked t g = true) ∧ (∀ d, d ≠ c → coreGet t d = coreGet s d) ∧
      keptBut [.cores, .flds, .mem, .marks, .accs] s t ∧ regsKept storeKey s t := by
  obtain ⟨hm, hk, hr⟩ := putRuns_spec ((coreGet s c).saved.map fun r => (sramAddr c r.1, r.2)) s
  unfold restoredCore
  dsimp only
  generalize putRuns s ((coreGet s c).saved.map fun r => (sramAddr c r.1, r.2)) = u at hm hk hr ⊢
  have ha : (setMarks u (coreGet s c).savedBad true).accs = s.accs := hk .accs (by decide)
  refine ⟨hm, by rw [coreSet_accs, ha], fun g hg => ?_, fun d hd => ?_, ?_, hr⟩
  · exact smGet_foldl_smSet.trans (if_pos hg)
  · rw [coreGet_coreSet_ne hd]
    exact coreGet_congr (hk .cores (by decide)) d
  · exact (keptBut_trans (keptBut_trans (keptBut_trans hk (setMarks_kept _ _ _)) (accs_kept _ _)) (coreSet_kept _ _ _)).mono (by decide)

theorem coreGet_restoredCore (c index : Nat) (falls : List Nat) (s : State) : coreGet (restoredCore c index falls s) c =
    { coreGet s c with stop := .run, nextIndex := index, saved := [], savedAcc := [], savedBad := [], savedAt := none, inFallback := falls } :=
  coreGet_coreSet_self _ _ _

/-- Settles O14: the post core by core; the save, and the suspension with the last of them; the saved state put back. -/
theorem preemptionPostSaveResume : Obligations.PreemptionPostSaveResume := by
  refine ⟨fun s cores h => ⟨_, exec_preemptionPost h cores, foldl_kept _ _ postCore_kept, coreGet_foldl_postCore cores s⟩,
    fun s c index lr p hp hpre hstop hout hf => ⟨_, exec_cheapPointSave hpre hstop hout hf index lr, ?_⟩,
    fun s c index falls p ha hn hs => ?_⟩
  · obtain ⟨hc, hoth⟩ := coreGet_suspendSaved_coreSet ((localDetect_spec (rangeBad s c lr) s).1 .cores (by decide)) c (savedCore s c index lr)
    rw [hc]
    refine ⟨rfl, rfl, rfl, ?_, ?_, hoth, fun l hl r hr g hg hm => mem_rangeBad hl hr hg hm, fun hclean => ?_⟩
    · cases hl : liveRange s c lr <;> simp [savedCore, rangeAt, hl]
    · cases hl : liveRange s c lr <;> simp [savedCore, rangeAt, hl, rowKeys]
    · rw [rangeBad_eq_nil hclean, localDetect_nil]
      refine ⟨fun hleft => ?_, fun hlast => ?_⟩
      · rw [suspendSaved_waits hp hleft]
        exact ⟨rfl, coreSet_kept _ _ _⟩
      · rw [suspendSaved_last hp rfl hlast]
        obtain ⟨h1, h2, h3, h4, hk, hr⟩ := suspendPortion_spec p (coreSet s c (savedCore s c index lr))
        exact ⟨h1, h2, h3, h4, (keptBut_trans (coreSet_kept _ _ _) hk).mono (by decide), hr⟩
  · obtain ⟨hm, hacc, hmark, hoth, hk, hr⟩ := restoredCore_spec c index falls s
    obtain ⟨h1, h2, h3, hkr⟩ := resumePortion_spec ((hk .suspended (by decide)).trans hs)
    have hcores := coreGet_congr (hkr .cores (by decide))
    refine ⟨_, exec_preemptResume ha hn, ?_⟩
    rw [hcores, coreGet_restoredCore]
    refine ⟨rfl, rfl, rfl, rfl, h1, h2, h3, (hkr .mem (by decide)).trans hm, (hkr .accs (by decide)).trans hacc, fun g hg => ?_, fun d hd => ?_,
      (keptBut_trans hk hkr).mono (by decide), fun k d e => ?_⟩
    · rw [marked_congr (hkr .marks (by decide)), hmark g hg]
    · rw [hcores, hoth d hd]
    · rw [hkr .flds (by decide), hr k d e]

end Sys2Proof.Machine
end

