-- ==== Sys2Proof/Proofs/EngineQueues.lean ====
section
/-!
SUPPORT. Proofs/EngineQueues.lean: what the operations of the engines' command interface change, how a command runs or is
denied, and how the watchdog and the completion close one (R120 to R123).
-/
namespace Sys2Proof.Machine

/-! ### Queues (R120) -/

@[simp] theorem engQueue_setEngQueue_self (s : State) (h : Half) (e : Engine) (q : List EngCmd) :
    engQueue (setEngQueue s h e q) h e = q := smGet_smSet_self

theorem engQueue_setEngQueue_ne {h k : Half} {e d : Engine} (hne : engKey k d ≠ engKey h e) (s : State) (q : List EngCmd) :
    engQueue (setEngQueue s h e q) k d = engQueue s k d := smGet_smSet_ne hne

theorem engQueue_congr {s t : State} (h : t.engQ = s.engQ) : engQueue t = engQueue s := by
  funext k e
  simp only [engQueue, h]

theorem setEngQueue_kept (s : State) (h : Half) (e : Engine) (q : List EngCmd) : keptBut [.engQ] s (setEngQueue s h e q) := by
  intro p hp
  cases p with
  | engQ => exact absurd hp (by decide)
  | _ => rfl

theorem engEnqueue_kept (h : Half) (e : Engine) (c : EngCmd) (s : State) : keptBut [.engQ, .rr] s (engEnqueue h e c s) := by
  intro p hp
  cases p with
  | engQ | rr => exact absurd hp (by decide)
  | _ => rfl

theorem engQueue_engEnqueue_self (h : Half) (e : Engine) (c : EngCmd) (s : State) :
    engQueue (engEnqueue h e c s) h e = engQueue s h e ++ [c] := engQueue_setEngQueue_self s h e _

theorem engQueue_engEnqueue_ne {h k : Half} {e d : Engine} (hne : engKey k d ≠ engKey h e) (c : EngCmd) (s : State) :
    engQueue (engEnqueue h e c s) k d = engQueue s k d := engQueue_setEngQueue_ne hne s _

/-- The state in which a request to an engine has issued. -/
def engIssued (s : State) (i : Ins) (e : Engine) : State := issued i (some .eng) ⟨6, 0, engineNum e⟩ true s

section
variable {s : State} {i : Ins} {e : Engine} {h : Half} (hi : mayIssue s i (some .eng)) (granule : Nat)
include hi

/-- With room in its engine's queue, a request that may issue enters its command. -/
theorem exec_engRequest_room (hroom : (engQueue s h e).length < 64) : exec (.engRequest i e h granule) s =
    .next (engEnqueue h e ⟨i.core, i.index, granule, i.layer, i.vary, none⟩ (engIssued s i e)) :=
  congrArg Host.Outcome.next ((if_neg (by simp [hroom])).trans (issueWith_eq hi))

theorem exec_engRequest_full (hfull : 64 ≤ (engQueue s h e).length) :
    exec (.engRequest i e h granule) s = .next (stalled i.core 1 s) := by
  obtain ⟨hfence, -, hcause⟩ := hi
  exact congrArg Host.Outcome.next (if_pos (by simp [hfence, hcause, hfull]))

end

/-! ### Outputs and faults (R123, R143, R192) -/

/-- R192: an engine's write stores bytes of the portion, or nothing. -/
theorem engPut_touches (s : State) (a : Nat) (bs : List Nat) : Touches [.mem, .marks, .flds, .portion] storeKey s (engPut s a bs) := by
  have hstore (b : Nat) : Touches [.mem, .marks, .flds, .portion] storeKey s (storeLocal s b bs) := by
    obtain ⟨-, hk, hr, -⟩ := storeLocal_spec s b bs
    exact ⟨hk, hr⟩
  exact .ite (hstore _) (.ite (hstore _) (.refl s))

theorem engPutRuns_touches (l : List (Nat × List Nat)) (s : State) :
    Touches [.mem, .marks, .flds, .portion] storeKey s (engPutRuns s l) :=
  (Touches.refl s).foldl fun u x => engPut_touches u x.1 x.2

/-- The fault record of the engines (R143). -/
def engFaultKey (k : Nat) : Bool :=
  oneOf [Reg.ENG_ENGINE_LAST_FAULT_ENGINE, Reg.ENG_ENGINE_LAST_FAULT_HALF, Reg.ENG_ENGINE_LAST_FAULT_CAUSE,
    Reg.ENG_ENGINE_LAST_FAULT_LAYER] k

/-- R143, R434: a fault record changes its four fields and raises FAULT at both ports. -/
theorem engFault_touches (h : Half) (engine cause layer : Nat) (s : State) :
    Touches irqParts (fun k => irqKey k || engFaultKey k) s (engFault h engine cause layer s) :=
  .irqBoth (.setF (.setF (.setF (.setF (.refl s))))) (by decide) fun _ e => (Bool.or_eq_false_iff.mp e).1

theorem keepReturn_kept (r : RetReq) (s : State) : keptBut [.portion] s (keepReturn r s) := setPortion_kept s _

theorem noteStopped_kept (c : EngCmd) (s : State) : keptBut [.portion] s (noteStopped c s) := setPortion_kept s _

/-! ### Running a command (R121) -/

theorem engStart_kept (s : State) (c : EngCmd) : keptBut [.portion] s (engStart s c) :=
  keptBut_ite (markVary_kept s) (keptBut_refl _ s)

/-- A VARY command marks the step and keeps what the watchdog has stopped. -/
theorem stopped_engStart {s : State} (h : ∀ p, s.portion = some p → p.stopped = []) (c : EngCmd) :
    ∀ p, (engStart s c).portion = some p → p.stopped = [] := by
  unfold engStart
  split
  · intro p hp
    obtain ⟨q, hq, rfl⟩ := Option.map_eq_some_iff.mp hp
    exact h q hq
  · exact h

/-- With no command stopped there is none whose events a rerun counts. -/
theorem countAgain_eq {s : State} (h : ∀ p, s.portion = some p → p.stopped = []) (c : EngCmd) (eff : State → EngRes) :
    countAgain c eff s = eff s := by
  unfold countAgain
  split
  · next p hp => simp [h p hp]
  · rfl

/-- The queue's first open command closes with what it came to. -/
def closeTurn (h : Half) (e : Engine) (r : EngRes) : State := setEngQueue r.s h e (closeFirst r.status (engQueue r.s h e))

theorem closeTurn_kept (h : Half) (e : Engine) (r : EngRes) : keptBut [.engQ] r.s (closeTurn h e r) := setEngQueue_kept _ _ _ _

@[simp] theorem engQueue_closeTurn (h : Half) (e : Engine) (r : EngRes) :
    engQueue (closeTurn h e r) h e = closeFirst r.status (engQueue r.s h e) := engQueue_setEngQueue_self _ _ _ _

section
variable {s : State} {h : Half} {e : Engine} {op a : Nat} {c : EngCmd} {ok : State → Nat → Bool} (ht : EngineTurn s h e op c a)
  (deny : Nat → State → State) (eff : EngCmd → Nat → State → EngRes)
include ht

/-- A command in its turn runs when its record's fields are valid, and is denied when they are not. -/
theorem runEngine_turn : runEngine h e op ok deny eff s = closeTurn h e
    (if ok s a then eff c a (engStart s c) else ⟨addPoison (.engine e h c.layer) (deny a (engStart s c)), 0x23⟩) := by
  obtain ⟨hopen, rfl, hop, hcodes, hlayer, hstopped⟩ := ht
  have hagain := countAgain_eq (stopped_engStart hstopped c) c (eff c (recBase h c.granule))
  unfold runEngine
  rw [hopen]
  dsimp only
  rw [if_neg (not_not.mpr hop), hcodes, if_neg Bool.false_ne_true]
  change closeTurn h e (if _ then _ else countAgain c (eff c (recBase h c.granule)) (engStart s c)) = _
  rw [hagain]
  congr 1
  cases hok : ok s (recBase h c.granule)
  · rw [if_pos (.inr rfl), if_neg Bool.false_ne_true]
    rfl
  · rw [if_neg (by simp [hlayer]), if_pos rfl]

theorem runEngine_runs (hok : ok s a = true) : runEngine h e op ok deny eff s = closeTurn h e (eff c a (engStart s c)) := by
  rw [runEngine_turn ht, if_pos hok]

theorem runEngine_denied (hno : ok s a = false) : runEngine h e op ok deny eff s =
    closeTurn h e ⟨addPoison (.engine e h c.layer) (deny a (engStart s c)), 0x23⟩ := by
  rw [runEngine_turn ht, hno, if_neg Bool.false_ne_true]

end

/-! ### The watchdog (R123) -/

/-- A stopped command: its outputs poisoned, its context told where Poppy ran it, the stop counted and noted. -/
def stopCmd (h : Half) (e : Engine) (c : EngCmd) (s : State) : State :=
  let s1 := engPutRuns s (poisonOutputs e (recBase h c.granule) s)
  let sr := if e = .poppy then noToken0 (recBase h c.granule) s1 else s1
  noteStopped c (addPoison (.engine e h c.layer) (engFault h (engineNum e) 1 c.layer (bump sr Reg.ENG_CMD_WDOG 1)))

theorem exec_engineWatchdog {s : State} {h : Half} {e : Engine} {c : EngCmd} (ho : firstOpen (engQueue s h e) = some c) :
    exec (.engineWatchdog h e) s = .next (closeTurn h e ⟨stopCmd h e c s, 0x31⟩) := by
  refine congrArg Host.Outcome.next ?_
  rw [ho]
  rfl

theorem stopCmd_spec (h : Half) (e : Engine) (c : EngCmd) (s : State) :
    getF (stopCmd h e c s) Reg.ENG_CMD_WDOG = min (getF s Reg.ENG_CMD_WDOG + 1) (2 ^ 64 - 1) ∧
      (stopCmd h e c s).mem = (engPutRuns s (poisonOutputs e (recBase h c.granule) s)).mem ∧
      keptBut (engParts.erase .engQ) s (stopCmd h e c s) := by
  have hput := engPutRuns_touches (poisonOutputs e (recBase h c.granule) s) s
  unfold stopCmd
  dsimp only
  generalize engPutRuns s (poisonOutputs e (recBase h c.granule) s) = u at hput ⊢
  have htold : keptBut [.portion] u (if e = .poppy then noToken0 (recBase h c.granule) u else u) :=
    keptBut_ite (keepReturn_kept _ u) (keptBut_refl _ u)
  generalize (if e = .poppy then noToken0 (recBase h c.granule) u else u) = v at htold ⊢
  have hfault := engFault_touches h (engineNum e) 1 c.layer (bump v Reg.ENG_CMD_WDOG 1)
  generalize engFault h (engineNum e) 1 c.layer (bump v Reg.ENG_CMD_WDOG 1) = w at hfault ⊢
  have hnoted : keptBut [.portion] w (noteStopped c (addPoison (.engine e h c.layer) w)) :=
    (keptBut_trans (addPoison_kept _ w) (noteStopped_kept c _)).mono (by decide)
  refine ⟨?_, ?_, ?_⟩
  · rw [getF_congr (hnoted .flds (by decide)), hfault.getF (by decide), getF_bump_self v rfl, getF_congr (htold .flds (by decide)),
      hput.getF (by decide)]
  · rw [hnoted .mem (by decide), hfault.parts .mem (by decide), bump_kept v _ _ .mem (by decide), htold .mem (by decide)]
  · exact (keptBut_trans (keptBut_trans (keptBut_trans (keptBut_trans hput.parts htold) (bump_kept v _ _)) hfault.parts) hnoted).mono
      (by decide)

/-! ### Completion (R121) -/

/-- The queue's first command reports its status at address `a` and leaves the queue to the rest. -/
def reportCmd (h : Half) (e : Engine) (a st : Nat) (rest : List EngCmd) (s : State) : State :=
  setEngQueue (storeLocal s a [st]) h e rest

theorem exec_engineCommandDone {s : State} {h : Half} {e : Engine} {c : EngCmd} {rest : List EngCmd} {st : Nat}
    (hq : engQueue s h e = c :: rest) (hst : c.status = some st) (latency : Nat) :
    exec (.engineCommandDone h e latency) s =
      .next (complete c.src .eng c.index latency (reportCmd h e (recBase h c.granule + 8) st rest s)) := by
  have hq' : engQueue (storeLocal s (recBase h c.granule + 8) [st]) h e = c :: rest := by
    obtain ⟨-, hk, -⟩ := storeLocal_spec s (recBase h c.granule + 8) [st]
    rw [engQueue_congr (hk .engQ (by decide)), hq]
  refine congrArg Host.Outcome.next ?_
  unfold engineDone
  rw [hq]
  dsimp only
  rw [hst]
  dsimp only
  rw [hq']
  rfl

/-- A byte stored alone reads back. -/
theorem rdByte_storeLocal_one (s : State) (a b : Nat) : rdByte (storeLocal s a [b]) a = b % 256 := by
  obtain ⟨hput, -⟩ := storeLocal_spec s a [b]
  rw [rdByte_congr (hput .mem (by decide)), rdByte_putBytes, if_pos (by simp), Nat.sub_self]
  rfl

theorem reportCmd_spec (h : Half) (e : Engine) (a st : Nat) (rest : List EngCmd) (s : State) :
    engQueue (reportCmd h e a st rest s) h e = rest ∧ rdByte (reportCmd h e a st rest s) a = st % 256 ∧
      memKept (within a 1) s (reportCmd h e a st rest s) ∧
      Touches [.engQ, .mem, .marks, .flds, .portion] storeKey s (reportCmd h e a st rest s) := by
  obtain ⟨-, hk, hr, hm⟩ := storeLocal_spec s a [st]
  exact ⟨engQueue_setEngQueue_self _ _ _ _, rdByte_storeLocal_one s a st, hm,
    .keep (.mono ⟨hk, hr⟩ (by decide) fun _ => id) (setEngQueue_kept _ _ _ _)⟩

/-- Settles O25: entry and denial by the one equation of a request and of a command's turn; the watchdog and the completion
each say what they change before the queue does. -/
theorem engineQueuesAndWatchdog : Obligations.EngineQueuesAndWatchdog := by
  refine ⟨fun s i e h granule hi => ⟨fun hroom => ?_, fun hfull => ?_⟩, fun s h chk ok c a ht hno => ?_, fun s h e c ho => ?_,
    fun s h e latency st c rest hq hst => ?_⟩
  · have hu : Issued s i (some .eng) (engIssued s i e) := issued_spec _ _ _ _ s
    have hqu : engQueue (engIssued s i e) = engQueue s := by
      obtain ⟨-, -, -, hk, -⟩ := hu
      exact engQueue_congr (hk .engQ (by decide))
    refine ⟨engIssued s i e, hu, _, exec_engRequest_room hi granule hroom, ?_, fun k d hne => ?_, engEnqueue_kept _ _ _ _⟩
    · rw [engQueue_engEnqueue_self, hqu]
    · rw [engQueue_engEnqueue_ne hne, hqu]
  · obtain ⟨hstall, -, hk, hr⟩ := stalled_spec i.core 1 s
    exact ⟨_, exec_engRequest_full hi granule hfull, hk .engQ (by decide), hstall, hk, hr⟩
  · have hk : keptBut [.portion] s (addPoison (.engine .iris h c.layer) (engStart s c)) :=
      (keptBut_trans (engStart_kept s c) (addPoison_kept _ _)).mono (by decide)
    have hclosed := keptBut_trans hk (closeTurn_kept h .iris ⟨addPoison (.engine .iris h c.layer) (engStart s c), 0x23⟩)
    refine ⟨_, congrArg Host.Outcome.next (runEngine_denied ht _ _ hno), ?_, hclosed .mem (by decide), hclosed .flds (by decide),
      hclosed.mono (by decide)⟩
    rw [engQueue_closeTurn, engQueue_congr (hk .engQ (by decide))]
  · obtain ⟨hcount, hmem, hk⟩ := stopCmd_spec h e c s
    have hclose := closeTurn_kept h e ⟨stopCmd h e c s, 0x31⟩
    refine ⟨_, exec_engineWatchdog ho, ?_, (getF_congr (hclose .flds (by decide)) _).trans hcount,
      (hclose .mem (by decide)).trans hmem, (keptBut_trans hk hclose).mono (by decide)⟩
    rw [engQueue_closeTurn, engQueue_congr (hk .engQ (by decide))]
  · obtain ⟨hqueue, hbyte, hm, hu⟩ := reportCmd_spec h e (recBase h c.granule + 8) st rest s
    rw [exec_engineCommandDone hq hst latency]
    generalize reportCmd h e (recBase h c.granule + 8) st rest s = u at hqueue hbyte hm hu ⊢
    obtain ⟨⟨_, _, hcore⟩, hoth, hk, hr, hmc⟩ := complete_spec c.src .eng c.index latency u
    have hcores := coreGet_congr (hu.parts .cores (by decide))
    rw [hu.sampleBytes] at hmc
    refine ⟨_, rfl, ?_, ?_, fun d hd => ?_, fun hout => ?_, memKept_trans hm hmc,
      (keptBut_trans hu.parts hk).mono (by decide), fun k d hf => ?_⟩
    · rw [engQueue_congr (hk .engQ (by decide)), hqueue]
    · rw [hcore, hcores]
    · rw [hoth d hd, hcores]
    · rw [hmc _ hout, hbyte]
    · rw [hr k d hf, hu.regs k d (issueKey_false hf).1]

end Sys2Proof.Machine
end

