-- ==== Sys2Proof/Proofs/TieredOperands.lean ====
section
/-!
SUPPORT. Proofs/TieredOperands.lean: an engine command whose operand a flash card serves. Its read is counted in the erase
block that holds the operand (R202), and that count is no part of the state that `engParts` lists.
-/
namespace Sys2Proof.Machine

/-! ### A granule that a flash card serves (R194, R202, R203) -/

/-- The granule lies in the tiered window, its extent is not resident but its card serves it, and it passes its code. -/
structure FlashServed (s : State) (g : Nat) : Prop where
  tier : inTier (g * 64) = true
  away : alGet s.extents (extentOf (g * 64)) = none
  card : servedFromCard s (extentOf (g * 64)) = true
  code : marked s g = false

theorem cacheTouch_away {x : Nat} {s : State} (h : alGet s.extents x = none) : cacheTouch x s = s := by
  unfold cacheTouch
  rw [h]

/-- R202: the read of the granule is counted in its erase block, and changes nothing else. -/
theorem readGranule_flash {r : ReadRes} {g : Nat} (h : FlashServed r.s g) (hu : r.unit = none) (hostOk : Bool) :
    readGranule [] hostOk r g = { r with s := countBlock g r.s, unit := some (unitOf g) } := by
  obtain ⟨htier, haway, hcard, hcode⟩ := h
  have hres : residentAt r.s (extentOf (g * 64)) = false := by rw [residentAt, haway]
  have htouch : cacheTouch (extentOf (g * 64)) (countBlock g r.s) = countBlock g r.s := cacheTouch_away haway
  have hcheck : checkOf (countBlock g r.s) [] g = .ok := by
    have : marked (countBlock g r.s) g = false := hcode
    rw [checkOf, this]
    rfl
  unfold readGranule
  simp [htier, hres, hcard, hu, htouch, hcheck]

theorem blockReads_countBlock_ne (g : Nat) (s : State) : (countBlock g s).blockReads ≠ s.blockReads := by
  intro h
  have hk := congrArg (smGet 0 · (extentCard (extentOf (g * 64)) * 2 ^ 32 + (Config.eraseBlock (unitOf g) s.fresh).toNat)) h
  unfold countBlock at hk
  dsimp only at hk
  rw [smGet_smSet_self] at hk
  omega

/-- An operand of one such granule. -/
theorem engInputs_flash {s : State} {a n g : Nat} (hg : granulesOf a n = [g]) (hb : bit a 63 = false)
    (hr : devReadOk s a n = true) (hs : FlashServed s g) (hostOk : Bool) : engInputs [] hostOk [(a, n)] s = ⟨countBlock g s, []⟩ := by
  have hread : devRead s a n [] hostOk = { s := countBlock g s, unit := some (unitOf g) } := by
    rw [devRead, hg, List.foldl_cons, readGranule_flash hs rfl]
    rfl
  rw [engInputs, List.foldl_cons, List.foldl_nil, engIn, hb, if_neg Bool.false_ne_true, if_pos hr, hread]
  simp

/-- A command that runs and reads such an operand leaves the count different. -/
theorem runEngine_blockReads_ne {s : State} {h : Half} {e : Engine} {op a g : Nat} {c : EngCmd} {ok : State → Nat → Bool}
    {eff : EngCmd → Nat → State → EngRes} {l : List Part} (ht : EngineTurn s h e op c a) (hok : ok s a = true)
    (heff : keptBut l (countBlock g (engStart s c)) (eff c a (engStart s c)).s) (hl : l.contains .blockReads = false)
    (deny : Nat → State → State) : (runEngine h e op ok deny eff s).blockReads ≠ s.blockReads := by
  have hclose := closeTurn_kept h e (eff c a (engStart s c)) .blockReads (by decide)
  have hstart := engStart_kept s c .blockReads (by decide)
  rw [runEngine_runs ht deny eff hok, hclose, heff .blockReads hl, ← hstart]
  exact blockReads_countBlock_ne g (engStart s c)

/-! ### What the commands change once their operands are read -/

theorem smEffect_max_kept {h : Half} {chk : List (Nat × Check)} {ok : Bool} {c : EngCmd} {a : Nat} {s u : State}
    (hp : (smRec s a).phase = 0) (hf : (smRec s a).first = true)
    (ho : engInputs chk ok [((smRec s a).src, 2 * (smRec s a).keys * (smRec s a).rows)] s = ⟨u, []⟩) :
    keptBut [.mem, .marks, .flds, .portion] u (smEffect h chk ok c a s).s := by
  unfold smEffect
  simp only [hp, hf, and_self, if_true, List.append_nil, ho]
  exact (engPutRuns_touches _ u).parts

theorem sampleEffect_kept {h : Half} {chk : List (Nat × Check)} {ok : Bool} {c : EngCmd} {a : Nat} {s u : State}
    (ho : engInputs chk ok [((popRec s a).logits, (if (popRec s a).fmt = 0 then 2 else 4) * (popRec s a).v)] s = ⟨u, []⟩) :
    keptBut [.fresh, .mem, .marks, .flds, .portion] u (sampleEffect h chk ok c a s).s := by
  have hdetect (v : State) : engDetect h .poppy c.layer [] v = v := rfl
  have hfresh : keptBut [.fresh] u (if (popRec s a).entropy then { u with fresh := u.fresh + 1 } else u) := by
    refine keptBut_ite (fun p hp => ?_) (keptBut_refl _ u)
    cases p with
    | fresh => exact absurd hp (by decide)
    | _ => rfl
  have hput (v : State) (bs : List Nat) (r : RetReq) :
      keptBut [.mem, .marks, .flds, .portion] v (keepReturn r (engPut v (popRec s a).out bs)) :=
    (keptBut_trans (engPut_touches v _ bs).parts (keepReturn_kept r _)).mono (by decide)
  unfold sampleEffect
  simp only [ho, hdetect]
  split
  · exact (keptBut_trans (keptBut_trans hfresh (keptBut_ite (addPoison_kept _ _) (keptBut_refl [.portion] _))) (hput _ _ _)).mono
      (by decide)
  · exact (keptBut_trans hfresh (hput _ _ _)).mono (by decide)

theorem holdExperts_kept (slot layer step : Nat) (es : List Nat) (s : State) :
    keptBut [.experts] s (holdExperts slot layer step es s) := by
  intro p hp
  cases p with
  | experts => exact absurd hp (by decide)
  | _ => rfl

/-- Experts are held and fetched and the layer's routing is kept, after the tables are stored. -/
theorem routed_kept {s u : State} (h : keptBut [.mem, .marks, .flds, .portion] s u) (r : RouteRec) (slot layer step : Nat)
    (wanted held : List Nat) : keptBut [.experts, .extents, .mem, .marks, .flds, .portion] s
      (keepRoute r (wanted.foldl (requestFetch slot layer) (holdExperts slot layer step held u))) := by
  have hheld := holdExperts_kept slot layer step held u
  have hfetch := foldl_kept wanted (holdExperts slot layer step held u) (requestFetch_kept slot layer)
  exact (keptBut_trans (keptBut_trans (keptBut_trans h hheld) hfetch) (setPortion_kept _ _)).mono (by decide)

theorem routeEffect_kept {h : Half} {chk : List (Nat × Check)} {ok : Bool} {c : EngCmd} {a : Nat} {s u : State}
    (hb : (routeRec s a).biasEn = false) (hv : (routeRec s a).validEn = false)
    (ho : engInputs chk ok [((routeRec s a).logits, rowStride (routeRec s a).e * (routeRec s a).t)] s = ⟨u, []⟩) :
    keptBut [.experts, .extents, .mem, .marks, .flds, .portion] u (routeEffect h chk ok c a s).s := by
  unfold routeEffect
  extract_lets r stride o s1 bias row slot out d s2 reached wanted s3 slots rec0 s4 fresh
  have hread : o = ⟨u, []⟩ := by
    rw [← ho]
    simp [o, r, stride, hb, hv]
  have h1 : s1 = u := by
    unfold s1
    rw [hread]
    rfl
  have h2 : keptBut [.mem, .marks, .flds, .portion] u s2 := by
    rw [← h1]
    exact (((engPut_touches s1 _ _).trans (engPut_touches _ _ _)).trans (engPut_touches _ _ _)).parts
  have h4 := routed_kept h2 rec0 slot c.layer (curStep s1) wanted reached
  exact keptBut_ite ((keptBut_trans h4 (addPoison_kept _ _)).mono (by decide)) h4

/-! ### A module with one such command -/

/-- A command of core 0 whose record stands at the start of the west commons. -/
def flashCmd : EngCmd := ⟨0, 0, 0, 0, false, none⟩

/-- The reset module with card 0 ACTIVE and one command of engine `e`, whose record holds the bytes `r`, by offset, and
zeros. -/
def flashSt (e : Engine) (r : List (Nat × BitVec 8)) : State :=
  { State.reset with
    flds := [(fldKey Reg.MEM_CARD0_STATE_STATE .a, 2)]
    mem := r.map fun x => (recBase .west 0 + x.1, x.2)
    engQ := [(engKey .west e, [flashCmd])] }

/-- The command is in its turn when its record names the operation and layer 0. -/
theorem flashSt_turn {e : Engine} {r : List (Nat × BitVec 8)} {op : Nat} (hop : rdByte (flashSt e r) (recBase .west 0) = op)
    (hlayer : rdLe (flashSt e r) (recBase .west 0 + 4) 2 = 0) : EngineTurn (flashSt e r) .west e op flashCmd (recBase .west 0) := by
  have hopen : firstOpen (engQueue (flashSt e r) .west e) = some flashCmd := by simp [engQueue, flashSt, smGet, firstOpen, flashCmd]
  have hcodes : anyMarked (flashSt e r) (recBase .west 0) 128 = false := List.any_eq_false.mpr fun _ _ => Bool.false_ne_true
  exact ⟨hopen, rfl, hop, hcodes, hlayer, nofun⟩

/-- The first granule of the tiered window. -/
def flashGranule : Nat := tierBase / 64

theorem flashSt_served (e : Engine) (r : List (Nat × BitVec 8)) : FlashServed (flashSt e r) flashGranule :=
  ⟨by decide, rfl, rfl, rfl⟩

theorem engInputs_flashSt (e : Engine) (r : List (Nat × BitVec 8)) (hostOk : Bool) {n : Nat}
    (hn : granulesOf tierBase n = [flashGranule]) :
    engInputs [] hostOk [(tierBase, n)] (flashSt e r) = ⟨countBlock flashGranule (flashSt e r), []⟩ :=
  engInputs_flash hn (by decide) (by rw [devReadOk, hn]; rfl) (flashSt_served e r) hostOk

/-- The record of SOFTMAX MAX of one row of 32 keys in the first granule of the tiered window, with no earlier state. -/
def flashMaxRec : List (Nat × BitVec 8) := [(0, 1), (16, 0x80), (20, 32), (45, 1), (66, 1)]

/-- Refutes O22: keys on a flash card are read from it, which counts a read of their erase block (R202), and no part of
the state that an engine command may change holds that count. -/
theorem not_irisAndCrocusCommands : ¬ Obligations.IrisAndCrocusCommands := by
  intro hall
  have hturn := flashSt_turn (e := .iris) (r := flashMaxRec) (op := 1) (by decide) (by decide)
  have hok : smOk (flashSt .iris flashMaxRec) (recBase .west 0) = true := by decide
  have hread := engInputs_flashSt .iris flashMaxRec true (n := 64) (by decide)
  obtain ⟨hsoftmax, -⟩ := hall (flashSt .iris flashMaxRec) .west [] true flashCmd (recBase .west 0)
  obtain ⟨hmax, -⟩ := hsoftmax hturn hok
  obtain ⟨t, ht, -, -, hk⟩ := hmax (by decide) (congrArg Opnd.bad hread) (by simp)
  obtain rfl := Host.Outcome.next.inj ht
  exact runEngine_blockReads_ne hturn hok (smEffect_max_kept (by decide) (by decide) hread) (by decide) _ (hk .blockReads (by decide))

/-- The record of SAMPLE of one logit in the first granule of the tiered window, at temperature 0. -/
def flashSampleRec : List (Nat × BitVec 8) := [(0, 1), (28, 1), (45, 1)]

/-- Refutes O23: logits on a flash card are read from it, which counts a read of their erase block (R202), and no part of
the state that SAMPLE may change holds that count. -/
theorem not_poppyAndDahliaCommands : ¬ Obligations.PoppyAndDahliaCommands := by
  intro hall
  have hturn := flashSt_turn (e := .poppy) (r := flashSampleRec) (op := 1) (by decide) (by decide)
  have hok : popOk false (flashSt .poppy flashSampleRec) (recBase .west 0) = true := by decide
  have hread := engInputs_flashSt .poppy flashSampleRec true (n := 2) (by decide)
  obtain ⟨hsample, -⟩ := hall (flashSt .poppy flashSampleRec) .west [] true flashCmd (recBase .west 0)
  obtain ⟨t, ht, -, -, -, hk⟩ := hsample hturn hok 0 (congrArg Opnd.bad hread) (by decide)
  obtain rfl := Host.Outcome.next.inj ht
  exact runEngine_blockReads_ne hturn hok (sampleEffect_kept hread) (by decide) _ (hk .blockReads (by decide))

/-- The record of ROUTE of one row to one expert, its logit in the first granule of the tiered window. -/
def flashRouteRec : List (Nat × BitVec 8) := [(0, 1), (16, 1), (18, 16), (19, 2), (20, 1), (24, 1), (37, 1)]

/-- Refutes O24: logits on a flash card are read from it, which counts a read of their erase block (R202), and no part of
the state that ROUTE may change holds that count. -/
theorem not_latticeAndAsterCommands : ¬ Obligations.LatticeAndAsterCommands := by
  intro hall
  have hturn := flashSt_turn (e := .aster) (r := flashRouteRec) (op := 1) (by decide) (by decide)
  have hok : routeOk (flashSt .aster flashRouteRec) (recBase .west 0) = true := by decide
  have hread := engInputs_flashSt .aster flashRouteRec true (n := 64) (by decide)
  obtain ⟨-, hroute⟩ := hall (flashSt .aster flashRouteRec) .west [] true flashCmd (recBase .west 0)
  obtain ⟨t, ht, -, -, -, hk⟩ := hroute hturn hok (congrArg Opnd.bad hread) (by decide)
  obtain rfl := Host.Outcome.next.inj ht
  exact runEngine_blockReads_ne hturn hok (routeEffect_kept (by decide) (by decide) hread) (by decide) _ (hk .blockReads (by decide))

end Sys2Proof.Machine
end

