-- ==== Sys2Proof/Proofs/ExpertRouting.lean ====
section
/-!
SUPPORT. Proofs/ExpertRouting.lean: extents that arrive, are freed and are rebuilt, and the promotion of hot experts (R157, R158, R161,
R199, R204).
-/
namespace Sys2Proof.Machine

/-! ### One extent -/

variable {s : State} {x : Nat} {e : Extent}

theorem setExtent_kept (s : State) (x : Nat) (e : Extent) : keptBut [.extents] s (setExtent s x e) := by
  intro p hp
  cases p with
  | extents => exact absurd hp (by decide)
  | _ => rfl

theorem expertFollow_kept (s : State) : keptBut [.experts] s (expertFollow s) := by
  intro p hp
  cases p with
  | experts => exact absurd hp (by decide)
  | _ => rfl

theorem alGet_setExtent_self (s : State) (x : Nat) (e : Extent) : alGet (setExtent s x e).extents x = some e := alGet_alSet_self

theorem alGet_setExtent_ne {y : Nat} (h : y ≠ x) : alGet (setExtent s x e).extents y = alGet s.extents y := alGet_alSet_ne h

/-! ### The end of a fetch (R157, R158, R199) -/

theorem exec_extentFetchDone_ok (hx : alGet s.extents x = some e) (hf : e.state = .fetching) :
    exec (.extentFetchDone x true) s = .next (expertFollow (setExtent s x { e with state := .resident })) := by
  refine congrArg Host.Outcome.next ?_
  simp only [hx, hf, if_true]

theorem exec_extentFetchDone_failed (hx : alGet s.extents x = some e) (hf : e.state = .fetching) :
    exec (.extentFetchDone x false) s = .next (addPoison (.extent x) (setExtent s x { e with state := .flash })) := by
  refine congrArg Host.Outcome.next ?_
  simp only [hx, hf, if_true, Bool.false_eq_true, if_false]

/-- Log entry 8: an extent that is not being fetched has no fetch to end. -/
theorem exec_extentFetchDone_idle (hx : alGet s.extents x = some e) (hf : e.state ≠ .fetching) (ok : Bool) :
    exec (.extentFetchDone x ok) s = .next s := by
  refine congrArg Host.Outcome.next ?_
  simp only [hx, hf, if_false]

/-! ### A frame that is freed (R199) -/

theorem exec_frameRelease (hx : alGet s.extents x = some e) :
    exec (.frameRelease x) s = .next (if e.draining then setExtent s x { e with draining := false } else s) := by
  refine congrArg Host.Outcome.next ?_
  simp only [hx]

/-! ### An extent rewritten from its host copy (R204) -/

theorem setCard_same {n st : Nat} (h : getF s (cardState n) = st) : setCard n st s = s := if_pos h

/-- The card is REBUILDING already and stays so; the host read is counted. -/
theorem exec_extentRebuilt_host {ok : Bool} (hx : alGet s.extents x = some e) (hst : getF s (cardState (extentCard x)) = 3)
    (hcard : e.onCard = false) (himg : isImageExtent x = false) (hcopy : hostCopy s x ok = true) (failing : List Nat) :
    exec (.extentRebuilt x ok failing) s = .next (bump (setExtent s x { e with onCard := true }) Reg.MEM_HOST_FETCH 128) := by
  have hsame : setCard (extentCard x) 3 (setExtent s x { e with onCard := true }) = setExtent s x { e with onCard := true } :=
    setCard_same hst
  refine congrArg Host.Outcome.next ?_
  simp only [hx, hst, hcard, himg, hcopy, hsame, or_true, Bool.not_false, and_self, if_true, Bool.false_eq_true, if_false]

/-! ### Promotion at a boundary (R161) -/

section
variable {i : ImageDesc}

theorem exec_expertPromotion_off (hi : s.img = some i) (h : i.heat.every = 0 ∨ s.boundaries % i.heat.every ≠ 0 ∨ s.boundaries = 0) :
    exec .expertPromotion s = .next s := by
  refine congrArg Host.Outcome.next ?_
  simp only [hi]
  exact if_pos h

theorem exec_expertPromotion_due (hi : s.img = some i) (hpos : 0 < i.heat.every) (hmod : s.boundaries % i.heat.every = 0)
    (hb : 0 < s.boundaries) :
    exec .expertPromotion s =
      .next (promoteFrom i.heat.hyst i.heat.maxFetch (sortBy hotBefore (s.experts.filter fun x => x.res == .flash)) s) := by
  refine congrArg Host.Outcome.next ?_
  simp only [hi]
  exact if_neg (by omega)

/-- MAX_FETCH is 1 and the budget has room for the hottest candidate. -/
theorem promoteFrom_one_room {hyst : Nat} {c : ExpertSt} {rest : List ExpertSt}
    (h : expertFramesUsed s + c.extents.length ≤ expertBudget s) : promoteFrom hyst 1 (c :: rest) s = startFetch c s := by
  rw [promoteFrom, if_pos h, promoteFrom]

/-- MAX_FETCH is 1 and the hottest candidate takes a victim's place if it is hotter by more than HYST. -/
theorem promoteFrom_one_victim {hyst : Nat} {c v : ExpertSt} {rest : List ExpertSt}
    (h : expertBudget s < expertFramesUsed s + c.extents.length) (hv : victim s c.slot = some v) :
    promoteFrom hyst 1 (c :: rest) s = if v.heat + hyst < c.heat then startFetch c (demoteExpert v s) else s := by
  rw [promoteFrom, if_neg (Nat.not_le.mpr h), hv]
  simp only [promoteFrom]

end

/-- Settles O28: each command by what the extent, its card and the boundary are; what it changes by the operations it is made of. -/
theorem extentsExpertsAndFrames : Obligations.ExtentsExpertsAndFrames := by
  refine ⟨fun s x e hx => ⟨fun hf => ⟨?_, ?_⟩, exec_extentFetchDone_idle hx, fun hd => ?_, fun hd => ?_,
    fun ok failing hst hcard himg hcopy => ?_⟩, fun s i hi => ⟨exec_expertPromotion_off hi, ?_, ?_⟩⟩
  · exact ⟨_, exec_extentFetchDone_ok hx hf, alGet_setExtent_self _ _ _, fun y hy => alGet_setExtent_ne hy, rfl,
      (keptBut_trans (setExtent_kept _ _ _) (expertFollow_kept _)).mono (by decide)⟩
  · exact ⟨_, exec_extentFetchDone_failed hx hf, alGet_setExtent_self _ _ _, rfl,
      (keptBut_trans (setExtent_kept _ _ _) (addPoison_kept _ _)).mono (by decide)⟩
  · rw [exec_frameRelease hx, if_pos hd, setExtent]
  · rw [exec_frameRelease hx, if_neg (by simp [hd])]
  · exact ⟨_, exec_extentRebuilt_host hx hst hcard himg hcopy failing, alGet_setExtent_self _ _ _, fun y hy => alGet_setExtent_ne hy,
      getF_bump_self _ rfl _, (keptBut_trans (setExtent_kept _ _ _) (bump_kept _ _ _)).mono (by decide)⟩
  · intro c rest hpos hmod hb hmax hsort hroom
    rw [exec_expertPromotion_due hi hpos hmod hb, hmax, hsort, promoteFrom_one_room hroom]
  · intro c rest v hpos hmod hb hmax hsort hfull hv
    rw [exec_expertPromotion_due hi hpos hmod hb, hmax, hsort, promoteFrom_one_victim hfull hv]

end Sys2Proof.Machine
end

