-- ==== Sys2Proof/Proofs/HostRings.lean ====
section
/-!
SUPPORT. Proofs/HostRings.lean: the enables and tails of the rings, the step counter's origin, and the selectors of a tenant and of a
lease (R15, R164, R191, R242, R248, R260, R267, R269, R273, R458).
-/
namespace Sys2Proof.Machine

/-! ### Fields of one port written one after another -/

/-- Each field of the list is written its value in the port's copy, in order. -/
def setPort (p : Port) (s : State) (ws : List (Fld × Nat)) : State := ws.foldl (fun t w => setP t p w.1 w.2) s

section
variable {s : State} {p : Port} {ws : List (Fld × Nat)}

theorem flds_setPort_ne {k d : Nat} (h : ∀ w ∈ ws, k ≠ fldKey w.1 p) : smGet d (setPort p s ws).flds k = smGet d s.flds k := by
  induction ws generalizing s with
  | nil => rfl
  | cons w ws ih => exact (ih fun x hx => h x (List.mem_cons_of_mem _ hx)).trans (flds_setP_ne (h w List.mem_cons_self))

/-- Fields with keys of their own read what each was written. -/
theorem getP_setPort (h : ((ws.map Prod.fst).map fun f => fldKey f p).Nodup) :
    ∀ w ∈ ws, getP (setPort p s ws) p w.1 = w.2 % 2 ^ w.1.len := by
  induction ws generalizing s with
  | nil => nofun
  | cons w ws ih =>
    obtain ⟨hfst, hrest⟩ := List.nodup_cons.mp h
    refine List.forall_mem_cons.mpr ⟨?_, ih hrest⟩
    have hne : ∀ x ∈ ws, fldKey w.1 p ≠ fldKey x.1 p := fun x hx e =>
      hfst (List.mem_map.mpr ⟨x.1, List.mem_map_of_mem hx, e.symm⟩)
    exact (flds_setPort_ne hne).trans (getP_setP_self s p w.1 w.2)

theorem regsKept_setPort (p : Port) (s : State) (ws : List (Fld × Nat)) :
    regsKept (fun k => (ws.map Prod.fst).any fun f => fldKey f p == k) s (setPort p s ws) := by
  refine fun k d hk => flds_setPort_ne fun w hw e => ?_
  exact ne_of_beq_false (Bool.eq_false_of_not_eq_true (List.any_eq_false.mp hk w.1 (List.mem_map_of_mem hw))) e.symm

/-- The registers of port A's copies, in the words of `oneOf`. -/
theorem regsKept_setPort_oneOf (s : State) (ws : List (Fld × Nat)) : regsKept (oneOf (ws.map Prod.fst)) s (setPort .a s ws) := by
  refine regsKept_mono (regsKept_setPort .a s ws) fun k hk => List.any_eq_false.mpr fun f hf => ?_
  simpa using (oneOf_false hk hf).symm

theorem setPort_kept (p : Port) (s : State) (ws : List (Fld × Nat)) : keptBut [.flds] s (setPort p s ws) :=
  foldl_kept _ _ fun _ _ => setP_kept _ _ _ _

end

theorem b2n_mod_two (b : Bool) : b2n b % 2 ^ 1 = b2n b := by cases b <;> rfl

theorem getB_of_getF {t : State} {f : Fld} {b : Bool} (h : getF t f = b2n b % 2 ^ f.len) (hl : f.len = 1) : getB t f = b := by
  rw [getB, h, hl]
  cases b <;> rfl

/-! ### Enables and tails of the submission and completion rings (R242, R248, R267, R269, R273) -/

section
variable {s : State} {p : Port} {en : Fld} {on : Bool} {start : State → State}

theorem enableRing_level (h : on = false ∨ getP s p en = 1) : enableRing p en on start s = setP s p en (b2n on) :=
  if_neg (by obtain rfl | h := h <;> simp [*])

theorem enableRing_rise (h : getP s p en ≠ 1) :
    enableRing p en true start s = start (setP (setP s p en 1) p Reg.CTX_RING_CTL_PORT_LOST 0) :=
  if_pos (by simp [h])

end

def ringEnFld (be : Bool) : Fld := if be then Reg.CTX_RING_CTL_BE_EN else Reg.CTX_RING_CTL_LC_EN

/-- What enabling a submission ring writes. -/
def ringStart (be : Bool) : List (Fld × Nat) :=
  [(ringEnFld be, 1), (Reg.CTX_RING_CTL_PORT_LOST, 0), (consFld be, 0), (phaseFld be, 1)]

theorem ringStart_nodup (be : Bool) (p : Port) : (((ringStart be).map Prod.fst).map fun f => fldKey f p).Nodup := by
  cases be <;> cases p <;> decide

/-- The ring's head is as after a reset: no entry consumed, no descriptor seen. -/
def startHead (p : Port) (be : Bool) (s : State) : State :=
  setHead p be {} { s with ctl.consumed := smSet 0 s.ctl.consumed (headKey p be) 0 }

section
variable (p : Port) (be : Bool) (s : State)

theorem consumed_startHead : smGet 0 (startHead p be s).ctl.consumed (headKey p be) = 0 := by simp [startHead, setHead]

theorem headSt_startHead_self : headSt (startHead p be s) p be = {} := by simp [headSt, startHead, setHead]

theorem headSt_startHead_ne {q : Port} {b : Bool} (h : headKey q b ≠ headKey p be) :
    headSt (startHead p be s) q b = headSt s q b := by simp [headSt, startHead, setHead, alGet_alSet_ne h]

theorem getP_startHead (q : Port) (f : Fld) : getP (startHead p be s) q f = getP s q f := rfl

theorem startHead_kept : keptBut [.ctl] s (startHead p be s) := by
  intro q hq
  cases q with
  | ctl => exact absurd hq (by decide)
  | _ => rfl

end

theorem getP_startHead_ringStart (p : Port) (be : Bool) (s : State) :
    getP (startHead p be (setPort p s (ringStart be))) p (ringEnFld be) = 1 ∧
    getP (startHead p be (setPort p s (ringStart be))) p Reg.CTX_RING_CTL_PORT_LOST = 0 ∧
    getP (startHead p be (setPort p s (ringStart be))) p (consFld be) = 0 ∧
    getP (startHead p be (setPort p s (ringStart be))) p (phaseFld be) = 1 := by
  have hw := getP_setPort (s := s) (ringStart_nodup be p)
  obtain ⟨hen, hlost, hcons, hphase, -⟩ := by simpa only [ringStart, List.forall_mem_cons] using hw
  simp only [getP_startHead]
  cases be <;> exact ⟨hen, hlost, hcons, hphase⟩

/-- No record of the port is held, so there is none to write. -/
theorem cplFlush_of_none {s : State} {p : Port} (h : ∀ r ∈ s.cplHeld, r.port ≠ p) (n : Nat) : cplFlush p n s = s := by
  cases n with
  | zero => rfl
  | succ n =>
    have hfind : s.cplHeld.find? (fun r => r.port == p) = none := List.find?_eq_none.mpr fun r hr => by simpa using h r hr
    rw [cplFlush, hfind]

/-- What enabling the completion ring writes. -/
def cplStart : List (Fld × Nat) :=
  [(Reg.CTX_RING_CTL_CPL_EN, 1), (Reg.CTX_RING_CTL_PORT_LOST, 0), (Reg.CTX_CPL_HEAD_INDEX, 0), (Reg.CTX_CPL_TAIL_INDEX, 0)]

theorem cplStart_nodup (p : Port) : ((cplStart.map Prod.fst).map fun f => fldKey f p).Nodup := by
  cases p <;> decide

theorem getP_cplStart (p : Port) (s : State) : getP (setPort p s cplStart) p Reg.CTX_RING_CTL_CPL_EN = 1 ∧
    getP (setPort p s cplStart) p Reg.CTX_CPL_HEAD_INDEX = 0 ∧ getP (setPort p s cplStart) p Reg.CTX_CPL_TAIL_INDEX = 0 := by
  have hw := getP_setPort (s := s) (cplStart_nodup p)
  obtain ⟨hen, -, hhead, htail, -⟩ := by simpa only [cplStart, List.forall_mem_cons] using hw
  exact ⟨hen, hhead, htail⟩

section
variable {s : State} (ha : stageAlive s = true)
include ha

theorem exec_submissionEnable (p : Port) (on be : Bool) :
    exec (if be then .beRingEnable p on else .lcRingEnable p on) s = .next (enableRing p (ringEnFld be) on (startRing p be) s) := by
  cases be <;> exact congrArg Host.Outcome.next (viaPf0_alive ha p _)

theorem exec_submissionEnable_rise {p : Port} {be : Bool} (h : getP s p (ringEnFld be) ≠ 1) :
    exec (if be then .beRingEnable p true else .lcRingEnable p true) s = .next (startHead p be (setPort p s (ringStart be))) := by
  rw [exec_submissionEnable ha, enableRing_rise h]
  rfl

theorem exec_cplEnable (p : Port) (on : Bool) :
    exec (.cplEnable p on) s = .next (enableRing p Reg.CTX_RING_CTL_CPL_EN on (startCpl p) s) :=
  congrArg Host.Outcome.next (viaPf0_alive ha p _)

theorem exec_cplEnable_rise {p : Port} (held : ∀ r ∈ s.cplHeld, r.port ≠ p) (h : getP s p Reg.CTX_RING_CTL_CPL_EN ≠ 1) :
    exec (.cplEnable p true) s = .next (setPort p s cplStart) := by
  rw [exec_cplEnable ha, enableRing_rise h]
  exact congrArg Host.Outcome.next (cplFlush_of_none (s := setPort p s cplStart) held _)

theorem exec_cplTailWrite {p : Port} (held : ∀ r ∈ s.cplHeld, r.port ≠ p) (v : BitVec 32) :
    exec (.cplTailWrite p v) s =
      .next (if tailOk s p (v.toNat % 2 ^ 17) then setP s p Reg.CTX_CPL_TAIL_INDEX (v.toNat % 2 ^ 17) else s) := by
  refine congrArg Host.Outcome.next ((viaPf0_alive ha p _).trans ?_)
  dsimp only
  rw [cplFlush_of_none (s := setP s p Reg.CTX_CPL_TAIL_INDEX _) held]

end

/-! ### The rings of R164 -/

/-- What setting EN of a ring from 0 writes; `sized` where the ring has a size. -/
def ringRise (r : Ring) (sized : Bool) : List (Fld × Nat) := [(r.en, 1), (r.head, 0), (r.tail, 0), (r.enabled, b2n sized)]

/-- What any other write of EN writes. -/
def ringLevel (r : Ring) (en sized : Bool) : List (Fld × Nat) := [(r.en, b2n en), (r.enabled, b2n (en && sized))]

section
variable {s : State} {r : Ring} {en : Bool} {v : Nat}

theorem ringEnable_rise (h : getB s r.en = false) :
    ringEnable r true s = setRingOffsets (setPort .a s (ringRise r (decide (0 < getF s r.size)))) r [] := by
  simp only [ringEnable, h]
  rfl

theorem ringEnable_level (h : en = false ∨ getB s r.en = true) :
    ringEnable r en s = setPort .a s (ringLevel r en (decide (0 < getF s r.size))) := by
  have hw : (en && !getB s r.en) = false := by obtain rfl | h := h <;> simp [*]
  simp only [ringEnable, hw]
  rfl

theorem ringTail_discarded (h : v % 64 ≠ 0 ∨ v ≠ getF s r.head ∧ v ∉ ringOffsets s r) : ringTail r v s = s :=
  if_neg (by tauto)

/-- TAIL takes HEAD: every record is consumed. -/
theorem ringTail_head (h : v % 64 = 0) (hv : v = getF s r.head) : ringTail r v s = setRingOffsets (setF s r.tail v) r [] := by
  refine (if_pos ⟨h, .inl hv⟩).trans ?_
  rw [if_pos hv]

/-- TAIL takes a record's boundary: the records before it are consumed. -/
theorem ringTail_record {a b : List Nat} (h : v % 64 = 0) (hv : v ≠ getF s r.head) (ha : v ∉ a) (hl : ringOffsets s r = a ++ v :: b) :
    ringTail r v s = setRingOffsets (setF s r.tail v) r (v :: b) := by
  have hdrop : (a ++ v :: b).dropWhile (· != v) = v :: b := by
    rw [List.dropWhile_append_of_pos fun x hx => by simpa using ne_of_mem_of_not_mem hx ha]
    exact List.dropWhile_cons_of_neg (by simp)
  refine (if_pos ⟨h, .inr (by simp [hl])⟩).trans ?_
  rw [if_neg hv, hl, hdrop]

theorem ringOffsets_setRingOffsets (s : State) (r : Ring) (l : List Nat) : ringOffsets (setRingOffsets s r l) r = l :=
  smGet_smSet_self

theorem regs_ringOffsets_kept {s t : State} (h : keptBut [.flds] s t) (r : Ring) (l : List Nat) :
    keptBut [.flds, .ringRecs] s (setRingOffsets t r l) :=
  keptBut_trans h (setRingOffsets_kept t r l)

theorem regsKept_setF (s : State) (f : Fld) (v : Nat) : regsKept (oneOf [f]) s (setF s f v) :=
  regsKept_setPort_oneOf s [(f, v)]

end

theorem ringRise_nodup : ∀ n : Fin 3,
    ([(ringOf n).en, (ringOf n).head, (ringOf n).tail, (ringOf n).enabled].map fun f => fldKey f .a).Nodup := by decide

theorem ringLevel_nodup : ∀ n : Fin 3, ([(ringOf n).en, (ringOf n).enabled].map fun f => fldKey f .a).Nodup := by decide

theorem ringOf_flags : ∀ n : Fin 3, (ringOf n).en.len = 1 ∧ (ringOf n).enabled.len = 1 := by decide

/-- HEAD and TAIL are no fields that a write of EN at its level touches. -/
theorem ringLevel_ends : ∀ n : Fin 3, oneOf [(ringOf n).en, (ringOf n).enabled] (fldKey (ringOf n).head .a) = false ∧
    oneOf [(ringOf n).en, (ringOf n).enabled] (fldKey (ringOf n).tail .a) = false := by decide

section
variable (s : State) (n : Fin 3) (en sized : Bool)

theorem getB_ringRise : getB (setPort .a s (ringRise (ringOf n) sized)) (ringOf n).en = true ∧
    getB (setPort .a s (ringRise (ringOf n) sized)) (ringOf n).enabled = sized := by
  obtain ⟨hlen, hlenabled⟩ := ringOf_flags n
  have hw := getP_setPort (s := s) (ws := ringRise (ringOf n) sized) (ringRise_nodup n)
  obtain ⟨hen, -, -, henabled, -⟩ := by simpa only [ringRise, List.forall_mem_cons] using hw
  exact ⟨getB_of_getF (b := true) hen hlen, getB_of_getF henabled hlenabled⟩

theorem getF_ringRise : getF (setPort .a s (ringRise (ringOf n) sized)) (ringOf n).head = 0 ∧
    getF (setPort .a s (ringRise (ringOf n) sized)) (ringOf n).tail = 0 := by
  have hw := getP_setPort (s := s) (ws := ringRise (ringOf n) sized) (ringRise_nodup n)
  obtain ⟨-, hhead, htail, -⟩ := by simpa only [ringRise, List.forall_mem_cons, Nat.zero_mod] using hw
  exact ⟨hhead, htail⟩

theorem getB_ringLevel : getB (setPort .a s (ringLevel (ringOf n) en sized)) (ringOf n).en = en ∧
    getB (setPort .a s (ringLevel (ringOf n) en sized)) (ringOf n).enabled = (en && sized) := by
  obtain ⟨hlen, hlenabled⟩ := ringOf_flags n
  have hw := getP_setPort (s := s) (ws := ringLevel (ringOf n) en sized) (ringLevel_nodup n)
  obtain ⟨hen, henabled, -⟩ := by simpa only [ringLevel, List.forall_mem_cons] using hw
  exact ⟨getB_of_getF hen hlen, getB_of_getF henabled hlenabled⟩

theorem getF_ringLevel : getF (setPort .a s (ringLevel (ringOf n) en sized)) (ringOf n).head = getF s (ringOf n).head ∧
    getF (setPort .a s (ringLevel (ringOf n) en sized)) (ringOf n).tail = getF s (ringOf n).tail := by
  obtain ⟨hhead, htail⟩ := ringLevel_ends n
  have hregs := regsKept_setPort_oneOf s (ringLevel (ringOf n) en sized)
  exact ⟨hregs _ _ hhead, hregs _ _ htail⟩

end

section
variable {s : State} (ha : stageAlive s = true)
include ha

theorem exec_ringEnable (p : Port) (n : Fin 3) (en : Bool) :
    exec (.ringEnable p n en) s = .next (ringEnable (ringOf n) en s) := congrArg Host.Outcome.next (viaPf0_alive ha p _)

theorem exec_ringTailWrite (p : Port) (n : Fin 3) (v : BitVec 32) :
    exec (.ringTailWrite p n v) s = .next (ringTail (ringOf n) v.toNat s) := congrArg Host.Outcome.next (viaPf0_alive ha p _)

end

/-! ### The step counter's origin (R15, R260) -/

/-- What a write of CTX_STEP_ORIGIN_HI writes, `lo` the other half. -/
def originWrites (lo v : Nat) : List (Fld × Nat) := [(Reg.CTX_STEP_ORIGIN_HI, v), (Reg.CTX_STEP_NEXT, lo + v * 2 ^ 32)]

theorem originWrites_nodup : ([Reg.CTX_STEP_ORIGIN_HI, Reg.CTX_STEP_NEXT].map fun f => fldKey f .a).Nodup := by decide

section
variable {s : State} (ha : stageAlive s = true)
include ha

theorem exec_stepOriginWrite_discarded (h : getB s Reg.CTX_LOCK_LOCK = true ∨ s.ctxs ≠ []) (p : Port) (v : BitVec 32) :
    exec (.stepOriginWrite p v) s = .next s := by
  refine congrArg Host.Outcome.next ((viaPf0_alive ha p _).trans (if_pos ?_))
  simpa using h

theorem exec_stepOriginWrite (hl : getB s Reg.CTX_LOCK_LOCK = false) (hc : s.ctxs = []) (p : Port) (v : BitVec 32) :
    exec (.stepOriginWrite p v) s = .next (setPort .a s (originWrites (getF s Reg.CTX_STEP_ORIGIN_LO) v.toNat)) := by
  have hhi : getF (setF s Reg.CTX_STEP_ORIGIN_HI v.toNat) Reg.CTX_STEP_ORIGIN_HI = v.toNat :=
    (getF_setF_self _ _ _).trans (Nat.mod_eq_of_lt v.isLt)
  have hlo : getF (setF s Reg.CTX_STEP_ORIGIN_HI v.toNat) Reg.CTX_STEP_ORIGIN_LO = getF s Reg.CTX_STEP_ORIGIN_LO :=
    getF_setF_ne (by decide)
  refine congrArg Host.Outcome.next ((viaPf0_alive ha p _).trans ((if_neg (by simp [hl, hc])).trans ?_))
  dsimp only
  rw [hhi, hlo]
  rfl

end

/-! ### Selectors of a tenant and of a lease (R191, R458) -/

/-- What selecting a tenant writes. -/
def tenantWrites (slot lease valid overQuota quota used archived : Nat) : List (Fld × Nat) :=
  [(Reg.ENG_KV_TSEL_SLOT, slot), (Reg.ENG_KV_TENANT_LEASE, lease), (Reg.ENG_KV_TENANT_VALID, valid), (Reg.ENG_KV_TENANT_OVER, overQuota),
   (Reg.ENG_KV_QUOTA, quota), (Reg.ENG_KV_USED, used), (Reg.ENG_KV_ARCHIVED, archived)]

theorem tenantWrites_nodup (p : Port) : ([Reg.ENG_KV_TSEL_SLOT, Reg.ENG_KV_TENANT_LEASE, Reg.ENG_KV_TENANT_VALID,
    Reg.ENG_KV_TENANT_OVER, Reg.ENG_KV_QUOTA, Reg.ENG_KV_USED, Reg.ENG_KV_ARCHIVED].map fun f => fldKey f p).Nodup := by
  cases p <;> decide

/-- What selecting a lease writes. -/
def leaseWrites (slot : Nat) (l : Lease) : List (Fld × Nat) :=
  [(Reg.SEC_LSEL_SLOT, slot), (Reg.SEC_LEASE_INFO_LEASE, l.lease), (Reg.SEC_LEASE_INFO_IDE_REQUIRED, b2n l.ide),
   (Reg.SEC_LEASE_INFO_END_PENDING, b2n (l.endStep.isSome && l.st != 3)), (Reg.SEC_ADOPT_SEQ, l.adoptSeq),
   (Reg.SEC_LEASE_END, l.endStep.getD (2 ^ 64 - 1))]

theorem leaseWrites_nodup (p : Port) : ([Reg.SEC_LSEL_SLOT, Reg.SEC_LEASE_INFO_LEASE, Reg.SEC_LEASE_INFO_IDE_REQUIRED,
    Reg.SEC_LEASE_INFO_END_PENDING, Reg.SEC_ADOPT_SEQ, Reg.SEC_LEASE_END].map fun f => fldKey f p).Nodup := by
  cases p <;> decide

section
variable {s : State} (ha : stageAlive s = true)
include ha

theorem exec_tenantSelect {slot : Fin 16} {a b c d e f : Nat} (hsnap : alGet s.ctl.kvSnap slot = some [a, b, c, d, e, f]) (p : Port) :
    exec (.tenantSelect p slot) s = .next (setPort p s (tenantWrites slot a b c d e f)) := by
  refine congrArg Host.Outcome.next ((viaPf0_alive ha p _).trans ?_)
  dsimp only
  rw [hsnap]
  rfl

theorem exec_leaseSelect {slot : Fin 16} {l : Lease} (hl : s.sec.ks.leases[slot.val]? = some l) (p : Port) :
    exec (.leaseSelect p slot) s = .next (setPort p s (leaseWrites slot l)) := by
  refine congrArg Host.Outcome.next ((viaPf0_alive ha p _).trans ?_)
  dsimp only [leaseWrites]
  rw [List.getD_eq_getElem?_getD, hl, Option.getD_some]
  cases l.endStep <;> rfl

end

/-- Settles O34: each command writes fields with keys of their own, so each reads what it was written and nothing else is changed. -/
theorem hostRingAndSelectorRegisters : Obligations.HostRingAndSelectorRegisters := by
  refine ⟨⟨fun s p on be ha => ?_, fun s p on v ha held => ⟨?_, exec_cplTailWrite ha held v⟩, fun s p n en ha => ?_,
    fun s p n v ha => ?_⟩, fun s p v ha => ⟨fun h => exec_stepOriginWrite_discarded ha h p v, fun hl hc => ?_⟩,
    fun s p slot a b c d e f ha => ⟨fun hsnap => ?_, fun l hl => ?_⟩⟩
  · refine ⟨fun h => ?_, fun hon h => ?_⟩
    · exact (exec_submissionEnable ha p on be).trans (congrArg _ (enableRing_level h))
    · subst hon
      obtain ⟨hen, hlost, hcons, hphase⟩ := getP_startHead_ringStart p be s
      exact ⟨_, exec_submissionEnable_rise ha h, hen, hlost, hcons, hphase, consumed_startHead p be _, headSt_startHead_self p be _,
        fun q b hq => headSt_startHead_ne p be _ hq, regsKept_setPort p s (ringStart be),
        keptBut_trans (setPort_kept p s _) (startHead_kept p be _)⟩
  · by_cases h : on = false ∨ getP s p Reg.CTX_RING_CTL_CPL_EN = 1
    · exact ⟨_, (exec_cplEnable ha p on).trans (congrArg _ (enableRing_level h)), (getP_setP_self _ _ _ _).trans (b2n_mod_two on),
        fun hon hen => absurd h (by simp [hon, hen]), fun _ => rfl, setP_kept _ _ _ _⟩
    · obtain ⟨hon, hen⟩ := not_or.mp h
      obtain rfl := Bool.eq_true_of_not_eq_false hon
      obtain ⟨hcpl, hends⟩ := getP_cplStart p s
      exact ⟨_, exec_cplEnable_rise ha held hen, hcpl, fun _ _ => hends, fun h' => absurd h' h, setPort_kept p s _⟩
  · intro r
    by_cases h : en = false ∨ getB s r.en = true
    · obtain ⟨hen, henabled⟩ := getB_ringLevel s n en (decide (0 < getF s r.size))
      obtain ⟨hhead, htail⟩ := getF_ringLevel s n en (decide (0 < getF s r.size))
      exact ⟨_, (exec_ringEnable ha p n en).trans (congrArg _ (ringEnable_level h)), hen, henabled,
        fun hon hwas => absurd h (by simp [hon, hwas]), fun _ => ⟨hhead, htail, rfl⟩,
        regsKept_mono (regsKept_setPort_oneOf s _) fun k => oneOf_mono (by simp [ringLevel, r]), (setPort_kept _ _ _).mono (by decide)⟩
    · obtain ⟨hon, hwas⟩ := not_or.mp h
      obtain rfl := Bool.eq_true_of_not_eq_false hon
      obtain ⟨hen, henabled⟩ := getB_ringRise s n (decide (0 < getF s r.size))
      obtain ⟨hhead, htail⟩ := getF_ringRise s n (decide (0 < getF s r.size))
      exact ⟨_, (exec_ringEnable ha p n true).trans (congrArg _ (ringEnable_rise (Bool.eq_false_of_not_eq_true hwas))), hen, henabled,
        fun _ _ => ⟨hhead, htail, ringOffsets_setRingOffsets _ _ _⟩, fun h' => absurd h' h,
        regsKept_mono (regsKept_setPort_oneOf s (ringRise r _)) fun k => oneOf_mono (by simp [ringRise, r]),
        regs_ringOffsets_kept (setPort_kept _ _ _) r []⟩
  · refine ⟨fun h => ?_, fun h hv => ?_, fun a b h hv hva hl => ?_⟩
    · exact (exec_ringTailWrite ha p n v).trans (congrArg _ (ringTail_discarded h))
    · exact ⟨_, (exec_ringTailWrite ha p n v).trans (congrArg _ (ringTail_head h hv)), getF_setF_self _ _ _,
        ringOffsets_setRingOffsets _ _ _, regsKept_setF _ _ _, regs_ringOffsets_kept (keptBut_setF _ _ _) _ _⟩
    · exact ⟨_, (exec_ringTailWrite ha p n v).trans (congrArg _ (ringTail_record h hv hva hl)), getF_setF_self _ _ _,
        ringOffsets_setRingOffsets _ _ _, regsKept_setF _ _ _, regs_ringOffsets_kept (keptBut_setF _ _ _) _ _⟩
  · have hw := getP_setPort (s := s) (ws := originWrites (getF s Reg.CTX_STEP_ORIGIN_LO) v.toNat) originWrites_nodup
    simp only [originWrites, List.forall_mem_cons] at hw
    obtain ⟨hhi, hnext, -⟩ := hw
    exact ⟨_, exec_stepOriginWrite ha hl hc p v, hhi.trans (Nat.mod_eq_of_lt v.isLt), hnext,
      regsKept_setPort_oneOf s (originWrites _ _), setPort_kept .a s _⟩
  · have hw := getP_setPort (s := s) (ws := tenantWrites slot a b c d e f) (tenantWrites_nodup p)
    simp only [tenantWrites, List.forall_mem_cons] at hw
    obtain ⟨hslot, hlease, hvalid, hover, hquota, hused, harchived, -⟩ := hw
    exact ⟨_, exec_tenantSelect ha hsnap p, hslot.trans (Nat.mod_eq_of_lt slot.isLt), hlease, hvalid, hover, hquota, hused, harchived,
      regsKept_setPort p s (tenantWrites slot a b c d e f), setPort_kept p s _⟩
  · have hw := getP_setPort (s := s) (ws := leaseWrites slot l) (leaseWrites_nodup p)
    simp only [leaseWrites, List.forall_mem_cons] at hw
    obtain ⟨hslot, hlease, hide, hpending, -, hend, -⟩ := hw
    exact ⟨_, exec_leaseSelect ha hl p, hslot.trans (Nat.mod_eq_of_lt slot.isLt), hlease, hide.trans (b2n_mod_two _),
      hpending.trans (b2n_mod_two _), hend, regsKept_setPort p s (leaseWrites slot l), setPort_kept p s _⟩

end Sys2Proof.Machine
end

