-- ==== Sys2Proof/Proofs/StepRows.lean ====
section
/-!
SUPPORT. Proofs/StepRows.lean: the candidates of a step stay within the rows that its image gives a step, and forming them leaves
memory, pages, portions and the image alone (R249, R256, R262, R354).
-/
namespace Sys2Proof.Machine

/-! ### Context IDs that are listed once -/

section
variable {α : Type}

theorem smInsert_perm (k : Nat) (v : α) (m : List (Nat × α)) : (smInsert k v m).Perm ((k, v) :: m) := by
  induction m with
  | nil => exact .rfl
  | cons x m ih =>
    obtain ⟨j, w⟩ := x
    rw [smInsert]
    split
    · exact .rfl
    · exact (ih.cons _).trans (.swap _ _ _)

/-- Setting a key keeps the keys distinct. -/
theorem nodup_keys_alSet {m : List (Nat × α)} (h : (m.map Prod.fst).Nodup) (k : Nat) (v : α) : ((alSet m k v).map Prod.fst).Nodup := by
  refine (((smInsert_perm k v (smErase m k)).map Prod.fst).nodup_iff).mpr (List.nodup_cons.mpr ⟨fun hk => ?_, ?_⟩)
  · obtain ⟨p, hp, rfl⟩ := List.mem_map.mp hk
    exact (mem_smErase.mp hp).2 rfl
  · exact h.sublist (smErase_sublist.map Prod.fst)

/-- Under distinct keys, an entry of the list is what its key reads. -/
theorem alGet_of_mem {m : List (Nat × α)} (h : (m.map Prod.fst).Nodup) {x : Nat × α} (hx : x ∈ m) : alGet m x.1 = some x.2 := by
  induction m with
  | nil => cases hx
  | cons y m ih =>
    obtain ⟨hy, hm⟩ := List.nodup_cons.mp h
    obtain rfl | hx := List.mem_cons.mp hx
    · exact if_pos rfl
    · exact (if_neg fun e : y.1 = x.1 => hy (e ▸ List.mem_map_of_mem hx)).trans (ih hm hx)

theorem insertBy_perm (before : α → α → Bool) (x : α) (l : List α) : (insertBy before x l).Perm (x :: l) := by
  induction l with
  | nil => exact .rfl
  | cons y l ih =>
    rw [insertBy]
    split
    · exact .rfl
    · exact (ih.cons _).trans (.swap _ _ _)

theorem sortBy_perm (before : α → α → Bool) (l : List α) : (sortBy before l).Perm l := by
  induction l with
  | nil => exact .rfl
  | cons x l ih => exact (insertBy_perm _ x _).trans (ih.cons x)

end

/-- Changing a context leaves every other one as it is. -/
theorem alGet_modCtx_ne {s : State} {id j : Nat} {f : Ctx → Ctx} (h : j ≠ id) : alGet (modCtx s id f).ctxs j = alGet s.ctxs j := by
  unfold modCtx
  split
  · exact alGet_alSet_ne h
  · rfl

/-! ### The trial state of a boundary -/

theorem ctl_kept (s : State) (x : CtlSt) : keptBut [.ctl] s { s with ctl := x } := fun p hp => by
  cases p with
  | ctl => exact absurd hp (by decide)
  | _ => rfl

/-- `t` is reached from `s` by what forming the candidates does: contexts are placed, entries consumed, heads seen. -/
structure Trial (s t : State) : Prop where
  parts : keptBut [.flds, .rr, .ctxs, .ctl, .out] s t
  ids : (s.ctxs.map Prod.fst).Nodup → (t.ctxs.map Prod.fst).Nodup

namespace Trial
variable {s t u : State}

protected theorem refl (s : State) : Trial s s := ⟨keptBut_refl _ s, id⟩

/-- A further operation that leaves the contexts alone. -/
protected theorem keep {l : List Part} (h : Trial s t) (g : keptBut l t u)
    (hl : ∀ p ∈ l, p ∈ [Part.flds, .rr, .ctl, .out] := by decide) : Trial s u := by
  have hc : u.ctxs = t.ctxs := g .ctxs (by
    rw [List.contains_eq_mem, decide_eq_false_iff_not]
    exact fun hm => absurd (hl _ hm) (by decide))
  have hsub : ∀ p ∈ [Part.flds, .rr, .ctl, .out], p ∈ [Part.flds, .rr, .ctxs, .ctl, .out] := by decide
  exact ⟨(keptBut_trans h.parts g).mono fun p hp => (List.mem_append.mp hp).elim id fun hm => hsub p (hl p hm), fun hn => hc ▸ h.ids hn⟩

protected theorem setCtx {id : Nat} {c : Ctx} (h : Trial s t) : Trial s (setCtx t id c) := by
  have g : keptBut [.ctxs] t (setCtx t id c) := fun p hp => by
    cases p with
    | ctxs => exact absurd hp (by decide)
    | _ => rfl
  exact ⟨(keptBut_trans h.parts g).mono (by decide), fun hn => nodup_keys_alSet (h.ids hn) id c⟩

protected theorem modCtx {id : Nat} {f : Ctx → Ctx} (h : Trial s t) : Trial s (modCtx t id f) := by
  unfold modCtx
  split
  · exact h.setCtx
  · exact h

/-- R245, R257: placing a candidate sets its context. -/
protected theorem place {k : Cand} (h : Trial s t) : Trial s (place k t) := by
  unfold place
  split
  · exact h.setCtx.keep (keptBut_trans (keptBut_setF _ _ _) (keptBut_setF _ _ _))
  · exact h.modCtx
  · exact h.modCtx

protected theorem grantTo {resource n k : Nat} (h : Trial s t) : Trial s (grantTo t resource n k) := by
  refine h.keep (l := [.rr]) fun p hp => ?_
  cases p with
  | rr => exact absurd hp (by decide)
  | _ => rfl

protected theorem setHead {p : Port} {be : Bool} {x : HeadSt} (h : Trial s t) : Trial s (setHead p be x t) := h.keep (ctl_kept t _)

protected theorem seeHead {p : Port} {be : Bool} (h : Trial s t) : Trial s (seeHead p be t) := h.setHead

/-- R248: consuming a descriptor moves its ring's registers and count and tells the host. -/
protected theorem consume {p : Port} {be : Bool} (h : Trial s t) : Trial s (consume p be t) := by
  unfold consume
  extract_lets +onlyGivenNames c n s1 s2 s3
  have h2 : Trial s s2 := h.keep (l := [.flds]) (keptBut_ite ((keptBut_trans (setP_kept _ _ _ _) (setP_kept _ _ _ _)).mono (by decide))
    (setP_kept _ _ _ _))
  exact ((h2.keep (ctl_kept s2 _)).setHead.keep (emit_kept _ _)).keep (countEv_kept _ _ _)

/-- The entries of a descriptor, each placed when it passes (R258). -/
protected theorem foldl_checkInto {h : HostMem} {p : Port} {tag wait : Nat} {l : List (Nat × List Nat)}
    {acc : State × List ((Nat × Nat) × Cand)} (ht : Trial s acc.1) : Trial s (l.foldl (checkInto h p tag wait) acc).1 := by
  induction l generalizing acc with
  | nil => exact ht
  | cons x l ih =>
    refine ih ?_
    unfold checkInto
    dsimp only
    split
    · exact ht.place
    · exact ht

theorem servingOf_eq (h : Trial s t) : servingOf t = servingOf s := by
  have hi : t.img = s.img := h.parts .img rfl
  simp only [servingOf, hi]

end Trial

/-! ### The rows of a fill (R256, R354) -/

/-- What a boundary has taken is reached from `s`, counts its candidates' rows and stays within the image's. -/
structure WithinRows (s : State) (f : Fill) : Prop where
  trial : Trial s f.s
  rows : f.rows ≤ (servingOf s).stepRows
  lc : f.lc ≤ (servingOf s).lcRows
  sum : f.rows = (f.cands.map fun k => k.r.rows).sum

namespace WithinRows
variable {s t : State} {f g : Fill}

/-- Nothing taken beside what was. -/
protected theorem idle (h : WithinRows s f) (ht : Trial s g.s) (hc : g.cands = f.cands) (hr : g.rows = f.rows) (hl : g.lc = f.lc) :
    WithinRows s g := ⟨ht, hr ▸ h.rows, hl ▸ h.lc, hr ▸ hc ▸ h.sum⟩

/-- Candidates taken whose rows fit. -/
protected theorem take (h : WithinRows s f) {ks : List Cand} {lc : Nat} (hf : rowsFit f (ks.map fun k => k.r.rows).sum lc = true)
    (ht : Trial s g.s) (hc : g.cands = f.cands ++ ks) (hr : g.rows = f.rows + (ks.map fun k => k.r.rows).sum) (hl : g.lc = f.lc + lc) :
    WithinRows s g := by
  simp only [rowsFit, h.trial.servingOf_eq, Bool.and_eq_true, decide_eq_true_eq] at hf
  refine ⟨ht, hr ▸ hf.1, hl ▸ hf.2, ?_⟩
  rw [hr, hc, h.sum, List.map_append, List.sum_append]

/-- One candidate taken whose rows fit, those of class LC counted so. -/
protected theorem take1 (h : WithinRows s f) {k : Cand} (hf : rowsFit f k.r.rows (if isBe f.s k then 0 else k.r.rows) = true) :
    WithinRows s (take1 f k) :=
  h.take (ks := [k]) (by simpa using hf) h.trial.place rfl (by simp [Machine.take1]) rfl

end WithinRows

section
variable {s : State} {h : HostMem} {be : Bool} {f : Fill}

/-- R256 items 1 and 3: an AUTO context takes one row of its own class and is placed, or is passed over. -/
theorem withinRows_fillAuto (hw : WithinRows s f) {x : Nat × Ctx} (hx : alGet f.s.ctxs x.1 = some x.2) :
    WithinRows s (fillAuto h be f x) ∧ ∀ y, y ≠ x.1 → alGet (fillAuto h be f x).s.ctxs y = alGet f.s.ctxs y := by
  unfold fillAuto
  extract_lets c pos wait
  split
  · exact ⟨hw, fun _ _ => rfl⟩
  · next hclass =>
    split
    · exact ⟨hw, fun _ _ => rfl⟩
    · next hfits =>
      have hbe : c.desc.be = be := by
        by_contra hne
        exact hclass (by simp [hne])
      have hfit : rowsFit f 1 (b2n !be) = true := by
        by_contra hne
        exact hfits (by simp [hne])
      refine ⟨hw.take1 ?_, fun y hy => ?_⟩
      · simp only [isBe, hx, show x.2.desc.be = be from hbe]
        cases be <;> exact hfit
      · exact alGet_modCtx_ne hy

/-- The AUTO contexts of a list without a context twice. -/
theorem withinRows_foldl_fillAuto {l : List (Nat × Ctx)} (hl : (l.map Prod.fst).Nodup) (hw : WithinRows s f)
    (hx : ∀ x ∈ l, alGet f.s.ctxs x.1 = some x.2) : WithinRows s (l.foldl (fillAuto h be) f) := by
  induction l generalizing f with
  | nil => exact hw
  | cons x l ih =>
    obtain ⟨hfst, hl⟩ := List.nodup_cons.mp hl
    obtain ⟨hstep, hother⟩ := withinRows_fillAuto (h := h) (be := be) hw (hx x List.mem_cons_self)
    refine ih hl hstep fun y hy => ?_
    rw [hother y.1 fun e => hfst (e ▸ List.mem_map_of_mem hy), hx y (List.mem_cons_of_mem _ hy)]

/-- R251, R256: a descriptor is taken whole when its rows fit, else nothing of it is. -/
theorem withinRows_fillBatch {p : Port} {step0 : Nat} {bs : List Nat} (hw : WithinRows s f) :
    WithinRows s (fillBatch h p be step0 bs f) := by
  unfold fillBatch
  extract_lets +onlyGivenNames f1 x leave n raw wait
  have h1 : Trial s f1.s := hw.trial.seeHead
  clear_value raw
  split
  · split
    · exact hw.idle h1.setHead rfl rfl rfl
    · split
      · exact hw.idle h1.consume rfl rfl rfl
      · exact hw.idle h1 rfl rfl rfl
  · extract_lets +onlyGivenNames f2 o ok rows lc room
    have h2 : Trial s f2.s := h1.setHead
    have ho : Trial s o.1 := .foldl_checkInto h2
    have hw2 : WithinRows s f2 := hw.idle h2 rfl rfl rfl
    split
    · split
      · exact hw.idle h2.consume rfl rfl rfl
      · exact hw.idle h2 rfl rfl rfl
    · split
      · exact hw.idle h2 rfl rfl rfl
      · next hfits =>
        have hfit : rowsFit f2 rows lc = true := by
          by_contra hne
          exact hfits (by simp [hne])
        exact hw2.take hfit ho.consume rfl rfl rfl

/-- R256 items 2 and 4: descriptor after descriptor. -/
theorem withinRows_fillRings {step0 n : Nat} (hw : WithinRows s f) : WithinRows s (fillRings h be step0 n f) := by
  induction n generalizing f with
  | zero => exact hw
  | succ n ih =>
    unfold fillRings
    extract_lets
    split
    · exact hw
    · split
      · exact hw
      · exact ih (withinRows_fillBatch (hw.idle hw.trial.grantTo rfl rfl rfl))

/-- R256: one class: its AUTO contexts, then its rings. -/
theorem withinRows_fillClass {step0 : Nat} (hs : (s.ctxs.map Prod.fst).Nodup) (hw : WithinRows s f) :
    WithinRows s (fillClass h be step0 f) := by
  have hn := hw.trial.ids hs
  have hperm : (byId f.s.ctxs).Perm f.s.ctxs := sortBy_perm _ _
  have hauto : WithinRows s ((byId f.s.ctxs).foldl (fillAuto h be) f) :=
    withinRows_foldl_fillAuto ((hperm.map Prod.fst).nodup_iff.mpr hn) hw fun x hx => alGet_of_mem hn (hperm.mem_iff.mp hx)
  have hrings : WithinRows s (fillRings h be step0 1024 { (byId f.s.ctxs).foldl (fillAuto h be) f with stay := [] }) :=
    withinRows_fillRings (hauto.idle hauto.trial rfl rfl rfl)
  exact hrings.idle hrings.trial rfl rfl rfl

/-- R256, R354: a boundary takes no more rows than the image gives a step, and no more of class LC than its LC_ROWS; what it
counts are its candidates' rows, and `Trial` says what forming them leaves alone. -/
theorem withinRows_fillStep (hs : (s.ctxs.map Prod.fst).Nodup) (lcOnly : Bool) : WithinRows s (fillStep h lcOnly s) := by
  have h0 : WithinRows s { s := s } := ⟨.refl s, Nat.zero_le _, Nat.zero_le _, rfl⟩
  have hlc := withinRows_fillClass (h := h) (be := false) (step0 := getF s Reg.CTX_STEP_NEXT) hs h0
  cases lcOnly with
  | true => exact hlc
  | false => exact withinRows_fillClass hs hlc

end

end Sys2Proof.Machine
end

