-- ==== Sys2Proof/Proofs/StepBoundaries.lean ====
section
/-!
SUPPORT. Proofs/StepBoundaries.lean: what a step boundary does, by what waits at it: it changes nothing, counts failing control
structures only, starts a portion, or counts itself (R178, R179, R210, R212, R262, R364); and a group whose state no register of
ENG_IMG_GROUPS holds, under which no portion starts.
-/
namespace Sys2Proof.Machine

/-! ### The time of a boundary -/

section
variable (time : Nat) (s : State)

/-- A command's time is noted and counter TIME advances. -/
theorem atTime_touches : Touches [.flds, .now] pmcKey s (atTime time s) := by
  have hcount : Touches [.flds, .now] pmcKey s (if clocked s then countEv 0xEE8 (max s.now time / 10 - s.now / 10) s else s) :=
    .ite ((Touches.refl s).countEv fun _ => id) (.refl s)
  refine hcount.keep (m := [.now]) fun p hp => ?_
  cases p with
  | now => exact absurd hp (by decide)
  | _ => rfl

theorem isEntry_atTime : isEntry (atTime time s) = isEntry s := congrArg (· == 1) ((atTime_touches time s).getF (by decide))

theorem nextPortion_atTime : nextPortion (atTime time s) = nextPortion s := by
  have hk := (atTime_touches time s).parts
  rw [nextPortion, nextPortion, hk .suspended rfl, hk .ctl rfl, hk .inbox rfl]

end

/-- A register that holds no counter reads the same at a boundary's time. -/
theorem getF_atTime {f : Fld} (hf : pmcKey (fldKey f .a) = false) (time : Nat) (s : State) : getF (atTime time s) f = getF s f :=
  (atTime_touches time s).getF hf

/-! ### A boundary by what waits at it (R179, R262) -/

section
variable {s : State} (time : Nat) (host : HostMem) (places : List Nat) (lost : List (Bool × List (Fin 4096)))

/-- R179: no boundary falls while a portion runs, nor before the module is READY. -/
theorem exec_stepBoundary_unfit (h : s.boot.stage ≠ .ready ∨ s.portion ≠ none) :
    exec (.stepBoundary time host places lost) s = .next s :=
  congrArg Host.Outcome.next (if_pos (h.imp_right Option.isSome_iff_ne_none.mpr))

theorem exec_stepBoundary_fit (hr : s.boot.stage = .ready) (hp : s.portion = none) :
    exec (.stepBoundary time host places lost) s =
      .next (let s1 := controlChecks lost (atTime time s)
        if s1.suspended.isSome && s1.ctl.lcRan then s1
        else if !isEntry s1 then otherBoundary places s1
        else if (nextPortion s1).isSome then startNext places s1
        else startNext places (entryBoundary host places s1)) :=
  congrArg Host.Outcome.next (if_neg (by simp [hr, hp]))

/-- R178, R262: at an entry module with a step waiting, nothing but the step's portion starts. -/
theorem exec_stepBoundary_waiting (hr : s.boot.stage = .ready) (hp : s.portion = none) (he : isEntry s = true) {h : StepHeader}
    (hn : nextPortion s = some h) (hs : s.suspended = none ∨ s.ctl.lcRan = false) :
    exec (.stepBoundary time host places []) s = .next (startNext places (atTime time s)) := by
  have hk := (atTime_touches time s).parts
  have hbetween : ((atTime time s).suspended.isSome && (atTime time s).ctl.lcRan) = false := by
    rw [hk .suspended rfl, hk .ctl rfl]
    obtain hs | hs := hs <;> simp [hs]
  rw [exec_stepBoundary_fit time host places [] hr hp]
  simp only [controlChecks, List.foldl_nil, hbetween, isEntry_atTime, he, nextPortion_atTime, hn]
  rfl

end

/-! ### Between an LC portion and the one it pre-empted (R212, R262) -/

/-- R212: a failing control structure is counted, and condemns contexts. -/
theorem controlChecks_kept (lost : List (Bool × List (Fin 4096))) (s : State) : keptBut [.flds, .ctxs] s (controlChecks lost s) := by
  have hmod : ∀ (t : State) (c : Nat), keptBut [.ctxs] t (modCtx t c fun k => { k with condemned := true }) := fun t c => by
    unfold modCtx
    split
    · intro p hp
      cases p with
      | ctxs => exact absurd hp (by decide)
      | _ => rfl
    · exact keptBut_refl _ _
  refine foldl_kept lost s fun t x => ?_
  have hcount : keptBut [.flds] t (bump t Reg.MEM_DRAM_DETECT (if x.1 then 2 else 1)) := bump_kept _ _ _
  exact keptBut_ite (keptBut_trans hcount (foldl_kept _ _ hmod)) (hcount.mono (by decide))

/-- R212, R262: before the pre-empted portion resumes, only failing control structures are counted. -/
theorem exec_stepBoundary_between {s : State} (time : Nat) (host : HostMem) (places : List Nat) (lost : List (Bool × List (Fin 4096)))
    (hr : s.boot.stage = .ready) (hnone : s.portion = none) (hs : s.suspended ≠ none) (hl : s.ctl.lcRan = true) :
    exec (.stepBoundary time host places lost) s = .next (controlChecks lost (atTime time s)) := by
  have hk := keptBut_trans (atTime_touches time s).parts (controlChecks_kept lost (atTime time s))
  have hsusp : (controlChecks lost (atTime time s)).suspended = s.suspended := hk .suspended rfl
  have hctl : (controlChecks lost (atTime time s)).ctl = s.ctl := hk .ctl rfl
  rw [exec_stepBoundary_fit time host places lost hr hnone]
  simp only [hsusp, hctl, hl, Option.isSome_iff_ne_none.mpr hs, Bool.and_self, if_true]

/-! ### A portion starts (R178, R210, R364) -/

/-- No counter stands where ENG_IMG_GROUPS holds a group's state. -/
theorem pmcKey_group : ∀ g : Fin 64, pmcKey (fldKey (Reg.ENG_IMG_GROUPS_GROUP g) .a) = false := by decide

/-- The groups whose states ENG_IMG_GROUPS holds serve as before when the time has advanced. -/
theorem groupsServe_atTime {s : State} (hg : ∀ i, s.img = some i → ∀ g ∈ i.groups, g.idx < 64) (time : Nat) (draft : Bool) :
    groupsServe (atTime time s) draft = groupsServe s draft := by
  unfold groupsServe
  rw [(atTime_touches time s).parts .img rfl]
  cases hi : s.img with
  | none => rfl
  | some i =>
    refine Bool.eq_iff_iff.mpr ?_
    simp only [List.all_eq_true]
    refine forall₂_congr fun g hm => ?_
    rw [groupState, getF_atTime (pmcKey_group ⟨g.idx, hg i hi g hm⟩)]
    rfl

/-- The page rules of every step up to this one have been applied. -/
theorem catchUp_applied {places : List Nat} {h : StepHeader} {s : State}
    (ha : ∀ x ∈ s.inbox, x.step ≤ h.step → x.step ∈ s.ctl.applied) : catchUp places h s = s := by
  have hnone : s.inbox.filter (fun x => decide (x.step ≤ h.step) && !s.ctl.applied.contains x.step) = [] :=
    List.filter_eq_nil_iff.mpr fun x hx => by simpa using ha x hx
  rw [catchUp, hnone]
  rfl

/-- The step leaves the waiting ones. -/
def takeStep (h : StepHeader) (s : State) : State :=
  { s with inbox := s.inbox.filter (fun x => x.step != h.step), ctl.applied := s.ctl.applied.filter (· != h.step) }

theorem startNext_serves {places : List Nat} {s : State} {h : StepHeader} (hn : nextPortion s = some h)
    (hg : groupsServe s (usesDraft s h) = true) (ha : ∀ x ∈ s.inbox, x.step ≤ h.step → x.step ∈ s.ctl.applied) :
    startNext places s = startPortion h (leasesOf s h) (takeStep h s) := by
  simp only [startNext, hn, hg, catchUp_applied ha]
  rfl

/-- R210: every core is at the start of its list and runs. -/
theorem coreGet_startPortion (h : StepHeader) (leases : List Nat) (s : State) (c : Nat) :
    (coreGet (startPortion h leases s) c).nextIndex = 0 ∧ (coreGet (startPortion h leases s) c).stop = .run := by
  simp only [coreGet, startPortion]
  induction s.cores with
  | nil => exact ⟨rfl, rfl⟩
  | cons x l ih =>
    obtain ⟨j, k⟩ := x
    by_cases hj : j = c
    · simp [smGet, hj]
    · simpa [smGet, hj] using ih

theorem startPortion_kept (h : StepHeader) (leases : List Nat) (s : State) :
    keptBut [.barriers, .cores, .portion, .ctl] s (startPortion h leases s) := fun p hp => by
  cases p with
  | barriers | cores | portion | ctl => exact absurd hp (by decide)
  | _ => rfl

theorem takeStep_kept (h : StepHeader) (s : State) : keptBut [.inbox, .ctl] s (takeStep h s) := fun p hp => by
  cases p with
  | inbox | ctl => exact absurd hp (by decide)
  | _ => rfl

/-- R364: no portion starts whose groups do not serve. -/
theorem startNext_broken {places : List Nat} {s : State} {h : StepHeader} (hn : nextPortion s = some h)
    (hg : groupsServe s (usesDraft s h) = false) : startNext places s = s := by
  simp only [startNext, hn, hg]
  rfl

/-- R178, R210, R262: the step's portion starts where its groups serve and ENG_IMG_GROUPS holds the state of each. -/
theorem stepBoundary_starts {s : State} {h : StepHeader} (time : Nat) (host : HostMem) (places : List Nat) (hr : s.boot.stage = .ready)
    (hnone : s.portion = none) (he : isEntry s = true) (hn : nextPortion s = some h)
    (hidx : ∀ i, s.img = some i → ∀ g ∈ i.groups, g.idx < 64) (hg : groupsServe s (usesDraft s h) = true)
    (hs : s.suspended = none ∨ s.ctl.lcRan = false) (ha : ∀ x ∈ s.inbox, x.step ≤ h.step → x.step ∈ s.ctl.applied) :
    ∃ t, exec (.stepBoundary time host places []) s = .next t ∧
      t.portion = some { hdr := h, start := max s.now time, leases := leasesOf s h } ∧
      t.inbox = s.inbox.filter (fun x => x.step != h.step) ∧ t.ctl.applied = s.ctl.applied.filter (· != h.step) ∧
      t.ctl.lcRan = s.suspended.isSome ∧ t.barriers = [] ∧ (∀ c, (coreGet t c).nextIndex = 0 ∧ (coreGet t c).stop = .run) ∧
      keptBut [.flds, .now, .inbox, .ctl, .barriers, .cores, .portion] s t := by
  have hk := (atTime_touches time s).parts
  have hctxs : (atTime time s).ctxs = s.ctxs := hk .ctxs rfl
  have hinbox : (atTime time s).inbox = s.inbox := hk .inbox rfl
  have hctl : (atTime time s).ctl = s.ctl := hk .ctl rfl
  have hsusp : (atTime time s).suspended = s.suspended := hk .suspended rfl
  have hdraft : usesDraft (atTime time s) h = usesDraft s h := by simp only [usesDraft, hctxs]
  have hserve : groupsServe (atTime time s) (usesDraft (atTime time s) h) = true := by rw [groupsServe_atTime hidx, hdraft, hg]
  have hleases : leasesOf (atTime time s) h = leasesOf s h := by simp only [leasesOf, hctxs]
  have hexec : exec (.stepBoundary time host places []) s = .next (startPortion h (leasesOf s h) (takeStep h (atTime time s))) := by
    rw [exec_stepBoundary_waiting time host places hr hnone he hn hs, startNext_serves ((nextPortion_atTime time s).trans hn)
      hserve (by rwa [hinbox, hctl]), hleases]
  refine ⟨_, hexec, rfl, congrArg (List.filter _) hinbox, congrArg (fun x : CtlSt => x.applied.filter (· != h.step)) hctl,
    congrArg Option.isSome hsusp, rfl, coreGet_startPortion h _ _, ?_⟩
  exact (keptBut_trans (keptBut_trans hk (takeStep_kept h _)) (startPortion_kept h _ _)).mono (by decide)

/-! ### A boundary at which nothing is due (R179) -/

/-- There is no image and nothing that a boundary acts on. -/
structure NothingDue (s : State) : Prop where
  img : s.img = none
  suspended : s.suspended = none
  inbox : s.inbox = []
  ctxs : s.ctxs = []
  clients : s.clients = []
  wts : s.wts = {}
  fab : s.fab = {}
  sec : s.sec = {}
  ctl : s.ctl = {}

theorem foldl_eq_self {α β : Type} {f : β → α → β} {b : β} {l : List α} (h : ∀ x ∈ l, f b x = b) : l.foldl f b = b := by
  induction l with
  | nil => rfl
  | cons x l ih => rw [List.foldl_cons, h x List.mem_cons_self, ih fun y hy => h y (List.mem_cons_of_mem _ hy)]

/-- No fence of a core and no retirement of a vault waits for a boundary (R216, R289). -/
def PendingFree (s : State) : Prop :=
  (∀ c, c < 192 → getBit s (Reg.NOC_FENCE_PENDING (c / 32)) (c % 32) = false) ∧ ∀ v, v < 32 → getF s (vaultState v) ≠ 1

theorem applyPending_free {s : State} (h : PendingFree s) : applyPending s = s := by
  have hcores : (List.range 192).foldl (fun t c =>
      if getBit t (Reg.NOC_FENCE_PENDING (c / 32)) (c % 32) && !isMappedCore t c then shutterCore c 0 t else t) s = s :=
    foldl_eq_self fun c hc => if_neg (by simp [h.1 c (List.mem_range.mp hc)])
  unfold applyPending
  rw [hcores]
  exact foldl_eq_self fun v hv => if_neg (by simp [h.2 v (List.mem_range.mp hv)])

theorem latchLayers_kept (s : State) : keptBut [.layerSlots] s (latchLayers s) := fun p hp => by
  cases p with
  | layerSlots => exact absurd hp (by decide)
  | _ => rfl

/-- The boundary is counted, and the tenants' view of the pool is taken (R191, R481). -/
def boundaryCounted (s : State) : State :=
  { kvBoundary s with boundaries := s.boundaries + 1, snp.steps := s.snp.steps + 1 }

namespace NothingDue
variable {s : State}

/-- Registers, the time and the layers of the PMC slots make nothing due. -/
theorem of_kept {l : List Part} {t : State} (h : NothingDue s) (g : keptBut l s t)
    (hl : ∀ p ∈ l, p ∈ [Part.flds, .now, .layerSlots] := by decide) : NothingDue t := by
  have hk : ∀ p, p ∉ [Part.flds, .now, .layerSlots] → State.same p s t := fun p hp =>
    g p (by rw [List.contains_eq_mem, decide_eq_false_iff_not]; exact fun hm => hp (hl p hm))
  exact ⟨(hk .img (by decide)).trans h.img, (hk .suspended (by decide)).trans h.suspended, (hk .inbox (by decide)).trans h.inbox,
    (hk .ctxs (by decide)).trans h.ctxs, (hk .clients (by decide)).trans h.clients, (hk .wts (by decide)).trans h.wts,
    (hk .fab (by decide)).trans h.fab, (hk .sec (by decide)).trans h.sec, (hk .ctl (by decide)).trans h.ctl⟩

/-- The state with no image and nothing due. -/
def cleared (s : State) : State :=
  { s with img := none, suspended := none, inbox := [], ctxs := [], clients := [], wts := {}, fab := {}, sec := {}, ctl := {} }

theorem eq_cleared (h : NothingDue s) : s = cleared s := by
  rw [cleared, ← h.img, ← h.suspended, ← h.inbox, ← h.ctxs, ← h.clients, ← h.wts, ← h.fab, ← h.sec, ← h.ctl]

/-- Every slot of the key store is free. -/
theorem lease_eq (h : NothingDue s) {n : Nat} {l : Lease} (hl : s.sec.ks.leases[n]? = some l) : l = {} := by
  rw [h.sec] at hl
  exact List.eq_of_mem_replicate (List.mem_of_getElem? hl)

/-- No lease ends or finishes (R450). -/
theorem leaseBoundary_eq (h : NothingDue s) (step : Nat) : leaseBoundary step s = s := by
  have hends : ∀ n, leaseEnds step s n = s := fun n => by
    unfold leaseEnds
    split
    · rfl
    · next l hl => rw [h.lease_eq hl]
  have hfinishes : ∀ n, leaseFinishes step s n = s := fun n => by
    unfold leaseFinishes
    split
    · rfl
    · next l hl => rw [h.lease_eq hl]; rfl
  rw [leaseBoundary, List.foldl_fixed' hends, List.foldl_fixed' hfinishes]

/-- No context commits, no quota changes and no tenant is over its quota (R179, R181). -/
theorem applyDue_eq (h : NothingDue s) (places : List Nat) (step : Nat) : applyQuotas step (applyCommits places s) = s := by
  have hcommits : applyCommits places (cleared s) = cleared s := rfl
  have hquota : ∀ n, quotaChange step s n = s := fun n => by
    unfold quotaChange
    split
    · rfl
    · next l hl => rw [h.lease_eq hl]
  rw [← h.eq_cleared] at hcommits
  rw [hcommits, applyQuotas, List.foldl_fixed' hquota]
  refine foldl_eq_self fun l hl => if_pos ?_
  obtain ⟨n, hn⟩ := List.mem_iff_getElem?.mp hl
  rw [h.lease_eq hn]

/-- Of a boundary's work only the layers of the PMC slots are left. -/
theorem boundaryWork_eq (h : NothingDue s) (hp : PendingFree s) (step : Nat) : boundaryWork step s = latchLayers s := by
  have hfirst : applyMember (applySwitch (applyRegional (applyWhole (cleared s)))) = cleared s := rfl
  have hctxs : releaseCondemned (applyAdoptions (cleared s)) = cleared s := rfl
  have hauth : authorityDue (cleared s) = cleared s := rfl
  have hheat : heatBoundary (cleared s) = cleared s := rfl
  rw [← h.eq_cleared] at hfirst hctxs hauth hheat
  rw [boundaryWork, hfirst, hctxs, h.leaseBoundary_eq, hauth, hheat]
  exact applyPending_free (s := latchLayers s) hp

theorem putDue_eq (h : NothingDue s) : putDue s = s := by
  have hdue : putDue (cleared s) = cleared s := rfl
  rwa [← h.eq_cleared] at hdue

theorem boundaryDone_eq (h : NothingDue s) : boundaryDone s = boundaryCounted s := by
  have hdone : boundaryDone (cleared s) = boundaryCounted (cleared s) := rfl
  rwa [← h.eq_cleared] at hdone

end NothingDue

theorem smGet_foldl_smSet_of_mem {α : Type} [DecidableEq α] {d : α} {g : Nat → α} {ks : List Nat} {m : List (Nat × α)} {k : Nat}
    (hk : k ∈ ks) : smGet d (ks.foldl (fun m k => smSet d m k (g k)) m) k = g k := by
  induction ks using List.reverseRecOn with
  | nil => cases hk
  | append_singleton ks j ih =>
    rw [List.foldl_append, List.foldl_cons, List.foldl_nil]
    by_cases hj : k = j
    · rw [hj, smGet_smSet_self]
    · rw [smGet_smSet_ne hj, ih ((List.mem_append.mp hk).resolve_right (by simpa using hj))]

theorem pmcKey_pending : (∀ k : Fin 6, pmcKey (fldKey (Reg.NOC_FENCE_PENDING k) .a) = false) ∧
    (∀ v : Fin 32, pmcKey (fldKey (vaultState v) .a) = false) := by decide

theorem pmcKey_layer : ∀ n : Fin 16, pmcKey (fldKey (Reg.PMC_LAYER_LAYER n) .a) = false ∧
    pmcKey (fldKey (Reg.PMC_LAYER_EN n) .a) = false := by decide

theorem pendingFree_atTime {s : State} (h : PendingFree s) (time : Nat) : PendingFree (atTime time s) := by
  obtain ⟨hcores, hvaults⟩ := h
  refine ⟨fun c hc => ?_, fun v hv => ?_⟩
  · rw [← hcores c hc]
    simp only [getBit, getF_atTime (pmcKey_pending.1 ⟨c / 32, by omega⟩)]
  · rw [getF_atTime (pmcKey_pending.2 ⟨v, hv⟩)]
    exact hvaults v hv

/-- R487: each PMC slot counts the layer and enable that its register holds. -/
theorem layerSlots_latchLayers (s : State) {n : Nat} (hn : n < 16) :
    smGet (0, false) (latchLayers s).layerSlots n = (getF s (Reg.PMC_LAYER_LAYER n), getB s (Reg.PMC_LAYER_EN n)) :=
  smGet_foldl_smSet_of_mem (g := fun n => (getF s (Reg.PMC_LAYER_LAYER n), getB s (Reg.PMC_LAYER_EN n))) (List.mem_range.mpr hn)

theorem boundaryCounted_kept (s : State) : keptBut [.flds, .ctl, .boundaries, .snp] s (boundaryCounted s) := fun p hp => by
  cases p with
  | flds | ctl | boundaries | snp => exact absurd hp (by decide)
  | _ => rfl

theorem getF_boundaryCounted_ne (s : State) {f : Fld} (h : fldKey f .a ≠ fldKey Reg.ENG_KV_POOL_FREE .a) :
    getF (boundaryCounted s) f = getF s f := getF_setF_ne h

theorem getF_boundaryCounted_free (s : State) : getF (boundaryCounted s) Reg.ENG_KV_POOL_FREE = freeCount s % 2 ^ 32 :=
  getF_setF_self s _ _

section
variable {s : State} (h : NothingDue s) (hp : PendingFree s) (host : HostMem) (places : List Nat)
include h hp

theorem entryBoundary_eq : entryBoundary host places s = boundaryCounted (latchLayers s) := by
  have hl : NothingDue (latchLayers s) := h.of_kept (latchLayers_kept s)
  have hadmit : mayAdmit (latchLayers s) = false := by simp only [mayAdmit, hl.img]; rfl
  rw [entryBoundary, h.boundaryWork_eq hp]
  simp only [hadmit, Bool.not_false, if_true, hl.applyDue_eq, hl.putDue_eq, hl.boundaryDone_eq]

theorem otherBoundary_eq : otherBoundary places s = boundaryCounted (latchLayers s) := by
  have hl : NothingDue (latchLayers s) := h.of_kept (latchLayers_kept s)
  have hn : nextPortion (latchLayers s) = none := by simp only [nextPortion, hl.suspended, hl.inbox]; rfl
  rw [otherBoundary, h.boundaryWork_eq hp]
  simp only [hn, startNext, Option.isSome_none, Bool.false_eq_true, if_false, hl.applyDue_eq, hl.boundaryDone_eq]

end

/-- With nothing due, an entry module's boundary and any other's come to the same. -/
theorem exec_stepBoundary_nothingDue {s : State} (time : Nat) (host : HostMem) (places : List Nat) (hr : s.boot.stage = .ready)
    (hnone : s.portion = none) (h : NothingDue s) (hp : PendingFree s) :
    exec (.stepBoundary time host places []) s = .next (boundaryCounted (latchLayers (atTime time s))) := by
  have ht : NothingDue (atTime time s) := h.of_kept (atTime_touches time s).parts
  have hpt : PendingFree (atTime time s) := pendingFree_atTime hp time
  have hn : nextPortion (atTime time s) = none := by simp only [nextPortion, ht.suspended, ht.inbox]; rfl
  have hl : NothingDue (latchLayers (atTime time s)) := ht.of_kept (latchLayers_kept _)
  have hend : nextPortion (boundaryCounted (latchLayers (atTime time s))) = none := by
    have hk := boundaryCounted_kept (latchLayers (atTime time s))
    simp only [nextPortion, (hk .suspended rfl).trans hl.suspended, (hk .inbox rfl).trans hl.inbox]
    rfl
  rw [exec_stepBoundary_fit time host places [] hr hnone]
  simp only [controlChecks, List.foldl_nil, ht.suspended, hn, entryBoundary_eq ht hpt, otherBoundary_eq ht hpt, startNext, hend]
  cases isEntry (atTime time s) <;> rfl

/-- R179, R191, R487: such a boundary counts itself, takes the PMC slots' layers and admits no step. -/
theorem stepBoundary_nothingDue {s : State} (time : Nat) (host : HostMem) (places : List Nat) (hr : s.boot.stage = .ready)
    (hnone : s.portion = none) (h : NothingDue s) (hp : PendingFree s) :
    ∃ t, exec (.stepBoundary time host places []) s = .next t ∧ t.boundaries = s.boundaries + 1 ∧ t.portion = none ∧ t.inbox = [] ∧
      getF t Reg.CTX_STEP_NEXT = getF s Reg.CTX_STEP_NEXT ∧ getF t Reg.ENG_KV_POOL_FREE = 0 ∧
      (∀ n, n < 16 → smGet (0, false) t.layerSlots n = (getF s (Reg.PMC_LAYER_LAYER n), getB s (Reg.PMC_LAYER_EN n))) ∧
      keptBut [.flds, .now, .layerSlots, .ctl, .boundaries, .snp] s t := by
  have hl : NothingDue (latchLayers (atTime time s)) := (h.of_kept (atTime_touches time s).parts).of_kept (latchLayers_kept _)
  have hk : keptBut [.flds, .now, .layerSlots, .ctl, .boundaries, .snp] s (boundaryCounted (latchLayers (atTime time s))) :=
    (keptBut_trans (keptBut_trans (atTime_touches time s).parts (latchLayers_kept _)) (boundaryCounted_kept _)).mono (by decide)
  have hcount : (boundaryCounted (latchLayers (atTime time s))).boundaries = s.boundaries + 1 :=
    congrArg (· + 1) ((atTime_touches time s).parts .boundaries rfl)
  have hnext : getF (boundaryCounted (latchLayers (atTime time s))) Reg.CTX_STEP_NEXT = getF s Reg.CTX_STEP_NEXT :=
    (getF_boundaryCounted_ne _ (by decide)).trans (getF_atTime (by decide) time s)
  have hfree : getF (boundaryCounted (latchLayers (atTime time s))) Reg.ENG_KV_POOL_FREE = 0 := by
    rw [getF_boundaryCounted_free, freeCount, poolTotal, hl.img, Nat.zero_sub, Nat.zero_mod]
  refine ⟨_, exec_stepBoundary_nothingDue time host places hr hnone h hp, hcount, (hk .portion rfl).trans hnone,
    (hk .inbox rfl).trans h.inbox, hnext, hfree, fun n hn => ?_, hk⟩
  refine (layerSlots_latchLayers (atTime time s) hn).trans ?_
  obtain ⟨hlayer, hen⟩ := pmcKey_layer ⟨n, hn⟩
  simp only [getB, getF_atTime hlayer, getF_atTime hen]

/-! ### A group index beyond ENG_IMG_GROUPS (R364, R475) -/

/-- The first of the sixteen indexes of groups whose state would stand in the low word of counter TIME. -/
def timeGroup : Nat := 16 * ((0xA8000 + 8 * 0xEE8 - 0x9E020) / 4)

theorem groupState_timeGroup (s : State) : groupState s timeGroup = getF s (Reg.PMC_COUNTER 0xEE8) := rfl

/-- An image whose one group, of cores 0 and 1, has that index; no check of an image limits a group's index (R357). -/
def timeGroupImage : ImageDesc where
  hdrOk := true
  kind := 0
  region := 0
  totalBytes := 4096
  lease := 1
  binding := 1
  minCores := 1
  minVaults := 1
  needs := 0
  fabNeeds := 0
  seq := 1
  logical := List.replicate 8 0
  digest := List.replicate 8 0
  module := List.replicate 8 0
  badSection := none
  signatureOk := true
  keyOk := true
  digestsOk := true
  serving := ⟨0, true, true, false, false, false, false, 16, 8, 0, 64, 0, 0, 1⟩
  routes := []
  att := []
  heat := ⟨1, 1, 1, 1⟩
  convs := []
  vmap := ⟨[], ⟨0, 0⟩, ⟨0, 0⟩, none, none, [0, 0], [0, 0], 0, 0, ⟨0, 0⟩, [0, 0], 0, 0, 0, [], (0, 0)⟩
  kv := []
  groups := [⟨timeGroup, 0, 0, 0, 0, [0], [0, 1]⟩]
  instrs := []
  liveRanges := []
  listBytes := []
  plan := []
  windows := []
  mcast := []
  capMap := none
  detours := []
  detoursOk := true
  applyBytes := []

/-- The header of an empty step. -/
def emptyHeader : StepHeader := ⟨0, 0, 0, 0, true, true, 0, 0, 0, []⟩

/-- An entry module that is READY at time 0 under that image, with an empty step waiting whose page rules have been applied. -/
def timeGroupSt : State :=
  setF { State.reset with boot.stage := .ready, img := some timeGroupImage, inbox := [emptyHeader], ctl.applied := [0] }
    Reg.MEM_GEN_STATE_ENTRY 1

/-- Under that image the group serves unless counter TIME reads 3, the code of BROKEN. -/
theorem groupsServe_timeGroupImage {s : State} (hi : s.img = some timeGroupImage) (draft : Bool) :
    groupsServe s draft = (getF s (Reg.PMC_COUNTER 0xEE8) != 3) := by
  simp [groupsServe, hi, timeGroupImage, groupState_timeGroup]

/-- Counter TIME counts units of 10 ns. -/
theorem time_timeGroupSt : getF timeGroupSt (Reg.PMC_COUNTER 0xEE8) = 0 ∧ getF (atTime 30 timeGroupSt) (Reg.PMC_COUNTER 0xEE8) = 3 := by
  decide

/-- Refutes O40: the statement takes the groups' states before counter TIME has advanced to the boundary's time, and no limit of
a group's index keeps its state out of that counter, so a group that served is BROKEN when its portion would start. -/
theorem not_stepBoundariesAndRows : ¬ Obligations.StepBoundariesAndRows := by
  intro hall
  obtain ⟨hbound, -⟩ := hall
  obtain ⟨-, hfit⟩ := hbound timeGroupSt 30 ⟨[], []⟩ [] []
  obtain ⟨-, hstart, -⟩ := hfit rfl rfl
  obtain ⟨hbefore, hafter⟩ := time_timeGroupSt
  have hserve : groupsServe timeGroupSt (usesDraft timeGroupSt emptyHeader) = true := by
    rw [groupsServe_timeGroupImage rfl, hbefore]
    rfl
  have hbroken : groupsServe (atTime 30 timeGroupSt) (usesDraft (atTime 30 timeGroupSt) emptyHeader) = false := by
    rw [groupsServe_timeGroupImage ((atTime_touches 30 timeGroupSt).parts .img rfl), hafter]
    rfl
  have hexec : exec (.stepBoundary 30 ⟨[], []⟩ [] []) timeGroupSt = .next (atTime 30 timeGroupSt) := by
    rw [exec_stepBoundary_waiting 30 ⟨[], []⟩ [] rfl rfl (by decide) (h := emptyHeader) rfl (.inl rfl),
      startNext_broken (h := emptyHeader) rfl hbroken]
  obtain ⟨t, ht, hportion, -⟩ := hstart emptyHeader (by decide) rfl hserve (.inl rfl) (by decide)
  obtain rfl := Host.Outcome.next.inj (ht.symm.trans hexec)
  rw [(atTime_touches 30 timeGroupSt).parts .portion rfl] at hportion
  cases hportion

end Sys2Proof.Machine
end

