-- ==== Sys2Proof/Proofs/FlashCards.lean ====
section
/-!
SUPPORT. Proofs/FlashCards.lean: what a change of a flash card's state touches, and the commands that make a card fail, leave, come
back and serve again (R46, R203, R204, R408, R430, R468).
-/
namespace Sys2Proof.Machine

/-! ### Alerts and changes of the configuration (R46, R430) -/

/-- The registers of an alert: its bit of HOST_ALERT, and the interrupt causes of either port. -/
def alertKey (f : Fld) (k : Nat) : Bool := irqKey k || oneOf [f] k

theorem alertKey_false {f : Fld} {k : Nat} (h : alertKey f k = false) : irqKey k = false := (Bool.or_eq_false_iff.mp h).1

/-- Behind the bit itself an alert only drives outward. -/
theorem alert_driven (f : Fld) (s : State) :
    Touches irqParts irqKey (setB s f true) (emit (pf1Vector .b (pf1Vector .a (irqBoth 4 (setB s f true)))) (.mgmt 432 [f.lo])) :=
  .keep (.keep (.keep (.irqBoth (.refl _) (by decide) fun _ => id) (pf1Vector_kept _ _)) (pf1Vector_kept _ _)) (emit_kept _ _)

theorem alert_touches (f : Fld) (s : State) : Touches irqParts (alertKey f) s (alert f s) := by
  have hset : Touches irqParts (alertKey f) s (setB s f true) := .setF (.refl s) (by simp [alertKey, oneOf])
  exact .ite (.refl s) (hset.step (alert_driven f s) (fun _ => id) fun _ => alertKey_false)

theorem getB_alert {f : Fld} (hf : irqKey (fldKey f .a) = false) (hl : 0 < f.len) (s : State) : getB (alert f s) f = true := by
  unfold alert
  split
  · assumption
  · rw [getB, (alert_driven f s).getF hf]
    exact getB_setB_self s f true hl

/-- A change of the configuration moves ID_CONFIG_SEQ beside what it changes. -/
theorem configChange_touches {l : List Part} {K : Nat → Bool} {f : State → State} (hf : ∀ t, Touches l K t (f t)) (s : State)
    (hK : K (fldKey Reg.ID_CONFIG_SEQ .a) = true := by decide) (hl : .flds ∈ l := by decide) : Touches l K s (configChange f s) := by
  unfold configChange
  dsimp only
  exact .ite (.setF (.trans (.setF (.refl s) hK hl) (hf _)) hK hl) (hf s)

/-! ### A card's state (R203) -/

/-- The registers that follow a card's state. -/
def cardKey (k : Nat) : Bool := alertKey Reg.HOST_ALERT_FLASH k || oneOf [Reg.ID_CONFIG_SEQ, Reg.ID_RESOURCES_FLASH_CARDS] k

/-- What a card that changes state touches, its extents and the prefixes archived on it apart. -/
def cardNoteParts : List Part := [.flds, .out, .holdoffA, .holdoffB, .deferA, .deferB, .ledger, .ledgerSeq]

/-- And those with it. -/
def cardParts : List Part := cardNoteParts ++ [.prefs, .extents]

theorem cardState_len : ∀ n : Fin 2, (cardState n).len = 4 := by decide
theorem cardKey_cardState : ∀ n : Fin 2, cardKey (fldKey (cardState n) .a) = false := by decide

section
variable {s : State} {n : Fin 2} {st : Nat}

/-- Beside the state itself the configuration, the alert and the ledger follow it. -/
theorem setCard_touches (h : getF s (cardState n) ≠ st) :
    Touches cardNoteParts cardKey (setF s (cardState n) st) (setCard n st s) := by
  have hcfg (t : State) : Touches cardNoteParts cardKey t
      (configChange (fun t => setBit t Reg.ID_RESOURCES_FLASH_CARDS n (cardServes st)) t) :=
    configChange_touches (fun u => .setBit (.refl u)) t
  have halert {t u : State} (g : Touches cardNoteParts cardKey t u) : Touches cardNoteParts cardKey t (alert Reg.HOST_ALERT_FLASH u) :=
    g.step (alert_touches _ u) (by decide) fun _ e => (Bool.or_eq_false_iff.mp e).1
  unfold setCard
  dsimp only
  rw [if_neg h]
  exact .keep (.ite (halert (.ite (.refl _) (hcfg _))) (.ite (.refl _) (hcfg _))) (ledgerAdd_kept _ _ _)

theorem getF_setCard (hst : st < 16) : getF (setCard n st s) (cardState n) = st := by
  by_cases h : getF s (cardState n) = st
  · rw [setCard_same h, h]
  · rw [(setCard_touches h).getF (cardKey_cardState n), getF_setF_self, cardState_len]
    exact Nat.mod_eq_of_lt hst

theorem setCard_kept : keptBut cardNoteParts s (setCard n st s) := by
  by_cases h : getF s (cardState n) = st
  · rw [setCard_same h]
    exact keptBut_refl _ _
  · exact (keptBut_trans (keptBut_setF _ _ _) (setCard_touches h).parts).mono (by decide)

/-- A register that no card's state moves reads as before. -/
theorem getF_setCard_ne {f : Fld} (hf : cardKey (fldKey f .a) = false) (hne : fldKey f .a ≠ fldKey (cardState n) .a) :
    getF (setCard n st s) f = getF s f := by
  by_cases h : getF s (cardState n) = st
  · rw [setCard_same h]
  · rw [(setCard_touches h).getF hf, getF_setF_ne hne]

/-- R430: a card that fails raises the alert. -/
theorem getB_setCard_failed (h : getF s (cardState n) ≠ 5) : getB (setCard n 5 s) Reg.HOST_ALERT_FLASH = true := by
  unfold setCard
  dsimp only
  rw [if_neg h, getB_congr (ledgerAdd_kept _ _ _ .flds (by decide)), if_pos (.inr rfl)]
  exact getB_alert (by decide) (by decide) _

end

/-! ### A card's extents (R194, R204) -/

section
variable {α : Type}

theorem alGet_map_value (f : Nat → α → α) (m : List (Nat × α)) (k : Nat) :
    alGet (m.map fun p => (p.1, f p.1 p.2)) k = (alGet m k).map (f k) := by
  induction m with
  | nil => rfl
  | cons p m ih =>
    obtain ⟨j, v⟩ := p
    simp only [List.map_cons, alGet]
    split
    · next h => rw [h, Option.map_some]
    · exact ih

end

/-- R204: no extent of the card is written on it. -/
def extentsOff (n : Nat) (l : List (Nat × Extent)) : List (Nat × Extent) :=
  l.map fun p => (p.1, if extentCard p.1 = n then { p.2 with onCard := false } else p.2)

theorem onCard_extentsOff {n x : Nat} {l : List (Nat × Extent)} {e : Extent} (h : alGet (extentsOff n l) x = some e)
    (hx : extentCard x = n) : e.onCard = false := by
  rw [extentsOff, alGet_map_value fun x (e : Extent) => if extentCard x = n then { e with onCard := false } else e] at h
  obtain ⟨d, -, rfl⟩ := Option.map_eq_some_iff.mp h
  rw [if_pos hx]

theorem cardLost_kept (n : Nat) (s : State) : keptBut [.prefs, .extents] s (cardLost n s) := fun p hp => by
  cases p with
  | prefs | extents => exact absurd hp (by decide)
  | _ => rfl

section
variable {s : State} {n : Fin 2} {st : Nat}

/-- A card that stops serving. -/
theorem cardLost_setCard_kept : keptBut cardParts s (cardLost n (setCard n st s)) :=
  (keptBut_trans setCard_kept (cardLost_kept n _)).mono (by decide)

theorem getF_cardLost_setCard (hst : st < 16) : getF (cardLost n (setCard n st s)) (cardState n) = st := getF_setCard hst

/-! ### The commands -/

theorem exec_cardControllerFault (h0 : getF s (cardState n) ≠ 0) (h5 : getF s (cardState n) ≠ 5) :
    exec (.cardControllerFault n) s = .next (cardLost n (setCard n 5 s)) := congrArg Host.Outcome.next (if_neg (not_or.mpr ⟨h0, h5⟩))

theorem exec_cardControllerFault_idle (h : getF s (cardState n) = 0 ∨ getF s (cardState n) = 5) :
    exec (.cardControllerFault n) s = .next s := congrArg Host.Outcome.next (if_pos h)

/-- R408: the card's switch latches off, which non-volatile memory and the ledger record. -/
def vflashShorted (n : Fin 2) (s : State) : State :=
  ledgerAdd 0x0B [(32, 4 + 16 * (6 + n.val))] { s with nvFault := (4, 6 + n.val), vflashLatched := s.vflashLatched.set n true }

theorem vflashShorted_spec : (vflashShorted n s).nvFault = (4, 6 + n.val) ∧ (vflashShorted n s).vflashLatched = s.vflashLatched.set n true ∧
    keptBut [.nvFault, .vflashLatched, .ledger, .ledgerSeq] s (vflashShorted n s) := by
  refine ⟨ledgerAdd_kept _ _ _ .nvFault (by decide), ledgerAdd_kept _ _ _ .vflashLatched (by decide),
    (keptBut_trans (l := [.nvFault, .vflashLatched]) (fun p hp => ?_) (ledgerAdd_kept _ _ _)).mono (by decide)⟩
  cases p with
  | nvFault | vflashLatched => exact absurd hp (by decide)
  | _ => rfl

theorem exec_flashRailShort (h : getF s (cardState n) ≠ 0) :
    exec (.flashRailShort n) s = .next (cardLost n (setCard n 5 (vflashShorted n s))) := congrArg Host.Outcome.next (if_neg h)

/-- R468: the card leaves its connector. -/
def unseated (n : Fin 2) (s : State) : State := { s with cardSeated := s.cardSeated.set n false }

theorem unseated_kept : keptBut [.cardSeated] s (unseated n s) := fun p hp => by
  cases p with
  | cardSeated => exact absurd hp (by decide)
  | _ => rfl

theorem exec_cardPulled (h : getF s (cardState n) ≠ 0) :
    exec (.cardPulled n) s = .next (cardLost n (setCard n 0 (unseated n s))) := congrArg Host.Outcome.next (if_neg h)

/-- R204, R468: an erased card is in its connector, its switch closed and its record taken. -/
def seated (n : Fin 2) (serial wear spare : Nat) (s : State) : State :=
  let s1 := { s with cardSeated := s.cardSeated.set n true, cardSerial := s.cardSerial.set n serial,
                     vflashLatched := s.vflashLatched.set n false, extents := extentsOff n s.extents }
  setBit (setF (setF s1 (cardWear n) wear) (cardSpare n) spare) Reg.MEM_CARD_CMD_RELEASED n false

theorem seated_kept (serial wear spare : Nat) :
    keptBut [.cardSeated, .cardSerial, .vflashLatched, .extents, .flds] s (seated n serial wear spare s) := fun p hp => by
  cases p with
  | cardSeated | cardSerial | vflashLatched | extents | flds => exact absurd hp (by decide)
  | _ => rfl

theorem exec_cardInserted (serial wear spare : Nat) (h0 : getF s (cardState n) = 0) (hs : s.cardSeated.getD n false = false) :
    exec (.cardInserted n serial wear spare) s = .next (setCard n 3 (setCard n 1 (seated n serial wear spare s))) :=
  congrArg Host.Outcome.next (if_pos (by rw [h0, hs]; rfl))

theorem exec_cardRebuildDone (h3 : getF s (cardState n) = 3) (hall : ∀ x ∈ s.extents, extentCard x.1 = n → x.2.onCard = true) :
    exec (.cardRebuildDone n) s = .next (setCard n 2 s) := by
  refine congrArg Host.Outcome.next (if_pos ?_)
  simpa [h3, or_iff_not_imp_left] using fun a b hab => hall (a, b) hab

theorem exec_prepareRemove_refused (ha : stageAlive s = true) (p : Port)
    (h : getF s (cardState (1 - n.val)) ≠ 2 ∨ getB s Reg.MEM_LOAD_STATUS_BUSY = true ∨ removeSafe s n = false) :
    exec (.prepareRemove p n) s = .next (setF s Reg.MEM_CARD_CMD_STATUS 0x10) := by
  refine congrArg Host.Outcome.next ((viaPf0_alive ha p _).trans (if_pos ?_))
  obtain h | h | h := h
  · exact .inl h
  · exact .inr (.inl (by rw [h, Bool.true_or]))
  · exact .inr (.inr (by rw [h]; rfl))

theorem exec_prepareRemove (ha : stageAlive s = true) (p : Port) (ho : getF s (cardState (1 - n.val)) = 2)
    (hl : getB s Reg.MEM_LOAD_STATUS_BUSY = false) (hi : getB s Reg.ENG_IMG_STATUS_BUSY = false) (hr : removeSafe s n = true) :
    exec (.prepareRemove p n) s =
      .next (setBit (cardLost n (setCard n 0 (setF s Reg.MEM_CARD_CMD_STATUS 0))) Reg.MEM_CARD_CMD_RELEASED n true) := by
  refine congrArg Host.Outcome.next ((viaPf0_alive ha p _).trans (if_neg ?_))
  simp [ho, hl, hi, hr]

theorem exec_cardCancel (ha : stageAlive s = true) (p : Port) (h0 : getF s (cardState n) = 0) (hs : s.cardSeated.getD n false = true) :
    exec (.cardCancel p n) s =
      .next (setCard n 1 (setBit (setF s Reg.MEM_CARD_CMD_STATUS 0) Reg.MEM_CARD_CMD_RELEASED n false)) :=
  congrArg Host.Outcome.next ((viaPf0_alive ha p _).trans (if_pos (by rw [h0, hs]; rfl)))

end

/-- The registers of MEM_CARD_CMD are none of a card's own. -/
theorem cardCmd_apart : ∀ n : Fin 2, cardKey (fldKey Reg.MEM_CARD_CMD_STATUS .a) = false ∧ cardKey (fldKey Reg.MEM_CARD_CMD_RELEASED .a) = false ∧
    fldKey Reg.MEM_CARD_CMD_STATUS .a ≠ fldKey (cardState n) .a ∧ fldKey Reg.MEM_CARD_CMD_RELEASED .a ≠ fldKey (cardState n) .a := by decide

/-- Settles O30: every command is a change of the card's state, behind or before the connector's, the switch's or MEM_CARD_CMD's
own fields, which that change leaves alone. -/
theorem flashCardLifecycle : Obligations.FlashCardLifecycle := by
  intro s n p st
  obtain ⟨hst, hrel, hstne, hrelne⟩ := cardCmd_apart n
  refine ⟨fun h0 h5 => ⟨_, exec_cardControllerFault h0 h5, getF_cardLost_setCard (by decide), getB_setCard_failed h5,
      fun _ _ => onCard_extentsOff, cardLost_setCard_kept.mono (by decide)⟩,
    fun h => exec_cardControllerFault_idle h, fun h0 => ?short, fun h0 => ?pulled, fun serial wear spare h0 hs => ?inserted,
    fun h3 hall => ⟨_, exec_cardRebuildDone h3 hall, getF_setCard (by decide), setCard_kept .extents (by decide), setCard_kept.mono (by decide)⟩,
    fun ha => ⟨fun ho hl hi hr => ?removed, exec_prepareRemove_refused ha p, fun h0 hs => ?cancelled⟩⟩
  case short =>
    obtain ⟨hnv, hlatch, hshort⟩ := vflashShorted_spec (s := s) (n := n)
    have hk : keptBut cardParts (vflashShorted n s) _ := cardLost_setCard_kept (n := n) (st := 5)
    exact ⟨_, exec_flashRailShort h0, getF_cardLost_setCard (by decide), (hk .nvFault (by decide)).trans hnv,
      (hk .vflashLatched (by decide)).trans hlatch, (keptBut_trans hshort hk).mono (by decide)⟩
  case pulled =>
    have hk : keptBut cardParts (unseated n s) _ := cardLost_setCard_kept (n := n) (st := 0)
    exact ⟨_, exec_cardPulled h0, getF_cardLost_setCard (by decide), hk .cardSeated (by decide),
      (keptBut_trans unseated_kept hk).mono (by decide)⟩
  case inserted =>
    have hk : keptBut cardNoteParts (seated n serial wear spare s) (setCard n 3 (setCard n 1 (seated n serial wear spare s))) :=
      (keptBut_trans setCard_kept setCard_kept).mono (by decide)
    refine ⟨_, exec_cardInserted serial wear spare h0 hs, getF_setCard (by decide), hk .cardSeated (by decide), hk .cardSerial (by decide),
      hk .vflashLatched (by decide), fun x e hx hn => ?_, (keptBut_trans (seated_kept serial wear spare) hk).mono (by decide)⟩
    rw [hk .extents (by decide)] at hx
    exact onCard_extentsOff hx hn
  case removed =>
    refine ⟨_, exec_prepareRemove ha p ho hl hi hr, ?_, ?_, getBit_setBit_self _ n.isLt true, ?_⟩
    · exact (getF_setF_ne hrelne.symm).trans (getF_cardLost_setCard (by decide))
    · exact (getF_setF_ne (by decide)).trans ((getF_setCard_ne hst hstne).trans (getF_setF_self _ _ _))
    · exact (keptBut_trans (keptBut_trans (keptBut_setF _ _ _) cardLost_setCard_kept) (setBit_kept _ _ _ _)).mono (by decide)
  case cancelled =>
    refine ⟨_, exec_cardCancel ha p h0 hs, getF_setCard (by decide), ?_, ?_, ?_⟩
    · exact (getF_setCard_ne hst hstne).trans ((getF_setF_ne (by decide)).trans (getF_setF_self _ _ _))
    · rw [getBit, getF_setCard_ne hrel hrelne]
      exact getBit_setBit_self _ n.isLt false
    · exact (keptBut_trans (keptBut_trans (keptBut_setF _ _ _) (setBit_kept _ _ _ _)) setCard_kept).mono (by decide)

end Sys2Proof.Machine
end

