-- ==== Sys2Proof/Proofs/BarAccesses.lean ====
section
/-!
SUPPORT. Proofs/BarAccesses.lean: host accesses to DRAM through BAR2: what they store and return, what a failing granule does to
them, and the log of those that are refused (R213, R421, R435, R447).
-/
namespace Sys2Proof.Machine

/-! ### Granules of the DRAM window read for a host (R207, R213) -/

theorem inTier_dram {a : Nat} (h : a < 2 ^ 38) : inTier a = false := by
  have hlo : ¬ tierBase ≤ a := by
    unfold tierBase
    omega
  simp [inTier, hlo]

theorem checkOf_marked {s : State} {g : Nat} (h : marked s g = true) (chk : List (Nat × Check)) : checkOf s chk g = .hard := if_pos h

theorem checkOf_unmarked {s : State} {g : Nat} (h : marked s g = false) (chk : List (Nat × Check)) :
    checkOf s chk g = (alGet chk g).getD .ok := if_neg (by simp [h])

section
variable {chk : List (Nat × Check)} {r : State × Bool} {g : Nat} (hg : g * 64 < 2 ^ 38)
include hg

/-- One that passes is counted. -/
theorem barGranule_passes (hc : checkOf r.1 chk g = .ok) (hostOk : Bool) :
    barGranule chk hostOk r g = (countGranules (g * 64) 64 0 r.1, r.2) := by
  have hm := countGranules_kept (g * 64) 64 0 r.1 .marks (by decide)
  unfold barGranule
  simp [inTier_dram hg, checkOf_congr hm, hc]

/-- One that fails is counted and marked, and poisons the completion. -/
theorem barGranule_fails (hc : checkOf r.1 chk g = .hard) (hostOk : Bool) :
    barGranule chk hostOk r g = (setMark (bump (countGranules (g * 64) 64 0 r.1) Reg.MEM_DRAM_DETECT 1) g true, true) := by
  have hm := countGranules_kept (g * 64) 64 0 r.1 .marks (by decide)
  unfold barGranule
  simp [inTier_dram hg, checkOf_congr hm, hc]

end

theorem foldl_barGranule_passes {chk : List (Nat × Check)} {gs : List Nat} {r : State × Bool}
    (h : ∀ g ∈ gs, g * 64 < 2 ^ 38 ∧ checkOf r.1 chk g = .ok) (hostOk : Bool) :
    gs.foldl (barGranule chk hostOk) r = (countReads gs r.1, r.2) := by
  induction gs generalizing r with
  | nil => rfl
  | cons g gs ih =>
    obtain ⟨hg, hc⟩ := h g List.mem_cons_self
    rw [List.foldl_cons, barGranule_passes hg hc, ih fun x hx => ?_]
    · rfl
    · rw [checkOf_congr (countGranules_kept (g * 64) 64 0 r.1 .marks (by decide))]
      exact h x (List.mem_cons_of_mem _ hx)

theorem granulesOf_within_one {a n : Nat} (hn : 0 < n) (h : a / 64 = (a + n - 1) / 64) : granulesOf a n = [a / 64] := by
  unfold granulesOf
  rw [if_neg hn.ne', ← h, Nat.sub_self]
  simp

/-- What a failing granule changes: its mark, the detection and the count of granules read. -/
def barDetect (g : Nat) (s : State) : State := setMark (bump (countGranules (g * 64) 64 0 s) Reg.MEM_DRAM_DETECT 1) g true

theorem barDetect_kept (g : Nat) (s : State) : keptBut [.marks, .flds] s (barDetect g s) := by
  have hmark (t : State) : keptBut [.marks] t (setMark t g true) := fun p hp => by
    cases p with
    | marks => exact absurd hp (by decide)
    | _ => rfl
  exact (keptBut_trans (keptBut_trans (countGranules_kept (g * 64) 64 0 s) (bump_kept _ _ _)) (hmark _)).mono (by decide)

theorem getF_barDetect (g : Nat) (s : State) :
    getF (barDetect g s) Reg.MEM_DRAM_DETECT = min (getF s Reg.MEM_DRAM_DETECT + 1) (2 ^ 64 - 1) := by
  have hc : getF (countGranules (g * 64) 64 0 s) Reg.MEM_DRAM_DETECT = getF s Reg.MEM_DRAM_DETECT := flds_countGranules (by decide)
  rw [← hc]
  exact getF_bump_self _ rfl 1

/-! ### Refused accesses (R421, R435) -/

section
variable {s : State} {p : Port} {write : Bool} {off n : Nat}

/-- R435: the refused access is counted and its entry stands in the log. -/
theorem barRefused_logged : let k := getF s Reg.HOST_BADACC_COUNT
    getF (barRefused p write off n s) Reg.HOST_BADACC_COUNT = min (k + 1) 0xFFFFFFFF ∧
      getF (barRefused p write off n s) (Reg.HOST_BADACC_INFO_STATUS (k % 16)) = 0x23 ∧
      getB (barRefused p write off n s) (Reg.HOST_BADACC_INFO_WRITE (k % 16)) = write ∧
      regsKept (within (0x40040 * 64) (0xC0 * 64)) s (barRefused p write off n s) := by
  refine ⟨getF_logBad (by simp [badEntry]) ?_, getF_logBad (by simp [badEntry]) (by simp [Reg.HOST_BADACC_INFO_STATUS]),
    getB_logBad (by simp [badEntry]) rfl, regsKept_logBad⟩
  change _ < 2 ^ 32
  omega

theorem barRefused_kept : keptBut [.flds] s (barRefused p write off n s) := logBad_kept

end

/-! ### Writes (R206, R421) -/

section
variable {s : State} (ha : stageAlive s = true) (p : Port) (off : Nat)
include ha

section
variable (bytes : List (BitVec 8))

theorem exec_bar2Write_beyond (h : inBar2 s p off bytes.length = false) : exec (.bar2Write p off bytes) s = .next s :=
  congrArg Host.Outcome.next ((viaPf0_alive ha p _).trans (if_pos (by rw [h]; rfl)))

theorem exec_bar2Write (h : inBar2 s p off bytes.length = true) (hw : devWriteOk s (barAddr s p off) bytes.length = true)
    (hl : barAllowed (writeLease s) s p (barAddr s p off) bytes.length = true) :
    exec (.bar2Write p off bytes) s = .next (putBytes s (barAddr s p off) (bytes.map fun b => b.toNat)) :=
  congrArg Host.Outcome.next ((viaPf0_alive ha p _).trans ((if_neg (by simp [h])).trans (if_pos (by rw [hw, hl]; rfl))))

theorem exec_bar2Write_refused (h : inBar2 s p off bytes.length = true) (hr : devWriteOk s (barAddr s p off) bytes.length = false ∨
    barAllowed (writeLease s) s p (barAddr s p off) bytes.length = false) :
    exec (.bar2Write p off bytes) s = .next (barRefused p true off bytes.length s) := by
  refine congrArg Host.Outcome.next ((viaPf0_alive ha p _).trans ((if_neg (by simp [h])).trans (if_neg ?_)))
  obtain hr | hr := hr <;> simp [hr]

end

/-! ### Reads (R213, R421) -/

section
variable (len : Nat) (hostOk : Bool)

theorem exec_bar2Read_beyond (h : inBar2 s p off len = false) : exec (.bar2Read p off len [] hostOk) s = .next s :=
  congrArg Host.Outcome.next ((viaPf0_alive ha p _).trans (if_pos (by rw [h]; rfl)))

theorem exec_bar2Read_refused (h : inBar2 s p off len = true) (hr : devReadOk s (barAddr s p off) len = false ∨
    barAllowed (readLease s) s p (barAddr s p off) len = false) :
    exec (.bar2Read p off len [] hostOk) s = .next (emit (barRefused p false off len s) (.readData p (List.replicate len 0))) := by
  refine congrArg Host.Outcome.next ((viaPf0_alive ha p _).trans ((if_neg (by simp [h])).trans (if_neg ?_)))
  obtain hr | hr := hr <;> simp [hr]

section
variable {len} {u : State} {poisoned : Bool}

/-- An allowed read answers with the bytes, poisoned where the granules read say so. -/
theorem exec_bar2Read (h : inBar2 s p off len = true) (hd : devReadOk s (barAddr s p off) len = true)
    (hl : barAllowed (readLease s) s p (barAddr s p off) len = true)
    (hr : (granulesOf (barAddr s p off) len).foldl (barGranule [] hostOk) (s, false) = (u, poisoned)) :
    exec (.bar2Read p off len [] hostOk) s = .next (emit u
      (if poisoned then .readPoisoned p (rdBytes s (barAddr s p off) len) else .readData p (rdBytes s (barAddr s p off) len))) := by
  refine congrArg Host.Outcome.next ((viaPf0_alive ha p _).trans ((if_neg (by simp [h])).trans ((if_pos (by rw [hd, hl]; rfl)).trans ?_)))
  rw [hr]

end

end

/-! ### Atomics (R35, R415, R421) -/

section
variable (fn : BarAtom) (wide : Bool) (x y : BitVec 64) (chk : Check) {w : Nat} (hw : w = if wide then 8 else 4)
include hw

theorem exec_bar2Atomic_beyond (h : inBar2 s p off w = false) : exec (.bar2Atomic p fn wide off x y chk) s = .next s := by
  subst hw
  exact congrArg Host.Outcome.next ((viaPf0_alive ha p _).trans (if_pos (by rw [h]; rfl)))

theorem exec_bar2Atomic_refused (h : inBar2 s p off w = true) (hr : barAddr s p off % w ≠ 0 ∨ devWriteOk s (barAddr s p off) w = false ∨
    barAllowed (writeLease s) s p (barAddr s p off) w = false) :
    exec (.bar2Atomic p fn wide off x y chk) s = .next (emit (barRefused p true off w s) (.readData p (List.replicate w 0))) := by
  subst hw
  refine congrArg Host.Outcome.next ((viaPf0_alive ha p _).trans ((if_neg (by simp [h])).trans (if_neg ?_)))
  obtain hr | hr | hr := hr <;> simp [hr]

section
variable {a : Nat} (hin : inBar2 s p off w = true) (hat : a = barAddr s p off) (hal : a % w = 0) (hok : devWriteOk s a w = true)
  (hl : barAllowed (writeLease s) s p a w = true)
include hin hat hal hok hl

/-- An allowed AtomicOp on a granule that passes leaves its value, and answers with the old one. -/
theorem exec_bar2Atomic (hc : checkOf s [(a / 64, chk)] (a / 64) = .ok) : exec (.bar2Atomic p fn wide off x y chk) s =
    .next (emit (putBytes (countGranules (a / 64 * 64) 64 0 s) a (leBytes w (barAtomNew fn (8 * w) (rdLe s a w) x.toNat y.toNat)))
      (.readData p (rdBytes s a w))) := by
  have hg : a / 64 * 64 < 2 ^ 38 := by
    simp only [devWriteOk, Bool.and_eq_true, decide_eq_true_eq] at hok
    have hpos : 0 < w := by
      rw [hw]
      split <;> decide
    omega
  have hb := barGranule_passes (r := (s, false)) hg hc false
  subst hw hat
  refine congrArg Host.Outcome.next ((viaPf0_alive ha p _).trans ((if_neg (by simp [hin])).trans ((if_pos ?_).trans ?_)))
  · simp [hal, hok, hl]
  · rw [hb]
    rfl

/-- On one that fails it is not applied, and its completion is poisoned. -/
theorem exec_bar2Atomic_fails (hc : checkOf s [(a / 64, chk)] (a / 64) = .hard) : exec (.bar2Atomic p fn wide off x y chk) s =
    .next (emit (barDetect (a / 64) s) (.readPoisoned p (rdBytes s a w))) := by
  have hg : a / 64 * 64 < 2 ^ 38 := by
    simp only [devWriteOk, Bool.and_eq_true, decide_eq_true_eq] at hok
    have hpos : 0 < w := by
      rw [hw]
      split <;> decide
    omega
  have hb := barGranule_fails (r := (s, false)) hg hc false
  subst hw hat
  refine congrArg Host.Outcome.next ((viaPf0_alive ha p _).trans ((if_neg (by simp [hin])).trans ((if_pos ?_).trans ?_)))
  · simp [hal, hok, hl]
  · rw [hb]
    rfl

end

end

end

theorem barAtomNew_lt (fn : BarAtom) {w old : Nat} (x y : Nat) (h : old < 2 ^ w) : barAtomNew fn w old x y < 2 ^ w := by
  have hx : ∀ v, v % 2 ^ w < 2 ^ w := fun v => Nat.mod_lt v (Nat.two_pow_pos w)
  cases fn with
  | fetchAdd | swap => exact hx _
  | cas =>
    unfold barAtomNew
    dsimp only
    split
    · exact hx _
    · exact h

/-- Bytes stored are the bytes read. -/
theorem rdBytes_putBytes_self (s : State) (a : Nat) (bytes : List (BitVec 8)) :
    rdBytes (putBytes s a (bytes.map fun b => b.toNat)) a bytes.length = bytes.map fun b => b.toNat := by
  refine List.ext_getElem (by rw [rdBytes_length, List.length_map]) fun i hi hi' => ?_
  rw [rdBytes_length] at hi
  rw [getElem_rdBytes, rdByte_putBytes, List.length_map, if_pos (by omega), Nat.add_sub_cancel_left, List.getD_eq_getElem _ _ hi',
    List.getElem_map, Nat.mod_eq_of_lt (BitVec.isLt _)]

/-- A number of the stored width reads back as it is. -/
theorem rdLe_putBytes_lt {s : State} {a n v : Nat} (h : v < 2 ^ (8 * n)) : rdLe (putBytes s a (leBytes n v)) a n = v := by
  rw [rdLe_putBytes_self, Nat.mod_eq_of_lt h]

/-- What an applied AtomicOp may change. -/
theorem barAtomic_touches (s : State) (g a n v : Nat) (o : Out) : Touches [.mem, .marks, .flds, .out] storeKey s
    (emit (putBytes (countGranules (g * 64) 64 0 s) a (leBytes n v)) o) := by
  have hc : Touches [.mem, .marks, .flds, .out] storeKey s (countGranules (g * 64) 64 0 s) :=
    .step (.refl s) ⟨countGranules_kept _ _ _ s, fun k d e => flds_countGranules e⟩ (by decide) fun _ => pmcKey_storeKey
  exact .keep (hc.step ⟨putBytes_kept _ _ _, regsKept_putBytes _ _ _⟩ (by decide) fun _ => id) (emit_kept _ _)

end Sys2Proof.Machine
end

