-- ==== Sys2Proof/Proofs/OperationFrames.lean ====
section
/-!
SUPPORT. Proofs/OperationFrames.lean: the parts and registers that the operations behind images and portions touch: stores of the
module's own, prefixes and generation slots that go, rings, the fabric's sending side, discovery, and units that leave service.
-/
namespace Sys2Proof.Machine

/-! ### Every register but a few -/

/-- Every register but these. -/
def sparing (fs : List Fld) (k : Nat) : Bool := !oneOf fs k

/-- What does not write these registers may change no more than `sparing` says. -/
theorem sparing_imp {fs : List Fld} {K : Nat → Bool} (h : ∀ f ∈ fs, K (fldKey f .a) = false) (k : Nat) (hk : sparing fs k = false) :
    K k = false := by
  simp only [sparing, oneOf, Bool.not_eq_false', List.contains_iff_mem, List.mem_map] at hk
  obtain ⟨f, hf, rfl⟩ := hk
  exact h f hf

/-! ### Single parts -/

theorem wts_kept (s : State) (x : WtsSt) : keptBut [.wts] s { s with wts := x } := fun p hp => by
  cases p with
  | wts => exact absurd hp (by decide)
  | _ => rfl

theorem fab_kept (s : State) (x : FabSt) : keptBut [.fab] s { s with fab := x } := fun p hp => by
  cases p with
  | fab => exact absurd hp (by decide)
  | _ => rfl

theorem extents_kept (s : State) (x : List (Nat × Extent)) : keptBut [.extents] s { s with extents := x } := fun p hp => by
  cases p with
  | extents => exact absurd hp (by decide)
  | _ => rfl

namespace Touches
variable {l : List Part} {K : Nat → Bool} {s t : State}

/-- A chain of operations on the items of a list, which may rest on the items' place in it. -/
protected theorem foldl_mem {α : Type} {f : State → α → State} {xs : List α} (h : Touches l K s t)
    (hf : ∀ u, ∀ x ∈ xs, Touches l K u (f u x)) : Touches l K s (xs.foldl f t) := by
  induction xs generalizing t with
  | nil => exact h
  | cons x xs ih => exact ih (h.trans (hf t x List.mem_cons_self)) fun u y hy => hf u y (List.mem_cons_of_mem _ hy)

protected theorem putBytes {a : Nat} {bs : List Nat} (h : Touches l K s t) (hK : ∀ k, K k = false → storeKey k = false)
    (hl : ∀ p ∈ [Part.mem, .marks, .flds], p ∈ l := by decide) : Touches l K s (putBytes t a bs) :=
  h.step ⟨putBytes_kept t a bs, regsKept_putBytes t a bs⟩ hl hK

protected theorem putDev {a : Nat} {bs : List Nat} (h : Touches l K s t) (hK : ∀ k, K k = false → storeKey k = false)
    (hl : ∀ p ∈ [Part.mem, .marks, .flds], p ∈ l := by decide) : Touches l K s (putDev t a bs) :=
  .ite (h.putBytes hK hl) h

protected theorem putRuns {rs : List (Nat × List Nat)} (h : Touches l K s t) (hK : ∀ k, K k = false → storeKey k = false)
    (hl : ∀ p ∈ [Part.mem, .marks, .flds], p ∈ l := by decide) : Touches l K s (putRuns t rs) :=
  h.step ⟨(putRuns_spec rs t).2.1, (putRuns_spec rs t).2.2⟩ hl hK

protected theorem emit {o : Out} (h : Touches l K s t) (hl : .out ∈ l := by decide) : Touches l K s (emit t o) :=
  h.keep (emit_kept t o) (by simpa using hl)

end Touches

/-! ### Prefixes that leave the index, slots that become empty (R132, R223, R228, R239) -/

/-- What a prefix that leaves touches. -/
def prefParts : List Part := [.prefs, .extents, .pages, .mem, .marks, .flds]

theorem writeChildren_touches (parent arr : Nat) (kids : List (Nat × Pref)) (s : State) :
    Touches [.mem, .marks, .flds] storeKey s (writeChildren s parent arr kids) :=
  .putDev (.foldl (.refl s) fun u _ => .putDev (.refl u) fun _ => id) fun _ => id

theorem dropPref_touches (n : Nat) (s : State) : Touches prefParts storeKey s (dropPref n s) := by
  have hout (x : List (Nat × Pref)) (y : List (Nat × Extent)) (z : List (Nat × PageSt)) :
      keptBut [.prefs, .extents, .pages] s { s with prefs := x, extents := y, pages := z } := fun p hp => by
    cases p with
    | prefs | extents | pages => exact absurd hp (by decide)
    | _ => rfl
  have hdropped {x : List (Nat × Pref)} {y : List (Nat × Extent)} {ps : List Nat} :
      Touches prefParts storeKey s (dropPages ps { s with prefs := x, extents := y }) :=
    .keep (m := [.prefs, .extents, .pages]) (.refl s) (hout x y _)
  unfold dropPref
  split
  · exact .refl s
  · exact .ite (hdropped.step (writeChildren_touches _ _ _ _) (by decide) fun _ => id) hdropped

/-- What an emptied generation slot touches. -/
def slotParts : List Part := prefParts ++ [.experts, .wts, .ctl]
def slotKey (k : Nat) : Bool :=
  storeKey k || oneOf [Reg.MEM_GEN_STATE_SLOT0, Reg.MEM_GEN_STATE_SLOT1, Reg.MEM_GEN0_ID, Reg.MEM_GEN1_ID] k

theorem emptySlot_touches (n : Nat) (s : State) : Touches slotParts slotKey s (emptySlot n s) := by
  have hgone (x : List ExpertSt) (y : List (Nat × Extent)) (z : WtsSt) :
      keptBut [.experts, .extents, .wts] s { s with experts := x, extents := y, wts := z } := fun p hp => by
    cases p with
    | experts | extents | wts => exact absurd hp (by decide)
    | _ => rfl
  have hpref (t : State) (p : Nat × Pref) : Touches slotParts slotKey t (if p.2.gen = n then dropPref p.1 t else t) :=
    .ite ((dropPref_touches p.1 t).mono (by decide) fun _ e => (Bool.or_eq_false_iff.mp e).1) (.refl t)
  have hfld : slotKey (fldKey (slotFld n) .a) = true ∧ slotKey (fldKey (genIdFld n) .a) = true := by
    unfold slotFld genIdFld
    split <;> decide
  exact .setF (.setF (.keep (.foldl (.keep (.refl s) (hgone _ _ _)) hpref) (ctl_kept _ _)) hfld.1) hfld.2

theorem drainSlots_touches (s : State) : Touches slotParts slotKey s (drainSlots s) :=
  .foldl (.refl s) fun u n => .ite (emptySlot_touches n u) (.refl u)

theorem freeSmall_touches (i : Nat) (s : State) :
    Touches [.extents, .wts, .flds] (oneOf [Reg.MEM_SMALL_COUNT_RESIDENT]) s (freeSmall i s) :=
  .setF (.keep (.keep (.refl s) (extents_kept s _)) (wts_kept _ _))

/-! ### The rings (R164, R343) -/

/-- What a record on a ring touches. -/
def ringParts : List Part := [.mem, .marks, .ringRecs] ++ irqParts
def ringKey (r : Ring) (k : Nat) : Bool := storeKey k || irqKey k || oneOf [r.head, r.drop] k

theorem ringPut_touches (r : Ring) (bs : List Nat) (s : State) : Touches ringParts (ringKey r) s (ringPut r bs s) := by
  have hstore : ∀ k, ringKey r k = false → storeKey k = false := fun k e => by
    simp only [ringKey, Bool.or_eq_false_iff] at e
    exact e.1.1
  have hirq : ∀ k, ringKey r k = false → irqKey k = false := fun k e => by
    simp only [ringKey, Bool.or_eq_false_iff] at e
    exact e.1.2
  have hpad {c : Prop} [Decidable c] {a : Nat} {x : List Nat} : Touches ringParts (ringKey r) s (if c then s else putDev s a x) :=
    .ite (.refl s) (.putDev (.refl s) hstore)
  have hput {c : Prop} [Decidable c] {a b v : Nat} {x y l : List Nat} : Touches ringParts (ringKey r) s
      (setRingOffsets (setF (putDev (if c then s else putDev s a x) b y) r.head v) r l) :=
    .keep (.setF (hpad.putDev hstore) (by simp [ringKey, oneOf])) (setRingOffsets_kept _ r l)
  unfold ringPut
  dsimp only
  exact .ite (.refl s) (.ite (.ite hput (.irqBoth hput (by decide) hirq)) (.bump (.refl s) (by simp [ringKey, oneOf])))

/-! ### The fabric's sending side (R303, R319, R321, R323) -/

theorem toPlane_kept (q route vc : Nat) (bs : List Nat) (s : State) : keptBut [.out] s (toPlane q route vc bs s) := by
  unfold toPlane
  split
  · exact emit_kept _ _
  · exact keptBut_refl _ _

theorem putOp_kept (o : FabOp) (s : State) : keptBut [.fab] s (putOp o s) := fab_kept s _

theorem takeSeq_kept (key : Nat) (s : State) : keptBut [.fab] s (takeSeq key s).2 := fab_kept s _

theorem sendNew_kept (s : State) (o : FabOp) : keptBut [.fab, .out] s (sendNew s o) := by
  have hseq {c : Prop} [Decidable c] {key n : Nat} : keptBut [.fab] s (if c then (n, s) else takeSeq key s).2 := by
    split
    · exact keptBut_refl _ _
    · exact takeSeq_kept _ _
  unfold sendNew
  refine keptBut_ite (keptBut_refl _ _) (keptBut_ite ((putOp_kept _ s).mono (by decide)) ?_)
  split
  · exact keptBut_refl _ _
  · refine (keptBut_trans (l := [.fab]) ?_ (toPlane_kept _ _ _ _ _)).mono (by decide)
    have hput {o : FabOp} {c : Prop} [Decidable c] {key n : Nat} :
        keptBut [.fab] s (putOp o (if c then (n, s) else takeSeq key s).2) := (keptBut_trans hseq (putOp_kept _ _)).mono (by decide)
    exact keptBut_ite ((keptBut_trans hput (fab_kept _ _)).mono (by decide)) hput

theorem fabPump_kept (s : State) : keptBut [.fab, .out] s (fabPump s) := foldl_kept _ _ sendNew_kept

/-- What resending touches. -/
def resendKey : Nat → Bool := oneOf [Reg.FAB_RETRY]

theorem resendOp_touches (s : State) (o : FabOp) : Touches [.fab, .out, .flds] resendKey s (resendOp s o) := by
  refine .foldl (.refl s) fun u x => ?_
  dsimp only
  split
  · exact .keep (.keep (.bump (.refl u)) (putOp_kept _ _)) (toPlane_kept _ _ _ _ _)
  · exact .refl u

theorem resendFlow_touches (key : Nat) (s : State) : Touches [.fab, .out, .flds] resendKey s (resendFlow key s) :=
  .ite (.foldl (.refl s) resendOp_touches) (.refl s)

theorem replan_touches (s : State) : Touches [.fab, .out, .flds] resendKey s (replan s) := by
  refine .keep (.foldl (.refl s) fun u k => ?_) (fabPump_kept _)
  split
  · exact .ite (.refl u) (resendFlow_touches k u)
  · exact .refl u

/-! ### Discovery (R326, R327) -/

/-- The registers of discovery beside those of the report that it stores. -/
def discoveryFlds : List Fld :=
  [Reg.FAB_DISCOVERY_MISSING, Reg.FAB_DISCOVERY_PARTIAL, Reg.FAB_DISCOVERY_EXTRA, Reg.FAB_DISCOVERY_OWN_BAD, Reg.FAB_DISCOVERY_TPOS_DIFF,
    Reg.FAB_DISCOVERY_DONE, Reg.FAB_STATE_STATE, Reg.ID_MODULE_MODULE_ID, Reg.ID_MODULE_MODULE_ID_VALID] ++
    (List.range 8).flatMap fun p => [Reg.FAB_PORT_MISPLACED p, Reg.FAB_PORT_LINK p]

def discoveryKey (k : Nat) : Bool := storeKey k || resendKey k || oneOf discoveryFlds k

def discoveryParts : List Part := [.fab, .out, .flds, .mem, .marks]

theorem setFabState_touches (v : Nat) (s : State) : Touches discoveryParts discoveryKey s (setFabState v s) :=
  .ite (.refl s) (.setF (.refl s))

theorem classifyPort_touches (pos : Nat) (s : State) {p : Nat} (hp : p < 8) :
    Touches discoveryParts discoveryKey s (classifyPort pos s p) := by
  have hfld : ∀ p : Fin 8, discoveryKey (fldKey (Reg.FAB_PORT_MISPLACED p) .a) = true ∧ discoveryKey (fldKey (Reg.FAB_PORT_LINK p) .a) = true := by
    decide
  obtain ⟨hm, hk⟩ := hfld ⟨p, hp⟩
  exact .ite (.setF (.setF (.refl s) hm) hk) (.setF (.setF (.refl s) hm) hk)

theorem comparePlan_touches (pos : Nat) (plan : List PlanPos) (s : State) :
    Touches discoveryParts discoveryKey s (comparePlan pos plan s) := by
  refine .putDev (.setF (.setF (.setF (.setF (.setF (.setF (.refl s))))))) fun k e => ?_
  simp only [discoveryKey, Bool.or_eq_false_iff] at e
  exact e.1.1

theorem discovery_touches (s : State) : Touches discoveryParts discoveryKey s (discovery s) := by
  unfold discovery
  split
  · exact setFabState_touches 1 s
  · split
    · exact .trans (.keep (.refl s) (fab_kept s _)) (setFabState_touches 5 _)
    · have hports (pos : Nat) : Touches discoveryParts discoveryKey s
          ((reporting s).foldl (classifyPort pos) { s with fab.position := some pos }) :=
        .foldl_mem (.keep (.refl s) (fab_kept s _)) fun u p hp =>
          classifyPort_touches pos u (List.mem_range.mp (List.mem_of_mem_filter hp))
      have hcmp (pos : Nat) (plan : List PlanPos) := (hports pos).trans (comparePlan_touches pos plan _)
      exact .ite (.trans (.setF (.setF (hcmp _ _))) (setFabState_touches _ _)) (.trans (hcmp _ _) (setFabState_touches 6 _))

theorem rediscover_touches (s : State) : Touches discoveryParts discoveryKey s (rediscover s) := by
  refine .ite ((discovery_touches s).step (replan_touches _) (by decide) fun k e => ?_) (.refl s)
  simp only [discoveryKey, Bool.or_eq_false_iff] at e
  exact e.1.2

/-! ### Units that leave service (R216, R288, R363) -/

/-- The registers of R288 and R216 for every core and every vault. -/
def pendingKey (k : Nat) : Bool :=
  shutterKey k || oneOf (Reg.ID_RETIRED_VAULTS :: (List.range 6).map Reg.ID_FENCED_CORES ++ (List.range 32).map vaultState) k

theorem pendingKey_false {k : Nat} (h : pendingKey k = false) : shutterKey k = false := (Bool.or_eq_false_iff.mp h).1

/-- A unit's bit and the rating that follows from it. -/
theorem rate_change_touches {f : Fld} (i : Nat) (hf : pendingKey (fldKey f .a) = true) (s : State) :
    Touches shutterParts pendingKey s (configChange (fun t => rate (setBit t f i true)) s) :=
  configChange_touches (fun t => .step (.setBit (.refl t) hf) (touches_rate _) (by decide) fun _ => pendingKey_false) s

theorem sec_kept (s : State) (x : SecSt) : keptBut [.sec] s { s with sec := x } := fun p hp => by
  cases p with
  | sec => exact absurd hp (by decide)
  | _ => rfl

theorem shutterCore_touches {c : Nat} (hc : c < 192) (cause : Nat) (s : State) :
    Touches shutterParts pendingKey s (shutterCore c cause s) := by
  have hfld : ∀ j : Fin 6, pendingKey (fldKey (Reg.ID_FENCED_CORES j) .a) = true ∧ pendingKey (fldKey (Reg.NOC_FENCE_PENDING j) .a) = true := by
    decide
  obtain ⟨hf, hp⟩ := hfld ⟨c / 32, by omega⟩
  have hout (t : State) (l : List (Nat × CoreSt)) (x : SecSt) : keptBut [.cores, .sec] t { t with cores := l, sec := x } := fun p hp => by
    cases p with
    | cores | sec => exact absurd hp (by decide)
    | _ => rfl
  unfold shutterCore
  refine .ite (.refl s) ?_
  exact .keep (.step (.keep (.setBit (rate_change_touches _ hf s) hp) (hout _ _ _)) (touches_distRewrite _) (by decide) fun _ => pendingKey_false)
    (ledgerAdd_kept _ _ _)

theorem retireVault_touches {v : Nat} (hv : v < 32) (s : State) : Touches shutterParts pendingKey s (retireVault v s) := by
  have hfld : ∀ j : Fin 32, pendingKey (fldKey (vaultState j) .a) = true := by decide
  unfold retireVault
  refine .ite (.refl s) ?_
  exact .keep (.step (.keep (.trans (.setF (.refl s) (hfld ⟨v, hv⟩)) (rate_change_touches _ (by decide) _)) (sec_kept _ _))
    (touches_distRewrite _) (by decide) fun _ => pendingKey_false) (ledgerAdd_kept _ _ _)

theorem applyPending_touches (s : State) : Touches shutterParts pendingKey s (applyPending s) :=
  .foldl_mem (.foldl_mem (.refl s) fun u _ hc => .ite (shutterCore_touches (List.mem_range.mp hc) 0 u) (.refl u))
    fun u _ hv => .ite (retireVault_touches (List.mem_range.mp hv) u) (.refl u)

end Sys2Proof.Machine
end

