-- ==== Sys2Proof/Proofs/LumaleImages.lean ====
section
/-!
SUPPORT. Proofs/LumaleImages.lean: how a load of a Lumale image starts, is refused, waits and is installed (R357, R358, R362, R363,
R365).
-/
namespace Sys2Proof.Machine

/-! ### The end of a load (R358) -/

/-- What the end of a load writes. -/
def imageEndWrites (status kind code item : Nat) : List (Fld × Nat) :=
  [(Reg.ENG_IMG_STATUS_BUSY, 0), (Reg.ENG_IMG_STATUS_STATUS, status), (Reg.ENG_IMG_REFUSAL_KIND, kind), (Reg.ENG_IMG_REFUSAL_CODE, code),
    (Reg.ENG_IMG_ITEM_ITEM, item)]

def imageEndFlds : List Fld :=
  [Reg.ENG_IMG_STATUS_BUSY, Reg.ENG_IMG_STATUS_STATUS, Reg.ENG_IMG_REFUSAL_KIND, Reg.ENG_IMG_REFUSAL_CODE, Reg.ENG_IMG_ITEM_ITEM]

theorem imageEndFlds_nodup : (imageEndFlds.map fun f => fldKey f .a).Nodup := by decide

def imageEndKey (k : Nat) : Bool := irqKey k || oneOf imageEndFlds k

section
variable (status kind code item : Nat) (s : State)

/-- Behind what it writes, the run's end is noted and CMD arises. -/
theorem imageEnds_driven :
    Touches (.wts :: irqParts) irqKey (setPort .a s (imageEndWrites status kind code item)) (imageEnds status kind code item s) :=
  .irqBoth (.keep (.refl _) (wts_kept _ _)) (by decide) fun _ => id

theorem imageEnds_touches : Touches (.wts :: irqParts) imageEndKey s (imageEnds status kind code item s) := by
  have hset : Touches (.wts :: irqParts) imageEndKey s (setPort .a s (imageEndWrites status kind code item)) :=
    .step (.refl s) ⟨setPort_kept _ _ _, regsKept_setPort_oneOf _ _⟩ (by decide) fun _ e => (Bool.or_eq_false_iff.mp e).2
  exact hset.step (imageEnds_driven status kind code item s) (by decide) fun _ e => (Bool.or_eq_false_iff.mp e).1

theorem imageEnds_wts : (imageEnds status kind code item s).wts = { s.wts with imgRun := none } := by
  refine (irqBoth_kept 2 _ .wts (by decide)).trans ?_
  rfl

theorem imageEnds_regs : getB (imageEnds status kind code item s) Reg.ENG_IMG_STATUS_BUSY = false ∧
    getF (imageEnds status kind code item s) Reg.ENG_IMG_STATUS_STATUS = status % 256 ∧
    getF (imageEnds status kind code item s) Reg.ENG_IMG_REFUSAL_KIND = kind % 16 ∧
    getF (imageEnds status kind code item s) Reg.ENG_IMG_REFUSAL_CODE = code % 256 ∧
    getF (imageEnds status kind code item s) Reg.ENG_IMG_ITEM_ITEM = item % 2 ^ 32 := by
  have hread : ∀ w ∈ imageEndWrites status kind code item, irqKey (fldKey w.1 .a) = false →
      getF (imageEnds status kind code item s) w.1 = w.2 % 2 ^ w.1.len := fun w hw hk =>
    ((imageEnds_driven status kind code item s).getF hk).trans (getP_setPort (ws := imageEndWrites status kind code item) (p := .a) (s := s) imageEndFlds_nodup w hw)
  simp only [imageEndWrites, List.forall_mem_cons] at hread
  obtain ⟨hbusy, hst, hkind, hcode, hitem, -⟩ := hread
  exact ⟨getB_of_getF (b := false) (hbusy (by decide)) rfl, hst (by decide), hkind (by decide), hcode (by decide), hitem (by decide)⟩

end

/-! ### The states of the groups (R364) -/

theorem groupKey_inj {m n : Nat} (h : fldKey (Reg.ENG_IMG_GROUPS_GROUP m) .a = fldKey (Reg.ENG_IMG_GROUPS_GROUP n) .a) : m = n := by
  simp only [fldKey_a, Reg.ENG_IMG_GROUPS_GROUP] at h
  omega

theorem setGroup_kept (g v : Nat) (s : State) : keptBut [.flds] s (setGroup g v s) := keptBut_setF _ _ _

/-- Groups that are set one state read it. -/
theorem getF_foldl_setGroup {n v : Nat} {gs : List Nat} (h : n ∈ gs) (s : State) :
    getF (gs.foldl (fun t g => setGroup g v t) s) (Reg.ENG_IMG_GROUPS_GROUP n) = v % 4 := by
  induction gs generalizing s with
  | nil => cases h
  | cons g gs ih =>
    by_cases hm : n ∈ gs
    · exact ih hm _
    · obtain rfl : n = g := (List.mem_cons.mp h).resolve_right hm
      have hrest : regsKept (sparing [Reg.ENG_IMG_GROUPS_GROUP n]) (setGroup n v s) (gs.foldl (fun t g => setGroup g v t) (setGroup n v s)) := by
        refine (Touches.foldl_mem (l := [.flds]) (.refl _) fun u g hg => ?_).regs
        refine .setF (.refl u) ?_
        have hne : fldKey (Reg.ENG_IMG_GROUPS_GROUP g) .a ≠ fldKey (Reg.ENG_IMG_GROUPS_GROUP n) .a := fun e => hm (groupKey_inj e ▸ hg)
        simpa [sparing, oneOf] using hne
      exact (hrest _ _ (by simp [sparing, oneOf])).trans (getF_setF_self _ _ _)

/-- The groups whose states ENG_IMG_GROUPS holds are none of the load's other registers. -/
theorem groupKey_apart : ∀ n : Fin 64, imageEndKey (fldKey (Reg.ENG_IMG_GROUPS_GROUP n) .a) = false ∧
    sparing [Reg.ENG_IMG_STATUS_PHASE, Reg.ENG_IMG_STATUS_KIND] (fldKey (Reg.ENG_IMG_GROUPS_GROUP n) .a) = true := by decide

/-! ### GO, ABORT and refusals (R357, R358, R365) -/

theorem imageRefused_spec (b : ImgBad) (s : State) : let t := imageRefused b s
    getB t Reg.ENG_IMG_STATUS_BUSY = false ∧ getF t Reg.ENG_IMG_STATUS_STATUS = b.status % 256 ∧
      getF t Reg.ENG_IMG_REFUSAL_KIND = b.kind % 16 ∧ getF t Reg.ENG_IMG_REFUSAL_CODE = b.code % 256 ∧
      getF t Reg.ENG_IMG_ITEM_ITEM = b.item % 2 ^ 32 ∧ t.wts = { s.wts with imgRun := none } ∧ keptBut (.wts :: irqParts) s t := by
  have hback (l : List (Nat × Nat)) : keptBut [.flds] s (l.foldl (fun t (x : Nat × Nat) => setGroup x.1 x.2 t) s) :=
    foldl_kept l s fun t x => setGroup_kept x.1 x.2 t
  intro t
  obtain ⟨h1, h2, h3, h4, h5⟩ := imageEnds_regs b.status b.kind b.code b.item
    ((match s.wts.imgRun with | some r => r.before | none => []).foldl (fun t (x : Nat × Nat) => setGroup x.1 x.2 t) s)
  refine ⟨h1, h2, h3, h4, h5, (imageEnds_wts _ _ _ _ _).trans ?_, ?_⟩
  · rw [hback _ .wts (by decide)]
  · exact (keptBut_trans (hback _) (imageEnds_touches _ _ _ _ _).parts).mono (by decide)

/-- What GO writes. -/
def imageGoWrites : List (Fld × Nat) :=
  [(Reg.ENG_IMG_STATUS_BUSY, 1), (Reg.ENG_IMG_STATUS_PHASE, 1), (Reg.ENG_IMG_STATUS_PROGRESS, 0)]

section
variable {s : State} (ha : stageAlive s = true) (p : Port)
include ha

theorem exec_imageGo_busy (h : getB s Reg.ENG_IMG_STATUS_BUSY = true) : exec (.imageGo p) s = .next s :=
  congrArg Host.Outcome.next ((viaPf0_alive ha p _).trans (if_pos h))

theorem exec_imageGo (h : getB s Reg.ENG_IMG_STATUS_BUSY = false) :
    exec (.imageGo p) s = .next { setPort .a s imageGoWrites with wts.imgRun := some ⟨p, none, []⟩ } :=
  congrArg Host.Outcome.next ((viaPf0_alive ha p _).trans (if_neg (by simp [h])))

/-- A waiting image, or none, is not aborted. -/
theorem exec_imageAbort_idle (h : ∀ q g, s.wts.imgRun ≠ some ⟨q, none, g⟩) : exec (.imageAbort p) s = .next s := by
  refine congrArg Host.Outcome.next ((viaPf0_alive ha p _).trans ?_)
  split
  · next q g hr => exact absurd hr (h q g)
  · rfl

theorem exec_imageAbort {q : Port} {g : List (Nat × Nat)} (h : s.wts.imgRun = some ⟨q, none, g⟩) :
    exec (.imageAbort p) s = .next (imageRefused ⟨0x23, 0, 0, 0⟩ s) := by
  refine congrArg Host.Outcome.next ((viaPf0_alive ha p _).trans ?_)
  rw [h]

end

/-! ### The fetch has ended (R357) -/

/-- The first check that refuses. -/
def fetchBad (s : State) (p : Port) (ok : Bool) (d : ImageDesc) : Option ImgBad :=
  if ok = false then some ⟨0x23, 0, 0, 0⟩ else if sizeBad s d = true then some (badRes 0x13 noItem)
    else ((verifyImage s p d).or (structureOf s d)).or (fitOf s (combined s d))

/-- The image's kind and how far its load has gone. -/
def imagePhase (d : ImageDesc) (n : Nat) (s : State) : State :=
  setF (setF (setF s Reg.ENG_IMG_STATUS_KIND d.kind) Reg.ENG_IMG_STATUS_PROGRESS 100) Reg.ENG_IMG_STATUS_PHASE n

theorem imagePhase_kept (d : ImageDesc) (n : Nat) (s : State) : keptBut [.flds] s (imagePhase d n s) :=
  (keptBut_trans (keptBut_trans (keptBut_setF _ _ _) (keptBut_setF _ _ _)) (keptBut_setF _ _ _)).mono (by decide)

/-- The groups that a regional image sets APPLYING, with their states before. -/
def applyingGroups (s : State) (d : ImageDesc) : List (Nat × Nat) :=
  if d.kind = 0 then [] else d.groups.map fun g => (g.idx, groupState s g.idx)

/-- An image that has passed every check shows phase 5, and its groups show APPLYING. -/
def imageChecked (d : ImageDesc) (s : State) : State :=
  (applyingGroups s d).foldl (fun t g => setGroup g.1 2 t) (imagePhase d 5 s)

theorem imageChecked_kept (d : ImageDesc) (s : State) : keptBut [.flds] s (imageChecked d s) :=
  (keptBut_trans (imagePhase_kept d 5 s) (foldl_kept (applyingGroups s d) (imagePhase d 5 s) fun t x => setGroup_kept x.1 2 t)).mono (by decide)

/-- It then waits for its boundary. -/
def imageWaits (p : Port) (d : ImageDesc) (s : State) : State :=
  { imageChecked d s with wts.imgRun := some ⟨p, some d, applyingGroups s d⟩ }

section
variable {s : State} {p : Port} {g : List (Nat × Nat)} {ok : Bool} {d : ImageDesc} (h : s.wts.imgRun = some ⟨p, none, g⟩)
include h

theorem exec_imageFetchDone_refused {b : ImgBad} (hb : fetchBad s p ok d = some b) :
    ∃ u, exec (.imageFetchDone ok d) s = .next (imageRefused b u) ∧ keptBut [.flds] s u := by
  unfold fetchBad at hb
  change ∃ u, execImageFetchDone ok d s = _ ∧ _
  unfold execImageFetchDone
  rw [h]
  dsimp only
  cases ok with
  | false => exact ⟨s, by rw [← Option.some.inj hb]; rfl, keptBut_refl _ _⟩
  | true =>
    rw [if_neg (by decide)] at hb ⊢
    by_cases hs : sizeBad s d = true
    · rw [if_pos hs] at hb ⊢
      exact ⟨_, by rw [← Option.some.inj hb], keptBut_setF _ _ _⟩
    · rw [if_neg hs] at hb ⊢
      cases hv : verifyImage s p d with
      | some c =>
        rw [hv, Option.some_or, Option.some_or] at hb
        exact ⟨imagePhase d 2 s, by rw [← Option.some.inj hb]; rfl, imagePhase_kept d 2 s⟩
      | none =>
        rw [hv, Option.none_or] at hb
        cases ht : structureOf s d with
        | some c =>
          rw [ht, Option.some_or] at hb
          exact ⟨imagePhase d 3 s, by rw [← Option.some.inj hb]; rfl, imagePhase_kept d 3 s⟩
        | none =>
          rw [ht, Option.none_or] at hb
          rw [hb]
          exact ⟨imagePhase d 4 s, rfl, imagePhase_kept d 4 s⟩

theorem exec_imageFetchDone_passes (hb : fetchBad s p ok d = none) : exec (.imageFetchDone ok d) s = .next (imageWaits p d s) := by
  unfold fetchBad at hb
  split at hb
  · cases hb
  · next hok =>
    split at hb
    · cases hb
    · next hs =>
      obtain ⟨hvt, hf⟩ := Option.or_eq_none_iff.mp hb
      obtain ⟨hv, ht⟩ := Option.or_eq_none_iff.mp hvt
      refine congrArg Host.Outcome.next ?_
      rw [h]
      dsimp only
      rw [if_neg (by simpa using hok), if_neg hs, hv, ht, hf]
      rfl

end

/-- With no load waiting for its fetch, or none at its boundary, the load's commands find no occasion. -/
theorem exec_image_idle {s : State} (h : s.wts.imgRun = none) (d : ImageDesc) (ok : Bool) :
    exec (.imageFetchDone ok d) s = .next s ∧ exec .wholeApply s = .next s ∧ exec .regionalApply s = .next s := by
  refine ⟨congrArg Host.Outcome.next ?_, congrArg Host.Outcome.next ?_, congrArg Host.Outcome.next ?_⟩
  · rw [h]
  · rw [applyWhole, h, ite_self]
  · rw [applyRegional, h, ite_self]

theorem imageWaits_kept (p : Port) (d : ImageDesc) (s : State) : keptBut [.flds, .wts] s (imageWaits p d s) :=
  (keptBut_trans (imageChecked_kept d s) (wts_kept (imageChecked d s) _)).mono (by decide)

theorem imageWaits_wts (p : Port) (d : ImageDesc) (s : State) :
    (imageWaits p d s).wts = { s.wts with imgRun := some ⟨p, some d, applyingGroups s d⟩ } := by
  have hk : (imageChecked d s).wts = s.wts := imageChecked_kept d s .wts (by decide)
  exact congrArg (fun w : WtsSt => { w with imgRun := some ⟨p, some d, applyingGroups s d⟩ }) hk

theorem applyingGroups_lt {s : State} {d : ImageDesc} (hd : d.kind = 0 ∨ ∀ x ∈ d.groups, x.idx < 64) :
    ∀ x ∈ applyingGroups s d, x.1 < 64 := by
  intro x hx
  unfold applyingGroups at hx
  split at hx
  · cases hx
  · next hne =>
    obtain ⟨g, hg, rfl⟩ := List.mem_map.mp hx
    exact hd.resolve_left hne g hg

/-- Its phase and kind stand. -/
theorem imageChecked_regs {d : ImageDesc} {s : State} (hd : d.kind = 0 ∨ ∀ x ∈ d.groups, x.idx < 64) :
    getF (imageChecked d s) Reg.ENG_IMG_STATUS_PHASE = 5 ∧ getF (imageChecked d s) Reg.ENG_IMG_STATUS_KIND = d.kind % 4 := by
  have hrest : Touches [.flds] (sparing [Reg.ENG_IMG_STATUS_PHASE, Reg.ENG_IMG_STATUS_KIND]) (imagePhase d 5 s) (imageChecked d s) :=
    .foldl_mem (.refl _) fun u x hx => .setF (.refl u) (groupKey_apart ⟨x.1, applyingGroups_lt hd x hx⟩).2
  have hphase : getF (imagePhase d 5 s) Reg.ENG_IMG_STATUS_PHASE = 5 := getF_setF_self _ _ _
  have hkind : getF (imagePhase d 5 s) Reg.ENG_IMG_STATUS_KIND = d.kind % 4 :=
    (getF_setF_ne (by decide)).trans ((getF_setF_ne (by decide)).trans (getF_setF_self _ _ _))
  exact ⟨(hrest.getF (by decide)).trans hphase, (hrest.getF (by decide)).trans hkind⟩

/-- Its groups show APPLYING. -/
theorem getF_imageChecked_group {d : ImageDesc} {s : State} (hne : d.kind ≠ 0) {x : ImgGroup} (hx : x ∈ d.groups) :
    getF (imageChecked d s) (Reg.ENG_IMG_GROUPS_GROUP x.idx) = 2 := by
  have hfold : imageChecked d s = (d.groups.map fun g => g.idx).foldl (fun t g => setGroup g 2 t) (imagePhase d 5 s) := by
    rw [imageChecked, applyingGroups, if_neg hne, List.foldl_map, List.foldl_map]
  rw [hfold]
  exact getF_foldl_setGroup (List.mem_map_of_mem hx) _

theorem getF_imageWaits (p : Port) (d : ImageDesc) (s : State) (f : Fld) : getF (imageWaits p d s) f = getF (imageChecked d s) f :=
  getF_congr (wts_kept (imageChecked d s) _ .flds (by decide)) f

/-! ### A whole image is applied (R362) -/

section
variable {s : State} {p : Port} {d : ImageDesc} {g : List (Nat × Nat)} (ha : stageAlive s = true)
  (h : s.wts.imgRun = some ⟨p, some d, g⟩)
include ha h

theorem exec_wholeApply_idle (hi : d.kind ≠ 0 ∨ s.portion ≠ none) : exec .wholeApply s = .next s := by
  refine congrArg Host.Outcome.next ((if_pos ha).trans ?_)
  unfold applyWhole
  rw [h]
  refine if_pos ?_
  obtain hi | hi := hi
  · simp [hi]
  · simp [Option.isSome_iff_ne_none.mpr hi]

section
variable (hk : d.kind = 0) (hp : s.portion = none)
include hk hp

theorem exec_wholeApply_refused (hc : s.ctxs ≠ [] ∨ noHold s = false ∨ s.suspended ≠ none) :
    exec .wholeApply s = .next (imageRefused (badRes 8 noItem) s) := by
  refine congrArg Host.Outcome.next ((if_pos ha).trans ?_)
  unfold applyWhole
  rw [h]
  refine (if_neg (by simp [hk, hp])).trans (if_pos ?_)
  obtain hc | hc | hc := hc
  · simp [hc]
  · simp [hc]
  · simp [Option.isSome_iff_ne_none.mpr hc]

theorem exec_wholeApply (hc : s.ctxs = []) (hn : noHold s = true) (hs : s.suspended = none) (hl : s.wts.load = none)
    (hw : s.wts.switchTo = none) (hslot : ∀ n, n < 2 → slotState s n ≠ 1 ∧ slotState s n ≠ 4) (hf : fitOf s d = none) :
    exec .wholeApply s = .next (installWhole d s) := by
  refine congrArg Host.Outcome.next ((if_pos ha).trans ?_)
  unfold applyWhole
  rw [h]
  refine (if_neg (by simp [hk, hp])).trans ((if_neg (by simp [hc, hn, hs])).trans ((if_neg ?_).trans ?_))
  · simp [hl, hw, hslot 0 (by decide), hslot 1 (by decide)]
  · rw [hf]

end

/-! ### A regional image is applied (R363) -/

theorem exec_regionalApply_idle (hi : d.kind = 0 ∨ s.portion ≠ none ∨ s.suspended ≠ none) : exec .regionalApply s = .next s := by
  refine congrArg Host.Outcome.next ((if_pos ha).trans ?_)
  unfold applyRegional
  rw [h]
  refine if_pos ?_
  obtain hi | hi | hi := hi
  · simp [hi]
  · simp [Option.isSome_iff_ne_none.mpr hi]
  · simp [Option.isSome_iff_ne_none.mpr hi]

theorem exec_regionalApply (hk : d.kind ≠ 0) (hp : s.portion = none) (hs : s.suspended = none) (hr : regionBad s d = false)
    (hf : fitOf s (combined s d) = none) : exec .regionalApply s = .next (installRegional d s) := by
  refine congrArg Host.Outcome.next ((if_pos ha).trans ?_)
  unfold applyRegional
  rw [h]
  refine (if_neg (by simp [hk, hp, hs])).trans ((if_neg (by simp [hr])).trans ?_)
  rw [hf]

end

/-! ### What is installed -/

/-- The image's bytes in its area and in core SRAM (R367). -/
theorem placeImage_kept (d : ImageDesc) (s : State) : keptBut [.extents, .mem, .marks, .flds] s (placeImage d s) := by
  have hext (l : List Nat) : keptBut [.extents] s (l.foldl (fun t x => setExtent t x ⟨.resident, .pin, .image, 0, 0, none, t.now, false, false, []⟩) s) :=
    foldl_kept l s fun t x => setExtent_kept t x _
  exact (keptBut_trans (keptBut_trans (hext _) (putRuns_spec _ _).2.1) (putRuns_spec _ _).2.1).mono (by decide)

/-- The registers that the loaded image shows in and that nothing behind it writes. -/
def shownFlds : List Fld := [Reg.ENG_IMG_STATE_STATE, Reg.ENG_IMG_SEQ, Reg.ENG_KV_POOL_PAGES]

/-- What follows an image that has been put in place: tables, discovery and pending units. -/
def followParts : List Part := discoveryParts ++ shutterParts ++ [.mesh]

theorem mesh_kept (s : State) (x : MeshSt) : keptBut [.mesh] s { s with mesh := x } := fun p hp => by
  cases p with
  | mesh => exact absurd hp (by decide)
  | _ => rfl

section
variable {fs : List Fld} {s t : State} (h : Touches followParts (sparing fs) s t)
include h

theorem Touches.follow_distRewrite (hf : ∀ f ∈ fs, shutterKey (fldKey f .a) = false) : Touches followParts (sparing fs) s (distRewrite t) :=
  h.step (touches_distRewrite t) (by decide) (sparing_imp hf)

theorem Touches.follow_applyPending (hf : ∀ f ∈ fs, pendingKey (fldKey f .a) = false) : Touches followParts (sparing fs) s (applyPending t) :=
  h.step (applyPending_touches t) (by decide) (sparing_imp hf)

theorem Touches.follow_rediscover (hf : ∀ f ∈ fs, discoveryKey (fldKey f .a) = false) : Touches followParts (sparing fs) s (rediscover t) :=
  h.step (rediscover_touches t) (by decide) (sparing_imp hf)

end

theorem writeWindows_touches (ws : List JobWin) (s : State) : Touches [.mem, .marks, .flds] storeKey s (writeWindows ws s) := by
  have hzero (a n : Nat) : keptBut [.mem, .marks] s (zeroRange s a n) := fun p hp => by
    cases p with
    | mem | marks => exact absurd hp (by decide)
    | _ => rfl
  exact .putDev (.ite (.keep (.refl s) (hzero _ _)) (.refl s)) fun _ => id

/-- The image's own fields, as its header and sections give them. -/
def shownWrites (d : ImageDesc) : List (Fld × Nat) :=
  [(Reg.ENG_IMG_STATE_STATE, 1), (Reg.ENG_IMG_SEQ, d.seq), (Reg.ENG_IMG_STATE_ENTRY, b2n (d.serving.firstLayer == 0)),
    (Reg.ENG_IMG_STATE_LAST, b2n (d.serving.lastLayer + 1 == d.serving.modelLayers)), (Reg.ENG_IMG_STATE_PREFIX_MODE, d.serving.prefixMode),
    (Reg.MEM_GEN_STATE_ENTRY, b2n (d.serving.firstLayer == 0)), (Reg.ENG_KV_POOL_PAGES, d.serving.kvPoolPages),
    (Reg.CTX_CAPTURE_BASE, (d.vmap.capture.getD ⟨0, 0⟩).base)]

theorem shownWrites_nodup : ([Reg.ENG_IMG_STATE_STATE, Reg.ENG_IMG_SEQ, Reg.ENG_IMG_STATE_ENTRY, Reg.ENG_IMG_STATE_LAST,
    Reg.ENG_IMG_STATE_PREFIX_MODE, Reg.MEM_GEN_STATE_ENTRY, Reg.ENG_KV_POOL_PAGES, Reg.CTX_CAPTURE_BASE].map fun f => fldKey f .a).Nodup := by
  decide

/-- Behind those the logical modules and the groups' states are shown. -/
theorem showImage_rest (d : ImageDesc) (s : State) :
    Touches [.flds] (sparing shownFlds) (setPort .a s (shownWrites d)) (showImage d s) := by
  have hlog : ∀ k : Fin 8, sparing shownFlds (fldKey (Reg.ENG_IMG_LOGICAL k) .a) = true := by decide
  have hgrp : ∀ n : Fin 64, sparing shownFlds (fldKey (Reg.ENG_IMG_GROUPS_GROUP n) .a) = true := by decide
  exact .foldl_mem (.foldl_mem (.refl _) fun u k hk => .setF (.refl u) (hlog ⟨k, List.mem_range.mp hk⟩))
    fun u n hn => .setF (.refl u) (hgrp ⟨n, List.mem_range.mp hn⟩)

theorem showImage_kept (d : ImageDesc) (s : State) : keptBut [.flds] s (showImage d s) :=
  (keptBut_trans (setPort_kept _ _ _) (showImage_rest d s).parts).mono (by decide)

theorem showImage_regs (d : ImageDesc) (s : State) : getF (showImage d s) Reg.ENG_IMG_STATE_STATE = 1 ∧
    getF (showImage d s) Reg.ENG_IMG_SEQ = d.seq % 2 ^ 32 ∧ getF (showImage d s) Reg.ENG_KV_POOL_PAGES = d.serving.kvPoolPages % 2 ^ 32 := by
  have hread : ∀ w ∈ shownWrites d, sparing shownFlds (fldKey w.1 .a) = false → getF (showImage d s) w.1 = w.2 % 2 ^ w.1.len :=
    fun w hw hk => ((showImage_rest d s).getF hk).trans (getP_setPort (ws := shownWrites d) (p := .a) (s := s) shownWrites_nodup w hw)
  simp only [shownWrites, List.forall_mem_cons] at hread
  obtain ⟨hst, hseq, -, -, -, -, hpool, -⟩ := hread
  exact ⟨hst (by decide), hseq (by decide), hpool (by decide)⟩

/-- R362: the loads that the new image keeps, and nothing of the others. -/
def loadsFor (d : ImageDesc) (s : State) : State :=
  match s.img with
  | none => dropLoads s
  | some i => if keepsLoads i d then refetchPins i d s else dropLoads s

theorem dropLoads_kept (s : State) : keptBut slotParts s (dropLoads s) := by
  have hslots := keptBut_trans (emptySlot_touches 0 s).parts (emptySlot_touches 1 (emptySlot 0 s)).parts
  exact (keptBut_trans hslots (foldl_kept s.wts.smalls _ fun t m => (freeSmall_touches m.1 t).parts)).mono (by decide)

theorem loadsFor_kept (d : ImageDesc) (s : State) : keptBut slotParts s (loadsFor d s) := by
  unfold loadsFor
  split
  · exact dropLoads_kept s
  · exact keptBut_ite ((extents_kept s _).mono (by decide)) (dropLoads_kept s)

/-- The whole image in its area, with the pool empty. -/
def wholePlaced (d : ImageDesc) (s : State) : State :=
  { placeImage d (freeArea (clearPool (loadsFor d s))) with img := some d, wts.area := [(0, d.totalBytes)] }

theorem wholePlaced_spec (d : ImageDesc) (s : State) : (wholePlaced d s).img = some d ∧ (wholePlaced d s).wts.area = [(0, d.totalBytes)] ∧
    (wholePlaced d s).prefs = [] ∧ (wholePlaced d s).pages = [] ∧ (wholePlaced d s).ctxs = s.ctxs := by
  have hk := placeImage_kept d (freeArea (clearPool (loadsFor d s)))
  exact ⟨rfl, rfl, hk .prefs (by decide), hk .pages (by decide), (hk .ctxs (by decide)).trans (loadsFor_kept d s .ctxs (by decide))⟩

/-- And all that follows it, up to the end of its load. -/
def wholeFollowed (d : ImageDesc) (s : State) : State :=
  applyPending (rediscover (distRewrite { writeWindows d.windows (showImage d (wholePlaced d s)) with
    mesh.detoured := obstacles (showImage d (wholePlaced d s)) }))

theorem installWhole_eq (d : ImageDesc) (s : State) : installWhole d s = imageDone (wholeFollowed d s) := rfl

theorem wholeFollowed_touches (d : ImageDesc) (s : State) :
    Touches followParts (sparing shownFlds) (showImage d (wholePlaced d s)) (wholeFollowed d s) := by
  have hwin : Touches followParts (sparing shownFlds) (showImage d (wholePlaced d s)) (writeWindows d.windows (showImage d (wholePlaced d s))) :=
    .step (.refl _) (writeWindows_touches _ _) (by decide) (sparing_imp (by decide))
  exact (((hwin.keep (mesh_kept _ _)).follow_distRewrite (by decide)).follow_rediscover (by decide)).follow_applyPending (by decide)

theorem installWhole_spec (d : ImageDesc) (s : State) : let t := installWhole d s
    t.img = some d ∧ t.prefs = [] ∧ t.pages = [] ∧ t.ctxs = s.ctxs ∧ t.wts.imgRun = none ∧ t.wts.area = [(0, d.totalBytes)] ∧
      getB t Reg.ENG_IMG_STATUS_BUSY = false ∧ getF t Reg.ENG_IMG_STATUS_STATUS = 0 ∧ getF t Reg.ENG_IMG_STATE_STATE = 1 ∧
      getF t Reg.ENG_IMG_SEQ = d.seq % 2 ^ 32 ∧ getF t Reg.ENG_KV_POOL_PAGES = d.serving.kvPoolPages % 2 ^ 32 := by
  rw [installWhole_eq]
  intro t
  obtain ⟨himg, harea, hprefs, hpages, hctxs⟩ := wholePlaced_spec d s
  obtain ⟨hst, hseq, hpool⟩ := showImage_regs d (wholePlaced d s)
  have hf := wholeFollowed_touches d s
  have he := imageEnds_touches 0 0 0 0 (wholeFollowed d s)
  obtain ⟨hbusy, hstatus, -⟩ := imageEnds_regs 0 0 0 0 (wholeFollowed d s)
  have hw : t.wts = _ := imageEnds_wts 0 0 0 0 (wholeFollowed d s)
  have hk : keptBut (.wts :: irqParts ++ followParts) (wholePlaced d s) t :=
    (keptBut_trans (keptBut_trans (showImage_kept d _) hf.parts) he.parts).mono (by decide)
  have hwts : (wholeFollowed d s).wts = (wholePlaced d s).wts :=
    (hf.parts .wts (by decide)).trans (showImage_kept d _ .wts (by decide))
  exact ⟨(hk .img (by decide)).trans himg, (hk .prefs (by decide)).trans hprefs, (hk .pages (by decide)).trans hpages,
    (hk .ctxs (by decide)).trans hctxs, by rw [hw], by rw [hw, hwts, harea], hbusy, hstatus,
    ((he.getF (by decide)).trans (hf.getF (by decide))).trans hst, ((he.getF (by decide)).trans (hf.getF (by decide))).trans hseq,
    ((he.getF (by decide)).trans (hf.getF (by decide))).trans hpool⟩

/-- The regional image in its area. -/
def regionalArea (d : ImageDesc) (s : State) : State := placeImage d { s with img := some (combined s d), wts.area := areaAfter s d }

theorem regionalArea_spec (d : ImageDesc) (s : State) : (regionalArea d s).img = some (combined s d) ∧
    keptBut [.img, .wts, .extents, .mem, .marks, .flds] s (regionalArea d s) := by
  have h0 : keptBut [.img, .wts] s { s with img := some (combined s d), wts.area := areaAfter s d } := fun p hp => by
    cases p with
    | img | wts => exact absurd hp (by decide)
    | _ => rfl
  have hplace := placeImage_kept d { s with img := some (combined s d), wts.area := areaAfter s d }
  exact ⟨hplace .img (by decide), (keptBut_trans h0 hplace).mono (by decide)⟩

/-- The loaded groups that the image takes over. -/
def takenGroups (d : ImageDesc) (s : State) : List Nat :=
  match s.img with
  | some o => (o.groups.filter (inRegionOf d)).map fun (g : ImgGroup) => g.idx
  | none => []

/-- The regional image in its area, its groups shown in place of those it takes over. -/
def regionalPlaced (d : ImageDesc) (s : State) : State :=
  d.groups.foldl (fun t g => setGroup g.idx 1 t) ((takenGroups d s).foldl (fun t g => setGroup g 0 t) (regionalArea d s))

/-- R363: the image's detours take effect. -/
def detoursPlaced (d : ImageDesc) (u : State) : State :=
  if d.detours.isEmpty then u
  else distRewrite (setF { u with mesh.detoured := obstacles u } Reg.NOC_DETOUR_SEQ (getF u Reg.NOC_DETOUR_SEQ + 1))

/-- And the detours and pending units that follow it. -/
def regionalFollowed (d : ImageDesc) (s : State) : State := applyPending (detoursPlaced d (regionalPlaced d s))

theorem installRegional_eq (d : ImageDesc) (s : State) : installRegional d s = imageDone (regionalFollowed d s) := rfl

theorem regionalPlaced_spec (d : ImageDesc) (s : State) : (regionalPlaced d s).img = some (combined s d) ∧
    keptBut [.img, .wts, .extents, .mem, .marks, .flds] s (regionalPlaced d s) := by
  obtain ⟨himg, harea⟩ := regionalArea_spec d s
  have htaken := foldl_kept (takenGroups d s) (regionalArea d s) fun u g => setGroup_kept g 0 u
  have hk := keptBut_trans htaken (foldl_kept d.groups _ fun u g => setGroup_kept g.idx 1 u)
  exact ⟨(hk .img (by decide)).trans himg, (keptBut_trans harea hk).mono (by decide)⟩

theorem getF_regionalPlaced {d : ImageDesc} {x : ImgGroup} (hx : x ∈ d.groups) (s : State) :
    getF (regionalPlaced d s) (Reg.ENG_IMG_GROUPS_GROUP x.idx) = 1 := by
  unfold regionalPlaced
  rw [← List.foldl_map (f := fun g : ImgGroup => g.idx) (g := fun t n => setGroup n 1 t)]
  exact getF_foldl_setGroup (List.mem_map_of_mem hx) _

/-- The registers in which the groups of ENG_IMG_GROUPS stand. -/
def groupFlds : List Fld := (List.range 64).map Reg.ENG_IMG_GROUPS_GROUP

theorem groupFlds_apart : ∀ f ∈ groupFlds, shutterKey (fldKey f .a) = false ∧ pendingKey (fldKey f .a) = false ∧
    fldKey Reg.NOC_DETOUR_SEQ .a ≠ fldKey f .a := by
  decide +kernel

theorem detoursPlaced_touches (d : ImageDesc) (u : State) : Touches followParts (sparing groupFlds) u (detoursPlaced d u) := by
  have hdetour : Touches followParts (sparing groupFlds) u
      (setF { u with mesh.detoured := obstacles u } Reg.NOC_DETOUR_SEQ (getF u Reg.NOC_DETOUR_SEQ + 1)) := by
    refine .setF (.keep (.refl u) (mesh_kept u _)) ?_
    simpa [sparing, oneOf] using fun f hf e => (groupFlds_apart f hf).2.2 e.symm
  exact .ite (.refl u) (hdetour.follow_distRewrite fun f hf => (groupFlds_apart f hf).1)

theorem regionalFollowed_touches (d : ImageDesc) (s : State) :
    Touches followParts (sparing groupFlds) (regionalPlaced d s) (regionalFollowed d s) :=
  (detoursPlaced_touches d (regionalPlaced d s)).follow_applyPending fun f hf => (groupFlds_apart f hf).2.1

theorem installRegional_spec (d : ImageDesc) (s : State) : let t := installRegional d s
    t.img = some (combined s d) ∧ t.prefs = s.prefs ∧ t.pages = s.pages ∧ t.ctxs = s.ctxs ∧ t.wts.imgRun = none ∧
      getB t Reg.ENG_IMG_STATUS_BUSY = false ∧ getF t Reg.ENG_IMG_STATUS_STATUS = 0 ∧
      ((∀ x ∈ d.groups, x.idx < 64) → ∀ x ∈ d.groups, getF t (Reg.ENG_IMG_GROUPS_GROUP x.idx) = 1) := by
  rw [installRegional_eq]
  intro t
  obtain ⟨himg, hplaced⟩ := regionalPlaced_spec d s
  have hf := regionalFollowed_touches d s
  have he := imageEnds_touches 0 0 0 0 (regionalFollowed d s)
  obtain ⟨hbusy, hstatus, -⟩ := imageEnds_regs 0 0 0 0 (regionalFollowed d s)
  have hw : t.wts = _ := imageEnds_wts 0 0 0 0 (regionalFollowed d s)
  have hk : keptBut (followParts ++ .wts :: irqParts) (regionalPlaced d s) t := keptBut_trans hf.parts he.parts
  refine ⟨(hk .img (by decide)).trans himg, (hk .prefs (by decide)).trans (hplaced .prefs (by decide)),
    (hk .pages (by decide)).trans (hplaced .pages (by decide)), (hk .ctxs (by decide)).trans (hplaced .ctxs (by decide)), by rw [hw],
    hbusy, hstatus, fun hidx x hx => ?_⟩
  have hend : imageEndKey (fldKey (Reg.ENG_IMG_GROUPS_GROUP x.idx) .a) = false := (groupKey_apart ⟨x.idx, hidx x hx⟩).1
  have hgrp : sparing groupFlds (fldKey (Reg.ENG_IMG_GROUPS_GROUP x.idx) .a) = false := by
    simpa [sparing, oneOf, groupFlds] using ⟨x.idx, hidx x hx, rfl⟩
  exact ((he.getF hend).trans (hf.getF hgrp)).trans (getF_regionalPlaced hx s)

end Sys2Proof.Machine
end

