-- ==== Sys2Proof/Proofs/BarAndImages.lean ====
section
/-!
SUPPORT. Proofs/BarAndImages.lean: what the host's accesses through BAR2 do, and O55 (R213, R357, R358, R362, R363, R365, R421, R435,
R447).
-/
namespace Sys2Proof.Machine

theorem out_emit_of {s u : State} (h : u.out = s.out) (o : Out) : (emit u o).out = o :: s.out := congrArg (o :: ·) h

theorem rdByte_emit (s : State) (o : Out) (a : Nat) : rdByte (emit s o) a = rdByte s a := rfl

theorem rdLe_emit (s : State) (o : Out) (a n : Nat) : rdLe (emit s o) a n = rdLe s a n := rdLe_congr fun _ _ => rdByte_emit _ _ _

section
variable {s : State} (ha : stageAlive s = true) (p : Port)
include ha

section
variable {off len : Nat} {hostOk : Bool} (hin : inBar2 s p off len = true) (hd : devReadOk s (barAddr s p off) len = true)
  (hl : barAllowed (readLease s) s p (barAddr s p off) len = true) (hlt : barAddr s p off + len ≤ 2 ^ 38)
include hin hd hl hlt

/-- A read of granules without a failing one returns the bytes. -/
theorem exec_bar2Read_passes (hm : anyMarked s (barAddr s p off) len = false) : ∃ t, exec (.bar2Read p off len [] hostOk) s = .next t ∧
    t.out = .readData p (rdBytes s (barAddr s p off) len) :: s.out ∧ regsKept pmcKey s t ∧ keptBut [.flds, .out] s t := by
  have hpass : ∀ g ∈ granulesOf (barAddr s p off) len, g * 64 < 2 ^ 38 ∧ checkOf s [] g = .ok := fun g hg => by
    have hclean : marked s g = false := by simpa using List.any_eq_false.mp hm g hg
    have hbound := mem_granulesOf.mp hg
    exact ⟨by omega, checkOf_unmarked hclean []⟩
  have hk := countReads_kept (granulesOf (barAddr s p off) len) s
  exact ⟨_, exec_bar2Read ha p off hostOk hin hd hl (foldl_barGranule_passes hpass hostOk),
    out_emit_of (hk .out (by decide)) _, regsKept_countReads _ s, keptBut_trans hk (emit_kept _ _)⟩

/-- A read within one granule that fails returns its bytes poisoned, and the detection is counted. -/
theorem exec_bar2Read_poisoned (hpos : 0 < len) (hone : barAddr s p off / 64 = (barAddr s p off + len - 1) / 64)
    (hm : marked s (barAddr s p off / 64) = true) : ∃ t, exec (.bar2Read p off len [] hostOk) s = .next t ∧
      t.out = .readPoisoned p (rdBytes s (barAddr s p off) len) :: s.out ∧
      getF t Reg.MEM_DRAM_DETECT = min (getF s Reg.MEM_DRAM_DETECT + 1) (2 ^ 64 - 1) ∧ keptBut [.marks, .flds, .out] s t := by
  have hfold : (granulesOf (barAddr s p off) len).foldl (barGranule [] hostOk) (s, false) = (barDetect (barAddr s p off / 64) s, true) := by
    have hg : barAddr s p off / 64 * 64 < 2 ^ 38 := by omega
    rw [granulesOf_within_one hpos hone, List.foldl_cons, List.foldl_nil, barGranule_fails hg (checkOf_marked hm [])]
    rfl
  have hk := barDetect_kept (barAddr s p off / 64) s
  have hexec := exec_bar2Read ha p off hostOk hin hd hl hfold
  rw [if_pos rfl] at hexec
  exact ⟨_, hexec, out_emit_of (hk .out (by decide)) _, (getF_emit _ _ _).trans (getF_barDetect _ s), keptBut_trans hk (emit_kept _ _)⟩

end

section
variable {off w : Nat} (fn : BarAtom) (wide : Bool) (x y : BitVec 64) (chk : Check) (hw : w = if wide then 8 else 4)
  (hin : inBar2 s p off w = true) (hal : barAddr s p off % w = 0) (hok : devWriteOk s (barAddr s p off) w = true)
  (hl : barAllowed (writeLease s) s p (barAddr s p off) w = true)
include hw hin hal hok hl

theorem exec_bar2Atomic_applies (hm : marked s (barAddr s p off / 64) = false) (hc : chk = .ok) :
    ∃ t, exec (.bar2Atomic p fn wide off x y chk) s = .next t ∧ t.out = .readData p (rdBytes s (barAddr s p off) w) :: s.out ∧
      rdLe t (barAddr s p off) w = barAtomNew fn (8 * w) (rdLe s (barAddr s p off) w) x.toNat y.toNat ∧
      memKept (within (barAddr s p off) w) s t ∧ regsKept storeKey s t ∧ keptBut [.mem, .marks, .flds, .out] s t := by
  have hcheck : checkOf s [(barAddr s p off / 64, chk)] (barAddr s p off / 64) = .ok := by
    rw [checkOf_unmarked hm, hc, alGet, if_pos rfl]
    rfl
  have hbar := barAtomic_touches s (barAddr s p off / 64) (barAddr s p off) w
    (barAtomNew fn (8 * w) (rdLe s (barAddr s p off) w) x.toNat y.toNat) (.readData p (rdBytes s (barAddr s p off) w))
  have hcount := countGranules_kept (barAddr s p off / 64 * 64) 64 0 s
  have hstore := memKept_putBytes (countGranules (barAddr s p off / 64 * 64) 64 0 s) (barAddr s p off)
    (leBytes w (barAtomNew fn (8 * w) (rdLe s (barAddr s p off) w) x.toNat y.toNat))
  rw [leBytes_length] at hstore
  refine ⟨_, exec_bar2Atomic ha p off fn wide x y chk hw hin rfl hal hok hl hcheck,
    out_emit_of ((keptBut_trans hcount (putBytes_kept _ _ _)) .out (by decide)) _,
    (rdLe_emit _ _ _ _).trans (rdLe_putBytes_lt (barAtomNew_lt fn _ _ (rdLe_lt s _ _))),
    fun c hc => (rdByte_emit _ _ _).trans ((hstore c hc).trans (rdByte_congr (hcount .mem (by decide)) c)), hbar.regs, hbar.parts⟩

theorem exec_bar2Atomic_poisoned (hc : marked s (barAddr s p off / 64) = true ∨ chk = .hard) :
    ∃ t, exec (.bar2Atomic p fn wide off x y chk) s = .next t ∧ t.out = .readPoisoned p (rdBytes s (barAddr s p off) w) :: s.out ∧
      keptBut [.marks, .flds, .out] s t := by
  have hcheck : checkOf s [(barAddr s p off / 64, chk)] (barAddr s p off / 64) = .hard := by
    cases hm : marked s (barAddr s p off / 64) with
    | true => exact checkOf_marked hm _
    | false =>
      rw [checkOf_unmarked hm, hc.resolve_left (by simp [hm]), alGet, if_pos rfl]
      rfl
  have hk := barDetect_kept (barAddr s p off / 64) s
  refine ⟨_, exec_bar2Atomic_fails ha p off fn wide x y chk hw hin rfl hal hok hl hcheck, out_emit_of (hk .out (by decide)) _,
    keptBut_trans hk (emit_kept _ _)⟩

end

end

theorem getF_imageGo {s : State} (r : ImgRun) : getB { setPort .a s imageGoWrites with wts.imgRun := some r } Reg.ENG_IMG_STATUS_BUSY = true ∧
    getF { setPort .a s imageGoWrites with wts.imgRun := some r } Reg.ENG_IMG_STATUS_PHASE = 1 ∧
    getF { setPort .a s imageGoWrites with wts.imgRun := some r } Reg.ENG_IMG_STATUS_PROGRESS = 0 := by
  have hnodup : ((imageGoWrites.map Prod.fst).map fun f => fldKey f .a).Nodup := by decide
  have hread := getP_setPort (s := s) hnodup
  simp only [imageGoWrites, List.forall_mem_cons] at hread
  obtain ⟨hbusy, hphase, hprogress, -⟩ := hread
  exact ⟨getB_of_getF (b := true) hbusy rfl, hphase, hprogress⟩

/-- Settles O55: an access beyond BAR2 does nothing, an allowed one goes to memory granule by granule, any other is logged; and a load
of an image goes from GO over its checks to its boundary, where it is installed. -/
theorem bar2AccessesAndImages : Obligations.Bar2AccessesAndImages := by
  unfold Obligations.Bar2AccessesAndImages
  refine ⟨?_, ?_, ?_, fun s d ok h => exec_image_idle h d ok, ?_⟩
  · intro s p off len bytes fn wide x y chk ok ha a n w logged
    refine ⟨exec_bar2Write_beyond ha p off bytes, exec_bar2Read_beyond ha p off len ok, exec_bar2Atomic_beyond ha p off fn wide x y chk rfl,
      ?_, ?_, ?_, ?_, ?_, ?_⟩
    · intro hin hok hl
      have hmem := memKept_putBytes s a (bytes.map fun b => b.toNat)
      rw [List.length_map] at hmem
      exact ⟨_, exec_bar2Write ha p off bytes hin hok hl, rdBytes_putBytes_self s a bytes, hmem, regsKept_putBytes _ _ _,
        putBytes_kept _ _ _⟩
    · exact fun hin hr => ⟨_, exec_bar2Write_refused ha p off bytes hin hr, barRefused_logged, barRefused_kept⟩
    · exact fun hin hlt hd hl => ⟨exec_bar2Read_passes ha p hin hd hl hlt, exec_bar2Read_poisoned ha p hin hd hl hlt⟩
    · exact fun hin hr => ⟨_, exec_bar2Read_refused ha p off len ok hin hr, out_emit_of (barRefused_kept .out (by decide)) _,
        barRefused_logged, keptBut_trans barRefused_kept (emit_kept _ _)⟩
    · exact fun hin hal hok hl => ⟨exec_bar2Atomic_applies ha p fn wide x y chk rfl hin hal hok hl,
        exec_bar2Atomic_poisoned ha p fn wide x y chk rfl hin hal hok hl⟩
    · exact fun hin hr => ⟨_, exec_bar2Atomic_refused ha p off fn wide x y chk rfl hin hr,
        out_emit_of (barRefused_kept .out (by decide)) _, barRefused_logged, keptBut_trans barRefused_kept (emit_kept _ _)⟩
  · intro s p q ha
    refine ⟨exec_imageGo_busy ha p, fun h => ?_, fun h => exec_imageAbort_idle ha p ?_, fun h => ?_⟩
    · obtain ⟨hbusy, hphase, hprogress⟩ := getF_imageGo (s := s) ⟨p, none, []⟩
      have hk := setPort_kept .a s imageGoWrites
      exact ⟨_, exec_imageGo ha p h, hbusy, hphase, hprogress,
        congrArg (fun w : WtsSt => { w with imgRun := some ⟨p, none, []⟩ }) (hk .wts (by decide)),
        regsKept_setPort_oneOf s imageGoWrites, (keptBut_trans hk (wts_kept (setPort .a s imageGoWrites) _)).mono (by decide)⟩
    · rintro q' g hr
      obtain h | ⟨d, g', h⟩ := h <;> simp [h] at hr
    · obtain ⟨hbusy, hst, -, -, -, hw, hk⟩ := imageRefused_spec ⟨0x23, 0, 0, 0⟩ s
      exact ⟨_, exec_imageAbort ha p h, hbusy, hst, hw, hk⟩
  · intro s p d ok h
    refine ⟨fun b hb => ?_, fun hb => ?_⟩
    · obtain ⟨u, hexec, hu⟩ := exec_imageFetchDone_refused h hb
      obtain ⟨hbusy, hst, hkind, hcode, hitem, hw, hk⟩ := imageRefused_spec b u
      exact ⟨_, hexec, hbusy, hst, hkind, hcode, hitem, by rw [hw, hu .wts (by decide)], (keptBut_trans hu hk).mono (by decide)⟩
    · refine ⟨_, _, exec_imageFetchDone_passes h hb, imageWaits_wts p d s, fun hd => ?_, imageWaits_kept p d s⟩
      obtain ⟨hphase, hkind⟩ := imageChecked_regs (s := s) hd
      exact ⟨(getF_imageWaits p d s _).trans hphase, (getF_imageWaits p d s _).trans hkind,
        fun hne x hx => (getF_imageWaits p d s _).trans (getF_imageChecked_group hne hx)⟩
  · intro s p d g ha h
    refine ⟨exec_wholeApply_idle ha h, exec_regionalApply_idle ha h, fun hk hp hc => ?_, fun hk hc hn hs hl hw hslot hf => ?_,
      fun hk hp hs hr hf => ⟨_, exec_regionalApply ha h hk hp hs hr hf, installRegional_spec d s⟩⟩
    · obtain ⟨hbusy, hst, hkind, hcode, -, hw, hkept⟩ := imageRefused_spec (badRes 8 noItem) s
      exact ⟨_, exec_wholeApply_refused ha h hk hp hc, hbusy, hst, hkind, hcode, hw, hkept⟩
    · have hp : s.portion = none := by
        simp only [noHold, Bool.and_eq_true, Option.isNone_iff_eq_none] at hn
        exact hn.1.1.1
      obtain ⟨himg, hprefs, hpages, hctxs, hrest⟩ := installWhole_spec d s
      exact ⟨_, exec_wholeApply ha h hk hp hc hn hs hl hw hslot hf, himg, hprefs, hpages, hctxs.trans hc, hrest⟩

end Sys2Proof.Machine
end

