-- ==== Sys2Proof/Proofs/Spent.lean ====
section
/-!
SUPPORT. Proofs/Spent.lean: what ends operations, steps and portions starts no portion and forgets no discarded step (R189, R210, R244,
R316, R323, R324).
-/
namespace Sys2Proof.Machine

/-- What the cores hold of the portion is discarded. -/
def coresForget (s : State) : State :=
  (List.range 192).foldl (fun t c => if (coreGet t c).outst.isEmpty && (coreGet t c).mxq.isEmpty then t else discardCore c t) s

/-- A core at the start of its list. -/
def coreRestarts (k : CoreSt) : CoreSt := { k with nextIndex := 0, stall := 7, stop := .run, preempt := false, inFallback := [] }

theorem clearCores_eq (s : State) : clearCores s =
    { coresForget s with barriers := [], cores := (coresForget s).cores.map fun c => (c.1, coreRestarts c.2) } := rfl

theorem mem_listAdd {l : List Nat} {x y : Nat} : x ∈ listAdd l y ↔ x ∈ l ∨ x = y := by
  unfold listAdd
  split
  · next h =>
    refine ⟨.inl, fun hx => hx.elim id ?_⟩
    rintro rfl
    exact List.contains_iff_mem.mp h
  · simp

/-- `t` is reached from `s` by operations that start no portion and forget no discarded step. -/
structure Spent (s t : State) : Prop where
  idle : s.portion = none → t.portion = none
  dead : ∀ x ∈ s.ctl.dead, x ∈ t.ctl.dead

namespace Spent
variable {s t u : State}

protected theorem refl (s : State) : Spent s s := ⟨id, fun _ => id⟩

/-- An update of other parts of the state. -/
protected theorem upd (h : Spent s t) (hp : u.portion = t.portion) (hd : u.ctl.dead = t.ctl.dead) : Spent s u :=
  ⟨fun e => hp.trans (h.idle e), fun x hx => hd ▸ h.dead x hx⟩

/-- An operation that changes neither part. -/
protected theorem keep {l : List Part} (h : Spent s t) (g : keptBut l t u) (hp : l.contains .portion = false := by decide)
    (hc : l.contains .ctl = false := by decide) : Spent s u := h.upd (g .portion hp) (congrArg CtlSt.dead (g .ctl hc))

protected theorem ite {c : Prop} [Decidable c] (h : Spent s t) (g : Spent s u) : Spent s (if c then t else u) := by
  split
  · exact h
  · exact g

protected theorem foldl_mem {α : Type} {f : State → α → State} {xs : List α} (h : Spent s t)
    (hf : ∀ u, ∀ x ∈ xs, Spent s u → Spent s (f u x)) : Spent s (xs.foldl f t) := by
  induction xs generalizing t with
  | nil => exact h
  | cons x xs ih => exact ih (hf t x List.mem_cons_self h) fun u y hy => hf u y (List.mem_cons_of_mem _ hy)

protected theorem foldl {α : Type} {f : State → α → State} {xs : List α} (h : Spent s t) (hf : ∀ u x, Spent s u → Spent s (f u x)) :
    Spent s (xs.foldl f t) := h.foldl_mem fun u x _ => hf u x

protected theorem bump {f : Fld} {n : Nat} (h : Spent s t) : Spent s (bump t f n) := h.keep (bump_kept t f n)
protected theorem setF {f : Fld} {v : Nat} (h : Spent s t) : Spent s (setF t f v) := h.keep (keptBut_setF t f v)

/-! ### Stores and results (R37, R312, R323) -/

protected theorem addPoison {x : PoisonSrc} (h : Spent s t) : Spent s (addPoison x t) :=
  ⟨fun e => congrArg (Option.map _) (h.idle e), h.dead⟩

protected theorem storeLocal {a : Nat} {bs : List Nat} (h : Spent s t) : Spent s (storeLocal t a bs) :=
  (h.keep (putBytes_kept t a bs)).foldl fun _ _ hu => hu.addPoison

protected theorem setMarks {gs : List Nat} {b : Bool} (h : Spent s t) : Spent s (setMarks t gs b) := h.keep (setMarks_kept t gs b)

protected theorem emit {o : Out} (h : Spent s t) : Spent s (emit t o) := h.upd rfl rfl

protected theorem putData {dst : Nat} {data : List Nat} {bad : Bool} (h : Spent s t) : Spent s (putData dst data bad t) :=
  .ite (.ite h.emit h) (.ite h.storeLocal.setMarks h.storeLocal)

protected theorem opResult {o : FabOp} {st old : Nat} {data : List Nat} (h : Spent s t) : Spent s (opResult o st old data t) := by
  unfold opResult
  refine .ite h ?_
  have herror : Spent s (errorValue o.dst o.size t) := (h.keep (putBytes_kept t _ _)).setMarks
  split
  · exact .ite h.putData herror
  · exact .ite h.putData h
  · exact .ite h.storeLocal h

/-! ### The step is discarded (R189, R244) -/

protected theorem releaseStepHolds {step : Nat} (h : Spent s t) : Spent s (releaseStepHolds step t) :=
  (h.upd (u := releaseHeld step (fun _ => true) t) rfl rfl).keep (serveWaiting_kept _)

protected theorem dropEgress {p : Portion} (h : Spent s t) : Spent s (dropEgress p t) := h.upd rfl rfl

protected theorem discardCore {c : Nat} (hc : c ≤ 1024) (h : Spent s t) : Spent s (discardCore c t) := by
  obtain ⟨-, -, -, -, -, hk, -⟩ := discardIns_spec c (fun _ => true) t hc
  exact h.keep hk

protected theorem coresForget (h : Spent s t) : Spent s (coresForget t) :=
  h.foldl_mem fun _ _ hc hu => .ite hu (hu.discardCore ((List.mem_range.mp hc).le.trans (by decide)))

protected theorem restart {bs : List (Nat × List Nat)} {ks : List (Nat × CoreSt)} (h : Spent s t) : Spent s { t with barriers := bs, cores := ks } :=
  h.upd rfl rfl

protected theorem clearCores (h : Spent s t) : Spent s (clearCores t) := clearCores_eq t ▸ h.coresForget.restart

protected theorem dropSaved (h : Spent s t) : Spent s (dropSaved t) := h.upd rfl rfl

protected theorem setCtx {id : Nat} {c : Ctx} (h : Spent s t) : Spent s (setCtx t id c) := h.upd rfl rfl

protected theorem modCtx {id : Nat} {f : Ctx → Ctx} (h : Spent s t) : Spent s (modCtx t id f) := by
  unfold modCtx
  split
  · exact h.setCtx
  · exact h

protected theorem zeroEntry {c : Ctx} {pos : Nat} (h : Spent s t) : Spent s (zeroEntry c t pos) := by
  unfold zeroEntry
  split
  · exact h.foldl fun u k hu => hu.foldl fun v off hv => hv.upd rfl rfl
  · exact h

protected theorem syncTable {id : Nat} (h : Spent s t) : Spent s (syncTable id t) := by
  unfold syncTable
  split
  · exact h
  · exact h.foldl fun u k hu => hu.keep (putDev_kept u _ _)

protected theorem discardAppends {id pos rows : Nat} (h : Spent s t) : Spent s (discardAppends id pos rows t) := by
  unfold discardAppends
  split
  · exact h
  · exact .syncTable (.setCtx (.upd (h.foldl fun u k hu => hu.zeroEntry) rfl rfl))

protected theorem discardStep {step : Nat} (h : Spent s t) : Spent s (discardStep step t) := by
  have hdrop := h.foldl (xs := (ofStep step t.portion).toList ++ (ofStep step t.suspended).toList ++ t.finals.filter fun p => p.hdr.step == step)
    fun u p hu => hu.dropEgress (p := p)
  have hcores := Spent.ite (c := (ofStep step t.portion).isSome = true) hdrop.clearCores hdrop
  have hsaved := Spent.ite (c := ((ofStep step t.suspended).isSome || ((ofStep step t.portion).isSome && t.suspended.isNone)) = true)
    hcores.dropSaved hcores
  refine .ite (.setF (.setF ?hctxs)) ?hctxs
  case hctxs =>
    refine Spent.foldl (.releaseStepHolds ⟨fun e => ?_, fun x hx => ?_⟩) fun u c hu => hu.setCtx.discardAppends
    · exact congrArg (Option.filter _) (hsaved.idle e)
    · exact mem_listAdd.mpr (.inl (hsaved.dead x hx))

/-! ### The step ends (R244, R245, R324, R342) -/

protected theorem irqBoth {n : Nat} (h : Spent s t) : Spent s (irqBoth n t) := h.keep (irqBoth_kept n t)

protected theorem journal {f : Flight} {status : Nat} {vary : Bool} (h : Spent s t) : Spent s (journal f status vary t) :=
  h.keep (ringPut_touches journalRing _ t).parts

protected theorem ctxBack {id : Nat} (h : Spent s t) : Spent s (ctxBack id t) := by
  unfold ctxBack
  split
  · exact h
  · exact .ite h.modCtx (.ite h.setCtx.setF.setF h.setCtx)

protected theorem reqDies {f : Flight} {status : Nat} {r : ReqRec} (h : Spent s t) : Spent s (reqDies f status r t) := by
  unfold reqDies
  split
  · exact h
  · next c _ =>
    have hdue : Spent s { t with ctl.due := t.ctl.due ++
        if c.entryDue then [dueEntry f c r.ctx status f.hdr.preemptions 0 0 0 false false] else [] } := h.upd rfl rfl
    exact .ite hdue.setCtx hdue.setCtx.ctxBack

protected theorem stepDies {step status : Nat} (h : Spent s t) : Spent s (stepDies step status t) := by
  unfold stepDies
  split
  · exact h
  · have hout : Spent s { t with ctl.flights := t.ctl.flights.filter fun f => f.hdr.step != step } := h.upd rfl rfl
    exact .journal (hout.discardStep.foldl fun u r hu => hu.reqDies)

protected theorem fabPump (h : Spent s t) : Spent s (fabPump t) := h.keep (fabPump_kept t)

protected theorem sendCtrl {kind target status step : Nat} (h : Spent s t) : Spent s (sendCtrl kind target status step t) :=
  .ite h (.fabPump (h.upd rfl rfl))

protected theorem endStepAt {step status : Nat} (h : Spent s t) : Spent s (endStepAt step status t) :=
  .ite (h.stepDies.foldl fun _ _ hu => hu.sendCtrl) h

protected theorem portionFailed {step status : Nat} (h : Spent s t) : Spent s (portionFailed step status t) := by
  refine .ite h.endStepAt ?_
  split
  · exact h.sendCtrl
  · exact h

/-! ### An operation ends (R316, R323, R324) -/

protected theorem noteStatus {o : FabOp} {st : Nat} (h : Spent s t) : Spent s (noteStatus o st t) := by
  unfold noteStatus
  split
  · exact h
  · exact .ite h (.ite ⟨fun e => congrArg (Option.map _) (h.idle e), h.dead⟩ h.portionFailed)

protected theorem complete {c : Nat} {u : XUnit} {index latency : Nat} (h : Spent s t) : Spent s (complete c u index latency t) := by
  obtain ⟨-, -, hk, -⟩ := complete_spec c u index latency t
  exact h.keep hk

protected theorem fenceNote {num : Nat} (h : Spent s t) : Spent s (fenceNote num t) := by
  have hfences (fs : List Fence) : Spent s { t with fab.fences := fs } := h.upd rfl rfl
  exact (hfences _).foldl fun _ _ hu => hu.complete

/-- What an operation that ends leaves behind. -/
protected theorem endOp {o : FabOp} {st old : Nat} {data : List Nat} (h : Spent s t) : Spent s (endOp o st old data t) := by
  refine .ite h (.noteStatus (.fenceNote ?_))
  have hseq {c : Prop} [Decidable c] {key n : Nat} : Spent s (if c then takeSeq key t else (n, t)).2 := by
    split
    · exact h.keep (takeSeq_kept key t)
    · exact h
  have hcomplete (r : State) (o1 : FabOp) (hr : Spent s r) (ops : List FabOp) {c : Prop} [Decidable c] {n : Nat} :
      Spent s (if c then opResult o1 st old data { r with fab.ops := ops }
        else complete o.core .mem o.index n (opResult o1 st old data { r with fab.ops := ops })) := by
    have hres : Spent s (opResult o1 st old data { r with fab.ops := ops }) := .opResult (hr.upd rfl rfl)
    exact .ite hres hres.complete
  split
  · exact (hcomplete _ _ hseq _).upd rfl rfl
  · exact hcomplete _ _ hseq _

protected theorem endDead {target : Nat} {o : FabOp} (h : Spent s t) : Spent s (endDead target t o) :=
  .ite (h.upd rfl rfl) (.endOp (.irqBoth (.setF (.setF (.setF (.setF h.bump))))))

/-! ### The egress hold (R210, R243) -/

protected theorem releaseOp {n : Nat} (h : Spent s t) : Spent s (releaseOp t n) := by
  unfold releaseOp
  split
  · exact h
  · have hput (o : FabOp) : Spent s (putOp o t) := h.keep (putOp_kept o t)
    dsimp only
    split
    · exact (hput _).endDead
    · exact (hput _).fabPump

protected theorem releasePortion {p : Portion} (h : Spent s t) : Spent s (releasePortion t p) := by
  have hfinals : Spent s { t with finals := t.finals.filter fun q => q.hdr.step != p.hdr.step } := h.upd rfl rfl
  exact Spent.upd (.emit (hfinals.foldl (xs := egressOps p) fun _ _ hu => hu.releaseOp)) rfl rfl

protected theorem releaseFinals {n : Nat} (h : Spent s t) : Spent s (releaseFinals n t) := by
  induction n generalizing t with
  | zero => exact h
  | succ n ih =>
    unfold releaseFinals
    split
    · exact ih h.releasePortion
    · exact h

/-! ### Slots that become empty (R228) -/

protected theorem emptySlot {n : Nat} (h : Spent s t) : Spent s (emptySlot n t) := by
  have hgone (x : List ExpertSt) (y : List (Nat × Extent)) (z : WtsSt) : Spent s { t with experts := x, extents := y, wts := z } :=
    h.upd rfl rfl
  have hpref (u : State) (p : Nat × Pref) (hu : Spent s u) : Spent s (if p.2.gen = n then dropPref p.1 u else u) :=
    .ite (hu.keep (dropPref_touches p.1 u).parts) hu
  have hroots (u : State) (hu : Spent s u) (rs : List (Nat × Nat)) : Spent s { u with ctl.roots := rs } := hu.upd rfl rfl
  exact .setF (.setF (hroots _ (.foldl (hgone _ _ _) hpref) _))

protected theorem drainSlots (h : Spent s t) : Spent s (drainSlots t) := h.foldl fun _ _ hu => .ite hu.emptySlot hu

end Spent

end Sys2Proof.Machine
end

