-- ==== Sys2Proof/Proofs/PortionEnds.lean ====
section
/-!
SUPPORT. Proofs/PortionEnds.lean: how a portion that ends is final, rerun or dead, and O37 (R208, R210, R211, R243, R261, R263, R324).
-/
namespace Sys2Proof.Machine

/-! ### Which end a portion finds (R211) -/

section
variable {s : State} {p : Portion} (h : s.portion = some p) (time : Nat)
include h

/-- The first end of a portion that reruns, and the second of one that does not, find no occasion. -/
theorem exec_portionEnd_rerun (hr : p.rerun = true) : exec (.portionEnd time) s = .next s := by
  refine congrArg Host.Outcome.next ?_
  rw [h]
  exact if_pos hr

theorem exec_portionRerunDone_first (hr : p.rerun = false) : exec (.portionRerunDone time) s = .next s := by
  refine congrArg Host.Outcome.next ?_
  rw [h]
  exact if_pos (by rw [hr]; rfl)

theorem exec_portionEnd_reruns (hr : p.rerun = false) (hf : p.fabStatus = 0) (hreg : p.failedRegion = false) (hp : p.poison ≠ []) :
    exec (.portionEnd time) s = .next (rerunPortion p (atTime time s)) := by
  refine congrArg Host.Outcome.next ?_
  rw [h]
  exact (if_neg (by simp [hr])).trans ((if_neg (by simp [hf])).trans ((if_neg (by simp [hreg])).trans (if_neg (by simpa using hp))))

section
variable {c : Instr} (hc : (c = .portionEnd time ∧ p.rerun = false) ∨ (c = .portionRerunDone time ∧ p.rerun = true))
include hc

theorem exec_portion_dies (hf : p.fabStatus ≠ 0) : exec c s = .next (portionDies p (atTime time s)) := by
  obtain ⟨rfl, hr⟩ | ⟨rfl, hr⟩ := hc
  all_goals
    refine congrArg Host.Outcome.next ?_
    rw [h]
    exact (if_neg (by simp [hr])).trans (if_pos hf)

/-- A portion that ends otherwise is final, with the status that its sources and recoveries give. -/
theorem exec_portion_final (hf : p.fabStatus = 0) (hp : p.rerun = false → p.poison = [] ∨ p.failedRegion = true) : exec c s =
    .next (portionFinal (if p.failedRegion ∨ p.poison ≠ [] then 0x31 else if p.rerun ∨ p.recovered then 0x30 else 0) p (atTime time s)) := by
  obtain ⟨rfl, hr⟩ | ⟨rfl, hr⟩ := hc
  · refine congrArg Host.Outcome.next ?_
    rw [h]
    refine (if_neg (by simp [hr])).trans ((if_neg (by simp [hf])).trans ?_)
    cases hreg : p.failedRegion with
    | true => simp
    | false =>
      have hclean : p.poison = [] := (hp hr).resolve_right (by simp [hreg])
      simp [hclean, hr]
  · refine congrArg Host.Outcome.next ?_
    rw [h]
    refine (if_neg (by simp [hr])).trans ((if_neg (by simp [hf])).trans ?_)
    cases hreg : p.failedRegion <;> cases hpoison : p.poison <;> simp [hr]

end

end

/-! ### The portion is dead (R324) -/

theorem portionDies_spec (p : Portion) (s : State) :
    (portionDies p s).portion = none ∧ p.hdr.step ∈ (portionDies p s).ctl.dead := by
  have hspent (u : State) : Spent u (drainSlots (portionFailed p.hdr.step p.fabStatus u)) := (Spent.refl u).portionFailed.drainSlots
  exact ⟨(hspent _).idle rfl, (hspent _).dead _ (mem_listAdd.mpr (.inr rfl))⟩

/-! ### The portion is final (R210, R211) -/

/-- The portion as it ends with a status. -/
def portionEnded (st : Nat) (p : Portion) : Portion := { p with ended := true, status := st, hdr := { p.hdr with status := max p.hdr.status st } }

/-- The portion is among the final ones, and none runs. -/
def portionOver (q : Portion) (s : State) : State := { s with portion := none, finals := s.finals ++ [q] }

/-- What the end of a portion counts, captures and follows before the hold is released. -/
def finalCounted (st : Nat) (p : Portion) (s : State) : State :=
  let q := portionEnded st p
  let s1 := countAttention q.hdr (countEv 0xEE9 1 (releaseStepHolds p.hdr.step (portionOver q s)))
  pace p (captureFinal q (finalCtxs q st (p.routes.foldl (commitRoute p.hdr.step) s1)))

def finalMarked (st : Nat) (p : Portion) (s : State) : State :=
  if st = 0x31 then bump (finalCounted st p s) Reg.MEM_UNRECOVERED 1 else finalCounted st p s

theorem portionFinal_eq (st : Nat) (p : Portion) (s : State) :
    portionFinal st p s = drainSlots (releaseFinals ((finalMarked st p s).finals.length + 1) (finalMarked st p s)) := rfl

/-- The parts that a final portion's counts and captures change, and the one counter that they leave. -/
def finalParts : List Part := [.experts, .extents, .flds, .ctl, .ctxs, .wts, .pwr, .mem, .marks, .ringRecs] ++ irqParts

def finalFree : Nat → Bool := sparing [Reg.MEM_UNRECOVERED]

section
variable {s t : State}

theorem Touches.final_ctxs (h : Touches finalParts finalFree s t) (x : List (Nat × Ctx)) : Touches finalParts finalFree s { t with ctxs := x } := by
  refine h.keep (m := [.ctxs]) fun p hp => ?_
  cases p with
  | ctxs => exact absurd hp (by decide)
  | _ => rfl

theorem Touches.final_modCtx {id : Nat} {f : Ctx → Ctx} (h : Touches finalParts finalFree s t) : Touches finalParts finalFree s (modCtx t id f) := by
  unfold modCtx
  split
  · exact h.final_ctxs _
  · exact h

theorem releaseStepHolds_final (step : Nat) (s : State) : Touches finalParts finalFree s (releaseStepHolds step s) := by
  have hheld : keptBut [.experts] s (releaseHeld step (fun _ => true) s) := fun p hp => by
    cases p with
    | experts => exact absurd hp (by decide)
    | _ => rfl
  exact ((Touches.refl s).keep hheld).keep (serveWaiting_kept _)

theorem countAttention_final (h : StepHeader) (s : State) : Touches finalParts finalFree s (countAttention h s) := by
  unfold countAttention
  split
  · exact .refl s
  · exact .bump (.bump (.bump (.refl s)))

theorem commitRoute_final (step : Nat) (s : State) (r : RouteRec) : Touches finalParts finalFree s (commitRoute step s r) := by
  have hcounts : Touches finalParts finalFree s (bump (bump (bump (bump s Reg.ENG_ASTER_DROPPED r.dropped) Reg.ENG_ASTER_ALTERNATE r.alternate)
      Reg.ENG_ASTER_SUBSTITUTED r.substituted) Reg.ENG_ASTER_FETCHES r.fetches) := .bump (.bump (.bump (.bump (.refl s))))
  exact (hcounts.keep (ctl_kept _ _)).step (ringPut_touches asterRing _ _) (by decide) (sparing_imp (by decide))

theorem finalCtxs_final (q : Portion) (st : Nat) (s : State) : Touches finalParts finalFree s (finalCtxs q st s) := by
  have hcondemn : Touches finalParts finalFree s (q.hdr.reqs.foldl
      (fun t r => if st = 0x31 then modCtx t r.ctx fun c => if loses t q c then { c with condemned := true } else c else t) s) :=
    .foldl (.refl s) fun u r => .ite (Touches.refl u).final_modCtx (.refl u)
  exact .ite hcondemn (hcondemn.foldl fun u r => (Touches.refl u).final_modCtx)

theorem captureFinal_final (q : Portion) (s : State) : Touches finalParts finalFree s (captureFinal q s) := by
  have hends (u : State) (hu : Touches finalParts finalFree s u) (status : Nat) : Touches finalParts finalFree s (captureEnds status u) :=
    .setF (.setF hu)
  have htaken : Touches finalParts finalFree s
      (setB (putDev s (capRegion s).base (capBytes s q.hdr.step (capRanges s))) Reg.CTX_CAPTURE_CTL_TAKEN true) :=
    .setF (.putDev (.refl s) (sparing_imp (by decide)))
  exact .ite (.refl s) (.ite (hends s (.refl s) 0x23) (.ite (hends s (.refl s) 0x10) (hends _ (htaken.keep (wts_kept _ _)) 0)))

theorem pace_final (p : Portion) (s : State) : Touches finalParts finalFree s (pace p s) := by
  have hpwr (x : PwrSt) : keptBut [.pwr] s { s with pwr := x } := fun p hp => by
    cases p with
    | pwr => exact absurd hp (by decide)
    | _ => rfl
  exact .setF (.keep (.refl s) (hpwr _))

theorem finalCounted_touches (st : Nat) (p : Portion) (s : State) :
    Touches finalParts finalFree (portionOver (portionEnded st p) s) (finalCounted st p s) := by
  have hattention : Touches finalParts finalFree (portionOver (portionEnded st p) s)
      (countAttention (portionEnded st p).hdr (countEv 0xEE9 1 (releaseStepHolds p.hdr.step (portionOver (portionEnded st p) s)))) :=
    ((releaseStepHolds_final _ _).countEv (sparing_imp (by decide))).trans (countAttention_final _ _)
  exact (((hattention.foldl fun u r => commitRoute_final p.hdr.step u r).trans (finalCtxs_final _ st _)).trans (captureFinal_final _ _)).trans
    (pace_final p _)

end

/-- R218: a step that could not be recovered is counted. -/
theorem finalMarked_spec (st : Nat) (p : Portion) (s : State) :
    keptBut finalParts (portionOver (portionEnded st p) s) (finalMarked st p s) ∧ getF (finalMarked st p s) Reg.MEM_UNRECOVERED =
      if st = 0x31 then min (getF s Reg.MEM_UNRECOVERED + 1) (2 ^ 64 - 1) else getF s Reg.MEM_UNRECOVERED := by
  have h := finalCounted_touches st p s
  have hsame : getF (finalCounted st p s) Reg.MEM_UNRECOVERED = getF s Reg.MEM_UNRECOVERED := h.getF (by decide)
  unfold finalMarked
  split
  · refine ⟨(keptBut_trans h.parts (bump_kept _ _ _)).mono (by decide), ?_⟩
    rw [getF_bump_self _ rfl, hsame]
  · exact ⟨h.parts, hsame⟩

theorem portionFinal_idle (st : Nat) (p : Portion) (s : State) : (portionFinal st p s).portion = none := by
  rw [portionFinal_eq]
  exact (Spent.refl _).releaseFinals.drainSlots.idle ((finalMarked_spec st p s).1 .portion (by decide))

/-! ### The final portion leaves (R210, R263) -/

/-- R263: the only final portion leaves when no earlier step is unreleased. -/
theorem mayLeave_alone {s : State} {q : Portion} (hp : s.portion = none) (hf : s.finals = [q])
    (h : isLast s = true ∨ s.suspended = none ∧ ∀ x ∈ s.inbox, q.hdr.step ≤ x.step) : mayLeave s q = true := by
  obtain h | ⟨hs, hi⟩ := h
  · simp [mayLeave, h]
  · simp only [mayLeave, hp, hs, hf, Option.toList_none, List.nil_append, List.any_cons, List.any_nil, lt_irrefl, decide_false, Bool.or_false,
      Bool.false_or, Bool.or_eq_true, Bool.not_eq_true', List.any_eq_false, decide_eq_true_eq, not_lt]
    exact .inr hi

/-- With an empty egress hold it leaves alone, and no final portion is left. -/
theorem releaseFinals_alone {s : State} {q : Portion} (hf : s.finals = [q]) (he : egressOps q = []) (hm : mayLeave s q = true) :
    releaseFinals (s.finals.length + 1) s = releasePortion s q ∧ (releasePortion s q).finals = [] ∧
      (releasePortion s q).out = (if isLast s then Out.ret (returnOf q) else Out.next (headerOn q)) :: s.out ∧
      keptBut [.finals, .out, .ctl] s (releasePortion s q) := by
  have hfind : s.finals.find? (mayLeave s) = some q := by
    rw [hf]
    exact List.find?_cons_of_pos hm
  have hnone : (releasePortion s q).finals = [] := by
    simp [releasePortion, he, hf]
  refine ⟨?_, hnone, ?_, fun p hp => ?_⟩
  · rw [hf, List.length_singleton, releaseFinals, hfind]
    simp only [releaseFinals, hnone, List.find?_nil]
  · simp only [releasePortion, he, List.foldl_nil]
    rfl
  · simp only [releasePortion, he, List.foldl_nil]
    cases p with
    | finals | out | ctl => exact absurd hp (by decide)
    | _ => rfl

theorem portionFinal_leaves {st : Nat} {p : Portion} {s : State} (hf : s.finals = []) (he : egressOps p = [])
    (hl : isLast s = true ∨ s.suspended = none ∧ ∀ x ∈ s.inbox, p.hdr.step ≤ x.step) :
    getF (portionFinal st p s) Reg.MEM_UNRECOVERED =
        (if st = 0x31 then min (getF s Reg.MEM_UNRECOVERED + 1) (2 ^ 64 - 1) else getF s Reg.MEM_UNRECOVERED) ∧
      (portionFinal st p s).img = s.img ∧ (portionFinal st p s).inbox = s.inbox ∧ (portionFinal st p s).suspended = s.suspended ∧
      (portionFinal st p s).finals = [] ∧
      (if isLast s then Out.ret (returnOf (portionEnded st p)) else Out.next (headerOn (portionEnded st p))) ∈ (portionFinal st p s).out := by
  obtain ⟨hk, hcount⟩ := finalMarked_spec st p s
  have himg : (finalMarked st p s).img = s.img := hk .img (by decide)
  have hinbox : (finalMarked st p s).inbox = s.inbox := hk .inbox (by decide)
  have hsusp : (finalMarked st p s).suspended = s.suspended := hk .suspended (by decide)
  have hfinals : (finalMarked st p s).finals = [portionEnded st p] :=
    (hk .finals (by decide)).trans (by rw [portionOver, hf, List.nil_append])
  have hlast : isLast (finalMarked st p s) = isLast s := by rw [isLast, himg, isLast]
  have hmay : mayLeave (finalMarked st p s) (portionEnded st p) = true :=
    mayLeave_alone (hk .portion (by decide)) hfinals (by rw [hlast, hsusp, hinbox]; exact hl)
  obtain ⟨hrel, hnone, hout, hleft⟩ := releaseFinals_alone hfinals he hmay
  have hdrain := drainSlots_touches (releasePortion (finalMarked st p s) (portionEnded st p))
  rw [portionFinal_eq, hrel]
  refine ⟨?_, (hdrain.parts .img (by decide)).trans ((hleft .img (by decide)).trans himg),
    (hdrain.parts .inbox (by decide)).trans ((hleft .inbox (by decide)).trans hinbox),
    (hdrain.parts .suspended (by decide)).trans ((hleft .suspended (by decide)).trans hsusp),
    (hdrain.parts .finals (by decide)).trans hnone, ?_⟩
  · exact (hdrain.getF (by decide)).trans ((getF_congr (hleft .flds (by decide)) _).trans hcount)
  · rw [show _ = _ from hdrain.parts .out (by decide), hout, hlast]
    exact List.mem_cons_self

/-! ### The portion is rerun (R211) -/

theorem coreGet_restarted (ks : List (Nat × CoreSt)) (c : Nat) : let k := smGet {} (ks.map fun x => (x.1, coreRestarts x.2)) c
    k.nextIndex = 0 ∧ k.stop = .run ∧ k.inFallback = [] := by
  induction ks with
  | nil => exact ⟨rfl, rfl, rfl⟩
  | cons x l ih =>
    obtain ⟨j, k⟩ := x
    by_cases hj : j = c
    · simp [smGet, hj, coreRestarts]
    · simpa [smGet, hj] using ih

theorem coresForget_spec (s : State) : Touches [.cores, .flds, .mem, .marks, .ringRecs, .engQ, .sashQ, .fab, .movesHeld] issueKey s (coresForget s) := by
  refine .foldl_mem (.refl s) fun u c hc => .ite (.refl u) ?_
  obtain ⟨-, -, -, -, -, hk, hr, -⟩ := discardIns_spec c (fun _ => true) u ((List.mem_range.mp hc).le.trans (by decide))
  exact ⟨hk, hr⟩

theorem rerunPortion_eq (p : Portion) (s : State) : rerunPortion p s = { clearCores (dropEgress p (bump s Reg.MEM_REPLAY 1)) with
    portion := some { p with rerun := true, poison := [], trapped := [], routes := [], egress := [], returns := [], fabStatus := 0 } } := rfl

theorem rerunPortion_spec (p : Portion) (s : State) : let t := rerunPortion p s
    getF t Reg.MEM_REPLAY = min (getF s Reg.MEM_REPLAY + 1) (2 ^ 64 - 1) ∧ t.finals = s.finals ∧ t.barriers = [] ∧
      (∀ c, (coreGet t c).nextIndex = 0 ∧ (coreGet t c).stop = .run ∧ (coreGet t c).inFallback = []) ∧ t.pages = s.pages ∧ t.ctxs = s.ctxs := by
  have hdrop : keptBut [.fab] (bump s Reg.MEM_REPLAY 1) (dropEgress p (bump s Reg.MEM_REPLAY 1)) := fab_kept _ _
  have hcores := coresForget_spec (dropEgress p (bump s Reg.MEM_REPLAY 1))
  have hk := keptBut_trans (keptBut_trans (bump_kept s Reg.MEM_REPLAY 1) hdrop) hcores.parts
  have hreplay : getF (coresForget (dropEgress p (bump s Reg.MEM_REPLAY 1))) Reg.MEM_REPLAY = min (getF s Reg.MEM_REPLAY + 1) (2 ^ 64 - 1) :=
    (hcores.getF (by decide)).trans ((getF_congr (hdrop .flds (by decide)) _).trans (getF_bump_self s rfl 1))
  rw [rerunPortion_eq, clearCores_eq]
  generalize coresForget (dropEgress p (bump s Reg.MEM_REPLAY 1)) = u at hreplay hk
  exact ⟨hreplay, hk .finals (by decide), rfl, fun c => coreGet_restarted _ c, hk .pages (by decide), hk .ctxs (by decide)⟩

/-! ### The obligation -/

/-- Settles O37: which end a portion finds is read off the command; a final one is counted and, with nothing earlier unreleased, leaves; a
dead one is remembered as discarded; one with sources starts again with its cores at their beginning. -/
theorem portionsEnd : Obligations.PortionsEnd := by
  unfold Obligations.PortionsEnd
  refine ⟨fun s time h => ⟨?_, ?_⟩, fun s time p h => ⟨exec_portionEnd_rerun h time, exec_portionRerunDone_first h time, fun c hc => ⟨?_, ?_⟩, ?_⟩⟩
  · refine congrArg Host.Outcome.next ?_
    rw [h]
  · refine congrArg Host.Outcome.next ?_
    rw [h]
  · rintro st hf hp rfl
    refine ⟨_, exec_portion_final h time hc hf hp, portionFinal_idle _ _ _, fun hfin he hl => ?_⟩
    have hk := (atTime_touches time s).parts
    have himg : (atTime time s).img = s.img := hk .img (by decide)
    have hinbox : (atTime time s).inbox = s.inbox := hk .inbox (by decide)
    have hsusp : (atTime time s).suspended = s.suspended := hk .suspended (by decide)
    have hlast : isLast (atTime time s) = isLast s := by rw [isLast, himg, isLast]
    have hleaves := portionFinal_leaves (s := atTime time s)
      (st := if p.failedRegion ∨ p.poison ≠ [] then 0x31 else if p.rerun ∨ p.recovered then 0x30 else 0) ((hk .finals (by decide)).trans hfin) he
      (by rw [hlast, hsusp, hinbox]; exact hl)
    rw [getF_atTime (by decide), himg, hinbox, hsusp, hlast] at hleaves
    exact hleaves
  · exact fun hf => ⟨_, exec_portion_dies h time hc hf, portionDies_spec _ _⟩
  · intro hr hf hreg hp
    obtain ⟨hreplay, hfin, hbar, hcores, hpages, hctxs⟩ := rerunPortion_spec p (atTime time s)
    have hk := (atTime_touches time s).parts
    refine ⟨_, exec_portionEnd_reruns h time hr hf hreg hp, ?_, hreplay.trans (by rw [getF_atTime (by decide)]),
      hfin.trans (hk .finals (by decide)), hbar, hcores, hpages.trans (hk .pages (by decide)), hctxs.trans (hk .ctxs (by decide))⟩
    rw [rerunPortion_eq, hf]

end Sys2Proof.Machine
end

