-- ==== Sys2Proof/Proofs/RemoteMulticast.lean ====
section
/-!
SUPPORT. Proofs/RemoteMulticast.lean: a multicast store to a member whose bit of FAB_DEAD would stand in a performance counter (R306,
R314, R323), against O42.
-/
namespace Sys2Proof.Machine

/-- A module that is no member of the fabric sends nothing (R303, R328). -/
theorem fabPump_of_not_member {s : State} (h : getF s Reg.FAB_STATE_STATE ≠ 2) : fabPump s = s := by
  have hstay (o : FabOp) : sendNew s o = s := if_pos (by simp [carries, h])
  exact List.foldl_fixed' hstay s.fab.ops

/-! ### The member -/

/-- A member whose word of FAB_DEAD would stand in the first counter, RETIRED of core 0, and whose bit is the counter's lowest. -/
def counterMember : Nat := 32 * ((0xA8000 - 0x70030) / 4)

theorem isDead_counterMember (s : State) : isDead s counterMember = bit (getF s (Reg.PMC_COUNTER 0)) 0 := rfl

/-- The image of `timeGroupImage` with a multicast group 0 of that member; no check of an image limits a member (R357). -/
def counterImage : ImageDesc := { timeGroupImage with mcast := [⟨0, [counterMember]⟩] }

/-- A module of the member's rack, with that image. -/
def counterSt : State := { State.reset with img := some counterImage, flds := [(fldKey Reg.ID_MODULE_MODULE_ID .a, counterMember)] }

/-- An instruction of core 0. -/
def counterIns : Ins := ⟨0, 0, false, false, 0, 0⟩

/-- RMSTORE of 4 bytes to group 0. -/
def counterStore : Instr := .rmstore counterIns 0 0 0 0 0

theorem wf_counterStore : counterStore.wf = true := by decide

theorem mayIssue_counterSt : mayIssue counterSt counterIns (some .mem) := by
  unfold mayIssue
  decide +kernel

/-- The state that it leaves. -/
def counterStored : State :=
  issueWith counterIns (some .mem) (remoteId 7) false (remoteOp counterIns .mstore ⟨0, 0, 0, false, 0, 0, 0⟩) counterSt

theorem exec_counterStore : exec counterStore counterSt = .next counterStored := by
  have hload : rLoadable (isAtomic .mstore) ⟨0, 0, 0, false, 0, 0, 0⟩ = true := by decide
  change remoteIssue 7 "RMSTORE" counterIns .mstore ⟨0, 0, 0, false, 0, 0, 0⟩ counterSt = _
  rw [remoteIssue, if_pos hload]
  rfl

/-- Its slot is counted at issue, and with that the member reads DEAD: the operation ends. -/
theorem ops_counterStored : counterStored.fab.ops = [] := by decide +kernel

theorem counterMember_reached : groupIds counterSt 0 = some [counterMember] ∧ rackOf counterMember = rackOf (myId counterSt) ∧
    isDead counterSt counterMember = false :=
  ⟨by decide +kernel, by decide +kernel, (isDead_counterMember counterSt).trans (by decide +kernel)⟩

/-- An operation handed to the attachment of a module that is no member is outstanding there. -/
theorem handed_of_not_member {v : State} (h : getF v Reg.FAB_STATE_STATE ≠ 2) (next : Nat) (ops : List FabOp) (o : FabOp) :
    (fabPump { v with fab.next := next, fab.ops := ops ++ [o] }).fab.ops ≠ [] := by
  rw [fabPump_of_not_member]
  · simp
  · exact h

/-- The issue and the operands' check leave the module none. -/
theorem state_operandCheck {w : State} (h : Issued counterSt counterIns (some .mem) w) (a n : Nat) :
    getF (operandCheck a n w) Reg.FAB_STATE_STATE ≠ 2 := by
  obtain ⟨-, -, -, -, hregs, -⟩ := h
  have hissued : getF w Reg.FAB_STATE_STATE = getF counterSt Reg.FAB_STATE_STATE := hregs _ _ (by decide)
  have hchecked : getF (operandCheck a n w) Reg.FAB_STATE_STATE = getF w Reg.FAB_STATE_STATE := (localDetect_spec _ w).2 _ _ (by decide)
  rw [hchecked, hissued]
  decide

/-- Refutes O42: the statement asks before the issue whether the targets are DEAD, and no limit of a group's member keeps its bit of
FAB_DEAD out of the counter that the issue itself moves, so a store that the statement hands to the attachment ends at once. -/
theorem not_remoteOperations : ¬ Obligations.RemoteOperations := by
  intro hall
  obtain ⟨f, hf, hrows, -⟩ := hall counterSt counterIns mayIssue_counterSt
  obtain ⟨hids, hrack, hlive⟩ := counterMember_reached
  obtain ⟨hsent, -⟩ := hrows 0 0 0 false 0 0 0 (counterStore, .mstore, f 7) (by simp [counterStore]) wf_counterStore
  obtain ⟨t, o, ht, -, -, -, -, -, -, -, -, -, -, -, -, hstate⟩ := hsent [counterMember] hids (by simp) (by simp [hrack, hlive])
  obtain rfl := Host.Outcome.next.inj (ht.symm.trans exec_counterStore)
  have hidle : ¬(isHeld .mstore && counterSt.portion.isSome) = true := by decide
  have hops := ops_counterStored
  dsimp only at hstate
  rw [if_neg hidle] at hstate
  rw [hstate] at hops
  generalize hv : operandCheck _ _ (f 7) = v at hops
  exact handed_of_not_member (hv ▸ state_operandCheck (hf 7) _ _) _ _ o hops

end Sys2Proof.Machine
end

