-- ==== Sys2Proof/Proofs/StepArrival.lean ====
section
/-!
SUPPORT. Proofs/StepArrival.lean: a step that arrives at a module behind the entry module is queued or discarded, and the generation
slots follow it (R210, R230, R234, R235, R240, R324).
-/
namespace Sys2Proof.Machine

/-! ### One slot at a time (R234, R235) -/

/-- R228: what of an emptied slot goes before its two registers are written. -/
def slotVacated (n : Nat) (s : State) : State :=
  let gone : State := { releaseExtents (.gen n) s with
    experts := s.experts.filter (fun e => e.slot != n), wts.gens := s.wts.gens.set n none }
  let left := gone.prefs.foldl (fun t p => if p.2.gen = n then dropPref p.1 t else t) gone
  { left with ctl.roots := left.ctl.roots.filter fun r => r.1 % 2 != n }

theorem emptySlot_eq (n : Nat) (s : State) : emptySlot n s = setF (setF (slotVacated n s) (slotFld n) 0) (genIdFld n) 0 := rfl

/-- It changes no register of a slot and no adoption that waits. -/
theorem slotVacated_touches (n : Nat) (s : State) :
    Touches slotParts storeKey s (slotVacated n s) ∧ (slotVacated n s).ctl.adopts = s.ctl.adopts := by
  have hgone (x : List ExpertSt) (y : List (Nat × Extent)) (z : WtsSt) :
      keptBut [.experts, .extents, .wts] s { s with experts := x, extents := y, wts := z } := fun p hp => by
    cases p with
    | experts | extents | wts => exact absurd hp (by decide)
    | _ => rfl
  have hpref (t : State) (p : Nat × Pref) : Touches prefParts storeKey t (if p.2.gen = n then dropPref p.1 t else t) :=
    .ite (dropPref_touches p.1 t) (.refl t)
  have hleft (t : State) : Touches prefParts storeKey t (s.prefs.foldl (fun t p => if p.2.gen = n then dropPref p.1 t else t) t) :=
    .foldl (.refl t) hpref
  refine ⟨.keep (.step (.keep (.refl s) (hgone _ _ _)) (hleft _) (by decide) fun _ => id) (ctl_kept _ _), ?_⟩
  have hadopts (t : State) : (s.prefs.foldl (fun t p => if p.2.gen = n then dropPref p.1 t else t) t).ctl.adopts = t.ctl.adopts :=
    congrArg CtlSt.adopts ((hleft t).parts .ctl (by decide))
  exact hadopts _

/-- The registers of two slots are apart. -/
theorem slotKey_apart {m n : Nat} (hm : m < 2) (hn : n < 2) (h : m ≠ n) : fldKey (slotFld m) .a ≠ fldKey (slotFld n) .a ∧
    fldKey (slotFld m) .a ≠ fldKey (genIdFld n) .a := by
  have hall : ∀ m n : Fin 2, m ≠ n → fldKey (slotFld m) .a ≠ fldKey (slotFld n) .a ∧
      fldKey (slotFld m) .a ≠ fldKey (genIdFld n) .a := by decide
  exact hall ⟨m, hm⟩ ⟨n, hn⟩ fun e => h (congrArg Fin.val e)

theorem storeKey_slotFld (n : Nat) : storeKey (fldKey (slotFld n) .a) = false := by
  unfold slotFld
  split <;> decide

section
variable {m n : Nat} (hm : m < 2) (hn : n < 2) (s : State)
include hm hn

theorem slotState_setF_slot (v : Nat) (h : m ≠ n) : slotState (setF s (slotFld n) v) m = slotState s m :=
  getF_setF_ne (slotKey_apart hm hn h).1

theorem slotState_emptySlot_ne (h : m ≠ n) : slotState (emptySlot n s) m = slotState s m := by
  rw [emptySlot_eq]
  exact (getF_setF_ne (slotKey_apart hm hn h).2).trans
    ((slotState_setF_slot hm hn _ 0 h).trans ((slotVacated_touches n s).1.getF (storeKey_slotFld m)))

end

theorem slotState_setF_self {n v : Nat} (s : State) (hv : v < 8) : slotState (setF s (slotFld n) v) n = v := by
  have hlen : (slotFld n).len = 3 := by
    unfold slotFld
    split <;> rfl
  rw [slotState, getF_setF_self, hlen]
  exact Nat.mod_eq_of_lt hv

theorem slotIdle_emptySlot (k n : Nat) (s : State) : slotIdle (emptySlot k s) n = slotIdle s n := by
  have hk := (emptySlot_touches k s).parts
  rw [slotIdle, hk .portion (by decide), hk .suspended (by decide), hk .finals (by decide), hk .inbox (by decide), slotIdle]

/-- R234: one slot that HOLD excludes becomes EMPTY. -/
def drainSlot (s : State) (n : Nat) : State :=
  if slotState s n = 4 ∧ !bit (getF s Reg.MEM_GEN_STATE_HOLD) n ∧ slotIdle s n then emptySlot n s else s

theorem drainSlots_eq (s : State) : drainSlots s = drainSlot (drainSlot s 0) 1 := rfl

section
variable {n : Nat} {s : State} (hi : slotIdle s n = false)
include hi

/-- R234: a slot that a step of the module is tagged with does not empty. -/
theorem drainSlot_busy : drainSlot s n = s := if_neg fun h => by simp [hi] at h

theorem slotState_drainSlot_ne (hn : n < 2) {k : Nat} (hk : k < 2) (h : n ≠ k) :
    slotIdle (drainSlot s k) n = false ∧ slotState (drainSlot s k) n = slotState s n := by
  unfold drainSlot
  split
  · exact ⟨(slotIdle_emptySlot k n s).trans hi, slotState_emptySlot_ne hn hk s h⟩
  · exact ⟨hi, rfl⟩

theorem slotState_drainSlots (hn : n < 2) : slotState (drainSlots s) n = slotState s n := by
  rw [drainSlots_eq]
  obtain rfl | rfl : n = 0 ∨ n = 1 := by omega
  · rw [drainSlot_busy hi]
    exact (slotState_drainSlot_ne hi hn (by decide) (by decide)).2
  · obtain ⟨hidle, hsame⟩ := slotState_drainSlot_ne hi hn (k := 0) (by decide) (by decide)
    rw [drainSlot_busy hidle, hsame]

end

theorem slotState_activate {n : Nat} (hn : n < 2) (s : State) :
    slotState (activate n s) n = if slotState s n = 2 then 3 else slotState s n := by
  have hdrain : slotState (if slotState s (1 - n) = 3 then setF s (slotFld (1 - n)) 4 else s) n = slotState s n := by
    split
    · exact slotState_setF_slot hn (by omega) s 4 (by omega)
    · rfl
  unfold activate
  dsimp only
  rw [hdrain]
  split
  · exact slotState_setF_self _ (by decide)
  · exact hdrain

theorem activate_touches (n : Nat) (s : State) : Touches [.flds] (oneOf [Reg.MEM_GEN_STATE_SLOT0, Reg.MEM_GEN_STATE_SLOT1]) s (activate n s) := by
  have hfld (n : Nat) : oneOf [Reg.MEM_GEN_STATE_SLOT0, Reg.MEM_GEN_STATE_SLOT1] (fldKey (slotFld n) .a) = true := by
    unfold slotFld
    split <;> decide
  have hdrain : Touches [.flds] (oneOf [Reg.MEM_GEN_STATE_SLOT0, Reg.MEM_GEN_STATE_SLOT1]) s
      (if slotState s (1 - n) = 3 then setF s (slotFld (1 - n)) 4 else s) := .ite (.setF (.refl s) (hfld _)) (.refl s)
  exact .ite (hdrain.setF (hfld n)) hdrain

/-! ### What a module notes of a step (R240, R324) -/

theorem lastStep_kept (s : State) (n : Nat) : keptBut [.lastStep] s { s with lastStep := n } := fun p hp => by
  cases p with
  | lastStep => exact absurd hp (by decide)
  | _ => rfl

theorem inbox_kept (s : State) (l : List StepHeader) : keptBut [.inbox] s { s with inbox := l } := fun p hp => by
  cases p with
  | inbox => exact absurd hp (by decide)
  | _ => rfl

/-- The time, the number, POINTER and HOLD of a received step, which counts as discarded no longer. -/
def stepNoted (h : StepHeader) (time : Nat) (s : State) : State :=
  noteGen h { atTime time s with lastStep := h.step, ctl.dead := (atTime time s).ctl.dead.filter (· != h.step) }

def stepNoteKey (k : Nat) : Bool := pmcKey k || oneOf [Reg.MEM_GEN_STATE_POINTER, Reg.MEM_GEN_STATE_HOLD] k

theorem stepNoted_touches (h : StepHeader) (time : Nat) (s : State) :
    Touches [.flds, .now, .lastStep, .ctl] stepNoteKey s (stepNoted h time s) := by
  have htime : Touches [.flds, .now, .lastStep, .ctl] stepNoteKey s (atTime time s) :=
    (atTime_touches time s).mono (by decide) fun _ e => (Bool.or_eq_false_iff.mp e).1
  exact .setF (.setF (.keep (.keep htime (lastStep_kept _ h.step)) (ctl_kept _ _)))

/-- A step that the module discards as it arrives. -/
def stepDropped (h : StepHeader) (time : Nat) (s : State) : State :=
  { stepNoted h time s with ctl.dead := listAdd (stepNoted h time s).ctl.dead h.step }

theorem stepDropped_touches (h : StepHeader) (time : Nat) (s : State) :
    Touches [.flds, .now, .lastStep, .ctl] stepNoteKey s (stepDropped h time s) := (stepNoted_touches h time s).keep (ctl_kept _ _)

theorem getF_stepNoted_pointer (h : StepHeader) (time : Nat) (s : State) :
    getF (stepNoted h time s) Reg.MEM_GEN_STATE_POINTER = h.gen % 2 :=
  (getF_setF_ne (by decide)).trans (getF_setF_self _ _ _)

theorem slotState_stepNoted (h : StepHeader) (time n : Nat) (s : State) : slotState (stepNoted h time s) n = slotState s n := by
  refine (stepNoted_touches h time s).getF ?_
  unfold slotFld
  split <;> decide

/-- R235: the step's slot becomes ACTIVE, and no step of it lets it empty. -/
theorem takeGen_spec {h : StepHeader} (hg : h.gen < 2) {s : State} (hi : h ∈ s.inbox) :
    Touches slotParts (fun k => slotKey k || oneOf [Reg.MEM_GEN_STATE_HOLD] k) s (takeGen h s) ∧
      getF (takeGen h s) Reg.MEM_GEN_STATE_HOLD = h.hold % 2 ^ Reg.MEM_GEN_STATE_HOLD.len ∧
      slotState (takeGen h s) h.gen = if slotState s h.gen = 2 then 3 else slotState s h.gen := by
  have hact := activate_touches h.gen s
  have hset : Touches slotParts (fun k => slotKey k || oneOf [Reg.MEM_GEN_STATE_HOLD] k) s
      (setF (activate h.gen s) Reg.MEM_GEN_STATE_HOLD h.hold) := by
    refine .setF (hact.mono (by decide) fun k e => ?_)
    simp only [slotKey, oneOf, Bool.or_eq_false_iff, List.map_cons, List.map_nil, List.contains_cons, List.contains_nil] at e ⊢
    exact ⟨e.1.2.1, e.1.2.2.1, trivial⟩
  have hidle : slotIdle (setF (activate h.gen s) Reg.MEM_GEN_STATE_HOLD h.hold) h.gen = false := by
    have hmem : h ∈ (setF (activate h.gen s) Reg.MEM_GEN_STATE_HOLD h.hold).inbox := by
      rw [setF_inbox, hact.parts .inbox (by decide)]
      exact hi
    have hany : (setF (activate h.gen s) Reg.MEM_GEN_STATE_HOLD h.hold).inbox.any (fun x => x.gen == h.gen) = true :=
      List.any_eq_true.mpr ⟨h, hmem, beq_self_eq_true _⟩
    rw [slotIdle, hany, Bool.or_true, Bool.not_true]
  have hdrain := drainSlots_touches (setF (activate h.gen s) Reg.MEM_GEN_STATE_HOLD h.hold)
  refine ⟨hset.step hdrain (fun _ => id) fun _ e => (Bool.or_eq_false_iff.mp e).1, (hdrain.getF (by decide)).trans (getF_setF_self _ _ _), ?_⟩
  refine (slotState_drainSlots hidle hg).trans ((getF_setF_ne ?_).trans (slotState_activate hg s))
  unfold slotFld
  split <;> decide

/-! ### The command (R230, R324) -/

theorem sendCtrl_kept (kind target status step : Nat) (s : State) : keptBut [.fab, .out] s (sendCtrl kind target status step s) :=
  keptBut_ite (keptBut_refl _ _) ((keptBut_trans (fab_kept s _) (fabPump_kept _)).mono (by decide))

/-- Behind the entry module a failed portion is told to it, and no more. -/
theorem portionFailed_kept {s : State} (he : isEntry s = false) (step status : Nat) : keptBut [.fab, .out] s (portionFailed step status s) := by
  unfold portionFailed
  rw [if_neg (by simp [he])]
  split
  · exact sendCtrl_kept _ _ _ _ _
  · exact keptBut_refl _ _

section
variable (h : StepHeader) (time : Nat) {s : State}

theorem exec_stepReceive_not (hn : isEntry s = true ∨ stageAlive s = false ∨ s.img = none) : exec (.stepReceive h time) s = .next s := by
  refine congrArg Host.Outcome.next (if_pos ?_)
  obtain he | ha | hi := hn
  · simp [he]
  · simp [ha]
  · simp [hi]

variable (he : isEntry s = false) (ha : stageAlive s = true) (hi : s.img ≠ none) (hl : lateStep s h.step = false)
include he ha hi hl

theorem exec_stepReceive : exec (.stepReceive h time) s = .next (let u := stepNoted h time s
    if genHeld s h then takeGen h { u with inbox := u.inbox ++ [h] }
    else portionFailed h.step 0x40 (drainSlots (stepDropped h time s))) :=
  congrArg Host.Outcome.next ((if_neg (by simp [he, ha, Option.isNone_iff_eq_none, hi])).trans (if_neg (by simp [hl])))

/-- R230, R235: a step whose generation its slot holds is queued. -/
theorem exec_stepReceive_held (hg : genHeld s h = true) (hgen : h.gen < 2) : ∃ t, exec (.stepReceive h time) s = .next t ∧
    t.inbox = s.inbox ++ [h] ∧ t.lastStep = h.step ∧ getF t Reg.MEM_GEN_STATE_HOLD = h.hold % 2 ^ Reg.MEM_GEN_STATE_HOLD.len ∧
    getF t Reg.MEM_GEN_STATE_POINTER = h.gen ∧ slotState t h.gen = (if slotState s h.gen = 2 then 3 else slotState s h.gen) ∧
    t.ctxs = s.ctxs ∧ t.portion = s.portion ∧ t.finals = s.finals := by
  have hnoted := (stepNoted_touches h time s).parts
  have hinbox : (stepNoted h time s).inbox = s.inbox := hnoted .inbox (by decide)
  obtain ⟨htake, hhold, hslot⟩ := takeGen_spec hgen
    (s := { stepNoted h time s with inbox := (stepNoted h time s).inbox ++ [h] }) (List.mem_append_right _ List.mem_cons_self)
  refine ⟨_, (exec_stepReceive h time he ha hi hl).trans (congrArg _ (if_pos hg)), (htake.parts .inbox (by decide)).trans ?_,
    htake.parts .lastStep (by decide), hhold, (htake.getF (by decide)).trans ?_, hslot.trans ?_,
    (htake.parts .ctxs (by decide)).trans (hnoted .ctxs (by decide)), (htake.parts .portion (by decide)).trans (hnoted .portion (by decide)),
    (htake.parts .finals (by decide)).trans (hnoted .finals (by decide))⟩
  · rw [hinbox]
  · exact (getF_stepNoted_pointer h time s).trans (Nat.mod_eq_of_lt hgen)
  · have hsame : slotState { stepNoted h time s with inbox := (stepNoted h time s).inbox ++ [h] } h.gen = slotState s h.gen :=
      slotState_stepNoted h time h.gen s
    rw [hsame]

/-- R230: a step of another generation is discarded. -/
theorem exec_stepReceive_unheld (hg : genHeld s h = false) : ∃ t, exec (.stepReceive h time) s = .next t ∧ t.inbox = s.inbox ∧
    h.step ∈ t.ctl.dead ∧ t.lastStep = h.step ∧ t.ctxs = s.ctxs ∧ t.portion = s.portion ∧ t.finals = s.finals := by
  have hdropped := stepDropped_touches h time s
  have hdrain := drainSlots_touches (stepDropped h time s)
  have hentry : isEntry (drainSlots (stepDropped h time s)) = false :=
    (congrArg (· == 1) ((hdrain.getF (by decide)).trans (hdropped.getF (by decide)))).trans he
  have hfail := portionFailed_kept hentry h.step 0x40
  have hk := keptBut_trans (keptBut_trans hdropped.parts hdrain.parts) hfail
  refine ⟨_, (exec_stepReceive h time he ha hi hl).trans (congrArg _ (if_neg (by simp [hg]))), hk .inbox (by decide), ?_,
    (keptBut_trans hdrain.parts hfail) .lastStep (by decide), hk .ctxs (by decide), hk .portion (by decide), hk .finals (by decide)⟩
  exact (Spent.refl _).drainSlots.portionFailed.dead _ (mem_listAdd.mpr (.inr rfl))

end

end Sys2Proof.Machine
end

