-- ==== Sys2Proof/Proofs/StepReturns.lean ====
section
/-!
SUPPORT. Proofs/StepReturns.lean: what a return message brings a request's context, the FINAL record of a released one, and O38 (R243,
R245, R246, R265, R267, R269, R271).
-/
namespace Sys2Proof.Machine

/-! ### Single parts -/

theorem ctxs_kept (s : State) (l : List (Nat × Ctx)) : keptBut [.ctxs] s { s with ctxs := l } := fun p hp => by
  cases p with
  | ctxs => exact absurd hp (by decide)
  | _ => rfl

theorem clients_kept (s : State) (l : List (Nat × Client)) : keptBut [.clients] s { s with clients := l } := fun p hp => by
  cases p with
  | clients => exact absurd hp (by decide)
  | _ => rfl

protected theorem Touches.setP {l : List Part} {K : Nat → Bool} {s t : State} {p : Port} {f : Fld} {v : Nat} (h : Touches l K s t)
    (hK : K (fldKey f p) = true) (hl : .flds ∈ l := by decide) : Touches l K s (setP t p f v) := by
  refine h.step (L := K) ⟨setP_kept t p f v, fun k d e => flds_setP_ne ?_⟩ (by simpa using hl) fun _ => id
  rintro rfl
  rw [hK] at e
  cases e

protected theorem Touches.irq {l : List Part} {K : Nat → Bool} {s t : State} {p : Port} {n : Nat} (h : Touches l K s t) (hn : n < 7)
    (hK : ∀ k, K k = false → irqKey k = false) (hl : ∀ q ∈ irqParts, q ∈ l := by decide) : Touches l K s (irq p n t) :=
  h.step ⟨irq_kept p n t, regsKept_irq p hn t⟩ hl hK

/-- A register of either port that is not named reads the same. -/
protected theorem Touches.getP {l : List Part} {K : Nat → Bool} {s t : State} (h : Touches l K s t) {p : Port} {f : Fld}
    (hf : K (fldKey f p) = false) : getP t p f = getP s p f := h.regs _ _ hf

/-! ### One context -/

theorem modCtx_of {s : State} {id : Nat} {c : Ctx} (h : alGet s.ctxs id = some c) (f : Ctx → Ctx) :
    modCtx s id f = setCtx s id (f c) := by rw [modCtx, h]

/-- Every context but one is as before. -/
def othersKept (id : Nat) (s t : State) : Prop := ∀ j, j ≠ id → alGet t.ctxs j = alGet s.ctxs j

theorem othersKept_setCtx (s : State) (id : Nat) (c : Ctx) : othersKept id s (setCtx s id c) := fun _ h => alGet_alSet_ne h

theorem othersKept.trans {id : Nat} {s t u : State} (h : othersKept id s t) (g : othersKept id t u) : othersKept id s u :=
  fun j hj => (g j hj).trans (h j hj)

/-! ### Tokens to the host (R265, R266, R271) -/

/-- Tokens of a context are written or kept: its record follows in the count of entries and in what is kept, and nothing else. -/
structure TokensPut (id : Nat) (s t : State) : Prop where
  parts : keptBut [.ctxs, .out] s t
  others : othersKept id s t
  own : ∀ c, alGet s.ctxs id = some c → ∃ prod kept, alGet t.ctxs id = some { c with prod := prod, kept := kept }

namespace TokensPut
variable {id : Nat} {s t u : State}

protected theorem refl (s : State) : TokensPut id s s := ⟨keptBut_refl _ _, fun _ _ => rfl, fun c h => ⟨c.prod, c.kept, h⟩⟩

protected theorem trans (h : TokensPut id s t) (g : TokensPut id t u) : TokensPut id s u := by
  refine ⟨(keptBut_trans h.parts g.parts).mono (by decide), h.others.trans g.others, fun c hc => ?_⟩
  obtain ⟨prod, kept, ht⟩ := h.own c hc
  obtain ⟨prod, kept, hu⟩ := g.own _ ht
  exact ⟨prod, kept, hu⟩

protected theorem emit (s : State) (o : Out) : TokensPut id s (emit s o) :=
  ⟨(emit_kept s o).mono (by decide), fun _ _ => rfl, fun c h => ⟨c.prod, c.kept, h⟩⟩

protected theorem setCtx {c : Ctx} (h : alGet s.ctxs id = some c) (prod : Nat) (kept : List (Nat × Nat × Nat)) :
    TokensPut id s (setCtx s id { c with prod := prod, kept := kept }) := by
  refine ⟨(ctxs_kept s _).mono (by decide), othersKept_setCtx s id _, fun d hd => ⟨prod, kept, ?_⟩⟩
  obtain rfl := Option.some.inj (h.symm.trans hd)
  exact alGet_alSet_self

protected theorem putToken (id k tok pos tail : Nat) (s : State) : TokensPut id s (putToken id k tok pos tail s) := by
  unfold putToken
  split
  · exact .refl s
  · next c hc =>
    split
    · exact .setCtx hc c.prod _
    · split
      · exact .emit s _
      · exact .trans (.emit s _) (.setCtx (s := emit s _) hc _ c.kept)

protected theorem putProd (id : Nat) (s : State) : TokensPut id s (putProd id s) := by
  unfold putProd
  split
  · exact .refl s
  · split
    · exact .refl s
    · exact .emit s _

protected theorem foldl {α : Type} {f : State → α → State} (hf : ∀ u x, TokensPut id u (f u x)) (xs : List α) (s : State) :
    TokensPut id s (xs.foldl f s) := by
  induction xs generalizing s with
  | nil => exact .refl s
  | cons x xs ih => exact (hf s x).trans (ih (f s x))

protected theorem putTokens (id : Nat) (toks : List Nat) (pos a status step reason : Nat) (vary : Bool) (s : State) :
    TokensPut id s (putTokens id toks pos a status step reason vary s) := by
  unfold putTokens
  split
  · exact .refl s
  · split
    · exact .refl s
    · exact .trans (.foldl (fun u x => .putToken ..) _ s) (.putProd id _)

end TokensPut

/-! ### What a step brings (R243, R257, R270) -/

/-- The context of a request whose step has returned `toks`, with `a` drafts accepted. -/
def ctxReturned (f : Flight) (m : ReturnMsg) (r : ReqRec) (entry : Bool) (toks : List Nat) (a : Nat) (c : Ctx) : Ctx :=
  let v := m.vary || f.vary || r.vary
  { c with emitted := c.emitted + toks.length, hist := (toks.reverse ++ c.hist).take 15, lastTok := toks.getLastD c.lastTok,
           tail := if r.kind = .verify ∨ r.kind = .release then c.tail else r.pos0 + r.rows,
           accepted := if r.kind = .verify then some a else c.accepted,
           varyAny := c.varyAny || v, preemptAny := c.preemptAny + m.preemptions, entryDue := false,
           taint := c.taint || f.tainted || v, stepRows := 0, commitDue := r.commit && (m.status == 0 || m.status == 0x30),
           reserved := reserveFor entry m.preemptions (r.kind == .release) }

/-- R267: records that fall due. -/
def addDue (l : List DueEntry) (s : State) : State := { s with ctl.due := s.ctl.due ++ l }

/-- The request's tokens are put, its ENTRY record is noted as due, its context and its client's record follow. -/
def reqReturned (f : Flight) (m : ReturnMsg) (r : ReqRec) (c : Ctx) (toks : List Nat) (a reason : Nat) (s : State) : State :=
  let v := m.vary || f.vary || r.vary
  let s1 := putTokens r.ctx toks (if r.kind = .verify then r.pos0 + 1 else r.pos0 + r.rows) a m.status m.step reason v s
  let due := if c.entryDue then [dueEntry f c r.ctx m.status m.preemptions reason a toks.length v r.commit] else []
  modClient c.desc.client c.desc.lease (fun (x : Client) =>
      { x with tokens := x.tokens + toks.length, preemptions := x.preemptions + m.preemptions })
    (modCtx (addDue due s1) r.ctx (ctxReturned f m r c.entryDue toks a))

/-- What the return of one request changes beside its context. -/
structure ReqReturned (id : Nat) (s t : State) : Prop where
  parts : keptBut [.ctxs, .clients, .ctl, .out] s t
  others : othersKept id s t
  flights : t.ctl.flights = s.ctl.flights
  journal : t.ctl.journalDue = s.ctl.journalDue

theorem ReqReturned.setCtx {id : Nat} {s t : State} (h : ReqReturned id s t) (c : Ctx) : ReqReturned id s (setCtx t id c) :=
  ⟨(keptBut_trans h.parts (ctxs_kept t _)).mono (by decide), h.others.trans (othersKept_setCtx t id c), h.flights, h.journal⟩

section
variable (f : Flight) (m : ReturnMsg) (r : ReqRec) (toks : List Nat) (a reason : Nat) {s : State} {c : Ctx} (hc : alGet s.ctxs r.ctx = some c)
include hc

theorem reqReturned_spec : ReqReturned r.ctx s (reqReturned f m r c toks a reason s) ∧
    ∃ prod kept, alGet (reqReturned f m r c toks a reason s).ctxs r.ctx =
      some (ctxReturned f m r c.entryDue toks a { c with prod := prod, kept := kept }) := by
  have hput := TokensPut.putTokens r.ctx toks (if r.kind = .verify then r.pos0 + 1 else r.pos0 + r.rows) a m.status m.step reason
    (m.vary || f.vary || r.vary) s
  obtain ⟨prod, kept, hown⟩ := hput.own c hc
  unfold reqReturned
  dsimp only
  generalize putTokens r.ctx toks (if r.kind = .verify then r.pos0 + 1 else r.pos0 + r.rows) a m.status m.step reason
    (m.vary || f.vary || r.vary) s = u at hput hown ⊢
  have hflights : u.ctl.flights = s.ctl.flights := congrArg CtlSt.flights (hput.parts .ctl (by decide))
  have hjournal : u.ctl.journalDue = s.ctl.journalDue := congrArg CtlSt.journalDue (hput.parts .ctl (by decide))
  rw [modCtx_of (s := addDue _ u) hown]
  refine ⟨⟨?_, hput.others.trans (othersKept_setCtx u r.ctx _), hflights, hjournal⟩, prod, kept, alGet_alSet_self⟩
  exact (keptBut_trans (keptBut_trans (keptBut_trans hput.parts (ctl_kept u _)) (ctxs_kept _ _)) (clients_kept _ _)).mono (by decide)

/-- What follows the tokens: a released context's FINAL record, or how a context leaves its step. -/
theorem returnReq_eq : returnReq f m s r =
    let out := (m.reqs.find? fun x => x.ctx == r.ctx).getD ⟨r.ctx, [], 0, 0, false⟩
    let lost := r.kind != .release && (out.invalid || c.condemned)
    let reason := if r.kind = .release then c.endReason else if lost then 5 else out.reason
    let u := reqReturned f m r c (if lost then [] else out.tokens) (if r.kind = .verify then min out.accepted r.drafts.length else 0) reason s
    if r.kind = .release then
      let v := modCtx u r.ctx fun c => { c with freed := true }
      if c.entryDue then v else putFinal v (r.ctx, c)
    else if lost then ending r.ctx 0x31 5 (bump u Reg.MEM_UNRECOVERED 1)
    else if reason ≠ 0 then ending r.ctx 0 reason u
    else ctxBack r.ctx u := by
  unfold returnReq
  rw [hc]
  rfl

/-- R243, R245: a CONTINUE or AUTO request that brought its tokens leaves its context ready or ending. -/
theorem returnReq_continues (hk : r.kind = .cont ∨ r.kind = .autoDecode) {o : RetReq} (ho : (m.reqs.find? fun x => x.ctx == r.ctx) = some o)
    (hv : o.invalid = false) (hd : c.condemned = false) : returnReq f m s r =
      if o.reason = 0 then ctxBack r.ctx (reqReturned f m r c o.tokens 0 o.reason s)
      else ending r.ctx 0 o.reason (reqReturned f m r c o.tokens 0 o.reason s) := by
  rw [returnReq_eq f m r hc, ho]
  obtain hk | hk := hk <;> simp [hk, hv, hd]

/-- R246, R267: a RELEASE that no ENTRY record precedes brings the FINAL record. -/
theorem returnReq_releases (hk : r.kind = .release) (hm : m.reqs = []) (he : c.entryDue = false) : returnReq f m s r =
    putFinal (modCtx (reqReturned f m r c [] 0 c.endReason s) r.ctx fun c => { c with freed := true }) (r.ctx, c) := by
  rw [returnReq_eq f m r hc, hm]
  simp [hk, he]

end

theorem leaseActive_congr {s t : State} (h : t.sec = s.sec) (l : Nat) : leaseActive t l = leaseActive s l := by
  simp only [leaseActive, leaseEnt, h]

theorem portUp_of_regs {s t : State} (h : regsKept pmcKey s t) (p : Port) : portUp t p = portUp s p := by
  refine congrArg (· == 1) (h _ _ ?_)
  cases p <;> decide

theorem ending_of {s : State} {id : Nat} {c : Ctx} (h : alGet s.ctxs id = some c) (status reason : Nat) : ending id status reason s =
    setCtx s id { c with st := .ending, endStatus := status, endReason := reason, releaseStep := none } := modCtx_of h _

/-- R245: with its lease active and its port up, a context out of its step is READY. -/
theorem ctxBack_ready {s : State} {id : Nat} {c : Ctx} (h : alGet s.ctxs id = some c) (hl : leaseActive s c.desc.lease = true)
    (hp : portUp s c.port = true) : ctxBack id s = setCtx s id { c with st := .ready, waitFrom := some s.now } := by
  rw [ctxBack, h]
  simp [hl, hp]

/-- R243, R245: what a CONTINUE or AUTO request's context is when its step is over. -/
theorem returnReq_sets (f : Flight) (m : ReturnMsg) (r : ReqRec) {s : State} {c : Ctx} (hc : alGet s.ctxs r.ctx = some c)
    (hk : r.kind = .cont ∨ r.kind = .autoDecode) {o : RetReq} (ho : (m.reqs.find? fun x => x.ctx == r.ctx) = some o)
    (hv : o.invalid = false) (hd : c.condemned = false)
    (hup : o.reason = 0 → leaseActive s c.desc.lease = true ∧ portUp s c.port = true) :
    ∃ u d, returnReq f m s r = setCtx u r.ctx d ∧ ReqReturned r.ctx s u ∧ d.st = (if o.reason = 0 then .ready else .ending) ∧
      d.emitted = c.emitted + o.tokens.length ∧ d.tail = r.pos0 + r.rows ∧ d.endReason = (if o.reason = 0 then c.endReason else o.reason) ∧
      d.varyAny = (c.varyAny || m.vary || f.vary || r.vary) ∧ d.spans = c.spans ∧ d.desc = c.desc ∧ d.port = c.port := by
  obtain ⟨hret, prod, kept, hback⟩ := reqReturned_spec f m r o.tokens 0 o.reason hc
  have htail : ¬ (r.kind = .verify ∨ r.kind = .release) := by
    obtain hk | hk := hk <;> simp [hk]
  have hvary : (c.varyAny || (m.vary || f.vary || r.vary)) = (c.varyAny || m.vary || f.vary || r.vary) := by simp only [Bool.or_assoc]
  rw [returnReq_continues f m r hc hk ho hv hd]
  generalize reqReturned f m r c o.tokens 0 o.reason s = u at hret hback
  split
  · next h0 =>
    have hlease := (leaseActive_congr (hret.parts .sec (by decide)) c.desc.lease).trans (hup h0).1
    have hport := (portUp_of_regs (regsKept_of_flds pmcKey (hret.parts .flds (by decide))) c.port).trans (hup h0).2
    exact ⟨u, _, ctxBack_ready hback hlease hport, hret, rfl, rfl, if_neg htail, rfl, hvary, rfl, rfl, rfl⟩
  · exact ⟨u, _, ending_of hback 0 o.reason, hret, rfl, rfl, if_neg htail, rfl, hvary, rfl, rfl, rfl⟩

/-! ### The FINAL record (R245, R246, R267) -/

def freeKey : Nat → Bool := oneOf [Reg.CTX_COUNT_LIVE, Reg.CTX_COUNT_ORPHANED, Reg.MEM_SMALL_COUNT_RESIDENT]

theorem countCtxs_touches (s : State) : Touches [.flds] freeKey s (countCtxs s) := .setF (.setF (.refl s))

theorem retireSmalls_touches (s : State) : Touches [.extents, .wts, .flds] freeKey s (retireSmalls s) := by
  have hsmall : ∀ k, freeKey k = false → oneOf [Reg.MEM_SMALL_COUNT_RESIDENT] k = false := fun k e => by
    simp only [freeKey, oneOf, List.map_cons, List.map_nil, List.contains_cons, List.contains_nil, Bool.or_eq_false_iff] at e ⊢
    exact e.2.2
  exact .foldl (.refl s) fun u m => .ite ((freeSmall_touches m.1 u).mono (by decide) hsmall) (.refl u)

theorem freeCtx_spec (id : Nat) (s : State) : Touches [.ctxs, .extents, .wts, .flds] freeKey s (freeCtx (some id) s) ∧
    (freeCtx (some id) s).ctxs = smErase s.ctxs id := by
  have herase : keptBut [.ctxs] s { s with ctxs := smErase s.ctxs id } := ctxs_kept s _
  have hcount := countCtxs_touches { s with ctxs := smErase s.ctxs id }
  have hretire := retireSmalls_touches (countCtxs { s with ctxs := smErase s.ctxs id })
  exact ⟨((Touches.refl s).keep herase).step hcount (by decide) (fun _ e => e) |>.step hretire (by decide) fun _ e => e,
    (hretire.parts .ctxs (by decide)).trans (hcount.parts .ctxs (by decide))⟩

/-- A FINAL record is written: HEAD advances, and the context is FREE. -/
theorem cplWrite_final {r : CplRec} {id : Nat} (hf : r.final = some id) (hr : r.res = none) (s : State) :
    (cplWrite r s).ctxs = smErase s.ctxs id ∧
      cplHead (cplWrite r s) r.port = (cplHead s r.port + 1) % (2 * cplSize s r.port) % 2 ^ 17 ∧
      keptBut (.ctxs :: .extents :: .wts :: irqParts) s (cplWrite r s) := by
  unfold cplWrite
  rw [hf, hr]
  dsimp only [giveBack]
  generalize hu : setP (emit s _) r.port Reg.CTX_CPL_HEAD_INDEX _ = u
  have hk : keptBut [.out, .flds] s u := hu ▸ keptBut_trans (emit_kept s _) (setP_kept _ _ _ _)
  have hhead : cplHead u r.port = (cplHead s r.port + 1) % (2 * cplSize s r.port) % 2 ^ 17 := hu ▸ getP_setP_self _ _ _ _
  obtain ⟨hfree, hctxs⟩ := freeCtx_spec id u
  have hirq : Touches irqParts irqKey (freeCtx (some id) u) (irq r.port 0 (freeCtx (some id) u)) := .irq (.refl _) (by decide) fun _ e => e
  have hkey : ∀ p : Port, freeKey (fldKey Reg.CTX_CPL_HEAD_INDEX p) = false ∧ irqKey (fldKey Reg.CTX_CPL_HEAD_INDEX p) = false := by
    intro p
    cases p <;> decide
  refine ⟨(hirq.parts .ctxs (by decide)).trans (hctxs.trans (congrArg (smErase · id) (hk .ctxs (by decide)))), ?_,
    (keptBut_trans (keptBut_trans hk hfree.parts) hirq.parts).mono (by decide)⟩
  exact (hirq.getP (hkey r.port).2).trans ((hfree.getP (hkey r.port).1).trans hhead)

/-- A ring's room reads registers that count nothing. -/
theorem cplOpen_of_regs {s t : State} (h : regsKept pmcKey s t) (p : Port) :
    cplOpen t p = cplOpen s p ∧ cplHead t p = cplHead s p ∧ cplSize t p = cplSize s p := by
  have hhead : cplHead t p = cplHead s p := by
    refine h _ _ ?_
    cases p <;> decide
  have hsize : cplSize t p = cplSize s p := by
    refine congrArg (2 ^ ·) (h _ _ ?_)
    cases p <;> decide
  have htail : getP t p Reg.CTX_CPL_TAIL_INDEX = getP s p Reg.CTX_CPL_TAIL_INDEX := by
    refine h _ _ ?_
    cases p <;> decide
  have hen : getP t p Reg.CTX_RING_CTL_CPL_EN = getP s p Reg.CTX_RING_CTL_CPL_EN := by
    refine h _ _ ?_
    cases p <;> decide
  have hused : cplUsed t p = cplUsed s p := by rw [cplUsed, hhead, hsize, htail, cplUsed]
  exact ⟨by rw [cplOpen, hen, portUp_of_regs h, hused, hsize, cplOpen], hhead, hsize⟩

/-- A record is written at once to an open ring that no record waits for. -/
theorem cplPut_open {s : State} {r : CplRec} (ho : cplOpen s r.port = true) (hh : s.cplHeld = []) : cplPut r s = cplWrite r s := by
  have hup : portUp s r.port = true := by
    simp only [cplOpen, Bool.and_eq_true] at ho
    exact ho.1.2
  simp [cplPut, hup, ho, hh]

theorem putFinal_of {s : State} {id k : Nat} {c d : Ctx} (h : alGet s.ctxs id = some d) (hf : d.freed = true) (hk : d.releaseStep = some k) :
    putFinal s (id, c) = cplPut (finalRecord id k d) (setCtx s id { d with releaseStep := none }) := by
  unfold putFinal
  dsimp only
  rw [h]
  dsimp only
  rw [hf, hk]

/-- A context whose release has returned gives up the release as its FINAL record is put. -/
theorem putFinal_freed {s : State} {id k : Nat} {d : Ctx} (h : alGet s.ctxs id = some d) (hk : d.releaseStep = some k) (c : Ctx) :
    putFinal (modCtx s id fun c => { c with freed := true }) (id, c) = cplPut (finalRecord id k { d with freed := true })
      (setCtx (setCtx s id { d with freed := true }) id { d with freed := true, releaseStep := none }) := by
  rw [modCtx_of h]
  exact putFinal_of alGet_alSet_self rfl hk

/-- R246, R267: with its ring open, the FINAL record of a released context is written at once. -/
theorem returnReq_writes (f : Flight) (m : ReturnMsg) (r : ReqRec) {s : State} {c : Ctx} (hc : alGet s.ctxs r.ctx = some c) {k : Nat}
    (hk : r.kind = .release) (hm : m.reqs = []) (he : c.entryDue = false) (hs : c.releaseStep = some k) (ho : cplOpen s c.port = true)
    (hh : s.cplHeld = []) : ∃ v x, returnReq f m s r = cplWrite x v ∧ ReqReturned r.ctx s v ∧ x.final = some r.ctx ∧ x.res = none ∧
      x.port = c.port := by
  obtain ⟨hret, prod, kept, hback⟩ := reqReturned_spec f m r [] 0 c.endReason hc
  rw [returnReq_releases f m r hc hk hm he, putFinal_freed hback hs]
  have hdone := (hret.setCtx { ctxReturned f m r c.entryDue [] 0 { c with prod := prod, kept := kept } with freed := true }).setCtx
    { ctxReturned f m r c.entryDue [] 0 { c with prod := prod, kept := kept } with freed := true, releaseStep := none }
  obtain ⟨hopen, -, -⟩ := cplOpen_of_regs (regsKept_of_flds pmcKey (hdone.parts .flds (by decide))) c.port
  exact ⟨_, _, cplPut_open (hopen.trans ho) ((hdone.parts .cplHeld (by decide)).trans hh), hdone, rfl, rfl, rfl⟩

/-! ### The command (R243, R244, R342) -/

/-- The flight of a returned step is over. -/
def flightEnds (m : ReturnMsg) (time : Nat) (s : State) : State :=
  { atTime time s with ctl.flights := s.ctl.flights.filter fun g => g.hdr.step != m.step }

theorem flightEnds_touches (m : ReturnMsg) (time : Nat) (s : State) : Touches [.flds, .now, .ctl] pmcKey s (flightEnds m time s) :=
  ((atTime_touches time s).mono (by decide) fun _ => id).keep (ctl_kept _ _)

theorem flightEnds_journal (m : ReturnMsg) (time : Nat) (s : State) : (flightEnds m time s).ctl.journalDue = s.ctl.journalDue := by
  have h : (atTime time s).ctl.journalDue = s.ctl.journalDue := congrArg CtlSt.journalDue ((atTime_touches time s).parts .ctl (by decide))
  exact h

/-- R342: a journal record falls due. -/
def addJournal (x : Flight × Nat × Bool) (s : State) : State := { s with ctl.journalDue := s.ctl.journalDue ++ [x] }

/-- The flight as its journal record and its requests see it: R340's taint includes the step's VARY. -/
def flightReturned (f : Flight) (m : ReturnMsg) : Flight :=
  { f with tainted := f.tainted || (m.vary || f.vary || f.hdr.reqs.any fun r => r.vary) }

section
variable {s : State} {m : ReturnMsg}

theorem exec_returnMessage_none (h : ∀ f ∈ s.ctl.flights, f.hdr.step ≠ m.step) (time : Nat) : exec (.returnMessage m time) s = .next s := by
  have hfind : (s.ctl.flights.find? fun f => f.hdr.step == m.step) = none :=
    List.find?_eq_none.mpr fun f hf => by simpa using h f hf
  refine congrArg Host.Outcome.next ?_
  rw [hfind]

variable {f : Flight} {r : ReqRec} (hf : (s.ctl.flights.find? fun g => g.hdr.step == m.step) = some f) (hr : f.hdr.reqs = [r])
  (time : Nat)
include hf hr

theorem exec_returnMessage_one : exec (.returnMessage m time) s = .next
    (addJournal (flightReturned f m, m.status, m.vary || f.vary || f.hdr.reqs.any fun r => r.vary)
      (returnReq (flightReturned f m) m (flightEnds m time s) r)) := by
  refine congrArg Host.Outcome.next ?_
  rw [hf]
  exact congrArg (fun l => addJournal (flightReturned f m, m.status, m.vary || f.vary || f.hdr.reqs.any fun r => r.vary)
    (l.foldl (returnReq (flightReturned f m) m) (flightEnds m time s))) hr

end

section
variable {s : State} {m : ReturnMsg} {f : Flight} {r : ReqRec} {c : Ctx} (hf : (s.ctl.flights.find? fun g => g.hdr.step == m.step) = some f)
  (hr : f.hdr.reqs = [r]) (hc : alGet s.ctxs r.ctx = some c) (time : Nat)
include hf hr hc

/-- R243, R245: the tokens of one CONTINUE or AUTO request come back to its context. -/
theorem exec_returnMessage_continues {o : RetReq} (hk : r.kind = .cont ∨ r.kind = .autoDecode)
    (ho : (m.reqs.find? fun x => x.ctx == r.ctx) = some o) (hv : o.invalid = false) (hd : c.condemned = false)
    (hup : o.reason = 0 → leaseActive s c.desc.lease = true ∧ portUp s c.port = true) :
    ∃ t d, exec (.returnMessage m time) s = .next t ∧ alGet t.ctxs r.ctx = some d ∧ d.st = (if o.reason = 0 then .ready else .ending) ∧
      d.emitted = c.emitted + o.tokens.length ∧ d.tail = r.pos0 + r.rows ∧ d.endReason = (if o.reason = 0 then c.endReason else o.reason) ∧
      d.varyAny = (c.varyAny || m.vary || f.vary || r.vary) ∧ d.spans = c.spans ∧ d.desc = c.desc ∧ d.port = c.port ∧
      (∀ id, id ≠ r.ctx → alGet t.ctxs id = alGet s.ctxs id) ∧
      t.ctl.flights = s.ctl.flights.filter (fun g => g.hdr.step != m.step) ∧ t.ctl.journalDue.length = s.ctl.journalDue.length + 1 ∧
      keptBut [.flds, .now, .ctxs, .clients, .ctl, .out] s t := by
  have hends := flightEnds_touches m time s
  have hctxs : (flightEnds m time s).ctxs = s.ctxs := hends.parts .ctxs (by decide)
  obtain ⟨u, d, hset, hret, hst, hemitted, htail, hreason, hvary, hspans, hdesc, hport⟩ :=
    returnReq_sets (flightReturned f m) m r (hctxs ▸ hc) hk ho hv hd fun h0 =>
      ⟨(leaseActive_congr (hends.parts .sec (by decide)) _).trans (hup h0).1, (portUp_of_regs hends.regs _).trans (hup h0).2⟩
  have hexec := exec_returnMessage_one hf hr time
  rw [hset] at hexec
  have hdone := hret.setCtx d
  refine ⟨_, d, hexec, alGet_alSet_self, hst, hemitted, htail, hreason, hvary, hspans, hdesc, hport,
    fun id hid => (hdone.others id hid).trans (congrArg (alGet · id) hctxs), hdone.flights, ?_, ?_⟩
  · exact (List.length_append ..).trans (congrArg (List.length · + 1) (hdone.journal.trans (flightEnds_journal m time s)))
  · exact (keptBut_trans (keptBut_trans hends.parts hdone.parts) (ctl_kept _ _)).mono (by decide)

/-- R246, R267: the step of one RELEASE brings its context's FINAL record. -/
theorem exec_returnMessage_releases {k : Nat} (hk : r.kind = .release) (hm : m.reqs = []) (he : c.entryDue = false)
    (hs : c.releaseStep = some k) (ho : cplOpen s c.port = true) (hh : s.cplHeld = []) :
    ∃ t, exec (.returnMessage m time) s = .next t ∧ alGet t.ctxs r.ctx = none ∧ (∀ id, id ≠ r.ctx → alGet t.ctxs id = alGet s.ctxs id) ∧
      cplHead t c.port = (cplHead s c.port + 1) % (2 * cplSize s c.port) % 2 ^ 17 ∧
      t.ctl.flights = s.ctl.flights.filter (fun g => g.hdr.step != m.step) ∧ t.mem = s.mem ∧ t.pages = s.pages := by
  have hends := flightEnds_touches m time s
  have hctxs : (flightEnds m time s).ctxs = s.ctxs := hends.parts .ctxs (by decide)
  obtain ⟨hopen, hhead, hsize⟩ := cplOpen_of_regs hends.regs c.port
  obtain ⟨v, x, hreq, hdone, hfin, hres, hport⟩ :=
    returnReq_writes (flightReturned f m) m r (hctxs ▸ hc) hk hm he hs (hopen.trans ho) ((hends.parts .cplHeld (by decide)).trans hh)
  have hexec := exec_returnMessage_one hf hr time
  rw [hreq] at hexec
  obtain ⟨hgone, hadvanced, hkept⟩ := cplWrite_final hfin hres v
  obtain ⟨-, hheadv, hsizev⟩ := cplOpen_of_regs (regsKept_of_flds pmcKey (hdone.parts .flds (by decide))) c.port
  rw [hport, hheadv, hsizev, hhead, hsize] at hadvanced
  refine ⟨_, hexec, ?_, fun id hid => ?_, hadvanced, ?_,
    (hkept .mem (by decide)).trans ((hdone.parts .mem (by decide)).trans (hends.parts .mem (by decide))),
    (hkept .pages (by decide)).trans ((hdone.parts .pages (by decide)).trans (hends.parts .pages (by decide)))⟩
  · exact (congrArg (alGet · r.ctx) hgone).trans alGet_smErase_self
  · exact (congrArg (alGet · id) hgone).trans ((alGet_smErase_ne hid).trans ((hdone.others id hid).trans (congrArg (alGet · id) hctxs)))
  · exact (congrArg CtlSt.flights (hkept .ctl (by decide))).trans hdone.flights

end

/-! ### The obligation -/

/-- Settles O38: a step that arrives is queued or discarded by whether its slot holds its generation; a return message ends the flight and
brings its request's context what the step emitted, or its FINAL record. -/
theorem stepsArriveAndReturn : Obligations.StepsArriveAndReturn := by
  unfold Obligations.StepsArriveAndReturn
  refine ⟨fun s h time => ⟨exec_stepReceive_not h time, fun he ha hi hl => ?_⟩,
    fun s m time => ⟨fun h => exec_returnMessage_none h time, fun f r c hf hr hc => ⟨?_, ?_⟩⟩⟩
  · exact ⟨exec_stepReceive_held h time he ha hi hl, exec_stepReceive_unheld h time he ha hi hl⟩
  · exact fun o hk ho hv hd hup => exec_returnMessage_continues hf hr hc time hk ho hv hd hup
  · exact fun k hk hm he hs ho hh => exec_returnMessage_releases hf hr hc time hk hm he hs ho hh

end Sys2Proof.Machine
end

