-- ==== Sys2Proof/Proofs/PortLoss.lean ====
section
/-!
SUPPORT. Proofs/PortLoss.lean: a host port that goes down: its registers, the loads that read through it, and its contexts, records and
adoptions (R223, R269, R271, R272, R365, R416).
-/
namespace Sys2Proof.Machine

/-! ### Registers of a port -/

/-- A field that exists once stands in either port's copy. -/
theorem fldKey_shared {f : Fld} (h : f.perPort = false) (p : Port) : fldKey f p = fldKey f .a := by simp [fldKey, h]

theorem portUp_eq (s : State) (p : Port) : portUp s p = (getP s p (upFld p) == 1) := by cases p <;> rfl

/-- A port's own fields of HOST_PORT_x and SEC_PORT_BIND are shared ones. -/
theorem getP_hostFld (s : State) (p : Port) :
    ∀ f ∈ [upFld p, downFld p, bindFld p, speedFld p, widthFld p, revFld p, d3Fld p, perstFld p, refFld p], getP s p f = getF s f := by
  intro f hf
  have hshared : f.perPort = false := by
    revert f
    cases p <;> decide
  exact congrArg (smGet f.reset s.flds) (fldKey_shared hshared p)

theorem setPortSt_kept (p : Port) (x : PortSt) (s : State) : keptBut [.boot] s (setPortSt p x s) := fun q hq => by
  cases p <;> cases q with
  | boot => exact absurd hq (by decide)
  | _ => rfl

theorem portSt_setPortSt_self (p : Port) (x : PortSt) (s : State) : portSt (setPortSt p x s) p = x := by cases p <;> rfl

theorem portSt_setPortSt_other (p : Port) (x : PortSt) (s : State) : portSt (setPortSt p x s) (otherPort p) = portSt s (otherPort p) := by
  cases p <;> rfl

theorem portSt_congr {s t : State} (h : t.boot = s.boot) (p : Port) : portSt t p = portSt s p := by
  cases p <;> simp only [portSt, h]

/-- R423: the cause bit of an interrupt that has arisen is set. -/
theorem getP_irq_cause (p : Port) (n : Nat) (s : State) : getP (irq p n s) p (causeFld n) = 1 := by
  have hlen : (causeFld n).len = 1 := by
    unfold causeFld
    split <;> rfl
  have hset : getP (setP s p (causeFld n) 1) p (causeFld n) = 1 := by rw [getP_setP_self, hlen]; rfl
  unfold irq
  split
  · assumption
  · dsimp only
    split
    · exact (getP_congr (flds_sendVector p n _) p _).trans hset
    · exact hset

/-! ### Reads of the module that fail (R223, R358, R417) -/

/-- What the end of a weight load writes. -/
def loadEndWrites (phase status res : Nat) : List (Fld × Nat) :=
  [(Reg.MEM_LOAD_STATUS_BUSY, 0), (Reg.MEM_LOAD_STATUS_PHASE, phase), (Reg.MEM_LOAD_STATUS_STATUS, status), (Reg.MEM_LOAD_STATUS_RESOURCE, res)]

def loadEndFlds : List Fld :=
  [Reg.MEM_LOAD_STATUS_BUSY, Reg.MEM_LOAD_STATUS_PHASE, Reg.MEM_LOAD_STATUS_STATUS, Reg.MEM_LOAD_STATUS_RESOURCE]

theorem loadEndFlds_nodup : (loadEndFlds.map fun f => fldKey f .a).Nodup := by decide

/-- The registers that a failed weight load changes, its slot's among them. -/
def loadKey (k : Nat) : Bool := slotKey k || irqKey k || oneOf (Reg.MEM_SMALL_COUNT_RESIDENT :: loadEndFlds) k

def loadParts : List Part := slotParts ++ irqParts

theorem loadKey_false {k : Nat} (h : loadKey k = false) :
    slotKey k = false ∧ irqKey k = false ∧ oneOf [Reg.MEM_SMALL_COUNT_RESIDENT] k = false ∧ oneOf loadEndFlds k = false := by
  simp only [loadKey, oneOf, List.map_cons, List.contains_cons, Bool.or_eq_false_iff] at h
  obtain ⟨⟨hslot, hirq⟩, hsmall, hend⟩ := h
  exact ⟨hslot, hirq, by simp only [oneOf, List.map_cons, List.map_nil, List.contains_cons, hsmall]; rfl, hend⟩

section
variable (phase status res : Nat) (s : State)

theorem loadStatus_driven :
    Touches (.wts :: irqParts) irqKey (setPort .a s (loadEndWrites phase status res)) (loadStatus phase status res s) :=
  .irqBoth (.keep (.refl _) (wts_kept _ _)) (by decide) fun _ => id

theorem loadStatus_spec : Touches loadParts loadKey s (loadStatus phase status res s) ∧ (loadStatus phase status res s).wts.load = none ∧
    getF (loadStatus phase status res s) Reg.MEM_LOAD_STATUS_STATUS = status % 256 ∧
    getB (loadStatus phase status res s) Reg.MEM_LOAD_STATUS_BUSY = false := by
  have hdriven := loadStatus_driven phase status res s
  have hset : Touches [.flds] (oneOf loadEndFlds) s (setPort .a s (loadEndWrites phase status res)) :=
    ⟨setPort_kept _ _ _, regsKept_setPort_oneOf s (loadEndWrites phase status res)⟩
  have hread : ∀ w ∈ loadEndWrites phase status res, irqKey (fldKey w.1 .a) = false →
      getF (loadStatus phase status res s) w.1 = w.2 % 2 ^ w.1.len := fun w hw hk =>
    (hdriven.getF hk).trans (getP_setPort (ws := loadEndWrites phase status res) (p := .a) (s := s) loadEndFlds_nodup w hw)
  simp only [loadEndWrites, List.forall_mem_cons] at hread
  obtain ⟨hbusy, -, hst, -⟩ := hread
  refine ⟨((Touches.refl s).step hset (by decide) fun k e => (loadKey_false e).2.2.2).step hdriven (by decide) fun k e => (loadKey_false e).2.1,
    ?_, hst (by decide), getB_of_getF (b := false) (hbusy (by decide)) rfl⟩
  have hwts : (loadStatus phase status res s).wts = { s.wts with load := none } := irqBoth_kept 2 _ .wts (by decide)
  rw [hwts]

end

theorem loadUndo_spec (l : Load) (s : State) : Touches loadParts loadKey s (loadUndo l s) ∧ (loadUndo l s).ctl.adopts = s.ctl.adopts := by
  unfold loadUndo
  split
  · exact ⟨(emptySlot_touches l.target s).mono (by decide) fun k e => (loadKey_false e).1, (slotVacated_touches l.target s).2⟩
  · exact ⟨.setF (.keep (.refl s) (extents_kept s _)), rfl⟩

/-- R223: a weight load in progress ends with the status, and its slot is empty. -/
theorem loadFails_spec {s : State} {r : LoadRun} (h : s.wts.load = some r) (status : Nat) : Touches loadParts loadKey s (loadFails status s) ∧
    (loadFails status s).wts.load = none ∧ getF (loadFails status s) Reg.MEM_LOAD_STATUS_STATUS = status % 256 ∧
    getB (loadFails status s) Reg.MEM_LOAD_STATUS_BUSY = false ∧ (loadFails status s).ctl.adopts = s.ctl.adopts := by
  obtain ⟨hundo, hadopts⟩ := loadUndo_spec r.load s
  obtain ⟨hends, hload, hst, hbusy⟩ := loadStatus_spec (getF s Reg.MEM_LOAD_STATUS_PHASE) status 0 (loadUndo r.load s)
  have hctl : (loadStatus (getF s Reg.MEM_LOAD_STATUS_PHASE) status 0 (loadUndo r.load s)).ctl = (loadUndo r.load s).ctl :=
    irqBoth_kept 2 _ .ctl (by decide)
  unfold loadFails
  rw [h]
  exact ⟨hundo.trans hends, hload, hst, hbusy, (congrArg CtlSt.adopts hctl).trans hadopts⟩

/-- A read of the weight load through a port fails. -/
def weightReadFails (p : Port) (status : Nat) (s : State) : State :=
  match s.wts.load with
  | some r => if r.port = p then loadFails status s else s
  | none => s

/-- A read of the image fetch through a port fails. -/
def imageReadFails (p : Port) (s : State) : State :=
  match s.wts.imgRun with
  | some r => if r.port = p ∧ getF s Reg.ENG_IMG_STATUS_PHASE = 1 then imageEnds 0x23 0 0 0 s else s
  | none => s

theorem portLoadsFail_eq (p : Port) (status : Nat) (s : State) : portLoadsFail p status s = imageReadFails p (weightReadFails p status s) := rfl

section
variable {s : State} {p : Port}

theorem weightReadFails_none (h : s.wts.load = none) (status : Nat) : weightReadFails p status s = s := by rw [weightReadFails, h]

theorem weightReadFails_other {r : LoadRun} (h : s.wts.load = some r) (hp : r.port ≠ p) (status : Nat) : weightReadFails p status s = s := by
  rw [weightReadFails, h]
  exact if_neg hp

theorem weightReadFails_own {r : LoadRun} (h : s.wts.load = some r) (hp : r.port = p) (status : Nat) :
    weightReadFails p status s = loadFails status s := by
  rw [weightReadFails, h]
  exact if_pos hp

theorem imageReadFails_none (h : s.wts.imgRun = none) : imageReadFails p s = s := by rw [imageReadFails, h]

theorem imageReadFails_other {r : ImgRun} (h : s.wts.imgRun = some r) (hp : r.port ≠ p ∨ getF s Reg.ENG_IMG_STATUS_PHASE ≠ 1) :
    imageReadFails p s = s := by
  rw [imageReadFails, h]
  exact if_neg fun hc => hp.elim (fun hn => hn hc.1) fun hn => hn hc.2

theorem imageReadFails_own {r : ImgRun} (h : s.wts.imgRun = some r) (hp : r.port = p) (hph : getF s Reg.ENG_IMG_STATUS_PHASE = 1) :
    imageReadFails p s = imageEnds 0x23 0 0 0 s := by
  rw [imageReadFails, h]
  exact if_pos ⟨hp, hph⟩

end

/-- What the loads that fail with a port change. -/
def portLoadKey (k : Nat) : Bool := loadKey k || imageEndKey k

theorem weightReadFails_spec (p : Port) (status : Nat) (s : State) : Touches loadParts portLoadKey s (weightReadFails p status s) ∧
    (weightReadFails p status s).ctl.adopts = s.ctl.adopts := by
  unfold weightReadFails
  split
  · next r hr =>
    split
    · obtain ⟨htouches, -, -, -, hadopts⟩ := loadFails_spec hr status
      exact ⟨htouches.mono (fun _ => id) fun k e => (Bool.or_eq_false_iff.mp e).1, hadopts⟩
    · exact ⟨.refl s, rfl⟩
  · exact ⟨.refl s, rfl⟩

theorem imageReadFails_touches (p : Port) (s : State) : Touches (.wts :: irqParts) portLoadKey s (imageReadFails p s) := by
  unfold imageReadFails
  split
  · exact .ite ((imageEnds_touches 0x23 0 0 0 s).mono (fun _ => id) fun k e => (Bool.or_eq_false_iff.mp e).2) (.refl s)
  · exact .refl s

theorem portLoadsFail_spec (p : Port) (status : Nat) (s : State) : Touches loadParts portLoadKey s (portLoadsFail p status s) ∧
    (portLoadsFail p status s).ctl.adopts = s.ctl.adopts ∧
    (s.wts.load = none → keptBut (.wts :: irqParts) s (portLoadsFail p status s)) := by
  obtain ⟨hweights, hadopts⟩ := weightReadFails_spec p status s
  have himage := imageReadFails_touches p (weightReadFails p status s)
  rw [portLoadsFail_eq]
  refine ⟨hweights.step himage (by decide) fun _ => id, (congrArg CtlSt.adopts (himage.parts .ctl (by decide))).trans hadopts, fun h => ?_⟩
  rw [weightReadFails_none h]
  exact (imageReadFails_touches p s).parts

/-! ### The contexts of the port (R269, R271) -/

theorem orphanPort_spec (p : Port) (s : State) : Touches [.ctxs, .cplHeld, .flds] freeKey s (orphanPort p s) ∧
    (∀ c ∈ (orphanPort p s).ctxs, c.2.port = p → c.2.st ≠ .ready) ∧ ∀ r ∈ (orphanPort p s).cplHeld, r.port ≠ p := by
  have hheld (l : List CplRec) (m : List (Nat × Ctx)) : keptBut [.ctxs, .cplHeld] s { s with cplHeld := l, ctxs := m } := fun q hq => by
    cases q with
    | ctxs | cplHeld => exact absurd hq (by decide)
    | _ => rfl
  refine ⟨.step (.keep (.refl s) (hheld _ _)) (countCtxs_touches _) (by decide) fun _ => id, fun c hc hp => ?_, fun r hr => ?_⟩
  · obtain ⟨d, -, rfl⟩ := List.mem_map.mp hc
    split
    · simp
    · next hn =>
      rw [if_neg hn] at hp
      exact fun he => hn ⟨hp, he⟩
  · simpa using (List.mem_filter.mp hr).2

/-! ### The port goes down (R416) -/

/-- What a port that goes down writes: it is counted, unbound, and marked as lost. -/
def portCutWrites (p : Port) (s : State) : List (Fld × Nat) :=
  [(upFld p, 0), (downFld p, min 255 (getF s (downFld p) + 1)), (bindFld p, 0), (Reg.CTX_RING_CTL_PORT_LOST, 1)]

def portCutFlds (p : Port) : List Fld := [upFld p, downFld p, bindFld p, Reg.CTX_RING_CTL_PORT_LOST]

def portCutKey (p : Port) (k : Nat) : Bool := (portCutFlds p).any fun f => fldKey f p == k

/-- The port's registers are written, and adoptions through it forgotten. -/
def portCut (p : Port) (s : State) : State :=
  { setPort p s (portCutWrites p s) with ctl.adopts := s.ctl.adopts.filter fun a => a.port != p }

theorem portDown_up {s : State} {p : Port} (h : portUp s p = true) :
    portDown p s = irq (otherPort p) 5 (orphanPort p (portLoadsFail p 0x31 (portCut p s))) := by
  refine (if_neg (by simp [h])).trans ?_
  cases p <;> rfl

theorem portCut_touches (p : Port) (s : State) : Touches [.flds, .ctl] (portCutKey p) s (portCut p s) :=
  .keep (.step (.refl s) ⟨setPort_kept p s (portCutWrites p s), regsKept_setPort p s _⟩ (by decide) fun _ => id) (ctl_kept _ _)

/-- The parts and registers that follow the port's own. -/
def downParts : List Part := [.ctxs, .cplHeld] ++ loadParts

def downKey (k : Nat) : Bool := portLoadKey k || freeKey k

section
variable (p : Port) (s : State)

/-- The last steps of a port that goes down. -/
def portLeft : State := irq (otherPort p) 5 (orphanPort p (portLoadsFail p 0x31 s))

theorem portLeft_spec : Touches downParts downKey s (portLeft p s) ∧ getP (portLeft p s) (otherPort p) Reg.HOST_IRQ_CAUSE_PEER = 1 ∧
    (∀ c ∈ (portLeft p s).ctxs, c.2.port = p → c.2.st ≠ .ready) ∧ (∀ r ∈ (portLeft p s).cplHeld, r.port ≠ p) ∧
    (portLeft p s).ctl.adopts = s.ctl.adopts ∧ (s.wts.load = none → (portLeft p s).mem = s.mem ∧ (portLeft p s).marks = s.marks) := by
  obtain ⟨hloads, hadopts, hnone⟩ := portLoadsFail_spec p 0x31 s
  obtain ⟨horphan, hready, hheld⟩ := orphanPort_spec p (portLoadsFail p 0x31 s)
  have hirq : Touches irqParts irqKey (orphanPort p (portLoadsFail p 0x31 s)) (portLeft p s) := .irq (.refl _) (by decide) fun _ e => e
  have hkirq : ∀ k, downKey k = false → irqKey k = false := fun k e => by
    simp only [downKey, portLoadKey, Bool.or_eq_false_iff] at e
    exact (loadKey_false e.1.1).2.1
  refine ⟨.step (.step (hloads.mono (by decide) fun k e => (Bool.or_eq_false_iff.mp e).1) horphan (by decide)
    fun k e => (Bool.or_eq_false_iff.mp e).2) hirq (by decide) hkirq, getP_irq_cause (otherPort p) 5 _, ?_, ?_, ?_, fun h => ⟨?_, ?_⟩⟩
  · rw [show _ = _ from hirq.parts .ctxs (by decide)]
    exact hready
  · rw [show _ = _ from hirq.parts .cplHeld (by decide)]
    exact hheld
  · exact (congrArg CtlSt.adopts ((keptBut_trans horphan.parts hirq.parts) .ctl (by decide))).trans hadopts
  · exact ((keptBut_trans horphan.parts hirq.parts) .mem (by decide)).trans (hnone h .mem (by decide))
  · exact ((keptBut_trans horphan.parts hirq.parts) .marks (by decide)).trans (hnone h .marks (by decide))

end

/-- R271, R416: a port that was up goes down. -/
theorem portDown_wentDown {s : State} {p : Port} (h : portUp s p = true) : WentDown p s (portDown p s) := by
  rw [show portDown p s = portLeft p (portCut p s) from portDown_up h]
  obtain ⟨hleft, hpeer, hready, hheld, hadopts, hnone⟩ := portLeft_spec p (portCut p s)
  have hcut := portCut_touches p s
  have hnodup : ((portCutFlds p).map fun f => fldKey f p).Nodup := by cases p <;> decide
  have hfree : ∀ f ∈ portCutFlds p, downKey (fldKey f p) = false := by cases p <;> decide
  have hread : ∀ w ∈ portCutWrites p s, getP (portLeft p (portCut p s)) p w.1 = w.2 % 2 ^ w.1.len := fun w hw =>
    (hleft.getP (hfree w.1 (List.mem_map_of_mem hw))).trans (getP_setPort (ws := portCutWrites p s) (p := p) (s := s) hnodup w hw)
  have hother : portUp (portLeft p (portCut p s)) (otherPort p) = portUp s (otherPort p) := by
    rw [portUp_eq, portUp_eq, hleft.getP, hcut.getP]
    · cases p <;> decide
    · cases p <;> decide
  simp only [portCutWrites, List.forall_mem_cons] at hread
  obtain ⟨hup, hdown, hbind, hlost, -⟩ := hread
  have hhost := getP_hostFld (portLeft p (portCut p s)) p
  simp only [List.forall_mem_cons] at hhost
  obtain ⟨-, hdownF, hbindF, -⟩ := hhost
  refine ⟨?_, ?_, ?_, hlost, hpeer, hother, hready, hheld, ?_, (hleft.parts .img (by decide)).trans (hcut.parts .img (by decide)),
    (hleft.parts .portion (by decide)).trans (hcut.parts .portion (by decide)), fun hl => ?_⟩
  · rw [portUp_eq, hup]
    rfl
  · have hlen : (downFld p).len = 8 := by cases p <;> rfl
    rw [← hdownF, hdown, hlen, Nat.mod_eq_of_lt (by omega)]
  · rw [← hbindF, hbind, Nat.zero_mod]
  · rw [hadopts]
    exact fun a ha => by simpa using (List.mem_filter.mp ha).2
  · obtain ⟨hmem, hmarks⟩ := hnone ((congrArg WtsSt.load (hcut.parts .wts (by decide))).trans hl)
    exact ⟨hmem.trans (hcut.parts .mem (by decide)), hmarks.trans (hcut.parts .marks (by decide))⟩

/-- What a port that goes down leaves alone. -/
theorem portDown_touches (p : Port) (s : State) :
    Touches (.ctl :: downParts) (fun k => downKey k || portCutKey p k) s (portDown p s) := by
  cases h : portUp s p with
  | false =>
    rw [show portDown p s = s from if_pos (by simp [h])]
    exact .refl s
  | true =>
    rw [show portDown p s = portLeft p (portCut p s) from portDown_up h]
    exact ((portCut_touches p s).mono (by decide) fun k e => (Bool.or_eq_false_iff.mp e).2).step (portLeft_spec p _).1 (by decide)
      fun k e => (Bool.or_eq_false_iff.mp e).1

end Sys2Proof.Machine
end

