-- ==== Sys2Proof/Proofs/HostPorts.lean ====
section
/-!
SUPPORT. Proofs/HostPorts.lean: host ports going up and down, interrupt holdoff, configuration requests, failed host reads and IDE, and
O54 (R223, R271, R273, R416, R417, R420, R423 to R425, R461).
-/
namespace Sys2Proof.Machine

/-! ### A port comes up (R273, R416) -/

/-- R416: what PORT_UP writes of the link; it ends D3hot. -/
def portLinkWrites (p : Port) (speed width : Nat) (rev : Bool) : List (Fld × Nat) :=
  [(speedFld p, speed), (widthFld p, width), (revFld p, b2n rev), (d3Fld p, 0)]

def portLinkFlds (p : Port) : List Fld := [speedFld p, widthFld p, revFld p, d3Fld p]

def portLinkKey (p : Port) (k : Nat) : Bool := (portLinkFlds p).any fun f => fldKey f p == k

/-- The link has trained. -/
def portLinked (p : Port) (speed width : Nat) (rev : Bool) (s : State) : State :=
  setPortSt p { portSt s p with link := true, lostAt := none, flr := false } (setPort p s (portLinkWrites p speed width rev))

section
variable (p : Port) (speed : Fin 7) (width : Fin 9) (rev : Bool) (s : State)

theorem portLinked_touches : Touches [.flds, .boot] (portLinkKey p) s (portLinked p speed width rev s) :=
  .keep (.step (.refl s) ⟨setPort_kept p s (portLinkWrites p speed width rev), regsKept_setPort p s _⟩ (by decide) fun _ => id)
    (setPortSt_kept p _ _)

theorem portLinked_regs : let t := portLinked p speed width rev s
    getF t (speedFld p) = speed ∧ getF t (widthFld p) = width ∧ getB t (revFld p) = rev ∧ getB t (d3Fld p) = false := by
  have hnodup : ((portLinkFlds p).map fun f => fldKey f p).Nodup := by cases p <;> decide
  have hflds : (portLinked p speed width rev s).flds = (setPort p s (portLinkWrites p speed width rev)).flds :=
    setPortSt_kept p _ _ .flds (by decide)
  have hread : ∀ w ∈ portLinkWrites p speed width rev, getP (portLinked p speed width rev s) p w.1 = w.2 % 2 ^ w.1.len := fun w hw =>
    (getP_congr hflds p _).trans (getP_setPort (ws := portLinkWrites p speed width rev) (p := p) (s := s) hnodup w hw)
  have hhost := getP_hostFld (portLinked p speed width rev s) p
  simp only [portLinkWrites, List.forall_mem_cons] at hread hhost
  obtain ⟨hspeed, hwidth, hrev, hd3, -⟩ := hread
  obtain ⟨-, -, -, hspeedF, hwidthF, hrevF, hd3F, -⟩ := hhost
  have hlen : (speedFld p).len = 3 ∧ (widthFld p).len = 4 ∧ (revFld p).len = 1 ∧ (d3Fld p).len = 1 := by cases p <;> decide
  obtain ⟨hlspeed, hlwidth, hlrev, hld3⟩ := hlen
  refine ⟨?_, ?_, getB_of_getF (hrevF.symm.trans hrev) hlrev, getB_of_getF (b := false) (hd3F.symm.trans hd3) hld3⟩
  · rw [← hspeedF, hspeed, hlspeed]
    exact Nat.mod_eq_of_lt (by omega)
  · rw [← hwidthF, hwidth, hlwidth]
    exact Nat.mod_eq_of_lt (by omega)

theorem portSt_portLinked :
    portSt (portLinked p speed width rev s) p = { portSt s p with link := true, lostAt := none, flr := false } := portSt_setPortSt_self _ _ _

theorem portUp_portLinked : portUp (portLinked p speed width rev s) p = portUp s p := by
  rw [portUp_eq, portUp_eq, (portLinked_touches p speed width rev s).getP]
  cases p <;> decide

/-- R416: the conditions that are left are PERST, the reference and a shutter. -/
theorem portClear_portLinked : portClear (portLinked p speed width rev s) p = true ↔
    getB s (perstFld p) = false ∧ getB s (refFld p) = true ∧ s.boot.portsShut.contains (portNum p) = false := by
  obtain ⟨-, -, -, hd3⟩ := portLinked_regs p speed width rev s
  have hkept := portLinked_touches p speed width rev s
  have hperst : getB (portLinked p speed width rev s) (perstFld p) = getB s (perstFld p) := by
    refine congrArg (· == 1) (hkept.getF ?_)
    cases p <;> decide
  have href : getB (portLinked p speed width rev s) (refFld p) = getB s (refFld p) := by
    refine congrArg (· == 1) (hkept.getF ?_)
    cases p <;> decide
  have hshut : (portLinked p speed width rev s).boot.portsShut = s.boot.portsShut := by cases p <;> rfl
  simp only [portClear, hperst, href, hd3, portSt_portLinked, hshut, Bool.and_eq_true, Bool.not_eq_true', Bool.not_false, and_true, and_assoc]

theorem exec_portUp_unpowered (h : s.boot.stage ∈ [Stage.unpowered, .latched, .dark, .boot]) :
    exec (.portUp p speed width rev) s = .next s := by
  refine congrArg Host.Outcome.next ?_
  simp only [List.mem_cons, List.not_mem_nil, or_false] at h
  obtain h | h | h | h := h <;> rw [h]

theorem exec_portUp (h : s.boot.stage ∉ [Stage.unpowered, .latched, .dark, .boot]) :
    exec (.portUp p speed width rev) s = .next (let u := portLinked p speed width rev s
      if portClear u p && !portUp u p then portRise p u else u) := by
  refine congrArg Host.Outcome.next ?_
  cases hst : s.boot.stage with
  | unpowered | latched | dark | boot => exact absurd h (by simp [hst])
  | locked | verified | tested | ready | safe => cases p <;> rfl

end

/-- The keys of a port's copies that take their reset values. -/
def resetKeys (p : Port) : List Nat := (perPortFlds.filter (· != Reg.CTX_RING_CTL_PORT_LOST)).map fun f => fldKey f p

theorem smGet_filter_keys {ks : List Nat} {k : Nat} (h : ks.contains k = false) (d : Nat) (m : List (Nat × Nat)) :
    smGet d (m.filter fun e => !ks.contains e.1) k = smGet d m k := by
  induction m with
  | nil => rfl
  | cons x m ih =>
    obtain ⟨j, v⟩ := x
    by_cases hj : j = k
    · subst hj
      rw [List.filter_cons_of_pos (by simpa using h)]
      simp [smGet]
    · rw [smGet, if_neg hj, ← ih, List.filter_cons]
      split
      · rw [smGet, if_neg hj]
      · rfl

section
variable (p : Port) (s : State)

theorem resetPerPort_flds : (resetPerPort p s).flds = s.flds.filter fun e => !(resetKeys p).contains e.1 := by cases p <;> rfl

theorem resetPerPort_kept :
    keptBut [.flds, .ctl, .latchA, .latchB, .holdoffA, .holdoffB, .deferA, .deferB] s (resetPerPort p s) := fun q hq => by
  cases p <;> cases q with
  | flds | ctl | latchA | latchB | holdoffA | holdoffB | deferA | deferB => exact absurd hq (by decide)
  | _ => rfl

theorem getP_resetPerPort {f : Fld} (hf : f ∈ perPortFlds) (hl : f ≠ Reg.CTX_RING_CTL_PORT_LOST) : getP (resetPerPort p s) p f = f.reset := by
  have hkey : fldKey f p ∈ resetKeys p := List.mem_map_of_mem (List.mem_filter.mpr ⟨hf, by simpa using hl⟩)
  rw [getP, resetPerPort_flds]
  refine smGet_of_not_mem fun e he hk => ?_
  have hout := (List.mem_filter.mp he).2
  rw [hk, List.contains_iff_mem.mpr hkey] at hout
  cases hout

theorem regsKept_resetPerPort : regsKept (fun k => (resetKeys p).contains k) s (resetPerPort p s) := fun k d hk => by
  rw [resetPerPort_flds]
  exact smGet_filter_keys hk d _

/-- An interrupt writes the cause bit of its own port only. -/
theorem regsKept_irq_own (n : Nat) : regsKept (fun k => k == fldKey (causeFld n) p) s (irq p n s) := fun k d hk => by
  unfold irq
  split
  · rfl
  · dsimp only
    split
    · rw [flds_sendVector, flds_setP_ne (ne_of_beq_false hk)]
    · rw [flds_setP_ne (ne_of_beq_false hk)]

/-- The port is up with BAR2 at its reset size, before the peer is told. -/
def portRisen : State := setPortSt p { portSt s p with bar2 := 36 } (setB (resetPerPort p s) (upFld p) true)

theorem portRisen_flds : (portRisen p s).flds = (setB (resetPerPort p s) (upFld p) true).flds := setPortSt_kept p _ _ .flds (by decide)

theorem portRise_eq : portRise p s = irq (otherPort p) 5 (portRisen p s) := rfl

/-- The registers that a rising port writes beside its copies: its UP bit and the peer's cause. -/
def portRiseKey (k : Nat) : Bool :=
  (resetKeys p).contains k || k == fldKey (upFld p) .a || k == fldKey Reg.HOST_IRQ_CAUSE_PEER (otherPort p)

theorem portRise_touches : Touches (.boot :: .ctl :: .latchA :: .latchB :: irqParts) (portRiseKey p) s (portRise p s) := by
  have hrisen : keptBut (.boot :: .ctl :: .latchA :: .latchB :: irqParts) s (portRisen p s) :=
    (keptBut_trans (keptBut_trans (resetPerPort_kept p s) (setB_kept _ _ _)) (setPortSt_kept p _ _)).mono (by decide)
  refine ⟨(keptBut_trans hrisen (irq_kept _ _ _)).mono (by decide), fun k d hk => ?_⟩
  simp only [portRiseKey, Bool.or_eq_false_iff] at hk
  obtain ⟨⟨hcopy, hup⟩, hpeer⟩ := hk
  rw [portRise_eq, regsKept_irq_own (otherPort p) _ 5 k d hpeer, portRisen_flds, flds_setB_ne (ne_of_beq_false hup)]
  exact regsKept_resetPerPort p s k d hcopy

theorem getP_portRise {f : Fld} (hf : f ∈ perPortFlds) (hl : f ≠ Reg.CTX_RING_CTL_PORT_LOST) : getP (portRise p s) p f = f.reset := by
  have hapart : ∀ f ∈ perPortFlds,
      (fldKey f p == fldKey Reg.HOST_IRQ_CAUSE_PEER (otherPort p)) = false ∧ fldKey f p ≠ fldKey (upFld p) .a := by
    cases p <;> decide
  obtain ⟨hpeer, hup⟩ := hapart f hf
  refine (regsKept_irq_own (otherPort p) (portRisen p s) 5 _ _ hpeer).trans ?_
  rw [portRisen_flds, flds_setB_ne hup]
  exact getP_resetPerPort p s hf hl

theorem portUp_portRise : portUp (portRise p s) p = true := by
  have hpeer : (fldKey (upFld p) p == fldKey Reg.HOST_IRQ_CAUSE_PEER (otherPort p)) = false := by cases p <;> decide
  have hset : getB (portRisen p s) (upFld p) = true := by
    rw [getB_congr (portRisen_flds p s), getB_setB_self]
    cases p <;> decide
  rw [portUp_eq]
  refine (congrArg (· == 1) ((regsKept_irq_own (otherPort p) (portRisen p s) 5 _ _ hpeer).trans ?_)).trans hset
  exact getP_hostFld (portRisen p s) p _ List.mem_cons_self

theorem portRise_spec : latch (portRise p s) p = none ∧ portSt (portRise p s) p = { portSt s p with bar2 := 36 } ∧
    getP (portRise p s) (otherPort p) Reg.HOST_IRQ_CAUSE_PEER = 1 := by
  have hirq := irq_kept (otherPort p) 5 (portRisen p s)
  refine ⟨?_, (portSt_congr (hirq .boot (by decide)) p).trans (portSt_setPortSt_self p _ _), getP_irq_cause (otherPort p) 5 _⟩
  have hlatch : latch (portRisen p s) p = none := by cases p <;> rfl
  have hA : (portRise p s).latchA = (portRisen p s).latchA := hirq .latchA (by decide)
  have hB : (portRise p s).latchB = (portRisen p s).latchB := hirq .latchB (by decide)
  cases p with
  | a => exact hA.trans hlatch
  | b => exact hB.trans hlatch

end

/-- What the link has recorded stays as the port rises. -/
theorem portRise_link (p : Port) (s : State) : let t := portRise p s
    getF t (speedFld p) = getF s (speedFld p) ∧ getF t (widthFld p) = getF s (widthFld p) ∧ getB t (revFld p) = getB s (revFld p) ∧
      getB t (d3Fld p) = getB s (d3Fld p) := by
  have hfree : ∀ f ∈ portLinkFlds p, portRiseKey p (fldKey f .a) = false := by cases p <;> decide
  have hread : ∀ f ∈ portLinkFlds p, getF (portRise p s) f = getF s f := fun f hf => (portRise_touches p s).getF (hfree f hf)
  simp only [portLinkFlds, List.forall_mem_cons] at hread
  obtain ⟨hspeed, hwidth, hrev, hd3, -⟩ := hread
  exact ⟨hspeed, hwidth, congrArg (· == 1) hrev, congrArg (· == 1) hd3⟩

/-- R273, R416: PORT_UP records the link, and raises a port that nothing keeps down. -/
theorem exec_portUp_spec (p : Port) (speed : Fin 7) (width : Fin 9) (rev : Bool) {s : State}
    (h : s.boot.stage ∉ [Stage.unpowered, .latched, .dark, .boot]) :
    let clear := getB s (perstFld p) = false ∧ getB s (refFld p) = true ∧ s.boot.portsShut.contains (portNum p) = false
    ∃ t, exec (.portUp p speed width rev) s = .next t ∧ getF t (speedFld p) = speed ∧ getF t (widthFld p) = width ∧
      getB t (revFld p) = rev ∧ getB t (d3Fld p) = false ∧ (portSt t p).link = true ∧ (portSt t p).lostAt = none ∧
      (portSt t p).flr = false ∧
      (portUp s p = true ∨ ¬ clear → portUp t p = portUp s p ∧ keptBut [.flds, .boot] s t) ∧
      (portUp s p = false → clear → portUp t p = true ∧
        (∀ f ∈ perPortFlds, f ≠ Reg.CTX_RING_CTL_PORT_LOST → getP t p f = f.reset) ∧ latch t p = none ∧ (portSt t p).bar2 = 36 ∧
        getP t (otherPort p) Reg.HOST_IRQ_CAUSE_PEER = 1 ∧ keptBut (.boot :: .ctl :: .latchA :: .latchB :: irqParts) s t) := by
  intro clear
  have hlinked := portLinked_touches p speed width rev s
  have hup := portUp_portLinked p speed width rev s
  have hclear := portClear_portLinked p speed width rev s
  have hexec := exec_portUp p speed width rev s h
  have hst := portSt_portLinked p speed width rev s
  obtain ⟨hspeed, hwidth, hrev, hd3⟩ := portLinked_regs p speed width rev s
  generalize portLinked p speed width rev s = u at hlinked hup hclear hexec hspeed hwidth hrev hd3 hst
  by_cases hrise : portUp s p = false ∧ clear
  · obtain ⟨hdown, hc⟩ := hrise
    obtain ⟨hlatch, hport, hpeer⟩ := portRise_spec p u
    obtain ⟨hsspeed, hswidth, hsrev, hsd3⟩ := portRise_link p u
    rw [hst] at hport
    refine ⟨_, hexec.trans (congrArg _ (if_pos (by simp [hclear.mpr hc, hup, hdown]))), hsspeed.trans hspeed, hswidth.trans hwidth,
      hsrev.trans hrev, hsd3.trans hd3, congrArg PortSt.link hport, congrArg PortSt.lostAt hport, congrArg PortSt.flr hport,
      fun hn => absurd hn (by simp [hdown, hc]), fun _ _ => ⟨portUp_portRise p u, fun f hf hl => getP_portRise p u hf hl, hlatch,
        congrArg PortSt.bar2 hport, hpeer, (keptBut_trans hlinked.parts (portRise_touches p u).parts).mono (by decide)⟩⟩
  · refine ⟨u, hexec.trans (congrArg _ (if_neg fun hc => hrise ?_)), hspeed, hwidth, hrev, hd3, congrArg PortSt.link hst,
      congrArg PortSt.lostAt hst, congrArg PortSt.flr hst, fun _ => ⟨hup, hlinked.parts⟩, fun hdown hc => absurd ⟨hdown, hc⟩ hrise⟩
    simp only [Bool.and_eq_true, Bool.not_eq_true', hup] at hc
    exact ⟨hc.2, hclear.mp hc.1⟩

/-! ### A port goes down (R271, R416) -/

/-- The registers that are noted before a port goes down. -/
def portNoteKey (k : Nat) : Bool := pmcKey k || oneOf [Reg.HOST_PORT_A_PERST, Reg.HOST_PORT_B_PERST, Reg.HOST_SIDEBAND_PERST_A,
  Reg.HOST_SIDEBAND_PERST_B, Reg.HOST_PORT_A_D3HOT, Reg.HOST_PORT_B_D3HOT, Reg.HOST_PORT_A_IDE, Reg.HOST_PORT_B_IDE] k

def portNoteParts : List Part := [.flds, .now, .boot]

theorem portUp_noted {s u : State} (h : Touches portNoteParts portNoteKey s u) (p : Port) : portUp u p = portUp s p := by
  rw [portUp_eq, portUp_eq, h.getP]
  cases p <;> decide

/-- What was noted of the cause does not count in how the port goes down. -/
theorem wentDown_noted {s u : State} {p : Port} (h : Touches portNoteParts portNoteKey s u) (hup : portUp s p = true) :
    WentDown p s (portDown p u) := by
  obtain ⟨hdown, hcount, hbind, hlost, hpeer, hother, hready, hheld, hadopts, himg, hportion, hnone⟩ :=
    portDown_wentDown ((portUp_noted h p).trans hup)
  have hsame : getF u (downFld p) = getF s (downFld p) := by
    refine h.getF ?_
    cases p <;> decide
  rw [hsame] at hcount
  refine ⟨hdown, hcount, hbind, hlost, hpeer, hother.trans (portUp_noted h _), hready, hheld, hadopts, himg.trans (h.parts .img (by decide)),
    hportion.trans (h.parts .portion (by decide)), fun hl => ?_⟩
  obtain ⟨hmem, hmarks⟩ := hnone ((congrArg WtsSt.load (h.parts .wts (by decide))).trans hl)
  exact ⟨hmem.trans (h.parts .mem (by decide)), hmarks.trans (h.parts .marks (by decide))⟩

/-- What was noted of the cause stays. -/
theorem getB_portDown {p : Port} {f : Fld} (hf : (downKey (fldKey f .a) || portCutKey p (fldKey f .a)) = false) (u : State) :
    getB (portDown p u) f = getB u f := congrArg (· == 1) ((portDown_touches p u).getF hf)

theorem atTime_noted (time : Nat) (s : State) : Touches portNoteParts portNoteKey s (atTime time s) :=
  (atTime_touches time s).mono (by decide) fun _ e => (Bool.or_eq_false_iff.mp e).1

section
variable {s : State} {p : Port} (time : Nat)

theorem exec_dlActiveLost_down (h : (portSt s p).link = false) : exec (.dlActiveLost p time) s = .next s :=
  congrArg Host.Outcome.next (if_neg (by simp [h]))

/-- R416: a lost link starts the count of its 100 ms. -/
theorem exec_dlActiveLost (h : (portSt s p).link = true) : ∃ t, exec (.dlActiveLost p time) s = .next t ∧ getF t (speedFld p) = 0 ∧
    getF t (widthFld p) = 0 ∧ portSt t p = { portSt s p with link := false, lostAt := some time } ∧ portUp t p = portUp s p ∧
    keptBut [.flds, .boot, .now] s t := by
  have hcleared : Touches [.flds, .now] (fun k => pmcKey k || oneOf [speedFld p, widthFld p] k) s
      (setF (setF (atTime time s) (speedFld p) 0) (widthFld p) 0) :=
    .setF (.setF ((atTime_touches time s).mono (by decide) fun _ e => (Bool.or_eq_false_iff.mp e).1) (by simp [oneOf])) (by simp [oneOf])
  have hport := setPortSt_kept p { portSt s p with link := false, lostAt := some time } (setF (setF (atTime time s) (speedFld p) 0) (widthFld p) 0)
  have hflds := hport .flds (by decide)
  have hne : fldKey (speedFld p) .a ≠ fldKey (widthFld p) .a := by cases p <;> decide
  refine ⟨_, congrArg Host.Outcome.next (if_pos h), ?_, ?_, portSt_setPortSt_self _ _ _, ?_,
    (keptBut_trans hcleared.parts hport).mono (by decide)⟩
  · exact (getF_congr hflds _).trans ((getF_setF_ne hne).trans (getF_setF_self _ _ _))
  · exact (getF_congr hflds _).trans (getF_setF_self _ _ _)
  · rw [portUp_eq, portUp_eq]
    refine congrArg (· == 1) ((getP_congr hflds p _).trans (hcleared.getP ?_))
    cases p <;> decide

theorem exec_linkDownTimeout_linked (h : (portSt s p).lostAt = none) : exec (.linkDownTimeout p time) s = .next s := by
  refine congrArg Host.Outcome.next ?_
  rw [h]

theorem exec_linkDownTimeout_early {x : Nat} (h : (portSt s p).lostAt = some x) (ht : time < x + 100000000) :
    exec (.linkDownTimeout p time) s = .next s := by
  refine congrArg Host.Outcome.next ?_
  rw [h]
  exact if_neg (by omega)

theorem exec_linkDownTimeout {x : Nat} (h : (portSt s p).lostAt = some x) (ht : x + 100000000 ≤ time) :
    exec (.linkDownTimeout p time) s = .next (portDown p (atTime time s)) := by
  refine congrArg Host.Outcome.next ?_
  rw [h]
  exact if_pos ht

theorem exec_d3hotEntry (ha : stageAlive s = true) :
    exec (.d3hotEntry p) s = .next (if portUp s p then portDown p (setB s (d3Fld p) true) else s) :=
  congrArg Host.Outcome.next (viaPf0_alive ha p _)

theorem exec_functionLevelReset (ha : stageAlive s = true) : exec (.functionLevelReset p) s =
    .next (if portUp s p then portDown p (setPortSt p { portSt s p with flr := true } s) else s) :=
  congrArg Host.Outcome.next (viaPf0_alive ha p _)

def sidebandPerstFld : Port → Fld | .a => Reg.HOST_SIDEBAND_PERST_A | .b => Reg.HOST_SIDEBAND_PERST_B

/-- R427: PERST is noted at its accepted level, at the port and among the sideband inputs. -/
def perstNoted (p : Port) (time : Nat) (s : State) : State :=
  let u := setB (setB s (perstFld p) true) (sidebandPerstFld p) true
  setPortSt p { portSt u p with perstAt := (portSt u p).perstAt.getD time, link := false, lostAt := none } u

theorem perstOn_eq (p : Port) (time : Nat) (s : State) : perstOn p time s = portDown p (perstNoted p time s) := by
  cases p <;> rfl

theorem perstNoted_spec (p : Port) (time : Nat) (s : State) : Touches portNoteParts portNoteKey s (perstNoted p time s) ∧
    getB (perstNoted p time s) (perstFld p) = true := by
  have hkey : portNoteKey (fldKey (perstFld p) .a) = true ∧
      portNoteKey (fldKey (sidebandPerstFld p) .a) = true := by
    cases p <;> decide
  obtain ⟨hperst, hside⟩ := hkey
  refine ⟨.keep (.setF (.setF (.refl s) hperst) hside) (setPortSt_kept p _ _), ?_⟩
  refine (getB_congr (setPortSt_kept p _ _ .flds (by decide)) _).trans ((getB_setB_ne ?_).trans (getB_setB_self _ _ _ ?_))
  · cases p <;> decide
  · cases p <;> decide

theorem exec_perstAssert (hc : clocked s = true) (ht : toggling s (perstInput p) = false) :
    exec (.perstAssert p time) s = .next (portDown p (perstNoted p time (atTime time s))) :=
  congrArg Host.Outcome.next ((if_pos (by simp [hc, ht])).trans (perstOn_eq p time _))

/-- R271, R416: each of the four causes takes a port that is up down. -/
theorem exec_port_goes_down (hup : portUp s p = true) {x : Nat} {c : Instr}
    (hc : (c = .linkDownTimeout p time ∧ (portSt s p).lostAt = some x ∧ x + 100000000 ≤ time) ∨
      (c = .d3hotEntry p ∧ stageAlive s = true) ∨ (c = .functionLevelReset p ∧ stageAlive s = true) ∨
      (c = .perstAssert p time ∧ clocked s = true ∧ toggling s (perstInput p) = false)) :
    ∃ t, exec c s = .next t ∧ WentDown p s t ∧ (c = .d3hotEntry p → getB t (d3Fld p) = true) ∧
      (c = .functionLevelReset p → (portSt t p).flr = true) ∧ (c = .perstAssert p time → getB t (perstFld p) = true) := by
  obtain ⟨rfl, hlost, ht⟩ | ⟨rfl, ha⟩ | ⟨rfl, ha⟩ | ⟨rfl, hclk, htog⟩ := hc
  · exact ⟨_, exec_linkDownTimeout time hlost ht, wentDown_noted (atTime_noted time s) hup, nofun, nofun, nofun⟩
  · have hnoted : Touches portNoteParts portNoteKey s (setB s (d3Fld p) true) := by
      refine .setF (.refl s) ?_
      cases p <;> decide
    refine ⟨_, (exec_d3hotEntry ha).trans (congrArg _ (if_pos hup)), wentDown_noted hnoted hup, fun _ => ?_, nofun, nofun⟩
    refine (getB_portDown ?_ _).trans (getB_setB_self _ _ _ ?_)
    · cases p <;> decide
    · cases p <;> decide
  · have hnoted : Touches portNoteParts portNoteKey s (setPortSt p { portSt s p with flr := true } s) := .keep (.refl s) (setPortSt_kept p _ s)
    refine ⟨_, (exec_functionLevelReset ha).trans (congrArg _ (if_pos hup)), wentDown_noted hnoted hup, nofun, fun _ => ?_, nofun⟩
    rw [portSt_congr ((portDown_touches p _).parts .boot (by decide)), portSt_setPortSt_self]
  · obtain ⟨hperst, hset⟩ := perstNoted_spec p time (atTime time s)
    refine ⟨_, exec_perstAssert time hclk htog, wentDown_noted ((atTime_noted time s).trans hperst) hup, nofun, nofun, fun _ => ?_⟩
    refine (getB_portDown ?_ _).trans hset
    cases p <;> decide

end

/-! ### Interrupt holdoff (R423) -/

theorem setHoldoff_kept_own (s : State) (p : Port) (b : Bool) : keptBut [.holdoffA, .holdoffB] s (setHoldoff s p b) := fun q hq => by
  cases p <;> cases q with
  | holdoffA | holdoffB => exact absurd hq (by decide)
  | _ => rfl

theorem setDeferred_kept_own (s : State) (p : Port) (b : Bool) : keptBut [.deferA, .deferB] s (setDeferred s p b) := fun q hq => by
  cases p <;> cases q with
  | deferA | deferB => exact absurd hq (by decide)
  | _ => rfl

theorem holdoff_setHoldoff_other (s : State) (p : Port) (b : Bool) : holdoff (setHoldoff s p b) (otherPort p) = holdoff s (otherPort p) := by
  cases p <;> rfl

theorem holdoff_setDeferred (s : State) (p q : Port) (b : Bool) : holdoff (setDeferred s p b) q = holdoff s q := by
  cases p <;> cases q <;> rfl

theorem holdoff_emit (s : State) (o : Out) (q : Port) : holdoff (emit s o) q = holdoff s q := by cases q <;> rfl

section
variable {s : State} {p : Port}

/-- The holdoff has ended, and no vector waits for it. -/
def holdoffOver (p : Port) (s : State) : State := setDeferred (setHoldoff s p false) p false

theorem holdoffOver_kept : keptBut [.holdoffA, .holdoffB, .deferA, .deferB] s (holdoffOver p s) :=
  keptBut_trans (setHoldoff_kept_own s p false) (setDeferred_kept_own _ p false)

theorem exec_irqHoldoffExpire_idle (h : holdoff s p = false) : exec (.irqHoldoffExpire p) s = .next s :=
  congrArg Host.Outcome.next (if_neg (by simp [h]))

theorem exec_irqHoldoffExpire (h : holdoff s p = true) : exec (.irqHoldoffExpire p) s =
    .next (if deferred s p then sendVector p 0 (holdoffOver p s) else setHoldoff s p false) :=
  congrArg Host.Outcome.next (if_pos h)

/-- With no vector deferred, or none that the port could take, the holdoff only ends. -/
theorem exec_irqHoldoffExpire_quiet (h : holdoff s p = true) (hq : deferred s p = false ∨ portUp s p = false) :
    ∃ t, exec (.irqHoldoffExpire p) s = .next t ∧ holdoff t p = false ∧ keptBut [.holdoffA, .holdoffB, .deferA, .deferB] s t := by
  rw [exec_irqHoldoffExpire h]
  cases hd : deferred s p with
  | false =>
    refine ⟨_, rfl, ?_, (setHoldoff_kept_own s p false).mono (by decide)⟩
    cases p <;> rfl
  | true =>
    have hup : portUp (holdoffOver p s) p = false := by
      rw [portUp_eq, getP_congr (holdoffOver_kept .flds (by decide)), ← portUp_eq]
      exact hq.resolve_left (by simp [hd])
    have hstay : sendVector p 0 (holdoffOver p s) = holdoffOver p s := if_pos (by simp [hup])
    refine ⟨holdoffOver p s, congrArg Host.Outcome.next hstay, ?_, holdoffOver_kept⟩
    cases p <;> rfl

/-- A deferred vector 0 is sent, and its own holdoff starts. -/
theorem exec_irqHoldoffExpire_sends (h : holdoff s p = true) (hd : deferred s p = true) (hup : portUp s p = true) (hs : s.boot.stage ≠ .safe) :
    ∃ t, exec (.irqHoldoffExpire p) s = .next t ∧ t.out = .msix p 0 :: s.out ∧ deferred t p = false ∧
      holdoff t p = decide (0 < getP s p Reg.HOST_IRQ_HOLDOFF_US) ∧ holdoff t (otherPort p) = holdoff s (otherPort p) ∧
      keptBut [.out, .holdoffA, .holdoffB, .deferA, .deferB] s t := by
  have hk : keptBut [.holdoffA, .holdoffB, .deferA, .deferB] s (holdoffOver p s) := holdoffOver_kept
  have hup' : portUp (holdoffOver p s) p = true := by rwa [portUp_eq, getP_congr (hk .flds (by decide)), ← portUp_eq]
  have hs' : (holdoffOver p s).boot.stage ≠ .safe := by rwa [show (holdoffOver p s).boot = s.boot from hk .boot (by decide)]
  have hidle : holdoff (holdoffOver p s) p = false := by cases p <;> rfl
  have hsend : sendVector p 0 (holdoffOver p s) =
      setHoldoff (emit (holdoffOver p s) (.msix p 0)) p (decide (0 < getP (holdoffOver p s) p Reg.HOST_IRQ_HOLDOFF_US)) := by
    simp [sendVector, hup', hs', hidle]
  rw [getP_congr (hk .flds (by decide))] at hsend
  rw [exec_irqHoldoffExpire h, hd, if_pos rfl, hsend]
  generalize decide (0 < getP s p Reg.HOST_IRQ_HOLDOFF_US) = on
  refine ⟨_, rfl, ?_, ?_, ?_, ?_, (keptBut_trans (keptBut_trans hk (emit_kept _ _)) (setHoldoff_kept_own _ _ _)).mono (by decide)⟩
  · cases p <;> rfl
  · cases p <;> rfl
  · cases p <;> rfl
  · rw [holdoff_setHoldoff_other, holdoff_emit, holdoffOver, holdoff_setDeferred, holdoff_setHoldoff_other]

end

/-! ### Configuration requests (R420, R461) -/

section
variable {s : State} {p : Port}

theorem exec_configurationRequest_not (h : clocked s = false ∨ getB s (perstFld p) = true ∨ (portSt s p).link = false) (b : Option (Fin 9)) :
    exec (.configurationRequest p b) s = .next s := by
  refine congrArg Host.Outcome.next (if_pos ?_)
  obtain h | h | h := h <;> simp [h]

variable (hc : clocked s = true) (hp : getB s (perstFld p) = false) (hl : (portSt s p).link = true)
include hc hp hl

theorem exec_configurationRequest (b : Option (Fin 9)) : exec (.configurationRequest p b) s = .next
    (if s.ready || s.boot.stage == .safe then
      match b with
      | some n => if s.boot.stage = .safe then emit s (.cfg p) else setPortSt p { portSt s p with bar2 := 30 + n.val } (emit s (.cfg p))
      | none => emit s (.cfg p)
    else emit s (.crs p)) := by
  refine congrArg Host.Outcome.next ((if_neg (by simp [hc, hp, hl])).trans ?_)
  cases b <;> cases p <;> rfl

/-- R461: a request before the functions are ready is answered with retry status; one that sets BAR2's size is kept by the port. -/
theorem exec_configurationRequest_spec (n : Fin 9) :
    (s.ready = false → s.boot.stage ≠ .safe → ∀ b, exec (.configurationRequest p b) s = .next (emit s (.crs p))) ∧
    (s.ready = true ∨ s.boot.stage = .safe → exec (.configurationRequest p none) s = .next (emit s (.cfg p))) ∧
    (s.boot.stage = .safe → exec (.configurationRequest p (some n)) s = .next (emit s (.cfg p))) ∧
    (s.ready = true → s.boot.stage ≠ .safe → ∃ t, exec (.configurationRequest p (some n)) s = .next t ∧ t.out = .cfg p :: s.out ∧
      portSt t p = { portSt s p with bar2 := 30 + n.val } ∧ portSt t (otherPort p) = portSt s (otherPort p) ∧ keptBut [.out, .boot] s t) := by
  have hexec := exec_configurationRequest hc hp hl
  refine ⟨fun hr hs b => (hexec b).trans (congrArg _ (if_neg (by simp [hr, hs]))),
    fun h => (hexec none).trans (congrArg _ (if_pos (by simpa using h))), fun h => ?_, fun hr hs => ?_⟩
  · exact (hexec (some n)).trans (congrArg _ ((if_pos (by simp [h])).trans (if_pos h)))
  · have hset := setPortSt_kept p { portSt s p with bar2 := 30 + n.val } (emit s (.cfg p))
    refine ⟨_, (hexec (some n)).trans (congrArg _ ((if_pos (by simp [hr])).trans (if_neg hs))), hset .out (by decide),
      portSt_setPortSt_self _ _ _, ?_, (keptBut_trans (emit_kept s _) hset).mono (by decide)⟩
    cases p <;> rfl

end

/-! ### Host reads that fail (R223, R417) -/

/-- A failed read of the weight load or of the image fetch ends it; of any other read the module is told nothing. -/
theorem hostReads_end {s : State} {p : Port} {c : Fin 3 → Instr} {status : Nat} (hst : status < 256)
    (h0 : exec (c 0) s = .next (weightReadFails p status s)) (h1 : exec (c 1) s = .next (imageReadFails p s)) (h2 : exec (c 2) s = .next s) :
    exec (c 2) s = .next s ∧ (s.wts.load = none → exec (c 0) s = .next s) ∧ (s.wts.imgRun = none → exec (c 1) s = .next s) ∧
    (∀ r, s.wts.load = some r → (r.port ≠ p → exec (c 0) s = .next s) ∧
      (r.port = p → ∃ t, exec (c 0) s = .next t ∧ t.wts.load = none ∧ getF t Reg.MEM_LOAD_STATUS_STATUS = status ∧
        getB t Reg.MEM_LOAD_STATUS_BUSY = false ∧ t.img = s.img ∧ t.portion = s.portion)) ∧
    (∀ r, s.wts.imgRun = some r → (r.port ≠ p ∨ getF s Reg.ENG_IMG_STATUS_PHASE ≠ 1 → exec (c 1) s = .next s) ∧
      (r.port = p → getF s Reg.ENG_IMG_STATUS_PHASE = 1 → ∃ t, exec (c 1) s = .next t ∧ t.wts.imgRun = none ∧
        getF t Reg.ENG_IMG_STATUS_STATUS = 0x23 ∧ getB t Reg.ENG_IMG_STATUS_BUSY = false ∧ keptBut (.wts :: irqParts) s t)) := by
  refine ⟨h2, fun h => h0.trans (congrArg _ (weightReadFails_none h status)), fun h => h1.trans (congrArg _ (imageReadFails_none h)),
    fun r hr => ⟨fun hp => h0.trans (congrArg _ (weightReadFails_other hr hp status)), fun hp => ?_⟩,
    fun r hr => ⟨fun hp => h1.trans (congrArg _ (imageReadFails_other hr hp)), fun hp hph => ?_⟩⟩
  · obtain ⟨htouches, hload, hstatus, hbusy, -⟩ := loadFails_spec hr status
    exact ⟨_, h0.trans (congrArg _ (weightReadFails_own hr hp status)), hload, hstatus.trans (Nat.mod_eq_of_lt hst), hbusy,
      htouches.parts .img (by decide), htouches.parts .portion (by decide)⟩
  · obtain ⟨hbusy, hstatus, -⟩ := imageEnds_regs 0x23 0 0 0 s
    refine ⟨_, h1.trans (congrArg _ (imageReadFails_own hr hp hph)), ?_, hstatus, hbusy, (imageEnds_touches 0x23 0 0 0 s).parts⟩
    rw [imageEnds_wts]

/-! ### IDE (R424, R425) -/

section
variable (s : State) (p : Port)

theorem exec_ideKm : exec (.ideKm p) s =
    .next (if portUp s p = true ∧ s.sec.sessions ≠ [] ∧ mgmtAlive s = true then setF s (ideFld p) 1 else s) := by
  refine congrArg Host.Outcome.next ?_
  simp only [Bool.and_eq_true, Bool.not_eq_true', List.isEmpty_eq_false_iff, ne_eq, and_assoc]

theorem exec_ideIntegrityFail : exec (.ideIntegrityFail p) s = .next (if getF s (ideFld p) = 1 then
    if s.ctxs.any (fun c => c.2.port == p && ideRequired s c.2.desc.lease) then portDown p (setF s (ideFld p) 2) else setF s (ideFld p) 2
  else s) := rfl

variable {s p} (h : getF s (ideFld p) = 1)
include h

theorem exec_ideIntegrityFail_unused (hu : (s.ctxs.any fun c => c.2.port == p && ideRequired s c.2.desc.lease) = false) :
    exec (.ideIntegrityFail p) s = .next (setF s (ideFld p) 2) :=
  (exec_ideIntegrityFail s p).trans (congrArg _ ((if_pos h).trans (if_neg (by rw [hu]; decide))))

/-- R425: where a context of a lease that requires IDE uses the stream, the port goes down with it. -/
theorem exec_ideIntegrityFail_used (hu : (s.ctxs.any fun c => c.2.port == p && ideRequired s c.2.desc.lease) = true) (hup : portUp s p = true) :
    ∃ t, exec (.ideIntegrityFail p) s = .next t ∧ getF t (ideFld p) = 2 ∧ WentDown p s t := by
  have hnoted : Touches portNoteParts portNoteKey s (setF s (ideFld p) 2) := by
    refine .setF (.refl s) ?_
    cases p <;> decide
  have hlen : (ideFld p).len = 2 := by cases p <;> rfl
  refine ⟨_, (exec_ideIntegrityFail s p).trans (congrArg _ ((if_pos h).trans (if_pos hu))), ?_, wentDown_noted hnoted hup⟩
  refine ((portDown_touches p _).getF ?_).trans ((getF_setF_self _ _ _).trans (by rw [hlen]; rfl))
  cases p <;> decide

end

/-! ### The obligation -/

/-- Settles O54: each command by what it finds of the port; every way in which a port goes down is `portDown` behind what is noted of its
cause. -/
theorem portsAndInterrupts : Obligations.PortsAndInterrupts := by
  unfold Obligations.PortsAndInterrupts
  refine ⟨fun s p speed width rev => ⟨exec_portUp_unpowered p speed width rev s, exec_portUp_spec p speed width rev⟩, fun s p time x => ?_,
    fun s p time x c hup hc => exec_port_goes_down time hup hc, fun s p => ?_, fun s p n => ?_, fun s p c status hc => ?_, fun s p => ?_⟩
  · refine ⟨exec_dlActiveLost_down time, exec_dlActiveLost time, exec_linkDownTimeout_linked time, exec_linkDownTimeout_early time,
      fun ha hd => ⟨?_, ?_⟩⟩
    · rw [exec_d3hotEntry ha, hd, if_neg (by decide)]
    · rw [exec_functionLevelReset ha, hd, if_neg (by decide)]
  · exact ⟨exec_irqHoldoffExpire_idle, exec_irqHoldoffExpire_quiet, exec_irqHoldoffExpire_sends⟩
  · exact ⟨exec_configurationRequest_not, fun hc hp hl => exec_configurationRequest_spec hc hp hl n⟩
  · obtain ⟨rfl, rfl⟩ | ⟨rfl, rfl⟩ := hc
    · exact hostReads_end (by decide) rfl rfl rfl
    · exact hostReads_end (by decide) rfl rfl rfl
  · exact ⟨exec_ideKm s p, fun h => (exec_ideIntegrityFail s p).trans (congrArg _ (if_neg h)), exec_ideIntegrityFail_unused,
      exec_ideIntegrityFail_used⟩

end Sys2Proof.Machine
end

