-- ==== Sys2Proof/Proofs/StepDiscards.lean ====
section
/-!
SUPPORT. Proofs/StepDiscards.lean: which parts a step that is discarded or ended changes, and what serving control keeps of it (R189,
R244, R324).
-/
namespace Sys2Proof.Machine

/-! ### Appends (R188, R189, R247) -/

theorem zeroRange_kept (s : State) (a n : Nat) : keptBut [.mem, .marks] s (zeroRange s a n) := fun p hp => by
  cases p with
  | mem => exact absurd hp (by decide)
  | marks => exact absurd hp (by decide)
  | _ => rfl

theorem dropPages_kept (ps : List Nat) (s : State) : keptBut [.pages] s (dropPages ps s) := fun p hp => by
  cases p with
  | pages => exact absurd hp (by decide)
  | _ => rfl

theorem setCtx_kept (s : State) (id : Nat) (c : Ctx) : keptBut [.ctxs] s (setCtx s id c) := ctxs_kept s _

theorem zeroEntry_kept (c : Ctx) (s : State) (pos : Nat) : keptBut [.mem, .marks] s (zeroEntry c s pos) := by
  unfold zeroEntry
  split
  · exact foldl_kept _ _ fun u k => foldl_kept _ _ fun v off => keptBut_trans (zeroRange_kept v _ _) (zeroRange_kept _ _ _) |>.mono (by decide)
  · exact keptBut_refl _ s

theorem syncTable_kept (id : Nat) (s : State) : keptBut [.mem, .marks, .flds] s (syncTable id s) := by
  unfold syncTable
  split
  · exact keptBut_refl _ s
  · exact foldl_kept _ _ fun u k => putDev_kept u _ _

/-- What undoing a step's appends changes. -/
def appendParts : List Part := [.ctxs, .pages, .mem, .marks, .flds]

theorem discardAppends_kept (id pos rows : Nat) (s : State) : keptBut appendParts s (discardAppends id pos rows s) := by
  unfold discardAppends
  split
  · exact keptBut_refl _ s
  · next c _ =>
    have hzero := foldl_kept (List.range rows) s fun t k => zeroEntry_kept c t (pos + k)
    exact (keptBut_trans (keptBut_trans (keptBut_trans hzero (dropPages_kept _ _)) (setCtx_kept _ _ _)) (syncTable_kept _ _)).mono (by decide)

/-! ### Holds, cores and portions (R189, R210, R211) -/

/-- What the cores and the fabric hold of a step. -/
def heldParts : List Part := [.cores, .barriers, .flds, .mem, .marks, .ringRecs, .engQ, .sashQ, .fab, .movesHeld]

theorem dropEgress_kept (p : Portion) (s : State) : keptBut heldParts s (dropEgress p s) := (fab_kept s _).mono (by decide)

theorem barriers_cores_kept (s : State) (bs : List (Nat × List Nat)) (ks : List (Nat × CoreSt)) :
    keptBut [.barriers, .cores] s { s with barriers := bs, cores := ks } := fun p hp => by
  cases p with
  | barriers => exact absurd hp (by decide)
  | cores => exact absurd hp (by decide)
  | _ => rfl

theorem clearCores_kept (s : State) : keptBut heldParts s (clearCores s) := by
  rw [clearCores_eq]
  exact (keptBut_trans (coresForget_spec s).parts (barriers_cores_kept _ _ _)).mono (by decide)

theorem dropSaved_kept (s : State) : keptBut heldParts s (dropSaved s) := fun p hp => by
  cases p with
  | cores => exact absurd hp (by decide)
  | _ => rfl

/-- The cores and the fabric hold nothing of the step any more. -/
def holdsDropped (step : Nat) (s : State) : State :=
  let gone := (ofStep step s.portion).toList ++ (ofStep step s.suspended).toList ++ s.finals.filter fun p => p.hdr.step == step
  let s1 := gone.foldl (fun t p => dropEgress p t) s
  let s2 := if (ofStep step s.portion).isSome then clearCores s1 else s1
  if (ofStep step s.suspended).isSome || ((ofStep step s.portion).isSome && s.suspended.isNone) then dropSaved s2 else s2

theorem holdsDropped_kept (step : Nat) (s : State) : keptBut heldParts s (holdsDropped step s) := by
  unfold holdsDropped
  extract_lets gone s1 s2
  have h1 : keptBut heldParts s s1 := foldl_kept _ _ fun u p => dropEgress_kept p u
  have h2 : keptBut heldParts s s2 := keptBut_ite ((keptBut_trans h1 (clearCores_kept s1)).mono (by decide)) h1
  exact keptBut_ite ((keptBut_trans h2 (dropSaved_kept s2)).mono (by decide)) h2

/-- No portion or header of the step is left, and the step is remembered as dead. -/
def portionsDropped (step : Nat) (s : State) : State :=
  let keep := fun (p : Option Portion) => p.filter fun x => x.hdr.step != step
  { s with portion := keep s.portion, suspended := keep s.suspended, finals := s.finals.filter (fun p => p.hdr.step != step),
           inbox := s.inbox.filter (fun h => h.step != step), ctl.dead := listAdd s.ctl.dead step }

theorem portionsDropped_kept (step : Nat) (s : State) :
    keptBut [.portion, .suspended, .finals, .inbox, .ctl] s (portionsDropped step s) := fun p hp => by
  cases p with
  | portion => exact absurd hp (by decide)
  | suspended => exact absurd hp (by decide)
  | finals => exact absurd hp (by decide)
  | inbox => exact absurd hp (by decide)
  | ctl => exact absurd hp (by decide)
  | _ => rfl

theorem releaseStepHolds_kept (step : Nat) (s : State) : keptBut [.experts, .extents] s (releaseStepHolds step s) :=
  (keptBut_trans (experts_extents_kept s _ s.extents) (serveWaiting_kept (releaseHeld step (fun _ => true) s))).mono (by decide)

/-- The appends of the step's contexts are undone. -/
def appendsUndone (step : Nat) (s : State) : State :=
  (s.ctxs.filter fun c => c.2.step == step && c.2.stepRows != 0).foldl (fun t c =>
    let h := c.2.before.getD (c.2.hist, c.2.emitted)
    discardAppends c.1 c.2.stepPos c.2.stepRows
      (setCtx t c.1 { c.2 with tail := c.2.stepPos, stepRows := 0, hist := h.1, emitted := h.2, before := none })) s

theorem appendsUndone_kept (step : Nat) (s : State) : keptBut appendParts s (appendsUndone step s) :=
  foldl_kept _ _ fun _ _ => (keptBut_trans (setCtx_kept _ _ _) (discardAppends_kept _ _ _ _)).mono (by decide)

/-! ### The step is discarded (R189, R347) -/

/-- The step's holds, portions and appends are gone. -/
def stepCleared (step : Nat) (s : State) : State := appendsUndone step (releaseStepHolds step (portionsDropped step (holdsDropped step s)))

theorem discardStep_eq (step : Nat) (s : State) : discardStep step s =
    if getB (stepCleared step s) Reg.CTX_CAPTURE_CTL_ARMED && captureStep (stepCleared step s) == step
    then captureEnds 0x20 (stepCleared step s) else stepCleared step s := rfl

/-- What discarding a step changes. -/
def discardParts : List Part := heldParts ++ [.portion, .suspended, .finals, .inbox, .ctl, .experts, .extents, .ctxs, .pages]

theorem discardStep_spec (step : Nat) (s : State) : keptBut discardParts s (discardStep step s) ∧
    (discardStep step s).ctl = { s.ctl with dead := listAdd s.ctl.dead step } := by
  have hheld := holdsDropped_kept step s
  have hportions := portionsDropped_kept step (holdsDropped step s)
  have hrest : keptBut ([.experts, .extents] ++ appendParts) (portionsDropped step (holdsDropped step s)) (stepCleared step s) :=
    keptBut_trans (releaseStepHolds_kept step _) (appendsUndone_kept step _)
  have hcapture : keptBut [.flds] (stepCleared step s) (discardStep step s) := by
    rw [discardStep_eq]
    exact keptBut_ite ((keptBut_trans (setB_kept _ _ _) (keptBut_setF _ _ _)).mono (by decide)) (keptBut_refl _ _)
  refine ⟨(keptBut_trans (keptBut_trans (keptBut_trans hheld hportions) hrest) hcapture).mono (by decide), ?_⟩
  have hdead : (portionsDropped step (holdsDropped step s)).ctl =
      { (holdsDropped step s).ctl with dead := listAdd (holdsDropped step s).ctl.dead step } := rfl
  rw [hheld .ctl (by decide)] at hdead
  exact (hcapture .ctl (by decide)).trans ((hrest .ctl (by decide)).trans hdead)

/-! ### The step's requests (R244, R245) -/

theorem modCtx_kept (s : State) (id : Nat) (f : Ctx → Ctx) : keptBut [.ctxs] s (modCtx s id f) := by
  unfold modCtx
  split
  · exact setCtx_kept s _ _
  · exact keptBut_refl _ s

theorem ctxBack_kept (id : Nat) (s : State) : keptBut [.ctxs, .flds] s (ctxBack id s) := by
  unfold ctxBack
  split
  · exact keptBut_refl _ s
  · refine keptBut_ite ((modCtx_kept s id _).mono (by decide)) (keptBut_ite ?_ ((setCtx_kept s id _).mono (by decide)))
    exact keptBut_trans (setCtx_kept s id _) (countCtxs_touches _).parts

/-- Requests of a step are over: their contexts have moved and ENTRY records have fallen due, and nothing else has changed. -/
structure RequestsOver (s t : State) : Prop where
  parts : keptBut [.ctxs, .flds, .ctl] s t
  ctl : ∃ due, t.ctl = { s.ctl with due := due }

theorem RequestsOver.trans {s t u : State} (h : RequestsOver s t) (g : RequestsOver t u) : RequestsOver s u := by
  obtain ⟨d, hd⟩ := h.ctl
  obtain ⟨e, he⟩ := g.ctl
  exact ⟨(keptBut_trans h.parts g.parts).mono (by decide), e, by rw [he, hd]⟩

theorem RequestsOver.follow {s t u : State} (h : RequestsOver s t) (g : keptBut [.ctxs, .flds] t u) : RequestsOver s u := by
  obtain ⟨due, hdue⟩ := h.ctl
  exact ⟨(keptBut_trans h.parts g).mono (by decide), due, (g .ctl (by decide)).trans hdue⟩

theorem reqDies_over (f : Flight) (status : Nat) (r : ReqRec) (s : State) : RequestsOver s (reqDies f status r s) := by
  unfold reqDies
  split
  · exact ⟨keptBut_refl _ s, s.ctl.due, rfl⟩
  · have howes (due : List DueEntry) (c : Ctx) : RequestsOver s (setCtx { s with ctl.due := s.ctl.due ++ due } r.ctx c) :=
      .follow ⟨(ctl_kept s _).mono (by decide), _, rfl⟩ ((setCtx_kept _ _ _).mono (by decide))
    dsimp only
    split
    · exact howes _ _
    · exact (howes _ _).follow (ctxBack_kept _ _)

theorem foldl_reqDies_over (f : Flight) (status : Nat) (rs : List ReqRec) (s : State) :
    RequestsOver s (rs.foldl (fun t r => reqDies f status r t) s) := by
  induction rs generalizing s with
  | nil => exact ⟨keptBut_refl _ s, s.ctl.due, rfl⟩
  | cons r rs ih => exact (reqDies_over f status r s).trans (ih _)

/-! ### The step is ended (R244, R324, R342) -/

/-- What ending a step at the entry module changes. -/
def endParts : List Part := discardParts ++ ringParts

/-- Serving control holds the step's flight no more, knows the step as dead, and may owe ENTRY records for its requests. -/
structure StepEnded (step : Nat) (s t : State) : Prop where
  parts : keptBut endParts s t
  ctl : ∃ due, t.ctl = { s.ctl with
    flights := s.ctl.flights.filter (fun f => f.hdr.step != step), dead := listAdd s.ctl.dead step, due := due }

theorem StepEnded.follow {step : Nat} {s t u : State} {l : List Part} (h : StepEnded step s t) (g : keptBut l t u)
    (hl : ∀ p ∈ l, p ∈ endParts := by decide) (hc : l.contains .ctl = false := by decide) : StepEnded step s u := by
  obtain ⟨due, hdue⟩ := h.ctl
  exact ⟨(keptBut_trans h.parts g).mono fun p hp => (List.mem_append.mp hp).elim id (hl p), due, (g .ctl hc).trans hdue⟩

theorem stepDies_ended {step : Nat} {s : State} {f : Flight} (hf : (s.ctl.flights.find? fun g => g.hdr.step == step) = some f)
    (status : Nat) : StepEnded step s (stepDies step status s) := by
  unfold stepDies
  rw [hf]
  have hout : keptBut [.ctl] s { s with ctl.flights := s.ctl.flights.filter fun g => g.hdr.step != step } := ctl_kept s _
  obtain ⟨hgone, hdead⟩ := discardStep_spec step { s with ctl.flights := s.ctl.flights.filter fun g => g.hdr.step != step }
  have hover := foldl_reqDies_over f status f.hdr.reqs (discardStep step { s with ctl.flights := s.ctl.flights.filter fun g => g.hdr.step != step })
  obtain ⟨due, hdue⟩ := hover.ctl
  rw [hdead] at hdue
  have hends : StepEnded step s (f.hdr.reqs.foldl (fun t r => reqDies f status r t)
      (discardStep step { s with ctl.flights := s.ctl.flights.filter fun g => g.hdr.step != step })) :=
    ⟨(keptBut_trans (keptBut_trans hout hgone) hover.parts).mono (by decide), due, hdue⟩
  exact hends.follow (ringPut_touches journalRing _ _).parts

theorem endStepAt_ended {step : Nat} {s : State} {f : Flight} (hf : (s.ctl.flights.find? fun g => g.hdr.step == step) = some f)
    (status : Nat) : StepEnded step s (endStepAt step status s) := by
  have hstep := List.find?_some hf
  have hany : (s.ctl.flights.any fun g => g.hdr.step == step) = true := List.any_eq_true.mpr ⟨f, List.mem_of_find?_eq_some hf, hstep⟩
  have hsent : keptBut [.fab, .out] (stepDies step status s) (endStepAt step status s) := by
    rw [endStepAt, if_pos hany]
    exact foldl_kept _ _ fun u m => sendCtrl_kept 0x21 m 0 step u
  exact (stepDies_ended hf status).follow hsent

end Sys2Proof.Machine
end

