-- ==== Sys2Proof/Proofs/LimitsAndPolls.lean ====
section
/-!
SUPPORT. Proofs/LimitsAndPolls.lean: the limits of steps and of orphaned contexts, the polls of the rings, the start of an adoption, and
O39 (R244, R245, R249, R262, R272, R273).
-/
namespace Sys2Proof.Machine

/-! ### The return limit (R244) -/

section
variable {s : State} {step : Nat} {f : Flight} (hf : (s.ctl.flights.find? fun g => g.hdr.step == step) = some f) (time : Nat)
include hf

theorem exec_returnLimitExpire {x : Nat} (hl : f.left = some x) : exec (.returnLimitExpire step time) s =
    .next (if x + getF s Reg.CTX_RETURN_LIMIT_MS * 1000000 ≤ time then endStepAt step 0x20 (atTime time s) else s) := by
  refine congrArg Host.Outcome.next ?_
  rw [hf]
  dsimp only
  rw [hl]

theorem exec_returnLimitExpire_early
    (h : f.left = none ∨ ∃ x, f.left = some x ∧ time < x + getF s Reg.CTX_RETURN_LIMIT_MS * 1000000) :
    exec (.returnLimitExpire step time) s = .next s := by
  obtain hl | ⟨x, hl, hx⟩ := h
  · refine congrArg Host.Outcome.next ?_
    rw [hf]
    dsimp only
    rw [hl]
  · rw [exec_returnLimitExpire hf time hl, if_neg (Nat.not_le.mpr hx)]

theorem exec_returnLimitExpire_ends {x : Nat} (hl : f.left = some x) (hx : x + getF s Reg.CTX_RETURN_LIMIT_MS * 1000000 ≤ time) :
    ∃ t, exec (.returnLimitExpire step time) s = .next t ∧ (∀ g ∈ t.ctl.flights, g.hdr.step ≠ step) ∧ step ∈ t.ctl.dead ∧
      (∀ g ∈ s.ctl.flights, g.hdr.step ≠ step → g ∈ t.ctl.flights) ∧ t.img = s.img := by
  have hk := (atTime_touches time s).parts
  have hctl : (atTime time s).ctl = s.ctl := hk .ctl (by decide)
  have hends : StepEnded step (atTime time s) (endStepAt step 0x20 (atTime time s)) := endStepAt_ended (by rw [hctl, hf]) 0x20
  obtain ⟨due, hdue⟩ := hends.ctl
  rw [hctl] at hdue
  refine ⟨_, (exec_returnLimitExpire hf time hl).trans (congrArg _ (if_pos hx)), fun g hg => ?_, ?_, fun g hg hne => ?_,
    (hends.parts .img (by decide)).trans (hk .img (by decide))⟩
  · rw [hdue] at hg
    simpa using (List.mem_filter.mp hg).2
  · rw [hdue]
    exact mem_listAdd.mpr (.inr rfl)
  · rw [hdue]
    exact List.mem_filter.mpr ⟨hg, by simpa using hne⟩

end

/-! ### The orphan limit (R245, R272) -/

section
variable {s : State} {ctx : Fin 4096} {c : Ctx} (hc : alGet s.ctxs ctx = some c) (time : Nat)
include hc

theorem exec_orphanLimitExpire_other (h : c.st ≠ .orphaned) : exec (.orphanLimitExpire ctx time) s = .next s := by
  refine congrArg Host.Outcome.next ?_
  rw [hc]
  dsimp only
  split
  · next hst _ => exact absurd hst h
  · rfl

variable {x : Nat} (hst : c.st = .orphaned) (hx : c.orphanAt = some x)
include hst hx

theorem exec_orphanLimitExpire : exec (.orphanLimitExpire ctx time) s = .next
    (if x + getF s Reg.CTX_ORPHAN_LIMIT_S * 1000000000 ≤ time ∧ (s.ctl.adopts.all fun a => a.ctx != ctx.val) = true
      then countCtxs (ending ctx 0 5 (atTime time s)) else s) := by
  refine congrArg Host.Outcome.next ?_
  rw [hc]
  dsimp only
  rw [hst, hx]

theorem exec_orphanLimitExpire_early
    (h : time < x + getF s Reg.CTX_ORPHAN_LIMIT_S * 1000000000 ∨ ∃ a ∈ s.ctl.adopts, a.ctx = ctx.val) :
    exec (.orphanLimitExpire ctx time) s = .next s := by
  refine (exec_orphanLimitExpire hc time hst hx).trans (congrArg _ (if_neg ?_))
  rintro ⟨hdue, hnone⟩
  obtain hearly | ⟨a, ha, hac⟩ := h
  · omega
  · exact absurd hac (by simpa using List.all_eq_true.mp hnone a ha)

theorem exec_orphanLimitExpire_ends (hdue : x + getF s Reg.CTX_ORPHAN_LIMIT_S * 1000000000 ≤ time)
    (hnone : ∀ a ∈ s.ctl.adopts, a.ctx ≠ ctx.val) : ∃ t, exec (.orphanLimitExpire ctx time) s = .next t ∧
      alGet t.ctxs ctx = some { c with st := .ending, endStatus := 0, endReason := 5, releaseStep := none } ∧
      (∀ id, id ≠ ctx.val → alGet t.ctxs id = alGet s.ctxs id) ∧ keptBut [.flds, .now, .ctxs] s t := by
  have hk := (atTime_touches time s).parts
  have hctxs : (atTime time s).ctxs = s.ctxs := hk .ctxs (by decide)
  have hexec := (exec_orphanLimitExpire hc time hst hx).trans (congrArg _ (if_pos ⟨hdue, by simpa using hnone⟩))
  rw [ending_of (hctxs ▸ hc)] at hexec
  refine ⟨_, hexec, alGet_alSet_self, fun id hid => ?_, ?_⟩
  · exact (othersKept_setCtx (atTime time s) ctx _ id hid).trans (congrArg (alGet · id) hctxs)
  · exact (keptBut_trans (keptBut_trans hk (setCtx_kept _ _ _)) (countCtxs_touches _).parts).mono (by decide)

end

/-! ### The heads of the submission rings (R248, R249) -/

/-- A poll reads no counter. -/
theorem pmcKey_ringFlds (p : Port) (be : Bool) : pmcKey (fldKey (ringEnFld be) p) = false ∧ pmcKey (fldKey (consFld be) p) = false ∧
    pmcKey (fldKey (phaseFld be) p) = false ∧ pmcKey (fldKey Reg.CTX_BE_BASE_LO p) = false ∧ pmcKey (fldKey Reg.CTX_BE_BASE_HI p) = false ∧
    pmcKey (fldKey Reg.CTX_LC_BASE_LO p) = false ∧ pmcKey (fldKey Reg.CTX_LC_BASE_HI p) = false := by
  cases p <;> cases be <;> decide

theorem ringEn_of_regs {s t : State} (h : regsKept pmcKey s t) (p : Port) (be : Bool) : ringEn t p be = ringEn s p be :=
  congrArg (· == 1) (h _ _ (pmcKey_ringFlds p be).1)

/-- What a ring's head shows depends on its registers, on its port and on whether a replay session is open. -/
theorem headOf_of_regs {s t : State} (h : regsKept pmcKey s t) (hr : t.ctl.replay = s.ctl.replay) (host : HostMem) (p : Port) (be : Bool) :
    headOf host t p be = headOf host s p be := by
  obtain ⟨-, hcons, hphase, hbl, hbh, hll, hlh⟩ := pmcKey_ringFlds p be
  have hget {f : Fld} (hf : pmcKey (fldKey f p) = false) : getP t p f = getP s p f := h _ _ hf
  unfold headOf ringAt
  rw [ringEn_of_regs h, portUp_of_regs h, hr, hget hcons, hget hphase, hget hbl, hget hbh, hget hll, hget hlh]

theorem headKey_inj {p q : Port} {b c : Bool} (h : headKey q c = headKey p b) : q = p ∧ c = b := by
  revert h
  cases p <;> cases q <;> cases b <;> cases c <;> decide

/-- R270: a head as it is after a look at it: when its descriptor was first seen. -/
def headNoted (present : Bool) (now : Nat) (x : HeadSt) : HeadSt := if present then { x with seen := some (x.seen.getD now) } else x

section
variable (p : Port) (be : Bool) (s : State)

/-- R270: a descriptor that is present is noted. -/
def seePresent (present : Bool) : State := if present then seeHead p be s else s

theorem seePresent_kept (present : Bool) : keptBut [.ctl] s (seePresent p be s present) := keptBut_ite (ctl_kept s _) (keptBut_refl _ s)

theorem replay_seePresent (present : Bool) : (seePresent p be s present).ctl.replay = s.ctl.replay := by
  cases present <;> rfl

theorem headSt_seePresent_self (present : Bool) :
    headSt (seePresent p be s present) p be = headNoted present s.now (headSt s p be) := by
  cases present with
  | false => rfl
  | true => simp [seePresent, seeHead, setHead, headSt, headNoted]

/-- The descriptors present at a port's rings are noted. -/
def headsSeen (present : Bool → Bool) : State := seePresent p true (seePresent p false s (present false)) (present true)

variable {p be} in
theorem headSt_seePresent_ne {q : Port} {b : Bool} (h : ¬ (q = p ∧ b = be)) (present : Bool) :
    headSt (seePresent p be s present) q b = headSt s q b := by
  cases present with
  | false => rfl
  | true => exact congrArg (fun x : Option HeadSt => x.getD {}) (alGet_alSet_ne fun e => h (headKey_inj e))

variable (present : Bool → Bool)

theorem headsSeen_kept : keptBut [.ctl] s (headsSeen p s present) :=
  (keptBut_trans (seePresent_kept p false s _) (seePresent_kept p true _ _)).mono (by decide)

theorem replay_headsSeen : (headsSeen p s present).ctl.replay = s.ctl.replay :=
  (replay_seePresent p true _ _).trans (replay_seePresent p false s _)

/-- A head is noted by its own ring's turn alone. -/
theorem headSt_headsSeen : headSt (headsSeen p s present) p be = headNoted (present be) s.now (headSt s p be) := by
  cases be with
  | false => exact (headSt_seePresent_ne _ (by simp) _).trans (headSt_seePresent_self p false s _)
  | true =>
    have hother : headSt (seePresent p false s (present false)) p true = headSt s p true := headSt_seePresent_ne s (by simp) _
    have hnow : (seePresent p false s (present false)).now = s.now := seePresent_kept p false s _ .now (by decide)
    exact (headSt_seePresent_self p true _ _).trans (by rw [hother, hnow])

theorem headSt_headsSeen_ne {q : Port} (hq : q ≠ p) : headSt (headsSeen p s present) q be = headSt s q be :=
  (headSt_seePresent_ne _ (fun e => hq e.1) _).trans (headSt_seePresent_ne s (fun e => hq e.1) _)

end

/-! ### RING_POLL (R249) -/

/-- One port's turn of a poll: the descriptors present are noted, and a port with an enabled ring is told what was seen. -/
def pollPort (host : HostMem) (s : State) (p : Port) : State :=
  let u := headsSeen p s fun be => (headOf host s p be).isSome
  if ringEn u p false || ringEn u p true then emit u (.poll p (headOf host s p false).isSome (headOf host s p true).isSome) else u

/-- What a port's turn of a poll does. -/
structure PortPolled (host : HostMem) (p : Port) (s t : State) : Prop where
  parts : keptBut [.ctl, .out] s t
  replay : t.ctl.replay = s.ctl.replay
  seen : ∀ be, (headOf host s p be).isSome = true → ∃ y, (headSt t p be).seen = some y
  unseen : ∀ be, (headOf host s p be).isSome = false → headSt t p be = headSt s p be
  others : ∀ q be, q ≠ p → headSt t q be = headSt s q be
  told : (ringEn s p false || ringEn s p true) = true → .poll p (headOf host s p false).isSome (headOf host s p true).isSome ∈ t.out
  out : ∀ o ∈ s.out, o ∈ t.out

theorem pollPort_polled (host : HostMem) (s : State) (p : Port) : PortPolled host p s (pollPort host s p) := by
  unfold pollPort
  extract_lets u
  have hk : keptBut [.ctl] s u := headsSeen_kept p s _
  have hreplay : u.ctl.replay = s.ctl.replay := replay_headsSeen p s _
  have hst (be : Bool) : headSt u p be = headNoted (headOf host s p be).isSome s.now (headSt s p be) := headSt_headsSeen p be s _
  have hseen (be : Bool) (h : (headOf host s p be).isSome = true) : ∃ y, (headSt u p be).seen = some y :=
    ⟨(headSt s p be).seen.getD s.now, by rw [hst, h]; rfl⟩
  have hunseen (be : Bool) (h : (headOf host s p be).isSome = false) : headSt u p be = headSt s p be := by
    rw [hst, h]
    rfl
  have hothers (q : Port) (be : Bool) (hq : q ≠ p) : headSt u q be = headSt s q be := headSt_headsSeen_ne p be s _ hq
  have hout : u.out = s.out := hk .out (by decide)
  have hen (be : Bool) : ringEn u p be = ringEn s p be := ringEn_of_regs (regsKept_of_flds _ (hk .flds (by decide))) p be
  rw [hen, hen]
  split
  · exact ⟨keptBut_trans hk (emit_kept u _), hreplay, hseen, hunseen, hothers, fun _ => List.mem_cons_self,
      fun o ho => List.mem_cons_of_mem _ (hout ▸ ho)⟩
  · next hoff => exact ⟨hk.mono (by decide), hreplay, hseen, hunseen, hothers, fun hon => absurd hon hoff, fun o ho => hout ▸ ho⟩

theorem PortPolled.headOf_eq {host : HostMem} {p : Port} {s t : State} (h : PortPolled host p s t) (q : Port) (be : Bool) :
    headOf host t q be = headOf host s q be :=
  headOf_of_regs (regsKept_of_flds _ (h.parts .flds (by decide))) h.replay host q be

section
variable {s : State} (host : HostMem) (time : Nat)

theorem exec_ringPoll : exec (.ringPoll host time) s = .next
    (if isEntry s && stageAlive s && s.portion.isNone then [Port.a, .b].foldl (pollPort host) (atTime time s) else s) := rfl

theorem exec_ringPoll_idle (h : isEntry s = false ∨ s.portion ≠ none) : exec (.ringPoll host time) s = .next s := by
  refine (exec_ringPoll host time).trans (congrArg _ (if_neg ?_))
  obtain h | h := h <;> simp [h]

theorem exec_ringPoll_polls (he : isEntry s = true) (ha : stageAlive s = true) (hp : s.portion = none) :
    ∃ t, exec (.ringPoll host time) s = .next t ∧
      (∀ p be, (headOf host s p be).isSome = true → ∃ y, (headSt t p be).seen = some y) ∧
      (∀ p be, (headOf host s p be).isSome = false → headSt t p be = headSt s p be) ∧
      (∀ p, (ringEn s p false || ringEn s p true) = true → .poll p (headOf host s p false).isSome (headOf host s p true).isSome ∈ t.out) ∧
      keptBut [.flds, .now, .ctl, .out] s t := by
  have htime := atTime_touches time s
  have hctl : (atTime time s).ctl = s.ctl := htime.parts .ctl (by decide)
  have hpa := pollPort_polled host (atTime time s) .a
  have hpb := pollPort_polled host (pollPort host (atTime time s) .a) .b
  have hhead (p : Port) (be : Bool) : headOf host (atTime time s) p be = headOf host s p be :=
    headOf_of_regs htime.regs (congrArg CtlSt.replay hctl) host p be
  have hheadA (p : Port) (be : Bool) := (hpa.headOf_eq p be).trans (hhead p be)
  have hst (p : Port) (be : Bool) : headSt (atTime time s) p be = headSt s p be := by rw [headSt, headSt, hctl]
  have hen (p : Port) (be : Bool) : ringEn (atTime time s) p be = ringEn s p be := ringEn_of_regs htime.regs p be
  have henA (p : Port) (be : Bool) : ringEn (pollPort host (atTime time s) .a) p be = ringEn s p be :=
    (ringEn_of_regs (regsKept_of_flds _ (hpa.parts .flds (by decide))) p be).trans (hen p be)
  have hexec : exec (.ringPoll host time) s = .next (pollPort host (pollPort host (atTime time s) .a) .b) :=
    (exec_ringPoll host time).trans (congrArg _ (if_pos (by simp [he, ha, hp])))
  refine ⟨_, hexec, fun p be h => ?_, fun p be h => ?_, fun p h => ?_,
    (keptBut_trans (keptBut_trans htime.parts hpa.parts) hpb.parts).mono (by decide)⟩
  · cases p with
    | a => rw [hpb.others .a be (by decide)]; exact hpa.seen be (by rw [hhead, h])
    | b => exact hpb.seen be (by rw [hheadA, h])
  · cases p with
    | a => rw [hpb.others .a be (by decide), hpa.unseen be (by rw [hhead, h]), hst]
    | b => rw [hpb.unseen be (by rw [hheadA, h]), hpa.others .b be (by decide), hst]
  · cases p with
    | a =>
      have htold := hpa.told (by rw [hen, hen, h])
      rw [hhead, hhead] at htold
      exact hpb.out _ htold
    | b =>
      have htold := hpb.told (by rw [henA, henA, h])
      rwa [hheadA, hheadA] at htold

/-! ### LC_POLL (R249, R262) -/

/-- An LC descriptor is noted as found. -/
def lcFound (found : Bool) (s : State) : State := if found then { s with ctl.lcReady := true } else s

theorem lcFound_spec (found : Bool) (u : State) :
    (lcFound found u).ctl.lcReady = (u.ctl.lcReady || found) ∧ keptBut [.ctl] u (lcFound found u) := by
  cases found with
  | false => exact ⟨(Bool.or_false _).symm, keptBut_refl _ u⟩
  | true => exact ⟨(Bool.or_true _).symm, ctl_kept u _⟩

theorem exec_lcPoll : exec (.lcPoll host time) s = .next
    (if isEntry s && stageAlive s && getB s Reg.CTX_POLICY_PREEMPT_EN && s.portion.any (fun p => p.hdr.be)
      then lcFound ((headOf host (atTime time s) .a false).isSome || (headOf host (atTime time s) .b false).isSome) (atTime time s) else s) := rfl

theorem exec_lcPoll_idle (h : isEntry s = false ∨ getB s Reg.CTX_POLICY_PREEMPT_EN = false ∨ s.portion = none) :
    exec (.lcPoll host time) s = .next s := by
  refine (exec_lcPoll host time).trans (congrArg _ (if_neg ?_))
  obtain h | h | h := h <;> simp [h]

theorem exec_lcPoll_polls (he : isEntry s = true) (ha : stageAlive s = true) (hpre : getB s Reg.CTX_POLICY_PREEMPT_EN = true)
    {q : Portion} (hp : s.portion = some q) (hbe : q.hdr.be = true) : ∃ t, exec (.lcPoll host time) s = .next t ∧
      t.ctl.lcReady = (s.ctl.lcReady || (headOf host s .a false).isSome || (headOf host s .b false).isSome) ∧
      keptBut [.flds, .now, .ctl] s t := by
  have htime := atTime_touches time s
  have hctl : (atTime time s).ctl = s.ctl := htime.parts .ctl (by decide)
  have hhead (p : Port) : headOf host (atTime time s) p false = headOf host s p false :=
    headOf_of_regs htime.regs (congrArg CtlSt.replay hctl) host p false
  have hpolls : (isEntry s && stageAlive s && getB s Reg.CTX_POLICY_PREEMPT_EN && s.portion.any fun p => p.hdr.be) = true := by
    simp [he, ha, hpre, hp, hbe]
  have hexec := (exec_lcPoll host time).trans (congrArg _ (if_pos hpolls))
  rw [hhead, hhead] at hexec
  obtain ⟨hready, hkept⟩ := lcFound_spec ((headOf host s .a false).isSome || (headOf host s .b false).isSome) (atTime time s)
  refine ⟨_, hexec, ?_, (keptBut_trans htime.parts hkept).mono (by decide)⟩
  rw [hready, hctl, Bool.or_assoc]

end

/-! ### ADOPT_GO (R272) -/

section
variable {s : State} (p : Port) (host : HostMem) (authSeq : Option Nat)

/-- The host address of the adopt record. -/
def adoptAddr (s : State) (p : Port) : Nat := getP s p Reg.CTX_ADOPT_ADDR_LO * 64 + getP s p Reg.CTX_ADOPT_ADDR_HI * 2 ^ 32

/-- The adoption that a record asks for. -/
def adoptionOf (bs : List Nat) : Adoption := ⟨p, fieldAt bs 0 2 % 4096, fieldAt bs 2 2, fieldAt bs 4 8, fieldAt bs 12 4, authSeq⟩

variable (ha : stageAlive s = true)
include ha

theorem exec_adoptGo_busy (hb : getP s p Reg.CTX_ADOPT_CMD_BUSY = 1) : exec (.adoptGo p host authSeq) s = .next s :=
  congrArg Host.Outcome.next ((viaPf0_alive ha p _).trans (if_pos hb))

variable (hb : getP s p Reg.CTX_ADOPT_CMD_BUSY ≠ 1)
include hb

theorem exec_adoptGo_unread (hn : hostRead host p (adoptAddr s p) 64 = none) : ∃ t, exec (.adoptGo p host authSeq) s = .next t ∧
    getP t p Reg.CTX_ADOPT_CMD_STATUS = 0x23 ∧ keptBut irqParts s t := by
  have hexec : exec (.adoptGo p host authSeq) s = .next (irq p 2 (setP s p Reg.CTX_ADOPT_CMD_STATUS 0x23)) := by
    refine congrArg Host.Outcome.next ((viaPf0_alive ha p _).trans ((if_neg hb).trans ?_))
    rw [adoptAddr] at hn
    rw [hn]
  refine ⟨_, hexec, (regsKept_irq p (by decide) _ _ _ ?_).trans (getP_setP_self _ _ _ _),
    (keptBut_trans (setP_kept _ _ _ _) (irq_kept _ _ _)).mono (by decide)⟩
  cases p <;> decide

theorem exec_adoptGo_waits {bs : List Nat} (hr : hostRead host p (adoptAddr s p) 64 = some bs) :
    ∃ t, exec (.adoptGo p host authSeq) s = .next t ∧ getP t p Reg.CTX_ADOPT_CMD_BUSY = 1 ∧
      t.ctl = { s.ctl with adopts := s.ctl.adopts ++ [adoptionOf p authSeq bs] } ∧
      regsKept (fun k => k == fldKey Reg.CTX_ADOPT_CMD_BUSY p) s t ∧ keptBut [.flds, .ctl] s t := by
  have hexec : exec (.adoptGo p host authSeq) s =
      .next (setP { s with ctl.adopts := s.ctl.adopts ++ [adoptionOf p authSeq bs] } p Reg.CTX_ADOPT_CMD_BUSY 1) := by
    refine congrArg Host.Outcome.next ((viaPf0_alive ha p _).trans ((if_neg hb).trans ?_))
    rw [adoptAddr] at hr
    rw [hr]
    rfl
  exact ⟨_, hexec, getP_setP_self _ _ _ _, rfl, fun k d hk => flds_setP_ne (by simpa using hk),
    (keptBut_trans (ctl_kept s _) (setP_kept _ _ _ _)).mono (by decide)⟩

end

/-! ### The obligation -/

/-- Settles O39: each command by what it finds. Past its limit a step ends as `StepEnded` says and an orphan through `ending`; a poll
notes port by port what the heads show; GO of an adoption answers by the read of its record. -/
theorem limitsPollsAndAdoption : Obligations.LimitsPollsAndAdoption := by
  unfold Obligations.LimitsPollsAndAdoption
  refine ⟨fun s step time f hf => ⟨fun x => exec_returnLimitExpire_ends hf time, exec_returnLimitExpire_early hf time⟩,
    fun s ctx time x c hc => ⟨exec_orphanLimitExpire_other hc time, fun hst hx =>
      ⟨exec_orphanLimitExpire_early hc time hst hx, exec_orphanLimitExpire_ends hc time hst hx⟩⟩,
    fun s host time => ⟨exec_ringPoll_polls host time, exec_ringPoll_idle host time,
      fun q he ha hpre hp => exec_lcPoll_polls host time he ha hpre hp, exec_lcPoll_idle host time⟩,
    fun s p host authSeq ha => ⟨exec_adoptGo_busy p host authSeq ha, fun hb =>
      ⟨exec_adoptGo_unread p host authSeq ha hb, fun bs => exec_adoptGo_waits p host authSeq ha hb⟩⟩⟩

end Sys2Proof.Machine
end

