-- ==== Sys2Proof/Proofs/MeshLastLink.lean ====
section
/-!
SUPPORT. Proofs/MeshLastLink.lean: a link whose failure takes a router's last working link, so that the router fails with it (R282,
R283, R289), against O47.
-/
namespace Sys2Proof.Machine

/-- A link has one record, which both of its ends read (R274). -/
theorem linkSt_far {x port y q : Nat} (h : linkFar x port = some (y, q)) (hback : linkFar y q = some (x, port)) (s : State) :
    linkSt s y q = linkSt s x port := by
  simp only [linkSt, linkKey, h, hback, Nat.min_comm]

/-! ### The refusal that fails a link (R282, R283) -/

/-- The refusals in a row of a flit that is refused now: of the same flit as the last, or of another. -/
def refusals (x port : Nat) (same : Bool) (s : State) : Nat := if same then (linkSt s x port).refused + 1 else 1

/-- The refusal is noted and a replay asked for. -/
def flitRefused (x port : Nat) (same : Bool) (s : State) : State :=
  emit (setLink x port { linkSt s x port with refused := refusals x port same s } s) (.replay x port)

theorem exec_flitCrcFail_fails {s : State} {x : Fin 208} {port : Fin 6} {same : Bool} {y : Nat × Nat} (ha : stageAlive s = true)
    (hfar : linkFar x port = some y) (hworks : (linkSt s x port).failed = false) (hn : 16 ≤ refusals x port same s) :
    exec (.flitCrcFail x port same) s = .next (linkFails x port (flitRefused x port same s)) := by
  have hon : ¬(!stageAlive s || (linkFar x port).isNone || (linkSt s x port).failed) = true := by simp [ha, hfar, hworks]
  exact congrArg Host.Outcome.next ((if_neg hon).trans (if_pos hn))

/-! ### A corner router with one working link -/

/-- A module after its self-test. Router 0, a corner of the mesh, has its links at ports 2 and 3 only: that at port 3 has failed, and that
at port 2, which leads to port 4 of router 1, has refused one flit 15 times. -/
def cornerSt : State :=
  { State.reset with
    boot.stage := .tested
    mesh.links := [(linkKey 0 2, { refused := 15 }), (linkKey 0 3, { failed := true })] }

theorem linkFar_corner : linkFar 1 4 = some (0, 2) ∧ linkFar 0 2 = some (1, 4) := by decide

theorem linkSt_cornerSt : linkSt cornerSt 1 4 = { refused := 15 } := by decide

/-- Router 0 has lost every link, and the module's last fault is that a router has failed (R289, R296). -/
theorem lastFault_cornerSt : getF (linkFails 1 4 (flitRefused 1 4 true cornerSt)) Reg.NOC_LAST_FAULT_CAUSE = 2 := by
  decide +kernel

/-- Refutes O47: the statement asks for a working link at the far router but not for another than the failing one, which itself still
works when its sixteenth refusal comes. Where it is the far router's last, that router fails with it (R289), and NOC_LAST_FAULT
names the router and its cause instead of the link's. -/
theorem not_meshLinksAndRoutes : ¬ Obligations.MeshLinksAndRoutes := by
  intro hall
  obtain ⟨hlinks, -⟩ := hall
  obtain ⟨hfar, hback⟩ := linkFar_corner
  have hworks : (linkSt cornerSt 1 4).failed = false := congrArg LinkSt.failed linkSt_cornerSt
  have hsixteen : 16 ≤ refusals 1 4 true cornerSt := by simp [refusals, linkSt_cornerSt]
  have hnear : ∃ p ∈ linkPorts 1, p ≠ 4 ∧ (linkSt cornerSt 1 p).failed = false := by decide
  have hsame : ∃ p ∈ linkPorts 0, (linkSt cornerSt 0 p).failed = false :=
    ⟨2, by decide, (congrArg LinkSt.failed (linkSt_far hfar hback cornerSt)).trans hworks⟩
  obtain ⟨-, -, hfails⟩ := hlinks cornerSt 1 4 true 0 (0, 2) rfl hfar hworks
  obtain ⟨t, ht, -, -, -, -, hcause, -⟩ := hfails (.flitCrcFail 1 4 true) (.inl ⟨rfl, hsixteen⟩) hnear hsame
  have hend : t = linkFails 1 4 (flitRefused 1 4 true cornerSt) :=
    Host.Outcome.next.inj (ht.symm.trans (exec_flitCrcFail_fails rfl hfar hworks hsixteen))
  rw [hend, lastFault_cornerSt] at hcause
  cases hcause

end Sys2Proof.Machine
end

