-- ==== Sys2Proof/Proofs/StepOfTheQueue.lean ====
section
/-!
SUPPORT. Proofs/StepOfTheQueue.lean: a step and the queue of waiting commands (95_what_each_step_holds.md), against O1 and O4.
-/
namespace Sys2Proof.Machine

set_option Elab.async false

theorem step_cons (s : State) (c : Instr) (rest : List Instr) :
    step { s with pending := c :: rest } = exec c { s with pending := rest } := rfl

theorem step_idle {s : State} (h : s.pending = []) : step s = .next s := by
  simp only [step, h]

/-- Settles O1: the two shapes of the queue are the two branches of a step. -/
theorem stepRunsTheFrontCommand : Obligations.StepRunsTheFrontCommand := ⟨step_cons, fun _ => step_idle⟩

/-- Every command is built of operations that leave the queue as it is. -/
theorem exec_keeps_pending {c : Instr} {s t : State} (e : exec c s = .next t) : t.pending = s.pending :=
  (KeepsNext.exec .rfl t e).queue

theorem step_drops_front {s t : State} (e : step s = .next t) : t.pending = s.pending.tail := by
  cases hp : s.pending with
  | nil =>
    obtain rfl := Host.Outcome.next.inj ((step_idle hp).symm.trans e)
    exact hp
  | cons c rest =>
    have hs : s = { s with pending := c :: rest } := by rw [← hp]
    rw [hs, step_cons] at e
    exact exec_keeps_pending e

/-- Settles O4: a command keeps the queue, and a step hands it the queue without its front. -/
theorem commandsLeaveTheQueue : Obligations.CommandsLeaveTheQueue :=
  ⟨fun _ _ _ => exec_keeps_pending, fun _ _ => step_drops_front⟩

end Sys2Proof.Machine
end

