-- ==== Sys2Proof/Proofs/LeaseEndRecords.lean ====
section
/-!
SUPPORT. Proofs/LeaseEndRecords.lean: an END record of a lease that an ownership command is ending (R443, R445, R450), against O58.
-/
namespace Sys2Proof.Machine

set_option Elab.async false

/-- A module with an Owner whose DEBUG_UNLOCK waits for the one lease, which ends at step 0. -/
def endingSt : State :=
  { State.reset with
    boot.stage := .ready
    sec.ks.owner := [1]
    sec.ks.leases := [{ st := 1, lease := 1, endStep := some 0 }]
    sec.sessions := [⟨.owner, [1]⟩]
    sec.authOp := some .debug }

/-- The Owner's END record for that lease, at step 5. -/
def lateEnd : LeaseRecord :=
  { lease := 1, ide := false, quota := 0, effective := 5, serial := 0, seq := 1, tenantPub := [], imagePub := [], reservedOk := true,
    byOwner := true, byTenant := false }

/-- The record leaves the lease its earlier end. -/
theorem exec_lateEnd : ∃ t, exec (.leaseEndRecord 0 lateEnd) endingSt = .next t ∧ t.sec.ks.leases.map Lease.endStep = [some 0] :=
  ⟨_, rfl, by decide +kernel⟩

/-- Refutes O58: an END record sets the lease's end step to its EFFECTIVE_STEP only where no ownership command waits. While one does,
every lease already has an end (R443, R453), and a later EFFECTIVE_STEP does not put it off. -/
theorem not_leasesAndBinding : ¬ Obligations.LeasesAndBinding := by
  intro hall
  obtain ⟨hrecords, -⟩ := hall
  obtain ⟨-, -, -, -, -, hheld⟩ := hrecords endingSt 0 lateEnd rfl (by decide +kernel)
  obtain ⟨-, -, -, hend⟩ := hheld 0 { st := 1, lease := 1, endStep := some 0 } (by decide +kernel) (by decide +kernel)
  obtain ⟨t, ht, hleases, -⟩ := hend (.inl ⟨rfl, List.cons_ne_nil _ _⟩)
    ⟨by decide, by decide, rfl, .inl rfl, fun x hx => by cases hx⟩ (.inl rfl)
  obtain ⟨u, hu, hkept⟩ := exec_lateEnd
  obtain rfl := Host.Outcome.next.inj (hu.symm.trans ht)
  rw [hleases] at hkept
  cases hkept

end Sys2Proof.Machine
end

