-- ==== Sys2Proof/Proofs/ModuleParts.lean ====
section
/-!
SUPPORT. Proofs/ModuleParts.lean: the parts that clocks, power, power-up and counters keep beside the registers, written on their own.
-/
namespace Sys2Proof.Machine

set_option Elab.async false

theorem clk_kept (s : State) (x : ClkSt) : keptBut [.clk] s { s with clk := x } := fun p hp => by
  cases p with
  | clk => exact absurd hp (by decide)
  | _ => rfl

theorem pwr_kept (s : State) (x : PwrSt) : keptBut [.pwr] s { s with pwr := x } := fun p hp => by
  cases p with
  | pwr => exact absurd hp (by decide)
  | _ => rfl

theorem boot_kept (s : State) (x : BootSt) : keptBut [.boot] s { s with boot := x } := fun p hp => by
  cases p with
  | boot => exact absurd hp (by decide)
  | _ => rfl

theorem snp_kept (s : State) (x : SnapSt) : keptBut [.snp] s { s with snp := x } := fun p hp => by
  cases p with
  | snp => exact absurd hp (by decide)
  | _ => rfl

theorem fresh_kept (s : State) (n : Nat) : keptBut [.fresh] s { s with fresh := n } := fun p hp => by
  cases p with
  | fresh => exact absurd hp (by decide)
  | _ => rfl

/-- A field that the list names is one of its own keys. -/
theorem oneOf_mem {fs : List Fld} {f : Fld} (h : f ∈ fs) : oneOf fs (fldKey f .a) = true := by
  simpa [oneOf] using ⟨f, h, rfl⟩

theorem oneOf_singleton_false {f g : Fld} (h : fldKey g .a ≠ fldKey f .a) : oneOf [f] (fldKey g .a) = false := by
  simpa [oneOf] using h

theorem oneOf_append (fs gs : List Fld) (k : Nat) : oneOf (fs ++ gs) k = (oneOf fs k || oneOf gs k) := by
  simp only [oneOf, List.map_append, List.contains_eq_mem, List.mem_append, Bool.decide_or]

theorem getB_atTime {f : Fld} (hf : pmcKey (fldKey f .a) = false) (time : Nat) (s : State) : getB (atTime time s) f = getB s f := by
  rw [getB, getB, getF_atTime hf]

namespace Touches
variable {l : List Part} {K : Nat → Bool} {s t : State}

/-- A register whose key follows from an operand: that it may change is shown as a membership. -/
protected theorem setOne {f : Fld} {v : Nat} {fs : List Fld} (h : Touches l (oneOf fs) s t) (hf : f ∈ fs) (hl : .flds ∈ l := by decide) :
    Touches l (oneOf fs) s (setF t f v) := h.setF (oneOf_mem hf) hl

protected theorem getB (h : Touches l K s t) {f : Fld} (hf : K (fldKey f .a) = false) : getB t f = getB s f := by
  rw [Machine.getB, Machine.getB, h.getF hf]

protected theorem now (h : Touches l K s t) {time : Nat} (hK : ∀ k, K k = false → pmcKey k = false)
    (hl : ∀ p ∈ [Part.flds, .now], p ∈ l := by decide) : Touches l K s (atTime time t) := h.step (atTime_touches time t) hl hK

end Touches

end Sys2Proof.Machine
end

