-- ==== Sys2Proof/Proofs/ClockSteps.lean ====
section
/-!
SUPPORT. Proofs/ClockSteps.lean: the divider steps of the ramping domains, each decided by what its own domain reads, and the views
that follow from their codes (R372, R373, R375, R376, R390, R394).
-/
namespace Sys2Proof.Machine

set_option Elab.async false

/-! ### The fields of the domains -/

theorem codeFld_len : ∀ d ∈ rampDomains, (codeFld d).len = 3 := by decide

theorem codeFld_pairwise : ∀ d ∈ rampDomains, ∀ e ∈ rampDomains, e ≠ d → fldKey (codeFld d) .a ≠ fldKey (codeFld e) .a := by decide

theorem rampDomains_nodup : rampDomains.Nodup := by decide

/-- The registers of the codes in force. -/
def codeKey (k : Nat) : Bool := oneOf (rampDomains.map codeFld) k

/-- The registers that hold what decides a domain's step, its own code apart, are no codes and no counters. -/
theorem codeKey_goals : (∀ d ∈ rampDomains, 32 ≤ d → codeKey (fldKey (targetFld d) .a) = false ∧ pmcKey (fldKey (targetFld d) .a) = false) ∧
    (∀ j, j < 6 → codeKey (fldKey (Reg.ID_FENCED_CORES j) .a) = false ∧ pmcKey (fldKey (Reg.ID_FENCED_CORES j) .a) = false) ∧
    codeKey (fldKey Reg.PWR_OP_OP .a) = false ∧ codeKey (fldKey Reg.CLK_RAMP_DWELL .a) = false := by decide

theorem pmcKey_codeFld : ∀ d ∈ rampDomains, pmcKey (fldKey (codeFld d) .a) = false := by decide

/-! ### What decides a domain's step (R375, R390, R394) -/

/-- Nothing has changed that the next step of domain `d` is decided by, but for the rails. -/
structure SameDomain (d : Nat) (s t : State) : Prop where
  touched : Touches [.flds, .clk, .now] (fun k => pmcKey k || codeKey k) s t
  code : getF t (codeFld d) = getF s (codeFld d)
  switch : t.clk.sw = s.clk.sw
  time : alGet t.clk.stepAt d = alGet s.clk.stepAt d

namespace SameDomain
variable {d : Nat} {s t u : State}

protected theorem refl (d : Nat) (s : State) : SameDomain d s s := ⟨.refl _, rfl, rfl, rfl⟩

protected theorem trans (h : SameDomain d s t) (g : SameDomain d t u) : SameDomain d s u :=
  ⟨h.touched.trans g.touched, g.code.trans h.code, g.switch.trans h.switch, g.time.trans h.time⟩

protected theorem foldl {f : State → Nat → State} {es : List Nat} (h : SameDomain d s t) (hf : ∀ e ∈ es, ∀ u, SameDomain d u (f u e)) :
    SameDomain d s (es.foldl f t) := by
  induction es generalizing t with
  | nil => exact h
  | cons e es ih => exact ih (h.trans (hf e List.mem_cons_self t)) fun x hx => hf x (List.mem_cons_of_mem _ hx)

variable (h : SameDomain d s t)
include h

theorem pwr : t.pwr = s.pwr := h.touched.parts .pwr (by decide)
theorem boot : t.boot = s.boot := h.touched.parts .boot (by decide)

theorem fenced {c : Nat} (hc : c < 192) : coreFenced t c = coreFenced s c := by
  obtain ⟨-, hfenced, -⟩ := codeKey_goals
  refine h.touched.coreFenced hc fun j hj => ?_
  simp only [(hfenced j hj).1, (hfenced j hj).2, Bool.or_false]

theorem aclkRuns (v : Nat) : aclkRuns t v = aclkRuns s v := by
  have hcore : ∀ c ∈ domainCores v, coreFenced t c = coreFenced s c := fun c hc => h.fenced (List.mem_range.mp (List.mem_filter.mp hc).1)
  rw [Bool.eq_iff_iff, Machine.aclkRuns, Machine.aclkRuns, List.any_eq_true, List.any_eq_true]
  exact exists_congr fun c => and_congr_right fun hc => by rw [hcore c hc]

theorem tripped : tripped t = tripped s := by simp only [Machine.tripped, h.boot]

theorem goalCode (hd : d ∈ rampDomains) : goalCode t d = goalCode s d := by
  obtain ⟨htarget, -, hop, -⟩ := codeKey_goals
  have hopEq : getF t Reg.PWR_OP_OP = getF s Reg.PWR_OP_OP := h.touched.getF (by rw [hop]; rfl)
  simp only [Machine.goalCode, h.code, h.pwr, h.switch, hopEq]
  by_cases h32 : d < 32
  · simp only [h32, if_true]
  · obtain ⟨hcode, hpmc⟩ := htarget d hd (Nat.le_of_not_lt h32)
    have htargetEq : getF t (targetFld d) = getF s (targetFld d) := h.touched.getF (by simp only [hcode, hpmc, Bool.or_false])
    rw [htargetEq]

theorem dwellPassed (time : Nat) : dwellPassed t d time = dwellPassed s d time := by
  obtain ⟨-, -, -, hdwell⟩ := codeKey_goals
  have hdwellEq : getF t Reg.CLK_RAMP_DWELL = getF s Reg.CLK_RAMP_DWELL := h.touched.getF (by rw [hdwell]; rfl)
  rw [Machine.dwellPassed, Machine.dwellPassed, dwellNs, dwellNs, h.pwr, h.time, hdwellEq]

end SameDomain

theorem sameDomain_atTime {d : Nat} (hd : d ∈ rampDomains) (time : Nat) (s : State) : SameDomain d s (atTime time s) where
  touched := (Touches.refl s).now fun k e => (Bool.or_eq_false_iff.mp e).1
  code := getF_atTime (pmcKey_codeFld d hd) time s
  switch := congrArg ClkSt.sw ((atTime_touches time s).parts .clk rfl)
  time := congrArg (fun x => alGet x.stepAt d) ((atTime_touches time s).parts .clk rfl)

/-! ### One domain's step (R375, R390) -/

section
variable {d e : Nat} (hd : d ∈ rampDomains) (he : e ∈ rampDomains) (s : State) (time : Nat)

/-- The clocks' own records decide a domain's step by its last step and the switch only. -/
theorem sameDomain_clk (d : Nat) (s : State) {x : ClkSt} (hsw : x.sw = s.clk.sw) (hat : alGet x.stepAt d = alGet s.clk.stepAt d) :
    SameDomain d s { s with clk := x } := ⟨.keep (.refl s) (clk_kept s x), rfl, hsw, hat⟩

theorem setCode_touches (c : Nat) : Touches [.flds, .clk] (oneOf [codeFld e]) s (setCode e c time s) :=
  .keep (.setOne (.refl s) List.mem_cons_self) (clk_kept _ _)

include he in
theorem codeKey_of_one {k : Nat} (h : codeKey k = false) : oneOf [codeFld e] k = false :=
  oneOf_mono (List.forall_mem_singleton.mpr (List.mem_map_of_mem he)) h

include hd he in
theorem sameDomain_setCode (hne : d ≠ e) (c : Nat) : SameDomain d s (setCode e c time s) where
  touched := (setCode_touches s time c).mono (by decide) fun k h => codeKey_of_one he (Bool.or_eq_false_iff.mp h).2
  code := getF_setF_ne (codeFld_pairwise d hd e he hne.symm)
  switch := rfl
  time := alGet_alSet_ne hne

include hd he in
/-- A domain's step leaves every other domain's decision alone. -/
theorem sameDomain_stepDomain (hne : d ≠ e) : SameDomain d s (stepDomain time s e) := by
  have hset := sameDomain_setCode hd he s time hne
  unfold stepDomain
  dsimp only
  split
  · exact .refl d s
  · split
    · split
      · split
        · exact hset _
        · exact .refl d s
      · exact sameDomain_clk d s rfl rfl
    · split
      · exact hset _
      · exact .refl d s

include hd in
theorem getF_setCode_self {c : Nat} (hc : c < 8) : getF (setCode d c time s) (codeFld d) = c := by
  have hself : getF (setCode d c time s) (codeFld d) = c % 2 ^ (codeFld d).len := getF_setF_self s _ _
  rw [hself, codeFld_len d hd]
  exact Nat.mod_eq_of_lt hc

/-- R372, R406: an ACLK domain without a core in service, or any after a thermal trip, is stopped. -/
def Stopped (d : Nat) (s : State) : Prop := d < 32 ∧ (!aclkRuns s d ∨ tripped s)

theorem stepDomain_still (h : getF s (codeFld d) = goalCode s d ∨ Stopped d s) : stepDomain time s d = s := if_pos h

theorem stepDomain_slower (h : getF s (codeFld d) < goalCode s d) (hr : ¬ Stopped d s) :
    stepDomain time s d = if dwellPassed s d time then setCode d (getF s (codeFld d) + 1) time s else s := by
  have hgoal : ¬ goalCode s d < getF s (codeFld d) := Nat.lt_asymm h
  have hmoves : ¬(getF s (codeFld d) = goalCode s d ∨ Stopped d s) := not_or.mpr ⟨h.ne, hr⟩
  exact (if_neg hmoves).trans ((if_neg fun hc => hgoal hc.1).trans (by rw [if_neg hgoal]))

theorem stepDomain_faster_net (h : goalCode s d < getF s (codeFld d)) (hn : 32 ≤ d) :
    stepDomain time s d = if dwellPassed s d time then setCode d (getF s (codeFld d) - 1) time s else s := by
  have hmoves : ¬(getF s (codeFld d) = goalCode s d ∨ Stopped d s) := not_or.mpr ⟨h.ne', fun hs => Nat.not_lt.mpr hn hs.1⟩
  exact (if_neg hmoves).trans ((if_neg fun hc => Nat.not_lt.mpr hn hc.2).trans (by rw [if_pos h]))

theorem stepDomain_faster_aclk (h : goalCode s d < getF s (codeFld d)) (ha : d < 32) (hr : ¬ Stopped d s) :
    stepDomain time s d = if s.clk.vcore.getD (d / 16) 6 ≤ getF s (codeFld d) - 1 then
        if s.clk.vcoreOk.getD (d / 16) true && dwellPassed s d time then setCode d (getF s (codeFld d) - 1) time s else s
      else { s with clk.vcore := s.clk.vcore.set (d / 16) (getF s (codeFld d) - 1), clk.vcoreOk := s.clk.vcoreOk.set (d / 16) false } := by
  have hmoves : ¬(getF s (codeFld d) = goalCode s d ∨ Stopped d s) := not_or.mpr ⟨h.ne', hr⟩
  exact (if_neg hmoves).trans (if_pos ⟨h, ha⟩)

/-- A domain at its goal, stopped or in its dwell keeps its code. -/
theorem code_stepDomain_rests (h : getF s (codeFld d) = goalCode s d ∨ Stopped d s ∨ dwellPassed s d time = false) :
    getF (stepDomain time s d) (codeFld d) = getF s (codeFld d) := by
  by_cases hstill : getF s (codeFld d) = goalCode s d ∨ Stopped d s
  · rw [stepDomain_still s time hstill]
  · obtain ⟨hne, hr⟩ := not_or.mp hstill
    have hdwell : dwellPassed s d time = false := (h.resolve_left hne).resolve_left hr
    obtain hlt | hgt := Nat.lt_or_gt_of_ne hne
    · rw [stepDomain_slower s time hlt hr, hdwell]
      rfl
    · obtain ha | hn := Nat.lt_or_ge d 32
      · rw [stepDomain_faster_aclk s time hgt ha hr, hdwell, Bool.and_false]
        split <;> rfl
      · rw [stepDomain_faster_net s time hgt hn, hdwell]
        rfl

include hd in
theorem code_stepDomain_slower (hg : goalCode s d < 8) (h : getF s (codeFld d) < goalCode s d) (hr : ¬ Stopped d s)
    (hdwell : dwellPassed s d time = true) : getF (stepDomain time s d) (codeFld d) = getF s (codeFld d) + 1 := by
  rw [stepDomain_slower s time h hr, if_pos hdwell]
  exact getF_setCode_self hd s time (Nat.lt_of_le_of_lt h hg)

section
variable (hc : getF s (codeFld d) < 8)
include hd hc

theorem code_stepDomain_net (h : goalCode s d < getF s (codeFld d)) (hn : 32 ≤ d) (hdwell : dwellPassed s d time = true) :
    getF (stepDomain time s d) (codeFld d) = getF s (codeFld d) - 1 := by
  rw [stepDomain_faster_net s time h hn, if_pos hdwell]
  exact getF_setCode_self hd s time (Nat.lt_of_le_of_lt (Nat.sub_le _ 1) hc)

/-- A faster step is one code at most. -/
theorem code_stepDomain_faster (h : goalCode s d < getF s (codeFld d)) :
    getF (stepDomain time s d) (codeFld d) = getF s (codeFld d) ∨ getF (stepDomain time s d) (codeFld d) = getF s (codeFld d) - 1 := by
  by_cases hrest : Stopped d s ∨ dwellPassed s d time = false
  · exact .inl (code_stepDomain_rests s time (.inr hrest))
  · obtain ⟨hr, hd1⟩ := not_or.mp hrest
    have hdwell : dwellPassed s d time = true := Bool.eq_true_of_not_eq_false hd1
    obtain ha | hn := Nat.lt_or_ge d 32
    · have hset := getF_setCode_self hd s time (Nat.lt_of_le_of_lt (Nat.sub_le _ 1) hc)
      rw [stepDomain_faster_aclk s time h ha hr]
      split
      · split
        · exact .inr hset
        · exact .inl rfl
      · exact .inl rfl
    · exact .inr (code_stepDomain_net hd s time hc h hn hdwell)

end

include he in
theorem stepDomain_touches : Touches [.flds, .clk] codeKey s (stepDomain time s e) := by
  have hset (c : Nat) : Touches [.flds, .clk] codeKey s (setCode e c time s) :=
    (setCode_touches s time c).mono (by decide) fun _ => codeKey_of_one he
  unfold stepDomain
  dsimp only
  refine .ite (.refl s) (.ite (.ite (.ite (hset _) (.refl s)) ?_) (.ite (hset _) (.refl s)))
  exact .keep (.refl s) (clk_kept s _)

theorem sw_stepDomain (e : Nat) : (stepDomain time s e).clk.sw = s.clk.sw := by
  unfold stepDomain
  dsimp only
  split
  · rfl
  · split
    · split
      · split <;> rfl
      · rfl
    · split <;> rfl

end

/-! ### All domains (R375) -/

/-- The domains at the times of an alignment point. -/
def domainsStepped (time : Nat) (s : State) : State := rampDomains.foldl (stepDomain time) (atTime time s)

/-- The step of domain `d` is that of a state in which nothing that decides it has changed, and the steps behind it leave it alone. -/
theorem domainsStepped_at {d : Nat} (hd : d ∈ rampDomains) (time : Nat) (s : State) :
    ∃ u, SameDomain d s u ∧ SameDomain d (stepDomain time u d) (domainsStepped time s) := by
  obtain ⟨before, after, hsplit⟩ := List.append_of_mem hd
  have hnodup := rampDomains_nodup
  have hmem : ∀ e ∈ before ++ d :: after, e ∈ rampDomains := fun e he => hsplit ▸ he
  rw [hsplit] at hnodup
  have hbefore : ∀ e ∈ before, d ≠ e := by
    rintro e he rfl
    exact List.disjoint_of_nodup_append hnodup he List.mem_cons_self
  have hafter : ∀ e ∈ after, d ≠ e := by
    rintro e he rfl
    exact (List.nodup_cons.mp (List.nodup_append.mp hnodup).2.1).1 he
  have hother {e : Nat} (he : e ∈ before ++ d :: after) (hne : d ≠ e) (u : State) := sameDomain_stepDomain hd (hmem e he) u time hne
  refine ⟨before.foldl (stepDomain time) (atTime time s), ?_, ?_⟩
  · exact (sameDomain_atTime hd time s).foldl fun e he u => hother (List.mem_append_left _ he) (hbefore e he) u
  · rw [domainsStepped, hsplit, List.foldl_append, List.foldl_cons]
    exact (SameDomain.refl d _).foldl fun e he u => hother (List.mem_append_right _ (List.mem_cons_of_mem _ he)) (hafter e he) u

/-! ### The rails and the views behind the steps (R285, R376, R383, R390) -/

theorem vcoreDown_kept (s : State) (h : Nat) : keptBut [.clk] s (vcoreDown s h) := keptBut_ite (clk_kept s _) (keptBut_refl _ s)

theorem sw_vcoreDown (s : State) (h : Nat) : (vcoreDown s h).clk.sw = s.clk.sw := by
  unfold vcoreDown
  split <;> rfl

theorem switchAdvance_none {s : State} (h : s.clk.sw = none) : switchAdvance s = s := by
  unfold switchAdvance
  rw [h]

/-- The registers of the views. -/
def clockViewFlds : List Fld := [Reg.NOC_HINGE_DIV, Reg.CLK_NCLK_RAMPING, Reg.CLK_CCLK_RAMPING]

theorem clockView_touches (s : State) : Touches [.flds] (oneOf clockViewFlds) s (clockView s) :=
  .setF (.setF (.setF (.refl s)))

theorem clk_clockView (s : State) : (clockView s).clk = s.clk := rfl

theorem nclkDiv_le (c : Nat) : nclkDiv c ≤ 24 := by
  unfold nclkDiv
  rcases c with _|_|_|_|_|_|_|_|c <;> simp

theorem hinge_clockView (s : State) : getF (clockView s) Reg.NOC_HINGE_DIV = nclkDiv (max (getF s Reg.CLK_NCLK_CUR_W) (getF s Reg.CLK_NCLK_CUR_E)) := by
  have hset : getF (clockView s) Reg.NOC_HINGE_DIV =
      nclkDiv (max (getF s Reg.CLK_NCLK_CUR_W) (getF s Reg.CLK_NCLK_CUR_E)) % 2 ^ Reg.NOC_HINGE_DIV.len := by
    simp (disch := decide) only [clockView, setB, getF_setF_ne, getF_setF_self]
  rw [hset]
  exact Nat.mod_eq_of_lt (Nat.lt_of_le_of_lt (nclkDiv_le _) (by decide))

end Sys2Proof.Machine
end

