-- ==== Sys2Proof/Proofs/ClockCommands.lean ====
section
/-!
SUPPORT. Proofs/ClockCommands.lean: divider steps, clock targets, droop stretch, spread spectrum and frequency counts (R373, R375, R376,
R380, R386, R390, R394, R399), against O48.
-/
namespace Sys2Proof.Machine

set_option Elab.async false

/-! ### Divider steps (R375) -/

/-- The code an alignment point takes a domain toward while no reference switch runs. -/
def plainGoal (s : State) (d : Nat) : Nat :=
  let op := getF s Reg.PWR_OP_OP
  if d < 32 then (if s.pwr.brakes = [] then op / 32 + (if 32 - op % 32 ≤ d then 1 else 0) else 6) else getF s (targetFld d)

/-- The time between two steps of a domain. -/
def plainDwell (s : State) (d : Nat) : Nat := if d < 32 ∧ s.pwr.brakes ≠ [] then 500 else 100 * getF s Reg.CLK_RAMP_DWELL

def dwellDue (s : State) (d time : Nat) : Bool :=
  match alGet s.clk.stepAt d with | some x => decide (x + plainDwell s d ≤ time) | none => true

theorem goalCode_plain {s : State} (h : s.clk.sw = none) (d : Nat) : goalCode s d = plainGoal s d := by
  unfold goalCode plainGoal opCodeOf
  rw [h]
  by_cases hd : d < 32 <;> cases hb : s.pwr.brakes <;> simp [hd]

theorem dwellNs_plain (s : State) (d : Nat) : dwellNs s d = plainDwell s d := by
  unfold dwellNs plainDwell
  by_cases hd : d < 32 <;> cases hb : s.pwr.brakes <;> simp [hd]

theorem dwellPassed_plain (s : State) (d time : Nat) : dwellPassed s d time = dwellDue s d time := by
  cases h : alGet s.clk.stepAt d <;> simp [dwellPassed, dwellDue, h, dwellNs_plain]

theorem stopped_iff (s : State) (d : Nat) : Stopped d s ↔
    d < 32 ∧ ((∀ k, k < 192 → homeVault k = d → coreFenced s k = true) ∨ s.boot.stage = .safe ∧ s.boot.report.cause = 9) := by
  have hruns : (!aclkRuns s d) = true ↔ ∀ k, k < 192 → homeVault k = d → coreFenced s k = true := by
    simp [aclkRuns, domainCores]
  have htrip : tripped s = true ↔ s.boot.stage = .safe ∧ s.boot.report.cause = 9 := by
    simp [tripped]
  rw [Stopped, hruns, htrip]

section
variable {s : State} (time : Nat) {d : Nat} (hd : d ∈ rampDomains) (hsw : s.clk.sw = none)

/-- The state after an alignment point without a switch. -/
def aligned (time : Nat) (s : State) : State := clockView (vcoreDown (vcoreDown (domainsStepped time s) 0) 1)

include hd in
theorem domainsStepped_spec (s : State) : (domainsStepped time s).clk.sw = s.clk.sw ∧
    Touches [.flds, .clk, .now] (fun k => pmcKey k || codeKey k) s (domainsStepped time s) := by
  obtain ⟨u, hu, hv⟩ := domainsStepped_at hd time s
  refine ⟨hv.switch.trans ((sw_stepDomain u time d).trans hu.switch), (hu.touched.trans ?_).trans hv.touched⟩
  exact (stepDomain_touches hd u time).mono (by decide) fun k e => (Bool.or_eq_false_iff.mp e).2

theorem aligned_touches (time : Nat) (s : State) : Touches [.flds, .clk] (oneOf clockViewFlds) (domainsStepped time s) (aligned time s) :=
  .step (.keep (.keep (.refl _) (vcoreDown_kept _ 0)) (vcoreDown_kept _ 1)) (clockView_touches _) (by decide) fun _ => id

include hsw in
theorem exec_dividerStep (hc : clocked s = true) : exec (.dividerStep time) s = .next (aligned time s) := by
  have hnone : (domainsStepped time s).clk.sw = none := (domainsStepped_spec time (d := 64) (by decide) s).1.trans hsw
  have hidle : switchAdvance (vcoreDown (vcoreDown (domainsStepped time s) 0) 1) = vcoreDown (vcoreDown (domainsStepped time s) 0) 1 :=
    switchAdvance_none (by rw [sw_vcoreDown, sw_vcoreDown, hnone])
  exact congrArg Host.Outcome.next ((if_pos hc).trans (congrArg clockView hidle))

theorem viewKey_codeFld : ∀ d ∈ rampDomains, oneOf clockViewFlds (fldKey (codeFld d) .a) = false := by decide

include hd in
/-- The code of a domain behind an alignment point is that behind its own step. -/
theorem code_aligned (s : State) : ∃ u, SameDomain d s u ∧ getF (aligned time s) (codeFld d) = getF (stepDomain time u d) (codeFld d) := by
  obtain ⟨u, hu, hv⟩ := domainsStepped_at hd time s
  exact ⟨u, hu, ((aligned_touches time s).getF (viewKey_codeFld d hd)).trans hv.code⟩

end

theorem aligned_spec (time : Nat) {s : State} (hsw : s.clk.sw = none) :
    getF (aligned time s) Reg.NOC_HINGE_DIV = nclkDiv (max (getF (aligned time s) Reg.CLK_NCLK_CUR_W) (getF (aligned time s) Reg.CLK_NCLK_CUR_E)) ∧
    (aligned time s).clk.sw = none ∧
    regsKept (fun k => pmcKey k || oneOf (rampDomains.map codeFld ++ clockViewFlds) k) s (aligned time s) ∧
    keptBut [.flds, .clk, .now] s (aligned time s) := by
  obtain ⟨hsteps, htouched⟩ := domainsStepped_spec time (d := 64) (by decide) s
  have hall : Touches [.flds, .clk, .now] (fun k => pmcKey k || oneOf (rampDomains.map codeFld ++ clockViewFlds) k) s (aligned time s) := by
    have hkeys : ∀ k, (pmcKey k || oneOf (rampDomains.map codeFld ++ clockViewFlds) k) = false →
        (pmcKey k || codeKey k) = false ∧ oneOf clockViewFlds k = false := fun k e => by
      rw [oneOf_append, Bool.or_eq_false_iff, Bool.or_eq_false_iff] at e
      obtain ⟨hpmc, hcode, hview⟩ := e
      exact ⟨by rw [hpmc]; exact hcode, hview⟩
    exact (htouched.mono (fun _ => id) fun k e => (hkeys k e).1).step (aligned_touches time s) (by decide) fun k e => (hkeys k e).2
  refine ⟨?_, ?_, hall.regs, hall.parts⟩
  · have hw : getF (aligned time s) Reg.CLK_NCLK_CUR_W = getF (vcoreDown (vcoreDown (domainsStepped time s) 0) 1) Reg.CLK_NCLK_CUR_W :=
      (clockView_touches _).getF (by decide)
    have he : getF (aligned time s) Reg.CLK_NCLK_CUR_E = getF (vcoreDown (vcoreDown (domainsStepped time s) 0) 1) Reg.CLK_NCLK_CUR_E :=
      (clockView_touches _).getF (by decide)
    rw [hw, he]
    exact hinge_clockView _
  · rw [aligned, clk_clockView, sw_vcoreDown, sw_vcoreDown, hsteps, hsw]

section
variable {s : State} (time : Nat) {d : Nat} (hd : d ∈ rampDomains) (hsw : s.clk.sw = none) (hc : getF s (codeFld d) < 8)
include hd hsw hc

theorem code_aligned_spec (hg : plainGoal s d < 8) :
    let stopped := d < 32 ∧ ((∀ k, k < 192 → homeVault k = d → coreFenced s k = true) ∨ s.boot.stage = .safe ∧ s.boot.report.cause = 9)
    (getF s (codeFld d) = plainGoal s d ∨ stopped ∨ dwellDue s d time = false → getF (aligned time s) (codeFld d) = getF s (codeFld d)) ∧
    (getF s (codeFld d) < plainGoal s d → ¬ stopped → dwellDue s d time = true →
      getF (aligned time s) (codeFld d) = getF s (codeFld d) + 1) ∧
    (plainGoal s d < getF s (codeFld d) → 32 ≤ d → dwellDue s d time = true →
      getF (aligned time s) (codeFld d) = getF s (codeFld d) - 1) ∧
    (plainGoal s d < getF s (codeFld d) → getF (aligned time s) (codeFld d) = getF s (codeFld d) ∨
      getF (aligned time s) (codeFld d) = getF s (codeFld d) - 1) := by
  obtain ⟨u, hu, hcode⟩ := code_aligned time hd s
  have hgoal : goalCode u d = plainGoal s d := (hu.goalCode hd).trans (goalCode_plain hsw d)
  have hdwell : dwellPassed u d time = dwellDue s d time := (hu.dwellPassed time).trans (dwellPassed_plain s d time)
  have hstop : Stopped d u ↔ Stopped d s := by rw [Stopped, Stopped, hu.aclkRuns, hu.tripped]
  have hcu : getF u (codeFld d) < 8 := hu.code ▸ hc
  rw [← stopped_iff, ← hstop, ← hgoal, ← hdwell, hcode, ← hu.code]
  exact ⟨code_stepDomain_rests u time, code_stepDomain_slower hd u time (hgoal ▸ hg), code_stepDomain_net hd u time hcu,
    code_stepDomain_faster hd u time hcu⟩

end

/-! ### Targets (R376, R385) -/

theorem clk_setTargets (d w e : Nat) (s : State) :
    (setTargets d w e s).clk = { s.clk with sw := s.clk.sw.map fun x => { x with net := (x.net.set (d - 64) w).set (d - 63) e } } := rfl

theorem clk_setTargets_none {s : State} (h : s.clk.sw = none) (d w e : Nat) : (setTargets d w e s).clk = s.clk := by
  rw [clk_setTargets, h, Option.map_none, ← h]

theorem clk_setTargets_some {s : State} {x : ClkSwitch} (h : s.clk.sw = some x) (d w e : Nat) :
    (setTargets d w e s).clk = { s.clk with sw := some { x with net := (x.net.set (d - 64) w).set (d - 63) e } } := by
  rw [clk_setTargets, h, Option.map_some]

/-- The two network clocks, by the first of their domains. -/
def netClocks : List Nat := [64, 66]

/-- What a write of both targets of a network clock changes. -/
def targetFlds (d : Nat) : List Fld := targetFld d :: targetFld (d + 1) :: clockViewFlds

theorem targetFld_facts : ∀ d ∈ netClocks, fldKey (targetFld d) .a ≠ fldKey (targetFld (d + 1)) .a ∧ (targetFld d).len = 3 ∧
    (targetFld (d + 1)).len = 3 ∧ oneOf clockViewFlds (fldKey (targetFld d) .a) = false ∧
    oneOf clockViewFlds (fldKey (targetFld (d + 1)) .a) = false := by decide

theorem setTargets_touches (d w e : Nat) (s : State) : Touches [.flds, .clk] (oneOf (targetFlds d)) s (setTargets d w e s) := by
  have hset : Touches [.flds, .clk] (oneOf (targetFlds d)) s (setF (setF s (targetFld d) w) (targetFld (d + 1)) e) :=
    .setOne (.setOne (.refl s) (by simp [targetFlds])) (by simp [targetFlds])
  exact (Touches.keep hset (clk_kept _ _)).step (clockView_touches _) (by decide) fun k =>
    oneOf_mono fun f hf => List.mem_cons_of_mem _ (List.mem_cons_of_mem _ hf)

theorem getF_setTargets {d : Nat} (hd : d ∈ netClocks) (w e : Nat) (s : State) :
    getF (setTargets d w e s) (targetFld d) = w % 2 ^ 3 ∧ getF (setTargets d w e s) (targetFld (d + 1)) = e % 2 ^ 3 := by
  obtain ⟨hne, hlen, hlen1, hview, hview1⟩ := targetFld_facts d hd
  constructor
  · rw [setTargets, (clockView_touches _).getF hview, ← hlen]
    exact (getF_setF_ne hne).trans (getF_setF_self _ _ _)
  · rw [setTargets, (clockView_touches _).getF hview1, ← hlen1]
    exact getF_setF_self _ _ _

/-- Codes that a target write holds have three bits. -/
theorem bitsAt_mod (v lo len : Nat) : bitsAt v lo len % 2 ^ len = bitsAt v lo len := Nat.mod_mod _ _

theorem setTargets_spec {d : Nat} (hd : d ∈ netClocks) (v lo lo1 : Nat) (s : State) :
    let w := bitsAt v lo 3
    let e := bitsAt v lo1 3
    let t := setTargets d w e s
    getF t (targetFld d) = w ∧ getF t (targetFld (d + 1)) = e ∧ (s.clk.sw = none → t.clk = s.clk) ∧
    (∀ x, s.clk.sw = some x → t.clk = { s.clk with sw := some { x with net := (x.net.set (d - 64) w).set (d - 63) e } }) ∧
    regsKept (oneOf (targetFlds d)) s t ∧ keptBut [.flds, .clk] s t := by
  obtain ⟨hw, he⟩ := getF_setTargets hd (bitsAt v lo 3) (bitsAt v lo1 3) s
  have ht := setTargets_touches d (bitsAt v lo 3) (bitsAt v lo1 3) s
  exact ⟨hw.trans (bitsAt_mod v lo 3), he.trans (bitsAt_mod v lo1 3), fun h => clk_setTargets_none h d _ _, fun _ h => clk_setTargets_some h d _ _,
    ht.regs, ht.parts⟩

section
variable {s : State} (ha : stageAlive s = true) (p : Port) (v : BitVec 32)
include ha

theorem exec_nclkTargetWrite : exec (.nclkTargetWrite p v) s =
    .next (if getB s Reg.CLK_LOCK_LOCK then s else setTargets 64 (bitsAt v.toNat 0 3) (bitsAt v.toNat 4 3) s) :=
  congrArg Host.Outcome.next (viaPf0_alive ha p _)

theorem exec_cclkTargetWrite : exec (.cclkTargetWrite p v) s =
    .next (if getB s Reg.CLK_LOCK_LOCK ∨ 4 < bitsAt v.toNat 0 3 ∨ 4 < bitsAt v.toNat 4 3 then s
      else setTargets 66 (bitsAt v.toNat 0 3) (bitsAt v.toNat 4 3) s) :=
  congrArg Host.Outcome.next (viaPf0_alive ha p _)

end

/-! ### Droop stretch (R399) -/

theorem homeVault_lt (c : Fin 192) : homeVault c < 32 := by
  have := c.isLt
  simp only [homeVault, coreRow]
  omega

theorem stretchFld_facts : ∀ v : Fin 32, fldKey Reg.PWR_DROOP .a ≠ fldKey (Reg.CLK_ACLK_CUR_STRETCH v) .a ∧
    0 < (Reg.CLK_ACLK_CUR_STRETCH v).len := by decide

/-- The module has noted the trip's time and counted it. -/
def droopCounted (core time : Nat) (s : State) : State :=
  let s1 := bump (atTime time s) Reg.PWR_DROOP 1
  { s1 with clk.stretched := alSet s1.clk.stretched core time }

theorem stretchView_touches (v : Nat) (s : State) : Touches [.flds] (oneOf [Reg.CLK_ACLK_CUR_STRETCH v]) s (stretchView v s) :=
  .setOne (.refl s) List.mem_cons_self

theorem getB_stretchView {v : Nat} (hv : v < 32) (s : State) :
    getB (stretchView v s) (Reg.CLK_ACLK_CUR_STRETCH v) = s.clk.stretched.any fun x => homeVault x.1 == v :=
  getB_setB_self s _ _ (stretchFld_facts ⟨v, hv⟩).2

theorem stretched_atTime (time : Nat) (s : State) : (atTime time s).clk.stretched = s.clk.stretched :=
  congrArg ClkSt.stretched ((atTime_touches time s).parts .clk rfl)

section
variable {s : State} {core : Fin 192} {time : Nat}

theorem exec_droopTrip_idle (h : ¬(coreFenced s core = false ∧ clocked s = true ∧ ¬(s.boot.stage = .safe ∧ s.boot.report.cause = 9))) :
    exec (.droopTrip core time) s = .next s := by
  refine congrArg Host.Outcome.next (if_pos ?_)
  simp only [tripped, Bool.or_eq_true, Bool.not_eq_true', Bool.and_eq_true, beq_iff_eq]
  by_contra hall
  simp only [not_or, Bool.not_eq_true, Bool.not_eq_false] at hall
  exact h ⟨hall.1.1, hall.1.2, hall.2⟩

theorem exec_droopTrip_runs (h : coreFenced s core = false ∧ clocked s = true ∧ ¬(s.boot.stage = .safe ∧ s.boot.report.cause = 9)) :
    exec (.droopTrip core time) s = .next (stretchView (homeVault core) (droopCounted core time s)) := by
  refine congrArg Host.Outcome.next (if_neg ?_)
  obtain ⟨hf, hc, ht⟩ := h
  simp [hf, hc, tripped, ht]

theorem droopTrip_spec (s : State) (core : Fin 192) (time : Nat) :
    let t := stretchView (homeVault core) (droopCounted core time s)
    getF t Reg.PWR_DROOP = min (getF s Reg.PWR_DROOP + 1) (2 ^ 64 - 1) ∧
      alGet t.clk.stretched core = some time ∧ (∀ k, k ≠ core.val → alGet t.clk.stretched k = alGet s.clk.stretched k) ∧
      getB t (Reg.CLK_ACLK_CUR_STRETCH (homeVault core)) = true ∧
      Touches [.flds, .clk, .now] (fun k => pmcKey k || oneOf [Reg.PWR_DROOP, Reg.CLK_ACLK_CUR_STRETCH (homeVault core)] k) s t := by
  have hv := homeVault_lt core
  obtain ⟨hne, -⟩ := stretchFld_facts ⟨_, hv⟩
  have hcount : Touches [.flds, .clk, .now] (fun k => pmcKey k || oneOf [Reg.PWR_DROOP] k) s (droopCounted core time s) :=
    .keep (.bump ((Touches.refl s).now fun k e => (Bool.or_eq_false_iff.mp e).1)) (clk_kept _ _)
  have hstretched : (stretchView (homeVault core) (droopCounted core time s)).clk.stretched = alSet s.clk.stretched core time :=
    congrArg (fun m => alSet m core.val time) (stretched_atTime time s)
  refine ⟨?_, by rw [hstretched, alGet_alSet_self], fun k hk => by rw [hstretched, alGet_alSet_ne hk], ?_, ?_⟩
  · refine (getF_setF_ne hne).trans ((getF_bump_self (atTime time s) rfl 1).trans ?_)
    rw [getF_atTime (by decide)]
  · rw [getB_stretchView hv, List.any_eq_true]
    exact ⟨(core, time), mem_smInsert.mpr (.inl rfl), beq_self_eq_true _⟩
  · refine (hcount.mono (fun _ => id) fun k e => ?_).step (stretchView_touches _ _) (by decide) fun k e => ?_
    · rw [Bool.or_eq_false_iff] at e ⊢
      exact ⟨e.1, oneOf_mono (by simp) e.2⟩
    · exact oneOf_mono (by simp) (Bool.or_eq_false_iff.mp e).2

/-- The core runs at its domain's clock again. -/
def droopEnded (core time : Nat) (s : State) : State :=
  { atTime time s with clk.stretched := smErase (atTime time s).clk.stretched core }

theorem exec_droopHoldExpire_holds {x : Nat} (hx : alGet s.clk.stretched core = some x)
    (h : time < x + 1000 * getF s Reg.PWR_DROOP_CTL_HOLD_US) : exec (.droopHoldExpire core time) s = .next s := by
  refine congrArg Host.Outcome.next ?_
  rw [hx]
  exact if_neg (Nat.not_le.mpr h)

theorem exec_droopHoldExpire_none (hx : alGet s.clk.stretched core = none) : exec (.droopHoldExpire core time) s = .next s := by
  refine congrArg Host.Outcome.next ?_
  rw [hx]

theorem exec_droopHoldExpire_ends {x : Nat} (hx : alGet s.clk.stretched core = some x)
    (h : x + 1000 * getF s Reg.PWR_DROOP_CTL_HOLD_US ≤ time) :
    exec (.droopHoldExpire core time) s = .next (stretchView (homeVault core) (droopEnded core time s)) := by
  refine congrArg Host.Outcome.next ?_
  rw [hx]
  exact if_pos h

theorem droopEnd_spec (s : State) (core : Fin 192) (time : Nat) :
    let t := stretchView (homeVault core) (droopEnded core time s)
    alGet t.clk.stretched core = none ∧ (∀ k, k ≠ core.val → alGet t.clk.stretched k = alGet s.clk.stretched k) ∧
      (getB t (Reg.CLK_ACLK_CUR_STRETCH (homeVault core)) = true ↔ ∃ e ∈ t.clk.stretched, homeVault e.1 = homeVault core) ∧
      Touches [.flds, .clk, .now] (fun k => pmcKey k || oneOf [Reg.CLK_ACLK_CUR_STRETCH (homeVault core)] k) s t := by
  have hend : Touches [.flds, .clk, .now] (fun k => pmcKey k || oneOf [Reg.CLK_ACLK_CUR_STRETCH (homeVault core)] k) s (droopEnded core time s) :=
    .keep ((Touches.refl s).now fun k e => (Bool.or_eq_false_iff.mp e).1) (clk_kept _ _)
  refine ⟨alGet_smErase_self, fun k hk => (alGet_smErase_ne hk).trans (by rw [stretched_atTime]), ?_, ?_⟩
  · rw [getB_stretchView (homeVault_lt core), List.any_eq_true]
    exact exists_congr fun e => and_congr_right fun _ => beq_iff_eq
  · exact hend.step (stretchView_touches _ _) (by decide) fun k e => (Bool.or_eq_false_iff.mp e).2

end

/-! ### Spread spectrum and frequency counts (R380, R386) -/

section
variable {s : State} (ha : stageAlive s = true) (p : Port) (v : BitVec 32)

/-- R386: the write is out of range, or a START while a count runs. -/
def FcountBad (s : State) (p : Port) (v : BitVec 32) : Prop :=
  99 < bitsAt v.toNat 0 7 ∧ bitsAt v.toNat 0 7 ≠ 127 ∨ bitsAt v.toNat 8 5 < 10 ∨ 30 < bitsAt v.toNat 8 5 ∨
    bit v.toNat 16 = true ∧ getP s p Reg.CLK_FCOUNT_CTL_BUSY = 1

def fcountSel (v : BitVec 32) : List (Fld × Nat) :=
  [(Reg.CLK_FCOUNT_CTL_SEL, bitsAt v.toNat 0 7), (Reg.CLK_FCOUNT_CTL_GATE_LOG2, bitsAt v.toNat 8 5)]

def fcountOpen (v : BitVec 32) : List (Fld × Nat) :=
  fcountSel v ++ [(Reg.CLK_FCOUNT_CTL_BUSY, 1), (Reg.CLK_FCOUNT_CTL_VALID, 0), (Reg.CLK_FCOUNT_CTL_DISTURBED, 0)]

/-- The clocks' record of a gate that opens. -/
def gateOpened (p : Port) (v : BitVec 32) (s : State) : State :=
  { s with clk.fcRun := s.clk.fcRun.set (portNum p) (bitsAt v.toNat 0 7, bitsAt v.toNat 8 5),
           clk.fcDist := s.clk.fcDist.set (portNum p) (getB s Reg.CLK_REF_STATUS_SWITCH_BUSY || getB s Reg.CLK_REF_STATUS_HOLDOVER) }

theorem getP_gateOpened (p q : Port) (v : BitVec 32) (s : State) (f : Fld) : getP (gateOpened p v s) q f = getP s q f := rfl

theorem gateOpened_kept (p : Port) (v : BitVec 32) (s : State) : keptBut [.clk] s (gateOpened p v s) := clk_kept s _

theorem flds_gateOpened (p : Port) (v : BitVec 32) (s : State) : (gateOpened p v s).flds = s.flds := rfl

/-- The fields that opening a gate writes. -/
def gateFlds : List Fld := [Reg.CLK_FCOUNT_CTL_SEL, Reg.CLK_FCOUNT_CTL_GATE_LOG2, Reg.CLK_FCOUNT_CTL_BUSY, Reg.CLK_FCOUNT_CTL_VALID,
  Reg.CLK_FCOUNT_CTL_DISTURBED]

theorem fcountOpen_flds (v : BitVec 32) : (fcountOpen v).map Prod.fst = gateFlds := rfl
theorem fcountSel_flds (v : BitVec 32) : (fcountSel v).map Prod.fst = gateFlds.take 2 := rfl

theorem gateFlds_nodup (p : Port) : (gateFlds.map fun f => fldKey f p).Nodup := by
  cases p <;> decide

theorem gateFlds_refStatus (p : Port) : ∀ f ∈ [Reg.CLK_REF_STATUS_SWITCH_BUSY, Reg.CLK_REF_STATUS_HOLDOVER],
    (gateFlds.any fun g => fldKey g p == fldKey f .a) = false := by
  cases p <;> decide

theorem refStatus_setPort (p : Port) (v : BitVec 32) (s : State) :
    getB (setPort p s (fcountOpen v)) Reg.CLK_REF_STATUS_SWITCH_BUSY = getB s Reg.CLK_REF_STATUS_SWITCH_BUSY ∧
    getB (setPort p s (fcountOpen v)) Reg.CLK_REF_STATUS_HOLDOVER = getB s Reg.CLK_REF_STATUS_HOLDOVER := by
  have hread {f : Fld} (hf : f ∈ [Reg.CLK_REF_STATUS_SWITCH_BUSY, Reg.CLK_REF_STATUS_HOLDOVER]) :
      getB (setPort p s (fcountOpen v)) f = getB s f := congrArg (· == 1) (regsKept_setPort p s (fcountOpen v) _ _ (gateFlds_refStatus p f hf))
  exact ⟨hread (by simp), hread (by simp)⟩

/-- Fields whose values fit read them. -/
theorem getP_setPort_fits {p : Port} {s : State} {ws : List (Fld × Nat)} (h : ((ws.map Prod.fst).map fun f => fldKey f p).Nodup)
    (hfit : ∀ w ∈ ws, w.2 < 2 ^ w.1.len) : ∀ w ∈ ws, getP (setPort p s ws) p w.1 = w.2 := fun w hw =>
  (getP_setPort h w hw).trans (Nat.mod_eq_of_lt (hfit w hw))

theorem bitsAt_lt (v lo len : Nat) : bitsAt v lo len < 2 ^ len := Nat.mod_lt _ (Nat.two_pow_pos len)

theorem fcountSel_fits (v : BitVec 32) : ∀ w ∈ fcountSel v, w.2 < 2 ^ w.1.len :=
  List.forall_mem_cons.mpr ⟨bitsAt_lt _ 0 7, List.forall_mem_singleton.mpr (bitsAt_lt _ 8 5)⟩

theorem fcountOpen_fits (v : BitVec 32) : ∀ w ∈ fcountOpen v, w.2 < 2 ^ w.1.len :=
  List.forall_mem_append.mpr ⟨fcountSel_fits v, by decide⟩

theorem getP_fcountSel (p : Port) (v : BitVec 32) (s : State) :
    getP (setPort p s (fcountSel v)) p Reg.CLK_FCOUNT_CTL_SEL = bitsAt v.toNat 0 7 ∧
    getP (setPort p s (fcountSel v)) p Reg.CLK_FCOUNT_CTL_GATE_LOG2 = bitsAt v.toNat 8 5 := by
  have hread := getP_setPort_fits (s := s) ((gateFlds_nodup p).sublist ((List.take_sublist 2 gateFlds).map _)) (fcountSel_fits v)
  exact ⟨hread (_, _) List.mem_cons_self, hread (_, _) (List.mem_cons_of_mem _ List.mem_cons_self)⟩

theorem getP_fcountOpen (p : Port) (v : BitVec 32) (s : State) :
    getP (setPort p s (fcountOpen v)) p Reg.CLK_FCOUNT_CTL_SEL = bitsAt v.toNat 0 7 ∧
    getP (setPort p s (fcountOpen v)) p Reg.CLK_FCOUNT_CTL_GATE_LOG2 = bitsAt v.toNat 8 5 ∧
    getP (setPort p s (fcountOpen v)) p Reg.CLK_FCOUNT_CTL_BUSY = 1 ∧ getP (setPort p s (fcountOpen v)) p Reg.CLK_FCOUNT_CTL_VALID = 0 ∧
    getP (setPort p s (fcountOpen v)) p Reg.CLK_FCOUNT_CTL_DISTURBED = 0 := by
  have hread := getP_setPort_fits (s := s) (gateFlds_nodup p) (fcountOpen_fits v)
  obtain ⟨hsel, hgate, hbusy, hvalid, hdist, -⟩ := by
    simpa only [fcountOpen, fcountSel, List.cons_append, List.nil_append, List.forall_mem_cons] using hread
  exact ⟨hsel, hgate, hbusy, hvalid, hdist⟩

include ha

theorem exec_fcountStart_bad (h : FcountBad s p v) : exec (.fcountStart p v) s = .next s :=
  congrArg Host.Outcome.next ((viaPf0_alive ha p _).trans (if_pos h))

theorem exec_fcountStart (h : ¬ FcountBad s p v) : exec (.fcountStart p v) s =
    .next (if bit v.toNat 16 then gateOpened p v (setPort p s (fcountOpen v)) else setPort p s (fcountSel v)) :=
  congrArg Host.Outcome.next ((viaPf0_alive ha p _).trans (if_neg h))

/-- R386: the write is taken. -/
theorem fcountStart_spec (h : ¬ FcountBad s p v) : ∃ t, exec (.fcountStart p v) s = .next t ∧
    getP t p Reg.CLK_FCOUNT_CTL_SEL = bitsAt v.toNat 0 7 ∧ getP t p Reg.CLK_FCOUNT_CTL_GATE_LOG2 = bitsAt v.toNat 8 5 ∧
    (bit v.toNat 16 = false → getP t p Reg.CLK_FCOUNT_CTL_BUSY = getP s p Reg.CLK_FCOUNT_CTL_BUSY ∧ t.clk = s.clk) ∧
    (bit v.toNat 16 = true → getP t p Reg.CLK_FCOUNT_CTL_BUSY = 1 ∧ getP t p Reg.CLK_FCOUNT_CTL_VALID = 0 ∧
      getP t p Reg.CLK_FCOUNT_CTL_DISTURBED = 0 ∧
      let dist := getB s Reg.CLK_REF_STATUS_SWITCH_BUSY || getB s Reg.CLK_REF_STATUS_HOLDOVER
      t.clk = { s.clk with fcDist := s.clk.fcDist.set (portNum p) dist, fcRun := s.clk.fcRun.set (portNum p) (bitsAt v.toNat 0 7, bitsAt v.toNat 8 5) }) ∧
    regsKept (fun k => gateFlds.any fun f => fldKey f p == k) s t ∧ keptBut [.flds, .clk] s t := by
  have hexec := exec_fcountStart ha p v h
  by_cases hb : bit v.toNat 16 = true
  · rw [if_pos hb] at hexec
    obtain ⟨hsel, hgate, hbusy, hvalid, hdist⟩ := getP_fcountOpen p v s
    obtain ⟨hswitch, hhold⟩ := refStatus_setPort p v s
    have hread (f : Fld) := getP_gateOpened p p v (setPort p s (fcountOpen v)) f
    have hparts := setPort_kept p s (fcountOpen v)
    refine ⟨_, hexec, (hread _).trans hsel, (hread _).trans hgate, fun h0 => absurd hb (by rw [h0]; exact Bool.false_ne_true),
      fun _ => ⟨(hread _).trans hbusy, (hread _).trans hvalid, (hread _).trans hdist, ?_⟩, fun k d hk => ?_,
      (keptBut_trans hparts (gateOpened_kept p v _)).mono (by decide)⟩
    · have hclk : (setPort p s (fcountOpen v)).clk = s.clk := hparts .clk (by decide)
      rw [gateOpened, hswitch, hhold, hclk]
    · rw [flds_gateOpened]
      exact regsKept_setPort p s (fcountOpen v) k d hk
  · rw [if_neg hb] at hexec
    obtain ⟨hsel, hgate⟩ := getP_fcountSel p v s
    have hregs : regsKept (fun k => (gateFlds.take 2).any fun f => fldKey f p == k) s (setPort p s (fcountSel v)) :=
      regsKept_setPort p s (fcountSel v)
    refine ⟨_, hexec, hsel, hgate, fun _ => ⟨?_, ?_⟩, fun h1 => absurd h1 hb, ?_, ?_⟩
    · exact hregs _ _ (by cases p <;> decide)
    · exact setPort_kept p s (fcountSel v) .clk (by decide)
    · refine regsKept_mono hregs fun k hk => ?_
      exact List.any_eq_false.mpr fun f hf => List.any_eq_false.mp hk f (List.mem_of_mem_take hf)
    · exact (setPort_kept p s (fcountSel v)).mono (by decide)

end

/-- What the end of a count reads (R386). -/
def countRead (p : Port) (measured : Nat) (up : Bool) (s : State) : Nat :=
  let gate := 2 ^ (s.clk.fcRun.getD (portNum p) (0, 0)).2
  match alignedDiv s (s.clk.fcRun.getD (portNum p) (0, 0)).1 with
  | some 0 => 0
  | some d => if s.clk.fcDist.getD (portNum p) false then measured else (if up then (gate + d - 1) / d else gate / d)
  | none => measured

def fcountClose (p : Port) (measured : Nat) (up : Bool) (s : State) : List (Fld × Nat) :=
  [(Reg.CLK_FCOUNT_RESULT, countRead p measured up s), (Reg.CLK_FCOUNT_CTL_BUSY, 0), (Reg.CLK_FCOUNT_CTL_VALID, 1),
   (Reg.CLK_FCOUNT_CTL_DISTURBED, b2n (s.clk.fcDist.getD (portNum p) false))]

theorem fcountClose_nodup (p : Port) : ([Reg.CLK_FCOUNT_RESULT, Reg.CLK_FCOUNT_CTL_BUSY, Reg.CLK_FCOUNT_CTL_VALID,
    Reg.CLK_FCOUNT_CTL_DISTURBED].map fun f => fldKey f p).Nodup := by
  cases p <;> decide

section
variable {s : State} {p : Port} (measured : Nat) (up : Bool)

theorem exec_fcountDone_idle (h : getP s p Reg.CLK_FCOUNT_CTL_BUSY ≠ 1) : exec (.fcountDone p measured up) s = .next s :=
  congrArg Host.Outcome.next (if_neg h)

theorem exec_fcountDone (h : getP s p Reg.CLK_FCOUNT_CTL_BUSY = 1) :
    exec (.fcountDone p measured up) s = .next (setPort p s (fcountClose p measured up s)) :=
  congrArg Host.Outcome.next (if_pos h)

theorem countRead_stopped (h : alignedDiv s (s.clk.fcRun.getD (portNum p) (0, 0)).1 = some 0) : countRead p measured up s = 0 := by
  simp only [countRead, h]

theorem countRead_undisturbed {d : Nat} (hq : s.clk.fcDist.getD (portNum p) false = false)
    (h : alignedDiv s (s.clk.fcRun.getD (portNum p) (0, 0)).1 = some d) (hd : 0 < d) :
    countRead p measured up s = (if up then (2 ^ (s.clk.fcRun.getD (portNum p) (0, 0)).2 + d - 1) / d
      else 2 ^ (s.clk.fcRun.getD (portNum p) (0, 0)).2 / d) := by
  obtain ⟨n, rfl⟩ := Nat.exists_eq_add_of_le' hd
  unfold countRead
  rw [h, hq]
  rfl

theorem fcountDone_spec (p : Port) (s : State) :
    let t := setPort p s (fcountClose p measured up s)
    getP t p Reg.CLK_FCOUNT_RESULT = countRead p measured up s % 2 ^ 32 ∧ getP t p Reg.CLK_FCOUNT_CTL_BUSY = 0 ∧
      getP t p Reg.CLK_FCOUNT_CTL_VALID = 1 ∧ getP t p Reg.CLK_FCOUNT_CTL_DISTURBED = b2n (s.clk.fcDist.getD (portNum p) false) := by
  have hread := getP_setPort (s := s) (ws := fcountClose p measured up s) (fcountClose_nodup p)
  obtain ⟨hres, hbusy, hvalid, hdist, -⟩ := by simpa only [fcountClose, List.forall_mem_cons] using hread
  exact ⟨hres, hbusy, hvalid, hdist.trans (b2n_mod_two _)⟩

end

/-! ### The statement -/

/-- Settles O48: a domain's step is decided by what its own domain reads, which the steps of the others leave alone. -/
theorem clockStepsTargetsAndCounts : Obligations.ClockStepsTargetsAndCounts := by
  unfold Obligations.ClockStepsTargetsAndCounts
  refine ⟨fun s time d hc hsw hd hcode hgoal => ?_, fun s time hc => congrArg Host.Outcome.next (if_neg (by simp [hc])),
    fun s p v ha => ⟨fun hl => ⟨?_, ?_⟩, fun hout => ?_, fun hl => ?_, fun hl hw he => ?_⟩, fun s h => rfl,
    fun s core time => ⟨exec_droopTrip_idle, fun hr => ⟨_, exec_droopTrip_runs hr, ?_⟩, fun x hx h => exec_droopHoldExpire_holds hx h,
      exec_droopHoldExpire_none, fun x hx h => ⟨_, exec_droopHoldExpire_ends hx h, ?_⟩⟩,
    fun s => ⟨fun hc hb => congrArg Host.Outcome.next (if_pos (by simp [hc, hb])), fun h => congrArg Host.Outcome.next (if_neg ?_)⟩,
    fun s p v ha => ⟨fun hbad => ?_, fun hok => fcountStart_spec ha p v hok⟩,
    fun s p measured up => ⟨exec_fcountDone_idle measured up, fun hb => ⟨_, exec_fcountDone measured up hb, ?_⟩⟩⟩
  · obtain ⟨hrests, hslower, hnet, hfaster⟩ := code_aligned_spec time hd hsw hcode hgoal
    exact ⟨_, exec_dividerStep time hsw hc, hrests, hslower, hnet, hfaster, aligned_spec time hsw⟩
  · rw [exec_nclkTargetWrite ha, if_pos hl]
  · rw [exec_cclkTargetWrite ha, if_pos (.inl hl)]
  · rw [exec_cclkTargetWrite ha, if_pos (.inr hout)]
  · obtain ⟨hw, he, hnone, hsome, hregs, hparts⟩ := setTargets_spec (d := 64) (by decide) v.toNat 0 4 s
    refine ⟨_, (exec_nclkTargetWrite ha p v).trans (by rw [hl, if_neg Bool.false_ne_true]), hw, he, hnone, hsome, ?_, hparts⟩
    exact regsKept_mono hregs fun k => oneOf_mono (by decide)
  · obtain ⟨hw', he', hnone, hsome, hregs, hparts⟩ := setTargets_spec (d := 66) (by decide) v.toNat 0 4 s
    have hin : ¬(getB s Reg.CLK_LOCK_LOCK = true ∨ 4 < bitsAt v.toNat 0 3 ∨ 4 < bitsAt v.toNat 4 3) := by
      simp only [hl, Bool.false_eq_true, false_or, not_or, Nat.not_lt]
      exact ⟨hw, he⟩
    refine ⟨_, (exec_cclkTargetWrite ha p v).trans (by rw [if_neg hin]), hw', he', hnone, hsome, ?_, hparts⟩
    exact regsKept_mono hregs fun k => oneOf_mono (by decide)
  · obtain ⟨hcount, hself, hothers, hview, ht⟩ := droopTrip_spec s core time
    exact ⟨hcount, hself, hothers, hview, ht.regs, ht.parts⟩
  · obtain ⟨hself, hothers, hview, ht⟩ := droopEnd_spec s core time
    exact ⟨hself, hothers, hview, ht.regs, ht.parts⟩
  · obtain hc | hb := h <;> simp [*]
  · exact exec_fcountStart_bad ha p v hbad
  · obtain ⟨hres, hbusy, hvalid, hdist⟩ := fcountDone_spec measured up p s
    refine ⟨hbusy, hvalid, hdist, fun d hq hdiv hpos => ?_, fun hzero => ?_, regsKept_setPort p s (fcountClose p measured up s),
      setPort_kept p s _⟩
    · rw [hres, countRead_undisturbed measured up hq hdiv hpos]
    · rw [hres, countRead_stopped measured up hzero, Nat.zero_mod]

end Sys2Proof.Machine
end

