-- ==== Sys2Proof/Proofs/VolatileLoss.lean ====
section
/-!
SUPPORT. Proofs/VolatileLoss.lean: what a loss of every volatile content leaves, and the registers that follow from the key store
(R370, R458, R459).
-/
namespace Sys2Proof.Machine

set_option Elab.async false

/-! ### The registers of the key store (R458) -/

def secViewFlds : List Fld := [Reg.SEC_STATUS_OWNED, Reg.SEC_STATUS_OWNER_SLOT, Reg.SEC_STATUS_LEASES, Reg.SEC_STATUS_COUNTERSIGN,
  Reg.SEC_STATUS_ERASING, Reg.SEC_STATUS_GLITCH_LOCK, Reg.SEC_GLITCH_SINCE_ACK, Reg.SEC_GLITCH_TOTAL]

/-- The registers that show the key store. -/
def secViewKey (k : Nat) : Bool := oneOf (secViewFlds ++ (List.range 16).map Reg.SEC_LEASE_STATE_SLOT) k

theorem secViewKey_flds : ∀ f ∈ secViewFlds, secViewKey (fldKey f .a) = true := by decide

theorem secViewKey_slot {n : Nat} (h : n < 16) : secViewKey (fldKey (Reg.SEC_LEASE_STATE_SLOT n) .a) = true :=
  oneOf_mem (List.mem_append_right _ (List.mem_map_of_mem (List.mem_range.mpr h)))

/-- What is written of the key store but the states of the lease slots. -/
def secSummary (s : State) : State :=
  let k := s.sec.ks
  setF (setF (setF (setF (setB (setF (setF (setB s Reg.SEC_STATUS_OWNED (!k.owner.isEmpty)) Reg.SEC_STATUS_OWNER_SLOT
    (k.ownerSlots - 1)) Reg.SEC_STATUS_LEASES (leaseCount k)) Reg.SEC_STATUS_COUNTERSIGN k.countersign)
    Reg.SEC_STATUS_ERASING (b2n (!k.erasing.isEmpty))) Reg.SEC_STATUS_GLITCH_LOCK (b2n (decide (16 ≤ k.glitchAck))))
    Reg.SEC_GLITCH_SINCE_ACK (min k.glitchAck 255)) Reg.SEC_GLITCH_TOTAL (min k.glitchTotal 0xFFFFFF)

def leaseSlotState (k : KeyStore) (n : Nat) : Nat := match k.leases[n]? with | some l => l.st | none => 0

theorem secView_eq (s : State) :
    secView s = (List.range 16).foldl (fun t n => setF t (Reg.SEC_LEASE_STATE_SLOT n) (leaseSlotState s.sec.ks n)) (secSummary s) := rfl

theorem secSummary_touches (s : State) : Touches [.flds] secViewKey s (secSummary s) :=
  .setF (.setF (.setF (.setF (.setF (.setF (.setF (.setF (.refl s))))))))

theorem slotsShown_touches (k : KeyStore) (s : State) :
    Touches [.flds] secViewKey s ((List.range 16).foldl (fun t n => setF t (Reg.SEC_LEASE_STATE_SLOT n) (leaseSlotState k n)) s) := by
  have hslots : ∀ ns : List Nat, (∀ n ∈ ns, n < 16) → ∀ t,
      Touches [.flds] secViewKey t (ns.foldl (fun t n => setF t (Reg.SEC_LEASE_STATE_SLOT n) (leaseSlotState k n)) t) := by
    intro ns
    induction ns with
    | nil => exact fun _ t => .refl t
    | cons n ns ih =>
      intro h t
      exact (Touches.setF (.refl t) (secViewKey_slot (h n List.mem_cons_self))).trans (ih (fun m hm => h m (List.mem_cons_of_mem _ hm)) _)
  exact hslots _ (fun n => List.mem_range.mp) s

theorem secView_touches (s : State) : Touches [.flds] secViewKey s (secView s) := by
  rw [secView_eq]
  exact (secSummary_touches s).trans (slotsShown_touches s.sec.ks _)

theorem sec_secView (s : State) : (secView s).sec = s.sec := (secView_touches s).parts .sec (by decide)

theorem putKs_touches (s : State) (k : KeyStore) : Touches [.flds, .sec] secViewKey s (putKs s k) :=
  (Touches.keep (.refl s) (sec_kept s _)).step (secView_touches _) (by decide) fun _ => id

theorem sec_putKs (s : State) (k : KeyStore) : (putKs s k).sec = { s.sec with ks := k } := sec_secView _

theorem ks_putKs (s : State) (k : KeyStore) : (putKs s k).sec.ks = k := by rw [sec_putKs]

/-! ### Everything volatile is lost (R370, R459) -/

/-- The parts that a loss of volatile content speaks of. -/
def lossParts : List Part := [.flds, .boot, .pwr, .out, .clk, .ledger, .ledgerSeq, .nvFault, .vflashLatched, .now]

/-- What the power manager, the clocks, power-up and the key store note beside a loss is not volatile content. -/
theorem VolatileLost.carry {s t u : State} (h : VolatileLost s t) (k : keptBut (.sec :: lossParts) t u)
    (hopen : u.sec.sessions = t.sec.sessions ∧ u.sec.packages = t.sec.packages)
    (hkeys : u.sec.ks.owner = t.sec.ks.owner ∧ u.sec.ks.leases = t.sec.ks.leases ∧ u.sec.ks.rollback = t.sec.ks.rollback) :
    VolatileLost s u := by
  obtain ⟨hsessions, hpackages⟩ := hopen
  obtain ⟨howner, hleases, hrollback⟩ := hkeys
  unfold VolatileLost at *
  rwa [show u.mem = t.mem from k .mem rfl, show u.marks = t.marks from k .marks rfl, show u.accs = t.accs from k .accs rfl,
    show u.cores = t.cores from k .cores rfl, show u.extents = t.extents from k .extents rfl, show u.ctxs = t.ctxs from k .ctxs rfl,
    show u.pages = t.pages from k .pages rfl, show u.prefs = t.prefs from k .prefs rfl, show u.img = t.img from k .img rfl,
    show u.portion = t.portion from k .portion rfl, show u.inbox = t.inbox from k .inbox rfl, show u.wts = t.wts from k .wts rfl,
    show u.ctl = t.ctl from k .ctl rfl, show u.fab = t.fab from k .fab rfl, hsessions, hpackages, howner, hleases, hrollback,
    show u.cardSerial = t.cardSerial from k .cardSerial rfl, show u.cardSeated = t.cardSeated from k .cardSeated rfl,
    show u.pending = t.pending from k .pending rfl]

theorem VolatileLost.keep {s t u : State} (h : VolatileLost s t) (k : keptBut lossParts t u) : VolatileLost s u := by
  have hsec : u.sec = t.sec := k .sec rfl
  exact h.carry (k.mono fun p => List.mem_cons_of_mem _) ⟨by rw [hsec], by rw [hsec]⟩ ⟨by rw [hsec], by rw [hsec], by rw [hsec]⟩

/-- What precedes a loss may change registers, and what is volatile. -/
theorem VolatileLost.from {s t u : State} (h : VolatileLost t u) (hsec : t.sec.ks.owner = s.sec.ks.owner ∧ t.sec.ks.leases = s.sec.ks.leases ∧
    t.sec.ks.rollback = s.sec.ks.rollback) (hcards : t.cardSerial = s.cardSerial ∧ t.cardSeated = s.cardSeated) (hq : t.pending = s.pending) :
    VolatileLost s u := by
  obtain ⟨howner, hleases, hrollback⟩ := hsec
  obtain ⟨hserial, hseated⟩ := hcards
  unfold VolatileLost at *
  rwa [← howner, ← hleases, ← hrollback, ← hserial, ← hseated, ← hq]

theorem fencesLogged_kept (cs vs : List Nat) (s : State) : keptBut [.ledger, .ledgerSeq] s
    (vs.foldl (fun t v => ledgerVault 1 v t) (cs.foldl (fun t c => ledgerFence 1 c 0 t) s)) :=
  (keptBut_trans (foldl_kept cs s fun _ _ => ledgerAdd_kept _ _ _) (foldl_kept vs _ fun _ _ => ledgerAdd_kept _ _ _)).mono (by decide)

theorem fenceAtReset_kept (s : State) : keptBut [.ledger, .ledgerSeq, .sec] s (fenceAtReset s) :=
  (keptBut_trans (fencesLogged_kept (pendingCores s) (pendingVaults s) s) (sec_kept _ _)).mono (by decide)

theorem sec_fenceAtReset (s : State) : ∃ cs vs, (fenceAtReset s).sec = { s.sec with ks.fenceCores := cs, ks.fenceVaults := vs } := by
  have hsec := fencesLogged_kept (pendingCores s) (pendingVaults s) s .sec (by decide)
  exact ⟨_, _, congrArg (fun x : SecSt => { x with
    ks.fenceCores := (pendingCores s).foldl listAdd x.ks.fenceCores, ks.fenceVaults := (pendingVaults s).foldl listAdd x.ks.fenceVaults }) hsec⟩

theorem volatileLost_spec (s : State) : VolatileLost s (volatileLost s) := by
  obtain ⟨cs, vs, hsec⟩ := sec_fenceAtReset s
  have hkept := fenceAtReset_kept s
  have hks : (volatileLost s).sec.ks = { s.sec.ks with fenceCores := cs, fenceVaults := vs } := congrArg SecSt.ks hsec
  refine ⟨rfl, rfl, rfl, rfl, rfl, rfl, rfl, rfl, rfl, rfl, rfl, rfl, rfl, rfl, rfl, rfl, ?_, ?_, ?_, hkept .cardSerial rfl,
    hkept .cardSeated rfl, hkept .pending rfl⟩
  · rw [hks]
  · rw [hks]
  · rw [hks]

end Sys2Proof.Machine
end

