-- ==== Sys2Proof/Proofs/References.lean ====
section
/-!
SUPPORT. Proofs/References.lean: references that are lost and come back, the switches between them, and holdover (R371, R382 to R385),
against O49.
-/
namespace Sys2Proof.Machine

set_option Elab.async false

/-! ### The reference bits (R382) -/

def refStatusFlds : List Fld :=
  [Reg.CLK_REF_STATUS_REF_A_OK, Reg.HOST_PORT_A_REF_OK, Reg.CLK_REF_STATUS_REF_B_OK, Reg.HOST_PORT_B_REF_OK]

theorem setRefOk_touches (p : Port) (v : Bool) (s : State) : Touches [.flds] (oneOf refStatusFlds) s (setRefOk p v s) := by
  cases p
  · exact .setF (.setF (.refl s))
  · exact .setF (.setF (.refl s))

theorem refOk_setRefOk_self (p : Port) (v : Bool) (s : State) : refOk (setRefOk p v s) p = v := by
  cases p <;> exact (getB_setB_ne (by decide)).trans (getB_setB_self s _ v (by decide))

theorem refOk_setRefOk_other (p : Port) (v : Bool) (s : State) : refOk (setRefOk p v s) (otherPort p) = refOk s (otherPort p) := by
  cases p <;> exact (getB_setB_ne (by decide)).trans (getB_setB_ne (by decide))

/-- A chain that leaves the status bits of the references alone. -/
theorem Touches.refOk {l : List Part} {K : Nat → Bool} {s t : State} (h : Touches l K s t)
    (hK : ∀ f ∈ [Reg.CLK_REF_STATUS_REF_A_OK, Reg.CLK_REF_STATUS_REF_B_OK], K (fldKey f .a) = false) (p : Port) : refOk t p = refOk s p := by
  cases p
  · exact h.getB (hK _ (by simp))
  · exact h.getB (hK _ (by simp))

theorem Touches.srcActive {l : List Part} {K : Nat → Bool} {s t : State} (h : Touches l K s t)
    (hK : K (fldKey Reg.CLK_REF_STATUS_SRC_ACTIVE .a) = false := by decide) : srcActive t = srcActive s := by
  simp only [Machine.srcActive, h.getF hK]

theorem Touches.portUp {l : List Part} {K : Nat → Bool} {s t : State} (h : Touches l K s t)
    (hK : ∀ p, K (fldKey (upFld p) .a) = false) (p : Port) : portUp t p = portUp s p := by
  cases p
  · exact h.getB (hK .a)
  · exact h.getB (hK .b)

/-- Codes in force that a chain leaves alone. -/
theorem Touches.codes {l : List Part} {K : Nat → Bool} {s t : State} (h : Touches l K s t)
    (hK : ∀ d ∈ rampDomains, K (fldKey (codeFld d) .a) = false) {ds : List Nat} (hds : ∀ d ∈ ds, d ∈ rampDomains) :
    (ds.map fun d => getF t (codeFld d)) = ds.map fun d => getF s (codeFld d) :=
  List.map_congr_left fun d hd => h.getF (hK d (hds d hd))

/-- The reference's bits are noted with the time. -/
def refNoted (p : Port) (v : Bool) (time : Nat) (s : State) : State := setRefOk p v (atTime time s)

def refKey (k : Nat) : Bool := pmcKey k || oneOf refStatusFlds k

section
variable (p : Port) (v : Bool) (time : Nat) (s : State)

theorem refNoted_touches : Touches [.flds, .now] refKey s (refNoted p v time s) :=
  ((Touches.refl s).now fun k e => (Bool.or_eq_false_iff.mp e).1).step (setRefOk_touches p v _) (by decide)
    fun k e => (Bool.or_eq_false_iff.mp e).2

theorem refOk_refNoted_self : refOk (refNoted p v time s) p = v := refOk_setRefOk_self p v _

theorem refOk_refNoted_other : refOk (refNoted p v time s) (otherPort p) = refOk s (otherPort p) :=
  (refOk_setRefOk_other p v _).trans ((atTime_touches time s).refOk (by decide) _)

theorem clk_refNoted : (refNoted p v time s).clk = s.clk := (refNoted_touches p v time s).parts .clk (by decide)

end

/-! ### Switches (R383, R384) -/

/-- The switch that starts now: its domains' codes are those to ramp back to. -/
def newSwitch (want : Option Port) (time : Nat) (s : State) : ClkSwitch :=
  ⟨0, want, srcActive s, time, (List.range 32).map fun d => getF s (codeFld d), [64, 65, 66, 67].map fun d => getF s (codeFld d)⟩

def switchKey (k : Nat) : Bool := irqKey k || oneOf [Reg.CLK_REF_STATUS_HOLDOVER, Reg.CLK_REF_STATUS_SWITCH_BUSY] k

/-- Holdover begins. -/
def heldOver (want : Option Port) (time : Nat) (s : State) : State :=
  let s1 := setF (setF s Reg.CLK_REF_STATUS_HOLDOVER 1) Reg.CLK_REF_STATUS_SWITCH_BUSY 1
  { s1 with clk.sw := some (newSwitch want time s), clk.fcDist := [true, true] }

theorem startSwitch_eq (want : Option Port) (time : Nat) (s : State) :
    startSwitch want time s = switchIrq want (srcActive s) (heldOver want time s) := rfl

theorem switchIrq_touches (want : Option Port) (former : Port) (s : State) : Touches irqParts irqKey s (switchIrq want former s) :=
  .ite (.irqBoth (.refl s) (by decide) fun _ => id) (.refl s)

theorem clk_switchIrq (want : Option Port) (former : Port) (s : State) : (switchIrq want former s).clk = s.clk :=
  (switchIrq_touches want former s).parts .clk (by decide)

theorem switchIrq_former (former : Port) (s : State) : switchIrq (some former) former s = s := if_neg (by cases former <;> decide)

section
variable (want : Option Port) (time : Nat) (s : State)

theorem heldOver_touches : Touches [.flds, .clk] (oneOf [Reg.CLK_REF_STATUS_HOLDOVER, Reg.CLK_REF_STATUS_SWITCH_BUSY]) s (heldOver want time s) :=
  .keep (.setF (.setF (.refl s))) (clk_kept _ _)

theorem heldOver_regs : getB (heldOver want time s) Reg.CLK_REF_STATUS_HOLDOVER = true ∧
    getB (heldOver want time s) Reg.CLK_REF_STATUS_SWITCH_BUSY = true :=
  ⟨(getB_setB_ne (f := Reg.CLK_REF_STATUS_SWITCH_BUSY) (b := true) (by decide)).trans
      (getB_setB_self s Reg.CLK_REF_STATUS_HOLDOVER true (by decide)),
    getB_setB_self (setF s Reg.CLK_REF_STATUS_HOLDOVER 1) Reg.CLK_REF_STATUS_SWITCH_BUSY true (by decide)⟩

theorem startSwitch_touches : Touches (.clk :: irqParts) switchKey s (startSwitch want time s) := by
  rw [startSwitch_eq]
  exact ((heldOver_touches want time s).mono (by decide) fun k e => (Bool.or_eq_false_iff.mp e).2).step (switchIrq_touches _ _ _) (by decide)
    fun k e => (Bool.or_eq_false_iff.mp e).1

theorem startSwitch_spec : getB (startSwitch want time s) Reg.CLK_REF_STATUS_HOLDOVER = true ∧
    getB (startSwitch want time s) Reg.CLK_REF_STATUS_SWITCH_BUSY = true ∧ (startSwitch want time s).clk.sw = some (newSwitch want time s) := by
  have hirq := switchIrq_touches want (srcActive s) (heldOver want time s)
  obtain ⟨hhold, hbusy⟩ := heldOver_regs want time s
  rw [startSwitch_eq]
  exact ⟨(hirq.getB (by decide)).trans hhold, (hirq.getB (by decide)).trans hbusy, congrArg ClkSt.sw (clk_switchIrq _ _ _)⟩

end

/-- A switch is that of a state whose codes and source read the same. -/
theorem newSwitch_congr {l : List Part} {K : Nat → Bool} {s t : State} (h : Touches l K s t)
    (hcodes : ∀ d ∈ rampDomains, K (fldKey (codeFld d) .a) = false) (hsrc : K (fldKey Reg.CLK_REF_STATUS_SRC_ACTIVE .a) = false)
    (want : Option Port) (time : Nat) : newSwitch want time t = newSwitch want time s := by
  rw [newSwitch, newSwitch, h.srcActive hsrc, h.codes hcodes (ds := List.range 32) (by decide), h.codes hcodes (ds := [64, 65, 66, 67]) (by decide)]

/-- Every domain that runs stands at the divider that the switch wants of it. -/
def atDividers (s : State) : Bool :=
  rampDomains.all fun d => getF s (codeFld d) == goalCode s d || (decide (d < 32) && !aclkRuns s d)

/-- The PLL relocks. -/
def relocking (w : ClkSwitch) (s : State) : State :=
  setF { s with clk.sw := some { w with phase := 1 } } Reg.CLK_REF_STATUS_PLL_LOCK 0

/-- The switch has ended. -/
def switchDone (s : State) : State :=
  setF (setF { s with clk.sw := none } Reg.CLK_REF_STATUS_SWITCH_BUSY 0) Reg.CLK_REF_STATUS_SWITCH_STATUS 0

/-- What a switch that has moved the module to another source counts. -/
def switchCounted (s : State) : State :=
  irqBoth 6 (setF s Reg.CLK_REF_STATUS_SWITCHES (min 0xFFFF (getF s Reg.CLK_REF_STATUS_SWITCHES + 1)))

def switchEndKey (k : Nat) : Bool :=
  irqKey k || oneOf [Reg.CLK_REF_STATUS_SWITCH_BUSY, Reg.CLK_REF_STATUS_SWITCH_STATUS, Reg.CLK_REF_STATUS_SWITCHES] k

theorem switchDone_spec (s : State) : getB (switchDone s) Reg.CLK_REF_STATUS_SWITCH_BUSY = false ∧
    getF (switchDone s) Reg.CLK_REF_STATUS_SWITCH_STATUS = 0 ∧ Touches (.clk :: irqParts) switchEndKey s (switchDone s) := by
  have hbusy : getF (switchDone s) Reg.CLK_REF_STATUS_SWITCH_BUSY = 0 % 2 ^ 1 :=
    (getF_setF_ne (by decide)).trans (getF_setF_self { s with clk.sw := none } Reg.CLK_REF_STATUS_SWITCH_BUSY 0)
  exact ⟨getB_of_getF (b := false) hbusy rfl, getF_setF_self _ _ _, .setF (.setF (.keep (.refl s) (clk_kept _ _)))⟩

theorem switchCounted_touches (s : State) :
    Touches irqParts (fun k => irqKey k || oneOf [Reg.CLK_REF_STATUS_SWITCHES] k) s (switchCounted s) :=
  .irqBoth (.setF (.refl s)) (by decide) fun k e => (Bool.or_eq_false_iff.mp e).1

section
variable {s : State} {w : ClkSwitch} (hsw : s.clk.sw = some w)
include hsw

theorem switchAdvance_away (h : ¬ atDividers s = true) : switchAdvance s = s := by
  unfold switchAdvance
  rw [hsw]
  exact if_pos (show (!atDividers s) = true by simpa using h)

theorem switchAdvance_relocks (h : atDividers s = true) (hph : w.phase = 0) (hwant : w.want.isSome = true) :
    switchAdvance s = relocking w s := by
  unfold switchAdvance
  rw [hsw]
  exact (if_neg (show ¬(!atDividers s) = true by simp [h])).trans ((if_pos hph).trans (if_pos hwant))

theorem switchAdvance_ends (h : atDividers s = true) (hph : w.phase = 2) :
    switchAdvance s = if w.want != some w.former then switchCounted (switchDone s) else switchDone s := by
  unfold switchAdvance
  rw [hsw]
  exact (if_neg (show ¬(!atDividers s) = true by simp [h])).trans ((if_neg (by omega)).trans (if_pos hph))

/-- R383: at the switch dividers the relock begins, once a reference is to be taken. -/
theorem switchAdvance_waiting (hph : w.phase = 0) (hwant : w.want.isSome = true) : ∃ ph, ph ≤ 1 ∧
    (switchAdvance s).clk.sw = some { w with phase := ph } ∧ Touches [.flds, .clk] (oneOf [Reg.CLK_REF_STATUS_PLL_LOCK]) s (switchAdvance s) := by
  by_cases hat : atDividers s = true
  · rw [switchAdvance_relocks hsw hat hph hwant]
    exact ⟨1, le_rfl, rfl, .setF (.keep (.refl s) (clk_kept _ _))⟩
  · have hsame : some w = some { w with phase := 0 } := by rw [← hph]
    rw [switchAdvance_away hsw hat]
    exact ⟨0, Nat.zero_le 1, hsw.trans hsame, .refl s⟩

/-- R383: with the domains back the switch ends. -/
theorem switchAdvance_ramping (hph : w.phase = 2) : Touches (.clk :: irqParts) switchEndKey s (switchAdvance s) ∧
    ((switchAdvance s).clk.sw = some w ∨ (switchAdvance s).clk.sw = none ∧
      getB (switchAdvance s) Reg.CLK_REF_STATUS_SWITCH_BUSY = false ∧ getF (switchAdvance s) Reg.CLK_REF_STATUS_SWITCH_STATUS = 0) := by
  by_cases hat : atDividers s = true
  · obtain ⟨hbusy, hst, hdone⟩ := switchDone_spec s
    rw [switchAdvance_ends hsw hat hph]
    by_cases hmoved : (w.want != some w.former) = true
    · have hcount := switchCounted_touches (switchDone s)
      rw [if_pos hmoved]
      refine ⟨hdone.step hcount (by decide) fun k e => ?_, .inr ⟨congrArg ClkSt.sw (hcount.parts .clk (by decide)),
        (hcount.getB (by decide)).trans hbusy, (hcount.getF (by decide)).trans hst⟩⟩
      obtain ⟨hirq, hflds⟩ := Bool.or_eq_false_iff.mp e
      rw [hirq, oneOf_mono (by decide) hflds]
      rfl
    · rw [if_neg hmoved]
      exact ⟨hdone, .inr ⟨rfl, hbusy, hst⟩⟩
  · rw [switchAdvance_away hsw hat]
    exact ⟨.refl s, .inl hsw⟩

end

end Sys2Proof.Machine
end

