-- ==== Sys2Proof/Proofs/ReferenceCommands.lean ====
section
/-!
SUPPORT. Proofs/ReferenceCommands.lean: the commands of the reference and its switches (R371, R382 to R385), against O49.
-/
namespace Sys2Proof.Machine

set_option Elab.async false

/-! ### The first lock (R371) -/

/-- What the first lock of the root PLL writes. -/
def lockWrites (refA refB : Bool) (tpos unstable : Nat) : List (Fld × Nat) :=
  [(Reg.CLK_REF_STATUS_REF_A_OK, b2n refA), (Reg.HOST_PORT_A_REF_OK, b2n refA), (Reg.CLK_REF_STATUS_REF_B_OK, b2n refB),
   (Reg.HOST_PORT_B_REF_OK, b2n refB), (Reg.CLK_REF_STATUS_SRC_ACTIVE, if refA then 0 else 1), (Reg.ID_MODULE_TPOS, (tpos ||| unstable) % 8),
   (Reg.HOST_SIDEBAND_TPOS, (tpos ||| unstable) % 8), (Reg.HOST_SIDEBAND_TPOS_UNSTABLE, b2n (decide (0 < unstable)))]

def lockFlds : List Fld := refStatusFlds ++ [Reg.CLK_REF_STATUS_SRC_ACTIVE, Reg.ID_MODULE_TPOS, Reg.HOST_SIDEBAND_TPOS,
  Reg.HOST_SIDEBAND_TPOS_UNSTABLE]

theorem lockFlds_nodup : (lockFlds.map fun f => fldKey f .a).Nodup := by decide

theorem lockFlds_view : ∀ f ∈ lockFlds, oneOf clockViewFlds (fldKey f .a) = false := by decide

section
variable (refA refB : Bool) (tpos unstable : Fin 8) (time : Nat) (s : State)

/-- The module has locked: its references, straps and filters are noted. -/
def locked : State :=
  let u := setPort .a (atTime time s) (lockWrites refA refB tpos unstable)
  { u with boot.stage := .locked, boot.portA.perstAt := some time, boot.portB.perstAt := some time }

theorem lockWrites_fits : ∀ w ∈ lockWrites refA refB tpos unstable, w.2 < 2 ^ w.1.len := by
  have hbit : ∀ b : Bool, b2n b < 2 := by decide
  have hsrc : (if refA then 0 else 1) < 2 := by cases refA <;> decide
  have hpos : (tpos.val ||| unstable.val) % 8 < 8 := Nat.mod_lt _ (by decide)
  simp only [lockWrites, List.forall_mem_cons]
  exact ⟨hbit _, hbit _, hbit _, hbit _, hsrc, hpos, hpos, hbit _, nofun⟩

theorem locked_kept : keptBut [.flds, .boot, .now] s (locked refA refB tpos unstable time s) :=
  (keptBut_trans (keptBut_trans (atTime_touches time s).parts (setPort_kept .a _ _)) (boot_kept _ _)).mono (by decide)

theorem getF_locked : ∀ w ∈ lockWrites refA refB tpos unstable, getF (clockView (locked refA refB tpos unstable time s)) w.1 = w.2 := by
  intro w hw
  have hview := (clockView_touches (locked refA refB tpos unstable time s)).getF (lockFlds_view w.1 (List.mem_map_of_mem hw))
  have hflds : (locked refA refB tpos unstable time s).flds = (setPort .a (atTime time s) (lockWrites refA refB tpos unstable)).flds :=
    boot_kept _ _ .flds (by decide)
  exact hview.trans ((getF_congr hflds _).trans (getP_setPort_fits lockFlds_nodup (lockWrites_fits refA refB tpos unstable) w hw))

theorem exec_pllLock_not (h : s.boot.stage ≠ .boot ∨ refA = false ∧ refB = false) : exec (.pllLock refA refB tpos unstable time) s = .next s := by
  refine congrArg Host.Outcome.next (if_neg ?_)
  rintro ⟨hb, hr⟩
  obtain h | ⟨hA, hB⟩ := h
  · exact h hb
  · simp [hA, hB] at hr

theorem exec_pllLock (hb : s.boot.stage = .boot) (hr : refA = true ∨ refB = true) :
    exec (.pllLock refA refB tpos unstable time) s = .next (clockView (locked refA refB tpos unstable time s)) :=
  congrArg Host.Outcome.next (if_pos ⟨hb, hr⟩)

theorem pllLock_spec : let t := clockView (locked refA refB tpos unstable time s)
    t.boot.stage = .locked ∧ refOk t .a = refA ∧ refOk t .b = refB ∧ srcActive t = (if refA then .a else .b) ∧
      getF t Reg.ID_MODULE_TPOS = tpos.val ||| unstable.val ∧ getF t Reg.HOST_SIDEBAND_TPOS = tpos.val ||| unstable.val ∧
      getB t Reg.HOST_SIDEBAND_TPOS_UNSTABLE = decide (0 < unstable.val) ∧ t.boot.portA.perstAt = some time ∧ t.boot.portB.perstAt = some time ∧
      keptBut [.flds, .boot, .now] s t := by
  have hread := getF_locked refA refB tpos unstable time s
  simp only [lockWrites, List.forall_mem_cons] at hread
  obtain ⟨hA, -, hB, -, hsrc, hpos, hside, hunst, -⟩ := hread
  have hbit {b : Bool} : (b2n b == 1) = b := by cases b <;> rfl
  have hor : (tpos.val ||| unstable.val) % 8 = tpos.val ||| unstable.val :=
    Nat.mod_eq_of_lt (Nat.or_lt_two_pow (n := 3) tpos.isLt unstable.isLt)
  rw [hor] at hpos hside
  refine ⟨rfl, (congrArg (· == 1) hA).trans hbit, (congrArg (· == 1) hB).trans hbit, ?_, hpos, hside, (congrArg (· == 1) hunst).trans hbit, rfl, rfl,
    (keptBut_trans (locked_kept refA refB tpos unstable time s) (clockView_touches _).parts).mono (by decide)⟩
  rw [srcActive, hsrc]
  cases refA <;> rfl

end

/-! ### A reference that is lost or OK again (R382, R384) -/

section
variable {s : State} {p : Port} (time : Nat)

/-- The reference that takes over at once. -/
def failover (p : Port) (s : State) : Option Port :=
  if refOk s (otherPort p) = true ∧ getB s Reg.CLK_REF_CTL_AUTO_FAILOVER = true then some (otherPort p) else none

theorem failover_refNoted (p : Port) (v : Bool) (time : Nat) (s : State) : failover p (refNoted p v time s) = failover p s := by
  rw [failover, failover, refOk_refNoted_other, (refNoted_touches p v time s).getB (by decide)]

theorem refKey_codeFld : ∀ d ∈ rampDomains, refKey (fldKey (codeFld d) .a) = false := by decide

theorem exec_referenceLost_unclocked (hc : clocked s = false) : exec (.referenceLost p time) s = .next s :=
  congrArg Host.Outcome.next (if_pos (by simp [hc]))

theorem exec_referenceOk_unclocked (hc : clocked s = false) : exec (.referenceOk p time) s = .next s :=
  congrArg Host.Outcome.next (if_pos (by simp [hc]))

section
variable (hup : portUp s p = false)
include hup

theorem portDown_refNoted : portDown p (refNoted p false time s) = refNoted p false time s := by
  refine if_pos ?_
  rw [(refNoted_touches p false time s).portUp (fun q => by cases q <;> decide), hup]
  rfl

/-- What a lost reference comes to once it is noted, its port being down already. -/
def refLost (p : Port) (time : Nat) (s1 : State) : State :=
  match s1.clk.sw with
  | some w =>
    if w.phase < 2 ∧ w.want = some p then
      let back := if p ≠ w.former ∧ refOk s1 w.former ∧ getB s1 Reg.CLK_REF_CTL_AUTO_FAILOVER then some w.former
        else if p = w.former ∧ refOk s1 (otherPort p) ∧ getB s1 Reg.CLK_REF_CTL_AUTO_FAILOVER then some (otherPort p) else none
      let s2 := setF (setF s1 Reg.CLK_REF_STATUS_HOLDOVER 1) Reg.CLK_REF_STATUS_PLL_LOCK 1
      switchAdvance { s2 with clk.sw := some { w with phase := 0, want := back, since := time } }
    else if w.phase = 2 ∧ srcActive s1 = p then
      let s2 := setF s1 Reg.CLK_REF_STATUS_HOLDOVER 1
      switchIrq (failover p s1) p { s2 with clk.fcDist := [true, true], clk.sw := some { w with phase := 0, former := p, since := time, want := failover p s1 } }
    else s1
  | none => if srcActive s1 = p then startSwitch (failover p s1) time s1 else s1

theorem exec_referenceLost (hc : clocked s = true) : exec (.referenceLost p time) s = .next (refLost p time (refNoted p false time s)) := by
  refine congrArg Host.Outcome.next ((if_neg (by simp [hc])).trans ?_)
  exact congrArg (refLost p time) (portDown_refNoted time hup)

end

theorem refLost_inactive {u : State} (hsw : u.clk.sw = none) (h : srcActive u ≠ p) : refLost p time u = u := by
  rw [refLost, hsw]
  exact if_neg h

theorem refLost_active {u : State} (hsw : u.clk.sw = none) (h : srcActive u = p) : refLost p time u = startSwitch (failover p u) time u := by
  rw [refLost, hsw]
  exact if_pos h

theorem refLost_other {u : State} {w : ClkSwitch} (hsw : u.clk.sw = some w) (hph : w.phase < 2) (hw : w.want ≠ some p) : refLost p time u = u := by
  rw [refLost, hsw]
  exact (if_neg fun h => hw h.2).trans (if_neg fun h => by omega)

/-- R383: a lost source in use starts a switch from the codes in force. -/
theorem referenceLost_switches (hsrc : srcActive s = p) :
    let t := startSwitch (failover p s) time (refNoted p false time s)
    refOk t p = false ∧ srcActive t = p ∧ getB t Reg.CLK_REF_STATUS_HOLDOVER = true ∧ getB t Reg.CLK_REF_STATUS_SWITCH_BUSY = true ∧
      t.clk.sw = some ⟨0, failover p s, p, time, (List.range 32).map fun d => getF s (codeFld d), [64, 65, 66, 67].map fun d => getF s (codeFld d)⟩ ∧
      keptBut (.clk :: .now :: irqParts) s t := by
  have hnoted := refNoted_touches p false time s
  have hstart := startSwitch_touches (failover p s) time (refNoted p false time s)
  obtain ⟨hhold, hbusy, hsw⟩ := startSwitch_spec (failover p s) time (refNoted p false time s)
  refine ⟨?_, ?_, hhold, hbusy, ?_, (keptBut_trans hnoted.parts hstart.parts).mono (by decide)⟩
  · rw [hstart.refOk (by decide), refOk_refNoted_self]
  · rw [hstart.srcActive, hnoted.srcActive, hsrc]
  · rw [hsw, newSwitch_congr hnoted refKey_codeFld (by decide), newSwitch, hsrc]

section
variable (hc : clocked s = true)
include hc

theorem exec_referenceOk_idle (hsw : s.clk.sw = none) : exec (.referenceOk p time) s = .next (refNoted p true time s) := by
  refine congrArg Host.Outcome.next ((if_neg (by simp [hc])).trans ?_)
  have hclk : (setRefOk p true (atTime time s)).clk.sw = none := (congrArg ClkSt.sw (clk_refNoted p true time s)).trans hsw
  dsimp only
  rw [hclk]
  rfl

/-- The switch that waits takes the reference. -/
def refTaken (p : Port) (w : ClkSwitch) (s : State) : State :=
  switchAdvance (switchIrq (some p) w.former { s with clk.sw := some { w with want := some p } })

theorem exec_referenceOk_taken {w : ClkSwitch} (hsw : s.clk.sw = some w) (hw : w.want = none) :
    exec (.referenceOk p time) s = .next (refTaken p w (refNoted p true time s)) := by
  refine congrArg Host.Outcome.next ((if_neg (by simp [hc])).trans ?_)
  have hclk : (setRefOk p true (atTime time s)).clk.sw = some w := (congrArg ClkSt.sw (clk_refNoted p true time s)).trans hsw
  dsimp only
  rw [hclk]
  exact if_pos (by rw [hw]; rfl)

end

def takenKey (k : Nat) : Bool := irqKey k || oneOf [Reg.CLK_REF_STATUS_PLL_LOCK] k

/-- A switch at its start that takes a reference. -/
theorem refTaken_spec (p : Port) {w : ClkSwitch} (hph : w.phase = 0) (s : State) : ∃ ph, ph ≤ 1 ∧
    (refTaken p w s).clk.sw = some { w with phase := ph, want := some p } ∧ Touches (.clk :: irqParts) takenKey s (refTaken p w s) := by
  have hirq := switchIrq_touches (some p) w.former { s with clk.sw := some { w with want := some p } }
  have hsw : (switchIrq (some p) w.former { s with clk.sw := some { w with want := some p } }).clk.sw = some { w with want := some p } :=
    congrArg ClkSt.sw (clk_switchIrq _ _ _)
  obtain ⟨ph, hle, hadv, hkept⟩ := switchAdvance_waiting hsw hph rfl
  refine ⟨ph, hle, hadv, ?_⟩
  have hset : Touches (.clk :: irqParts) takenKey s { s with clk.sw := some { w with want := some p } } := .keep (.refl s) (clk_kept s _)
  exact (hset.step hirq (by decide) fun k e => (Bool.or_eq_false_iff.mp e).1).step hkept (by decide) fun k e => (Bool.or_eq_false_iff.mp e).2

end

/-! ### Selecting a source (R383, R385, R387) -/

/-- The source that a write of CLK_REF_CTL asks for. -/
def askedSource (v : BitVec 32) : Port := if bit v.toNat 0 then .b else .a

/-- Behind a LOCK the write leaves the fields of the limit alone. -/
def limitSet (v : BitVec 32) (lck : Bool) (s : State) : State :=
  if lck then s else setF (setB s Reg.CLK_REF_CTL_AUTO_FAILOVER (bit v.toNat 1)) Reg.CLK_REF_CTL_HOLDOVER_LIMIT (bitsAt v.toNat 8 7)

/-- What the fields of the limit read behind the write. -/
def LimitRead (v : BitVec 32) (lck : Bool) (s t : State) : Prop :=
  if lck then getF t Reg.CLK_REF_CTL_AUTO_FAILOVER = getF s Reg.CLK_REF_CTL_AUTO_FAILOVER ∧
      getF t Reg.CLK_REF_CTL_HOLDOVER_LIMIT = getF s Reg.CLK_REF_CTL_HOLDOVER_LIMIT
    else getB t Reg.CLK_REF_CTL_AUTO_FAILOVER = bit v.toNat 1 ∧ getF t Reg.CLK_REF_CTL_HOLDOVER_LIMIT = bitsAt v.toNat 8 7

def limitFlds : List Fld := [Reg.CLK_REF_CTL_AUTO_FAILOVER, Reg.CLK_REF_CTL_HOLDOVER_LIMIT]

theorem limitSet_touches (v : BitVec 32) (lck : Bool) (s : State) : Touches [.flds] (oneOf limitFlds) s (limitSet v lck s) :=
  .ite (.refl s) (.setF (.setF (.refl s)))

theorem limitSet_read (v : BitVec 32) (lck : Bool) (s : State) : LimitRead v lck s (limitSet v lck s) := by
  cases lck with
  | true => exact ⟨rfl, rfl⟩
  | false =>
    have hauto : getB (limitSet v false s) Reg.CLK_REF_CTL_AUTO_FAILOVER = bit v.toNat 1 :=
      congrArg (· == 1) (getF_setF_ne (by decide)) |>.trans (getB_setB_self s Reg.CLK_REF_CTL_AUTO_FAILOVER (bit v.toNat 1) (by decide))
    exact ⟨hauto, (getF_setF_self _ _ _).trans (bitsAt_mod _ 8 7)⟩

/-- Chains that leave the fields of the limit alone before and behind the write. -/
theorem LimitRead.of_touches {v : BitVec 32} {lck : Bool} {s t u w : State} {l m : List Part} {K L : Nat → Bool} (h : LimitRead v lck t u)
    (hs : Touches l K s t) (hu : Touches m L u w) (hK : ∀ f ∈ limitFlds, K (fldKey f .a) = false)
    (hL : ∀ f ∈ limitFlds, L (fldKey f .a) = false) : LimitRead v lck s w := by
  have hauto : getF t Reg.CLK_REF_CTL_AUTO_FAILOVER = getF s Reg.CLK_REF_CTL_AUTO_FAILOVER := hs.getF (hK _ (by simp [limitFlds]))
  have hlim : getF t Reg.CLK_REF_CTL_HOLDOVER_LIMIT = getF s Reg.CLK_REF_CTL_HOLDOVER_LIMIT := hs.getF (hK _ (by simp [limitFlds]))
  have hauto' : getF w Reg.CLK_REF_CTL_AUTO_FAILOVER = getF u Reg.CLK_REF_CTL_AUTO_FAILOVER := hu.getF (hL _ (by simp [limitFlds]))
  have hlim' : getF w Reg.CLK_REF_CTL_HOLDOVER_LIMIT = getF u Reg.CLK_REF_CTL_HOLDOVER_LIMIT := hu.getF (hL _ (by simp [limitFlds]))
  unfold LimitRead getB at *
  rwa [hauto', hlim', ← hauto, ← hlim]

def ctlFlds : List Fld := [Reg.CLK_REF_CTL_SRC_SEL, Reg.CLK_REF_CTL_AUTO_FAILOVER, Reg.CLK_REF_CTL_HOLDOVER_LIMIT]

section
variable {s : State} (p : Port) (v : BitVec 32) (time : Nat)

/-- What a write of CLK_REF_CTL comes to, its time being noted. -/
def sourceAsked (v : BitVec 32) (time : Nat) (s : State) : State :=
  let lck := getB s Reg.CLK_LOCK_LOCK
  if !lck && (bitsAt v.toNat 8 7 == 0 || decide (100 < bitsAt v.toNat 8 7)) then s
  else if getB s Reg.CLK_REF_STATUS_SWITCH_BUSY ∨ askedSource v = srcActive s then limitSet v lck s
  else if !refOk s (askedSource v) then setF s Reg.CLK_REF_STATUS_SWITCH_STATUS 0x10
  else startSwitch (some (askedSource v)) time (limitSet v lck (setF s Reg.CLK_REF_CTL_SRC_SEL (portNum (askedSource v))))

theorem exec_sourceSelect (ha : stageAlive s = true) : exec (.sourceSelect p v time) s = .next (sourceAsked v time (atTime time s)) :=
  congrArg Host.Outcome.next (viaPf0_alive ha p _)

section
variable {u : State}

theorem sourceAsked_out (hl : getB u Reg.CLK_LOCK_LOCK = false) (hlim : bitsAt v.toNat 8 7 = 0 ∨ 100 < bitsAt v.toNat 8 7) :
    sourceAsked v time u = u := if_pos (by simpa [hl] using hlim)

variable (hin : getB u Reg.CLK_LOCK_LOCK = true ∨ 0 < bitsAt v.toNat 8 7 ∧ bitsAt v.toNat 8 7 ≤ 100)
include hin

theorem limit_inRange : ¬(!getB u Reg.CLK_LOCK_LOCK && (bitsAt v.toNat 8 7 == 0 || decide (100 < bitsAt v.toNat 8 7))) = true := by
  simp only [Bool.and_eq_true, Bool.or_eq_true, Bool.not_eq_true', beq_iff_eq, decide_eq_true_eq, not_and]
  intro hl
  obtain h | h := hin
  · rw [h] at hl
    cases hl
  · omega

theorem sourceAsked_stays (h : getB u Reg.CLK_REF_STATUS_SWITCH_BUSY = true ∨ askedSource v = srcActive u) :
    sourceAsked v time u = limitSet v (getB u Reg.CLK_LOCK_LOCK) u := (if_neg (limit_inRange v hin)).trans (if_pos h)

variable (hb : getB u Reg.CLK_REF_STATUS_SWITCH_BUSY = false) (hne : askedSource v ≠ srcActive u)
include hb hne

omit hin in
theorem source_moves : ¬(getB u Reg.CLK_REF_STATUS_SWITCH_BUSY = true ∨ askedSource v = srcActive u) := by
  simp [hb, hne]

theorem sourceAsked_refused (h : refOk u (askedSource v) = false) :
    sourceAsked v time u = setF u Reg.CLK_REF_STATUS_SWITCH_STATUS 0x10 :=
  (if_neg (limit_inRange v hin)).trans ((if_neg (source_moves v hb hne)).trans (if_pos (by rw [h]; rfl)))

theorem sourceAsked_moves (h : refOk u (askedSource v) = true) : sourceAsked v time u =
    startSwitch (some (askedSource v)) time
      (limitSet v (getB u Reg.CLK_LOCK_LOCK) (setF u Reg.CLK_REF_CTL_SRC_SEL (portNum (askedSource v)))) :=
  (if_neg (limit_inRange v hin)).trans ((if_neg (source_moves v hb hne)).trans (if_neg (by rw [h]; exact Bool.false_ne_true)))

end

/-- The write notes the source asked for, and the limit. -/
def ctlWritten (v : BitVec 32) (lck : Bool) (s : State) : State :=
  limitSet v lck (setF s Reg.CLK_REF_CTL_SRC_SEL (portNum (askedSource v)))

theorem ctlWritten_touches (lck : Bool) (u : State) : Touches [.flds] (oneOf ctlFlds) u (ctlWritten v lck u) :=
  (Touches.setF (.refl u)).step (limitSet_touches v lck _) (by decide) fun k => oneOf_mono (by decide)

/-- R383: a source that is OK is switched to. -/
theorem sourceMoves_spec (lck : Bool) (s : State) :
    let t := startSwitch (some (askedSource v)) time (ctlWritten v lck (atTime time s))
    LimitRead v lck s t ∧ getF t Reg.CLK_REF_CTL_SRC_SEL = portNum (askedSource v) ∧
      getB t Reg.CLK_REF_STATUS_HOLDOVER = true ∧ getB t Reg.CLK_REF_STATUS_SWITCH_BUSY = true ∧
      t.clk.sw = some ⟨0, some (askedSource v), srcActive s, time, (List.range 32).map fun d => getF s (codeFld d),
        [64, 65, 66, 67].map fun d => getF s (codeFld d)⟩ ∧ keptBut (.clk :: .now :: irqParts) s t := by
  have htime := atTime_touches time s
  have hsel : Touches [.flds] (oneOf [Reg.CLK_REF_CTL_SRC_SEL]) (atTime time s)
      (setF (atTime time s) Reg.CLK_REF_CTL_SRC_SEL (portNum (askedSource v))) := .setF (.refl _)
  have hctl := ctlWritten_touches v lck (atTime time s)
  have hstart := startSwitch_touches (some (askedSource v)) time (ctlWritten v lck (atTime time s))
  obtain ⟨hhold, hbusy, hsw⟩ := startSwitch_spec (some (askedSource v)) time (ctlWritten v lck (atTime time s))
  have hlimit : LimitRead v lck (atTime time s) (startSwitch (some (askedSource v)) time (ctlWritten v lck (atTime time s))) :=
    (limitSet_read v lck _).of_touches hsel hstart (by decide) (by decide)
  have hnum : portNum (askedSource v) % 2 ^ Reg.CLK_REF_CTL_SRC_SEL.len = portNum (askedSource v) := by
    cases askedSource v <;> rfl
  refine ⟨hlimit.of_touches htime (.refl (l := []) (K := fun _ => false) _) (by decide) (by decide), ?_, hhold, hbusy, ?_,
    (keptBut_trans (keptBut_trans htime.parts hctl.parts) hstart.parts).mono (by decide)⟩
  · rw [hstart.getF (by decide), ctlWritten, (limitSet_touches v lck _).getF (by decide), getF_setF_self, hnum]
  · rw [hsw, newSwitch_congr hctl (by decide) (by decide), newSwitch_congr htime pmcKey_codeFld (by decide)]
    rfl

end

/-! ### The PLL relocks, and holdover ends (R383, R384) -/

/-- What the relock to a source writes. -/
def relockWrites (p : Port) : List (Fld × Nat) :=
  [(Reg.CLK_REF_STATUS_HOLDOVER, 0), (Reg.CLK_REF_STATUS_SRC_ACTIVE, portNum p), (Reg.CLK_REF_CTL_SRC_SEL, portNum p),
   (Reg.CLK_REF_STATUS_PLL_LOCK, 1)]

def relockFlds : List Fld :=
  [Reg.CLK_REF_STATUS_HOLDOVER, Reg.CLK_REF_STATUS_SRC_ACTIVE, Reg.CLK_REF_CTL_SRC_SEL, Reg.CLK_REF_STATUS_PLL_LOCK]

/-- The module runs from the source that the switch wanted, and its domains ramp back. -/
def relocked (p : Port) (w : ClkSwitch) (time : Nat) (s : State) : State :=
  let u := setPort .a (atTime time s) (relockWrites p)
  { u with clk.sw := some { w with phase := 2 }, clk.stepAt := rampDomains.map fun d => (d, time) }

section
variable {s : State} (time : Nat)

theorem exec_pllRelock {w : ClkSwitch} {p : Port} (hsw : s.clk.sw = some w) (hw : w.want = some p) (hph : w.phase = 1) :
    exec (.pllRelock time) s = .next (switchAdvance (relocked p w time s)) := by
  obtain ⟨ph, want, former, since, aclk, net⟩ := w
  obtain rfl : want = some p := hw
  obtain rfl : ph = 1 := hph
  refine congrArg Host.Outcome.next ?_
  rw [hsw]
  rfl

theorem exec_pllRelock_not (h : ∀ w, s.clk.sw = some w → w.phase ≠ 1 ∨ w.want = none) : exec (.pllRelock time) s = .next s := by
  refine congrArg Host.Outcome.next ?_
  cases hsw : s.clk.sw with
  | none => rfl
  | some w =>
    dsimp only
    cases hw : w.want with
    | none => rfl
    | some p => exact if_neg ((h w hsw).resolve_right (by simp [hw]))

theorem relocked_regs (p : Port) (w : ClkSwitch) (s : State) : ∀ x ∈ relockWrites p, getF (relocked p w time s) x.1 = x.2 := by
  have hfit : ∀ x ∈ relockWrites p, x.2 < 2 ^ x.1.len := by cases p <;> decide
  have hnodup : (relockFlds.map fun f => fldKey f .a).Nodup := by decide
  intro x hx
  have hflds : (relocked p w time s).flds = (setPort .a (atTime time s) (relockWrites p)).flds := clk_kept _ _ .flds (by decide)
  exact (getF_congr hflds _).trans (getP_setPort_fits hnodup hfit x hx)

theorem pllRelock_spec (p : Port) (w : ClkSwitch) (s : State) : let t := switchAdvance (relocked p w time s)
    srcActive t = p ∧ getF t Reg.CLK_REF_CTL_SRC_SEL = portNum p ∧ getB t Reg.CLK_REF_STATUS_HOLDOVER = false ∧
      getB t Reg.CLK_REF_STATUS_PLL_LOCK = true ∧
      (t.clk.sw = some { w with phase := 2 } ∨ t.clk.sw = none ∧ getB t Reg.CLK_REF_STATUS_SWITCH_BUSY = false ∧
        getF t Reg.CLK_REF_STATUS_SWITCH_STATUS = 0) ∧ keptBut (.clk :: .now :: irqParts) s t := by
  have hrelocked : keptBut (.clk :: .now :: irqParts) s (relocked p w time s) :=
    (keptBut_trans (keptBut_trans (atTime_touches time s).parts (setPort_kept .a _ (relockWrites p))) (clk_kept _ _)).mono (by decide)
  obtain ⟨hkept, hend⟩ := switchAdvance_ramping (s := relocked p w time s) rfl rfl
  have hread := relocked_regs time p w s
  simp only [relockWrites, List.forall_mem_cons] at hread
  obtain ⟨hhold, hsrc, hsel, hlock, -⟩ := hread
  refine ⟨?_, (hkept.getF (by decide)).trans hsel, (hkept.getB (by decide)).trans (congrArg (· == 1) hhold),
    (hkept.getB (by decide)).trans (congrArg (· == 1) hlock), hend, (keptBut_trans hrelocked hkept.parts).mono (by decide)⟩
  rw [hkept.srcActive, srcActive, hsrc]
  cases p <;> rfl

/-- What the end of the limit comes to. -/
theorem exec_holdoverLimitExpire {w : ClkSwitch} (hsw : s.clk.sw = some w) (hw : w.want = none)
    (h : w.since + 100000 * getF s Reg.CLK_REF_CTL_HOLDOVER_LIMIT ≤ time) : exec (.holdoverLimitExpire time) s =
    .next (match okReference s w with
      | some p => refTaken p w (atTime time s)
      | none => goDark (atTime time s)) := by
  refine congrArg Host.Outcome.next ?_
  rw [hsw]
  exact if_pos ⟨by rw [hw]; rfl, h⟩

theorem exec_holdoverLimitExpire_not
    (h : ∀ w, s.clk.sw = some w → w.want ≠ none ∨ time < w.since + 100000 * getF s Reg.CLK_REF_CTL_HOLDOVER_LIMIT) :
    exec (.holdoverLimitExpire time) s = .next s := by
  refine congrArg Host.Outcome.next ?_
  cases hsw : s.clk.sw with
  | none => rfl
  | some w =>
    refine if_neg fun hdue => ?_
    obtain hw | hlt := h w hsw
    · exact hw (by simpa using hdue.1)
    · exact Nat.not_lt.mpr hdue.2 hlt

theorem okReference_none {w : ClkSwitch} (hA : refOk s .a = false) (hB : refOk s .b = false) : okReference s w = none := by
  rw [okReference]
  cases w.former <;> simp [otherPort, hA, hB]

theorem okReference_former {w : ClkSwitch} (h : refOk s w.former = true) : okReference s w = some w.former := if_pos h

theorem goDark_kept (s : State) : keptBut lossParts (volatileLost s) (goDark s) := fun q hq => by
  cases q with
  | boot | pwr => exact absurd hq (by decide)
  | _ => rfl

/-- R384: without a reference everything volatile is lost. -/
theorem goDark_spec (time : Nat) (s : State) :
    (goDark (atTime time s)).boot.stage = .dark ∧ (goDark (atTime time s)).flds = [] ∧ VolatileLost s (goDark (atTime time s)) := by
  have htime := (atTime_touches time s).parts
  have hsec : (atTime time s).sec = s.sec := htime .sec (by decide)
  have hlost : VolatileLost (atTime time s) (goDark (atTime time s)) := (volatileLost_spec _).keep (goDark_kept _)
  refine ⟨rfl, rfl, hlost.from ⟨by rw [hsec], by rw [hsec], by rw [hsec]⟩ ⟨htime .cardSerial (by decide), htime .cardSeated (by decide)⟩
    (htime .pending (by decide))⟩

/-- R384: the former reference is taken again, which is no switch to the other one. -/
theorem holdoverTakesFormer {w : ClkSwitch} (hph : w.phase = 0) (time : Nat) (s : State) : ∃ ph, ph ≤ 1 ∧
    (refTaken w.former w (atTime time s)).clk.sw = some { w with phase := ph, want := some w.former } ∧
    keptBut [.flds, .clk, .now] s (refTaken w.former w (atTime time s)) := by
  obtain ⟨ph, hle, hadv, hkept⟩ := switchAdvance_waiting (s := { atTime time s with clk.sw := some { w with want := some w.former } }) rfl hph rfl
  have hquiet : refTaken w.former w (atTime time s) = switchAdvance { atTime time s with clk.sw := some { w with want := some w.former } } :=
    congrArg switchAdvance (switchIrq_former w.former _)
  rw [hquiet]
  exact ⟨ph, hle, hadv,
    (keptBut_trans (keptBut_trans (atTime_touches time s).parts (clk_kept _ _)) hkept.parts).mono (by decide)⟩

end

/-! ### The statement -/

/-- Settles O49: a switch starts from the codes in force, and moves on only once its domains stand at their dividers. -/
theorem referenceSwitches : Obligations.ReferenceSwitches := by
  unfold Obligations.ReferenceSwitches
  refine ⟨fun s refA refB tpos unstable time => ⟨exec_pllLock_not refA refB tpos unstable time s, fun hb hr =>
      ⟨_, exec_pllLock refA refB tpos unstable time s hb hr, pllLock_spec refA refB tpos unstable time s⟩⟩,
    fun s p time hc hup => ⟨fun hsw hsrc => ?_, fun hsw hsrc => ?_, fun w hsw hph hw => ?_⟩,
    fun s p time hc => ⟨fun hsw => ?_, fun w hsw hph hw => ?_⟩,
    fun s p time hc => ⟨exec_referenceLost_unclocked time hc, exec_referenceOk_unclocked time hc⟩,
    fun s p v time ha => ⟨fun hl hlim => ?_, fun hin hstay => ?_, fun hin hb hne href => ?_, fun hin hb hne href => ?_⟩,
    fun s time => ⟨fun w p hsw hw hph => ⟨_, exec_pllRelock time hsw hw hph, pllRelock_spec time p w s⟩, exec_pllRelock_not time,
      fun w hsw hw hdue hA hB => ?_, exec_holdoverLimitExpire_not time, fun w hsw hph hw hdue href => ?_⟩⟩
  · have hnoted := refNoted_touches p false time s
    have hsame : refLost p time (refNoted p false time s) = refNoted p false time s :=
      refLost_inactive time (by rw [clk_refNoted, hsw]) (by rwa [hnoted.srcActive])
    exact ⟨_, (exec_referenceLost time hup hc).trans (congrArg _ hsame), refOk_refNoted_self p false time s, refOk_refNoted_other p false time s,
      hnoted.regs, hnoted.parts⟩
  · have hstart : refLost p time (refNoted p false time s) = startSwitch (failover p s) time (refNoted p false time s) := by
      rw [refLost_active time (by rw [clk_refNoted, hsw]) ((refNoted_touches p false time s).srcActive.trans hsrc), failover_refNoted]
    exact ⟨_, (exec_referenceLost time hup hc).trans (congrArg _ hstart), referenceLost_switches time hsrc⟩
  · have hsame : refLost p time (refNoted p false time s) = refNoted p false time s :=
      refLost_other time (by rw [clk_refNoted, hsw]) hph hw
    exact ⟨_, (exec_referenceLost time hup hc).trans (congrArg _ hsame), refOk_refNoted_self p false time s,
      (refNoted_touches p false time s).parts⟩
  · have hnoted := refNoted_touches p true time s
    exact ⟨_, exec_referenceOk_idle time hc hsw, refOk_refNoted_self p true time s, refOk_refNoted_other p true time s, hnoted.regs, hnoted.parts⟩
  · obtain ⟨ph, hle, hadv, hkept⟩ := refTaken_spec p hph (refNoted p true time s)
    exact ⟨_, ph, exec_referenceOk_taken time hc hsw hw, (hkept.refOk (by decide) p).trans (refOk_refNoted_self p true time s), hle, hadv,
      (keptBut_trans (refNoted_touches p true time s).parts hkept.parts).mono (by decide)⟩
  · rw [exec_sourceSelect p v time ha, sourceAsked_out v time ((getB_atTime (by decide) time s).trans hl) hlim]
  · have hlock : getB (atTime time s) Reg.CLK_LOCK_LOCK = getB s Reg.CLK_LOCK_LOCK := getB_atTime (by decide) time s
    have hbusy : getB (atTime time s) Reg.CLK_REF_STATUS_SWITCH_BUSY = getB s Reg.CLK_REF_STATUS_SWITCH_BUSY := getB_atTime (by decide) time s
    have htime := atTime_touches time s
    have hset := limitSet_touches v (getB s Reg.CLK_LOCK_LOCK) (atTime time s)
    have hall : Touches [.flds, .now] (fun k => pmcKey k || oneOf ctlFlds k) s (limitSet v (getB s Reg.CLK_LOCK_LOCK) (atTime time s)) :=
      (htime.mono (fun _ => id) fun k e => (Bool.or_eq_false_iff.mp e).1).step hset (by decide)
        fun k e => oneOf_mono (by decide) (Bool.or_eq_false_iff.mp e).2
    have hstays := sourceAsked_stays v time (u := atTime time s) (by rwa [hlock]) (by rwa [hbusy, htime.srcActive])
    rw [hlock] at hstays
    exact ⟨_, (exec_sourceSelect p v time ha).trans (congrArg _ hstays),
      (limitSet_read v _ _).of_touches htime (.refl (l := []) (K := fun _ => false) _) (by decide) (by decide),
      (hset.getF (by decide)).trans (htime.getF (by decide)), hall.regs, hall.parts⟩
  · have htime := atTime_touches time s
    have hrefused := sourceAsked_refused v time (u := atTime time s) (by rwa [getB_atTime (by decide)]) (by rwa [getB_atTime (by decide)])
      (by rwa [htime.srcActive]) (by rwa [htime.refOk (by decide)])
    have hall : Touches [.flds, .now] (fun k => pmcKey k || oneOf [Reg.CLK_REF_STATUS_SWITCH_STATUS] k) s
        (setF (atTime time s) Reg.CLK_REF_STATUS_SWITCH_STATUS 0x10) :=
      .setF ((Touches.refl s).now fun k e => (Bool.or_eq_false_iff.mp e).1)
    exact ⟨_, (exec_sourceSelect p v time ha).trans (congrArg _ hrefused), getF_setF_self _ _ _, hall.regs, hall.parts⟩
  · have htime := atTime_touches time s
    have hlock : getB (atTime time s) Reg.CLK_LOCK_LOCK = getB s Reg.CLK_LOCK_LOCK := getB_atTime (by decide) time s
    have hmoves := sourceAsked_moves v time (u := atTime time s) (by rwa [hlock]) (by rwa [getB_atTime (by decide)])
      (by rwa [htime.srcActive]) (by rwa [htime.refOk (by decide)])
    rw [hlock] at hmoves
    exact ⟨_, (exec_sourceSelect p v time ha).trans (congrArg _ hmoves), sourceMoves_spec v time _ s⟩
  · have hend := exec_holdoverLimitExpire time hsw hw hdue
    rw [okReference_none hA hB] at hend
    exact ⟨_, hend, goDark_spec time s⟩
  · have hend := exec_holdoverLimitExpire time hsw hw hdue
    rw [okReference_former href] at hend
    obtain ⟨ph, hle, hadv, hkept⟩ := holdoverTakesFormer hph time s
    exact ⟨_, ph, hend, hle, hadv, hkept⟩

end Sys2Proof.Machine
end

