-- ==== Sys2Proof/Proofs/ModuleResets.lean ====
section
/-!
SUPPORT. Proofs/ModuleResets.lean: input faults, and the resets of the module (R370, R388, R408, R454, R459), against O52.
-/
namespace Sys2Proof.Machine

set_option Elab.async false

/-! ### The rails go down (R370, R408) -/

theorem volatileLost_out (s : State) : (volatileLost s).out = s.out ∧ (volatileLost s).nvFault = s.nvFault :=
  ⟨fenceAtReset_kept s .out (by decide), fenceAtReset_kept s .nvFault (by decide)⟩

theorem nvFault_kept (s : State) (x : Nat × Nat) : keptBut [.nvFault] s { s with nvFault := x } := fun p hp => by
  cases p with
  | nvFault => exact absurd hp (by decide)
  | _ => rfl

theorem powerLost_kept (st : Stage) (s : State) : keptBut lossParts (volatileLost s) (powerLost st s) := fun q hq => by
  cases q with
  | boot | out => exact absurd hq (by decide)
  | _ => rfl

/-- What the module notes before its rails go down: the time, and the cause with its record. -/
def faultParts : List Part := [.flds, .now, .ledger, .ledgerSeq, .nvFault]

/-- Everything volatile is gone, and was that of `s` but for what was noted of the fault. -/
theorem powerLost_spec (st : Stage) {s u : State} (h : keptBut faultParts s u) :
    (powerLost st u).boot.stage = st ∧ (powerLost st u).nvFault = u.nvFault ∧ (powerLost st u).flds = [] ∧
      (powerLost st u).out = .powerOff :: s.out ∧ VolatileLost s (powerLost st u) := by
  obtain ⟨hout, hnv⟩ := volatileLost_out u
  have hsec : u.sec = s.sec := h .sec (by decide)
  refine ⟨rfl, hnv, rfl, congrArg (Out.powerOff :: ·) (hout.trans (h .out (by decide))), ?_⟩
  exact ((volatileLost_spec u).keep (powerLost_kept st u)).from ⟨by rw [hsec], by rw [hsec], by rw [hsec]⟩
    ⟨h .cardSerial (by decide), h .cardSeated (by decide)⟩ (h .pending (by decide))

theorem railRecord_spec (cause rail time : Nat) (s : State) :
    keptBut faultParts s (railRecord cause rail (atTime time s)) ∧ (railRecord cause rail (atTime time s)).nvFault = (cause, rail) := by
  have hled := ledgerAdd_kept 0x0B [(32, cause + 16 * rail)] { atTime time s with nvFault := (cause, rail) }
  exact ⟨(keptBut_trans (keptBut_trans (atTime_touches time s).parts (nvFault_kept _ _)) hled).mono (by decide), hled .nvFault (by decide)⟩

section
variable {s : State} (h : powered s = true) (time : Nat)
include h

theorem exec_inputUndervoltage :
    exec (.inputUndervoltage time) s = .next (powerLost .unpowered (railRecord 3 0 (atTime time s))) := congrArg Host.Outcome.next (if_pos h)

theorem exec_inputOvervoltage :
    exec (.inputOvervoltage time) s = .next (powerLost .unpowered (railRecord 2 0 (atTime time s))) := congrArg Host.Outcome.next (if_pos h)

theorem exec_railShort (rail : Fin 6) :
    exec (.railShort rail time) s = .next (powerLost .latched (railRecord 1 rail (atTime time s))) := congrArg Host.Outcome.next (if_pos h)

theorem exec_inputReversed : exec .inputReversed s = .next (powerLost .unpowered s) := congrArg Host.Outcome.next (if_pos h)

theorem exec_inputRemoved (ms : Nat) : exec (.inputRemoved ms) s = .next (powerLost .unpowered s) := by
  refine congrArg Host.Outcome.next ?_
  unfold powered at h
  cases hst : s.boot.stage with
  | unpowered | latched => simp [hst] at h
  | _ => rfl

end

theorem exec_unpowered_idle {s : State} (h : powered s = false) (time : Nat) (rail : Fin 6) :
    ∀ c ∈ [Instr.inputUndervoltage time, .inputOvervoltage time, .inputReversed, .railShort rail time, .senseOpen], exec c s = .next s := by
  have hoff : ¬ powered s = true := by simp [h]
  intro c hc
  simp only [List.mem_cons, List.not_mem_nil, or_false] at hc
  obtain rfl | rfl | rfl | rfl | rfl := hc <;> exact congrArg Host.Outcome.next (if_neg hoff)

/-! ### Module resets (R459) -/

/-- A module's key store as a reset leaves it. -/
def rebootKeys (cause : Nat) (k : KeyStore) : KeyStore :=
  { k with boots := k.boots + 1, erasing := [], reports := k.reports.map (fun (r : EraseReport) => { r with background := true }),
           debugSeen := k.debugSeen && cause != 0 }

/-- What a reset reports in registers. -/
def resetWrites (cause : Nat) (f : Nat × Nat) : List (Fld × Nat) :=
  [(Reg.SEC_STATUS_ZERO_CAUSE, cause), (Reg.PWR_FAULT_CAUSE, f.1), (Reg.PWR_FAULT_RAIL, f.2)]

def resetFlds : List Fld := [Reg.SEC_STATUS_ZERO_CAUSE, Reg.PWR_FAULT_CAUSE, Reg.PWR_FAULT_RAIL]

/-- The state in which a reset has lost everything volatile and keeps its key store. -/
def rebooted (cause : Nat) (s : State) : State :=
  putKs (volatileLost (integrityRecord s)) (rebootKeys cause (volatileLost (integrityRecord s)).sec.ks)

/-- A reset as it is reported. -/
def resetNoted (cause : Nat) (s : State) : State := setPort .a (rebooted cause s) (resetWrites cause (rebooted cause s).nvFault)

theorem moduleReset_eq (cause : Nat) (s : State) : moduleReset cause s = { resetNoted cause s with boot.stage := .boot } := rfl

theorem integrityRecord_kept (s : State) : keptBut [.ledger, .ledgerSeq, .sec] s (integrityRecord s) :=
  (keptBut_trans (ledgerAdd_kept _ _ s) (sec_kept _ _)).mono (by decide)

theorem ks_integrityRecord (s : State) : (integrityRecord s).sec.ks = s.sec.ks := by
  have hled (body : List (Nat × Nat)) : (ledgerAdd 0x03 body s).sec = s.sec := ledgerAdd_kept _ _ s .sec (by decide)
  have hks : (integrityRecord s).sec.ks = (ledgerAdd 0x03 _ s).sec.ks := rfl
  rw [hks, hled]

/-- A loss whose key store is then noted as another with the same owner, leases and rollback counters. -/
theorem VolatileLost.putKs {s t u : State} (h : VolatileLost s t) {k : KeyStore} (hkept : keptBut (.sec :: lossParts) t u)
    (hsec : u.sec = { t.sec with ks := k }) (hk : k.owner = t.sec.ks.owner ∧ k.leases = t.sec.ks.leases ∧ k.rollback = t.sec.ks.rollback) :
    VolatileLost s u :=
  h.carry hkept ⟨by rw [hsec], by rw [hsec]⟩ (by rw [hsec]; exact hk)

theorem keys_volatileLost (s : State) : ∃ cs vs, (volatileLost s).sec.ks = { s.sec.ks with fenceCores := cs, fenceVaults := vs } := by
  obtain ⟨cs, vs, hsec⟩ := sec_fenceAtReset s
  exact ⟨cs, vs, congrArg SecSt.ks hsec⟩

section
variable (cause : Nat) (s : State)

theorem rebooted_touches : Touches [.flds, .sec] secViewKey (volatileLost (integrityRecord s)) (rebooted cause s) := putKs_touches _ _

theorem nvFault_rebooted : (rebooted cause s).nvFault = s.nvFault :=
  ((rebooted_touches cause s).parts .nvFault (by decide)).trans
    ((volatileLost_out _).2.trans (integrityRecord_kept s .nvFault (by decide)))

theorem moduleReset_kept : keptBut [.flds, .sec, .boot] (volatileLost (integrityRecord s)) (moduleReset cause s) :=
  (keptBut_trans (keptBut_trans (rebooted_touches cause s).parts (setPort_kept .a _ (resetWrites cause (rebooted cause s).nvFault)))
    (boot_kept (resetNoted cause s) _)).mono (by decide)

theorem sec_moduleReset : (moduleReset cause s).sec = { (volatileLost (integrityRecord s)).sec with
    ks := rebootKeys cause (volatileLost (integrityRecord s)).sec.ks } := by
  have hnoted : (resetNoted cause s).sec = (rebooted cause s).sec := setPort_kept .a _ _ .sec (by decide)
  have hstage : (moduleReset cause s).sec = (resetNoted cause s).sec := by rw [moduleReset_eq]
  rw [hstage, hnoted, rebooted, sec_putKs]

theorem keys_moduleReset : ∃ cs vs, (moduleReset cause s).sec.ks = rebootKeys cause { s.sec.ks with fenceCores := cs, fenceVaults := vs } := by
  obtain ⟨cs, vs, hks⟩ := keys_volatileLost (integrityRecord s)
  refine ⟨cs, vs, ?_⟩
  rw [sec_moduleReset, hks, ks_integrityRecord]

/-- The registers in which a reset is reported. -/
theorem getF_moduleReset : ∀ w ∈ resetWrites cause s.nvFault, getF (moduleReset cause s) w.1 = w.2 % 2 ^ w.1.len := by
  have hnodup : (resetFlds.map fun f => fldKey f .a).Nodup := by decide
  have hread := getP_setPort (p := .a) (s := rebooted cause s) (ws := resetWrites cause (rebooted cause s).nvFault) hnodup
  rw [nvFault_rebooted] at hread
  intro w hw
  have hflds : (moduleReset cause s).flds = (setPort .a (rebooted cause s) (resetWrites cause s.nvFault)).flds := by
    rw [moduleReset_eq, resetNoted, nvFault_rebooted]
  exact (getF_congr hflds _).trans (hread w hw)

theorem moduleReset_lost : VolatileLost s (moduleReset cause s) := by
  have hkept := integrityRecord_kept s
  have hks := ks_integrityRecord s
  have hlost : VolatileLost s (volatileLost (integrityRecord s)) :=
    (volatileLost_spec (integrityRecord s)).from ⟨by rw [hks], by rw [hks], by rw [hks]⟩
      ⟨hkept .cardSerial (by decide), hkept .cardSeated (by decide)⟩ (hkept .pending (by decide))
  exact hlost.putKs ((moduleReset_kept cause s).mono (by decide)) (sec_moduleReset cause s) ⟨rfl, rfl, rfl⟩

end

/-- What a module reset comes to, in state `t`, with the counts of glitches as `glitched` says. -/
def ResetTo (cause : Nat) (s t : State) : Prop :=
  getF t Reg.SEC_STATUS_ZERO_CAUSE = cause ∧ t.sec.ks.boots = s.sec.ks.boots + 1 ∧ t.sec.ks.erasing = [] ∧
    getF t Reg.PWR_FAULT_CAUSE = s.nvFault.1 % 16 ∧ getF t Reg.PWR_FAULT_RAIL = s.nvFault.2 % 16 ∧ VolatileLost s t

section
variable {cause : Nat} (hc : cause < 16) (s : State)
include hc

theorem moduleReset_spec : (moduleReset cause s).boot.stage = .boot ∧ ResetTo cause s (moduleReset cause s) ∧
    (moduleReset cause s).sec.ks.glitchTotal = s.sec.ks.glitchTotal ∧ (moduleReset cause s).sec.ks.glitchAck = s.sec.ks.glitchAck := by
  obtain ⟨cs, vs, hks⟩ := keys_moduleReset cause s
  have hread := getF_moduleReset cause s
  simp only [resetWrites, List.forall_mem_cons] at hread
  obtain ⟨hcause, hfault, hrail, -⟩ := hread
  refine ⟨rfl, ⟨hcause.trans (Nat.mod_eq_of_lt hc), ?_, ?_, hfault, hrail, moduleReset_lost cause s⟩, ?_, ?_⟩ <;> rw [hks] <;> rfl

end

/-- A later note of the stage. -/
theorem ResetTo.stage {cause : Nat} {s t : State} (h : ResetTo cause s t) (st : Stage) : ResetTo cause s { t with boot.stage := st } := by
  obtain ⟨hcause, hboots, herasing, hfault, hrail, hlost⟩ := h
  exact ⟨hcause, hboots, herasing, hfault, hrail, hlost.keep ((boot_kept _ _).mono (by decide))⟩

/-- A reset of a state that differs from `s` in the time noted. -/
theorem ResetTo.atTime {cause time : Nat} {s t : State} (h : ResetTo cause (atTime time s) t) : ResetTo cause s t := by
  have htime := (atTime_touches time s).parts
  have hsec : (Machine.atTime time s).sec = s.sec := htime .sec (by decide)
  have hnv : (Machine.atTime time s).nvFault = s.nvFault := htime .nvFault (by decide)
  obtain ⟨hcause, hboots, herasing, hfault, hrail, hlost⟩ := h
  rw [hsec] at hboots
  rw [hnv] at hfault hrail
  exact ⟨hcause, hboots, herasing, hfault, hrail, hlost.from ⟨by rw [hsec], by rw [hsec], by rw [hsec]⟩
    ⟨htime .cardSerial (by decide), htime .cardSeated (by decide)⟩ (htime .pending (by decide))⟩

/-! ### Glitches (R454) -/

/-- A glitch as the key store counts it. -/
def glitchKeys (det : Nat) (k : KeyStore) : KeyStore := { k with glitchAck := k.glitchAck + 1, glitchTotal := k.glitchTotal + 1, glitchDet := det }

def glitchReset (det : Fin 6) (s : State) : State :=
  ledgerSecurity 0 det 0 (putKs (moduleReset 2 s) (glitchKeys det (moduleReset 2 s).sec.ks))

theorem exec_glitchTrip {s : State} (h : s.boot.stage ∉ [Stage.unpowered, .latched, .dark]) (det : Fin 6) :
    exec (.glitchTrip det) s = .next (glitchReset det s) := by
  refine congrArg Host.Outcome.next ?_
  cases hst : s.boot.stage with
  | unpowered | latched | dark => exact absurd h (by simp [hst])
  | _ => rfl

theorem exec_glitchTrip_off {s : State} (h : s.boot.stage ∈ [Stage.unpowered, .latched, .dark]) (det : Fin 6) :
    exec (.glitchTrip det) s = .next s := by
  refine congrArg Host.Outcome.next ?_
  simp only [List.mem_cons, List.not_mem_nil, or_false] at h
  obtain h | h | h := h <;> rw [h]

theorem glitchReset_touches (det : Fin 6) (s : State) :
    Touches [.flds, .sec, .ledger, .ledgerSeq] secViewKey (moduleReset 2 s) (glitchReset det s) :=
  .keep ((putKs_touches _ _).mono (by decide) fun _ => id) (ledgerAdd_kept _ _ _)

theorem sec_glitchReset (det : Fin 6) (s : State) :
    (glitchReset det s).sec = { (moduleReset 2 s).sec with ks := glitchKeys det (moduleReset 2 s).sec.ks } :=
  (ledgerAdd_kept _ _ _ .sec (by decide)).trans (sec_putKs _ _)

theorem glitchReset_spec (det : Fin 6) (s : State) : (glitchReset det s).boot.stage = .boot ∧ ResetTo 2 s (glitchReset det s) ∧
    (glitchReset det s).sec.ks.glitchTotal = s.sec.ks.glitchTotal + 1 ∧ (glitchReset det s).sec.ks.glitchAck = s.sec.ks.glitchAck + 1 ∧
    (glitchReset det s).sec.ks.glitchDet = det.val := by
  have hkept := glitchReset_touches det s
  have hsec := sec_glitchReset det s
  obtain ⟨hstage, ⟨hcause, hboots, herasing, hfault, hrail, hlost⟩, htotal, hack⟩ := moduleReset_spec (cause := 2) (by decide) s
  refine ⟨(congrArg BootSt.stage (hkept.parts .boot (by decide))).trans hstage, ⟨(hkept.getF (by decide)).trans hcause, ?_, ?_,
    (hkept.getF (by decide)).trans hfault, (hkept.getF (by decide)).trans hrail, hlost.putKs (hkept.parts.mono (by decide)) hsec ⟨rfl, rfl, rfl⟩⟩,
    ?_, ?_, ?_⟩ <;> rw [hsec]
  · exact hboots
  · exact herasing
  · exact congrArg (· + 1) htotal
  · exact congrArg (· + 1) hack
  · rfl

/-! ### RESET_REQUEST (R459) -/

/-- A pin has been held for 100 ms. -/
def heldLong (time : Nat) (o : Option Nat) : Bool := match o with | some x => decide (x + 100000000 ≤ time) | none => false

section
variable {s : State} {time : Nat}

theorem exec_resetRequest_eq : exec (.resetRequest time) s = .next (if clocked s && heldLong time s.pwr.shutterAt &&
      heldLong time s.boot.portA.perstAt && heldLong time s.boot.portB.perstAt && getF s Reg.HOST_SIDEBAND_TOGGLING % 16 / 4 == 0 &&
      !toggling s .shutter && !s.pwr.tripHold then moduleReset 1 (atTime time s) else s) := rfl

theorem exec_resetRequest {a b c : Nat} (hc : clocked s = true) (hs : s.pwr.shutterAt = some a) (hA : s.boot.portA.perstAt = some b)
    (hB : s.boot.portB.perstAt = some c) (ha : a + 100000000 ≤ time) (hb : b + 100000000 ≤ time) (hcc : c + 100000000 ≤ time)
    (htog : getF s Reg.HOST_SIDEBAND_TOGGLING = 0) (hold : s.pwr.tripHold = false) :
    exec (.resetRequest time) s = .next (moduleReset 1 (atTime time s)) := by
  have hquiet : toggling s .shutter = false := by rw [toggling, getBit, htog]; rfl
  rw [exec_resetRequest_eq]
  exact congrArg Host.Outcome.next (if_pos (by simp [hc, hs, hA, hB, heldLong, ha, hb, hcc, htog, hquiet, hold]))

theorem exec_resetRequest_not (h : clocked s = false ∨ s.pwr.shutterAt = none ∨ s.boot.portA.perstAt = none ∨ s.boot.portB.perstAt = none ∨
    s.pwr.tripHold = true) : exec (.resetRequest time) s = .next s := by
  rw [exec_resetRequest_eq]
  refine congrArg Host.Outcome.next (if_neg ?_)
  obtain h | h | h | h | h := h <;> simp [h, heldLong]

end

/-! ### The statement -/

/-- Settles O52: every fault of the input and every reset passes through one loss of volatile content, which starts from the reset state. -/
theorem inputFaultsAndResets : Obligations.InputFaultsAndResets := by
  unfold Obligations.InputFaultsAndResets
  refine ⟨fun s time ms rail c st f hp hcase => ?_, fun s time ms rail => ⟨fun hp => exec_unpowered_idle hp time rail,
      fun hp => congrArg Host.Outcome.next (if_pos hp), fun h => ?_, fun h => ?_⟩,
    fun s time a b c ref det cmd st cause hcase => ?_, fun s time ref det => ⟨fun h => congrArg Host.Outcome.next (if_neg h),
      fun h => congrArg Host.Outcome.next (if_neg h), fun h => exec_glitchTrip_off h det, exec_resetRequest_not⟩⟩
  · obtain ⟨rfl, rfl, rfl⟩ | ⟨rfl, rfl, rfl⟩ | ⟨rfl, rfl, rfl⟩ | ⟨rfl, rfl, rfl⟩ | ⟨rfl, rfl, rfl⟩ := hcase
    · obtain ⟨hkept, hnv⟩ := railRecord_spec 3 0 time s
      obtain ⟨hst, hf, hrest⟩ := powerLost_spec .unpowered hkept
      exact ⟨_, exec_inputUndervoltage hp time, hst, hf.trans hnv, hrest⟩
    · obtain ⟨hkept, hnv⟩ := railRecord_spec 2 0 time s
      obtain ⟨hst, hf, hrest⟩ := powerLost_spec .unpowered hkept
      exact ⟨_, exec_inputOvervoltage hp time, hst, hf.trans hnv, hrest⟩
    · exact ⟨_, exec_inputReversed hp, powerLost_spec .unpowered (keptBut_refl _ s)⟩
    · obtain ⟨hkept, hnv⟩ := railRecord_spec 1 rail time s
      obtain ⟨hst, hf, hrest⟩ := powerLost_spec .latched hkept
      exact ⟨_, exec_railShort hp time rail, hst, hf.trans hnv, hrest⟩
    · exact ⟨_, exec_inputRemoved hp ms, powerLost_spec .unpowered (keptBut_refl _ s)⟩
  · refine congrArg Host.Outcome.next ?_
    rw [h]
  · refine congrArg Host.Outcome.next ?_
    rw [h]
  · obtain ⟨rfl, hs, rfl, rfl⟩ | ⟨rfl, hs, rfl, rfl⟩ | ⟨rfl, hc, hs, hA, hB, ha, hb, hcc, htog, hold, rfl, rfl⟩ | ⟨rfl, hs, rfl, rfl⟩ := hcase
    · obtain ⟨hst, hreset, htotal, hack⟩ := moduleReset_spec (cause := 0) (by decide) s
      have hexec : exec (.inputPowerValid ref) s = .next (if ref then moduleReset 0 s else { moduleReset 0 s with boot.stage := .dark }) :=
        congrArg Host.Outcome.next (if_pos hs)
      cases ref with
      | true =>
        obtain ⟨hcause, hboots, herasing, hfault, hrail, hlost⟩ := hreset
        exact ⟨_, hexec, hst, hcause, hboots, herasing, hfault, hrail, hlost, nofun, fun _ => ⟨htotal, hack⟩⟩
      | false =>
        obtain ⟨hcause, hboots, herasing, hfault, hrail, hlost⟩ := hreset.stage .dark
        exact ⟨_, hexec, rfl, hcause, hboots, herasing, hfault, hrail, hlost, nofun, fun _ => ⟨htotal, hack⟩⟩
    · obtain ⟨hst, ⟨hcause, hboots, herasing, hfault, hrail, hlost⟩, htotal, hack⟩ := moduleReset_spec (cause := 1) (by decide) s
      exact ⟨_, congrArg Host.Outcome.next (if_pos hs), hst, hcause, hboots, herasing, hfault, hrail, hlost, nofun, fun _ => ⟨htotal, hack⟩⟩
    · obtain ⟨hst, hreset, htotal, hack⟩ := moduleReset_spec (cause := 1) (by decide) (atTime time s)
      obtain ⟨hcause, hboots, herasing, hfault, hrail, hlost⟩ := hreset.atTime
      have hsec : (atTime time s).sec = s.sec := (atTime_touches time s).parts .sec (by decide)
      rw [hsec] at htotal hack
      exact ⟨_, exec_resetRequest hc hs hA hB ha hb hcc htog hold, hst, hcause, hboots, herasing, hfault, hrail, hlost, nofun,
        fun _ => ⟨htotal, hack⟩⟩
    · obtain ⟨hst, ⟨hcause, hboots, herasing, hfault, hrail, hlost⟩, htotal, hack, hdet⟩ := glitchReset_spec det s
      exact ⟨_, exec_glitchTrip hs det, hst, hcause, hboots, herasing, hfault, hrail, hlost, fun _ => ⟨htotal, hack, hdet⟩,
        fun h => absurd rfl h⟩

end Sys2Proof.Machine
end

