-- ==== Sys2Proof/Proofs/PowerOperations.lean ====
section
/-!
SUPPORT. Proofs/PowerOperations.lean: the operating point and its floor, C_eff, and brakes (R393, R394, R397, R398, R409).
-/
namespace Sys2Proof.Machine

set_option Elab.async false

/-! ### The floor of the operating point (R394) -/

/-- The floor in force. -/
def floorOf (s : State) : Nat := if s.pwr.brakes.isEmpty then 32 * getF s Reg.CLK_ACLK_CEIL_MIN_CODE else 192

def opFlds : List Fld := [Reg.PWR_OP_OP_FLOOR, Reg.PWR_OP_OP]

theorem floorOf_braked {s : State} (h : s.pwr.brakes ≠ []) : floorOf s = 192 := if_neg (by simpa using h)

theorem floorOf_free {s : State} (h : s.pwr.brakes = []) : floorOf s = 32 * getF s Reg.CLK_ACLK_CEIL_MIN_CODE := if_pos (by simp [h])

/-- MIN_CODE has three bits. -/
theorem floorOf_lt {s : State} (h : getF s Reg.CLK_ACLK_CEIL_MIN_CODE < 8) : floorOf s < 2 ^ 8 := by
  unfold floorOf
  split <;> omega

theorem setFloor_touches (s : State) : Touches [.flds] (oneOf opFlds) s (setFloor s) :=
  have hfloor : Touches [.flds] (oneOf opFlds) s (setF s Reg.PWR_OP_OP_FLOOR (floorOf s)) := .setF (.refl s)
  .ite hfloor (hfloor.trans (.setF (.refl _)))

section
variable (s : State)

theorem setFloor_busy (h : getB s Reg.CLK_REF_STATUS_SWITCH_BUSY = true) : setFloor s = setF s Reg.PWR_OP_OP_FLOOR (floorOf s) := by
  have hbusy : getB (setF s Reg.PWR_OP_OP_FLOOR (floorOf s)) Reg.CLK_REF_STATUS_SWITCH_BUSY = true := by
    rw [getB, getF_setF_ne (by decide)]
    exact h
  exact if_pos hbusy

theorem setFloor_quiet (h : getB s Reg.CLK_REF_STATUS_SWITCH_BUSY = false) :
    setFloor s = setF (setF s Reg.PWR_OP_OP_FLOOR (floorOf s)) Reg.PWR_OP_OP (max (getF s Reg.PWR_OP_OP) (floorOf s)) := by
  have hbusy : getB (setF s Reg.PWR_OP_OP_FLOOR (floorOf s)) Reg.CLK_REF_STATUS_SWITCH_BUSY = false := by
    rw [getB, getF_setF_ne (by decide)]
    exact h
  have hop : getF (setF s Reg.PWR_OP_OP_FLOOR (floorOf s)) Reg.PWR_OP_OP = getF s Reg.PWR_OP_OP := getF_setF_ne (by decide)
  rw [← hop]
  exact if_neg (by rw [← floorOf, hbusy]; exact Bool.false_ne_true)

theorem getF_setFloor_floor : getF (setFloor s) Reg.PWR_OP_OP_FLOOR = floorOf s % 2 ^ 8 := by
  cases h : getB s Reg.CLK_REF_STATUS_SWITCH_BUSY with
  | true => rw [setFloor_busy s h]; exact getF_setF_self _ _ _
  | false => rw [setFloor_quiet s h]; exact (getF_setF_ne (by decide)).trans (getF_setF_self _ _ _)

theorem getF_setFloor_op_busy (h : getB s Reg.CLK_REF_STATUS_SWITCH_BUSY = true) : getF (setFloor s) Reg.PWR_OP_OP = getF s Reg.PWR_OP_OP := by
  rw [setFloor_busy s h]
  exact getF_setF_ne (by decide)

theorem getF_setFloor_op (h : getB s Reg.CLK_REF_STATUS_SWITCH_BUSY = false) :
    getF (setFloor s) Reg.PWR_OP_OP = max (getF s Reg.PWR_OP_OP) (floorOf s) % 2 ^ 8 := by
  rw [setFloor_quiet s h]
  exact getF_setF_self _ _ _

theorem pwr_setFloor : (setFloor s).pwr = s.pwr := (setFloor_touches s).parts .pwr (by decide)

end

/-! ### C_eff (R393) -/

theorem setCeff_touches (mw : Nat) (s : State) : Touches [.flds, .pwr] (oneOf [Reg.PWR_CAP_EFFECTIVE]) s (setCeff mw s) :=
  .setF (.keep (.refl s) (pwr_kept s _))

theorem pwr_setCeff (mw : Nat) (s : State) : (setCeff mw s).pwr = { s.pwr with cEff := mw } := rfl

theorem getF_setCeff (mw : Nat) (s : State) : getF (setCeff mw s) Reg.PWR_CAP_EFFECTIVE = mw / 1000 % 2 ^ 12 := getF_setF_self _ _ _

/-! ### Brakes (R397, R398, R409) -/

def brakeFlds : List Fld := [Reg.PWR_STATUS_BRAKE, Reg.PWR_BRAKES, Reg.PWR_CAP_EFFECTIVE] ++ opFlds

/-- The brake counts, and is in force. -/
def brakeNoted (k : Nat) (s : State) : State :=
  let s1 := bump (setF s Reg.PWR_STATUS_BRAKE 1) Reg.PWR_BRAKES 1
  { s1 with pwr.brakes := k :: s1.pwr.brakes }

theorem brakeNoted_touches (k : Nat) (s : State) :
    Touches [.flds, .pwr] (oneOf [Reg.PWR_STATUS_BRAKE, Reg.PWR_BRAKES]) s (brakeNoted k s) := .keep (.bump (.setF (.refl s))) (pwr_kept _ _)

theorem brakeOn_again {k : Nat} {s : State} (h : s.pwr.brakes.contains k = true) : brakeOn k s = s := if_pos h

theorem brakeOn_new {k : Nat} {s : State} (h : s.pwr.brakes.contains k = false) : brakeOn k s = setFloor (brakeNoted k s) :=
  if_neg (by rw [h]; exact Bool.false_ne_true)

theorem brakeOn_touches (k : Nat) (s : State) : Touches [.flds, .pwr] (oneOf brakeFlds) s (brakeOn k s) := by
  cases h : s.pwr.brakes.contains k with
  | true => rw [brakeOn_again h]; exact .refl s
  | false =>
    rw [brakeOn_new h]
    exact ((brakeNoted_touches k s).mono (by decide) fun _ => oneOf_mono (by decide)).step (setFloor_touches _) (by decide)
      fun _ => oneOf_mono (by decide)

theorem pwr_brakeOn (k : Nat) (s : State) :
    (brakeOn k s).pwr = { s.pwr with brakes := if s.pwr.brakes.contains k then s.pwr.brakes else k :: s.pwr.brakes } := by
  cases h : s.pwr.brakes.contains k with
  | true => rw [brakeOn_again h]; rfl
  | false => rw [brakeOn_new h, pwr_setFloor]; rfl

/-- R398: each entry of a brake counts, and brings OP and its floor to 192. -/
theorem brakeOn_regs {k : Nat} {s : State} (h : s.pwr.brakes.contains k = false) :
    getB (brakeOn k s) Reg.PWR_STATUS_BRAKE = true ∧ getF (brakeOn k s) Reg.PWR_BRAKES = min (getF s Reg.PWR_BRAKES + 1) (2 ^ 64 - 1) ∧
    getF (brakeOn k s) Reg.PWR_OP_OP_FLOOR = 192 ∧
    (getF s Reg.PWR_OP_OP ≤ 192 → getB s Reg.CLK_REF_STATUS_SWITCH_BUSY = false → getF (brakeOn k s) Reg.PWR_OP_OP = 192) ∧
    (getB s Reg.CLK_REF_STATUS_SWITCH_BUSY = true → getF (brakeOn k s) Reg.PWR_OP_OP = getF s Reg.PWR_OP_OP) := by
  have hnoted := brakeNoted_touches k s
  have hset := setFloor_touches (brakeNoted k s)
  have hfloor : floorOf (brakeNoted k s) = 192 := floorOf_braked (List.cons_ne_nil _ _)
  have hstatus : getF (brakeNoted k s) Reg.PWR_STATUS_BRAKE = 1 :=
    (getF_setF_ne (by decide)).trans (getF_setF_self s Reg.PWR_STATUS_BRAKE 1)
  have hcount : getF (brakeNoted k s) Reg.PWR_BRAKES = min (getF s Reg.PWR_BRAKES + 1) (2 ^ 64 - 1) := by
    refine (getF_bump_self (setF s Reg.PWR_STATUS_BRAKE 1) rfl 1).trans ?_
    rw [getF_setF_ne (by decide)]
  have hop : getF (brakeNoted k s) Reg.PWR_OP_OP = getF s Reg.PWR_OP_OP := hnoted.getF (by decide)
  have hbusy : getB (brakeNoted k s) Reg.CLK_REF_STATUS_SWITCH_BUSY = getB s Reg.CLK_REF_STATUS_SWITCH_BUSY := hnoted.getB (by decide)
  rw [brakeOn_new h]
  refine ⟨?_, (hset.getF (by decide)).trans hcount, ?_, fun h192 hb => ?_, fun hb => ?_⟩
  · rw [hset.getB (by decide), getB, hstatus]
    rfl
  · exact (getF_setFloor_floor _).trans (by rw [hfloor]; rfl)
  · rw [getF_setFloor_op _ (hbusy.trans hb), hop, hfloor, Nat.max_eq_right h192]
    rfl
  · rw [getF_setFloor_op_busy _ (hbusy.trans hb), hop]

/-- The brake is lifted, and C_eff restarts. -/
def brakeLifted (k meanMw : Nat) (s : State) : State :=
  let s1 := setCeff (min s.pwr.cEff meanMw) s
  let s2 := { s1 with pwr.brakes := s1.pwr.brakes.filter (· != k) }
  setB s2 Reg.PWR_STATUS_BRAKE (!s2.pwr.brakes.isEmpty)

theorem brakeLifted_touches (k meanMw : Nat) (s : State) :
    Touches [.flds, .pwr] (oneOf [Reg.PWR_STATUS_BRAKE, Reg.PWR_CAP_EFFECTIVE]) s (brakeLifted k meanMw s) :=
  .setF (.keep ((setCeff_touches _ s).mono (by decide) fun _ => oneOf_mono (by decide)) (pwr_kept _ _))

theorem brakeOff_none {k : Nat} {s : State} (h : s.pwr.brakes.contains k = false) (meanMw : Nat) : brakeOff k meanMw s = s :=
  if_neg (by rw [h]; exact Bool.false_ne_true)

theorem brakeOff_held {k : Nat} {s : State} (h : s.pwr.brakes.contains k = true) (meanMw : Nat) :
    brakeOff k meanMw s = setFloor (brakeLifted k meanMw s) := if_pos h

theorem brakeOff_touches (k meanMw : Nat) (s : State) : Touches [.flds, .pwr] (oneOf brakeFlds) s (brakeOff k meanMw s) := by
  cases h : s.pwr.brakes.contains k with
  | false => rw [brakeOff_none h]; exact .refl s
  | true =>
    rw [brakeOff_held h]
    exact ((brakeLifted_touches k meanMw s).mono (by decide) fun _ => oneOf_mono (by decide)).step (setFloor_touches _) (by decide)
      fun _ => oneOf_mono (by decide)

theorem pwr_brakeOff {k : Nat} {s : State} (h : s.pwr.brakes.contains k = true) (meanMw : Nat) :
    (brakeOff k meanMw s).pwr = { s.pwr with cEff := min s.pwr.cEff meanMw, brakes := s.pwr.brakes.filter (· != k) } := by
  rw [brakeOff_held h, pwr_setFloor]
  rfl

end Sys2Proof.Machine
end

