-- ==== Sys2Proof/Proofs/PowerLoop.lean ====
section
/-!
SUPPORT. Proofs/PowerLoop.lean: the loop of the power manager, its calibration and the cap's target (R391 to R396), against O50.
-/
namespace Sys2Proof.Machine

set_option Elab.async false

/-! ### One loop (R391, R393, R394, R396) -/

/-- C_eff behind one slew toward TARGET. -/
def slewTo (s : State) : Nat :=
  let t := 1000 * getF s Reg.PWR_CAP_TARGET
  if s.pwr.cEff ≤ t then min t (s.pwr.cEff + getF s Reg.PWR_SLEW_UP) else max t (s.pwr.cEff - getF s Reg.PWR_SLEW_DOWN)

theorem slewCeff_eq (s : State) : slewCeff s = setCeff (slewTo s) s := by
  unfold slewCeff slewTo
  dsimp only
  split <;> rfl

/-- The estimate is reported and C_eff moves. -/
def loopSlewed (est time : Nat) (s : State) : State := slewCeff (setF (atTime time s) Reg.PWR_EST_EST (min 4095 (est / 1000)))

/-- And the floor is brought up to date. -/
def loopFloored (est time : Nat) (s : State) : State := setFloor (loopSlewed est time s)

/-- A loop but for the mean of C_eff. -/
def loopMoved (est pred time : Nat) (s : State) : State := capView est time (moveOp est pred time (loopFloored est time s))

/-- R472: the mean of C_eff is kept for the next POWER record. -/
def capSummed (s : State) : State := { s with pwr.capSum := (s.pwr.capSum.1 + s.pwr.cEff / 1000, s.pwr.capSum.2 + 1) }

theorem pEst_congr {s t : State} (h : t.pwr.gainCore = s.pwr.gainCore ∧ t.pwr.gainRest = s.pwr.gainRest) (core rest : Nat) :
    pEst t core rest = pEst s core rest := by
  obtain ⟨hcore, hrest⟩ := h
  simp only [pEst, hcore, hrest]

def slewFlds : List Fld := [Reg.PWR_EST_EST, Reg.PWR_CAP_EFFECTIVE]

def loopFlds : List Fld := [Reg.PWR_EST_EST, Reg.PWR_CAP_EFFECTIVE, Reg.PWR_OP_OP, Reg.PWR_OP_OP_FLOOR, Reg.PWR_STATUS_CAP_LIMITED,
  Reg.PWR_CAP_LIMITED, Reg.PWR_STATUS_CAP_UNMET]

section
variable (est time : Nat) (s : State)

theorem loopSlewed_touches : Touches [.flds, .pwr, .now] (fun k => pmcKey k || oneOf slewFlds k) s (loopSlewed est time s) := by
  rw [loopSlewed, slewCeff_eq]
  have hest : Touches [.flds, .pwr, .now] (fun k => pmcKey k || oneOf slewFlds k) s
      (setF (atTime time s) Reg.PWR_EST_EST (min 4095 (est / 1000))) := .setF ((Touches.refl s).now fun k e => (Bool.or_eq_false_iff.mp e).1)
  exact hest.step (setCeff_touches _ _) (by decide) fun k e => oneOf_mono (by decide) (Bool.or_eq_false_iff.mp e).2

theorem slewTo_noted : slewTo (setF (atTime time s) Reg.PWR_EST_EST (min 4095 (est / 1000))) = slewTo s := by
  have hnoted : Touches [.flds, .now] (fun k => pmcKey k || oneOf [Reg.PWR_EST_EST] k) s
      (setF (atTime time s) Reg.PWR_EST_EST (min 4095 (est / 1000))) := .setF ((Touches.refl s).now fun k e => (Bool.or_eq_false_iff.mp e).1)
  rw [slewTo, slewTo, hnoted.getF (by decide), hnoted.getF (by decide), hnoted.getF (by decide), hnoted.parts .pwr (by decide)]

theorem pwr_loopSlewed : (loopSlewed est time s).pwr = { s.pwr with cEff := slewTo s } := by
  have hpwr : (atTime time s).pwr = s.pwr := (atTime_touches time s).parts .pwr (by decide)
  rw [loopSlewed, slewCeff_eq, pwr_setCeff, slewTo_noted]
  exact congrArg (fun x : PwrSt => { x with cEff := slewTo s }) hpwr

theorem getF_loopSlewed : getF (loopSlewed est time s) Reg.PWR_EST_EST = min 4095 (est / 1000) ∧
    getF (loopSlewed est time s) Reg.PWR_CAP_EFFECTIVE = slewTo s / 1000 % 4096 := by
  rw [loopSlewed, slewCeff_eq, slewTo_noted]
  refine ⟨?_, getF_setCeff _ _⟩
  rw [(setCeff_touches _ _).getF (by decide), getF_setF_self]
  exact Nat.mod_eq_of_lt (Nat.lt_of_le_of_lt (Nat.min_le_left _ _) (by decide))

theorem loopFloored_touches : Touches [.flds, .pwr, .now] (fun k => pmcKey k || oneOf (slewFlds ++ opFlds) k) s (loopFloored est time s) :=
  ((loopSlewed_touches est time s).mono (fun _ => id) fun k e => by
    rw [oneOf_append, ← Bool.or_assoc] at e
    exact (Bool.or_eq_false_iff.mp e).1).step (setFloor_touches _) (by decide)
      fun k e => oneOf_mono (by decide) (Bool.or_eq_false_iff.mp e).2

theorem pwr_loopFloored : (loopFloored est time s).pwr = { s.pwr with cEff := slewTo s } :=
  (pwr_setFloor _).trans (pwr_loopSlewed est time s)

theorem floorOf_loopSlewed : floorOf (loopSlewed est time s) = floorOf s := by
  simp only [floorOf, pwr_loopSlewed, (loopSlewed_touches est time s).getF (f := Reg.CLK_ACLK_CEIL_MIN_CODE) (by decide)]

/-- The limit that a loop compares with. -/
def loopLimit (s : State) : Nat :=
  let l := min (slewTo s) (1000 * getF s Reg.PWR_OP_THERM_CAP)
  if s.pwr.calWide then l * 9 / 10 else l

theorem limitMw_loopFloored : limitMw (loopFloored est time s) = loopLimit s := by
  simp only [limitMw, loopLimit, pwr_loopFloored, (loopFloored_touches est time s).getF (f := Reg.PWR_OP_THERM_CAP) (by decide)]

theorem dwell_loopFloored (d : Nat) : dwellPassed (loopFloored est time s) d time = dwellPassed s d time := by
  have hkept := loopFloored_touches est time s
  have hclk : (loopFloored est time s).clk = s.clk := hkept.parts .clk (by decide)
  have hdwell : getF (loopFloored est time s) Reg.CLK_RAMP_DWELL = getF s Reg.CLK_RAMP_DWELL := hkept.getF (by decide)
  rw [dwellPassed, dwellPassed, dwellNs, dwellNs, pwr_loopFloored, hclk, hdwell]

end

/-! ### The move of OP (R394) -/

section
variable {est pred time : Nat} {s : State}

theorem moveOp_touches (est pred time : Nat) (s : State) : Touches [.flds, .pwr] (oneOf [Reg.PWR_OP_OP]) s (moveOp est pred time s) := by
  have hset (n : Nat) : Touches [.flds, .pwr] (oneOf [Reg.PWR_OP_OP]) s (setF s Reg.PWR_OP_OP n) := .setF (.refl s)
  exact .ite (.refl s) (.ite (.keep (hset _) (pwr_kept _ _)) (.ite (.ite (hset _) (.refl s)) (.ite (hset _) (.refl s))))

theorem moveOp_busy (h : getB s Reg.CLK_REF_STATUS_SWITCH_BUSY = true) : moveOp est pred time s = s := if_pos h

variable (hb : getB s Reg.CLK_REF_STATUS_SWITCH_BUSY = false) (hd : s.pwr.capDrop = false)
include hb hd

theorem moveOp_over (h : limitMw s < est) : moveOp est pred time s =
    if getF s Reg.PWR_OP_OP < 192 ∧ dwellPassed s (31 - getF s Reg.PWR_OP_OP % 32) time then setF s Reg.PWR_OP_OP (getF s Reg.PWR_OP_OP + 1) else s :=
  (if_neg (by simp [hb])).trans ((if_neg (by simp [hd])).trans (if_pos h))

theorem moveOp_within (h : est ≤ limitMw s) : moveOp est pred time s =
    if getF s Reg.PWR_OP_OP_FLOOR < getF s Reg.PWR_OP_OP ∧ 100 * pred ≤ 98 * limitMw s ∧ dwellPassed s (31 - (getF s Reg.PWR_OP_OP - 1) % 32) time
      then setF s Reg.PWR_OP_OP (getF s Reg.PWR_OP_OP - 1) else s :=
  (if_neg (by simp [hb])).trans ((if_neg (by simp [hd])).trans (if_neg (Nat.not_lt.mpr h)))

omit hb hd in
/-- OP has eight bits. -/
theorem getF_setOp {n : Nat} (h : n < 256) (s : State) : getF (setF s Reg.PWR_OP_OP n) Reg.PWR_OP_OP = n :=
  (getF_setF_self s _ n).trans (Nat.mod_eq_of_lt h)

theorem op_moveOp_over (h : limitMw s < est) : getF (moveOp est pred time s) Reg.PWR_OP_OP =
    if getF s Reg.PWR_OP_OP < 192 ∧ dwellPassed s (31 - getF s Reg.PWR_OP_OP % 32) time = true then getF s Reg.PWR_OP_OP + 1
      else getF s Reg.PWR_OP_OP := by
  rw [moveOp_over hb hd h]
  split
  · next hc => exact getF_setOp (by omega) s
  · rfl

theorem op_moveOp_within (hop : getF s Reg.PWR_OP_OP ≤ 192) (h : est ≤ limitMw s) : getF (moveOp est pred time s) Reg.PWR_OP_OP =
    if getF s Reg.PWR_OP_OP_FLOOR < getF s Reg.PWR_OP_OP ∧ 100 * pred ≤ 98 * limitMw s ∧
      dwellPassed s (31 - (getF s Reg.PWR_OP_OP - 1) % 32) time = true then getF s Reg.PWR_OP_OP - 1 else getF s Reg.PWR_OP_OP := by
  rw [moveOp_within hb hd h]
  split
  · next hc => exact getF_setOp (by omega) s
  · rfl

/-- At 192 OP moves neither up nor, its floor being there too, down. -/
theorem op_moveOp_held (hop : getF s Reg.PWR_OP_OP = 192) (hfloor : getF s Reg.PWR_OP_OP_FLOOR = 192) :
    getF (moveOp est pred time s) Reg.PWR_OP_OP = 192 := by
  obtain h | h := Nat.lt_or_ge (limitMw s) est
  · rw [op_moveOp_over hb hd h, hop, if_neg (fun hc => Nat.lt_irrefl _ hc.1)]
  · rw [op_moveOp_within hb hd hop.le h, hop, hfloor, if_neg (fun hc => Nat.lt_irrefl _ hc.1)]

end

/-! ### What a loop shows (R396, R411) -/

/-- Whether OP stands above its floor. -/
def capLimited (s : State) : Bool := decide (getF s Reg.PWR_OP_OP_FLOOR < getF s Reg.PWR_OP_OP)

/-- CAP_LIMITED with its milliseconds. -/
def limitShown (s : State) : State :=
  let s1 := setB s Reg.PWR_STATUS_CAP_LIMITED (capLimited s)
  let us := s1.pwr.capLimUs + b2n (capLimited s)
  if us < 1000 then { s1 with pwr.capLimUs := us } else { bump s1 Reg.PWR_CAP_LIMITED 1 with pwr.capLimUs := 0 }

/-- CAP_UNMET's condition. -/
def unmetShown (est time : Nat) (s : State) : State :=
  if est ≤ limitMw s then { setF s Reg.PWR_STATUS_CAP_UNMET 0 with pwr.unmetAt := none }
  else if getF s Reg.PWR_OP_OP = 192 then { s with pwr.unmetAt := some (s.pwr.unmetAt.getD time) }
  else { s with pwr.unmetAt := none }

theorem capView_eq (est time : Nat) (s : State) : capView est time s = unmetShown est time (limitShown s) := rfl

theorem limitShown_touches (s : State) : Touches [.flds, .pwr] (oneOf [Reg.PWR_STATUS_CAP_LIMITED, Reg.PWR_CAP_LIMITED]) s (limitShown s) :=
  .ite (.keep (.setF (.refl s)) (pwr_kept _ _)) (.keep (.bump (.setF (.refl s))) (pwr_kept _ _))

theorem unmetShown_touches (est time : Nat) (s : State) : Touches [.flds, .pwr] (oneOf [Reg.PWR_STATUS_CAP_UNMET]) s (unmetShown est time s) :=
  .ite (.keep (.setF (.refl s)) (pwr_kept _ _)) (.ite (.keep (.refl s) (pwr_kept s _)) (.keep (.refl s) (pwr_kept s _)))

theorem capView_touches (est time : Nat) (s : State) :
    Touches [.flds, .pwr] (oneOf [Reg.PWR_STATUS_CAP_LIMITED, Reg.PWR_CAP_LIMITED, Reg.PWR_STATUS_CAP_UNMET]) s (capView est time s) := by
  rw [capView_eq]
  exact ((limitShown_touches s).mono (by decide) fun _ => oneOf_mono (by decide)).step (unmetShown_touches est time _) (by decide)
    fun _ => oneOf_mono (by decide)

theorem getB_limitShown (s : State) : getB (limitShown s) Reg.PWR_STATUS_CAP_LIMITED = capLimited s := by
  have hset := getB_setB_self s Reg.PWR_STATUS_CAP_LIMITED (capLimited s) (by decide)
  unfold limitShown
  dsimp only
  split
  · exact hset
  · exact (congrArg (· == 1) (getF_setF_ne (by decide))).trans hset

theorem pwr_limitShown (s : State) : ∃ n, (limitShown s).pwr = { s.pwr with capLimUs := n } := by
  unfold limitShown
  dsimp only
  split
  · exact ⟨_, rfl⟩
  · exact ⟨_, rfl⟩

theorem limitMw_limitShown (s : State) : limitMw (limitShown s) = limitMw s := by
  obtain ⟨n, hpwr⟩ := pwr_limitShown s
  simp only [limitMw, hpwr, (limitShown_touches s).getF (f := Reg.PWR_OP_THERM_CAP) (by decide)]

theorem cEff_unmetShown (est time : Nat) (s : State) : (unmetShown est time s).pwr.cEff = s.pwr.cEff := by
  unfold unmetShown
  split
  · rfl
  · split <;> rfl

theorem capView_spec (est time : Nat) (s : State) : (capView est time s).pwr.cEff = s.pwr.cEff ∧
    getB (capView est time s) Reg.PWR_STATUS_CAP_LIMITED = capLimited s ∧
    (est ≤ limitMw s → getB (capView est time s) Reg.PWR_STATUS_CAP_UNMET = false ∧ (capView est time s).pwr.unmetAt = none) := by
  obtain ⟨n, hpwr⟩ := pwr_limitShown s
  rw [capView_eq]
  refine ⟨(cEff_unmetShown est time _).trans (by rw [hpwr]), ((unmetShown_touches est time _).getB (by decide)).trans (getB_limitShown s), fun h => ?_⟩
  have hmet : unmetShown est time (limitShown s) = { setF (limitShown s) Reg.PWR_STATUS_CAP_UNMET 0 with pwr.unmetAt := none } :=
    if_pos (by rwa [limitMw_limitShown])
  rw [hmet]
  exact ⟨getB_setB_self (limitShown s) Reg.PWR_STATUS_CAP_UNMET false (by decide), rfl⟩

/-! ### The loop (R391, R393, R394, R396) -/

/-- A state after one loop. -/
def looped (est pred time : Nat) (s : State) : State := capSummed (loopMoved est pred time s)

section
variable {s : State} (core rest pcore prest time : Nat)

theorem exec_powerLoop (hc : clocked s = true) :
    exec (.powerLoop core rest pcore prest time) s = .next (looped (pEst s core rest) (pEst s pcore prest) time s) := by
  have hpwr : (atTime time s).pwr = s.pwr := (atTime_touches time s).parts .pwr (by decide)
  have hest : pEst (atTime time s) core rest = pEst s core rest := pEst_congr ⟨by rw [hpwr], by rw [hpwr]⟩ core rest
  have hpred : pEst (loopFloored (pEst s core rest) time s) pcore prest = pEst s pcore prest :=
    pEst_congr ⟨by rw [pwr_loopFloored], by rw [pwr_loopFloored]⟩ pcore prest
  refine congrArg Host.Outcome.next ((if_neg (by simp [hc])).trans ?_)
  rw [looped, loopMoved, ← hpred, ← hest]
  rfl

theorem exec_powerLoop_unclocked (hc : clocked s = false) : exec (.powerLoop core rest pcore prest time) s = .next s :=
  congrArg Host.Outcome.next (if_pos (by simp [hc]))

end

section
variable (est pred time : Nat) (s : State)

theorem loopMoved_touches : Touches [.flds, .pwr] (oneOf [Reg.PWR_OP_OP, Reg.PWR_STATUS_CAP_LIMITED, Reg.PWR_CAP_LIMITED, Reg.PWR_STATUS_CAP_UNMET])
    (loopFloored est time s) (loopMoved est pred time s) :=
  ((moveOp_touches est pred time _).mono (by decide) fun _ => oneOf_mono (by decide)).step (capView_touches est time _) (by decide)
    fun _ => oneOf_mono (by decide)

theorem looped_touches : Touches [.flds, .pwr, .now] (fun k => pmcKey k || oneOf loopFlds k) s (looped est pred time s) := by
  have hfloored : Touches [.flds, .pwr, .now] (fun k => pmcKey k || oneOf loopFlds k) s (loopFloored est time s) :=
    (loopFloored_touches est time s).mono (fun _ => id) fun k e => by
      obtain ⟨hpmc, hflds⟩ := Bool.or_eq_false_iff.mp e
      rw [hpmc, oneOf_mono (by decide) hflds]
      rfl
  exact .keep (hfloored.step (loopMoved_touches est pred time s) (by decide) fun k e => oneOf_mono (by decide) (Bool.or_eq_false_iff.mp e).2)
    (pwr_kept _ _)

/-- What a loop shows behind the move of OP. -/
theorem looped_shown : (looped est pred time s).pwr.cEff = slewTo s ∧
    getF (looped est pred time s) Reg.PWR_EST_EST = min 4095 (est / 1000) ∧
    getF (looped est pred time s) Reg.PWR_CAP_EFFECTIVE = slewTo s / 1000 % 4096 ∧
    getF (looped est pred time s) Reg.PWR_OP_OP = getF (moveOp est pred time (loopFloored est time s)) Reg.PWR_OP_OP ∧
    getF (looped est pred time s) Reg.PWR_OP_OP_FLOOR = floorOf s % 256 ∧
    getB (looped est pred time s) Reg.PWR_STATUS_CAP_LIMITED = decide (floorOf s % 256 < getF (looped est pred time s) Reg.PWR_OP_OP) ∧
    (est ≤ loopLimit s → getB (looped est pred time s) Reg.PWR_STATUS_CAP_UNMET = false ∧ (looped est pred time s).pwr.unmetAt = none) := by
  have hmove := moveOp_touches est pred time (loopFloored est time s)
  have hview := capView_touches est time (moveOp est pred time (loopFloored est time s))
  have hmoved := loopMoved_touches est pred time s
  have hfloor := setFloor_touches (loopSlewed est time s)
  obtain ⟨hest, hcap⟩ := getF_loopSlewed est time s
  obtain ⟨hceff, hlim, hunmet⟩ := capView_spec est time (moveOp est pred time (loopFloored est time s))
  have hpwr : ∃ d, (moveOp est pred time (loopFloored est time s)).pwr = { s.pwr with cEff := slewTo s, capDrop := d } := by
    rw [moveOp]
    dsimp only
    split
    · exact ⟨_, pwr_loopFloored est time s⟩
    · split
      · exact ⟨false, congrArg (fun x : PwrSt => { x with capDrop := false }) (pwr_loopFloored est time s)⟩
      · split
        · split <;> exact ⟨_, pwr_loopFloored est time s⟩
        · split <;> exact ⟨_, pwr_loopFloored est time s⟩
  obtain ⟨d, hpwr⟩ := hpwr
  have hlimit : limitMw (moveOp est pred time (loopFloored est time s)) = loopLimit s := by
    rw [← limitMw_loopFloored est time s]
    simp only [limitMw, hpwr, pwr_loopFloored, hmove.getF (f := Reg.PWR_OP_THERM_CAP) (by decide)]
  have hfloorEq : getF (moveOp est pred time (loopFloored est time s)) Reg.PWR_OP_OP_FLOOR = floorOf s % 256 := by
    rw [hmove.getF (by decide), loopFloored, getF_setFloor_floor, floorOf_loopSlewed]
    rfl
  have hop : getF (looped est pred time s) Reg.PWR_OP_OP = getF (moveOp est pred time (loopFloored est time s)) Reg.PWR_OP_OP :=
    hview.getF (by decide)
  refine ⟨hceff.trans (by rw [hpwr]), (hmoved.getF (by decide)).trans ((hfloor.getF (by decide)).trans hest),
    (hmoved.getF (by decide)).trans ((hfloor.getF (by decide)).trans hcap), hop, (hview.getF (by decide)).trans hfloorEq, ?_,
    fun h => hunmet (by rwa [hlimit])⟩
  rw [hop, ← hfloorEq]
  exact hlim

/-- The operating point and its floor behind a loop, no switch being in progress. -/
theorem op_loopFloored (hb : getB s Reg.CLK_REF_STATUS_SWITCH_BUSY = false) (hop : getF s Reg.PWR_OP_OP ≤ 192) (hfloor : floorOf s ≤ 192) :
    getF (loopFloored est time s) Reg.PWR_OP_OP = max (getF s Reg.PWR_OP_OP) (floorOf s) ∧
    getF (loopFloored est time s) Reg.PWR_OP_OP_FLOOR = floorOf s ∧
    getB (loopFloored est time s) Reg.CLK_REF_STATUS_SWITCH_BUSY = false := by
  have hslewed := loopSlewed_touches est time s
  have hbusy : getB (loopSlewed est time s) Reg.CLK_REF_STATUS_SWITCH_BUSY = false := (hslewed.getB (by decide)).trans hb
  refine ⟨?_, ?_, ((loopFloored_touches est time s).getB (by decide)).trans hb⟩
  · rw [loopFloored, getF_setFloor_op _ hbusy, floorOf_loopSlewed, hslewed.getF (by decide)]
    exact Nat.mod_eq_of_lt (by omega)
  · rw [loopFloored, getF_setFloor_floor, floorOf_loopSlewed]
    exact Nat.mod_eq_of_lt (by omega)

theorem op_looped_busy (hb : getB s Reg.CLK_REF_STATUS_SWITCH_BUSY = true) :
    getF (looped est pred time s) Reg.PWR_OP_OP = getF s Reg.PWR_OP_OP := by
  have hslewed := loopSlewed_touches est time s
  obtain ⟨-, -, -, hop, -⟩ := looped_shown est pred time s
  rw [hop, moveOp_busy (((loopFloored_touches est time s).getB (by decide)).trans hb), loopFloored,
    getF_setFloor_op_busy _ ((hslewed.getB (by decide)).trans hb), hslewed.getF (by decide)]

section
variable {s} (hb : getB s Reg.CLK_REF_STATUS_SWITCH_BUSY = false) (hd : s.pwr.capDrop = false) (hop : getF s Reg.PWR_OP_OP ≤ 192)
include hb hd hop

/-- R397: under a brake OP stays at 192. -/
theorem op_looped_braked (h : s.pwr.brakes ≠ []) :
    getF (looped est pred time s) Reg.PWR_OP_OP = 192 ∧ getF (looped est pred time s) Reg.PWR_OP_OP_FLOOR = 192 := by
  obtain ⟨-, -, -, hopEq, hfloorEq, -⟩ := looped_shown est pred time s
  obtain ⟨hopF, hfloorF, hbF⟩ := op_loopFloored est time s hb hop (floorOf_braked h).le
  rw [floorOf_braked h] at hopF hfloorF hfloorEq
  rw [Nat.max_eq_right hop] at hopF
  exact ⟨hopEq.trans (op_moveOp_held hbF (by rw [pwr_loopFloored]; exact hd) hopF hfloorF), hfloorEq⟩

/-- R394: without a brake OP moves by at most one. -/
theorem op_looped_free (h : s.pwr.brakes = []) (hm : getF s Reg.CLK_ACLK_CEIL_MIN_CODE ≤ 6) :
    let floor := 32 * getF s Reg.CLK_ACLK_CEIL_MIN_CODE
    let op := max (getF s Reg.PWR_OP_OP) floor
    let t := looped est pred time s
    getF t Reg.PWR_OP_OP_FLOOR = floor ∧
      (loopLimit s < est → getF t Reg.PWR_OP_OP = if op < 192 ∧ dwellPassed s (31 - op % 32) time = true then op + 1 else op) ∧
      (est ≤ loopLimit s → getF t Reg.PWR_OP_OP =
        if floor < op ∧ 100 * pred ≤ 98 * loopLimit s ∧ dwellPassed s (31 - (op - 1) % 32) time = true then op - 1 else op) ∧
      getB t Reg.PWR_STATUS_CAP_LIMITED = decide (floor < getF t Reg.PWR_OP_OP) := by
  obtain ⟨-, -, -, hopEq, hfloorEq, hlim, -⟩ := looped_shown est pred time s
  have hle : floorOf s ≤ 192 := by rw [floorOf_free h]; omega
  obtain ⟨hopF, hfloorF, hbF⟩ := op_loopFloored est time s hb hop hle
  have hdF : (loopFloored est time s).pwr.capDrop = false := by rw [pwr_loopFloored]; exact hd
  rw [Nat.mod_eq_of_lt (by omega)] at hfloorEq hlim
  rw [← floorOf_free h]
  refine ⟨hfloorEq, fun hover => ?_, fun hin => ?_, hlim⟩
  · rw [hopEq, op_moveOp_over hbF hdF (by rwa [limitMw_loopFloored]), hopF, dwell_loopFloored]
  · rw [hopEq, op_moveOp_within hbF hdF (by rw [hopF]; omega) (by rwa [limitMw_loopFloored]), hopF, hfloorF, limitMw_loopFloored,
      dwell_loopFloored]

end

end

/-! ### Calibration (R391, R392) -/

/-- A gain as the window just ended measures it. -/
def gainOf (old est measured : Nat) : Nat := if est = 0 then old else 1000000 * measured / est

section
variable (core rest cmeas inmeas : Nat) (s : State)

def calibratedWide : Bool :=
  wideCorrection s.pwr.gainCore (gainOf s.pwr.gainCore core cmeas) || wideCorrection s.pwr.gainRest (gainOf s.pwr.gainRest rest (inmeas - cmeas))

/-- The gains are clamped, and a wide correction reported. -/
def gainsSet : State :=
  let s1 := { s with pwr.gainCore := gainClamp (gainOf s.pwr.gainCore core cmeas), pwr.gainRest := gainClamp (gainOf s.pwr.gainRest rest (inmeas - cmeas)),
                     pwr.calWide := calibratedWide core rest cmeas inmeas s }
  if calibratedWide core rest cmeas inmeas s then setF s1 Reg.PWR_STATUS_CAL_FAULT 1 else s1

/-- The measured energy is added. -/
def energyAdded (s : State) : State :=
  let e := s.pwr.energyMj + inmeas
  { bump (setF s Reg.PWR_EST_MEAS (min 4095 (inmeas / 10))) Reg.PWR_ENERGY (e / 1000) with pwr.energyMj := e % 1000 }

theorem exec_gainCalibration (hc : clocked s = true) :
    exec (.gainCalibration core rest cmeas inmeas) s = .next (energyAdded inmeas (gainsSet core rest cmeas inmeas s)) :=
  congrArg Host.Outcome.next (if_neg (by simp [hc]))

theorem gainsSet_touches : Touches [.flds, .pwr] (oneOf [Reg.PWR_STATUS_CAL_FAULT]) s (gainsSet core rest cmeas inmeas s) :=
  .ite (.setF (.keep (.refl s) (pwr_kept s _))) (.keep (.refl s) (pwr_kept s _))

theorem energyAdded_touches : Touches [.flds, .pwr] (oneOf [Reg.PWR_EST_MEAS, Reg.PWR_ENERGY]) s (energyAdded inmeas s) :=
  .keep (.bump (.setF (.refl s))) (pwr_kept _ _)

theorem pwr_gainsSet : (gainsSet core rest cmeas inmeas s).pwr = { s.pwr with
    gainCore := gainClamp (gainOf s.pwr.gainCore core cmeas), gainRest := gainClamp (gainOf s.pwr.gainRest rest (inmeas - cmeas)),
    calWide := calibratedWide core rest cmeas inmeas s } := by
  unfold gainsSet
  dsimp only
  split <;> rfl

theorem calFault_gainsSet :
    (calibratedWide core rest cmeas inmeas s = true → getB (gainsSet core rest cmeas inmeas s) Reg.PWR_STATUS_CAL_FAULT = true) ∧
    (calibratedWide core rest cmeas inmeas s = false →
      getF (gainsSet core rest cmeas inmeas s) Reg.PWR_STATUS_CAL_FAULT = getF s Reg.PWR_STATUS_CAL_FAULT) := by
  refine ⟨fun h => ?_, fun h => ?_⟩
  · rw [gainsSet, if_pos h]
    exact getB_setF_one _ (by decide)
  · rw [gainsSet, if_neg (by rw [h]; exact Bool.false_ne_true)]
    rfl

theorem energyAdded_spec : getF (energyAdded inmeas s) Reg.PWR_EST_MEAS = min 4095 (inmeas / 10) ∧
    getF (energyAdded inmeas s) Reg.PWR_ENERGY = min (getF s Reg.PWR_ENERGY + (s.pwr.energyMj + inmeas) / 1000) (2 ^ 64 - 1) := by
  have hmeas : getF (energyAdded inmeas s) Reg.PWR_EST_MEAS = min 4095 (inmeas / 10) % 2 ^ 12 :=
    (getF_setF_ne (by decide)).trans (getF_setF_self s Reg.PWR_EST_MEAS (min 4095 (inmeas / 10)))
  have henergy : getF (energyAdded inmeas s) Reg.PWR_ENERGY =
      min (getF (setF s Reg.PWR_EST_MEAS (min 4095 (inmeas / 10))) Reg.PWR_ENERGY + (s.pwr.energyMj + inmeas) / 1000) (2 ^ 64 - 1) :=
    getF_bump_self (setF s Reg.PWR_EST_MEAS (min 4095 (inmeas / 10))) (f := Reg.PWR_ENERGY) rfl _
  refine ⟨hmeas.trans (Nat.mod_eq_of_lt (Nat.lt_of_le_of_lt (Nat.min_le_left _ _) (by decide))), ?_⟩
  rw [henergy, getF_setF_ne (by decide)]

theorem gainCalibration_spec : let t := energyAdded inmeas (gainsSet core rest cmeas inmeas s)
    t.pwr.gainCore = max 800000 (min 1250000 (gainOf s.pwr.gainCore core cmeas)) ∧
      t.pwr.gainRest = max 800000 (min 1250000 (gainOf s.pwr.gainRest rest (inmeas - cmeas))) ∧
      t.pwr.calWide = calibratedWide core rest cmeas inmeas s ∧
      (calibratedWide core rest cmeas inmeas s = true → getB t Reg.PWR_STATUS_CAL_FAULT = true) ∧
      (calibratedWide core rest cmeas inmeas s = false → getF t Reg.PWR_STATUS_CAL_FAULT = getF s Reg.PWR_STATUS_CAL_FAULT) ∧
      getF t Reg.PWR_EST_MEAS = min 4095 (inmeas / 10) ∧
      getF t Reg.PWR_ENERGY = min (getF s Reg.PWR_ENERGY + (s.pwr.energyMj + inmeas) / 1000) (2 ^ 64 - 1) ∧
      t.pwr.energyMj = (s.pwr.energyMj + inmeas) % 1000 ∧
      regsKept (oneOf [Reg.PWR_STATUS_CAL_FAULT, Reg.PWR_EST_MEAS, Reg.PWR_ENERGY]) s t ∧ keptBut [.flds, .pwr] s t := by
  have hgains := gainsSet_touches core rest cmeas inmeas s
  have hadded := energyAdded_touches inmeas (gainsSet core rest cmeas inmeas s)
  have hpwr := pwr_gainsSet core rest cmeas inmeas s
  have hpwr' : (energyAdded inmeas (gainsSet core rest cmeas inmeas s)).pwr = { (gainsSet core rest cmeas inmeas s).pwr with
      energyMj := ((gainsSet core rest cmeas inmeas s).pwr.energyMj + inmeas) % 1000 } := rfl
  obtain ⟨hwide, hnarrow⟩ := calFault_gainsSet core rest cmeas inmeas s
  obtain ⟨hmeas, henergy⟩ := energyAdded_spec inmeas (gainsSet core rest cmeas inmeas s)
  rw [hgains.getF (by decide), hpwr] at henergy
  have hall : Touches [.flds, .pwr] (oneOf [Reg.PWR_STATUS_CAL_FAULT, Reg.PWR_EST_MEAS, Reg.PWR_ENERGY]) s
      (energyAdded inmeas (gainsSet core rest cmeas inmeas s)) :=
    (hgains.mono (by decide) fun _ => oneOf_mono (by decide)).step hadded (by decide) fun _ => oneOf_mono (by decide)
  refine ⟨by rw [hpwr', hpwr]; rfl, by rw [hpwr', hpwr]; rfl, by rw [hpwr', hpwr], fun h => (hadded.getB (by decide)).trans (hwide h),
    fun h => (hadded.getF (by decide)).trans (hnarrow h), hmeas, henergy, by rw [hpwr', hpwr], hall.regs, hall.parts⟩

end

/-! ### The target (R393, R395) and CAP_UNMET (R396) -/

section
variable {s : State} {w : Nat}

theorem setTarget_out (h : w < 900 ∨ 2200 < w) : setTarget w s = s := if_pos h

/-- A drop of the target beyond one slew of C_eff. -/
def targetDrops (w : Nat) (s : State) : Prop := 1000 * w + 1000 * getF s Reg.PWR_SLEW_DOWN < s.pwr.cEff

theorem setTarget_plain (hin : ¬(w < 900 ∨ 2200 < w)) (h : ¬ targetDrops w s) : setTarget w s = setF s Reg.PWR_CAP_TARGET w :=
  (if_neg hin).trans (if_neg h)

theorem setTarget_waits (hin : ¬(w < 900 ∨ 2200 < w)) (h : targetDrops w s) (hb : getB s Reg.CLK_REF_STATUS_SWITCH_BUSY = true) :
    setTarget w s = { setF s Reg.PWR_CAP_TARGET w with pwr.capDrop := true } := (if_neg hin).trans ((if_pos h).trans (if_pos hb))

theorem setTarget_raises (hin : ¬(w < 900 ∨ 2200 < w)) (h : targetDrops w s) (hb : getB s Reg.CLK_REF_STATUS_SWITCH_BUSY = false) :
    setTarget w s = setF (setF s Reg.PWR_CAP_TARGET w) Reg.PWR_OP_OP (min 192 (getF (setF s Reg.PWR_CAP_TARGET w) Reg.PWR_OP_OP + 32)) :=
  (if_neg hin).trans ((if_pos h).trans (if_neg (by rw [hb]; exact Bool.false_ne_true)))

theorem setTarget_spec (hlo : 900 ≤ w) (hhi : w ≤ 2200) : let t := setTarget w s
    getF t Reg.PWR_CAP_TARGET = w ∧
      (if 1000 * w + 1000 * getF s Reg.PWR_SLEW_DOWN < s.pwr.cEff then
        (if getB s Reg.CLK_REF_STATUS_SWITCH_BUSY = true then getF t Reg.PWR_OP_OP = getF s Reg.PWR_OP_OP ∧ t.pwr = { s.pwr with capDrop := true }
         else getF t Reg.PWR_OP_OP = min 192 (getF s Reg.PWR_OP_OP + 32) ∧ t.pwr = s.pwr)
       else getF t Reg.PWR_OP_OP = getF s Reg.PWR_OP_OP ∧ t.pwr = s.pwr) ∧
      regsKept (oneOf [Reg.PWR_CAP_TARGET, Reg.PWR_OP_OP]) s t ∧ keptBut [.flds, .pwr] s t := by
  have hin : ¬(w < 900 ∨ 2200 < w) := by omega
  have htarget : getF (setF s Reg.PWR_CAP_TARGET w) Reg.PWR_CAP_TARGET = w :=
    (getF_setF_self s _ w).trans (Nat.mod_eq_of_lt (Nat.lt_of_le_of_lt hhi (by decide)))
  have hop : getF (setF s Reg.PWR_CAP_TARGET w) Reg.PWR_OP_OP = getF s Reg.PWR_OP_OP := getF_setF_ne (by decide)
  have hset : Touches [.flds, .pwr] (oneOf [Reg.PWR_CAP_TARGET, Reg.PWR_OP_OP]) s (setF s Reg.PWR_CAP_TARGET w) := .setF (.refl s)
  by_cases hdrop : 1000 * w + 1000 * getF s Reg.PWR_SLEW_DOWN < s.pwr.cEff
  · simp only [if_pos hdrop]
    cases hb : getB s Reg.CLK_REF_STATUS_SWITCH_BUSY with
    | true =>
      rw [setTarget_waits hin hdrop hb, if_pos rfl]
      have hall := hset.keep (pwr_kept _ { s.pwr with capDrop := true })
      exact ⟨htarget, ⟨hop, rfl⟩, hall.regs, hall.parts⟩
    | false =>
      rw [setTarget_raises hin hdrop hb, if_neg Bool.false_ne_true, hop]
      have hall := hset.setF (f := Reg.PWR_OP_OP) (v := min 192 (getF s Reg.PWR_OP_OP + 32))
      exact ⟨(getF_setF_ne (by decide)).trans htarget, ⟨getF_setOp (by omega) _, rfl⟩, hall.regs, hall.parts⟩
  · simp only [if_neg hdrop]
    rw [setTarget_plain hin hdrop]
    exact ⟨htarget, ⟨hop, rfl⟩, hset.regs, hset.parts⟩

theorem exec_capTarget {c : Instr} (h : (∃ p v, c = .capTargetWrite p v ∧ w = bitsAt v.toNat 0 12 ∧ stageAlive s = true) ∨
    (c = .pldmCapEffecter w ∧ mgmtAlive s = true)) : exec c s = .next (setTarget w s) := by
  obtain ⟨p, v, rfl, rfl, ha⟩ | ⟨rfl, hm⟩ := h
  · exact congrArg Host.Outcome.next (viaPf0_alive ha p _)
  · exact congrArg Host.Outcome.next (if_pos hm)

end

/-- What an alert that a held condition raises changes, its time and status bit among them. -/
theorem alertNoted_touches (time : Nat) (f a : Fld) (s : State) : Touches (.now :: irqParts)
    (fun k => pmcKey k || irqKey k || oneOf [f, a] k) s (alert a (setF (atTime time s) f 1)) := by
  have hsplit : ∀ k, (pmcKey k || irqKey k || oneOf [f, a] k) = false → pmcKey k = false ∧ irqKey k = false ∧ oneOf [f, a] k = false := by
    simp only [Bool.or_eq_false_iff, and_assoc, imp_self, implies_true]
  have hset : Touches (.now :: irqParts) (fun k => pmcKey k || irqKey k || oneOf [f, a] k) s (setF (atTime time s) f 1) :=
    .setF ((Touches.refl s).now fun k e => (hsplit k e).1) (by rw [oneOf_mem List.mem_cons_self, Bool.or_true])
  refine hset.step (alert_touches a _) (by decide) fun k e => ?_
  obtain ⟨-, hirq, hflds⟩ := hsplit k e
  rw [alertKey, hirq, oneOf_mono (by simp) hflds]
  rfl

/-- R430: both the condition's bit and the alert are set. -/
theorem alertNoted_bits (time : Nat) {f a : Fld} (s : State) (hf : 0 < f.len) (ha : 0 < a.len) (hirq : irqKey (fldKey a .a) = false)
    (hkey : alertKey a (fldKey f .a) = false) :
    getB (alert a (setF (atTime time s) f 1)) f = true ∧ getB (alert a (setF (atTime time s) f 1)) a = true :=
  ⟨((alert_touches a _).getB hkey).trans (getB_setF_one _ hf), getB_alert hirq ha _⟩

section
variable {s : State} {time : Nat}

theorem exec_capUnmet {x : Nat} (hx : s.pwr.unmetAt = some x) (h : x + 1000000 ≤ time) :
    exec (.capUnmet time) s = .next (alert Reg.HOST_ALERT_CAP_UNMET (setF (atTime time s) Reg.PWR_STATUS_CAP_UNMET 1)) := by
  refine congrArg Host.Outcome.next ?_
  rw [hx]
  exact if_pos h

theorem exec_capUnmet_not (h : ∀ x, s.pwr.unmetAt = some x → time < x + 1000000) : exec (.capUnmet time) s = .next s := by
  refine congrArg Host.Outcome.next ?_
  cases hx : s.pwr.unmetAt with
  | none => rfl
  | some x => exact if_neg (Nat.not_le.mpr (h x hx))

end

/-! ### The statement -/

/-- Settles O50: within a loop the slew of C_eff, the floor and the move of OP each read what the one before has set. -/
theorem powerLoopAndCap : Obligations.PowerLoopAndCap := by
  unfold Obligations.PowerLoopAndCap
  refine ⟨fun s core rest pcore prest time hc => ?_, fun s core rest cmeas inmeas hc =>
      ⟨_, exec_gainCalibration core rest cmeas inmeas s hc, gainCalibration_spec core rest cmeas inmeas s⟩,
    fun s core rest pcore prest time cmeas inmeas hc => ⟨exec_powerLoop_unclocked core rest pcore prest time hc,
      congrArg Host.Outcome.next (if_pos (by simp [hc]))⟩,
    fun s c w hcmd => ⟨fun hout => ?_, fun hlo hhi => ⟨_, exec_capTarget hcmd, setTarget_spec hlo hhi⟩⟩,
    fun s time => ⟨fun x hx hdue => ⟨_, exec_capUnmet hx hdue, ?_⟩, exec_capUnmet_not⟩⟩
  · obtain ⟨hceff, hest, hcap, -, -, -, hunmet⟩ := looped_shown (pEst s core rest) (pEst s pcore prest) time s
    have hkept := looped_touches (pEst s core rest) (pEst s pcore prest) time s
    exact ⟨_, exec_powerLoop core rest pcore prest time hc, hest, hceff, hcap,
      fun hbr hop hb hd => op_looped_braked _ _ time hb hd hop hbr, fun hbr hop hm hb hd => op_looped_free _ _ time hb hd hop hbr hm,
      op_looped_busy _ _ time s, hunmet, hkept.regs, hkept.parts⟩
  · rw [exec_capTarget hcmd, setTarget_out hout]
  · have hkept := alertNoted_touches time Reg.PWR_STATUS_CAP_UNMET Reg.HOST_ALERT_CAP_UNMET s
    obtain ⟨hbit, halert⟩ := alertNoted_bits time (f := Reg.PWR_STATUS_CAP_UNMET) (a := Reg.HOST_ALERT_CAP_UNMET) s (by decide) (by decide)
      (by decide) (by decide)
    exact ⟨hbit, halert, hkept.regs, hkept.parts⟩

end Sys2Proof.Machine
end

