-- ==== Sys2Proof/Proofs/SidebandInputs.lean ====
section
/-!
SUPPORT. Proofs/SidebandInputs.lean: brakes entered and lifted by the sideband inputs, PERST, toggling inputs, and inputs that stay
asserted (R397, R398, R407, R409, R427 to R429, R464).
-/
namespace Sys2Proof.Machine

set_option Elab.async false

/-! ### A brake is entered (R398) -/

/-- What a brake's entry changes beside the registers of its cause. -/
def brakeEntryFlds : List Fld := [Reg.PWR_STATUS_BRAKE, Reg.PWR_BRAKES, Reg.PWR_OP_OP, Reg.PWR_OP_OP_FLOOR]

/-- The parts that a cause and its brake change. -/
def brakeParts : List Part := .pwr :: .now :: .ledger :: .ledgerSeq :: irqParts

def causeKey (fs : List Fld) (k : Nat) : Bool := pmcKey k || irqKey k || oneOf fs k

theorem causeKey_false {fs : List Fld} {k : Nat} (h : causeKey fs k = false) : pmcKey k = false ∧ irqKey k = false ∧ oneOf fs k = false := by
  simpa only [causeKey, Bool.or_eq_false_iff, and_assoc] using h

theorem brakeOn_entry {k : Nat} {s : State} (h : s.pwr.brakes.contains k = false) :
    Touches [.flds, .pwr] (oneOf brakeEntryFlds) s (brakeOn k s) := by
  rw [brakeOn_new h]
  exact ((brakeNoted_touches k s).mono (by decide) fun _ => oneOf_mono (by decide)).step (setFloor_touches _) (by decide)
    fun _ => oneOf_mono (by decide)

/-- R397, R398, R407, R409: a cause that is noted, and its brake. -/
theorem braked_spec {s u : State} {k : Nat} {fs : List Fld} (h : Touches brakeParts (causeKey fs) s u) (hbr : u.pwr.brakes = s.pwr.brakes)
    (hk : s.pwr.brakes.contains k = false) (hbits : ∀ f ∈ fs, getB u f = true)
    (hfs : ∀ f ∈ fs, oneOf brakeEntryFlds (fldKey f .a) = false)
    (hentry : ∀ f ∈ Reg.CLK_REF_STATUS_SWITCH_BUSY :: brakeEntryFlds, causeKey fs (fldKey f .a) = false) : let t := brakeOn k u
    (∀ f ∈ fs, getB t f = true) ∧ t.pwr.brakes = k :: s.pwr.brakes ∧ getB t Reg.PWR_STATUS_BRAKE = true ∧
      getF t Reg.PWR_BRAKES = min (getF s Reg.PWR_BRAKES + 1) (2 ^ 64 - 1) ∧ getF t Reg.PWR_OP_OP_FLOOR = 192 ∧
      (getF s Reg.PWR_OP_OP ≤ 192 → getB s Reg.CLK_REF_STATUS_SWITCH_BUSY = false → getF t Reg.PWR_OP_OP = 192) ∧
      (getB s Reg.CLK_REF_STATUS_SWITCH_BUSY = true → getF t Reg.PWR_OP_OP = getF s Reg.PWR_OP_OP) ∧
      regsKept (fun x => pmcKey x || irqKey x || oneOf ([Reg.PWR_STATUS_BRAKE, Reg.PWR_BRAKES, Reg.PWR_OP_OP, Reg.PWR_OP_OP_FLOOR] ++ fs) x) s t ∧
      keptBut brakeParts s t := by
  have hku : u.pwr.brakes.contains k = false := by rw [hbr]; exact hk
  have hon := brakeOn_entry hku
  obtain ⟨hstatus, hcount, hfloor, hop, hwait⟩ := brakeOn_regs hku
  simp only [List.forall_mem_cons, brakeEntryFlds] at hentry
  obtain ⟨hbusyK, -, hcountK, hopK, -⟩ := hentry
  rw [h.getF hopK] at hop hwait
  rw [h.getB hbusyK] at hop hwait
  have hbrakes : (brakeOn k u).pwr.brakes = k :: s.pwr.brakes := by
    rw [pwr_brakeOn, hku, hbr]
    rfl
  have hall : Touches brakeParts (fun x => pmcKey x || irqKey x || oneOf (brakeEntryFlds ++ fs) x) s (brakeOn k u) := by
    have hsplit : ∀ x, (pmcKey x || irqKey x || oneOf (brakeEntryFlds ++ fs) x) = false → causeKey fs x = false ∧ oneOf brakeEntryFlds x = false := by
      intro x e
      simp only [oneOf_append, Bool.or_eq_false_iff] at e
      obtain ⟨⟨hpmc, hirq⟩, hentry, hcause⟩ := e
      exact ⟨by simp [causeKey, hpmc, hirq, hcause], hentry⟩
    exact (h.mono (fun _ => id) fun x e => (hsplit x e).1).step hon (by decide) fun x e => (hsplit x e).2
  exact ⟨fun f hf => (hon.getB (hfs f hf)).trans (hbits f hf), hbrakes, hstatus, hcount.trans (by rw [h.getF hcountK]), hfloor, hop, hwait,
    hall.regs, hall.parts⟩

/-! ### The inputs' own registers (R397, R407) -/

def shutterFlds : List Fld := [Reg.HOST_SIDEBAND_SHUTTER, Reg.PWR_STATUS_SHUTTER]
def leakFlds : List Fld := [Reg.HOST_SIDEBAND_LEAK, Reg.PWR_STATUS_LEAK]

def shutterMark (v : Nat) (x : Option Nat) (s : State) : State :=
  let s1 := setF (setF s Reg.HOST_SIDEBAND_SHUTTER v) Reg.PWR_STATUS_SHUTTER v
  { s1 with pwr.shutterAt := x }

def leakMark (v : Nat) (x : Option Nat) (s : State) : State :=
  let s1 := setF (setF s Reg.HOST_SIDEBAND_LEAK v) Reg.PWR_STATUS_LEAK v
  { s1 with pwr.leakAt := x }

/-- A leak that is accepted is an alert and a record. -/
def leakNoted (time : Nat) (s : State) : State := ledgerThermal 4 0 0 (alert Reg.HOST_ALERT_LEAK (leakMark 1 (some time) s))

section
variable (s : State)

theorem shutterMark_touches (v : Nat) (x : Option Nat) : Touches [.flds, .pwr] (oneOf shutterFlds) s (shutterMark v x s) :=
  .keep (.setF (.setF (.refl s))) (pwr_kept _ _)

theorem leakMark_touches (v : Nat) (x : Option Nat) : Touches [.flds, .pwr] (oneOf leakFlds) s (leakMark v x s) :=
  .keep (.setF (.setF (.refl s))) (pwr_kept _ _)

theorem getB_shutterMark (b : Bool) (x : Option Nat) : ∀ f ∈ shutterFlds, getB (shutterMark (b2n b) x s) f = b := by
  simp only [shutterFlds, List.forall_mem_cons, List.not_mem_nil, false_implies, implies_true, and_true]
  exact ⟨(getB_setB_ne (by decide)).trans (getB_setB_self _ _ _ (by decide)), getB_setB_self _ _ _ (by decide)⟩

theorem getB_leakMark (b : Bool) (x : Option Nat) : ∀ f ∈ leakFlds, getB (leakMark (b2n b) x s) f = b := by
  simp only [leakFlds, List.forall_mem_cons, List.not_mem_nil, false_implies, implies_true, and_true]
  exact ⟨(getB_setB_ne (by decide)).trans (getB_setB_self _ _ _ (by decide)), getB_setB_self _ _ _ (by decide)⟩

/-- What follows a leak's own registers. -/
theorem leakNoted_behind (time : Nat) :
    Touches (.ledger :: .ledgerSeq :: irqParts) (alertKey Reg.HOST_ALERT_LEAK) (leakMark 1 (some time) s) (leakNoted time s) :=
  .keep ((alert_touches _ _).mono (by decide) fun _ => id) (ledgerAdd_kept _ _ _)

theorem leakNoted_touches (time : Nat) : Touches brakeParts (causeKey (leakFlds ++ [Reg.HOST_ALERT_LEAK])) s (leakNoted time s) := by
  refine ((leakMark_touches s 1 (some time)).mono (by decide) fun x e => ?_).step (leakNoted_behind s time) (by decide) fun x e => ?_
  · exact oneOf_mono (by decide) (causeKey_false e).2.2
  · rw [alertKey, (causeKey_false e).2.1, oneOf_mono (by decide) (causeKey_false e).2.2]
    rfl

theorem getB_leakNoted (time : Nat) : ∀ f ∈ leakFlds ++ [Reg.HOST_ALERT_LEAK], getB (leakNoted time s) f = true := by
  have hmark := getB_leakMark s true (some time)
  have hfree : ∀ f ∈ leakFlds, alertKey Reg.HOST_ALERT_LEAK (fldKey f .a) = false := by decide
  intro f hf
  rcases List.mem_append.mp hf with hf | hf
  · exact ((leakNoted_behind s time).getB (hfree f hf)).trans (hmark f hf)
  · obtain rfl := List.mem_singleton.mp hf
    exact (getB_congr (ledgerAdd_kept _ _ _ .flds (by decide)) _).trans (getB_alert (by decide) (by decide) _)

theorem pwr_leakNoted (time : Nat) : (leakNoted time s).pwr = { s.pwr with leakAt := some time } :=
  (leakNoted_behind s time).parts .pwr (by decide)

end

section
variable {s : State} {time : Nat}

theorem shutterOn_again (h : getB s Reg.HOST_SIDEBAND_SHUTTER = true) : shutterOn time s = s := if_pos h

theorem shutterOn_new (h : getB s Reg.HOST_SIDEBAND_SHUTTER = false) : shutterOn time s = brakeOn 0 (shutterMark 1 (some time) s) :=
  if_neg (by rw [h]; exact Bool.false_ne_true)

theorem shutterOff_none (h : getB s Reg.HOST_SIDEBAND_SHUTTER = false) (mean : Nat) : shutterOff mean s = s :=
  if_neg (by rw [h]; exact Bool.false_ne_true)

theorem shutterOff_held (h : getB s Reg.HOST_SIDEBAND_SHUTTER = true) (mean : Nat) : shutterOff mean s = brakeOff 0 mean (shutterMark 0 none s) :=
  if_pos h

theorem leakOn_again (h : getB s Reg.HOST_SIDEBAND_LEAK = true) : leakOn time s = s := if_pos h

theorem leakOn_new (h : getB s Reg.HOST_SIDEBAND_LEAK = false) : leakOn time s = brakeOn 2 (leakNoted time s) :=
  if_neg (by rw [h]; exact Bool.false_ne_true)

theorem leakOff_none (h : getB s Reg.HOST_SIDEBAND_LEAK = false) (mean : Nat) : leakOff mean s = s :=
  if_neg (by rw [h]; exact Bool.false_ne_true)

theorem leakOff_held (h : getB s Reg.HOST_SIDEBAND_LEAK = true) (mean : Nat) : leakOff mean s = brakeOff 2 mean (leakMark 0 none s) := if_pos h

theorem filtered_runs {i : SbInput} (hc : clocked s = true) (ht : toggling s i = false) (f : State → State) :
    filtered s i time f = f (atTime time s) := if_pos (by rw [hc, ht]; rfl)

end

/-- The time alone. -/
theorem atTime_cause (fs : List Fld) (time : Nat) (s : State) : Touches brakeParts (causeKey fs) s (atTime time s) :=
  (atTime_touches time s).mono (by decide) fun _ e => (causeKey_false e).1

theorem pwr_atTime (time : Nat) (s : State) : (atTime time s).pwr = s.pwr := (atTime_touches time s).parts .pwr (by decide)

theorem brakes_atTime (time : Nat) (s : State) : (atTime time s).pwr.brakes = s.pwr.brakes := congrArg PwrSt.brakes (pwr_atTime time s)

theorem cEff_atTime (time : Nat) (s : State) : (atTime time s).pwr.cEff = s.pwr.cEff := congrArg PwrSt.cEff (pwr_atTime time s)

theorem portSt_atTime (time : Nat) (s : State) (p : Port) : portSt (atTime time s) p = portSt s p :=
  portSt_congr ((atTime_touches time s).parts .boot (by decide)) p

/-- R397, R407, R409: which brake a command enters, and through which state. -/
theorem exec_brake {s : State} {time k : Nat} {c : Instr} {fs : List Fld} (hc : clocked s = true)
    (h : (c = .shutterAssert time ∧ k = 0 ∧ fs = [Reg.HOST_SIDEBAND_SHUTTER, Reg.PWR_STATUS_SHUTTER] ∧ toggling s .shutter = false ∧
        getB s Reg.HOST_SIDEBAND_SHUTTER = false) ∨
      (c = .leakAssert time ∧ k = 2 ∧ fs = [Reg.HOST_SIDEBAND_LEAK, Reg.PWR_STATUS_LEAK, Reg.HOST_ALERT_LEAK] ∧ toggling s .leak = false ∧
        getB s Reg.HOST_SIDEBAND_LEAK = false) ∨
      (c = .vinLow time ∧ k = 3 ∧ fs = [Reg.PWR_STATUS_VIN_LOW])) :
    ∃ u, exec c s = .next (brakeOn k u) ∧ Touches brakeParts (causeKey fs) s u ∧ u.pwr.brakes = s.pwr.brakes ∧ (∀ f ∈ fs, getB u f = true) ∧
      (∀ f ∈ fs, oneOf brakeEntryFlds (fldKey f .a) = false) ∧
      ∀ f ∈ Reg.CLK_REF_STATUS_SWITCH_BUSY :: brakeEntryFlds, causeKey fs (fldKey f .a) = false := by
  obtain ⟨rfl, rfl, rfl, ht, hn⟩ | ⟨rfl, rfl, rfl, ht, hn⟩ | ⟨rfl, rfl, rfl⟩ := h
  · have hnot : getB (atTime time s) Reg.HOST_SIDEBAND_SHUTTER = false := (getB_atTime (by decide) time s).trans hn
    refine ⟨shutterMark 1 (some time) (atTime time s), congrArg Host.Outcome.next ((filtered_runs hc ht _).trans (shutterOn_new hnot)), ?_,
      brakes_atTime time s,
      getB_shutterMark _ true _, by decide, by decide⟩
    exact (atTime_cause shutterFlds time s).step (shutterMark_touches _ 1 _) (by decide) fun _ e => (causeKey_false e).2.2
  · have hnot : getB (atTime time s) Reg.HOST_SIDEBAND_LEAK = false := (getB_atTime (by decide) time s).trans hn
    refine ⟨leakNoted time (atTime time s), congrArg Host.Outcome.next ((filtered_runs hc ht _).trans (leakOn_new hnot)), ?_,
      (congrArg PwrSt.brakes (pwr_leakNoted _ time)).trans (brakes_atTime time s), getB_leakNoted _ time, by decide, by decide⟩
    exact (atTime_cause _ time s).trans (leakNoted_touches _ time)
  · refine ⟨setF (atTime time s) Reg.PWR_STATUS_VIN_LOW 1, congrArg Host.Outcome.next (if_pos hc), 
      .setF (atTime_cause _ time s), brakes_atTime time s, ?_,
      by decide, by decide⟩
    simp only [List.forall_mem_cons, List.not_mem_nil, false_implies, implies_true, and_true]
    exact getB_setF_one _ (by decide)

/-! ### A brake is lifted (R397, R407) -/

/-- What a brake's release changes beside the registers of its cause. -/
def brakeExitFlds : List Fld := [Reg.PWR_STATUS_BRAKE, Reg.PWR_CAP_EFFECTIVE, Reg.PWR_OP_OP, Reg.PWR_OP_OP_FLOOR]

theorem brakeOff_exit {k : Nat} {s : State} (h : s.pwr.brakes.contains k = true) (mean : Nat) :
    Touches [.flds, .pwr] (oneOf brakeExitFlds) s (brakeOff k mean s) := by
  rw [brakeOff_held h]
  exact ((brakeLifted_touches k mean s).mono (by decide) fun _ => oneOf_mono (by decide)).step (setFloor_touches _) (by decide)
    fun _ => oneOf_mono (by decide)

theorem brakeOff_regs {k : Nat} {s : State} (h : s.pwr.brakes.contains k = true) (mean : Nat) : let t := brakeOff k mean s
    getB t Reg.PWR_STATUS_BRAKE = !t.pwr.brakes.isEmpty ∧
      getF t Reg.PWR_OP_OP_FLOOR = (if t.pwr.brakes = [] then 32 * getF s Reg.CLK_ACLK_CEIL_MIN_CODE % 256 else 192) := by
  have hpwr := pwr_brakeOff h mean
  have hlifted := brakeLifted_touches k mean s
  have hfloor := setFloor_touches (brakeLifted k mean s)
  have hbrakes : (brakeLifted k mean s).pwr.brakes = s.pwr.brakes.filter (· != k) := rfl
  dsimp only
  rw [hpwr, brakeOff_held h]
  refine ⟨(hfloor.getB (by decide)).trans (getB_setB_self _ _ _ (by decide)), (getF_setFloor_floor _).trans ?_⟩
  by_cases he : s.pwr.brakes.filter (· != k) = []
  · rw [if_pos he, floorOf_free (hbrakes.trans he), hlifted.getF (by decide)]
    rfl
  · rw [if_neg he, floorOf_braked (by rw [hbrakes]; exact he)]
    rfl

theorem released_spec {s u : State} {k : Nat} {fs : List Fld} (mean : Nat) (h : Touches [.flds, .pwr, .now] (fun x => pmcKey x || oneOf fs x) s u)
    (hbr : u.pwr.brakes = s.pwr.brakes) (hce : u.pwr.cEff = s.pwr.cEff)
    (hk : s.pwr.brakes.contains k = true) (hbits : ∀ f ∈ fs, getB u f = false)
    (hfs : ∀ f ∈ fs, oneOf brakeExitFlds (fldKey f .a) = false)
    (hmin : (pmcKey (fldKey Reg.CLK_ACLK_CEIL_MIN_CODE .a) || oneOf fs (fldKey Reg.CLK_ACLK_CEIL_MIN_CODE .a)) = false) :
    let t := brakeOff k mean u
    (∀ f ∈ fs, getB t f = false) ∧ t.pwr.brakes = s.pwr.brakes.filter (· != k) ∧ t.pwr.cEff = min s.pwr.cEff mean ∧
      getB t Reg.PWR_STATUS_BRAKE = !t.pwr.brakes.isEmpty ∧
      getF t Reg.PWR_OP_OP_FLOOR = (if t.pwr.brakes = [] then 32 * getF s Reg.CLK_ACLK_CEIL_MIN_CODE % 256 else 192) ∧
      regsKept (fun x => pmcKey x || oneOf ([Reg.PWR_STATUS_BRAKE, Reg.PWR_CAP_EFFECTIVE, Reg.PWR_OP_OP, Reg.PWR_OP_OP_FLOOR] ++ fs) x) s t ∧
      keptBut [.flds, .pwr, .now] s t := by
  have hku : u.pwr.brakes.contains k = true := by rw [hbr]; exact hk
  have hoff := brakeOff_exit hku mean
  obtain ⟨hstatus, hfloor⟩ := brakeOff_regs hku mean
  have hpwr := pwr_brakeOff hku mean
  have hbrakes : (brakeOff k mean u).pwr.brakes = s.pwr.brakes.filter (· != k) := by rw [hpwr, hbr]
  have hceff : (brakeOff k mean u).pwr.cEff = min s.pwr.cEff mean := by rw [hpwr, hce]
  rw [h.getF hmin] at hfloor
  have hall : Touches [.flds, .pwr, .now] (fun x => pmcKey x || oneOf (brakeExitFlds ++ fs) x) s (brakeOff k mean u) := by
    have hsplit : ∀ x, (pmcKey x || oneOf (brakeExitFlds ++ fs) x) = false → (pmcKey x || oneOf fs x) = false ∧ oneOf brakeExitFlds x = false := by
      intro x e
      simp only [oneOf_append, Bool.or_eq_false_iff] at e
      obtain ⟨hpmc, hexit, hcause⟩ := e
      exact ⟨by simp [hpmc, hcause], hexit⟩
    exact (h.mono (fun _ => id) fun x e => (hsplit x e).1).step hoff (by decide) fun x e => (hsplit x e).2
  exact ⟨fun f hf => (hoff.getB (hfs f hf)).trans (hbits f hf), hbrakes, hceff, hstatus, hfloor, hall.regs, hall.parts⟩

theorem exec_brakeRelease {s : State} {time mean k : Nat} {c : Instr} {fs : List Fld} (hc : clocked s = true)
    (h : (c = .shutterRelease mean time ∧ k = 0 ∧ fs = [Reg.HOST_SIDEBAND_SHUTTER, Reg.PWR_STATUS_SHUTTER] ∧ toggling s .shutter = false ∧
        getB s Reg.HOST_SIDEBAND_SHUTTER = true) ∨
      (c = .leakRelease mean time ∧ k = 2 ∧ fs = [Reg.HOST_SIDEBAND_LEAK, Reg.PWR_STATUS_LEAK] ∧ toggling s .leak = false ∧
        getB s Reg.HOST_SIDEBAND_LEAK = true)) :
    ∃ u, exec c s = .next (brakeOff k mean u) ∧ Touches [.flds, .pwr, .now] (fun x => pmcKey x || oneOf fs x) s u ∧
      u.pwr.brakes = s.pwr.brakes ∧ u.pwr.cEff = s.pwr.cEff ∧ (∀ f ∈ fs, getB u f = false) ∧
      (∀ f ∈ fs, oneOf brakeExitFlds (fldKey f .a) = false) ∧
      (pmcKey (fldKey Reg.CLK_ACLK_CEIL_MIN_CODE .a) || oneOf fs (fldKey Reg.CLK_ACLK_CEIL_MIN_CODE .a)) = false := by
  have htime (fs : List Fld) : Touches [.flds, .pwr, .now] (fun x => pmcKey x || oneOf fs x) s (atTime time s) :=
    (atTime_touches time s).mono (by decide) fun _ e => (Bool.or_eq_false_iff.mp e).1
  obtain ⟨rfl, rfl, rfl, ht, hn⟩ | ⟨rfl, rfl, rfl, ht, hn⟩ := h
  · have hheld : getB (atTime time s) Reg.HOST_SIDEBAND_SHUTTER = true := (getB_atTime (by decide) time s).trans hn
    exact ⟨shutterMark 0 none (atTime time s), congrArg Host.Outcome.next ((filtered_runs hc ht _).trans (shutterOff_held hheld mean)),
      (htime shutterFlds).step (shutterMark_touches _ 0 _) (by decide) fun _ e => (Bool.or_eq_false_iff.mp e).2,
      brakes_atTime time s, cEff_atTime time s,
      getB_shutterMark _ false _, by decide, by decide⟩
  · have hheld : getB (atTime time s) Reg.HOST_SIDEBAND_LEAK = true := (getB_atTime (by decide) time s).trans hn
    exact ⟨leakMark 0 none (atTime time s), congrArg Host.Outcome.next ((filtered_runs hc ht _).trans (leakOff_held hheld mean)),
      (htime leakFlds).step (leakMark_touches _ 0 _) (by decide) fun _ e => (Bool.or_eq_false_iff.mp e).2,
      brakes_atTime time s, cEff_atTime time s,
      getB_leakMark _ false _, by decide, by decide⟩

/-! ### PERST (R416, R427) -/

def perstReleased (p : Port) (s : State) : State :=
  let u := setB (setB s (perstFld p) false) (sidebandPerstFld p) false
  setPortSt p { portSt u p with perstAt := none } u

theorem perstOff_eq (p : Port) (s : State) : perstOff p s = perstReleased p s := by cases p <;> rfl

def perstFlds : List Fld := [Reg.HOST_PORT_A_PERST, Reg.HOST_PORT_B_PERST, Reg.HOST_SIDEBAND_PERST_A, Reg.HOST_SIDEBAND_PERST_B]

theorem perstReleased_touches (p : Port) (s : State) : Touches [.flds, .boot] (oneOf perstFlds) s (perstReleased p s) := by
  have hkey : perstFld p ∈ perstFlds ∧ sidebandPerstFld p ∈ perstFlds := by cases p <;> decide
  obtain ⟨hperst, hside⟩ := hkey
  exact .keep (.setF (.setF (.refl s) (oneOf_mem hperst)) (oneOf_mem hside)) (setPortSt_kept p _ _)

theorem getB_perstReleased (p : Port) (s : State) : getB (perstReleased p s) (perstFld p) = false := by
  refine (getB_congr (setPortSt_kept p _ _ .flds (by decide)) _).trans ((getB_setB_ne ?_).trans (getB_setB_self _ _ _ ?_))
  · cases p <;> decide
  · cases p <;> decide

theorem portSt_perstReleased (p : Port) (s : State) : portSt (perstReleased p s) p = { portSt s p with perstAt := none } := by
  cases p <;> rfl

theorem portSt_perstNoted (p : Port) (time : Nat) (s : State) : portSt (perstNoted p time s) p =
    { portSt s p with perstAt := some ((portSt s p).perstAt.getD time), link := false, lostAt := none } := by
  cases p <;> rfl

theorem getB_perstOn (p : Port) (time : Nat) (s : State) : getB (perstOn p time s) (perstFld p) = true := by
  rw [perstOn_eq]
  refine (getB_portDown ?_ _).trans (perstNoted_spec p time s).2
  cases p <;> decide

theorem portSt_perstOn (p : Port) (time : Nat) (s : State) : portSt (perstOn p time s) p =
    { portSt s p with perstAt := some ((portSt s p).perstAt.getD time), link := false, lostAt := none } := by
  rw [perstOn_eq, portSt_congr ((portDown_touches p _).parts .boot (by decide)), portSt_perstNoted]

/-- A port that is down already only takes note. -/
theorem perstOn_down {p : Port} {s : State} (h : portUp s p = false) (time : Nat) : perstOn p time s = perstNoted p time s := by
  have hup : portUp (perstNoted p time s) p = false := by
    have hkey : portNoteKey (fldKey (upFld p) p) = false := by cases p <;> decide
    rw [portUp_eq] at h ⊢
    rwa [(perstNoted_spec p time s).1.getP hkey]
  rw [perstOn_eq]
  exact if_pos (by rw [hup]; rfl)

section
variable {s : State} {p : Port} {time : Nat}

theorem exec_perstAssert_spec (hc : clocked s = true) (ht : toggling s (perstInput p) = false) :
    ∃ t, exec (.perstAssert p time) s = .next t ∧ getB t (perstFld p) = true ∧ (portSt t p).link = false ∧
      (portSt t p).perstAt = some ((portSt s p).perstAt.getD time) ∧ (portUp s p = false → keptBut [.flds, .boot, .now] s t) := by
  refine ⟨perstOn p time (atTime time s), congrArg Host.Outcome.next (filtered_runs hc ht _), getB_perstOn p time _, ?_, ?_, fun hup => ?_⟩
  · rw [portSt_perstOn]
  · rw [portSt_perstOn, portSt_atTime]
  · have hkey : portNoteKey (fldKey (upFld p) p) = false := by cases p <;> decide
    have hdown : portUp (atTime time s) p = false := by
      rw [portUp_eq] at hup ⊢
      rwa [(atTime_noted time s).getP hkey]
    rw [perstOn_down hdown]
    exact ((atTime_noted time s).trans (perstNoted_spec p time _).1).parts.mono (by decide)

theorem exec_perstRelease_spec (hc : clocked s = true) (ht : toggling s (perstInput p) = false) :
    ∃ t, exec (.perstRelease p time) s = .next t ∧ getB t (perstFld p) = false ∧ portSt t p = { portSt s p with perstAt := none } ∧
      keptBut [.flds, .boot, .now] s t := by
  refine ⟨perstReleased p (atTime time s), congrArg Host.Outcome.next ((filtered_runs hc ht _).trans (perstOff_eq p _)), getB_perstReleased p _,
    ?_, ?_⟩
  · rw [portSt_perstReleased, portSt_atTime]
  · exact (keptBut_trans (atTime_touches time s).parts (perstReleased_touches p _).parts).mono (by decide)

end

/-! ### Toggling (R428) -/

def togFlds : List Fld := [Reg.HOST_SIDEBAND_TOGGLING, Reg.HOST_SIDEBAND_TOG, Reg.HOST_ALERT_TOGGLING]

section
variable (i : SbInput) (time mean : Nat) (s : State)

theorem shutterOn_touches : Touches [.flds, .pwr] (oneOf (shutterFlds ++ brakeFlds)) s (shutterOn time s) := by
  cases h : getB s Reg.HOST_SIDEBAND_SHUTTER with
  | true => rw [shutterOn_again h]; exact .refl s
  | false =>
    rw [shutterOn_new h]
    exact ((shutterMark_touches s 1 (some time)).mono (by decide) fun _ => oneOf_mono (by decide)).step (brakeOn_touches _ _) (by decide)
      fun _ => oneOf_mono (by decide)

theorem leakOn_touches : Touches brakeParts (causeKey (leakFlds ++ [Reg.HOST_ALERT_LEAK] ++ brakeFlds)) s (leakOn time s) := by
  cases h : getB s Reg.HOST_SIDEBAND_LEAK with
  | true => rw [leakOn_again h]; exact .refl s
  | false =>
    rw [leakOn_new h]
    refine ((leakNoted_touches s time).mono (by decide) fun k e => ?_).step (brakeOn_touches _ _) (by decide) fun k e =>
      oneOf_mono (by decide) (causeKey_false e).2.2
    obtain ⟨hpmc, hirq, hone⟩ := causeKey_false e
    rw [causeKey, hpmc, hirq, oneOf_mono (by decide) hone]
    rfl

/-- What an input changes as it becomes asserted leaves the toggling bits alone. -/
theorem getF_sbOn : ∀ f ∈ togFlds, getF (sbOn i time s) f = getF s f := by
  have hshutter : ∀ f ∈ togFlds, oneOf (shutterFlds ++ brakeFlds) (fldKey f .a) = false := by decide
  have hleak : ∀ f ∈ togFlds, causeKey (leakFlds ++ [Reg.HOST_ALERT_LEAK] ++ brakeFlds) (fldKey f .a) = false := by decide
  have hnote : ∀ f ∈ togFlds, portNoteKey (fldKey f .a) = false := by decide
  have hcut : ∀ p, ∀ f ∈ togFlds, (downKey (fldKey f .a) || portCutKey p (fldKey f .a)) = false := by
    intro p
    cases p <;> decide
  have hperst (p : Port) : ∀ f ∈ togFlds, getF (perstOn p time s) f = getF s f := fun f hf => by
    rw [perstOn_eq]
    exact ((portDown_touches p _).getF (hcut p f hf)).trans ((perstNoted_spec p time s).1.getF (hnote f hf))
  intro f hf
  cases i with
  | shutter => exact (shutterOn_touches time s).getF (hshutter f hf)
  | leak => exact (leakOn_touches time s).getF (hleak f hf)
  | perstA => exact hperst .a f hf
  | perstB => exact hperst .b f hf

theorem accepted_sbOn : accepted (sbOn i time s) i = true := by
  cases i with
  | shutter =>
    change getB (shutterOn time s) Reg.HOST_SIDEBAND_SHUTTER = true
    cases h : getB s Reg.HOST_SIDEBAND_SHUTTER with
    | true => rw [shutterOn_again h, h]
    | false =>
      rw [shutterOn_new h, (brakeOn_touches _ _).getB (by decide)]
      exact getB_shutterMark s true _ _ (by decide)
  | leak =>
    change getB (leakOn time s) Reg.HOST_SIDEBAND_LEAK = true
    cases h : getB s Reg.HOST_SIDEBAND_LEAK with
    | true => rw [leakOn_again h, h]
    | false =>
      rw [leakOn_new h, (brakeOn_touches _ _).getB (by decide)]
      exact getB_leakNoted s time _ (by decide)
  | perstA => exact getB_perstOn .a time s
  | perstB => exact getB_perstOn .b time s

theorem mem_portDown {s : State} (h : s.wts.load = none) (p : Port) : (portDown p s).mem = s.mem := by
  cases hup : portUp s p with
  | true =>
    obtain ⟨-, -, -, -, -, -, -, -, -, -, -, hmem⟩ := portDown_wentDown hup
    exact (hmem h).1
  | false => rw [show portDown p s = s from if_pos (by rw [hup]; rfl)]

theorem mem_sbOn (h : s.wts.load = none) : (sbOn i time s).mem = s.mem := by
  have hperst (p : Port) : (perstOn p time s).mem = s.mem := by
    have hnoted := (perstNoted_spec p time s).1.parts
    rw [perstOn_eq, mem_portDown ((congrArg WtsSt.load (hnoted .wts (by decide))).trans h)]
    exact hnoted .mem (by decide)
  cases i with
  | shutter => exact (shutterOn_touches time s).parts .mem (by decide)
  | leak => exact (leakOn_touches time s).parts .mem (by decide)
  | perstA => exact hperst .a
  | perstB => exact hperst .b

/-- R428: the input is toggling, as its two bits and the alert say. -/
def togNoted : State :=
  alert Reg.HOST_ALERT_TOGGLING (setBit (setBit (atTime time s) Reg.HOST_SIDEBAND_TOGGLING (sbNum i) true) Reg.HOST_SIDEBAND_TOG (sbNum i) true)

theorem sbNum_lt : sbNum i < 4 := by cases i <;> decide

theorem togNoted_spec : getBit (togNoted i time s) Reg.HOST_SIDEBAND_TOGGLING (sbNum i) = true ∧
    getBit (togNoted i time s) Reg.HOST_SIDEBAND_TOG (sbNum i) = true ∧ getB (togNoted i time s) Reg.HOST_ALERT_TOGGLING = true ∧
    Touches (.now :: irqParts) (fun k => pmcKey k || irqKey k || oneOf togFlds k) s (togNoted i time s) := by
  have halert := alert_touches Reg.HOST_ALERT_TOGGLING
    (setBit (setBit (atTime time s) Reg.HOST_SIDEBAND_TOGGLING (sbNum i) true) Reg.HOST_SIDEBAND_TOG (sbNum i) true)
  have hbits : Touches (.now :: irqParts) (fun k => pmcKey k || irqKey k || oneOf togFlds k) s
      (setBit (setBit (atTime time s) Reg.HOST_SIDEBAND_TOGGLING (sbNum i) true) Reg.HOST_SIDEBAND_TOG (sbNum i) true) :=
    .setBit (.setBit ((atTime_touches time s).mono (by decide) fun k e => (Bool.or_eq_false_iff.mp (Bool.or_eq_false_iff.mp e).1).1))
  refine ⟨?_, ?_, getB_alert (by decide) (by decide) _, hbits.step halert (by decide) fun k e => ?_⟩
  · rw [getBit, togNoted, halert.getF (by decide), setBit, getF_setF_ne (by decide)]
    exact getBit_setBit_self _ (sbNum_lt i) true
  · rw [getBit, togNoted, halert.getF (by decide)]
    exact getBit_setBit_self _ (sbNum_lt i) true
  · simp only [Bool.or_eq_false_iff] at e
    rw [alertKey, e.1.2, oneOf_mono (by decide) e.2]
    rfl

theorem exec_sidebandToggling_spec (hc : clocked s = true) (ht : toggling s i = false) :
    ∃ t, exec (.sidebandToggling i time) s = .next t ∧ toggling t i = true ∧ getBit t Reg.HOST_SIDEBAND_TOG (sbNum i) = true ∧
      getB t Reg.HOST_ALERT_TOGGLING = true ∧ accepted t i = true ∧ (s.wts.load = none → t.mem = s.mem) := by
  obtain ⟨htoggling, htog, halert, hnoted⟩ := togNoted_spec i time s
  have hon := getF_sbOn i time (togNoted i time s)
  refine ⟨sbOn i time (togNoted i time s), congrArg Host.Outcome.next (if_pos (by rw [hc, ht]; rfl)), ?_, ?_, ?_, accepted_sbOn i time _, fun hl => ?_⟩
  · rw [toggling, getBit, hon _ (by decide)]
    exact htoggling
  · rw [getBit, hon _ (by decide)]
    exact htog
  · rw [getB, hon _ (by decide)]
    exact halert
  · rw [mem_sbOn i time _ ((congrArg WtsSt.load (hnoted.parts .wts (by decide))).trans hl)]
    exact hnoted.parts .mem (by decide)

/-- What an input changes as it becomes released. -/
def sbOffFlds : List Fld := shutterFlds ++ leakFlds ++ perstFlds ++ brakeFlds

theorem sbOff_touches : Touches [.flds, .pwr, .boot] (oneOf sbOffFlds) s (sbOff i mean s) := by
  have hperst (p : Port) : Touches [.flds, .pwr, .boot] (oneOf sbOffFlds) s (perstOff p s) := by
    rw [perstOff_eq]
    exact (perstReleased_touches p s).mono (by decide) fun _ => oneOf_mono (by decide)
  cases i with
  | shutter =>
    exact .ite (((shutterMark_touches s 0 none).mono (by decide) fun _ => oneOf_mono (by decide)).step (brakeOff_touches 0 mean _) (by decide)
      fun _ => oneOf_mono (by decide)) (.refl s)
  | leak =>
    exact .ite (((leakMark_touches s 0 none).mono (by decide) fun _ => oneOf_mono (by decide)).step (brakeOff_touches 2 mean _) (by decide)
      fun _ => oneOf_mono (by decide)) (.refl s)
  | perstA => exact hperst .a
  | perstB => exact hperst .b

theorem accepted_sbOff : accepted (sbOff i mean s) i = false := by
  have hperst (p : Port) : getB (perstOff p s) (perstFld p) = false := by
    rw [perstOff_eq]
    exact getB_perstReleased p s
  cases i with
  | shutter =>
    change getB (shutterOff mean s) Reg.HOST_SIDEBAND_SHUTTER = false
    cases h : getB s Reg.HOST_SIDEBAND_SHUTTER with
    | false => rw [shutterOff_none h, h]
    | true =>
      rw [shutterOff_held h, (brakeOff_touches _ _ _).getB (by decide)]
      exact getB_shutterMark s false _ _ (by decide)
  | leak =>
    change getB (leakOff mean s) Reg.HOST_SIDEBAND_LEAK = false
    cases h : getB s Reg.HOST_SIDEBAND_LEAK with
    | false => rw [leakOff_none h, h]
    | true =>
      rw [leakOff_held h, (brakeOff_touches _ _ _).getB (by decide)]
      exact getB_leakMark s false _ _ (by decide)
  | perstA => exact hperst .a
  | perstB => exact hperst .b

/-- R428: the bit of an input that no longer toggles. -/
def togEnded : State := setBit (atTime time s) Reg.HOST_SIDEBAND_TOGGLING (sbNum i) false

theorem togEnded_touches : Touches [.flds, .now] (fun k => pmcKey k || oneOf [Reg.HOST_SIDEBAND_TOGGLING] k) s (togEnded i time s) :=
  .setBit ((atTime_touches time s).mono (by decide) fun _ e => (Bool.or_eq_false_iff.mp e).1)

theorem toggling_togEnded : toggling (togEnded i time s) i = false := getBit_setBit_self _ (sbNum_lt i) false

theorem exec_togglingEnd (asserted : Bool) (ht : toggling s i = true) : exec (.togglingEnd i asserted mean time) s =
    .next (if asserted then togEnded i time s else sbOff i mean (togEnded i time s)) := congrArg Host.Outcome.next (if_pos ht)

theorem exec_togglingEnd_released (ht : toggling s i = true) : ∃ t, exec (.togglingEnd i false mean time) s = .next t ∧ toggling t i = false ∧
    accepted t i = false ∧ keptBut [.flds, .pwr, .boot, .now] s t := by
  have hoff := sbOff_touches i mean (togEnded i time s)
  refine ⟨sbOff i mean (togEnded i time s), exec_togglingEnd i time mean s false ht, ?_, accepted_sbOff i mean _,
    (keptBut_trans (togEnded_touches i time s).parts hoff.parts).mono (by decide)⟩
  rw [toggling, getBit, hoff.getF (by decide)]
  exact toggling_togEnded i time s

end

/-! ### Inputs that stay asserted (R397, R405, R407, R429) -/

section
variable {s : State} {time x : Nat}

theorem exec_shutterStuck (hx : s.pwr.shutterAt = some x) (h : x + 1000000000 ≤ time) : exec (.shutterStuck time) s =
    .next (alert Reg.HOST_ALERT_SHUTTER_STUCK (setF (atTime time s) Reg.PWR_STATUS_SHUTTER_STUCK 1)) := by
  refine congrArg Host.Outcome.next ?_
  rw [hx]
  exact if_pos h

def perstStuckFld : Port → Fld | .a => Reg.HOST_PORT_A_PERST_STUCK | .b => Reg.HOST_PORT_B_PERST_STUCK

theorem exec_perstStuck {p : Port} (hx : (portSt s p).perstAt = some x) (h : x + 1000000000 ≤ time) (hp : getB s (perstFld p) = true) :
    exec (.perstStuck p time) s = .next (alert Reg.HOST_ALERT_PERST_STUCK (setF (atTime time s) (perstStuckFld p) 1)) := by
  refine congrArg Host.Outcome.next ?_
  rw [hx]
  refine (if_pos ⟨h, hp⟩).trans ?_
  cases p <;> rfl

def inletNoted (temp : Int) (s : State) : State := { s with pwr.inletPeak := max s.pwr.inletPeak (max 1 (degC temp)) }

theorem exec_inletRange (hx : s.pwr.inletAt = some x) (h : x + 1000000000 ≤ time) : exec (.inletRange time) s =
    .next (alert Reg.HOST_ALERT_THERMAL (setF (inletNoted (10 * ((getF s Reg.PWR_COOLANT_INLET / 10 : Nat) : Int)) (atTime time s))
      Reg.PWR_STATUS_INLET_RANGE 1)) := by
  refine congrArg Host.Outcome.next ?_
  rw [hx]
  exact if_pos h

theorem inletRange_spec (temp : Int) (u : State) :
    let t := alert Reg.HOST_ALERT_THERMAL (setF (inletNoted temp u) Reg.PWR_STATUS_INLET_RANGE 1)
    getB t Reg.PWR_STATUS_INLET_RANGE = true ∧ getB t Reg.HOST_ALERT_THERMAL = true ∧ keptBut (.pwr :: .now :: irqParts) u t := by
  have halert := alert_touches Reg.HOST_ALERT_THERMAL (setF (inletNoted temp u) Reg.PWR_STATUS_INLET_RANGE 1)
  have hset : keptBut [.pwr, .flds] u (setF (inletNoted temp u) Reg.PWR_STATUS_INLET_RANGE 1) :=
    (keptBut_trans (pwr_kept u _) (setP_kept _ _ _ _)).mono (by decide)
  exact ⟨(halert.getB (by decide)).trans (getB_setF_one _ (by decide)), getB_alert (by decide) (by decide) _,
    (keptBut_trans hset halert.parts).mono (by decide)⟩

end

end Sys2Proof.Machine
end

