-- ==== Sys2Proof/Proofs/ThermalCheck.lean ====
section
/-!
SUPPORT. Proofs/ThermalCheck.lean: the entry into the safe state, the check of the temperatures, and O51 (R397, R398, R403 to R407, R409,
R427 to R429, R464).
-/
namespace Sys2Proof.Machine

set_option Elab.async false

/-! ### The safe state (R464) -/

theorem clocked_congr {s t : State} (h : t.boot = s.boot) : clocked t = clocked s := by rw [clocked, clocked, h]

/-- R464: the module's state is shown and alerted, and everything that runs goes. -/
def safeEntered (cause unit : Nat) (detail : List Nat) (s : State) : State :=
  let a := alert Reg.HOST_ALERT_SAFE_STATE (setIdState 3 s)
  { a with boot.stage := .safe, boot.report := { (setIdState 3 s).boot.report with cause := cause, unit := unit, status := 0x50, detail := detail },
           boot.extended := false, portion := none, suspended := none, finals := [], inbox := [], ctl.flights := [], wts.load := none,
           wts.imgRun := none }

/-- What follows: the record, and the ports' change to PF1. -/
def safeTold (cause unit : Nat) (s : State) : State := portToPf1 .b (portToPf1 .a (ledgerAdd 0x09 [(8, cause), (8, unit)] s))

theorem enterSafe_eq {s : State} (hc : clocked s = true) (hs : s.boot.stage ≠ .safe) (cause unit : Nat) (detail : List Nat) :
    enterSafe cause unit detail s = safeTold cause unit (safeEntered cause unit detail s) := by
  unfold enterSafe
  split
  · exact absurd ‹_› hs
  · simp [clocked, *] at hc
  · simp [clocked, *] at hc
  · simp [clocked, *] at hc
  · rfl

def safeKey (k : Nat) : Bool := alertKey Reg.HOST_ALERT_SAFE_STATE k || oneOf [Reg.ID_STATE_STATE, Reg.ID_CONFIG_SEQ] k

def endedParts : List Part := [.boot, .portion, .suspended, .finals, .inbox, .ctl, .wts]

def safeParts : List Part := endedParts ++ [.ledger, .ledgerSeq] ++ irqParts

theorem setIdState_touches (v : Nat) (s : State) : Touches [.flds] (oneOf [Reg.ID_STATE_STATE, Reg.ID_CONFIG_SEQ]) s (setIdState v s) :=
  .ite (.refl s) (configChange_touches (fun t => .setF (.refl t)) s)

theorem getF_setIdState {v : Nat} (hv : v < 16) (s : State) : getF (setIdState v s) Reg.ID_STATE_STATE = v := by
  have hset (t : State) : getF (setF t Reg.ID_STATE_STATE v) Reg.ID_STATE_STATE = v := (getF_setF_self t _ v).trans (Nat.mod_eq_of_lt hv)
  unfold setIdState
  split
  · assumption
  · unfold configChange
    split
    · exact (getF_setF_ne (by decide)).trans (hset _)
    · exact hset s

theorem safeTold_kept (cause unit : Nat) (s : State) : keptBut [.ledger, .ledgerSeq, .out] s (safeTold cause unit s) := by
  have hport (p : Port) (t : State) : keptBut [.ledger, .ledgerSeq, .out] t (portToPf1 p t) :=
    keptBut_ite ((keptBut_trans (emit_kept _ _) (emit_kept _ _)).mono (by decide)) (keptBut_refl _ _)
  exact (keptBut_trans (keptBut_trans (ledgerAdd_kept _ _ s) (hport .a _)) (hport .b _)).mono (by decide)

theorem safeEntered_ends (cause unit : Nat) (detail : List Nat) (s : State) :
    keptBut endedParts (alert Reg.HOST_ALERT_SAFE_STATE (setIdState 3 s)) (safeEntered cause unit detail s) := fun p hp => by
  cases p with
  | boot | portion | suspended | finals | inbox | ctl | wts => exact absurd hp (by decide)
  | _ => rfl

theorem safeTold_touches (cause unit : Nat) (detail : List Nat) (s : State) :
    Touches safeParts safeKey s (safeTold cause unit (safeEntered cause unit detail s)) := by
  have hstate : Touches safeParts safeKey s (setIdState 3 s) := (setIdState_touches 3 s).mono (by decide) fun _ e => (Bool.or_eq_false_iff.mp e).2
  have halert := hstate.step (alert_touches Reg.HOST_ALERT_SAFE_STATE _) (by decide) fun _ e => (Bool.or_eq_false_iff.mp e).1
  exact .keep (halert.keep (safeEntered_ends cause unit detail s)) (safeTold_kept cause unit _)

theorem boot_safeTold (cause unit : Nat) (detail : List Nat) (s : State) :
    (safeTold cause unit (safeEntered cause unit detail s)).boot = (safeEntered cause unit detail s).boot := safeTold_kept _ _ _ .boot (by decide)

section
variable {s : State} (hc : clocked s = true) (hs : s.boot.stage ≠ .safe) (cause unit : Nat) (detail : List Nat)
include hc hs

theorem enterSafe_touches : Touches safeParts safeKey s (enterSafe cause unit detail s) := by
  rw [enterSafe_eq hc hs]
  exact safeTold_touches cause unit detail s

theorem enterSafe_spec : let t := enterSafe cause unit detail s
    t.boot.stage = .safe ∧ t.boot.report.cause = cause ∧ t.boot.report.status = 0x50 ∧ t.boot.report.detail = detail ∧
      getF t Reg.ID_STATE_STATE = 3 ∧ getB t Reg.HOST_ALERT_SAFE_STATE = true ∧ t.portion = none ∧ t.inbox = [] := by
  have htold := safeTold_kept cause unit (safeEntered cause unit detail s)
  have hboot := boot_safeTold cause unit detail s
  have hflds := (keptBut_trans (safeEntered_ends cause unit detail s) htold) .flds (by decide)
  dsimp only
  rw [enterSafe_eq hc hs, hboot, getF_congr hflds, getB_congr hflds]
  refine ⟨rfl, rfl, rfl, rfl, ?_, getB_alert (by decide) (by decide) _, htold .portion (by decide), htold .inbox (by decide)⟩
  exact ((alert_touches _ _).getF (by decide)).trans (getF_setIdState (by decide) s)

end

theorem exec_leakGraceExpire {s : State} {time x : Nat} (hx : s.pwr.leakAt = some x)
    (h : x + 10000000 * getF s Reg.PWR_LEAK_CTL_GRACE ≤ time) :
    exec (.leakGraceExpire time) s = .next (enterSafe 0x0A 0 [] (atTime time s)) := by
  refine congrArg Host.Outcome.next ?_
  rw [hx]
  exact if_pos h

/-! ### Readings (R403, R404) -/

theorem le_foldl_max (l : List Int) (a : Int) : a ≤ l.foldl max a ∧ ∀ x ∈ l, x ≤ l.foldl max a := by
  induction l generalizing a with
  | nil => exact ⟨le_refl a, nofun⟩
  | cons b l ih =>
    obtain ⟨hhead, htail⟩ := ih (max a b)
    refine ⟨(le_max_left a b).trans hhead, fun x hx => ?_⟩
    rcases List.mem_cons.mp hx with rfl | hx
    · exact (le_max_right a x).trans hhead
    · exact htail x hx

theorem foldl_max_mem (l : List Int) (a : Int) : l.foldl max a ∈ a :: l := by
  induction l generalizing a with
  | nil => exact List.mem_singleton_self a
  | cons b l ih =>
    rcases List.mem_cons.mp (ih (max a b)) with h | h
    · rw [List.foldl_cons, h]
      rcases max_choice a b with h | h <;> rw [h] <;> simp
    · exact List.mem_cons_of_mem _ (List.mem_cons_of_mem _ h)

theorem hottest_mem {l : List Int} (h : l ≠ []) : hottest l ∈ l := by
  cases l with
  | nil => exact absurd rfl h
  | cons a l => exact foldl_max_mem l a

theorem hottestAt_lt {l : List Int} (h : l ≠ []) : hottestAt l < l.length :=
  List.findIdx_lt_length_of_exists ⟨_, hottest_mem h, beq_self_eq_true _⟩

theorem getElem_hottestAt {l : List Int} (h : l ≠ []) : l[hottestAt l]? = some (hottest l) := by
  rw [List.getElem?_eq_getElem (hottestAt_lt h)]
  exact congrArg some (eq_of_beq (List.findIdx_getElem (p := fun x => x == hottest l) (w := hottestAt_lt h)))

theorem sensorBad_some {v : Int} (hlo : -200 ≤ v) (hhi : v ≤ 1500) : sensorBad (some v) = false := by
  simp only [sensorBad, Bool.or_eq_false_iff, decide_eq_false_iff_not]
  omega

/-- Every reading of the list is in range. -/
def readingsGood (l : List Int) : Prop := ∀ x ∈ l, -200 ≤ x ∧ x ≤ 1500

theorem badReadings_nil {l : List Int} (h : readingsGood l) :
    ((List.range (l.map some).length).filter fun i => sensorBad ((l.map some).getD i none)) = [] := by
  refine List.filter_eq_nil_iff.mpr fun i hi => ?_
  have hlen : i < l.length := by simpa using hi
  have hget : (l.map some).getD i none = some l[i] := by simp [hlen]
  obtain ⟨hlo, hhi⟩ := h _ (List.getElem_mem hlen)
  rw [hget, sensorBad_some hlo hhi]
  exact Bool.false_ne_true

theorem sensorFailures_none {s : State} {jv vv : List Int} {inl outl : Int} (hj : readingsGood jv) (hv : readingsGood vv)
    (hin : sensorBad (some inl) = false) (hout : sensorBad (some outl) = false) :
    sensorFailures s (jv.map some) (vv.map some) (some inl) (some outl) = [] := by
  simp only [sensorFailures, badReadings_nil hj, badReadings_nil hv, hin, hout]
  rfl

theorem sensorUse_good {s : State} (h : s.pwr.sensorsOut = []) (base : Nat) (l : List Int) :
    (List.range (l.map some).length).map (sensorUse s base (l.map some)) = l := by
  refine List.ext_getElem (by simp) fun i hi hl => ?_
  simp [sensorUse, h, hl]

/-! ### The stages of a check -/

/-- The registers of the readings. -/
def tempFlds : List Fld := [Reg.PWR_TEMP_TJ_MAX, Reg.PWR_TEMP_TJ_DOMAIN, Reg.PWR_TEMP_DRAM_MAX, Reg.PWR_TEMP_DRAM_VAULT,
  Reg.PWR_COOLANT_INLET, Reg.PWR_COOLANT_OUTLET]

def inputFlds : List Fld := [Reg.PWR_VIN_VIN_MV, Reg.PWR_VIN_IIN_CA]

def tempWrites (jv vv : List Int) (inl outl : Int) : List (Fld × Nat) :=
  [(Reg.PWR_TEMP_TJ_MAX, degC (hottest jv)), (Reg.PWR_TEMP_TJ_DOMAIN, hottestAt (jv.take 32)), (Reg.PWR_TEMP_DRAM_MAX, degC (hottest vv)),
   (Reg.PWR_TEMP_DRAM_VAULT, hottestAt vv), (Reg.PWR_COOLANT_INLET, inl.toNat), (Reg.PWR_COOLANT_OUTLET, outl.toNat)]

/-- R403: the input is measured, and the inlet enters its mean. -/
def checkSampled (inl : Int) (vin iin time : Nat) (s : State) : State :=
  let s0 := setF (setF (atTime time s) Reg.PWR_VIN_VIN_MV vin) Reg.PWR_VIN_IIN_CA iin
  { s0 with fresh := s0.fresh + 70, pwr.inletSum := (s0.pwr.inletSum.1 + inl.toNat, s0.pwr.inletSum.2 + 1) }

/-- R403: the readings as the registers show them. -/
def readingsShown (jv vv : List Int) (inl outl : Int) (vin iin time : Nat) (s : State) : State :=
  setPort .a (checkSampled inl vin iin time s) (tempWrites jv vv inl outl)

/-- An inlet in range is counted no longer. -/
def inletGood (s : State) : State := { s with pwr.inletAt := none, pwr.inletPeak := 0 }

/-- R405: how long a vault has been at 95 C with every domain at the floor. -/
def hotNoted (v : Int) (time : Nat) (s : State) : State :=
  { s with pwr.hotAt := if 950 ≤ v ∧ atFloor s then some (s.pwr.hotAt.getD time) else none }

/-- R406: too hot, or hot for 10 ms. -/
def trips (j : Int) (time : Nat) (s : State) : Bool :=
  decide (1100 ≤ j) || (match s.pwr.hotAt with | some x => decide (x + 10000000 ≤ time) | none => false)

/-- What a check of good readings has done before it looks for a trip. -/
def thermalJudged (jv vv : List Int) (mean time : Nat) (s : State) : State :=
  hotNoted (hottest vv) time (thermalBrake (hottest jv) (hottest vv) mean time
    (refreshRates (thermCap (inletGood s) (hottest jv) (hottest vv)) vv))

def checkEnd (j v : Int) (time : Nat) (s : State) : State := if trips j time s then thermalTrip j v time s else s

theorem exec_thermalCheck {s : State} {jv vv : List Int} {inl outl : Int} (vin iin mean time : Nat) (hc : clocked s = true)
    (hj : readingsGood jv) (hv : readingsGood vv) (hin : 150 ≤ inl) (hin' : inl ≤ 450) (hout : 0 ≤ outl) (hout' : outl ≤ 1000)
    (hsens : s.pwr.sensorsOut = []) (hpeak : s.pwr.inletPeak = 0) (hvin : getB s Reg.PWR_STATUS_VIN_LOW = false) {u : State}
    (hu : u = thermalJudged jv vv mean time (readingsShown jv vv inl outl vin iin time s)) (hs : u.boot.stage ≠ .safe) :
    exec (.thermalCheck (jv.map some) (vv.map some) (some inl) (some outl) vin iin mean time) s =
      .next (checkEnd (hottest jv) (hottest vv) time u) := by
  refine congrArg Host.Outcome.next ((if_neg (by simp [hc])).trans ?_)
  have hpwr := pwr_atTime time s
  extract_lets s0 new p0 s1 ju vu inBad outBad inT outT j v p1 s2 s3 s4 s5 s6 s7 p7 s8 p8
  have hnew : new = [] := sensorFailures_none hj hv (sensorBad_some (by omega) (by omega)) (sensorBad_some (by omega) (by omega))
  have h1 : s1 = s0 := if_pos (by rw [hnew]; rfl)
  have hsens1 : s1.pwr.sensorsOut = [] := by
    rw [h1]
    exact (congrArg PwrSt.sensorsOut hpwr).trans hsens
  have hju : ju = jv := sensorUse_good hsens1 0 jv
  have hvu : vu = vv := sensorUse_good hsens1 36 vv
  have hinBad : inBad = false := by simp [inBad, hsens1]
  have houtBad : outBad = false := by simp [outBad, hsens1]
  have hinT : inT = inl := by simp [inT, hinBad]
  have houtT : outT = outl := by simp [outT, houtBad]
  have hj' : j = hottest jv := congrArg hottest hju
  have hv' : v = hottest vv := congrArg hottest hvu
  have h3 : s3 = readingsShown jv vv inl outl vin iin time s := by
    simp only [s3, s2, p1, hj', hv', hju, hvu, hinT, houtT, h1]
    rfl
  have hlow : getB s3 Reg.PWR_STATUS_VIN_LOW = false := by
    have hshown : getB s3 Reg.PWR_STATUS_VIN_LOW = getB s0 Reg.PWR_STATUS_VIN_LOW := by
      simp (disch := decide) only [s3, s2, p1, h1, getB, getF_setF_ne]
      rfl
    rw [hshown, ← hvin, ← getB_atTime (f := Reg.PWR_STATUS_VIN_LOW) (by decide) time s]
    simp (disch := decide) only [s0, getB, getF_setF_ne]
  have h4 : s4 = s3 := if_neg (by simp [hlow])
  have hpeak4 : s4.pwr.inletPeak = 0 := by
    rw [h4]
    simp only [s3, s2, p1, h1]
    exact (congrArg PwrSt.inletPeak hpwr).trans hpeak
  have h5 : s5 = inletGood s3 := by
    have hbad : ((inBad && outBad) || decide (inT < 150) || decide (450 < inT)) = false := by
      simp [hinBad, hinT, hin, hin']
    simp only [s5, hbad, inletWatch, hpeak4, if_true, Bool.false_eq_true, if_false]
    rw [h4]
    rfl
  have h6 : s6 = s5 := if_neg (by simp [hinBad])
  have h8 : s8 = u := by
    simp only [s8, p7, s7, h6, h5, hj', hv', hvu, h3, hu]
    rfl
  refine (if_neg (by rw [h8]; exact hs)).trans ?_
  change checkEnd j v time s8 = _
  rw [h8, hj', hv']

/-! ### What each stage leaves (R403, R405, R406) -/

theorem fresh_pwr_kept (s : State) (n : Nat) (x : PwrSt) : keptBut [.fresh, .pwr] s { s with fresh := n, pwr := x } := fun q hq => by
  cases q with
  | fresh | pwr => exact absurd hq (by decide)
  | _ => rfl

theorem checkSampled_touches (inl : Int) (vin iin time : Nat) (s : State) :
    Touches [.flds, .pwr, .now, .fresh] (fun k => pmcKey k || oneOf (inputFlds ++ tempFlds) k) s (checkSampled inl vin iin time s) := by
  have htime : Touches [.flds, .pwr, .now, .fresh] (fun k => pmcKey k || oneOf (inputFlds ++ tempFlds) k) s (atTime time s) :=
    (atTime_touches time s).mono (by decide) fun _ e => (Bool.or_eq_false_iff.mp e).1
  have hin := Touches.setF (f := Reg.PWR_VIN_IIN_CA) (v := iin) (htime.setF (f := Reg.PWR_VIN_VIN_MV) (v := vin))
  exact hin.keep (fresh_pwr_kept _ _ _)

theorem readingsShown_touches (jv vv : List Int) (inl outl : Int) (vin iin time : Nat) (s : State) :
    Touches [.flds, .pwr, .now, .fresh] (fun k => pmcKey k || oneOf (inputFlds ++ tempFlds) k) s (readingsShown jv vv inl outl vin iin time s) := by
  have hset : Touches [.flds] (oneOf tempFlds) (checkSampled inl vin iin time s) (readingsShown jv vv inl outl vin iin time s) :=
    ⟨setPort_kept _ _ _, regsKept_setPort_oneOf _ (tempWrites jv vv inl outl)⟩
  exact (checkSampled_touches inl vin iin time s).step hset (by decide) fun _ e => oneOf_mono (by decide) (Bool.or_eq_false_iff.mp e).2

theorem pwr_readingsShown (jv vv : List Int) (inl outl : Int) (vin iin time : Nat) (s : State) :
    (readingsShown jv vv inl outl vin iin time s).pwr = { s.pwr with inletSum := (s.pwr.inletSum.1 + inl.toNat, s.pwr.inletSum.2 + 1) } :=
  (setPort_kept .a _ _ .pwr (by decide)).trans
    (congrArg (fun x : PwrSt => { x with inletSum := (x.inletSum.1 + inl.toNat, x.inletSum.2 + 1) }) (pwr_atTime time s))

theorem degC_lt {x : Int} (h : x ≤ 1500) : degC x < 2 ^ 8 := by
  rw [degC]
  omega

theorem tempWrites_fits {jv vv : List Int} {inl outl : Int} (hj : hottest jv ≤ 1500) (hv : hottest vv ≤ 1500)
    (hdomain : hottestAt (jv.take 32) < 32) (hvault : hottestAt vv < 32) (hin : inl ≤ 450) (hout : outl ≤ 1000) :
    ∀ w ∈ tempWrites jv vv inl outl, w.2 < 2 ^ w.1.len := by
  simp only [tempWrites, List.forall_mem_cons, List.not_mem_nil, false_implies, implies_true, and_true]
  exact ⟨degC_lt hj, hdomain, degC_lt hv, hvault, show inl.toNat < 2 ^ 10 by omega, show outl.toNat < 2 ^ 10 by omega⟩

theorem getF_tempWrites {jv vv : List Int} {inl outl : Int} (hfit : ∀ w ∈ tempWrites jv vv inl outl, w.2 < 2 ^ w.1.len) (s : State) :
    let t := setPort .a s (tempWrites jv vv inl outl)
    getF t Reg.PWR_TEMP_TJ_MAX = degC (hottest jv) ∧ getF t Reg.PWR_TEMP_DRAM_MAX = degC (hottest vv) ∧
      getF t Reg.PWR_TEMP_DRAM_VAULT = hottestAt vv ∧ getF t Reg.PWR_COOLANT_INLET = inl.toNat ∧
      getF t Reg.PWR_COOLANT_OUTLET = outl.toNat := by
  have hflds : (tempWrites jv vv inl outl).map Prod.fst = tempFlds := rfl
  have hnodup : (((tempWrites jv vv inl outl).map Prod.fst).map fun f => fldKey f .a).Nodup := by
    rw [hflds]
    decide
  have hread := getP_setPort_fits (s := s) hnodup hfit
  obtain ⟨htj, -, hdram, hvault, hin, hout⟩ := by
    simpa only [tempWrites, List.forall_mem_cons, List.not_mem_nil, false_implies, implies_true, and_true] using hread
  exact ⟨htj, hdram, hvault, hin, hout⟩

theorem getF_checkSampled_vin (inl : Int) (vin iin time : Nat) (s : State) :
    getF (checkSampled inl vin iin time s) Reg.PWR_VIN_VIN_MV = vin % 2 ^ 16 := by
  have hset : getF (setF (setF (atTime time s) Reg.PWR_VIN_VIN_MV vin) Reg.PWR_VIN_IIN_CA iin) Reg.PWR_VIN_VIN_MV = vin % 2 ^ 16 :=
    (getF_setF_ne (by decide)).trans (getF_setF_self _ _ _)
  exact hset

theorem getF_readingsShown_vin (jv vv : List Int) (inl outl : Int) (vin iin time : Nat) (s : State) :
    getF (readingsShown jv vv inl outl vin iin time s) Reg.PWR_VIN_VIN_MV = vin % 2 ^ 16 :=
  (regsKept_setPort_oneOf _ (tempWrites jv vv inl outl) _ _ (show oneOf tempFlds (fldKey Reg.PWR_VIN_VIN_MV .a) = false by decide)).trans
    (getF_checkSampled_vin inl vin iin time s)

def capFlds : List Fld := [Reg.PWR_OP_THERM_CAP, Reg.PWR_STATUS_THERM_LIMITED]

section
variable {s : State} {j v : Int}

theorem thermCap_touches (s : State) (j v : Int) : Touches [.flds] (oneOf capFlds) s (thermCap s j v) :=
  .ite (.setF (.setF (.refl s))) (.ite (.setF (.setF (.refl s))) (.refl s))

/-- R405: the limit falls by 10 W above the targets. -/
theorem thermCap_hot (h : 10 * (getF s Reg.PWR_THERM_CTL_TJ_TARGET : Int) < j ∨ 900 < v) :
    getF (thermCap s j v) Reg.PWR_OP_THERM_CAP = (getF s Reg.PWR_OP_THERM_CAP - 10) % 4096 ∧
      getB (thermCap s j v) Reg.PWR_STATUS_THERM_LIMITED = true := by
  rw [show thermCap s j v = _ from if_pos h]
  exact ⟨(getF_setF_ne (by decide)).trans (getF_setF_self _ _ _), getB_setF_one _ (by decide)⟩

/-- R405: and rises by 5 W well below them. -/
theorem thermCap_cool (hj : j < 10 * (getF s Reg.PWR_THERM_CTL_TJ_TARGET : Int) - 30) (hv : v < 870) :
    getF (thermCap s j v) Reg.PWR_OP_THERM_CAP = min 2200 (getF s Reg.PWR_OP_THERM_CAP + 5) := by
  have hlt : min 2200 (getF s Reg.PWR_OP_THERM_CAP + 5) < 2 ^ 12 := Nat.lt_of_le_of_lt (Nat.min_le_left _ _) (by decide)
  rw [show thermCap s j v = _ from (if_neg (by omega)).trans (if_pos ⟨hj, hv⟩)]
  exact (getF_setF_ne (by decide)).trans ((getF_setF_self _ _ _).trans (Nat.mod_eq_of_lt hlt))

/-- R405: the vaults above 85 C. -/
theorem mem_refreshRates (s : State) {vv : List Int} {i : Nat} {x : Int} (hi : vv[i]? = some x) (hx : 850 < x) :
    i ∈ (refreshRates s vv).pwr.refresh2x := by
  obtain ⟨hlt, rfl⟩ := List.getElem?_eq_some_iff.mp hi
  exact List.mem_filter.mpr ⟨List.mem_range.mpr hlt, by simp [hlt, hx]⟩

/-- R405: the brake's cause as it is shown. -/
def brakeCaused (j v : Int) (time : Nat) (s : State) : State :=
  alert Reg.HOST_ALERT_THERMAL (setF { s with pwr.brakeAt := some (time, degC (max j v)) } Reg.PWR_STATUS_THERM_BRAKE 1)

theorem thermalBrake_cool (h : s.pwr.brakeAt = none) (hj : j < 1050) (hv : v < 950) (mean time : Nat) : thermalBrake j v mean time s = s := by
  unfold thermalBrake
  rw [h]
  exact if_neg (by omega)

theorem thermalBrake_hot (h : s.pwr.brakeAt = none) (hot : 1050 ≤ j ∨ 950 ≤ v) (mean time : Nat) :
    thermalBrake j v mean time s = brakeOn 1 (brakeCaused j v time s) := by
  unfold thermalBrake
  rw [h]
  exact if_pos hot

def causeFlds : List Fld := [Reg.HOST_ALERT_THERMAL, Reg.PWR_STATUS_THERM_BRAKE]

theorem brakeCaused_touches (j v : Int) (time : Nat) (s : State) :
    Touches (.pwr :: irqParts) (fun k => irqKey k || oneOf causeFlds k) s (brakeCaused j v time s) := by
  have hset : Touches (.pwr :: irqParts) (fun k => irqKey k || oneOf causeFlds k) s
      (setF { s with pwr.brakeAt := some (time, degC (max j v)) } Reg.PWR_STATUS_THERM_BRAKE 1) := .setF (.keep (.refl s) (pwr_kept s _))
  refine hset.step (alert_touches _ _) (by decide) fun k e => ?_
  obtain ⟨hirq, hone⟩ := Bool.or_eq_false_iff.mp e
  rw [alertKey, hirq, oneOf_mono (by decide) hone]
  rfl

theorem pwr_brakeCaused (j v : Int) (time : Nat) (s : State) :
    (brakeCaused j v time s).pwr = { s.pwr with brakeAt := some (time, degC (max j v)) } := (alert_touches _ _).parts .pwr (by decide)

/-- R405, R406: the thermal brake comes on. -/
theorem thermalBrake_on (h : s.pwr.brakeAt = none) (hb : s.pwr.brakes = []) (hot : 1050 ≤ j ∨ 950 ≤ v) (mean time : Nat) :
    let t := thermalBrake j v mean time s
    getB t Reg.HOST_ALERT_THERMAL = true ∧ getB t Reg.PWR_STATUS_THERM_BRAKE = true ∧ t.pwr.brakes = [1] ∧ getF t Reg.PWR_OP_OP_FLOOR = 192 := by
  have hbrakes : (brakeCaused j v time s).pwr.brakes = [] := by rw [pwr_brakeCaused]; exact hb
  have hnew : (brakeCaused j v time s).pwr.brakes.contains 1 = false := by rw [hbrakes]; rfl
  have hon := brakeOn_touches 1 (brakeCaused j v time s)
  obtain ⟨-, -, hfloor, -⟩ := brakeOn_regs hnew
  have hpwr := pwr_brakeOn 1 (brakeCaused j v time s)
  rw [hnew, hbrakes] at hpwr
  dsimp only
  rw [thermalBrake_hot h hot, hpwr]
  refine ⟨(hon.getB (by decide)).trans (getB_alert (by decide) (by decide) _), (hon.getB (by decide)).trans ?_, rfl, hfloor⟩
  exact ((alert_touches _ _).getB (by decide)).trans (getB_setF_one _ (by decide))

def judgedKey (k : Nat) : Bool := irqKey k || oneOf (causeFlds ++ brakeFlds) k

theorem thermalBrake_touches (h : s.pwr.brakeAt = none) (mean time : Nat) :
    Touches (.pwr :: irqParts) judgedKey s (thermalBrake j v mean time s) ∧
      (thermalBrake j v mean time s).pwr.refresh2x = s.pwr.refresh2x := by
  by_cases hot : 1050 ≤ j ∨ 950 ≤ v
  · rw [thermalBrake_hot h hot]
    refine ⟨((brakeCaused_touches j v time s).mono (fun _ => id) fun k e => ?_).step (brakeOn_touches 1 _) (by decide) fun k e => ?_, ?_⟩
    · obtain ⟨hirq, hone⟩ := Bool.or_eq_false_iff.mp e
      rw [hirq, oneOf_mono (by decide) hone]
      rfl
    · exact oneOf_mono (by decide) (Bool.or_eq_false_iff.mp e).2
    · rw [pwr_brakeOn, pwr_brakeCaused]
  · rw [thermalBrake_cool h (by omega) (by omega)]
    exact ⟨.refl s, rfl⟩

theorem hotNoted_kept (v : Int) (time : Nat) (s : State) : keptBut [.pwr] s (hotNoted v time s) := pwr_kept s _

/-! ### The trip (R406) -/

def tripKey (k : Nat) : Bool := safeKey k || alertKey Reg.HOST_ALERT_THERMAL k

/-- The trip is held, alerted and recorded. -/
def tripNoted (j v : Int) (time : Nat) (s : State) : State :=
  ledgerThermal 1 (degC (max j v)) ((time - (match s.pwr.brakeAt with | some b => b.1 | none => time)) / 1000000)
    (alert Reg.HOST_ALERT_THERMAL { s with pwr.tripHold := true })

theorem thermalTrip_eq (j v : Int) (time : Nat) (s : State) :
    thermalTrip j v time s = enterSafe 9 0 [degC j, degC v] (tripNoted j v time s) := rfl

theorem tripNoted_touches (j v : Int) (time : Nat) (s : State) :
    Touches (.pwr :: .ledger :: .ledgerSeq :: irqParts) (alertKey Reg.HOST_ALERT_THERMAL) s (tripNoted j v time s) :=
  .keep (.step (.keep (.refl s) (pwr_kept s { s.pwr with tripHold := true })) (alert_touches _ _) (by decide) fun _ => id) (ledgerAdd_kept _ _ _)

theorem pwr_tripNoted (j v : Int) (time : Nat) (s : State) : (tripNoted j v time s).pwr = { s.pwr with tripHold := true } :=
  (ledgerAdd_kept _ _ _ .pwr (by decide)).trans ((alert_touches _ _).parts .pwr (by decide))

theorem getB_tripNoted (j v : Int) (time : Nat) (s : State) : getB (tripNoted j v time s) Reg.HOST_ALERT_THERMAL = true :=
  (getB_congr (ledgerAdd_kept _ _ _ .flds (by decide)) _).trans (getB_alert (by decide) (by decide) _)

theorem thermalTrip_spec (hc : clocked s = true) (hs : s.boot.stage ≠ .safe) (j v : Int) (time : Nat) : let t := thermalTrip j v time s
    Touches (.pwr :: safeParts) tripKey s t ∧ t.pwr = { s.pwr with tripHold := true } ∧ getB t Reg.HOST_ALERT_THERMAL = true ∧
      t.boot.stage = .safe ∧ t.boot.report.cause = 9 ∧ t.boot.report.detail = [degC j, degC v] ∧ t.portion = none := by
  have hnoted := tripNoted_touches j v time s
  have hboot : (tripNoted j v time s).boot = s.boot := hnoted.parts .boot (by decide)
  have hc' : clocked (tripNoted j v time s) = true := (clocked_congr hboot).trans hc
  have hs' : (tripNoted j v time s).boot.stage ≠ .safe := by rw [hboot]; exact hs
  have hsafe := enterSafe_touches hc' hs' 9 0 [degC j, degC v]
  obtain ⟨hstage, hcause, -, hdetail, -, -, hportion, -⟩ := enterSafe_spec hc' hs' 9 0 [degC j, degC v]
  rw [← thermalTrip_eq] at hsafe hstage hcause hdetail hportion
  exact ⟨(hnoted.mono (by decide) fun k e => (Bool.or_eq_false_iff.mp e).2).step hsafe (by decide) fun k e => (Bool.or_eq_false_iff.mp e).1,
    (hsafe.parts .pwr (by decide)).trans (pwr_tripNoted j v time s), (hsafe.getB (by decide)).trans (getB_tripNoted j v time s),
    hstage, hcause, hdetail, hportion⟩

end

/-! ### The whole check -/

section
variable {b u t : State} {j v : Int} {mean time : Nat}

/-- What the brake and the trip leave of a state in which no brake is on. -/
theorem checked_spec (hc : clocked b = true) (hs : b.boot.stage ≠ .safe) (hat : b.pwr.brakeAt = none) (hb : b.pwr.brakes = [])
    (hu : u = hotNoted v time (thermalBrake j v mean time b)) (ht : t = checkEnd j v time u) :
    Touches (.pwr :: safeParts) (fun k => judgedKey k || tripKey k) b t ∧ t.pwr.refresh2x = b.pwr.refresh2x ∧
      (j < 1050 → v < 950 → t.pwr.brakes = [] ∧ keptBut [.pwr] b t ∧ ∀ f, getF t f = getF b f) ∧
      (1050 ≤ j ∨ 950 ≤ v → getB t Reg.HOST_ALERT_THERMAL = true ∧ getB t Reg.PWR_STATUS_THERM_BRAKE = true ∧ t.pwr.brakes = [1] ∧
        getF t Reg.PWR_OP_OP_FLOOR = 192) ∧
      (1050 ≤ j → j < 1100 → v < 950 → keptBut (.pwr :: irqParts) b t) ∧
      (1100 ≤ j → t.boot.stage = .safe ∧ t.boot.report.cause = 9 ∧ t.boot.report.detail = [degC j, degC v] ∧ t.pwr.tripHold = true ∧
        t.portion = none) := by
  obtain ⟨hbrake, hrefresh⟩ := thermalBrake_touches (j := j) (v := v) hat mean time
  have hnoted := hotNoted_kept v time (thermalBrake j v mean time b)
  rw [← hu] at hnoted
  have hall : Touches (.pwr :: irqParts) judgedKey b u := hbrake.keep hnoted
  have hboot : u.boot = b.boot := hall.parts .boot (by decide)
  have hbrakes : u.pwr.brakes = (thermalBrake j v mean time b).pwr.brakes := by rw [hu]; rfl
  have hrefreshU : u.pwr.refresh2x = b.pwr.refresh2x := by rw [hu]; exact hrefresh
  have hcool : v < 950 → j < 1100 → t = u := fun hv hj => by
    have hhot : u.pwr.hotAt = none := by
      rw [hu]
      exact if_neg (by omega)
    have htrips : trips j time u = false := by
      simp only [trips, hhot, Bool.or_false, decide_eq_false_iff_not]
      omega
    rw [ht]
    exact if_neg (by rw [htrips]; exact Bool.false_ne_true)
  obtain ⟨htrip, hpwr, halert, hends⟩ := thermalTrip_spec ((clocked_congr hboot).trans hc) (by rw [hboot]; exact hs) j v time
  refine ⟨?_, ?_, fun hj hv => ?_, fun hot => ?_, fun _ hj hv => ?_, fun hj => ?_⟩
  · rw [ht]
    have hwide : Touches (.pwr :: safeParts) (fun k => judgedKey k || tripKey k) b u :=
      hall.mono (by decide) fun k e => (Bool.or_eq_false_iff.mp e).1
    exact .ite (hwide.step htrip (fun _ => id) fun k e => (Bool.or_eq_false_iff.mp e).2) hwide
  · rw [ht, checkEnd]
    split
    · rw [hpwr, hrefreshU]
    · exact hrefreshU
  · rw [hcool hv (by omega)]
    rw [thermalBrake_cool hat hj hv] at hbrakes hnoted
    exact ⟨hbrakes.trans hb, hnoted, fun f => getF_congr (hnoted .flds (by decide)) f⟩
  · obtain ⟨honA, honB, honBr, honF⟩ := thermalBrake_on hat hb hot mean time
    have hflds := hnoted .flds (by decide)
    rw [ht, checkEnd]
    split
    · refine ⟨halert, ?_, ?_, ?_⟩
      · rw [htrip.getB (by decide), getB_congr hflds, honB]
      · rw [hpwr]
        exact hbrakes.trans honBr
      · rw [htrip.getF (by decide), getF_congr hflds, honF]
    · rw [getB_congr hflds, getB_congr hflds, getF_congr hflds]
      exact ⟨honA, honB, hbrakes.trans honBr, honF⟩
  · rw [hcool hv hj]
    exact hall.parts
  · obtain ⟨hstage, hcause, hdetail, hportion⟩ := hends
    have htrips : trips j time u = true := by simp [trips, hj]
    rw [ht, show checkEnd j v time u = thermalTrip j v time u from if_pos htrips, hpwr]
    exact ⟨hstage, hcause, hdetail, rfl, hportion⟩

end

/-! ### A check of good readings, and the statement -/

/-- The state in which the limit and the refresh rates follow from the readings. -/
def limitsSet (jv vv : List Int) (s : State) : State := refreshRates (thermCap (inletGood s) (hottest jv) (hottest vv)) vv

theorem limitsSet_touches (jv vv : List Int) (s : State) : Touches [.flds, .pwr] (oneOf capFlds) s (limitsSet jv vv s) :=
  .keep (.step (.keep (.refl s) (pwr_kept s { s.pwr with inletAt := none, inletPeak := 0 })) (thermCap_touches _ _ _) (by decide) fun _ => id)
    (pwr_kept _ _)

theorem pwr_limitsSet (jv vv : List Int) (s : State) : (limitsSet jv vv s).pwr.brakeAt = s.pwr.brakeAt ∧
    (limitsSet jv vv s).pwr.brakes = s.pwr.brakes := by
  have hcap : (thermCap (inletGood s) (hottest jv) (hottest vv)).pwr = (inletGood s).pwr := (thermCap_touches _ _ _).parts .pwr (by decide)
  have hat : (limitsSet jv vv s).pwr.brakeAt = (thermCap (inletGood s) (hottest jv) (hottest vv)).pwr.brakeAt := rfl
  have hbrakes : (limitsSet jv vv s).pwr.brakes = (thermCap (inletGood s) (hottest jv) (hottest vv)).pwr.brakes := rfl
  rw [hat, hbrakes, hcap]
  exact ⟨rfl, rfl⟩

/-- The readings of a check as a state shows them. -/
structure ChecksShown (jv vv : List Int) (inl outl : Int) (vin : Nat) (s r : State) : Prop where
  touches : Touches [.flds, .pwr, .now, .fresh] (fun k => pmcKey k || oneOf (inputFlds ++ tempFlds) k) s r
  brakeAt : r.pwr.brakeAt = s.pwr.brakeAt
  brakes : r.pwr.brakes = s.pwr.brakes
  junction : getF r Reg.PWR_TEMP_TJ_MAX = degC (hottest jv)
  vault : getF r Reg.PWR_TEMP_DRAM_MAX = degC (hottest vv)
  hottest : getF r Reg.PWR_TEMP_DRAM_VAULT = hottestAt vv
  inlet : getF r Reg.PWR_COOLANT_INLET = inl.toNat
  outlet : getF r Reg.PWR_COOLANT_OUTLET = outl.toNat
  input : getF r Reg.PWR_VIN_VIN_MV = vin % 2 ^ 16

theorem readingsShown_spec {jv vv : List Int} {inl outl : Int} (vin iin time : Nat) (s : State)
    (hfit : ∀ w ∈ tempWrites jv vv inl outl, w.2 < 2 ^ w.1.len) :
    ChecksShown jv vv inl outl vin s (readingsShown jv vv inl outl vin iin time s) := by
  have hpwr := pwr_readingsShown jv vv inl outl vin iin time s
  obtain ⟨hj, hv, hat, hin, hout⟩ := getF_tempWrites hfit (checkSampled inl vin iin time s)
  exact ⟨readingsShown_touches jv vv inl outl vin iin time s, by rw [hpwr], by rw [hpwr], hj, hv, hat, hin, hout,
    getF_readingsShown_vin jv vv inl outl vin iin time s⟩

section
variable {s r : State} {jv vv : List Int} {inl outl : Int} (vin mean time : Nat)

/-- R403 to R406: what the rest of the check makes of them. -/
theorem checkEnd_spec (h : ChecksShown jv vv inl outl vin s r) (hc : clocked s = true) (hs : s.boot.stage ≠ .safe) (hvne : vv ≠ [])
    (hat : s.pwr.brakeAt = none) (hbr : s.pwr.brakes = []) :
    let j := hottest jv
    let v := hottest vv
    let tj : Int := 10 * (getF s Reg.PWR_THERM_CTL_TJ_TARGET : Int)
    let cap := getF s Reg.PWR_OP_THERM_CAP
    let t := checkEnd j v time (thermalJudged jv vv mean time r)
    getF t Reg.PWR_TEMP_TJ_MAX = (j / 10).toNat ∧ getF t Reg.PWR_TEMP_DRAM_MAX = (v / 10).toNat ∧
      vv[getF t Reg.PWR_TEMP_DRAM_VAULT]? = some v ∧ getF t Reg.PWR_COOLANT_INLET = inl.toNat ∧ getF t Reg.PWR_COOLANT_OUTLET = outl.toNat ∧
      getF t Reg.PWR_VIN_VIN_MV = vin % 2 ^ 16 ∧
      (tj < j ∨ 900 < v → getF t Reg.PWR_OP_THERM_CAP = (cap - 10) % 4096 ∧ getB t Reg.PWR_STATUS_THERM_LIMITED = true) ∧
      (j < tj - 30 → v < 870 → getF t Reg.PWR_OP_THERM_CAP = min 2200 (cap + 5)) ∧
      (∀ i x, vv[i]? = some x → 850 < x → i ∈ t.pwr.refresh2x) ∧
      (j < 1050 → v < 950 → t.pwr.brakes = [] ∧ keptBut [.flds, .pwr, .now, .fresh] s t) ∧
      (1050 ≤ j ∨ 950 ≤ v → getB t Reg.HOST_ALERT_THERMAL = true ∧ getB t Reg.PWR_STATUS_THERM_BRAKE = true ∧ t.pwr.brakes = [1] ∧
        getF t Reg.PWR_OP_OP_FLOOR = 192) ∧
      (1050 ≤ j → j < 1100 → v < 950 → t.boot = s.boot ∧ keptBut (.pwr :: .now :: .fresh :: irqParts) s t) ∧
      (1100 ≤ j → t.boot.stage = .safe ∧ t.boot.report.cause = 9 ∧ t.boot.report.detail = [(j / 10).toNat, (v / 10).toNat] ∧ t.pwr.tripHold = true ∧
        t.portion = none) := by
  intro j v tj cap
  have hlim := limitsSet_touches jv vv r
  obtain ⟨hatL, hbrL⟩ := pwr_limitsSet jv vv r
  have hbase : keptBut [.flds, .pwr, .now, .fresh] s (limitsSet jv vv r) := (keptBut_trans h.touches.parts hlim.parts).mono (by decide)
  have hboot : (limitsSet jv vv r).boot = s.boot := hbase .boot (by decide)
  obtain ⟨hall, hrefresh, hcool, hhot, hwarm, htrip⟩ := checked_spec (j := j) (v := v) (mean := mean) (time := time)
    ((clocked_congr hboot).trans hc) (by rw [hboot]; exact hs) (hatL.trans (h.brakeAt.trans hat)) (hbrL.trans (h.brakes.trans hbr)) rfl rfl
  have hkeep : ∀ f ∈ inputFlds ++ tempFlds, oneOf capFlds (fldKey f .a) = false ∧ (judgedKey (fldKey f .a) || tripKey (fldKey f .a)) = false := by
    decide
  have hread : ∀ f ∈ inputFlds ++ tempFlds, getF (checkEnd j v time (thermalJudged jv vv mean time r)) f = getF r f := fun f hf =>
    (hall.getF (hkeep f hf).2).trans (hlim.getF (hkeep f hf).1)
  have htarget : getF (inletGood r) Reg.PWR_THERM_CTL_TJ_TARGET = getF s Reg.PWR_THERM_CTL_TJ_TARGET := h.touches.getF (by decide)
  have hcap : getF (inletGood r) Reg.PWR_OP_THERM_CAP = cap := h.touches.getF (by decide)
  have hcapT : ∀ f ∈ capFlds, getF (checkEnd j v time (thermalJudged jv vv mean time r)) f = getF (thermCap (inletGood r) j v) f := by
    have hfree : ∀ f ∈ capFlds, (judgedKey (fldKey f .a) || tripKey (fldKey f .a)) = false := by decide
    exact fun f hf => hall.getF (hfree f hf)
  refine ⟨(hread _ (by decide)).trans h.junction, (hread _ (by decide)).trans h.vault, ?_, (hread _ (by decide)).trans h.inlet,
    (hread _ (by decide)).trans h.outlet, (hread _ (by decide)).trans h.input, fun hover => ?_, fun hjlow hvlow => ?_,
    fun i x hi hx => ?_, fun hjlow hvlow => ?_, hhot, fun hjhi hjlo hvlow => ?_, htrip⟩
  · rw [hread _ (by decide), h.hottest]
    exact getElem_hottestAt hvne
  · rw [getB, hcapT _ (by decide), hcapT _ (by decide)]
    have hset := thermCap_hot (s := inletGood r) (j := j) (v := v) (by rw [htarget]; exact hover)
    rwa [hcap] at hset
  · rw [hcapT _ (by decide), thermCap_cool (by rw [htarget]; exact hjlow) hvlow, hcap]
  · rw [show (checkEnd j v time (thermalJudged jv vv mean time r)).pwr.refresh2x = _ from hrefresh]
    exact mem_refreshRates _ hi hx
  · obtain ⟨hbrakes, hkept, -⟩ := hcool hjlow hvlow
    exact ⟨hbrakes, (keptBut_trans hbase hkept).mono (by decide)⟩
  · have hkept := hwarm hjhi hjlo hvlow
    exact ⟨(hkept .boot (by decide)).trans hboot, (keptBut_trans hbase hkept).mono (by decide)⟩

theorem boot_thermalJudged (h : r.pwr.brakeAt = none) : (thermalJudged jv vv mean time r).boot = r.boot := by
  have hbrake := (thermalBrake_touches (j := hottest jv) (v := hottest vv) ((pwr_limitsSet jv vv r).1.trans h) mean time).1.parts
  exact (hotNoted_kept _ time _ .boot (by decide)).trans ((hbrake .boot (by decide)).trans ((limitsSet_touches jv vv r).parts .boot (by decide)))

end

/-- The readings that the statement speaks of. -/
theorem readings_fit {jv vv : List Int} {inl outl : Int} (hjlen : jv.length = 36) (hvlen : vv.length = 32) (hj : readingsGood jv)
    (hv : readingsGood vv) (hin : inl ≤ 450) (hout : outl ≤ 1000) : ∀ w ∈ tempWrites jv vv inl outl, w.2 < 2 ^ w.1.len := by
  have hjne : jv ≠ [] := List.ne_nil_of_length_pos (by omega)
  have hvne : vv ≠ [] := List.ne_nil_of_length_pos (by omega)
  have hlen : (jv.take 32).length = 32 := by rw [List.length_take, hjlen]; rfl
  exact tempWrites_fits (hj _ (hottest_mem hjne)).2 (hv _ (hottest_mem hvne)).2
    ((hottestAt_lt (List.ne_nil_of_length_pos (by omega))).trans_eq hlen) ((hottestAt_lt hvne).trans_eq hvlen) hin hout

/-- Settles O51: each cause is noted first and then brakes, and a check's limits, brake and trip read the same two hottest readings. -/
theorem brakesTemperaturesAndSideband : Obligations.BrakesTemperaturesAndSideband := by
  unfold Obligations.BrakesTemperaturesAndSideband
  refine ⟨fun s time c k fs hc hcmd hk => ?_, fun s time mean c k fs hc hcmd hk => ?_,
    fun s p time hc ht => ⟨exec_perstAssert_spec hc ht, exec_perstRelease_spec hc ht⟩,
    fun s i time mean => ⟨exec_sidebandToggling_spec i time s, fun ht => ⟨?_, exec_togglingEnd_released i time mean s ht⟩⟩,
    fun s p time x => ⟨fun hx h => ?_, fun hx h hp => ?_, fun hx h => ?_, fun hx h hc hs => ?_⟩,
    fun s jv vv inl outl vin iin mean time hc hs hjlen hvlen hgood hin hin' hout hout' hsens hpeak hat hbr hvin => ?_⟩
  · obtain ⟨u, hexec, htouches, hbrakes, hbits, hfs, hentry⟩ := exec_brake hc hcmd
    exact ⟨_, hexec, braked_spec htouches hbrakes hk hbits hfs hentry⟩
  · obtain ⟨u, hexec, htouches, hbrakes, hceff, hbits, hfs, hmin⟩ := exec_brakeRelease hc hcmd
    exact ⟨_, hexec, released_spec mean htouches hbrakes hceff hk hbits hfs hmin⟩
  · have hended := togEnded_touches i time s
    exact ⟨_, exec_togglingEnd i time mean s true ht, toggling_togEnded i time s, hended.regs, hended.parts⟩
  · obtain ⟨hbit, halert⟩ := alertNoted_bits time (f := Reg.PWR_STATUS_SHUTTER_STUCK) (a := Reg.HOST_ALERT_SHUTTER_STUCK) s (by decide) (by decide)
      (by decide) (by decide)
    exact ⟨_, exec_shutterStuck hx h, hbit, halert, (alertNoted_touches time _ _ s).parts⟩
  · have hlen : 0 < (perstStuckFld p).len ∧ alertKey Reg.HOST_ALERT_PERST_STUCK (fldKey (perstStuckFld p) .a) = false := by cases p <;> decide
    obtain ⟨hbit, halert⟩ := alertNoted_bits time (f := perstStuckFld p) (a := Reg.HOST_ALERT_PERST_STUCK) s hlen.1 (by decide) (by decide) hlen.2
    refine ⟨_, exec_perstStuck hx h hp, ?_, halert, (alertNoted_touches time _ _ s).parts⟩
    cases p <;> exact hbit
  · obtain ⟨hbit, halert, hkept⟩ := inletRange_spec (10 * ((getF s Reg.PWR_COOLANT_INLET / 10 : Nat) : Int)) (atTime time s)
    exact ⟨_, exec_inletRange hx h, hbit, halert, (keptBut_trans (atTime_touches time s).parts hkept).mono (by decide)⟩
  · have hboot : (atTime time s).boot = s.boot := (atTime_touches time s).parts .boot (by decide)
    have hc' := (clocked_congr hboot).trans hc
    have hs' : (atTime time s).boot.stage ≠ .safe := by rw [hboot]; exact hs
    obtain ⟨hstage, hcause, hstatus, -, hstate, halert, hportion, hinbox⟩ := enterSafe_spec hc' hs' 0x0A 0 []
    exact ⟨_, exec_leakGraceExpire hx h, hstage, hcause, hstatus, hstate, halert, hportion, hinbox,
      (keptBut_trans (atTime_touches time s).parts (enterSafe_touches hc' hs' 0x0A 0 []).parts).mono (by decide)⟩
  · have hj : readingsGood jv := fun x hx => hgood x (List.mem_append_left _ hx)
    have hv : readingsGood vv := fun x hx => hgood x (List.mem_append_right _ hx)
    have hshown := readingsShown_spec vin iin time s (readings_fit hjlen hvlen hj hv hin' hout')
    have hboot := (boot_thermalJudged (jv := jv) (vv := vv) mean time (hshown.brakeAt.trans hat)).trans (hshown.touches.parts .boot (by decide))
    exact ⟨_, exec_thermalCheck vin iin mean time hc hj hv hin hin' hout hout' hsens hpeak hvin rfl (by rw [hboot]; exact hs),
      checkEnd_spec vin mean time hshown hc hs (List.ne_nil_of_length_pos (by omega)) hat hbr⟩

end Sys2Proof.Machine
end

