-- ==== Sys2Proof/Proofs/FabricTimers.lean ====
section
/-!
SUPPORT. Proofs/FabricTimers.lean: maps of modules, fabric faults, operations that end, and O46 (R319 to R323, R328, R333, R457).
-/
namespace Sys2Proof.Machine

set_option Elab.async false

/-! ### Bits of a map -/

theorem bit_setBitsAt_ne {i j : Nat} (h : j ≠ i) (w v : Nat) : bit (setBitsAt w i 1 v) j = bit w j := by
  have hsplit : setBitsAt w i 1 v = 2 ^ i * (v % 2 + 2 * (w / 2 ^ (i + 1))) + w % 2 ^ i := by
    rw [setBitsAt, pow_one]
    ring
  have hlow : w % 2 ^ i < 2 ^ i := Nat.mod_lt _ (Nat.two_pow_pos i)
  rw [bit_eq_testBit, bit_eq_testBit, hsplit, Nat.testBit_two_pow_mul_add _ hlow]
  split
  · next hlt => rw [Nat.testBit_mod_two_pow, decide_eq_true hlt, Bool.true_and]
  · next hge =>
    obtain ⟨k, rfl⟩ : ∃ k, j = i + 1 + k := ⟨j - i - 1, by omega⟩
    rw [show i + 1 + k - i = k + 1 by omega, Nat.testBit_succ, Nat.add_mul_div_left _ _ Nat.two_pos,
      Nat.div_eq_of_lt (Nat.mod_lt v Nat.two_pos), Nat.zero_add, Nat.testBit_div_two_pow]
    congr 1
    omega

theorem getBit_setBit_ne (s : State) {f : Fld} {i j : Nat} (hj : j < f.len) (h : j ≠ i) (b : Bool) : getBit (setBit s f i b) f j = getBit s f j := by
  rw [getBit, setBit, getF_setF_self, bit_eq_testBit, Nat.testBit_mod_two_pow, ← bit_eq_testBit, bit_setBitsAt_ne h, decide_eq_true hj,
    Bool.true_and, getBit]

/-- The registers of the map of dead modules. -/
def deadFlds : List Fld := (List.range 4).map Reg.FAB_DEAD

/-- The target's bit. -/
def deadNoted (target : Nat) (s : State) : State := setBit s (Reg.FAB_DEAD (target / 32)) (target % 32) true

theorem mem_deadFlds {target : Nat} (h : target < 128) : Reg.FAB_DEAD (target / 32) ∈ deadFlds :=
  List.mem_map_of_mem (List.mem_range.mpr (by omega))

theorem deadNoted_touches {target : Nat} (h : target < 128) (s : State) : Touches [.flds] (oneOf deadFlds) s (deadNoted target s) :=
  .setBit (.refl s) (oneOf_mem (mem_deadFlds h))

theorem isDead_deadNoted (target : Nat) (s : State) : isDead (deadNoted target s) target = true :=
  getBit_setBit_self s (Nat.mod_lt target (show 0 < 32 by decide)) true

theorem deadFlds_keys : ∀ j k : Fin 4, j ≠ k → fldKey (Reg.FAB_DEAD j) .a ≠ fldKey (Reg.FAB_DEAD k) .a := by decide

theorem isDead_deadNoted_other {target d : Nat} (ht : target < 128) (hd : d < 128) (h : d ≠ target) (s : State) :
    isDead (deadNoted target s) d = isDead s d := by
  by_cases hreg : d / 32 = target / 32
  · have hbit : d % 32 < (Reg.FAB_DEAD (target / 32)).len := Nat.mod_lt d (show 0 < 32 by decide)
    have hne : d % 32 ≠ target % 32 := by omega
    rw [isDead, idBit, deadNoted, hreg, getBit_setBit_ne s hbit hne, isDead, idBit, hreg]
  · have hkey : fldKey (Reg.FAB_DEAD (d / 32)) .a ≠ fldKey (Reg.FAB_DEAD (target / 32)) .a :=
      deadFlds_keys ⟨d / 32, by omega⟩ ⟨target / 32, by omega⟩ (by simpa using hreg)
    rw [isDead, idBit, getBit, deadNoted, setBit, getF_setF_ne hkey, isDead, idBit, getBit]

theorem isDead_of_flds {K : Nat → Bool} {l : List Part} {s t : State} (h : Touches l K s t) (hK : ∀ f ∈ deadFlds, K (fldKey f .a) = false)
    {d : Nat} (hd : d < 128) : isDead t d = isDead s d := by
  rw [isDead, idBit, getBit, h.getF (hK _ (mem_deadFlds hd)), isDead, idBit, getBit]

/-! ### Fabric faults (R333) -/

def fabFaultFlds : List Fld := [Reg.FAB_LAST_FAULT_TARGET, Reg.FAB_LAST_FAULT_STATUS, Reg.FAB_LAST_FAULT_PLANE, Reg.FAB_LAST_FAULT_CAUSE]

def fabFaultKey (k : Nat) : Bool := irqKey k || oneOf fabFaultFlds k

theorem fabFault_touches (target status plane cause : Nat) (s : State) :
    Touches irqParts fabFaultKey s (fabFault target status plane cause s) :=
  .irqBoth (.setF (.setF (.setF (.setF (.refl s))))) (by decide) fun _ e => (Bool.or_eq_false_iff.mp e).1

theorem getF_fabFault {target cause : Nat} (ht : target < 128) (hc : cause < 16) (status plane : Nat) (s : State) :
    getF (fabFault target status plane cause s) Reg.FAB_LAST_FAULT_TARGET = target ∧
      getF (fabFault target status plane cause s) Reg.FAB_LAST_FAULT_STATUS = status % 2 ^ 8 ∧
      getF (fabFault target status plane cause s) Reg.FAB_LAST_FAULT_CAUSE = cause := by
  refine ⟨(getF_irqBoth (by decide) _ _ (by decide)).trans ?_, (getF_irqBoth (by decide) _ _ (by decide)).trans ?_,
    (getF_irqBoth (by decide) _ _ (by decide)).trans ?_⟩
  · simp (disch := decide) only [getF_setF_ne, getF_setF_self]
    exact Nat.mod_eq_of_lt ht
  · simp (disch := decide) only [getF_setF_ne, getF_setF_self]
    rfl
  · exact (getF_setF_self _ _ _).trans (Nat.mod_eq_of_lt hc)

/-! ### How an operation ends (R323) -/

/-- The operation is outstanding no longer. -/
def opGone (num : Nat) (s : State) : State := { s with fab.ops := s.fab.ops.filter fun x => x.num != num }

theorem opGone_kept (num : Nat) (s : State) : keptBut [.fab] s (opGone num s) := fab_kept s _

theorem getF_opGone (num : Nat) (s : State) (f : Fld) : getF (opGone num s) f = getF s f := rfl

theorem isDead_opGone (num : Nat) (s : State) (d : Nat) : isDead (opGone num s) d = isDead s d := rfl

/-- A store whose instruction has completed leaves nothing but its place. -/
theorem endOp_store {s : State} {o : FabOp} {st : Nat} (hmem : o ∈ s.fab.ops) (hk : o.kind = .store) (hdone : o.done = true) (hsash : o.sash = none)
    (hstep : o.step = none ∨ (st ≠ 0x20 ∧ st ≠ 0x23)) (old : Nat) (data : List Nat) :
    endOp o st old data s = fenceNote o.num (opGone o.num s) := by
  have hany : (s.fab.ops.any fun x => x.num == o.num) = true := List.any_eq_true.mpr ⟨o, hmem, beq_self_eq_true _⟩
  have hatomic : isAtomic o.kind = false := by rw [hk]; rfl
  have hresult (o1 : FabOp) (h1 : o1.kind = .store) (t : State) : opResult o1 st old data t = t := by
    unfold opResult
    split
    · rfl
    · rw [h1]
      rfl
  have hnote (o1 : FabOp) (h1 : o1.step = o.step) (t : State) : noteStatus o1 st t = t := by
    unfold noteStatus
    rw [h1]
    split
    · rfl
    · next k hstepk => exact if_pos (by simpa [hstepk] using hstep)
  refine (if_neg (by simp [hany])).trans ?_
  simp only [hatomic, Bool.false_and, Bool.false_eq_true, if_false, hsash, hdone, Bool.true_or, if_true]
  rw [hnote, hresult]
  · rfl
  · exact hk
  · rfl

theorem fenceNote_none {s : State} (h : s.fab.fences = []) (num : Nat) : fenceNote num s = s := by
  have hfab : { s.fab with fences := [] } = s.fab := by rw [← h]
  have hset : { s with fab := { s.fab with fences := [] } } = s := by rw [hfab]
  simp only [fenceNote, h, List.map_nil, List.filter_nil, List.foldl_nil]
  exact hset

/-! ### The timers with nothing due (R319, R321, R323) -/

section
variable (time : Nat) (s : State)

theorem fab_atTime : (atTime time s).fab = s.fab := (atTime_touches time s).parts .fab (by decide)

theorem now_atTime : (atTime time s).now = max s.now time := rfl

theorem boundNs_atTime : boundNs (atTime time s) = boundNs s := by rw [boundNs, getF_atTime (by decide), boundNs]

theorem exec_retryIntervalExpire_early (h : ∀ o ∈ s.fab.ops, o.sent = true → max s.now time < o.last + boundNs s / 4) :
    exec (.retryIntervalExpire time) s = .next (atTime time s) := by
  refine congrArg Host.Outcome.next (List.foldl_fixed' (fun k => ?_) _)
  split
  · next o ho =>
    rw [fab_atTime] at ho
    have hmem := List.mem_of_find?_eq_some ho
    have hsent : o.sent = true := by
      have hfound := List.find?_some ho
      simp only [Bool.and_eq_true] at hfound
      exact hfound.1
    refine if_neg (Nat.not_le.mpr ?_)
    rw [boundNs_atTime, now_atTime]
    exact h o hmem hsent
  · rfl

/-- The operations that have reached the bound. -/
def overdue (s : State) : List FabOp := s.fab.ops.filter fun o => !o.held && !o.waiting && decide (o.first + boundNs s ≤ s.now)

theorem exec_loadBoundExpire {l : List FabOp} (h : overdue (atTime time s) = l) : exec (.loadBoundExpire time) s =
    .next ((sortBy (fun a b => decide (a < b)) (l.flatMap fun o => if o.mcast then o.members else [o.target]).dedup).foldl markDead (atTime time s)) := by
  rw [← h]
  rfl

theorem mem_overdue {o : FabOp} : o ∈ overdue (atTime time s) ↔
    o ∈ s.fab.ops ∧ o.held = false ∧ o.waiting = false ∧ o.first + boundNs s ≤ max s.now time := by
  simp only [overdue, List.mem_filter, fab_atTime, boundNs_atTime, now_atTime, Bool.and_eq_true, Bool.not_eq_true', decide_eq_true_eq, and_assoc]

theorem exec_loadBoundExpire_early (h : ∀ o ∈ s.fab.ops, o.held = true ∨ o.waiting = true ∨ max s.now time < o.first + boundNs s) :
    exec (.loadBoundExpire time) s = .next (atTime time s) := by
  refine exec_loadBoundExpire time s (l := []) (List.eq_nil_iff_forall_not_mem.mpr fun o ho => ?_)
  obtain ⟨hmem, hheld, hwaiting, hdue⟩ := (mem_overdue time s).mp ho
  rcases h o hmem with h | h | h
  · rw [hheld] at h; cases h
  · rw [hwaiting] at h; cases h
  · omega

theorem exec_replyCacheExpire : exec (.replyCacheExpire time) s =
    .next { atTime time s with fab.cache := (atTime time s).fab.cache.filter (cacheLive (atTime time s).now) } := rfl

theorem releaseAtomic_not {o : FabOp} (h : o.waiting = false ∨ 512 ≤ (atomicsTo s o.target).length) : releaseAtomic s o = s := by
  refine if_neg ?_
  rcases h with h | h
  · simp [h]
  · simp [Nat.not_lt.mpr h]

theorem exec_atomicThrottleRelease_none (h : ∀ o ∈ s.fab.ops, o.waiting = false ∨ 512 ≤ (atomicsTo (atTime time s) o.target).length) :
    exec (.atomicThrottleRelease time) s = .next (atTime time s) := by
  have hfold : ∀ l : List FabOp, (∀ o ∈ l, o.waiting = false ∨ 512 ≤ (atomicsTo (atTime time s) o.target).length) →
      l.foldl releaseAtomic (atTime time s) = atTime time s := by
    intro l hl
    induction l with
    | nil => rfl
    | cons o l ih =>
      rw [List.foldl_cons, releaseAtomic_not _ (hl o List.mem_cons_self)]
      exact ih fun x hx => hl x (List.mem_cons_of_mem _ hx)
  refine congrArg Host.Outcome.next (hfold _ ?_)
  rw [fab_atTime]
  exact h

theorem atomicsTo_atTime (target : Nat) : atomicsTo (atTime time s) target = atomicsTo { s with now := max s.now time } target := by
  rw [atomicsTo, fab_atTime, now_atTime]
  rfl

end

/-! ### A store that reaches the bound (R323) -/

/-- The bound is counted, and recorded as a fault. -/
def boundNoted (o : FabOp) (s : State) : State := fabFault o.target 0x20 o.plane 1 (bump (deadNoted o.target s) Reg.FAB_BOUND 1)

def boundFlds : List Fld := Reg.FAB_BOUND :: deadFlds

theorem markDead_store {s : State} {o : FabOp} (hops : s.fab.ops = [o]) (hheld : o.held = false) (hm : o.mcast = false) (hk : o.kind = .store)
    (hdone : o.done = true) (hsash : o.sash = none) (hstep : o.step = none) (hf : s.fab.fences = []) :
    markDead s o.target = opGone o.num (boundNoted o s) := by
  have hfab : (boundNoted o s).fab = s.fab := (fabFault_touches _ _ _ _ _).parts .fab (by decide)
  have hwaits : (deadNoted o.target s).fab.ops.filter (fun x => !x.held && awaits o.target x) = [o] := by
    rw [show (deadNoted o.target s).fab.ops = [o] from hops]
    simp [hheld, awaits, hm]
  have hgone : (opGone o.num (boundNoted o s)).fab.fences = [] := (congrArg FabSt.fences hfab).trans hf
  have hctrl : (o.kind == FabKind.ctrl) = false := by rw [hk]; rfl
  change ((deadNoted o.target s).fab.ops.filter fun x => !x.held && awaits o.target x).foldl (endDead o.target) (deadNoted o.target s) = _
  rw [hwaits, List.foldl_cons, List.foldl_nil, endDead, hctrl, if_neg Bool.false_ne_true]
  exact (endOp_store (by rw [show (fabFault _ _ _ _ _).fab = s.fab from hfab, hops]; exact List.mem_singleton_self o) hk hdone hsash (.inl hstep) _ _).trans
    (fenceNote_none hgone _)

theorem boundNoted_touches {o : FabOp} (ht : o.target < 128) (s : State) :
    Touches irqParts (fun k => fabFaultKey k || oneOf boundFlds k) s (boundNoted o s) := by
  have hdead : Touches irqParts (fun k => fabFaultKey k || oneOf boundFlds k) s (bump (deadNoted o.target s) Reg.FAB_BOUND 1) :=
    .bump ((deadNoted_touches ht s).mono (by decide) fun _ e => oneOf_mono (by decide) (Bool.or_eq_false_iff.mp e).2)
  exact hdead.step (fabFault_touches _ _ _ _ _) (fun _ => id) fun _ e => (Bool.or_eq_false_iff.mp e).1

theorem boundNoted_spec {o : FabOp} (ht : o.target < 128) (s : State) : let t := boundNoted o s
    isDead t o.target = true ∧ (∀ d, d < 128 → d ≠ o.target → isDead t d = isDead s d) ∧
      getF t Reg.FAB_BOUND = min (getF s Reg.FAB_BOUND + 1) (2 ^ 64 - 1) ∧ getF t Reg.FAB_LAST_FAULT_CAUSE = 1 ∧
      getF t Reg.FAB_LAST_FAULT_TARGET = o.target := by
  have hfault := fabFault_touches o.target 0x20 o.plane 1 (bump (deadNoted o.target s) Reg.FAB_BOUND 1)
  have hbump : Touches [.flds] (oneOf [Reg.FAB_BOUND]) (deadNoted o.target s) (bump (deadNoted o.target s) Reg.FAB_BOUND 1) := .bump (.refl _)
  have hisDead {d : Nat} (hd : d < 128) : isDead (boundNoted o s) d = isDead (deadNoted o.target s) d :=
    (isDead_of_flds hfault (by decide) hd).trans (isDead_of_flds hbump (by decide) hd)
  obtain ⟨htarget, -, hcause⟩ := getF_fabFault (cause := 1) ht (by decide) 0x20 o.plane (bump (deadNoted o.target s) Reg.FAB_BOUND 1)
  refine ⟨(hisDead ht).trans (isDead_deadNoted _ _), fun d hd hne => (hisDead hd).trans (isDead_deadNoted_other ht hd hne s), ?_, hcause, htarget⟩
  refine (hfault.getF (by decide)).trans ((getF_bump_self (deadNoted o.target s) rfl 1).trans ?_)
  rw [(deadNoted_touches ht s).getF (by decide)]

/-! ### Taking a membership record (R328, R457) -/

section
variable {s : State} {p : Port} {host : HostMem} {authOk : Bool}

/-- R328: a record that is refused. -/
def memberRefused (s : State) : State := irqBoth 2 (setF s Reg.FAB_MEMBER_CMD_STATUS 0x23)

/-- R328: a record that waits for its boundary. -/
def memberPending (p : Port) (m : Member) (s : State) : State :=
  setF (setF { s with fab.pend := some (p, some m) } Reg.FAB_MEMBER_CMD_BUSY 1) Reg.FAB_MEMBER_CMD_STATUS 0

/-- Where the record stands in host memory. -/
def memberAddr (s : State) : Nat := getF s Reg.FAB_MEMBER_ADDR_LO * 256 + getF s Reg.FAB_MEMBER_ADDR_HI * 2 ^ 32

theorem exec_memberApply_busy (ha : stageAlive s = true) (hb : getB s Reg.FAB_MEMBER_CMD_BUSY = true) :
    exec (.memberApply p host authOk) s = .next s := by
  refine congrArg Host.Outcome.next ((viaPf0_alive ha p _).trans ?_)
  exact if_pos hb

theorem exec_memberApply_unread (ha : stageAlive s = true) (hb : getB s Reg.FAB_MEMBER_CMD_BUSY = false)
    (hr : hostRead host p (memberAddr s) 256 = none) : exec (.memberApply p host authOk) s = .next (memberRefused s) := by
  refine congrArg Host.Outcome.next ((viaPf0_alive ha p _).trans ((if_neg (by rw [hb]; exact Bool.false_ne_true)).trans ?_))
  rw [memberAddr] at hr
  dsimp only
  rw [hr]
  rfl

theorem exec_memberApply_read {bs : List Nat} (ha : stageAlive s = true) (hb : getB s Reg.FAB_MEMBER_CMD_BUSY = false)
    (hr : hostRead host p (memberAddr s) 256 = some bs) : exec (.memberApply p host authOk) s =
      .next (if memberOk s (parseMember bs) && authOk && !s.sec.ks.app.isEmpty then memberPending p (parseMember bs) s else memberRefused s) := by
  refine congrArg Host.Outcome.next ((viaPf0_alive ha p _).trans ((if_neg (by rw [hb]; exact Bool.false_ne_true)).trans ?_))
  rw [memberAddr] at hr
  dsimp only
  rw [hr]
  rfl

theorem memberRefused_spec (s : State) : getF (memberRefused s) Reg.FAB_MEMBER_CMD_STATUS = 0x23 ∧ keptBut irqParts s (memberRefused s) := by
  have hset : Touches irqParts (fun k => irqKey k || oneOf [Reg.FAB_MEMBER_CMD_STATUS] k) s (memberRefused s) :=
    .irqBoth (.setF (.refl s)) (by decide) fun _ e => (Bool.or_eq_false_iff.mp e).1
  exact ⟨(getF_irqBoth (by decide) _ _ (by decide)).trans (getF_setF_self _ _ _), hset.parts⟩

theorem memberPending_spec (p : Port) (m : Member) (s : State) : let t := memberPending p m s
    t.fab = { s.fab with pend := some (p, some m) } ∧ getB t Reg.FAB_MEMBER_CMD_BUSY = true ∧ getF t Reg.FAB_MEMBER_CMD_STATUS = 0 ∧
      regsKept (oneOf [Reg.FAB_MEMBER_CMD_BUSY, Reg.FAB_MEMBER_CMD_STATUS]) s t ∧ keptBut [.flds, .fab] s t := by
  have hset : Touches [.flds, .fab] (oneOf [Reg.FAB_MEMBER_CMD_BUSY, Reg.FAB_MEMBER_CMD_STATUS]) s (memberPending p m s) :=
    .setF (.setF (.keep (.refl s) (fab_kept s _)))
  refine ⟨rfl, ?_, getF_setF_self _ _ _, hset.regs, hset.parts⟩
  rw [getB, memberPending, getF_setF_ne (by decide)]
  exact getB_setF_one _ (by decide)

end

/-! ### The statement -/

/-- Settles O46: a timer acts only on what is due at its time, and a record waits for its boundary. -/
theorem fabricTimersAndMembership : Obligations.FabricTimersAndMembership := by
  unfold Obligations.FabricTimersAndMembership
  refine ⟨fun s time => ⟨exec_retryIntervalExpire_early time s, exec_loadBoundExpire_early time s,
      fun o hops hheld hwaiting hm hk hdone hsash hstep hsent hf ht hdue => ?_, ⟨_, exec_replyCacheExpire time s, ?_, ?_, ?_⟩,
      fun h => exec_atomicThrottleRelease_none time s fun o ho => .inl (h o ho), fun o hops _ hfull => ?_⟩,
    fun s p host authOk ha => ⟨exec_memberApply_busy ha, fun hb => ⟨fun bs hr hok hauth happ => ?_, fun hbad => ?_⟩⟩⟩
  · have hover : overdue (atTime time s) = [o] := by
      rw [overdue, fab_atTime, hops]
      simpa [hheld, hwaiting, boundNs_atTime, now_atTime] using hdue
    have hopsT : (atTime time s).fab.ops = [o] := by rw [fab_atTime]; exact hops
    have hfencesT : (atTime time s).fab.fences = [] := by rw [fab_atTime]; exact hf
    have hexec := exec_loadBoundExpire time s hover
    rw [show (sortBy (fun a b => decide (a < b)) ([o].flatMap fun o => if o.mcast then o.members else [o.target]).dedup) = [o.target] by
      simp [hm, sortBy, insertBy], List.foldl_cons, List.foldl_nil, markDead_store hopsT hheld hm hk hdone hsash hstep hfencesT] at hexec
    obtain ⟨hdead, hothers, hbound, hcause, htarget⟩ := boundNoted_spec ht (atTime time s)
    have hnoted := boundNoted_touches ht (atTime time s)
    have hfab : (boundNoted o (atTime time s)).fab = (atTime time s).fab := hnoted.parts .fab (by decide)
    refine ⟨_, hexec, (isDead_opGone _ _ _).trans hdead,
      fun d hd hne => (isDead_opGone _ _ _).trans ((hothers d hd hne).trans (isDead_of_flds (atTime_touches time s) (by decide) hd)), ?_,
      (getF_opGone _ _ _).trans (hbound.trans (by rw [getF_atTime (by decide)])), (getF_opGone _ _ _).trans hcause, (getF_opGone _ _ _).trans htarget,
      (keptBut_trans (keptBut_trans (atTime_touches time s).parts hnoted.parts) (opGone_kept o.num _)).mono (by decide)⟩
    rw [opGone, hfab, hopsT]
    simp
  · exact congrArg (fun f : FabSt => { f with cache := f.cache.filter (cacheLive (max s.now time)) }) (fab_atTime time s)
  · exact (keptBut_trans (atTime_touches time s).parts (fab_kept _ _)).mono (by decide)
  · exact (atTime_touches time s).regs
  · refine exec_atomicThrottleRelease_none time s fun x hx => .inr ?_
    rw [hops] at hx
    obtain rfl := List.mem_singleton.mp hx
    rw [atomicsTo_atTime]
    exact hfull
  · obtain ⟨hfab, hbusy, hstatus, hregs, hparts⟩ := memberPending_spec p (parseMember bs) s
    refine ⟨_, (exec_memberApply_read ha hb hr).trans (congrArg Host.Outcome.next (if_pos ?_)), hfab, hbusy, hstatus, hregs, hparts⟩
    simp [hok, hauth, happ]
  · obtain ⟨hstatus, hparts⟩ := memberRefused_spec s
    refine ⟨memberRefused s, ?_, hstatus, hparts⟩
    cases hr : hostRead host p (memberAddr s) 256 with
    | none => exact exec_memberApply_unread ha hb hr
    | some bs =>
      refine (exec_memberApply_read ha hb hr).trans (congrArg Host.Outcome.next (if_neg ?_))
      have hread : ∀ b, hostRead host p (memberAddr s) 256 = some b → b = bs := fun b hb' => Option.some.inj (hb'.symm.trans hr)
      rcases hbad with h | h | h | ⟨b, hb', h⟩
      · rw [← memberAddr, hr] at h
        cases h
      · simp [h]
      · simp [h]
      · rw [hread b hb'] at h
        simp [h]

end Sys2Proof.Machine
end

