-- ==== Sys2Proof/Proofs/Counters.lean ====
section
/-!
SUPPORT. Proofs/Counters.lean: freezing, snapshots, sampling, layer slots, wraps of counters, the ledger's periodic records, and O59
(R472, R478 to R484, R487, R488).
-/
namespace Sys2Proof.Machine

set_option Elab.async false

/-! ### Freezing (R480, R483) -/

theorem pmcSub_touches (e n : Nat) (s : State) : Touches [.flds] pmcKey s (pmcSub (4096 - e) e n s) := by
  by_cases h : e ≤ 4096
  · obtain ⟨hparts, hregs⟩ := pmcSub_spec (fuel := 4096 - e) (e := e) (n := n) s (by omega)
    exact ⟨hparts, hregs⟩
  · rw [show 4096 - e = 0 by omega]
    exact .refl s

/-- A move outside a freeze counts at once. -/
theorem wasteSlots_touches {s : State} (h : getB s Reg.PMC_CTL_FROZEN = false) (c n : Nat) : Touches [.flds] pmcKey s (wasteSlots c n s) := by
  unfold wasteSlots
  rw [h, if_neg Bool.false_ne_true]
  exact .ite (.refl s) (.countEv (pmcSub_touches _ _ _) fun _ => id)

theorem foldl_wasteSlots_touches (l : List (Nat × Nat)) {s : State} (h : getB s Reg.PMC_CTL_FROZEN = false) :
    Touches [.flds] pmcKey s (l.foldl (fun t m => wasteSlots m.1 m.2 t) s) := by
  induction l generalizing s with
  | nil => exact .refl s
  | cons m l ih =>
    have hstep := wasteSlots_touches h m.1 m.2
    exact hstep.trans (ih ((hstep.getB (by decide)).trans h))

theorem movesHeld_kept (s : State) (l : List (Nat × Nat)) : keptBut [.movesHeld] s { s with movesHeld := l } := fun p hp => by
  cases p with
  | movesHeld => exact absurd hp (by decide)
  | _ => rfl

/-- R483: what waited for the freeze's end is counted. -/
theorem applyMoves_spec {s : State} (h : getB s Reg.PMC_CTL_FROZEN = false) :
    Touches [.flds, .movesHeld] pmcKey s (applyMoves s) ∧ (applyMoves s).movesHeld = [] := by
  have hfold := foldl_wasteSlots_touches s.movesHeld (s := { s with movesHeld := [] }) h
  exact ⟨(Touches.keep (.refl s) (movesHeld_kept s [])).step hfold (by decide) fun _ => id, hfold.parts .movesHeld (by decide)⟩

def freezeFlds : List Fld := [Reg.PMC_CTL_FREEZE, Reg.PMC_CTL_FROZEN]

def freezeSet (on : Bool) (s : State) : State := setB (setB s Reg.PMC_CTL_FREEZE on) Reg.PMC_CTL_FROZEN on

section
variable {s : State} (on : Bool)

theorem freezeSet_touches (s : State) : Touches [.flds] (oneOf freezeFlds) s (freezeSet on s) := .setF (.setF (.refl s))

theorem getB_freezeSet (s : State) : getB (freezeSet on s) Reg.PMC_CTL_FREEZE = on ∧ getB (freezeSet on s) Reg.PMC_CTL_FROZEN = on :=
  ⟨(getB_setB_ne (by decide)).trans (getB_setB_self _ _ _ (by decide)), getB_setB_self _ _ _ (by decide)⟩

theorem exec_freeze (ha : stageAlive s = true) (p : Port) : exec (.freeze p on) s =
    .next (if getB s Reg.PMC_CTL_FROZEN && !on then applyMoves (freezeSet on s) else freezeSet on s) :=
  congrArg Host.Outcome.next (viaPf0_alive ha p _)

theorem exec_freeze_plain (ha : stageAlive s = true) (p : Port) (h : on = true ∨ getB s Reg.PMC_CTL_FROZEN = false) :
    exec (.freeze p on) s = .next (freezeSet on s) :=
  (exec_freeze on ha p).trans (congrArg Host.Outcome.next (if_neg (by rcases h with h | h <;> simp [h])))

theorem exec_freeze_ends (ha : stageAlive s = true) (p : Port) (h : getB s Reg.PMC_CTL_FROZEN = true) :
    exec (.freeze p false) s = .next (applyMoves (freezeSet false s)) :=
  (exec_freeze false ha p).trans (congrArg Host.Outcome.next (if_pos (by simp [h])))

end

/-! ### Snapshots (R481, R482) -/

section
variable {α : Type} {l : List (Nat × α)} {k : Nat}

theorem mem_of_alGet {x : α} (h : alGet l k = some x) : (k, x) ∈ l := by
  induction l with
  | nil => cases h
  | cons a l ih =>
    obtain ⟨j, y⟩ := a
    rw [alGet] at h
    split at h
    · next hj =>
      obtain rfl := Option.some.inj h
      rw [← hj]
      exact List.mem_cons_self
    · exact List.mem_cons_of_mem _ (ih h)

theorem not_mem_of_alGet (h : alGet l k = none) (x : α) : (k, x) ∉ l := by
  induction l with
  | nil => exact List.not_mem_nil
  | cons a l ih =>
    obtain ⟨j, y⟩ := a
    rw [alGet] at h
    split at h
    · cases h
    · next hj =>
      intro hx
      rcases List.mem_cons.mp hx with hx | hx
      · exact hj (Prod.ext_iff.mp hx).1.symm
      · exact ih h hx

end

/-- The first `n` values, but for those that are 0. -/
def nonzero (n : Nat) (v : Nat → Nat) : List (Nat × Nat) := ((List.range n).map fun e => (e, v e)).filter fun x => x.2 != 0

/-- The values that are not 0 tell every value. -/
theorem alGet_nonzero {n : Nat} (v : Nat → Nat) {e : Nat} (h : e < n) : (alGet (nonzero n v) e).getD 0 = v e := by
  have hmem {x : Nat} : (e, x) ∈ nonzero n v ↔ x = v e ∧ v e ≠ 0 := by
    simp only [nonzero, List.mem_filter, List.mem_map, List.mem_range, Prod.mk.injEq, bne_iff_ne]
    constructor
    · rintro ⟨⟨d, -, rfl, rfl⟩, hx⟩
      exact ⟨rfl, hx⟩
    · rintro ⟨rfl, hx⟩
      exact ⟨⟨e, h, rfl, rfl⟩, hx⟩
  cases hget : alGet (nonzero n v) e with
  | some x => exact (hmem.mp (mem_of_alGet hget)).1
  | none =>
    by_contra hv
    exact not_mem_of_alGet hget (v e) (hmem.mpr ⟨rfl, fun h0 => hv h0.symm⟩)

/-- R481: the counters as they stand. -/
def snapTaken (cause : Nat) (s : State) : Snap :=
  ⟨cause, getF s (Reg.PMC_COUNTER 0xEE8), if getB s Reg.MEM_GEN_STATE_ENTRY then getF s Reg.CTX_STEP_NEXT else s.lastStep,
    getB s Reg.PMC_CTL_FROZEN, nonzero 4095 (snapValue s)⟩

theorem alGet_snapTaken (cause : Nat) (s : State) {e : Nat} (h : e < 4095) : (alGet (snapTaken cause s).values e).getD 0 = snapValue s e := by
  have hvalues : (snapTaken cause s).values = nonzero 4095 (snapValue s) := by rw [snapTaken]
  rw [hvalues, alGet_nonzero (snapValue s) h]

/-- A snapshot begins. -/
def snapBegun (cause : Nat) (s : State) : State :=
  { setF s Reg.PMC_SNAP_STATUS_BUSY 1 with snp.run := some (snapTaken cause s) }

section
variable {s : State} {p : Port} {time : Nat}

theorem startSnap_busy (h : getB s Reg.PMC_SNAP_STATUS_BUSY = true) (cause : Nat) : startSnap cause s = countEv 0xEEE 1 s := if_pos h

theorem startSnap_idle (h : getB s Reg.PMC_SNAP_STATUS_BUSY = false) (cause : Nat) : startSnap cause s = snapBegun cause s :=
  if_neg (by rw [h]; exact Bool.false_ne_true)

theorem snapBegun_touches (cause : Nat) (s : State) : Touches [.flds, .snp] (oneOf [Reg.PMC_SNAP_STATUS_BUSY]) s (snapBegun cause s) :=
  .keep (.setF (.refl s)) (snp_kept _ _)

theorem getB_snapBegun (cause : Nat) (s : State) : getB (snapBegun cause s) Reg.PMC_SNAP_STATUS_BUSY = true :=
  getB_setF_one s (f := Reg.PMC_SNAP_STATUS_BUSY) (by decide)

theorem exec_snap (ha : stageAlive s = true) : exec (.snap p) s = .next (startSnap 0 s) :=
  congrArg Host.Outcome.next (viaPf0_alive ha p _)

/-- R481: the period's start is noted, and a snapshot begins. -/
def periodNoted (at0 steps time : Nat) (s : State) : State := { atTime time s with snp.at0 := at0, snp.steps := steps }

theorem snp_atTime (time : Nat) (s : State) : (atTime time s).snp = s.snp := (atTime_touches time s).parts .snp (by decide)

theorem exec_snapPeriod_time (ha : stageAlive s = true) (ht : getF s Reg.PMC_SNAP_CTL_TRIG = 1)
    (hdue : s.snp.at0 + getF s Reg.PMC_SNAP_CTL_PERIOD ≤ time / 1000) :
    exec (.snapPeriod time) s = .next (startSnap 1 { atTime time s with snp.at0 := time / 1000 }) :=
  congrArg Host.Outcome.next ((if_neg (by simp [ha])).trans (if_pos ⟨ht, hdue⟩))

theorem exec_snapPeriod_steps (ha : stageAlive s = true) (ht : getF s Reg.PMC_SNAP_CTL_TRIG = 2)
    (hdue : getF s Reg.PMC_SNAP_CTL_PERIOD ≤ s.snp.steps) :
    exec (.snapPeriod time) s = .next (startSnap 2 { atTime time s with snp.steps := 0 }) :=
  congrArg Host.Outcome.next ((if_neg (by simp [ha])).trans ((if_neg (by omega)).trans (if_pos ⟨ht, hdue⟩)))

theorem exec_snapPeriod_off (ha : stageAlive s = true) (h1 : getF s Reg.PMC_SNAP_CTL_TRIG ≠ 1) (h2 : getF s Reg.PMC_SNAP_CTL_TRIG ≠ 2) :
    exec (.snapPeriod time) s = .next s :=
  congrArg Host.Outcome.next ((if_neg (by simp [ha])).trans ((if_neg (by omega)).trans (if_neg (by omega))))

/-- A period that has passed begins a snapshot. -/
theorem period_spec (x : SnapSt) (cause : Nat) (hb : getB s Reg.PMC_SNAP_STATUS_BUSY = false) :
    let t := startSnap cause { atTime time s with snp := x }
    getB t Reg.PMC_SNAP_STATUS_BUSY = true ∧ t.snp = { x with run := some (snapTaken cause { atTime time s with snp := x }) } ∧
      keptBut [.flds, .snp, .now] s t := by
  have hbusy : getB { atTime time s with snp := x } Reg.PMC_SNAP_STATUS_BUSY = false := (getB_atTime (by decide) time s).trans hb
  dsimp only
  rw [startSnap_idle hbusy]
  exact ⟨getB_snapBegun _ _, rfl,
    (keptBut_trans (keptBut_trans (atTime_touches time s).parts (snp_kept _ x)) (snapBegun_touches cause _).parts).mono (by decide)⟩

end

/-! ### A record is written (R481, R482) -/

theorem snapBytes_length (sn : Snap) (seq : Nat) : (snapBytes sn seq).length = 32832 := by
  have hwords : ((List.range 4096).flatMap fun e => leBytes 8 ((alGet sn.values e).getD 0)).length = 32768 :=
    wordBytes_length 8 4096 fun e => (alGet sn.values e).getD 0
  simp only [snapBytes, List.length_append, leBytes_length, List.length_cons, List.length_nil, List.length_replicate, hwords]

theorem snapBytes_lt {sn : Snap} (h : sn.cause < 256) (seq : Nat) : ∀ b ∈ snapBytes sn seq, b < 256 := by
  have hfrozen : b2n sn.frozen < 256 := by cases sn.frozen <;> decide
  intro b hb
  simp only [snapBytes, List.mem_append, List.mem_cons, List.not_mem_nil, or_false, List.mem_replicate, List.mem_flatMap] at hb
  rcases hb with ((((hb | hb) | hb) | hb) | hb) | ⟨e, -, hb⟩
  · exact leBytes_lt hb
  · exact leBytes_lt hb
  · exact leBytes_lt hb
  · rcases hb with rfl | rfl
    · exact h
    · exact hfrozen
  · rw [hb.2]
    decide
  · exact leBytes_lt hb

/-- Bytes that are bytes read back. -/
theorem rdBytes_putBytes_lt (s : State) (a : Nat) {bs : List Nat} (h : ∀ b ∈ bs, b < 256) : rdBytes (putBytes s a bs) a bs.length = bs := by
  have hmid := rdBytes_putBytes_middle s a [] [] h
  simpa using hmid

def snapFlds : List Fld := [Reg.PMC_SNAP_STATUS_BUSY, Reg.PMC_SNAP_STATUS_STATUS, Reg.PMC_SNAP_STATUS_NEXT]

/-- The snapshot runs no longer. -/
def snapEnded (s : State) : State := setF { s with snp.run := none } Reg.PMC_SNAP_STATUS_BUSY 0

/-- R481: its record stands in the buffer. -/
def snapStored (sn : Snap) (s : State) : State :=
  putBytes (snapEnded s) (snapBase s + 32832 * getF s Reg.PMC_SNAP_STATUS_NEXT) (snapBytes sn (s.snp.seq + 1))

/-- R481: the status is good, and NEXT moves on. -/
def snapNoted (next seq : Nat) (s : State) : State :=
  { setF (setF s Reg.PMC_SNAP_STATUS_STATUS 0) Reg.PMC_SNAP_STATUS_NEXT next with snp.seq := seq }

def snapWritten (sn : Snap) (s : State) : State :=
  snapNoted ((getF s Reg.PMC_SNAP_STATUS_NEXT + 1) % getF s Reg.PMC_SNAP_RECORDS_RECORDS) (s.snp.seq + 1) (snapStored sn s)

section
variable {s : State} {sn : Snap}

theorem exec_snapshotDone_none (h : s.snp.run = none) : exec .snapshotDone s = .next s := by
  refine congrArg Host.Outcome.next ?_
  rw [h]

theorem exec_snapshotDone_refused (h : s.snp.run = some sn) (ho : snapOk s = false) :
    exec .snapshotDone s = .next (setF (snapEnded s) Reg.PMC_SNAP_STATUS_STATUS 0x23) := by
  refine congrArg Host.Outcome.next ?_
  rw [h]
  exact if_pos (by rw [ho]; rfl)

theorem exec_snapshotDone (h : s.snp.run = some sn) (ho : snapOk s = true) : exec .snapshotDone s = .next (snapWritten sn s) := by
  refine congrArg Host.Outcome.next ?_
  rw [h]
  exact if_neg (by rw [ho]; exact Bool.false_ne_true)

theorem snapEnded_touches (s : State) : Touches [.flds, .snp] (oneOf snapFlds) s (snapEnded s) := .setF (.keep (.refl s) (snp_kept s _))

theorem snapRefused_spec (s : State) : let t := setF (snapEnded s) Reg.PMC_SNAP_STATUS_STATUS 0x23
    getB t Reg.PMC_SNAP_STATUS_BUSY = false ∧ getF t Reg.PMC_SNAP_STATUS_STATUS = 0x23 ∧ t.snp = { s.snp with run := none } ∧
      keptBut [.flds, .snp] s t := by
  have hall : Touches [.flds, .snp] (oneOf snapFlds) s (setF (snapEnded s) Reg.PMC_SNAP_STATUS_STATUS 0x23) := .setF (snapEnded_touches s)
  have hbusy : getF (snapEnded s) Reg.PMC_SNAP_STATUS_BUSY = 0 := getF_setF_self _ _ 0
  refine ⟨?_, getF_setF_self _ _ _, rfl, hall.parts⟩
  rw [getB, getF_setF_ne (by decide), hbusy]
  rfl

theorem snapStored_touches (sn : Snap) (s : State) :
    Touches [.flds, .mem, .marks] storeKey (snapEnded s) (snapStored sn s) := .putBytes (.refl _) fun _ => id

theorem snapNoted_touches (next seq : Nat) (s : State) :
    Touches [.flds, .snp] (oneOf [Reg.PMC_SNAP_STATUS_STATUS, Reg.PMC_SNAP_STATUS_NEXT]) s (snapNoted next seq s) :=
  .keep (.setF (.setF (.refl s))) (snp_kept _ _)

theorem snapNoted_snp (next seq : Nat) (s : State) : (snapNoted next seq s).snp = { s.snp with seq := seq } := rfl

theorem snapNoted_regs {next : Nat} (h : next < 256) (seq : Nat) (s : State) : getF (snapNoted next seq s) Reg.PMC_SNAP_STATUS_STATUS = 0 ∧
    getF (snapNoted next seq s) Reg.PMC_SNAP_STATUS_NEXT = next := by
  have hnext : getF (setF (setF s Reg.PMC_SNAP_STATUS_STATUS 0) Reg.PMC_SNAP_STATUS_NEXT next) Reg.PMC_SNAP_STATUS_NEXT = next :=
    (getF_setF_self _ _ _).trans (Nat.mod_eq_of_lt h)
  have hstatus : getF (setF (setF s Reg.PMC_SNAP_STATUS_STATUS 0) Reg.PMC_SNAP_STATUS_NEXT next) Reg.PMC_SNAP_STATUS_STATUS = 0 :=
    (getF_setF_ne (by decide)).trans (getF_setF_self _ _ _)
  exact ⟨hstatus, hnext⟩

theorem snapWritten_touches (sn : Snap) (s : State) :
    Touches [.flds, .snp, .mem, .marks] (fun x => storeKey x || oneOf snapFlds x) s (snapWritten sn s) := by
  have hended : Touches [.flds, .snp, .mem, .marks] (fun x => storeKey x || oneOf snapFlds x) s (snapEnded s) :=
    (snapEnded_touches s).mono (by decide) fun _ e => (Bool.or_eq_false_iff.mp e).2
  exact (hended.step (snapStored_touches sn s) (by decide) fun _ e => (Bool.or_eq_false_iff.mp e).1).step (snapNoted_touches _ _ _) (by decide)
    fun _ e => oneOf_mono (by decide) (Bool.or_eq_false_iff.mp e).2

theorem snapWritten_mem (sn : Snap) (s : State) : (snapWritten sn s).mem = (snapStored sn s).mem :=
  (snapNoted_touches _ _ _).parts .mem (by decide)

theorem snapWritten_snp (sn : Snap) (s : State) : (snapWritten sn s).snp = { s.snp with run := none, seq := s.snp.seq + 1 } := by
  have hput : (snapStored sn s).snp = { s.snp with run := none } := (snapStored_touches sn s).parts .snp (by decide)
  rw [snapWritten, snapNoted_snp, hput]

theorem snapWritten_regs (sn : Snap) (s : State) (hn : getF s Reg.PMC_SNAP_RECORDS_RECORDS ≤ 256) (h0 : 0 < getF s Reg.PMC_SNAP_RECORDS_RECORDS) :
    getB (snapWritten sn s) Reg.PMC_SNAP_STATUS_BUSY = false ∧ getF (snapWritten sn s) Reg.PMC_SNAP_STATUS_STATUS = 0 ∧
      getF (snapWritten sn s) Reg.PMC_SNAP_STATUS_NEXT =
        (getF s Reg.PMC_SNAP_STATUS_NEXT + 1) % getF s Reg.PMC_SNAP_RECORDS_RECORDS := by
  have hfit : (getF s Reg.PMC_SNAP_STATUS_NEXT + 1) % getF s Reg.PMC_SNAP_RECORDS_RECORDS < 256 := Nat.lt_of_lt_of_le (Nat.mod_lt _ h0) hn
  have hbusy : getF (snapEnded s) Reg.PMC_SNAP_STATUS_BUSY = 0 := getF_setF_self _ _ 0
  obtain ⟨hstatus, hnext⟩ := snapNoted_regs hfit (s.snp.seq + 1) (snapStored sn s)
  refine ⟨?_, hstatus, hnext⟩
  rw [snapWritten, (snapNoted_touches _ _ _).getB (by decide), (snapStored_touches sn s).getB (by decide), getB, hbusy]
  rfl

theorem snapWritten_bytes (hc : sn.cause < 256) : let a := snapBase s + 32832 * getF s Reg.PMC_SNAP_STATUS_NEXT
    rdBytes (snapWritten sn s) a 32832 = snapBytes sn (s.snp.seq + 1) ∧ memKept (within a 32832) s (snapWritten sn s) := by
  have hlen := snapBytes_length sn (s.snp.seq + 1)
  have hread := rdBytes_putBytes_lt (snapEnded s) (snapBase s + 32832 * getF s Reg.PMC_SNAP_STATUS_NEXT) (snapBytes_lt hc (s.snp.seq + 1))
  have hkept := memKept_putBytes (snapEnded s) (snapBase s + 32832 * getF s Reg.PMC_SNAP_STATUS_NEXT) (snapBytes sn (s.snp.seq + 1))
  rw [hlen] at hread hkept
  refine ⟨(rdBytes_congr (snapWritten_mem sn s) _ _).trans hread, fun c hfree => ?_⟩
  exact (rdByte_congr (snapWritten_mem sn s) c).trans (hkept c hfree)

end

/-! ### Sampling and layer slots (R484, R487, R488) -/

section
variable {s : State} {p : Port} {v : BitVec 32}

/-- The buffer's length is set, and NEXT starts over. -/
def snapLength (v : BitVec 32) (s : State) : State := setF (setF s Reg.PMC_SNAP_RECORDS_RECORDS (bitsAt v.toNat 0 9)) Reg.PMC_SNAP_STATUS_NEXT 0

theorem exec_snapRecordsWrite_not (ha : stageAlive s = true) (h : getB s Reg.PMC_LOCK_LOCK = true ∨ 256 < bitsAt v.toNat 0 9) :
    exec (.snapRecordsWrite p v) s = .next s := congrArg Host.Outcome.next ((viaPf0_alive ha p _).trans (if_pos h))

theorem exec_snapRecordsWrite (ha : stageAlive s = true) (hl : getB s Reg.PMC_LOCK_LOCK = false) (hn : bitsAt v.toNat 0 9 ≤ 256) :
    exec (.snapRecordsWrite p v) s = .next (snapLength v s) :=
  congrArg Host.Outcome.next ((viaPf0_alive ha p _).trans (if_neg (by rw [hl]; simpa using hn)))

theorem snapLength_spec (v : BitVec 32) (s : State) : let t := snapLength v s
    getF t Reg.PMC_SNAP_RECORDS_RECORDS = bitsAt v.toNat 0 9 ∧ getF t Reg.PMC_SNAP_STATUS_NEXT = 0 ∧
      regsKept (oneOf [Reg.PMC_SNAP_RECORDS_RECORDS, Reg.PMC_SNAP_STATUS_NEXT]) s t ∧ keptBut [.flds] s t := by
  have hset : Touches [.flds] (oneOf [Reg.PMC_SNAP_RECORDS_RECORDS, Reg.PMC_SNAP_STATUS_NEXT]) s (snapLength v s) := .setF (.setF (.refl s))
  exact ⟨(getF_setF_ne (by decide)).trans ((getF_setF_self _ _ _).trans (bitsAt_mod _ _ _)), getF_setF_self _ _ _, hset.regs, hset.parts⟩

/-- R484: N and EN as they are written. -/
def samplingSet (v : BitVec 32) (s : State) : State :=
  setB (setF s Reg.PMC_SMP_CTL_N (bitsAt v.toNat 0 24)) Reg.PMC_SMP_CTL_EN (bit v.toNat 24)

/-- A core's count starts over. -/
def countRestarted (t : State) (c : Nat) : State := coreSet t c { coreGet t c with smpCount := 0 }

theorem coreGet_countRestarted (t : State) (d c : Nat) :
    coreGet (countRestarted t d) c = if c = d then { coreGet t c with smpCount := 0 } else coreGet t c := by
  split
  · next h => rw [h]; exact coreGet_coreSet_self _ _ _
  · next h => exact coreGet_coreSet_ne h

theorem coreGet_foldl_countRestarted (l : List Nat) (s : State) (c : Nat) :
    coreGet (l.foldl countRestarted s) c = if c ∈ l then { coreGet s c with smpCount := 0 } else coreGet s c := by
  induction l generalizing s with
  | nil => rfl
  | cons d l ih =>
    rw [List.foldl_cons, ih, coreGet_countRestarted]
    by_cases hd : c = d
    · simp [hd]
    · simp [hd]

theorem samplingSet_spec (v : BitVec 32) (s : State) : getF (samplingSet v s) Reg.PMC_SMP_CTL_N = bitsAt v.toNat 0 24 ∧
    getB (samplingSet v s) Reg.PMC_SMP_CTL_EN = bit v.toNat 24 ∧
    Touches [.flds] (oneOf [Reg.PMC_SMP_CTL_N, Reg.PMC_SMP_CTL_EN]) s (samplingSet v s) :=
  ⟨(getF_setF_ne (by decide)).trans ((getF_setF_self _ _ _).trans (bitsAt_mod _ _ _)), getB_setB_self _ _ _ (by decide), .setF (.setF (.refl s))⟩

theorem exec_samplingEnable_short (ha : stageAlive s = true) (h : bitsAt v.toNat 0 24 < 256) : exec (.samplingEnable p v) s = .next s :=
  congrArg Host.Outcome.next ((viaPf0_alive ha p _).trans (if_pos h))

theorem exec_samplingEnable (ha : stageAlive s = true) (h : 256 ≤ bitsAt v.toNat 0 24) : exec (.samplingEnable p v) s =
    .next (if bit v.toNat 24 && !getB s Reg.PMC_SMP_CTL_EN then (List.range 192).foldl countRestarted (samplingSet v s) else samplingSet v s) :=
  congrArg Host.Outcome.next ((viaPf0_alive ha p _).trans (if_neg (Nat.not_lt.mpr h)))

/-- R484: sampling that starts counts from zero on every core. -/
theorem exec_samplingEnable_spec (ha : stageAlive s = true) (h : 256 ≤ bitsAt v.toNat 0 24) :
    ∃ t, exec (.samplingEnable p v) s = .next t ∧ getF t Reg.PMC_SMP_CTL_N = bitsAt v.toNat 0 24 ∧ getB t Reg.PMC_SMP_CTL_EN = bit v.toNat 24 ∧
      (bit v.toNat 24 = true ∧ getB s Reg.PMC_SMP_CTL_EN = false → ∀ c, c < 192 → coreGet t c = { coreGet s c with smpCount := 0 }) ∧
      (bit v.toNat 24 = false ∨ getB s Reg.PMC_SMP_CTL_EN = true → t.cores = s.cores) ∧
      regsKept (oneOf [Reg.PMC_SMP_CTL_N, Reg.PMC_SMP_CTL_EN]) s t ∧ keptBut [.flds, .cores] s t := by
  obtain ⟨hn, hen, hset⟩ := samplingSet_spec v s
  have hwide : Touches [.flds, .cores] (oneOf [Reg.PMC_SMP_CTL_N, Reg.PMC_SMP_CTL_EN]) s (samplingSet v s) := hset.mono (by decide) fun _ => id
  by_cases hrise : bit v.toNat 24 = true ∧ getB s Reg.PMC_SMP_CTL_EN = false
  · have hfold : keptBut [.cores] (samplingSet v s) ((List.range 192).foldl countRestarted (samplingSet v s)) :=
      foldl_kept _ _ fun t c => coreSet_kept t c _
    have hflds := hfold .flds (by decide)
    refine ⟨_, (exec_samplingEnable ha h).trans (congrArg Host.Outcome.next (if_pos (by simp [hrise.1, hrise.2]))), (getF_congr hflds _).trans hn,
      (getB_congr hflds _).trans hen, fun _ c hc => ?_, fun hoff => ?_, (hwide.keep hfold).regs, (hwide.keep hfold).parts⟩
    · rw [coreGet_foldl_countRestarted, if_pos (List.mem_range.mpr hc), coreGet_congr (hset.parts .cores (by decide))]
    · rcases hoff with hoff | hoff
      · rw [hrise.1] at hoff; cases hoff
      · rw [hrise.2] at hoff; cases hoff
  · refine ⟨_, (exec_samplingEnable ha h).trans (congrArg Host.Outcome.next (if_neg (by simpa using hrise))), hn, hen,
      fun hr => absurd hr hrise, fun _ => hset.parts .cores (by decide), hwide.regs, hwide.parts⟩

def layerSlotSet (slot : Fin 16) (v : BitVec 32) (s : State) : State :=
  setB (setF s (Reg.PMC_LAYER_LAYER slot) (bitsAt v.toNat 0 16)) (Reg.PMC_LAYER_EN slot) (bit v.toNat 16)

theorem exec_pmcLayerWrite (ha : stageAlive s = true) (slot : Fin 16) : exec (.pmcLayerWrite p slot v) s = .next (layerSlotSet slot v s) :=
  congrArg Host.Outcome.next (viaPf0_alive ha p _)

theorem layerSlotSet_spec (slot : Fin 16) (v : BitVec 32) (s : State) : let t := layerSlotSet slot v s
    getF t (Reg.PMC_LAYER_LAYER slot) = bitsAt v.toNat 0 16 ∧ getB t (Reg.PMC_LAYER_EN slot) = bit v.toNat 16 ∧
      regsKept (oneOf [Reg.PMC_LAYER_LAYER slot, Reg.PMC_LAYER_EN slot]) s t ∧ keptBut [.flds] s t := by
  have hne : fldKey (Reg.PMC_LAYER_LAYER slot) .a ≠ fldKey (Reg.PMC_LAYER_EN slot) .a := by
    simp [fldKey, Reg.PMC_LAYER_LAYER, Reg.PMC_LAYER_EN]
  have hset : Touches [.flds] (oneOf [Reg.PMC_LAYER_LAYER slot, Reg.PMC_LAYER_EN slot]) s (layerSlotSet slot v s) :=
    (Touches.setOne (.refl s) (by simp)).setOne (by simp)
  exact ⟨(getF_setF_ne hne).trans ((getF_setF_self _ _ _).trans (bitsAt_mod _ _ _)), getB_setB_self _ _ _ Nat.one_pos, hset.regs, hset.parts⟩

end

/-! ### A counter that wraps (R478, R479) -/

section
variable {s : State} {e : Fin 4095} {past : Nat}

/-- The events that bring a counter to its wrap, and `past` more. -/
def wrapEvents (e : Nat) (past : Nat) (s : State) : Nat := 2 ^ 48 - getF s (Reg.PMC_COUNTER e) + past

theorem exec_counterWrap_not (h : clocked s = false ∨ eventAssigned e = false ∨ counterStopped s e = true ∨ getB s Reg.PMC_CTL_FROZEN = true ∨
    0 < e.val ∧ chainBit s (e.val - 1) = true) : exec (.counterWrap e past) s = .next s := by
  refine congrArg Host.Outcome.next ?_
  rcases h with h | h | h | h | h
  · exact if_neg (by simp [h])
  · exact if_neg (by simp [h])
  · exact if_neg (by simp [h])
  · exact (ite_congr rfl (fun _ => show countEv _ _ s = s from if_pos (.inr (.inl h))) fun _ => rfl).trans (ite_self s)
  · exact (ite_congr rfl (fun _ => show countEv _ _ s = s from if_pos (.inr (.inr h))) fun _ => rfl).trans (ite_self s)

theorem exec_counterWrap (hc : clocked s = true) (he : eventAssigned e = true) (hstop : counterStopped s e = false)
    (hf : getB s Reg.PMC_CTL_FROZEN = false) (hlow : e.val = 0 ∨ chainBit s (e.val - 1) = false) (hfit : getF s (Reg.PMC_COUNTER e) < 2 ^ 48) :
    exec (.counterWrap e past) s = .next (pmcAdd (4096 - e) e (wrapEvents e past s) s) := by
  refine congrArg Host.Outcome.next ((if_pos (by simp [hc, he, hstop])).trans (if_neg ?_))
  simp only [hf, Bool.false_eq_true, false_or, not_or, not_and]
  refine ⟨by omega, fun hpos => ?_⟩
  rcases hlow with h | h
  · omega
  · rw [h]; exact Bool.false_ne_true

/-- The counter itself after its wrap. -/
def wrapped (e past : Nat) (s : State) : State := setF s (Reg.PMC_COUNTER e) (past % 2 ^ 48)

theorem counter_keys {d e : Nat} (h : d ≠ e) : fldKey (Reg.PMC_COUNTER d) .a ≠ fldKey (Reg.PMC_COUNTER e) .a := by
  simp [fldKey, Reg.PMC_COUNTER]
  omega

theorem counter_ovf_keys (e : Nat) {k : Nat} (h : k < 128) : fldKey (Reg.PMC_COUNTER e) .a ≠ fldKey (Reg.PMC_OVF k) .a := by
  simp [fldKey, Reg.PMC_COUNTER, Reg.PMC_OVF]
  omega

theorem pmcAdd_wrap (fuel : Nat) (hfit : getF s (Reg.PMC_COUNTER e) < 2 ^ 48) : pmcAdd (fuel + 1) e (wrapEvents e past s) s =
    if chainBit s e then pmcAdd fuel (e + 1) (1 + past / 2 ^ 48) (wrapped e past s)
    else setBit (wrapped e past s) (Reg.PMC_OVF (e / 32)) (e % 32) true := by
  have hsum : getF s (Reg.PMC_COUNTER e) + wrapEvents e past s = past + 2 ^ 48 := by
    rw [wrapEvents]
    omega
  have hdiv : (past + 2 ^ 48) / 2 ^ 48 = 1 + past / 2 ^ 48 := by omega
  have hne : 1 + past / 2 ^ 48 ≠ 0 := by omega
  rw [pmcAdd]
  simp only [hsum, Nat.add_mod_right, hdiv, if_neg hne]
  rfl

theorem getF_wrapped (e past : Nat) (s : State) : getF (wrapped e past s) (Reg.PMC_COUNTER e) = past % 2 ^ 48 :=
  (getF_setF_self _ _ _).trans (Nat.mod_eq_of_lt ((Nat.mod_lt _ (by decide)).trans (show 2 ^ 48 < 2 ^ 64 by decide)))

/-- R478: with no chain the wrap sets the counter's OVF bit. -/
theorem wrap_overflows_spec (e : Fin 4095) (past : Nat) (s : State) : let t := setBit (wrapped e past s) (Reg.PMC_OVF (e / 32)) (e % 32) true
    getF t (Reg.PMC_COUNTER e) = past % 2 ^ 48 ∧ getBit t (Reg.PMC_OVF (e.val / 32)) (e.val % 32) = true ∧
      regsKept (oneOf [Reg.PMC_COUNTER e, Reg.PMC_OVF (e.val / 32)]) s t ∧ keptBut [.flds] s t := by
  have hset : Touches [.flds] (oneOf [Reg.PMC_COUNTER e, Reg.PMC_OVF (e.val / 32)]) s (setBit (wrapped e past s) (Reg.PMC_OVF (e / 32)) (e % 32) true) :=
    (Touches.setOne (.refl s) (by simp)).setOne (by simp)
  exact ⟨(getF_setF_ne (counter_ovf_keys e (by omega))).trans (getF_wrapped e past s),
    getBit_setBit_self _ (Nat.mod_lt e.val (show 0 < 32 by decide)) true, hset.regs, hset.parts⟩

/-- R479: a chained counter carries into the next one. -/
theorem wrap_carries_spec (hp : past < 2 ^ 48) (hnext : getF s (Reg.PMC_COUNTER (e.val + 1)) + 1 < 2 ^ 48) (fuel : Nat) :
    let t := pmcAdd (fuel + 1) (e + 1) (1 + past / 2 ^ 48) (wrapped e past s)
    getF t (Reg.PMC_COUNTER e) = past ∧ getF t (Reg.PMC_COUNTER (e.val + 1)) = getF s (Reg.PMC_COUNTER (e.val + 1)) + 1 ∧
      regsKept (oneOf [Reg.PMC_COUNTER e, Reg.PMC_COUNTER (e.val + 1)]) s t ∧ keptBut [.flds] s t := by
  have hone : 1 + past / 2 ^ 48 = 1 := by rw [Nat.div_eq_of_lt hp]
  have hread : getF (wrapped e past s) (Reg.PMC_COUNTER (e.val + 1)) = getF s (Reg.PMC_COUNTER (e.val + 1)) :=
    getF_setF_ne (counter_keys (Nat.succ_ne_self e.val))
  have hadd : pmcAdd (fuel + 1) (e + 1) (1 + past / 2 ^ 48) (wrapped e past s) =
      setF (wrapped e past s) (Reg.PMC_COUNTER (e.val + 1)) (getF s (Reg.PMC_COUNTER (e.val + 1)) + 1) := by
    rw [pmcAdd, hone, hread, Nat.mod_eq_of_lt hnext, if_pos (Nat.div_eq_of_lt hnext)]
  have hset : Touches [.flds] (oneOf [Reg.PMC_COUNTER e, Reg.PMC_COUNTER (e.val + 1)]) s
      (setF (wrapped e past s) (Reg.PMC_COUNTER (e.val + 1)) (getF s (Reg.PMC_COUNTER (e.val + 1)) + 1)) :=
    (Touches.setOne (.refl s) (by simp)).setOne (by simp)
  rw [hadd]
  refine ⟨(getF_setF_ne (counter_keys (Nat.succ_ne_self e.val).symm)).trans ((getF_wrapped e past s).trans (Nat.mod_eq_of_lt hp)), ?_,
    hset.regs, hset.parts⟩
  exact (getF_setF_self _ _ _).trans (Nat.mod_eq_of_lt (hnext.trans (show 2 ^ 48 < 2 ^ 64 by decide)))

end

/-! ### The ledger's periodic records (R472) -/

/-- R471, R472: a region that is not nearly full takes the record and folds nothing. -/
theorem ledgerAdd_short {s : State} (h : s.ledger.length < 235929) (type : Nat) (body : List (Nat × Nat)) :
    ledgerAdd type body s = ledgerPush type body s :=
  if_pos (show s.ledger.length + 1 < 235930 by omega)

section
variable {s : State} {time : Nat}

theorem ledger_atTime (time : Nat) (s : State) : (atTime time s).ledger = s.ledger ∧ (atTime time s).ledgerSeq = s.ledgerSeq :=
  ⟨(atTime_touches time s).parts .ledger (by decide), (atTime_touches time s).parts .ledgerSeq (by decide)⟩

/-- The hour's means start over. -/
def powerLogged (e : Nat) (s : State) : State := { s with pwr.capSum := (0, 0), pwr.inletSum := (0, 0), pwr.energyLogged := e }

def powerBody (s : State) : List (Nat × Nat) :=
  [(64, getF s Reg.PWR_ENERGY - s.pwr.energyLogged), (16, meanOf s.pwr.capSum), (16, meanOf s.pwr.inletSum)]

theorem recordsKept (h : stageAlive s = true ∨ s.boot.stage = .safe) : (stageAlive s || s.boot.stage == .safe) = true := by
  rcases h with h | h <;> simp [h]

theorem exec_ledgerPowerRecord (h : stageAlive s = true ∨ s.boot.stage = .safe) : exec (.ledgerPowerRecord time) s =
    .next (powerLogged (getF (atTime time s) Reg.PWR_ENERGY) (ledgerAdd 0x01 (powerBody (atTime time s)) (atTime time s))) :=
  congrArg Host.Outcome.next (if_pos (recordsKept h))

theorem exec_ledgerIntegrityRecord (h : stageAlive s = true ∨ s.boot.stage = .safe) : exec (.ledgerIntegrityRecord time) s =
    .next (integrityRecord (atTime time s)) := congrArg Host.Outcome.next (if_pos (recordsKept h))

theorem exec_records_off (ha : stageAlive s = false) (hs : s.boot.stage ≠ .safe) :
    exec (.ledgerPowerRecord time) s = .next s ∧ exec (.ledgerIntegrityRecord time) s = .next s :=
  ⟨congrArg Host.Outcome.next (if_neg (by simp [ha, hs])), congrArg Host.Outcome.next (if_neg (by simp [ha, hs]))⟩

theorem ledgerPush_spec (type : Nat) (body : List (Nat × Nat)) (s : State) :
    (ledgerPush type body s).ledger = ⟨s.ledgerSeq, type, s.now / 1000000000, body⟩ :: s.ledger ∧
      (ledgerPush type body s).ledgerSeq = s.ledgerSeq + 1 := ⟨rfl, rfl⟩

theorem integrityTotals_atTime (time : Nat) (s : State) : integrityTotals (atTime time s) = integrityTotals s := by
  have hfree : ∀ f ∈ [Reg.MEM_DRAM_DETECT, Reg.MEM_SRAM_DETECT, Reg.MEM_REPLAY, Reg.MEM_UNRECOVERED, Reg.MEM_SCRUB_DETECT,
      Reg.ENG_MX_RESIDUE_MISMATCH, Reg.ENG_MX_RESIDUE_POISON, Reg.NOC_LINK_FAIL], pmcKey (fldKey f .a) = false := by decide
  exact List.map_congr_left fun f hf => getF_atTime (hfree f hf) time s

theorem exec_ledgerPowerRecord_spec (h : stageAlive s = true ∨ s.boot.stage = .safe) (hlen : s.ledger.length < 235929) :
    ∃ t x, exec (.ledgerPowerRecord time) s = .next t ∧ t.ledger = x :: s.ledger ∧ x.type = 1 ∧ x.seq = s.ledgerSeq ∧ t.ledgerSeq = s.ledgerSeq + 1 ∧
      x.body.head? = some (64, getF s Reg.PWR_ENERGY - s.pwr.energyLogged) ∧ t.pwr.energyLogged = getF s Reg.PWR_ENERGY ∧
      t.pwr.capSum = (0, 0) ∧ t.pwr.inletSum = (0, 0) ∧ regsKept pmcKey s t ∧ keptBut [.flds, .pwr, .now, .ledger, .ledgerSeq] s t := by
  obtain ⟨hledger, hseq⟩ := ledger_atTime time s
  have henergy : getF (atTime time s) Reg.PWR_ENERGY = getF s Reg.PWR_ENERGY := getF_atTime (by decide) time s
  have hadd := ledgerAdd_short (s := atTime time s) (by rw [hledger]; exact hlen) 0x01 (powerBody (atTime time s))
  have hall : Touches [.flds, .pwr, .now, .ledger, .ledgerSeq] pmcKey s
      (powerLogged (getF (atTime time s) Reg.PWR_ENERGY) (ledgerAdd 0x01 (powerBody (atTime time s)) (atTime time s))) :=
    .keep (.keep ((atTime_touches time s).mono (by decide) fun _ => id) (ledgerAdd_kept _ _ _)) (pwr_kept _ _)
  refine ⟨_, ⟨s.ledgerSeq, 1, (atTime time s).now / 1000000000, powerBody (atTime time s)⟩, exec_ledgerPowerRecord h, ?_, rfl, rfl, ?_, ?_, ?_, rfl, rfl,
    hall.regs, hall.parts⟩
  · rw [hadd]
    exact (ledgerPush_spec 1 (powerBody (atTime time s)) (atTime time s)).1.trans (by rw [hledger, hseq])
  · rw [hadd]
    exact (ledgerPush_spec 1 (powerBody (atTime time s)) (atTime time s)).2.trans (by rw [hseq])
  · rw [powerBody, henergy, pwr_atTime]
    rfl
  · exact henergy

theorem sec_integrityRecord (s : State) : (integrityRecord s).sec = { s.sec with integrity := integrityTotals s } :=
  congrArg (fun x : SecSt => { x with integrity := integrityTotals s }) (ledgerAdd_kept _ _ s .sec (by decide))

theorem exec_ledgerIntegrityRecord_spec (h : stageAlive s = true ∨ s.boot.stage = .safe) (hlen : s.ledger.length < 235929) :
    ∃ t x, exec (.ledgerIntegrityRecord time) s = .next t ∧ t.ledger = x :: s.ledger ∧ x.type = 3 ∧ x.seq = s.ledgerSeq ∧ t.ledgerSeq = s.ledgerSeq + 1 ∧
      t.sec.integrity = integrityTotals s ∧ x.body = (List.zipWith (fun a b => (64, a - b)) (integrityTotals s) s.sec.integrity) ∧
      regsKept pmcKey s t ∧ keptBut [.flds, .sec, .now, .ledger, .ledgerSeq] s t := by
  obtain ⟨hledger, hseq⟩ := ledger_atTime time s
  have htotals := integrityTotals_atTime time s
  have hsec : (atTime time s).sec = s.sec := (atTime_touches time s).parts .sec (by decide)
  have hbody : List.zipWith (fun a b => (64, a - b)) (integrityTotals (atTime time s)) (atTime time s).sec.integrity =
      List.zipWith (fun a b => (64, a - b)) (integrityTotals s) s.sec.integrity := by rw [htotals, hsec]
  have hadd := ledgerAdd_short (s := atTime time s) (by rw [hledger]; exact hlen) 0x03
    (List.zipWith (fun a b => (64, a - b)) (integrityTotals (atTime time s)) (atTime time s).sec.integrity)
  have hall : Touches [.flds, .sec, .now, .ledger, .ledgerSeq] pmcKey s (integrityRecord (atTime time s)) :=
    .keep (.keep ((atTime_touches time s).mono (by decide) fun _ => id) (ledgerAdd_kept _ _ _)) (sec_kept _ _)
  refine ⟨_, ⟨s.ledgerSeq, 3, (atTime time s).now / 1000000000, _⟩, exec_ledgerIntegrityRecord h, ?_, rfl, rfl, ?_, ?_, hbody, hall.regs, hall.parts⟩
  · exact (congrArg State.ledger hadd).trans ((ledgerPush_spec 3 _ _).1.trans (by rw [hledger, hseq]))
  · exact (congrArg State.ledgerSeq hadd).trans ((ledgerPush_spec 3 _ (atTime time s)).2.trans (by rw [hseq]))
  · rw [sec_integrityRecord, htotals]

end

/-! ### The statement -/

/-- Settles O59: a freeze's end counts what it held back, a snapshot's list of nonzero values tells every value, and a wrap is one carry. -/
theorem countersAndLedgerRecords : Obligations.CountersAndLedgerRecords := by
  unfold Obligations.CountersAndLedgerRecords
  refine ⟨fun s p on ha => ?_, fun s p time ha => ⟨fun hb => ?_, fun hb => ?_, fun ht hdue hb => ?_, fun ht hdue hb => ?_, exec_snapPeriod_off ha⟩,
    fun s => ⟨exec_snapshotDone_none, fun sn h ho => ?_, fun sn h ho hc hn => ?_⟩,
    fun s p v slot ha => ⟨exec_snapRecordsWrite_not ha, fun hl hn => ⟨_, exec_snapRecordsWrite ha hl hn, snapLength_spec v s⟩,
      exec_samplingEnable_short ha, exec_samplingEnable_spec ha, ⟨_, exec_pmcLayerWrite ha slot, layerSlotSet_spec slot v s⟩⟩,
    fun s e past hfit => ⟨exec_counterWrap_not, fun hc he hstop hf hlow => ⟨fun hch => ?_, fun hch hp hnext => ?_⟩⟩,
    fun s time => ⟨exec_records_off, fun h hlen => ⟨exec_ledgerPowerRecord_spec h hlen, exec_ledgerIntegrityRecord_spec h hlen⟩⟩⟩
  · have hset := freezeSet_touches on s
    obtain ⟨hfreeze, hfrozen⟩ := getB_freezeSet on s
    by_cases hplain : on = true ∨ getB s Reg.PMC_CTL_FROZEN = false
    · refine ⟨_, exec_freeze_plain on ha p hplain, hfreeze, hfrozen, fun _ => ⟨hset.regs, hset.parts⟩, fun hoff hwas => ?_⟩
      rcases hplain with h | h
      · rw [hoff] at h; cases h
      · rw [hwas] at h; cases h
    · simp only [not_or, Bool.not_eq_true, Bool.not_eq_false] at hplain
      obtain ⟨rfl, hwas⟩ := hplain
      obtain ⟨hmoves, hnone⟩ := applyMoves_spec hfrozen
      have hall : Touches [.flds, .movesHeld] (fun k => pmcKey k || oneOf freezeFlds k) s (applyMoves (freezeSet false s)) :=
        (hset.mono (by decide) fun _ e => (Bool.or_eq_false_iff.mp e).2).step hmoves (by decide) fun _ e => (Bool.or_eq_false_iff.mp e).1
      refine ⟨_, exec_freeze_ends ha p hwas, (hmoves.getB (by decide)).trans hfreeze, (hmoves.getB (by decide)).trans hfrozen, fun h => ?_,
        fun _ _ => ⟨hnone, hall.regs, hall.parts⟩⟩
      rcases h with h | h
      · cases h
      · rw [hwas] at h; cases h
  · rw [exec_snap ha, startSnap_busy hb]
  · have hset := snapBegun_touches 0 s
    refine ⟨_, snapTaken 0 s, (exec_snap ha).trans (congrArg Host.Outcome.next (startSnap_idle hb 0)), getB_snapBegun 0 s, rfl, rfl, rfl,
      fun e he => ?_, hset.regs, hset.parts⟩
    rw [alGet_snapTaken 0 s he]
    rfl
  · obtain ⟨hbusy, hsnp, hkept⟩ := period_spec (time := time) { (atTime time s).snp with at0 := time / 1000 } 1 hb
    exact ⟨_, _, exec_snapPeriod_time ha ht hdue, hbusy, hsnp.trans (by rw [snp_atTime]), rfl, hkept⟩
  · obtain ⟨hbusy, hsnp, hkept⟩ := period_spec (time := time) { (atTime time s).snp with steps := 0 } 2 hb
    exact ⟨_, _, exec_snapPeriod_steps ha ht hdue, hbusy, hsnp.trans (by rw [snp_atTime]), rfl, hkept⟩
  · exact ⟨_, exec_snapshotDone_refused h ho, snapRefused_spec s⟩
  · have h0 : 0 < getF s Reg.PMC_SNAP_RECORDS_RECORDS := by
      by_contra hz
      have hzero : getF s Reg.PMC_SNAP_RECORDS_RECORDS = 0 := by omega
      simp only [snapOk, hzero, Nat.zero_mul, Nat.lt_irrefl, decide_false, Bool.false_and, Bool.false_eq_true] at ho
    obtain ⟨hbusy, hstatus, hnext⟩ := snapWritten_regs sn s hn h0
    obtain ⟨hbytes, hmem⟩ := snapWritten_bytes (s := s) hc
    have hall := snapWritten_touches sn s
    exact ⟨_, exec_snapshotDone h ho, hbusy, hstatus, hnext, snapWritten_snp sn s, hbytes, hmem, hall.regs, hall.parts⟩
  · refine ⟨_, (exec_counterWrap hc he hstop hf hlow hfit).trans (congrArg Host.Outcome.next ?_), wrap_overflows_spec e past s⟩
    obtain ⟨n, hn⟩ : ∃ n, 4096 - e.val = n + 1 := ⟨4095 - e.val, by omega⟩
    rw [hn, pmcAdd_wrap n hfit, if_neg (by rw [hch]; exact Bool.false_ne_true)]
  · obtain ⟨n, hn⟩ : ∃ n, 4096 - e.val = n + 1 + 1 := ⟨4094 - e.val, by omega⟩
    refine ⟨_, (exec_counterWrap hc he hstop hf hlow hfit).trans (congrArg Host.Outcome.next ?_), wrap_carries_spec (s := s) (e := e) hp hnext n⟩
    rw [hn, pmcAdd_wrap (n + 1) hfit, if_pos hch]

end Sys2Proof.Machine
end

