-- ==== Sys2Proof/Proofs/Management.lean ====
section
/-!
SUPPORT. Proofs/Management.lean: management transactions, authority commands and their refusal, attestation, sessions, firmware packages
and their activation, and O56 (R431, R432, R437, R442, R444, R458, R466, R467).
-/
namespace Sys2Proof.Machine

set_option Elab.async false

/-! ### Floors (R444) -/

/-- Nothing of the security block is different but floors and what waits to raise them; the key store's registers may be shown anew. -/
structure FloorsRaised (s t : State) : Prop where
  touches : Touches [.flds, .sec] secViewKey s t
  sec : ∃ x r f, t.sec = { s.sec with fwRaise := x, ks := { s.sec.ks with rollback := r, secFloor := f } }

namespace FloorsRaised
variable {s t u : State}

protected theorem refl (s : State) : FloorsRaised s s := ⟨.refl s, _, _, _, rfl⟩

protected theorem trans (h : FloorsRaised s t) (g : FloorsRaised t u) : FloorsRaised s u := by
  obtain ⟨hst, _, _, _, hsec⟩ := h
  obtain ⟨htu, x, r, f, gsec⟩ := g
  refine ⟨hst.trans htu, x, r, f, ?_⟩
  rw [gsec, hsec]

theorem raiseFloor (x : FwComp × Nat) (s : State) : FloorsRaised s (raiseFloor x s) := by
  have hput (r : List Nat) (f : Nat) : FloorsRaised s (putKs s { s.sec.ks with rollback := r, secFloor := f }) :=
    ⟨putKs_touches _ _, _, r, f, sec_putKs _ _⟩
  unfold Machine.raiseFloor
  dsimp only
  split
  · exact hput s.sec.ks.rollback _
  · exact hput _ s.sec.ks.secFloor

theorem foldl_raiseFloor (l : List (FwComp × Nat)) (s : State) :
    FloorsRaised s (l.foldl (fun t x => Machine.raiseFloor x t) s) := by
  induction l generalizing s with
  | nil => exact .refl s
  | cons x l ih => exact (raiseFloor x s).trans (ih _)

theorem noted (x : List (FwComp × Nat)) (s : State) : FloorsRaised s { s with sec.fwRaise := x } :=
  ⟨.keep (.refl s) (sec_kept s _), x, _, _, rfl⟩

end FloorsRaised

theorem transactionRun_raises (s : State) : FloorsRaised s (transactionRun s) := (FloorsRaised.noted _ s).trans (.foldl_raiseFloor _ _)

/-- With no floor waiting a transaction changes nothing. -/
theorem transactionRun_idle {s : State} (h : s.sec.fwRaise = []) : transactionRun s = s := by
  have hsec : { s.sec with fwRaise := [] } = s.sec := by rw [← h]
  have hset : { s with sec := { s.sec with fwRaise := [] } } = s := by rw [hsec]
  unfold transactionRun
  rw [h]
  exact hset

section
variable (s : State)

theorem sec_transactionRun : ∃ x r f, (transactionRun s).sec = { s.sec with fwRaise := x, ks := { s.sec.ks with rollback := r, secFloor := f } } :=
  (transactionRun_raises s).sec

theorem out_transactionRun : (transactionRun s).out = s.out := (transactionRun_raises s).touches.parts .out (by decide)

end

/-! ### Transactions that only answer (R432, R437) -/

theorem viaMgmt_off {s : State} (h : mgmtAlive s = false) (f : State → State) : viaMgmt s f = s := if_neg (by rw [h]; exact Bool.false_ne_true)

theorem viaMgmt_on {s : State} (h : mgmtAlive s = true) (f : State → State) : viaMgmt s f = f s := if_pos h

/-- What an answer leaves: floors may have been raised, and the answer has left. -/
def Said (rule : Nat) (data : List Nat) (s t : State) : Prop :=
  t.out = .mgmt rule data :: s.out ∧ keptBut [.flds, .sec, .out] s t ∧
    t.sec.sessions = s.sec.sessions ∧ t.sec.packages = s.sec.packages ∧ t.sec.ks.owner = s.sec.ks.owner ∧ t.sec.ks.leases = s.sec.ks.leases ∧
    (s.sec.fwRaise = [] → keptBut [.out] s t)

theorem sec_answer (rule : Nat) (data : List Nat) (s : State) : (answer rule data s).sec = s.sec := rfl

theorem answer_said (rule : Nat) (data : List Nat) (s : State) : Said rule data s (answer rule data (transactionRun s)) := by
  obtain ⟨htouches, x, r, f, hsec⟩ := transactionRun_raises s
  have hemit := emit_kept (transactionRun s) (.mgmt rule data)
  refine ⟨?_, (keptBut_trans htouches.parts hemit).mono (by decide), ?_, ?_, ?_, ?_, fun h => ?_⟩
  · rw [← out_transactionRun s]
    rfl
  · rw [sec_answer, hsec]
  · rw [sec_answer, hsec]
  · rw [sec_answer, hsec]
  · rw [sec_answer, hsec]
  · rw [transactionRun_idle h]
    exact emit_kept s _

section
variable {s : State} (hm : mgmtAlive s = true)
include hm

theorem exec_pldmSensorRead (sensor : Fin 10) :
    exec (.pldmSensorRead sensor) s = .next (answer 432 [sensor, getF s (sensorFld sensor)] (transactionRun s)) :=
  congrArg Host.Outcome.next (viaMgmt_on hm _)

theorem exec_getCertificate (slot : Fin 8) :
    exec (.getCertificate slot) s = .next (answer 442 [slot, b2n (slotFilled s slot)] (transactionRun s)) :=
  congrArg Host.Outcome.next (viaMgmt_on hm _)

theorem exec_challenge (slot : Fin 8) (nonce : List Nat) : exec (.challenge slot nonce) s =
    .next (if slotFilled s slot then answer 442 (slot.val :: nonce ++ (measurements s).flatten) (transactionRun s) else refuse 0x23 0 s) :=
  congrArg Host.Outcome.next (viaMgmt_on hm _)

theorem exec_getMeasurements (index : Fin 11) (nonce : List Nat) : exec (.getMeasurements index nonce) s =
    .next (answer 442 (index.val :: nonce ++ (if index = 0 then (measurements s).flatten else (measurements s).getD (index.val - 1) []))
      (transactionRun s)) := congrArg Host.Outcome.next (viaMgmt_on hm _)

theorem exec_pldmFirmwareUpdate (c : FwComp) (version : Nat) (floor mio own : Bool) (measure : List Nat) :
    exec (.pldmFirmwareUpdate c version floor mio own measure) s = .next (if packageOk s c version mio own then
      answer 444 [0] (transactionRun { s with sec.packages := s.sec.packages ++ [⟨c, version, floor, measure⟩] })
    else answer 444 [0x23] (transactionRun s)) := congrArg Host.Outcome.next (viaMgmt_on hm _)

/-! ### The endpoint (R431) -/

theorem exec_setEndpointId (eid : BitVec 8) : exec (.setEndpointId eid) s = .next (transactionRun (setF s Reg.MGT_STATUS_EID eid.toNat)) :=
  congrArg Host.Outcome.next (viaMgmt_on hm _)

theorem exec_entdaa (addr : BitVec 7) : exec (.entdaa addr) s =
    .next (setF (setF s Reg.MGT_STATUS_I3C_ADDR addr.toNat) Reg.MGT_STATUS_I3C_ADDR_VALID 1) := congrArg Host.Outcome.next (viaMgmt_on hm _)

theorem exec_setEndpointId_spec (eid : BitVec 8) : ∃ t, exec (.setEndpointId eid) s = .next t ∧ getF t Reg.MGT_STATUS_EID = eid.toNat ∧
    keptBut [.flds, .sec] s t ∧ (s.sec.fwRaise = [] → regsKept (oneOf [Reg.MGT_STATUS_EID]) s t ∧ t.sec = s.sec) ∧
    (∀ v, s.sec.fwRaise = [(.mgmt, v)] → t.sec.ks.rollback = s.sec.ks.rollback.set 2 (max (s.sec.ks.rollback.getD 2 0) v) ∧ t.sec.fwRaise = []) := by
  have hraised := (transactionRun_raises (setF s Reg.MGT_STATUS_EID eid.toNat)).touches
  have hset : Touches [.flds] (oneOf [Reg.MGT_STATUS_EID]) s (setF s Reg.MGT_STATUS_EID eid.toNat) := .setF (.refl s)
  refine ⟨_, exec_setEndpointId hm eid, (hraised.getF (by decide)).trans ((getF_setF_self _ _ _).trans (Nat.mod_eq_of_lt eid.isLt)),
    (keptBut_trans hset.parts hraised.parts).mono (by decide), fun h => ?_, fun v h => ?_⟩
  · rw [transactionRun_idle (s := setF s Reg.MGT_STATUS_EID eid.toNat) h]
    exact ⟨hset.regs, rfl⟩
  · have hrun : transactionRun (setF s Reg.MGT_STATUS_EID eid.toNat) =
        raiseFloor (.mgmt, v) { setF s Reg.MGT_STATUS_EID eid.toNat with sec.fwRaise := [] } := by
      rw [transactionRun, show (setF s Reg.MGT_STATUS_EID eid.toNat).sec.fwRaise = [(.mgmt, v)] from h]
      rfl
    rw [hrun, show raiseFloor (.mgmt, v) { setF s Reg.MGT_STATUS_EID eid.toNat with sec.fwRaise := [] } = putKs _ _ from rfl, sec_putKs]
    exact ⟨rfl, rfl⟩

theorem exec_entdaa_spec (addr : BitVec 7) : ∃ t, exec (.entdaa addr) s = .next t ∧ getF t Reg.MGT_STATUS_I3C_ADDR = addr.toNat ∧
    getB t Reg.MGT_STATUS_I3C_ADDR_VALID = true ∧
    regsKept (oneOf [Reg.MGT_STATUS_I3C_ADDR, Reg.MGT_STATUS_I3C_ADDR_VALID]) s t ∧ keptBut [.flds] s t := by
  have hset : Touches [.flds] (oneOf [Reg.MGT_STATUS_I3C_ADDR, Reg.MGT_STATUS_I3C_ADDR_VALID]) s
      (setF (setF s Reg.MGT_STATUS_I3C_ADDR addr.toNat) Reg.MGT_STATUS_I3C_ADDR_VALID 1) := .setF (.setF (.refl s))
  exact ⟨_, exec_entdaa hm addr, (getF_setF_ne (by decide)).trans ((getF_setF_self _ _ _).trans (Nat.mod_eq_of_lt addr.isLt)),
    getB_setF_one _ (by decide), hset.regs, hset.parts⟩

end

/-! ### Sessions (R442) -/

/-- R442: the conditions of a key exchange. -/
def MaySession (s : State) (party : Party) (key : List Nat) (ok : Bool) : Prop :=
  ok = true ∧ partyOk s party key = true ∧ s.sec.sessions.length < 4 ∧ (∀ n, party = .tenant n → ∀ x ∈ s.sec.sessions, x.key ≠ key)

/-- R442: a tenant's key that is in a session already. -/
def keyTaken (s : State) (party : Party) (key : List Nat) : Bool :=
  match party with
  | .tenant _ => s.sec.sessions.any fun x => x.key == key
  | _ => false

section
variable {s : State} {party : Party} {key : List Nat} {ok : Bool}

theorem keyTaken_iff : keyTaken s party key = false ↔ ∀ n, party = .tenant n → ∀ x ∈ s.sec.sessions, x.key ≠ key := by
  cases party with
  | tenant n => simp [keyTaken]
  | owner => simp [keyTaken]
  | service => simp [keyTaken]
  | anyKey => simp [keyTaken]

theorem maySession_iff : MaySession s party key ok ↔
    (ok && partyOk s party key && !keyTaken s party key && decide (s.sec.sessions.length < 4)) = true := by
  simp only [MaySession, Bool.and_eq_true, Bool.not_eq_true', decide_eq_true_eq, ← keyTaken_iff]
  tauto

theorem exec_keyExchange (hm : mgmtAlive s = true) : exec (.keyExchange party key ok) s =
    .next (if ok && partyOk s party key && !keyTaken s party key && decide (s.sec.sessions.length < 4) then
      answer 442 [s.sec.sessions.length] (transactionRun (setSessions (s.sec.sessions ++ [⟨party, key⟩]) s))
    else refuse 0x23 0 s) := by
  refine congrArg Host.Outcome.next ((viaMgmt_on hm _).trans ?_)
  cases party <;> rfl

theorem setSessions_touches (l : List Spdm) (s : State) : Touches [.flds, .sec] (oneOf [Reg.MGT_STATUS_SESSIONS]) s (setSessions l s) :=
  .setF (.keep (.refl s) (sec_kept s _))

theorem sec_setSessions (l : List Spdm) (s : State) : (setSessions l s).sec = { s.sec with sessions := l } := rfl

theorem getF_setSessions {l : List Spdm} (h : l.length < 8) (s : State) : getF (setSessions l s) Reg.MGT_STATUS_SESSIONS = l.length :=
  (getF_setF_self _ _ _).trans (Nat.mod_eq_of_lt h)

/-- R442: a session is opened in the next free place. -/
theorem exec_keyExchange_opens (hm : mgmtAlive s = true) (h : MaySession s party key ok) : ∃ t, exec (.keyExchange party key ok) s = .next t ∧
    t.sec.sessions = s.sec.sessions ++ [⟨party, key⟩] ∧ getF t Reg.MGT_STATUS_SESSIONS = s.sec.sessions.length + 1 ∧
    t.out = .mgmt 442 [s.sec.sessions.length] :: s.out ∧
    t.sec.ks.owner = s.sec.ks.owner ∧ t.sec.ks.leases = s.sec.ks.leases ∧ keptBut [.flds, .sec, .out] s t := by
  have hlen : (s.sec.sessions ++ [(⟨party, key⟩ : Spdm)]).length = s.sec.sessions.length + 1 := List.length_append
  have hfew := h.2.2.1
  have hopened := setSessions_touches (s.sec.sessions ++ [⟨party, key⟩]) s
  have hraised := (transactionRun_raises (setSessions (s.sec.sessions ++ [⟨party, key⟩]) s)).touches
  obtain ⟨hout, hparts, hsessions, -, howner, hleases, -⟩ := answer_said 442 [s.sec.sessions.length] (setSessions (s.sec.sessions ++ [⟨party, key⟩]) s)
  refine ⟨_, (exec_keyExchange hm).trans (congrArg Host.Outcome.next (if_pos (maySession_iff.mp h))), hsessions, ?_, hout, howner, hleases,
    (keptBut_trans hopened.parts hparts).mono (by decide)⟩
  exact (hraised.getF (by decide)).trans ((getF_setSessions (by omega) s).trans hlen)

theorem exec_keyExchange_refused (hm : mgmtAlive s = true) (h : ¬ MaySession s party key ok) :
    exec (.keyExchange party key ok) s = .next (emit s (.mgmt 437 [0x23, 0])) :=
  (exec_keyExchange hm).trans (congrArg Host.Outcome.next (if_neg fun hc => h (maySession_iff.mpr hc)))

end

/-! ### Packages and their activation (R432, R444, R466, R467) -/

section
variable {s : State} {f : FwPackage} {l : List FwPackage}

theorem headPackage_eq (h : s.sec.packages = f :: l) : headPackage s f.comp = some f := by
  rw [headPackage, h]
  exact if_pos rfl

theorem headPackage_none {c : FwComp} (h : ∀ f l, s.sec.packages = f :: l → f.comp ≠ c) : headPackage s c = none := by
  unfold headPackage
  cases hp : s.sec.packages with
  | nil => rfl
  | cons f l => exact if_neg (h f l hp)

/-- The key store with the package's version and measurement. -/
def fwStore (f : FwPackage) (k : KeyStore) : KeyStore :=
  { k with versions := k.versions.set (compIdx f.comp) f.version, measures := k.measures.set (measureIdx f.comp) f.measure }

/-- The package's version and measurement hold. -/
def fwHeld (f : FwPackage) (s : State) : State :=
  putKs { s with sec.packages := s.sec.packages.drop 1 } (fwStore f s.sec.ks)

/-- The sessions are closed, and the ledger has the record. -/
def fwRecorded (f : FwPackage) (s : State) : State := ledgerSecurity 3 (compIdx f.comp) f.version (setSessions [] (fwHeld f s))

theorem activateFw_eq (f : FwPackage) (s : State) : activateFw f s =
    if f.floor then { fwRecorded f s with sec.fwRaise := (fwRecorded f s).sec.fwRaise ++ [(f.comp, f.version)] } else fwRecorded f s := rfl

def activationKey (k : Nat) : Bool := secViewKey k || oneOf [Reg.MGT_STATUS_SESSIONS] k

theorem fwRecorded_touches (f : FwPackage) (s : State) : Touches [.flds, .sec, .ledger, .ledgerSeq] activationKey s (fwRecorded f s) := by
  have hheld : Touches [.flds, .sec, .ledger, .ledgerSeq] activationKey s (fwHeld f s) :=
    (Touches.keep (.refl s) (sec_kept s { s.sec with packages := s.sec.packages.drop 1 })).step (putKs_touches _ _) (by decide)
      fun _ e => (Bool.or_eq_false_iff.mp e).1
  exact (hheld.step (setSessions_touches [] _) (by decide) fun _ e => (Bool.or_eq_false_iff.mp e).2).keep (ledgerAdd_kept _ _ _)

theorem sec_fwRecorded (f : FwPackage) (s : State) : (fwRecorded f s).sec =
    { s.sec with packages := s.sec.packages.drop 1, sessions := [], ks := fwStore f s.sec.ks } := by
  have hledger : (fwRecorded f s).sec = (setSessions [] (fwHeld f s)).sec := ledgerAdd_kept _ _ _ .sec (by decide)
  rw [hledger, sec_setSessions, fwHeld, sec_putKs]

theorem activateFw_touches (f : FwPackage) (s : State) : Touches [.flds, .sec, .ledger, .ledgerSeq] activationKey s (activateFw f s) := by
  rw [activateFw_eq]
  exact .ite ((fwRecorded_touches f s).keep (sec_kept _ _)) (fwRecorded_touches f s)

theorem sec_activateFw (f : FwPackage) (s : State) : (activateFw f s).sec =
    { s.sec with
      packages := s.sec.packages.drop 1
      sessions := []
      fwRaise := s.sec.fwRaise ++ (if f.floor then [(f.comp, f.version)] else [])
      ks := fwStore f s.sec.ks } := by
  rw [activateFw_eq]
  split
  · dsimp only
    rw [sec_fwRecorded]
  · rw [sec_fwRecorded, List.append_nil]

theorem getF_activateFw_sessions (f : FwPackage) (s : State) : getF (activateFw f s) Reg.MGT_STATUS_SESSIONS = 0 := by
  have hledger : (fwRecorded f s).flds = (setSessions [] (fwHeld f s)).flds := ledgerAdd_kept _ _ _ .flds (by decide)
  have hzero : getF (fwRecorded f s) Reg.MGT_STATUS_SESSIONS = 0 := (getF_congr hledger _).trans (getF_setSessions (by decide) _)
  rw [activateFw_eq]
  split
  · exact hzero
  · exact hzero

/-- R466, R467: what an activation leaves of firmware and sessions. -/
structure Activated (f : FwPackage) (l : List FwPackage) (s t : State) : Prop where
  packages : t.sec.packages = l
  versions : t.sec.ks.versions = s.sec.ks.versions.set (compIdx f.comp) f.version
  measures : t.sec.ks.measures = s.sec.ks.measures.set (measureIdx f.comp) f.measure
  sessions : t.sec.sessions = []
  shown : getF t Reg.MGT_STATUS_SESSIONS = 0
  rollback : t.sec.ks.rollback = s.sec.ks.rollback
  floors : t.sec.fwRaise = s.sec.fwRaise ++ (if f.floor then [(f.comp, f.version)] else [])

theorem activateFw_spec (h : s.sec.packages = f :: l) : Activated f l s (activateFw f s) := by
  have hsec := sec_activateFw f s
  have hdrop : s.sec.packages.drop 1 = l := by rw [h]; rfl
  exact ⟨by rw [hsec, ← hdrop], by rw [hsec]; rfl, by rw [hsec]; rfl, by rw [hsec], getF_activateFw_sessions f s, by rw [hsec]; rfl, by rw [hsec]⟩

/-- What no activation reads may change before and after it. -/
theorem Activated.around {s' t t' : State} (h : Activated f l s' t) (hs : s'.sec = s.sec) (ht : t'.sec = t.sec)
    (hshown : getF t' Reg.MGT_STATUS_SESSIONS = getF t Reg.MGT_STATUS_SESSIONS) : Activated f l s t' := by
  obtain ⟨hpackages, hversions, hmeasures, hsessions, hzero, hrollback, hfloors⟩ := h
  rw [hs] at hversions hmeasures hrollback hfloors
  exact ⟨by rw [ht, hpackages], by rw [ht, hversions], by rw [ht, hmeasures], by rw [ht, hsessions], hshown.trans hzero, by rw [ht, hrollback],
    by rw [ht, hfloors]⟩

/-- R467: the former firmware is kept until a boundary has run. -/
def handedOff (f : FwPackage) (s : State) : State :=
  { activateFw f s with sec.fwNew := true, sec.former := some (s.sec.ks.versions.getD 0 0, s.sec.ks.measures.getD 1 []) }

theorem handedOff_spec (h : s.sec.packages = f :: l) : Activated f l s (handedOff f s) ∧ (handedOff f s).sec.fwNew = true ∧
    (handedOff f s).sec.former = some (s.sec.ks.versions.getD 0 0, s.sec.ks.measures.getD 1 []) ∧
    keptBut [.flds, .sec, .ledger, .ledgerSeq] s (handedOff f s) := by
  obtain ⟨hpackages, hversions, hmeasures, hsessions, hzero, hrollback, hfloors⟩ := activateFw_spec h
  exact ⟨⟨hpackages, hversions, hmeasures, hsessions, hzero, hrollback, hfloors⟩, rfl, rfl,
    (keptBut_trans (activateFw_touches f s).parts (sec_kept _ _)).mono (by decide)⟩

theorem exec_controlFwHandoff (hp : headPackage s .control = some f) (hst : s.boot.stage = .ready) (hpo : s.portion = none) (hsu : s.suspended = none)
    (himg : getB s Reg.ENG_IMG_STATUS_BUSY = false ∨ getF s Reg.ENG_IMG_STATUS_PHASE ≠ 5) :
    exec .controlFwHandoff s = .next (handedOff f s) := by
  refine congrArg Host.Outcome.next ?_
  rw [hp]
  refine if_neg ?_
  rcases himg with h | h <;> simp [hst, hpo, hsu, h]

theorem exec_controlFwHandoff_not (h : (∀ f l, s.sec.packages = f :: l → f.comp ≠ .control) ∨ s.boot.stage ≠ .ready ∨ s.portion ≠ none ∨
    s.suspended ≠ none) : exec .controlFwHandoff s = .next s := by
  refine congrArg Host.Outcome.next ?_
  cases hp : headPackage s .control with
  | none => rfl
  | some f =>
    refine if_pos ?_
    rcases h with h | h | h | h
    · rw [headPackage_none h] at hp
      cases hp
    · exact .inl h
    · exact .inr (.inl (Option.isSome_iff_ne_none.mpr h))
    · exact .inr (.inr (.inl (Option.isSome_iff_ne_none.mpr h)))

/-! ### The swap of the power manager's firmware (R466) -/

/-- The brake holds the floor while the package is activated. -/
def powerSwapped (f : FwPackage) (s : State) : State := brakeOff 4 s.pwr.cEff (activateFw f (brakeOn 4 s))

theorem powerSwapped_spec (h : s.sec.packages = f :: l) (hb : 4 ∉ s.pwr.brakes) : Activated f l s (powerSwapped f s) ∧
    (powerSwapped f s).pwr.brakes = s.pwr.brakes ∧ (powerSwapped f s).pwr.cEff = s.pwr.cEff ∧
    getF (powerSwapped f s) Reg.PWR_CAP_TARGET = getF s Reg.PWR_CAP_TARGET ∧ keptBut [.flds, .sec, .pwr, .ledger, .ledgerSeq] s (powerSwapped f s) := by
  have hnot : s.pwr.brakes.contains 4 = false := by simpa using hb
  have hon := brakeOn_touches 4 s
  have hact := activateFw_touches f (brakeOn 4 s)
  have hoff := brakeOff_touches 4 s.pwr.cEff (activateFw f (brakeOn 4 s))
  have hpwr : (activateFw f (brakeOn 4 s)).pwr = { s.pwr with brakes := 4 :: s.pwr.brakes } := by
    rw [show (activateFw f (brakeOn 4 s)).pwr = (brakeOn 4 s).pwr from hact.parts .pwr (by decide), pwr_brakeOn, hnot]
    rfl
  have hheld : (activateFw f (brakeOn 4 s)).pwr.brakes.contains 4 = true := by
    rw [hpwr]
    simp
  have hend := pwr_brakeOff hheld s.pwr.cEff
  rw [hpwr] at hend
  have hfilter : (4 :: s.pwr.brakes).filter (· != 4) = s.pwr.brakes := by
    have hkeep : ∀ k ∈ s.pwr.brakes, (k != 4) = true := fun k hk => by
      rw [bne_iff_ne]
      rintro rfl
      exact hb hk
    rw [List.filter_cons_of_neg (by decide), List.filter_eq_self.mpr hkeep]
  have hbrakes : (powerSwapped f s).pwr.brakes = s.pwr.brakes := (congrArg PwrSt.brakes hend).trans hfilter
  have hceff : (powerSwapped f s).pwr.cEff = s.pwr.cEff := (congrArg PwrSt.cEff hend).trans (Nat.min_self _)
  have hsecOn : (brakeOn 4 s).sec = s.sec := hon.parts .sec (by decide)
  have hactivated := activateFw_spec (s := brakeOn 4 s) (f := f) (l := l) (by rw [hsecOn]; exact h)
  exact ⟨hactivated.around hsecOn (hoff.parts .sec (by decide)) (hoff.getF (by decide)), hbrakes, hceff,
    (hoff.getF (by decide)).trans ((hact.getF (by decide)).trans (hon.getF (by decide))),
    (keptBut_trans (keptBut_trans hon.parts hact.parts) hoff.parts).mono (by decide)⟩

section
variable (hm : mgmtAlive s = true)
include hm

theorem exec_securityFwSwap (hp : headPackage s .security = some f) : exec .securityFwSwap s = .next (activateFw f s) := by
  refine congrArg Host.Outcome.next ((viaMgmt_on hm _).trans ?_)
  rw [hp]

theorem exec_mgmtFwSwap (hp : headPackage s .mgmt = some f) : exec .mgmtFwSwap s = .next (activateFw f s) := by
  refine congrArg Host.Outcome.next ((viaMgmt_on hm _).trans ?_)
  rw [hp]

theorem exec_powerFwSwap (hp : headPackage s .power = some f) : exec .powerFwSwap s = .next (powerSwapped f s) := by
  refine congrArg Host.Outcome.next ((viaMgmt_on hm _).trans ?_)
  rw [hp]
  rfl

end

/-! ### The former firmware returns (R467) -/

/-- The former version and measurement hold again. -/
def rolledBack (v : Nat) (m : List Nat) (s : State) : State :=
  let s1 := putKs s { s.sec.ks with versions := s.sec.ks.versions.set 0 v, measures := s.sec.ks.measures.set 1 m }
  setSessions [] { s1 with sec.fwNew := false, sec.former := none, sec.fwRaise := s1.sec.fwRaise.filter fun x => x.1 != .control }

theorem exec_controlFwRollback_not (h : s.sec.former = none ∨ s.sec.fwNew = false) : exec .controlFwRollback s = .next s := by
  refine congrArg Host.Outcome.next ?_
  cases hf : s.sec.former with
  | none => rfl
  | some x =>
    rcases h with h | h
    · rw [hf] at h; cases h
    · exact if_neg (by rw [h]; exact Bool.false_ne_true)

theorem exec_controlFwRollback {v : Nat} {m : List Nat} (hf : s.sec.former = some (v, m)) (hn : s.sec.fwNew = true) :
    exec .controlFwRollback s = .next (rolledBack v m s) := by
  refine congrArg Host.Outcome.next ?_
  rw [hf]
  exact if_pos hn

theorem sec_rolledBack (v : Nat) (m : List Nat) (s : State) : (rolledBack v m s).sec =
    { s.sec with
      sessions := []
      fwNew := false
      former := none
      fwRaise := s.sec.fwRaise.filter fun x => x.1 != .control
      ks := { s.sec.ks with versions := s.sec.ks.versions.set 0 v, measures := s.sec.ks.measures.set 1 m } } := by
  rw [rolledBack, sec_setSessions]
  dsimp only
  rw [sec_putKs]

theorem rolledBack_kept (v : Nat) (m : List Nat) (s : State) : keptBut [.flds, .sec] s (rolledBack v m s) :=
  (keptBut_trans (keptBut_trans (putKs_touches s _).parts (sec_kept _ _)) (setSessions_touches [] _).parts).mono (by decide)

end

/-! ### The statement -/

theorem slotFilled_iff (s : State) (slot : Fin 8) : slotFilled s slot = true ↔ (slot.val = 0 ∨ slot.val = 1 ∧ s.sec.ks.slot1 = true) := by
  simp [slotFilled]

theorem b2n_slotFilled (s : State) (slot : Fin 8) [Decidable (slot.val = 0 ∨ slot.val = 1 ∧ s.sec.ks.slot1 = true)] :
    b2n (slotFilled s slot) = if slot.val = 0 ∨ slot.val = 1 ∧ s.sec.ks.slot1 = true then 1 else 0 := by
  rw [b2n]
  exact if_congr (slotFilled_iff s slot) rfl rfl

/-- Settles O56: a transaction without fault raises floors and nothing else, and each activation takes the head package and closes the
sessions. -/
theorem managementAttestationAndFirmware : Obligations.ManagementAttestationAndFirmware := by
  unfold Obligations.ManagementAttestationAndFirmware
  refine ⟨fun s eid addr sensor slot nonce key measure index party ok floor mio own c version => ⟨fun hoff => ?_, fun hm => ?_⟩,
    fun s f l c hp hc => ?_, fun s v m => ⟨exec_controlFwRollback_not, exec_controlFwHandoff_not, fun hf hn => ?_⟩⟩
  · have hvia (f : State → State) : (Host.Outcome.next (viaMgmt s f) : Res) = .next s := congrArg Host.Outcome.next (viaMgmt_off hoff f)
    simp only [List.forall_mem_cons, List.not_mem_nil, false_implies, implies_true, and_true]
    exact ⟨hvia _, hvia _, hvia _, hvia _, hvia _, hvia _, hvia _, hvia _, hvia _, hvia _, hvia _,
      congrArg Host.Outcome.next (if_neg (by rw [hoff]; exact Bool.false_ne_true))⟩
  · refine ⟨exec_setEndpointId_spec hm eid, exec_entdaa_spec hm addr, ⟨_, exec_pldmSensorRead hm sensor, answer_said _ _ s⟩,
      ⟨_, exec_getCertificate hm slot, ?_⟩, fun hfilled => ⟨_, ?_, answer_said _ _ s⟩, fun hempty => ?_,
      ⟨_, exec_getMeasurements hm index nonce, answer_said _ _ s⟩, ⟨exec_keyExchange_refused hm, exec_keyExchange_opens hm⟩,
      fun hno => ⟨_, ?_, answer_said _ _ s⟩, fun hyes => ?_⟩
    · rw [← b2n_slotFilled]
      exact answer_said _ _ s
    · exact (exec_challenge hm slot nonce).trans (congrArg Host.Outcome.next (if_pos ((slotFilled_iff s slot).mpr hfilled)))
    · exact (exec_challenge hm slot nonce).trans (congrArg Host.Outcome.next (if_neg fun h => hempty ((slotFilled_iff s slot).mp h)))
    · exact (exec_pldmFirmwareUpdate hm c version floor mio own measure).trans
        (congrArg Host.Outcome.next (if_neg (by rw [hno]; exact Bool.false_ne_true)))
    · have hqueued := sec_kept s { s.sec with packages := s.sec.packages ++ [⟨c, version, floor, measure⟩] }
      obtain ⟨hout, hparts, -, hpackages, -⟩ :=
        answer_said 444 [0] { s with sec.packages := s.sec.packages ++ [⟨c, version, floor, measure⟩] }
      obtain ⟨x, r, fl, hsec⟩ := sec_transactionRun { s with sec.packages := s.sec.packages ++ [⟨c, version, floor, measure⟩] }
      exact ⟨_, (exec_pldmFirmwareUpdate hm c version floor mio own measure).trans (congrArg Host.Outcome.next (if_pos hyes)), hpackages,
        by rw [sec_answer, hsec], hout, (keptBut_trans hqueued hparts).mono (by decide)⟩
  · have hhead := headPackage_eq hp
    have hactivated := activateFw_spec hp
    have hparts := (activateFw_touches f s).parts
    obtain ⟨rfl, hcomp, hst, hpo, hsu, himg⟩ | ⟨rfl, hcomp, hm⟩ | ⟨rfl, hcomp, hm⟩ | ⟨rfl, hcomp, hm, hb⟩ := hc
    · rw [hcomp] at hhead
      obtain ⟨⟨hpackages, hversions, hmeasures, hsessions, hzero, hrollback, hfloors⟩, hnew, hformer, hkept⟩ := handedOff_spec hp
      exact ⟨_, exec_controlFwHandoff hhead hst hpo hsu himg, hpackages, hversions, hmeasures, hsessions, hzero, hrollback, hfloors,
        fun _ => ⟨hnew, hformer⟩, fun h => absurd (hcomp.symm.trans h) (by decide), hkept.mono (by decide)⟩
    · rw [hcomp] at hhead
      obtain ⟨hpackages, hversions, hmeasures, hsessions, hzero, hrollback, hfloors⟩ := hactivated
      exact ⟨_, exec_securityFwSwap hm hhead, hpackages, hversions, hmeasures, hsessions, hzero, hrollback, hfloors,
        fun h => absurd (hcomp.symm.trans h) (by decide), fun h => absurd (hcomp.symm.trans h) (by decide), hparts.mono (by decide)⟩
    · rw [hcomp] at hhead
      obtain ⟨hpackages, hversions, hmeasures, hsessions, hzero, hrollback, hfloors⟩ := hactivated
      exact ⟨_, exec_mgmtFwSwap hm hhead, hpackages, hversions, hmeasures, hsessions, hzero, hrollback, hfloors,
        fun h => absurd (hcomp.symm.trans h) (by decide), fun h => absurd (hcomp.symm.trans h) (by decide), hparts.mono (by decide)⟩
    · rw [hcomp] at hhead
      obtain ⟨⟨hpackages, hversions, hmeasures, hsessions, hzero, hrollback, hfloors⟩, hbrakes, hceff, htarget, hkept⟩ := powerSwapped_spec hp hb
      exact ⟨_, exec_powerFwSwap hm hhead, hpackages, hversions, hmeasures, hsessions, hzero, hrollback, hfloors,
        fun h => absurd (hcomp.symm.trans h) (by decide), fun _ => ⟨hbrakes, hceff, htarget⟩, hkept⟩
  · have hsec := sec_rolledBack v m s
    refine ⟨_, exec_controlFwRollback hf hn, by rw [hsec], by rw [hsec], by rw [hsec], by rw [hsec], by rw [hsec], by rw [hsec], fun x hx => ?_,
      rolledBack_kept v m s⟩
    rw [hsec] at hx
    simpa using (List.mem_filter.mp hx).2

end Sys2Proof.Machine
end

