-- ==== Sys2Proof/Proofs/AuthorityCommands.lean ====
section
/-!
SUPPORT. Proofs/AuthorityCommands.lean: authority commands of a session, what they leave and show of the key store, the ownership commands
that end every lease, and O57 (R437, R442, R443, R453, R454, R469, R473).
-/
namespace Sys2Proof.Machine

set_option Elab.async false

/-! ### The registers that show the key store (R458) -/

/-- What is shown of the key store beside its leases. -/
structure KeysShown (k : KeyStore) (s : State) : Prop where
  owned : getB s Reg.SEC_STATUS_OWNED = !k.owner.isEmpty
  slot : getF s Reg.SEC_STATUS_OWNER_SLOT = (k.ownerSlots - 1) % 16
  countersign : getB s Reg.SEC_STATUS_COUNTERSIGN = k.countersign
  glitches : getF s Reg.SEC_GLITCH_SINCE_ACK = min k.glitchAck 255 % 256
  locked : getB s Reg.SEC_STATUS_GLITCH_LOCK = decide (16 ≤ k.glitchAck)

def keysShownFlds : List Fld := [Reg.SEC_STATUS_OWNED, Reg.SEC_STATUS_OWNER_SLOT, Reg.SEC_STATUS_COUNTERSIGN, Reg.SEC_GLITCH_SINCE_ACK,
  Reg.SEC_STATUS_GLITCH_LOCK]

theorem KeysShown.kept {k : KeyStore} {s t : State} (h : KeysShown k s) (hf : ∀ f ∈ keysShownFlds, getF t f = getF s f) : KeysShown k t := by
  obtain ⟨howned, hslot, hcountersign, hglitches, hlocked⟩ := h
  simp only [keysShownFlds, List.forall_mem_cons, List.not_mem_nil, false_implies, implies_true, and_true] at hf
  obtain ⟨fowned, fslot, fcountersign, fglitches, flocked⟩ := hf
  exact ⟨by rw [getB, fowned]; exact howned, fslot.trans hslot, by rw [getB, fcountersign]; exact hcountersign, fglitches.trans hglitches,
    by rw [getB, flocked]; exact hlocked⟩

theorem secSummary_shown (s : State) : KeysShown s.sec.ks (secSummary s) := by
  unfold secSummary
  simp only [setB]
  refine ⟨?_, ?_, ?_, ?_, ?_⟩
  · rw [getB, getF_setF_ne (by decide), getF_setF_ne (by decide), getF_setF_ne (by decide), getF_setF_ne (by decide), getF_setF_ne (by decide), getF_setF_ne (by decide), getF_setF_ne (by decide)]
    exact getB_setB_self s _ _ (by decide)
  · rw [getF_setF_ne (by decide), getF_setF_ne (by decide), getF_setF_ne (by decide), getF_setF_ne (by decide), getF_setF_ne (by decide), getF_setF_ne (by decide)]
    exact getF_setF_self _ _ _
  · rw [getB, getF_setF_ne (by decide), getF_setF_ne (by decide), getF_setF_ne (by decide), getF_setF_ne (by decide)]
    exact getB_setB_self _ _ _ (by decide)
  · rw [getF_setF_ne (by decide)]
    exact getF_setF_self _ _ _
  · rw [getB, getF_setF_ne (by decide), getF_setF_ne (by decide)]
    exact getB_setB_self _ _ _ (by decide)

/-- The registers of the lease slots. -/
def leaseSlotKey (k : Nat) : Bool := oneOf ((List.range 16).map Reg.SEC_LEASE_STATE_SLOT) k

theorem leaseSlots_touches (k : KeyStore) (s : State) :
    Touches [.flds] leaseSlotKey s ((List.range 16).foldl (fun t n => setF t (Reg.SEC_LEASE_STATE_SLOT n) (leaseSlotState k n)) s) := by
  have hslots : ∀ ns : List Nat, (∀ n ∈ ns, n < 16) → ∀ t,
      Touches [.flds] leaseSlotKey t (ns.foldl (fun t n => setF t (Reg.SEC_LEASE_STATE_SLOT n) (leaseSlotState k n)) t) := by
    intro ns
    induction ns with
    | nil => exact fun _ t => .refl t
    | cons n ns ih =>
      intro h t
      exact (Touches.setF (.refl t) (oneOf_mem (List.mem_map_of_mem (List.mem_range.mpr (h n List.mem_cons_self))))).trans
        (ih (fun m hm => h m (List.mem_cons_of_mem _ hm)) _)
  exact hslots _ (fun n => List.mem_range.mp) s

theorem secView_shown (s : State) : KeysShown s.sec.ks (secView s) := by
  rw [secView_eq]
  have hkeys : ∀ f ∈ keysShownFlds, leaseSlotKey (fldKey f .a) = false := by decide
  exact (secSummary_shown s).kept fun f hf => (leaseSlots_touches _ _).getF (hkeys f hf)

theorem putKs_shown (s : State) (k : KeyStore) : KeysShown k (putKs s k) := secView_shown { s with sec.ks := k }

/-! ### What a command leaves of the key store -/

/-- The key store is `k` but for floors, it is shown, and nothing changed beside it but the parts of `l`. -/
structure StoreIs (l : List Part) (k : KeyStore) (s t : State) : Prop where
  parts : keptBut (.flds :: .sec :: l) s t
  sec : ∃ x r f, t.sec = { s.sec with fwRaise := x, ks := { k with rollback := r, secFloor := f } }
  shown : KeysShown k t

theorem KeysShown.floors {k : KeyStore} {s : State} (h : KeysShown k s) (r : List Nat) (f : Nat) :
    KeysShown { k with rollback := r, secFloor := f } s := by
  obtain ⟨howned, hslot, hcountersign, hglitches, hlocked⟩ := h
  exact ⟨howned, hslot, hcountersign, hglitches, hlocked⟩

theorem KeysShown.raiseFloor {k : KeyStore} {s : State} (hk : ∃ r f, s.sec.ks = { k with rollback := r, secFloor := f }) (x : FwComp × Nat) :
    KeysShown k (raiseFloor x s) := by
  obtain ⟨r, f, hk⟩ := hk
  have hput (r' : List Nat) (f' : Nat) : KeysShown k (putKs s { s.sec.ks with rollback := r', secFloor := f' }) := by
    obtain ⟨howned, hslot, hcountersign, hglitches, hlocked⟩ := putKs_shown s { s.sec.ks with rollback := r', secFloor := f' }
    rw [hk] at *
    exact ⟨howned, hslot, hcountersign, hglitches, hlocked⟩
  unfold Machine.raiseFloor
  dsimp only
  split
  · exact hput s.sec.ks.rollback _
  · exact hput _ s.sec.ks.secFloor

theorem KeysShown.foldl_raiseFloor {k : KeyStore} (l : List (FwComp × Nat)) {s : State} (h : KeysShown k s)
    (hk : ∃ r f, s.sec.ks = { k with rollback := r, secFloor := f }) : KeysShown k (l.foldl (fun t x => Machine.raiseFloor x t) s) := by
  induction l generalizing s with
  | nil => exact h
  | cons x l ih =>
    obtain ⟨r, f, hk⟩ := hk
    obtain ⟨x', r', f', hsec⟩ := (FloorsRaised.raiseFloor x s).sec
    exact ih (.raiseFloor ⟨r, f, hk⟩ x) ⟨r', f', by rw [hsec, hk]⟩

theorem KeysShown.transactionRun {s : State} (h : KeysShown s.sec.ks s) : KeysShown s.sec.ks (transactionRun s) :=
  KeysShown.foldl_raiseFloor (s := { s with sec.fwRaise := s.sec.fwRaise.filter fun x => x.1 == .control }) _
    (h.kept fun _ _ => rfl) ⟨_, _, rfl⟩

/-- A transaction that has written the key store. -/
theorem StoreIs.run {l : List Part} {k : KeyStore} {s t : State} (hparts : keptBut (.flds :: .sec :: l) s t)
    (hsec : t.sec = { s.sec with ks := k }) (hshown : KeysShown k t) : StoreIs l k s (transactionRun t) := by
  have hraised := transactionRun_raises t
  obtain ⟨x, r, f, hrun⟩ := hraised.sec
  have hks : t.sec.ks = k := by rw [hsec]
  refine ⟨(keptBut_trans hparts hraised.touches.parts).mono fun p hp => ?_, ⟨x, r, f, ?_⟩, ?_⟩
  · simp only [List.mem_append, List.mem_cons, List.not_mem_nil, or_false] at hp ⊢
    tauto
  · rw [hrun, hsec]
  · rw [← hks] at hshown ⊢
    exact hshown.transactionRun

/-! ### Commands of a session (R437, R443) -/

section
variable {s : State} {sess : Nat} {ok : Party → Bool} {f : State → State} (hm : mgmtAlive s = true)
include hm

theorem asParty_runs {p : Party} (hp : sessionParty s sess = some p) (hok : ok p = true) : asParty sess ok s f = transactionRun (f s) := by
  refine (viaMgmt_on hm _).trans ?_
  rw [hp]
  exact if_pos hok

theorem asParty_refused (h : ∀ p, sessionParty s sess = some p → ok p = false) : asParty sess ok s f = refuse 0x23 0 s := by
  refine (viaMgmt_on hm _).trans ?_
  cases hp : sessionParty s sess with
  | none => rfl
  | some p => exact if_neg (by rw [h p hp]; exact Bool.false_ne_true)

end

theorem isOwner_eq_false {p : Party} (h : p ≠ .owner) : isOwner p = false := by
  cases p with
  | owner => exact absurd rfl h
  | service => rfl
  | anyKey => rfl
  | tenant n => rfl

theorem isDebugParty_eq_false {p : Party} (ho : p ≠ .owner) (hs : p ≠ .service) : isDebugParty p = false := by
  cases p with
  | owner => exact absurd rfl ho
  | service => exact absurd rfl hs
  | anyKey => rfl
  | tenant n => rfl

/-- What a refusal within a session leaves. -/
def Denied (status res : Nat) (s t : State) : Prop :=
  t.out = .mgmt 437 [status, res] :: s.out ∧ t.sec.ks.owner = s.sec.ks.owner ∧ t.sec.ks.leases = s.sec.ks.leases ∧ t.sec.authOp = s.sec.authOp ∧
    keptBut [.flds, .sec, .out] s t

theorem denied_run (status res : Nat) (s : State) : Denied status res s (transactionRun (refuse status res s)) := by
  have hraised := transactionRun_raises (refuse status res s)
  obtain ⟨x, r, f, hrun⟩ := hraised.sec
  refine ⟨out_transactionRun _, ?_, ?_, ?_, (keptBut_trans (emit_kept s _) hraised.touches.parts).mono (by decide)⟩
  · rw [hrun]
    rfl
  · rw [hrun]
    rfl
  · rw [hrun]
    rfl

theorem next_run {s t : State} (h : s = t) : (Host.Outcome.next (transactionRun s) : Res) = .next (transactionRun t) := by rw [h]

/-- What an answer within a session leaves. -/
theorem answered_run (rule : Nat) (data : List Nat) (s : State) : (transactionRun (answer rule data s)).out = .mgmt rule data :: s.out ∧
    keptBut [.flds, .sec, .out] s (transactionRun (answer rule data s)) :=
  ⟨out_transactionRun _, (keptBut_trans (emit_kept s _) (transactionRun_raises _).touches.parts).mono (by decide)⟩

/-- A command that writes the key store and is done. -/
theorem storeIs_done (k : KeyStore) (s : State) : StoreIs [.out] k s (transactionRun (done (putKs s k))) ∧
    (transactionRun (done (putKs s k))).out = .mgmt 443 [0] :: s.out := by
  have hput := putKs_touches s k
  have hemit := emit_kept (putKs s k) (.mgmt 443 [0])
  refine ⟨.run ((keptBut_trans hput.parts hemit).mono (by decide)) (sec_putKs s k) ((putKs_shown s k).kept fun _ _ => rfl), ?_⟩
  rw [out_transactionRun, ← show (putKs s k).out = s.out from hput.parts .out (by decide)]
  rfl

/-! ### Taking ownership (R443) -/

section
variable {s : State} {sess : Nat} (hm : mgmtAlive s = true) (hp : sessionParty s sess = some .anyKey)
include hm hp

omit hm hp in
/-- The party of a session has one. -/
theorem session_of_party {p : Party} (h : sessionParty s sess = some p) : ∃ x, s.sec.sessions[sess]? = some x := by
  unfold sessionParty at h
  split at h
  · exact ⟨_, ‹_›⟩
  · cases h

theorem exec_takeOwnership_noToken : exec (.takeOwnership sess false) s = .next (transactionRun (refuse 0x23 0 s)) := by
  obtain ⟨x, hx⟩ := session_of_party hp
  refine congrArg Host.Outcome.next ((asParty_runs hm hp rfl).trans (congrArg transactionRun ?_))
  simp only [hx]
  rfl

theorem exec_takeOwnership_full (hfull : 16 ≤ s.sec.ks.ownerSlots) :
    exec (.takeOwnership sess true) s = .next (transactionRun (refuse 0x10 0x1B s)) := by
  obtain ⟨x, hx⟩ := session_of_party hp
  refine congrArg Host.Outcome.next ((asParty_runs hm hp rfl).trans (congrArg transactionRun ?_))
  simp only [hx]
  exact (if_neg (by decide)).trans (if_pos hfull)

theorem exec_takeOwnership {x : Spdm} (hx : s.sec.sessions[sess]? = some x) (hroom : s.sec.ks.ownerSlots < 16) :
    exec (.takeOwnership sess true) s = .next (transactionRun
      (done (ledgerSecurity 2 0 0 (putKs s { s.sec.ks with owner := x.key, ownerSlots := s.sec.ks.ownerSlots + 1 })))) := by
  refine congrArg Host.Outcome.next ((asParty_runs hm hp rfl).trans (congrArg transactionRun ?_))
  simp only [hx]
  exact (if_neg (by decide)).trans (if_neg (by omega))

end

/-- A command that writes the key store and a ledger record and is done. -/
theorem storeIs_done_recorded (k : KeyStore) (event component version : Nat) (s : State) :
    StoreIs [.out, .ledger, .ledgerSeq] k s (transactionRun (done (ledgerSecurity event component version (putKs s k)))) ∧
    (transactionRun (done (ledgerSecurity event component version (putKs s k)))).out = .mgmt 443 [0] :: s.out := by
  have hput := putKs_touches s k
  have hledger : keptBut [.ledger, .ledgerSeq] (putKs s k) (ledgerSecurity event component version (putKs s k)) := ledgerAdd_kept _ _ _
  have hemit := emit_kept (ledgerSecurity event component version (putKs s k)) (.mgmt 443 [0])
  refine ⟨.run ((keptBut_trans (keptBut_trans hput.parts hledger) hemit).mono (by decide))
    ((hledger .sec (by decide)).trans (sec_putKs s k)) ((putKs_shown s k).kept fun f _ => getF_congr (hledger .flds (by decide)) f), ?_⟩
  rw [out_transactionRun, ← show (putKs s k).out = s.out from hput.parts .out (by decide),
    ← show (ledgerSecurity event component version (putKs s k)).out = (putKs s k).out from hledger .out (by decide)]
  rfl

/-! ### Commands that end every lease (R443, R453) -/

/-- The key store that the command's own effect leaves. -/
def authorityStore (k : KeyStore) : AuthOp → KeyStore
  | .transfer key => { k with owner := key, ownerSlots := k.ownerSlots + 1, app := [], slot1 := false }
  | .release => { k with owner := [], app := [], slot1 := false }
  | .debug => { k with debugSeen := true }

def authorityCause : AuthOp → Nat
  | .transfer _ => 4 | .release => 4 | .debug => 3

/-- An END of every lease that is not FREE. -/
def leasesEnding (n : Nat) (ls : List Lease) : List Lease :=
  ls.map fun l => if l.st = 0 then l else { l with endStep := some (min (l.endStep.getD n) n) }

theorem mem_leasesEnding {n : Nat} {ls : List Lease} {l : Lease} (h : l ∈ leasesEnding n ls) (hst : l.st ≠ 0) :
    ∃ e, l.endStep = some e ∧ e ≤ n := by
  obtain ⟨l', -, rfl⟩ := List.mem_map.mp h
  by_cases h0 : l'.st = 0
  · rw [if_pos h0] at hst
    exact absurd h0 hst
  · rw [if_neg h0]
    exact ⟨_, rfl, Nat.min_le_right _ _⟩

theorem leaseCount_leasesEnding (k : KeyStore) (n : Nat) : leaseCount { k with leases := leasesEnding n k.leases } = leaseCount k := by
  have hst (l : Lease) : (if l.st = 0 then l else { l with endStep := some (min (l.endStep.getD n) n) }).st = l.st := by
    split
    · rfl
    · rfl
  simp only [leaseCount, leasesEnding, List.filter_map, List.length_map, Function.comp_def, hst]

/-- Every lease has its END. -/
def endedStore (s : State) : KeyStore := { s.sec.ks with leases := leasesEnding (nextStep s) s.sec.ks.leases }

theorem endAll_eq (s : State) : endAll s = putKs s (endedStore s) := rfl

theorem endAll_touches (s : State) : Touches [.flds, .sec] secViewKey s (endAll s) := putKs_touches _ _

theorem sec_endAll (s : State) : (endAll s).sec = { s.sec with ks := endedStore s } := sec_putKs _ _

/-- R443, R453: the effect of an authority command. -/
structure AuthorityDone (op : AuthOp) (s t : State) : Prop where
  mem : t.mem = []
  marks : t.marks = []
  accs : t.accs = []
  cause : getF t Reg.SEC_STATUS_ZERO_CAUSE = authorityCause op
  debug : op = .debug → getB t Reg.SEC_STATUS_DEBUG = true
  sec : t.sec = { s.sec with ks := authorityStore s.sec.ks op }
  parts : keptBut [.flds, .sec, .ledger, .ledgerSeq, .mem, .marks, .accs, .rewritten] s t

theorem contentErased_kept (s : State) : keptBut [.mem, .marks, .accs, .rewritten] s { s with mem := [], marks := [], accs := [], rewritten := [] } :=
  fun p hp => by
  cases p with
  | mem => exact absurd hp (by decide)
  | marks => exact absurd hp (by decide)
  | accs => exact absurd hp (by decide)
  | rewritten => exact absurd hp (by decide)
  | _ => rfl

theorem fullZeroise_kept (cause : Nat) (s : State) : keptBut [.flds, .mem, .marks, .accs, .rewritten] s (fullZeroise cause s) :=
  (keptBut_trans (contentErased_kept s) (Touches.setF (.refl _) (K := oneOf [Reg.SEC_STATUS_ZERO_CAUSE]) (l := [.flds])).parts).mono (by decide)

theorem sec_fullZeroise (cause : Nat) (s : State) : (fullZeroise cause s).sec = s.sec := rfl

theorem getF_fullZeroise_cause {cause : Nat} (h : cause < 16) (s : State) : getF (fullZeroise cause s) Reg.SEC_STATUS_ZERO_CAUSE = cause :=
  (getF_setF_self _ _ _).trans (Nat.mod_eq_of_lt h)

theorem getB_fullZeroise_debug (cause : Nat) (s : State) : getB (fullZeroise cause s) Reg.SEC_STATUS_DEBUG = getB s Reg.SEC_STATUS_DEBUG :=
  congrArg (· == 1) (getF_setF_ne (by decide))

theorem AuthorityDone.ofErased {op : AuthOp} {s u : State} (event : Nat) (hsec : u.sec = { s.sec with ks := authorityStore s.sec.ks op })
    (hparts : keptBut [.flds, .sec] s u) (hdebug : op = .debug → getB u Reg.SEC_STATUS_DEBUG = true) :
    AuthorityDone op s (fullZeroise (authorityCause op) (ledgerSecurity event 0 0 u)) := by
  have hledger : keptBut [.ledger, .ledgerSeq] u (ledgerSecurity event 0 0 u) := ledgerAdd_kept _ _ _
  have hfits : authorityCause op < 16 := by
    cases op with
    | transfer key => exact (by decide : 4 < 16)
    | release => decide
    | debug => decide
  exact ⟨rfl, rfl, rfl, getF_fullZeroise_cause hfits _,
    fun h => (getB_fullZeroise_debug _ _).trans ((getB_congr (hledger .flds (by decide)) _).trans (hdebug h)),
    (sec_fullZeroise _ _).trans ((hledger .sec (by decide)).trans hsec),
    (keptBut_trans (keptBut_trans hparts hledger) (fullZeroise_kept _ _)).mono (by decide)⟩

theorem authorityRun_done (op : AuthOp) (s : State) : AuthorityDone op s (authorityRun op s) := by
  cases op with
  | transfer key => exact .ofErased 2 (sec_putKs s _) (putKs_touches s _).parts fun h => by cases h
  | release => exact .ofErased 2 (sec_putKs s _) (putKs_touches s _).parts fun h => by cases h
  | debug =>
    have hput := putKs_touches s { s.sec.ks with debugSeen := true }
    have hset : Touches [.flds] (oneOf [Reg.SEC_STATUS_DEBUG]) (putKs s { s.sec.ks with debugSeen := true })
        (setF (putKs s { s.sec.ks with debugSeen := true }) Reg.SEC_STATUS_DEBUG 1) := .setF (.refl _)
    exact .ofErased 1 ((hset.parts .sec (by decide)).trans (sec_putKs s _)) ((keptBut_trans hput.parts hset.parts).mono (by decide))
      fun _ => getB_setF_one _ (by decide)

/-- The leases have their END, and the command waits for them. -/
def authorityWaits (op : AuthOp) (s : State) : State := { endAll s with sec.authOp := some op }

theorem sec_authorityWaits (op : AuthOp) (s : State) : (authorityWaits op s).sec = { s.sec with ks := endedStore s, authOp := some op } :=
  congrArg (fun x : SecSt => { x with authOp := some op }) (sec_endAll s)

theorem authorityWaits_kept (op : AuthOp) (s : State) : keptBut [.flds, .sec] s (authorityWaits op s) :=
  (keptBut_trans (endAll_touches s).parts (sec_kept _ _)).mono (by decide)

theorem leaseCount_authorityWaits (op : AuthOp) (s : State) : leaseCount (authorityWaits op s).sec.ks = leaseCount s.sec.ks := by
  rw [sec_authorityWaits]
  exact leaseCount_leasesEnding _ _

theorem startAuthority_eq (op : AuthOp) (s : State) : startAuthority op s =
    if leaseCount s.sec.ks = 0 then authorityRun op { authorityWaits op s with sec.authOp := none } else authorityWaits op s := by
  rw [← leaseCount_authorityWaits op s]
  rfl

/-- What an ownership command leaves where no lease is held. -/
structure OwnershipDone (op : AuthOp) (s t : State) : Prop where
  mem : t.mem = []
  marks : t.marks = []
  accs : t.accs = []
  cause : getF t Reg.SEC_STATUS_ZERO_CAUSE = authorityCause op
  debug : op = .debug → getB t Reg.SEC_STATUS_DEBUG = true
  ks : ∃ r f, t.sec.ks = { authorityStore (endedStore s) op with rollback := r, secFloor := f }
  authOp : t.sec.authOp = none
  nonce : t.sec.nonce = s.sec.nonce
  out : t.out = .mgmt 443 [0] :: s.out
  parts : keptBut [.flds, .sec, .out, .ledger, .ledgerSeq, .mem, .marks, .accs, .rewritten] s t

theorem ownershipDone {op : AuthOp} {s : State} (h : leaseCount s.sec.ks = 0) :
    OwnershipDone op s (transactionRun (startAuthority op (done s))) := by
  have hnow : startAuthority op (done s) = authorityRun op { authorityWaits op (done s) with sec.authOp := none } :=
    (startAuthority_eq op (done s)).trans (if_pos h)
  rw [hnow]
  have hsec : ({ authorityWaits op (done s) with sec.authOp := none } : State).sec = { s.sec with ks := endedStore s, authOp := none } :=
    congrArg (fun x : SecSt => { x with authOp := none }) (sec_authorityWaits op (done s))
  have hkept : keptBut [.flds, .sec, .out] s ({ authorityWaits op (done s) with sec.authOp := none } : State) :=
    (keptBut_trans (keptBut_trans (emit_kept s _) (authorityWaits_kept op (done s))) (sec_kept _ _)).mono (by decide)
  have hout : ({ authorityWaits op (done s) with sec.authOp := none } : State).out = .mgmt 443 [0] :: s.out :=
    (authorityWaits_kept op (done s) .out (by decide)).trans rfl
  revert hsec hkept hout
  generalize ({ authorityWaits op (done s) with sec.authOp := none } : State) = u
  intro hsec hkept hout
  obtain ⟨hmem, hmarks, haccs, hcause, hdebug, hdone, hparts⟩ := authorityRun_done op u
  have hraised := transactionRun_raises (authorityRun op u)
  obtain ⟨x, r, f, hrun⟩ := hraised.sec
  refine ⟨?_, ?_, ?_, (hraised.touches.getF (by decide)).trans hcause, fun hd => (hraised.touches.getB (by decide)).trans (hdebug hd),
    ⟨r, f, ?_⟩, ?_, ?_, ?_, (keptBut_trans (keptBut_trans hkept hparts) hraised.touches.parts).mono (by decide)⟩
  · exact (hraised.touches.parts .mem (by decide)).trans hmem
  · exact (hraised.touches.parts .marks (by decide)).trans hmarks
  · exact (hraised.touches.parts .accs (by decide)).trans haccs
  · rw [hrun, hdone, hsec]
  · rw [hrun, hdone, hsec]
  · rw [hrun, hdone, hsec]
  · exact (out_transactionRun _).trans ((hparts .out (by decide)).trans hout)

/-- What an ownership command leaves where leases are held. -/
theorem ownershipWaits {op : AuthOp} {s : State} (h : leaseCount s.sec.ks ≠ 0) :
    let t := transactionRun (startAuthority op (done s))
    t.sec.authOp = some op ∧ t.sec.ks.owner = s.sec.ks.owner ∧ (∀ l ∈ t.sec.ks.leases, l.st ≠ 0 → ∃ e, l.endStep = some e ∧ e ≤ nextStep s) ∧
      t.out = .mgmt 443 [0] :: s.out ∧ keptBut [.flds, .sec, .out] s t := by
  have hwait : startAuthority op (done s) = authorityWaits op (done s) := (startAuthority_eq op (done s)).trans (if_neg h)
  rw [hwait]
  have hraised := transactionRun_raises (authorityWaits op (done s))
  have hwaits := authorityWaits_kept op (done s)
  obtain ⟨x, r, f, hrun⟩ := hraised.sec
  rw [sec_authorityWaits] at hrun
  refine ⟨?_, ?_, fun l hl => ?_, ?_, (keptBut_trans (keptBut_trans (emit_kept s _) hwaits) hraised.touches.parts).mono (by decide)⟩
  · rw [hrun]
  · rw [hrun]
    rfl
  · rw [hrun] at hl
    exact mem_leasesEnding (n := nextStep s) hl
  · exact (out_transactionRun _).trans (hwaits .out (by decide))

section
variable {s : State} {sess : Nat} (hm : mgmtAlive s = true)
include hm

theorem exec_transferOwnership (hp : sessionParty s sess = some .owner) (key : List Nat) : exec (.transferOwnership sess key) s =
    .next (transactionRun (if s.sec.authOp.isSome then refuse 0x23 0 s else if 16 ≤ s.sec.ks.ownerSlots then refuse 0x10 0x1B s
      else startAuthority (.transfer key) (done s))) := congrArg Host.Outcome.next (asParty_runs hm hp rfl)

theorem exec_releaseOwnership (hp : sessionParty s sess = some .owner) : exec (.releaseOwnership sess) s =
    .next (transactionRun (if s.sec.authOp.isSome then refuse 0x23 0 s else startAuthority .release (done s))) :=
  congrArg Host.Outcome.next (asParty_runs hm hp rfl)

/-- The party that debugs is the Owner or service. -/
theorem asParty_debug {f : State → State} (hp : sessionParty s sess = some .owner ∨ sessionParty s sess = some .service) :
    asParty sess isDebugParty s f = transactionRun (f s) := by
  rcases hp with hp | hp
  · exact asParty_runs hm hp rfl
  · exact asParty_runs hm hp rfl

/-- The conditions of an unlock beside its nonce. -/
def mayUnlock (mio own : Bool) (s : State) : Bool := mio && own && !s.sec.ks.owner.isEmpty && !s.sec.ks.debugDisable && s.sec.authOp.isNone

omit hm in
theorem mayUnlock_iff {mio own : Bool} : mayUnlock mio own s = true ↔
    mio = true ∧ own = true ∧ s.sec.ks.owner ≠ [] ∧ s.sec.ks.debugDisable = false ∧ s.sec.authOp = none := by
  simp [mayUnlock, and_assoc]

theorem exec_debugUnlock (hp : sessionParty s sess = some .owner ∨ sessionParty s sess = some .service) (mio own : Bool) :
    exec (.debugUnlock sess mio own) s = .next (transactionRun (if s.sec.nonce.isNone then refuse 0x23 0 s else
      if mayUnlock mio own s then startAuthority .debug (done { s with sec.nonce := none }) else refuse 0x23 0 { s with sec.nonce := none })) :=
  congrArg Host.Outcome.next (asParty_debug hm hp)

theorem exec_debugUnlock_refused (hp : sessionParty s sess = some .owner ∨ sessionParty s sess = some .service) {mio own : Bool}
    (h : s.sec.nonce = none ∨ mio = false ∨ own = false ∨ s.sec.ks.owner = [] ∨ s.sec.ks.debugDisable = true ∨ s.sec.authOp ≠ none) :
    exec (.debugUnlock sess mio own) s = .next (transactionRun (refuse 0x23 0 { s with sec.nonce := none })) := by
  rw [exec_debugUnlock hm hp]
  by_cases hn : s.sec.nonce = none
  · have hsame : { s with sec.nonce := none } = s := by
      have hsec : { s.sec with nonce := none } = s.sec := by rw [← hn]
      rw [hsec]
    rw [hsame, if_pos (by rw [hn]; rfl)]
  · have hnot : ¬ mayUnlock mio own s = true := fun hmay => by
      obtain ⟨rfl, rfl, howner, hdis, hop⟩ := mayUnlock_iff.mp hmay
      simp_all
    rw [if_neg (by simpa using hn), if_neg hnot]

theorem exec_debugChallenge (hp : sessionParty s sess = some .owner ∨ sessionParty s sess = some .service) :
    exec (.debugChallenge sess) s = .next (transactionRun (answer 453 (leBytes 32 (Config.nonce s.fresh).toNat)
      { s with sec.nonce := some (leBytes 32 (Config.nonce s.fresh).toNat), fresh := s.fresh + 1 })) :=
  congrArg Host.Outcome.next (asParty_debug hm hp)

end

theorem nonceDrawn_kept (s : State) (x : SecSt) (n : Nat) : keptBut [.sec, .fresh] s { s with sec := x, fresh := n } :=
  (keptBut_trans (sec_kept s x) (fresh_kept { s with sec := x } n)).mono (by decide)

/-! ### The ownership commands together -/

/-- R443, R453: an ownership command that its session may give at once. -/
def OwnershipBegun (s : State) (sess : Nat) (key : List Nat) (c : Instr) (op : AuthOp) (cause : Nat) : Prop :=
  (sessionParty s sess = some .owner ∧ c = .transferOwnership sess key ∧ op = .transfer key ∧ cause = 4 ∧ s.sec.ks.ownerSlots < 16) ∨
  (sessionParty s sess = some .owner ∧ c = .releaseOwnership sess ∧ op = .release ∧ cause = 4) ∨
  (sessionParty s sess = some .owner ∨ sessionParty s sess = some .service) ∧ c = .debugUnlock sess true true ∧ op = .debug ∧ cause = 3 ∧
    s.sec.nonce ≠ none ∧ s.sec.ks.owner ≠ [] ∧ s.sec.ks.debugDisable = false

/-- The nonce that an ownership command leaves. -/
def nonceAfter (op : AuthOp) (s : State) : Option (List Nat) := if op = .debug then none else s.sec.nonce

theorem exec_ownershipBegun {s : State} {sess : Nat} {key : List Nat} {c : Instr} {op : AuthOp} {cause : Nat} (hm : mgmtAlive s = true)
    (hop : s.sec.authOp = none) (h : OwnershipBegun s sess key c op cause) : cause = authorityCause op ∧
      exec c s = .next (transactionRun (startAuthority op (done { s with sec.nonce := nonceAfter op s }))) := by
  have hfree : ¬ s.sec.authOp.isSome = true := by rw [hop]; decide
  obtain ⟨hp, rfl, rfl, rfl, hroom⟩ | ⟨hp, rfl, rfl, rfl⟩ | ⟨hp, rfl, rfl, rfl, hnonce, howner, hdis⟩ := h
  · rw [exec_transferOwnership hm hp, if_neg hfree, if_neg (by omega)]
    exact ⟨rfl, rfl⟩
  · rw [exec_releaseOwnership hm hp, if_neg hfree]
    exact ⟨rfl, rfl⟩
  · rw [exec_debugUnlock hm hp, if_neg (by simpa using hnonce), if_pos (mayUnlock_iff.mpr ⟨rfl, rfl, howner, hdis, hop⟩)]
    exact ⟨rfl, rfl⟩

theorem ownershipBegun_free {s : State} {sess : Nat} {key : List Nat} {c : Instr} {op : AuthOp} {cause : Nat} (hm : mgmtAlive s = true)
    (hop : s.sec.authOp = none) (h : OwnershipBegun s sess key c op cause) (hfree : leaseCount s.sec.ks = 0) : ∃ t, exec c s = .next t ∧
      t.mem = [] ∧ t.marks = [] ∧ t.accs = [] ∧ getF t Reg.SEC_STATUS_ZERO_CAUSE = cause ∧
      t.sec.authOp = none ∧ (op = .transfer key → t.sec.ks.owner = key ∧ t.sec.ks.ownerSlots = s.sec.ks.ownerSlots + 1 ∧ t.sec.ks.app = []) ∧
      (op = .release → t.sec.ks.owner = [] ∧ t.sec.ks.app = []) ∧
      (op = .debug → getB t Reg.SEC_STATUS_DEBUG = true ∧ t.sec.ks.debugSeen = true ∧ t.sec.nonce = none ∧ t.sec.ks.owner = s.sec.ks.owner) ∧
      t.out = .mgmt 443 [0] :: s.out ∧ keptBut [.flds, .sec, .out, .ledger, .ledgerSeq, .mem, .marks, .accs, .rewritten] s t := by
  obtain ⟨rfl, hexec⟩ := exec_ownershipBegun hm hop h
  obtain ⟨hmem, hmarks, haccs, hcause, hdebug, ⟨r, f, hks⟩, hauth, hnonce, hout, hparts⟩ :=
    ownershipDone (op := op) (s := { s with sec.nonce := nonceAfter op s }) hfree
  refine ⟨_, hexec, hmem, hmarks, haccs, hcause, hauth, fun h => ?_, fun h => ?_, fun h => ⟨hdebug h, ?_, ?_, ?_⟩, hout,
    (keptBut_trans (sec_kept s _) hparts).mono (by decide)⟩
  · subst h
    rw [hks]
    exact ⟨rfl, rfl, rfl⟩
  · subst h
    rw [hks]
    exact ⟨rfl, rfl⟩
  · subst h
    rw [hks]
    rfl
  · subst h
    exact hnonce
  · subst h
    rw [hks]
    rfl

theorem ownershipBegun_held {s : State} {sess : Nat} {key : List Nat} {c : Instr} {op : AuthOp} {cause : Nat} (hm : mgmtAlive s = true)
    (hop : s.sec.authOp = none) (h : OwnershipBegun s sess key c op cause) (hheld : leaseCount s.sec.ks ≠ 0) : ∃ t, exec c s = .next t ∧
      t.sec.authOp = some op ∧ t.sec.ks.owner = s.sec.ks.owner ∧
      (∀ l ∈ t.sec.ks.leases, l.st ≠ 0 → ∃ e, l.endStep = some e ∧ e ≤ nextStep s) ∧ t.out = .mgmt 443 [0] :: s.out ∧
      keptBut [.flds, .sec, .out] s t := by
  obtain ⟨-, hexec⟩ := exec_ownershipBegun hm hop h
  obtain ⟨hauth, howner, hends, hout, hparts⟩ := ownershipWaits (op := op) (s := { s with sec.nonce := nonceAfter op s }) hheld
  exact ⟨_, hexec, hauth, howner, hends, hout, (keptBut_trans (sec_kept s _) hparts).mono (by decide)⟩

/-! ### The Owner's other commands (R443, R452, R454, R469, R473) -/

section
variable {s : State} {sess : Nat} (hm : mgmtAlive s = true) (hp : sessionParty s sess = some .owner)
include hm hp

theorem exec_setFwPolicy (mv : List Nat) (cs : Bool) : exec (.setFwPolicy sess mv cs) s =
    .next (transactionRun (done (putKs s { s.sec.ks with minVersion := (mv ++ [0, 0, 0, 0]).take 4, countersign := cs }))) :=
  congrArg Host.Outcome.next (asParty_runs hm hp rfl)

theorem exec_setAppKey (key : List Nat) : exec (.setAppKey sess key) s =
    .next (transactionRun (done (putKs s { s.sec.ks with app := key }))) := congrArg Host.Outcome.next (asParty_runs hm hp rfl)

theorem exec_glitchAck : exec (.glitchAck sess) s = .next (transactionRun (done (putKs s { s.sec.ks with glitchAck := 0 }))) :=
  congrArg Host.Outcome.next (asParty_runs hm hp rfl)

theorem exec_selftestExtended : exec (.selftestExtended sess) s = .next (transactionRun
    (if leaseCount s.sec.ks = 0 then done (putKs s { s.sec.ks with armed := true }) else refuse 0x23 0 s)) :=
  congrArg Host.Outcome.next (asParty_runs hm hp rfl)

theorem exec_ledgerRead (first count : Nat) : exec (.ledgerRead sess first count) s = .next (transactionRun
    (if count = 0 ∨ 256 < count then refuse 0x23 0 s
     else answer 473 ((s.ledger.reverse.filter fun r => decide (first ≤ r.seq) && decide (r.seq < first + count)).flatMap recordBytes) s)) :=
  congrArg Host.Outcome.next (asParty_runs hm hp rfl)

theorem exec_eraseReportRead {lease : Nat} {r : EraseReport} (hr : s.sec.ks.reports.find? (fun x => x.lease == lease) = some r) :
    exec (.eraseReportRead sess lease) s = .next (transactionRun (answer 452 (eraseBytes r) s)) := by
  refine congrArg Host.Outcome.next ((asParty_runs hm hp rfl).trans (congrArg transactionRun ?_))
  rw [hr]

theorem exec_eraseReportRead_none {lease : Nat} (hr : ∀ r ∈ s.sec.ks.reports, r.lease ≠ lease) :
    exec (.eraseReportRead sess lease) s = .next (transactionRun (refuse 0x23 0 s)) := by
  have hnone : s.sec.ks.reports.find? (fun x => x.lease == lease) = none := List.find?_eq_none.mpr fun r h => by simpa using hr r h
  refine congrArg Host.Outcome.next ((asParty_runs hm hp rfl).trans (congrArg transactionRun ?_))
  rw [hnone]

end

/-- What a command that writes only the key store leaves. -/
theorem storeIs_done_did {k : KeyStore} {s : State} (howner : k.owner = s.sec.ks.owner) (hleases : k.leases = s.sec.ks.leases) :
    let t := transactionRun (done (putKs s k))
    t.sec.ks.owner = s.sec.ks.owner ∧ t.sec.ks.leases = s.sec.ks.leases ∧ t.out = .mgmt 443 [0] :: s.out ∧ keptBut [.flds, .sec, .out] s t := by
  obtain ⟨⟨hparts, ⟨x, r, f, hsec⟩, -⟩, hout⟩ := storeIs_done k s
  refine ⟨?_, ?_, hout, hparts⟩
  · rw [hsec, ← howner]
  · rw [hsec, ← hleases]

/-! ### The statement -/

/-- Settles O57: a command runs as its session's party, and an ownership command takes effect or waits by the leases held. -/
theorem ownershipDebugAndReports : Obligations.OwnershipDebugAndReports := by
  unfold Obligations.OwnershipDebugAndReports
  intro s sess first count lease key mv cs tok mio own hm
  refine ⟨fun hno => ?_, fun hno => ?_, fun hno hns => ?_, fun hp => ⟨?_, ?_, ?_⟩,
    fun c op cause hop hbegun => ⟨ownershipBegun_free hm hop hbegun, ownershipBegun_held hm hop hbegun⟩, fun hp hop => ?_, fun hp hop hfull => ?_,
    fun hp => ⟨fun h => ?_, ?_⟩, fun hp => ?_⟩
  · have hrefused (f : State → State) : (Host.Outcome.next (asParty sess isOwner s f) : Res) = .next (emit s (.mgmt 437 [0x23, 0])) :=
      congrArg Host.Outcome.next (asParty_refused hm fun p h => isOwner_eq_false fun e => hno (by rw [h, e]))
    simp only [List.forall_mem_cons, List.not_mem_nil, false_implies, implies_true, and_true]
    exact ⟨hrefused _, hrefused _, hrefused _, hrefused _, hrefused _, hrefused _, hrefused _, hrefused _⟩
  · exact congrArg Host.Outcome.next (asParty_refused hm fun p h => beq_eq_false_iff_ne.mpr fun e => hno (by rw [h, e]))
  · have hrefused (f : State → State) : (Host.Outcome.next (asParty sess isDebugParty s f) : Res) = .next (emit s (.mgmt 437 [0x23, 0])) :=
      congrArg Host.Outcome.next
        (asParty_refused hm fun p h => isDebugParty_eq_false (fun e => hno (by rw [h, e])) fun e => hns (by rw [h, e]))
    exact ⟨hrefused _, hrefused _⟩
  · rintro rfl
    exact ⟨_, exec_takeOwnership_noToken hm hp, denied_run _ _ s⟩
  · rintro rfl hfull
    exact ⟨_, exec_takeOwnership_full hm hp hfull, denied_run _ _ s⟩
  · rintro x rfl hroom hx
    obtain ⟨⟨hparts, ⟨y, r, f, hsec⟩, hshown⟩, hout⟩ :=
      storeIs_done_recorded { s.sec.ks with owner := x.key, ownerSlots := s.sec.ks.ownerSlots + 1 } 2 0 0 s
    exact ⟨_, exec_takeOwnership hm hp hx hroom, by rw [hsec], by rw [hsec], hshown.owned, hshown.slot.trans (Nat.mod_eq_of_lt hroom),
      by rw [hsec], hout, hparts⟩
  · have hbusy : s.sec.authOp.isSome = true := Option.isSome_iff_ne_none.mpr hop
    exact ⟨⟨_, (exec_transferOwnership hm hp key).trans (next_run (if_pos hbusy)), denied_run _ _ s⟩,
      _, (exec_releaseOwnership hm hp).trans (next_run (if_pos hbusy)), denied_run _ _ s⟩
  · exact ⟨_, (exec_transferOwnership hm hp key).trans (next_run ((if_neg (by rw [hop]; decide)).trans (if_pos hfull))), denied_run _ _ s⟩
  · obtain ⟨x, r, f, hsec⟩ := sec_transactionRun (refuse 0x23 0 { s with sec.nonce := none })
    obtain ⟨hout, -, -, -, hparts⟩ := denied_run 0x23 0 { s with sec.nonce := none }
    exact ⟨_, exec_debugUnlock_refused hm hp h, by rw [hsec]; rfl, hout, (keptBut_trans (sec_kept s _) hparts).mono (by decide)⟩
  · obtain ⟨x, r, f, hsec⟩ := sec_transactionRun (answer 453 (leBytes 32 (Config.nonce s.fresh).toNat)
      { s with sec.nonce := some (leBytes 32 (Config.nonce s.fresh).toNat), fresh := s.fresh + 1 })
    obtain ⟨hout, hparts⟩ := answered_run 453 (leBytes 32 (Config.nonce s.fresh).toNat)
      { s with sec.nonce := some (leBytes 32 (Config.nonce s.fresh).toNat), fresh := s.fresh + 1 }
    exact ⟨_, exec_debugChallenge hm hp, by rw [hsec]; rfl, hparts .fresh (by decide), hout,
      (keptBut_trans (nonceDrawn_kept s _ _) hparts).mono (by decide)⟩
  · refine ⟨⟨_, exec_setFwPolicy hm hp mv cs, ?_⟩, ⟨_, exec_setAppKey hm hp key, ?_⟩, ⟨_, exec_glitchAck hm hp, ?_⟩, fun hfree => ?_,
      fun hheld => ?_, fun hbad => ?_, fun hpos hfew => ?_, fun hnone => ⟨_, exec_eraseReportRead_none hm hp hnone, denied_run _ _ s⟩,
      fun r hr => ⟨_, exec_eraseReportRead hm hp hr, answered_run _ _ s⟩⟩
    · obtain ⟨⟨-, ⟨x, r, f, hsec⟩, hshown⟩, -⟩ :=
        storeIs_done { s.sec.ks with minVersion := (mv ++ [0, 0, 0, 0]).take 4, countersign := cs } s
      exact ⟨by rw [hsec], by rw [hsec], hshown.countersign, storeIs_done_did rfl rfl⟩
    · obtain ⟨⟨-, ⟨x, r, f, hsec⟩, -⟩, -⟩ := storeIs_done { s.sec.ks with app := key } s
      exact ⟨by rw [hsec], storeIs_done_did rfl rfl⟩
    · obtain ⟨⟨-, ⟨x, r, f, hsec⟩, hshown⟩, -⟩ := storeIs_done { s.sec.ks with glitchAck := 0 } s
      exact ⟨by rw [hsec], hshown.glitches, hshown.locked, by rw [hsec], storeIs_done_did rfl rfl⟩
    · obtain ⟨⟨-, ⟨x, r, f, hsec⟩, -⟩, -⟩ := storeIs_done { s.sec.ks with armed := true } s
      exact ⟨_, (exec_selftestExtended hm hp).trans (next_run (if_pos hfree)), by rw [hsec], storeIs_done_did rfl rfl⟩
    · exact ⟨_, (exec_selftestExtended hm hp).trans (next_run (if_neg hheld)), denied_run _ _ s⟩
    · exact ⟨_, (exec_ledgerRead hm hp first count).trans (next_run (if_pos hbad)), denied_run _ _ s⟩
    · exact ⟨_, (exec_ledgerRead hm hp first count).trans (next_run (if_neg (by omega))), answered_run _ _ s⟩

end Sys2Proof.Machine
end

