-- ==== Sys2Proof/Proofs/ReplaySessions.lean ====
section
/-!
SUPPORT. Proofs/ReplaySessions.lean: the end of a replay command, the prefixes that a session commits and hides, the capture command, and
O41 (R344 to R347, R446).
-/
namespace Sys2Proof.Machine

set_option Elab.async false

/-! ### The end of a command (R434) -/

/-- The registers that the end of a replay command may change. -/
def replayKey (k : Nat) : Bool := irqKey k || oneOf [Reg.CTX_REPLAY_CMD_STATUS, Reg.CTX_REPLAY_CMD_RESOURCE] k

theorem replayStatus_touches (st res : Nat) (s : State) : Touches irqParts replayKey s (replayStatus st res s) :=
  .irqBoth (.setF (.setF (.refl s))) (by decide) fun _ e => (Bool.or_eq_false_iff.mp e).1

theorem getF_replayStatus {st : Nat} (h : st < 256) (res : Nat) (s : State) : getF (replayStatus st res s) Reg.CTX_REPLAY_CMD_STATUS = st := by
  have hirq : Touches irqParts irqKey (setF (setF s Reg.CTX_REPLAY_CMD_STATUS st) Reg.CTX_REPLAY_CMD_RESOURCE res) (replayStatus st res s) :=
    .irqBoth (.refl _) (by decide) fun _ => id
  rw [hirq.getF (by decide), getF_setF_ne (by decide), getF_setF_self]
  exact Nat.mod_eq_of_lt h

theorem prefs_kept (s : State) (x : List (Nat × Pref)) : keptBut [.prefs] s { s with prefs := x } := fun p hp => by
  cases p with
  | prefs => exact absurd hp (by decide)
  | _ => rfl

/-! ### Prefixes that leave (R346) -/

/-- Outside tree mode a committed entry that leaves takes no other with it, and is gone. -/
theorem prefs_dropPref {s : State} (h : prefMode s ≠ 1) (n : Nat) : (dropPref n s).prefs = s.prefs.filter fun q => q.1 != n := by
  unfold dropPref
  cases hp : alGet s.prefs n with
  | none =>
    refine (List.filter_eq_self.mpr fun q hq => ?_).symm
    rw [bne_iff_ne]
    rintro rfl
    exact not_mem_of_alGet hp q.2 hq
  | some p =>
    dsimp only
    rw [if_neg (by simp [h])]
    refine List.filter_congr fun q _ => ?_
    simp [h, bne, Bool.beq_eq_decide_eq]

theorem prefMode_dropPref (n : Nat) (s : State) : prefMode (dropPref n s) = prefMode s := by
  rw [prefMode, prefMode, show (dropPref n s).img = s.img from (dropPref_touches n s).parts .img (by decide)]

theorem foldl_dropPref_touches (l : List (Nat × Pref)) (s : State) : Touches prefParts storeKey s (l.foldl (fun t p => dropPref p.1 t) s) :=
  .foldl (.refl s) fun u p => dropPref_touches p.1 u

theorem prefs_foldl_dropPref (l : List (Nat × Pref)) {s : State} (h : prefMode s ≠ 1) {q r : Nat × Pref} (hq : q ∈ l)
    (hr : r ∈ (l.foldl (fun t p => dropPref p.1 t) s).prefs) : r.1 ≠ q.1 := by
  have hsub : ∀ (l : List (Nat × Pref)) (s : State), prefMode s ≠ 1 → (l.foldl (fun t p => dropPref p.1 t) s).prefs ⊆ s.prefs := by
    intro l
    induction l with
    | nil => exact fun s _ => List.Subset.refl _
    | cons p l ih =>
      intro s h
      have hone : (dropPref p.1 s).prefs ⊆ s.prefs := by
        rw [prefs_dropPref h]
        exact List.filter_subset_self _
      exact fun x hx => hone (ih (dropPref p.1 s) (by rwa [prefMode_dropPref]) hx)
  induction l generalizing s with
  | nil => cases hq
  | cons p l ih =>
    have hnext : prefMode (dropPref p.1 s) ≠ 1 := by rwa [prefMode_dropPref]
    rcases List.mem_cons.mp hq with rfl | hq
    · have hleft := hsub l (dropPref q.1 s) hnext hr
      rw [prefs_dropPref h] at hleft
      simpa using (List.mem_filter.mp hleft).2
    · exact ih hnext hq hr

/-! ### Sessions (R344, R346) -/

/-- The prefixes committed under FRESH leave. -/
def sessionDropped (x : Session) (s : State) : State :=
  if x.fresh then (s.prefs.filter fun p => p.2.session).foldl (fun t p => dropPref p.1 t) s else s

/-- What is hidden returns. -/
def sessionClosed (s : State) : State :=
  setF { s with ctl.replay := none, prefs := s.prefs.map fun p => (p.1, { p.2 with hidden := false, session := false }) } Reg.CTX_REPLAY_CMD_MODE 0

theorem endSession_eq (x : Session) (s : State) : endSession x s = sessionClosed (sessionDropped x s) := rfl

theorem sessionDropped_touches (x : Session) (s : State) : Touches prefParts storeKey s (sessionDropped x s) :=
  .ite (foldl_dropPref_touches _ s) (.refl s)

theorem ctlPrefs_kept (s : State) (x : CtlSt) (l : List (Nat × Pref)) : keptBut [.ctl, .prefs] s { s with ctl := x, prefs := l } :=
  (keptBut_trans (ctl_kept s x) (prefs_kept { s with ctl := x } l)).mono (by decide)

theorem sessionClosed_kept (s : State) : keptBut [.ctl, .prefs, .flds] s (sessionClosed s) :=
  (keptBut_trans (ctlPrefs_kept s _ _) (keptBut_setF _ _ _)).mono (by decide)

/-- The parts that a session's end may change. -/
def sessionParts : List Part := .ctl :: .prefs :: .extents :: .pages :: .mem :: .marks :: irqParts

/-- What LEAVE leaves. -/
structure SessionLeft (x : Session) (s t : State) : Prop where
  replay : t.ctl.replay = none
  mode : getF t Reg.CTX_REPLAY_CMD_MODE = 0
  status : getF t Reg.CTX_REPLAY_CMD_STATUS = 0
  shown : ∀ q ∈ t.prefs, q.2.hidden = false ∧ q.2.session = false
  all : x.fresh = false → t.prefs = s.prefs.map fun q => (q.1, { q.2 with hidden := false, session := false })
  gone : x.fresh = true → prefMode s ≠ 1 → ∀ q ∈ s.prefs, q.2.session = true → ∀ r ∈ t.prefs, r.1 ≠ q.1
  parts : keptBut sessionParts s t

theorem endSession_left (x : Session) (s : State) : SessionLeft x s (replayStatus 0 0 (endSession x s)) := by
  have hdrop := sessionDropped_touches x s
  have hclose := sessionClosed_kept (sessionDropped x s)
  have hend := replayStatus_touches 0 0 (endSession x s)
  have hprefs : (replayStatus 0 0 (endSession x s)).prefs =
      (sessionDropped x s).prefs.map fun p => (p.1, { p.2 with hidden := false, session := false }) := hend.parts .prefs (by decide)
  have hctl : (replayStatus 0 0 (endSession x s)).ctl = { (sessionDropped x s).ctl with replay := none } := hend.parts .ctl (by decide)
  refine ⟨by rw [hctl], ?_, getF_replayStatus (by decide) 0 _, fun q hq => ?_, fun hx => ?_, fun hx hmode q hq hs r hr => ?_,
    (keptBut_trans (keptBut_trans hdrop.parts hclose) hend.parts).mono (by decide)⟩
  · exact (hend.getF (by decide)).trans (getF_setF_self _ _ _)
  · rw [hprefs] at hq
    obtain ⟨p, -, rfl⟩ := List.mem_map.mp hq
    exact ⟨rfl, rfl⟩
  · rw [hprefs, show sessionDropped x s = s from if_neg (by rw [hx]; decide)]
  · rw [hprefs, show sessionDropped x s = (s.prefs.filter fun p => p.2.session).foldl (fun t p => dropPref p.1 t) s from if_pos hx] at hr
    obtain ⟨p, hp, rfl⟩ := List.mem_map.mp hr
    have hsession : q ∈ s.prefs.filter fun p => p.2.session := List.mem_filter.mpr ⟨hq, hs⟩
    exact prefs_foldl_dropPref (r := p) _ hmode hsession hp

section
variable {s : State} (ha : stageAlive s = true) (p : Port)
include ha

/-- A session is open, and the prefixes before it are hidden under FRESH. -/
def sessionOpened (fresh : Bool) (s : State) : State :=
  let s1 := setB s Reg.CTX_REPLAY_CMD_FRESH fresh
  setF { s1 with ctl.replay := some ⟨fresh, none⟩, prefs := s1.prefs.map fun q => (q.1, { q.2 with hidden := fresh }) } Reg.CTX_REPLAY_CMD_MODE 1

theorem exec_enter (fresh : Bool) (he : isEntry s = true) (hc : s.ctxs = []) (hf : s.ctl.flights = []) (hr : s.ctl.replay = none) :
    exec (.enter p fresh) s = .next (replayStatus 0 0 (sessionOpened fresh s)) := by
  have hfree : allFree s = true := by rw [allFree, hc, hf]; rfl
  refine congrArg Host.Outcome.next ((viaPf0_alive ha p _).trans ?_)
  dsimp only
  rw [if_neg (by rw [he, hfree]; decide), show (setB s Reg.CTX_REPLAY_CMD_FRESH fresh).ctl.replay = none from hr]
  rfl

theorem exec_enter_refused (fresh : Bool) (h : isEntry s = false ∨ s.ctxs ≠ [] ∨ s.ctl.flights ≠ []) :
    exec (.enter p fresh) s = .next (replayStatus 0x23 0 (setB s Reg.CTX_REPLAY_CMD_FRESH fresh)) := by
  refine congrArg Host.Outcome.next ((viaPf0_alive ha p _).trans (if_pos ?_))
  rcases h with h | h | h
  · simp [h]
  · simp [allFree, h]
  · simp [allFree, h]

theorem exec_leave {x : Session} (hr : s.ctl.replay = some x) (hc : s.ctxs = []) :
    exec (.leave p) s = .next (replayStatus 0 0 (endSession x s)) := by
  refine congrArg Host.Outcome.next ((viaPf0_alive ha p _).trans ?_)
  rw [hr, hc]
  rfl

theorem exec_leave_refused (h : s.ctl.replay = none ∨ s.ctxs ≠ []) : exec (.leave p) s = .next (replayStatus 0x23 0 s) := by
  refine congrArg Host.Outcome.next ((viaPf0_alive ha p _).trans ?_)
  cases hr : s.ctl.replay with
  | none => rfl
  | some x =>
    rcases h with h | h
    · rw [hr] at h
      cases h
    · exact if_neg (by simpa using h)

/-! ### Records (R345) -/

/-- The address of a replay record. -/
def replayAddr (s : State) : Nat := getF s Reg.CTX_REPLAY_ADDR_LO * 64 + getF s Reg.CTX_REPLAY_ADDR_HI * 2 ^ 32

theorem exec_submit_busy (host : HostMem) (hb : getB s Reg.CTX_REPLAY_CMD_BUSY = true) : exec (.submit p host) s = .next s :=
  congrArg Host.Outcome.next ((viaPf0_alive ha p _).trans (if_pos hb))

theorem exec_submit {host : HostMem} {hd bs : List Nat} (hb : getB s Reg.CTX_REPLAY_CMD_BUSY = false) (hr : s.ctl.replay ≠ none)
    (hh : hostRead host p (replayAddr s) 64 = some hd) (hbs : hostRead host p (replayAddr s + 64) (64 * fieldAt hd 14 2) = some bs) :
    exec (.submit p host) s = .next (setF { s with ctl.submit := some (p, hd ++ bs) } Reg.CTX_REPLAY_CMD_BUSY 1) := by
  refine congrArg Host.Outcome.next ((viaPf0_alive ha p _).trans ((if_neg (by rw [hb]; decide)).trans ((if_neg (by simpa using hr)).trans ?_)))
  rw [replayAddr] at hh hbs
  dsimp only
  rw [hh]
  dsimp only
  rw [hbs]

theorem exec_submit_refused {host : HostMem} (hb : getB s Reg.CTX_REPLAY_CMD_BUSY = false)
    (h : s.ctl.replay = none ∨ hostRead host p (replayAddr s) 64 = none) : exec (.submit p host) s = .next (replayStatus 0x23 0 s) := by
  refine congrArg Host.Outcome.next ((viaPf0_alive ha p _).trans ((if_neg (by rw [hb]; decide)).trans ?_))
  by_cases hr : s.ctl.replay = none
  · exact if_pos (by rw [hr]; rfl)
  · have hnone := h.resolve_left hr
    rw [replayAddr] at hnone
    refine (if_neg (by simpa using hr)).trans ?_
    dsimp only
    rw [hnone]

/-! ### The capture command (R347, R446) -/

/-- R347, R361, R446: the conditions of a capture. -/
def mayCapture (s : State) (p : Port) (l : Nat) : Bool := (servingOf s).capture && leaseActive s l && leaseBound s l p && ideOk s l p

theorem exec_arm (lease : BitVec 16) (hok : mayCapture s p lease.toNat = true) : exec (.arm p lease) s =
    .next (setB (setB (setF s Reg.CTX_CAPTURE_CTL_LEASE lease.toNat) Reg.CTX_CAPTURE_CTL_ARMED true) Reg.CTX_CAPTURE_CTL_TAKEN false) := by
  refine congrArg Host.Outcome.next ((viaPf0_alive ha p _).trans (if_neg ?_))
  simp only [mayCapture, Bool.and_eq_true] at hok
  obtain ⟨⟨⟨hcap, hactive⟩, hbound⟩, hide⟩ := hok
  simp [hcap, hactive, hbound, hide]

theorem exec_captureArm_refused (lease : BitVec 16) (hok : mayCapture s p lease.toNat = false) : exec (.arm p lease) s =
    .next (irqBoth 2 (captureEnds 0x23 (setF s Reg.CTX_CAPTURE_CTL_LEASE lease.toNat))) := by
  refine congrArg Host.Outcome.next ((viaPf0_alive ha p _).trans (if_pos ?_))
  simp only [mayCapture, Bool.and_eq_false_iff] at hok
  simp only [Bool.or_eq_true, Bool.not_eq_true']
  exact hok

end

theorem sessionOpened_spec (fresh : Bool) (s : State) : (sessionOpened fresh s).ctl = { s.ctl with replay := some ⟨fresh, none⟩ } ∧
    getF (sessionOpened fresh s) Reg.CTX_REPLAY_CMD_MODE = 1 ∧ getB (sessionOpened fresh s) Reg.CTX_REPLAY_CMD_FRESH = fresh ∧
    (sessionOpened fresh s).prefs = s.prefs.map (fun q => (q.1, { q.2 with hidden := fresh })) ∧
    keptBut [.flds, .ctl, .prefs] s (sessionOpened fresh s) :=
  ⟨rfl, getF_setF_self _ _ _, (congrArg (· == 1) (getF_setF_ne (by decide))).trans (getB_setB_self s _ fresh (by decide)), rfl,
    (keptBut_trans (keptBut_trans (keptBut_setF s _ _) (ctlPrefs_kept (setB s Reg.CTX_REPLAY_CMD_FRESH fresh) _ _)) (keptBut_setF _ _ _)).mono
      (by decide)⟩

/-- What a refused replay command leaves. -/
theorem replayRefused {s t : State} (h : keptBut [.flds] s t) : getF (replayStatus 0x23 0 t) Reg.CTX_REPLAY_CMD_STATUS = 0x23 ∧
    keptBut irqParts s (replayStatus 0x23 0 t) :=
  ⟨getF_replayStatus (by decide) 0 t, (keptBut_trans h (replayStatus_touches 0x23 0 t).parts).mono (by decide)⟩

theorem captureArmed_spec (lease : BitVec 16) (s : State) :
    let t := setB (setB (setF s Reg.CTX_CAPTURE_CTL_LEASE lease.toNat) Reg.CTX_CAPTURE_CTL_ARMED true) Reg.CTX_CAPTURE_CTL_TAKEN false
    getB t Reg.CTX_CAPTURE_CTL_ARMED = true ∧ getB t Reg.CTX_CAPTURE_CTL_TAKEN = false ∧ getF t Reg.CTX_CAPTURE_CTL_LEASE = lease.toNat ∧
      regsKept (oneOf [Reg.CTX_CAPTURE_CTL_ARMED, Reg.CTX_CAPTURE_CTL_TAKEN, Reg.CTX_CAPTURE_CTL_LEASE]) s t ∧ keptBut [.flds] s t := by
  have hset : Touches [.flds] (oneOf [Reg.CTX_CAPTURE_CTL_ARMED, Reg.CTX_CAPTURE_CTL_TAKEN, Reg.CTX_CAPTURE_CTL_LEASE]) s
      (setB (setB (setF s Reg.CTX_CAPTURE_CTL_LEASE lease.toNat) Reg.CTX_CAPTURE_CTL_ARMED true) Reg.CTX_CAPTURE_CTL_TAKEN false) :=
    .setF (.setF (.setF (.refl s)))
  refine ⟨(getB_setB_ne (by decide)).trans (getB_setB_self _ _ _ (by decide)), getB_setB_self _ _ _ (by decide), ?_, hset.regs, hset.parts⟩
  rw [setB, setB, getF_setF_ne (by decide), getF_setF_ne (by decide), getF_setF_self]
  exact Nat.mod_eq_of_lt lease.isLt

theorem captureRefused_spec (s : State) : getB (irqBoth 2 (captureEnds 0x23 s)) Reg.CTX_CAPTURE_CTL_ARMED = false ∧
    getF (irqBoth 2 (captureEnds 0x23 s)) Reg.CTX_CAPTURE_CTL_STATUS = 0x23 ∧ keptBut irqParts s (irqBoth 2 (captureEnds 0x23 s)) := by
  have hirq : Touches irqParts irqKey (captureEnds 0x23 s) (irqBoth 2 (captureEnds 0x23 s)) := .irqBoth (.refl _) (by decide) fun _ => id
  have hset : Touches [.flds] (oneOf [Reg.CTX_CAPTURE_CTL_ARMED, Reg.CTX_CAPTURE_CTL_STATUS]) s (captureEnds 0x23 s) := .setF (.setF (.refl s))
  refine ⟨(hirq.getB (by decide)).trans ?_, (hirq.getF (by decide)).trans (getF_setF_self _ _ _),
    (keptBut_trans hset.parts hirq.parts).mono (by decide)⟩
  exact (congrArg (· == 1) (getF_setF_ne (by decide))).trans (getB_setB_self s _ false (by decide))

/-! ### The statement -/

/-- Settles O41: each command ends by what its session, its record or its lease allows. -/
theorem replaySessionsAndCapture : Obligations.ReplaySessionsAndCapture := by
  unfold Obligations.ReplaySessionsAndCapture
  intro s p ha
  refine ⟨fun fresh he hc hf hr => ?_, fun fresh h => ⟨_, exec_enter_refused ha p fresh h, replayRefused (keptBut_setF s _ _)⟩, fun x hr hc => ?_,
    fun h => ⟨_, exec_leave_refused ha p h, replayRefused (keptBut_refl _ _)⟩,
    fun host => ⟨exec_submit_busy ha p host, fun hb => ⟨fun hd bs hr hh hbs => ?_, fun h => ⟨_, exec_submit_refused ha p hb h, replayRefused (keptBut_refl _ _)⟩⟩⟩,
    fun lease => ⟨fun hok => ⟨_, exec_arm ha p lease hok, captureArmed_spec lease s⟩, fun hok => ?_⟩⟩
  · obtain ⟨hctl, hmode, hfresh, hprefs, hparts⟩ := sessionOpened_spec fresh s
    have hend := replayStatus_touches 0 0 (sessionOpened fresh s)
    exact ⟨_, exec_enter ha p fresh he hc hf hr, (hend.parts .ctl (by decide)).trans hctl, (hend.getF (by decide)).trans hmode,
      getF_replayStatus (by decide) 0 _, (hend.getB (by decide)).trans hfresh, (hend.parts .prefs (by decide)).trans hprefs,
      (keptBut_trans hparts hend.parts).mono (by decide)⟩
  · obtain ⟨hreplay, hmode, hstatus, hshown, hall, hgone, hparts⟩ := endSession_left x s
    exact ⟨_, exec_leave ha p hr hc, hreplay, hmode, hstatus, hshown, hall, hgone, hparts⟩
  · have hset : Touches [.flds, .ctl] (oneOf [Reg.CTX_REPLAY_CMD_BUSY]) s
        (setF { s with ctl.submit := some (p, hd ++ bs) } Reg.CTX_REPLAY_CMD_BUSY 1) := .setF (.keep (.refl s) (ctl_kept s _))
    exact ⟨_, exec_submit ha p hb hr hh hbs, rfl, getB_setF_one _ (by decide), hset.regs, hset.parts⟩
  · obtain ⟨harmed, hstatus, hparts⟩ := captureRefused_spec (setF s Reg.CTX_CAPTURE_CTL_LEASE lease.toNat)
    exact ⟨_, exec_captureArm_refused ha p lease hok, harmed, hstatus, (keptBut_trans (keptBut_setF s _ _) hparts).mono (by decide)⟩

end Sys2Proof.Machine
end

