-- ==== Sys2Proof/Proofs/FabricRequests.lean ====
section
/-!
SUPPORT. Proofs/FabricRequests.lean: requests that arrive over Trelmet, held against their flow, performed in their job's window, denied or
answered again, and O43 (R305, R308, R311 to R315, R318 to R320, R329).
-/
namespace Sys2Proof.Machine

set_option Elab.async false

/-! ### Arrival (R304, R329) -/

section
variable {s u v : State} {port : Fin 8} {kind time : Nat} {bytes : List Nat} {p : Pkt}

/-- What an arrival may bring: nothing, or the packet of the bytes, of the command's kind. -/
def ArrivesAs (kind : Nat) (bytes : List Nat) (r : Option Pkt × State) : Prop :=
  r.1 = none ∨ bytes.getD 0 0 = kind ∧ r.1 = some (parsePkt bytes)

theorem arrive_as (port : Fin 8) (kind : Nat) (bytes : List Nat) (time : Nat) (s : State) :
    ArrivesAs kind bytes (arrive port kind bytes time s) := by
  unfold arrive
  refine iteInduction (fun _ => .inl rfl) fun hok => iteInduction (fun _ => .inl rfl) fun _ => iteInduction (fun _ => .inl rfl) fun _ =>
    iteInduction (fun _ => .inr ⟨not_not.mp fun h => hok (.inl h), rfl⟩) fun _ => iteInduction (fun _ => .inl rfl) fun _ => .inl rfl

/-- A packet that arrives is of its command's kind, and its source is a module. -/
theorem arrive_some (h : arrive port kind bytes time s = (some p, u)) : p.kind = kind ∧ p.source < 128 := by
  obtain hnone | ⟨hkind, hsome⟩ := arrive_as port kind bytes time s
  · rw [h] at hnone
    cases hnone
  · rw [h] at hsome
    obtain rfl := Option.some.inj hsome
    exact ⟨hkind, Nat.mod_lt _ (by decide)⟩

/-! ### The flow (R318) -/

theorem flowCheck_eq (hv : p.vc ≠ 3) : flowCheck p u =
    if seqFrom (smGet 0 u.fab.rx (rxKey p)) p.seq = 0 then
      (.fresh, { u with fab.rx := smSet 0 u.fab.rx (rxKey p) ((smGet 0 u.fab.rx (rxKey p) + 1) % 2 ^ 32) })
    else if 2 ^ 31 ≤ seqFrom (smGet 0 u.fab.rx (rxKey p)) p.seq then (.again, bump u Reg.FAB_DUP 1) else (.drop, u) := if_neg hv

theorem seqFrom_eq_zero {e q : Nat} (he : e < 2 ^ 32) (hq : q < 2 ^ 32) : seqFrom e q = 0 ↔ q = e := by
  unfold seqFrom
  omega

theorem flowCheck_inOrder (hv : p.vc ≠ 3) (hq : p.seq < 2 ^ 32) (he : smGet 0 u.fab.rx (rxKey p) < 2 ^ 32) :
    (p.seq = smGet 0 u.fab.rx (rxKey p) →
      flowCheck p u = (.fresh, { u with fab.rx := smSet 0 u.fab.rx (rxKey p) ((smGet 0 u.fab.rx (rxKey p) + 1) % 2 ^ 32) })) ∧
    (p.seq ≠ smGet 0 u.fab.rx (rxKey p) → 2 ^ 31 ≤ (p.seq + 2 ^ 32 - smGet 0 u.fab.rx (rxKey p)) % 2 ^ 32 →
      flowCheck p u = (.again, bump u Reg.FAB_DUP 1)) ∧
    (p.seq ≠ smGet 0 u.fab.rx (rxKey p) → (p.seq + 2 ^ 32 - smGet 0 u.fab.rx (rxKey p)) % 2 ^ 32 < 2 ^ 31 → flowCheck p u = (.drop, u)) := by
  have hzero := seqFrom_eq_zero he hq
  rw [flowCheck_eq hv]
  refine ⟨fun h => if_pos (hzero.mpr h), fun hne hfar => ?_, fun hne hnear => ?_⟩
  · exact (if_neg fun h => hne (hzero.mp h)).trans (if_pos hfar)
  · exact (if_neg fun h => hne (hzero.mp h)).trans (if_neg (Nat.not_le.mpr hnear))

/-! ### Receiving a request -/

variable {chk : List (Nat × Check)} {hostOk : Bool}

theorem takeRequest_none (h : arrive port kind bytes time s = (none, u)) : takeRequest kind port bytes chk hostOk time s = u := by
  rw [takeRequest, h]

theorem takeRequest_drop (h : arrive port kind bytes time s = (some p, u)) (hf : flowCheck p u = (.drop, v)) :
    takeRequest kind port bytes chk hostOk time s = v := by
  rw [takeRequest, h]
  dsimp only
  rw [hf]

theorem takeRequest_fresh (h : arrive port kind bytes time s = (some p, u)) (hf : flowCheck p u = (.fresh, v)) :
    takeRequest kind port bytes chk hostOk time s = performPkt port chk hostOk p v := by
  rw [takeRequest, h]
  dsimp only
  rw [hf]

theorem takeRequest_again (h : arrive port kind bytes time s = (some p, u)) (hf : flowCheck p u = (.again, v)) :
    takeRequest kind port bytes chk hostOk time s = againPkt port chk hostOk p v := by
  rw [takeRequest, h]
  dsimp only
  rw [hf]

end

/-! ### A request that is denied (R308) -/

theorem cachePut_kept (p r : Pkt) (s : State) : keptBut [.fab] s (cachePut p r s) := fab_kept s _

section
variable (port : Nat) (p : Pkt) (s : State)

/-- The denial is recorded, and an atomic's answer is cached. -/
def denialNoted : State :=
  let s1 := fabFault p.source 0x23 (getF s (Reg.FAB_PORT_PLANE_SEEN port)) 2 (bump s Reg.FAB_DENIED 1)
  if 3 ≤ p.kind ∧ p.kind ≤ 6 then cachePut p (replyPkt s1 p 0x23 0 []) s1 else s1

theorem denyPkt_eq : denyPkt port p s = sendReply p 0x23 0 [] (denialNoted port p s) := rfl

theorem denialNoted_spec {p : Pkt} (hp : p.source < 128) : (denialNoted port p s).mem = s.mem ∧
    getF (denialNoted port p s) Reg.FAB_DENIED = min (getF s Reg.FAB_DENIED + 1) (2 ^ 64 - 1) ∧
    getF (denialNoted port p s) Reg.FAB_LAST_FAULT_CAUSE = 2 ∧ getF (denialNoted port p s) Reg.FAB_LAST_FAULT_TARGET = p.source ∧
    keptBut (.fab :: irqParts) s (denialNoted port p s) := by
  have hfault := fabFault_touches p.source 0x23 (getF s (Reg.FAB_PORT_PLANE_SEEN port)) 2 (bump s Reg.FAB_DENIED 1)
  have hcached : keptBut [.fab] (fabFault p.source 0x23 (getF s (Reg.FAB_PORT_PLANE_SEEN port)) 2 (bump s Reg.FAB_DENIED 1))
      (denialNoted port p s) := keptBut_ite (cachePut_kept _ _ _) (keptBut_refl _ _)
  obtain ⟨htarget, -, hcause⟩ := getF_fabFault hp (show 2 < 16 by decide) 0x23 (getF s (Reg.FAB_PORT_PLANE_SEEN port)) (bump s Reg.FAB_DENIED 1)
  have hflds := hcached .flds (by decide)
  have hkept : keptBut (.fab :: irqParts) s (denialNoted port p s) :=
    (keptBut_trans (keptBut_trans (bump_kept s _ _) hfault.parts) hcached).mono (by decide)
  refine ⟨hkept .mem (by decide), ?_, (getF_congr hflds _).trans hcause, (getF_congr hflds _).trans htarget, hkept⟩
  rw [getF_congr hflds, hfault.getF (by decide)]
  exact getF_bump_self s rfl 1

end

theorem performPkt_denied {port : Nat} {p : Pkt} {s : State} (chk : List (Nat × Check)) (hostOk : Bool) (h : windowAddr p s = none) :
    performPkt port chk hostOk p s = sendReply p 0x23 0 [] (denialNoted port p s) := by
  rw [performPkt, h]
  exact denyPkt_eq port p s

/-! ### Stores, loads and atomics at the target (R311, R312, R314, R315) -/

section
variable {port a : Nat} {p : Pkt} {s : State} {chk : List (Nat × Check)} (hostOk : Bool) (ha : windowAddr p s = some a)
include ha

/-- The window's address and the packet's kind say what is done. -/
theorem performPkt_write (hk : p.kind = 2 ∨ p.kind = 8 ∨ p.kind = 9) (hc : ∀ g ∈ granulesOf a p.payload.length, checkOf s chk g ≠ .hard) :
    performPkt port chk hostOk p s = sendReply p 0 0 [] (putBytes s a p.payload) := by
  have hnone : partBad a p.payload.length chk s = [] := List.filter_eq_nil_iff.mpr fun g hg => by simp [hc g hg]
  have hdo : performPkt port chk hostOk p s = remoteWrite chk p a s := by
    rw [performPkt, ha]
    rcases hk with h | h | h <;> simp only [h]
  rw [hdo, remoteWrite, hnone]
  rfl

theorem performPkt_read (hk : p.kind = 1 ∨ p.kind = 10) (hend : a + reqBytes p ≤ 2 ^ 38)
    (hc : ∀ g ∈ granulesOf a (reqBytes p), checkOf s chk g = .ok) : performPkt port chk hostOk p s =
      sendReply p 0 0 (rdBytes s a (reqBytes p)) (countReads (granulesOf a (reqBytes p)) s) := by
  have hdo : performPkt port chk hostOk p s = remoteRead chk hostOk p a s := by
    rw [performPkt, ha]
    rcases hk with h | h <;> simp only [h]
  have hr : devRead s a (reqBytes p) chk hostOk = { s := countReads (granulesOf a (reqBytes p)) s } := by
    refine foldl_readGranule_passes (fun g hg => ⟨?_, hc g hg⟩) hostOk
    rw [mem_granulesOf] at hg
    omega
  have hkept := countReads_kept (granulesOf a (reqBytes p)) s
  have hsame : { countReads (granulesOf a (reqBytes p)) s with
      portion := s.portion, refetch := (countReads (granulesOf a (reqBytes p)) s).refetch ++ [].map fun g => ⟨g, .scrub⟩ } =
      countReads (granulesOf a (reqBytes p)) s := by
    rw [List.map_nil, List.append_nil, ← show (countReads (granulesOf a (reqBytes p)) s).portion = s.portion from hkept .portion (by decide)]
  rw [hdo, remoteRead, hr]
  dsimp only
  rw [hsame, rdBytes_congr (show (countReads (granulesOf a (reqBytes p)) s).mem = s.mem from hkept .mem (by decide))]
  rfl

/-- R312: the value that an atomic of the packet's kind leaves. -/
def atomicLeft (p : Pkt) (old : Nat) : Nat :=
  if p.kind = 4 then atomicNew .cas (8 * reqBytes p) old (leNat p.payload) p.aux else atomicNew (fnOf p.kind) (8 * reqBytes p) old p.aux 0

/-- R312, R320: the atomic is performed, and its answer is cached. -/
def atomicDone (p : Pkt) (a : Nat) (s : State) : State :=
  let t := putBytes s a (leBytes (reqBytes p) (atomicLeft p (rdLe s a (reqBytes p))))
  cachePut p (replyPkt t p 0 (rdLe s a (reqBytes p)) []) t

theorem performPkt_atomic (hk : 3 ≤ p.kind ∧ p.kind ≤ 6) (hc : checkOf s chk (a / 64) = .ok) :
    performPkt port chk hostOk p s = sendReply p 0 (rdLe s a (reqBytes p)) [] (atomicDone p a s) := by
  have hkinds : p.kind = 3 ∨ p.kind = 4 ∨ p.kind = 5 ∨ p.kind = 6 := by omega
  have hdo : performPkt port chk hostOk p s = remoteAtomic chk p a s := by
    rw [performPkt, ha]
    rcases hkinds with h | h | h | h <;> simp only [h]
  rw [hdo, remoteAtomic, hc]
  rfl

end

theorem atomicLeft_lt (p : Pkt) {old : Nat} (h : old < 2 ^ (8 * reqBytes p)) : atomicLeft p old < 2 ^ (8 * reqBytes p) := by
  unfold atomicLeft
  split
  · exact atomicNew_lt _ _ _ h
  · exact atomicNew_lt _ _ _ h

/-- R312: the value left, by the packet's kind. -/
theorem atomicLeft_eq {p : Pkt} (hk : 3 ≤ p.kind ∧ p.kind ≤ 6) (old : Nat) : atomicLeft p old =
    if p.kind = 3 then (old + p.aux) % 2 ^ (8 * reqBytes p)
    else if p.kind = 4 then (if old = p.aux % 2 ^ (8 * reqBytes p) then leNat p.payload % 2 ^ (8 * reqBytes p) else old)
    else if p.kind = 5 then
      (if toSigned (8 * reqBytes p) p.aux < toSigned (8 * reqBytes p) old then p.aux % 2 ^ (8 * reqBytes p) else old)
    else if toSigned (8 * reqBytes p) old < toSigned (8 * reqBytes p) p.aux then p.aux % 2 ^ (8 * reqBytes p) else old := by
  have hkinds : p.kind = 3 ∨ p.kind = 4 ∨ p.kind = 5 ∨ p.kind = 6 := by omega
  unfold atomicLeft
  rcases hkinds with h | h | h | h
  · simp only [h, fnOf, atomicNew]
    rfl
  · simp only [h, atomicNew]
    rfl
  · simp only [h, fnOf, atomicNew]
    rfl
  · simp only [h, fnOf, atomicNew]
    rfl

theorem replyPkt_congr {s t : State} (h : regsKept storeKey s t) (p : Pkt) (st aux : Nat) (payload : List Nat) :
    replyPkt t p st aux payload = replyPkt s p st aux payload := by
  have hid : getF t Reg.ID_MODULE_MODULE_ID = getF s Reg.ID_MODULE_MODULE_ID := h _ _ (by decide)
  have hepoch : getF t Reg.FAB_EPOCH = getF s Reg.FAB_EPOCH := h _ _ (by decide)
  rw [replyPkt, replyPkt, myId, myId, hid, hepoch]

/-- What an atomic leaves at the target. -/
theorem atomicDone_spec (p : Pkt) (a : Nat) (s : State) :
    rdLe (atomicDone p a s) a (reqBytes p) = atomicLeft p (rdLe s a (reqBytes p)) ∧
    (atomicDone p a s).fab.cache.head? = some ⟨p.source, p.vc, p.mcast, p.seq, s.now, pktBody (replyPkt s p 0 (rdLe s a (reqBytes p)) [])⟩ ∧
    memKept (within a (reqBytes p)) s (atomicDone p a s) ∧ keptBut [.mem, .marks, .flds, .fab] s (atomicDone p a s) ∧
    regsKept storeKey s (atomicDone p a s) := by
  have hput := putBytes_kept s a (leBytes (reqBytes p) (atomicLeft p (rdLe s a (reqBytes p))))
  have hregs := regsKept_putBytes s a (leBytes (reqBytes p) (atomicLeft p (rdLe s a (reqBytes p))))
  have hmem := memKept_putBytes s a (leBytes (reqBytes p) (atomicLeft p (rdLe s a (reqBytes p))))
  rw [leBytes_length] at hmem
  refine ⟨?_, ?_, hmem, (keptBut_trans hput (cachePut_kept _ _ _)).mono (by decide), hregs⟩
  · exact rdLe_putBytes_lt (atomicLeft_lt p (rdLe_lt s a (reqBytes p)))
  · rw [← replyPkt_congr hregs, ← show (putBytes s a _).now = s.now from hput .now (by decide)]
    rfl

/-! ### Reductions (R96, R313) -/

theorem toSigned_ofSigned {v : Int} (hlo : -(2 ^ 191) ≤ v) (hhi : v < 2 ^ 191) : toSigned 192 (ofSigned 192 v % 2 ^ 192) = v := by
  unfold toSigned ofSigned
  norm_num at *
  split <;> omega

theorem accRecord_length (x : LAcc) : (accRecord x).length = 32 := by simp [accRecord]

theorem accRecord_lt (x : LAcc) : ∀ b ∈ accRecord x, b < 256 := by
  have hflags : b2n x.poison + 2 * b2n x.ovf + 4 * b2n x.nonfinite < 256 := by
    have hbit (b : Bool) : b2n b ≤ 1 := by cases b <;> decide
    have hp := hbit x.poison
    have ho := hbit x.ovf
    have hn := hbit x.nonfinite
    omega
  intro b hb
  simp only [accRecord, List.mem_append, List.mem_singleton, List.mem_replicate] at hb
  obtain (hb | rfl) | ⟨-, rfl⟩ := hb
  · exact leBytes_lt hb
  · exact hflags
  · decide

theorem bit_flags : ∀ p o n : Bool, bit (b2n p + 2 * b2n o + 4 * b2n n) 0 = p ∧ bit (b2n p + 2 * b2n o + 4 * b2n n) 1 = o ∧
    bit (b2n p + 2 * b2n o + 4 * b2n n) 2 = n := by decide

/-- R96: a record that was stored reads as the accumulator it was made from. -/
theorem recAcc_accRecord {x : LAcc} (hlo : -(2 ^ 191) ≤ x.v) (hhi : x.v < 2 ^ 191) : recAcc (accRecord x) = x := by
  have hvalue : (accRecord x).take 24 = leBytes 24 (ofSigned 192 x.v) := by
    rw [accRecord, List.append_assoc, List.take_left' (leBytes_length _ _)]
  have hflags : (accRecord x).getD 24 0 = b2n x.poison + 2 * b2n x.ovf + 4 * b2n x.nonfinite := by
    rw [accRecord, List.append_assoc, List.getD_append_right _ _ _ _ (by simp), leBytes_length]
    rfl
  unfold recAcc
  obtain ⟨hp, ho, hn⟩ := bit_flags x.poison x.ovf x.nonfinite
  rw [hvalue, hflags, leNat_leBytes, toSigned_ofSigned hlo hhi]
  dsimp only
  rw [hp, ho, hn]

/-- R91, R313: a part without flags whose sum stays in range is added exactly. -/
theorem reduceInto_inRange {a : Nat} {s : State} {x : Int} (ho : (recAcc (rdBytes s a 32)).ovf = false)
    (hlo : -(2 ^ 191) ≤ (recAcc (rdBytes s a 32)).v + x) (hhi : (recAcc (rdBytes s a 32)).v + x < 2 ^ 191) :
    reduceInto a { v := x } s = putBytes s a (accRecord { recAcc (rdBytes s a 32) with v := (recAcc (rdBytes s a 32)).v + x }) := by
  unfold reduceInto
  generalize recAcc (rdBytes s a 32) = old at *
  obtain ⟨v, poison, ovf, nonfinite⟩ := old
  obtain rfl : ovf = false := ho
  dsimp only at hlo hhi
  have hin : accOut (v + x) = false := by
    simp only [accOut, Bool.or_eq_false_iff, decide_eq_false_iff_not, not_lt]
    exact ⟨hlo, by omega⟩
  dsimp only
  rw [accAdd_inRange (k := { v := x, poison := false, nonfinite := false }) rfl hin]
  simp only [accPlus, Bool.or_false]
  rfl

section
variable {port a : Nat} {p : Pkt} {s : State} {chk : List (Nat × Check)} (hostOk : Bool)

/-- The check of a reduction has found nothing. -/
def reduceChecked (s : State) : State := bump s Reg.MEM_DRAM_DETECT 0

theorem reduceChecked_touches (s : State) : Touches [.mem, .marks, .flds] storeKey s (reduceChecked s) := .bump (.refl s)

/-- R313: the scaled integer that a SCALAR REDUCE of one record carries. -/
def scaledPart (p : Pkt) : Int := toSigned 64 (leNat p.payload) * 2 ^ p.scale

theorem reduceParts_one (hw : p.wide = false) (hl : p.payload.length = 8) : reduceParts p = [{ v := scaledPart p }] := by
  have htake : p.payload.take 8 = p.payload := List.take_of_length_le (by omega)
  rw [reduceParts, hw, hl]
  simp [chunks, htake, scaledPart]

theorem setMarks_nil (s : State) (b : Bool) : setMarks s [] b = s := rfl

theorem performPkt_reduce (ha : windowAddr p s = some a) (hk : p.kind = 7) (hw : p.wide = false) (hl : p.payload.length = 8)
    (hc : ∀ g ∈ granulesOf a 32, checkOf s chk g ≠ .hard) :
    performPkt port chk hostOk p s = sendReply p 0 0 [] (reduceInto a { v := scaledPart p } (reduceChecked s)) := by
  have hnone : (granulesOf a 32).filter (fun g => checkOf s chk g == .hard) = [] :=
    List.filter_eq_nil_iff.mpr fun g hg => by simp [hc g hg]
  have hdo : performPkt port chk hostOk p s = remoteReduce chk p a s := by
    rw [performPkt, ha]
    simp only [hk]
  rw [hdo, remoteReduce, reduceParts_one hw hl]
  simp only [List.length_singleton, Nat.mul_one, hnone, List.isEmpty_nil, if_true, List.length_nil, List.range_one, List.zip_cons_cons,
    List.zip_nil_left, List.foldl_cons, List.foldl_nil, Nat.mul_zero, Nat.add_zero, setMarks_nil, reduceChecked]

end

/-- What a reduction in range leaves at the target. -/
theorem reduceInto_spec {a : Nat} {s : State} {x : Int} (ho : (recAcc (rdBytes s a 32)).ovf = false)
    (hlo : -(2 ^ 191) ≤ (recAcc (rdBytes s a 32)).v + x) (hhi : (recAcc (rdBytes s a 32)).v + x < 2 ^ 191) :
    let w := reduceInto a { v := x } (reduceChecked s)
    recAcc (rdBytes w a 32) = { recAcc (rdBytes s a 32) with v := (recAcc (rdBytes s a 32)).v + x } ∧ memKept (within a 32) s w ∧
      keptBut [.mem, .marks, .flds] s w ∧ regsKept storeKey s w := by
  have hread : rdBytes (reduceChecked s) a 32 = rdBytes s a 32 := rfl
  dsimp only
  rw [reduceInto_inRange (by rw [hread]; exact ho) (by rw [hread]; exact hlo) (by rw [hread]; exact hhi), hread]
  obtain ⟨new, hnew⟩ : ∃ new, new = { recAcc (rdBytes s a 32) with v := (recAcc (rdBytes s a 32)).v + x } := ⟨_, rfl⟩
  have hv : new.v = (recAcc (rdBytes s a 32)).v + x := by rw [hnew]
  rw [← hnew]
  have hput : Touches [.mem, .marks, .flds] storeKey s (putBytes (reduceChecked s) a (accRecord new)) :=
    .putBytes (reduceChecked_touches s) fun _ => id
  have hmem := memKept_putBytes (reduceChecked s) a (accRecord new)
  have hback := rdBytes_putBytes_lt (reduceChecked s) a (accRecord_lt new)
  rw [accRecord_length] at hmem hback
  refine ⟨?_, hmem, hput.parts, hput.regs⟩
  rw [hback]
  exact recAcc_accRecord (by rw [hv]; exact hlo) (by rw [hv]; exact hhi)

/-! ### Duplicates (R320) -/

section
variable {port : Nat} {p : Pkt} {s : State} (chk : List (Nat × Check)) (hostOk : Bool)

theorem againPkt_acknowledged (hk : p.kind = 2 ∨ 7 ≤ p.kind) :
    againPkt port chk hostOk p s = sendReply p (if (windowAddr p s).isSome then 0 else 0x23) 0 [] s := by
  refine (if_neg ?_).trans (if_neg ?_)
  · omega
  · omega

/-- The cached answer to an atomic. -/
def heldReply (p : Pkt) (s : State) : Option CacheEnt :=
  s.fab.cache.find? fun e => e.source == p.source && e.vc == p.vc && e.mcast == p.mcast && e.seq == p.seq && cacheLive s.now e

theorem againPkt_stale (hk : 3 ≤ p.kind ∧ p.kind ≤ 6) (h : heldReply p s = none) :
    againPkt port chk hostOk p s = sendReply p 0x22 0 [] (bump s Reg.FAB_ATOMIC_STALE 1) := by
  refine (if_neg (by omega)).trans ((if_pos hk).trans ?_)
  rw [show s.fab.cache.find? _ = none from h]

theorem againPkt_held (hk : 3 ≤ p.kind ∧ p.kind ≤ 6) {e : CacheEnt} (h : heldReply p s = some e) : againPkt port chk hostOk p s =
    sendReply p (parsePkt (e.reply ++ [0, 0, 0, 0])).status (parsePkt (e.reply ++ [0, 0, 0, 0])).aux [] (bump s Reg.FAB_CACHE_HIT 1) := by
  refine (if_neg (by omega)).trans ((if_pos hk).trans ?_)
  rw [show s.fab.cache.find? _ = some e from h]

end

/-! ### The statement -/

/-- The commands that bring a request, each with its kind. -/
def requestCmds (port : Fin 8) (bytes : List Nat) (chk : List (Nat × Check)) (hostOk : Bool) (time : Nat) : List (Instr × Nat) :=
  [(.load port bytes chk hostOk time, 1), (.store port bytes chk time, 2), (.fadd port bytes chk time, 3),
    (.cas port bytes chk time, 4), (.min port bytes chk time, 5), (.max port bytes chk time, 6), (.reduce port bytes chk time, 7),
    (.mstore port bytes chk time, 8), (.bulkWrite port bytes chk time, 9), (.bulkRead port bytes chk hostOk time, 10)]

theorem exec_requestCmds {port : Fin 8} {bytes : List Nat} {chk : List (Nat × Check)} {hostOk : Bool} {time : Nat} {c : Instr × Nat}
    (hc : c ∈ requestCmds port bytes chk hostOk time) (s : State) :
    ∃ b, exec c.1 s = .next (takeRequest c.2 port bytes chk b time s) := by
  simp only [requestCmds, List.mem_cons, List.not_mem_nil, or_false] at hc
  obtain rfl | rfl | rfl | rfl | rfl | rfl | rfl | rfl | rfl | rfl := hc
  · exact ⟨hostOk, rfl⟩
  · exact ⟨false, rfl⟩
  · exact ⟨false, rfl⟩
  · exact ⟨false, rfl⟩
  · exact ⟨false, rfl⟩
  · exact ⟨false, rfl⟩
  · exact ⟨false, rfl⟩
  · exact ⟨false, rfl⟩
  · exact ⟨false, rfl⟩
  · exact ⟨hostOk, rfl⟩

/-- Settles O43: a request that arrives is held against its flow, and a fresh one acts on its window by its kind. -/
theorem fabricRequestsPerformed : Obligations.FabricRequestsPerformed := by
  unfold Obligations.FabricRequestsPerformed
  refine ⟨fun s port bytes chk hostOk time c hc => ?_, fun p u hv hq he => flowCheck_inOrder hv hq he⟩
  obtain ⟨b, hexec⟩ := exec_requestCmds hc s
  refine ⟨fun u h => hexec.trans (congrArg _ (takeRequest_none h)), fun p u v h => ?_⟩
  obtain ⟨hkind, hsource⟩ := arrive_some h
  refine ⟨fun hf => hexec.trans (congrArg _ (takeRequest_drop h hf)), fun hf => ?_, fun hf => ?_⟩
  · have hfresh := hexec.trans (congrArg Host.Outcome.next (takeRequest_fresh h hf))
    rw [← hkind]
    refine ⟨fun hw => ?_, fun a ha => ⟨fun hk hg => ?_, fun hk hend hg => ?_, fun hlo hhi hg => ?_, fun hk hwide hlen hg ho hmin hmax => ?_⟩⟩
    · exact ⟨_, hfresh.trans (congrArg _ (performPkt_denied chk b hw)), denialNoted_spec port v hsource⟩
    · exact ⟨_, hfresh.trans (congrArg _ (performPkt_write b ha hk hg)), putBytes_mem _ _ _, putBytes_kept _ _ _, regsKept_putBytes _ _ _⟩
    · have hread : Touches [.flds] pmcKey v (countReads (granulesOf a (reqBytes p)) v) := ⟨countReads_kept _ v, regsKept_countReads _ v⟩
      have hregs : Touches [.flds] storeKey v (countReads (granulesOf a (reqBytes p)) v) := hread.mono (fun _ => id) fun _ => pmcKey_storeKey
      exact ⟨_, hfresh.trans (congrArg _ (performPkt_read b ha hk hend hg)), hread.parts .mem (by decide), hread.parts, hregs.regs⟩
    · obtain ⟨hval, hcache, hmem, hparts, hregs⟩ := atomicDone_spec p a v
      exact ⟨_, hfresh.trans (congrArg _ (performPkt_atomic b ha ⟨hlo, hhi⟩ hg)), hval.trans (atomicLeft_eq ⟨hlo, hhi⟩ _), hcache, hmem, hparts, hregs⟩
    · exact ⟨_, hfresh.trans (congrArg _ (performPkt_reduce b ha hk hwide hlen hg)), reduceInto_spec ho hmin hmax⟩
  · have hagain := hexec.trans (congrArg Host.Outcome.next (takeRequest_again h hf))
    rw [← hkind]
    refine ⟨fun hk => hagain.trans (congrArg _ (againPkt_acknowledged chk b hk)), fun hlo hhi => ⟨fun hnone => ?_, fun e he => ?_⟩⟩
    · exact hagain.trans (congrArg _ (againPkt_stale chk b ⟨hlo, hhi⟩ hnone))
    · exact ⟨_, _, hagain.trans (congrArg _ (againPkt_held chk b ⟨hlo, hhi⟩ he)), rfl, rfl⟩

end Sys2Proof.Machine
end

