-- ==== Sys2Proof/Proofs/FabricControl.lean ====
section
/-!
SUPPORT. Proofs/FabricControl.lean: what a step that is discarded or ended leaves of portions, flights and registers, and O44: replies, SYNC,
STEP_ABORT, PORTION_FAILED and STALE_NOTICE (R189, R319, R324, R325, R329, R330).
-/
namespace Sys2Proof.Machine

set_option Elab.async false

/-! ### The registers that a discarded step may change (R189) -/

def stepKey (k : Nat) : Bool :=
  issueKey k || freeKey k || ringKey journalRing k || oneOf [Reg.CTX_CAPTURE_CTL_ARMED, Reg.CTX_CAPTURE_CTL_STATUS] k

theorem stepKey_false {k : Nat} (h : stepKey k = false) : issueKey k = false ∧ freeKey k = false ∧ ringKey journalRing k = false ∧
    storeKey k = false := by
  simp only [stepKey, issueKey, Bool.or_eq_false_iff] at h ⊢
  tauto

section
variable {l : List Part} {s t : State}

theorem syncTable_touches (id : Nat) (s : State) : Touches appendParts stepKey s (syncTable id s) := by
  unfold syncTable
  split
  · exact .refl s
  · exact .foldl (.refl s) fun u _ => .putDev (.refl u) fun _ e => (stepKey_false e).2.2.2

theorem discardAppends_touches (id pos rows : Nat) (s : State) : Touches appendParts stepKey s (discardAppends id pos rows s) := by
  unfold discardAppends
  split
  · exact .refl s
  · next c _ =>
    have hzero : Touches appendParts stepKey s ((List.range rows).foldl (fun t k => zeroEntry c t (pos + k)) s) :=
      .keep (.refl s) (foldl_kept (List.range rows) s fun t k => zeroEntry_kept c t (pos + k))
    exact ((hzero.keep (dropPages_kept _ _)).keep (setCtx_kept _ _ _)).trans (syncTable_touches _ _)

theorem appendsUndone_touches (step : Nat) (s : State) : Touches appendParts stepKey s (appendsUndone step s) :=
  .foldl (.refl s) fun u c => (Touches.keep (.refl u) (setCtx_kept u _ _)).trans (discardAppends_touches _ _ _ _)

theorem clearCores_touches (s : State) : Touches heldParts stepKey s (clearCores s) := by
  rw [clearCores_eq]
  exact (Touches.step (.refl s) (coresForget_spec s) (by decide) fun _ e => (stepKey_false e).1).keep (barriers_cores_kept _ _ _)

theorem holdsDropped_touches (step : Nat) (s : State) : Touches heldParts stepKey s (holdsDropped step s) := by
  have hsaved (u : State) : keptBut [.cores] u (dropSaved u) := fun p hp => by
    cases p with
    | cores => exact absurd hp (by decide)
    | _ => rfl
  unfold holdsDropped
  extract_lets gone s1 s2
  have h1 : Touches heldParts stepKey s s1 := .foldl (.refl s) fun u p => .keep (.refl u) (m := [.fab]) (fab_kept u _)
  have h2 : Touches heldParts stepKey s s2 := .ite (h1.trans (clearCores_touches s1)) h1
  exact .ite (h2.keep (hsaved s2)) h2

theorem discardStep_touches (step : Nat) (s : State) : Touches discardParts stepKey s (discardStep step s) := by
  have hheld := (holdsDropped_touches step s).mono (l := discardParts) (by decide) fun _ => id
  have hcleared : Touches discardParts stepKey s (stepCleared step s) :=
    ((hheld.keep (portionsDropped_kept step _)).keep (releaseStepHolds_kept step _)).step (appendsUndone_touches step _) (by decide) fun _ => id
  rw [discardStep_eq]
  exact .ite (.setF (.setF hcleared)) hcleared

/-! ### A step that ends at the entry module (R244) -/

theorem ctxBack_touches (id : Nat) (s : State) : Touches [.ctxs, .flds] stepKey s (ctxBack id s) := by
  have hset (c : Ctx) : Touches [.ctxs, .flds] stepKey s (setCtx s id c) := .keep (.refl s) (setCtx_kept s id c)
  unfold ctxBack
  split
  · exact .refl s
  · exact .ite (.keep (.refl s) (modCtx_kept s id _))
      (.ite ((hset _).step (countCtxs_touches _) (by decide) fun _ e => (stepKey_false e).2.1) (hset _))

theorem reqDies_touches (f : Flight) (status : Nat) (r : ReqRec) (s : State) : Touches [.ctxs, .flds, .ctl] stepKey s (reqDies f status r s) := by
  unfold reqDies
  split
  · exact .refl s
  · have howes (due : List DueEntry) (c : Ctx) : Touches [.ctxs, .flds, .ctl] stepKey s (setCtx { s with ctl.due := s.ctl.due ++ due } r.ctx c) :=
      .keep (.keep (.refl s) (ctl_kept s _)) (setCtx_kept _ _ _)
    dsimp only
    split
    · exact howes _ _
    · exact (howes _ _).step (ctxBack_touches _ _) (by decide) fun _ => id

theorem stepDies_touches (step status : Nat) (s : State) : Touches endParts stepKey s (stepDies step status s) := by
  unfold stepDies
  split
  · exact .refl s
  · have hout : Touches endParts stepKey s { s with ctl.flights := s.ctl.flights.filter fun g => g.hdr.step != step } := .keep (.refl s) (ctl_kept s _)
    exact ((hout.step (discardStep_touches step _) (by decide) fun _ => id).foldl fun u r =>
      (reqDies_touches _ status r u).mono (by decide) fun _ => id).step (ringPut_touches journalRing _ _) (by decide)
        fun _ e => (stepKey_false e).2.2.1

end

/-! ### Portions and headers that are left (R189) -/

/-- Every portion and header is of a step that `ok` names. -/
structure StepsLeft (ok : Nat → Prop) (s : State) : Prop where
  portion : ∀ p ∈ s.portion, ok p.hdr.step
  suspended : ∀ p ∈ s.suspended, ok p.hdr.step
  finals : ∀ p ∈ s.finals, ok p.hdr.step
  inbox : ∀ h ∈ s.inbox, ok h.step

theorem StepsLeft.congr {ok : Nat → Prop} {s t : State} (h : StepsLeft ok s) (hp : t.portion = s.portion) (hs : t.suspended = s.suspended)
    (hf : t.finals = s.finals) (hi : t.inbox = s.inbox) : StepsLeft ok t := by
  obtain ⟨hportion, hsuspended, hfinals, hinbox⟩ := h
  exact ⟨by rwa [hp], by rwa [hs], by rwa [hf], by rwa [hi]⟩

theorem StepsLeft.keep {ok : Nat → Prop} {l : List Part} {s t : State} (h : StepsLeft ok s) (k : keptBut l s t)
    (hl : ∀ p ∈ [Part.portion, .suspended, .finals, .inbox], l.contains p = false := by decide) : StepsLeft ok t :=
  h.congr (k .portion (hl _ (by decide))) (k .suspended (hl _ (by decide))) (k .finals (hl _ (by decide))) (k .inbox (hl _ (by decide)))

theorem StepsLeft.imp {ok ok' : Nat → Prop} {s : State} (h : StepsLeft ok s) (hok : ∀ k, ok k → ok' k) : StepsLeft ok' s := by
  obtain ⟨hportion, hsuspended, hfinals, hinbox⟩ := h
  exact ⟨fun p hp => hok _ (hportion p hp), fun p hp => hok _ (hsuspended p hp), fun p hp => hok _ (hfinals p hp), fun p hp => hok _ (hinbox p hp)⟩

theorem StepsLeft.portionsDropped {ok : Nat → Prop} {s : State} (h : StepsLeft ok s) (step : Nat) :
    StepsLeft (fun k => ok k ∧ k ≠ step) (portionsDropped step s) := by
  obtain ⟨hportion, hsuspended, hfinals, hinbox⟩ := h
  refine ⟨fun p hp => ?_, fun p hp => ?_, fun p hp => ?_, fun p hp => ?_⟩
  · obtain ⟨hmem, hne⟩ := Option.filter_eq_some_iff.mp (Option.mem_def.mp hp)
    exact ⟨hportion p hmem, by simpa using hne⟩
  · obtain ⟨hmem, hne⟩ := Option.filter_eq_some_iff.mp (Option.mem_def.mp hp)
    exact ⟨hsuspended p hmem, by simpa using hne⟩
  · obtain ⟨hmem, hne⟩ := List.mem_filter.mp hp
    exact ⟨hfinals p hmem, by simpa using hne⟩
  · obtain ⟨hmem, hne⟩ := List.mem_filter.mp hp
    exact ⟨hinbox p hmem, by simpa using hne⟩

theorem StepsLeft.discardStep {ok : Nat → Prop} {s : State} (h : StepsLeft ok s) (step : Nat) :
    StepsLeft (fun k => ok k ∧ k ≠ step) (discardStep step s) := by
  have hcleared : StepsLeft (fun k => ok k ∧ k ≠ step) (stepCleared step s) :=
    (((h.keep (holdsDropped_kept step s)).portionsDropped step).keep (releaseStepHolds_kept step _)).keep (appendsUndone_kept step _)
  have hcapture : keptBut [.flds] (stepCleared step s) (Machine.discardStep step s) := by
    rw [discardStep_eq]
    exact keptBut_ite ((keptBut_trans (setB_kept _ _ _) (keptBut_setF _ _ _)).mono (by decide)) (keptBut_refl _ _)
  exact hcleared.keep hcapture

theorem StepsLeft.foldl_discardStep {ok : Nat → Prop} (ks : List Nat) {s : State} (h : StepsLeft ok s) :
    StepsLeft (fun k => ok k ∧ k ∉ ks) (ks.foldl (fun t k => Machine.discardStep k t) s) := by
  induction ks generalizing ok s with
  | nil => exact h.imp fun k hk => ⟨hk, List.not_mem_nil⟩
  | cons k ks ih =>
    refine (ih (h.discardStep k)).imp fun j hj => ?_
    obtain ⟨⟨hok, hne⟩, hnot⟩ := hj
    exact ⟨hok, fun hmem => (List.mem_cons.mp hmem).elim hne hnot⟩

theorem StepsLeft.stepDies {ok : Nat → Prop} {s : State} (h : StepsLeft ok s) (step status : Nat) : StepsLeft ok (stepDies step status s) := by
  unfold Machine.stepDies
  split
  · exact h
  · next f _ =>
    have hout : StepsLeft ok { s with ctl.flights := s.ctl.flights.filter fun g => g.hdr.step != step } := h.congr rfl rfl rfl rfl
    have hgone := (hout.discardStep step).imp fun _ hk => hk.1
    exact (hgone.keep (foldl_reqDies_over f status f.hdr.reqs _).parts).keep (ringPut_touches journalRing _ _).parts

/-- No portion and no header is left. -/
theorem StepsLeft.none {s : State} (h : StepsLeft (fun _ => False) s) : s.portion = none ∧ s.suspended = none ∧ s.finals = [] ∧ s.inbox = [] := by
  obtain ⟨hportion, hsuspended, hfinals, hinbox⟩ := h
  exact ⟨Option.eq_none_iff_forall_not_mem.mpr hportion, Option.eq_none_iff_forall_not_mem.mpr hsuspended, List.eq_nil_iff_forall_not_mem.mpr hfinals,
    List.eq_nil_iff_forall_not_mem.mpr hinbox⟩

theorem StepsLeft.ofStep_portion {ok : Nat → Prop} {s : State} {step : Nat} (h : StepsLeft (fun k => ok k ∧ k ≠ step) s) :
    ofStep step s.portion = Option.none ∧ ofStep step s.suspended = Option.none ∧ (∀ q ∈ s.finals, q.hdr.step ≠ step) ∧
      ∀ x ∈ s.inbox, x.step ≠ step := by
  obtain ⟨hportion, hsuspended, hfinals, hinbox⟩ := h
  refine ⟨Option.filter_eq_none_iff.mpr fun p hp => ?_, Option.filter_eq_none_iff.mpr fun p hp => ?_, fun q hq => (hfinals q hq).2,
    fun x hx => (hinbox x hx).2⟩
  · simpa using (hportion p hp).2
  · simpa using (hsuspended p hp).2

/-! ### Flights (R244) -/

/-- A step that dies leaves no flight of its own, and no flight but those that were. -/
theorem flights_stepDies (step status : Nat) (s : State) {g : Flight} (h : g ∈ (stepDies step status s).ctl.flights) :
    g ∈ s.ctl.flights ∧ g.hdr.step ≠ step := by
  cases hf : s.ctl.flights.find? fun f => f.hdr.step == step with
  | none =>
    rw [stepDies, hf] at h
    exact ⟨h, by simpa using List.find?_eq_none.mp hf g h⟩
  | some f =>
    obtain ⟨due, hctl⟩ := (stepDies_ended hf status).ctl
    rw [hctl] at h
    obtain ⟨hmem, hne⟩ := List.mem_filter.mp h
    exact ⟨hmem, by simpa using hne⟩

theorem flights_foldl_stepDies (fs : List Flight) (status : Nat) {s : State} {g : Flight}
    (h : g ∈ (fs.foldl (fun t f => stepDies f.hdr.step status t) s).ctl.flights) : g ∈ s.ctl.flights ∧ ∀ f ∈ fs, g.hdr.step ≠ f.hdr.step := by
  induction fs generalizing s with
  | nil => exact ⟨h, fun f hf => absurd hf List.not_mem_nil⟩
  | cons f fs ih =>
    obtain ⟨hmem, hrest⟩ := ih h
    obtain ⟨hstart, hne⟩ := flights_stepDies f.hdr.step status s hmem
    exact ⟨hstart, fun x hx => (List.mem_cons.mp hx).elim (fun e => e ▸ hne) (hrest x)⟩

theorem flights_foldl_discardStep (ks : List Nat) (s : State) : (ks.foldl (fun t k => discardStep k t) s).ctl.flights = s.ctl.flights := by
  induction ks generalizing s with
  | nil => rfl
  | cons k ks ih =>
    obtain ⟨-, hctl⟩ := discardStep_spec k s
    rw [List.foldl_cons, ih, hctl]

/-! ### QUARANTINE (R330) -/

/-- The module is in QUARANTINE, and its flights are dead. -/
def flightsDead (s : State) : State :=
  let s1 := setF (setF s Reg.FAB_STATE_STATE 4) Reg.ID_MODULE_MODULE_ID_VALID 0
  s1.ctl.flights.foldl (fun t f => stepDies f.hdr.step 0x20 t) s1

/-- The steps that the module holds. -/
def stepsHeld (s : State) : List Nat :=
  (s.portion.toList ++ s.suspended.toList ++ s.finals).map (fun p => p.hdr.step) ++ s.inbox.map fun h => h.step

/-- No step is left. -/
def stepsDead (s : State) : State := (stepsHeld s).dedup.foldl (fun t k => discardStep k t) (flightsDead s)

theorem quarantine_eq (target plane : Nat) (s : State) :
    quarantine target plane s = alert Reg.HOST_ALERT_FABRIC (fabFault target 0x21 plane 6 (stepsDead s)) := rfl

theorem stepsLeft_stepsHeld (s : State) : StepsLeft (· ∈ stepsHeld s) s := by
  refine ⟨fun p hp => ?_, fun p hp => ?_, fun p hp => ?_, fun h hh => ?_⟩
  · exact List.mem_append_left _ (List.mem_map_of_mem (List.mem_append_left _ (List.mem_append_left _ (Option.mem_toList.mpr hp))))
  · exact List.mem_append_left _ (List.mem_map_of_mem (List.mem_append_left _ (List.mem_append_right _ (Option.mem_toList.mpr hp))))
  · exact List.mem_append_left _ (List.mem_map_of_mem (List.mem_append_right _ hp))
  · exact List.mem_append_right _ (List.mem_map_of_mem hh)

theorem StepsLeft.foldl_stepDies {ok : Nat → Prop} (fs : List Flight) (status : Nat) {s : State} (h : StepsLeft ok s) :
    StepsLeft ok (fs.foldl (fun t f => Machine.stepDies f.hdr.step status t) s) := by
  induction fs generalizing s with
  | nil => exact h
  | cons f fs ih => exact ih (h.stepDies f.hdr.step status)

theorem stepsDead_left (s : State) : StepsLeft (fun _ => False) (stepsDead s) := by
  have hstart : StepsLeft (· ∈ stepsHeld s) (setF (setF s Reg.FAB_STATE_STATE 4) Reg.ID_MODULE_MODULE_ID_VALID 0) :=
    (stepsLeft_stepsHeld s).congr rfl rfl rfl rfl
  exact ((hstart.foldl_stepDies _ 0x20).foldl_discardStep (stepsHeld s).dedup).imp fun k ⟨hin, hout⟩ => hout (List.mem_dedup.mpr hin)

theorem flights_stepsDead (s : State) : (stepsDead s).ctl.flights = [] := by
  refine List.eq_nil_iff_forall_not_mem.mpr fun g hg => ?_
  rw [stepsDead, flights_foldl_discardStep] at hg
  obtain ⟨hmem, hnone⟩ := flights_foldl_stepDies _ _ hg
  exact hnone g hmem rfl

theorem stepsDead_touches (s : State) : Touches endParts stepKey (setF (setF s Reg.FAB_STATE_STATE 4) Reg.ID_MODULE_MODULE_ID_VALID 0) (stepsDead s) := by
  have hflights : Touches endParts stepKey (setF (setF s Reg.FAB_STATE_STATE 4) Reg.ID_MODULE_MODULE_ID_VALID 0) (flightsDead s) :=
    .foldl (.refl _) fun u f => stepDies_touches _ _ u
  exact hflights.foldl fun u k => (discardStep_touches k u).mono (by decide) fun _ => id

/-- What QUARANTINE leaves. -/
theorem quarantine_spec (target plane : Nat) (s : State) :
    let t := quarantine target plane s
    getF t Reg.FAB_STATE_STATE = 4 ∧ getF t Reg.ID_MODULE_MODULE_ID_VALID = 0 ∧ getB t Reg.HOST_ALERT_FABRIC = true ∧
      t.portion = none ∧ t.suspended = none ∧ t.finals = [] ∧ t.inbox = [] ∧ t.ctl.flights = [] := by
  have hdead := stepsDead_touches s
  have hfault := fabFault_touches target 0x21 plane 6 (stepsDead s)
  have halert := alert_touches Reg.HOST_ALERT_FABRIC (fabFault target 0x21 plane 6 (stepsDead s))
  have hparts := keptBut_trans hfault.parts halert.parts
  obtain ⟨hportion, hsuspended, hfinals, hinbox⟩ := ((stepsDead_left s).keep hparts).none
  rw [quarantine_eq]
  refine ⟨?_, ?_, getB_alert (by decide) (by decide) _, hportion, hsuspended, hfinals, hinbox, ?_⟩
  · rw [halert.getF (by decide), hfault.getF (by decide), hdead.getF (by decide), getF_setF_ne (by decide), getF_setF_self]
    rfl
  · rw [halert.getF (by decide), hfault.getF (by decide), hdead.getF (by decide), getF_setF_self]
    rfl
  · exact (congrArg CtlSt.flights (hparts .ctl (by decide))).trans (flights_stepsDead s)

/-! ### Packets that fail their check (R304) -/

theorem portLink_key : ∀ p : Fin 8, pmcKey (fldKey (Reg.FAB_PORT_LINK p) .a) = false ∧ pmcKey (fldKey (Reg.FAB_PORT_MISPLACED p) .a) = false := by
  decide

theorem portUsable_atTime (time : Nat) (s : State) (port : Fin 8) : portUsable (atTime time s) port = portUsable s port := by
  have htime := atTime_touches time s
  rw [portUsable, portUsable, htime.getF (portLink_key port).1, htime.getF (portLink_key port).2, fab_atTime]

theorem stageAlive_atTime (time : Nat) (s : State) : stageAlive (atTime time s) = stageAlive s := by
  rw [stageAlive, stageAlive, show (atTime time s).boot = s.boot from (atTime_touches time s).parts .boot (by decide)]

theorem carries_atTime (time : Nat) (s : State) : carries (atTime time s) = carries s := by
  rw [carries, carries, stageAlive_atTime, (atTime_touches time s).getF (by decide)]

theorem arrive_failing {s : State} {port : Fin 8} {kind : Nat} {bytes : List Nat} (hk : bytes.getD 0 0 = kind) (hp : portUsable s port = true)
    (hc : carries s = true) (hbad : pktOk bytes = false) (time : Nat) :
    arrive port kind bytes time s = (none, bump (atTime time s) Reg.FAB_E2E_CRC 1) := by
  refine (if_neg ?_).trans (if_pos (by rw [hbad]; rfl))
  rw [portUsable_atTime, carries_atTime, hp, hc]
  rintro (h | h)
  · exact h hk
  · cases h

/-! ### Replies and SYNC (R319, R325) -/

section
variable {s u v : State} {port : Fin 8} {bytes : List Nat} {time : Nat} {p : Pkt}

theorem exec_reply (h : arrive port 0x10 bytes time s = (some p, u)) : exec (.reply port bytes time) s = .next (acknowledge port p u) := by
  refine congrArg Host.Outcome.next ?_
  rw [h]

theorem acknowledge_none (h : replyFor p u = none) : acknowledge port p u = bump u Reg.FAB_DUP 1 := by
  rw [acknowledge, h]

/-- A store whose instruction has completed ends, and nothing else does. -/
theorem acknowledge_store {o : FabOp} (h : replyFor p u = some o) (hk : o.kind = .store) (hm : o.mcast = false) (hd : o.done = true)
    (hs : o.sash = none) (hst : p.status = 0) (hf : u.fab.fences = []) : acknowledge port p u = opGone o.num u := by
  rw [acknowledge, h]
  dsimp only
  have hends : endOp o p.status p.aux p.payload u = opGone o.num u := by
    rw [endOp_store (List.mem_of_find?_eq_some h) hk hd hs (.inr (by rw [hst]; decide))]
    exact fenceNote_none (s := opGone o.num u) hf o.num
  rw [if_neg (by rw [hk]; decide), if_neg (by rw [hm]; exact Bool.false_ne_true), if_neg (by rw [hst]; decide), hends]

theorem advance_empty {e : Nat} (n : Nat) : advance (n + 1) e [] = (e, []) := rfl

theorem exec_sync (h : arrive port 0x20 bytes time s = (some p, u)) : exec (.sync port bytes time) s =
    .next (if 0 < seqFrom (smGet 0 u.fab.rx (rxKey p)) p.seq ∧ seqFrom (smGet 0 u.fab.rx (rxKey p)) p.seq < 2 ^ 31 then
      let r := advance 4097 p.seq ((smGet [] u.fab.rx3 (rxKey p)).filter fun q => decide (seqFrom p.seq q < 4096))
      { u with fab.rx := smSet 0 u.fab.rx (rxKey p) r.1, fab.rx3 := smSet [] u.fab.rx3 (rxKey p) r.2 }
    else u) := by
  refine congrArg Host.Outcome.next ?_
  rw [h]

theorem exec_sync_raises (h : arrive port 0x20 bytes time s = (some p, u)) (hpos : 0 < seqFrom (smGet 0 u.fab.rx (rxKey p)) p.seq)
    (hnear : seqFrom (smGet 0 u.fab.rx (rxKey p)) p.seq < 2 ^ 31) (hnone : smGet [] u.fab.rx3 (rxKey p) = []) :
    ∃ t, exec (.sync port bytes time) s = .next t ∧ smGet 0 t.fab.rx (rxKey p) = p.seq ∧
      (∀ k, k ≠ rxKey p → smGet 0 t.fab.rx k = smGet 0 u.fab.rx k) ∧ keptBut [.fab] u t := by
  rw [exec_sync h, if_pos ⟨hpos, hnear⟩, hnone]
  exact ⟨_, rfl, smGet_smSet_self, fun k hk => smGet_smSet_other hk, fab_kept u _⟩

/-! ### STEP_ABORT and PORTION_FAILED (R324) -/

theorem takeControl_fresh {kind : Nat} {eff : Pkt → State → State} (h : arrive port kind bytes time s = (some p, u)) (hv : p.vc = 0)
    (hf : flowCheck p u = (.fresh, v)) : takeControl kind port bytes time eff s = sendReply p 0 p.aux [] (eff p v) := by
  rw [takeControl, h]
  dsimp only
  rw [if_neg (by simpa using hv), hf]

theorem takeControl_again {kind : Nat} {eff : Pkt → State → State} (h : arrive port kind bytes time s = (some p, u)) (hv : p.vc = 0)
    (hf : flowCheck p u = (.again, v)) : takeControl kind port bytes time eff s = sendReply p 0 p.aux [] v := by
  rw [takeControl, h]
  dsimp only
  rw [if_neg (by simpa using hv), hf]

/-- The step is discarded, and the fault says so. -/
def stepAborted (port : Nat) (p : Pkt) (v : State) : State :=
  fabFault p.source 0x20 (getF v (Reg.FAB_PORT_PLANE_SEEN port)) 7 (discardStep p.aux v)

theorem stepAborted_spec (port : Nat) {p : Pkt} (hp : p.source < 128) (v : State) : p.aux ∈ (stepAborted port p v).ctl.dead ∧
    ofStep p.aux (stepAborted port p v).portion = none ∧ ofStep p.aux (stepAborted port p v).suspended = none ∧
    (∀ q ∈ (stepAborted port p v).finals, q.hdr.step ≠ p.aux) ∧ (∀ h ∈ (stepAborted port p v).inbox, h.step ≠ p.aux) ∧
    getF (stepAborted port p v) Reg.FAB_LAST_FAULT_CAUSE = 7 := by
  have hfault := (fabFault_touches p.source 0x20 (getF v (Reg.FAB_PORT_PLANE_SEEN port)) 7 (discardStep p.aux v)).parts
  obtain ⟨-, hctl⟩ := discardStep_spec p.aux v
  have hall : StepsLeft (fun _ => True) v := ⟨fun _ _ => trivial, fun _ _ => trivial, fun _ _ => trivial, fun _ _ => trivial⟩
  have hleft := (hall.discardStep p.aux).keep hfault
  obtain ⟨hportion, hsuspended, hfinals, hinbox⟩ := hleft.ofStep_portion
  refine ⟨?_, hportion, hsuspended, hfinals, hinbox, (getF_fabFault hp (by decide) _ _ _).2.2⟩
  rw [show (stepAborted port p v).ctl = (discardStep p.aux v).ctl from hfault .ctl (by decide), hctl]
  exact mem_listAdd.mpr (.inr rfl)

end

/-! ### STALE_NOTICE (R330) -/

theorem exec_staleNotice {s : State} {port : Fin 8} {bytes : List Nat} (time : Nat) (hk : bytes.getD 0 0 = 0x23) (hp : portUsable s port = true)
    (ha : stageAlive s = true) (hok : pktOk bytes = true) (ht : (parsePkt bytes).target = myId s) (hm : (parsePkt bytes).mcast = false)
    (hst : getF s Reg.FAB_STATE_STATE = 2 ∨ getF s Reg.FAB_STATE_STATE = 3) : exec (.staleNotice port bytes time) s =
      .next (quarantine (parsePkt bytes).source (getF (atTime time s) (Reg.FAB_PORT_PLANE_SEEN port)) (atTime time s)) := by
  have htime := atTime_touches time s
  refine congrArg Host.Outcome.next ((if_neg ?_).trans ((if_neg (by rw [hok]; decide)).trans (if_pos ⟨?_, ?_, hm⟩)))
  · rw [portUsable_atTime, stageAlive_atTime, hp, ha]
    rintro (h | h)
    · exact h hk
    · cases h
  · rwa [htime.getF (by decide)]
  · rw [ht, myId, myId, htime.getF (by decide)]

/-! ### The statement -/

theorem seqFrom_range (e q : Nat) : seqFrom e q = 0 ∨ 2 ^ 31 ≤ seqFrom e q ↔ ¬ (0 < seqFrom e q ∧ seqFrom e q < 2 ^ 31) := by omega

/-- Settles O44: each packet by its check and its flow; QUARANTINE discards every step that the module holds. -/
theorem fabricAnswersAndControl : Obligations.FabricAnswersAndControl := by
  unfold Obligations.FabricAnswersAndControl
  intro s port bytes time
  refine ⟨fun kind hk hp hc hbad => arrive_failing hk hp hc hbad time, fun u => ⟨fun h => ?_, fun h => ?_, fun h => ?_, fun h => ?_⟩,
    fun p u h => ⟨fun hnone => ?_, fun o ho hk hm hd hs hst hf => ?_⟩, fun p u h hq he => ⟨fun hfar => ?_, exec_sync_raises h⟩,
    fun p u v h hv => ⟨fun hf => ?_, fun hf => ?_⟩, fun p u v h hv => ⟨fun hf hentry => ?_, fun hf hentry => ?_⟩,
    fun hk hp ha hok ht hm hst => ⟨_, exec_staleNotice time hk hp ha hok ht hm hst, quarantine_spec _ _ _⟩⟩
  · refine congrArg Host.Outcome.next ?_
    rw [h]
  · refine congrArg Host.Outcome.next ?_
    rw [h]
  · refine congrArg Host.Outcome.next ?_
    rw [takeControl, h]
  · refine congrArg Host.Outcome.next ?_
    rw [takeControl, h]
  · exact (exec_reply h).trans (congrArg _ (acknowledge_none hnone))
  · exact (exec_reply h).trans (congrArg _ (acknowledge_store ho hk hm hd hs hst hf))
  · exact (exec_sync h).trans (congrArg _ (if_neg ((seqFrom_range _ _).mp hfar)))
  · exact ⟨_, congrArg Host.Outcome.next (takeControl_fresh h hv hf), stepAborted_spec port (arrive_some h).2 v⟩
  · exact congrArg Host.Outcome.next (takeControl_again h hv hf)
  · exact congrArg Host.Outcome.next ((takeControl_fresh h hv hf).trans (congrArg _ (if_pos hentry)))
  · exact congrArg Host.Outcome.next ((takeControl_fresh h hv hf).trans (congrArg _ (if_neg (by rw [hentry]; decide))))

end Sys2Proof.Machine
end

