-- ==== Sys2Proof/Proofs/FabricDiscovery.lean ====
section
/-!
SUPPORT. Proofs/FabricDiscovery.lean: what discovery has heard is forgotten by no resend and by no operation that ends; fabric ports and
their lanes, and O45 (R299 to R301, R326, R327, R330, R331, R449).
-/
namespace Sys2Proof.Machine

set_option Elab.async false

/-! ### What discovery has heard (R326) -/

/-- The planes' announcements and the ports' exchanges are as before. -/
def HeardKept (s t : State) : Prop := t.fab.planes = s.fab.planes ∧ t.fab.seen = s.fab.seen

namespace HeardKept
variable {s t u : State}

protected theorem refl (s : State) : HeardKept s s := ⟨rfl, rfl⟩

protected theorem trans (h : HeardKept s t) (g : HeardKept t u) : HeardKept s u := ⟨g.1.trans h.1, g.2.trans h.2⟩

/-- An operation that leaves the fabric's part alone. -/
protected theorem keep {l : List Part} (h : HeardKept s t) (g : keptBut l t u) (hl : l.contains .fab = false := by decide) : HeardKept s u := by
  have hfab : u.fab = t.fab := g .fab hl
  exact h.trans ⟨by rw [hfab], by rw [hfab]⟩

protected theorem ite {c : Prop} [Decidable c] (h : HeardKept s t) (g : HeardKept s u) : HeardKept s (if c then t else u) := by
  split
  · exact h
  · exact g

protected theorem foldl_mem {α : Type} {f : State → α → State} {xs : List α} (h : HeardKept s t) (hf : ∀ u, ∀ x ∈ xs, HeardKept u (f u x)) :
    HeardKept s (xs.foldl f t) := by
  induction xs generalizing t with
  | nil => exact h
  | cons x xs ih => exact ih (h.trans (hf t x List.mem_cons_self)) fun u y hy => hf u y (List.mem_cons_of_mem _ hy)

protected theorem foldl {α : Type} {f : State → α → State} {xs : List α} (h : HeardKept s t) (hf : ∀ u x, HeardKept u (f u x)) :
    HeardKept s (xs.foldl f t) := h.foldl_mem fun u x _ => hf u x

/-! ### Sending and resending (R303, R319) -/

theorem takeSeq (key : Nat) (s : State) : HeardKept s (takeSeq key s).2 := ⟨rfl, rfl⟩

theorem putOp (o : FabOp) (s : State) : HeardKept s (putOp o s) := ⟨rfl, rfl⟩

theorem toPlane (q route vc : Nat) (bs : List Nat) (s : State) : HeardKept s (toPlane q route vc bs s) := (HeardKept.refl s).keep (toPlane_kept q route vc bs s)

theorem atomTimed (x : List (Nat × List Nat)) (s : State) : HeardKept s { s with fab.atomTimes := x } := ⟨rfl, rfl⟩

theorem sendNew (s : State) (o : FabOp) : HeardKept s (sendNew s o) := by
  have hseq {c : Prop} [Decidable c] {key n : Nat} : HeardKept s (if c then (n, s) else Machine.takeSeq key s).2 := by
    split
    · exact .refl s
    · exact takeSeq _ _
  unfold Machine.sendNew
  refine .ite (.refl s) (.ite (putOp _ s) ?_)
  split
  · exact .refl s
  · have hput {o : FabOp} {c : Prop} [Decidable c] {key n : Nat} :
        HeardKept s (Machine.putOp o (if c then (n, s) else Machine.takeSeq key s).2) := hseq.trans (putOp _ _)
    exact (HeardKept.ite (hput.trans (atomTimed _ _)) hput).trans (toPlane _ _ _ _ _)

theorem fabPump (s : State) : HeardKept s (fabPump s) := .foldl (.refl s) sendNew

theorem resendOp (s : State) (o : FabOp) : HeardKept s (resendOp s o) := by
  refine .foldl (.refl s) fun u x => ?_
  dsimp only
  split
  · exact (((HeardKept.refl u).keep (bump_kept u _ _)).trans (putOp _ _)).trans (toPlane _ _ _ _ _)
  · exact .refl u

theorem resendFlow (key : Nat) (s : State) : HeardKept s (resendFlow key s) := .ite (.foldl (.refl s) resendOp) (.refl s)

theorem replan (s : State) : HeardKept s (replan s) := by
  refine .trans (.foldl (.refl s) fun u k => ?_) (fabPump _)
  split
  · exact .ite (.refl u) (resendFlow k u)
  · exact .refl u

/-! ### Results (R37, R312, R323) -/

theorem addPoison (x : PoisonSrc) (s : State) : HeardKept s (addPoison x s) := (HeardKept.refl s).keep (addPoison_kept x s)

theorem storeLocal (s : State) (a : Nat) (bs : List Nat) : HeardKept s (storeLocal s a bs) :=
  .foldl ((HeardKept.refl s).keep (putBytes_kept s a bs)) fun u _ => addPoison _ u

theorem putData (dst : Nat) (data : List Nat) (bad : Bool) (s : State) : HeardKept s (putData dst data bad s) :=
  .ite (.ite ((HeardKept.refl s).keep (emit_kept s _)) (.refl s)) (.ite ((storeLocal s _ _).keep (setMarks_kept _ _ _)) (storeLocal s _ _))

theorem opResult (o : FabOp) (st old : Nat) (data : List Nat) (s : State) : HeardKept s (opResult o st old data s) := by
  unfold Machine.opResult
  refine .ite (.refl s) ?_
  have herror : HeardKept s (errorValue o.dst o.size s) := ((HeardKept.refl s).keep (putBytes_kept s _ _)).keep (setMarks_kept _ _ _)
  split
  · exact .ite (putData _ _ _ s) herror
  · exact .ite (putData _ _ _ s) (.refl s)
  · exact .ite (storeLocal s _ _) (.refl s)

/-! ### Steps that end (R189, R244, R324) -/

theorem discardCore {c : Nat} (hc : c ≤ 1024) (s : State) : HeardKept s (discardCore c s) := by
  obtain ⟨-, -, -, -, hfab, -⟩ := discardIns_spec c (fun _ => true) s hc
  unfold HeardKept Machine.discardCore
  rw [hfab]
  exact ⟨rfl, rfl⟩

theorem clearCores (s : State) : HeardKept s (clearCores s) := by
  rw [clearCores_eq]
  refine HeardKept.keep (.foldl_mem (.refl s) fun u c hc => ?_) (barriers_cores_kept _ _ _)
  exact .ite (.refl u) (discardCore ((List.mem_range.mp hc).le.trans (by decide)) u)

theorem holdsDropped (step : Nat) (s : State) : HeardKept s (holdsDropped step s) := by
  unfold Machine.holdsDropped
  extract_lets gone s1 s2
  have h1 : HeardKept s s1 := .foldl (.refl s) fun u p => ⟨rfl, rfl⟩
  have h2 : HeardKept s s2 := .ite (h1.trans (clearCores s1)) h1
  exact .ite (h2.trans ⟨rfl, rfl⟩) h2

theorem discardStep (step : Nat) (s : State) : HeardKept s (discardStep step s) := by
  have hcleared : HeardKept s (stepCleared step s) :=
    (((holdsDropped step s).keep (portionsDropped_kept step _)).keep (releaseStepHolds_kept step _)).keep (appendsUndone_kept step _)
  rw [discardStep_eq]
  exact .ite (hcleared.trans ⟨rfl, rfl⟩) hcleared

theorem stepDies (step status : Nat) (s : State) : HeardKept s (stepDies step status s) := by
  unfold Machine.stepDies
  split
  · exact .refl s
  · next f _ =>
    exact ((discardStep step { s with ctl.flights := s.ctl.flights.filter fun g => g.hdr.step != step }).keep
      (foldl_reqDies_over f status f.hdr.reqs _).parts).keep (ringPut_touches journalRing _ _).parts

theorem sendCtrl (kind target status step : Nat) (s : State) : HeardKept s (sendCtrl kind target status step s) :=
  .ite (.refl s) (HeardKept.trans ⟨rfl, rfl⟩ (fabPump _))

theorem endStepAt (step status : Nat) (s : State) : HeardKept s (endStepAt step status s) :=
  .ite ((stepDies step status s).trans (.foldl (.refl _) fun u m => sendCtrl _ m _ _ u)) (.refl s)

theorem portionFailed (step status : Nat) (s : State) : HeardKept s (portionFailed step status s) := by
  refine .ite (endStepAt step status s) ?_
  split
  · exact sendCtrl _ _ _ _ s
  · exact .refl s

/-! ### Operations that end (R316, R323, R324) -/

theorem noteStatus (o : FabOp) (st : Nat) (s : State) : HeardKept s (noteStatus o st s) := by
  unfold Machine.noteStatus
  split
  · exact .refl s
  · exact .ite (.refl s) (.ite ⟨rfl, rfl⟩ (portionFailed _ st s))

theorem complete (c : Nat) (u : XUnit) (index latency : Nat) (s : State) : HeardKept s (complete c u index latency s) := by
  obtain ⟨-, -, hk, -⟩ := complete_spec c u index latency s
  exact (HeardKept.refl s).keep hk

theorem fenceNote (num : Nat) (s : State) : HeardKept s (fenceNote num s) :=
  HeardKept.trans ⟨rfl, rfl⟩ (.foldl (.refl _) fun u _ => complete _ _ _ _ u)

theorem endOp (o : FabOp) (st old : Nat) (data : List Nat) (s : State) : HeardKept s (endOp o st old data s) := by
  refine .ite (.refl s) (HeardKept.trans (HeardKept.trans ?_ (fenceNote _ _)) (noteStatus _ st _))
  have hseq {c : Prop} [Decidable c] {key n : Nat} : HeardKept s (if c then Machine.takeSeq key s else (n, s)).2 := by
    split
    · exact takeSeq key s
    · exact .refl s
  have hcomplete (r : State) (o1 : FabOp) (hr : HeardKept s r) (ops : List FabOp) {c : Prop} [Decidable c] {n : Nat} :
      HeardKept s (if c then Machine.opResult o1 st old data { r with fab.ops := ops }
        else Machine.complete o.core .mem o.index n (Machine.opResult o1 st old data { r with fab.ops := ops })) := by
    have hres : HeardKept s (Machine.opResult o1 st old data { r with fab.ops := ops }) :=
      (hr.trans (u := { r with fab.ops := ops }) ⟨rfl, rfl⟩).trans (opResult _ _ _ _ _)
    exact .ite hres (hres.trans (complete _ _ _ _ _))
  split
  · exact (hcomplete _ _ hseq _).trans ⟨rfl, rfl⟩
  · exact hcomplete _ _ hseq _

theorem endDead (target : Nat) (s : State) (o : FabOp) : HeardKept s (endDead target s o) := by
  have hfault : HeardKept s (fabFault target 0x20 o.plane 1 (bump s Reg.FAB_BOUND 1)) :=
    ((HeardKept.refl s).keep (bump_kept s _ _)).keep (fabFault_touches _ _ _ _ _).parts
  exact .ite ⟨rfl, rfl⟩ (hfault.trans (endOp o _ _ _ _))

theorem markDead (s : State) (target : Nat) : HeardKept s (markDead s target) :=
  HeardKept.trans ⟨rfl, rfl⟩ (.foldl (.refl _) (endDead target))

/-! ### Discovery (R326, R327) -/

theorem setFabState (v : Nat) (s : State) : HeardKept s (setFabState v s) := .ite (.refl s) ⟨rfl, rfl⟩

theorem comparePlan (pos : Nat) (plan : List PlanPos) (s : State) : HeardKept s (comparePlan pos plan s) :=
  .keep (.keep (.keep (.keep (.keep (.keep (.keep (.refl s) (keptBut_setF _ _ _)) (keptBut_setF _ _ _)) (keptBut_setF _ _ _)) (keptBut_setF _ _ _))
    (keptBut_setF _ _ _)) (keptBut_setF _ _ _)) (putDev_kept _ _ _)

theorem discovery (s : State) : HeardKept s (discovery s) := by
  unfold Machine.discovery
  split
  · exact setFabState 1 s
  · split
    · exact HeardKept.trans ⟨rfl, rfl⟩ (setFabState 5 _)
    · have hports (pos : Nat) : HeardKept s ((reporting s).foldl (classifyPort pos) { s with fab.position := some pos }) :=
        HeardKept.trans (t := { s with fab.position := some pos }) ⟨rfl, rfl⟩ (.foldl (.refl _) fun u p => .ite ⟨rfl, rfl⟩ ⟨rfl, rfl⟩)
      have hcmp (pos : Nat) (plan : List PlanPos) := (hports pos).trans (comparePlan pos plan _)
      exact .ite ((((hcmp _ _).keep (setB_kept _ _ _)).keep (keptBut_setF _ _ _)).trans (setFabState _ _)) ((hcmp _ _).trans (setFabState 6 _))

theorem rediscover (s : State) : HeardKept s (rediscover s) := .ite ((discovery s).trans (replan _)) (.refl s)

end HeardKept

end Sys2Proof.Machine
end

