-- ==== Sys2Proof/Proofs/FabricPorts.lean ====
section
/-!
SUPPORT. Proofs/FabricPorts.lean: fabric ports' lanes, links and discovery, and O45 (R299 to R301, R326, R327, R330, R331, R449).
-/
namespace Sys2Proof.Machine

set_option Elab.async false

/-! ### The registers of a port -/

/-- The registers that training and the loss of a lane write. -/
def laneFlds (p : Nat) : List Fld := [Reg.FAB_PORT_LINK p, Reg.FAB_PORT_LANE_OK p, Reg.FAB_PORT_SPARE_USED p, Reg.FAB_PORT_REVERSED p]

/-- The registers that a DISCOVER exchange writes. -/
def exchangeFlds (p : Nat) : List Fld := [Reg.FAB_PORT_SWAPPED p, Reg.FAB_PORT_PLANE_SEEN p, Reg.FAB_PORT_SWITCH_PORT p, Reg.FAB_PORT_RACK_SEEN p,
  Reg.FAB_PORT_POSITION p]

theorem portFlds_nodup : ∀ p : Fin 8, ((laneFlds p ++ exchangeFlds p).map (fldKey · .a)).Nodup := by decide

theorem portFlds_quiet : ∀ p : Fin 8, ∀ f ∈ laneFlds p ++ exchangeFlds p, pmcKey (fldKey f .a) = false ∧ fabFaultKey (fldKey f .a) = false := by
  decide

theorem exchangeFlds_quiet : ∀ p : Fin 8, ∀ f ∈ exchangeFlds p, discoveryKey (fldKey f .a) = false := by decide

/-- Registers that no lane, link or exchange writes. -/
def asideFlds : List Fld := [Reg.ID_SERIAL, Reg.ID_MODULE_TPOS, Reg.ID_RESOURCES_FAB_PORTS, Reg.FAB_STATE_STATE]

theorem asideFlds_apart : ∀ p : Fin 8, ∀ f ∈ asideFlds, oneOf (laneFlds p) (fldKey f .a) = false := by decide

theorem asideFlds_quiet : ∀ f ∈ asideFlds, pmcKey (fldKey f .a) = false ∧ fabFaultKey (fldKey f .a) = false := by decide

section
variable {s : State} (port : Fin 8)

/-! ### Links (R326, R331) -/

/-- The link's state is shown, and the port's exchange is forgotten. -/
def linkShown (p link : Nat) (s : State) : State := { setF s (Reg.FAB_PORT_LINK p) link with fab.seen := s.fab.seen.filter (· != p) }

theorem linkShown_touches (p link : Nat) (s : State) : Touches [.flds, .fab] (oneOf (laneFlds p)) s (linkShown p link s) :=
  .keep (Touches.setOne (.refl s) List.mem_cons_self) (fab_kept _ _)

theorem getF_linkShown (p : Nat) {link : Nat} (h : link < 8) (s : State) : getF (linkShown p link s) (Reg.FAB_PORT_LINK p) = link :=
  (getF_setF_self s (Reg.FAB_PORT_LINK p) link).trans (Nat.mod_eq_of_lt h)

theorem not_seen_linkShown (p link : Nat) (s : State) : p ∉ (linkShown p link s).fab.seen := fun h => by
  simpa using (List.mem_filter.mp h).2

theorem getF_linkShown_ne (p : Nat) {link : Nat} {f : Fld} (hf : fldKey f .a ≠ fldKey (Reg.FAB_PORT_LINK p) .a) (s : State) :
    getF (linkShown p link s) f = getF s f :=
  getF_setF_ne hf

theorem getF_aside {f : Fld} (hf : f ∈ asideFlds) (link : Nat) (s : State) : getF (linkShown port link s) f = getF s f :=
  (linkShown_touches port link s).getF (asideFlds_apart port f hf)

/-- A port in service already that is trained sends DISCOVER. -/
theorem portTrained_eq (h : getBit s Reg.ID_RESOURCES_FAB_PORTS port = true) : portTrained port s =
    emit (linkShown port 2 s) (.discover port (getF s Reg.ID_SERIAL) (getF s Reg.ID_MODULE_TPOS)) := by
  have hservice : portService port true (linkShown port 2 s) = linkShown port 2 s :=
    if_pos (by rw [getBit, getF_aside port (by decide)]; exact h)
  rw [← getF_aside port (f := Reg.ID_SERIAL) (by decide) 2 s, ← getF_aside port (f := Reg.ID_MODULE_TPOS) (by decide) 2 s]
  exact congrArg (emit · _) hservice

theorem rediscover_unready (hr : s.ready = false) : rediscover s = s :=
  if_neg (by rw [hr, Bool.and_false]; exact Bool.false_ne_true)

/-- The fault of a port that has gone. -/
def portFault (p cause : Nat) (s : State) : State := fabFault (myId s) 0 (getF s (Reg.FAB_PORT_PLANE_SEEN p)) cause s

/-- A port out of service already that goes, before the module is ready, is a fault and no more. -/
theorem portGone_eq (link cause : Nat) (hr : s.ready = false) (h : getBit s Reg.ID_RESOURCES_FAB_PORTS port = false) :
    portGone port link cause s = portFault port cause (linkShown port link s) := by
  have hservice : portService port false (linkShown port link s) = linkShown port link s :=
    if_pos (by rw [getBit, getF_aside port (by decide)]; exact h)
  have hfault := (fabFault_touches (myId (linkShown port link s)) 0 (getF (linkShown port link s) (Reg.FAB_PORT_PLANE_SEEN port)) cause
    (linkShown port link s)).parts
  have hready : (portFault port cause (linkShown port link s)).ready = false := (hfault .ready (by decide)).trans hr
  calc portGone port link cause s
    _ = rediscover (fabFault (myId (linkShown port link s)) 0 (getF (linkShown port link s) (Reg.FAB_PORT_PLANE_SEEN port)) cause
          (portService port false (linkShown port link s))) := rfl
    _ = rediscover (portFault port cause (linkShown port link s)) := by rw [hservice]; rfl
    _ = portFault port cause (linkShown port link s) := rediscover_unready hready

theorem getF_fabFault_cause {cause : Nat} (hc : cause < 16) (target status plane : Nat) (s : State) :
    getF (fabFault target status plane cause s) Reg.FAB_LAST_FAULT_CAUSE = cause :=
  (getF_irqBoth (by decide) _ _ (by decide)).trans ((getF_setF_self _ _ _).trans (Nat.mod_eq_of_lt hc))

/-- What a port that goes leaves, before the module is ready. -/
theorem portGone_spec {link cause : Nat} (hl : link < 8) (hc : cause < 16) (hr : s.ready = false)
    (h : getBit s Reg.ID_RESOURCES_FAB_PORTS port = false) : getF (portGone port link cause s) (Reg.FAB_PORT_LINK port) = link ∧
      port.val ∉ (portGone port link cause s).fab.seen ∧ getF (portGone port link cause s) Reg.FAB_LAST_FAULT_CAUSE = cause ∧
      getF (portGone port link cause s) Reg.FAB_STATE_STATE = getF s Reg.FAB_STATE_STATE ∧
      keptBut (.fab :: irqParts) s (portGone port link cause s) := by
  rw [portGone_eq port link cause hr h]
  have hlinked := linkShown_touches port link s
  have hfault := fabFault_touches (myId (linkShown port link s)) 0 (getF (linkShown port link s) (Reg.FAB_PORT_PLANE_SEEN port)) cause
    (linkShown port link s)
  refine ⟨?_, ?_, getF_fabFault_cause hc _ _ _ _, ?_, (keptBut_trans hlinked.parts hfault.parts).mono (by decide)⟩
  · exact (hfault.getF (portFlds_quiet port _ (List.mem_append_left _ List.mem_cons_self)).2).trans (getF_linkShown port hl s)
  · rw [portFault, show (fabFault _ 0 _ cause (linkShown port link s)).fab = _ from hfault.parts .fab (by decide)]
    exact not_seen_linkShown port link s
  · exact (hfault.getF (asideFlds_quiet _ (by decide)).2).trans (getF_aside port (by decide) link s)

/-! ### Lanes (R299, R300) -/

/-- R299: what training finds of the lanes. -/
def lanesNoted (p : Nat) (reversed : Bool) (good : Fin 32) (s : State) : State :=
  setF (setB (setB s (Reg.FAB_PORT_REVERSED p) reversed) (Reg.FAB_PORT_SPARE_USED p) (!(List.range 4).all fun k => bit good.val k))
    (Reg.FAB_PORT_LANE_OK p) good

theorem lanesNoted_touches (p : Nat) (reversed : Bool) (good : Fin 32) (s : State) :
    Touches [.flds] (oneOf (laneFlds p)) s (lanesNoted p reversed good s) := by
  have hlane : Reg.FAB_PORT_LANE_OK p ∈ laneFlds p := List.mem_cons_of_mem _ List.mem_cons_self
  have hspare : Reg.FAB_PORT_SPARE_USED p ∈ laneFlds p := List.mem_cons_of_mem _ (List.mem_cons_of_mem _ List.mem_cons_self)
  have hreversed : Reg.FAB_PORT_REVERSED p ∈ laneFlds p :=
    List.mem_cons_of_mem _ (List.mem_cons_of_mem _ (List.mem_cons_of_mem _ List.mem_cons_self))
  exact Touches.setOne (Touches.setOne (Touches.setOne (.refl s) hreversed) hspare) hlane

theorem lane_keys : ∀ p : Fin 8, fldKey (Reg.FAB_PORT_SPARE_USED p) .a ≠ fldKey (Reg.FAB_PORT_LANE_OK p) .a ∧
    fldKey (Reg.FAB_PORT_REVERSED p) .a ≠ fldKey (Reg.FAB_PORT_LANE_OK p) .a ∧
    fldKey (Reg.FAB_PORT_REVERSED p) .a ≠ fldKey (Reg.FAB_PORT_SPARE_USED p) .a ∧
    fldKey (Reg.FAB_PORT_LANE_OK p) .a ≠ fldKey (Reg.FAB_PORT_LINK p) .a ∧ fldKey (Reg.FAB_PORT_SPARE_USED p) .a ≠ fldKey (Reg.FAB_PORT_LINK p) .a ∧
    fldKey (Reg.FAB_PORT_REVERSED p) .a ≠ fldKey (Reg.FAB_PORT_LINK p) .a := by decide

theorem lanesNoted_shown (reversed : Bool) (good : Fin 32) (s : State) :
    getF (lanesNoted port reversed good s) (Reg.FAB_PORT_LANE_OK port) = good ∧
    getB (lanesNoted port reversed good s) (Reg.FAB_PORT_REVERSED port) = reversed ∧
    getB (lanesNoted port reversed good s) (Reg.FAB_PORT_SPARE_USED port) = !((List.range 4).all fun k => bit good.val k) := by
  obtain ⟨hspare, hreversed, hboth, -, -, -⟩ := lane_keys port
  refine ⟨(getF_setF_self _ _ _).trans (Nat.mod_eq_of_lt good.isLt), ?_, ?_⟩
  · rw [getB, lanesNoted, getF_setF_ne hreversed, setB, getF_setF_ne hboth]
    exact getB_setB_self s (Reg.FAB_PORT_REVERSED port) reversed (Nat.zero_lt_one)
  · rw [getB, lanesNoted, getF_setF_ne hspare]
    exact getB_setB_self _ (Reg.FAB_PORT_SPARE_USED port) _ (Nat.zero_lt_one)

variable (time : Nat)

theorem getF_lane_atTime {f : Fld} (hf : f ∈ laneFlds port ++ exchangeFlds port) (s : State) : getF (atTime time s) f = getF s f :=
  (atTime_touches time s).getF (portFlds_quiet port f hf).1

theorem getF_link_atTime (s : State) : getF (atTime time s) (Reg.FAB_PORT_LINK port) = getF s (Reg.FAB_PORT_LINK port) :=
  getF_lane_atTime port time (List.mem_append_left _ List.mem_cons_self) s

theorem getF_lanes_atTime (s : State) : getF (atTime time s) (Reg.FAB_PORT_LANE_OK port) = getF s (Reg.FAB_PORT_LANE_OK port) :=
  getF_lane_atTime port time (List.mem_append_left _ (List.mem_cons_of_mem _ List.mem_cons_self)) s

/-- The state of the lanes as training finds it at its time. -/
def trainedAt (p : Nat) (reversed : Bool) (good : Fin 32) (time : Nat) (s : State) : State := lanesNoted p reversed good (atTime time s)

theorem trainedAt_kept (p : Nat) (reversed : Bool) (good : Fin 32) (s : State) : keptBut [.flds, .now] s (trainedAt p reversed good time s) :=
  (keptBut_trans (atTime_touches time s).parts (lanesNoted_touches p reversed good _).parts).mono (by decide)

theorem getF_trainedAt {f : Fld} (hf : f ∈ asideFlds) (reversed : Bool) (good : Fin 32) (s : State) :
    getF (trainedAt port reversed good time s) f = getF s f :=
  ((lanesNoted_touches port reversed good _).getF (asideFlds_apart port f hf)).trans ((atTime_touches time s).getF (asideFlds_quiet f hf).1)

theorem getF_link_trainedAt (reversed : Bool) (good : Fin 32) (s : State) :
    getF (trainedAt port reversed good time s) (Reg.FAB_PORT_LINK port) = getF s (Reg.FAB_PORT_LINK port) := by
  obtain ⟨-, -, -, hlane, hspare, hreversed⟩ := lane_keys port
  rw [trainedAt, lanesNoted, getF_setF_ne hlane.symm, setB, getF_setF_ne hspare.symm, setB, getF_setF_ne hreversed.symm, getF_link_atTime]

theorem exec_laneTrain (ha : stageAlive s = true) (hl : getF s (Reg.FAB_PORT_LINK port) ≠ 5) (reversed : Bool) (good : Fin 32) (keyOk : Bool) :
    exec (.laneTrain port reversed good keyOk time) s = .next (
      if countBits 5 good.val < 4 then portShut port (trainedAt port reversed good time s)
      else if keyOk then portTrained port
        { trainedAt port reversed good time s with fab.linkKeys := alSet (trainedAt port reversed good time s).fab.linkKeys port time }
      else portGone port 0 4 (trainedAt port reversed good time s)) := by
  refine congrArg Host.Outcome.next (if_neg ?_)
  rw [getF_link_atTime, stageAlive_atTime, ha]
  simpa using hl

theorem exec_laneTrain_up (ha : stageAlive s = true) (hl : getF s (Reg.FAB_PORT_LINK port) ≠ 5) (reversed : Bool) {good : Fin 32} {keyOk : Bool}
    (hgood : 4 ≤ countBits 5 good.val) (hkey : keyOk = true) (hres : getBit s Reg.ID_RESOURCES_FAB_PORTS port = true) : ∃ t,
      exec (.laneTrain port reversed good keyOk time) s = .next t ∧ getF t (Reg.FAB_PORT_LINK port) = 2 ∧
      getF t (Reg.FAB_PORT_LANE_OK port) = good ∧ getB t (Reg.FAB_PORT_REVERSED port) = reversed ∧
      getB t (Reg.FAB_PORT_SPARE_USED port) = !((List.range 4).all fun k => bit good.val k) ∧
      t.out = .discover port (getF s Reg.ID_SERIAL) (getF s Reg.ID_MODULE_TPOS) :: s.out ∧ alGet t.fab.linkKeys port = some time ∧
      keptBut [.flds, .now, .fab, .out] s t := by
  obtain ⟨w, hw⟩ : ∃ w, w = { trainedAt port reversed good time s with
    fab.linkKeys := alSet (trainedAt port reversed good time s).fab.linkKeys port time } := ⟨_, rfl⟩
  have hkept : keptBut [.flds, .now, .fab] s w := by
    rw [hw]
    exact (keptBut_trans (trainedAt_kept time port reversed good s) (fab_kept _ _)).mono (by decide)
  have hflds : w.flds = (trainedAt port reversed good time s).flds := by rw [hw]
  have haside {f : Fld} (hf : f ∈ asideFlds) : getF w f = getF s f := (getF_congr hflds f).trans (getF_trainedAt port time hf reversed good s)
  have hresw : getBit w Reg.ID_RESOURCES_FAB_PORTS port = true := by rw [getBit, haside (by decide)]; exact hres
  have hexec : exec (.laneTrain port reversed good keyOk time) s =
      .next (emit (linkShown port 2 w) (.discover port (getF s Reg.ID_SERIAL) (getF s Reg.ID_MODULE_TPOS))) := by
    rw [exec_laneTrain port time ha hl, if_neg (Nat.not_lt.mpr hgood), if_pos hkey, ← hw, portTrained_eq port hresw, haside (by decide),
      haside (by decide)]
  obtain ⟨hlanes, hreversed, hspare⟩ := lanesNoted_shown port reversed good (atTime time s)
  obtain ⟨-, -, -, klane, kspare, kreversed⟩ := lane_keys port
  have hlinked := linkShown_touches port 2 w
  have hkeys : w.fab.linkKeys = alSet (trainedAt port reversed good time s).fab.linkKeys port time := by rw [hw]
  have hshown {f : Fld} (hf : fldKey f .a ≠ fldKey (Reg.FAB_PORT_LINK port) .a) (o : Out) : getF (emit (linkShown port 2 w) o) f =
      getF (lanesNoted port reversed good (atTime time s)) f :=
    (getF_congr (emit_flds _ o) f).trans ((getF_linkShown_ne port hf w).trans (getF_congr hflds f))
  refine ⟨_, hexec, (getF_congr (emit_flds _ _) _).trans (getF_linkShown port (by decide) w), (hshown klane _).trans hlanes,
    (congrArg (· == 1) (hshown kreversed _)).trans hreversed, (congrArg (· == 1) (hshown kspare _)).trans hspare, ?_, ?_, ?_⟩
  · rw [emit_out, show (linkShown port 2 w).out = w.out from rfl, show w.out = s.out from hkept .out (by decide)]
  · show alGet w.fab.linkKeys port = _
    rw [hkeys]
    exact alGet_alSet_self
  · exact (keptBut_trans (keptBut_trans hkept hlinked.parts) (emit_kept _ _)).mono (by decide)

theorem exec_laneTrain_shut (ha : stageAlive s = true) (hl : getF s (Reg.FAB_PORT_LINK port) ≠ 5) (reversed keyOk : Bool) {good : Fin 32}
    (hbad : countBits 5 good.val < 4) (hr : s.ready = false) (hres : getBit s Reg.ID_RESOURCES_FAB_PORTS port = false) : ∃ t,
      exec (.laneTrain port reversed good keyOk time) s = .next t ∧ getF t (Reg.FAB_PORT_LINK port) = 5 ∧ port.val ∉ t.fab.seen ∧
        getF t Reg.FAB_LAST_FAULT_CAUSE = 5 ∧ keptBut (.now :: .fab :: irqParts) s t := by
  have hkept := trainedAt_kept time port reversed good s
  have hreadyw : (trainedAt port reversed good time s).ready = false := (hkept .ready (by decide)).trans hr
  have hresw : getBit (trainedAt port reversed good time s) Reg.ID_RESOURCES_FAB_PORTS port = false := by
    rw [getBit, getF_trainedAt port time (by decide)]
    exact hres
  have hshut : portShut port (trainedAt port reversed good time s) = portGone port 5 5 (trainedAt port reversed good time s) :=
    if_neg (by rwa [getF_link_trainedAt])
  obtain ⟨hlink, hseen, hcause, -, hparts⟩ := portGone_spec port (link := 5) (cause := 5) (by decide) (by decide) hreadyw hresw
  refine ⟨_, (exec_laneTrain port time ha hl reversed good keyOk).trans (congrArg _ ((if_pos hbad).trans hshut)), hlink, hseen, hcause,
    (keptBut_trans hkept hparts).mono (by decide)⟩

/-! ### The loss of a lane (R299) -/

/-- The lane is bad. -/
def laneLost (p : Nat) (lane : Fin 5) (time : Nat) (s : State) : State := setBit (atTime time s) (Reg.FAB_PORT_LANE_OK p) lane false

theorem exec_laneFail (lane : Fin 5) (h : getBit s (Reg.FAB_PORT_LANE_OK port) lane = true) : exec (.laneFail port lane time) s = .next (
    if countBits 5 (getF (laneLost port lane time s) (Reg.FAB_PORT_LANE_OK port)) < 4 then portShut port (laneLost port lane time s)
    else if lane.val < 4 then setF (laneLost port lane time s) (Reg.FAB_PORT_SPARE_USED port) 1 else laneLost port lane time s) :=
  congrArg Host.Outcome.next (if_pos (by rw [getBit, getF_lanes_atTime]; exact h))

theorem exec_laneFail_bad (lane : Fin 5) (h : getBit s (Reg.FAB_PORT_LANE_OK port) lane = false) :
    exec (.laneFail port lane time) s = .next (atTime time s) :=
  congrArg Host.Outcome.next (if_neg (by rw [getBit, getF_lanes_atTime, ← getBit, h]; exact Bool.false_ne_true))

theorem getF_laneLost (lane : Fin 5) (s : State) : getF (laneLost port lane time s) (Reg.FAB_PORT_LANE_OK port) =
    setBitsAt (getF s (Reg.FAB_PORT_LANE_OK port)) lane 1 0 % 2 ^ 5 := by
  rw [laneLost, setBit, getF_setF_self, getF_lanes_atTime]
  rfl

theorem laneLost_touches (p : Nat) (lane : Fin 5) (s : State) : Touches [.flds] (oneOf (laneFlds p)) (atTime time s) (laneLost p lane time s) :=
  .setBit (.refl _) (oneOf_mem (List.mem_cons_of_mem _ List.mem_cons_self))

/-- The spare takes the lane's place while four lanes are good. -/
theorem exec_laneFail_spared (lane : Fin 5) (h : getBit s (Reg.FAB_PORT_LANE_OK port) lane = true)
    (hgood : 4 ≤ countBits 5 (setBitsAt (getF s (Reg.FAB_PORT_LANE_OK port)) lane 1 0 % 2 ^ 5)) : ∃ t,
      exec (.laneFail port lane time) s = .next t ∧ getBit t (Reg.FAB_PORT_LANE_OK port) lane = false ∧
        (lane.val < 4 → getF t (Reg.FAB_PORT_SPARE_USED port) = 1) ∧ getF t (Reg.FAB_PORT_LINK port) = getF s (Reg.FAB_PORT_LINK port) ∧
        keptBut [.flds, .now] s t := by
  obtain ⟨kspare, -, -, klane, kslink, -⟩ := lane_keys port
  have hmany : ¬ countBits 5 (getF (laneLost port lane time s) (Reg.FAB_PORT_LANE_OK port)) < 4 := by
    rw [getF_laneLost]
    exact Nat.not_lt.mpr hgood
  have hlost : getBit (laneLost port lane time s) (Reg.FAB_PORT_LANE_OK port) lane = false := getBit_setBit_self _ lane.isLt false
  have hlink : getF (laneLost port lane time s) (Reg.FAB_PORT_LINK port) = getF s (Reg.FAB_PORT_LINK port) := by
    rw [laneLost, setBit, getF_setF_ne klane.symm, getF_link_atTime]
  have hkept : keptBut [.flds, .now] s (laneLost port lane time s) :=
    (keptBut_trans (atTime_touches time s).parts (laneLost_touches time port lane s).parts).mono (by decide)
  rw [exec_laneFail port time lane h, if_neg hmany]
  by_cases hlane : lane.val < 4
  · rw [if_pos hlane]
    refine ⟨_, rfl, ?_, fun _ => getF_setF_self _ _ _, ?_, (keptBut_trans hkept (keptBut_setF _ _ _)).mono (by decide)⟩
    · rw [getBit, getF_setF_ne kspare.symm]
      exact hlost
    · rw [getF_setF_ne kslink.symm, hlink]
  · rw [if_neg hlane]
    exact ⟨_, rfl, hlost, fun hlt => absurd hlt hlane, hlink, hkept⟩

/-! ### Link keys and link states (R330, R331, R449) -/

theorem exec_linkKeyRenew (h : getF s (Reg.FAB_PORT_LINK port) = 2) : exec (.linkKeyRenew port time) s =
    .next { atTime time s with fab.linkKeys := alSet (atTime time s).fab.linkKeys port time } :=
  congrArg Host.Outcome.next (if_pos (by rw [getF_link_atTime]; exact h))

/-- A port that goes down before the module is ready. -/
theorem exec_fabricPortStateChange_gone {link : Fin 5} (hlink : link.val = 0 ∨ link.val = 1) (h5 : getF s (Reg.FAB_PORT_LINK port) ≠ 5)
    (ha : stageAlive s = true) (hr : s.ready = false) (hres : getBit s Reg.ID_RESOURCES_FAB_PORTS port = false) : ∃ t,
      exec (.fabricPortStateChange port link time) s = .next t ∧ getF t (Reg.FAB_PORT_LINK port) = link.val ∧ port.val ∉ t.fab.seen ∧
        getF t Reg.FAB_LAST_FAULT_CAUSE = 4 ∧ getF t Reg.FAB_STATE_STATE = getF s Reg.FAB_STATE_STATE ∧ keptBut (.now :: .fab :: irqParts) s t := by
  have htime := atTime_touches time s
  have hreadyw : (atTime time s).ready = false := (htime.parts .ready (by decide)).trans hr
  have hresw : getBit (atTime time s) Reg.ID_RESOURCES_FAB_PORTS port = false := by
    rw [getBit, htime.getF (by decide)]
    exact hres
  obtain ⟨hl, hseen, hcause, hstate, hparts⟩ := portGone_spec port (link := link.val) (cause := 4) (by omega) (by decide) hreadyw hresw
  have hpass : ¬ ((getF (atTime time s) (Reg.FAB_PORT_LINK port) = 5 || link.val == 3 || !stageAlive (atTime time s)) = true) := by
    rw [getF_link_atTime, stageAlive_atTime, ha]
    rcases hlink with h | h <;> simp [h, h5]
  have hnot : ¬ ((getF (portGone port link.val 4 (atTime time s)) Reg.FAB_STATE_STATE = 2 ∨
      getF (portGone port link.val 4 (atTime time s)) Reg.FAB_STATE_STATE = 3) ∧
      (List.range 8).all (fun p => getF (portGone port link.val 4 (atTime time s)) (Reg.FAB_PORT_LINK p) == 4) = true) := by
    rintro ⟨-, hall⟩
    have hport := List.all_eq_true.mp hall port.val (List.mem_range.mpr port.isLt)
    rw [hl, beq_iff_eq] at hport
    omega
  refine ⟨portGone port link.val 4 (atTime time s), congrArg Host.Outcome.next ((if_neg hpass).trans ?_), hl, hseen, hcause,
    hstate.trans (htime.getF (by decide)), (keptBut_trans htime.parts hparts).mono (by decide)⟩
  rcases hlink with h | h
  · obtain rfl : link = 0 := Fin.ext h
    exact if_neg hnot
  · obtain rfl : link = 1 := Fin.ext h
    exact if_neg hnot

/-! ### Discovery (R326) -/

/-- What the exchange reports of the port's far end. -/
def exchangeNoted (port : Fin 8) (rack : Fin 2) (plane : Fin 8) (swPort : Fin 64) (s : State) : State :=
  setF (setF (setF (setF (setB s (Reg.FAB_PORT_SWAPPED port) (plane != port)) (Reg.FAB_PORT_PLANE_SEEN port) plane)
    (Reg.FAB_PORT_SWITCH_PORT port) swPort) (Reg.FAB_PORT_RACK_SEEN port) rack) (Reg.FAB_PORT_POSITION port) (64 * rack.val + swPort.val)

/-- The exchange has ended. -/
def exchanged (port : Fin 8) (rack : Fin 2) (plane : Fin 8) (swPort : Fin 64) (s : State) : State :=
  { exchangeNoted port rack plane swPort s with fab.seen := listAdd (exchangeNoted port rack plane swPort s).fab.seen port }

theorem exec_discover (rack : Fin 2) (plane : Fin 8) (swPort : Fin 64) (h : getF s (Reg.FAB_PORT_LINK port) = 2) :
    exec (.discover port rack plane swPort time) s = .next (rediscover (exchanged port rack plane swPort (atTime time s))) :=
  congrArg Host.Outcome.next (if_pos (.inl (by rw [getF_link_atTime]; exact h)))

theorem exchange_keys : ∀ p : Fin 8, (fldKey (Reg.FAB_PORT_SWAPPED p) .a ≠ fldKey (Reg.FAB_PORT_PLANE_SEEN p) .a ∧
    fldKey (Reg.FAB_PORT_SWAPPED p) .a ≠ fldKey (Reg.FAB_PORT_SWITCH_PORT p) .a ∧
    fldKey (Reg.FAB_PORT_SWAPPED p) .a ≠ fldKey (Reg.FAB_PORT_RACK_SEEN p) .a ∧
    fldKey (Reg.FAB_PORT_SWAPPED p) .a ≠ fldKey (Reg.FAB_PORT_POSITION p) .a) ∧
    (fldKey (Reg.FAB_PORT_PLANE_SEEN p) .a ≠ fldKey (Reg.FAB_PORT_SWITCH_PORT p) .a ∧
    fldKey (Reg.FAB_PORT_PLANE_SEEN p) .a ≠ fldKey (Reg.FAB_PORT_RACK_SEEN p) .a ∧
    fldKey (Reg.FAB_PORT_PLANE_SEEN p) .a ≠ fldKey (Reg.FAB_PORT_POSITION p) .a) ∧
    (fldKey (Reg.FAB_PORT_SWITCH_PORT p) .a ≠ fldKey (Reg.FAB_PORT_RACK_SEEN p) .a ∧
    fldKey (Reg.FAB_PORT_SWITCH_PORT p) .a ≠ fldKey (Reg.FAB_PORT_POSITION p) .a) ∧
    fldKey (Reg.FAB_PORT_RACK_SEEN p) .a ≠ fldKey (Reg.FAB_PORT_POSITION p) .a := by decide

theorem exchangeNoted_shown (rack : Fin 2) (plane : Fin 8) (swPort : Fin 64) (s : State) :
    let t := exchangeNoted port rack plane swPort s
    getF t (Reg.FAB_PORT_PLANE_SEEN port) = plane ∧ getB t (Reg.FAB_PORT_SWAPPED port) = (plane != port) ∧
      getF t (Reg.FAB_PORT_SWITCH_PORT port) = swPort ∧ getF t (Reg.FAB_PORT_RACK_SEEN port) = rack ∧
      getF t (Reg.FAB_PORT_POSITION port) = 64 * rack.val + swPort.val := by
  obtain ⟨⟨s1, s2, s3, s4⟩, ⟨p2, p3, p4⟩, ⟨w3, w4⟩, r4⟩ := exchange_keys port
  have hpos : 64 * rack.val + swPort.val < 2 ^ 7 := by omega
  refine ⟨?_, ?_, ?_, ?_, (getF_setF_self _ _ _).trans (Nat.mod_eq_of_lt hpos)⟩
  · rw [exchangeNoted, getF_setF_ne p4, getF_setF_ne p3, getF_setF_ne p2, getF_setF_self]
    exact Nat.mod_eq_of_lt plane.isLt
  · rw [exchangeNoted, getB, getF_setF_ne s4, getF_setF_ne s3, getF_setF_ne s2, getF_setF_ne s1]
    exact getB_setB_self s (Reg.FAB_PORT_SWAPPED port) _ Nat.zero_lt_one
  · rw [exchangeNoted, getF_setF_ne w4, getF_setF_ne w3, getF_setF_self]
    exact Nat.mod_eq_of_lt swPort.isLt
  · rw [exchangeNoted, getF_setF_ne r4, getF_setF_self]
    exact Nat.mod_eq_of_lt rack.isLt

theorem getF_rediscover_exchange {f : Fld} (hf : f ∈ exchangeFlds port) (s : State) : getF (rediscover s) f = getF s f :=
  (rediscover_touches s).getF (exchangeFlds_quiet port f hf)

theorem exec_discover_spec (rack : Fin 2) (plane : Fin 8) (swPort : Fin 64) (h : getF s (Reg.FAB_PORT_LINK port) = 2) : ∃ t,
      exec (.discover port rack plane swPort time) s = .next t ∧ getF t (Reg.FAB_PORT_PLANE_SEEN port) = plane ∧
        getB t (Reg.FAB_PORT_SWAPPED port) = (plane != port) ∧ getF t (Reg.FAB_PORT_SWITCH_PORT port) = swPort ∧
        getF t (Reg.FAB_PORT_RACK_SEEN port) = rack ∧ getF t (Reg.FAB_PORT_POSITION port) = 64 * rack.val + swPort.val ∧ port.val ∈ t.fab.seen := by
  obtain ⟨hplane, hswapped, hswitch, hrack, hposition⟩ := exchangeNoted_shown port rack plane swPort (atTime time s)
  obtain ⟨-, hseen⟩ := HeardKept.rediscover (exchanged port rack plane swPort (atTime time s))
  have hget {f : Fld} (hf : f ∈ exchangeFlds port) := getF_rediscover_exchange port hf (exchanged port rack plane swPort (atTime time s))
  refine ⟨_, exec_discover port time rack plane swPort h, (hget ?_).trans hplane, (congrArg (· == 1) (hget ?_)).trans hswapped,
    (hget ?_).trans hswitch, (hget ?_).trans hrack, (hget ?_).trans hposition, ?_⟩
  · simp [exchangeFlds]
  · simp [exchangeFlds]
  · simp [exchangeFlds]
  · simp [exchangeFlds]
  · simp [exchangeFlds]
  · rw [hseen]
    exact mem_listAdd.mpr (.inr rfl)

/-- The planes' announcements with a plane's new one. -/
def planeHeard (plane : Fin 8) (l : List (Nat × Nat × Nat)) (s : State) : State :=
  { s with fab.planes := alSet s.fab.planes plane (l.map fun x => (x.1 % 128, x.2.1 * 8 + x.2.2 % 8)) }

theorem exec_planeAnnouncement (plane : Fin 8) (l : List (Nat × Nat × Nat)) (ha : stageAlive s = true) (hr : s.ready = true) :
    exec (.planeAnnouncement plane l time) s = .next (replan
      ((goneMembers (discovery (planeHeard plane l (atTime time s)))).foldl markDead (discovery (planeHeard plane l (atTime time s))))) := by
  have hready : (atTime time s).ready = true := ((atTime_touches time s).parts .ready (by decide)).trans hr
  exact congrArg Host.Outcome.next (if_pos (by rw [stageAlive_atTime, ha, hready]; rfl))

theorem exec_planeAnnouncement_spec (plane : Fin 8) (l : List (Nat × Nat × Nat)) (ha : stageAlive s = true) (hr : s.ready = true) : ∃ t,
    exec (.planeAnnouncement plane l time) s = .next t ∧ alGet t.fab.planes plane = some (l.map fun x => (x.1 % 128, x.2.1 * 8 + x.2.2 % 8)) := by
  obtain ⟨w, hw⟩ : ∃ w, w = planeHeard plane l (atTime time s) := ⟨_, rfl⟩
  have hheard : HeardKept w (replan ((goneMembers (discovery w)).foldl markDead (discovery w))) :=
    ((HeardKept.discovery w).foldl HeardKept.markDead).trans (HeardKept.replan _)
  obtain ⟨hplanes, -⟩ := hheard
  refine ⟨_, (exec_planeAnnouncement time plane l ha hr).trans (by rw [← hw]), ?_⟩
  rw [hplanes, hw]
  exact alGet_alSet_self

end

/-! ### The statement -/

/-- Settles O45: each command by the port's link, its lanes and what discovery has heard. -/
theorem fabricPortsAndDiscovery : Obligations.FabricPortsAndDiscovery := by
  unfold Obligations.FabricPortsAndDiscovery
  intro s port time
  refine ⟨fun reversed keyOk good hl ha => ⟨exec_laneTrain_up port time ha hl reversed, exec_laneTrain_shut port time ha hl reversed keyOk⟩,
    exec_laneFail_spared port time, exec_laneFail_bad port time, rfl, rfl, fun h => ?_, fun link h => ?_,
    fun link hlink h5 ha hr hres => exec_fabricPortStateChange_gone port time hlink h5 ha hr hres,
    fun rack plane swPort h _ => exec_discover_spec port time rack plane swPort h, fun plane l ha hr => exec_planeAnnouncement_spec time plane l ha hr⟩
  · exact ⟨_, exec_linkKeyRenew port time h, alGet_alSet_self, (keptBut_trans (atTime_touches time s).parts (fab_kept _ _)).mono (by decide),
      (atTime_touches time s).regs⟩
  · exact congrArg Host.Outcome.next (if_pos (by rw [getF_link_atTime, h]; rfl))

end Sys2Proof.Machine
end

