-- ==== Sys2Proof/Proofs/PowerUpStages.lean ====
section
/-!
SUPPORT. Proofs/PowerUpStages.lean: the end of code verification and the functions' becoming ready (R440, R456, R460, R469), for O53.
-/
namespace Sys2Proof.Machine

set_option Elab.async false

/-! ### The safe state for one unit (R464) -/

section
variable {s : State} (hs : s.boot.stage = .locked) (cause unit : Nat)
include hs

theorem enterSafe_locked : let t := enterSafe cause unit [] s
    t.boot.stage = .safe ∧ t.boot.report.cause = cause ∧ t.boot.report.unit = unit ∧ t.mem = s.mem := by
  have hc : clocked s = true := by rw [clocked, hs]
  have hne : s.boot.stage ≠ .safe := by rw [hs]; decide
  obtain ⟨hstage, hcause, -⟩ := enterSafe_spec hc hne cause unit []
  refine ⟨hstage, hcause, ?_, (enterSafe_touches hc hne cause unit []).parts .mem (by decide)⟩
  rw [enterSafe_eq hc hne, boot_safeTold]
  rfl

end

/-! ### Leases caught in ENDING (R456) -/

/-- A lease as R456 leaves it. -/
def leaseFreed (l : Lease) : Lease := if l.st = 3 then { st := 0 } else l

theorem leaseFreed_idem (l : Lease) : leaseFreed (leaseFreed l) = leaseFreed l := by
  unfold leaseFreed
  by_cases h : l.st = 3
  · rw [if_pos h]
    rfl
  · rw [if_neg h, if_neg h]

/-- The part of R456 for the slot `n`. -/
def endingFreed (t : State) (n : Nat) : State :=
  match t.sec.ks.leases[n]? with
  | some l => if l.st = 3 then freeLease n (l.endStep.getD 0) 0 0 0 false t else t
  | none => t

theorem finishEnding_eq (s : State) : finishEnding s = (List.range 16).foldl endingFreed s := rfl

/-- The leases of the slots `ns` are freed where they were ENDING, with their reports and records. -/
structure EndingsFreed (ns : List Nat) (s t : State) : Prop where
  leases : ∀ m, t.sec.ks.leases[m]? = if m ∈ ns then (s.sec.ks.leases[m]?).map leaseFreed else s.sec.ks.leases[m]?
  keys : t.sec.ks.owner = s.sec.ks.owner ∧ t.sec.ks.versions = s.sec.ks.versions ∧ t.sec.ks.measures = s.sec.ks.measures
  kept : keptBut [.flds, .sec, .ledger, .ledgerSeq] s t

theorem freeLease_kept {n : Nat} {s : State} {l : Lease} (h : s.sec.ks.leases[n]? = some l) (step : Nat) :
    keptBut [.flds, .sec, .ledger, .ledgerSeq] s (freeLease n step 0 0 0 false s) ∧
    ∃ rs, (freeLease n step 0 0 0 false s).sec.ks = { s.sec.ks with reports := rs, leases := s.sec.ks.leases.set n {} } := by
  obtain ⟨a, ha⟩ : ∃ a, a = ledgerLease l.lease 2 step s := ⟨_, rfl⟩
  obtain ⟨b, hb⟩ : ∃ b, b = addReport ⟨l.lease, step, a.ledgerSeq - 1, 0, 0, 0, true, true, true⟩ a := ⟨_, rfl⟩
  obtain ⟨k, hk⟩ : ∃ k : KeyStore, k = { b.sec.ks with leases := b.sec.ks.leases.set n {} } := ⟨_, rfl⟩
  have hfree : freeLease n step 0 0 0 false s =
      setBit (setBit (putKs b k) Reg.SEC_PORT_BIND_PORT_B n false) Reg.SEC_PORT_BIND_PORT_A n false := by
    unfold freeLease
    rw [h, hk, hb, ha]
    rfl
  have hled : keptBut [.ledger, .ledgerSeq] s a := by
    rw [ha]
    exact ledgerAdd_kept _ _ s
  have hreport : keptBut [.flds, .sec] a b := by
    rw [hb]
    exact (putKs_touches a _).parts
  have hclear : keptBut [.flds] (putKs b k) (freeLease n step 0 0 0 false s) := by
    rw [hfree]
    exact (keptBut_trans (setBit_kept _ _ _ _) (setBit_kept _ _ _ _)).mono (by decide)
  have hkeys : (freeLease n step 0 0 0 false s).sec.ks = k := by
    rw [show (freeLease n step 0 0 0 false s).sec = (putKs b k).sec from hclear .sec (by decide), ks_putKs]
  have hsec : a.sec = s.sec := hled .sec (by decide)
  refine ⟨(keptBut_trans (keptBut_trans hled hreport) (keptBut_trans (putKs_touches b k).parts hclear)).mono (by decide), ?_⟩
  have hks : ∃ rs, b.sec.ks = { a.sec.ks with reports := rs } := ⟨_, by rw [hb, addReport, ks_putKs]⟩
  obtain ⟨rs, hks⟩ := hks
  exact ⟨rs, by rw [hkeys, hk, hks, hsec]⟩

theorem EndingsFreed.one (n : Nat) (s : State) : EndingsFreed [n] s (endingFreed s n) := by
  have hsame (hl : ∀ l, s.sec.ks.leases[n]? = some l → l.st ≠ 3) : EndingsFreed [n] s s := by
    refine ⟨fun m => ?_, ⟨rfl, rfl, rfl⟩, keptBut_refl _ _⟩
    split
    · next hm =>
      obtain rfl := List.mem_singleton.mp hm
      cases hget : s.sec.ks.leases[m]? with
      | none => rfl
      | some l => exact congrArg some (if_neg (hl l hget)).symm
    · rfl
  unfold endingFreed
  split
  · next l hget =>
    split
    · next hend =>
      obtain ⟨hkept, rs, hks⟩ := freeLease_kept hget (l.endStep.getD 0)
      refine ⟨fun m => ?_, ⟨by rw [hks], by rw [hks], by rw [hks]⟩, hkept⟩
      rw [hks]
      dsimp only
      rw [List.getElem?_set]
      by_cases hm : n = m
      · subst hm
        obtain ⟨hlt, -⟩ := List.getElem?_eq_some_iff.mp hget
        rw [if_pos rfl, if_pos hlt, if_pos List.mem_cons_self, hget]
        exact congrArg some (if_pos hend).symm
      · rw [if_neg hm, if_neg fun h => hm (List.mem_singleton.mp h).symm]
    · next hlive => exact hsame fun x hx => by rw [hget] at hx; obtain rfl := Option.some.inj hx; exact hlive
  · next hget => exact hsame fun x hx => absurd (hget.symm.trans hx) nofun

theorem EndingsFreed.trans {ns ms : List Nat} {s t u : State} (h : EndingsFreed ns s t) (g : EndingsFreed ms t u) : EndingsFreed (ns ++ ms) s u := by
  obtain ⟨howner, hversions, hmeasures⟩ := h.keys
  obtain ⟨gowner, gversions, gmeasures⟩ := g.keys
  refine ⟨fun m => ?_, ⟨gowner.trans howner, gversions.trans hversions, gmeasures.trans hmeasures⟩,
    (keptBut_trans h.kept g.kept).mono (by decide)⟩
  rw [g.leases, h.leases]
  by_cases hn : m ∈ ns
  · by_cases hm : m ∈ ms
    · simp [hn, hm, Function.comp_def, leaseFreed_idem]
    · simp [hn, hm]
  · simp [hn]

theorem EndingsFreed.all (ns : List Nat) (s : State) : EndingsFreed ns s (ns.foldl endingFreed s) := by
  induction ns generalizing s with
  | nil => exact ⟨fun _ => (if_neg List.not_mem_nil).symm, ⟨rfl, rfl, rfl⟩, keptBut_refl _ _⟩
  | cons n ns ih => exact (EndingsFreed.one n s).trans (ih _)

/-! ### Code verification (R440) -/

/-- A stage has passed. -/
def stageNoted (st : Stage) (s : State) : State := { s with boot.stage := st }

theorem stageNoted_kept (st : Stage) (s : State) : keptBut [.boot] s (stageNoted st s) := boot_kept _ _

theorem sec_stageNoted (st : Stage) (s : State) : (stageNoted st s).sec = s.sec := rfl

theorem stage_stageNoted (st : Stage) (s : State) : (stageNoted st s).boot.stage = st := rfl

/-- The code's versions and measurements are in the key store, and the stage has passed. -/
def codeVerified (vs : List Nat) (ms : List (List Nat)) (s : State) : State :=
  stageNoted .verified (putKs s { s.sec.ks with versions := vs.take 4, measures := ms.take 4 })

section
variable {s : State} (hs : s.boot.stage = .locked) (vs : List Nat) (ms : List (List Nat))
include hs

theorem exec_bootVerifyDone_ok :
    exec (.bootVerifyDone true none vs ms) s = .next (finishEnding (codeVerified vs ms s)) :=
  congrArg Host.Outcome.next (if_neg (not_not.mpr hs))

theorem exec_bootVerifyDone_security (bad : Option (Fin 3)) : exec (.bootVerifyDone false bad vs ms) s = .next (enterSafe 1 0 [] s) :=
  congrArg Host.Outcome.next (if_neg (not_not.mpr hs))

theorem exec_bootVerifyDone_bad (k : Fin 3) : exec (.bootVerifyDone true (some k) vs ms) s = .next (enterSafe 2 (k.val + 1) []
    (putKs s { s.sec.ks with versions := vs.take 4, measures := ms.take 1 ++ [[], [], []] })) :=
  congrArg Host.Outcome.next (if_neg (not_not.mpr hs))

theorem bootVerifyDone_bad_spec (k : Fin 3) : ∃ t, exec (.bootVerifyDone true (some k) vs ms) s = .next t ∧ t.boot.stage = .safe ∧
    t.boot.report.cause = 2 ∧ t.boot.report.unit = k.val + 1 ∧ t.mem = s.mem := by
  obtain ⟨w, hw⟩ : ∃ w, w = putKs s { s.sec.ks with versions := vs.take 4, measures := ms.take 1 ++ [[], [], []] } := ⟨_, rfl⟩
  have hkept : keptBut [.flds, .sec] s w := by
    rw [hw]
    exact (putKs_touches s _).parts
  have hboot : w.boot = s.boot := hkept .boot (by decide)
  obtain ⟨hstage, hcause, hunit, hmem⟩ := enterSafe_locked (s := w) (by rw [hboot, hs]) 2 (k.val + 1)
  exact ⟨_, (exec_bootVerifyDone_bad hs vs ms k).trans (by rw [← hw]), hstage, hcause, hunit, hmem.trans (hkept .mem (by decide))⟩

theorem bootVerifyDone_ok_spec : ∃ t, exec (.bootVerifyDone true none vs ms) s = .next t ∧ t.boot.stage = .verified ∧
    t.sec.ks.versions = vs.take 4 ∧ t.sec.ks.measures = ms.take 4 ∧
    (∀ n l, n < 16 → s.sec.ks.leases[n]? = some l → t.sec.ks.leases[n]? = some (if l.st = 3 then { st := 0 } else l)) ∧
    t.sec.ks.owner = s.sec.ks.owner ∧ keptBut [.flds, .boot, .sec, .ledger, .ledgerSeq] s t := by
  have hkept : keptBut [.flds, .sec, .boot] s (codeVerified vs ms s) :=
    (keptBut_trans (putKs_touches s { s.sec.ks with versions := vs.take 4, measures := ms.take 4 }).parts (stageNoted_kept _ _)).mono (by decide)
  have hkeys : (codeVerified vs ms s).sec.ks = { s.sec.ks with versions := vs.take 4, measures := ms.take 4 } := by
    rw [codeVerified, sec_stageNoted, ks_putKs]
  have hstage : (codeVerified vs ms s).boot.stage = .verified := stage_stageNoted _ _
  obtain ⟨hleases, ⟨howner, hversions, hmeasures⟩, hfreed⟩ := EndingsFreed.all (List.range 16) (codeVerified vs ms s)
  rw [← finishEnding_eq] at hleases howner hversions hmeasures hfreed
  have hboot : (finishEnding (codeVerified vs ms s)).boot = (codeVerified vs ms s).boot := hfreed .boot (by decide)
  rw [hkeys] at hleases howner hversions hmeasures
  refine ⟨_, exec_bootVerifyDone_ok hs vs ms, by rw [hboot, hstage], hversions, hmeasures, fun n l hn hl => ?_, howner,
    (keptBut_trans hkept hfreed).mono (by decide)⟩
  rw [hleases, if_pos (List.mem_range.mpr hn)]
  exact congrArg (Option.map leaseFreed) hl

end

/-! ### The distance table (R197) -/

theorem putBlock_kept (s : State) (a : Nat) (bs : List Nat) : keptBut [.mem, .marks, .flds] s (putBlock s a bs) := by
  rw [putBlock_eq]
  intro p hp
  cases p with
  | mem | marks | flds => exact absurd hp (by decide)
  | _ => rfl

theorem writeDist_kept (s : State) : keptBut [.mem, .marks, .flds] s (writeDist s) := by
  unfold writeDist
  exact keptBut_ite (putBlock_kept _ _ _) (keptBut_refl _ _)

theorem writeDist_touches (s : State) : Touches [.mem, .marks, .flds] shutterKey s (writeDist s) := ⟨writeDist_kept s, (touches_writeDist s).regs⟩

theorem distRewrite_touches (s : State) : Touches [.mem, .marks, .flds] shutterKey s (distRewrite s) :=
  .ite (.trans (.setF (.refl s)) (writeDist_touches _)) (.refl s)

theorem distRewrite_unready {s : State} (h : s.ready = false) : distRewrite s = s := if_neg (by rw [h]; exact Bool.false_ne_true)

/-! ### The functions become ready (R460, R469) -/

def baseFlds : List Fld := [Reg.MEM_DIST_BASE, Reg.CTX_ACCT_BASE, Reg.FAB_WINDOW_BASE, Reg.FAB_REPORT_BASE]

/-- R460: the bases of control firmware's tables. -/
def tablesPlaced (dist acct win report : Nat) (s : State) : State :=
  setF (setF (setF (setF s Reg.MEM_DIST_BASE dist) Reg.CTX_ACCT_BASE acct) Reg.FAB_WINDOW_BASE win) Reg.FAB_REPORT_BASE report

/-- The functions answer. -/
def madeReady (s : State) : State := { s with boot.stage := .ready, ready := true }

/-- The distance table is written, and the functions answer. -/
def functionsUp (s : State) : State := madeReady (writeDist s)

/-- R460, R326: discovery starts. -/
def discoveryStarted (s : State) : State := sendDiscover (setF (functionsUp s) Reg.FAB_STATE_STATE 1)

/-- R469: the armed extended self-test has begun. -/
def extendedBegun (s : State) : State := setIdState 4 { putKs s { s.sec.ks with armed := false } with boot.extended := true }

section
variable {s : State} (dist acct win report : Nat)

theorem exec_functionsReady_eq (s : State) : exec (.functionsReady dist acct win report) s = execFunctionsReady dist acct win report s := rfl

theorem exec_functionsReady (hs : s.boot.stage = .tested) : exec (.functionsReady dist acct win report) s = .next (
    if (discoveryStarted (tablesPlaced dist acct win report s)).sec.ks.armed then
      extendedBegun (discoveryStarted (tablesPlaced dist acct win report s))
    else discoveryStarted (tablesPlaced dist acct win report s)) := by
  rw [exec_functionsReady_eq, execFunctionsReady, if_neg (not_not.mpr hs)]
  unfold discoveryStarted functionsUp madeReady extendedBegun tablesPlaced
  with_reducible rfl

variable (s)

theorem tablesPlaced_touches : Touches [.flds] (oneOf baseFlds) s (tablesPlaced dist acct win report s) := .setF (.setF (.setF (.setF (.refl s))))

theorem tablesPlaced_shown : let t := tablesPlaced dist acct win report s
    getF t Reg.MEM_DIST_BASE = dist % 2 ^ 64 ∧ getF t Reg.CTX_ACCT_BASE = acct % 2 ^ 64 ∧ getF t Reg.FAB_WINDOW_BASE = win % 2 ^ 64 ∧
      getF t Reg.FAB_REPORT_BASE = report % 2 ^ 64 := by
  refine ⟨?_, ?_, ?_, getF_setF_self _ _ _⟩
  · rw [tablesPlaced, getF_setF_ne (by decide), getF_setF_ne (by decide), getF_setF_ne (by decide), getF_setF_self]
    rfl
  · rw [tablesPlaced, getF_setF_ne (by decide), getF_setF_ne (by decide), getF_setF_self]
    rfl
  · rw [tablesPlaced, getF_setF_ne (by decide), getF_setF_self]
    rfl

theorem sendDiscover_kept : keptBut [.out] s (sendDiscover s) :=
  foldl_kept _ s fun _ _ => keptBut_ite (emit_kept _ _) (keptBut_refl _ _)

theorem madeReady_kept : keptBut [.boot, .ready] s (madeReady s) := fun p hp => by
  cases p with
  | boot | ready => exact absurd hp (by decide)
  | _ => rfl

/-- The registers that the start of discovery writes. -/
def startKey (k : Nat) : Bool := shutterKey k || oneOf [Reg.FAB_STATE_STATE] k

def startParts : List Part := [.mem, .marks, .flds, .boot, .ready, .out]

theorem functionsUp_touches : Touches startParts startKey s (functionsUp s) :=
  ((writeDist_touches s).mono (by decide) fun _ e => (Bool.or_eq_false_iff.mp e).1).keep (madeReady_kept _)

theorem discoveryStarted_touches : Touches startParts startKey s (discoveryStarted s) :=
  .keep (.setF (functionsUp_touches s)) (sendDiscover_kept _)

theorem madeReady_stage : (madeReady s).boot.stage = .ready ∧ (madeReady s).ready = true ∧
    (madeReady s).boot.extended = s.boot.extended := ⟨rfl, rfl, rfl⟩

theorem discoveryStarted_spec : let t := discoveryStarted s
    t.boot.stage = .ready ∧ t.ready = true ∧ t.boot.extended = s.boot.extended ∧ getF t Reg.FAB_STATE_STATE = 1 := by
  have hkept : keptBut [.flds, .out] (functionsUp s) (discoveryStarted s) := (keptBut_trans (keptBut_setF _ _ _) (sendDiscover_kept _)).mono (by decide)
  have hboot : (discoveryStarted s).boot = (madeReady (writeDist s)).boot := hkept .boot (by decide)
  have hdist : (writeDist s).boot = s.boot := writeDist_kept s .boot (by decide)
  obtain ⟨hstage, hready, hext⟩ := madeReady_stage (writeDist s)
  refine ⟨by rw [hboot, hstage], (hkept .ready (by decide)).trans hready, by rw [hboot, hext, hdist], ?_⟩
  exact (getF_congr (sendDiscover_kept _ .flds (by decide)) _).trans (getF_setF_self _ _ _)

theorem extendedBegun_touches : Touches [.flds, .sec, .boot] (fun k => secViewKey k || oneOf [Reg.ID_STATE_STATE, Reg.ID_CONFIG_SEQ] k) s
    (extendedBegun s) := by
  have hkeys := (putKs_touches s { s.sec.ks with armed := false }).mono (l := [.flds, .sec, .boot])
    (K := fun k => secViewKey k || oneOf [Reg.ID_STATE_STATE, Reg.ID_CONFIG_SEQ] k) (by decide) fun _ e => (Bool.or_eq_false_iff.mp e).1
  exact (hkeys.keep (boot_kept _ _)).step (setIdState_touches 4 _) (by decide) fun _ e => (Bool.or_eq_false_iff.mp e).2

theorem extendedBegun_spec : (extendedBegun s).boot = { s.boot with extended := true } ∧ (extendedBegun s).sec.ks.armed = false ∧
    getF (extendedBegun s) Reg.ID_STATE_STATE = 4 := by
  obtain ⟨w, hw⟩ : ∃ w, w = putKs s { s.sec.ks with armed := false } := ⟨_, rfl⟩
  have hboot : w.boot = s.boot := by
    rw [hw]
    exact (putKs_touches s _).parts .boot (by decide)
  have hsec : w.sec.ks.armed = false := by rw [hw, ks_putKs]
  have hbegun : extendedBegun s = setIdState 4 { w with boot := { w.boot with extended := true } } := by rw [hw]; rfl
  have hkept := (setIdState_touches 4 { w with boot := { w.boot with extended := true } }).parts
  rw [hbegun]
  refine ⟨(hkept .boot (by decide)).trans ?_, (congrArg (fun x : SecSt => x.ks.armed) (hkept .sec (by decide))).trans hsec,
    getF_setIdState (by decide) _⟩
  rw [← hboot]

variable {s}

theorem functionsReady_spec (hs : s.boot.stage = .tested) : ∃ t, exec (.functionsReady dist acct win report) s = .next t ∧
    t.boot.stage = .ready ∧ t.ready = true ∧ getF t Reg.MEM_DIST_BASE = dist % 2 ^ 64 ∧ getF t Reg.CTX_ACCT_BASE = acct % 2 ^ 64 ∧
    getF t Reg.FAB_WINDOW_BASE = win % 2 ^ 64 ∧ getF t Reg.FAB_REPORT_BASE = report % 2 ^ 64 ∧ getF t Reg.FAB_STATE_STATE = 1 ∧
    t.sec.ks.armed = false ∧ (s.sec.ks.armed = true → t.boot.extended = true ∧ getF t Reg.ID_STATE_STATE = 4) ∧
    (s.sec.ks.armed = false → t.boot.extended = s.boot.extended ∧ getF t Reg.ID_STATE_STATE = getF s Reg.ID_STATE_STATE) ∧
    keptBut [.flds, .mem, .marks, .boot, .ready, .out, .sec] s t := by
  obtain ⟨p, hp⟩ : ∃ p, p = tablesPlaced dist acct win report s := ⟨_, rfl⟩
  obtain ⟨w, hw⟩ : ∃ w, w = discoveryStarted p := ⟨_, rfl⟩
  have hplaced : Touches [.flds] (oneOf baseFlds) s p := by
    rw [hp]
    exact tablesPlaced_touches s dist acct win report
  have hstarted : Touches startParts startKey p w := by
    rw [hw]
    exact discoveryStarted_touches p
  obtain ⟨hdist, hacct, hwin, hreport⟩ := tablesPlaced_shown s dist acct win report
  obtain ⟨hstage, hready, hext, hfab⟩ := discoveryStarted_spec p
  rw [← hp] at hdist hacct hwin hreport
  rw [← hw] at hstage hready hext hfab
  have hkept : keptBut (.flds :: startParts) s w := keptBut_trans hplaced.parts hstarted.parts
  have hbase {f : Fld} (hf : f ∈ baseFlds) : getF w f = getF p f :=
    hstarted.getF ((by decide : ∀ f ∈ baseFlds, startKey (fldKey f .a) = false) f hf)
  have hsec : w.sec = s.sec := hkept .sec (by decide)
  have hboot : p.boot = s.boot := hplaced.parts .boot (by decide)
  have hexec := exec_functionsReady dist acct win report hs
  rw [← hp, ← hw, hsec] at hexec
  cases harmed : s.sec.ks.armed with
  | true =>
    rw [harmed, if_pos rfl] at hexec
    have htouch := extendedBegun_touches w
    obtain ⟨hbegun, hdisarmed, hstate⟩ := extendedBegun_spec w
    refine ⟨_, hexec, by rw [hbegun, hstage], (htouch.parts .ready (by decide)).trans hready, ?_, ?_, ?_, ?_, ?_, hdisarmed,
      fun _ => ⟨by rw [hbegun], hstate⟩, nofun, (keptBut_trans hkept htouch.parts).mono (by decide)⟩
    · exact (htouch.getF (by decide)).trans ((hbase (by decide)).trans hdist)
    · exact (htouch.getF (by decide)).trans ((hbase (by decide)).trans hacct)
    · exact (htouch.getF (by decide)).trans ((hbase (by decide)).trans hwin)
    · exact (htouch.getF (by decide)).trans ((hbase (by decide)).trans hreport)
    · exact (htouch.getF (by decide)).trans hfab
  | false =>
    rw [harmed, if_neg Bool.false_ne_true] at hexec
    refine ⟨w, hexec, hstage, hready, (hbase (by decide)).trans hdist, (hbase (by decide)).trans hacct, (hbase (by decide)).trans hwin,
      (hbase (by decide)).trans hreport, hfab, by rw [hsec, harmed], nofun, fun _ => ⟨by rw [hext, hboot], ?_⟩, hkept.mono (by decide)⟩
    exact (hstarted.getF (by decide)).trans (hplaced.getF (by decide))

end

end Sys2Proof.Machine
end

