-- ==== Sys2Proof/Proofs/SelfTest.lean ====
section
/-!
SUPPORT. Proofs/SelfTest.lean: the units in service, cards as self-test finds them, the rating and the grade (R43, R203, R288, R462,
R463), for O53.
-/
namespace Sys2Proof.Machine

set_option Elab.async false

/-! ### Units in service (R43) -/

theorem fencedFlds_keys : ∀ j k : Fin 6, j ≠ k → fldKey (Reg.ID_FENCED_CORES j) .a ≠ fldKey (Reg.ID_FENCED_CORES k) .a := by decide

theorem coreFenced_setBit {c d : Nat} (hc : c < 192) (hd : d < 192) (b : Bool) (s : State) :
    coreFenced (setBit s (Reg.ID_FENCED_CORES (d / 32)) (d % 32) b) c = if c = d then b else coreFenced s c := by
  have hbit : c % 32 < (Reg.ID_FENCED_CORES (c / 32)).len := Nat.mod_lt c (show 0 < 32 by decide)
  by_cases h : c = d
  · subst h
    rw [if_pos rfl]
    exact getBit_setBit_self s hbit b
  · rw [if_neg h]
    by_cases hreg : c / 32 = d / 32
    · have hne : c % 32 ≠ d % 32 := by omega
      rw [coreFenced, ← hreg, getBit_setBit_ne s hbit hne, coreFenced]
    · have hkey : fldKey (Reg.ID_FENCED_CORES (c / 32)) .a ≠ fldKey (Reg.ID_FENCED_CORES (d / 32)) .a :=
        fencedFlds_keys ⟨c / 32, by omega⟩ ⟨d / 32, by omega⟩ (by simpa using hreg)
      rw [coreFenced, getBit, setBit, getF_setF_ne hkey, coreFenced, getBit]

/-- No core and no vault leaves or enters service. -/
def UnitsKept (s t : State) : Prop := (∀ c, c < 192 → coreFenced t c = coreFenced s c) ∧ ∀ v, vaultRetired t v = vaultRetired s v

theorem UnitsKept.refl (s : State) : UnitsKept s s := ⟨fun _ _ => rfl, fun _ => rfl⟩

theorem UnitsKept.trans {s t u : State} (h : UnitsKept s t) (g : UnitsKept t u) : UnitsKept s u :=
  ⟨fun c hc => (g.1 c hc).trans (h.1 c hc), fun v => (g.2 v).trans (h.2 v)⟩

/-- The registers of what is in service. -/
def unitFlds : List Fld := Reg.ID_RETIRED_VAULTS :: (List.range 6).map Reg.ID_FENCED_CORES

theorem Touches.unitsKept {l : List Part} {K : Nat → Bool} {s t : State} (h : Touches l K s t) (hK : ∀ f ∈ unitFlds, K (fldKey f .a) = false) :
    UnitsKept s t :=
  ⟨fun _ hc => h.coreFenced hc fun _ hj => hK _ (List.mem_cons_of_mem _ (List.mem_map_of_mem (List.mem_range.mpr hj))), fun v => by
    rw [vaultRetired, getBit, h.getF (hK _ List.mem_cons_self), vaultRetired, getBit]⟩

theorem UnitsKept.live {s t : State} (h : UnitsKept s t) : liveCores t = liveCores s ∧ liveVaults t = liveVaults s :=
  ⟨List.filter_congr fun c hc => by rw [h.1 c (List.mem_range.mp hc)], List.filter_congr fun v _ => by rw [h.2 v]⟩

theorem UnitsKept.gradeOf {s t : State} (h : UnitsKept s t) : gradeOf t = gradeOf s := by
  obtain ⟨hcores, hvaults⟩ := h.live
  rw [Machine.gradeOf, Machine.gradeOf, hcores, hvaults]

theorem liveCores_all {s : State} (h : ∀ c, c < 192 → coreFenced s c = false) : (liveCores s).length = 192 := by
  rw [liveCores, List.filter_eq_self.mpr fun c hc => by rw [h c (List.mem_range.mp hc)]; rfl, List.length_range]

theorem liveVaults_all {s : State} (h : ∀ v, v < 32 → vaultRetired s v = false) : (liveVaults s).length = 32 := by
  rw [liveVaults, List.filter_eq_self.mpr fun v hv => by rw [h v (List.mem_range.mp hv)]; rfl, List.length_range]

theorem liveCores_all_but {s : State} {d : Nat} (hd : d < 192) (h : ∀ c, c < 192 → coreFenced s c = decide (c = d)) :
    (liveCores s).length = 191 := by
  have hlive : liveCores s = (List.range 192).erase d := by
    rw [List.nodup_range.erase_eq_filter, liveCores]
    exact List.filter_congr fun c hc => by rw [h c (List.mem_range.mp hc)]; rfl
  rw [hlive, List.length_erase_of_mem (List.mem_range.mpr hd), List.length_range]

/-! ### The rating (R43, R45) -/

def rateFlds : List Fld := [Reg.ID_RESOURCES_CORES_LIVE, Reg.ID_RESOURCES_VAULTS_LIVE, Reg.ID_RATING_PEAK_W2, Reg.ID_RATING_DRAM_GIB,
  Reg.ID_HOME_BW_HOME_BW_GBS]

theorem rate_touches (s : State) : Touches [.flds] (oneOf rateFlds) s (rate s) := .setF (.setF (.setF (.setF (.setF (.refl s)))))

theorem getF_rate (s : State) : getF (rate s) Reg.ID_RESOURCES_CORES_LIVE = (liveCores s).length % 2 ^ 8 ∧
    getF (rate s) Reg.ID_RESOURCES_VAULTS_LIVE = (liveVaults s).length % 2 ^ 6 := by
  constructor
  · rw [rate, getF_setF_ne (by decide), getF_setF_ne (by decide), getF_setF_ne (by decide), getF_setF_ne (by decide), getF_setF_self]
    rfl
  · rw [rate, getF_setF_ne (by decide), getF_setF_ne (by decide), getF_setF_ne (by decide), getF_setF_self]
    rfl

/-! ### A core that fails (R288, R289) -/

theorem configChange_unready {s : State} (h : s.ready = false) (f : State → State) : configChange f s = f s :=
  if_neg (by rw [h]; exact Bool.false_ne_true)

/-- The core's fence bit with the rating, and its pending bit. -/
def coreTaken (c : Nat) (s : State) : State :=
  setBit (rate (setBit s (Reg.ID_FENCED_CORES (c / 32)) (c % 32) true)) (Reg.NOC_FENCE_PENDING (c / 32)) (c % 32) false

/-- The core's queues go, and it is on the fence list. -/
def coreListed (c : Nat) (s : State) : State :=
  { s with cores := smErase s.cores c, sec.ks.fenceCores := listAdd s.sec.ks.fenceCores c }

theorem coreListed_kept (c : Nat) (s : State) : keptBut [.cores, .sec] s (coreListed c s) := fun p hp => by
  cases p with
  | cores | sec => exact absurd hp (by decide)
  | _ => rfl

theorem sec_coreListed (c : Nat) (s : State) : (coreListed c s).sec.ks.fenceCores = listAdd s.sec.ks.fenceCores c ∧
    (coreListed c s).sec.ks.glitchAck = s.sec.ks.glitchAck := ⟨rfl, rfl⟩

def takenFlds : List Fld := rateFlds ++ (List.range 6).map Reg.ID_FENCED_CORES ++ (List.range 6).map Reg.NOC_FENCE_PENDING

theorem coreTaken_touches {c : Nat} (hc : c < 192) (s : State) : Touches [.flds] (oneOf takenFlds) s (coreTaken c s) := by
  have hmem : c / 32 ∈ List.range 6 := List.mem_range.mpr (by omega)
  have hfence : oneOf takenFlds (fldKey (Reg.ID_FENCED_CORES (c / 32)) .a) = true :=
    oneOf_mem (List.mem_append_left _ (List.mem_append_right _ (List.mem_map_of_mem hmem)))
  have hpend : oneOf takenFlds (fldKey (Reg.NOC_FENCE_PENDING (c / 32)) .a) = true := oneOf_mem (List.mem_append_right _ (List.mem_map_of_mem hmem))
  refine .setBit (.step (.setBit (.refl s) hfence) (rate_touches _) (by decide) fun k e => ?_) hpend
  rw [takenFlds, List.append_assoc, oneOf_append] at e
  exact (Bool.or_eq_false_iff.mp e).1

theorem pendingFlds_quiet : ∀ f ∈ unitFlds, oneOf ((List.range 6).map Reg.NOC_FENCE_PENDING) (fldKey f .a) = false := by decide

theorem rateFlds_quiet : ∀ f ∈ unitFlds, oneOf rateFlds (fldKey f .a) = false := by decide

theorem units_coreTaken {c : Nat} (hc : c < 192) (s : State) :
    (∀ d, d < 192 → coreFenced (coreTaken c s) d = if d = c then true else coreFenced s d) ∧
      ∀ v, vaultRetired (coreTaken c s) v = vaultRetired s v := by
  have hpend : oneOf ((List.range 6).map Reg.NOC_FENCE_PENDING) (fldKey (Reg.NOC_FENCE_PENDING (c / 32)) .a) = true :=
    oneOf_mem (List.mem_map_of_mem (List.mem_range.mpr (by omega)))
  have hrate := (rate_touches (setBit s (Reg.ID_FENCED_CORES (c / 32)) (c % 32) true)).unitsKept rateFlds_quiet
  obtain ⟨hcores, hvaults⟩ := hrate.trans
    ((Touches.setBit (l := [.flds]) (i := c % 32) (b := false) (.refl (rate (setBit s (Reg.ID_FENCED_CORES (c / 32)) (c % 32) true))) hpend).unitsKept
      pendingFlds_quiet)
  refine ⟨fun d hd => (hcores d hd).trans (coreFenced_setBit hd hc true s), fun v => (hvaults v).trans ?_⟩
  have hkey : ∀ j : Fin 6, fldKey Reg.ID_RETIRED_VAULTS .a ≠ fldKey (Reg.ID_FENCED_CORES j) .a := by decide
  have hne : fldKey Reg.ID_RETIRED_VAULTS .a ≠ fldKey (Reg.ID_FENCED_CORES (c / 32)) .a := hkey ⟨c / 32, by omega⟩
  rw [vaultRetired, getBit, setBit, getF_setF_ne hne, vaultRetired, getBit]

/-- A core shuttered before the module is ready. -/
theorem shutterCore_unready {c : Nat} {s : State} (hc : c < 192) (hr : s.ready = false) (hf : coreFenced s c = false) (cause : Nat) :
    shutterCore c cause s = ledgerFence 1 c cause (coreListed c (coreTaken c s)) := by
  have htaken : configChange (fun t => rate (setBit t (Reg.ID_FENCED_CORES (c / 32)) (c % 32) true)) s =
      rate (setBit s (Reg.ID_FENCED_CORES (c / 32)) (c % 32) true) := configChange_unready hr _
  have hready : (coreListed c (coreTaken c s)).ready = false :=
    (keptBut_trans (coreTaken_touches hc s).parts (coreListed_kept c _) .ready (by decide)).trans hr
  have hdist := distRewrite_unready hready
  unfold shutterCore
  rw [if_neg (by rw [hf]; exact Bool.false_ne_true), htaken]
  exact congrArg (ledgerFence 1 c cause) hdist

theorem breakGroups_none {s : State} (h : s.img = none) (f : ImgGroup → Bool) : breakGroups f s = s := by
  unfold breakGroups
  rw [h]

/-- With no image a core's loss is its shutter. -/
theorem loseCore_none {c cause : Nat} {s : State} (h : s.img = none) (hs : (shutterCore c cause s).img = none) :
    loseCore c cause s = shutterCore c cause s := by
  have hmap : isMappedCore s c = false := by
    unfold isMappedCore
    rw [h]
  unfold loseCore
  rw [breakGroups_none hs, hmap]
  exact if_neg Bool.false_ne_true

/-- What a core's loss leaves of its state. -/
def lostParts : List Part := [.flds, .cores, .sec, .ledger, .ledgerSeq]

theorem loseCore_spec {c cause : Nat} {s : State} (hc : c < 192) (hr : s.ready = false) (himg : s.img = none) (hf : coreFenced s c = false) :
    Touches lostParts (oneOf takenFlds) s (loseCore c cause s) ∧
    (∀ d, d < 192 → coreFenced (loseCore c cause s) d = if d = c then true else coreFenced s d) ∧
    (∀ v, vaultRetired (loseCore c cause s) v = vaultRetired s v) ∧
    (loseCore c cause s).sec.ks.fenceCores = listAdd s.sec.ks.fenceCores c ∧
    (loseCore c cause s).sec.ks.glitchAck = s.sec.ks.glitchAck := by
  have htaken := coreTaken_touches hc s
  have hlisted := coreListed_kept c (coreTaken c s)
  have hled : keptBut [.ledger, .ledgerSeq] (coreListed c (coreTaken c s)) (shutterCore c cause s) := by
    rw [shutterCore_unready hc hr hf]
    exact ledgerAdd_kept _ _ _
  have himg' : (shutterCore c cause s).img = none :=
    (keptBut_trans (keptBut_trans htaken.parts hlisted) hled .img (by decide)).trans himg
  rw [loseCore_none himg himg']
  have hflds : (shutterCore c cause s).flds = (coreTaken c s).flds := keptBut_trans hlisted hled .flds (by decide)
  have hsec : (shutterCore c cause s).sec = (coreListed c (coreTaken c s)).sec := hled .sec (by decide)
  obtain ⟨hlist, hglitch⟩ := sec_coreListed c (coreTaken c s)
  have hbefore : (coreTaken c s).sec = s.sec := htaken.parts .sec (by decide)
  obtain ⟨hcores, hvaults⟩ := units_coreTaken hc s
  refine ⟨((htaken.mono (by decide) fun _ => id).keep hlisted).keep hled, fun d hd => ?_, fun v => ?_, ?_, ?_⟩
  · rw [coreFenced_congr hflds, hcores d hd]
  · rw [vaultRetired, getBit_congr hflds]
    exact hvaults v
  · rw [hsec, hlist, hbefore]
  · rw [hsec, hglitch, hbefore]

/-! ### Cards (R203) -/

section
variable (r : SelfTest) (info : List (Nat × Nat × Nat)) (n : Fin 2) (s : State)

/-- The state in which self-test finds the card. -/
def cardFound (n : Nat) : Nat := if s.vflashLatched.getD n false then 5 else (alGet r.cards n).getD 2

/-- The card's seat and its serial number. -/
def cardSeen (st n : Nat) : State :=
  if st = 0 then { s with cardSeated := s.cardSeated.set n false }
  else { s with cardSeated := s.cardSeated.set n true, cardSerial := s.cardSerial.set n (info.getD n (0, 0, 0)).1 }

/-- The card as it reports itself. -/
def cardRead (st n : Nat) : State :=
  setF (setF (cardSeen info s st n) (cardWear n) (info.getD n (0, 0, 0)).2.1) (cardSpare n) (info.getD n (0, 0, 0)).2.2

theorem testCard_eq (n : Nat) : testCard r info n s = setCard n (cardFound r s n) (cardRead info s (cardFound r s n) n) := rfl

def cardFlds (n : Nat) : List Fld := [cardState n, cardWear n, cardSpare n]

def cardSeatParts : List Part := [.flds, .cardSerial, .cardSeated]

theorem cardSeen_kept (st n : Nat) : keptBut [.cardSerial, .cardSeated] s (cardSeen info s st n) := by
  refine keptBut_ite (fun p hp => ?_) fun p hp => ?_
  · cases p with
    | cardSerial | cardSeated => exact absurd hp (by decide)
    | _ => rfl
  · cases p with
    | cardSerial | cardSeated => exact absurd hp (by decide)
    | _ => rfl

theorem cardRead_touches (st n : Nat) : Touches cardSeatParts (oneOf (cardFlds n)) s (cardRead info s st n) := by
  have hspare : cardSpare n ∈ cardFlds n := List.mem_cons_of_mem _ (List.mem_cons_of_mem _ List.mem_cons_self)
  have hwear : cardWear n ∈ cardFlds n := List.mem_cons_of_mem _ List.mem_cons_self
  exact .setF (.setF (.keep (.refl s) (cardSeen_kept info s st n)) (oneOf_mem hwear)) (oneOf_mem hspare)

theorem card_keys : ∀ n : Fin 2, fldKey (cardState n) .a ≠ fldKey (cardWear n) .a ∧ fldKey (cardState n) .a ≠ fldKey (cardSpare n) .a := by decide

theorem getF_cardRead (st : Nat) : getF (cardRead info s st n) (cardState n) = getF s (cardState n) := by
  obtain ⟨hwear, hspare⟩ := card_keys n
  rw [cardRead, getF_setF_ne hspare, getF_setF_ne hwear]
  exact getF_congr (cardSeen_kept info s st n .flds (by decide)) _

/-- The registers that the test of a card writes. -/
def cardTestKey (n k : Nat) : Bool := oneOf (cardFlds n) k || cardKey k

theorem testCard_touches : Touches (cardNoteParts ++ cardSeatParts) (cardTestKey n) s (testCard r info n s) := by
  rw [testCard_eq]
  obtain ⟨w, hw⟩ : ∃ w, w = cardRead info s (cardFound r s n) n := ⟨_, rfl⟩
  have hread : Touches (cardNoteParts ++ cardSeatParts) (cardTestKey n) s w := by
    rw [hw]
    exact (cardRead_touches info s _ n).mono (by decide) fun _ e => (Bool.or_eq_false_iff.mp e).1
  rw [← hw]
  by_cases hst : getF w (cardState n) = cardFound r s n
  · rwa [setCard_same hst]
  · have hstate : cardTestKey n (fldKey (cardState n) .a) = true := Bool.or_eq_true_iff.mpr (.inl (oneOf_mem List.mem_cons_self))
    exact (hread.setF hstate).step (setCard_touches hst) (by decide) fun _ e => (Bool.or_eq_false_iff.mp e).2

/-- The registers that a card's rise writes. -/
def riseFlds (n : Nat) : List Fld := cardFlds n ++ [Reg.ID_RESOURCES_FLASH_CARDS]

variable {r n s}

/-- A card that comes into service before the module is ready. -/
theorem setCard_rises (hr : s.ready = false) (h0 : getF s (cardState n) = 0) : ∃ body, setCard n 2 s =
    ledgerAdd 6 body (setBit (setF s (cardState n) 2) Reg.ID_RESOURCES_FLASH_CARDS n true) := by
  have hready : (setF s (cardState n) 2).ready = false := hr
  unfold setCard
  rw [h0, if_neg (by decide)]
  dsimp only
  rw [if_neg (by decide), if_neg (by decide), configChange_unready hready]
  exact ⟨_, rfl⟩

variable (r n) in
/-- The card is ACTIVE after the test, and counted. -/
structure CardRisen (s t : State) : Prop where
  touches : Touches [.flds, .cardSerial, .cardSeated, .ledger, .ledgerSeq] (oneOf (riseFlds n)) s t
  state : getF t (cardState n) = 2
  counted : getF t Reg.ID_RESOURCES_FLASH_CARDS = setBitsAt (getF s Reg.ID_RESOURCES_FLASH_CARDS) n 1 1 % 4

theorem flashCards_keys : ∀ n : Fin 2, ∀ f ∈ cardFlds n, fldKey f .a ≠ fldKey Reg.ID_RESOURCES_FLASH_CARDS .a := by decide

theorem flashCards_quiet : ∀ n : Fin 2, oneOf (cardFlds n) (fldKey Reg.ID_RESOURCES_FLASH_CARDS .a) = false := by decide

theorem testCard_rises (hr : s.ready = false) (h0 : getF s (cardState n) = 0) (hfound : cardFound r s n = 2) :
    CardRisen n s (testCard r info n s) := by
  obtain ⟨w, hw⟩ : ∃ w, w = cardRead info s 2 n := ⟨_, rfl⟩
  have hread : Touches cardSeatParts (oneOf (cardFlds n)) s w := by
    rw [hw]
    exact cardRead_touches info s 2 n
  have hstate : getF w (cardState n) = 0 := by rw [hw, getF_cardRead, h0]
  have hready : w.ready = false := (hread.parts .ready (by decide)).trans hr
  obtain ⟨body, hcard⟩ := setCard_rises hready hstate
  have htest : testCard r info n s = ledgerAdd 6 body (setBit (setF w (cardState n) 2) Reg.ID_RESOURCES_FLASH_CARDS n true) := by
    rw [testCard_eq, hfound, ← hw, hcard]
  have hled := ledgerAdd_kept 6 body (setBit (setF w (cardState n) 2) Reg.ID_RESOURCES_FLASH_CARDS n true)
  have hflds := hled .flds (by decide)
  have hflash : getF (setF w (cardState n) 2) Reg.ID_RESOURCES_FLASH_CARDS = getF s Reg.ID_RESOURCES_FLASH_CARDS :=
    (getF_setF_ne (flashCards_keys n _ List.mem_cons_self).symm).trans (hread.getF (flashCards_quiet n))
  have hcards {k : Nat} (e : oneOf (riseFlds n) k = false) : oneOf (cardFlds n) k = false := by
    rw [riseFlds, oneOf_append] at e
    exact (Bool.or_eq_false_iff.mp e).1
  have hrisen : Touches [.flds, .cardSerial, .cardSeated, .ledger, .ledgerSeq] (oneOf (riseFlds n)) s w :=
    hread.mono (by decide) fun _ => hcards
  rw [htest]
  refine ⟨.keep (.setBit (.setF hrisen ?_) ?_) hled, ?_, ?_⟩
  · exact oneOf_mem (List.mem_append_left _ List.mem_cons_self)
  · exact oneOf_mem (List.mem_append_right _ List.mem_cons_self)
  · rw [getF_congr hflds, setBit, getF_setF_ne (flashCards_keys n _ List.mem_cons_self), getF_setF_self, cardState_len]
    rfl
  · rw [getF_congr hflds, setBit, getF_setF_self, hflash]
    rfl

end

theorem setBitsAt_both (x : Nat) : setBitsAt (setBitsAt x 0 1 1 % 4) 1 1 1 % 4 = 3 := by
  simp only [setBitsAt]
  omega

end Sys2Proof.Machine
end

