-- ==== Sys2Proof/Proofs/SelfTestVerdict.lean ====
section
/-!
SUPPORT. Proofs/SelfTestVerdict.lean: what self-test reports, and its verdict (R203, R462, R463), for O53.
-/
namespace Sys2Proof.Machine

set_option Elab.async false

/-! ### What self-test reports (R462, R463) -/

/-- A self-test in which the cores `cs` fail and every other unit is good. -/
def failedCores (cs : List (Fin 192)) : SelfTest := ⟨cs, [], [], [], [], [], [], [], [], false, false, false⟩

/-- The units before the test: the fence list holds, and links and ports are up. -/
def unitsUp (s : State) : State :=
  setF (setF (setF (applyFenceList s) Reg.NOC_HINGE_LINK_UP 255) Reg.ID_RESOURCES_FAB_PORTS 255) Reg.ID_RESOURCES_HOST_PORTS 3

def cardsTested (r : SelfTest) (info : List (Nat × Nat × Nat)) (s : State) : State := testCard r info 1 (testCard r info 0 s)

/-- The fault report, and its record. -/
def reported (r : SelfTest) (s : State) : State := ledgerSelfTest { s with boot.report := reportOf r s }

/-- The module as it rates itself. -/
def ratedBy (r : SelfTest) (info : List (Nat × Nat × Nat)) (s : State) : State := reported r (rate (cardsTested r info s))

/-- The verdict: ready, degraded, or the safe state. -/
def verdict (r : SelfTest) (s : State) : State :=
  match testCauses r s with
  | [] => setIdState (readyState s) (stageNoted .tested s)
  | cs => safeOf cs (stageNoted .tested s)

theorem exec_selftestDone_eq (r : SelfTest) (info : List (Nat × Nat × Nat)) (s : State) :
    exec (.selftestDone r info) s = execSelftestDone r info s := rfl

theorem exec_selftestDone {s : State} (hs : s.boot.stage = .verified) (r : SelfTest) (info : List (Nat × Nat × Nat)) :
    exec (.selftestDone r info) s = .next (verdict r (ratedBy r info (failUnits r (unitsUp s)))) := by
  rw [exec_selftestDone_eq, execSelftestDone, if_neg (not_not.mpr hs)]
  rfl

section
variable (r : SelfTest) (info : List (Nat × Nat × Nat)) (s : State)

theorem reported_kept : keptBut [.boot, .ledger, .ledgerSeq] s (reported r s) :=
  keptBut_trans (boot_kept s { s.boot with report := reportOf r s }) (ledgerAdd_kept _ _ _)

theorem boot_reported : (reported r s).boot = { s.boot with report := reportOf r s } := ledgerAdd_kept _ _ _ .boot (by decide)

theorem grade_reportOf : (reportOf r s).grade = gradeOf s := rfl

theorem unitsUp_shown : let t := unitsUp s
    getF t Reg.NOC_HINGE_LINK_UP = 255 ∧ getF t Reg.ID_RESOURCES_FAB_PORTS = 255 ∧ getF t Reg.ID_RESOURCES_HOST_PORTS = 3 := by
  refine ⟨?_, ?_, getF_setF_self _ _ _⟩
  · rw [unitsUp, getF_setF_ne (by decide), getF_setF_ne (by decide), getF_setF_self]
    rfl
  · rw [unitsUp, getF_setF_ne (by decide), getF_setF_self]
    rfl

/-- The registers of links and ports in service. -/
def upFlds : List Fld := [Reg.NOC_HINGE_LINK_UP, Reg.ID_RESOURCES_FAB_PORTS, Reg.ID_RESOURCES_HOST_PORTS]

variable {s}

theorem applyFenceList_none (hc : s.sec.ks.fenceCores = []) (hv : s.sec.ks.fenceVaults = []) : applyFenceList s = s := by
  unfold applyFenceList
  dsimp only
  rw [hc, hv]
  rfl

theorem unitsUp_touches (hc : s.sec.ks.fenceCores = []) (hv : s.sec.ks.fenceVaults = []) : Touches [.flds] (oneOf upFlds) s (unitsUp s) := by
  rw [unitsUp, applyFenceList_none hc hv]
  exact .setF (.setF (.setF (.refl s)))

/-! ### Two cards that rise (R203) -/

/-- The registers that the test of the cards and the rating write. -/
def ratedFlds : List Fld := rateFlds ++ riseFlds 0 ++ riseFlds 1

def ratedParts : List Part := [.flds, .boot, .ledger, .ledgerSeq, .cardSerial, .cardSeated]

/-- A state in which both cards are absent yet and good when found. -/
structure CardsWait (s : State) : Prop where
  unready : s.ready = false
  latched : s.vflashLatched = [false, false]
  absent : getF s (cardState 0) = 0 ∧ getF s (cardState 1) = 0

theorem CardsWait.from {t : State} (h : CardsWait s) {l : List Part} {K : Nat → Bool} (g : Touches l K s t)
    (hl : l.contains .ready = false ∧ l.contains .vflashLatched = false)
    (hK : K (fldKey (cardState 0) .a) = false ∧ K (fldKey (cardState 1) .a) = false) : CardsWait t :=
  ⟨(g.parts .ready hl.1).trans h.unready, (g.parts .vflashLatched hl.2).trans h.latched,
    (g.getF hK.1).trans h.absent.1, (g.getF hK.2).trans h.absent.2⟩

theorem cardFound_good (cs : List (Fin 192)) (h : s.vflashLatched = [false, false]) (n : Fin 2) : cardFound (failedCores cs) s n = 2 := by
  have hlatch : ∀ n : Fin 2, [false, false].getD n.val false = false := by decide
  rw [cardFound, h, hlatch]
  rfl

/-- What the test of the cards and the rating leave. -/
structure Rated (s t : State) : Prop where
  touches : Touches ratedParts (oneOf ratedFlds) s t
  cards : getF t (cardState 0) = 2 ∧ getF t (cardState 1) = 2 ∧ getF t Reg.ID_RESOURCES_FLASH_CARDS = 3
  live : getF t Reg.ID_RESOURCES_CORES_LIVE = (liveCores s).length % 2 ^ 8 ∧ getF t Reg.ID_RESOURCES_VAULTS_LIVE = (liveVaults s).length % 2 ^ 6
  units : UnitsKept s t
  grade : t.boot = { s.boot with report := t.boot.report } ∧ t.boot.report.grade = gradeOf s

theorem ratedFlds_quiet : ∀ f ∈ unitFlds, oneOf ratedFlds (fldKey f .a) = false := by decide

theorem cardsTested_risen (h : CardsWait s) (cs : List (Fin 192)) : CardRisen 0 s (testCard (failedCores cs) info 0 s) ∧
    CardRisen 1 (testCard (failedCores cs) info 0 s) (cardsTested (failedCores cs) info s) := by
  have hfirst : CardRisen 0 s (testCard (failedCores cs) info (0 : Fin 2) s) :=
    testCard_rises info h.unready h.absent.1 (cardFound_good cs h.latched 0)
  have hparts := hfirst.touches.parts
  exact ⟨hfirst, testCard_rises (n := 1) info ((hparts .ready (by decide)).trans h.unready) ((hfirst.touches.getF (by decide)).trans h.absent.2)
    (cardFound_good cs ((hparts .vflashLatched (by decide)).trans h.latched) 1)⟩

theorem ratedBy_rated (h : CardsWait s) (cs : List (Fin 192)) : Rated s (ratedBy (failedCores cs) info s) := by
  obtain ⟨hfirst, hsecond⟩ := cardsTested_risen info h cs
  obtain ⟨a, ha⟩ : ∃ a, a = testCard (failedCores cs) info 0 s := ⟨_, rfl⟩
  obtain ⟨b, hb⟩ : ∃ b, b = cardsTested (failedCores cs) info s := ⟨_, rfl⟩
  rw [← ha] at hfirst hsecond
  rw [← hb] at hsecond
  have hrate := rate_touches b
  have hrep := reported_kept (failedCores cs) (rate b)
  have hflds : (reported (failedCores cs) (rate b)).flds = (rate b).flds := hrep .flds (by decide)
  have hone {k : Nat} (e : oneOf ratedFlds k = false) : oneOf rateFlds k = false ∧ oneOf (riseFlds 0) k = false ∧ oneOf (riseFlds 1) k = false := by
    rw [ratedFlds, oneOf_append, oneOf_append] at e
    obtain ⟨e, h1⟩ := Bool.or_eq_false_iff.mp e
    obtain ⟨hr, h0⟩ := Bool.or_eq_false_iff.mp e
    exact ⟨hr, h0, h1⟩
  have hcards : Touches ratedParts (oneOf ratedFlds) s b :=
    (hfirst.touches.mono (by decide) fun _ e => (hone e).2.1).step hsecond.touches (by decide) fun _ e => (hone e).2.2
  have hall : Touches ratedParts (oneOf ratedFlds) s (rate b) := hcards.step hrate (by decide) fun _ e => (hone e).1
  have hunits : UnitsKept s b := hcards.unitsKept ratedFlds_quiet
  obtain ⟨hcores, hvaults⟩ := getF_rate b
  obtain ⟨hlive, hvlive⟩ := hunits.live
  have hboot : (rate b).boot = s.boot :=
    (keptBut_trans (keptBut_trans hfirst.touches.parts hsecond.touches.parts) hrate.parts) .boot (by decide)
  rw [ratedBy, ← hb]
  refine ⟨hall.keep hrep, ⟨?_, ?_, ?_⟩, ⟨?_, ?_⟩, hunits.trans ?_, ?_, ?_⟩
  · exact (getF_congr hflds _).trans ((hrate.getF (by decide)).trans ((hsecond.touches.getF (by decide)).trans hfirst.state))
  · exact (getF_congr hflds _).trans ((hrate.getF (by decide)).trans hsecond.state)
  · refine (getF_congr hflds _).trans ((hrate.getF (by decide)).trans (hsecond.counted.trans ?_))
    rw [hfirst.counted]
    exact setBitsAt_both _
  · exact (getF_congr hflds _).trans (hcores.trans (by rw [hlive]))
  · exact (getF_congr hflds _).trans (hvaults.trans (by rw [hvlive]))
  · exact ((hrate.mono (l := ratedParts) (by decide) fun _ => id).keep hrep).unitsKept rateFlds_quiet
  · rw [boot_reported, hboot]
  · rw [boot_reported]
    exact (grade_reportOf _ _).trans ((rate_touches b).unitsKept rateFlds_quiet |>.gradeOf.trans hunits.gradeOf)

/-! ### The verdict (R463) -/

theorem testCauses_none {cs : List (Fin 192)} (hports : s.boot.portsShut = []) (hcommons : s.boot.commonsOut = [])
    (hcores : liveCores s ≠ []) (hvaults : liveVaults s ≠ []) (hglitch : s.sec.ks.glitchAck < 16) : testCauses (failedCores cs) s = [] := by
  have hlocked : ¬ 16 ≤ s.sec.ks.glitchAck := Nat.not_le.mpr hglitch
  simp [testCauses, failedCores, hports, hcommons, hcores, hvaults, hlocked]

theorem verdict_ready (h : testCauses r s = []) : verdict r s = setIdState (readyState s) (stageNoted .tested s) := by
  unfold verdict
  rw [h]

theorem readyState_degraded (h : gradeOf s ≠ 0) : readyState s = 2 := by
  unfold readyState
  rw [decide_eq_false h]
  rfl

theorem readyState_full (hg : gradeOf s = 0) (hflash : getF s Reg.ID_RESOURCES_FLASH_CARDS = 3) (hhost : getF s Reg.ID_RESOURCES_HOST_PORTS = 3)
    (hfab : getF s Reg.ID_RESOURCES_FAB_PORTS = 255) (hcommons : s.boot.commonsOut = []) (hhinge : getF s Reg.NOC_HINGE_LINK_UP = 255) :
    readyState s = 1 := by
  unfold readyState
  rw [hg, hflash, hhost, hfab, hcommons, hhinge]
  rfl

theorem verdict_spec (h : testCauses r s = []) : let t := verdict r s
    t.boot.stage = .tested ∧ t.boot.report = s.boot.report ∧ getF t Reg.ID_STATE_STATE = readyState s ∧
      Touches [.flds, .boot] (oneOf [Reg.ID_STATE_STATE, Reg.ID_CONFIG_SEQ]) s t := by
  rw [verdict_ready r h]
  have hstate := setIdState_touches (readyState s) (stageNoted .tested s)
  have hboot : (setIdState (readyState s) (stageNoted .tested s)).boot = (stageNoted .tested s).boot := hstate.parts .boot (by decide)
  have hlt : readyState s < 16 := by
    unfold readyState
    split <;> decide
  refine ⟨by rw [hboot]; rfl, by rw [hboot]; rfl, getF_setIdState hlt _, ?_⟩
  exact (Touches.keep (.refl s) (stageNoted_kept .tested s)).step hstate (by decide) fun _ => id

end

/-! ### A self-test of good units (R463) -/

/-- What O53 asks of the state in which self-test ends. -/
structure TestReady (s : State) : Prop where
  stage : s.boot.stage = .verified
  unready : s.ready = false
  img : s.img = none
  cores : ∀ k, k < 192 → coreFenced s k = false
  vaults : ∀ v, v < 32 → vaultRetired s v = false
  lists : s.sec.ks.fenceCores = [] ∧ s.sec.ks.fenceVaults = []
  glitch : s.sec.ks.glitchAck < 16
  latched : s.vflashLatched = [false, false]
  boot : s.boot.commonsOut = [] ∧ s.boot.portsShut = []
  absent : getF s (cardState 0) = 0 ∧ getF s (cardState 1) = 0

section
variable {s : State} (h : TestReady s) (info : List (Nat × Nat × Nat))
include h

theorem unitsUp_ready : Touches [.flds] (oneOf upFlds) s (unitsUp s) ∧ CardsWait (unitsUp s) ∧ UnitsKept s (unitsUp s) := by
  have hup := unitsUp_touches h.lists.1 h.lists.2
  exact ⟨hup, CardsWait.from ⟨h.unready, h.latched, h.absent⟩ hup (by decide) (by decide), hup.unitsKept (by decide)⟩

/-- The verdict on the units that the test has left. -/
theorem verdict_of_rated (cs : List (Fin 192)) {u t : State} (hrated : Rated u t) (hboot : u.boot = s.boot)
    (hglitch : u.sec.ks.glitchAck = s.sec.ks.glitchAck) (hcores : 0 < (liveCores u).length) (hvaults : (liveVaults u).length = 32) :
    testCauses (failedCores cs) t = [] := by
  obtain ⟨hlive, hvlive⟩ := hrated.units.live
  obtain ⟨hsame, -⟩ := hrated.grade
  have hsec : t.sec = u.sec := hrated.touches.parts .sec (by decide)
  refine testCauses_none ?_ ?_ ?_ ?_ ?_
  · rw [hsame, hboot]
    exact h.boot.2
  · rw [hsame, hboot]
    exact h.boot.1
  · rw [hlive]
    exact List.ne_nil_of_length_pos hcores
  · rw [hvlive]
    exact List.ne_nil_of_length_pos (by omega)
  · rw [hsec, hglitch]
    exact h.glitch

/-- What self-test leaves of the units `u` that it has found. -/
theorem exec_selftestDone_rated (cs : List (Fin 192)) {u : State} (hu : failUnits (failedCores cs) (unitsUp s) = u) (hwait : CardsWait u)
    (hboot : u.boot = s.boot) (hglitch : u.sec.ks.glitchAck = s.sec.ks.glitchAck) (hcores : 0 < (liveCores u).length)
    (hvaults : (liveVaults u).length = 32) : ∃ w t, exec (.selftestDone (failedCores cs) info) s = .next t ∧ Rated u w ∧
      t.boot.stage = .tested ∧ t.boot.report.grade = gradeOf u ∧ getF t Reg.ID_STATE_STATE = readyState w ∧
      Touches [.flds, .boot] (oneOf [Reg.ID_STATE_STATE, Reg.ID_CONFIG_SEQ]) w t := by
  have hrated := ratedBy_rated info hwait cs
  obtain ⟨hstage, hreport, hstate, htouches⟩ := verdict_spec (failedCores cs) (verdict_of_rated h cs hrated hboot hglitch hcores hvaults)
  obtain ⟨-, hgrade⟩ := hrated.grade
  exact ⟨_, _, (exec_selftestDone h.stage _ info).trans (by rw [hu]), hrated, hstage, by rw [hreport, hgrade], hstate, htouches⟩

theorem selftestDone_good : ∃ t, exec (.selftestDone (failedCores []) info) s = .next t ∧ t.boot.stage = .tested ∧ t.boot.report.grade = 0 ∧
    getF t Reg.ID_STATE_STATE = 1 ∧ getF t Reg.ID_RESOURCES_CORES_LIVE = 192 ∧ getF t Reg.ID_RESOURCES_VAULTS_LIVE = 32 ∧
    getF t Reg.ID_RESOURCES_FLASH_CARDS = 3 ∧ getF t Reg.ID_RESOURCES_HOST_PORTS = 3 ∧ getF t Reg.ID_RESOURCES_FAB_PORTS = 255 ∧
    getF t (cardState 0) = 2 ∧ getF t (cardState 1) = 2 ∧ keptBut ratedParts s t := by
  obtain ⟨hup, hwait, hunits⟩ := unitsUp_ready h
  obtain ⟨hlive, hvlive⟩ := hunits.live
  have hcores : (liveCores (unitsUp s)).length = 192 := by rw [hlive, liveCores_all h.cores]
  have hvaults : (liveVaults (unitsUp s)).length = 32 := by rw [hvlive, liveVaults_all h.vaults]
  have hboot : (unitsUp s).boot = s.boot := hup.parts .boot (by decide)
  have hsec : (unitsUp s).sec = s.sec := hup.parts .sec (by decide)
  have hgrade : gradeOf (unitsUp s) = 0 := by
    unfold gradeOf
    rw [hcores, hvaults]
    rfl
  obtain ⟨hhinge, hfab, hhost⟩ := unitsUp_shown s
  obtain ⟨w, t, hexec, hrated, hstage, hreport, hstate, htouches⟩ :=
    exec_selftestDone_rated (u := unitsUp s) h info [] rfl hwait hboot (by rw [hsec]) (by omega) hvaults
  obtain ⟨hcard0, hcard1, hflash⟩ := hrated.cards
  obtain ⟨hwcores, hwvaults⟩ := hrated.live
  rw [hcores] at hwcores
  rw [hvaults] at hwvaults
  have hports {f : Fld} (hf : f ∈ upFlds) : getF w f = getF (unitsUp s) f :=
    hrated.touches.getF ((by decide : ∀ f ∈ upFlds, oneOf ratedFlds (fldKey f .a) = false) f hf)
  have hcommons : w.boot.commonsOut = [] := by
    obtain ⟨hsame, -⟩ := hrated.grade
    rw [hsame, hboot]
    exact h.boot.1
  have hready : readyState w = 1 := readyState_full (hrated.units.gradeOf.trans hgrade) hflash ((hports (by decide)).trans hhost)
    ((hports (by decide)).trans hfab) hcommons ((hports (by decide)).trans hhinge)
  refine ⟨t, hexec, hstage, hreport.trans hgrade, hstate.trans hready, (htouches.getF (by decide)).trans hwcores,
    (htouches.getF (by decide)).trans hwvaults, (htouches.getF (by decide)).trans hflash,
    (htouches.getF (by decide)).trans ((hports (by decide)).trans hhost), (htouches.getF (by decide)).trans ((hports (by decide)).trans hfab),
    (htouches.getF (by decide)).trans hcard0, (htouches.getF (by decide)).trans hcard1, ?_⟩
  exact (keptBut_trans (keptBut_trans hup.parts hrated.touches.parts) htouches.parts).mono (by decide)

theorem selftestDone_core (c : Fin 192) : ∃ t, exec (.selftestDone (failedCores [c]) info) s = .next t ∧ t.boot.stage = .tested ∧
    getF t Reg.ID_STATE_STATE = 2 ∧ coreFenced t c = true ∧ t.sec.ks.fenceCores = [c.val] ∧ getF t Reg.ID_RESOURCES_CORES_LIVE = 191 ∧
    keptBut (ratedParts ++ [.cores, .sec]) s t := by
  obtain ⟨hup, hwait, hunits⟩ := unitsUp_ready h
  have hfree : ∀ k, k < 192 → coreFenced (unitsUp s) k = false := fun k hk => (hunits.1 k hk).trans (h.cores k hk)
  have himg : (unitsUp s).img = none := (hup.parts .img (by decide)).trans h.img
  have hsec : (unitsUp s).sec = s.sec := hup.parts .sec (by decide)
  obtain ⟨hlost, hfenced, hretired, hlist, hglitch⟩ := loseCore_spec (cause := 2) c.isLt hwait.unready himg (hfree c c.isLt)
  obtain ⟨u, hu⟩ : ∃ u, u = loseCore c 2 (unitsUp s) := ⟨_, rfl⟩
  rw [← hu] at hlost hfenced hretired hlist hglitch
  have hcores : (liveCores u).length = 191 := by
    refine liveCores_all_but c.isLt fun k hk => ?_
    rw [hfenced k hk, hfree k hk]
    by_cases hkc : k = c.val <;> simp [hkc]
  have hvaults : (liveVaults u).length = 32 := liveVaults_all fun v hv => (hretired v).trans ((hunits.2 v).trans (h.vaults v hv))
  have hboot : u.boot = s.boot := (keptBut_trans hup.parts hlost.parts) .boot (by decide)
  obtain ⟨w, t, hexec, hrated, hstage, -, hstate, htouches⟩ :=
    exec_selftestDone_rated h info [c] hu.symm (hwait.from hlost (by decide) (by decide)) hboot (by rw [hglitch, hsec]) (by omega) hvaults
  have hgrade : gradeOf u ≠ 0 := by
    unfold gradeOf
    rw [hcores, hvaults]
    decide
  obtain ⟨hwcores, -⟩ := hrated.live
  rw [hcores] at hwcores
  have htsec : t.sec = u.sec := keptBut_trans hrated.touches.parts htouches.parts .sec (by decide)
  have hkept : keptBut (ratedParts ++ [.cores, .sec]) s t :=
    (keptBut_trans (keptBut_trans hup.parts hlost.parts) (keptBut_trans hrated.touches.parts htouches.parts)).mono (by decide)
  refine ⟨t, hexec, hstage, hstate.trans (readyState_degraded (by rwa [hrated.units.gradeOf])), ?_, ?_,
    (htouches.getF (by decide)).trans hwcores, hkept⟩
  · rw [(htouches.unitsKept (by decide)).1 c c.isLt, hrated.units.1 c c.isLt, hfenced c c.isLt, if_pos rfl]
  · rw [htsec, hlist, hsec, h.lists.1]
    rfl

end

end Sys2Proof.Machine
end

