-- ==== Sys2Proof/Proofs/ExtendedSelfTest.lean ====
section
/-!
SUPPORT. Proofs/ExtendedSelfTest.lean: the extended self-test returns units to service (R464, R469), and O53.
-/
namespace Sys2Proof.Machine

set_option Elab.async false

/-! ### Units return to service (R469) -/

def coreCleared (s : State) (c : Nat) : State := ledgerFence 2 c 0 (setBit s (Reg.ID_FENCED_CORES (c / 32)) (c % 32) false)

def vaultCleared (s : State) (v : Nat) : State := ledgerVault 2 v (setF (setBit s Reg.ID_RETIRED_VAULTS v false) (vaultState v) 0)

def fencedFlds : List Fld := (List.range 6).map Reg.ID_FENCED_CORES

def retiredFlds : List Fld := Reg.ID_RETIRED_VAULTS :: (List.range 32).map vaultState

theorem coreCleared_touches {c : Nat} (hc : c < 192) (s : State) : Touches [.flds, .ledger, .ledgerSeq] (oneOf fencedFlds) s (coreCleared s c) :=
  .keep (.setBit (.refl s) (oneOf_mem (List.mem_map_of_mem (List.mem_range.mpr (by omega))))) (ledgerAdd_kept _ _ _)

theorem vaultCleared_touches {v : Nat} (hv : v < 32) (s : State) : Touches [.flds, .ledger, .ledgerSeq] (oneOf retiredFlds) s (vaultCleared s v) :=
  .keep (.setF (.setBit (.refl s) (oneOf_mem List.mem_cons_self)) (oneOf_mem (List.mem_cons_of_mem _ (List.mem_map_of_mem (List.mem_range.mpr hv)))))
    (ledgerAdd_kept _ _ _)

theorem coreFenced_coreCleared {c d : Nat} (hc : c < 192) (hd : d < 192) (s : State) :
    coreFenced (coreCleared s d) c = if c = d then false else coreFenced s c :=
  (coreFenced_congr (ledgerAdd_kept _ _ _ .flds (by decide)) c).trans (coreFenced_setBit hc hd false s)

theorem vaultRetired_vaultCleared {v w : Nat} (hv : v < 32) (hw : w < 32) (s : State) :
    vaultRetired (vaultCleared s w) v = if v = w then false else vaultRetired s v := by
  have hkey : ∀ j : Fin 32, fldKey Reg.ID_RETIRED_VAULTS .a ≠ fldKey (vaultState j) .a := by decide
  have hclear : vaultRetired (vaultCleared s w) v = getBit (setBit s Reg.ID_RETIRED_VAULTS w false) Reg.ID_RETIRED_VAULTS v :=
    (getBit_congr (ledgerAdd_kept _ _ _ .flds (by decide)) _ _).trans (congrArg (bit · v) (getF_setF_ne (hkey ⟨w, hw⟩)))
  rw [hclear]
  by_cases h : v = w
  · subst h
    rw [if_pos rfl]
    exact getBit_setBit_self s (f := Reg.ID_RETIRED_VAULTS) hv false
  · rw [if_neg h]
    exact getBit_setBit_ne s (f := Reg.ID_RETIRED_VAULTS) hv h false

theorem coresCleared_free {cs : List Nat} (hcs : ∀ d ∈ cs, d < 192) {c : Nat} (hc : c < 192) {s : State} (h : c ∈ cs ∨ coreFenced s c = false) :
    coreFenced (cs.foldl coreCleared s) c = false := by
  induction cs generalizing s with
  | nil => exact h.resolve_left List.not_mem_nil
  | cons d cs ih =>
    refine ih (fun x hx => hcs x (List.mem_cons_of_mem _ hx)) ?_
    rw [coreFenced_coreCleared hc (hcs d List.mem_cons_self)]
    by_cases hd : c = d
    · exact .inr (if_pos hd)
    · rw [if_neg hd]
      exact h.imp_left fun hm => (List.mem_cons.mp hm).resolve_left hd

theorem vaultsCleared_free {vs : List Nat} (hvs : ∀ w ∈ vs, w < 32) {v : Nat} (hv : v < 32) {s : State} (h : v ∈ vs ∨ vaultRetired s v = false) :
    vaultRetired (vs.foldl vaultCleared s) v = false := by
  induction vs generalizing s with
  | nil => exact h.resolve_left List.not_mem_nil
  | cons w vs ih =>
    refine ih (fun x hx => hvs x (List.mem_cons_of_mem _ hx)) ?_
    rw [vaultRetired_vaultCleared hv (hvs w List.mem_cons_self)]
    by_cases hw : v = w
    · exact .inr (if_pos hw)
    · rw [if_neg hw]
      exact h.imp_left fun hm => (List.mem_cons.mp hm).resolve_left hw

/-- Every unit of the fence list is in service. -/
def unitsCleared (s : State) : State := s.sec.ks.fenceVaults.foldl vaultCleared (s.sec.ks.fenceCores.foldl coreCleared s)

/-- And the list is empty. -/
def unitsRestored (s : State) : State := putKs (unitsCleared s) { (unitsCleared s).sec.ks with fenceCores := [], fenceVaults := [] }

theorem restoreUnits_all {s : State} (h : ∀ c ∈ s.sec.ks.fenceCores, routerShut s (coreRouter c) = false) :
    restoreUnits (failedCores []) s = unitsRestored s := by
  have hcores : (s.sec.ks.fenceCores.filter fun c => !((failedCores []).cores.map fun x => x.val).contains c && !routerShut s (coreRouter c)) =
      s.sec.ks.fenceCores := List.filter_eq_self.mpr fun c hc => by rw [h c hc]; rfl
  have hvaults : (s.sec.ks.fenceVaults.filter fun v => !((failedCores []).vaults.map fun x => x.val).contains v) = s.sec.ks.fenceVaults :=
    List.filter_eq_self.mpr fun v _ => rfl
  have hnone (l : List Nat) : (l.filter fun x => !l.contains x) = [] := List.filter_eq_nil_iff.mpr fun x hx => by simp [hx]
  unfold restoreUnits
  dsimp only
  rw [hcores, hvaults, hnone, hnone]
  rfl

/-- The fence list is empty, and the units `cs` and `vs` are in service. -/
structure Restored (cs vs : List Nat) (s : State) : Prop where
  lists : s.sec.ks.fenceCores = [] ∧ s.sec.ks.fenceVaults = []
  cores : ∀ c ∈ cs, c < 192 → coreFenced s c = false
  vaults : ∀ v ∈ vs, vaultRetired s v = false

theorem Restored.step {cs vs : List Nat} {s t : State} (h : Restored cs vs s) {l : List Part} {K : Nat → Bool} (g : Touches l K s t)
    (hl : l.contains .sec = false := by decide) (hK : ∀ f ∈ unitFlds, K (fldKey f .a) = false := by decide) : Restored cs vs t := by
  have hsec : t.sec = s.sec := g.parts .sec hl
  obtain ⟨hcores, hvaults⟩ := g.unitsKept hK
  exact ⟨by rw [hsec]; exact h.lists, fun c hc hlt => (hcores c hlt).trans (h.cores c hc hlt), fun v hv => (hvaults v).trans (h.vaults v hv)⟩

def restoreParts : List Part := [.flds, .ledger, .ledgerSeq]

theorem unitsRestored_spec {s : State} (hc : ∀ c ∈ s.sec.ks.fenceCores, c < 192) (hv : ∀ v ∈ s.sec.ks.fenceVaults, v < 32) :
    Restored s.sec.ks.fenceCores s.sec.ks.fenceVaults (unitsRestored s) ∧ keptBut (.sec :: restoreParts) s (unitsRestored s) := by
  obtain ⟨a, ha⟩ : ∃ a, a = s.sec.ks.fenceCores.foldl coreCleared s := ⟨_, rfl⟩
  obtain ⟨b, hb⟩ : ∃ b, b = unitsCleared s := ⟨_, rfl⟩
  have hcleared : b = s.sec.ks.fenceVaults.foldl vaultCleared a := by rw [hb, ha, unitsCleared]
  have hcores : Touches restoreParts (oneOf fencedFlds) s a := by
    rw [ha]
    exact .foldl_mem (.refl s) fun u c hm => coreCleared_touches (hc c hm) u
  have hvaults : Touches restoreParts (oneOf retiredFlds) a b := by
    rw [hcleared]
    exact .foldl_mem (.refl a) fun u v hm => vaultCleared_touches (hv v hm) u
  obtain ⟨k, hk⟩ : ∃ k : KeyStore, k = { b.sec.ks with fenceCores := [], fenceVaults := [] } := ⟨_, rfl⟩
  have hkeys := putKs_touches b k
  have hrestored : unitsRestored s = putKs b k := by rw [hk, hb, unitsRestored]
  obtain ⟨hkcores, hkvaults⟩ := hkeys.unitsKept (by decide)
  rw [hrestored]
  refine ⟨⟨by rw [ks_putKs, hk]; exact ⟨rfl, rfl⟩, fun c hm hlt => ?_, fun v hm => ?_⟩,
    (keptBut_trans (keptBut_trans hcores.parts hvaults.parts) hkeys.parts).mono (by decide)⟩
  · rw [hkcores c hlt, hvaults.coreFenced hlt (by decide), ha]
    exact coresCleared_free hc hlt (.inl hm)
  · rw [hkvaults v, hcleared]
    exact vaultsCleared_free hv (hv v hm) (.inl hm)

/-! ### The extended self-test ends (R469) -/

/-- The functions wait, and the test is no longer on. -/
def testOpened (s : State) : State := { s with ready := false, boot.extended := false }

/-- They answer again. -/
def answersAgain (s : State) : State := { s with ready := true }

theorem testOpened_kept (s : State) : keptBut [.ready, .boot] s (testOpened s) := fun p hp => by
  cases p with
  | ready | boot => exact absurd hp (by decide)
  | _ => rfl

theorem answersAgain_kept (s : State) : keptBut [.ready] s (answersAgain s) := fun p hp => by
  cases p with
  | ready => exact absurd hp (by decide)
  | _ => rfl

/-- The module's state after its units were tested. -/
def stateShown (s : State) : State := answersAgain (setF s Reg.ID_STATE_STATE (readyState s))

/-- The extended self-test of good units. -/
def retested (info : List (Nat × Nat × Nat)) (s : State) : State :=
  stateShown (ratedBy (failedCores []) info (restoreUnits (failedCores []) (testOpened s)))

theorem exec_extendedSelftestDone_eq (r : SelfTest) (info : List (Nat × Nat × Nat)) (s : State) :
    exec (.extendedSelftestDone r info) s = execExtendedSelftestDone r info s := rfl

theorem exec_extendedSelftestDone {s : State} (h : s.boot.extended = true) (info : List (Nat × Nat × Nat)) :
    exec (.extendedSelftestDone (failedCores []) info) s =
      .next (safeOf (testCauses (failedCores []) (distRewrite (configChange (retested info) s))) (distRewrite (configChange (retested info) s))) := by
  rw [exec_extendedSelftestDone_eq, execExtendedSelftestDone, if_neg (by rw [h]; decide)]
  rfl

/-- The extended self-test is over: its units are restored, and the functions answer. -/
structure TestOver (cs vs : List Nat) (s : State) : Prop where
  restored : Restored cs vs s
  ready : s.ready = true
  ended : s.boot.extended = false

theorem TestOver.step {cs vs : List Nat} {s t : State} (h : TestOver cs vs s) {l : List Part} {K : Nat → Bool} (g : Touches l K s t)
    (hl : l.contains .sec = false ∧ l.contains .ready = false ∧ l.contains .boot = false := by decide)
    (hK : ∀ f ∈ unitFlds, K (fldKey f .a) = false := by decide) : TestOver cs vs t := by
  obtain ⟨hsec, hready, hboot⟩ := hl
  have hsame : t.boot = s.boot := g.parts .boot hboot
  exact ⟨h.restored.step g hsec hK, (g.parts .ready hready).trans h.ready, by rw [hsame, h.ended]⟩

theorem coreRouter_lt {c : Nat} (hc : c < 192) : coreRouter c < 208 := by
  unfold coreRouter routerId coreCol coreRow
  split <;> omega

/-- What the test of cards and the rating write, with the report. -/
theorem ratedBy_touches (r : SelfTest) (info : List (Nat × Nat × Nat)) (s : State) : Touches (cardNoteParts ++ cardSeatParts ++ [.boot])
    (fun k => (cardTestKey 0 k || cardTestKey 1 k) || oneOf rateFlds k) s (ratedBy r info s) := by
  have hcards : Touches (cardNoteParts ++ cardSeatParts ++ [.boot]) (fun k => (cardTestKey 0 k || cardTestKey 1 k) || oneOf rateFlds k) s
      (cardsTested r info s) :=
    .step (.step (.refl s) (testCard_touches r info 0 s) (by decide) fun _ e => (Bool.or_eq_false_iff.mp (Bool.or_eq_false_iff.mp e).1).1)
      (testCard_touches r info 1 _) (by decide) fun _ e => (Bool.or_eq_false_iff.mp (Bool.or_eq_false_iff.mp e).1).2
  exact (hcards.step (rate_touches _) (by decide) fun _ e => (Bool.or_eq_false_iff.mp e).2).keep (reported_kept r _)

theorem extended_ratedBy (r : SelfTest) (info : List (Nat × Nat × Nat)) (s : State) : (ratedBy r info s).boot.extended = s.boot.extended := by
  have hboot : (rate (cardsTested r info s)).boot = s.boot :=
    keptBut_trans (keptBut_trans (testCard_touches r info 0 s).parts (testCard_touches r info 1 _).parts) (rate_touches _).parts .boot (by decide)
  rw [ratedBy, boot_reported, hboot]

theorem stateShown_over {cs vs : List Nat} {s : State} (h : Restored cs vs s) (ho : s.boot.extended = false) : TestOver cs vs (stateShown s) := by
  have hset : Touches [.flds, .ready] (oneOf [Reg.ID_STATE_STATE]) s (stateShown s) := .keep (.setF (.refl s)) (answersAgain_kept _)
  have hboot : (stateShown s).boot = s.boot := hset.parts .boot (by decide)
  exact ⟨h.step hset, rfl, by rw [hboot, ho]⟩

theorem retested_over {s : State} (hr : ∀ x, x < 208 → routerShut s x = false) (hc : ∀ c ∈ s.sec.ks.fenceCores, c < 192)
    (hv : ∀ v ∈ s.sec.ks.fenceVaults, v < 32) (info : List (Nat × Nat × Nat)) :
    TestOver s.sec.ks.fenceCores s.sec.ks.fenceVaults (retested info s) := by
  have hopened := testOpened_kept s
  have hsec : (testOpened s).sec = s.sec := hopened .sec (by decide)
  have hshut : ∀ c ∈ (testOpened s).sec.ks.fenceCores, routerShut (testOpened s) (coreRouter c) = false := fun c hm => by
    rw [hsec] at hm
    exact (getBit_congr (hopened .flds (by decide)) _ _).trans (hr _ (coreRouter_lt (hc c hm)))
  obtain ⟨hrestored, hparts⟩ := unitsRestored_spec (s := testOpened s) (by rwa [hsec]) (by rwa [hsec])
  rw [hsec, ← restoreUnits_all hshut] at hrestored
  rw [← restoreUnits_all hshut] at hparts
  have hboot : (restoreUnits (failedCores []) (testOpened s)).boot = (testOpened s).boot := hparts .boot (by decide)
  refine stateShown_over (hrestored.step (ratedBy_touches (failedCores []) info _)) ?_
  rw [extended_ratedBy, hboot]
  rfl

theorem configChange_over {s : State} (hr : ∀ x, x < 208 → routerShut s x = false) (hc : ∀ c ∈ s.sec.ks.fenceCores, c < 192)
    (hv : ∀ v ∈ s.sec.ks.fenceVaults, v < 32) (info : List (Nat × Nat × Nat)) :
    TestOver s.sec.ks.fenceCores s.sec.ks.fenceVaults (configChange (retested info) s) := by
  have hset (t : State) (n : Nat) : Touches [.flds] (oneOf [Reg.ID_CONFIG_SEQ]) t (setF t Reg.ID_CONFIG_SEQ n) := .setF (.refl t)
  have hkeys : ∀ j : Fin 7, oneOf [Reg.ID_CONFIG_SEQ] (fldKey (Reg.NOC_ROUTER_SHUT j) .a) = false := by decide
  unfold configChange
  split
  · obtain ⟨w, hw⟩ : ∃ w, w = setF s Reg.ID_CONFIG_SEQ (getF s Reg.ID_CONFIG_SEQ + 1) := ⟨_, rfl⟩
    have hmoved : Touches [.flds] (oneOf [Reg.ID_CONFIG_SEQ]) s w := by
      rw [hw]
      exact hset s _
    have hsec : w.sec = s.sec := hmoved.parts .sec (by decide)
    have hover := retested_over (s := w) (fun x hx => by
      rw [routerShut, getBit, hmoved.getF (hkeys ⟨x / 32, by omega⟩)]
      exact hr x hx) (by rwa [hsec]) (by rwa [hsec]) info
    rw [hsec] at hover
    dsimp only
    rw [← hw]
    exact hover.step (hset _ _)
  · exact retested_over hr hc hv info

/-! ### Causes of the safe state (R464) -/

theorem enterSafe_cases (cause unit : Nat) (detail : List Nat) (s : State) : enterSafe cause unit detail s = s ∨
    enterSafe cause unit detail s = safeTold cause unit (safeEntered cause unit detail s) := by
  unfold enterSafe
  split
  · exact .inl rfl
  · exact .inl rfl
  · exact .inl rfl
  · exact .inl rfl
  · exact .inr rfl

theorem TestOver.enterSafe {cs vs : List Nat} {s : State} (h : TestOver cs vs s) (cause unit : Nat) (detail : List Nat) :
    TestOver cs vs (enterSafe cause unit detail s) := by
  rcases enterSafe_cases cause unit detail s with he | he
  · rwa [he]
  · have htold := safeTold_touches cause unit detail s
    rw [he]
    exact ⟨h.restored.step htold, (htold.parts .ready (by decide)).trans h.ready, by rw [boot_safeTold]; rfl⟩

theorem TestOver.safeOf {cs vs : List Nat} {s : State} (h : TestOver cs vs s) (l : List (Nat × List Nat)) : TestOver cs vs (safeOf l s) := by
  unfold Machine.safeOf
  split
  · exact h
  · exact h.enterSafe _ _ _

/-! ### The statement -/

theorem extendedSelftestDone_good {s : State} (he : s.boot.extended = true) (hr : ∀ x, x < 208 → routerShut s x = false)
    (hc : ∀ c ∈ s.sec.ks.fenceCores, c < 192) (hv : ∀ v ∈ s.sec.ks.fenceVaults, v < 32) (info : List (Nat × Nat × Nat)) :
    ∃ t, exec (.extendedSelftestDone (failedCores []) info) s = .next t ∧ TestOver s.sec.ks.fenceCores s.sec.ks.fenceVaults t :=
  ⟨_, exec_extendedSelftestDone he info, ((configChange_over hr hc hv info).step (distRewrite_touches _)).safeOf _⟩

/-- Settles O53: each command by the stage it needs, self-test by the units it finds. -/
theorem powerUpSequence : Obligations.PowerUpSequence := by
  unfold Obligations.PowerUpSequence
  refine ⟨fun s k vs ms => ⟨fun hs ok bad => congrArg Host.Outcome.next (if_pos hs), fun hs => ⟨fun bad => ?_, bootVerifyDone_bad_spec hs vs ms k,
      bootVerifyDone_ok_spec hs vs ms⟩⟩, ?_, fun s r info => ⟨fun hs => congrArg Host.Outcome.next (if_pos hs), fun he => ?_⟩,
    fun s dist acct win report => ⟨fun hs => congrArg Host.Outcome.next (if_pos hs), functionsReady_spec dist acct win report⟩, ?_⟩
  · obtain ⟨hstage, hcause, -, hmem⟩ := enterSafe_locked hs 1 0
    exact ⟨_, exec_bootVerifyDone_security hs vs ms bad, hstage, hcause, hmem⟩
  · intro s info c good hs hr himg hcores hvaults hfc hfv hglitch hlatched hcommons hports h0 h1
    have h : TestReady s := ⟨hs, hr, himg, hcores, hvaults, ⟨hfc, hfv⟩, hglitch, hlatched, ⟨hcommons, hports⟩, h0, h1⟩
    exact ⟨selftestDone_good h info, selftestDone_core h info c⟩
  · exact congrArg Host.Outcome.next (if_pos (by rw [he]; rfl))
  · intro s info he hr hc hv
    obtain ⟨t, hexec, ⟨⟨hfc, hfv⟩, hcores, hvaults⟩, hready, hover⟩ := extendedSelftestDone_good he hr hc hv info
    exact ⟨t, hexec, hover, hready, hfc, hfv, fun c hm => hcores c hm (hc c hm), hvaults⟩

end Sys2Proof.Machine
end
